-- ==== Sys2Proof/Word.lean ====
section
/-! DEFINITION. The word types of the KK-8128 and the plain keyed table that every indexed
array of the device is kept in. -/

namespace Sys2Proof

/-- A byte. -/
abbrev Byte := BitVec 8

/-- A word is 32 bits unless a chapter states otherwise (00_scope.md, Notation). -/
abbrev Word := BitVec 32

/-- A 64-bit quantity: a tag, a general register, a bus address, device time T64. -/
abbrev Dword := BitVec 64

/-- An indexed array of the device, as plain data: the entries that differ from the array's
default, in rising order of their index.  The operations are in Machine/Tab.lean. -/
abbrev Tab (α : Type) := List (Nat × α)

end Sys2Proof
end

