-- ==== Sys2Proof/Syntax.lean ====
section
/-! DEFINITION. The commands of the KK-8128 block: one constructor for each row of the command
table, with the operands that the row's event or instruction carries. -/

namespace Sys2Proof

/-- The tag of a token (R22, R24).  ESEL is bits [55:40]: NODE and PORT of a cell, and the
selector of any other endpoint.  Bit 0 of FLAGS is the reserved bit of R23. -/
structure Tag where
  dest  : BitVec 8
  esel  : BitVec 16
  ctx   : BitVec 17
  gen   : BitVec 4
  iter  : BitVec 8
  cls   : BitVec 2
  epar  : Bool
  len   : BitVec 3
  flags : BitVec 5
  deriving DecidableEq, Repr

/-- A token: its tag and its payload words (R22, R25). -/
structure Token where
  tag     : Tag
  payload : List Word
  deriving DecidableEq, Repr

/-- The access sizes of a region request (R209, R267): 1, 2, 4, 8 bytes and a vector of 64. -/
abbrev Sz := BitVec 3

/-- A control message of the fabric (R256, VN CTL): the Reeve's and the cells' bookkeeping.
`cellGen` is the CELL_GEN the Reeve put in it (R482). -/
inductive Ctl where
  /-- Install of a context on a cell: partition, class, graph and generation (R91). -/
  | install (cell cellGen ctx gen cls graph part : Nat)
  /-- Acknowledgement of an install (R91). -/
  | installAck (cell ctx gen : Nat)
  /-- Uninstall of a context's generation at a cell, which starts its sweep (R83). -/
  | uninstall (cell cellGen ctx gen : Nat)
  /-- A producer's request for credit (R81).  Producers carry the initiator codes of R253.  A
  generation is named for the context that the producer runs or feeds; a request of a firing for
  another context names none (R176).  `pair`: for the class 0 firings of a pair, whose credit is kept per
  pair (R80). -/
  | creditReq (prod ctx : Nat) (gen : Option Nat) (pair : Bool)
  /-- A grant of credit to a producer, with the generation that its request named (R80).  `gone`: the
  context was not LIVE at the grant (R176). -/
  | creditGrant (prod cellGen ctx gen n : Nat) (asked : Option Nat) (pair gone : Bool)
  /-- Credit returned by a unit (R80). -/
  | creditReturn (unit ctx gen n : Nat)
  deriving DecidableEq, Repr

/-- What a router discards with an uncorrectable or malformed header (R270): a token, a region
request or its response (by initiator and XID), or a control message. -/
inductive Lost where
  | token (src : BitVec 8) (t : Token)
  | req (src : BitVec 8) (xid : BitVec 32)
  | rsp (src : BitVec 8) (xid : BitVec 32)
  | ctl (m : Ctl)
  deriving DecidableEq, Repr

/-- What the fabric finds in a transaction on its way (R270): how often it corrects a single-bit error, and
whether a data unit has an uncorrectable error. -/
structure UnitErr where
  corrected : BitVec 16 := 0
  data      : Bool := false
  deriving DecidableEq, Repr

/-- A command descriptor of 64 bytes (R392).  ARGS is bytes 32 to 63, byte 32 lowest. -/
structure Desc where
  opcode : BitVec 16
  cseq   : BitVec 16
  dflags : BitVec 8
  zero   : BitVec 24
  tag    : BitVec 64
  haddr  : BitVec 64
  hlen   : BitVec 32
  target : BitVec 32
  args   : BitVec 256
  deriving DecidableEq, Repr

/-- What the host's buffer answers when a command reads it (R394): its bytes, a completion
timeout, or a failed read (Unsupported Request, Completer Abort or a poisoned TLP). -/
inductive HostBuf where
  | data (bytes : List Byte)
  | timeout
  | failed
  deriving DecidableEq, Repr

/-- The resets that reach only the host interface (R386). -/
inductive HostReset where
  | functionLevel | hotReset | linkDown
  deriving DecidableEq, Repr

/-- What the queue's write check finds (R136): nothing, or a mismatch in a word of a port. -/
inductive QueErr where
  | none | mismatch (port : Fin 3)
  deriving DecidableEq, Repr

/-- An error that a read of a Palette entry finds (R68): one bit, which is corrected; or one that
cannot be corrected, in KEY, CLASS, NEED or HAVE, in a VALUE, or in a payload block. -/
inductive MemFault where
  | corrected | key | value (port : Fin 3) | block (port : Fin 3)
  deriving DecidableEq, Repr

/-- What the memories of one cell find while its Palette serves a command: in the ways of the set
that it reads (R53, R68), in the entry of the first firing that it offers, which it reads to write the
packet, and in the queue's write check of that packet (R136). -/
structure MemErr where
  set   : List (Fin 4 × MemFault) := []
  entry : List MemFault := []
  queue : QueErr := .none
  deriving DecidableEq, Repr

/-- Nothing is found. -/
def MemErr.none : MemErr := {}

/-- What the queue and the node table find while a packet is read (R140, R153). -/
structure ReadErr where
  header   : Bool := false
  /-- The words of the packet after its header with a parity error, the first at bit 0. -/
  words    : BitVec 12 := 0
  sideband : Bool := false
  desc     : Bool := false
  deriving DecidableEq, Repr

/-- The machine that runs Gheing instructions: a cell's block engine, or the Steward in its
sequential mode (R189). -/
inductive Engine where
  | cell (n : Fin 128)
  | steward
  deriving DecidableEq, Repr

/-- What the Cellar engine finds in the headers it walks (R117): nothing, copy 0 lost, or both
copies lost (and the header rebuilt). -/
inductive PageErr where
  | none | copy0 | both
  deriving DecidableEq, Repr

/-- What a cell finds in a slot that a page-in returns (R117): nothing, copy 0 lost, both copies
of the record lost, or both copies of the payload blocks of some ports lost. -/
inductive SlotErr where
  | none | copy0 | record | blocks (ports : BitVec 3)
  deriving DecidableEq, Repr

/-- A cell group as an image names it (R84). -/
structure GroupDef where
  num    : Fin 64
  mask   : BitVec 128
  nodeLo : BitVec 14
  nodeHi : BitVec 14
  bsLo   : BitVec 14
  bsHi   : BitVec 14
  deriving DecidableEq, Repr

/-- A partition of a graph image: its group, its declared needs (R94), its node descriptors by
slot and its instruction words by block-store index (R153, R155). -/
structure PartDef where
  group  : Fin 64
  ways   : Nat
  blocks : Nat
  words  : Nat
  slots  : Nat
  rate   : Nat
  nodes  : List (BitVec 14 × BitVec 64)
  code   : List (BitVec 14 × Word)
  deriving DecidableEq, Repr

/-- What the body of a graph image says (R84, R94, R121, R154, R310, R317, R438).  The byte layout
of the body is the image tool's and no rule gives it (R455), so a LOAD_GRAPH command carries what
the body says beside its bytes. -/
structure GraphBody where
  cls         : BitVec 2
  nsink       : BitVec 8
  resultSlots : Nat
  peakWait    : BitVec 32
  audit       : Bool
  scratchBase : Nat
  scratchLen  : Nat
  handler     : BitVec 14
  groups      : List GroupDef
  parts       : List PartDef
  srcPart     : Nat
  srcNode     : BitVec 14
  /-- Bindings and import channels that feed another partition and node than those two. -/
  bindNodes   : List (Nat × Nat × BitVec 14)
  importNodes : List (Nat × Nat × BitVec 14)
  deriving DecidableEq, Repr

/-- The three loop registers that MTL and MFL name (R208, SEL 0 to 2). -/
inductive LoopReg where
  | ls | le | lc
  deriving DecidableEq, Repr

/-- The word of an instruction whose fetch meets an uncorrectable error (R155): none, the first, or the
second of a format X instruction. -/
inductive FetchErr where
  | none | first | second
  deriving DecidableEq, Repr

/-- What a scratch read finds (R173): nothing, an error that it corrects, or one that it does not. -/
inductive ReadUe where
  | none | corrected | data
  deriving DecidableEq, Repr

/-- Where an instruction runs: its engine, what its fetch meets (R155), and what its scratch read finds
(R173). -/
structure At where
  eng     : Engine
  fetchUe : FetchErr := .none
  mem     : ReadUe := .none
  deriving DecidableEq, Repr

/-- A self-checking comparator (R441): of a cell pair, of the Steward, or the Watch's own logic. -/
inductive Comparator where
  | pair (k : Fin 64)
  | steward
  | watch
  deriving DecidableEq, Repr

/-- How a boot stage ends (R469): well, with these stacks not trained (stage 5) or these physical
cells failing their self-test (stage 7), or with a reason of R474. -/
inductive BootResult where
  | ok
  | stacks (bad : List (Fin 4))
  | cells (bad : List (Fin 132))
  | fail (reason : BitVec 8)
  deriving DecidableEq, Repr

/-- The start of an Ethernet frame (R363): its addresses and the EtherType that follows them, a tag
showing as 0x8100 or 0x88A8. -/
structure EthHead where
  dst   : BitVec 48
  src   : BitVec 48
  etype : BitVec 16
  deriving DecidableEq, Repr

/-- An entry whose memory a hub finds uncorrectable at a snapshot: in one copy or in both (R369). -/
structure NbError where
  entry : BitVec 12
  both  : Bool
  deriving DecidableEq, Repr

/-- What an event input's filter reports (R299): an accepted edge, or a pulse whose two edges
merged. -/
inductive EvPulse where
  | rise | fall | merged
  deriving DecidableEq, Repr

/-- What a HOST_INJECT brings: its bytes, and what the queue's write check finds as its firing enters (R136). -/
structure InjectBuf where
  buf : HostBuf
  err : QueErr
  deriving DecidableEq, Repr

/-- What an ACT_PORT_CONFIG brings: its bytes, and whether a request is being received as it stands (R360). -/
structure ActBuf where
  buf  : HostBuf
  busy : Bool
  deriving DecidableEq, Repr

/-- What a CELL_FLUSH brings: its bytes, and the packets whose sideband it finds lost (R140). -/
structure FlushBuf where
  buf : HostBuf
  bad : List Nat
  deriving DecidableEq, Repr

/-- What the memories of the cell and of its pair's odd cell find as a token arrives (R69). -/
structure MemErrs where
  own : MemErr
  odd : MemErr
  deriving DecidableEq, Repr

/-- A slot of a spill, and what the read of its entry finds (R68). -/
structure SlotRead where
  slot : Fin 64
  err  : List MemFault
  deriving DecidableEq, Repr

/-- What a page-in finds: in the slot (R117), and in the memories of the cell (R68). -/
structure PageinErr where
  slot : SlotErr
  mem  : MemErr
  deriving DecidableEq, Repr

/-- The context that a CTL message names, and how many single-bit errors the fabric corrects in it (R270). -/
structure CtlCtx where
  ctx : BitVec 17
  ce  : BitVec 16
  deriving DecidableEq, Repr

/-- The headers that a chain port receives over 64 blocks, the invalid ones marked (R334). -/
structure LinkHeads where
  port : Fin 16
  bad  : BitVec 64
  deriving DecidableEq, Repr

/-- The headers at a link that is lost, and the errored blocks that it saw before (R334). -/
structure LinkLoss where
  port : Fin 16
  bad  : BitVec 64
  perr : Nat
  deriving DecidableEq, Repr

/-- What the end of a Cart's walk shows: its errored blocks (R334), the time that its walk spent in cables
(R340), and whether a link of the ring between other stations is down as the next launch finds it (R336). -/
structure CartEnd where
  perr   : Nat
  cable  : Nat
  broken : Bool
  deriving DecidableEq, Repr

/-- An actuator port whose link goes down, and the bytes of its answer that went out before (R383). -/
structure ActCut where
  port : Fin 16
  sent : BitVec 12
  deriving DecidableEq, Repr

/-- An actuator port whose answer ends, and whether a request is being received then (R360). -/
structure ActIdle where
  port : Fin 16
  busy : Bool
  deriving DecidableEq, Repr

/-- A raise's data, and the packets of the cells that it flushes whose sideband cannot be read, by cell and
place (R140, R141). -/
structure RaiseData where
  data : BitVec 64
  bad  : List (Nat × Nat)
  deriving DecidableEq, Repr

/-- The commands, in the order of the command table. -/
inductive Instr where
  /-- NOP (R398): Host command that does nothing and completes with OK. -/
  | nop (r : Fin 64) (d : Desc) (b : HostBuf)
  /-- IDENTIFY (R400): Host command that writes the 64-byte identification block to the host buffer. -/
  | identify (r : Fin 64) (d : Desc) (b : HostBuf)
  /-- CREATE_CMD_RING (R398): Host command that creates command ring 1 to 63. -/
  | createCmdRing (r : Fin 64) (d : Desc) (b : HostBuf)
  /-- CREATE_CPL_RING (R398): Host command that creates completion ring 1 to 63 with its vector, holdoff and threshold. -/
  | createCplRing (r : Fin 64) (d : Desc) (b : HostBuf)
  /-- DELETE_RING (R398): Host command that deletes a command or completion ring and abandons its unfetched descriptors. -/
  | deleteRing (r : Fin 64) (d : Desc) (b : HostBuf)
  /-- EVENT_ROUTE (R407): Host command that sets the completion ring and enable of a range of event sources. -/
  | eventRoute (r : Fin 64) (d : Desc) (b : HostBuf)
  /-- STATISTICS (R399): Host command that writes one unit's counters to the host buffer and applies W1C_MASK to its status word. -/
  | statistics (r : Fin 64) (d : Desc) (b : HostBuf)
  /-- HOST_INJECT (R401): Host command that injects one token, through the fabric or through the posted injection path for MONO. -/
  | hostInject (r : Fin 64) (d : Desc) (b : InjectBuf)
  /-- LOAD_GRAPH (R456): Host command that authenticates a graph image and loads it, defining or joining its cell groups. -/
  | loadGraph (r : Fin 64) (d : Desc) (b : HostBuf) (g : GraphBody)
  /-- UNLOAD_GRAPH (R402): Host command that unloads a graph and frees its ranges, bank pair, bindings and handle. -/
  | unloadGraph (r : Fin 64) (d : Desc) (b : HostBuf)
  /-- START_GRAPH (R93): Host command that queues an activation of a graph and completes when the context is installed or START_WAIT ends. -/
  | startGraph (r : Fin 64) (d : Desc) (b : HostBuf)
  /-- STOP_GRAPH (R402): Host command that releases a LIVE context and completes when it is HELD or FREE. -/
  | stopGraph (r : Fin 64) (d : Desc) (b : HostBuf)
  /-- GRAPH_ENABLE (R127): Host command that ends the quarantine of a graph. -/
  | graphEnable (r : Fin 64) (d : Desc) (b : HostBuf)
  /-- SET_GROUP (R95): Host command that changes the cell group of a graph partition. -/
  | setGroup (r : Fin 64) (d : Desc) (b : HostBuf)
  /-- REGION_CREATE (R266): Host command that creates a graph region at a memory responder. -/
  | regionCreate (r : Fin 64) (d : Desc) (b : HostBuf)
  /-- REGION_FREE (R403): Host command that frees a graph region and clears its poison marks. -/
  | regionFree (r : Fin 64) (d : Desc) (b : HostBuf)
  /-- REGION_COPY (R403): Host command that copies between a host buffer and a region. -/
  | regionCopy (r : Fin 64) (d : Desc) (b : HostBuf)
  /-- BIND_STREAM (R288): Host command that binds a sensor stream to a context. -/
  | bindStream (r : Fin 64) (d : Desc) (b : HostBuf)
  /-- UNBIND_STREAM (R288): Host command that makes a binding UNBOUND and discards its partial and held blocks. -/
  | unbindStream (r : Fin 64) (d : Desc) (b : HostBuf)
  /-- BIND_IMPORT (R352): Host command that binds a chain import channel to a context. -/
  | bindImport (r : Fin 64) (d : Desc) (b : HostBuf)
  /-- UNBIND_IMPORT (R352): Host command that makes an import channel UNBOUND. -/
  | unbindImport (r : Fin 64) (d : Desc) (b : HostBuf)
  /-- SENSOR_PORT_CONFIG (R276): Host command that sets the parameters of a sensor port. -/
  | sensorPortConfig (r : Fin 64) (d : Desc) (b : HostBuf)
  /-- ACT_PORT_CONFIG (R360): Host command that sets the parameters of an actuation port. -/
  | actPortConfig (r : Fin 64) (d : Desc) (b : ActBuf)
  /-- EVENT_INPUT_CONFIG (R298): Host command that sets the mode and parameters of an event input. -/
  | eventInputConfig (r : Fin 64) (d : Desc) (b : HostBuf)
  /-- REEVE_CONFIG (R101): Host command that sets the Reeve and Cellar parameters. -/
  | reeveConfig (r : Fin 64) (d : Desc) (b : HostBuf)
  /-- CELLAR_CONFIG (R104): Host command that sets CELLAR_SIZE. -/
  | cellarConfig (r : Fin 64) (d : Desc) (b : HostBuf)
  /-- SLOT_ALLOC (R263): Host command that replaces the fabric slot map from the next frame boundary. -/
  | slotAlloc (r : Fin 64) (d : Desc) (b : HostBuf)
  /-- EPOCH_CONFIG (R308): Host command that requests epoch START, LENGTH or STOP and sets epoch parameters. -/
  | epochConfig (r : Fin 64) (d : Desc) (b : HostBuf)
  /-- CHAIN_CONFIG (R335): Host command that sets the chain role, topology and chain parameters. -/
  | chainConfig (r : Fin 64) (d : Desc) (b : HostBuf)
  /-- READ_RESULTS (R327): Host command that copies a published bank header and slots to the host buffer. -/
  | readResults (r : Fin 64) (d : Desc) (b : HostBuf)
  /-- READ_REPORT (R325): Host command that copies one of the last 64 varnish reports to the host buffer. -/
  | readReport (r : Fin 64) (d : Desc) (b : HostBuf)
  /-- EXQ_READ (R281): Host command that reads and optionally frees entries of an ingest hub's exception queue. -/
  | exqRead (r : Fin 64) (d : Desc) (b : HostBuf)
  /-- ENUMERATE (R346): Host command that makes the root enumerate the chain in the next Cart. -/
  | enumerate (r : Fin 64) (d : Desc) (b : HostBuf)
  /-- CHAIN_SEND (R353): Host command that sends one MGMT frame on each chain port of a mask and waits for acknowledgements. -/
  | chainSend (r : Fin 64) (d : Desc) (b : HostBuf)
  /-- NOTICE_SEND (R382): Host command that announces 32 bytes to actuation peers through their answers. -/
  | noticeSend (r : Fin 64) (d : Desc) (b : HostBuf)
  /-- NB_PROGRAM (R370): Host command that programs Noticeboard entries. -/
  | nbProgram (r : Fin 64) (d : Desc) (b : HostBuf)
  /-- TRIP_CONFIG (R375): Host command that programs a trip output or a trip-map entry. -/
  | tripConfig (r : Fin 64) (d : Desc) (b : HostBuf)
  /-- CELL_FLUSH (R141): Host command that flushes a cell's Easel, express lane or both. -/
  | cellFlush (r : Fin 64) (d : Desc) (b : FlushBuf)
  /-- SELF_TEST (R485): Host command that starts a self-test of a logical cell or an HBM pseudo-channel. -/
  | selfTest (r : Fin 64) (d : Desc) (b : HostBuf)
  /-- WATCH_CONFIG (R430): Host command that sets a fault class's reaction, the quiet time and the recovery budget. -/
  | watchConfig (r : Fin 64) (d : Desc) (b : HostBuf)
  /-- FAULT_FORCE (R418): Host command that sets or clears the force bit of a fault source. -/
  | faultForce (r : Fin 64) (d : Desc) (b : HostBuf)
  /-- FAULT_CLEAR (R429): Host command that ends a FAULTED state, sticky or not. -/
  | faultClear (r : Fin 64) (d : Desc) (b : HostBuf)
  /-- FAULT_LOG_READ (R432): Host command that writes fault-log entries, newest first, to the host buffer. -/
  | faultLogRead (r : Fin 64) (d : Desc) (b : HostBuf)
  /-- FW_UPDATE (R471): Host command that authenticates a firmware image and writes it to the unbooted flash slot. -/
  | fwUpdate (r : Fin 64) (d : Desc) (b : HostBuf)
  /-- KEY_PROVISION (R458): Host command that burns a key slot or a revocation fuse. -/
  | keyProvision (r : Fin 64) (d : Desc) (b : HostBuf)
  /-- DEBUG_ENABLE (R442): Host command that breaks or restores lockstep for the Steward or a cell pair. -/
  | debugEnable (r : Fin 64) (d : Desc) (b : HostBuf)
  /-- FUSE_LOCK (R459): Host command that burns the FUSE_LOCKED fuse. -/
  | fuseLock (r : Fin 64) (d : Desc) (b : HostBuf)
  /-- RESEAL (R454): Host command that moves SEAL_STATE from UNSEALED to SEALED under presence. -/
  | reseal (r : Fin 64) (d : Desc) (b : HostBuf)
  /-- LANTERN_DIAG (R478): Host command that writes the 128-byte diagnostic block. -/
  | lanternDiag (r : Fin 64) (d : Desc) (b : HostBuf)
  /-- RESTART (R477): Host command that causes a full device reset without a completion. -/
  | restart (r : Fin 64) (d : Desc) (b : HostBuf)
  /-- TAIL_DOORBELL (R389): Host write of a command ring's tail doorbell, which starts descriptor fetching. -/
  | tailDoorbell (offset : BitVec 16) (size : BitVec 4) (value : BitVec 32)
  /-- HEAD_DOORBELL (R389): Host write of a completion ring's head doorbell, optionally re-arming its interrupt. -/
  | headDoorbell (offset : BitVec 16) (size : BitVec 4) (value : BitVec 32)
  /-- COMPLETION_WRITE (R408): The completion writer grants an item and writes a completion or event record to a completion ring. -/
  | completionWrite
  /-- HOLDOFF_EXPIRY (R411): HOLDOFF passes since the oldest unsignalled record of an armed ring, which sends its MSI-X message. -/
  | holdoffExpiry (q : Fin 64)
  /-- EVENT_RECORD_WRITE (R407): The event raiser grants a pending record and hands it to the completion writer. -/
  | eventRecordWrite (ev : Fin 512)
  /-- BAR4_READ (R388): Host read of the BAR4 window, returning published bank data or zero. -/
  | bar4Read (offset : BitVec 32) (len : Fin 4097) (ue : Bool)
  /-- BAR4_WRITE (R388): Host write to BAR4, which is discarded and counted. -/
  | bar4Write (offset : BitVec 32)
  /-- HOST_RESET (R386): A function-level reset, hot reset or PCI Express link-down disables the rings and resets host-interface state only. -/
  | hostReset (kind : HostReset)
  /-- RING_EN_WRITE (R500): Write of HOST_CTRL.RING_EN that brings ring 0 up after checking sizes, or disables every ring. -/
  | ringEnWrite (value : BitVec 32)
  /-- SETUP_REGISTER_WRITE (R496): Write to a setup register without its own row, applied under its access codes or recorded as a violation. -/
  | setupRegisterWrite (offset : BitVec 20) (size : BitVec 4) (value : BitVec 64)
  /-- T64_LO_READ (R501): Read of T64_LO that latches T64[63:32] into T64_HI. -/
  | t64LoRead (wide : Bool)
  /-- PPS_IN_LO_READ (R501): Read of PPS_IN_LO that latches PPS_IN_HI and PPS_IN_INFO. -/
  | ppsInLoRead (wide : Bool)
  /-- TB_FREQ_ADJ_WRITE (R502): Write of TB_FREQ_ADJ that sets the rate offset of T64. -/
  | tbFreqAdjWrite (value : BitVec 32)
  /-- TB_PHASE_ADJ_WRITE (R502): Write of TB_PHASE_ADJ that starts or replaces a phase slew. -/
  | tbPhaseAdjWrite (value : BitVec 32)
  /-- TB_SET_HI_WRITE (R502): Write of TB_SET_HI that sets T64 when SET_OK is 1. -/
  | tbSetHiWrite (value : BitVec 32)
  /-- SLEW_DONE (R502): The phase-slew remainder reaches zero, SLEWING clears and EV 448 is raised. -/
  | slewDone
  /-- PPS_IN_EDGE (R503): A qualified PPS_IN edge is time-stamped and the PPS_IN registers are updated. -/
  | ppsInEdge (falling : Bool) (quarter : BitVec 2)
  /-- PPS_LOSS_TIMEOUT (R503): 1.5 s pass without a qualified PPS_IN edge, setting PPS_LOST and the PPS_LOSS condition. -/
  | ppsLossTimeout
  /-- PPS_OUT_PULSE (R503): T64 reaches a whole second and PPS_OUT rises for PPS_OUT_WIDTH. -/
  | ppsOutPulse
  /-- POWER_UP (R467): Every supply comes within its window and a full device reset begins. -/
  | powerUp
  /-- RESET_N_ASSERT (R467): RESET_N held low for at least 1 µs causes a full device reset. -/
  | resetNAssert
  /-- RESET_RELEASE (R469): Reset is released and a start begins its boot stages. -/
  | resetRelease
  /-- BOOT_STAGE_DONE (R469): A boot stage completes or fails, and the next stage begins or the start ends. -/
  | bootStageDone (r : BootResult)
  /-- START_TIMEOUT (R469): Step 9 is not reached 2 s after reset release and the start fails with reason TIMEOUT. -/
  | startTimeout
  /-- RETRY_PAUSE_EXPIRY (R473): The 10 ms pause after a failed start ends and a full reset follows. -/
  | retryPauseExpiry
  /-- PCIE_LINK_TRAINED (R470): The host hub trains its PCI Express link after reset release and PERST_N. -/
  | pcieLinkTrained
  /-- SUPPLY_OUT (R528): A supply stays outside its monitor window for 2 µs, beginning the SUPPLY condition. -/
  | supplyOut (k : Fin 9) (mv : BitVec 16)
  /-- SUPPLY_IN (R528): A supply stays inside its window for 100 µs, ending the SUPPLY condition. -/
  | supplyIn (k : Fin 9) (mv : BitVec 16)
  /-- ALWAYS_ON_RESET (R468): VDDIO_3V3 leaves its range and the always-on domain resets. -/
  | alwaysOnReset
  /-- REFCLK_LOSS (R541): REFCLK_P/N is absent for 1 µs or out of tolerance, beginning the REFCLK condition. -/
  | refclkLoss
  /-- JUNCTION_SENSOR_READ (R489): The 10 µs reading of a junction sensor updates HOT and THERMAL_CRIT. -/
  | junctionSensorRead (n : BitVec 9) (reading : BitVec 16)
  /-- PRESENCE_CHANGE (R447): KEY_N holds a new level for 20 ms and presence changes. -/
  | presenceChange
  /-- SEAL_SAMPLE (R448): SEAL_B is sampled 50 µs after a change of SEAL_A and the loop is judged. -/
  | sealSample (matched : Bool)
  /-- REST_ENTRY (R483): The REST conditions hold for 1 s and the device fences hubs and puts stacks in self-refresh. -/
  | restEntry
  /-- REST_EXIT (R483): A waking command or Steward HBM access takes the stacks out of self-refresh. -/
  | restExit
  /-- SCRUB_DONE (R484): The scrub of a stack's Cellar share ends and its channels may be granted again. -/
  | scrubDone (stack : Fin 4) (corrected : BitVec 32) (bad : List (Fin 64))
  /-- HUB_WAKE (R479): A switched-off hub wakes from reset state, reapplies its configuration and opens its port. -/
  | hubWake (hub : BitVec 8)
  /-- COLUMN_POWER_GOOD_LOSS (R481): A column's power-good is lost and the fabric isolates its cells. -/
  | columnPowerGoodLoss (c : Fin 16)
  /-- COLUMN_POWER_GOOD_RETURN (R481): A column's power-good returns and its cells wake isolated. -/
  | columnPowerGoodReturn (c : Fin 16)
  /-- DRAIN_END (R486): A cell under test has no live context, empty queues and no credit, and its fence begins. -/
  | drainEnd (c : Fin 128)
  /-- DRAIN_TIMEOUT (R486): A cell drain lasts 1 s and SELF_TEST completes with E_TIMEOUT. -/
  | drainTimeout (c : Fin 128)
  /-- FENCE_TIMEOUT (R486): A self-test fence is not complete within 10 µs and the cell is isolated. -/
  | fenceTimeout (c : Fin 128)
  /-- CELL_TEST_DONE (R487): A cell test ends, the cell wakes and SELF_TEST completes with the result. -/
  | cellTestDone (c : Fin 128) (block : BitVec 8)
  /-- HBM_TEST_SEGMENT (R488): One 2 MiB segment of a pseudo-channel test completes and held accesses are served. -/
  | hbmTestSegment (k : Fin 128) (bad : BitVec 32)
  /-- FENCE_REQUEST (R272): The Steward tile requests a fence of a cell or edge-tile domain's ports. -/
  | fenceRequest (target : BitVec 8)
  /-- FENCE_COMPLETE (R272): Every router port of a domain reports FENCED and the fence-complete acknowledgement arrives. -/
  | fenceComplete (target : BitVec 8)
  /-- TOKEN_ARRIVAL (R52): A token arrives at a cell's Palette and is checked, matched, allocated or discarded. -/
  | tokenArrival (c : Fin 128) (src : BitVec 8) (t : Token) (ue : UnitErr) (err : MemErrs)
  /-- RSV_HOLD_PROCEED (R59): A token in the reserved hold buffer finds its resources free and proceeds. -/
  | rsvHoldProceed (c : Fin 128) (err : MemErr)
  /-- WAIT_BUFFER_PROCEED (R61): A token in the wait buffer finds a way or block free and is looked up again. -/
  | waitBufferProceed (c : Fin 128) (err : MemErr)
  /-- HELD_FIRING_OFFER (R58): A queue's full flag clears and the Palette offers its held READY firings in order. -/
  | heldFiringOffer (c : Fin 128) (err : MemErr)
  /-- SPILL_PAGE_GRANT (R111): The Cellar engine grants a free page to a cell's spill request. -/
  | spillPageGrant (c : Fin 128)
  /-- SPILL_SLOT_ACK (R111): Both copies of a spilled slot are acknowledged and the victim's way frees. -/
  | spillSlotAck (c : Fin 128) (slot : SlotRead)
  /-- SPILL_LINK (R111): Every slot is acknowledged and the page header is written and linked. -/
  | spillLink (c : Fin 128)
  /-- PAGEIN_REQUEST (R112): The Cellar engine receives a page-in request and walks the list's headers. -/
  | pageinRequest (c : Fin 128) (k : Fin 4) (err : List (Nat × PageErr))
  /-- PAGEIN_RETURN (R112): A returned slot reaches the cell, which accepts or refuses it and restores the entry. -/
  | pageinReturn (c : Fin 128) (k : Fin 4) (err : PageinErr)
  /-- PAGEIN_NONE (R112): The engine answers that no spilled entry holds the key, and the token is treated as a miss. -/
  | pageinNone (c : Fin 128) (k : Fin 4)
  /-- CELLAR_PURGE (R118): The Cellar engine purges a released context's slots from its cells' page lists. -/
  | cellarPurge (err : List (Nat × PageErr))
  /-- SWEEP_COMPLETE (R66): A cell's sweep of a released context finishes and is reported to the Reeve. -/
  | sweepComplete (c : Fin 128) (ctx : BitVec 17) (gen : BitVec 4)
  /-- FIRING_START (R156): The block engine takes the next visible packet, clears its bank, lands operands and issues at ENTRY. -/
  | firingStart (c : Fin 128) (late : Fin 13) (err : ReadErr)
  /-- PREEMPTION (R144): An express packet preempts the running Easel firing at the next instruction boundary. -/
  | preemption (c : Fin 128) (late : Fin 13) (err : ReadErr)
  /-- OPERATION_COMPLETE (R160): A multi-step operation in a unit writes its results, possibly raising a late exception. -/
  | operationComplete (e : Engine) (express : Bool) (k : Fin 256)
  /-- ADD (R199): Instruction: 64-bit add. -/
  | add (a : At) (rd ra rb : BitVec 5)
  /-- SUB (R199): Instruction: 64-bit subtract. -/
  | sub (a : At) (rd ra rb : BitVec 5)
  /-- AND (R199): Instruction: bitwise and. -/
  | and (a : At) (rd ra rb : BitVec 5)
  /-- OR (R199): Instruction: bitwise or. -/
  | or (a : At) (rd ra rb : BitVec 5)
  /-- XOR (R199): Instruction: bitwise exclusive or. -/
  | xor (a : At) (rd ra rb : BitVec 5)
  /-- ANDN (R199): Instruction: ra and not rb. -/
  | andn (a : At) (rd ra rb : BitVec 5)
  /-- SLL (R199): Instruction: shift left. -/
  | sll (a : At) (rd ra rb : BitVec 5)
  /-- SRL (R199): Instruction: logical shift right. -/
  | srl (a : At) (rd ra rb : BitVec 5)
  /-- SRA (R199): Instruction: arithmetic shift right. -/
  | sra (a : At) (rd ra rb : BitVec 5)
  /-- ROR (R199): Instruction: rotate right. -/
  | ror (a : At) (rd ra rb : BitVec 5)
  /-- SEQ (R199): Instruction: set if equal. -/
  | seq (a : At) (rd ra rb : BitVec 5)
  /-- SNE (R199): Instruction: set if not equal. -/
  | sne (a : At) (rd ra rb : BitVec 5)
  /-- SLT (R199): Instruction: set if less, signed. -/
  | slt (a : At) (rd ra rb : BitVec 5)
  /-- SLTU (R199): Instruction: set if less, unsigned. -/
  | sltu (a : At) (rd ra rb : BitVec 5)
  /-- MIN (R199): Instruction: signed minimum. -/
  | min (a : At) (rd ra rb : BitVec 5)
  /-- MAX (R199): Instruction: signed maximum. -/
  | max (a : At) (rd ra rb : BitVec 5)
  /-- MINU (R199): Instruction: unsigned minimum. -/
  | minu (a : At) (rd ra rb : BitVec 5)
  /-- MAXU (R199): Instruction: unsigned maximum. -/
  | maxu (a : At) (rd ra rb : BitVec 5)
  /-- ADDC (R199): Instruction: add with carry in. -/
  | addc (a : At) (rd ra rb rc : BitVec 5)
  /-- CARRY (R199): Instruction: carry out of an add with carry. -/
  | carry (a : At) (rd ra rb rc : BitVec 5)
  /-- SUBB (R199): Instruction: subtract with borrow in. -/
  | subb (a : At) (rd ra rb rc : BitVec 5)
  /-- BORROW (R199): Instruction: borrow out of a subtract with borrow. -/
  | borrow (a : At) (rd ra rb rc : BitVec 5)
  /-- ACC128 (R199): Instruction: 128-bit accumulate of a sign-extended register. -/
  | acc128 (a : At) (rd ra : BitVec 5)
  /-- ACC128U (R199): Instruction: 128-bit accumulate of a zero-extended register. -/
  | acc128u (a : At) (rd ra : BitVec 5)
  /-- CLZ (R199): Instruction: count leading zeros. -/
  | clz (a : At) (rd ra : BitVec 5)
  /-- CTZ (R199): Instruction: count trailing zeros. -/
  | ctz (a : At) (rd ra : BitVec 5)
  /-- POPC (R199): Instruction: population count. -/
  | popc (a : At) (rd ra : BitVec 5)
  /-- BSWAP (R199): Instruction: byte-order reversal. -/
  | bswap (a : At) (rd ra : BitVec 5)
  /-- ADDW (R199): Instruction: 32-bit add, sign-extended. -/
  | addw (a : At) (rd ra rb : BitVec 5)
  /-- SUBW (R199): Instruction: 32-bit subtract, sign-extended. -/
  | subw (a : At) (rd ra rb : BitVec 5)
  /-- ADDI (R200): Instruction: add sign-extended immediate. -/
  | addi (a : At) (rd ra : BitVec 5) (imm : BitVec 16)
  /-- ANDI (R200): Instruction: and with zero-extended immediate. -/
  | andi (a : At) (rd ra : BitVec 5) (imm : BitVec 16)
  /-- ORI (R200): Instruction: or with zero-extended immediate. -/
  | ori (a : At) (rd ra : BitVec 5) (imm : BitVec 16)
  /-- XORI (R200): Instruction: exclusive or with zero-extended immediate. -/
  | xori (a : At) (rd ra : BitVec 5) (imm : BitVec 16)
  /-- SLTI (R200): Instruction: set if less than immediate, signed. -/
  | slti (a : At) (rd ra : BitVec 5) (imm : BitVec 16)
  /-- SLTIU (R200): Instruction: set if less than immediate, unsigned. -/
  | sltiu (a : At) (rd ra : BitVec 5) (imm : BitVec 16)
  /-- SHI (R200): Instruction: shift or rotate by immediate. -/
  | shi (a : At) (rd ra : BitVec 5) (kind : BitVec 2) (n : BitVec 6)
  /-- LUI (R200): Instruction: load upper immediate. -/
  | lui (a : At) (rd : BitVec 5) (imm : BitVec 16)
  /-- EXTU (R200): Instruction: extract a bit field, zero-extended. -/
  | extu (a : At) (rd ra : BitVec 5) (pos w1 : BitVec 6)
  /-- EXTS (R200): Instruction: extract a bit field, sign-extended. -/
  | exts (a : At) (rd ra : BitVec 5) (pos w1 : BitVec 6)
  /-- INS (R200): Instruction: insert a bit field. -/
  | ins (a : At) (rd ra : BitVec 5) (pos w1 : BitVec 6)
  /-- LI (R201): Instruction: load a sign-extended 32-bit immediate. -/
  | li (a : At) (rd : BitVec 5) (imm : Word)
  /-- LIH (R201): Instruction: load the high half with a 32-bit immediate. -/
  | lih (a : At) (rd : BitVec 5) (imm : Word)
  /-- ADDX (R201): Instruction: add a 32-bit immediate. -/
  | addx (a : At) (rd ra : BitVec 5) (imm : Word)
  /-- ANDX (R201): Instruction: and with a sign-extended 32-bit immediate. -/
  | andx (a : At) (rd ra : BitVec 5) (imm : Word)
  /-- ORX (R201): Instruction: or with a zero-extended 32-bit immediate. -/
  | orx (a : At) (rd ra : BitVec 5) (imm : Word)
  /-- XORX (R201): Instruction: exclusive or with a zero-extended 32-bit immediate. -/
  | xorx (a : At) (rd ra : BitVec 5) (imm : Word)
  /-- MUL (R202): Instruction: low 64 bits of a product. -/
  | mul (a : At) (rd ra rb : BitVec 5)
  /-- MULH (R202): Instruction: high 64 bits of a signed product. -/
  | mulh (a : At) (rd ra rb : BitVec 5)
  /-- MULHU (R202): Instruction: high 64 bits of an unsigned product. -/
  | mulhu (a : At) (rd ra rb : BitVec 5)
  /-- MULHSU (R202): Instruction: high 64 bits of a signed-by-unsigned product. -/
  | mulhsu (a : At) (rd ra rb : BitVec 5)
  /-- MULW (R202): Instruction: signed 32-by-32 product. -/
  | mulw (a : At) (rd ra rb : BitVec 5)
  /-- MULWU (R202): Instruction: unsigned 32-by-32 product. -/
  | mulwu (a : At) (rd ra rb : BitVec 5)
  /-- DIV (R202): Instruction: signed quotient. -/
  | div (a : At) (rd ra rb : BitVec 5)
  /-- DIVU (R202): Instruction: unsigned quotient. -/
  | divu (a : At) (rd ra rb : BitVec 5)
  /-- REM (R202): Instruction: signed remainder. -/
  | rem (a : At) (rd ra rb : BitVec 5)
  /-- REMU (R202): Instruction: unsigned remainder. -/
  | remu (a : At) (rd ra rb : BitVec 5)
  /-- DIVW (R202): Instruction: signed 32-bit quotient. -/
  | divw (a : At) (rd ra rb : BitVec 5)
  /-- DIVWU (R202): Instruction: unsigned 32-bit quotient. -/
  | divwu (a : At) (rd ra rb : BitVec 5)
  /-- REMW (R202): Instruction: signed 32-bit remainder. -/
  | remw (a : At) (rd ra rb : BitVec 5)
  /-- REMWU (R202): Instruction: unsigned 32-bit remainder. -/
  | remwu (a : At) (rd ra rb : BitVec 5)
  /-- FADD (R204): Instruction: scalar floating-point add. -/
  | fadd (a : At) (p : Bool) (rd ra rb : BitVec 5)
  /-- FSUB (R204): Instruction: scalar floating-point subtract. -/
  | fsub (a : At) (p : Bool) (rd ra rb : BitVec 5)
  /-- FMUL (R204): Instruction: scalar floating-point multiply. -/
  | fmul (a : At) (p : Bool) (rd ra rb : BitVec 5)
  /-- FDIV (R204): Instruction: scalar floating-point divide. -/
  | fdiv (a : At) (p : Bool) (rd ra rb : BitVec 5)
  /-- FSQRT (R204): Instruction: scalar floating-point square root. -/
  | fsqrt (a : At) (p : Bool) (rd ra : BitVec 5)
  /-- FMA (R204): Instruction: fused multiply-add. -/
  | fma (a : At) (p : Bool) (rd ra rb rc : BitVec 5)
  /-- FMS (R204): Instruction: fused multiply-subtract. -/
  | fms (a : At) (p : Bool) (rd ra rb rc : BitVec 5)
  /-- FNMA (R204): Instruction: negated fused multiply-add. -/
  | fnma (a : At) (p : Bool) (rd ra rb rc : BitVec 5)
  /-- FMIN (R204): Instruction: minimumNumber. -/
  | fmin (a : At) (p : Bool) (rd ra rb : BitVec 5)
  /-- FMAX (R204): Instruction: maximumNumber. -/
  | fmax (a : At) (p : Bool) (rd ra rb : BitVec 5)
  /-- FABS (R204): Instruction: floating-point absolute value. -/
  | fabs (a : At) (p : Bool) (rd ra : BitVec 5)
  /-- FNEG (R204): Instruction: floating-point negation. -/
  | fneg (a : At) (p : Bool) (rd ra : BitVec 5)
  /-- FCMPEQ (R204): Instruction: floating-point compare equal. -/
  | fcmpeq (a : At) (p : Bool) (rd ra rb : BitVec 5)
  /-- FCMPLT (R204): Instruction: floating-point compare less. -/
  | fcmplt (a : At) (p : Bool) (rd ra rb : BitVec 5)
  /-- FCMPLE (R204): Instruction: floating-point compare less or equal. -/
  | fcmple (a : At) (p : Bool) (rd ra rb : BitVec 5)
  /-- FCMPUN (R204): Instruction: floating-point compare unordered. -/
  | fcmpun (a : At) (p : Bool) (rd ra rb : BitVec 5)
  /-- FCLASS (R205): Instruction: floating-point class mask. -/
  | fclass (a : At) (p : Bool) (rd ra : BitVec 5)
  /-- FCVT_I (R204): Instruction: floating point to signed integer. -/
  | fcvtI (a : At) (p : Bool) (rd ra : BitVec 5)
  /-- FCVT_U (R204): Instruction: floating point to unsigned integer. -/
  | fcvtU (a : At) (p : Bool) (rd ra : BitVec 5)
  /-- FCVT_F (R204): Instruction: signed integer to floating point. -/
  | fcvtF (a : At) (p : Bool) (rd ra : BitVec 5)
  /-- FCVT_FU (R204): Instruction: unsigned integer to floating point. -/
  | fcvtFu (a : At) (p : Bool) (rd ra : BitVec 5)
  /-- FCVT_P (R204): Instruction: conversion between binary32 and binary64. -/
  | fcvtP (a : At) (p : Bool) (rd ra : BitVec 5)
  /-- FSGNJ (R204): Instruction: copy sign. -/
  | fsgnj (a : At) (p : Bool) (rd ra rb : BitVec 5)
  /-- BEQ (R207): Instruction: branch if equal, with delay slot. -/
  | beq (a : At) (ra rb : BitVec 5) (target : BitVec 14)
  /-- BNE (R207): Instruction: branch if not equal, with delay slot. -/
  | bne (a : At) (ra rb : BitVec 5) (target : BitVec 14)
  /-- BLT (R207): Instruction: branch if less, signed. -/
  | blt (a : At) (ra rb : BitVec 5) (target : BitVec 14)
  /-- BGE (R207): Instruction: branch if greater or equal, signed. -/
  | bge (a : At) (ra rb : BitVec 5) (target : BitVec 14)
  /-- BLTU (R207): Instruction: branch if less, unsigned. -/
  | bltu (a : At) (ra rb : BitVec 5) (target : BitVec 14)
  /-- BGEU (R207): Instruction: branch if greater or equal, unsigned. -/
  | bgeu (a : At) (ra rb : BitVec 5) (target : BitVec 14)
  /-- JAL (R207): Instruction: jump and link. -/
  | jal (a : At) (rd : BitVec 5) (target : BitVec 14)
  /-- JALR (R207): Instruction: jump to register and link. -/
  | jalr (a : At) (rd ra : BitVec 5)
  /-- LOOP (R166): Instruction: open a hardware-loop level with a count from a register. -/
  | loop (a : At) (rc : BitVec 5) (le : BitVec 14)
  /-- LOOPI (R208): Instruction: open a hardware-loop level with an immediate count. -/
  | loopi (a : At) (count : BitVec 12) (le : BitVec 14)
  /-- MTL (R208): Instruction: move a register to LS_n, LE_n or LC_n. -/
  | mtl (a : At) (g : BitVec 5) (n : BitVec 2) (sel : LoopReg)
  /-- MFL (R208): Instruction: move LS_n, LE_n or LC_n to a register. -/
  | mfl (a : At) (g : BitVec 5) (n : BitVec 2) (sel : LoopReg)
  /-- LD (R209): Instruction: scalar scratch load. -/
  | ld (a : At) (sz : BitVec 2) (sgn : Bool) (rt ra : BitVec 5) (off : BitVec 12)
  /-- LDV (R209): Instruction: 64-byte vector scratch load. -/
  | ldv (a : At) (vt : BitVec 4) (ra : BitVec 5) (off : BitVec 12)
  /-- ST (R209): Instruction: scalar scratch store. -/
  | st (a : At) (sz : BitVec 2) (rt ra : BitVec 5) (off : BitVec 12)
  /-- STV (R209): Instruction: 64-byte vector scratch store. -/
  | stv (a : At) (vt : BitVec 4) (ra : BitVec 5) (off : BitVec 12)
  /-- LDR (R210): Instruction: region load through a memory responder. -/
  | ldr (a : At) (sz : Sz) (sgn : Bool) (rt rh ro : BitVec 5)
  /-- STR (R210): Instruction: region store through a memory responder. -/
  | str (a : At) (sz : Sz) (rt rh ro : BitVec 5)
  /-- BMOV (R211): Instruction: block move by 64-byte steps. -/
  | bmov (a : At) (rd ra rb : BitVec 5)
  /-- BFILL (R211): Instruction: block fill by 64-byte steps. -/
  | bfill (a : At) (rd ra rb : BitVec 5)
  /-- BSCAN (R213): Instruction: block scan for a matching element. -/
  | bscan (a : At) (w : BitVec 2) (ne : Bool) (rd ra rb : BitVec 5)
  /-- BCMP (R213): Instruction: block compare for the first unequal byte. -/
  | bcmp (a : At) (rd ra rb : BitVec 5)
  /-- VFADD (R216): Instruction: vector floating-point add. -/
  | vfadd (a : At) (ty : BitVec 2) (vd va vb : BitVec 4)
  /-- VFSUB (R216): Instruction: vector floating-point subtract. -/
  | vfsub (a : At) (ty : BitVec 2) (vd va vb : BitVec 4)
  /-- VFMUL (R216): Instruction: vector floating-point multiply. -/
  | vfmul (a : At) (ty : BitVec 2) (vd va vb : BitVec 4)
  /-- VFDIV (R216): Instruction: vector floating-point divide. -/
  | vfdiv (a : At) (ty : BitVec 2) (vd va vb : BitVec 4)
  /-- VFSQRT (R216): Instruction: vector floating-point square root. -/
  | vfsqrt (a : At) (ty : BitVec 2) (vd va : BitVec 4)
  /-- VFMA (R216): Instruction: vector fused multiply-add. -/
  | vfma (a : At) (ty : BitVec 2) (vd va vb vc : BitVec 4)
  /-- VFMS (R216): Instruction: vector fused multiply-subtract. -/
  | vfms (a : At) (ty : BitVec 2) (vd va vb vc : BitVec 4)
  /-- VFNMA (R216): Instruction: vector negated fused multiply-add. -/
  | vfnma (a : At) (ty : BitVec 2) (vd va vb vc : BitVec 4)
  /-- VFMIN (R216): Instruction: vector minimumNumber. -/
  | vfmin (a : At) (ty : BitVec 2) (vd va vb : BitVec 4)
  /-- VFMAX (R216): Instruction: vector maximumNumber. -/
  | vfmax (a : At) (ty : BitVec 2) (vd va vb : BitVec 4)
  /-- VFABS (R216): Instruction: vector absolute value. -/
  | vfabs (a : At) (ty : BitVec 2) (vd va : BitVec 4)
  /-- VFNEG (R216): Instruction: vector negation. -/
  | vfneg (a : At) (ty : BitVec 2) (vd va : BitVec 4)
  /-- VFCMPEQ (R216): Instruction: vector compare equal, lane mask. -/
  | vfcmpeq (a : At) (ty : BitVec 2) (vd va vb : BitVec 4)
  /-- VFCMPLT (R216): Instruction: vector compare less, lane mask. -/
  | vfcmplt (a : At) (ty : BitVec 2) (vd va vb : BitVec 4)
  /-- VFCMPLE (R216): Instruction: vector compare less or equal, lane mask. -/
  | vfcmple (a : At) (ty : BitVec 2) (vd va vb : BitVec 4)
  /-- VFCMPUN (R216): Instruction: vector compare unordered, lane mask. -/
  | vfcmpun (a : At) (ty : BitVec 2) (vd va vb : BitVec 4)
  /-- VFCLASS (R216): Instruction: vector class mask. -/
  | vfclass (a : At) (ty : BitVec 2) (vd va : BitVec 4)
  /-- VFCVT_I (R216): Instruction: vector floating point to signed integer. -/
  | vfcvtI (a : At) (ty : BitVec 2) (vd va : BitVec 4)
  /-- VFCVT_U (R216): Instruction: vector floating point to unsigned integer. -/
  | vfcvtU (a : At) (ty : BitVec 2) (vd va : BitVec 4)
  /-- VFCVT_F (R216): Instruction: vector signed integer to floating point. -/
  | vfcvtF (a : At) (ty : BitVec 2) (vd va : BitVec 4)
  /-- VFCVT_FU (R216): Instruction: vector unsigned integer to floating point. -/
  | vfcvtFu (a : At) (ty : BitVec 2) (vd va : BitVec 4)
  /-- VFCVT_P (R216): Instruction: vector precision conversion. -/
  | vfcvtP (a : At) (ty : BitVec 2) (vd va : BitVec 4)
  /-- VFSGNJ (R216): Instruction: vector copy sign. -/
  | vfsgnj (a : At) (ty : BitVec 2) (vd va vb : BitVec 4)
  /-- VFRSUM (R217): Instruction: tree sum of all lanes into lane 0. -/
  | vfrsum (a : At) (ty : BitVec 2) (vd va : BitVec 4)
  /-- VADD (R218): Instruction: vector integer add. -/
  | vadd (a : At) (ty : BitVec 2) (vd va vb : BitVec 4)
  /-- VSUB (R218): Instruction: vector integer subtract. -/
  | vsub (a : At) (ty : BitVec 2) (vd va vb : BitVec 4)
  /-- VAND (R218): Instruction: vector and. -/
  | vand (a : At) (ty : BitVec 2) (vd va vb : BitVec 4)
  /-- VOR (R218): Instruction: vector or. -/
  | vor (a : At) (ty : BitVec 2) (vd va vb : BitVec 4)
  /-- VXOR (R218): Instruction: vector exclusive or. -/
  | vxor (a : At) (ty : BitVec 2) (vd va vb : BitVec 4)
  /-- VANDN (R218): Instruction: vector and-not. -/
  | vandn (a : At) (ty : BitVec 2) (vd va vb : BitVec 4)
  /-- VSLL (R218): Instruction: vector shift left. -/
  | vsll (a : At) (ty : BitVec 2) (vd va vb : BitVec 4)
  /-- VSRL (R218): Instruction: vector logical shift right. -/
  | vsrl (a : At) (ty : BitVec 2) (vd va vb : BitVec 4)
  /-- VSRA (R218): Instruction: vector arithmetic shift right. -/
  | vsra (a : At) (ty : BitVec 2) (vd va vb : BitVec 4)
  /-- VCMPEQ (R218): Instruction: vector integer compare equal. -/
  | vcmpeq (a : At) (ty : BitVec 2) (vd va vb : BitVec 4)
  /-- VCMPLT (R218): Instruction: vector integer compare less, signed. -/
  | vcmplt (a : At) (ty : BitVec 2) (vd va vb : BitVec 4)
  /-- VCMPLTU (R218): Instruction: vector integer compare less, unsigned. -/
  | vcmpltu (a : At) (ty : BitVec 2) (vd va vb : BitVec 4)
  /-- VMIN (R218): Instruction: vector signed minimum. -/
  | vmin (a : At) (ty : BitVec 2) (vd va vb : BitVec 4)
  /-- VMAX (R218): Instruction: vector signed maximum. -/
  | vmax (a : At) (ty : BitVec 2) (vd va vb : BitVec 4)
  /-- VMOV (R218): Instruction: vector move. -/
  | vmov (a : At) (ty : BitVec 2) (vd va : BitVec 4)
  /-- VSEL (R218): Instruction: vector select by mask. -/
  | vsel (a : At) (ty : BitVec 2) (vd va vb vc : BitVec 4)
  /-- VPERM (R218): Instruction: vector permute. -/
  | vperm (a : At) (ty : BitVec 2) (vd va vb : BitVec 4)
  /-- VBCAST (R219): Instruction: broadcast a g-register to every lane. -/
  | vbcast (a : At) (ty : BitVec 2) (v : BitVec 4) (g : BitVec 5)
  /-- VEXT (R219): Instruction: extract one lane to a g-register. -/
  | vext (a : At) (ty : BitVec 2) (v : BitVec 4) (g : BitVec 5) (lane : BitVec 4)
  /-- VINS (R219): Instruction: insert a g-register into one lane. -/
  | vins (a : At) (ty : BitVec 2) (v : BitVec 4) (g : BitVec 5) (lane : BitVec 4)
  /-- VBFLY4 (R221): Instruction: radix-4 butterfly. -/
  | vbfly4 (a : At) (ty : BitVec 2) (vd va vb : BitVec 4)
  /-- VCMUL (R247): Instruction: complex multiply. -/
  | vcmul (a : At) (ty : BitVec 2) (vd va vb : BitVec 4)
  /-- VCMULC (R247): Instruction: complex multiply by the conjugate. -/
  | vcmulc (a : At) (ty : BitVec 2) (vd va vb : BitVec 4)
  /-- SEND (R222): Instruction: build and send a token, committing at write-back under credit. -/
  | send (a : At) (dest : BitVec 8) (port : BitVec 2) (len : BitVec 3) (mono : Bool) (itsel : BitVec 2) (src nr : BitVec 5)
  /-- SENDI (R223): Instruction: send a token with an immediate node and optional context register. -/
  | sendi (a : At) (dest : BitVec 8) (port : BitVec 2) (len : BitVec 3) (mono : Bool) (itsel : BitVec 2) (src cr : BitVec 5) (node : BitVec 14) (ir : BitVec 5)
  /-- CTXREQ (R225): Instruction: request a new context of a graph and receive its number. -/
  | ctxreq (a : At) (rd : BitVec 5) (graph : BitVec 10)
  /-- MODE (R226): Instruction: write rounding, constant-time and trap modes of BSTAT and clear sticky flags. -/
  | mode (a : At) (ra : BitVec 5) (imm : BitVec 16)
  /-- INSTR_NOP (R227): Instruction: no operation. -/
  | instrNop (a : At)
  /-- END (R179): Instruction: end the firing once results are written and sends accepted. -/
  | endFiring (a : At)
  /-- DROPR (R139): Instruction: drop the packet's unlanded words. -/
  | dropr (a : At)
  /-- RESUME (R184): Instruction: resume from the exception record. -/
  | resume (a : At)
  /-- BREAK (R520): Instruction: breakpoint, stopping the engine in a debug stop when debug is enabled. -/
  | brk (a : At) (n : BitVec 10)
  /-- RDSTAT (R227): Instruction: read BSTAT. -/
  | rdstat (a : At) (rd : BitVec 5)
  /-- XMOV (R227): Instruction: read a word of the exception record. -/
  | xmov (a : At) (rd w : BitVec 5)
  /-- XSET (R227): Instruction: set XPC, XDS, XLE and XSH in the handler. -/
  | xset (a : At) (ra : BitVec 5)
  /-- CTXREL (R178): Instruction: release a LIVE class 2 or 3 context. -/
  | ctxrel (a : At) (ra : BitVec 5)
  /-- MFSR (R228): Privileged instruction: read a Steward system register. -/
  | mfsr (a : At) (rd : BitVec 5) (sr : BitVec 10)
  /-- MTSR (R228): Privileged instruction: write a Steward system register. -/
  | mtsr (a : At) (ra : BitVec 5) (sr : BitVec 10)
  /-- WAITE (R228): Privileged instruction: hold until a pending Steward event is enabled. -/
  | waite (a : At)
  /-- ICINV (R228): Privileged instruction: invalidate an instruction-cache line. -/
  | icinv (a : At) (ra : BitVec 5)
  /-- DCCLEAN (R228): Privileged instruction: write back a dirty data-cache line. -/
  | dcclean (a : At) (ra : BitVec 5)
  /-- DCINV (R228): Privileged instruction: invalidate a data-cache line. -/
  | dcinv (a : At) (ra : BitVec 5)
  /-- DCCI (R228): Privileged instruction: write back and invalidate a data-cache line. -/
  | dcci (a : At) (ra : BitVec 5)
  /-- FENCE (R228): Privileged instruction: hold until earlier loads and stores complete. -/
  | fence (a : At)
  /-- STEWARD_TIMER_EXPIRY (R229): The Steward TIMER counts down to zero and sets EVPEND[4]. -/
  | stewardTimerExpiry
  /-- CREDIT_REQUEST (R81): A producer's credit request reaches the Reeve, which grants a block of 64. -/
  | creditRequest (prod : BitVec 8) (ctx : CtlCtx) (gen : Option (BitVec 4))
  /-- CREDIT_GRANT (R80): A credit grant reaches a producer, releasing held SENDs or blocks. -/
  | creditGrant (prod : BitVec 8) (ctx : CtlCtx) (gen : BitVec 4)
  /-- CREDIT_RETURN (R80): A batch of credit returns reaches the Reeve and is subtracted from the counts. -/
  | creditReturn (unit : BitVec 8) (ctx : CtlCtx) (gen : BitVec 4)
  /-- LOAD_REPORT (R87): A cell reports its LOAD once per microsecond and the Reeve smooths it. -/
  | loadReport (c : Fin 128)
  /-- ACTIVATION_GRANT (R93): The Reeve grants the head activation of the lowest servable class and places its partitions. -/
  | activationGrant
  /-- CONTEXT_INSTALL (R91): An install message reaches a cell, which installs the context's generation and attributes. -/
  | contextInstall (c : Fin 128) (ctx : CtlCtx)
  /-- INSTALL_ACK (R91): Every install of a context is acknowledged and bindings are written and the request completes. -/
  | installAck (ctx : CtlCtx)
  /-- CONTEXT_UNINSTALL (R83): An uninstall message reaches a cell, which uninstalls the generation and starts its sweep. -/
  | contextUninstall (c : Fin 128) (ctx : CtlCtx)
  /-- CONTEXT_FREE (R78): The count for the reissue generation of a HELD context reaches zero and it returns to its pool. -/
  | contextFree (ctx : BitVec 17)
  /-- START_WAIT_EXPIRY (R93): A host start command reaches START_WAIT ungranted and completes with E_NO_RESOURCE. -/
  | startWaitExpiry (r : Fin 64)
  /-- GUARD_WAIT_EXPIRY (R97): A class 0 or 1 firing waits longer than GUARD_WAIT, asserting the cell's danger signal. -/
  | guardWaitExpiry (c : Fin 128)
  /-- GUARD_WINDOW_EXPIRY (R97): GUARD_WINDOW passes without a trigger and the danger signal deasserts. -/
  | guardWindowExpiry (c : Fin 128)
  /-- YIELD_DELAY_EXPIRY (R98): Danger holds for YIELD_DELAY and the cell moves to YIELD at level BULK. -/
  | yieldDelayExpiry (c : Fin 128)
  /-- CALM_TIME_EXPIRY (R98): Danger stays deasserted for CALM_TIME and the cell returns to NORMAL. -/
  | calmTimeExpiry (c : Fin 128)
  /-- STALL_TIMER_EXPIRY (R124): The stall detector's 50 µs timer expires, declaring a stall or aborting the next candidate. -/
  | stallTimerExpiry
  /-- AGE_SWEEP (R126): At least every 2^29 allocations the Reeve clamps old ACT_SEQ values. -/
  | ageSweep
  /-- SLOT_BOUNDARY (R261): A fabric slot begins, changing arbitration type and, at quarter or frame start, allowances and maps. -/
  | slotBoundary
  /-- REGION_REQUEST (R267): A REQ reaches a memory responder, which reads, writes or refuses it. -/
  | regionRequest (src : BitVec 8) (xid : BitVec 32) (ue : UnitErr)
  /-- REGION_RESPONSE (R267): An RSP reaches the requesting cell and completes its region access. -/
  | regionResponse (src : BitVec 8) (xid : BitVec 32) (ue : UnitErr)
  /-- REQ_TIMEOUT (R269): A REQ has no response after 4 ms and completes as RPOIS. -/
  | reqTimeout (src : BitVec 8) (xid : BitVec 32)
  /-- APPEND_TOKEN (R268): A token to a memory responder appends a record to an APPEND region. -/
  | appendToken (j : Fin 16) (src : BitVec 8) (t : Token) (ue : UnitErr)
  /-- FABRIC_HEADER_ERROR (R270): A router finds an uncorrectable or malformed header and discards the transaction. -/
  | fabricHeaderError (router : Fin 128) (lost : Lost)
  /-- DEAD_TIME_EXPIRY (R271): A unit waits DEAD_TIME at an ejection port without liveness and the target is isolated. -/
  | deadTimeExpiry (target : BitVec 8)
  /-- SENSOR_LINK_UP (R278): A sensor port's lock holds for 1 ms and the port goes up. -/
  | sensorLinkUp (p : Fin 64)
  /-- SENSOR_LINK_DOWN (R278): A sensor port loses lock and goes down. -/
  | sensorLinkDown (p : Fin 64)
  /-- FRAME_RECEIVED (R279): A sensor frame is received whole, checked, parsed and its records converted into blocks. -/
  | frameReceived (p : Fin 64) (back : Nat) (frame : List Byte) (corr uncorr : BitVec 16)
  /-- BLOCK_EMIT (R296): A hub holding credit emits a block's data and stamp tokens, and history append. -/
  | blockEmit (p : Fin 64)
  /-- PORT_EPOCH_CLOSE (R292): T64 reaches an epoch's end plus PORT_LAG and the port closes that epoch. -/
  | portEpochClose (p : Fin 64)
  /-- BELL_INJECT (R312): A hub injects the bells that close an epoch for a binding once its three conditions hold. -/
  | bellInject (b : Fin 16384)
  /-- EVIN_EDGE (R299): A filtered event-input edge is time-stamped and applied in EVENT, TACH or INDEX mode. -/
  | evinEdge (n : Fin 64) (x : EvPulse) (frac : BitVec 2)
  /-- EV_HOLDOFF_EXPIRY (R301): EV_HOLDOFF ends with edges counted and one EDGE event is raised. -/
  | evHoldoffExpiry (n : Fin 64)
  /-- RATE_WINDOW_END (R299): A 1 ms rate window ends and inputs enter or leave OVERRATED. -/
  | rateWindowEnd
  /-- STUCK_TIMEOUT (R300): STUCK_TIME passes without a qualified edge and the input becomes STUCK. -/
  | stuckTimeout (n : Fin 64)
  /-- EPOCH_START (R308): T64 reaches START_T64 and EPOCH_STATE becomes RUNNING. -/
  | epochStart
  /-- EPOCH_BOUNDARY (R309): T64 reaches an epoch boundary, applying pending LENGTH or STOP and yield drops. -/
  | epochBoundary
  /-- BELL_RELEASE (R313): A context's tally of one parity reaches zero and held bell firings are offered. -/
  | bellRelease (c : Fin 128) (ctx : BitVec 17) (epar : Bool)
  /-- RESULT_TOKEN (R317): The result writer grants a non-bell token and writes or stages its slot. -/
  | resultToken (src : BitVec 8) (t : Token) (ue : UnitErr)
  /-- BELL_AT_WRITER (R315): A bell reaches the result writer and is counted toward its context's close. -/
  | bellAtWriter (src : BitVec 8) (t : Token) (ue : UnitErr)
  /-- GAP_NOTICE (R323): A gap notice reaches the writer and is merged into a gap record. -/
  | gapNotice (k : Nat)
  /-- VARNISH_LIMIT_REACHED (R320): T64 reaches T_B(k+1) plus VARNISH_LIMIT with members still open. -/
  | varnishLimitReached
  /-- VARNISH (R320): The writer varnishes an epoch: writes headers, publishes banks, releases holds and signs the report. -/
  | varnish
  /-- AUDIT_VERDICT (R440): Primary and shadow have closed an epoch and their audit sums are compared. -/
  | auditVerdict (ctx : BitVec 17)
  /-- CHAIN_LINK_UP (R334): A chain port's block lock holds for 1 ms and the port goes up. -/
  | chainLinkUp (c : LinkHeads)
  /-- CHAIN_LINK_DOWN (R334): A chain port loses block lock and goes down. -/
  | chainLinkDown (c : LinkLoss)
  /-- CART_LAUNCH (R336): The root's T64 reaches a multiple of CYCLE_LEN and it launches the Cart. -/
  | cartLaunch
  /-- CART_PASS (R341): A Cart passes through a station, which reads its header and slot, answers and updates time and epoch. -/
  | cartPass (c : Fin 16) (cart : List Byte) (short : Bool) (perr : Nat)
  /-- CART_RETURN (R342): The Cart returns to the root, which checks answers, takes summaries and settles epochs. -/
  | cartReturn (c : Fin 16) (via : Fin 16) (cart : List Byte) (short : Bool) (fin : CartEnd)
  /-- SETTLE_LIMIT_EXPIRY (R326): SETTLE_LIMIT passes after the root's varnish and missing stations are counted. -/
  | settleLimitExpiry
  /-- CART_LOSS_DETACH (R354): A station takes no Cart for CART_LOSS cycles and detaches. -/
  | cartLossDetach
  /-- DETACH_HOLD_EXPIRY (R356): DETACH_HOLD passes and the root removes a detached station's slot and frees its ID. -/
  | detachHoldExpiry (station : BitVec 12)
  /-- BULK_FRAME_RECEIVED (R350): A bulk frame arrives whole on a chain port and is learned, forwarded or consumed. -/
  | bulkFrameReceived (c : Fin 16) (bytes : List Byte) (quarter : BitVec 2) (perr : Nat)
  /-- BULK_FRAME_SEND (R349): A queued bulk frame is started on a port when it can end before the next cyclic window. -/
  | bulkFrameSend (c : Fin 16) (quarter : BitVec 2)
  /-- DELAY_MEASURE (R344): At link up and every 1 s a station measures LINK_DELAY by DELAY_REQ exchanges. -/
  | delayMeasure (c : Fin 16)
  /-- PRESENCE_SEND (R347): Every STATION_AGE / 4 a station sends a PRESENCE frame to the root. -/
  | presenceSend
  /-- STATION_AGE_EXPIRY (R347): A learning entry not refreshed for STATION_AGE becomes not VALID. -/
  | stationAgeExpiry (station : BitVec 12)
  /-- CHAIN_EGRESS_TOKEN (R351): A token to DEST 0x94 is accepted and appended to a TOKENS frame or discarded. -/
  | chainEgressToken (src : BitVec 8) (t : Token) (ue : UnitErr)
  /-- CHAIN_SEND_TIMEOUT (R353): 10 cycles pass and CHAIN_SEND completes from the acknowledgements received. -/
  | chainSendTimeout
  /-- ACT_LINK_UP (R362): An actuation port's lock holds for 1 ms and the port goes up. -/
  | actLinkUp (a : Fin 16)
  /-- ACT_LINK_DOWN (R362): An actuation port loses lock and goes down. -/
  | actLinkDown (a : ActCut)
  /-- NOTICE_REQUEST (R364): A Notice request header arrives, is checked, and an answer starts from a snapshot. -/
  | noticeRequest (a : Fin 16) (eth : EthHead) (head : BitVec 96) (crc : BitVec 32) (bad : List NbError)
  /-- QUEUED_ANSWER_START (R368): The previous answer ends and a waiting answer starts with a fresh snapshot. -/
  | queuedAnswerStart (a : Fin 16) (bad : List NbError)
  /-- PEER_SILENT (R362): PEER_TIMEOUT passes without a valid request and EV 272 + a is raised. -/
  | peerSilent (a : Fin 16)
  /-- ANN_WAIT_EXPIRY (R382): ANN_WAIT passes and NOTICE_SEND completes from the acknowledgements received. -/
  | annWaitExpiry (a : Fin 16)
  /-- NOTICEBOARD_WRITE (R373): A token to DEST 0x92 is checked and committed to both Noticeboard copies. -/
  | noticeboardWrite (src : BitVec 8) (t : Token) (ue : UnitErr)
  /-- TRIP_COMMAND (R377): A token to DEST 0x93 is checked and sets the DEMAND of a trip-map entry. -/
  | tripCommand (src : BitVec 8) (t : Token) (ue : UnitErr)
  /-- TRIP_AGE_CHECK (R378): The once-per-microsecond check sets DEMAND TRIP on map entries past MAX_AGE. -/
  | tripAgeCheck
  /-- FORCE_LINE_ASSERT (R379): A Watch force line asserts at the actuation hubs, forcing entries and trips. -/
  | forceLineAssert (k : Fin 16)
  /-- FORCE_LINE_DEASSERT (R380): The force lines of an entry's FMASK deassert and it becomes RELEASED. -/
  | forceLineDeassert (k : Fin 16)
  /-- GRAPH_EVENT_TOKEN (R406): A token to DEST 0x95 raises a graph event source. -/
  | graphEventToken (src : BitVec 8) (t : Token) (ue : UnitErr)
  /-- STEWARD_MESSAGE (R443): A token to DEST 0x90 is queued in the Steward mailbox or discarded. -/
  | stewardMessage (src : BitVec 8) (t : Token) (ue : UnitErr)
  /-- FAULT_RAISE (R425): A fault source's raise reaches the Watch, which opens or merges a handling and starts its reaction. -/
  | faultRaise (src fcode : BitVec 8) (data : RaiseData)
  /-- HANDLING_END (R425): The log entry is written with the reaction in force and the state becomes FAULTED. -/
  | handlingEnd (logErr : Bool)
  /-- CONDITION_END (R434): A LEVEL fault source's condition ends. -/
  | conditionEnd (src fcode : BitVec 8)
  /-- QUIET_PERIOD_EXPIRY (R427): The quiet period passes in FAULTED, recovering to IDLE or setting STICKY. -/
  | quietPeriodExpiry
  /-- LOG_SCRUB (R433): The once-per-second scrub of the fault log finds an error and sets LOG_LOST. -/
  | logScrub
  /-- PAIR_COMPARE (R435): The pair port compares both cells' copies of a class 0 transfer and releases or discards them. -/
  | pairCompare (k : Fin 64)
  /-- SKEW_TIMEOUT (R436): One copy waits 2 µs without the other and is discarded with SKEW. -/
  | skewTimeout (k : Fin 64)
  /-- STEWARD_COMPARE (R437): The Steward comparator compares a bus transfer of both copies and holds them on mismatch. -/
  | stewardCompare (addr : BitVec 64) (agree : Bool)
  /-- COMPARATOR_STALL (R441): 750 ns pass without a comparator's liveness pulse and a stall is reported. -/
  | comparatorStall (c : Comparator)
  /-- TRIP_READBACK_MISMATCH (R417): A trip pin differs from its driven state for 2 µs. -/
  | tripReadbackMismatch (pins : BitVec 32)
  /-- TRACE_MARKER (R514): A token or item to DEST 0x96 is accepted by the trace collector or dropped. -/
  | traceMarker (src : BitVec 8) (t : Option Token) (ue : UnitErr)
  /-- TRACE_PACKET_WRITE (R514): The collector writes a staged packet to the trace region. -/
  | tracePacketWrite
  /-- TRACE_SYNC (R513): The periodic SYNC packet is written at least every 2^30 ns. -/
  | traceSync
  /-- TRACE_CTRL_WRITE (R516): A write of TRACE_CTRL changes trace settings and, on EN 0 to 1, writes a SYNC. -/
  | traceCtrlWrite (value : BitVec 32)
  /-- EXTEST (R517): JTAG instruction: boundary-scan external test. -/
  | extest (pins scan : BitVec 110)
  /-- IDCODE (R517): JTAG instruction: read the identification register. -/
  | idcode
  /-- SAMPLE_PRELOAD (R517): JTAG instruction: sample or preload the boundary register. -/
  | samplePreload (pins scan : BitVec 110)
  /-- CLAMP (R517): JTAG instruction: clamp outputs and select bypass. -/
  | clamp
  /-- HIGHZ (R517): JTAG instruction: put scanned outputs in high impedance. -/
  | highz
  /-- BYPASS (R517): JTAG instruction: bypass register. -/
  | bypass
  /-- DBG_ADDR (R517): JTAG instruction: load the debug address register. -/
  | dbgAddr (value : BitVec 64)
  /-- DBG_DATA (R518): JTAG instruction: read or write the debug address space and advance the address. -/
  | dbgData (update : Option (BitVec 64))
  /-- DBG_STATUS (R517): JTAG instruction: capture GATED, ERROR and BUSY. -/
  | dbgStatus
  /-- RUN (R520): STOP_CTRL command: resume a debug-stopped firing. -/
  | run (k : Fin 64)
  /-- STEP (R520): STOP_CTRL command: run one instruction, then stop again. -/
  | stepOne (k : Fin 64)
  /-- KILL (R520): STOP_CTRL command: end the stopped firing by exception with code BREAK. -/
  | kill (k : Fin 64)
  /-- ANSWER_SENT (R368): The last byte of a Notice answer leaves an actuation port and its transmitter becomes idle. -/
  | answerSent (a : ActIdle)
  /-- REQUEST_FRAME_END (R364): The terminate character or FCS of a Notice request frame arrives and RUNT, GIANT, FCS_ERR or LEN_ERR are judged. -/
  | requestFrameEnd (a : Fin 16) (len : BitVec 16) (fcsOk : Bool)
  /-- KEY_N_CHANGE (R447): The KEY_N input changes level and restarts the 20 ms presence filter. -/
  | keyNChange (high : Bool)
  /-- PPS_OUT_PULSE_END (R503): PPS_OUT_WIDTH passes after a PPS_OUT rise and PPS_OUT falls. -/
  | ppsOutPulseEnd
  /-- PCIE_CONFIG_WRITE (R386): A configuration write changes Bus Master Enable, the D-state or the MSI-X enable of the function. -/
  | pcieConfigWrite (bme : Bool) (d3hot : Bool) (msixEn : Bool)
  /-- MSIX_VECTOR_UNMASK (R414): A write to the MSI-X table unmasks a vector whose PBA bit is set and the pending message is sent. -/
  | msixVectorUnmask (v : Fin 64)
  /-- ROOT_CONFLICT_REARM (R356): One second passes at a root with no foreign Cart and ROOT_CONFLICT may be raised again. -/
  | rootConflictRearm
  deriving DecidableEq, Repr

end Sys2Proof
end

