-- ==== Sys2Proof/Machine/Bits.lean ====
section
/-! DEFINITION. Byte order, bit fields and serial-number comparison, each written once. -/

namespace Sys2Proof

/-- `n` bytes of a number, low byte first (the device is little-endian: R392, R397, R495). -/
def leBytes : Nat → Nat → List Byte
  | 0, _ => []
  | n + 1, v => BitVec.ofNat 8 v :: leBytes n (v / 256)

/-- The number that bytes spell, low byte first. -/
def ofLE : List Byte → Nat
  | [] => 0
  | b :: t => b.toNat + 256 * ofLE t

/-- `n` bytes of a number, high byte first (R455: keys and signatures). -/
def beBytes (n v : Nat) : List Byte := (leBytes n v).reverse

/-- The number that bytes spell, high byte first. -/
def ofBE (l : List Byte) : Nat := ofLE l.reverse

/-- `n` bytes at offset `o`; a byte beyond the end reads zero. -/
def bytesAt (l : List Byte) (o n : Nat) : List Byte :=
  (List.range n).map fun i => l.getD (o + i) 0

/-- The little-endian number of `n` bytes at offset `o`. -/
def leAt (l : List Byte) (o n : Nat) : Nat := ofLE (bytesAt l o n)

/-- Every byte of the range is zero. -/
def zeroAt (l : List Byte) (o n : Nat) : Bool := leAt l o n == 0

/-- The bytes of a list of words, low byte of each first. -/
def wordsToBytes (ws : List Word) : List Byte := ws.flatMap fun w => leBytes 4 w.toNat

/-- The words of a list of bytes. -/
def bytesToWords : List Byte → List Word
  | a :: b :: c :: d :: t => BitVec.ofNat 32 (ofLE [a, b, c, d]) :: bytesToWords t
  | [] => []
  | l => [BitVec.ofNat 32 (ofLE l)]

/-- Bits [hi:lo] of a number. -/
def field (v hi lo : Nat) : Nat := (v / 2 ^ lo) % 2 ^ (hi - lo + 1)

/-- Bit `i` of a number. -/
def bit (v i : Nat) : Bool := v.testBit i

/-- A truth value as a number. -/
def b2n (b : Bool) : Nat := if b then 1 else 0

/-- The signed value of the low `w` bits. -/
def sext (w v : Nat) : Int :=
  let u := v % 2 ^ w
  if u < 2 ^ (w - 1) then (u : Int) else (u : Int) - 2 ^ w

/-- The `w`-bit number that an integer narrows to. -/
def narrow (w : Nat) (v : Int) : Nat := (v % (2 ^ w : Nat)).toNat

/-- Serial-number order of R5: `a` is later than `b` in an `n`-bit counter. -/
def later (n a b : Nat) : Bool :=
  let d := (a + 2 ^ n - b % 2 ^ n) % 2 ^ n
  decide (1 ≤ d) && decide (d ≤ 2 ^ (n - 1) - 1)

/-- A T64 is later than another, over its full window (R5). -/
def laterT (a b : BitVec 64) : Bool := later 64 a.toNat b.toNat

/-- The count whose low 48 bits are `v` and that lies nearest to `w` (R309). -/
def near48 (w v : Nat) : Nat :=
  let d := (v + 2 ^ 48 - w % 2 ^ 48) % 2 ^ 48
  if d < 2 ^ 47 || w + d < 2 ^ 48 then w + d else w + d - 2 ^ 48

/-- A bit of a mask, set or cleared. -/
def setBit (m i : Nat) (v : Bool) : Nat :=
  if v then m ||| 2 ^ i else if m.testBit i then m - 2 ^ i else m

/-- The least set bit of a mask below `n`. -/
def lowBit (n m : Nat) : Option Nat := (List.range n).find? fun i => m.testBit i

/-- How many bits of a mask below `n` are set. -/
def popCount (n m : Nat) : Nat := ((List.range n).filter fun i => m.testBit i).length

end Sys2Proof
end

