-- ==== Sys2Proof/Machine/Crypto.lean ====
section
/-! DEFINITION. The algorithms that chapters 12, 13 and 17 name and that public standards define:
SHA-256, SHA-384, HMAC-SHA-256, ECDSA over P-384 and the Ethernet CRC-32 (log 22). -/

namespace Sys2Proof.Crypto

open Sys2Proof

/-! ## SHA-2 (FIPS 180-4) -/

/-- The whole part of the `e`-th root of `v`, found from bit `k - 1` down. -/
def root (e v : Nat) : Nat → Nat → Nat
  | 0, a => a
  | k + 1, a => root e v k (if (a + 2 ^ k) ^ e ≤ v then a + 2 ^ k else a)

/-- The first primes, in order; 80 of them lie below 410. -/
def primes : List Nat :=
  (List.range 410).filter fun q => decide (2 ≤ q) && (List.range 21).all fun d =>
    decide (d < 2) || decide (q ≤ d) || q % d != 0

/-- The first `w` bits of the fraction of the `e`-th root of a prime: FIPS 180-4 takes its numbers so. -/
def rootBits (e w q : Nat) : BitVec w := BitVec.ofNat w (root e (q * 2 ^ (e * w)) (w + 5) 0)

/-- A member of the SHA-2 family: word width, rotations, round constants (cube roots of primes). -/
structure Sha (w : Nat) where
  s0 : BitVec w → BitVec w
  s1 : BitVec w → BitVec w
  e0 : BitVec w → BitVec w
  e1 : BitVec w → BitVec w
  k  : List (BitVec w)

def sha256p : Sha 32 where
  s0 x := x.rotateRight 7 ^^^ x.rotateRight 18 ^^^ (x >>> 3)
  s1 x := x.rotateRight 17 ^^^ x.rotateRight 19 ^^^ (x >>> 10)
  e0 x := x.rotateRight 2 ^^^ x.rotateRight 13 ^^^ x.rotateRight 22
  e1 x := x.rotateRight 6 ^^^ x.rotateRight 11 ^^^ x.rotateRight 25
  k := (primes.take 64).map (rootBits 3 32)

def sha512p : Sha 64 where
  s0 x := x.rotateRight 1 ^^^ x.rotateRight 8 ^^^ (x >>> 7)
  s1 x := x.rotateRight 19 ^^^ x.rotateRight 61 ^^^ (x >>> 6)
  e0 x := x.rotateRight 28 ^^^ x.rotateRight 34 ^^^ x.rotateRight 39
  e1 x := x.rotateRight 14 ^^^ x.rotateRight 18 ^^^ x.rotateRight 41
  k := (primes.take 80).map (rootBits 3 64)

/-- The message schedule: the newest word first. -/
def schedule {w : Nat} (p : Sha w) : Nat → List (BitVec w) → List (BitVec w)
  | 0, l => l
  | n + 1, l =>
    schedule p n ((p.s1 (l.getD 1 0) + l.getD 6 0 + p.s0 (l.getD 14 0) + l.getD 15 0) :: l)

/-- One round. -/
def round {w : Nat} (p : Sha w) (h : List (BitVec w)) (kw : BitVec w × BitVec w) : List (BitVec w) :=
  match h with
  | [a, b, c, d, e, f, g, x] =>
    let t1 := x + p.e1 e + ((e &&& f) ^^^ (~~~e &&& g)) + kw.1 + kw.2
    let t2 := p.e0 a + ((a &&& b) ^^^ (a &&& c) ^^^ (b &&& c))
    [t1 + t2, a, b, c, d + t1, e, f, g]
  | _ => h

/-- One block of sixteen words. -/
def block {w : Nat} (p : Sha w) (h : List (BitVec w)) (m : List (BitVec w)) : List (BitVec w) :=
  let ws := (schedule p (p.k.length - 16) m.reverse).reverse
  List.zipWith (· + ·) h ((p.k.zip ws).foldl (round p) h)

/-- Words of `w` bits from bytes, high byte first. -/
def beWords (w : Nat) : Nat → List Byte → List (BitVec w)
  | 0, _ => []
  | n + 1, l => BitVec.ofNat w (ofBE (l.take (w / 8))) :: beWords w n (l.drop (w / 8))

def blocks {w : Nat} (p : Sha w) : Nat → List Byte → List (BitVec w) → List (BitVec w)
  | 0, _, h => h
  | n + 1, l, h => blocks p n (l.drop (2 * w)) (block p h (beWords w 16 l))

/-- The padded message: a one bit, zeros, and the length in bits. -/
def pad (w : Nat) (l : List Byte) : List Byte :=
  let b := 2 * w
  let z := (b - (l.length + 1 + w / 4) % b) % b
  l ++ [0x80#8] ++ List.replicate z 0#8 ++ beBytes (w / 4) (8 * l.length)

def digest {w : Nat} (p : Sha w) (iv : List (BitVec w)) (l : List Byte) : List Byte :=
  let m := pad w l
  (blocks p (m.length / (2 * w)) m iv).flatMap fun x => beBytes (w / 8) x.toNat

/-- SHA-256 starts from the square roots of the first eight primes. -/
def sha256 (l : List Byte) : List Byte := digest sha256p ((primes.take 8).map (rootBits 2 32)) l

/-- SHA-384 starts from those of the next eight, and keeps 48 bytes. -/
def sha384 (l : List Byte) : List Byte :=
  (digest sha512p (((primes.drop 8).take 8).map (rootBits 2 64)) l).take 48

/-- HMAC-SHA-256 (FIPS 198-1); the key is shorter than a block. -/
def hmac (key msg : List Byte) : List Byte :=
  let k := bytesAt key 0 64
  sha256 (k.map (· ^^^ 0x5c#8) ++ sha256 (k.map (· ^^^ 0x36#8) ++ msg))

/-! ## P-384 (FIPS 186) -/

def p : Nat := 2 ^ 384 - 2 ^ 128 - 2 ^ 96 + 2 ^ 32 - 1
def n : Nat :=
  0xffffffffffffffffffffffffffffffffffffffffffffffffc7634d81f4372ddf581a0db248b0a77aecec196accc52973
def bCoef : Nat :=
  0xb3312fa7e23ee7e4988e056be3f82d19181d9c6efe8141120314088f5013875ac656398d8a2ed19d2a85c8edd3ec2aef
def gx : Nat :=
  0xaa87ca22be8b05378eb1c71ef320ad746e1d3b628ba79b9859f741e082542a385502f25dbf55296c3a545e3872760ab7
def gy : Nat :=
  0x3617de4a96262c6f5d9e98bf9292dc29f8f41dbd289a147ce9da3113b5f0b8c00a60b1ce1d7e819d7a431d7c90ea0e5f

/-- `x ^ e` modulo `m`, by the low `k` bits of `e`. -/
def powMod (m : Nat) : Nat → Nat → Nat → Nat
  | 0, _, _ => 1 % m
  | k + 1, x, e =>
    let r := powMod m k (x * x % m) (e / 2)
    if e % 2 = 1 then x * r % m else r

def inv (m x : Nat) : Nat := powMod m 384 x (m - 2)

def sub (a b : Nat) : Nat := (a + p - b % p) % p

/-- A point in Jacobian coordinates; Z is 0 at infinity. -/
structure Pt where
  x : Nat
  y : Nat
  z : Nat
  deriving DecidableEq, Repr

def Pt.dbl (a : Pt) : Pt :=
  if a.z = 0 ∨ a.y = 0 then { x := 1, y := 1, z := 0 }
  else
    let zz := a.z * a.z % p
    let m := 3 * sub a.x zz * (a.x + zz) % p
    let yy := a.y * a.y % p
    let t := 4 * a.x * yy % p
    let x := sub (m * m) (2 * t)
    { x := x, y := sub (m * sub t x) (8 * yy * yy), z := 2 * a.y * a.z % p }

def Pt.add (a b : Pt) : Pt :=
  if a.z = 0 then b else if b.z = 0 then a
  else
    let z1 := a.z * a.z % p
    let z2 := b.z * b.z % p
    let u1 := a.x * z2 % p
    let u2 := b.x * z1 % p
    let s1 := a.y * b.z * z2 % p
    let s2 := b.y * a.z * z1 % p
    if u1 = u2 then (if s1 = s2 then a.dbl else { x := 1, y := 1, z := 0 })
    else
      let h := sub u2 u1
      let r := sub s2 s1
      let hh := h * h % p
      let hhh := h * hh % p
      let v := u1 * hh % p
      let x := sub (sub (r * r) hhh) (2 * v)
      { x := x, y := sub (r * sub v x) (s1 * hhh), z := h * a.z * b.z % p }

/-- `k` times a point, by the low `fuel` bits of `k`. -/
def mul (q : Pt) : Nat → Nat → Pt
  | 0, _ => { x := 1, y := 1, z := 0 }
  | f + 1, k =>
    let r := (mul q f (k / 2)).dbl
    if k % 2 = 1 then r.add q else r

/-- The point is on the curve. -/
def onCurve (x y : Nat) : Bool :=
  decide (x < p) && decide (y < p) && y * y % p == sub (x * x * x + bCoef) (3 * x)

/-- ECDSA verification (FIPS 186-4) of the digest `e` under the public key (x, y). -/
def verify (x y r s e : Nat) : Bool :=
  onCurve x y && decide (0 < r) && decide (r < n) && decide (0 < s) && decide (s < n) &&
  (let w := inv n s
   let a := (mul { x := gx, y := gy, z := 1 } 384 (e * w % n)).add
     (mul { x := x, y := y, z := 1 } 384 (r * w % n))
   let zi := inv p a.z
   a.z != 0 && a.x * zi * zi % p % n == r)

/-! ## CRC-32 of IEEE 802.3 -/

def crc32Byte (c : BitVec 32) (b : Byte) : BitVec 32 :=
  (List.range 8).foldl (fun c _ =>
    if c.getLsbD 0 then (c >>> 1) ^^^ 0xEDB88320#32 else c >>> 1) (c ^^^ b.zeroExtend 32)

def crc32 (l : List Byte) : Nat := (~~~(l.foldl crc32Byte 0xFFFFFFFF#32)).toNat

end Sys2Proof.Crypto
end

