-- ==== Sys2Proof/Config.lean ====
section
/-! DEFINITION. What the spec leaves open and the model leaves free: constants without a body, so
that no proof can rest on their values. -/

namespace Sys2Proof

/-- The values that the spec does not state, one for each draw (log 10).  The step advances
`State.fresh` at each draw and applies this constant to it. -/
opaque Config.freeValue : Nat → BitVec 64

/-- A vector's worth of free value (log 10). -/
opaque Config.freeVector : Nat → BitVec 512

/-- What KEY_i of a page's header holds for a slot without an entry, of the page, the slot and T_SPILL
(R107, log 10). -/
opaque Config.emptyKey : Nat → Nat → Nat → Nat

/-- Which record the Reeve's cache gives up for a new one when it is full: a place in its list, of the list
(R75, log 47). -/
opaque Config.cacheVictim : List Nat → Nat

/-- In a ring that is split away from a station's own links, the direction that reaches a station
(R348): true ahead, on PORT_A's side of the walk.  It depends on where the break lies, which the spec
gives no station: of the own ID, the other's, and the last CYCLE (log 33). -/
opaque Config.splitAhead : Nat → Nat → Nat → Bool

/-- The SECDED code of a fabric unit, of its data bits and its control bits [31:10]: the spec names no code
(R254, log 282). -/
opaque Config.unitEcc : BitVec 256 → BitVec 22 → BitVec 10

/-- The words of a control message, whose contents are internal (R256). -/
opaque Config.ctlWord : Nat → BitVec 64

/-- What the units, whose own traffic the spec does not count out, have added to a statistic of R275 by a
time: free (log 284). -/
opaque Config.ownTraffic : Nat → Nat → Nat → Nat

end Sys2Proof
end

