-- ==== Sys2Proof/Machine/State.lean ====
section
/-! DEFINITION. The state of the KK-8128: everything the spec gives the device, as plain data.
Each field's docstring names the piece, its width, the chapter and rule of spec/ that gives it,
and its reset value. -/

namespace Sys2Proof.Machine

/-- The timebase (19_setup_registers.md R498-R504). -/
structure Time where
  /-- Elapsed time in ns since the model's start: the model's own clock, from which every timer
  is measured; DESIGN CHOICE 0 (log 1). -/
  now : Nat := 0
  /-- T64; 64; 19 R498, R501; the spec gives no reset value: DESIGN CHOICE 0 (log 2). -/
  t64 : BitVec 64 := 0
  /-- Fraction of a nanosecond of T64, in units of 2^-16 ppm of a nanosecond (19 R501, R502);
  DESIGN CHOICE 0 (log 2). -/
  frac : Nat := 0
  /-- T64_HI as latched for BAR0; 32; 19 R501; reset not given: DESIGN CHOICE 0 (log 2). -/
  t64Hi : Word := 0
  /-- TB_CTRL.PPS_IN_EN; 1; 19 R501; reset 0. -/
  ppsInEn : Bool := false
  /-- TB_CTRL.PPS_OUT_EN; 1; 19 R501; reset 0. -/
  ppsOutEn : Bool := false
  /-- TB_STATUS.SLEWING; 1; 19 R501; reset 0. -/
  slewing : Bool := false
  /-- TB_STATUS.PPS_LOST; 1; 19 R501; reset 0. -/
  ppsLost : Bool := false
  /-- TB_FREQ_ADJ; 32 signed; 19 R501; reset 0. -/
  freqAdj : Word := 0
  /-- Signed phase remainder not yet applied, in the units of `frac`; 19 R501; reset 0. -/
  phaseRem : Int := 0
  /-- What the Cart's correction has still to add to T64, in the units of `frac`, and how much of it
  one nanosecond adds at most; 13 R344; reset 0. -/
  follow : Int := 0
  followRate : Nat := 0
  /-- PHASE_ADJ value last written; 32; 19 R504; reset 0. -/
  phaseLast : Word := 0
  /-- TB_SET_LO; 32; 19 R501; reset 0. -/
  setLo : Word := 0
  /-- TB_SET_HI; 32; 19 R501; reset 0. -/
  setHi : Word := 0
  /-- T64 of the last qualified PPS_IN edge (PPS_T_HI:PPS_T_LO); 64; 19 R501; reset 0. -/
  ppsT : BitVec 64 := 0
  /-- PPS_FRAC; 2; 19 R501; reset 0. -/
  ppsFrac : BitVec 2 := 0
  /-- PPS_SEQ; 16; 19 R501; reset 0. -/
  ppsSeq : BitVec 16 := 0
  /-- PPS_IN_HI as latched; 32; 19 R501; reset 0. -/
  ppsHiLatch : Word := 0
  /-- PPS_IN_INFO as latched; 32; 19 R501; reset 0. -/
  ppsInfoLatch : Word := 0
  /-- Time of the previous qualified PPS_IN edge, for the 500 ms rule; 19 R503; reset none. -/
  ppsPrev : Option Nat := none
  /-- The level of PPS_IN that the filter has accepted last, and the time of its raw transition; 11 R299, 19
  R503; reset none. -/
  ppsLevel : Option Bool := none
  ppsRaw : Nat := 0
  /-- Start of the 1.5 s without a qualified edge; 19 R503; reset 0. -/
  ppsArm : Nat := 0
  /-- Level of PPS_OUT; 1; 19 R503; reset low. -/
  ppsOut : Bool := false
  /-- Time at which PPS_OUT last rose; 19 R503; reset 0. -/
  ppsRise : Nat := 0
  deriving DecidableEq, Repr

/-- What a command that has been accepted and has not completed is waiting for. -/
inductive Wait where
  /-- START_GRAPH of a handle: the grant and the install acknowledgements (R93, R91). -/
  | start (handle : Nat) (ctx : Option Nat)
  /-- STOP_GRAPH of a context (R402). -/
  | stop (ctx : Nat)
  /-- SELF_TEST of a logical cell (R486). -/
  | cellTest (cell : Nat)
  /-- SELF_TEST of an HBM pseudo-channel (R488). -/
  | hbmTest (pc : Nat)
  /-- ENUMERATE (R346). -/
  | enumerate
  /-- CHAIN_SEND, by its BSEQ (R353). -/
  | chainSend (bseq : Nat)
  /-- NOTICE_SEND (R382) that the ports of a mask carry. -/
  | noticeSend (sent : Nat)
  /-- HOST_INJECT held for the credit of its token (R401, R80). -/
  | inject (t : Token)
  /-- HOST_INJECT whose packet stands in a posted injection path (R136, R142), and whether a copy of it
  has overrun. -/
  | posted (overran : Bool)
  deriving DecidableEq, Repr

/-- A command in execution: its ring, its descriptor, whether its ring still takes the
completion (R386), and what it waits for. -/
structure Running where
  ring : Nat
  desc : Desc
  live : Bool
  wait : Wait
  t0   : Nat
  deriving DecidableEq, Repr

/-- A completion offered to the completion writer (R397, R408), with the bytes of its output
buffer (R409). -/
structure Cpl where
  status : Nat
  cseq   : BitVec 16
  opcode : BitVec 16
  detail : Nat
  tag    : BitVec 64
  result : Nat
  irqNow : Bool
  haddr  : BitVec 64
  out    : List Byte
  deriving DecidableEq, Repr

/-- A command ring (R391). -/
structure CmdRing where
  /-- Ring enabled; 1; 15 R390, R398; reset 0. -/
  en : Bool := false
  /-- BASE; 64; 15 R391; reset 0. -/
  base : BitVec 64 := 0
  /-- SIZE_LOG2; 4; 15 R391; reset 0. -/
  sizeLog2 : Nat := 0
  /-- CPL_RING; 6; 15 R398; reset 0. -/
  cplRing : Nat := 0
  /-- Tail index of the last tail doorbell; 12; 15 R389; reset 0. -/
  tail : Nat := 0
  /-- Expected CSEQ; 16; 15 R391; reset 0. -/
  cseq : BitVec 16 := 0
  /-- Completion offered to the completion writer; 15 R408; reset none. -/
  item : Option Cpl := none
  /-- The item was found held by a full completion ring (CPL_RING_FULL counted); 15 R415. -/
  held : Bool := false
  deriving DecidableEq, Repr

/-- A completion ring (R391, R411). -/
structure CplRing where
  /-- Ring enabled; 1; 15 R390, R398; reset 0. -/
  en : Bool := false
  /-- BASE; 64; 15 R391; reset 0. -/
  base : BitVec 64 := 0
  /-- SIZE_LOG2; 4; 15 R391; reset 0. -/
  sizeLog2 : Nat := 0
  /-- VECTOR; 6; 15 R411; reset 0. -/
  vector : Nat := 0
  /-- HOLDOFF in microseconds; 16; 15 R411; reset 0. -/
  holdoff : Nat := 0
  /-- THRESH; 16; 15 R411; reset 0. -/
  thresh : Nat := 0
  /-- ARMED; 1; 15 R411; reset 0 (1 at creation). -/
  armed : Bool := false
  /-- HEAD index of the last head doorbell; 12; 15 R389; reset 0. -/
  head : Nat := 0
  /-- RSEQ of the next record; 16; 15 R391; reset 0. -/
  rseq : BitVec 16 := 0
  /-- Records written since the ring's last message; 15 R411; reset 0. -/
  since : Nat := 0
  /-- Time from which HOLDOFF runs: of the oldest unsignalled record, or of the re-arm;
  15 R411; reset none. -/
  oldest : Option Nat := none
  deriving DecidableEq, Repr

/-- An event record that has not been delivered (R405, R407). -/
structure EvtRec where
  cause     : Nat
  count     : Nat
  t64       : BitVec 64
  data0     : Nat
  data1     : Nat
  poison    : Bool
  coalesced : Bool
  trunc     : Bool
  deriving DecidableEq, Repr

/-- One event source (R407). -/
structure EvtSrc where
  /-- ROUTE_RING; 6; 15 R407; reset 0. -/
  ring : Nat := 0
  /-- ROUTE_EN; 1; 15 R407; reset 1. -/
  en : Bool := true
  /-- The undelivered record; 15 R407; reset none. -/
  pend : Option EvtRec := none
  deriving DecidableEq, Repr

/-- An entry of the MSI-X table (R387, R411). -/
structure MsixEntry where
  /-- Message address; 64; 15 R387; not given: DESIGN CHOICE 0 (log 3). -/
  addr : BitVec 64 := 0
  /-- Message data; 32; 15 R387; not given: DESIGN CHOICE 0 (log 3). -/
  data : Word := 0
  /-- Mask bit; 1; 15 R386: PRESUMED 1, as PCI Express resets it (log 3). -/
  masked : Bool := true
  deriving DecidableEq, Repr

/-- The counters of R415, in its order. -/
inductive HostCtr where
  | dbWrites | dbBad | descFetched | cmdOk | cmdReject | cplWritten | cplDiscard | cplRingFull
  | evtWritten | evtCoalesced | evtMasked | evtBellDrop | msixSent | hostReadFail | bar4Reads
  | bar4Poison | bar4WriteDrop
  deriving DecidableEq, Repr

/-- The host hub and the event raiser (15_host.md). -/
structure HostIf where
  /-- Command rings 0 to 63; 15 R391; reset disabled. -/
  cmd : Tab CmdRing := []
  /-- Completion rings 0 to 63; 15 R391; reset disabled. -/
  cpl : Tab CplRing := []
  /-- Commands accepted and not complete; 15 R393; reset none. -/
  running : List Running := []
  /-- The ring from which the fetch rotation goes on; 15 R393; reset 0 DESIGN CHOICE (log 4). -/
  fetchNext : Nat := 0
  /-- Event sources 0 to 511; 15 R404, R407; reset routed to ring 0 and enabled. -/
  src : Tab EvtSrc := []
  /-- The source whose record is the raiser's item at the completion writer; 15 R408; reset none. -/
  evtItem : Option Nat := none
  /-- The raiser's item was found held by a full ring; 15 R415. -/
  evtHeld : Bool := false
  /-- Cell from which the raiser's rotation goes on, and cell grants since its last shared
  grant; 15 R408; reset 0. -/
  evtNext : Nat := 0
  evtRun : Nat := 0
  /-- Ring from which the completion writer's rotation goes on, and ring grants since its last
  grant of the raiser's item; 15 R408; reset 0. -/
  cplNext : Nat := 0
  cplRun : Nat := 0
  /-- Bus Master Enable; 1; 15 R386; PRESUMED 0, as PCI Express resets it (log 3). -/
  bme : Bool := false
  /-- Function in D3hot; 1; 15 R386; reset D0. -/
  d3hot : Bool := false
  /-- MSI-X enabled; 1; 15 R411; PRESUMED 0, as PCI Express resets it (log 3). -/
  msixEn : Bool := false
  /-- PCI Express link trained; 1; 18 R470; reset 0. -/
  linkUp : Bool := false
  /-- MSI-X table of 64 vectors; 15 R387. -/
  msix : Tab MsixEntry := []
  /-- MSI-X PBA; 64; 15 R387; reset 0. -/
  pba : BitVec 64 := 0
  /-- Counters of R415; 32 each; reset 0. -/
  cnt : Tab Nat := []
  deriving DecidableEq, Repr

/-- The fault state of the device (R425). -/
inductive FState where
  | idle | handling | faulted | halted
  deriving DecidableEq, Repr

/-- The reactions of R419, weakest first. -/
inductive Reaction where
  | record | notify | safe | isolate | halt
  deriving DecidableEq, Repr

/-- A raise of a fault source (R417), with T64 and RECOVERIES at its detection (R431). -/
structure Raise where
  src    : Nat
  fcode  : Nat
  data   : Nat
  forced : Bool
  t64    : BitVec 64
  recov  : Nat
  deriving DecidableEq, Repr

/-- The handling in progress (R425, R426). -/
structure Handling where
  first    : Raise
  reaction : Reaction
  merged   : Nat
  classes  : Nat
  /-- The raises whose classes raise an event when the entry is written, with MERGED or not. -/
  events   : List (Raise × Bool)
  deriving DecidableEq, Repr

/-- An entry of the fault log (R431). -/
structure LogEntry where
  t64       : BitVec 64
  lseq      : Word
  src       : Nat
  fcode     : Nat
  cls       : Nat
  reaction  : Nat
  forced    : Bool
  merge     : Nat
  classes   : Nat
  sticky    : Bool
  halted    : Bool
  broken    : Bool
  recov     : Nat
  data      : Nat
  deriving DecidableEq, Repr

/-- A class 0 transfer held at a pair port (R435): a token or a region request, as the cell
offered it. -/
inductive Transfer where
  | token (t : Token)
  | req (handle graph bytes : Nat) (write : Bool) (offset : Nat) (data : List Byte) (upois : Bool)
  deriving DecidableEq, Repr

/-- A copy offered at a pair port: the transfer, the time of its offer, and for a request the bank
and the operation that wait for its response. -/
structure Offered where
  xfer    : Transfer
  t       : Nat
  express : Bool
  opId    : Nat
  deriving DecidableEq, Repr

/-- The shared router port of a cell pair (R435, R436, R441, R442). -/
structure PairPort where
  /-- Copies offered by the even cell and not yet compared, with their times; 16 R435; reset none. -/
  even : List Offered := []
  /-- Copies offered by the odd cell and not yet compared, with their times; 16 R435; reset none. -/
  odd : List Offered := []
  /-- Comparator in pass mode (DEBUG_ENABLE); 1; 16 R442; reset 0. -/
  pass : Bool := false
  /-- Comparator stalled; 1; 16 R441; reset 0. -/
  stalled : Bool := false
  deriving DecidableEq, Repr

/-- The counters of R445 after SRC_COUNT, in its order. -/
inductive WatchCtr where
  | faults | merges | recoveries | clears | stickyCount | logWraps | pairDiscard | auditAgree
  | auditDisputed | mboxFull | mboxPoison
  deriving DecidableEq, Repr

/-- The Watch, the Steward's lockstep and mailbox (16_watch.md). -/
structure Watch where
  /-- FSTATE; 2; 16 R446; reset 0 IDLE. -/
  fstate : FState := .idle
  /-- The handling in progress; 16 R425; reset none. -/
  cur : Option Handling := none
  /-- Raises detected that have not reached the Watch; 16 R424; reset none. -/
  raises : List Raise := []
  /-- STICKY; 1; 16 R446; reset 0. -/
  sticky : Bool := false
  /-- LOG_LOST; 1; 16 R446; reset 0. -/
  logLost : Bool := false
  /-- RECOVERED (W1C); 1; 16 R446; reset 0. -/
  recovered : Bool := false
  /-- MERGED (W1C); 1; 16 R446; reset 0. -/
  merged : Bool := false
  /-- FORCE_LINES; 16; 16 R446; reset 0. -/
  lines : BitVec 16 := 0
  /-- LEVEL sources whose real condition holds, with its FCODE; 16 R417; reset none. -/
  levels : List (Nat × Nat) := []
  /-- Sources whose force bit reads 1; 16 R418; reset none. -/
  forceBits : List Nat := []
  /-- Start of the quiet period while the quiet timer runs; 16 R427; reset stopped. -/
  quiet : Option Nat := none
  /-- Times of the recoveries of the last 3,600 s; 16 R428; reset none. -/
  recTimes : List Nat := []
  /-- Reaction of each class that differs from the default; 16 R430; reset R416 defaults. -/
  react : Tab (Option Reaction) := []
  /-- QUIET_TIME in ns; 16 R430; reset 10,000 ms. -/
  quietTime : Nat := 10000000000
  /-- RECOVERY_BUDGET; 8; 16 R430; reset 6. -/
  budget : Nat := 6
  /-- QUIET_TIME in ns from the next raise on; 16 R430; reset 10,000 ms. -/
  quietNext : Nat := 10000000000
  /-- RECOVERY_BUDGET from the next raise on; 8; 16 R430; reset 6. -/
  budgetNext : Nat := 6
  /-- Fault log, newest first, at most 1,024 entries; 16 R431; reset empty. -/
  log : List LogEntry := []
  /-- LSEQ of the next entry; 32; 16 R431; reset 0. -/
  lseq : Word := 0
  /-- WATCH_LAST_GASP: time and source, held with LG_VALID; 16 R433, 19 R507; reset none. -/
  lastGasp : Option (BitVec 64 × Nat) := none
  /-- Steward mailbox, 64 tokens; 16 R443; reset empty. -/
  mbox : List Token := []
  /-- Pair ports 0 to 63; 16 R435; reset empty. -/
  pairs : Tab PairPort := []
  /-- Both Steward copies held after a mismatch or stall; 1; 16 R437, R441; reset 0. -/
  stewardHeld : Bool := false
  /-- Steward comparator in pass mode; 1; 16 R442; reset 0. -/
  stewardPass : Bool := false
  /-- The Watch's own decision logic stalled; 1; 16 R422; reset 0. -/
  selfStall : Bool := false
  /-- SRC_COUNT_0 to SRC_COUNT_255; 32 each; 16 R445; reset 0. -/
  srcCount : Tab Nat := []
  /-- The other counters of R445; 32 each; reset 0. -/
  cnt : Tab Nat := []
  deriving DecidableEq, Repr

/-- SEAL_STATE (R449, R462). -/
inductive Seal where
  | sealed | opened | unsealed
  deriving DecidableEq, Repr

/-- The counters of R462 and then of R493, in setup-register order (R498). -/
inductive AonCtr where
  | keyChanges | sealOpens | reseals | presenceReject
  | starts | startFailTotal | lanternEntries | cellTestPass | cellTestFail | hbmTestPass
  | hbmTestFail | restEntries | scrubCorrected | colpwrLoss
  deriving DecidableEq, Repr

/-- The always-on domain (R447-R449, R468): kept through every full reset, cleared by loss of
VDDIO_3V3. -/
structure AlwaysOn where
  /-- Presence PRESENT; 1; 17 R447, R462; 0 at power-up. -/
  present : Bool := false
  /-- Level of KEY_N (true is high); 17 R447; DESIGN CHOICE high (log 5). -/
  keyN : Bool := true
  /-- Time from which KEY_N has held its level; 17 R447; reset 0. -/
  keySince : Nat := 0
  /-- A change of presence during a start, to be raised at step 9; 17 R447; reset 0. -/
  keyPending : Bool := false
  /-- The last samples of the seal loop, newest first, true where SEAL_B matched; 17 R448;
  reset none. -/
  samples : List Bool := []
  /-- LOOP_CLOSED; 1; 17 R462; 0 at power-up. -/
  loopClosed : Bool := false
  /-- SEAL_STATE; 2; 17 R449, R462; 2 UNSEALED at power-up. -/
  sealSt : Seal := .unsealed
  /-- START_FAILS; 2; 18 R473; 0 at power-up. -/
  startFails : Nat := 0
  /-- WHY_0, WHY_1, WHY_2; 8 each; 18 R475; 0 at power-up. -/
  why0 : BitVec 8 := 0
  why1 : BitVec 8 := 0
  why2 : BitVec 8 := 0
  /-- STAGE of the most recent failure; 4; 18 R475; 0 at power-up. -/
  stage : Nat := 0
  /-- T_FAIL in microseconds; 32; 18 R478; not given: DESIGN CHOICE 0 (log 6). -/
  tFail : Word := 0
  /-- CELL_FAIL, physical cells 0 to 131; 18 R478; not given: DESIGN CHOICE none (log 6). -/
  cellFail : List Nat := []
  /-- HBM_STATE of stacks 0 to 3; 8 each; 18 R478; not given: DESIGN CHOICE 2, not reached (log 6). -/
  hbmState : List Nat := [2, 2, 2, 2]
  /-- KEY_CHANGES to PRESENCE_REJECT (R462) and the counters of R493; 32 each; 0 at power-up. -/
  cnt : Tab Nat := []
  deriving DecidableEq, Repr

/-- The fuses (R457-R462, R478, R505): fixed by test and by commands, through every reset. -/
structure Fuses where
  /-- FUSE_LOCKED; 1; 17 R459; fuse: DESIGN CHOICE unburned (log 7). -/
  locked : Bool := false
  /-- REPORT_KEY_0-3, 32 bytes each; 17 R458; fuse: DESIGN CHOICE unburned (log 7). -/
  reportKey : Tab (List Byte) := []
  /-- GRAPH_PKH_0-1, 48 bytes each; 17 R458; fuse: DESIGN CHOICE unburned (log 7). -/
  graphPkh : Tab (List Byte) := []
  /-- FW_PKH_0-1, 48 bytes each; 17 R457; fuse: DESIGN CHOICE unburned (log 7). -/
  fwPkh : Tab (List Byte) := []
  /-- GRAPH_REVOKE; 2; 17 R462; fuse: DESIGN CHOICE 0 (log 7). -/
  graphRevoke : List Nat := []
  /-- FW_REVOKE; 2; 17 R462; fuse: DESIGN CHOICE 0 (log 7). -/
  fwRevoke : List Nat := []
  /-- FW_MIN_SVN; 7; 17 R457; fuse: DESIGN CHOICE 0 (log 7). -/
  minSvn : Nat := 0
  /-- The fused cell map, physical cells 0 to 131; 18 R472; fuse: DESIGN CHOICE none marked (log 7). -/
  cellMap : List Nat := []
  /-- SERIAL; 128; 15 R400; fuse: DESIGN CHOICE 0 (log 7). -/
  serial : BitVec 128 := 0
  /-- ASSET_TAG; 64; 19 R505; fuse: DESIGN CHOICE 0 (log 7). -/
  assetTag : BitVec 64 := 0
  /-- PPS_IN_EDGE; 1; 19 R505; fuse: DESIGN CHOICE 0 (log 7). -/
  ppsInEdge : Bool := false
  /-- PPS_OUT_WIDTH in ms; 7; 19 R505; an unprogrammed fuse field reads 100. -/
  ppsOutWidth : Nat := 100
  deriving DecidableEq, Repr

/-- Where a start stands (R469, R473): held in full reset, in boot stage 1 to 8 of a normal or
a Lantern start, in the retry pause after a failure, serving, or in Lantern mode. -/
inductive Phase where
  | held
  | boot (stage : Nat)
  | lanternBoot (stage : Nat)
  | pause (lantern : Bool)
  | ready
  | lantern
  deriving DecidableEq, Repr

/-- A firmware image in a flash location or running (R471, R457, R400). -/
structure FwImage where
  svn     : Nat
  commit  : Bool
  version : Word
  /-- KEY_IDX of the image, which a revocation may bar later (R456, R458). -/
  key     : Nat
  deriving DecidableEq, Repr

/-- The states of a cell under self-test (R486). -/
inductive TestState where
  | draining | fenced | testing | waking
  deriving DecidableEq, Repr

/-- A cell's self-test (R486, R487). -/
structure CellTest where
  st      : TestState
  since   : Nat
  aborted : Bool
  deriving DecidableEq, Repr

/-- A pseudo-channel's self-test (R488). -/
structure HbmTest where
  seg  : Nat
  fail : Nat
  deriving DecidableEq, Repr

/-- Start-up, supplies, domains and self-test (18_start_power.md). -/
structure Power where
  /-- Phase of the start; 18 R469; reset held. -/
  phase : Phase := .held
  /-- Time of reset release; 18 R469; reset 0. -/
  relAt : Nat := 0
  /-- Start of the retry pause; 18 R473; reset 0. -/
  pauseAt : Nat := 0
  /-- MAPPED_OUT: physical cells mapped out; 3; 15 R400, 18 R472; reset 0. -/
  mappedOut : Nat := 0
  /-- The image that runs on the Steward, and whether it came from slot B; 18 R471; reset none. -/
  running : Option (FwImage × Bool) := none
  /-- Stage 3 found the flash; slot A and slot B authenticated; 18 R478 FLASH; reset 0. -/
  flashFound : Bool := false
  slotAAuth : Bool := false
  slotBAuth : Bool := false
  /-- Columns whose power-good is lost; 16; 18 R481; reset none. -/
  colLost : List Nat := []
  /-- Edge hubs whose domain is off (R253 unit codes); 18 R479; reset none. -/
  hubOff : List Nat := []
  /-- The device is in REST; 1; 18 R483; reset 0. -/
  rest : Bool := false
  /-- Time from which the REST conditions have held; 18 R483; reset none. -/
  restSince : Option Nat := none
  /-- Stacks whose Cellar share awaits its scrub; 18 R484; reset none. -/
  scrub : List Nat := []
  /-- Cell self-tests by logical cell; 18 R486; reset none. -/
  cellTest : Tab (Option CellTest) := []
  /-- Pseudo-channel self-tests; 18 R488; reset none. -/
  hbmTest : Tab (Option HbmTest) := []
  /-- Junction sensors above 115 C that have not fallen below 110 C; 16 R417; reset none. -/
  tjCrit : List Nat := []
  /-- HOT sensors; 04 R88; reset none. -/
  hot : List Nat := []
  deriving DecidableEq, Repr

/-- The board around the device, and the boot flash: no reset of the device changes it. -/
structure Board where
  /-- Supplies outside their windows, by the numbers of R491; 21 R528; DESIGN CHOICE none (log 8). -/
  supplyOut : List Nat := []
  /-- SUPPLY_MV of supplies 0 to 8; 16 each; 18 R478; DESIGN CHOICE 0 until read (log 8). -/
  supplyMv : Tab Nat := []
  /-- Highest junction reading in 0.125 C; 16 signed; 18 R478; DESIGN CHOICE 0 (log 8). -/
  tjMax : Int := 0
  /-- RESET_N low; 1; 18 R467; DESIGN CHOICE high (log 8). -/
  resetLow : Bool := false
  /-- REFCLK_P/N present; 1; 18 R469; DESIGN CHOICE present (log 8). -/
  refclk : Bool := true
  /-- Boot flash answers with a valid SFDP table; 18 R471; DESIGN CHOICE yes (log 8). -/
  flash : Bool := true
  /-- The authentic images in flash slots A and B; 18 R471; DESIGN CHOICE one in slot A (log 8). -/
  slotA : Option FwImage := some { svn := 0, commit := false, version := 0, key := 0 }
  slotB : Option FwImage := none
  deriving DecidableEq, Repr

/-- The setup registers that no other unit holds (19_setup_registers.md). -/
structure Setup where
  /-- HOST_SCRATCH; 32; 19 R499; reset 0. -/
  scratch : Word := 0
  /-- HOST_CTRL.RING_EN; 1; 19 R499; reset 0. -/
  ringEn : Bool := false
  /-- HOST_STATUS.RINGS_UP; 1; 19 R499; reset 0. -/
  ringsUp : Bool := false
  /-- HOST_STATUS.RING_ERR; 1; 19 R499; reset 0. -/
  ringErr : Bool := false
  /-- HOST_STATUS.ERR_CODE; 3; 19 R499; reset 0. -/
  errCode : Nat := 0
  /-- ADMIN_CR_BASE; 64; 19 R500; reset 0. -/
  crBase : BitVec 64 := 0
  /-- ADMIN_CR_SIZE; 4; 19 R500; reset 0. -/
  crSize : BitVec 4 := 0
  /-- ADMIN_CQ_BASE; 64; 19 R500; reset 0. -/
  cqBase : BitVec 64 := 0
  /-- ADMIN_CQ_SIZE; 4; 19 R500; reset 0. -/
  cqSize : BitVec 4 := 0
  /-- ADMIN_CQ_VECTOR; 6; 19 R500; reset 0. -/
  cqVector : BitVec 6 := 0
  /-- VIOL_COUNT; 32; 19 R497; reset 0. -/
  violCount : Word := 0
  /-- SETUP_ERR (OFFSET, CODE) while VALID is 1; 32; 19 R497; reset 0. -/
  err : Option (Nat × Nat) := none
  /-- DEVICE_CFG.PPS_IN_EDGE; 1; 19 R505; reset fuse. -/
  ppsInEdge : Bool := false
  /-- DEVICE_CFG.PPS_OUT_WIDTH; 7; 19 R505; reset fuse. -/
  ppsOutWidth : Nat := 100
  /-- ASSET_TAG; 64; 19 R505; reset fuse. -/
  assetTag : BitVec 64 := 0
  /-- The one write of DEVICE_CFG, ASSET_TAG_LO, ASSET_TAG_HI has been used; 19 R505; reset 0. -/
  cfgWritten : Bool := false
  assetLoWritten : Bool := false
  assetHiWritten : Bool := false
  /-- DBG_GATE.JTAG_DEBUG; 1; 19 R506; reset 0. -/
  dbgGate : Bool := false
  deriving DecidableEq, Repr

/-- A token in the fabric with the initiator that injected it (R253, R258). -/
structure Flit where
  src  : Nat
  tok  : Token
  /-- The cell holds it at its ejection port (R59, R61). -/
  held : Bool := false
  /-- It is the compared output of a pair, which enters through the pair port (R252). -/
  pair : Bool := false
  deriving DecidableEq, Repr

/-- A region request (R255, R267, R269): its initiator and XID, its access, and the operation that
waits for it: bank P or M and the operation's number; for class 0 also those of the odd cell. -/
structure Req where
  src    : Nat
  xid    : Nat
  handle : Nat
  graph  : Nat
  bytes  : Nat
  write  : Bool
  offset : Nat
  data   : List Byte
  upois  : Bool
  /-- A shadow context's write, answered without writing (R439). -/
  dry    : Bool
  t0     : Nat
  express : Bool
  opId   : Nat
  peer   : Option (Bool × Nat)
  /-- A class 0 firing's request, whose response leaves through the pair port (R252, R255). -/
  pair   : Bool := false
  /-- The request has reached its responder. -/
  served : Bool
  /-- The timeout has ended it for its requester before it was served (R269). -/
  ended  : Bool := false
  /-- The request was lost on its way (R270, R435). -/
  lost   : Bool
  deriving DecidableEq, Repr

/-- What a memory responder answers (R256, R267). -/
inductive RspKind where
  | rdata (bytes : List Byte) | wack | rerr (reason : Nat) | rpois
  deriving DecidableEq, Repr

/-- A response in the fabric. -/
structure Rsp where
  req  : Req
  kind : RspKind
  deriving DecidableEq, Repr

/-- A region of a memory responder's table (R266). -/
structure Region where
  /-- VALID; 1; 10 R266; reset 0. -/
  valid : Bool := false
  /-- MODE APPEND; 1; 10 R266; reset 0. -/
  append : Bool := false
  /-- OWNER: a graph handle, or none for SYSTEM; 10 R266; reset 0. -/
  owner : Option Nat := none
  /-- BASE within the responder's channels; 10 R266; reset 0. -/
  base : Nat := 0
  /-- LENGTH; 10 R266; reset 0. -/
  length : Nat := 0
  /-- APPEND_PTR; 10 R266; reset 0. -/
  ptr : Nat := 0
  deriving DecidableEq, Repr

/-- A memory responder: its region table, the bytes of its four channels and its poison marks
(R266). -/
structure Responder where
  /-- Region table of 4,096 entries; 10 R266; reset none VALID. -/
  regions : Tab Region := []
  /-- HBM bytes behind the responder; 10 R266; reset contents not given: DESIGN CHOICE 0 (log 11). -/
  mem : Tab Byte := []
  /-- Poisoned 64-byte lines; 10 R266; reset none. -/
  poison : List Nat := []
  /-- EV 288 + j raised in this epoch for TOKEN_APPEND_BAD, for REQ_TIMEOUT; 10 R268, R269. -/
  badRaised : Bool := false
  toRaised : Bool := false
  deriving DecidableEq, Repr

/-- The statistics of R275 for one initiator, in its order. -/
inductive FabCtr where
  | txToken | txReq | txRsp | txCtl | injHoldNs | injHoldMax | gAllowHold | reqIssued | reqLatSum
  | reqLatMax | reqTimeout | rspLate
  deriving DecidableEq, Repr

/-- The device counters of R275, in its order. -/
inductive FabDevCtr where
  | fabricCe | fabricUe | isoAbsorb | fenceAbsorb | slotMapApplied
  deriving DecidableEq, Repr

/-- A port of a router (R252), by its output code (R254, R255); as an input, EJECT stands for the
injection port. -/
inductive Port where
  | eject | pair | n | s | e | w
  deriving DecidableEq, Repr

/-- A virtual network and lane (R258, R259). -/
inductive Chan where
  | g | u | req | rsp | ctl
  deriving DecidableEq, Repr

/-- A transaction on its way through the mesh (R255, R257-R260). -/
structure Transit where
  /-- The initiator (R253), and the input port by which it enters its router. -/
  src    : Nat
  entry  : Port
  /-- The router that it leaves, and the port. -/
  dst    : Nat
  exit   : Port
  chan   : Chan
  /-- The header and its data units. -/
  units  : Nat
  /-- How many units have crossed each output of its route that its header has crossed, the first output
  first. -/
  passed : List Nat := []
  /-- When it was offered. -/
  t0     : Nat
  deriving DecidableEq, Repr

/-- The fabric and the memory responders (10_fabric.md). -/
structure Fabric where
  /-- Tokens in flight, in injection order; 10 R258; reset none. -/
  flight : List Flit := []
  /-- G transactions held at injection for a spent allowance, with the time of their offer;
  10 R264; reset none. -/
  gHold : List (Flit × Nat) := []
  /-- The transactions in the routers' buffers and at the injection ports, in the order in which their
  headers came there; 10 R252, R258, R259; reset none. -/
  net : List Transit := []
  /-- Where the rotation of each router output stands, between the classes and between the input ports of
  each class; 10 R260; reset 0 DESIGN CHOICE (log 280). -/
  turn : Tab Nat := []
  turnIn : Tab Nat := []
  /-- Control messages in flight; 10 R256; reset none. -/
  ctl : List Ctl := []
  /-- Region requests in flight or outstanding; 10 R269; reset none. -/
  reqs : List Req := []
  /-- Responses in flight; 10 R269; reset none. -/
  rsps : List Rsp := []
  /-- Requests ended by the timeout whose late response is discarded; 10 R269; reset none. -/
  lateXids : List (Nat × Nat) := []
  /-- Next XID of each initiator; 32; 10 R255, R269; DESIGN CHOICE 0 (log 12). -/
  xid : Tab Nat := []
  /-- SLOT_MAP; 64 x 16; 10 R262; reset the default map. -/
  slotMap : Tab (Option (BitVec 16)) := []
  /-- A map accepted for the next frame; 10 R263; reset none. -/
  pendMap : Option (List (BitVec 16)) := none
  /-- The slot in force; 6; 10 R261; reset 0. -/
  slot : Nat := 0
  /-- T64 at the start of the slot in force, and the time; 10 R261; reset 0. -/
  slotT : BitVec 64 := 0
  slotAt : Nat := 0
  /-- G allowance each initiator has spent in this quarter; 10 R264; reset 0. -/
  spent : Tab Nat := []
  /-- Isolated targets: cells, responders and edge units by code; 10 R271; reset none. -/
  iso : List Nat := []
  /-- Fences requested and not complete, with the time of the request; 10 R272; reset none. -/
  fencing : List (Nat × Nat) := []
  /-- Fenced ports; 10 R272; reset none. -/
  fenced : List Nat := []
  /-- Memory responders 0 to 15; 10 R266. -/
  resp : Tab Responder := []
  /-- R275 statistics of each initiator, at 16 x code + row; 10 R275; reset 0. -/
  stat : Tab Nat := []
  /-- R275 device counters; 32 each; reset 0. -/
  dev : Tab Nat := []
  /-- TOKEN_APPEND_BAD of each responder; 32; 10 R275; reset 0. -/
  appendBad : Tab Nat := []
  deriving DecidableEq, Repr

/-- STATE of a stream binding or an import channel (R288). -/
inductive BindSt where
  | unbound | active | inactive
  deriving DecidableEq, Repr

/-- MODE of a sensor port (R276). -/
inductive PortMode where
  | off | native | ethernet
  deriving DecidableEq, Repr

/-- The parameters of a sensor port (R276). -/
structure PortCfg where
  /-- MODE; 2; 11 R276; reset OFF. -/
  mode : PortMode := .off
  /-- RATE is 25G; 1; 11 R276; reset 25G. -/
  rate25 : Bool := true
  /-- FEC: 0 NONE, 1 BASER, 2 RS; 2; 11 R276; reset NONE. -/
  fec : Nat := 0
  /-- POLARITY; 1; 11 R276; reset 0. -/
  polarity : Bool := false
  /-- PORT_MAC; 48; 11 R276; reset 0. -/
  mac : Nat := 0
  /-- ACCEPT_GROUP; 1; 11 R276; reset 1. -/
  group : Bool := true
  /-- PORT_IPV4; 32; 11 R276; reset 0. -/
  ipv4 : Nat := 0
  /-- PORT_IPV6; 128; 11 R276; reset 0. -/
  ipv6 : Nat := 0
  /-- FIELD_ETYPE; 16; 11 R276; reset 0x88B5. -/
  etype : Nat := 0x88B5
  /-- FIELD_UDP; 16; 11 R276; reset 49,400. -/
  udp : Nat := 49400
  /-- FRAME_ERR_THRESH; 16; 11 R276; reset 16. -/
  thresh : Nat := 16
  /-- PORT_LAG in ns; 11 R276; reset 200 us. -/
  lag : Nat := 200000
  deriving DecidableEq, Repr

/-- A stream binding (R288) with the block that it assembles (R289). -/
structure Binding where
  /-- STATE; 2; 11 R288; reset UNBOUND. -/
  st : BindSt := .unbound
  /-- CTX, GEN, CELL, NODE, CLASS; 17, 4, 7, 14, 2; 11 R288; reset 0. -/
  ctx : Nat := 0
  gen : Nat := 0
  cell : Nat := 0
  node : Nat := 0
  cls : Nat := 0
  /-- BLEN; 3; 11 R288; reset 0. -/
  blen : Nat := 0
  /-- STAMP and MONO; 1 each; 11 R288; reset 0. -/
  stamp : Bool := false
  mono : Bool := false
  /-- SCALE and OFFSET; 32 each; 11 R288; reset 0. -/
  scale : Nat := 0
  offset : Nat := 0
  /-- SPERIOD; 32; 11 R288; reset 0. -/
  speriod : Nat := 0
  /-- TMODE is ARRIVAL; 1; 11 R288; reset 0. -/
  arrival : Bool := false
  /-- ARR_OFFSET; 32; 11 R288; reset 0. -/
  arrOffset : Nat := 0
  /-- TACH; 7; 11 R288; reset 0. -/
  tach : Nat := 0
  /-- HIST; 16; 11 R288; reset 0. -/
  hist : Nat := 0
  /-- ITER_CTR; 8; 11 R288; reset 0. -/
  iter : Nat := 0
  /-- Samples of the block being assembled, oldest first; 11 R289; reset none. -/
  part : List Word := []
  /-- A sample of the partial block is a NaN or infinite; 11 R290; reset 0. -/
  partBad : Bool := false
  /-- Time of the partial block's first sample; 64; 11 R291; reset 0. -/
  partT : BitVec 64 := 0
  /-- T_FIRST and NSAMP of the previous record; 11 R289; reset none. -/
  prev : Option (BitVec 64 × Nat) := none
  /-- The port's count of downs at the previous record; 11 R289; reset 0. -/
  prevDowns : Nat := 0
  /-- Samples of an INACTIVE binding toward its next discarded block; 11 R288; reset 0. -/
  fill : Nat := 0
  /-- Index of the next epoch whose bells the hub injects for the binding; 48; 12 R311, R312; reset 0. -/
  bellNext : Nat := 0
  /-- Index of the epoch from which on a binding made during a drop has effect; 48; 04 R102; reset 0. -/
  since : Nat := 0
  /-- Which bind command has made it; 11 R305; reset 0. -/
  made : Nat := 0
  deriving DecidableEq, Repr

/-- A converted block on its way to the injection port, with the destination that its binding
named (R289, R296) and its stamp (R297). -/
structure Block where
  binding : Nat
  ctx     : Nat
  gen     : Nat
  cell    : Nat
  node    : Nat
  cls     : Nat
  blen    : Nat
  mono    : Bool
  /-- ITER, taken from ITER_CTR when the block leaves for the injection port (R33, R296). -/
  iter    : Nat
  words   : List Word
  bad     : Bool
  epoch   : Nat
  stamp   : Option (List Word)
  hist    : Nat
  deriving DecidableEq, Repr

/-- What stands at a port before a change (R276, R305): its parameters, its count of downs and its bindings. -/
structure PortSnap where
  cfg   : PortCfg
  downs : Nat
  binds : List (Nat × Binding)
  deriving DecidableEq, Repr

/-- A sensor port (R276-R293). -/
structure SensorPort where
  /-- The parameters; 11 R276. -/
  cfg : PortCfg := {}
  /-- What stood before each change made since the port's last frame, newest change first: that of a frame
  that began before it; 11 R276, R305; reset none. -/
  old : List PortSnap := []
  /-- The port is up; 1; 11 R278; reset 0. -/
  up : Bool := false
  /-- How often the port has gone down; 11 R289; reset 0. -/
  downs : Nat := 0
  /-- Frame errors in the epoch; 11 R279; reset 0. -/
  errs : Nat := 0
  /-- Causes raised once in this epoch: FRAME_ERRORS, SRC_GAP, LATE_SOURCE; 11 R279; reset none. -/
  raised : List Nat := []
  /-- SRC_IDs with the last SEQ accepted, at most 64; 11 R287; reset none. -/
  srcs : List (Nat × Nat) := []
  /-- Index of the first epoch that the port has not closed; 48; 11 R292; reset 0. -/
  closedTo : Nat := 0
  /-- Blocks converted and waiting for credit, in order; 11 R296; reset none. -/
  wait : List Block := []
  deriving DecidableEq, Repr

/-- An entry of an exception queue (R281). -/
structure ExqEntry where
  port   : Nat
  reason : Nat
  time   : BitVec 64
  frame  : List Byte
  deriving DecidableEq, Repr

/-- EMODE (R298). -/
inductive EvMode where
  | off | event | tach | index
  deriving DecidableEq, Repr

/-- EDGE (R298). -/
inductive EvEdge where
  | rise | fall | both
  deriving DecidableEq, Repr

/-- An event input (R298-R302). -/
structure EvIn where
  /-- EMODE; 2; 11 R298; reset OFF. -/
  mode : EvMode := .off
  /-- EDGE; 2; 11 R298; reset RISE. -/
  edge : EvEdge := .rise
  /-- PPR; 16; 11 R298; reset 1. -/
  ppr : Nat := 1
  /-- INDEX_IN; 7; 11 R298; reset 0x7F. -/
  indexIn : Nat := 0x7F
  /-- STUCK_TIME in ns; 11 R298; reset 1 s. -/
  stuckTime : Nat := 1000000000
  /-- EV_HOLDOFF in ns; 11 R298; reset 1 ms. -/
  holdoff : Nat := 1000000
  /-- STUCK; 1; 11 R300; reset 0. -/
  stuck : Bool := false
  /-- OVERRATED; 1; 11 R299; reset 0. -/
  overrated : Bool := false
  /-- The level that the filter has accepted last, and the time of its raw transition; 11 R299; reset none. -/
  level : Option Bool := none
  rawAt : Nat := 0
  /-- Time from which STUCK_TIME runs: of the last qualified edge, or of the change of parameters;
  11 R300; reset 0. -/
  since : Nat := 0
  /-- Qualified edges since UNSTUCK, up to two; 11 R300; reset 2. -/
  fresh : Nat := 2
  /-- The last 16 qualified pulse edges, newest first: time in quarter nanoseconds and position P;
  11 R302; reset none. -/
  edges : List (Nat × Nat) := []
  /-- Pulses of the current revolution, and P at its start; 11 R302; reset 0. -/
  pulse : Nat := 0
  revP : Nat := 0
  /-- The index input has marked a revolution start that no pulse has taken; 11 R302; reset 0. -/
  indexed : Bool := false
  /-- Pulses since the previous index edge, none before the first; 11 R302; reset none. -/
  idxPulses : Option Nat := none
  /-- PPR error stands: stamps carry INVALID; 1; 11 R302; reset 0. -/
  pprBad : Bool := false
  /-- EV n raised for PPR_ERR in this epoch; 1; 11 R302; reset 0. -/
  pprRaised : Bool := false
  /-- Qualified edges and merged pulses in the rate window; 11 R299; reset 0. -/
  window : Nat := 0
  /-- Time of the last EDGE event, while its hold-off runs; 11 R301; reset none. -/
  evAt : Option Nat := none
  /-- Qualified edges since the last EDGE event, and the time of the latest; 11 R301; reset 0. -/
  evCount : Nat := 0
  evLast : Nat := 0
  deriving DecidableEq, Repr

/-- The counters of a sensor port (R306), in its order. -/
inductive PortCtr where
  | rxFrames | rxBytes | runt | giant | fcsErr | daMiss | notField | ipCsum | udpCsum
  | lenConflict | fieldBad | fmtBad | exqFrames | exqDrop | seqGap | seqStale | srcTableFull
  | noBinding | lateBlock | fecCorr | fecUncorr | linkDownCount
  deriving DecidableEq, Repr

/-- The counters of a binding (R306, and NO_EPOCH of R332), in their order. -/
inductive BindCtr where
  | blocks | inactiveDrop | yieldDrop | holdDrop | srcGap | convErr | tMissing | noEpoch
  deriving DecidableEq, Repr

/-- The counters of an event input (R306), in its order. -/
inductive EvCtr where
  | edges | overrate | stuckCount | pprErr
  deriving DecidableEq, Repr

/-- Why a whole epoch of a context is dropped at ingest (R99, R293). -/
inductive DropWhy where
  | guaranteeYield | holdOverflow
  deriving DecidableEq, Repr

/-- The ingest hubs (11_ingest.md). -/
structure Ingest where
  /-- Sensor ports 0 to 63; 11 R276. -/
  ports : Tab SensorPort := []
  /-- Bindings 0 to 16,383; 11 R288. -/
  binds : Tab Binding := []
  /-- Bind commands carried out; 11 R305; reset 0. -/
  bindSeq : Nat := 0
  /-- Exception queues of hubs 0 to 7, 64 entries each; 11 R281; reset empty. -/
  exq : Tab (List ExqEntry) := []
  /-- Hold stores of hubs 0 to 7, 65,536 blocks each, in arrival order; 11 R293; reset empty. -/
  hold : Tab (List Block) := []
  /-- Dropped epochs: context, generation, epoch index, reason; 11 R293, 04 R99; reset none. -/
  drops : List (Nat × Nat × Nat × DropWhy) := []
  /-- Epochs that a hub has begun to forward: context, generation, epoch index; 04 R99; none. -/
  begun : List (Nat × Nat × Nat) := []
  /-- Event inputs 0 to 63; 11 R298. -/
  evin : Tab EvIn := []
  /-- Counters of each port, at 32 x port + row; 32 (RX_BYTES 48); 11 R306; reset 0. -/
  portCnt : Tab Nat := []
  /-- Counters of each binding, at 8 x binding + row; 32 each; 11 R306; reset 0. -/
  bindCnt : Tab Nat := []
  /-- Counters of each event input, at 4 x input + row; 32 each; 11 R306; reset 0. -/
  evCnt : Tab Nat := []
  deriving DecidableEq, Repr

/-- A member of an epoch at the result writer (R310, R315, R321). -/
structure Member where
  ctx   : Nat
  gen   : Nat
  graph : Nat
  nsink : Nat
  /-- Bells counted for the member, and for its shadow when the context is audited (R439). -/
  bells : Nat
  shadowBells : Nat
  /-- The shadow of an audited context (R438). -/
  shadow : Option Nat
  /-- The bells are complete and the audit verdict is awaited (R440). -/
  judging : Bool
  closed : Bool
  /-- The epoch has been abandoned for the member (R322). -/
  abandoned : Bool
  /-- The context has been released: it is a member no longer (R310). -/
  gone   : Bool
  /-- Results of the epoch written late (R321). -/
  late   : Nat
  deriving DecidableEq, Repr

/-- An epoch that has begun and is open or not yet varnished. -/
structure EpochRec where
  k        : Nat
  members  : List Member
  varnished : Bool
  /-- VARNISH_LIMIT has been reached (R320). -/
  limit    : Bool
  /-- The epoch has overlapped a period of LOCKSTEP_BROKEN (16 R442). -/
  unprotected : Bool
  /-- Results written for the epoch, and of those with POISON (R324). -/
  results  : Nat
  poisoned : Nat
  deriving DecidableEq, Repr

/-- A gap notice on its way to the writer, and a gap record (R323). -/
structure Gap where
  k      : Nat
  type   : Nat
  ctx    : Nat
  gen    : Nat
  graph  : Nat
  source : Nat
  count  : Nat
  tFirst : BitVec 64
  late   : Bool
  deriving DecidableEq, Repr

/-- A slot of a result bank (R318). -/
structure Slot where
  payload : List Word
  tag     : BitVec 64
  k       : Nat
  poison  : Bool
  late    : Bool
  again   : Bool
  deriving DecidableEq, Repr

/-- A result bank (R318): the header fields and the slots written. -/
structure ResBank where
  /-- A varnish has written the header; 12 R318, 15 R388; reset 0. -/
  valid : Bool := false
  /-- EPOCH and ERA; 48; 12 R318; reset 0. -/
  k : Nat := 0
  /-- VSEQ; 32; 12 R318; reset 0. -/
  vseq : Nat := 0
  /-- FLAGS; 32; 12 R318; reset 0. -/
  flags : Nat := 0
  /-- T_VARNISH; 64; 12 R318; reset 0. -/
  tv : BitVec 64 := 0
  /-- WRITTEN; 32; 12 R318; reset 0. -/
  written : Nat := 0
  /-- SETTLED_EPOCH and SETTLED_ERA; 48; 12 R318; reset 0. -/
  settledK : Nat := 0
  /-- SETTLED_FLAGS; 32; 12 R318; reset 0. -/
  settledFlags : Nat := 0
  /-- Slots of 128 bytes; 12 R318; zero before the first write. -/
  slots : Tab (Option Slot) := []
  deriving DecidableEq, Repr

/-- The bank pair of a graph (R317). -/
structure BankPair where
  published : ResBank := {}
  work      : ResBank := {}
  deriving DecidableEq, Repr

/-- A record of the stage (R317). -/
structure Staged where
  graph : Nat
  slot  : Nat
  img   : Slot
  deriving DecidableEq, Repr

/-- A varnish report with its epoch (R324, R325). -/
structure Report where
  k     : Nat
  bytes : List Byte
  deriving DecidableEq, Repr

/-- A change of the epochs that the host has requested and that has not taken effect (R308). -/
inductive EpochReq where
  | start (t : BitVec 64) (k : Nat) (len : Option Nat)
  | length (t : BitVec 64) (len : Nat)
  | stop (t : BitVec 64)
  deriving DecidableEq, Repr

/-- EPOCH_STATE (R308). -/
inductive EpochSt where
  | stopped | running
  deriving DecidableEq, Repr

/-- The device and root counters of R332, in its order. -/
inductive VarnCtr where
  | varnished | varnishIncomplete | lateMember | lateClose | abandoned | bellBad | bellExtra
  | bellNonmember | resWritten | resRange | resOverwrite | resAfterClose | lateDrop | stageFull
  | gapNotices | gapLost | readStale | summaryLate | settleMissing
  deriving DecidableEq, Repr

/-- The epochs and the result writer (12_varnish.md). -/
structure Writer where
  /-- EPOCH_STATE; 1; 12 R308; reset STOPPED. -/
  st : EpochSt := .stopped
  /-- EPOCH_ORIGIN; 64; 12 R307; reset 0, set by START. -/
  origin : BitVec 64 := 0
  /-- K_ORIGIN; 48; 12 R307; reset 0, set by START. -/
  kOrigin : Nat := 0
  /-- EPOCH_LEN in ns; 12 R330; reset 1 ms. -/
  len : Nat := 1000000
  /-- EPOCH_LEN before the last LENGTH took effect: the length of the epochs before EPOCH_ORIGIN, in
  ns; 12 R308; reset 1 ms. -/
  prevLen : Nat := 1000000
  /-- EPOCH_ORIGIN, K_ORIGIN and EPOCH_LEN before each LENGTH since START, the last first; 12 R308; reset
  none. -/
  older : List (BitVec 64 × Nat × Nat) := []
  /-- VARNISH_LIMIT in ns; 12 R330; reset 2 ms. -/
  varnishLimit : Nat := 2000000
  /-- SETTLE_LIMIT in ns; 12 R330; reset 4 ms. -/
  settleLimit : Nat := 4000000
  /-- RESULT_STAGE in MiB; 12 R330; reset 256. -/
  stageMiB : Nat := 256
  /-- START, LENGTH or STOP accepted and not yet in effect; 12 R308; reset none. -/
  req : Option EpochReq := none
  /-- Index of the epoch most recently begun; 48; 12 R309; reset 0. -/
  k : Nat := 0
  /-- Index of the epoch after which the epochs stop; 12 R308; reset none. -/
  lastK : Option Nat := none
  /-- W: the earliest unvarnished epoch; 48; 12 R317; reset 0. -/
  w : Nat := 0
  /-- The first epoch after START; 48; 12 R320; reset 0. -/
  firstK : Nat := 0
  /-- The epochs begun that are open or not varnished, oldest first; 12 R316; reset none. -/
  epochs : List EpochRec := []
  /-- The intake's item of each cell; 12 R319; reset none. -/
  intake : Tab (Option Token) := []
  /-- The cell whose item comes first, and the cell grants since the last gap notice; 12 R319; reset 0. -/
  next : Nat := 0
  run : Nat := 0
  /-- Gap notices on their way to the writer; 12 R319; reset none. -/
  notices : List Gap := []
  /-- Gap records not yet reported; 12 R323; reset none. -/
  gaps : List Gap := []
  /-- Context entries LATE_CLOSED and DISPUTED not yet reported; 12 R321, 16 R440; reset none. -/
  entries : List Gap := []
  /-- Bank pairs of the loaded graphs; 12 R317; reset none. -/
  banks : Tab BankPair := []
  /-- The stage, in arrival order; 12 R317; reset empty. -/
  stage : List Staged := []
  /-- VSEQ; 32; 12 R320; reset 0. -/
  vseq : Nat := 0
  /-- The last 64 reports, newest first; 12 R325; reset none. -/
  reports : List Report := []
  /-- CHAIN_SETTLED: epoch index and flags; 12 R326; reset none. -/
  settled : Option (Nat × Nat) := none
  /-- Summaries received at the root, by epoch index and station, with their FLAGS; 12 R326; none. -/
  summaries : List (Nat × Nat × Nat) := []
  /-- Epochs that the root has varnished and not settled, with the times; 12 R326; reset none. -/
  rootVarn : List (Nat × Nat) := []
  /-- SETTLE_LIMIT has been reached for the oldest of them; 12 R326; reset 0. -/
  settleOver : Bool := false
  /-- Counters of R332; 32 each; reset 0. -/
  cnt : Tab Nat := []
  deriving DecidableEq, Repr

/-- A firing packet as queued (R131-R133): its header fields, its operands by port (LEN code,
words), and the operand count of its sideband. -/
structure Packet where
  node  : Nat
  ctx   : Nat
  gen   : Nat
  iter  : Nat
  cls   : Nat
  epar  : Bool
  bell  : Bool
  npri  : Nat
  ppois : Nat
  a     : Option (List Word)
  b     : Option (List Word)
  c     : Option (List Word)
  nops  : Nat
  /-- EPAR of each non-bell operand, for the tallies of R313. -/
  epars : List Bool
  deriving DecidableEq, Repr

/-- Which part of the payload pool an operand's block came from (R59): none for LEN 0 and 1. -/
inductive Blk where
  | none | reserved | shared
  deriving DecidableEq, Repr

/-- An operand held for one port of an entry or a firing (R50). -/
structure Operand where
  len     : Nat
  epar    : Bool
  poison  : Bool
  spilled : Bool
  words   : List Word
  blk     : Blk
  deriving DecidableEq, Repr

/-- STATE of a Palette entry (R51). -/
inductive EntrySt where
  | free | waiting | ready
  deriving DecidableEq, Repr

/-- A Palette entry (R50).  HAVE is the ports whose operand is present. -/
structure Entry where
  st   : EntrySt := .free
  node : Nat := 0
  ctx  : Nat := 0
  gen  : Nat := 0
  iter : Nat := 0
  bell : Bool := false
  cls  : Nat := 0
  need : Nat := 0
  a    : Option Operand := none
  b    : Option Operand := none
  c    : Option Operand := none
  dup  : Bool := false
  deriving DecidableEq, Repr

/-- Why a token waits in the wait buffer (R61-R65). -/
inductive WaitWhy where
  /-- It missed, and waits for the spill of its set's group (R60, R61). -/
  | pressure
  /-- It missed, its group has spilled, and it waits for a way or a block to free (R60, R61). -/
  | spilled
  /-- It hit, found no block, and waits for the spill of its set's group (R60). -/
  | short
  /-- It hit, its group has spilled, and it waits for a block to free (R60). -/
  | shortSpilled
  /-- It missed in a set with nothing to spill, and waits for a way to free (R63). -/
  | blocked
  /-- For the page-in of its key (R64). -/
  | pagein
  /-- Behind an earlier waiting token of its set (R65). -/
  | behind
  /-- The page-in found nothing: treated as a miss in a set with nothing spilled (R64). -/
  | missed
  deriving DecidableEq, Repr

/-- What has become ready for a queue: a READY entry, or a MONO token's firing (R57, R313). -/
inductive ReadyItem where
  | entry (key : Nat)
  | mono (p : Packet)
  deriving DecidableEq, Repr

/-- A firing that has been assembled and not committed to its queue (R58): whether BELL_HOLD has counted
it (R313), and how often in a row the write check has rewound it (R136). -/
structure Ready where
  item    : ReadyItem
  counted : Bool := false
  checks  : Nat := 0
  deriving DecidableEq, Repr

/-- The counters of R74, in its order (the three gauges are computed). -/
inductive PalCtr where
  | staleGen | badNode | monoConflict | portRange | dupArrival | eparConflict | setPressure
  | setBlocked | spillPages | spillEntries | pageinReq | spilledIn | waitFull | rsvHold
  | poolEmpty | sweepFreed | paletteCe | paletteUe
  deriving DecidableEq, Repr

/-- A spill in progress (R62, R111): its group, the sets and ways it takes with the entries
copied, the page granted, the slots whose copies are acknowledged. -/
structure Spill where
  group   : Nat
  /-- The set under pressure, which always contributes (R62). -/
  set     : Nat
  victims : List (Nat × Nat)
  page    : Option Nat
  acked   : List Nat
  /-- Contexts, generations and parities abandoned while entries of theirs were being copied (R322). -/
  parities : List (Nat × Nat × Bool) := []
  deriving DecidableEq, Repr

/-- A Palette (03_palette.md). -/
structure Palette where
  /-- Entries, at 4 x set + way, of 2,048 sets of four ways; 03 R46, R50; reset FREE. -/
  entries : Tab Entry := []
  /-- Least-recently-touched order of each set's ways; 03 R49; DESIGN CHOICE 0, 1, 2, 3 (log 13). -/
  order : Tab (List Nat) := []
  /-- SPILL_DEPTH of each set; 32; 03 R62; reset 0. -/
  depth : Tab Nat := []
  /-- Reserved blocks in use, of 512; 03 R59; reset 0. -/
  rsvBlocks : Nat := 0
  /-- Shared blocks in use, of 3,584; 03 R59; reset 0. -/
  shBlocks : Nat := 0
  /-- Wait buffer, at most 32 tokens; 03 R61; reset empty. -/
  wait : List (Token × WaitWhy) := []
  /-- Reserved hold buffer, at most 8 tokens; 03 R59; reset empty. -/
  hold : List Token := []
  /-- Firings assembled and not yet committed, in readiness order; 03 R58, 12 R313; reset none. -/
  ready : List Ready := []
  /-- Spills in progress; 03 R61; reset none. -/
  spills : List Spill := []
  /-- Sweeps in progress, by context and generation; 03 R66; reset none. -/
  sweeps : List (Nat × Nat) := []
  /-- Counters whose cell event has been raised in this epoch; 03 R52; reset none. -/
  raised : List Nat := []
  /-- Counters of R74; 32 each; reset 0. -/
  cnt : Tab Nat := []
  deriving DecidableEq, Repr

/-- A packet in a queue bank, with its place in commit order. -/
structure Queued where
  pkt : Packet
  seq : Nat
  /-- Time of the commit, for GUARD_WAIT (R97). -/
  t   : Nat
  deriving DecidableEq, Repr

/-- The counters of R151, in its order (the two gauges are computed). -/
inductive QueCtr where
  | easelFired | expressFired | preempt | bankSwap | easelFull | expressFull | writeCheck
  | easelPe | easelDamaged | queueOrphan | easelFlushed | expressFlushed | easelOverrun
  | expressOverrun | budgetExc | droprWords
  deriving DecidableEq, Repr

/-- A packet that the posted injection path keeps: the rewinds in a row, and the HOST_INJECT that waits for
it, by its ring and its time (R136, R142). -/
structure Posted where
  pkt    : Packet
  checks : Nat
  ring   : Nat
  t0     : Nat
  deriving DecidableEq, Repr

/-- The firing queues of a cell (06_easel.md). -/
structure Queues where
  /-- Committed packets of EB_0 and EB_1, 256 words each; 06 R134; reset empty. -/
  eb0 : List Queued := []
  eb1 : List Queued := []
  /-- FILLING: EB_1 is the filling bank; 1; 06 R152; reset 0. -/
  filling : Bool := false
  /-- Committed packets of the express lane, 64 words; 06 R143; reset empty. -/
  express : List Queued := []
  /-- Words of the Easel packet and of the express packet being read, not yet freed; 06 R139; reset 0. -/
  eHeld : Nat := 0
  xHeld : Nat := 0
  /-- EASEL_FULL_NOW and EXPRESS_FULL_NOW; 1 each; 06 R137, R152; reset 0. -/
  easelFull : Bool := false
  expressFull : Bool := false
  /-- OVERRUN (W1C); 1; 06 R152; reset 0. -/
  overrun : Bool := false
  /-- The posted injection path: the packets that the write check has rewound, in order, each with the
  rewinds in a row and the ring of the command that waits for it; 06 R136, R142; reset none. -/
  posted : List Posted := []
  /-- Commit order of the next packet; 06 R135; reset 0. -/
  seq : Nat := 0
  /-- Counters of R151; 32 each; reset 0. -/
  cnt : Tab Nat := []
  deriving DecidableEq, Repr

/-- A branch whose delay slot has not been issued (R164): its index, where it goes when taken. -/
structure Branch where
  idx    : Nat
  target : Option Nat
  deriving DecidableEq, Repr

/-- The registers and modes of a bank: what a squash takes back (R180). -/
structure Regs where
  /-- g1 to g31; 64 each; 07 R156, 08 R195; 0 at each firing. -/
  g : Tab (BitVec 64) := []
  /-- v0 to v15; 512 each; 07 R156; 0 at each firing. -/
  v : Tab (BitVec 512) := []
  /-- LS_n, LE_n, LC_n; n = 0 to 3; 32 each; 07 R166; 0 at each firing. -/
  ls : Tab Nat := []
  le : Tab Nat := []
  lc : Tab Nat := []
  /-- BSTAT RM, CT and FTE; 9; 07 R159; the descriptor's at each firing. -/
  mode : BitVec 9 := 0
  /-- The mode that takes force after the shadow instruction; 07 R185; reset none. -/
  modeNext : Option (BitVec 9) := none
  /-- BSTAT.FSS; 5; 07 R159; 0 at each firing. -/
  fss : BitVec 5 := 0
  /-- BSTAT.LDEPTH; 3; 07 R159; 0 at each firing. -/
  ldepth : Nat := 0
  /-- BSTAT.POISONED; 1; 07 R159; header PPOIS at each firing. -/
  poisoned : Bool := false
  /-- BSTAT.INHANDLER; 1; 07 R159; 0 at each firing. -/
  inHandler : Bool := false
  /-- Block-store index (byte address in sequential mode) of the next instruction; 07 R156. -/
  pc : Nat := 0
  /-- The branch whose delay slot is next; 07 R164; reset none. -/
  slot : Option Branch := none
  /-- RESUME has asked for the loop logic of a level after the instruction at `pc`; 07 R186. -/
  resumeLvl : Option Nat := none
  deriving DecidableEq, Repr

/-- What an operation in flight writes when it completes. -/
inductive Dest where
  | g (r : Nat) (v : BitVec 64)
  | v (r : Nat) (v : BitVec 512)
  | ls (n : Nat) (v : Nat)
  | le (n : Nat) (v : Nat)
  | lc (n : Nat) (v : Nat)
  | fss (f : BitVec 5)
  | poisoned
  deriving DecidableEq, Repr

/-- What an operation in flight is: results that a unit writes; a late exception found at
completion; a region access that waits for its response; or an effect that commits at
write-back in program order (R174). -/
inductive OpKind where
  /-- Results ready to be written by OPERATION_COMPLETE. -/
  | result (w : List Dest)
  /-- A late exception: code and XINFO (FP_TRAP). -/
  | trap (code : Nat) (info : BitVec 64)
  /-- A region load awaiting its response: register, vector, bytes, sign-extension, XINFO. -/
  | regionLoad (rd : Nat) (vec : Bool) (bytes : Nat) (signed : Bool) (info : BitVec 64)
  /-- A region store awaiting write-back. -/
  | regionStore (handle offset : Nat) (data : List Byte) (info : BitVec 64)
  /-- A region store issued, awaiting its response. -/
  | regionStored (info : BitVec 64)
  /-- A scratch store awaiting write-back: address in scratch and bytes. -/
  | scratchStore (addr : Nat) (data : List Byte)
  /-- A SEND awaiting write-back, with its credit reserved. -/
  | send (t : Token) (illegal : Bool)
  /-- A context release awaiting write-back. -/
  | ctxRel (ctx : Nat)
  /-- END awaiting write-back. -/
  | endFiring
  /-- A write of a Steward system register (MTSR) awaiting write-back: its number and value. -/
  | sysWrite (sr : Nat) (v : BitVec 64)
  /-- T64_HI latched by a read of T64_LO, awaiting write-back. -/
  | latch (hi : Word)
  /-- A DROPR awaiting write-back: the words that had not landed, and those of them with a parity error. -/
  | dropped (unlanded : Nat) (bad : BitVec 12)
  /-- A RESUME awaiting write-back. -/
  | resumed
  deriving DecidableEq, Repr

/-- An operation in flight: its place in issue order, its distance (none: no gate), the instruction's
first word, and the registers just before it, to which a squash returns.  `begun`: its unit works on it
(R232), or the write of a system register is due.  `free`: what a region load delivers is not specified
(R163). -/
structure Op where
  kind  : OpKind
  n     : Nat
  d     : Option Nat
  word  : Word
  snap  : Regs
  begun : Bool := true
  free  : Bool := false
  deriving DecidableEq, Repr

/-- The attributes of a graph on a cell (R154). -/
structure Attr where
  scratchBase : Nat
  scratchLen  : Nat
  handler     : Nat
  bsLo        : Nat
  bsHi        : Nat
  deriving DecidableEq, Repr

/-- A register bank of a block engine with the firing it runs (07_block_engine.md). -/
structure Bank where
  /-- The header of the firing; 07 R156; reset none: no firing. -/
  hdr : Option Packet := none
  /-- The registers; 07 R156. -/
  regs : Regs := {}
  /-- Operand words not yet landed: those of port A, B, C counted from the packet's end; 07 R139. -/
  unlanded : Nat := 0
  /-- The packet's words with a parity error that have not landed yet, the first after the header at
  bit 0; 12; 06 R140. -/
  badWords : BitVec 12 := 0
  /-- XREC words 0 to 3 (3: sequential mode only); 64 each; 07 R182, R190; 0 at each firing. -/
  x0 : BitVec 64 := 0
  x1 : BitVec 64 := 0
  x2 : BitVec 64 := 0
  x3 : BitVec 64 := 0
  /-- Operations in flight in program order; 07 R160; reset none. -/
  ops : List Op := []
  /-- Squashed operations that their units still work on, or have queued, in program order; 07 R180, 09
  R232, R251; reset none. -/
  ghosts : List Op := []
  /-- Instructions issued in the bank, for distances; 07 R161; reset 0. -/
  n : Nat := 0
  /-- Instructions issued in the firing, for its trace item; 20 R513; 0 at each firing. -/
  issued : Nat := 0
  /-- Budget count of an express firing; 06 R146; 0 at each firing. -/
  budget : Nat := 0
  /-- The SEND at `pc` waits for credit and has been counted (07 R192), or the context request at `pc` waits
  for a place in its queue (05 R124). -/
  held : Bool := false
  /-- The context whose credit a held SEND waits for; 07 R176; reset none. -/
  heldFor : Option Nat := none
  /-- Since when a region access waits for the room of its response; 10 R269, R275; reset none. -/
  reqWait : Option Nat := none
  /-- A context request in progress: its graph handle, and the context once granted; 07 R178. -/
  ctxReq : Option (Nat × Option Nat) := none
  /-- Registers written by recent instructions, for those that two instructions write within a
  distance: number of the instruction, its distance and the register; 07 R163; reset none. -/
  wrote : List (Nat × Nat × Dest) := []
  /-- Attributes of the firing's graph; 07 R154; those of the context's install. -/
  attr : Attr := { scratchBase := 0, scratchLen := 0, handler := 0x3FFF, bsLo := 0, bsHi := 0x3FFF }
  deriving DecidableEq, Repr

/-- A breakpoint and stop state of a cell's debug unit (20_trace.md R520). -/
structure Debug where
  /-- BP_0 to BP_3: enabled and block-store index; 20 R520; reset 0. -/
  bp : Tab (BitVec 64) := []
  /-- The running bank is in a debug stop; 20 R520; reset 0. -/
  stopped : Bool := false
  /-- One instruction is to run before the next stop (STEP); 20 R520; reset 0. -/
  stepping : Bool := false
  /-- The breakpoint at the present index has been passed (RUN, STEP); 20 R520; reset 0. -/
  passed : Bool := false
  deriving DecidableEq, Repr

/-- The counters of R192, in its order. -/
inductive EngCtr where
  | instrIssued | instrSquashed | excTaken | excResumed | excEnded | sendCommit | sendCreditHold
  | ctxreqIssued | ctxrelNop | descUe | fetchUeCount | scratchCe | scratchUe
  deriving DecidableEq, Repr

/-- A context installed on a cell (R40, R91). -/
structure Installed where
  gen   : Nat
  cls   : Nat
  graph : Nat
  part  : Nat
  deriving DecidableEq, Repr

/-- A cell (03, 06, 07). -/
structure Cell where
  /-- The Palette; chapter 03. -/
  pal : Palette := {}
  /-- The firing queues; chapter 06. -/
  que : Queues := {}
  /-- Bank P and bank M; 07 R156; reset no firing. -/
  p : Bank := {}
  m : Bank := {}
  /-- PREEMPTED: an Easel firing is held in bank M; 1; 06 R152; reset 0. -/
  preempted : Bool := false
  /-- LAST_XREC_P, LAST_XREC_M: three words each; 07 R182; not given: DESIGN CHOICE 0 (log 14). -/
  lastP : List (BitVec 64) := [0, 0, 0]
  lastM : List (BitVec 64) := [0, 0, 0]
  /-- Node table: 64-bit descriptors; 07 R153; reset 0. -/
  nodes : Tab (BitVec 64) := []
  /-- Block store: 16,384 words of 32; 07 R155, 18 R482; cleared at wake. -/
  code : Tab Word := []
  /-- The CRC-32 kept of the code of each group of the cell; 32; 04 R85; reset none. -/
  crc : Tab (Option Nat) := []
  /-- Scratch memory: 256 KiB; 07 R170, 18 R482; zero at wake. -/
  scratch : Tab Byte := []
  /-- Contexts installed; 02 R40; reset none. -/
  ctxs : Tab (Option Installed) := []
  /-- Graph attributes by graph handle; 07 R154; reset none. -/
  attrs : Tab (Option Attr) := []
  /-- Credit held for each context and generation, at 16 x CTX + GEN, and from 2^21 on that of the class 0
  firings, which is kept per pair; 04 R80; reset none. -/
  credit : Tab Nat := []
  /-- Credit requests sent and not answered; 04 R81; reset none. -/
  asked : List (Nat × Option Nat) := []
  /-- Generation that came with the credit for a context; 07 R175; reset none. -/
  credGen : Tab (Option Nat) := []
  /-- Contexts uninstalled whose unspent credit waits for their last firing; 07 R176; none. -/
  leaving : List (Nat × Nat) := []
  /-- CELL_GEN; 8; 18 R482; reset 0. -/
  cellGen : BitVec 8 := 0
  /-- TALLY_0 and TALLY_1 of each installed context, at 2 x CTX + parity; 12 R313; reset 0. -/
  tally : Tab Nat := []
  /-- BELL_HOLD; 32; 12 R332; reset 0. -/
  bellHold : Nat := 0
  /-- AUDIT_SUM of each context, at 2 x CTX + parity; 64; 16 R439; reset 0. -/
  auditSum : Tab (BitVec 64) := []
  /-- Exception codes whose cell event has been raised in this epoch; 07 R187; reset none. -/
  excRaised : List Nat := []
  /-- Breakpoints and debug stop; 20 R520. -/
  dbg : Debug := {}
  /-- TRACE_CELL_DROP and the cell's trace buffer; 20 R514; reset 0 and empty. -/
  traceDrop : Nat := 0
  traceBuf : List (List Byte) := []
  /-- Counters of R192; 32 each; reset 0. -/
  cnt : Tab Nat := []
  deriving DecidableEq, Repr

/-- A page of the Cellar in use (R106-R108): the list it belongs to, its entries by slot, the time
it was linked.  Both copies hold the same. -/
structure Page where
  cell   : Nat
  group  : Nat
  linked : Bool
  tSpill : BitVec 64
  slots  : Tab Entry
  deriving DecidableEq, Repr

/-- A page-in (R112): the cell, set and key asked for, FREE_MASK, whether the engine has taken it,
the slots it returns (page, slot, and the key that the walk found there), and the entry that the cell has
accepted and that waits for a way or a block of its set (R73), with the set and whether its key is the
requested one. -/
structure PageIn where
  cell  : Nat
  set   : Nat
  key   : Entry
  mask  : Nat
  taken : Bool
  none  : Bool
  slots : List (Nat × Nat × Entry)
  got   : Option (Nat × Entry × Bool) := Option.none
  deriving DecidableEq, Repr

/-- States of the stall detector (R124). -/
inductive StallSt where
  | run | armed | escape
  deriving DecidableEq, Repr

/-- The counters of R130, in its order (CELLAR_USED and WAIT_DECLARED are gauges). -/
inductive CellarCtr where
  | cellarGrant | cellarFreeEv | cellarEmpty | pageinServed | pageinNone | pageinExtra
  | headerWalk | cellarRetry | cellarRebuild | cellarOrphan | purgeSlots | stallDeclared
  | stallNoCandidate | contextAborted | graphQuarantine | stallTimeLast | cellarUsed
  | waitHold | waitDeclared
  deriving DecidableEq, Repr

/-- The Cellar engine and the stall detector (05_cellar_progress.md). -/
structure Cellar where
  /-- CELLAR_SIZE in GiB; 05 R104; reset 16. -/
  gib : Nat := 16
  /-- Pages in use, by number; 05 R105, R109; reset none: all free. -/
  pages : Tab (Option Page) := []
  /-- Page lists, newest first, at 32 x cell + group; 05 R109; reset empty. -/
  lists : Tab (List Nat) := []
  /-- Channel from which the next page is granted; 6; 05 R109; reset 0 DESIGN CHOICE (log 17). -/
  channel : Nat := 0
  /-- Page-ins requested; 05 R112; reset none. -/
  pageins : List PageIn := []
  /-- Purges waiting, in order of release: context and generation; 05 R118; reset none. -/
  purges : List (Nat × Nat) := []
  /-- CELLAR_HIGH and CELLAR_LOW in percent; 05 R128; reset 90 and 75. -/
  high : Nat := 90
  low : Nat := 75
  /-- QUARANTINE_COUNT; 8; 05 R128; reset 8. -/
  quarCount : Nat := 8
  /-- QUARANTINE_WINDOW in ns; 05 R128; reset 1 s. -/
  quarWindow : Nat := 1000000000
  /-- WAIT_CAP; 32; 05 R128; reset 0. -/
  waitCap : Nat := 0
  /-- WAIT_DECLARED; 32; 05 R121; reset 0. -/
  waitDeclared : Nat := 0
  /-- EV 304 has been raised for CELLAR_HIGH and has not rearmed; 05 R119; reset 0. -/
  highRaised : Bool := false
  /-- EV 304 has been raised for an empty free list and no page has been freed; 05 R119; reset 0. -/
  emptyRaised : Bool := false
  /-- State of the stall detector, start of its timer, entry into ESCAPE; 05 R124; reset RUN. -/
  stall : StallSt := .run
  stallAt : Nat := 0
  escapeAt : Nat := 0
  /-- Times of the aborts of each graph that count toward quarantine; 05 R127; reset none. -/
  aborts : Tab (List Nat) := []
  /-- Quarantined graph handles; 05 R127; reset none. -/
  quarantined : List Nat := []
  /-- Counters of R130; 32 each; reset 0. -/
  cnt : Tab Nat := []
  deriving DecidableEq, Repr

/-- STATE of a context (R78). -/
inductive CtxSt where
  | free | live | releasing | held
  deriving DecidableEq, Repr

/-- A context record (R77). -/
structure Ctx where
  /-- STATE; 2; 04 R77; reset FREE (02 R45). -/
  st : CtxSt := .free
  /-- CLASS; 2; 04 R77; reset 0. -/
  cls : Nat := 0
  /-- GEN; 4; 04 R77; reset 0 (02 R45). -/
  gen : Nat := 0
  /-- The number has been allocated since the full reset, so its next life bumps GEN; 04 R79. -/
  ever : Bool := false
  /-- GRAPH; 10; 04 R77; reset 0. -/
  graph : Nat := 0
  /-- GRAPH of the activation of each generation; 10 each; 15 R402; reset none (1,024). -/
  graphs : Tab Nat := []
  /-- PLACE_p of the NPART + 1 partitions; 7 each; 04 R77; reset none. -/
  place : List Nat := []
  /-- ACT_SEQ; 32; 04 R77; reset 0. -/
  actSeq : Nat := 0
  /-- COUNT of each generation; 32 each; 04 R77; reset 0 (02 R45). -/
  count : Tab Nat := []
  /-- ORIGIN: requested by a firing; 1; 04 R77; reset 0. -/
  origin : Bool := false
  /-- BOUND: bindings that name the context; 14; 04 R77; reset 0. -/
  bound : Nat := 0
  /-- Cells whose install is not yet acknowledged; 04 R91; reset none. -/
  acks : List Nat := []
  /-- Every install has been acknowledged (INSTALL_ACK has run); 04 R91; reset 0. -/
  installed : Bool := false
  /-- Cells whose sweep is not yet reported; 04 R83; reset none. -/
  sweeps : List Nat := []
  /-- Cells that were granted credit for the context without being placed; 07 R176; reset none. -/
  creditors : List Nat := []
  /-- A token of the context cannot be attributed: HELD until the next full reset; 05 R117. -/
  orphan : Bool := false
  /-- A release that came before every install was acknowledged, with its gap reason; 04 R102; none. -/
  relWanted : Option Nat := none
  /-- The other context of an audited activation, and whether this one is the shadow; 16 R438. -/
  partner : Option Nat := none
  shadow : Bool := false
  /-- The bank whose firing asked for it: cell and express; 04 R82; reset none. -/
  asker : Option (Nat × Bool) := none
  deriving DecidableEq, Repr

/-- A pending activation (R93): its graph, the firing that asked (cell, bank P) or the host, and
whether WAIT_HOLD has counted it. -/
structure Activation where
  graph   : Nat
  asker   : Option (Nat × Bool)
  ring    : Nat
  t0      : Nat
  counted : Bool
  deriving DecidableEq, Repr

/-- A cell group (R84). -/
structure Group where
  /-- Definition: mask, node-slot range, block-store range; 04 R84; reset undefined. -/
  gdef : Option GroupDef := none
  /-- ROT_PTR; 7; 04 R89; reset 0 DESIGN CHOICE (log 18). -/
  rot : Nat := 0
  /-- The recorded CRC-32 of the group's code; 32; 04 R85; reset none. -/
  crc : Option Nat := none
  deriving DecidableEq, Repr

/-- Sums of declared needs on a cell (R94). -/
structure Needs where
  ways   : Nat := 0
  blocks : Nat := 0
  words  : Nat := 0
  slots  : Nat := 0
  deriving DecidableEq, Repr

/-- The danger signal and yield state of a cell (R97, R98). -/
structure Danger where
  /-- D_n; 1; 04 R97; reset 0. -/
  d : Bool := false
  /-- Time since which D_n has been as it is; 04 R98; reset 0. -/
  since : Nat := 0
  /-- Time of the last trigger; 04 R97; reset 0. -/
  last : Nat := 0
  /-- YIELD_STATE: 0 NORMAL, 1 THROTTLE, 2 YIELD BULK, 3 YIELD MEASURE; 2; 04 R98, R103; reset 0. -/
  y : Nat := 0
  /-- The YIELD state that the cell left at the start of the epoch in progress, 0 if none; 04 R102;
  reset 0. -/
  left : Nat := 0
  /-- A trigger at that start has brought the state back, and its drop is to come; 04 R102; reset 0. -/
  owed : Bool := false
  /-- The cell event for GUARANTEE_YIELD has been raised in this epoch; 04 R99; reset 0. -/
  raised : Bool := false
  deriving DecidableEq, Repr

/-- The counters of R103 before its gauges, in its order. -/
inductive ReeveCtr where
  | alloc0 | alloc1 | alloc2 | alloc3 | release0 | release1 | release2 | release3
  | ctxHeldWait | startTimeout | guaranteeReject | guaranteeYield | actThrottled
  | placeHotAvoid | creditWait | tableMiss
  deriving DecidableEq, Repr

/-- The Reeve (04_reeve.md) and the loaded graphs. -/
structure Reeve where
  /-- Context records 0 to 131,071; 04 R77; reset FREE. -/
  ctx : Tab Ctx := []
  /-- Contexts whose records the cache of 2,048 holds, the last used first; 04 R75; reset none. -/
  cached : List Nat := []
  /-- ACT_NEXT; 32; 04 R77; reset 0 DESIGN CHOICE (log 18). -/
  actNext : Nat := 0
  /-- Admission queues of classes 0 to 3, at most 256 each; 04 R93; reset empty. -/
  queue : Tab (List Activation) := []
  /-- Host starts waiting for a place in a queue; 04 R93; reset none. -/
  waiters : List Activation := []
  /-- Loaded graph images by handle; 15 R402; reset none. -/
  graphs : Tab (Option GraphBody) := []
  /-- Partitions as they stood before SET_GROUP, whose code the cells of their groups still hold, by
  graph handle; 04 R84, R90; reset none. -/
  moved : Tab (List PartDef) := []
  /-- Groups 0 to 63; 04 R84; reset undefined. -/
  groups : Tab Group := []
  /-- Cells whose state a wake has invalidated and whose code is not reloaded; 04 R85; reset none. -/
  stale : List Nat := []
  /-- Sums of declared needs by cell; 04 R94; reset 0. -/
  needs : Tab Needs := []
  /-- LOAD_n, smoothed; 8 each; 04 R87; reset 0. -/
  load : Tab Nat := []
  /-- Time of the last report of each cell; 04 R87; reset 0. -/
  loadAt : Tab Nat := []
  /-- Danger and yield by cell; 04 R97, R98; reset NORMAL. -/
  danger : Tab Danger := []
  /-- Credit of the hubs, at (code x 2^17 + CTX) x 16 + GEN; 04 R80; reset none. -/
  hubCredit : Tab Nat := []
  /-- Credit requests of hubs not answered: code, context, generation; 04 R81; reset none. -/
  hubAsked : List (Nat × Nat × Option Nat) := []
  /-- Admission stopped by a HALT; 1; 16 R421; reset 0. -/
  halted : Bool := false
  /-- GUARD_WAIT in ns; 04 R101; reset 1.0 us. -/
  guardWait : Nat := 1000
  /-- GUARD_WINDOW in ns; 04 R101; reset 100 us. -/
  guardWindow : Nat := 100000
  /-- YIELD_DELAY in ns; 04 R101; reset 100 us. -/
  yieldDelay : Nat := 100000
  /-- CALM_TIME in ns; 04 R101; reset 10 ms. -/
  calmTime : Nat := 10000000
  /-- HOT_LIMIT in degrees C; 04 R101; reset 105. -/
  hotLimit : Nat := 105
  /-- START_WAIT in ns; 04 R101; reset 1 ms. -/
  startWait : Nat := 1000000
  /-- Counters of R103; 32 each; reset 0. -/
  cnt : Tab Nat := []
  deriving DecidableEq, Repr

/-- The Steward in its sequential mode, as one machine: its two copies run in lockstep (16 R437). -/
structure Steward where
  /-- g-registers, loop registers, BSTAT, XREC_0 to XREC_3, the program counter (a byte address) and
  the operations in flight; 07 R189, R190; reset 0, and the reset vector is not given: DESIGN
  CHOICE 0 (log 19). -/
  bank : Bank := {}
  /-- Steward memory and ROM by byte address; 07 R189; contents not given: DESIGN CHOICE 0 (log 19). -/
  mem : Tab Byte := []
  /-- Lines of the instruction cache, oldest first: line number and 64 bytes; 07 R189; reset empty. -/
  icache : List (Nat × List Byte) := []
  /-- Lines of the data cache, oldest first: line number, 64 bytes, dirty; 07 R189; reset empty. -/
  dcache : List (Nat × List Byte × Bool) := []
  /-- XVEC; 32; 08 R229; reset the ROM exception entry, not given: DESIGN CHOICE 0 (log 19). -/
  xvec : BitVec 32 := 0
  /-- EVPEND; 7; 08 R229; reset 0. -/
  evPend : BitVec 7 := 0
  /-- EVMASK; 7; 08 R229; reset 0. -/
  evMask : BitVec 7 := 0
  /-- T64_HI as latched for the Steward; 32; 08 R229; reset not given: DESIGN CHOICE 0 (log 2). -/
  t64Hi : Word := 0
  /-- TIMER, as the time at which it reaches 0; 08 R229; reset stopped. -/
  timer : Option Nat := none
  /-- The Steward program is halted by a debugger; 1; 20 R521; reset 0. -/
  halted : Bool := false
  /-- One instruction is to run before the next halt; 1; 20 R518; reset 0. -/
  stepping : Bool := false
  deriving DecidableEq, Repr

/-- STATE of a Noticeboard entry (R369). -/
inductive NbSt where
  | disabled | wait | live | forced | released
  deriving DecidableEq, Repr

/-- MODE of an actuation port (R360). -/
inductive ActMode where
  | off | native | ethernet
  deriving DecidableEq, Repr

/-- The parameters of an actuation port (R360). -/
structure ActCfg where
  /-- MODE; 2; 14 R360; reset OFF. -/
  mode : ActMode := .off
  /-- FEC is BASER; 1; 14 R360; reset NONE. -/
  fec : Bool := false
  /-- POLARITY; 1; 14 R360; reset 0. -/
  polarity : Bool := false
  /-- PORT_MAC; 48; 14 R360; reset 0. -/
  mac : Nat := 0
  /-- NOTICE_ETYPE; 16; 14 R360; reset 0x88B6. -/
  etype : Nat := 0x88B6
  /-- WIN_FIRST and WIN_LAST; 12 each; 14 R360; reset 0 and 4,095. -/
  winFirst : Nat := 0
  winLast : Nat := 4095
  /-- PEER_TIMEOUT in ns; 14 R360; reset 1 ms. -/
  timeout : Nat := 1000000
  /-- FRAME_ERR_THRESH; 16; 14 R360; reset 16. -/
  thresh : Nat := 16
  deriving DecidableEq, Repr

/-- A checked request that is to be answered (R364, R365): ASTAT, the echoed fields, and the source
address of its frame. -/
structure NoticeReq where
  status : Bool
  astat  : Nat
  seq    : Nat
  first  : Nat
  count  : Nat
  cycle  : Nat
  src    : Nat
  deriving DecidableEq, Repr

/-- A change of parameters that has not taken effect, and whether the frame that was being received
and the one that was being sent at its command are still in progress (R360). -/
structure ActChange where
  cfg : ActCfg
  rx  : Bool
  tx  : Bool
  deriving DecidableEq, Repr

/-- A request frame in progress: the parameters it began under, and whether its header has ended
(R360, R364). -/
structure ActFrame where
  cfg  : ActCfg
  head : Bool
  deriving DecidableEq, Repr

/-- An actuation port (R360-R368, R382). -/
structure ActPort where
  /-- The parameters in effect; 14 R360. -/
  cfg : ActCfg := {}
  /-- Changes that wait for the end of a frame in progress, oldest first; 14 R360; reset none. -/
  next : List ActChange := []
  /-- The port is up; 1; 14 R362; reset 0. -/
  up : Bool := false
  /-- The request frame that is known to be in progress; 14 R360, R364; reset none. -/
  rx : Option ActFrame := none
  /-- An answer is being sent; 1; 14 R368; reset 0. -/
  tx : Bool := false
  /-- The bytes of that answer before the last of its ACRC; 14 R383; reset 0. -/
  txCut : Nat := 0
  /-- The request whose answer waits; 14 R368; reset none. -/
  waiting : Option NoticeReq := none
  /-- Start of the silence that PEER_TIMEOUT measures; 14 R362; reset 0. -/
  heard : Nat := 0
  /-- PEER_SILENT has been raised and no request has come since; 1; 14 R362; reset 0. -/
  silent : Bool := false
  /-- Frame errors in the epoch, and FRAME_ERRORS raised in it; 14 R362; reset 0. -/
  errs : Nat := 0
  errRaised : Bool := false
  /-- ANN_SEQ; 8; 14 R382; reset not given: DESIGN CHOICE 0 (log 24). -/
  annSeq : BitVec 8 := 0
  /-- The outstanding announcement's 32 bytes; 14 R382; reset none. -/
  ann : Option (List Byte) := none
  deriving DecidableEq, Repr

/-- A NOTICE_SEND in progress (R382): the ports named, those that carry it, those that have
acknowledged it, and its end.  No two in progress are carried by the same ports. -/
structure Announce where
  mask  : Nat
  sent  : Nat
  acked : Nat
  due   : Nat
  deriving DecidableEq, Repr

/-- A Noticeboard entry (R369).  Both hubs' copies hold the same values. -/
structure NbEntry where
  /-- ENABLE; 1; 14 R369; reset 0. -/
  enable : Bool := false
  /-- WCLASS; 2; 14 R369; reset 0. -/
  wclass : Nat := 0
  /-- MAX_AGE in 100 ns; 30; 14 R369; reset 10. -/
  maxAge : Nat := 10
  /-- SAFE; 64; 14 R369; reset 0. -/
  safe : BitVec 64 := 0
  /-- FMASK; 16; 14 R369; reset 0xFFFF. -/
  fmask : BitVec 16 := 0xFFFF
  /-- STATE; 3; 14 R369; reset DISABLED. -/
  st : NbSt := .disabled
  /-- VALUE; 64; 14 R369; reset 0. -/
  value : BitVec 64 := 0
  /-- FRESH; 64; 14 R369; reset 0. -/
  fresh : BitVec 64 := 0
  /-- T64 of the last release; 64; 14 R371; reset 0. -/
  relAt : BitVec 64 := 0
  deriving DecidableEq, Repr

/-- A trip output (R375). -/
structure Trip where
  /-- ENABLE; 1; 14 R375; reset 0. -/
  enable : Bool := false
  /-- FMASK; 16; 14 R375; reset 0xFFFF. -/
  fmask : BitVec 16 := 0xFFFF
  deriving DecidableEq, Repr

/-- A trip-map entry (R375). -/
structure TripMap where
  /-- ENABLE; 1; 14 R375; reset 0. -/
  enable : Bool := false
  /-- MASK; 32; 14 R375; reset 0. -/
  mask : BitVec 32 := 0
  /-- WCLASS; 2; 14 R375; reset 0. -/
  wclass : Nat := 0
  /-- MAX_AGE in 100 ns; 30; 14 R375; reset 0. -/
  maxAge : Nat := 0
  /-- DEMAND is HEALTHY; 1; 14 R375; reset TRIP. -/
  healthy : Bool := false
  /-- LAST_CMD; 64; 14 R375; reset 0. -/
  lastCmd : BitVec 64 := 0
  deriving DecidableEq, Repr

/-- The port counters of R384, in its order. -/
inductive ActCtr where
  | rxReq | answers | staleAnswers | notNotice | hdrCrc | badReq | runt | giant | fcsErr | lenErr
  | answerQueued | reqOverflow | peerSilent | linkDown | annSent | annAcked | annAckBad
  deriving DecidableEq, Repr

/-- The other counters of R384 before TRIP_TRANSITIONS, in its order. -/
inductive NbCtr where
  | nbWrites | nbFmt | poisonDrop | nbDisabled | wclassDrop | forcedDrop | nbRepair | nbUe
  | tripCmds | tripBadEntry | tripWclass | tripPoison | tripFmt | tripForcedDrop | tripAged
  deriving DecidableEq, Repr

/-- The actuation hubs (14_notice.md). -/
structure ActUnit where
  /-- Actuation ports 0 to 15; 14 R360. -/
  ports : Tab ActPort := []
  /-- Announcements in progress; 14 R382; reset none. -/
  sends : List Announce := []
  /-- Noticeboard entries 0 to 4,095; 14 R369. -/
  nb : Tab NbEntry := []
  /-- TRIP_0 to TRIP_31; 14 R375. -/
  trips : Tab Trip := []
  /-- Trip-map entries 0 to 255; 14 R375. -/
  map : Tab TripMap := []
  /-- Force lines as asserted at the hubs; 16; 14 R379; reset 0. -/
  lines : BitVec 16 := 0
  /-- TRIP_STATE: bit n set while TRIP_n is HEALTHY; 32; 14 R376; reset 0. -/
  tripState : BitVec 32 := 0
  /-- Cells whose event has been raised in this epoch, with the cause; 14 R373, R377; reset none. -/
  evRaised : List (Nat × Nat) := []
  /-- Counters of each port, at 32 x port + row; 32 each; 14 R384; reset 0. -/
  portCnt : Tab Nat := []
  /-- The other counters before TRIP_TRANSITIONS; 32 each; 14 R384; reset 0. -/
  cnt : Tab Nat := []
  /-- TRIP_TRANSITIONS of each output; 32; 14 R384; reset 0. -/
  transitions : Tab Nat := []
  deriving DecidableEq, Repr

/-- ROLE (R335). -/
inductive ChainRole where
  | off | root | station
  deriving DecidableEq, Repr

/-- MODE (R335). -/
inductive ChainMode where
  | chain | ring | tree
  deriving DecidableEq, Repr

/-- The states of R354. -/
inductive StationSt where
  | detached | rejoining | attached
  deriving DecidableEq, Repr

/-- A bulk frame (R350). -/
structure Bulk where
  dst     : Nat
  src     : Nat
  btype   : Nat
  dir     : Bool
  bseq    : Nat
  tSend   : Nat
  payload : List Byte
  deriving DecidableEq, Repr

/-- An entry of the learning table (R347). -/
structure Learn where
  valid : Bool := false
  port  : Nat := 0
  age   : Nat := 0
  moved : Bool := false
  deriving DecidableEq, Repr

/-- An import channel (R352). -/
structure Import where
  /-- STATE; 2; 13 R352; reset UNBOUND. -/
  st : BindSt := .unbound
  /-- SRC_STATION; 12; 13 R352; reset 0. -/
  station : Nat := 0
  /-- CTX, GEN, CELL, NODE, CLASS; 17, 4, 7, 14, 2; 13 R352; reset 0. -/
  ctx : Nat := 0
  gen : Nat := 0
  cell : Nat := 0
  node : Nat := 0
  cls : Nat := 0
  deriving DecidableEq, Repr

/-- A slot that the root keeps for a member station (R338, R356). -/
structure RootSlot where
  station  : Nat
  st       : StationSt
  /-- The command of the next Cart, the CSEQ of the last, and whether the last Cart carried
  REJOIN_ACK; 8, 16, 1; 13 R338, R355. -/
  cmd      : Nat
  cseq     : Nat
  acked    : Bool
  /-- The last Cart brought an answer; cycles in a row without one; the time of the detachment;
  13 R356. -/
  heard    : Bool
  silent   : Nat
  goneAt   : Nat
  /-- PASS_LAT as last reported, in 0.25 ns; 13 R341. -/
  lat      : Nat
  /-- FIRST_EPOCH and FIRST_ERA of its REJOIN_ACK, as one epoch index; none until one has been sent since the
  station was last not ATTACHED; 13 R355. -/
  first    : Option Nat
  deriving DecidableEq, Repr

/-- A CHAIN_SEND in progress (R353). -/
structure ChainSend where
  /-- The ports named, those up at acceptance, those acknowledged; 16 each; 13 R353. -/
  mask  : Nat
  sent  : Nat
  acked : Nat
  bseq  : Nat
  t0    : Nat
  deriving DecidableEq, Repr

/-- The port counters of R359, in its order. -/
inductive ChainPortCtr where
  | blockErr | linkDownCount | windowDefer | bulkCrc | bulkReject | txBulkBytes | rxBulkBytes
  deriving DecidableEq, Repr

/-- The station and root counters of R359, in its order. -/
inductive ChainCtr where
  | cartHcrc | cartTrunc | cmdBad | cartOutWindow | cartMissed | epochSlip | detachCount
  | rejoinCount | stationMoved | noRoute | loopDrop | chainFmt | egressDrop | importDrop
  | cartPeerViol | cartForeign | summaryPreJoin
  deriving DecidableEq, Repr

/-- The chain ports and the Cart (13_cart.md). -/
structure Chain where
  /-- ROLE; 13 R335; reset OFF. -/
  role : ChainRole := .off
  /-- MODE; 13 R335; reset CHAIN. -/
  mode : ChainMode := .chain
  /-- UP_PORT; 4; 13 R335; reset 0. -/
  upPort : Nat := 0
  /-- DOWN_PORTS; 16; 13 R335; reset 0x0002. -/
  downPorts : Nat := 2
  /-- PORT_A and PORT_B; 4 each; 13 R335; reset 0 and 1. -/
  portA : Nat := 0
  portB : Nat := 1
  /-- CYCLE_LEN in ns; 13 R335; reset 100 us. -/
  cycleLen : Nat := 100000
  /-- STATION_AGE in ns; 13 R335; reset 1 s. -/
  stationAge : Nat := 1000000000
  /-- DETACH_HOLD in ns; 13 R335; reset 10 s. -/
  detachHold : Nat := 10000000000
  /-- CART_LOSS in cycles; 8; 13 R335; reset 3. -/
  cartLoss : Nat := 3
  /-- Chain ports that are up; 16; 13 R334; reset none. -/
  up : List Nat := []
  /-- LINK_DELAY of each port, in 2^-16 ns; 13 R344; reset 0 DESIGN CHOICE (log 15). -/
  linkDelay : Tab Nat := []
  /-- Exchanges of the delay measurement in progress at each port; 13 R344; reset none. -/
  delaySum : Tab (Option (Nat × Int)) := []
  /-- Ports whose delay has been measured since they came up; 13 R355; reset none. -/
  measured : List Nat := []
  /-- Time of the last measurement begun at each port; 13 R344; reset none. -/
  measureAt : Tab (Option Nat) := []
  /-- The station behind each port, from its DELAY frames; 12; 13 R350; reset 0. -/
  nbr : Tab Nat := []
  /-- Station ID; 12; 13 R346; reset none. -/
  id : Option Nat := none
  /-- The remembered root; 12; 13 R354; reset none. -/
  rootId : Option Nat := none
  /-- Station state; 2; 13 R354; reset DETACHED. -/
  st : StationSt := .detached
  /-- DETACH received: no rejoin until the host configures the chain again; 13 R339; reset 0. -/
  barred : Bool := false
  /-- Last CYCLE taken; 16; 13 R343; reset none. -/
  lastCycle : Option Nat := none
  /-- Time of the last Cart taken, for CART_LOSS and the window; 13 R343, R354; reset 0. -/
  lastAt : Nat := 0
  /-- CYCLE of the last first pass, taken or not, and the time of it; 13 R336; reset none. -/
  seen : Option (Nat × Nat) := none
  /-- CYCLE_LEN, CW_LEN and RING_SPLIT of the last header taken; 13 R337. -/
  hdrCycleLen : Nat := 0
  cwLen : Nat := 0
  ringSplit : Bool := false
  /-- Station IDs in walk order from the last header, the root first; 13 R346, R348; reset none. -/
  walk : List Nat := []
  /-- T64 offset from the root at the last pass, in 2^-16 ns, signed; 13 R344; reset 0. -/
  offset : Int := 0
  /-- Cycles in a row with an offset above 100 ns, and below 20 ns; 13 R344, R355; reset 0. -/
  offHigh : Nat := 0
  offLow : Nat := 0
  /-- Commands received and not yet answered: CMD and CSEQ; 13 R339; reset none. -/
  unanswered : List (Nat × Nat) := []
  /-- Summaries not yet carried, oldest first; 13 R339; reset none. -/
  summaries : List (List Byte) := []
  /-- PASS_LAT from one port to another, at 16 x arrival + forwarding, in 0.25 ns; 13 R341; values between 160
  and 192 that the spec leaves open (log 16). -/
  passLat : Tab (Option Nat) := []
  /-- The place in the walk of the last station before the break of a split ring; 13 R348; reset none. -/
  ringEnd : Option Nat := none
  /-- The epoch index of FIRST_EPOCH and FIRST_ERA; 13 R355; reset none. -/
  firstEpoch : Option Nat := none
  /-- Number of the last cycle launched; 13 R336; reset none. -/
  launched : Option Nat := none
  /-- Slots of the member stations, in rising ID; 13 R338; reset none. -/
  slots : List RootSlot := []
  /-- ENUMERATE has been accepted; the enumerating Cart has been launched; 13 R346; reset 0. -/
  enumWanted : Bool := false
  enumOut : Bool := false
  /-- A PRESENCE frame of a station without an ID has come in this cycle; 13 R346; reset 0. -/
  newcomer : Bool := false
  /-- The ID offered by ENUM_NEW in the Cart in flight; 13 R346; reset none. -/
  offered : Option Nat := none
  /-- The Cart as the root launched it, for R342; reset none. -/
  sentCart : List Byte := []
  /-- The ports that the Cart was launched on; 13 R336; reset none. -/
  sentOn : List Nat := []
  /-- Cable delay of the whole walk at the last Cart's return, in 2^-16 ns; 13 R340; reset 0. -/
  cable : Nat := 0
  /-- The ring is held to be split; 13 R336; reset 0. -/
  split : Bool := false
  /-- Time of the last foreign Cart, and ROOT_CONFLICT raised; 13 R356; reset none. -/
  foreignAt : Option Nat := none
  /-- Learning table of 4,096 stations; 13 R347; reset not VALID. -/
  learn : Tab Learn := []
  /-- Bulk frames queued at each port, in order; 13 R349; reset none. -/
  queue : Tab (List Bulk) := []
  /-- Time at which each port's frame in progress ends, and the window end at which its head was
  last deferred; 13 R349; reset 0. -/
  busyTo : Tab Nat := []
  deferAt : Tab Nat := []
  /-- TOKENS frames being built, by 4,096 x port + target station; 13 R351; reset none. -/
  egress : Tab (List Byte) := []
  /-- BSEQ of the next frame; 32; 13 R350; reset 0 DESIGN CHOICE (log 15). -/
  bseq : Nat := 0
  /-- Import channels 0 to 4,095; 13 R352; reset UNBOUND. -/
  imports : Tab Import := []
  /-- Imported tokens waiting for credit, with the chain hub that injects them; 13 R352, R81;
  reset none. -/
  importWait : List (Nat × Token) := []
  /-- CHAIN_SEND commands in progress, oldest first; 13 R353; reset none. -/
  sends : List ChainSend := []
  /-- Time of the last PRESENCE frame sent; 13 R347; reset none. -/
  presentAt : Option Nat := none
  /-- R359 counters of each port, at 8 x port + row; 32 and 48 each; reset 0. -/
  portCnt : Tab Nat := []
  /-- R359 counters of the station and the root; 32 each; reset 0. -/
  cnt : Tab Nat := []
  deriving DecidableEq, Repr

/-- The trace collector (20_trace.md R512-R516). -/
structure Trace where
  /-- TRACE_CTRL.EN; 1; 20 R516; reset 1. -/
  en : Bool := true
  /-- TRACE_CTRL.MODE; 1; 20 R516; reset 0. -/
  mode : Bool := false
  /-- TRACE_CTRL.FIRINGS; 1; 20 R516; reset 0. -/
  firings : Bool := false
  /-- TRACE_CTRL.CLASS01; 1; 20 R516; reset 0. -/
  class01 : Bool := false
  /-- TRACE_CTRL.FAULTS; 1; 20 R516; reset 1. -/
  faults : Bool := true
  /-- TRACE_CTRL.DEBUG; 1; 20 R516; reset 1. -/
  debug : Bool := true
  /-- TRACE_CELLS_0 to TRACE_CELLS_3; 128; 20 R516; reset 0. -/
  cells : BitVec 128 := 0
  /-- TRACE_STATUS.STOPPED; 1; 20 R516; reset 0. -/
  stopped : Bool := false
  /-- Packets staged on die, in acceptance order, at most 64 KiB; 20 R514; reset empty. -/
  stage : List (List Byte) := []
  /-- Packets lost since the last packet written; 20 R513, R514; reset 0. -/
  lost : Nat := 0
  /-- WR_OFF; 64; 20 R512; 4,096 after stage 6. -/
  wrOff : Nat := 4096
  /-- TSEQ_NEXT; 32; 20 R512; reset 0. -/
  tseq : Nat := 0
  /-- WRAPS; 32; 20 R512; reset 0. -/
  wraps : Nat := 0
  /-- LOST_TOTAL; 32; 20 R512; reset 0. -/
  lostTotal : Nat := 0
  /-- TRACE_PACKETS; 32; 20 R522; reset 0. -/
  packets : Nat := 0
  /-- TRACE_LOST; 32; 20 R522; reset 0. -/
  lostCnt : Nat := 0
  /-- TRACE_VIOL; 32; 20 R516; reset 0. -/
  viol : Nat := 0
  /-- TRACE_CELL_DROP_TOTAL; 32; 20 R522; reset 0. -/
  cellDrop : Nat := 0
  /-- Time of the latest SYNC; 20 R513; reset 0. -/
  syncAt : Nat := 0
  /-- EN was set while the region was out of reach: its SYNC is due; 20 R516; reset 0. -/
  syncDue : Bool := false
  deriving DecidableEq, Repr

/-- What the JTAG instruction register holds (R517). -/
inductive JtagIns where
  | extest | idcode | samplePreload | clamp | highz | bypass | dbgAddr | dbgData | dbgStatus
  deriving DecidableEq, Repr

/-- The JTAG port (20_trace.md R517, R518). -/
structure Jtag where
  /-- Instruction register, as the instruction it names; 8; 20 R517; the spec gives no reset value:
  PRESUMED IDCODE, as IEEE 1149.1 (log 31). -/
  ir : JtagIns := .idcode
  /-- Update latches of the boundary register; 110; 20 R517; reset not given: DESIGN CHOICE 0
  (log 31). -/
  latch : BitVec 110 := 0
  /-- DBG_ADDR; 64; 20 R517; reset not given: DESIGN CHOICE 0 (log 31). -/
  addr : BitVec 64 := 0
  /-- DBG_STATUS.ERROR; 1; 20 R517; reset not given: DESIGN CHOICE 0 (log 31). -/
  error : Bool := false
  /-- Address of the next access to Steward memory through the debug window; 32; 20 R518; DESIGN
  CHOICE 0 (log 32). -/
  stwAddr : BitVec 32 := 0
  deriving DecidableEq, Repr

/-- What leaves the device because of the last command: the model's own record of the outside
world's view, replaced at every command (log 9). -/
inductive Output where
  /-- A memory write to the host, with whether it may carry Relaxed Ordering (R409). -/
  | hostWrite (addr : Nat) (bytes : List Byte) (relaxed : Bool)
  /-- An MSI-X message of a vector (R411). -/
  | msix (vector : Nat) (addr : BitVec 64) (data : Word)
  /-- The value of a BAR0 or BAR4 read, or of a JTAG data register; poisoned or not. -/
  | readData (bytes : List Byte) (poison : Bool)
  /-- A Notice answer starts on an actuation port with these bytes, all of which leave it unless
  `answerCut` follows (R365). -/
  | answer (port : Nat) (bytes : List Byte)
  /-- The answer under way on an actuation port is cut off: so many of its bytes have left, and the
  ACRC is not whole (R383). -/
  | answerCut (port : Nat) (sent : Nat)
  /-- A frame leaves on a chain port (R337, R350). -/
  | frame (port : Nat) (bytes : List Byte)
  /-- The 32 bytes of a HOST_MSG for the station's host, and at the root those of a station's HOST_REPLY
  (R339). -/
  | hostMsg (bytes : List Byte)
  | hostReply (station : Nat) (bytes : List Byte)
  /-- An exchange of the JTAG data register (R517). -/
  | tdo (bits : Nat) (value : Nat)
  deriving DecidableEq, Repr

/-- Why the model stops with a fault.  No command of this model stops: the spec gives every one
of them an effect, and no meaning raises these. -/
inductive Fault where
  /-- Raised by no meaning: it stands for a stop that the spec would name, and the spec names
  none for a command of the block.  Safe: a run never ends in it. -/
  | none
  deriving DecidableEq, Repr

/-- Why the model gives a command no meaning. -/
inductive Refusal where
  /-- Raised by Dispatch alone, for a command that has no meaning yet.  Safe: the run stops. -/
  | notModelled (mnemonic : String)
  deriving DecidableEq, Repr

/-- The KK-8128 as a block: its units, the commands that wait, and three fields of the model's
own (`out`, `fresh` and the clock `time.now`). -/
structure State where
  /-- The Reeve and the loaded graphs. -/
  reeve : Reeve := {}
  /-- The Cellar engine and the stall detector. -/
  cellar : Cellar := {}
  /-- The chain ports and the Cart. -/
  chain : Chain := {}
  /-- The ingest hubs: sensor ports, bindings, event inputs. -/
  ingest : Ingest := {}
  /-- The actuation hubs: ports, Noticeboard, trips. -/
  act : ActUnit := {}
  /-- The epochs and the result writer. -/
  writer : Writer := {}
  /-- Cells 0 to 127. -/
  cells : Tab Cell := []
  /-- The Steward's sequential mode. -/
  steward : Steward := {}
  /-- The trace collector. -/
  trace : Trace := {}
  /-- The JTAG port and its debug path. -/
  jtag : Jtag := {}
  /-- The fabric and the memory responders. -/
  fabric : Fabric := {}
  /-- The timebase. -/
  time : Time := {}
  /-- The setup registers. -/
  setup : Setup := {}
  /-- The host hub and the event raiser. -/
  host : HostIf := {}
  /-- The Watch, the pair ports and the Steward's lockstep. -/
  watch : Watch := {}
  /-- The always-on domain. -/
  aon : AlwaysOn := {}
  /-- The fuses. -/
  fuses : Fuses := {}
  /-- Start-up, power domains and self-test. -/
  power : Power := {}
  /-- The board and the boot flash. -/
  board : Board := {}
  /-- What left the device because of the last command (the model's own; log 9). -/
  out : List Output := []
  /-- How many free values have been drawn (the model's own; log 10). -/
  fresh : Nat := 0
  /-- The commands waiting, first in first out. -/
  pending : List Instr := []
  deriving DecidableEq, Repr

/-- The device right after reset: every field at its reset value, no command waiting. -/
def State.reset : State := {}

end Sys2Proof.Machine
end

