-- ==== Sys2Proof/Machine/Tab.lean ====
section
/-! DEFINITION. The operations of a keyed table: an entry that is not listed reads as the
table's default, and an entry equal to the default is never listed, so equal arrays are equal
data. -/

namespace Sys2Proof

variable {α : Type}

/-- The entry at `k`; `d` is what an unlisted entry reads as. -/
def Tab.get (d : α) : Tab α → Nat → α
  | [], _ => d
  | (j, v) :: t, k => if j = k then v else Tab.get d t k

/-- The table without its entry at `k`. -/
def Tab.del : Tab α → Nat → Tab α
  | [], _ => []
  | (j, v) :: t, k => if j = k then Tab.del t k else (j, v) :: Tab.del t k

/-- The table with an entry put in at its place in the rising order. -/
def Tab.ins : Tab α → Nat → α → Tab α
  | [], k, v => [(k, v)]
  | (j, w) :: t, k, v => if k < j then (k, v) :: (j, w) :: t else (j, w) :: Tab.ins t k v

/-- The table with `v` at `k`. -/
def Tab.set [DecidableEq α] (d : α) (t : Tab α) (k : Nat) (v : α) : Tab α :=
  if v = d then Tab.del t k else Tab.ins (Tab.del t k) k v

/-- The table with the entry at `k` changed by `f`. -/
def Tab.upd [DecidableEq α] (d : α) (t : Tab α) (k : Nat) (f : α → α) : Tab α :=
  Tab.set d t k (f (Tab.get d t k))

/-- The canonical form: indices strictly rising and no entry equal to the default. -/
def Tab.wf [DecidableEq α] (d : α) : Tab α → Bool
  | [] => true
  | [(_, v)] => v != d
  | (j, v) :: (k, w) :: t => v != d && decide (j < k) && Tab.wf d ((k, w) :: t)

/-- Every listed entry changed by `f`, which keeps no entry at the default. -/
def Tab.mapV (t : Tab α) (f : α → α) : Tab α := t.map fun e => (e.1, f e.2)

/-- Every listed entry changed by `f`; one that comes to the default is listed no longer. -/
def Tab.remap [DecidableEq α] (d : α) (t : Tab α) (f : α → α) : Tab α :=
  (Tab.mapV t f).filter fun e => e.2 != d

/-- The listed entries that `p` picks. -/
def Tab.keep (t : Tab α) (p : Nat → α → Bool) : Tab α := t.filter fun e => p e.1 e.2

/-- A 32-bit counter of a table of counters, incremented and wrapped (00_scope.md R5). -/
def Tab.bump (t : Tab Nat) (k : Nat) (n : Nat := 1) : Tab Nat :=
  Tab.upd 0 t k fun c => (c + n) % 2 ^ 32

/-- A 48-bit counter. -/
def Tab.bump48 (t : Tab Nat) (k n : Nat) : Tab Nat :=
  Tab.upd 0 t k fun c => (c + n) % 2 ^ 48

end Sys2Proof
end

