-- ==== Sys2Proof/Machine/Tag.lean ====
section
/-! DEFINITION. The tag of a token bit by bit (02_tokens.md R22-R24), and what a token's fields
say. -/

namespace Sys2Proof

/-- The 64-bit tag (R22). -/
def Tag.pack (t : Tag) : BitVec 64 :=
  t.dest ++ t.esel ++ t.ctx ++ t.gen ++ t.iter ++ t.cls ++ BitVec.ofBool t.epar ++ t.len ++ t.flags

/-- The fields of a 64-bit tag (R22). -/
def Tag.unpack (w : BitVec 64) : Tag where
  dest := w.extractLsb' 56 8
  esel := w.extractLsb' 40 16
  ctx := w.extractLsb' 23 17
  gen := w.extractLsb' 19 4
  iter := w.extractLsb' 11 8
  cls := w.extractLsb' 9 2
  epar := w.getLsbD 8
  len := w.extractLsb' 5 3
  flags := w.extractLsb' 0 5

/-- NODE: bits [55:42] (R22). -/
def Tag.node (t : Tag) : Nat := t.esel.toNat / 4

/-- PORT: bits [41:40] (R22). -/
def Tag.port (t : Tag) : Nat := t.esel.toNat % 4

/-- The flags of R23. -/
def Tag.poison (t : Tag) : Bool := t.flags.getLsbD 4
def Tag.bell (t : Tag) : Bool := t.flags.getLsbD 3
def Tag.spilled (t : Tag) : Bool := t.flags.getLsbD 2
def Tag.mono (t : Tag) : Bool := t.flags.getLsbD 1

/-- FLAGS from its four flags; bit 0 is written 0 (R23). -/
def mkFlags (poison bell spilled mono : Bool) : BitVec 5 :=
  BitVec.ofNat 5 (16 * b2n poison + 8 * b2n bell + 4 * b2n spilled + 2 * b2n mono)

/-- Payload words of a LEN code 0 to 4 (R22). -/
def lenWords (len : Nat) : Nat := 2 ^ len

/-- Data units of a token (R25). -/
def Token.dataUnits (t : Token) : Nat := if t.tag.len.toNat = 4 then 2 else 1

/-- A token of class 0 or 1 travels on lane G (R259). -/
def Token.isG (t : Token) : Bool := decide (t.tag.cls.toNat ≤ 1)

/-- A tag that holds a reserved value (R22, R23): an unassigned DEST, PORT 3 at a cell, LEN above
4, or the reserved flag. -/
def Tag.reserved (t : Tag) : Bool :=
  decide (0x97 ≤ t.dest.toNat) || (decide (t.dest.toNat < 0x80) && t.port == 3) ||
  decide (5 ≤ t.len.toNat) || t.flags.getLsbD 0

/-- A token marked poisoned (R35, R270). -/
def Token.poisoned (t : Token) : Token :=
  { t with tag := { t.tag with flags := t.tag.flags ||| 16#5 } }

/-- POISON on a token of a firing that has read poisoned data (R173, R175). -/
def Token.poisonIf (t : Token) (p : Bool) : Token :=
  if p then t.poisoned else t

/-- A token whose data unit could not be corrected gets POISON (R270). -/
def Token.after (t : Token) (ue : UnitErr) : Token := if ue.data then t.poisoned else t

/-- Word `i` of the payload; a word beyond the payload reads zero (R25). -/
def Token.word (t : Token) (i : Nat) : Nat := (t.payload.getD i 0).toNat

end Sys2Proof
end

