-- ==== Sys2Proof/Machine/Mesh.lean ====
section
/-! DEFINITION. The mesh (01_machine.md R15-R18, 10_fabric.md R252-R260): where cells and edge tiles
stand, the headers and routes of transactions, the routers' buffers and the grants of their outputs. -/

namespace Sys2Proof.Machine

/-! ## Cells and edge tiles (R15-R18) -/

/-- Row and column of a logical cell (R15, R16). -/
def rowOf (n : Nat) : Nat := n / 16
def colOf (n : Nat) : Nat := n % 16

/-- The edges of the mesh (R15). -/
inductive Edge where
  | south | north | west | east
  deriving DecidableEq, Repr

/-- A cell stands on an edge (R15). -/
def onEdge (n : Nat) : Edge → Bool
  | .south => rowOf n == 0
  | .north => rowOf n == 7
  | .west => colOf n == 0
  | .east => colOf n == 15

/-- The edge tiles (R17). -/
inductive Tile where
  | ingestHub (r : Fin 8) | chainHub (k : Fin 4) | actHub (k : Fin 2) | host | steward | hc (k : Fin 4)
  deriving DecidableEq, Repr

/-- The edge of a tile, and its row there, or its first of eight columns (R17). -/
def Tile.place : Tile → Edge × Nat
  | .ingestHub r => (.west, r.val)
  | .chainHub k => (.east, if k.val < 2 then k.val else k.val + 4)
  | .actHub k => (.east, if k.val = 0 then 2 else 5)
  | .host => (.east, 3)
  | .steward => (.east, 4)
  | .hc k => (if k.val < 2 then .south else .north, k.val % 2 * 8)

/-- The port of a router toward an edge. -/
def Edge.port : Edge → Port
  | .south => .s
  | .north => .n
  | .west => .w
  | .east => .e

/-- The cells that a tile attaches to (R17); their routers' ports toward the tile's edge. -/
def Tile.cells (t : Tile) : List Nat :=
  match t.place with
  | (.west, r) => [16 * r]
  | (.east, r) => [16 * r + 15]
  | (.south, c) => (List.range 8).map (c + ·)
  | (.north, c) => (List.range 8).map fun i => 112 + c + i

/-- The tile of an initiator code that is not a cell's (R253). -/
def tileOf (code : Nat) : Tile :=
  if 0x98 ≤ code then .ingestHub (Fin.ofNat 8 (code - 0x98))
  else if 0x94 ≤ code then .chainHub (Fin.ofNat 4 (code - 0x94))
  else if 0x92 ≤ code then .actHub (Fin.ofNat 2 (code - 0x92))
  else if code = 0x91 then .host
  else if code = 0x90 then .steward
  else .hc (Fin.ofNat 4 ((code - 0x80) / 4))

/-- The router and port of a memory responder (R18). -/
def responderPort (j : Nat) : Nat × Port :=
  if j < 8 then (2 * j + 1, .s) else (113 + 2 * (j - 8), .n)

/-- Where an initiator's unit attaches: the injection and ejection port of a cell's router, or the port
toward its tile (R17, R253). -/
def attachOf (code : Nat) : Nat × Port :=
  if code < 0x80 then (code, .eject)
  else if code < 0x90 then responderPort (code - 0x80)
  else ((tileOf code).cells.getD 0 0, (tileOf code).place.1.port)

/-- The initiator code of the tile that answers a DEST outside the cells (R18, R253): the event raiser and
trace stand in the Steward tile. -/
def unitOfDest (dest : Nat) : Nat := if dest = 0x95 ∨ dest = 0x96 then 0x90 else dest

/-- Router and EXIT of a DEST (R18, R255): a class 0 token for a cell leaves through the pair port of the
even cell (R28). -/
def exitOf (dest cls : Nat) : Nat × Port :=
  if dest < 0x80 then if cls = 0 then (dest / 2 * 2, .pair) else (dest, .eject)
  else attachOf (unitOfDest dest)

/-- The column pair whose GUARD slots an initiator uses; a responder sends no G traffic (R262). -/
def columnPair (code : Nat) : Nat :=
  if code < 128 then code % 16 / 2 else if 0x98 ≤ code then 0 else 7

/-! ## The slot map (R261, R262) -/

/-- The entry of the slot map in force (R262). -/
def defaultSlot (i : Nat) : BitVec 16 :=
  let j := i % 16
  if j = 0 then 2#16 else if j ≤ 8 then BitVec.ofNat 16 (1 + 4 * (j - 1) + 32 + 128) else 0#16

def Fabric.slotEntry (f : Fabric) (i : Nat) : BitVec 16 := (f.slotMap.get none i).getD (defaultSlot i)

/-! ## Headers (R254-R256) -/

/-- The commands (R256). -/
inductive FabCmd where
  | token | rd | wr | rdata | wack | rerr | rpois | msg
  deriving DecidableEq, Repr

def FabCmd.code : FabCmd → Nat
  | .token => 0x01
  | .rd => 0x10
  | .wr => 0x11
  | .rdata => 0x20
  | .wack => 0x21
  | .rerr => 0x22
  | .rpois => 0x23
  | .msg => 0x30

/-- VN codes (R254). -/
def FabCmd.vn : FabCmd → Nat
  | .token => 0
  | .rd | .wr => 1
  | .rdata | .wack | .rerr | .rpois => 2
  | .msg => 3

def Chan.vn : Chan → Nat
  | .g | .u => 0
  | .req => 1
  | .rsp => 2
  | .ctl => 3

/-- The NDATA that agree with a command (R256). -/
def FabCmd.allows : FabCmd → Nat → Bool
  | .token, n => n == 1 || n == 2
  | .rd, n => n == 0
  | .wr, n => n == 1 || n == 2
  | .rdata, n => n == 1 || n == 2
  | .wack, n => n == 0
  | .rerr, n => n == 0
  | .rpois, n => n == 1 || n == 2
  | .msg, n => n == 0

def Port.code : Port → Nat
  | .eject => 0
  | .pair => 1
  | .n => 2
  | .s => 3
  | .e => 4
  | .w => 5

/-- A header unit (R255). -/
structure Header where
  dst   : Nat
  exit  : Port
  src   : Nat
  cmd   : FabCmd
  ndata : Nat
  xid   : Nat
  arg0  : BitVec 64
  arg1  : BitVec 64 := 0
  arg2  : BitVec 64 := 0
  deriving DecidableEq, Repr

/-- The 256 data bits of a header (R255). -/
def Header.pack (h : Header) : BitVec 256 :=
  h.arg2 ++ h.arg1 ++ h.arg0 ++ BitVec.ofNat 32 h.xid ++ 0#6 ++ BitVec.ofNat 2 h.ndata ++
    BitVec.ofNat 6 h.cmd.code ++ BitVec.ofNat 8 h.src ++ BitVec.ofNat 3 h.exit.code ++
    BitVec.ofNat 3 (rowOf h.dst) ++ BitVec.ofNat 4 (colOf h.dst)

/-- The commands that a code may name. -/
def fabCmds : List FabCmd := [.token, .rd, .wr, .rdata, .wack, .rerr, .rpois, .msg]

/-- A header is malformed (R256): a reserved CMD, one of another VN, or an NDATA that disagrees. -/
def malformed (data : BitVec 256) (vn : Nat) : Bool :=
  match fabCmds.find? fun c => c.code == (data.extractLsb' 18 6).toNat with
  | none => true
  | some c => c.vn != vn || !c.allows (data.extractLsb' 24 2).toNat

/-- The control field of a unit (R254): the output at the receiving router stands in NXT. -/
def control (data : BitVec 256) (head last : Bool) (c : Chan) (upois : Bool) (nxt : Port) : BitVec 32 :=
  let high : BitVec 22 := 0#13 ++ BitVec.ofNat 3 nxt.code ++ BitVec.ofBool upois ++ BitVec.ofBool (c == .g) ++
    BitVec.ofNat 2 c.vn ++ BitVec.ofBool last ++ BitVec.ofBool head
  high ++ Config.unitEcc data high

/-- SZ of an access (R209). -/
def sizeCode (bytes : Nat) : Nat :=
  match bytes with
  | 1 => 0
  | 2 => 1
  | 4 => 2
  | 8 => 3
  | _ => 4

/-- The access word of a REQ (R267). -/
def accessWord (handle graph bytes : Nat) : Nat := handle + graph * 2 ^ 16 + sizeCode bytes * 2 ^ 26

/-- Data units of a region access (R256). -/
def accessUnits (bytes : Nat) : Nat := if bytes ≤ 32 then 1 else 2

/-- A transaction whose destination is the injecting router's own cell or pair turns round there (R257). -/
def Header.loopback (h : Header) : Bool :=
  decide (h.src < 0x80) && h.dst == h.src && (h.exit == .eject || h.exit == .pair)

/-- The header of a region request (R255, R267). -/
def Req.header (q : Req) : Header :=
  let x := responderPort (q.handle / 4096)
  { dst := x.1, exit := x.2, src := q.src, cmd := if q.write then .wr else .rd
    ndata := if q.write then accessUnits q.bytes else 0, xid := q.xid
    arg0 := BitVec.ofNat 64 (accessWord q.handle q.graph q.bytes), arg1 := BitVec.ofNat 64 q.offset }

/-- The header of a response (R255, R256): one for both cells of a pair leaves through the pair port. -/
def Rsp.header (r : Rsp) : Header :=
  let x := attachOf r.req.src
  let data := accessUnits r.req.bytes
  let (cmd, n, st) : FabCmd × Nat × Nat := match r.kind with
    | .rdata _ => (.rdata, data, 0)
    | .wack => (.wack, 0, 0)
    | .rerr c => (.rerr, 0, c)
    | .rpois => (.rpois, data, 0)
  { dst := x.1, exit := if r.req.pair then .pair else x.2, src := 0x80 + r.req.handle / 4096, cmd := cmd
    ndata := n, xid := r.req.xid, arg0 := BitVec.ofNat 64 st }

/-- The unit that a control message comes from, and the one that it is for: the Reeve stands in the Steward
tile (R253). -/
def ctlSrc : Ctl → Nat
  | .install .. => 0x90
  | .uninstall .. => 0x90
  | .creditGrant .. => 0x90
  | .installAck n .. => n
  | .creditReq p .. => p
  | .creditReturn u .. => u

def ctlDest : Ctl → Nat
  | .install n .. => n
  | .uninstall n .. => n
  | .creditGrant p .. => p
  | .installAck .. => 0x90
  | .creditReq .. => 0x90
  | .creditReturn .. => 0x90

end Sys2Proof.Machine

namespace Sys2Proof

open Machine

/-- The header of a token (R255). -/
def Token.header (src : Nat) (t : Token) : Header :=
  let x := exitOf t.tag.dest.toNat t.tag.cls.toNat
  { dst := x.1, exit := x.2, src := src, cmd := .token, ndata := t.dataUnits, xid := 0, arg0 := t.tag.pack }

/-- Tokens of one initiator between which order is kept (R258): where they leave the mesh, and the lane. -/
def Token.way (t : Token) : Nat × Port × Bool :=
  ((exitOf t.tag.dest.toNat t.tag.cls.toNat).1, (exitOf t.tag.dest.toNat t.tag.cls.toNat).2, t.isG)

/-- VN and lane of a token (R259). -/
def Token.chan (t : Token) : Chan := if t.isG then .g else .u

/-- The header of a control message (R255, R256), whose words are internal. -/
def Ctl.header (m : Ctl) : Header :=
  let x := attachOf (ctlDest m)
  { dst := x.1, exit := x.2, src := ctlSrc m, cmd := .msg, ndata := 0, xid := 0
    arg0 := Config.ctlWord 0, arg1 := Config.ctlWord 1, arg2 := Config.ctlWord 2 }

/-- A batch of returned credit, which its unit has not sent yet (R80). -/
def Ctl.isReturn : Ctl → Bool
  | .creditReturn .. => true
  | _ => false

end Sys2Proof

namespace Sys2Proof.Machine

/-! ## Routes (R257) -/

/-- The outputs toward a router: first east or west, then north or south. -/
def turns (src dst : Nat) : List Port :=
  List.replicate (colOf dst - colOf src) .e ++ List.replicate (colOf src - colOf dst) .w ++
  List.replicate (rowOf dst - rowOf src) .n ++ List.replicate (rowOf src - rowOf dst) .s

/-- The router beyond an output. -/
def beyond (r : Nat) : Port → Nat
  | .e => r + 1
  | .w => r - 1
  | .n => r + 16
  | .s => r - 16
  | _ => r

/-- The input port at the far end of a link. -/
def facing : Port → Port
  | .e => .w
  | .w => .e
  | .n => .s
  | .s => .n
  | p => p

/-- Routers, input ports and outputs of a walk that ends through `exit`. -/
def walk (exit : Port) : Nat → Port → List Port → List (Nat × Port × Port)
  | r, i, [] => [(r, i, exit)]
  | r, i, p :: l => (r, i, p) :: walk exit (beyond r p) (facing p) l

/-- A transaction at its injection port: its place in the mesh follows from its header and initiator
(R252, R253); class 0 output enters through the pair port. -/
def Header.transit (h : Header) (chan : Chan) (pair : Bool) (now : Nat) : Transit :=
  let a := attachOf h.src
  { src := h.src, entry := if pair then .pair else a.2, dst := h.dst, exit := h.exit, chan := chan
    units := 1 + h.ndata, t0 := now }

/-- The route of a transaction (R257). -/
def Transit.path (t : Transit) : List (Nat × Port × Port) :=
  let r := (attachOf t.src).1
  walk t.exit r t.entry (turns r t.dst)

/-- Transactions between which order is kept (R258). -/
def Transit.follows (t u : Transit) : Bool :=
  t.src == u.src && t.dst == u.dst && t.exit == u.exit && t.chan == u.chan

/-! ## Buffers (R258, R259) -/

/-- Units of a transaction that have come to the `i`-th router of its route, and that have left it. -/
def Transit.come (t : Transit) (i : Nat) : Nat := if i = 0 then t.units else t.passed.getD (i - 1) 0
def Transit.left (t : Transit) (i : Nat) : Nat := t.passed.getD i 0

/-- The place on its route of a transaction that has units at a router. -/
def Transit.at_ (t : Transit) (r : Nat) : Option (Nat × Port × Port) :=
  match t.path.findIdx? fun p => p.1 == r with
  | some i =>
    match t.path[i]? with
    | some (_, inp, out) => if t.left i < t.come i then some (i, inp, out) else none
    | none => none
  | none => none

/-- The transactions in the buffer of an input port for a VN and lane, in the order in which they came. -/
def Fabric.buffer (f : Fabric) (r : Nat) (inp : Port) (c : Chan) : List Transit :=
  f.net.filter fun t => t.chan == c && match t.at_ r with
    | some (_, j, _) => j == inp
    | none => false

/-- Units in it. -/
def Fabric.fill (f : Fabric) (r : Nat) (inp : Port) (c : Chan) : Nat :=
  ((f.buffer r inp c).map fun t => match t.at_ r with
    | some (i, _, _) => t.come i - t.left i
    | none => 0).sum

/-- The buffer of an input port holds 6 units of each VN and lane, 3 of CTL (R259). -/
def Chan.capacity : Chan → Nat
  | .ctl => 3
  | _ => 6

/-- A unit has left the router already: the transaction is in the middle of its output. -/
def Transit.started (t : Transit) (r : Nat) : Bool :=
  match t.at_ r with
  | some (i, _, _) => decide (0 < t.left i)
  | none => false

/-- The transaction at the front of a buffer: first in, first out, and whole (R258). -/
def Fabric.front (f : Fabric) (r : Nat) (inp : Port) (c : Chan) : Option Transit :=
  let l := f.buffer r inp c
  (l.find? fun t => t.started r).orElse fun _ => l.head?

/-! ## Grants (R260) -/

/-- The input ports, in the order in which they are served. -/
def inputs : List Port := [.eject, .pair, .n, .s, .e, .w]

/-- What the input ports offer an output for one VN and lane: while a transaction is in the middle of it,
that one alone (R258). -/
def Fabric.offers (f : Fabric) (r : Nat) (out : Port) (c : Chan) : List Transit :=
  let l := inputs.filterMap fun inp => (f.front r inp c).filter fun t => match t.at_ r with
    | some (_, _, o) => o == out
    | none => false
  match l.find? fun t => t.started r with
  | some t => [t]
  | none => l

/-- A rotation: the members after the one served last come first. -/
def rotated {α : Type} [DecidableEq α] (l : List α) (last : Nat) : List α := l.drop last ++ l.take last

/-- The order of grant of a slot (R260): with `ctl` a CTL slot, else a GUARD or OPEN slot.  The classes of
the second list are served in rotation. -/
def grantOrder (ctl : Bool) : List Chan × List Chan :=
  if ctl then ([.ctl, .g], [.u, .req, .rsp]) else ([.g], [.ctl, .u, .req, .rsp])

/-- The number of an output, for its rotation. -/
def outputNo (r : Nat) (out : Port) : Nat := 6 * r + out.code

/-- The class that an output grants, of those that have a unit ready (R260). -/
def Fabric.pickChan (f : Fabric) (ctl : Bool) (k : Nat) (ready : Chan → Bool) : Option Chan :=
  let (first, rest) := grantOrder ctl
  (first.find? ready).orElse fun _ => (rotated rest (f.turn.get 0 k % rest.length)).find? ready

/-- The input port of a transaction at a router. -/
def Transit.inputAt (t : Transit) (r : Nat) : Port :=
  match t.at_ r with
  | some (_, inp, _) => inp
  | none => .eject

/-- The transaction that an output grants among those of one class (R260): the input ports in rotation; a
G transaction from an injection port yields to those on the links, but in a GUARD slot of its initiator
wins, and there a cell comes before an edge tile (R274). -/
def Fabric.pickIn (f : Fabric) (guard : Option Nat) (r : Nat) (k : Nat) (c : Chan) (l : List Transit) :
    Option Transit :=
  let injects := fun (t : Transit) => (attachOf t.src).1 == r
  let own := l.filter fun t => injects t && guard == some (columnPair t.src)
  let links := l.filter fun t => !injects t
  let ports := rotated inputs (f.turnIn.get 0 (5 * k + c.ctorIdx) % 6)
  let inTurn := fun (l : List Transit) => ports.findSome? fun p => l.find? fun t => t.inputAt r == p
  if c = .g then
    if !own.isEmpty then (own.find? fun t => decide (t.src < 0x80)).orElse fun _ => own.head?
    else if !links.isEmpty then inTurn links
    else inTurn l
  else inTurn l

/-- What a slot entry says for the grants: whether the slot is CTL, and the owner of a GUARD slot. -/
def slotGrant (e : BitVec 16) : Bool × Option Nat :=
  (e.extractLsb' 0 2 == 2#2, if e.extractLsb' 0 2 == 1#2 then some (e.extractLsb' 2 3).toNat else none)

/-- The transaction that an output grants in one unit interval (R260), of those that the input ports offer
for each class. -/
def Fabric.grant (f : Fabric) (e : BitVec 16) (r : Nat) (out : Port) (offers : Chan → List Transit) :
    Option Transit :=
  let k := outputNo r out
  let (ctl, guard) := slotGrant e
  (f.pickChan ctl k fun c => !(offers c).isEmpty).bind fun c => f.pickIn guard r k c (offers c)

/-- A granted unit moves the rotations on (R260): that of the classes at each unit, that of the input ports
at each transaction. -/
def Fabric.turned (f : Fabric) (e : BitVec 16) (r : Nat) (out : Port) (t : Transit) : Fabric :=
  let k := outputNo r out
  let (_, rest) := grantOrder (slotGrant e).1
  let f := if rest.contains t.chan then { f with turn := f.turn.set 0 k (rest.idxOf t.chan + 1) } else f
  if t.started r then f
  else { f with turnIn := f.turnIn.set 0 (5 * k + t.chan.ctorIdx) (inputs.idxOf (t.inputAt r) + 1) }

/-! ## A unit interval -/

/-- One unit crosses the output of the `i`-th router: with its header a transaction joins the next buffer
last. -/
def Fabric.cross (f : Fabric) (r : Nat) (t : Transit) : Fabric :=
  match t.at_ r with
  | some (i, _, _) =>
    let u := { t with passed := if i < t.passed.length then t.passed.set i (t.left i + 1) else t.passed ++ [1] }
    if t.left i = 0 then { f with net := f.net.erase t ++ [u] }
    else { f with net := f.net.map fun x => if x == t then u else x }
  | none => f

/-- The outputs onto links at which some unit waits. -/
def Fabric.busyOutputs (f : Fabric) : List (Nat × Port) :=
  (f.net.flatMap fun t => (t.path.dropLast.filter fun p => (t.at_ p.1).isSome).map fun p =>
    (p.1, p.2.2)).eraseDups

/-- One unit interval: every output onto a link grants one unit that has room beyond it (R259, R260). -/
def Fabric.interval (f : Fabric) (e : BitVec 16) : Fabric :=
  let grants := f.busyOutputs.filterMap fun o =>
    (f.grant e o.1 o.2 fun c =>
      if f.fill (beyond o.1 o.2) (facing o.2) c < c.capacity then f.offers o.1 o.2 c else []).map fun t => (o, t)
  let f := grants.foldl (fun f g => f.turned e g.1.1 g.1.2 g.2) f
  grants.foldl (fun f g => f.cross g.1.1 g.2) f

/-- Unit intervals of a slot at the typical 0.625 ns (R273, log 281). -/
def slotIntervals : Nat := 40

/-- What a slot moves. -/
def Fabric.runSlot (e : BitVec 16) : Nat → Fabric → Fabric
  | 0, f => f
  | n + 1, f => if f.net.isEmpty then f else Fabric.runSlot e n (f.interval e)

/-! ## Injection and the last output -/

/-- A transaction is offered at its injection port. -/
def Fabric.launch (f : Fabric) (t : Transit) : Fabric := { f with net := f.net ++ [t] }

/-- The transactions of one initiator, destination, VN and lane, the foremost first (R258). -/
def Fabric.stream (f : Fabric) (k : Transit) : List Transit :=
  let l := f.net.filter (Transit.follows k)
  (List.range 24).reverse.flatMap fun n => l.filter fun t => t.passed.length == n

/-- A transaction at its last router. -/
def Transit.arrived (t : Transit) : Transit :=
  if t.passed.length + 1 = t.path.length then t
  else { t with passed := List.replicate (t.path.length - 1) t.units }

/-- The mesh when a transaction has come to its last router: from there on its EXIT grants it (log 281). -/
def Fabric.bring (f : Fabric) (t : Transit) : Fabric :=
  if t.passed.length + 1 = t.path.length then f
  else { f with net := f.net.erase t ++ [t.arrived] }

/-- What the input ports of a router offer its EXIT port: the first transaction of each buffer that leaves
the mesh there, if it is for that port. -/
def Fabric.exitOffers (f : Fabric) (r : Nat) (out : Port) (c : Chan) : List Transit :=
  inputs.filterMap fun inp => ((f.buffer r inp c).find? fun t => t.dst == r).filter fun t => t.exit == out

/-- EXIT grants a transaction (R258, R260): the first of its initiator, destination, VN and lane, when it
stands at the front of its buffer and nothing that waits at the EXIT comes before it.  `open_` says which
lanes the endpoint does not hold (R259). -/
def Fabric.mayExit (f : Fabric) (e : BitVec 16) (k : Transit) (open_ : Chan → Bool) : Bool :=
  match (f.stream k).head? with
  | some t =>
    let g := f.bring t
    g.grant e t.dst t.exit (fun c => if c == t.chan || open_ c then g.exitOffers t.dst t.exit c else []) ==
      some t.arrived
  | none => true

/-- A transaction leaves the mesh through its EXIT. -/
def Fabric.land (f : Fabric) (e : BitVec 16) (k : Transit) : Fabric :=
  match (f.stream k).head? with
  | some t =>
    let g := (f.bring t).turned e t.dst t.exit t.arrived
    { g with net := g.net.erase t.arrived }
  | none => f

/-- A transaction is discarded on its way, the `i`-th of its initiator, destination, VN and lane (R270). -/
def Fabric.discard (f : Fabric) (k : Transit) (i : Nat) : Fabric :=
  match (f.stream k)[i]? with
  | some t => { f with net := f.net.erase t }
  | none => f

/-- The routers that its header may stand in. -/
def Fabric.routersOf (f : Fabric) (k : Transit) (i : Nat) : List Nat :=
  match (f.stream k)[i]? with
  | some t => (t.path.drop t.passed.length).map (·.1)
  | none => []

end Sys2Proof.Machine
end

