-- ==== Sys2Proof/Machine/Ops.lean ====
section
/-! DEFINITION. The named operations that every unit shares: time, outputs, events, fault
detection, the cells' records, the fabric's messages, and the end of a host command. -/

namespace Sys2Proof.Machine

/-! ## Time (R501, R502) -/

/-- A nanosecond in the units of the timebase's fraction: 65,536 x 10^6, so that FREQ_ADJ counts
units of it for each nanosecond of REFCLK (R501). -/
def subNs : Nat := 65536000000

/-- 50 ppm in those units (R502). -/
def slewRate : Nat := 3276800

/-- The part of a remainder that a slew of `rate` a nanosecond applies in `n` nanoseconds (R502,
R344). -/
def slewPart (rate : Nat) (rem : Int) (n : Nat) : Int :=
  if rem.natAbs ≤ n * rate then rem
  else if rem < 0 then -((n * rate : Nat) : Int) else ((n * rate : Nat) : Int)

/-- The timebase `n` nanoseconds later.  `steer` says whether the host steers T64 (TB_ROLE 0, R502);
otherwise the Cart's correction does (R344). -/
def Time.elapse (steer : Bool) (n : Nat) (t : Time) : Time :=
  let slew := if steer then slewPart slewRate t.phaseRem n else 0
  let follow := if steer then 0 else slewPart t.followRate t.follow n
  let adj : Int := if steer then t.freqAdj.toInt else 0
  let total : Int := t.frac + n * ((subNs : Int) + adj) + slew + follow
  { t with
    now := t.now + n
    t64 := t.t64 + BitVec.ofNat 64 (total / subNs).toNat
    frac := (total % subNs).toNat
    phaseRem := t.phaseRem - slew
    follow := t.follow - follow }

/-- TB_STATUS.TB_ROLE (R501). -/
def State.tbRole (s : State) : Nat :=
  if s.chain.role = .station then
    match s.chain.st with
    | .attached => 1
    | .rejoining => 2
    | .detached => 3
  else 0

/-- `n` nanoseconds pass. -/
def State.elapse (n : Nat) (s : State) : State :=
  { s with time := s.time.elapse (s.tbRole == 0) n }

/-- Time passes until the model's clock reads at least `due`: an event that is due at a time
brings that time with it (log 1). -/
def State.reach (due : Nat) (s : State) : State := s.elapse (due - s.time.now)

/-- Time passes until T64 has reached `due` (R5, log 1).  Steering changes a rate by less than one
part in a thousand, so four passes close the distance. -/
def State.reachT64 (due : Nat) (s : State) : State :=
  let f : State → State := fun s =>
    if later 64 due s.time.t64.toNat then s.elapse (BitVec.ofNat 64 due - s.time.t64).toNat else s
  f (f (f (f s)))

/-! ## Outputs -/

/-- Something leaves the device (log 9). -/
def State.emit (o : Output) (s : State) : State := { s with out := s.out ++ [o] }

/-- A free value is drawn (log 10). -/
def State.draw (s : State) : BitVec 64 × State :=
  (Config.freeValue s.fresh, { s with fresh := s.fresh + 1 })

/-! ## Counters -/

/-- A counter of the host hub (R415). -/
def State.hostBump (k : HostCtr) (s : State) (n : Nat := 1) : State :=
  { s with host := { s.host with cnt := s.host.cnt.bump k.ctorIdx n } }

/-- A counter of the Watch (R445). -/
def State.watchBump (k : WatchCtr) (s : State) (n : Nat := 1) : State :=
  { s with watch := { s.watch with cnt := s.watch.cnt.bump k.ctorIdx n } }

/-- A counter of the always-on domain (R462, R493). -/
def State.aonBump (k : AonCtr) (s : State) (n : Nat := 1) : State :=
  { s with aon := { s.aon with cnt := s.aon.cnt.bump k.ctorIdx n } }

/-- A device counter of the fabric (R275). -/
def State.fabBump (k : FabDevCtr) (s : State) (n : Nat := 1) : State :=
  { s with fabric := { s.fabric with dev := s.fabric.dev.bump k.ctorIdx n } }

/-- The maxima, and the statistics of 48 bits (R275). -/
def FabCtr.isMax (k : FabCtr) : Bool := k == .injHoldMax || k == .reqLatMax
def FabCtr.wide (k : FabCtr) : Bool :=
  k == .txToken || k == .txReq || k == .txRsp || k == .txCtl || k == .injHoldNs || k == .reqLatSum

/-- A statistic of one fabric initiator (R275). -/
def State.fabStat (code : Nat) (k : FabCtr) (n : Nat) (s : State) : State :=
  let i := 16 * code + k.ctorIdx
  let stat :=
    if k.isMax then s.fabric.stat.upd 0 i fun m => max m (min n (2 ^ 32 - 1))
    else if k.wide then s.fabric.stat.bump48 i n else s.fabric.stat.bump i n
  { s with fabric := { s.fabric with stat := stat } }

/-! ## Events (R407) -/

/-- A source is raised: a disabled source only counts; a source with an undelivered record merges
into it; any other gets a new record. -/
def State.postEventAt (s : State) (ev cause d0 d1 : Nat) (t64 : BitVec 64)
    (poison : Bool := false) (trunc : Bool := false) : State :=
  let e := s.host.src.get {} ev
  if !e.en then s.hostBump .evtMasked
  else
    let old := e.pend
    let r : EvtRec :=
      { cause := cause, t64 := t64, data0 := d0 % 2 ^ 64, data1 := d1 % 2 ^ 64
        poison := poison, trunc := trunc
        count := match old with
          | none => 1
          | some p => min 255 (p.count + 1)
        coalesced := old.isSome }
    let s := { s with host := { s.host with src := s.host.src.set {} ev { e with pend := some r } } }
    if old.isSome then s.hostBump .evtCoalesced else s

/-- A source is raised now. -/
def State.postEvent (s : State) (ev cause : Nat) (d0 : Nat := 0) (d1 : Nat := 0)
    (poison : Bool := false) (trunc : Bool := false) : State :=
  s.postEventAt ev cause d0 d1 s.time.t64 poison trunc

/-! ## Fault detection (R417) -/

/-- A LEVEL source of R417. -/
def isLevel (src fcode : Nat) : Bool :=
  (src < 64 && fcode == 0x05) || (208 ≤ src && src ≤ 227) || (231 ≤ src && src ≤ 234) ||
  (237 ≤ src && src ≤ 242)

/-- The class of a source (R417): the row of R416. -/
def classOf (src : Nat) : Nat :=
  if src < 64 then 0 else if src < 128 then 1 else if src < 192 then 2 else if src < 212 then 3
  else if src < 228 then 4 else if src < 230 then 5 else if src < 232 then 6 else if src < 234 then 7
  else if src = 234 then 8 else if src = 235 then 9 else if src = 236 then 10
  else if src = 237 then 11 else if src = 238 then 12 else if src = 239 then 13
  else if src < 242 then 14 else if src = 242 then 15 else 11

/-- The default reaction of a class (R416). -/
def defaultReaction (k : Nat) : Reaction :=
  if k = 7 then .halt else if k = 4 then .isolate
  else if [0, 2, 6, 10, 12, 13].contains k then .safe else .notify

/-- The reaction of a class now (R416, R430). -/
def State.reactionOf (s : State) (k : Nat) : Reaction :=
  (s.watch.react.get none k).getD (defaultReaction k)

/-- A LEVEL source holds a condition, its own or a forced one (R417, R418). -/
def Watch.holds (w : Watch) (src : Nat) : Bool :=
  (w.levels.any fun l => l.1 == src) || w.forceBits.contains src

/-- The quiet timer (R427): it starts when its conditions come to hold, and otherwise goes on. -/
def Watch.quietRun (now : Nat) (w : Watch) : Watch :=
  if w.fstate == .faulted && !w.sticky && w.levels.isEmpty && w.forceBits.isEmpty then
    { w with quiet := some (w.quiet.getD now) }
  else { w with quiet := none }

/-- LOCKSTEP_BROKEN (R442): some unit is in pass mode. -/
def Watch.broken (w : Watch) : Bool := w.stewardPass || w.pairs.any fun e => e.2.pass

/-- A unit detects a fault: its raise sets out for the Watch, and a LEVEL condition is held from
now on (R417).  A condition that is held already begins no second time. -/
def State.detect (s : State) (src fcode : Nat) (data : Nat := 0) : State :=
  let level := isLevel src fcode
  if level && s.watch.levels.contains (src, fcode) then s
  else
    let r : Raise := { src := src, fcode := fcode, data := data, forced := false
                       t64 := s.time.t64, recov := s.watch.cnt.get 0 (WatchCtr.ctorIdx .recoveries) }
    let w := { s.watch with
      levels := if level then s.watch.levels ++ [(src, fcode)] else s.watch.levels
      raises := s.watch.raises ++ [r] }
    { s with watch := w.quietRun s.time.now }

/-- A condition of a LEVEL source ends (R417, R434): CONDITION_END is raised for its class unless
the class only records. -/
def State.endLevel (s : State) (src fcode : Nat) : State :=
  if s.watch.levels.contains (src, fcode) then
    let s := { s with watch := { s.watch with levels := s.watch.levels.erase (src, fcode) } }
    let s := { s with watch := s.watch.quietRun s.time.now }
    let k := classOf src
    if s.reactionOf k == .record || s.watch.holds src then s else s.postEvent (320 + k) 0x82 src
  else s

/-! ## Cells -/

/-- The record of a cell. -/
def State.cell (s : State) (n : Nat) : Cell := s.cells.get {} n

/-- A cell's record changed. -/
def State.modCell (n : Nat) (f : Cell → Cell) (s : State) : State :=
  { s with cells := s.cells.upd {} n f }

/-- A Palette counter of a cell (R74). -/
def State.palBump (n : Nat) (k : PalCtr) (s : State) (m : Nat := 1) : State :=
  s.modCell n fun c => { c with pal := { c.pal with cnt := c.pal.cnt.bump k.ctorIdx m } }

/-- A queue counter of a cell (R151). -/
def State.queBump (n : Nat) (k : QueCtr) (s : State) (m : Nat := 1) : State :=
  s.modCell n fun c => { c with que := { c.que with cnt := c.que.cnt.bump k.ctorIdx m } }

/-- A block-engine counter of a cell (R192). -/
def State.engBump (n : Nat) (k : EngCtr) (s : State) (m : Nat := 1) : State :=
  s.modCell n fun c => { c with cnt := c.cnt.bump k.ctorIdx m }

/-- The cell event of R52: EV 64 + n once in each epoch for each counter, with the counter's value
in DATA0 (R406). -/
def State.cellEvent (n : Nat) (k : PalCtr) (cause : Nat) (s : State) : State :=
  let c := s.cell n
  if c.pal.raised.contains k.ctorIdx then s
  else
    let s := s.modCell n fun c => { c with pal := { c.pal with raised := c.pal.raised ++ [k.ctorIdx] } }
    s.postEvent (64 + n) cause (c.pal.cnt.get 0 k.ctorIdx)

/-- A Palette counter that also raises the cell's event. -/
def State.palBumpEv (n : Nat) (k : PalCtr) (cause : Nat) (s : State) : State :=
  (s.palBump n k).cellEvent n k cause

/-- An uncorrectable error in a memory of cell `n` (R417): CELLMEM of its pair. -/
def State.cellMemFault (n fcode : Nat) (s : State) : State := s.detect (64 + n / 2) fcode n

/-- The generation a cell holds for a context is `gen` (R40). -/
def Cell.current (c : Cell) (ctx gen : Nat) : Bool :=
  match c.ctxs.get none ctx with
  | some i => i.gen == gen
  | none => false

/-- A counter of the Reeve (R103). -/
def State.reeveBump (k : ReeveCtr) (s : State) (n : Nat := 1) : State :=
  { s with reeve := { s.reeve with cnt := s.reeve.cnt.bump k.ctorIdx n } }

/-- A counter of the Cellar engine and the stall detector (R130). -/
def State.cellarBump (k : CellarCtr) (s : State) (n : Nat := 1) : State :=
  { s with cellar := { s.cellar with cnt := s.cellar.cnt.bump k.ctorIdx n } }

/-- A counter of a sensor port; RX_BYTES is 48 bits wide (R306). -/
def State.portBump (p : Nat) (k : PortCtr) (s : State) (n : Nat := 1) : State :=
  let i := 32 * p + k.ctorIdx
  { s with ingest := { s.ingest with portCnt :=
      if k == .rxBytes then s.ingest.portCnt.bump48 i n else s.ingest.portCnt.bump i n } }

/-- A counter of a binding (R306). -/
def State.bindBump (b : Nat) (k : BindCtr) (s : State) (n : Nat := 1) : State :=
  { s with ingest := { s.ingest with bindCnt := s.ingest.bindCnt.bump (8 * b + k.ctorIdx) n } }

/-- A counter of an event input (R306). -/
def State.evBump (n : Nat) (k : EvCtr) (s : State) (m : Nat := 1) : State :=
  { s with ingest := { s.ingest with evCnt := s.ingest.evCnt.bump (4 * n + k.ctorIdx) m } }

/-- A device counter of R332. -/
def State.varnBump (k : VarnCtr) (s : State) (n : Nat := 1) : State :=
  { s with writer := { s.writer with cnt := s.writer.cnt.bump k.ctorIdx n } }

/-! ## Contexts -/

/-- A context's record. -/
def State.ctxOf (s : State) (c : Nat) : Ctx := s.reeve.ctx.get {} c

/-- The Reeve uses a record: one that its cache of 2,048 does not hold is fetched, which TABLE_MISS counts
(R75, R103). -/
def Reeve.refer (r : Reeve) (c : Nat) : Reeve :=
  if r.cached.contains c then { r with cached := c :: r.cached.erase c }
  else
    { r with
      cached := c :: (if r.cached.length < 2048 then r.cached
        else r.cached.eraseIdx (Config.cacheVictim r.cached % 2048))
      cnt := r.cnt.bump ReeveCtr.tableMiss.ctorIdx 1 }

/-- A context's record changed. -/
def State.modCtx (c : Nat) (f : Ctx → Ctx) (s : State) : State :=
  let r := s.reeve.refer c
  { s with reeve := { r with ctx := r.ctx.upd {} c f } }

/-- The image of a loaded graph. -/
def State.graph (s : State) (h : Nat) : Option GraphBody := s.reeve.graphs.get none h

/-- The definition of a cell group (R84). -/
def State.groupDef (s : State) (n : Nat) : Option GroupDef := (s.reeve.groups.get {} n).gdef

/-- The cells of a placed context: both cells of each pair for class 0 (R28, R91). -/
def Ctx.cells (x : Ctx) : List Nat :=
  let l := x.place.eraseDups
  if x.cls = 0 then l.flatMap fun n => [n, n + 1] else l

/-! ## The times of the epochs (R307) -/

/-- T_B(k) by the numbering in force and those before it: epochs before all of them have the length before
the last LENGTH. -/
def boundary (prevLen k : Nat) (o : BitVec 64) (kO len : Nat) : List (BitVec 64 × Nat × Nat) → BitVec 64
  | [] =>
    if kO ≤ k then o + BitVec.ofNat 64 ((k - kO) * len) else o - BitVec.ofNat 64 ((kO - k) * prevLen)
  | e :: l =>
    if kO ≤ k then o + BitVec.ofNat 64 ((k - kO) * len) else boundary prevLen k e.1 e.2.1 e.2.2 l

/-- T_B(k) (R307, R308). -/
def Writer.tb (w : Writer) (k : Nat) : BitVec 64 := boundary w.prevLen k w.origin w.kOrigin w.len w.older

/-! ## Danger (R97, R98) -/

/-- The pair of cell `n` carries a live class 0 context. -/
def State.pairClass0 (s : State) (n : Nat) : Bool :=
  s.reeve.ctx.any fun e => e.2.st == .live && e.2.cls == 0 && e.2.place.contains (2 * (n / 2))

/-- D of one cell is asserted: NORMAL moves to THROTTLE (R98).  At the very start of an epoch (`edge`) D
counts as asserted for that boundary, so that a cell which left YIELD there is in YIELD after all (R102). -/
def Danger.trigger (now : Nat) (edge : Bool) (x : Danger) : Danger :=
  let x := { x with last := now }
  if x.d then x
  else
    let back := edge && decide (2 ≤ x.left)
    { x with d := true, since := now, owed := back, y := if back then x.left else if x.y = 0 then 1 else x.y }

/-- T64 reads the start of the epoch in progress. -/
def State.atEdge (s : State) : Bool :=
  s.writer.st == .running && s.time.t64 == s.writer.tb s.writer.k

/-- A trigger on cell `n`, or on both cells of a class 0 pair (R97). -/
def State.trigger (s : State) (n : Nat) : State :=
  let l := if s.pairClass0 n then [2 * (n / 2), 2 * (n / 2) + 1] else [n]
  let d := l.foldl (fun d k => d.upd {} k (Danger.trigger s.time.now s.atEdge)) s.reeve.danger
  { s with reeve := { s.reeve with danger := d } }

/-! ## Messages of the fabric -/

/-- The slot in force (R261): the one that began last, while it lasts. -/
def State.slotNow (s : State) : Nat :=
  if later 64 (s.fabric.slotT.toNat + 25) s.time.t64.toNat then s.fabric.slot else s.time.t64.toNat / 25 % 64

/-- Its entry in the map (R262). -/
def State.slotEntryNow (s : State) : BitVec 16 := s.fabric.slotEntry s.slotNow

/-- A transaction is offered at its injection port and counted there (R252, R275). -/
def State.launch (h : Header) (c : Chan) (pair : Bool) (s : State) : State :=
  let k : FabCtr := match c with
    | .g | .u => .txToken
    | .req => .txReq
    | .rsp => .txRsp
    | .ctl => .txCtl
  ({ s with fabric := s.fabric.launch (h.transit c pair s.time.now) }).fabStat h.src k (1 + h.ndata)

/-- The endpoint behind a port holds no token of a lane there (R259). -/
def Fabric.unheld (f : Fabric) (r : Nat) (p : Port) (c : Chan) : Bool :=
  !(f.flight.any fun x => x.held && x.tok.way == (r, p, c == .g) && (c == .g || c == .u))

/-- A transaction may leave the mesh now (R258, R260). -/
def State.mayExit (s : State) (h : Header) (c : Chan) : Bool :=
  s.fabric.mayExit s.slotEntryNow (h.transit c false 0) (s.fabric.unheld h.dst h.exit)

/-- It leaves the mesh. -/
def State.land (h : Header) (c : Chan) (s : State) : State :=
  { s with fabric := s.fabric.land s.slotEntryNow (h.transit c false 0) }

/-- A control message sets out (R256). -/
def State.sendCtl (s : State) (m : Ctl) : State :=
  ({ s with fabric := { s.fabric with ctl := s.fabric.ctl ++ [m] } }).launch m.header .ctl false

/-- The message that reaches a unit, of those that `p` allows: the first of its sender, when the port
grants it (R258, R260). -/
def State.ctlNext (s : State) (p : Ctl → Bool) : Option Ctl :=
  (s.fabric.ctl.find? p).filter fun m =>
    (s.fabric.ctl.find? fun x => !x.isReturn && ctlSrc x == ctlSrc m && ctlDest x == ctlDest m) == some m &&
    s.mayExit m.header .ctl

/-- A message leaves the fabric. -/
def State.takeCtl (s : State) (m : Ctl) : State :=
  ({ s with fabric := { s.fabric with ctl := s.fabric.ctl.erase m } }).land m.header .ctl

/-- A unit returns credit to the Reeve, in a batch with the rest that waits there (R80). -/
def State.returnCredit (s : State) (unit ctx gen n : Nat) : State :=
  if n = 0 then s
  else { s with fabric := { s.fabric with ctl := s.fabric.ctl ++ [Ctl.creditReturn unit ctx gen n] } }

/-- A cell returns credit: for class 0 only the even cell of the pair does (R28).  Nothing leaves an
isolated cell (R271). -/
def State.cellReturn (s : State) (n ctx gen cls k : Nat) : State :=
  if (cls = 0 && n % 2 = 1) || s.fabric.iso.contains n then s else s.returnCredit n ctx gen k

/-- A token leaves an injection port (R258, R275), or the pair port (R252). -/
def State.inject (s : State) (src : Nat) (t : Token) (pair : Bool := false) : State :=
  ({ s with fabric := { s.fabric with
      flight := s.fabric.flight ++ [({ src := src, tok := t, pair := pair } : Flit)] } }).launch
    (t.header src) t.chan pair

/-- A token reaches its endpoint: the first of its initiator, destination and lane (R258), when the port
grants it (R260). -/
def State.arrivable (s : State) (src : Nat) (t : Token) : Bool :=
  (match s.fabric.flight.find? fun f => f.src == src && f.tok.way == t.way with
  | some f => f.tok == t
  | none => false) && s.mayExit (t.header src) t.chan

/-- The first matching entry of a list is dropped. -/
def dropFirst {α : Type} (p : α → Bool) : List α → List α
  | [] => []
  | a :: l => if p a then l else a :: dropFirst p l

/-- The token leaves the fabric. -/
def State.takeFlight (s : State) (src : Nat) (t : Token) : State :=
  ({ s with fabric := { s.fabric with
      flight := dropFirst (fun f => f.src == src && f.tok == t) s.fabric.flight } }).land
    (t.header src) t.chan

/-- The place of a context in a cell's credit records: the credit of class 0 firings is kept per pair,
apart from that of the cell's other firings (R80). -/
def poolOf (pair : Bool) (ctx : Nat) : Nat := if pair then ctx + 2 ^ 17 else ctx

/-- Credit that a producer holds for a context and generation: a cell in its own record, a hub in
the Reeve's (R80). -/
def State.creditOf (s : State) (prod ctx gen : Nat) : Nat :=
  if prod < 128 then (s.cell prod).credit.get 0 (16 * ctx + gen)
  else s.reeve.hubCredit.get 0 ((prod * 2 ^ 17 + ctx) * 16 + gen)

/-- A producer's credit set. -/
def State.setCredit (s : State) (prod ctx gen n : Nat) : State :=
  if prod < 128 then
    s.modCell prod fun c => { c with credit := c.credit.set 0 (16 * ctx + gen) n }
  else
    { s with reeve := { s.reeve with
        hubCredit := s.reeve.hubCredit.set 0 ((prod * 2 ^ 17 + ctx) * 16 + gen) n } }

/-- A producer has a request for credit on its way (R80). -/
def State.hasAsked (s : State) (prod ctx : Nat) (gen : Option Nat) : Bool :=
  if prod < 128 then (s.cell prod).asked.contains (ctx, gen)
  else s.reeve.hubAsked.contains (prod, ctx, gen)

/-- A producer requests a block of credit, once until it is answered (R80). -/
def State.askCredit (s : State) (prod ctx : Nat) (gen : Option Nat) (pair : Bool := false) : State :=
  if s.hasAsked prod (poolOf pair ctx) gen then s
  else
    let s := if prod < 128
      then s.modCell prod fun c => { c with asked := c.asked ++ [(poolOf pair ctx, gen)] }
      else { s with reeve := { s.reeve with hubAsked := s.reeve.hubAsked ++ [(prod, ctx, gen)] } }
    -- nothing leaves an isolated unit (R271)
    if s.fabric.iso.contains prod then s else s.sendCtl (.creditReq prod ctx gen pair)

/-- A hub spends one credit, and requests a block when 16 or fewer remain (R80). -/
def State.spendHub (s : State) (prod ctx gen : Nat) : State :=
  let n := s.creditOf prod ctx gen - 1
  let s := s.setCredit prod ctx gen n
  if n ≤ 16 then s.askCredit prod ctx (some gen) else s

/-- An endpoint accepts or discards a token: it leaves the fabric and one credit returns from the
endpoint's unit (R80). -/
def State.acceptFlight (s : State) (src : Nat) (t : Token) (unit : Nat) : State :=
  (s.takeFlight src t).returnCredit unit t.tag.ctx.toNat t.tag.gen.toNat 1

/-! ## The end of a host command (R393, R397, R408) -/

/-- A command's completion is offered to the completion writer, or discarded when the host
interface has been reset since its acceptance (R386). -/
def State.complete (s : State) (ring : Nat) (d : Desc) (live : Bool) (status detail result : Nat)
    (out : List Byte) : State :=
  let good := status = 0 || status = 0x000A
  let s := s.hostBump (if good then .cmdOk else .cmdReject)
  let s := { s with power := { s.power with restSince := some s.time.now } }
  if !live then s.hostBump .cplDiscard
  else
    let item : Cpl :=
      { status := status, cseq := d.cseq, opcode := d.opcode, detail := detail, tag := d.tag
        result := result, irqNow := d.dflags.getLsbD 0, haddr := d.haddr, out := out }
    { s with host := { s.host with cmd := s.host.cmd.upd {} ring fun c => { c with item := some item } } }

/-- Every waiting command that `p` picks completes. -/
def State.completeWhere (s : State) (p : Running → Bool) (status : Nat) (result : Nat := 0) : State :=
  let done := s.host.running.filter p
  let s := { s with host := { s.host with running := s.host.running.filter fun r => !(p r) } }
  done.foldl (fun s r => s.complete r.ring r.desc r.live status 0 result []) s

/-- The host hub serves: the start has reached step 9 or Lantern mode (R470, R473). -/
def State.serving (s : State) : Bool := s.power.phase == .ready || s.power.phase == .lantern

/-- Normal service: step 9 reached, not in Lantern mode. -/
def State.isReady (s : State) : Bool := s.power.phase == .ready

end Sys2Proof.Machine
end

