-- ==== Sys2Proof/Machine/Queue.lean ====
section
/-! DEFINITION. The Easel and the express lane (06_easel.md R131-R152): packets, banks, the full
flags, commit and rewind, the reader's order, flush and injection. -/

namespace Sys2Proof.Machine

/-- Queue words that an operand takes (R132); `inlined` is the port A operand of LEN 0 or 1. -/
def operandWords (portA : Bool) : Option (List Word) → Nat
  | none => 0
  | some ws => if ws.length ≤ 2 then (if portA then 0 else 1) else ws.length / 4

/-- Queue words of a packet (R131, R132). -/
def Packet.words (p : Packet) : Nat :=
  1 + operandWords true p.a + operandWords false p.b + operandWords false p.c

/-- Words that committed packets occupy. -/
def occupied (l : List Queued) : Nat := (l.map fun q => q.pkt.words).sum

/-- The filling bank and the draining bank (R134). -/
def Queues.fill (q : Queues) : List Queued := if q.filling then q.eb1 else q.eb0
def Queues.drain (q : Queues) : List Queued := if q.filling then q.eb0 else q.eb1

/-- A queue's occupancy gauges (R151): a packet's words are held until the last is read or dropped
(R139). -/
def Queues.easelOcc (q : Queues) : Nat := occupied q.eb0 + occupied q.eb1 + q.eHeld
def Queues.expressOcc (q : Queues) : Nat := occupied q.express + q.xHeld

/-- Class 0 and 1 packets go to the express lane (R57). -/
def Packet.isExpress (p : Packet) : Bool := decide (p.cls ≤ 1)

/-- FULL of the queue a class uses (R137). -/
def Queues.full (q : Queues) (express : Bool) : Bool :=
  if express then q.expressFull else q.easelFull

/-- Free words in the queue a packet goes to. -/
def Queues.free (q : Queues) (express : Bool) : Nat :=
  if express then 64 - q.expressOcc else 256 - occupied q.fill

/-- FULL is set, and counted when it was not (R137, R151). -/
def State.setFull (s : State) (n : Nat) (express : Bool) : State :=
  if (s.cell n).que.full express then s
  else
    let s := s.modCell n fun c => { c with que :=
      if express then { c.que with expressFull := true } else { c.que with easelFull := true } }
    s.queBump n (if express then .expressFull else .easelFull)

/-- The express lane's FULL clears when 13 or more words are free (R137). -/
def Queues.relax (q : Queues) : Queues :=
  if 13 ≤ q.free true then { q with expressFull := false } else q

/-- The words of the packet being read are freed (R139). -/
def Queues.release (q : Queues) (express : Bool) : Queues :=
  if express then ({ q with xHeld := 0 } : Queues).relax else { q with eHeld := 0 }

/-- A packet's last word is committed: it joins its list (R136), and an Easel bank without a free
word sets FULL (R137). -/
def State.commitPacket (s : State) (n : Nat) (p : Packet) : State :=
  let s := s.modCell n fun c =>
    let q := c.que
    let e : Queued := { pkt := p, seq := q.seq, t := s.time.now }
    let q := { q with seq := q.seq + 1 }
    { c with que :=
        if p.isExpress then { q with express := q.express ++ [e] }
        else if q.filling then { q with eb1 := q.eb1 ++ [e] } else { q with eb0 := q.eb0 ++ [e] } }
  if !p.isExpress && (s.cell n).que.free false == 0 then s.setFull n false else s

/-- How an offer to a queue ends. -/
inductive Offer where
  | committed | full | rewound
  deriving DecidableEq, Repr

/-- A packet is written into its queue (R136): it commits, it does not fit and is rewound with
FULL set, or the write check rewinds it.  The third mismatch in a row of the packet, `checks` being
those before, commits it with the port's poison. -/
def State.writePacket (s : State) (n : Nat) (p : Packet) (checks : Nat) (err : QueErr) : Offer × State :=
  let c := s.cell n
  if c.que.free p.isExpress < p.words then (.full, s.setFull n p.isExpress)
  else
    match err with
    | .none => (.committed, s.commitPacket n p)
    | .mismatch port =>
      if 2 ≤ checks then
        let p := { p with ppois := setBit p.ppois port.val true }
        (.committed, (s.commitPacket n p).cellMemFault n 0x12)
      else (.rewound, s.queBump n .writeCheck)

/-- The reader's order within a bank or the express lane (R135, R143): class, then NPRI, then
commit order. -/
def rank (q : Queued) : Nat := (q.pkt.cls * 4 + q.pkt.npri) * 2 ^ 64 + q.seq

/-- The packet that the reader takes. -/
def headOf : List Queued → Option Queued
  | [] => none
  | a :: l =>
    match headOf l with
    | none => some a
    | some b => if rank a ≤ rank b then some a else some b

/-- The banks swap roles (R134): the filling bank becomes the draining bank, and FULL clears. -/
def Queues.swap (q : Queues) : Queues := { q with filling := !q.filling, easelFull := false }

/-- A swap is due (R134): the draining bank holds no packet, nor words of one being read, and the
filling bank holds one. -/
def Queues.swapDue (q : Queues) : Bool := q.drain.isEmpty && q.eHeld == 0 && !q.fill.isEmpty

/-- The engine requests an item (R134): a swap that is due happens. -/
def State.requestItem (s : State) (n : Nat) : State :=
  if (s.cell n).que.swapDue then
    (s.modCell n fun c => { c with que := c.que.swap }).queBump n .bankSwap
  else s

/-- Tokens of a context counted by a cell, for bells (R313). -/
def State.tallyAdd (s : State) (n ctx : Nat) (epar : Bool) : State :=
  s.modCell n fun c => { c with tally := c.tally.upd 0 (2 * ctx + b2n epar) fun t => (t + 1) % 2 ^ 32 }

def State.tallySub (s : State) (n ctx : Nat) (epar : Bool) (k : Nat := 1) : State :=
  s.modCell n fun c => { c with tally := c.tally.upd 0 (2 * ctx + b2n epar) fun t => t - k }

/-- The operands of a firing leave the tally (R313). -/
def State.tallyOut (s : State) (n : Nat) (p : Packet) : State :=
  p.epars.foldl (fun s e => s.tallySub n p.ctx e) s

/-- A token of the context cannot be attributed: the number stays HELD until the next full reset
(R117, R140). -/
def State.orphan (s : State) (ctx : Nat) : State := s.modCtx ctx fun x => { x with orphan := true }

/-- The sideband of a packet is needed (R133, R140): its NOPS credits return, or it cannot be read and
they never do. -/
def State.sideband (s : State) (n : Nat) (p : Packet) (bad : Bool) : State :=
  if bad then ((s.queBump n .queueOrphan).orphan p.ctx).cellMemFault n 0x12
  else s.cellReturn n p.ctx p.gen p.cls p.nops

/-- A queued packet is discarded: its credits return by its sideband, and its operands leave the
tally. -/
def State.dropPacket (s : State) (n : Nat) (p : Packet) (bad : Bool) : State :=
  (s.sideband n p bad).tallyOut n p

/-- With no express firing and no visible express packet the engine is back in bank M (R145); PREEMPTED
reads 1 only while a firing is held there (R152). -/
def State.backToM (s : State) (n : Nat) : State :=
  s.modCell n fun c =>
    { c with preempted := c.preempted && c.m.hdr.isSome && (c.p.hdr.isSome || !c.que.express.isEmpty) }

/-- A flush (R141): every committed packet of the scope is discarded, and FULL keeps its value but
in the express lane, whose words are free.  `bad` gives the places, in the order of the discard, of the
packets whose sideband cannot be read (R140). -/
def State.flush (s : State) (n : Nat) (easel express : Bool) (bad : List Nat) : State :=
  let q := (s.cell n).que
  let pe := if easel then q.eb0 ++ q.eb1 else []
  let px := if express then q.express else []
  let s := s.modCell n fun c =>
    let q := if easel then { c.que with eb0 := [], eb1 := [] } else c.que
    { c with que := if express then ({ q with express := [] } : Queues).relax else q }
  let s := (pe ++ px).zipIdx.foldl (fun s e => s.dropPacket n e.1.pkt (bad.contains e.2)) (s.backToM n)
  (s.queBump n .easelFlushed pe.length).queBump n .expressFlushed px.length

/-- A context's bell firing of parity `p` is held while the tally of that parity is not zero
(R313). -/
def Cell.bellHeld (c : Cell) (ctx : Nat) (epar bell : Bool) : Bool :=
  bell && c.tally.get 0 (2 * ctx + b2n epar) != 0

end Sys2Proof.Machine
end

