-- ==== Sys2Proof/Machine/Palette.lean ====
section
/-! DEFINITION. The Palette (03_palette.md R46-R74): the set hash, the checks of an arriving token,
matching, the pools, waits, the offer of READY firings and the sweep. -/

namespace Sys2Proof.Machine

/-! ## Sets, ways and keys -/

/-- The set index S of a tag (R47). -/
def setOf (t : Tag) : Nat :=
  let k : BitVec 43 := BitVec.ofNat 14 t.node ++ t.ctx ++ t.gen ++ t.iter
  let s : BitVec 11 := k.extractLsb' 0 11 ^^^ k.extractLsb' 11 11 ^^^ k.extractLsb' 22 11 ^^^
    (k.extractLsb' 33 10).zeroExtend 11
  let s := if t.bell then s ^^^ 0x400#11 else s
  let s := if t.cls.toNat ≤ 1 then s ||| 1#11 else s
  s.toNat

/-- An entry is that of a tag's key (R48). -/
def Entry.matches (e : Entry) (t : Tag) : Bool :=
  e.st != .free && e.node == t.node && e.ctx == t.ctx.toNat && e.gen == t.gen.toNat &&
  e.iter == t.iter.toNat && e.bell == t.bell

/-- The operand that an entry holds at a port. -/
def Entry.port (e : Entry) (p : Nat) : Option Operand :=
  if p = 0 then e.a else if p = 1 then e.b else e.c

/-- The entry with an operand at a port. -/
def Entry.setPort (e : Entry) (p : Nat) (o : Option Operand) : Entry :=
  if p = 0 then { e with a := o } else if p = 1 then { e with b := o } else { e with c := o }

/-- The operands held. -/
def Entry.operands (e : Entry) : List Operand := [e.a, e.b, e.c].filterMap id

/-- HAVE: the ports whose operand is present (R50). -/
def Entry.have (e : Entry) : Nat := b2n e.a.isSome + 2 * b2n e.b.isSome + 4 * b2n e.c.isSome

def Palette.at (p : Palette) (k : Nat) : Entry := p.entries.get {} k

/-- The least-recently-touched order of a set's ways (R49). -/
def Palette.lru (p : Palette) (set : Nat) : List Nat := p.order.get [0, 1, 2, 3] set

/-- A way is touched (R49). -/
def Palette.touch (p : Palette) (set way : Nat) : Palette :=
  { p with order := p.order.set [0, 1, 2, 3] set ((p.lru set).erase way ++ [way]) }

/-- Ways of a set that class 2 and 3 may use (R46). -/
def eligible23 (set way : Nat) : Bool := set % 2 == 0 || way < 3

/-- A free eligible way: the reserved way first for class 0 and 1 (R72), then the
least-recently-touched (R53). -/
def Palette.freeWay (p : Palette) (set cls : Nat) : Option Nat :=
  let free := fun w => (p.at (4 * set + w)).st == .free
  if cls ≤ 1 then
    if free 3 then some 3 else (p.lru set).find? fun w => w != 3 && free w
  else (p.lru set).find? fun w => eligible23 set w && free w

/-- The way that holds the key of a tag. -/
def Palette.hit (p : Palette) (set : Nat) (t : Tag) : Option Nat :=
  [0, 1, 2, 3].find? fun w => (p.at (4 * set + w)).matches t

/-- A spill is copying the entry (R73): both copies of its slot are not yet acknowledged. -/
def Palette.copying (p : Palette) (set way : Nat) : Bool :=
  p.spills.any fun s => s.victims.contains (set, way) && !s.acked.contains (set % 64)

/-- Class 2 and 3 WAITING entries of a set that a spill may take, in least-recently-touched order
(R62). -/
def Palette.victims (p : Palette) (set : Nat) : List Nat :=
  (p.lru set).filter fun w =>
    let e := p.at (4 * set + w)
    e.st == .waiting && decide (2 ≤ e.cls) && !p.copying set w

/-- The payload block for an operand (R59), or nothing when none is to be had. -/
def Palette.block (p : Palette) (cls len : Nat) : Option Blk :=
  if len ≤ 1 then some .none
  else if cls ≤ 1 && p.rsvBlocks < 512 then some .reserved
  else if p.shBlocks < 3584 then some .shared
  else none

/-- A block is taken; a block is freed. -/
def Palette.takeBlk (p : Palette) : Blk → Palette
  | .none => p
  | .reserved => { p with rsvBlocks := p.rsvBlocks + 1 }
  | .shared => { p with shBlocks := p.shBlocks + 1 }

def Palette.freeBlk (p : Palette) : Blk → Palette
  | .none => p
  | .reserved => { p with rsvBlocks := p.rsvBlocks - 1 }
  | .shared => { p with shBlocks := p.shBlocks - 1 }

/-- An entry becomes FREE and its blocks are freed (R51). -/
def Palette.freeEntry (p : Palette) (k : Nat) : Palette :=
  let e := p.at k
  e.operands.foldl (fun p o => p.freeBlk o.blk) { p with entries := p.entries.set {} k {} }

/-- The gauges of R74. -/
def Palette.occ (p : Palette) : Nat := p.entries.length
def Palette.rsvOcc (p : Palette) : Nat := (p.entries.filter fun e => e.1 % 8 == 7).length
def Palette.poolOcc (p : Palette) : Nat := p.rsvBlocks + p.shBlocks

def State.modPal (s : State) (n : Nat) (f : Palette → Palette) : State :=
  s.modCell n fun c => { c with pal := f c.pal }

/-- An entry is discarded: freed, its credits returned, its operands out of the tally (R51, R42,
R313). -/
def State.discardEntry (s : State) (n k : Nat) : State :=
  let e := (s.cell n).pal.at k
  let s := s.modPal n fun p => p.freeEntry k
  let s := s.cellReturn n e.ctx e.gen e.cls e.operands.length
  if e.bell then s else e.operands.foldl (fun s o => s.tallySub n e.ctx o.epar) s

/-- A token is discarded at a cell: it stops counting (R42). -/
def State.discardToken (s : State) (n : Nat) (t : Token) : State :=
  s.cellReturn n t.tag.ctx.toNat t.tag.gen.toNat t.tag.cls.toNat 1

/-! ## Node descriptors (R153) -/

def descValid (d : BitVec 64) : Bool :=
  d.getLsbD 0 && d.extractLsb' 1 2 != 0#2 && d.extractLsb' 28 36 == 0#36
def descNops (d : BitVec 64) : Nat := (d.extractLsb' 1 2).toNat
def descNpri (d : BitVec 64) : Nat := (d.extractLsb' 3 2).toNat
def descEntry (d : BitVec 64) : Nat := (d.extractLsb' 5 14).toNat
/-- RM, CT and FTE as BSTAT[8:0] (R159). -/
def descMode (d : BitVec 64) : BitVec 9 := d.extractLsb' 23 5 ++ d.extractLsb' 22 1 ++ d.extractLsb' 19 3
/-- NEED: ports A, then B, then C (R153). -/
def needOf (nops : Nat) : Nat := 2 ^ nops - 1

/-! ## Completion and commit (R57, R58, R313) -/

/-- The operands of a firing disagree in EPAR (R32). -/
def Entry.mixed (e : Entry) : Bool :=
  match e.operands with
  | [] => false
  | o :: l => l.any fun q => q.epar != o.epar

/-- The firing that a READY entry assembles (R57, R131). -/
def Entry.firing (e : Entry) (npri : Nat) : Packet :=
  let po := fun (o : Option Operand) => match o with | some o => o.poison | none => false
  { node := e.node, ctx := e.ctx, gen := e.gen, iter := e.iter, cls := e.cls
    epar := match e.a with | some o => o.epar | none => false
    bell := e.bell, npri := npri
    ppois := b2n (po e.a || e.mixed) + 2 * b2n (po e.b) + 4 * b2n (po e.c)
    a := e.a.map (·.words), b := e.b.map (·.words), c := e.c.map (·.words)
    nops := e.operands.length
    epars := if e.bell then [] else e.operands.map (·.epar) }

/-- The packet of an item that waits for its queue. -/
def Cell.itemPacket (c : Cell) : ReadyItem → Packet
  | .entry k =>
    let e := c.pal.at k
    e.firing (descNpri (c.nodes.get 0 e.node))
  | .mono p => p

/-! ## Memory errors (R68) -/

/-- The operand at a port is kept and its POISON flag set (R68). -/
def State.poisonPort (s : State) (n k p fcode : Nat) : State :=
  let e := (s.cell n).pal.at k
  match e.port p with
  | none => s
  | some o =>
    let s := s.modPal n fun q => { q with
      entries := q.entries.set {} k (e.setPort p (some { o with poison := true })) }
    (s.palBump n .paletteUe).cellMemFault n fcode

/-- An entry's key is lost (R68): a WAITING entry is freed, out of a spill that copies it; a READY entry
moves only by its commit (R51, log 260). -/
def State.loseKey (s : State) (n k : Nat) : State :=
  let s := (s.palBump n .paletteUe).cellMemFault n 0x10
  if ((s.cell n).pal.at k).st == .waiting then
    (s.discardEntry n k).modPal n fun p => { p with
      spills := p.spills.map fun x => { x with victims := x.victims.filter fun v =>
        v != (k / 4, k % 4) || x.acked.contains (k / 4 % 64) } }
  else s

/-- An error that a read finds in the entry at `k` (R68). -/
def State.entryError (s : State) (n k : Nat) (err : MemFault) : State :=
  if ((s.cell n).pal.at k).st == .free then s
  else match err with
    | .corrected => s.palBump n .paletteCe
    | .key => s.loseKey n k
    | .value p => s.poisonPort n k p.val 0x10
    | .block p => s.poisonPort n k p.val 0x11

/-- The errors that a read of the entry at `k` finds. -/
def State.readEntry (s : State) (n k : Nat) (errs : List MemFault) : State :=
  errs.foldl (fun s e => s.entryError n k e) s

/-- All four ways of a set are read (R53). -/
def State.readSet (s : State) (n set : Nat) (errs : List (Fin 4 × MemFault)) : State :=
  errs.foldl (fun s e => s.entryError n (4 * set + e.1.val) e.2) s

/-! ## Offers (R57, R58, R136) -/

/-- The first item of the ready list that is `it` changed. -/
def Palette.modReady (p : Palette) (it : ReadyItem) (f : Ready → Ready) : Palette :=
  { p with ready := p.ready.map fun r => if r.item == it then f r else r }

/-- The entry of an item is read to be offered (R68); a MONO token has none. -/
def State.readItem (s : State) (n : Nat) (x : ReadyItem) (errs : List MemFault) : State :=
  match x with
  | .entry k => s.readEntry n k errs
  | .mono _ => s

/-- The held firings of one queue are offered in readiness order until the queue is full or
rewinds one (R58, R136); a bell whose tally is not zero stays, counted once (R313).  `err` is what is
found while the first of them is read and written. -/
def State.offerLoop (n : Nat) (express : Bool) : List Ready → MemErr → State → State
  | [], _, s => s
  | r :: rest, err, s =>
    let c := s.cell n
    let p := c.itemPacket r.item
    if p.isExpress != express then State.offerLoop n express rest err s
    else if c.que.full express then s
    else if c.bellHeld p.ctx p.epar p.bell then
      let s := if r.counted then s
        else s.modCell n fun c => { c with
          bellHold := (c.bellHold + 1) % 2 ^ 32
          pal := c.pal.modReady r.item fun x => { x with counted := true } }
      State.offerLoop n express rest err s
    else
      let s := s.readItem n r.item err.entry
      match s.writePacket n ((s.cell n).itemPacket r.item) r.checks err.queue with
      | (.committed, s) =>
        let s := s.modPal n fun q =>
          let q := { q with ready := dropFirst (fun e => e.item == r.item) q.ready }
          match r.item with
          | .entry k => q.freeEntry k
          | .mono _ => q
        State.offerLoop n express rest .none s
      | (.rewound, s) => s.modPal n fun q => q.modReady r.item fun x => { x with checks := x.checks + 1 }
      | (.full, s) => s

/-- Both queues are offered what waits for them. -/
def State.offerReady (s : State) (n : Nat) (err : MemErr) : State :=
  let s := State.offerLoop n true (s.cell n).pal.ready err s
  State.offerLoop n false (s.cell n).pal.ready err s

/-- An entry whose last operand has come becomes READY and is offered (R51, R57, R32). -/
def State.makeReady (s : State) (n k : Nat) (err : MemErr) : State :=
  let e := (s.cell n).pal.at k
  let s := s.modPal n fun p => { p with
    entries := p.entries.set {} k { e with st := .ready }
    ready := p.ready ++ [{ item := .entry k }] }
  let s := if e.mixed then s.palBumpEv n .eparConflict 0x34 else s
  s.offerReady n err

/-! ## Lookup (R53-R56, R59-R65) -/

/-- How a lookup ends: the token was placed or discarded, or why it must wait. -/
inductive Look where
  | placed
  | reserve
  | wait (w : WaitWhy)
  deriving DecidableEq, Repr

/-- The operand of a token. -/
def operandOf (t : Token) (blk : Blk) (spilled : Bool := false) : Operand :=
  { len := t.tag.len.toNat, epar := t.tag.epar, poison := t.tag.poison, spilled := spilled
    words := t.payload, blk := blk }

/-- The operand is stored in an entry at `k`, which is touched (R49). -/
def State.storeOperand (s : State) (n k : Nat) (e : Entry) (port : Nat) (o : Operand) (err : MemErr) : State :=
  let s := s.modPal n fun p =>
    ({ p with entries := p.entries.set {} k (e.setPort port (some o)) }.takeBlk o.blk).touch (k / 4) (k % 4)
  if (e.setPort port (some o)).have == e.need then s.makeReady n k err else s

/-- Entries of a set whose generation is no longer installed are freed at once, as if swept (R66). -/
def State.freeStale (s : State) (n set : Nat) : State :=
  [0, 1, 2, 3].foldl (fun s w =>
    let c := s.cell n
    let e := c.pal.at (4 * set + w)
    if e.st == .waiting && !c.current e.ctx e.gen && !c.pal.copying set w then
      ((s.discardEntry n (4 * set + w)).palBump n .staleGen).palBump n .sweepFreed
    else s) s

/-- A spill of a set's group is asked for, when the cell has none in progress (R61, R116). -/
def State.startSpill (s : State) (n set : Nat) : State :=
  if (s.cell n).pal.spills.isEmpty then
    s.modPal n fun p => { p with
      spills := [{ group := set / 64, set := set, victims := [], page := none, acked := [] }] }
  else s

/-- A set has nothing to spill (R63): every eligible way holds a class 0 or 1 entry or a READY entry. -/
def Palette.unspillable (p : Palette) (set : Nat) : Bool :=
  (p.lru set).all fun w =>
    let e := p.at (4 * set + w)
    !eligible23 set w || e.st == .ready || (e.st == .waiting && decide (e.cls ≤ 1))

/-- A class 2 or 3 token that missed finds no way or no block (R60, R61, R63); `was` is why it has
waited so far. -/
def State.pressed (s : State) (n set : Nat) (was : Option WaitWhy) : Look × State :=
  if (s.cell n).pal.unspillable set then
    (.wait .blocked, if was == some .blocked then s else s.palBump n .setBlocked)
  else (.wait .pressure, s.startSpill n set)

/-- A token meets an entry with its key (R53, R56, R59, R60). -/
def State.lookHit (s : State) (n : Nat) (t : Token) (set way : Nat) (was : Option WaitWhy) (err : MemErr) :
    Look × State :=
  let c := s.cell n
  let cls := t.tag.cls.toNat
  let k := 4 * set + way
  let e := c.pal.at k
  let port := t.tag.port
  if c.pal.copying set way then (.wait .behind, s)
  else if (e.port port).isSome then
    let s := (s.palBumpEv n .dupArrival 0x33).discardToken n t
    let s := if t.tag.bell then s else s.tallySub n t.tag.ctx.toNat t.tag.epar
    if e.st == .waiting then
      let e := { e with dup := true }
      let e := match e.port port with
        | some o => e.setPort port (some { o with poison := true })
        | none => e
      (.placed, s.modPal n fun p => { p with entries := p.entries.set {} k e })
    else (.placed, s)
  else
    match c.pal.block cls t.tag.len.toNat with
    | some b => (.placed, s.storeOperand n k e port (operandOf t b) err)
    | none =>
      let s := if was == some .short || was == some .shortSpilled then s else s.palBump n .poolEmpty
      if cls ≤ 1 then (.reserve, s) else (.wait .short, s.startSpill n set)

/-- A token allocates an entry (R51). -/
def State.allocate (s : State) (n : Nat) (t : Token) (set way : Nat) (blk : Blk) (err : MemErr) : State :=
  let need := needOf (descNops ((s.cell n).nodes.get 0 t.tag.node))
  let e : Entry :=
    { st := .waiting, node := t.tag.node, ctx := t.tag.ctx.toNat, gen := t.tag.gen.toNat
      iter := t.tag.iter.toNat, bell := t.tag.bell, cls := t.tag.cls.toNat, need := need }
  s.storeOperand n (4 * set + way) e t.tag.port (operandOf t blk) err

/-- A token that waits has asked the Cellar for its key, or missed while its set had nothing there: no
entry with its key can have been spilled since (R65, R110). -/
def WaitWhy.asked : WaitWhy → Bool
  | .pressure | .spilled | .blocked | .missed => true
  | .short | .shortSpilled | .pagein | .behind => false

/-- The cell has accepted an entry with the token's key from the Cellar, and it is not restored yet
(R73, R112). -/
def State.incoming (s : State) (n : Nat) (t : Tag) : Bool :=
  s.cellar.pageins.any fun p => p.cell == n && match p.got with
    | some (_, e, _) => e.matches t
    | none => false

/-- A token meets no entry with its key: it allocates, or waits (R53, R59-R65).  `behind` says that
an earlier token of its set waits. -/
def State.lookMiss (s : State) (n : Nat) (t : Token) (set : Nat) (behind : Bool) (was : Option WaitWhy)
    (err : MemErr) : Look × State :=
  let c := s.cell n
  let cls := t.tag.cls.toNat
  let asked := match was with
    | some w => w.asked
    | none => false
  if decide (2 ≤ cls) && behind then (.wait .behind, s)
  else if decide (2 ≤ cls) && !asked && (c.pal.depth.get 0 set != 0 || s.incoming n t.tag) then (.wait .pagein, s)
  else
    match c.pal.freeWay set cls, c.pal.block cls t.tag.len.toNat with
    | some w, some b => (.placed, s.allocate n t set w b err)
    | _, b =>
      let counted := asked && was != some .missed
      let s := if b.isNone && !counted then s.palBump n .poolEmpty else s
      if cls ≤ 1 then (.reserve, s)
      else s.pressed n set was

/-- The set lookup (R53) of a token; `was` is why it has waited so far, if it has. -/
def State.lookup (s : State) (n : Nat) (t : Token) (behind : Bool) (was : Option WaitWhy) (err : MemErr) :
    Look × State :=
  let set := setOf t.tag
  let s := (s.readSet n set err.set).freeStale n set
  match (s.cell n).pal.hit set t.tag with
  | some w => s.lookHit n t set w was err
  | none => s.lookMiss n t set behind was err

/-- FREE_MASK of a group (R112). -/
def Palette.freeMask (p : Palette) (group : Nat) : Nat :=
  (List.range 64).foldl (fun m i =>
    if (p.freeWay (64 * group + i) 2).isSome then m + 2 ^ i else m) 0

/-- The key of a tag, as an entry (R108). -/
def keyEntryOf (t : Tag) : Entry :=
  { node := t.node, ctx := t.ctx.toNat, gen := t.gen.toNat, iter := t.iter.toNat, bell := t.bell }

/-- Two entries have one key (R48). -/
def Entry.sameKey (a b : Entry) : Bool :=
  a.node == b.node && a.ctx == b.ctx && a.gen == b.gen && a.iter == b.iter && a.bell == b.bell

/-- A page-in of the token's key is in progress. -/
def State.pageinPending (s : State) (n : Nat) (t : Tag) : Bool :=
  (s.cellar.pageins.any fun p => p.cell == n && p.key.sameKey (keyEntryOf t)) || s.incoming n t

/-- A page-in is requested, when the cell has fewer than four in progress (R64, R116). -/
def State.askPagein (s : State) (n : Nat) (t : Tag) : State :=
  if s.pageinPending n t || decide (4 ≤ (s.cellar.pageins.filter fun p => p.cell == n).length) then s
  else
    let set := setOf t
    let r : PageIn :=
      { cell := n, set := set, key := (keyEntryOf t)
        mask := (s.cell n).pal.freeMask (set / 64), taken := false, none := false, slots := [], got := none }
    ({ s with cellar := { s.cellar with pageins := s.cellar.pageins ++ [r] } }).palBump n .pageinReq

/-- A token that must wait joins its buffer (R59, R61, R64). -/
def State.park (s : State) (n : Nat) (t : Token) : Look → State
  | .placed => s
  | .reserve =>
    ((s.modPal n fun p => { p with hold := p.hold ++ [t] }).palBumpEv n .rsvHold 0x35).trigger n
  | .wait w =>
    let s := s.modPal n fun p => { p with wait := p.wait ++ [(t, w)] }
    if w == .pagein then s.askPagein n t.tag else s

/-! ## Arrival (R52) -/

/-- The packet of a MONO token (R39, R131). -/
def monoPacketOf (t : Token) (npri : Nat) : Packet :=
  { node := t.tag.node, ctx := t.tag.ctx.toNat, gen := t.tag.gen.toNat, iter := t.tag.iter.toNat
    cls := t.tag.cls.toNat, epar := t.tag.epar, bell := t.tag.bell, npri := npri
    ppois := b2n t.tag.poison, a := some t.payload, b := none, c := none, nops := 1
    epars := if t.tag.bell then [] else [t.tag.epar] }

/-- Checks 1 to 4 of R52: the counter and cause of the first that applies, or none. -/
def Cell.arrivalCheck (c : Cell) (t : Tag) : Option (PalCtr × Option Nat) :=
  let d := c.nodes.get 0 t.node
  if !c.current t.ctx.toNat t.gen.toNat then some (.staleGen, none)
  else if !descValid d then some (.badNode, some 0x30)
  else if t.mono != (descNops d == 1) || (t.mono && t.port != 0) then some (.monoConflict, some 0x31)
  else if !(needOf (descNops d)).testBit t.port then some (.portRange, some 0x32)
  else none

/-- A check of R52 discards the token. -/
def State.failCheck (s : State) (n : Nat) (t : Token) (k : PalCtr) (cause : Option Nat) : State :=
  let s := match cause with
    | some c => s.palBumpEv n k c
    | none => s.palBump n k
  s.discardToken n t

/-- A token that a cell has taken from the fabric is handled (R52).  A MONO firing whose queue is full
waits among the firings that are ready, where the spec names no buffer and no limit (log 261). -/
def State.arrive (s : State) (n : Nat) (t : Token) (err : MemErr) : State :=
  match (s.cell n).arrivalCheck t.tag with
  | some (k, cause) => s.failCheck n t k cause
  | none =>
    let s := if t.tag.bell then s else s.tallyAdd n t.tag.ctx.toNat t.tag.epar
    if t.tag.mono then
      let p := monoPacketOf t (descNpri ((s.cell n).nodes.get 0 t.tag.node))
      (s.modPal n fun q => { q with ready := q.ready ++ [{ item := .mono p }] }).offerReady n err
    else
      let set := setOf t.tag
      let behind := (s.cell n).pal.wait.any fun w => setOf w.1.tag == set
      let (l, s) := s.lookup n t behind none err
      s.park n t l

/-- The unit is cut off (R271, R272). -/
def State.cutOff (s : State) (code : Nat) : Bool :=
  s.fabric.iso.contains code || s.fabric.fenced.contains code

/-- A token for a cut-off target is absorbed: one credit, one count (R271, R272, R28). -/
def State.absorb (s : State) (src : Nat) (t : Token) (code : Nat) : State :=
  (s.acceptFlight src t code).fabBump (if s.fabric.iso.contains code then .isoAbsorb else .fenceAbsorb)

/-- The cells a token is delivered to: both cells of the pair for class 0, but for a cell that is
cut off (R28, R69, R274). -/
def State.targets (s : State) (n : Nat) (t : Token) : List Nat :=
  if t.tag.cls = 0 then [n, n + 1].filter fun k => !s.cutOff k else [n]

/-- A token is for cell `n`: its DEST, or its pair's even cell for class 0 (R28). -/
def isForCell (t : Token) (n : Nat) : Bool :=
  decide (t.tag.dest.toNat < 0x80) &&
  (if t.tag.cls = 0 then t.tag.dest.toNat / 2 == n / 2 && n % 2 == 0 else t.tag.dest.toNat == n)

/-- What the fabric found on the token's way (R270). -/
def State.unitErr (s : State) (ue : UnitErr) : State := s.fabBump .fabricCe ue.corrected.toNat

/-- The same of a control message. -/
def State.ctlErr (s : State) (ce : BitVec 16) : State := s.unitErr { corrected := ce }

/-- A token stays at the ejection port (R59, R61). -/
def State.markHeld (s : State) (src : Nat) (t : Token) : State :=
  { s with fabric := { s.fabric with flight := s.fabric.flight.map fun f =>
      if f.src == src && f.tok == t then { f with held := true } else f } }

/-- A class 2 or 3 token finds the wait buffer full and stays there, counted once (R61). -/
def State.holdAtPort (s : State) (n src : Nat) (t : Token) : State :=
  if s.fabric.flight.any fun f => f.src == src && f.tok == t && f.held then s
  else (s.markHeld src t).palBump n .waitFull

/-! ## Waiting tokens -/

/-- A token that waits in a buffer leaves it because a check of R52 applies at its turn (log 262). -/
def State.failWaiting (s : State) (n : Nat) (t : Token) (k : PalCtr) (cause : Option Nat) : State :=
  let s := s.failCheck n t k cause
  if t.tag.bell then s else s.tallySub n t.tag.ctx.toNat t.tag.epar

/-- The first token of the hold buffer whose needs are met is placed (R59). -/
def State.holdLoop (n : Nat) (err : MemErr) : List Token → State → State
  | [], s => s
  | t :: rest, s =>
    let gone := fun (s : State) => s.modPal n fun p => { p with hold := dropFirst (· == t) p.hold }
    match (s.cell n).arrivalCheck t.tag with
    | some (k, cause) => (gone s).failWaiting n t k cause
    | none =>
      let set := setOf t.tag
      let c := s.cell n
      let okBlk := (c.pal.block t.tag.cls.toNat t.tag.len.toNat).isSome
      let okWay := (c.pal.hit set t.tag).isSome || (c.pal.freeWay set t.tag.cls.toNat).isSome
      if okBlk && okWay then
        match s.lookup n t false none err with
        | (.placed, s) => gone s
        | (_, s) => s
      else State.holdLoop n err rest s

/-- RSV_HOLD_PROCEED (R59). -/
def execRsvHoldProceed (c : Fin 128) (err : MemErr) (s : State) : Host.Outcome State Fault Refusal :=
  .next (State.holdLoop c.val err (s.cell c.val).pal.hold s)

/-- A spill of a set's group is in progress. -/
def Palette.spilling (p : Palette) (set : Nat) : Bool := p.spills.any fun x => x.group == set / 64

/-- A new lookup would take a waiting token further (R55, R60-R65): place it, or let it ask for its
page-in or for its spill. -/
def State.mayRetry (s : State) (n : Nat) (t : Token) (w : WaitWhy) : Bool :=
  let p := (s.cell n).pal
  let set := setOf t.tag
  let cls := t.tag.cls.toNat
  let blk := (p.block cls t.tag.len.toNat).isSome
  let stale := [0, 1, 2, 3].any fun k =>
    let e := p.at (4 * set + k)
    e.st == .waiting && !(s.cell n).current e.ctx e.gen && !p.copying set k
  match p.hit set t.tag with
  | some k =>
    !p.copying set k &&
    (blk || ((p.at (4 * set + k)).port t.tag.port).isSome || w != .shortSpilled && (w != .short || p.spills.isEmpty))
  | none =>
    if w == .pagein && s.pageinPending n t.tag then false
    else if !w.asked && (p.depth.get 0 set != 0 || s.incoming n t.tag) then w != .pagein
    else
      let way := (p.freeWay set cls).isSome
      stale || (way && blk) ||
      match w with
      | .pressure => p.spills.isEmpty
      | .spilled => !way && !p.spilling set
      | .blocked => !way && !p.unspillable set
      | _ => true

/-- What a lookup makes of a waiting token: it is placed and leaves the buffer, or it keeps its place
(R55). -/
def State.settle (s : State) (n : Nat) (e : Token × WaitWhy) : Look → State
  | .placed => s.modPal n fun p => { p with wait := dropFirst (· == e) p.wait }
  | .reserve => s
  | .wait v =>
    let s := s.modPal n fun p => { p with wait := p.wait.map fun x => if x == e then (e.1, v) else x }
    if v == .pagein then s.askPagein n e.1.tag else s

/-- A waiting token is looked up anew. -/
def State.retry (s : State) (n : Nat) (e : Token × WaitWhy) (err : MemErr) : State :=
  let (l, s) := s.lookup n e.1 false (some e.2) err
  s.settle n e l

/-- The earliest waiting token of its set that can go on does (R61-R65); a page-in that found no place
in progress is asked for again (R116). -/
def State.waitLoop (n : Nat) (err : MemErr) (seen : List Nat) :
    List (Token × WaitWhy) → State → State
  | [], s => s
  | (t, w) :: rest, s =>
    let set := setOf t.tag
    if seen.contains set then State.waitLoop n err seen rest s
    else
      match (s.cell n).arrivalCheck t.tag with
      | some (k, cause) =>
        (s.modPal n fun p => { p with wait := dropFirst (· == (t, w)) p.wait }).failWaiting n t k cause
      | none =>
        if s.mayRetry n t w then s.retry n (t, w) err
        else if w == .pagein && !s.pageinPending n t.tag then s.askPagein n t.tag
        else State.waitLoop n err (set :: seen) rest s

/-! ## The sweep (R66) -/

/-- The READY bells of a released life that its tally holds are freed too (R331). -/
def State.sweepBells (s : State) (n ctx gen : Nat) : State :=
  (s.cell n).pal.ready.foldl (fun s r =>
    match r.item with
    | .entry k =>
      let e := (s.cell n).pal.at k
      if e.bell && e.ctx == ctx && e.gen == gen && (s.cell n).bellHeld ctx (e.firing 0).epar true then
        (((s.modPal n fun q => { q with ready := dropFirst (fun x => x.item == r.item) q.ready }).discardEntry
          n k).palBump n .staleGen).palBump n .sweepFreed
      else s
    | .mono _ => s) s

/-- Every WAITING entry of a released life is freed and counted. -/
def State.sweepEntries (n ctx gen : Nat) : List (Nat × Entry) → State → State
  | [], s => s
  | (k, e) :: rest, s =>
    let s :=
      if e.st == .waiting && e.ctx == ctx && e.gen == gen && !((s.cell n).pal.copying (k / 4) (k % 4)) then
        ((s.discardEntry n k).palBump n .staleGen).palBump n .sweepFreed
      else s
    State.sweepEntries n ctx gen rest s

end Sys2Proof.Machine
end

