-- ==== Sys2Proof/Machine/Status.lean ====
section
/-! DEFINITION. The completion status codes (00_scope.md R7). -/

namespace Sys2Proof.Machine

abbrev stOk : Nat := 0x0000
abbrev eOpcode : Nat := 0x0001
abbrev eRange : Nat := 0x0002
abbrev eState : Nat := 0x0003
abbrev eLocked : Nat := 0x0004
abbrev ePresence : Nat := 0x0005
abbrev eBusy : Nat := 0x0006
abbrev eNoRes : Nat := 0x0007
abbrev eAlign : Nat := 0x0008
abbrev eSig : Nat := 0x0009
abbrev ePartial : Nat := 0x000A
abbrev eGuar : Nat := 0x000B
abbrev eStale : Nat := 0x000C
abbrev eTimeout : Nat := 0x000D
abbrev ePoison : Nat := 0x000E
abbrev eLantern : Nat := 0x000F

end Sys2Proof.Machine
end

