-- ==== Sys2Proof/Machine/Reeve.lean ====
section
/-! DEFINITION. The Reeve (04_reeve.md R75-R103): contexts, credit, placement, admission, release
and the yield states; and the stall detector's conditions (R124). -/

namespace Sys2Proof.Machine

/-! ## The stall detector's conditions (R124) -/

/-- Pages of the Cellar: 16,384 bytes, in two copies (R104, R105). -/
def Cellar.pageCount (c : Cellar) : Nat := c.gib * 32768

/-- A bank waits at a SEND for credit or at a context request, for a class 2 or 3 context. -/
def Bank.waits (b : Bank) : Bool :=
  match b.hdr with
  | some h => decide (2 ≤ h.cls) && (b.held || (match b.ctxReq with | some (_, none) => true | _ => false))
  | none => false

/-- C2: some class 2 or 3 token waits on a resource. -/
def State.stallC2 (s : State) : Bool :=
  (s.cells.any fun e => e.2.pal.wait != [] || e.2.p.waits || e.2.m.waits) ||
  s.fabric.flight.any fun f => f.held && decide (2 ≤ f.tok.tag.cls.toNat)

/-- The lowest-numbered FREE context of a range (R76). -/
def State.firstFree (s : State) (base count : Nat) : Option Nat :=
  ((List.range (min count (s.reeve.ctx.length + 1))).map (base + ·)).find? fun c =>
    (s.ctxOf c).st == .free

/-- A FREE number of the shared pool. -/
def State.sharedFree (s : State) : Option Nat :=
  (s.firstFree 0 0x10000).orElse fun _ => s.firstFree 0x12000 0xE000

/-- C3: the Cellar is full, or the shared pool is empty while a class 2 or 3 activation waits. -/
def State.stallC3 (s : State) : Bool :=
  s.cellar.pages.length == s.cellar.pageCount ||
  (s.sharedFree.isNone && (s.reeve.queue.get [] 2 != [] || s.reeve.queue.get [] 3 != []))

/-- The detector follows its conditions between RUN and ARMED (R124). -/
def State.stallCheck (s : State) : State :=
  match s.cellar.stall with
  | .run =>
    if s.stallC2 && s.stallC3 then
      { s with cellar := { s.cellar with stall := .armed, stallAt := s.time.now } }
    else s
  | .armed =>
    if s.stallC2 && s.stallC3 then s else { s with cellar := { s.cellar with stall := .run } }
  | .escape => s

/-- A class 2 or 3 firing reaches END: the detector returns to RUN (R124). -/
def State.stallEnd (s : State) : State :=
  match s.cellar.stall with
  | .run => s
  | .armed => ({ s with cellar := { s.cellar with stall := .run } }).stallCheck
  | .escape =>
    let t := (s.time.now - s.cellar.escapeAt) / 1000 % 2 ^ 32
    ({ s with cellar := { s.cellar with
        stall := .run, cnt := s.cellar.cnt.set 0 CellarCtr.stallTimeLast.ctorIdx t } }).stallCheck

/-! ## Arrivals at a cell (R52) -/

/-- WAIT_BUFFER_PROCEED (R61). -/
def execWaitBufferProceed (c : Fin 128) (err : MemErr) (s : State) :
    Host.Outcome State Fault Refusal :=
  .next (State.waitLoop c.val err [] (s.cell c.val).pal.wait s).stallCheck

/-! ## Gap notices (R323) -/

/-- The graph of a context's activation in a generation. -/
def State.lifeGraph (s : State) (ctx gen : Nat) : Nat :=
  let x := s.ctxOf ctx
  let h := x.graphs.get 1024 gen
  if h = 1024 then x.graph else h

/-- A unit sends a gap notice to the result writer. -/
def State.gapNotice (s : State) (k type ctx gen source count : Nat) : State :=
  let g : Gap :=
    { k := k, type := type, ctx := ctx, gen := gen, graph := s.lifeGraph ctx gen, source := source
      count := count, tFirst := s.time.t64, late := false }
  { s with writer := { s.writer with notices := s.writer.notices ++ [g] } }

/-! ## Credit (R80, R81) -/

/-- The Reeve grants a block of 64 and counts it at that moment (R80).  A cell that is granted credit for
a LIVE context without being placed is told when the context ends; of one that is not LIVE the grant
itself tells (R176, log 53). -/
def State.grantBlock (s : State) (p c g : Nat) (asked : Option Nat) (pair : Bool) : State :=
  let x := s.ctxOf c
  let foreign := asked.isNone && decide (p < 128)
  let live := x.st == .live && x.gen == g
  let new := (if pair then [p, p + 1] else [p]).filter fun n =>
    foreign && live && !x.cells.contains n && !x.creditors.contains n
  (s.modCtx c fun x => { x with
    count := x.count.upd 0 g fun n => n + 64, creditors := x.creditors ++ new }).sendCtl
      (.creditGrant p (s.cell p).cellGen.toNat c g 64 asked pair (foreign && !live))

/-- CREDIT_REQUEST: the Reeve grants a block of 64. -/
def execCreditRequest (prod : BitVec 8) (ctx : CtlCtx) (gen : Option (BitVec 4))
    (s : State) : Host.Outcome State Fault Refusal :=
  let p := prod.toNat
  let c := ctx.ctx.toNat
  let asked := gen.map (·.toNat)
  let mine := fun (m : Ctl) => match m with
    | .creditReq q d a _ => q == p && d == c && a == asked
    | _ => false
  match s.ctlNext mine with
  | some (.creditReq q d a pair) =>
    let s := (s.ctlErr ctx.ce).takeCtl (.creditReq q d a pair)
    .next (s.grantBlock p c (asked.getD (s.ctxOf c).gen) asked pair)
  | _ => .next s

/-- A hub still has a use for credit of a context and generation. -/
def State.hubUses (s : State) (code ctx gen : Nat) : Bool :=
  let mine := fun (t : Token) => t.tag.ctx.toNat == ctx && t.tag.gen.toNat == gen
  if code = 0x91 then
    s.host.running.any fun r => match r.wait with
      | .inject t => mine t
      | _ => false
  else if code < 0x98 then
    (s.chain.importWait.any fun e => e.1 == code && mine e.2)
  else
    s.ingest.ports.any fun e => e.1 / 8 == code - 0x98 &&
      e.2.wait.any fun b => b.ctx == ctx && b.gen == gen

/-- A binding or import channel of a hub feeds a context, or its primary (R438). -/
def State.hubBound (s : State) (code ctx gen : Nat) : Bool :=
  let names := fun (st : BindSt) (c g : Nat) =>
    st == .active && ((c == ctx && g == gen) || (s.ctxOf ctx).partner == some c)
  if code = 0x91 then true
  else if code < 0x98 then s.chain.imports.any fun e => names e.2.st e.2.ctx e.2.gen
  else s.ingest.binds.any fun e => e.1 / 2048 == code - 0x98 && names e.2.st e.2.ctx e.2.gen

/-- A context that a hub does not serve any more leaves it: its unspent credit returns when the hub
has no block of it left (R80, R305). -/
def State.hubLeave (s : State) (code ctx gen : Nat) : State :=
  let x := s.ctxOf ctx
  if (x.st == .live && x.gen == gen && s.hubBound code ctx gen) || s.hubUses code ctx gen then s
  else
    let n := s.creditOf code ctx gen
    (s.setCredit code ctx gen 0).returnCredit code ctx gen n

/-- The hubs that can hold credit (R80). -/
def hubCodes : List Nat :=
  [0x91, 0x94, 0x95, 0x96, 0x97, 0x98, 0x99, 0x9A, 0x9B, 0x9C, 0x9D, 0x9E, 0x9F]

/-- A firing of the context is in the cell's queues or in a bank. -/
def Cell.runs (c : Cell) (ctx gen : Nat) : Bool :=
  let mine := fun (p : Packet) => p.ctx == ctx && p.gen == gen
  (c.que.eb0 ++ c.que.eb1 ++ c.que.express).any (fun q => mine q.pkt) ||
  (match c.p.hdr with | some h => mine h | none => false) ||
  (match c.m.hdr with | some h => mine h | none => false)

/-- A firing of the cell holds at a SEND for a context's credit. -/
def Cell.awaits (c : Cell) (ctx : Nat) : Bool :=
  c.p.heldFor == some ctx || c.m.heldFor == some ctx

/-- Credit of one pool returns: that of a pair from its even cell alone (R80). -/
def State.poolReturn (s : State) (n ctx gen : Nat) (pair : Bool) (k : Nat) : State :=
  s.cellReturn n ctx gen (if pair then 0 else 1) k

/-- An uninstalled context leaves a cell when no firing of it remains there, and none holds for its
credit: its unspent credit returns (R176, log 53). -/
def State.cellLeave (s : State) (n : Nat) : State :=
  let c := s.cell n
  c.leaving.foldl (fun s e =>
    let c := s.cell n
    if c.runs e.1 e.2 || c.current e.1 e.2 || c.awaits e.1 then s
    else
      let s := [false, true].foldl (fun s pair =>
        let k := s.creditOf n (poolOf pair e.1) e.2
        (s.setCredit n (poolOf pair e.1) e.2 0).poolReturn n e.1 e.2 pair k) s
      s.modCell n fun c => { c with leaving := c.leaving.erase e }) s

/-- The generation that comes with credit for a context (R175): that of a grant that named none, else
the later one (R5). -/
def laterGen (old : Option Nat) (gen : Nat) (asked : Option Nat) : Nat :=
  match asked, old with
  | some _, some o => if (gen + 16 - o) % 16 < 8 then gen else o
  | _, _ => gen

/-- A grant reaches one cell; a port that is cut off absorbs it (R271).  Credit that comes for a
generation which has left the cell meanwhile returns at once (R176). -/
def State.takeGrant (s : State) (n : Nat) (cellGen ctx gen k : Nat) (asked : Option Nat) (pair gone : Bool) :
    State :=
  let c := s.cell n
  let pool := poolOf pair ctx
  if c.cellGen.toNat != cellGen || s.cutOff n then s
  else if asked.isSome && !(c.current ctx gen || c.runs ctx gen || c.leaving.contains (ctx, gen)) then
    (s.modCell n fun c => { c with asked := c.asked.erase (pool, asked) }).poolReturn n ctx gen pair k
  else
    s.modCell n fun c => { c with
      credit := c.credit.upd 0 (16 * pool + gen) fun v => v + k
      credGen := c.credGen.set none pool (some (laterGen (c.credGen.get none pool) gen asked))
      leaving := if gone && !c.leaving.contains (ctx, gen) then c.leaving ++ [(ctx, gen)] else c.leaving
      asked := c.asked.erase (pool, asked) }

/-- CREDIT_RETURN: a batch of up to 256 returns of one unit reaches the Reeve. -/
def execCreditReturn (unit : BitVec 8) (ctx : CtlCtx) (gen : BitVec 4) (s : State) :
    Host.Outcome State Fault Refusal :=
  let mine := fun (m : Ctl) => match m with
    | .creditReturn u c g _ => u == unit.toNat && c == ctx.ctx.toNat && g == gen.toNat
    | _ => false
  let amount := fun (m : Ctl) => match m with
    | .creditReturn _ _ _ n => n
    | _ => (0 : Nat)
  let total : Nat := ((s.fabric.ctl.filter mine).map amount).sum
  if total = 0 then .next s
  else
    let k := min total 256
    let s := { s with fabric := { s.fabric with ctl := s.fabric.ctl.filter fun m => !(mine m) } }
    let s := (s.ctlErr ctx.ce).fabStat (unitOfDest unit.toNat) .txCtl 1
    let s := s.returnCredit unit.toNat ctx.ctx.toNat gen.toNat (total - k)
    .next (s.modCtx ctx.ctx.toNat fun x => { x with count := x.count.upd 0 gen.toNat fun n => n - k })

/-! ## Load (R87) -/

/-- LOAD_REPORT: once per microsecond, the larger of the Easel's and the shared Palette's occupancy,
smoothed. -/
def execLoadReport (c : Fin 128) (s : State) : Host.Outcome State Fault Refusal :=
  let s := s.reach (s.reeve.loadAt.get 0 c.val + 1000)
  let x := s.cell c.val
  let a := x.que.easelOcc * 255 / 512
  let b := (x.pal.occ - x.pal.rsvOcc) * 255 / 7168
  let l : Int := (s.reeve.load.get (0 : Nat) c.val : Nat)
  let l := l + (((max a b : Nat) : Int) - l).tdiv 8
  .next { s with reeve := { s.reeve with
    load := s.reeve.load.set 0 c.val l.toNat, loadAt := s.reeve.loadAt.set 0 c.val s.time.now } }

/-! ## Eligibility and placement (R86, R89, R94) -/

/-- A cell of a column whose power is good, neither fenced nor isolated, and not under test. -/
def State.cellOpen (s : State) (n : Nat) : Bool :=
  !s.power.colLost.contains (n % 16) && !s.fabric.iso.contains n && !s.fabric.fenced.contains n &&
  !(s.fabric.fencing.any fun f => f.1 == n)

/-- TX_CELL that a map gives a column pair in one frame (R264). -/
def slotBudget (entry : Nat → BitVec 16) (pair : Nat) : Nat :=
  ((List.range 64).map fun i =>
    let e := entry i
    if e.extractLsb' 0 2 == 1#2 && (e.extractLsb' 2 3).toNat == pair then (e.extractLsb' 5 2).toNat
    else 0).sum

/-- One partition's needs fit on a cell beside the sums already there (R94). -/
def Needs.fits (budget : Nat) (x : Needs) (p : PartDef) (slots : Nat) : Bool :=
  decide (x.ways + p.ways ≤ 1024) && decide (x.blocks + p.blocks ≤ 512) &&
  decide (x.words + p.words ≤ 64) && decide (x.slots + slots ≤ budget)

/-- The cells that a placement of class `cls` on cell `n` occupies. -/
def placed (cls n : Nat) : List Nat := if cls = 0 then [n, n + 1] else [n]

/-- The sums with a partition placed on cell `n`; the shared router port counts its slots once. -/
def addNeeds (t : Tab Needs) (cls n : Nat) (p : PartDef) : Tab Needs :=
  (placed cls n).foldl (fun t k => t.upd {} k fun x =>
    { ways := x.ways + p.ways, blocks := x.blocks + p.blocks, words := x.words + p.words
      slots := x.slots + if k = n then p.slots else 0 }) t

/-- The sums without it. -/
def subNeeds (t : Tab Needs) (cls n : Nat) (p : PartDef) : Tab Needs :=
  (placed cls n).foldl (fun t k => t.upd {} k fun x =>
    { ways := x.ways - p.ways, blocks := x.blocks - p.blocks, words := x.words - p.words
      slots := x.slots - if k = n then p.slots else 0 }) t

/-- The conditions of R86 that a choice may leave out: code and opening, the test, the budget, the
throttle. -/
structure Rules where
  /-- That the cell holds the code and is open. -/
  open_    : Bool := true
  test     : Bool := true
  budget   : Bool := true
  throttle : Bool := true

/-- A cell holds the code of a group: no wake has invalidated it, and the CRC that it keeps is the group's
recorded one (R85). -/
def State.codeCurrent (s : State) (group n : Nat) : Bool :=
  !s.reeve.stale.contains n && (s.cell n).crc.get none group == (s.reeve.groups.get {} group).crc

/-- Cell `n`, or the pair of which it is the even cell, is eligible for a partition (R86). -/
def State.eligible (s : State) (ru : Rules) (needs : Tab Needs) (cls : Nat) (p : PartDef) (n : Nat) :
    Bool :=
  match s.groupDef p.group.val with
  | none => false
  | some g =>
    (cls != 0 || n % 2 == 0) &&
    (placed cls n).all fun k =>
      g.mask.getLsbD k && (!ru.open_ || (s.codeCurrent p.group.val k && s.cellOpen k)) &&
      (!ru.test || (s.power.cellTest.get none k).isNone) &&
      (!ru.budget || decide (2 ≤ cls) ||
        (needs.get {} k).fits (slotBudget s.fabric.slotEntry (k % 16 / 2)) p (if k = n then p.slots else 0)) &&
      (!ru.throttle || decide (cls ≤ 1) || (s.reeve.danger.get {} k).y == 0)

/-- LOAD and HOT of a cell or a pair (R87, R88). -/
def State.loadOf (s : State) (cls n : Nat) : Nat :=
  ((placed cls n).map fun k => s.reeve.load.get 0 k).foldl max 0

def State.hotAt (s : State) (cls n : Nat) : Bool := (placed cls n).any fun k => s.power.hot.contains k

/-- The lowest LOAD of a list of cells in order; the first wins a tie (R89). -/
def State.lowest (s : State) (cls : Nat) : List Nat → Option Nat
  | [] => none
  | a :: l =>
    match s.lowest cls l with
    | none => some a
    | some b => if s.loadOf cls b < s.loadOf cls a then some b else some a

/-- The choice of R89 for one partition, with whether a HOT cell was passed over. -/
def State.choose (s : State) (ru : Rules) (needs : Tab Needs) (rot cls : Nat) (avoid : List Nat)
    (p : PartDef) : Option (Nat × Bool) :=
  let order := (List.range 128).map fun i => (rot + i) % 128
  let cand := order.filter fun n => s.eligible ru needs cls p n && !avoid.contains n
  let cool := cand.filter fun n => !s.hotAt cls n
  match s.lowest cls cand, s.lowest cls cool with
  | some a, some b => some (b, s.hotAt cls a && decide (s.loadOf cls a < s.loadOf cls b))
  | some a, none => some (a, false)
  | none, _ => none

/-- A placement in progress: the cells chosen, the sums, the rotation pointers, and what R103
counts. -/
structure Placing where
  cells    : List Nat
  needs    : Tab Needs
  groups   : Tab Group
  hot      : Nat
  diverted : Bool

/-- Every partition in order (R89); `avoid` gives the cells that the shadow may not share (R438). -/
def State.placeAll (s : State) (cls : Nat) : List (PartDef × List Nat) → Placing → Option Placing
  | [], w => some w
  | (p, avoid) :: rest, w =>
    let g := w.groups.get {} p.group.val
    match s.choose {} w.needs g.rot cls avoid p with
    | none => none
    | some (n, hot) =>
      let free := s.choose { throttle := false } w.needs g.rot cls avoid p
      let div := match free with
        | some (m, _) => decide (2 ≤ cls) && (s.reeve.danger.get {} m).y != 0
        | none => false
      s.placeAll cls rest
        { cells := w.cells ++ [n]
          needs := if cls ≤ 1 then addNeeds w.needs cls n p else w.needs
          groups := w.groups.set {} p.group.val { g with rot := (n + 1) % 128 }
          hot := w.hot + b2n hot
          diverted := w.diverted || div }

/-- The first FREE number for a class (R76). -/
def State.freeNumber (s : State) (cls : Nat) : Option Nat :=
  if cls ≤ 1 then (s.firstFree 0x10000 0x2000).orElse fun _ => s.sharedFree else s.sharedFree

/-! ## Allocation (R78, R79, R91) -/

/-- One context is allocated and its installs set out. -/
def State.allocCtx (s : State) (c h : Nat) (g : GraphBody) (cells : List Nat)
    (asker : Option (Nat × Bool)) (partner : Option Nat) (shadow : Bool) : State :=
  let cls := g.cls.toNat
  let x := s.ctxOf c
  let gen := if x.ever then (x.gen + 1) % 16 else 0
  let x : Ctx :=
    { x with st := .live, cls := cls, gen := gen, ever := true, graph := h, graphs := x.graphs.set 1024 gen h, place := cells
             actSeq := s.reeve.actNext, origin := asker.isSome, bound := 0, installed := false
             sweeps := [], creditors := [], relWanted := none, partner := partner, shadow := shadow, asker := asker }
  let x := { x with acks := x.cells }
  let s := s.modCtx c fun _ => x
  let s := { s with reeve := { s.reeve with actNext := (s.reeve.actNext + 1) % 2 ^ 32 } }
  let k := if cls = 0 then ReeveCtr.alloc0 else if cls = 1 then .alloc1 else if cls = 2 then .alloc2 else .alloc3
  let s := s.reeveBump k
  let s := if 2 ≤ cls then
      { s with cellar := { s.cellar with waitDeclared := s.cellar.waitDeclared + g.peakWait.toNat } }
    else s
  x.cells.foldl (fun s n =>
    s.sendCtl (.install n (s.cell n).cellGen.toNat c gen cls h
      ((x.place.findIdx? fun m => m == n || (cls == 0 && m + 1 == n)).getD 0))) s

/-- Room under the wait cap (R121). -/
def State.underCap (s : State) (g : GraphBody) : Bool :=
  s.cellar.waitCap == 0 ||
  decide (s.cellar.waitDeclared + g.peakWait.toNat * (if g.audit then 2 else 1) ≤ s.cellar.waitCap)

/-- What the head of a queue waits for, or the contexts granted. -/
inductive Try where
  | granted (c : Nat) (s : State)
  | cap | noRoom

/-- The head activation is tried: numbers, placement of every partition, the wait cap (R93).  That of a graph
which is no longer loaded finds no room (log 270). -/
def State.tryGrant (s : State) (a : Activation) : Try :=
  match s.graph a.graph with
  | none => .noRoom
  | some g =>
    let cls := g.cls.toNat
    if 2 ≤ cls && !s.underCap g then .cap
    else
      let start : Placing :=
        { cells := [], needs := s.reeve.needs, groups := s.reeve.groups, hot := 0, diverted := false }
      match s.freeNumber cls, s.placeAll cls (g.parts.map fun p => (p, [])) start with
      | some c, some w =>
        let count := fun (s : State) (w : Placing) =>
          let s := s.reeveBump .placeHotAvoid w.hot
          let s := s.reeveBump .actThrottled (b2n w.diverted)
          { s with reeve := { s.reeve with needs := w.needs, groups := w.groups } }
        if g.audit then
          let s1 := s.modCtx c fun x => { x with st := .live }
          match s1.sharedFree,
              s.placeAll cls (g.parts.zip (w.cells.map fun n => [n])) { w with cells := [] } with
          | some c2, some w2 =>
            let s := count s w2
            let s := s.allocCtx c a.graph g w.cells a.asker (some c2) false
            .granted c (s.allocCtx c2 a.graph g w2.cells none (some c) true)
          | _, _ => .noRoom
        else .granted c ((count s w).allocCtx c a.graph g w.cells a.asker none false)
      | _, _ => .noRoom

/-- A place in a class's queue is free: the first host start that waits for one takes it (R93). -/
def State.refillQueue (s : State) (cls : Nat) : State :=
  let ofCls := fun (a : Activation) => match s.graph a.graph with
    | some g => g.cls.toNat == cls
    | none => false
  match s.reeve.waiters.find? ofCls with
  | some a =>
    { s with reeve := { s.reeve with
        waiters := s.reeve.waiters.erase a
        queue := s.reeve.queue.upd [] cls fun q => q ++ [a] } }
  | none => s

/-- The number granted is recorded with the requester, who waits for the installs (R91). -/
def State.noteGrant (s : State) (a : Activation) (c : Nat) : State :=
  match a.asker with
  | some _ => s
  | none =>
    let upd := fun (r : Running) =>
      if r.wait == .start a.graph none && r.ring == a.ring && r.t0 == a.t0
      then { r with wait := .start a.graph (some c) } else r
    { s with host := { s.host with running := s.host.running.map upd } }

/-- The lowest class whose head can be granted (R93). -/
def State.grantFrom : List Nat → State → State
  | [], s => s
  | cls :: rest, s =>
    match s.reeve.queue.get [] cls with
    | [] => State.grantFrom rest s
    | a :: q =>
      match s.tryGrant a with
      | .granted c s =>
        let s := { s with reeve := { s.reeve with queue := s.reeve.queue.set [] cls q } }
        (s.noteGrant a c).refillQueue cls
      | .cap =>
        let s := if a.counted then s
          else ({ s with reeve := { s.reeve with
            queue := s.reeve.queue.set [] cls ({ a with counted := true } :: q) } }).cellarBump .waitHold
        State.grantFrom rest s
      | .noRoom => State.grantFrom rest s

/-- ACTIVATION_GRANT (R93); a HALT has stopped admission (R421). -/
def execActivationGrant (s : State) : Host.Outcome State Fault Refusal :=
  if s.reeve.halted then .next s else .next (State.grantFrom [0, 1, 2, 3] s).stallCheck

/-! ## Install (R91, R154) -/

/-- CONTEXT_INSTALL: an install reaches a cell, which ignores one of an earlier CELL_GEN (R482). -/
def execContextInstall (c : Fin 128) (ctx : CtlCtx) (s : State) :
    Host.Outcome State Fault Refusal :=
  let n := c.val
  let pick := fun (m : Ctl) => match m with
    | .install k _ x _ _ _ _ => k == n && x == ctx.ctx.toNat
    | _ => false
  match s.ctlNext pick with
  | some (.install k cg x gen cls h part) =>
    let s := (s.ctlErr ctx.ce).takeCtl (.install k cg x gen cls h part)
    if s.fabric.iso.contains n || (s.cell n).cellGen.toNat != cg then .next s
    else
      match s.graph h with
      | none => .next s
      | some g =>
        let bs := match g.parts[part]? with
          | some p => match s.groupDef p.group.val with
            | some d => (d.bsLo.toNat, d.bsHi.toNat)
            | none => (0, 0)
          | none => (0, 0)
        let a : Attr :=
          { scratchBase := g.scratchBase, scratchLen := g.scratchLen, handler := g.handler.toNat
            bsLo := bs.1, bsHi := bs.2 }
        let s := s.modCell n fun k => { k with
          ctxs := k.ctxs.set none x (some { gen := gen, cls := cls, graph := h, part := part })
          attrs := k.attrs.set none h (some a)
          tally := (k.tally.set 0 (2 * x) 0).set 0 (2 * x + 1) 0
          auditSum := (k.auditSum.set 0 (2 * x) 0).set 0 (2 * x + 1) 0 }
        .next (s.sendCtl (.installAck n x gen))
  | _ => .next s

/-! ## Release (R78, R83) -/

/-- The bindings and import channels of a context become INACTIVE, and the hold stores lose their
blocks (R288, R293). -/
def State.endBindings (s : State) (ctx gen : Nat) : State :=
  let mine := fun (b : Binding) => b.st == .active && b.ctx == ctx && b.gen == gen
  let held := s.ingest.hold.flatMap fun e => e.2.filter fun k => k.ctx == ctx && k.gen == gen
  let s := { s with ingest := { s.ingest with
    binds := s.ingest.binds.mapV fun b =>
      if mine b then { b with st := .inactive, part := [], partBad := false } else b
    hold := (s.ingest.hold.mapV fun l => l.filter fun k => !(k.ctx == ctx && k.gen == gen)).keep
      fun _ l => l != [] } }
  let s := held.foldl (fun s k => s.bindBump k.binding .inactiveDrop) s
  { s with chain := { s.chain with imports := s.chain.imports.mapV fun b =>
      if b.st == .active && b.ctx == ctx && b.gen == gen then { b with st := .inactive } else b } }

/-- The context stops being a member of its open epochs; the Reeve notes each (R310, R323). -/
def State.endMember (s : State) (ctx gen type : Nat) : State :=
  let mine := fun (m : Member) => m.ctx == ctx && m.gen == gen && !m.closed && !m.abandoned && !m.gone
  let ks := s.writer.epochs.filter fun e => e.members.any mine
  let s := { s with writer := { s.writer with epochs := s.writer.epochs.map fun e =>
    { e with members := e.members.map fun m => if mine m then { m with gone := true } else m } } }
  ks.foldl (fun s e => s.gapNotice e.k type ctx gen 0xFFFF 0) s

/-- A page of the Cellar holds an entry of the context. -/
def State.inCellar (s : State) (ctx gen : Nat) : Bool :=
  s.cellar.pages.any fun e => match e.2 with
    | some p => p.slots.any fun x => x.2.ctx == ctx && x.2.gen == gen
    | none => false

/-- COUNT of generation GEN + 1 - 8 is zero and no token is beyond account (R43, R117). -/
def Ctx.mayFree (x : Ctx) : Bool := x.count.get 0 ((x.gen + 9) % 16) == 0 && !x.orphan

/-- A context reaches HELD, or passes straight to FREE (R78); stops complete, needs are released
(R83, R94). -/
def State.toHeld (s : State) (c : Nat) : State :=
  let x := s.ctxOf c
  let needs := match s.graph x.graph with
    | some g => if x.cls ≤ 1
        then (g.parts.zip x.place).foldl (fun t e => subNeeds t x.cls e.2 e.1) s.reeve.needs
        else s.reeve.needs
    | none => s.reeve.needs
  let s := { s with reeve := { s.reeve with needs := needs } }
  let s := s.modCtx c fun x => { x with st := if x.mayFree then .free else .held }
  let s := if x.mayFree then s else s.reeveBump .ctxHeldWait
  s.completeWhere (fun r => r.wait == .stop c) stOk

/-- The Reeve releases one context (R83); of two releases that come before its installs end, the first stands
(R102, R129). -/
def State.release1 (s : State) (c type : Nat) : State :=
  let x := s.ctxOf c
  if x.st != .live then s
  else if !x.installed then
    s.modCtx c fun x => { x with relWanted := some (x.relWanted.getD type) }
  else
    let cells := x.cells.filter fun n => !s.fabric.iso.contains n
    let s := s.modCtx c fun x => { x with st := .releasing, sweeps := cells }
    let k := if x.cls = 0 then ReeveCtr.release0 else if x.cls = 1 then .release1
      else if x.cls = 2 then .release2 else .release3
    let s := s.reeveBump k
    let peak := match s.graph x.graph with
      | some g => g.peakWait.toNat
      | none => 0
    let s := if 2 ≤ x.cls then
        { s with cellar := { s.cellar with waitDeclared := s.cellar.waitDeclared - peak } }
      else s
    let told := cells ++ x.creditors.filter fun n => !s.fabric.iso.contains n
    let s := told.foldl (fun s n => s.sendCtl (.uninstall n (s.cell n).cellGen.toNat c x.gen)) s
    let s := s.endBindings c x.gen
    let s := hubCodes.foldl (fun s h => s.hubLeave h c x.gen) s
    let s := if x.shadow then s else s.endMember c x.gen type
    let s := if 2 ≤ x.cls && s.inCellar c x.gen then
        { s with cellar := { s.cellar with purges := s.cellar.purges ++ [(c, x.gen)] } }
      else s
    if cells == [] then s.toHeld c else s

/-- A release; releasing either context of an audited activation releases both (R438). -/
def State.release (s : State) (c type : Nat) : State :=
  match (s.ctxOf c).partner with
  | some d => (s.release1 c type).release1 d type
  | none => s.release1 c type

/-- A firing receives the context it asked for (R91, R178). -/
def State.giveCtx (s : State) (asker : Nat × Bool) (h c : Nat) : State :=
  let give := fun (b : Bank) => if b.ctxReq == some (h, none) then { b with ctxReq := some (h, some c) } else b
  s.modCell asker.1 fun k => if asker.2 then { k with p := give k.p } else { k with m := give k.m }

/-- INSTALL_ACK: every install is acknowledged; bindings are written, first credit is granted, and
the request completes (R91). -/
def execInstallAck (ctx : CtlCtx) (s : State) : Host.Outcome State Fault Refusal :=
  let c := ctx.ctx.toNat
  let x := s.ctxOf c
  let wanted := x.acks.map fun n => Ctl.installAck n c x.gen
  if x.st != .live || x.installed || !(wanted.all fun m => s.fabric.ctl.contains m) then .next s
  else
    let s := wanted.foldl State.takeCtl (s.ctlErr ctx.ce)
    let s := s.modCtx c fun x => { x with installed := true, acks := [] }
    let hubs := (s.ingest.binds.filter fun e => e.2.st == .active && e.2.ctx == c).map
      fun e => 0x98 + e.1 / 256 / 8
    let cells := if x.cls = 0 then x.place.eraseDups else x.cells
    let prods := cells ++ hubs.eraseDups
    let s := prods.foldl (fun s p =>
      (s.modCtx c fun x => { x with count := x.count.upd 0 x.gen fun n => n + 64 }).sendCtl
        (.creditGrant p (s.cell p).cellGen.toNat c x.gen 64 (some x.gen) (x.cls == 0 && decide (p < 128)) false)) s
    let ready := match x.partner with
      | some d => (s.ctxOf d).installed
      | none => true
    let main := if x.shadow then x.partner.getD c else c
    let s := if ready then
        match (s.ctxOf main).asker with
        | some a => s.giveCtx a x.graph main
        | none => s.completeWhere (fun r => r.wait == .start x.graph (some main)) stOk
            (main + (s.ctxOf main).gen * 2 ^ 17)
      else s
    .next (match x.relWanted with
      | some t => s.release c t
      | none => s)

/-- CONTEXT_UNINSTALL: an uninstall reaches a cell, which starts its sweep (R66, R83). -/
def execContextUninstall (c : Fin 128) (ctx : CtlCtx) (s : State) :
    Host.Outcome State Fault Refusal :=
  let n := c.val
  let pick := fun (m : Ctl) => match m with
    | .uninstall k _ x _ => k == n && x == ctx.ctx.toNat
    | _ => false
  match s.ctlNext pick with
  | some (.uninstall k cg x gen) =>
    let s := (s.ctlErr ctx.ce).takeCtl (.uninstall k cg x gen)
    if s.fabric.iso.contains n || (s.cell n).cellGen.toNat != cg then .next s
    else
      let s := s.modCell n fun k =>
        let k := if k.current x gen then { k with ctxs := k.ctxs.set none x none } else k
        { k with
          pal := { k.pal with sweeps := k.pal.sweeps ++ [(x, gen)] }
          leaving := k.leaving ++ [(x, gen)] }
      .next (s.cellLeave n)
  | _ => .next s

/-- A cell's sweep is reported; the last one moves the context to HELD (R78). -/
def State.sweepReported (s : State) (n c gen : Nat) : State :=
  let x := s.ctxOf c
  if x.st == .releasing && x.gen == gen && x.sweeps.contains n then
    let s := s.modCtx c fun x => { x with sweeps := x.sweeps.erase n }
    if (s.ctxOf c).sweeps == [] then s.toHeld c else s
  else s

/-- SWEEP_COMPLETE (R66): the sweep of a released context ends and is reported. -/
def execSweepComplete (c : Fin 128) (ctx : BitVec 17) (gen : BitVec 4) (s : State) :
    Host.Outcome State Fault Refusal :=
  let n := c.val
  if (s.cell n).pal.sweeps.contains (ctx.toNat, gen.toNat) then
    let s := s.sweepBells n ctx.toNat gen.toNat
    let s := State.sweepEntries n ctx.toNat gen.toNat (s.cell n).pal.entries s
    let s := s.modPal n fun p => { p with sweeps := p.sweeps.erase (ctx.toNat, gen.toNat) }
    .next (s.sweepReported n ctx.toNat gen.toNat).stallCheck
  else .next s

/-- CONTEXT_FREE: a HELD context whose old count has reached zero returns to its pool (R78). -/
def execContextFree (ctx : BitVec 17) (s : State) : Host.Outcome State Fault Refusal :=
  let x := s.ctxOf ctx.toNat
  if x.st == .held && x.mayFree then
    .next (s.modCtx ctx.toNat fun x => { x with st := .free }).stallCheck
  else .next s

/-- START_WAIT_EXPIRY: a host start that has not been granted ends (R93). -/
def execStartWaitExpiry (r : Fin 64) (s : State) : Host.Outcome State Fault Refusal :=
  let pick := fun (x : Running) => x.ring == r.val && (match x.wait with | .start _ none => true | _ => false)
  match s.host.running.find? pick with
  | some x =>
    let s := s.reach (x.t0 + s.reeve.startWait)
    let mine := fun (a : Activation) => a.asker.isNone && a.ring == x.ring && a.t0 == x.t0
    let s := { s with reeve := { s.reeve with
      waiters := s.reeve.waiters.filter fun a => !(mine a)
      queue := (s.reeve.queue.mapV fun l => l.filter fun a => !(mine a)).keep fun _ l => l != [] } }
    let s := [0, 1, 2, 3].foldl (fun s k =>
      if (s.reeve.queue.get [] k).length < 256 then s.refillQueue k else s) s
    .next ((s.reeveBump .startTimeout).completeWhere (fun y => y == x) eNoRes).stallCheck
  | none => .next s

/-! ## Danger and yield (R97, R98) -/

/-- A cell's danger record changed. -/
def State.modDanger (n : Nat) (f : Danger → Danger) (s : State) : State :=
  { s with reeve := { s.reeve with danger := s.reeve.danger.upd {} n f } }

/-- GUARD_WINDOW_EXPIRY: no trigger for GUARD_WINDOW; D is deasserted. -/
def execGuardWindowExpiry (c : Fin 128) (s : State) : Host.Outcome State Fault Refusal :=
  let x := s.reeve.danger.get {} c.val
  if x.d then
    let s := s.reach (x.last + s.reeve.guardWindow)
    .next (s.modDanger c.val fun x => { x with d := false, since := s.time.now })
  else .next s

/-- YIELD_DELAY_EXPIRY: D without a break for YIELD_DELAY; THROTTLE moves to YIELD at BULK. -/
def execYieldDelayExpiry (c : Fin 128) (s : State) : Host.Outcome State Fault Refusal :=
  let x := s.reeve.danger.get {} c.val
  if x.d && x.y == 1 && decide (x.since + s.reeve.yieldDelay ≤ x.last + s.reeve.guardWindow) then
    .next ((s.reach (x.since + s.reeve.yieldDelay)).modDanger c.val fun x => { x with y := 2 })
  else .next s

/-- CALM_TIME_EXPIRY: D deasserted for CALM_TIME; THROTTLE moves to NORMAL. -/
def execCalmTimeExpiry (c : Fin 128) (s : State) : Host.Outcome State Fault Refusal :=
  let x := s.reeve.danger.get {} c.val
  if !x.d && x.y == 1 then
    .next ((s.reach (x.since + s.reeve.calmTime)).modDanger c.val fun x => { x with y := 0 })
  else .next s

end Sys2Proof.Machine
end

