-- ==== Sys2Proof/Machine/Cellar.lean ====
section
/-! DEFINITION. The Cellar engine and the stall detector (05_cellar_progress.md R104-R130): spills,
page-ins, the purge, stall escape and quarantine. -/

namespace Sys2Proof.Machine

/-! ## Pages -/

/-- Bytes behind a responder: 96 GiB in sixteen shares. -/
def respBytes : Nat := 6 * 2 ^ 30

/-- The Cellar's share of a responder (R104), at the end of its memory (log 25). -/
def cellarShare (gib : Nat) : Nat := gib * 2 ^ 30 / 16

def Cellar.used (c : Cellar) : Nat := c.pages.length

/-- The entry in a slot of a page. -/
def Page.slotAt (p : Page) (j : Nat) : Option Entry :=
  (p.slots.find? fun (e : Nat × Entry) => e.1 == j).map fun e => e.2

/-- The slots that hold entries (OCC, R107). -/
def Page.occ (p : Page) : List Nat := p.slots.map fun (e : Nat × Entry) => e.1

/-- The entry in a slot of a page by number. -/
def Cellar.slotAt (c : Cellar) (pg j : Nat) : Option Entry :=
  match c.pages.get none pg with
  | some p => p.slotAt j
  | none => none

/-- The channel of a page (R105). -/
def channelOf (page : Nat) : Nat := page % 64

/-- A channel takes new pages: neither of its pseudo-channels is under test, and its stack's share
has been scrubbed (R109, R484). -/
def State.channelOpen (s : State) (ch : Nat) : Bool :=
  (s.power.hbmTest.get none (2 * ch)).isNone && (s.power.hbmTest.get none (2 * ch + 1)).isNone &&
  !s.power.scrub.contains (ch / 16)

/-- The lowest free page of a channel. -/
def Cellar.freeIn (c : Cellar) (ch : Nat) : Option Nat :=
  ((List.range (min (c.pageCount / 64) (c.pages.length + 1))).map fun j => ch + 64 * j).find?
    fun p => (c.pages.get none p).isNone

/-- The page that the engine grants next: channels in rising order from the last, wrapping (R109). -/
def State.nextPage (s : State) : Option Nat :=
  ((List.range 64).map fun i => (s.cellar.channel + i) % 64).findSome? fun ch =>
    if s.channelOpen ch then s.cellar.freeIn ch else none

def State.modCellar (f : Cellar → Cellar) (s : State) : State := { s with cellar := f s.cellar }

/-- EV 304 when the pages in use rise to CELLAR_HIGH (R119). -/
def State.cellarMark (s : State) : State :=
  if s.cellar.highRaised then s
  else if s.cellar.high * s.cellar.pageCount ≤ s.cellar.used * 100 then
    (s.modCellar fun c => { c with highRaised := true }).postEvent 304 0x48
  else s

/-- A page is unlinked and free again (R113, R119). -/
def State.freePage (s : State) (page : Nat) : State :=
  match s.cellar.pages.get none page with
  | none => s
  | some p =>
    let s := s.modCellar fun c => { c with
      pages := c.pages.set none page none
      lists := c.lists.upd [] (32 * p.cell + p.group) fun l => l.erase page
      emptyRaised := false }
    let s := s.modCellar fun c =>
      { c with highRaised := c.highRaised && decide (c.low * c.pageCount < c.used * 100) }
    s.cellarBump .cellarFreeEv

/-- A slot leaves a page; an empty page is freed (R112, R113). -/
def State.clearSlot (s : State) (page slot : Nat) : State :=
  match s.cellar.pages.get none page with
  | none => s
  | some p =>
    let p := { p with slots := p.slots.del slot }
    let s := s.modCellar fun c => { c with pages := c.pages.set none page (some p) }
    if p.slots == [] then s.freePage page else s

/-- SPILL_DEPTH of a set (R62). -/
def State.depthAdd (s : State) (n set : Nat) : State :=
  s.modPal n fun p => { p with depth := p.depth.upd 0 set fun d => (d + 1) % 2 ^ 32 }

def State.depthSub (s : State) (n set : Nat) : State :=
  s.modPal n fun p => { p with depth := p.depth.upd 0 set fun d => d - 1 }

/-- Both copies of something in a channel are lost: the channel's fault source and EV 304 (R117,
R119). -/
def State.copyLoss (s : State) (page : Nat) : State :=
  (s.detect (192 + channelOf page / 4) 0x31 (channelOf page)).postEvent 304 0x49

/-- A read of a page's channel is served from the mirror alone: the pseudo-channel of copy 0 is under
test (R105, R129, R488). -/
def State.mirrored (s : State) (page : Nat) : Bool :=
  (s.power.hbmTest.get none (2 * channelOf page)).isSome

/-- Copy 0 cannot be read, so that copy 1 is (R117): while copy 0 is not read in any case, nothing is
retried. -/
def State.retryCopy (s : State) (page : Nat) : State :=
  if s.mirrored page then s else s.cellarBump .cellarRetry

/-- What the engine finds in a header that it reads (R117). -/
def State.headerErr (s : State) (page : Nat) : PageErr → State
  | .none => s
  | .copy0 => s.retryCopy page
  | .both => ((s.retryCopy page).cellarBump .cellarRebuild).copyLoss page

/-- What the engine finds in the headers of the pages that it reads, by page. -/
def State.headerErrs (s : State) (pages : List Nat) (errs : List (Nat × PageErr)) : State :=
  errs.foldl (fun s e => if pages.contains e.1 then s.headerErr e.1 e.2 else s) s

/-! ## Spills (R62, R111) -/

/-- The entries that a spill takes: of each set of the group without a free eligible way, and of
the pressured set, the least-recently-touched (R62). -/
def Palette.spillVictims (p : Palette) (group pressed : Nat) : List (Nat × Nat) :=
  (List.range 64).filterMap fun i =>
    let set := 64 * group + i
    if set = pressed || (p.freeWay set 2).isNone then
      (p.victims set).head?.map fun w => (set, w)
    else none

/-- The tokens that waited for the spill of a group have had it (R60, R61). -/
def Palette.hadSpill (p : Palette) (group : Nat) : Palette :=
  { p with wait := p.wait.map fun e =>
      if setOf e.1.tag / 64 != group then e
      else match e.2 with
        | .pressure => (e.1, .spilled)
        | .short => (e.1, .shortSpilled)
        | _ => e }

/-- SPILL_PAGE_GRANT: the spill of a cell starts with its page, or not at all for want of one (R63,
R111).  Without a page in a channel that may be granted the free list counts as empty (log 263), and
a group that holds nothing to spill takes no page (log 264). -/
def execSpillPageGrant (c : Fin 128) (s : State) : Host.Outcome State Fault Refusal :=
  let n := c.val
  match (s.cell n).pal.spills with
  | [] => .next s
  | sp :: rest =>
    if sp.page.isSome then .next s
    else
      let v := (s.cell n).pal.spillVictims sp.group sp.set
      match s.nextPage with
      | none =>
        let s := (s.modPal n fun p => { p with spills := rest }).cellarBump .cellarEmpty
        let s := if s.cellar.emptyRaised then s
          else (s.modCellar fun c => { c with emptyRaised := true }).postEvent 304 0x4A
        .next s.stallCheck
      | some pg =>
        let s := (s.modPal n fun p => p.hadSpill sp.group).palBump n .setPressure
        if v.isEmpty then .next (s.modPal n fun p => { p with spills := rest }).stallCheck
        else
          let page : Page :=
            { cell := n, group := sp.group, linked := false, tSpill := 0, slots := [] }
          let s := s.modCellar fun c => { c with
            pages := c.pages.set none pg (some page), channel := (channelOf pg + 1) % 64 }
          let s := (s.cellarBump .cellarGrant).cellarMark
          let s := s.modPal n fun p => { p with
            spills := { sp with victims := v, page := some pg } :: rest }
          .next ((s.palBump n .spillPages).palBump n .spillEntries v.length).stallCheck

/-- SPILL_SLOT_ACK: both copies of a slot are written; the victim's way is free (R111).  `x.err` is what
the read of the entry for its copy finds (R68). -/
def execSpillSlotAck (c : Fin 128) (x : SlotRead) (s : State) :
    Host.Outcome State Fault Refusal :=
  let n := c.val
  let slot := x.slot
  let mine := fun (s : State) => (s.cell n).pal.spills.findSome? fun sp =>
    match sp.page, sp.victims.find? fun v => v.1 % 64 == slot.val with
    | some pg, some v => if sp.acked.contains slot.val then none else some (pg, v)
    | _, _ => none
  match mine s with
  | none => .next s
  | some (_, v) =>
    let s := s.readEntry n (4 * v.1 + v.2) x.err
    -- an entry whose key is lost is no longer taken
    match mine s with
    | none => .next s
    | some (pg, (set, way)) =>
      let k := 4 * set + way
      let e := (s.cell n).pal.at k
      let s := s.modCellar fun x => { x with pages := match x.pages.get none pg with
        | some p => x.pages.set none pg (some { p with slots := p.slots.ins slot.val e })
        | none => x.pages }
      let s := s.modPal n fun p => { p.freeEntry k with
        spills := p.spills.map fun sp => { sp with acked := sp.acked ++ [slot.val] } }
      .next (s.depthAdd n set)

/-- An entry of the context with an operand of the parity. -/
def Entry.hasParity (e : Entry) (ctx gen : Nat) (epar : Bool) : Bool :=
  e.ctx == ctx && e.gen == gen && e.operands.any fun o => o.epar == epar

/-- The slots of one parity of a page are cleared (R322, R118). -/
def State.purgeParity (s : State) (ctx gen : Nat) (epar : Bool) (pg : Nat) : State :=
  match s.cellar.pages.get none pg with
  | none => s
  | some p =>
    (p.slots.filter fun e => e.2.hasParity ctx gen epar).foldl (fun s h =>
      (((s.clearSlot pg h.1).depthSub p.cell (64 * p.group + h.1)).cellarBump .purgeSlots).returnCredit
        0x90 ctx gen 1) s

/-- SPILL_LINK: every slot is acknowledged; the header is written and the page linked (R111).  What was
released or abandoned while it was written is purged from it (R118, R322). -/
def execSpillLink (c : Fin 128) (s : State) : Host.Outcome State Fault Refusal :=
  let n := c.val
  match (s.cell n).pal.spills with
  | [] => .next s
  | sp :: rest =>
    match sp.page with
    | none => .next s
    | some pg =>
      if !(sp.victims.all fun v => sp.acked.contains (v.1 % 64)) then .next s
      else
        let s := s.modPal n fun p => { p with spills := rest }
        match s.cellar.pages.get none pg with
        | none => .next s
        | some p =>
          if p.slots == [] then .next (s.freePage pg).stallCheck
          else
            let s := s.modCellar fun x => { x with
              pages := x.pages.set none pg (some { p with linked := true, tSpill := s.time.t64 })
              lists := x.lists.upd [] (32 * n + sp.group) fun l => pg :: l }
            let ended := (p.slots.map fun e => (e.2.ctx, e.2.gen)).eraseDups.filter fun k =>
              let x := s.ctxOf k.1
              !(x.st == .live && x.gen == k.2) && !s.cellar.purges.contains k
            let s := s.modCellar fun x => { x with purges := x.purges ++ ended }
            .next (sp.parities.foldl (fun s e => s.purgeParity e.1 e.2.1 e.2.2 pg) s).stallCheck

/-! ## Page-ins (R112) -/

/-- The `i`-th page-in of a cell. -/
def State.pageinAt (s : State) (n i : Nat) : Option PageIn :=
  (s.cellar.pageins.filter fun p => p.cell == n)[i]?

/-- The walk of a list: the page that holds the key, and the headers read (R112). -/
def Cellar.walk (c : Cellar) (slot : Nat) (key : Entry) : List Nat → Option Nat × Nat
  | [] => (none, 0)
  | pg :: rest =>
    let hit : Bool := match c.slotAt pg slot with
      | some e => e.sameKey key
      | none => false
    if hit then (some pg, 1)
    else
      let (r, k) := c.walk slot key rest
      (r, k + 1)

/-- The record of a page-in changed. -/
def State.setPagein (s : State) (r q : PageIn) : State :=
  s.modCellar fun x => { x with pageins := x.pageins.map fun y => if y == r then q else y }

/-- PAGEIN_REQUEST: the engine takes a request and walks its list; it waits while a spill of the
same list is being written (R112, R116, R129). -/
def execPageinRequest (c : Fin 128) (i : Fin 4) (err : List (Nat × PageErr)) (s : State) :
    Host.Outcome State Fault Refusal :=
  let n := c.val
  match s.pageinAt n i.val with
  | none => .next s
  | some r =>
    let busy := decide (16 ≤ (s.cellar.pageins.filter fun p => p.taken).length)
    let writing := (s.cell n).pal.spills.any fun sp => sp.page.isSome && sp.group == r.set / 64
    if r.taken || busy || writing then .next s
    else
      let l := s.cellar.lists.get [] (32 * n + r.set / 64)
      let (pg, k) := s.cellar.walk (r.set % 64) r.key l
      let s := (s.headerErrs (l.take k) err).cellarBump .headerWalk k
      let r2 : PageIn := match pg with
        | none => { r with taken := true, none := true }
        | some p =>
          let held := match s.cellar.pages.get none p with
            | some x => x.slots
            | none => []
          let extra := (held.filter fun e => e.1 != r.set % 64 && r.mask.testBit e.1).take 8
          { r with taken := true
                   slots := (p, r.set % 64, r.key) :: extra.map fun e => (p, e.1, e.2) }
      .next (s.setPagein r r2)

/-- A page-in ends. -/
def State.dropPagein (s : State) (r : PageIn) : State :=
  s.modCellar fun x => { x with pageins := x.pageins.erase r }

/-- A page-in goes on, or ends when it has nothing left to do. -/
def State.nextPagein (s : State) (r q : PageIn) : State :=
  if q.slots.isEmpty && q.got.isNone then s.dropPagein r else s.setPagein r q

/-- Waiting tokens of a key are told that the Cellar holds none (R64). -/
def State.toldNone (s : State) (n : Nat) (key : Entry) : State :=
  s.modPal n fun p => { p with wait := p.wait.map fun e =>
    if e.2 == .pagein && key.sameKey (keyEntryOf e.1.tag) then (e.1, .missed) else e }

/-- PAGEIN_NONE: the engine answers "none" (R112, R64). -/
def execPageinNone (c : Fin 128) (i : Fin 4) (s : State) : Host.Outcome State Fault Refusal :=
  match s.pageinAt c.val i.val with
  | none => .next s
  | some r =>
    if r.taken && r.none then
      .next ((s.dropPagein r).toldNone c.val r.key |>.cellarBump .pageinNone)
    else .next s

/-- A restored entry takes a way and its blocks, with SPILLED on every operand (R64, R112). -/
def State.restore (s : State) (n set way : Nat) (e : Entry) : State :=
  let put := fun (e : Entry) (p : Nat) => match e.port p with
    | some o => e.setPort p (some { o with spilled := true
                                           blk := if o.len ≤ 1 then .none else .shared })
    | none => e
  let e := put (put (put e 0) 1) 2
  let s := s.modPal n fun p => e.operands.foldl (fun p o => p.takeBlk o.blk)
    (({ p with entries := p.entries.set {} (4 * set + way) e }).touch set way)
  s.palBump n .spilledIn

/-- The waiting tokens of a key are applied in arrival order to the entry that has come back (R64,
R65, R73); each keeps its place while it must go on waiting (R55). -/
def State.applyWaiting (s : State) (n : Nat) (key : Entry) (mem : MemErr) : State :=
  let l := (s.cell n).pal.wait.filter fun e => key.sameKey (keyEntryOf e.1.tag)
  (l.foldl (fun (a : State × MemErr) e =>
    let s := a.1
    match (s.cell n).arrivalCheck e.1.tag with
    | some (k, cause) =>
      ((s.modPal n fun p => { p with wait := dropFirst (· == e) p.wait }).failWaiting n e.1 k cause, a.2)
    | none =>
      if ((s.cell n).pal.hit (setOf e.1.tag) e.1.tag).isSome then (s.retry n e a.2, .none) else a) (s, mem)).1

/-- An entry that came back for a life no longer installed is discarded (R40, R112). -/
def State.dropRestored (s : State) (n : Nat) (e : Entry) : State :=
  let s := (s.cellReturn n e.ctx e.gen e.cls e.operands.length).palBump n .staleGen
  if e.bell then s else e.operands.foldl (fun s o => s.tallySub n e.ctx o.epar) s

/-- Poison of an operand whose payload block is lost in both copies (R117). -/
def Entry.poisonAt (e : Entry) (p : Nat) : Entry :=
  match e.port p with
  | some o => e.setPort p (some { o with poison := true })
  | none => e

/-- The shared blocks that an entry needs (R59). -/
def Entry.blocks (e : Entry) : Nat := (e.operands.filter fun o => decide (2 ≤ o.len)).length

/-- An accepted entry takes a way and its blocks once its set and the pool have them, and the tokens
that wait for its key are applied to it (R64, R73, R112). -/
def State.landPagein (s : State) (n : Nat) (r : PageIn) (mem : MemErr) : State :=
  match r.got with
  | none => s
  | some (set, e, _) =>
    if !(s.cell n).current e.ctx e.gen then
      (s.nextPagein r { r with got := none }).dropRestored n e
    else match (s.cell n).pal.freeWay set 2 with
      | none => s
      | some w =>
        if 3584 < (s.cell n).pal.shBlocks + e.blocks then s
        else
          let s := (s.nextPagein r { r with got := none }).restore n set w e
          s.applyWaiting n e mem

/-- The next slot of a page-in reaches the cell, which accepts or refuses it (R112, R117).  The slot
with the requested key is always accepted; an entry that finds the pool without its blocks has asked for
one in vain (R74). -/
def State.takeSlotOf (s : State) (n : Nat) (r : PageIn) (err : SlotErr) (mem : MemErr) : State :=
  match r.slots with
  | [] => s
  | (pg, slot, key) :: rest =>
    let next := { r with slots := rest }
    let wanted := key.sameKey r.key
    let set := 64 * (r.set / 64) + slot
    let mine : Bool := match s.cellar.pages.get none pg with
      | some p => p.linked && p.cell == n && p.group == r.set / 64
      | none => false
    match (s.cellar.slotAt pg slot).filter fun e => mine && e.sameKey key with
    | none =>
      -- the slot has gone to another page-in or to a purge: for the requested key the engine walks anew
      if wanted then s.setPagein r { r with taken := false, slots := [] } else s.nextPagein r next
    | some e =>
      let s1 := match err with
        | .none => s
        | .copy0 => s.retryCopy pg
        | .record => ((s.retryCopy pg).cellarBump .cellarOrphan).copyLoss pg
        | .blocks _ => (s.retryCopy pg).copyLoss pg
      if err == .record then
        let s := ((s1.clearSlot pg slot).depthSub n set).orphan e.ctx
        (if wanted then s.toldNone n r.key else s).nextPagein r next
      else if !wanted && ((s.cell n).pal.freeWay set 2).isNone then s1.nextPagein r next
      else
        let e := match err with
          | .blocks m => ([0, 1, 2].filter m.getLsbD).foldl Entry.poisonAt e
          | _ => e
        let s := ((s1.clearSlot pg slot).depthSub n set).cellarBump
          (if wanted then .pageinServed else .pageinExtra)
        let q := { next with got := some (set, e, wanted) }
        let s := s.setPagein r q
        let short := (s.cell n).current e.ctx e.gen && decide (3584 < (s.cell n).pal.shBlocks + e.blocks)
        (if short then s.palBump n .poolEmpty else s).landPagein n q mem

/-- PAGEIN_RETURN: a slot reaches the cell, or the entry that it has accepted takes its place. -/
def execPageinReturn (c : Fin 128) (i : Fin 4) (err : PageinErr) (s : State) :
    Host.Outcome State Fault Refusal :=
  match s.pageinAt c.val i.val with
  | none => .next s
  | some r => .next (if r.got.isSome then s.landPagein c.val r err.mem
      else s.takeSlotOf c.val r err.slot err.mem).stallCheck

/-! ## The purge (R118) -/

/-- The matching slots of a page are cleared. -/
def State.purgePage (s : State) (pg ctx gen : Nat) : State :=
  match s.cellar.pages.get none pg with
  | none => s
  | some p =>
    let hits := p.slots.filter fun e => e.2.ctx == ctx && e.2.gen == gen
    hits.foldl (fun s h =>
      let e := h.2
      let s := ((s.clearSlot pg h.1).depthSub p.cell (64 * p.group + h.1)).cellarBump .purgeSlots
      let s := s.returnCredit 0x90 ctx gen 1
      if e.bell then s else e.operands.foldl (fun s o => s.tallySub p.cell ctx o.epar) s) s

/-- CELLAR_PURGE: the oldest purge runs over every linked page (R118); `err` is what it finds in the
headers that it reads, by page. -/
def execCellarPurge (err : List (Nat × PageErr)) (s : State) : Host.Outcome State Fault Refusal :=
  match s.cellar.purges with
  | [] => .next s
  | (ctx, gen) :: rest =>
    let all := s.cellar.lists.flatMap (·.2)
    let pgs := all.filter fun pg => match s.cellar.pages.get none pg with
      | some p => p.slots.any fun e => e.2.ctx == ctx && e.2.gen == gen
      | none => false
    let s := (s.modCellar fun x => { x with purges := rest }).headerErrs all err
    .next (pgs.foldl (fun s pg => s.purgePage pg ctx gen) s).stallCheck

/-! ## Stall escape (R124-R127) -/

/-- A context that stall escape may abort (R125). -/
def State.candidate (s : State) (c : Nat) (x : Ctx) : Bool :=
  x.st == .live && decide (2 ≤ x.cls) &&
  (x.count.get 0 x.gen != 0 ||
   s.cells.any fun e =>
     let held := fun (b : Bank) => b.waits && (match b.hdr with
       | some h => h.ctx == c && h.gen == x.gen
       | none => false)
     held e.2.p || held e.2.m)

/-- Class 3 before class 2, then the youngest, then the higher number (R125). -/
def betterVictim (next : Nat) (a b : Nat × Ctx) : Bool :=
  let age := fun (x : Ctx) => (next + 2 ^ 32 - x.actSeq) % 2 ^ 32
  if a.2.cls != b.2.cls then decide (b.2.cls < a.2.cls)
  else if age a.2 != age b.2 then decide (age a.2 < age b.2)
  else decide (b.1 < a.1)

def State.victim (s : State) : Option (Nat × Ctx) :=
  (s.reeve.ctx.filter fun e => s.candidate e.1 e.2).foldl (fun best e =>
    match best with
    | none => some e
    | some b => if betterVictim s.reeve.actNext e b then some e else some b) none

/-- A context is aborted (R126). -/
def State.abortCtx (s : State) (c : Nat) : State :=
  let x := s.ctxOf c
  let s := (s.release c 0x02).cellarBump .contextAborted
  s.postEvent 305 0x52 (c + x.graph * 2 ^ 17 + b2n x.origin * 2 ^ 27)

/-- Pending activations of a graph leave their queues: a host start ends with E_STATE, and a firing
finds its request refused when it issues again (R127). -/
def State.refusePending (s : State) (h : Nat) : State :=
  let s := { s with reeve := { s.reeve with
    waiters := s.reeve.waiters.filter fun a => a.graph != h
    queue := (s.reeve.queue.mapV fun l => l.filter fun a => a.graph != h).keep fun _ l => l != [] } }
  let clear := fun (b : Bank) => if b.ctxReq == some (h, none) then { b with ctxReq := none } else b
  let s := { s with cells := s.cells.mapV fun c => { c with p := clear c.p, m := clear c.m } }
  s.completeWhere (fun r => r.wait == .start h none) eState

/-- A graph is quarantined (R127). -/
def State.quarantine (s : State) (h : Nat) : State :=
  let live := (s.reeve.ctx.filter fun e => e.2.st == .live && e.2.graph == h).map (·.1)
  let s := s.modCellar fun c => { c with quarantined := c.quarantined ++ [h] }
  let s := live.foldl (fun s c => if (s.ctxOf c).st == .live then s.abortCtx c else s) s
  let s := (s.refusePending h).cellarBump .graphQuarantine
  s.postEvent 305 0x53 h

/-- The next candidate is aborted, and the graph quarantined when its count is reached (R125-R127). -/
def State.abortNext (s : State) : State :=
  match s.victim with
  | none => (s.cellarBump .stallNoCandidate).postEvent 305 0x51
  | some (c, x) =>
    let s := s.abortCtx c
    let recent := (s.cellar.aborts.get [] x.graph).filter fun t =>
      decide (s.time.now < t + s.cellar.quarWindow)
    let times := recent ++ [s.time.now]
    let s := s.modCellar fun k => { k with aborts := k.aborts.set [] x.graph times }
    if s.cellar.quarCount != 0 && decide (s.cellar.quarCount ≤ times.length) &&
        !s.cellar.quarantined.contains x.graph then
      s.quarantine x.graph
    else s

/-- STALL_TIMER_EXPIRY (R124): the 50 us timer of the detector expires. -/
def execStallTimerExpiry (s : State) : Host.Outcome State Fault Refusal :=
  let again := fun (s : State) => s.modCellar fun c => { c with stallAt := s.time.now }
  let rest := fun (s : State) => s.modCellar fun c => { c with stall := .run }
  match s.cellar.stall with
  | .run => .next s
  | .armed =>
    let s := s.reach (s.cellar.stallAt + 50000)
    if s.stallC2 && s.stallC3 then
      let s := s.modCellar fun c => { c with stall := .escape, escapeAt := s.time.now }
      .next (again ((s.cellarBump .stallDeclared).postEvent 305 0x50).abortNext)
    else .next (rest s)
  | .escape =>
    let s := s.reach (s.cellar.stallAt + 50000)
    if s.stallC2 && s.stallC3 then .next (again s.abortNext) else .next (rest s)

/-- AGE_SWEEP (R126): every age is kept within the window of R5. -/
def execAgeSweep (s : State) : Host.Outcome State Fault Refusal :=
  let next := s.reeve.actNext
  let clamp := fun (x : Ctx) =>
    if x.st == .live && decide (2 ^ 30 < (next + 2 ^ 32 - x.actSeq) % 2 ^ 32)
    then { x with actSeq := (next + 2 ^ 32 - 2 ^ 30) % 2 ^ 32 } else x
  .next { s with reeve := { s.reeve with ctx := s.reeve.ctx.mapV clamp } }

end Sys2Proof.Machine
end

