-- ==== Sys2Proof/Machine/Fabric.lean ====
section
/-! DEFINITION. The fabric and the memory responders (10_fabric.md R252-R275): slots and the G
allowance, regions, appends, header errors and isolation. -/

namespace Sys2Proof.Machine

def State.modFabric (f : Fabric → Fabric) (s : State) : State := { s with fabric := f s.fabric }

/-! ## Slots and the G allowance (R261-R264) -/

/-- The G allowance of an initiator in the quarter of slot `slot` (R264). -/
def Fabric.allowance (f : Fabric) (code : Nat) : Nat :=
  let q := f.slot / 16
  ((List.range 16).map fun i =>
    let e := f.slotEntry (16 * q + i)
    if e.extractLsb' 0 2 == 1#2 && (e.extractLsb' 2 3).toNat == columnPair code then
      (if code < 128 then (e.extractLsb' 5 2).toNat else (e.extractLsb' 7 2).toNat)
    else 0).sum

/-- A G transaction may be injected now (R264); an isolated unit injects nothing (R271). -/
def State.gRoom (s : State) (src : Nat) (t : Token) : Bool :=
  !s.fabric.iso.contains src &&
  ((t.header src).loopback || decide (s.fabric.spent.get 0 src < s.fabric.allowance src))

/-- A G transaction is injected and spends its allowance (R264). -/
def State.injectG (s : State) (src : Nat) (t : Token) (pair : Bool) : State :=
  let s := if (t.header src).loopback then s
    else s.modFabric fun f => { f with spent := f.spent.upd 0 src fun n => n + 1 }
  s.inject src t pair

/-- Held G transactions are injected while allowance remains, each initiator's in order (R264), at the
time `at_`. -/
def State.injectHeld (at_ : Nat) : List (Flit × Nat) → State → State
  | [], s => s
  | (f, t) :: rest, s =>
    let earlier := match s.fabric.gHold.find? fun e => e.1.src == f.src with
      | some e => e.1 == f && e.2 == t
      | none => false
    let s :=
      if earlier && s.gRoom f.src f.tok then
        let s := s.modFabric fun x => { x with gHold := dropFirst (· == (f, t)) x.gHold }
        ((s.injectG f.src f.tok f.pair).fabStat f.src .injHoldNs (at_ - t)).fabStat f.src .injHoldMax (at_ - t)
      else s
    State.injectHeld at_ rest s

/-- An accepted map takes force (R263). -/
def State.applyMap (s : State) : State :=
  match s.fabric.pendMap with
  | some m =>
    let map := (List.range 64).foldl (fun t i =>
      let e := m.getD i 0#16
      if e = defaultSlot i then t.del i else Tab.set none t i (some e)) s.fabric.slotMap
    (s.modFabric fun f => { f with slotMap := map, pendMap := none }).fabBump .slotMapApplied
  | none => s

/-- The slot in force has moved its units and ends; the slot that starts at T64 `t` begins (R261): slot 0
with an accepted map (R263), a quarter with the allowances anew, the cell before an edge tile (R264,
R274). -/
def State.slotTurn (t : BitVec 64) (s : State) : State :=
  let slot := t.toNat / 25 % 64
  let at_ := s.time.now - (s.time.t64 - t).toNat
  let s := s.modFabric fun f =>
    { f.runSlot (f.slotEntry f.slot) slotIntervals with slot := slot, slotT := t, slotAt := at_ }
  let s := if slot = 0 then s.applyMap else s
  if slot % 16 = 0 then
    let s := s.modFabric fun f => { f with spent := [] }
    let cell := fun (e : Flit × Nat) => decide (e.1.src < 0x80)
    State.injectHeld at_ (s.fabric.gHold.filter cell ++ s.fabric.gHold.filter fun e => !cell e) s
  else s

/-- Slots begin one after another. -/
def State.slotTurns : Nat → BitVec 64 → State → State
  | 0, _, s => s
  | n + 1, t, s => State.slotTurns n (t + 25) (s.slotTurn t)

/-- Slots that T64 has begun after the one in force (R261). -/
def State.slotsDue (s : State) : Nat :=
  let e := s.fabric.slotT + 25
  if later 64 e.toNat s.time.t64.toNat then 0 else (s.time.t64 - e).toNat / 25 + 1

/-- The fabric comes to the slot of T64.  After enough slots nothing but their number changes: what can
move has moved, and two frames have begun. -/
def State.slotSync (s : State) : State :=
  let n := s.slotsDue
  let f := s.fabric
  let enough := 2 * (f.net.length + f.gHold.length) + 64 * (f.gHold.length + 2)
  let s := State.slotTurns (min n enough) (f.slotT + 25) s
  if n ≤ enough then s
  else
    let t := s.time.t64.toNat / 25 * 25
    s.modFabric fun f => { f with
      slot := t / 25 % 64, slotT := BitVec.ofNat 64 t, slotAt := s.time.now - (s.time.t64.toNat - t) }

/-- T64 has stepped (R261): the slot in force ends at the next boundary, or at the one after where it would
last less than 20 ns. -/
def State.realign (s : State) : State :=
  let t := s.time.t64.toNat / 25 * 25
  let short := decide ((s.time.now - s.fabric.slotAt) + (t + 25 - s.time.t64.toNat) < 20)
  s.modFabric fun f => { f with slotT := BitVec.ofNat 64 (if short then t + 25 else t) }

/-- A token is offered at an injection port: a G transaction without allowance waits there (R264).
The port of an isolated unit refuses it, and it never leaves (R271). -/
def State.offerToken (s : State) (src : Nat) (t : Token) (pair : Bool := false) : State :=
  let hold := fun (s : State) => s.modFabric fun f => { f with
    gHold := f.gHold ++ [(({ src := src, tok := t, pair := pair } : Flit), s.time.now)] }
  if s.fabric.iso.contains src then (hold s).orphan t.tag.ctx.toNat
  else if !t.isG then s.inject src t pair
  else
    let s := s.slotSync
    if s.gRoom src t && !(s.fabric.gHold.any fun e => e.1.src == src) then s.injectG src t pair
    else (hold s).fabStat src .gAllowHold 1

/-- The next slot begins (R261). -/
def State.slotBegin (s : State) : State :=
  let s := s.slotSync
  (s.reachT64 (s.fabric.slotT.toNat + 25)).slotSync

/-! ## Memory responders (R266-R268) -/

def State.respAt (s : State) (j : Nat) : Responder := s.fabric.resp.get {} j

def State.modResp (j : Nat) (f : Responder → Responder) (s : State) : State :=
  s.modFabric fun x => { x with resp := x.resp.upd {} j f }

/-- The Cellar's region of each responder, at the end of its memory (R104, R266, log 23). -/
def State.layCellar (s : State) : State :=
  let n := cellarShare s.cellar.gib
  (List.range 16).foldl (fun s j => s.modResp j fun r => { r with
    regions := r.regions.set {} 0xFFE { valid := true, base := respBytes - n, length := n } }) s

/-- Bytes of a responder's memory. -/
def Responder.read (r : Responder) (a n : Nat) : List Byte :=
  (List.range n).map fun i => r.mem.get 0 (a + i)

/-- Bytes written. -/
def Responder.write (r : Responder) (a : Nat) (l : List Byte) : Responder :=
  { r with mem := (l.zip (List.range l.length)).foldl (fun m e => m.set 0 (a + e.2) e.1) r.mem }

/-- The 64-byte lines of a range. -/
def linesOf (a n : Nat) : List Nat := if n = 0 then [] else (List.range ((a + n - 1) / 64 - a / 64 + 1)).map fun i => a / 64 + i

/-- A line of the range is marked poisoned. -/
def Responder.isPoisoned (r : Responder) (a n : Nat) : Bool :=
  (linesOf a n).any fun l => r.poison.contains l

/-- The lines of a range are marked poisoned. -/
def Responder.mark (r : Responder) (a n : Nat) : Responder :=
  { r with poison := (linesOf a n).foldl (fun p l => if p.contains l then p else p ++ [l]) r.poison }

/-- The lines that a clean write covers whole lose their marks (R267). -/
def Responder.unmark (r : Responder) (a n : Nat) : Responder :=
  { r with poison := r.poison.filter fun l => !(decide (a ≤ 64 * l) && decide (64 * l + 64 ≤ a + n)) }

/-- Why a request is refused (R267): its reason code, or none. -/
def Responder.refusal (r : Responder) (q : Req) : Option Nat :=
  let g := r.regions.get {} (q.handle % 4096)
  if !g.valid || g.append then some 0x01
  else if (match g.owner with | some o => q.graph != o | none => q.graph != 0x3FF) then some 0x02
  else if g.length < q.offset + q.bytes then some 0x03
  else none

/-- A request is carried out (R267). -/
def State.serve (s : State) (q : Req) (ue : UnitErr) : RspKind × State :=
  let j := q.handle / 4096
  let r := s.respAt j
  match r.refusal q with
  | some c => (.rerr c, s)
  | none =>
    let a := (r.regions.get {} (q.handle % 4096)).base + q.offset
    if q.write then
      if q.dry then (.wack, s)
      else
        let bad := q.upois || ue.data
        (.wack, s.modResp j fun r =>
          let r := r.write a q.data
          if bad then r.mark a q.bytes else r.unmark a q.bytes)
    else if r.isPoisoned a q.bytes then (.rpois, s)
    else (.rdata (r.read a q.bytes), s)

/-- The responses of one responder to one initiator (R258). -/
def Rsp.ahead (r x : Rsp) : Bool :=
  x.req.src == r.req.src && x.req.handle / 4096 == r.req.handle / 4096 && x.req.pair == r.req.pair

/-- The requests of one initiator for one responder that have not reached it (R258). -/
def Req.ahead (q x : Req) : Bool :=
  x.src == q.src && x.handle / 4096 == q.handle / 4096 && x.pair == q.pair && !x.served && !x.lost

/-- A request may reach its responder: the first of its initiator (R258), when the port grants it (R260). -/
def State.reqNext (s : State) (q : Req) : Bool :=
  s.fabric.reqs.find? q.ahead == some q && s.mayExit q.header .req

/-- REGION_REQUEST (R267): a request reaches its responder and is answered; an isolated responder's
router answers RPOIS (R271).  One that the timeout has ended for its requester is answered too (R269). -/
def execRegionRequest (src : BitVec 8) (xid : BitVec 32) (ue : UnitErr) (s : State) :
    Host.Outcome State Fault Refusal :=
  let mine := fun (q : Req) => q.src == src.toNat && q.xid == xid.toNat && !q.served && !q.lost
  match s.fabric.reqs.find? mine with
  | none => .next s
  | some q =>
    if !s.reqNext q then .next s
    else
      let s := (s.unitErr ue).land q.header .req
      let (k, s) := if s.cutOff (0x80 + q.handle / 4096) then (RspKind.rpois, s) else s.serve q ue
      let r : Rsp := { req := { q with served := true }, kind := k }
      let s := s.modFabric fun f => { f with
        reqs := if q.ended then f.reqs.erase q else f.reqs.map fun x => if x == q then r.req else x
        rsps := f.rsps ++ [r] }
      .next (s.launch r.header .rsp false)

/-- A region request sets out (R255, R269): it takes the initiator's next XID.  The port of an
isolated unit refuses it (R271), and it ends under the timeout. -/
def State.sendReq (s : State) (q : Req) : State :=
  let x := s.fabric.xid.get 0 q.src
  let q := { q with xid := x, t0 := s.time.now, lost := q.lost || s.fabric.iso.contains q.src }
  let s := s.modFabric fun f => { f with
    xid := f.xid.set 0 q.src ((x + 1) % 2 ^ 32), reqs := f.reqs ++ [q] }
  if q.lost then s else (s.launch q.header .req q.pair).fabStat q.src .reqIssued 1

/-! ## Appends (R268) -/

/-- A record is appended to a region (R268). -/
def Responder.appendRec (r : Responder) (h : Nat) (g : Region) (l : List Byte) (bad : Bool) :
    Responder :=
  let n := l.length
  let wrap := decide (g.length < g.ptr + n)
  let r := if wrap then r.write (g.base + g.ptr) (List.replicate (g.length - g.ptr) 0) else r
  let o := if wrap then 0 else g.ptr
  let r := r.write (g.base + o) l
  let r := if bad then r.mark (g.base + o) n else r
  { r with regions := r.regions.set {} h { g with ptr := (o + n) % g.length } }

/-- The record of a token: its tag and its payload, padded to a multiple of 8 bytes (R268). -/
def recordOf (t : Token) : List Byte :=
  let l := leBytes 8 t.tag.pack.toNat ++ wordsToBytes t.payload
  l ++ List.replicate ((8 - l.length % 8) % 8) 0

/-- The endpoint takes a token; a history append of an ingest hub carries no credit (R295). -/
def State.endpointTake (s : State) (src : Nat) (t : Token) (unit : Nat) : State :=
  if 0x98 ≤ src && decide (unit < 0x90) then s.takeFlight src t else s.acceptFlight src t unit

/-- A token for a cut-off endpoint is absorbed (R271). -/
def State.endpointAbsorb (s : State) (src : Nat) (t : Token) (unit : Nat) : State :=
  (s.endpointTake src t unit).fabBump (if s.fabric.iso.contains unit then .isoAbsorb else .fenceAbsorb)

/-- APPEND_TOKEN (R268): a token reaches a memory responder. -/
def execAppendToken (j : Fin 16) (src : BitVec 8) (t : Token) (ue : UnitErr) (s : State) :
    Host.Outcome State Fault Refusal :=
  let code := 0x80 + j.val
  if t.tag.dest.toNat != code || !s.arrivable src.toNat t then .next s
  else
    let s := s.unitErr ue
    if s.cutOff code then .next (s.endpointAbsorb src.toNat t code)
    else
      let s := s.endpointTake src.toNat t code
      let t := t.after ue
      let h := t.tag.esel.toNat
      let g := (s.respAt j.val).regions.get {} (h % 4096)
      if h / 4096 == j.val && g.valid && g.append then
        .next (s.modResp j.val fun r => r.appendRec (h % 4096) g (recordOf t) t.tag.poison)
      else
        let s := s.modFabric fun f => { f with appendBad := f.appendBad.bump j.val }
        if (s.respAt j.val).badRaised then .next s
        else .next ((s.modResp j.val fun r => { r with badRaised := true }).postEvent (288 + j.val) 0x40)

/-! ## Errors and isolation (R270, R271) -/

/-- A transaction's header may stand in a router: the `i`-th of its initiator, destination, VN and lane. -/
def State.standsIn (s : State) (router : Nat) (h : Header) (c : Chan) (i : Nat) : Bool :=
  (s.fabric.routersOf (h.transit c false 0) i).contains router

/-- A router discards it (R270). -/
def State.discard (h : Header) (c : Chan) (i router : Nat) (s : State) : State :=
  ((s.modFabric fun f => f.discard (h.transit c false 0) i).fabBump .fabricUe).detect 228 0x48 router

/-- FABRIC_HEADER_ERROR (R270): a router on its route discards a transaction whose header is bad or
malformed.  A lost control message is sent again by its sender, whose receiver knows repeats by number
(R256). -/
def execFabricHeaderError (router : Fin 128) (lost : Lost) (s : State) :
    Host.Outcome State Fault Refusal :=
  let r := router.val
  match lost with
  | .token src t =>
    let h := t.header src.toNat
    let l := s.fabric.flight.filter fun f => f.src == src.toNat && f.tok.way == t.way
    let i := l.findIdx fun f => f.tok == t
    if s.standsIn r h t.chan i then
      let s := s.modFabric fun f => { f with
        flight := dropFirst (fun x => x.src == src.toNat && x.tok == t) f.flight }
      .next ((s.discard h t.chan i r).orphan t.tag.ctx.toNat)
    else .next s
  | .req src xid =>
    match s.fabric.reqs.find? fun q => q.src == src.toNat && q.xid == xid.toNat && !q.served && !q.lost with
    | some q =>
      let i := (s.fabric.reqs.filter q.ahead).findIdx (· == q)
      if s.standsIn r q.header .req i then
        let s := s.modFabric fun f => { f with
          reqs := if q.ended then f.reqs.erase q
            else f.reqs.map fun x => if x == q then { q with lost := true } else x
          lateXids := f.lateXids.erase (q.src, q.xid) }
        .next (s.discard q.header .req i r)
      else .next s
    | none => .next s
  | .rsp src xid =>
    match s.fabric.rsps.find? fun x => x.req.src == src.toNat && x.req.xid == xid.toNat with
    | some x =>
      let i := (s.fabric.rsps.filter x.ahead).findIdx (· == x)
      if s.standsIn r x.header .rsp i then
        let s := s.modFabric fun f => { f with
          rsps := f.rsps.erase x
          reqs := f.reqs.map fun q =>
            if q.src == src.toNat && q.xid == xid.toNat then { q with lost := true } else q
          lateXids := f.lateXids.erase (src.toNat, xid.toNat) }
        .next (s.discard x.header .rsp i r)
      else .next s
    | none => .next s
  | .ctl m =>
    let l := s.fabric.ctl.filter fun x => !x.isReturn && ctlSrc x == ctlSrc m && ctlDest x == ctlDest m
    let i := l.findIdx (· == m)
    if s.standsIn r m.header .ctl i then
      let s := s.modFabric fun f => { f with ctl := f.ctl.erase m }
      .next ((s.discard m.header .ctl i r).sendCtl m)
    else .next s

/-- Every context that has a token inside a cell. -/
def Cell.holding (c : Cell) : List Nat :=
  let q := (c.que.eb0 ++ c.que.eb1 ++ c.que.express).map fun e => e.pkt.ctx
  let p := c.pal.entries.map fun e => e.2.ctx
  let w := (c.pal.wait.map fun e => e.1.tag.ctx.toNat) ++ c.pal.hold.map fun t => t.tag.ctx.toNat
  let b := (c.p.hdr.toList ++ c.m.hdr.toList).map (·.ctx)
  (q ++ p ++ w ++ b).eraseDups

/-- The Reeve is told that a cell is isolated: it waits neither for its sweeps nor for its installs
(R271). -/
def State.tellReeve (s : State) (n : Nat) : State :=
  let cs := s.reeve.ctx.map (·.1)
  cs.foldl (fun s c =>
    let x := s.ctxOf c
    let s := s.modCtx c fun x => { x with acks := x.acks.erase n }
    s.sweepReported n c x.gen) s

/-! ## Pair ports out of service (R436) -/

/-- A cell is fenced, isolated or under self-test (R436); a cell that drains still serves (R486). -/
def State.cellOut (s : State) (n : Nat) : Bool :=
  s.cutOff n ||
  match s.power.cellTest.get none n with
  | some t => t.st != .draining
  | none => false

/-- The pair cannot work as a pair: a cell of it is fenced, isolated or under self-test (R436). -/
def State.pairHalf (s : State) (k : Nat) : Bool := s.cellOut (2 * k) || s.cellOut (2 * k + 1)

/-- PAIR_DISCARD counts a transfer once (R436): the copy of the cell that is in service, or of the
even cell when neither is. -/
def State.halfCounts (s : State) (n : Nat) : Bool :=
  if s.cellOut n then n % 2 == 0 && s.cellOut (n + 1) else true

def State.pairPort (s : State) (k : Nat) : PairPort := s.watch.pairs.get {} k

def State.modPair (s : State) (k : Nat) (f : PairPort → PairPort) : State :=
  { s with watch := { s.watch with pairs := s.watch.pairs.upd {} k f } }

/-- A request that the port discards: its cell has no answer until the timeout (R269, R436). -/
def State.pairLost (s : State) (n : Nat) (o : Offered) : State :=
  match o.xfer with
  | .token _ => s
  | .req h g m w off d up =>
    s.sendReq
      { src := n, xid := 0, handle := h, graph := g, bytes := m, write := w, offset := off, data := d
        upois := up, dry := false, t0 := 0, express := o.express, opId := o.opId, peer := none
        pair := true, served := false, lost := true }

/-- A list of copies is discarded. -/
def State.pairDrop (s : State) (n : Nat) (l : List Offered) : State :=
  l.foldl (fun s o => s.pairLost n o) s

/-- The pair's service is judged again (R436): held transfers are discarded, each counted once, and
HALF begins or ends. -/
def State.halfCheck (s : State) (k : Nat) : State :=
  if s.pairHalf k then
    let p := s.pairPort k
    let s := s.watchBump .pairDiscard (max p.even.length p.odd.length)
    let s := s.modPair k fun p => { p with even := [], odd := [] }
    let s := (s.pairDrop (2 * k) p.even).pairDrop (2 * k + 1) p.odd
    s.detect k 0x05
  else s.endLevel k 0x05

/-- A target is isolated (R271): it is cut off, its tokens are lost, and the happening is raised. -/
def State.isolate (s : State) (code : Nat) : State :=
  if s.fabric.iso.contains code then s
  else
    let s := s.modFabric fun f => { f with iso := f.iso ++ [code] }
    let s := (s.fabric.gHold.filter fun e => e.1.src == code).foldl (fun s e =>
      s.orphan e.1.tok.tag.ctx.toNat) s
    let s := if code < 128 then
        let s := (s.cell code).holding.foldl (fun s c => s.orphan c) s
        ((s.tellReeve code).postEvent (64 + code) 0x38).halfCheck (code / 2)
      else if code < 0x90 then s.postEvent (288 + (code - 0x80)) 0x38
      else s
    s.detect 229 0x49 code

/-- The ports that a unit's arrivals leave the mesh through (R252, R18). -/
def portsFor (code : Nat) : List (Nat × Port) :=
  if code < 0x80 then [(code, .eject), (code / 2 * 2, .pair)] else [attachOf (unitOfDest code)]

/-- A transaction that has come to a unit's port, or is on its way there, and that the unit does not hold
by backpressure (R271). -/
def State.waitsFor (s : State) (code : Nat) : Option Transit :=
  s.fabric.net.find? fun t => (portsFor code).contains (t.dst, t.exit) && s.fabric.unheld t.dst t.exit t.chan

/-- DEAD_TIME_EXPIRY (R271): a unit has waited DEAD_TIME, 10 us, at a target without a liveness pulse. -/
def execDeadTimeExpiry (target : BitVec 8) (s : State) : Host.Outcome State Fault Refusal :=
  match s.waitsFor target.toNat with
  | some t => .next ((s.reach (t.t0 + 10000)).isolate target.toNat)
  | none => .next s

end Sys2Proof.Machine
end

