-- ==== Sys2Proof/Machine/Operands.lean ====
section
/-! DEFINITION. The instruction words of Gheing: the formats (08_gheing_reference.md R193), the word
of each instruction, and which words are instructions at all (R194-R229). -/

namespace Sys2Proof.Machine

/-! ## The formats (R193) -/

def wordT (op : BitVec 6) (rd ra rb rc : BitVec 5) (fn : BitVec 6) : Word :=
  op ++ rd ++ ra ++ rb ++ rc ++ fn

def wordI (op : BitVec 6) (rd ra : BitVec 5) (imm : BitVec 16) : Word := op ++ rd ++ ra ++ imm

def wordB (op : BitVec 6) (ra rb : BitVec 5) (target : BitVec 14) : Word :=
  op ++ ra ++ rb ++ 0#2 ++ target

def wordL (op : BitVec 6) (count : BitVec 12) (le : BitVec 14) : Word := op ++ count ++ le

def wordM (op : BitVec 6) (rt ra : BitVec 5) (sz : BitVec 3) (sgn : Bool) (off : BitVec 12) : Word :=
  op ++ rt ++ ra ++ sz ++ BitVec.ofBool sgn ++ off

def wordV (op : BitVec 6) (vd va vb vc : BitVec 4) (ty : BitVec 2) (fn : BitVec 8) : Word :=
  op ++ vd ++ va ++ vb ++ vc ++ ty ++ fn

/-- The VLANE layout. -/
def wordLane (g : BitVec 5) (v lane : BitVec 4) (ty : BitVec 2) (fn : BitVec 8) : Word :=
  0x2A#6 ++ g ++ v ++ lane ++ 0#3 ++ ty ++ fn

/-- The LREG layout. -/
def wordLreg (g : BitVec 5) (n : BitVec 2) (sel : LoopReg) (dir : Bool) : Word :=
  0x1A#6 ++ g ++ n ++ BitVec.ofNat 2 sel.ctorIdx ++ BitVec.ofBool dir ++ 0#16

def wordS (op : BitVec 6) (dest : BitVec 8) (port : BitVec 2) (len : BitVec 3) (mono : Bool)
    (itsel : BitVec 2) (src nr : BitVec 5) : Word :=
  op ++ dest ++ port ++ len ++ BitVec.ofBool mono ++ itsel ++ src ++ nr

/-- The privileged layout: SR in [15:6]. -/
def wordPriv (rd ra : BitVec 5) (sr : BitVec 10) (fn : BitVec 6) : Word :=
  0x3E#6 ++ rd ++ ra ++ sr ++ fn

/-- REP: W in FN[7:6], NE in FN[8] (R211). -/
def wordRep (rd ra rb : BitVec 5) (w : BitVec 2) (ne : Bool) (fn : BitVec 6) : Word :=
  0x03#6 ++ rd ++ ra ++ rb ++ 0#2 ++ BitVec.ofBool ne ++ w ++ fn

/-- FPS: P in FN[5] (R204). -/
def wordF (rd ra rb rc : BitVec 5) (p : Bool) (fn : BitVec 5) : Word :=
  0x02#6 ++ rd ++ ra ++ rb ++ rc ++ BitVec.ofBool p ++ fn

/-! ## Which words are instructions (R194) -/

/-- A format X instruction takes two words (R193). -/
def isX (w : Word) : Bool := w.extractLsb' 26 6 == 0x31#6 || w.extractLsb' 26 6 == 0x38#6

/-- A compare-and-branch, jump or jump-and-link (R164). -/
def isBranch (w : Word) : Bool := w.extractLsb' 29 3 == 0b010#3

/-- Words of an instruction. -/
def wordsOf (w : Word) : Nat := if isX w then 2 else 1

/-- A field of a word that must hold zero. -/
def z (w hi lo : Nat) : Bool := field w hi lo == 0

def legalInt (w : Nat) : Bool :=
  let fn := field w 5 0
  decide (1 ≤ fn) && fn != 7 && decide (fn ≤ 0x1F) &&
  ((decide (0x14 ≤ fn) && decide (fn ≤ 0x17)) || z w 10 6) &&
  (!(decide (0x18 ≤ fn) && decide (fn ≤ 0x1D)) || z w 15 11) &&
  (!(fn == 0x18 || fn == 0x19) || (field w 25 21 % 2 == 0 && field w 25 21 != 0))

def legalMuldiv (w : Nat) : Bool :=
  let fn := field w 5 0
  decide (1 ≤ fn) && fn != 7 && decide (fn ≤ 0x0F) && z w 10 6

/-- Floating-point operations of one operand (R204, R216). -/
def fpUnary (fn : Nat) : Bool :=
  fn == 0x05 || fn == 0x0B || fn == 0x0C || (decide (0x11 ≤ fn) && decide (fn ≤ 0x16)) || fn == 0x18

/-- Fused operations, which have a third operand. -/
def fpFused (fn : Nat) : Bool := decide (6 ≤ fn) && decide (fn ≤ 8)

def legalFps (w : Nat) : Bool :=
  let fn := field w 4 0
  decide (1 ≤ fn) && decide (fn ≤ 0x17) && (fpFused fn || z w 10 6) && (!fpUnary fn || z w 15 11)

def legalRep (w : Nat) : Bool :=
  let fn := field w 5 0
  decide (1 ≤ fn) && decide (fn ≤ 4) && z w 10 9 && (fn == 3 || z w 8 6)

/-- EXTU, EXTS, INS: pos + w at most 64 (R200). -/
def legalField (w : Nat) : Bool := z w 15 12 && decide (field w 5 0 + field w 11 6 + 1 ≤ 64)

def legalScratch (w : Nat) (store seq : Bool) : Bool :=
  let sz := field w 15 13
  decide (sz ≤ 4) && (!(store || decide (3 ≤ sz)) || z w 12 12) &&
  (sz != 4 || (z w 25 25 && !seq))

def legalRegion (w : Nat) (store seq : Bool) : Bool := legalScratch w store seq && z w 6 0

def legalVfp (w : Nat) : Bool :=
  let fn := field w 7 0
  let ty := field w 9 8
  decide (1 ≤ fn) && decide (fn ≤ 0x18) &&
  (if fn == 0x14 || fn == 0x15 then decide (2 ≤ ty) else decide (ty ≤ 1)) &&
  (fpFused fn || z w 13 10) && (!fpUnary fn || z w 17 14)

def legalVint (w : Nat) : Bool :=
  let fn := field w 7 0
  let ty := field w 9 8
  [1, 2, 3, 4, 5, 6, 8, 9, 0x0A, 0x0C, 0x0E, 0x0F, 0x10, 0x11, 0x14, 0x15, 0x16].contains fn &&
  ([3, 4, 5, 6, 0x14, 0x15, 0x16].contains fn || decide (2 ≤ ty)) &&
  (fn == 0x15 || z w 13 10) && (fn != 0x14 || z w 17 14)

def legalVlane (w : Nat) : Bool :=
  let fn := field w 7 0
  decide (1 ≤ fn) && decide (fn ≤ 3) && z w 12 10 && (fn != 1 || z w 16 13) &&
  (field w 8 8 == 0 || z w 16 16)

def legalVspec (w : Nat) : Bool :=
  let fn := field w 7 0
  decide (1 ≤ fn) && decide (fn ≤ 3) && z w 9 9 && z w 13 10

/-- SEND and SENDI: a v-register above 15 (R224). -/
def legalSrc (w : Nat) : Bool :=
  let len := field w 15 13
  !(decide (2 ≤ len) && decide (len ≤ 4)) || z w 9 9

def legalSendi (w w2 : Nat) : Bool :=
  legalSrc w && z w2 12 0 && (field w 11 10 == 3 || z w2 17 13)

def legalXop (w : Nat) : Bool :=
  let fn := field w 15 0
  decide (1 ≤ fn) && decide (fn ≤ 6) && (decide (3 ≤ fn) || z w 20 16)

def legalSys (w : Nat) (seq : Bool) : Bool :=
  match field w 5 0 with
  | 0x01 | 0x04 => z w 25 6
  | 0x02 | 0x03 => z w 25 6 && !seq
  | 0x05 => z w 15 6
  | 0x06 => z w 20 6
  | 0x07 => z w 20 16 && z w 10 6 && decide (field w 15 11 ≤ if seq then 3 else 2)
  | 0x08 => z w 25 21 && z w 15 6
  | 0x09 => z w 25 21 && z w 15 6 && !seq
  | _ => false

/-- The system registers of R229. -/
def isSr (n : Nat) : Bool := [0, 1, 2, 3, 4, 8, 9, 0x10, 0x11, 0x20].contains n

def legalPriv (w : Nat) : Bool :=
  match field w 5 0 with
  | 0x01 => isSr (field w 15 6) && z w 20 16
  | 0x02 => isSr (field w 15 6) && z w 25 21
  | 0x03 | 0x08 => z w 25 6
  | 0x04 | 0x05 | 0x06 | 0x07 => z w 25 21 && z w 15 6
  | _ => false

/-- The word, with the one after it, is an instruction of the mode (R194-R229). -/
def legal (seq : Bool) (w w2 : Word) : Bool :=
  let n := w.toNat
  match field n 31 26 with
  | 0x00 => legalInt n
  | 0x01 => legalMuldiv n
  | 0x02 => legalFps n
  | 0x03 => legalRep n
  | 0x04 | 0x05 | 0x06 | 0x07 | 0x08 | 0x09 => true
  | 0x0A => z n 15 8
  | 0x0B => z n 20 16
  | 0x0C | 0x0D | 0x0E => legalField n
  | 0x0F => z n 25 21 && (z n 20 16 || z n 15 0)
  | 0x10 | 0x11 | 0x12 | 0x13 | 0x14 | 0x15 => z n 15 14
  | 0x16 => z n 20 14
  | 0x17 => z n 15 0
  | 0x18 => z n 20 14
  | 0x19 => true
  | 0x1A => z n 15 0 && field n 18 17 != 3
  | 0x20 => legalScratch n false seq
  | 0x21 => legalScratch n true seq
  | 0x22 => legalRegion n false seq
  | 0x23 => legalRegion n true seq
  | 0x28 => legalVfp n && !seq
  | 0x29 => legalVint n && !seq
  | 0x2A => legalVlane n && !seq
  | 0x2B => legalVspec n && !seq
  | 0x30 => legalSrc n && !seq
  | 0x31 => legalSendi n w2.toNat && !seq
  | 0x32 => legalSys n seq
  | 0x33 => z n 20 10 && !seq
  | 0x38 => legalXop n
  | 0x3E => seq && legalPriv n
  | _ => false

end Sys2Proof.Machine
end

