-- ==== Sys2Proof/Machine/Engine.lean ====
section
/-! DEFINITION. The block engine (07_block_engine.md): registers, issue under the distance gate,
loops, completion, write-back in program order, exceptions and the end of a firing.  The Steward
runs the same engine in its sequential mode (R189). -/

namespace Sys2Proof.Machine

/-! ## Registers of a bank -/

/-- g[n]; g0 reads zero (R195, R199). -/
def Regs.gr (r : Regs) (n : Nat) : BitVec 64 := if n = 0 then 0 else r.g.get 0 n

/-- A write of g[n]; a write of g0 is discarded (R195). -/
def Regs.setG (r : Regs) (n : Nat) (v : BitVec 64) : Regs :=
  if n = 0 then r else { r with g := r.g.set 0 n v }

def Regs.vr (r : Regs) (n : Nat) : BitVec 512 := r.v.get 0 n
def Regs.setV (r : Regs) (n : Nat) (v : BitVec 512) : Regs := { r with v := r.v.set 0 n v }

/-- RM, CT and FTE in force (R159). -/
def Regs.rm (r : Regs) : Nat := (r.mode.extractLsb' 0 3).toNat
def Regs.ct (r : Regs) : Bool := r.mode.getLsbD 3
def Regs.fte (r : Regs) : Nat := (r.mode.extractLsb' 4 5).toNat

/-- A result written. -/
def Dest.apply (d : Dest) (r : Regs) : Regs :=
  match d with
  | .g n y => r.setG n y
  | .v n y => r.setV n y
  | .ls n y => { r with ls := r.ls.set 0 n y }
  | .le n y => { r with le := r.le.set 0 n y }
  | .lc n y => { r with lc := r.lc.set 0 n y }
  | .fss f => { r with fss := r.fss ||| f }
  | .poisoned => { r with poisoned := true }

/-- The register that a result names, FSS and POISONED apart, which accumulate. -/
def Dest.sameReg : Dest → Dest → Bool
  | .g a _, .g b _ => a == b && a != 0
  | .v a _, .v b _ => a == b
  | .ls a _, .ls b _ => a == b
  | .le a _, .le b _ => a == b
  | .lc a _, .lc b _ => a == b
  | _, _ => false

/-- The same register with a free value (R163). -/
def Dest.freed (fresh : Nat) : Dest → Dest
  | .g n _ => .g n (Config.freeValue fresh)
  | .v n _ => .v n (Config.freeVector fresh)
  | .ls n _ => .ls n ((Config.freeValue fresh).toNat % 2 ^ 32)
  | .le n _ => .le n ((Config.freeValue fresh).toNat % 2 ^ 32)
  | .lc n _ => .lc n ((Config.freeValue fresh).toNat % 2 ^ 32)
  | d => d

/-- BSTAT (R159). -/
def bstat (r : Regs) (bell express : Bool) : Nat :=
  r.mode.toNat + r.fss.toNat * 2 ^ 9 + r.ldepth * 2 ^ 14 + b2n bell * 2 ^ 17 +
  b2n express * 2 ^ 18 + b2n r.poisoned * 2 ^ 19 + b2n r.inHandler * 2 ^ 20

/-! ## Engines and banks -/

def isSeq : Engine → Bool
  | .steward => true
  | .cell _ => false

/-- A word of an engine's code: 1 in a block store, 4 bytes in sequential mode (R167). -/
def unitOf (e : Engine) : Nat := if isSeq e then 4 else 1

def State.bank (s : State) (e : Engine) (x : Bool) : Bank :=
  match e with
  | .steward => s.steward.bank
  | .cell n => if x then (s.cell n.val).p else (s.cell n.val).m

def State.modBank (s : State) (e : Engine) (x : Bool) (f : Bank → Bank) : State :=
  match e with
  | .steward => { s with steward := { s.steward with bank := f s.steward.bank } }
  | .cell n => s.modCell n.val fun c => if x then { c with p := f c.p } else { c with m := f c.m }

/-! ## Arithmetic cores (R232, R233) -/

/-- The iterative cores of the shared arithmetic units (R232). -/
inductive Core where
  | mul | div | vdiv
  deriving DecidableEq, Repr

/-- The iterative core that an instruction needs. -/
def coreOf (w : Word) : Option Core :=
  let fn := field w.toNat 5 0
  match field w.toNat 31 26 with
  | 0x01 => some (if fn < 8 then .mul else .div)
  | 0x02 => if field w.toNat 4 0 = 4 || field w.toNat 4 0 = 5 then some .div else none
  | 0x28 => if field w.toNat 7 0 = 4 || field w.toNat 7 0 = 5 then some .vdiv else none
  | _ => none

/-- A multiply, divide, floating-point or vector operation (R180). -/
def arith (w : Word) : Bool :=
  match field w.toNat 31 26 with
  | 0x01 | 0x02 | 0x28 | 0x29 | 0x2A | 0x2B => true
  | _ => false

/-- An operation whose unit has not finished it: an exception that has been found is at distance 1. -/
def Op.working (o : Op) : Bool :=
  o.d != some 1 && match o.kind with
    | .result _ => true
    | .trap .. => true
    | _ => false

/-- The unit of an operation begins it as it enters (R232): a core that is busy lets it wait, and an MTSR
waits for its distance. -/
def Op.begins (o : Op) (busy : Core → Bool) : Bool :=
  match o.kind, coreOf o.word with
  | .sysWrite .., _ => false
  | _, none => true
  | _, some c => o.working && !busy c

/-- The operations of a bank that a core has or that wait for it, oldest first: squashed ones stay there
(R251). -/
def Bank.core (b : Bank) (c : Core) : List Op :=
  (b.ghosts ++ b.ops).filter fun o => coreOf o.word == some c && o.working

/-- The core begins an operation. -/
def Bank.beginOp (b : Bank) (c : Core) (n : Nat) : Bank :=
  let go := fun (o : Op) =>
    if o.n == n && coreOf o.word == some c && o.working then { o with begun := true } else o
  { b with ops := b.ops.map go, ghosts := b.ghosts.map go }

/-- A free core takes the oldest operation of bank P, otherwise of bank M (R232); one that is in an
operation goes on with it. -/
def State.feedCore (s : State) (e : Engine) (c : Core) : State :=
  let p := (s.bank e true).core c
  let m := (s.bank e false).core c
  if (p ++ m).any (·.begun) then s
  else match p, m with
    | o :: _, _ => s.modBank e true fun b => b.beginOp c o.n
    | [], o :: _ => s.modBank e false fun b => b.beginOp c o.n
    | [], [] => s

/-- The core of an instruction is fed. -/
def State.feedFor (s : State) (e : Engine) (w : Word) : State :=
  match coreOf w with
  | some c => s.feedCore e c
  | none => s

/-- An engine counter: the Steward keeps none (R192). -/
def State.exBump (s : State) (e : Engine) (k : EngCtr) (m : Nat := 1) : State :=
  match e with
  | .steward => s
  | .cell n => s.engBump n.val k m

/-- Which bank may issue (R144, R156, R520): bank P while an express firing runs; bank M unless an
express packet is visible, but for a delay slot. -/
def State.running (s : State) : Engine → Option Bool
  | .steward => if s.watch.stewardHeld || s.steward.halted then none else some false
  | .cell n =>
    let c := s.cell n.val
    if c.dbg.stopped then none
    else if c.p.hdr.isSome then some true
    else if c.m.hdr.isSome && (c.que.express.isEmpty || c.m.regs.slot.isSome) then some false
    else none

/-- The distance gate (R161): some earlier operation is not finished and the next instruction
stands at its distance or beyond; and nothing issues after END. -/
def Bank.gated (b : Bank) : Bool :=
  b.ops.any fun o => o.kind == .endFiring ||
    match o.d with
    | some d => decide (d ≤ b.n - o.n)
    | none => false

/-- The code of an engine: the word at an index (R155), or at a byte address through the Steward's
instruction cache (R189). -/
def State.codeWord (s : State) (e : Engine) (pc : Nat) : Word :=
  match e with
  | .cell n => (s.cell n.val).code.get 0 pc
  | .steward =>
    match s.steward.icache.find? fun l => l.1 == pc / 64 with
    | some l => BitVec.ofNat 32 (leAt l.2 (pc % 64) 4)
    | none => BitVec.ofNat 32 (ofLE ((List.range 4).map fun i => s.steward.mem.get 0 (pc + i)))

/-! ## Operand landing (R139, R157) -/

/-- Registers that an instruction names: v-register or g-register, and the number. -/
def named (w w2 : Word) : List (Bool × Nat) :=
  let n := w.toNat
  let g := fun (hi lo : Nat) => (false, field n hi lo)
  let v := fun (hi lo : Nat) => (true, field n hi lo)
  match field n 31 26 with
  | 0x00 | 0x01 | 0x02 | 0x03 => [g 25 21, g 20 16, g 15 11, g 10 6]
  | 0x04 | 0x05 | 0x06 | 0x07 | 0x08 | 0x09 | 0x0A | 0x0B | 0x0C | 0x0D | 0x0E | 0x0F | 0x38 =>
    [g 25 21, g 20 16]
  | 0x10 | 0x11 | 0x12 | 0x13 | 0x14 | 0x15 | 0x17 => [g 25 21, g 20 16]
  | 0x16 | 0x18 | 0x1A | 0x33 => [g 25 21]
  | 0x20 | 0x21 => [if field n 15 13 = 4 then v 24 21 else g 25 21, g 20 16]
  | 0x22 | 0x23 => [if field n 15 13 = 4 then v 24 21 else g 25 21, g 20 16, g 11 7]
  | 0x28 | 0x29 | 0x2B => [v 25 22, v 21 18, v 17 14, v 13 10]
  | 0x2A => [g 25 21, v 20 17]
  | 0x30 => [g 4 0, if 2 ≤ field n 15 13 then v 8 5 else g 9 5]
  | 0x31 => [g 4 0, if 2 ≤ field n 15 13 then v 8 5 else g 9 5, (false, field w2.toNat 17 13)]
  | 0x32 => if field n 5 0 = 5 then [] else [g 25 21, g 20 16]
  | _ => []

/-- Queue words of the operands of a packet, after the header: A, B, C (R132). -/
def Packet.portWords (p : Packet) : List Nat :=
  [operandWords true p.a, operandWords false p.b, operandWords false p.c]

/-- How many words may still be unlanded once port `k` (1 to 3) has landed. -/
def Packet.after (p : Packet) (k : Nat) : Nat := (p.portWords.drop k).sum

/-- The ports of the packet's words that a mask names, the first word after the header at bit 0. -/
def Packet.portsOf (p : Packet) (words : Nat) : Nat :=
  let a := p.portWords.getD 0 0
  let b := p.portWords.getD 1 0
  let c := p.portWords.getD 2 0
  b2n (words % 2 ^ a != 0) + 2 * b2n (words / 2 ^ a % 2 ^ b != 0) + 4 * b2n (words / 2 ^ (a + b) % 2 ^ c != 0)

/-- Words land until `u` are left (R139).  One with a parity error sets the PPOIS bit of its port and
poisons the firing (R140). -/
def Bank.land (b : Bank) (u : Nat) : Bank :=
  match b.hdr with
  | none => b
  | some p =>
    let got := 2 ^ (p.words - 1 - u)
    let bad := b.badWords.toNat % got
    let b := { b with unlanded := u, badWords := BitVec.ofNat 12 (b.badWords.toNat - bad) }
    if bad = 0 then b
    else { b with
      hdr := some { p with ppois := p.ppois ||| p.portsOf bad }
      regs := { b.regs with poisoned := true }
      ops := b.ops.map fun o => { o with snap := { o.snap with poisoned := true } } }

/-- The landing hold: the instruction waits for the landing registers that it names. -/
def Bank.landFor (b : Bank) (w w2 : Word) : Bank :=
  match b.hdr with
  | none => b
  | some p =>
    let ks := (named w w2).map (·.2)
    b.land (([1, 2, 3].filter ks.contains).foldl (fun u k => min u (p.after k)) b.unlanded)

/-- The words of a port that have landed. -/
def Packet.landed (p : Packet) (unlanded k : Nat) : Nat :=
  p.portWords.getD (k - 1) 0 - (unlanded - p.after k)

/-- A DROPR waits for its write-back. -/
def Bank.dropping (b : Bank) : Bool :=
  b.ops.any fun o => match o.kind with
    | .dropped .. => true
    | _ => false

/-- The queue counts the words that have landed with a parity error since `was` (R140), and gets a
packet's words back once the last has landed or been dropped (R139). -/
def State.freeLanded (s : State) (e : Engine) (x : Bool) (was : Nat) : State :=
  match e with
  | .steward => s
  | .cell n =>
    let b := s.bank e x
    let s := s.queBump n.val .easelPe (was - popCount 12 b.badWords.toNat)
    let held := if x then (s.cell n.val).que.xHeld else (s.cell n.val).que.eHeld
    if b.unlanded == 0 && held != 0 && !b.dropping then
      s.modCell n.val fun c => { c with que := c.que.release x }
    else s

/-- The low lanes of a v-register that `k` queue words fill; the others zero. -/
def lowLanes (v : BitVec 512) (k : Nat) : BitVec 512 := BitVec.ofNat 512 (v.toNat % 2 ^ (128 * k))

/-- DROPR (R139): the unlanded words are dropped and the registers that they would have filled read
zero. -/
def Bank.dropRest (b : Bank) : Bank :=
  match b.hdr with
  | none => b
  | some p =>
    let r := [1, 2, 3].foldl (fun (r : Regs) k =>
      if p.after k < b.unlanded then
        let l := p.landed b.unlanded k
        let r := r.setV k (lowLanes (r.vr k) l)
        if l = 0 then r.setG k 0 else r
      else r) b.regs
    { b with regs := r, unlanded := 0, badWords := 0 }

/-! ## Sequencing (R164-R168) -/

/-- The loop logic of level k = LDEPTH - 1 (R167). -/
def Regs.loopLogic (r : Regs) (exit : Nat) : Regs :=
  let k := r.ldepth - 1
  if 1 < r.lc.get 0 k then
    { r with lc := r.lc.set 0 k (r.lc.get 0 k - 1), pc := r.ls.get 0 k }
  else { r with lc := r.lc.set 0 k 0, ldepth := k, pc := exit }

/-- A taken branch closes, from the innermost, the levels whose range excludes its target (R168). -/
def Regs.closeFor (t : Nat) : Nat → Regs → Regs
  | 0, r => r
  | n + 1, r =>
    let k := r.ldepth - 1
    if r.ldepth = 0 || (decide (r.ls.get 0 k ≤ t) && decide (t ≤ r.le.get 0 k)) then r
    else Regs.closeFor t n { r with ldepth := k }

/-- The exit index of a level whose last instruction is at `le` (R167). -/
def exitIndex (code : Nat → Word) (u le : Nat) : Nat :=
  let nxt := le + u * wordsOf (code le)
  if isBranch (code le) then nxt + u * wordsOf (code nxt) else nxt

/-- The instruction at `pc` of `len` words has issued: where the bank goes on (R164, R167, R168).
A branch does not come here; its delay slot does. -/
def Regs.finish (code : Nat → Word) (u len : Nat) (r : Regs) : Regs :=
  let nxt := r.pc + u * len
  let k := r.ldepth - 1
  let on := !r.inHandler && decide (0 < r.ldepth)
  let force := r.resumeLvl == some k
  let r0 := { r with resumeLvl := none }
  let logic := fun (natural : Bool) =>
    { r0 with slot := none }.loopLogic (if natural then nxt else exitIndex code u (r.le.get 0 k))
  match r.slot with
  | some br =>
    match br.target with
    | some t =>
      let r1 := { r0 with slot := none, pc := t }
      if r.inHandler then r1 else r1.closeFor t 4
    | none =>
      let natural := br.idx == r.le.get 0 k || r.pc == r.le.get 0 k
      if on && (natural || force) then logic natural else { r0 with slot := none, pc := nxt }
  | none =>
    let natural := r.pc == r.le.get 0 k
    if on && (natural || force) then logic natural else { r0 with pc := nxt }

/-! ## The instruction that issues -/

/-- What the meaning of an instruction sees. -/
structure Ex where
  e    : Engine
  x    : Bool
  at_  : At
  w    : Word
  len  : Nat
  /-- The bank before the instruction. -/
  b    : Bank
  /-- The registers with the mode that the next instruction has (R185). -/
  base : Regs
  code : Nat → Word

def Ex.r (x : Ex) : Regs := x.b.regs
def Ex.seq (x : Ex) : Bool := isSeq x.e
def Ex.g (x : Ex) (n : BitVec 5) : BitVec 64 := x.r.gr n.toNat
def Ex.v (x : Ex) (n : BitVec 4) : BitVec 512 := x.r.vr n.toNat
def Ex.u (x : Ex) : Nat := unitOf x.e

/-- The number of the cell (R158). -/
def Ex.cellNo (x : Ex) : Nat :=
  match x.e with
  | .cell n => n.val
  | .steward => 0x90

/-- What an instruction does when it issues. -/
inductive Act where
  /-- Results at distance 1. -/
  | done (ds : List Dest)
  /-- An operation in flight, with its distance when it has results (R162). -/
  | op (k : OpKind) (d : Option Nat)
  /-- A branch or jump: its target when taken, its link (R164). -/
  | branch (target : Option Nat) (ds : List Dest)
  /-- Results at distance 1, and an effect at write-back. -/
  | doneOp (ds : List Dest) (k : OpKind)
  /-- The instruction issues and leaves these registers, with the results written over them and an effect
  at write-back. -/
  | goto (r : Regs) (ds : List Dest) (k : Option OpKind)
  /-- A step of a block-repeat that is not its last (R169), and its store. -/
  | step (ds : List Dest) (store : Option OpKind)
  /-- The last step of a block-repeat, and its store. -/
  | lastStep (ds : List Dest) (store : Option OpKind)
  /-- An exception found at issue (R180). -/
  | fail (code : Nat) (info : BitVec 64)
  /-- The instruction does not issue yet. -/
  | hold
  deriving DecidableEq, Repr

/-- Undefined or misplaced (R181). -/
def Ex.illegal (x : Ex) : Act := .fail 0x01 (BitVec.ofNat 64 x.w.toNat)

/-! ## Write-back (R174) -/

/-- CRC-64 ECMA-182 without reflection of one byte (R439). -/
def crc64Byte (c : BitVec 64) (b : Byte) : BitVec 64 :=
  (List.range 8).foldl (fun c _ =>
    if c.getLsbD 63 then (c <<< 1) ^^^ 0x42F0E1EBA9EA3693#64 else c <<< 1)
    (c ^^^ ((b.zeroExtend 64) <<< 56))

def crc64 (l : List Byte) : BitVec 64 := l.foldl crc64Byte 0

/-- An item is folded into AUDIT_SUM of the context and parity (R439). -/
def State.auditFold (s : State) (n ctx : Nat) (epar : Bool) (l : List Byte) : State :=
  if (s.ctxOf ctx).partner.isNone then s
  else s.modCell n fun c => { c with
    auditSum := c.auditSum.upd 0 (2 * ctx + b2n epar) fun v => v + crc64 l }

/-- A transfer of a pair is released under the even cell's code (R435). -/
def State.pairRelease (s : State) (k : Nat) (even : Offered) (odd : Option Offered) : State :=
  match even.xfer with
  | .token t => s.offerToken (2 * k) t true
  | .req h g n w o d up =>
    s.sendReq { src := 2 * k, xid := 0, handle := h, graph := g, bytes := n, write := w, offset := o
                data := d, upois := up, dry := false, t0 := 0, express := even.express
                opId := even.opId, peer := odd.map fun o => (o.express, o.opId), pair := true
                served := false, lost := false }

/-- A cell offers a class 0 transfer at its pair port (R435, R436, R442). -/
def State.pairOffer (s : State) (n : Nat) (o : Offered) : State :=
  let k := n / 2
  let p := s.pairPort k
  if s.pairHalf k then (if s.halfCounts n then s.watchBump .pairDiscard else s).pairLost n o
  else if p.pass then
    -- pass mode: the even cell's copy leaves; the odd cell's is discarded
    if n % 2 = 0 then
      let s := s.modPair k fun p => { p with odd := p.odd.drop 1 }
      s.pairRelease k o p.odd.head?
    else
      match o.xfer with
      | .token _ => s
      | .req .. =>
        let mine := fun (q : Req) => q.src == n - 1 && q.pair && q.peer.isNone && !q.lost && !q.ended
        match s.fabric.reqs.find? mine with
        | some q => s.modFabric fun f => { f with
            reqs := f.reqs.map fun y => if y == q then { y with peer := some (o.express, o.opId) } else y }
        | none => s.modPair k fun p => { p with odd := p.odd ++ [o] }
  else s.modPair k fun p =>
    if n % 2 = 0 then { p with even := p.even ++ [o] } else { p with odd := p.odd ++ [o] }

/-- The committed tokens of a cell that its injection port has not accepted (R177, R179). -/
def State.offersLeft (s : State) (n : Nat) (x : Bool) (cls : Nat) : Bool :=
  let p := s.pairPort (n / 2)
  let code := if cls = 0 then 2 * (n / 2) else n
  (cls == 0 && ((if n % 2 = 0 then p.even else p.odd).any fun o => o.express == x)) ||
  (s.fabric.gHold.any fun e => e.1.src == code && e.1.tok.tag.cls.toNat == cls)

/-- A SEND commits (R174): the token is offered to the injection port, or to the pair port for
class 0; a shadow's tokens to endpoints are counted as accepted (R439). -/
def State.commitSend (s : State) (n : Nat) (x : Bool) (h : Packet) (opId : Nat) (t : Token) : State :=
  let s := s.engBump n .sendCommit
  let dest := t.tag.dest.toNat
  let endpoint := decide (0x80 ≤ dest)
  let s := if endpoint then
      let blank := { t.tag with ctx := 0, gen := 0 }
      s.auditFold n h.ctx t.tag.epar (leBytes 8 blank.pack.toNat ++ wordsToBytes t.payload)
    else s
  if h.cls = 0 then s.pairOffer n { xfer := .token t, t := s.time.now, express := x, opId := opId }
  else if (s.ctxOf h.ctx).shadow && endpoint && !(t.tag.bell && dest == 0x91) then
    s.returnCredit (unitOfDest dest) t.tag.ctx.toNat t.tag.gen.toNat 1
  else s.offerToken n t

/-- The graph of a running firing. -/
def State.graphOf (s : State) (n ctx gen : Nat) : Nat :=
  match (s.cell n).ctxs.get none ctx with
  | some i => if i.gen = gen then i.graph else (s.ctxOf ctx).graph
  | none => (s.ctxOf ctx).graph

/-- A region access of an engine sets out (R171, R269): from the Steward under its own code and as
SYSTEM, from a class 0 firing through its pair port.  A store of a POISONED firing carries no mark (log
273). -/
def State.regionReq (s : State) (e : Engine) (x : Bool) (opId handle bytes : Nat) (write : Bool)
    (offset : Nat) (data : List Byte) : State :=
  let mk := fun (src graph : Nat) (dry : Bool) =>
    ({ src := src, xid := 0, handle := handle, graph := graph, bytes := bytes, write := write
       offset := offset, data := data, upois := false, dry := dry, t0 := 0, express := x
       opId := opId, peer := none, served := false, lost := false } : Req)
  match e with
  | .steward => s.sendReq (mk 0x90 0x3FF false)
  | .cell n =>
    match (s.bank e x).hdr with
    | none => s
    | some h =>
      let g := s.graphOf n.val h.ctx h.gen
      if h.cls = 0 then
        s.pairOffer n.val { xfer := .req handle g bytes write offset data false
                            t := s.time.now, express := x, opId := opId }
      else
        let s := if write then
            s.auditFold n.val h.ctx h.epar (leBytes 8 (accessWord handle g bytes) ++ leBytes 8 offset ++ data)
          else s
        s.sendReq (mk n.val g ((s.ctxOf h.ctx).shadow && write))

/-- Requests of a cell that have no response yet (R269), at most 16: with those that its pair port holds
and, for an odd cell, the pair's, whose responses it takes too. -/
def State.outstanding (s : State) (n : Nat) : Nat :=
  let p := s.pairPort (n / 2)
  let offered := (if n % 2 = 0 then p.even else p.odd).filter fun o => match o.xfer with
    | .req .. => true
    | .token _ => false
  (s.fabric.reqs.filter fun q =>
    !q.ended && (q.src == n || (n % 2 == 1 && q.pair && q.src == n - 1 && q.peer.isSome))).length + offered.length

/-- Room for one more request (R269). -/
def State.reqRoom (s : State) : Engine → Bool
  | .cell n => decide (s.outstanding n.val < 16)
  | .steward => true

/-- A region access waits at injection for that room (R269). -/
def State.reqHolds (s : State) (e : Engine) (x : Bool) : State :=
  s.modBank e x fun b => { b with reqWait := some (b.reqWait.getD s.time.now) }

/-- It goes on, and its wait is counted (R275): for class 0 that of the even cell. -/
def State.reqGoes (s : State) (e : Engine) (x : Bool) : State :=
  let b := s.bank e x
  match e, b.reqWait with
  | .cell n, some t =>
    let s := s.modBank e x fun b => { b with reqWait := none }
    let w := s.time.now - t
    if n.val % 2 = 1 && (b.hdr.any fun h => h.cls == 0) then s
    else (s.fabStat n.val .injHoldNs w).fabStat n.val .injHoldMax w
  | _, _ => s

/-! ## Exceptions (R180-R187) -/

/-- The three words of the record (R182) for an exception of the instruction before which the
registers were `r`. -/
def record (r : Regs) (seq : Bool) (word : Word) (code : Nat) : Nat × Nat × Nat :=
  let idx := match r.slot with
    | some br => br.idx
    | none => r.pc
  let k := r.ldepth - 1
  let le := r.le.get 0 k
  let xle := !r.inHandler && decide (0 < r.ldepth) &&
    (r.resumeLvl == some k || le == r.pc || le == idx)
  let x0 := code + (if seq then 0 else (idx % 2 ^ 14) * 2 ^ 8) + b2n r.slot.isSome * 2 ^ 22 +
    b2n xle * 2 ^ 23 + b2n r.modeNext.isSome * 2 ^ 24 + (if xle then k else 0) * 2 ^ 25 +
    word.toNat * 2 ^ 32
  let x1 := (if xle then r.lc.get 0 k else 0) +
    (if r.modeNext.isSome then r.mode.toNat else 0) * 2 ^ 32
  (x0, x1, idx)

/-- A squashed operation has no effect (R174, R180): the reserved credit of a SEND returns to the cell
(R176), and the words that a DROPR dropped are there again (R139). -/
def State.unreserve (s : State) (e : Engine) (x : Bool) (o : Op) : State :=
  match o.kind, e with
  | .send t _, .cell n =>
    let c := poolOf (t.tag.cls == 0) t.tag.ctx.toNat
    let g := t.tag.gen.toNat
    s.setCredit n.val c g (s.creditOf n.val c g + 1)
  | .dropped u bad, _ => s.modBank e x fun b => { b with unlanded := u, badWords := bad }
  | _, _ => s

/-- A bank's operations from the number `n` on are squashed (R180): none has an effect, and a multiply,
divide, floating-point or vector operation that has begun runs to completion inside its unit. -/
def State.squash (s : State) (e : Engine) (x : Bool) (n : Nat) : State :=
  let later := (s.bank e x).ops.filter fun o => decide (n ≤ o.n)
  let s := later.foldl (fun s o => s.unreserve e x o) s
  s.modBank e x fun b => { b with
    ops := b.ops.filter fun o => decide (o.n < n)
    ghosts := b.ghosts ++ b.ops.filter fun o =>
      decide (n ≤ o.n) && o.working && arith o.word && o.begun }

/-- The open epoch of a parity (R31, R310). -/
def State.openEpoch (s : State) (epar : Bool) : Option Nat :=
  ((s.writer.epochs.filter fun e => !e.varnished && e.k % 2 == b2n epar).getLast?).map (·.k)

/-- A trace item of a cell (R514): a full buffer drops it. -/
def State.cellTrace (s : State) (n : Nat) (l : List Byte) : State :=
  if 4 ≤ (s.cell n).traceBuf.length then
    let s := s.modCell n fun c => { c with traceDrop := (c.traceDrop + 1) % 2 ^ 32 }
    { s with trace := { s.trace with cellDrop := (s.trace.cellDrop + 1) % 2 ^ 32 } }
  else s.modCell n fun c => { c with traceBuf := c.traceBuf ++ [l] }

/-- A DEBUG item (R513, R520): 1 STOP, 2 RUN, 3 STEP, 4 KILL. -/
def State.traceDebug (s : State) (n action : Nat) (x0 : BitVec 64) : State :=
  if s.trace.en && s.trace.debug then
    let v := x0.toNat
    s.cellTrace n ([0x07#8, BitVec.ofNat 8 n, BitVec.ofNat 8 action, 0#8] ++
      leBytes 4 s.time.t64.toNat ++ leBytes 2 (field v 21 8) ++ leBytes 1 v ++
      leBytes 1 (field v 24 22) ++ List.replicate 4 0#8)
  else s

/-- A FIRING item (R513, R516). -/
def State.traceFiring (s : State) (n : Nat) (x : Bool) (h : Packet) (exc : Option Nat) : State :=
  let on := s.trace.en && s.trace.firings && s.trace.cells.getLsbD n &&
    (decide (2 ≤ h.cls) || s.trace.class01) && (h.cls != 0 || n % 2 == 0)
  if on then
    let b := s.bank (.cell ⟨n % 128, Nat.mod_lt n (by decide)⟩) x
    s.cellTrace n ([0x02#8, BitVec.ofNat 8 n, BitVec.ofNat 8 (b2n x + 2 * b2n exc.isSome)] ++
      leBytes 1 (exc.getD 0) ++ leBytes 4 s.time.t64.toNat ++
      leBytes 2 (h.node + h.cls * 2 ^ 14) ++ leBytes 3 (h.ctx + h.gen * 2 ^ 17) ++
      leBytes 1 h.iter ++ leBytes 2 (min b.issued 0xFFFF))
  else s

/-- A firing leaves its bank (R139, R179, R313): the rest of its packet is dropped, its operands
leave the tally, and the engine may resume the preempted firing (R145). -/
def State.leaveBank (s : State) (n : Nat) (x : Bool) : State :=
  let e : Engine := .cell ⟨n % 128, Nat.mod_lt n (by decide)⟩
  let b := s.bank e x
  match b.hdr with
  | none => s
  | some h =>
    let s := s.queBump n .droprWords b.unlanded
    let s := (s.squash e x 0).modBank e x fun b => { b with
      hdr := none, unlanded := 0, badWords := 0, ctxReq := none, held := false, heldFor := none, reqWait := none }
    let s := (s.tallyOut n h).modCell n fun c => { c with que := c.que.release x }
    (s.backToM n).cellLeave n

/-- A firing ends by exception (R187, R146). -/
def State.endByException (s : State) (n : Nat) (x : Bool) (code : Nat) : State :=
  let e : Engine := .cell ⟨n % 128, Nat.mod_lt n (by decide)⟩
  let b := s.bank e x
  match b.hdr with
  | none => s
  | some h =>
    let s := s.engBump n .excEnded
    let rec3 := [b.x0, b.x1, b.x2]
    let s := s.modCell n fun c => if x then { c with lastP := rec3 } else { c with lastM := rec3 }
    let s := if (s.cell n).excRaised.contains code then s
      else (s.modCell n fun c => { c with excRaised := c.excRaised ++ [code] }).postEvent
        (64 + n) 0x37 code h.ctx
    let data := n + code * 2 ^ 8 + h.ctx * 2 ^ 16
    let s :=
      if code = 0x0B then (s.queBump n .budgetExc).detect (128 + n / 2) 0x21 data
      else if h.cls ≤ 1 then s.detect (128 + n / 2) 0x20 data
      else match s.openEpoch h.epar with
        | some k => s.gapNotice k 0x04 h.ctx h.gen n 1
        | none => s
    (s.traceFiring n x h (some code)).leaveBank n x

/-- The pair of a cell has debug enabled (R442, R519). -/
def State.debugOn (s : State) (n : Nat) : Bool := (s.pairPort (n / 2)).pass

/-- Exception entry (R180-R183, R231) for the operation `o`, every earlier one being finished and the later
ones squashed: the record is written, and the handler runs or the firing ends. -/
def State.takeException (s : State) (e : Engine) (x : Bool) (o : Op) (code : Nat)
    (info : BitVec 64) : State :=
  let b := s.bank e x
  let s := s.squash e x o.n
  let s := s.exBump e .instrSquashed (b.n - o.n - 1)
  let s := s.exBump e .excTaken
  let r := o.snap
  let dbl := r.inHandler && code != 0x0B
  let (code, info) := if dbl then (0x0C, BitVec.ofNat 64 code) else (code, info)
  let (x0, x1, idx) := record r (isSeq e) o.word code
  let r1 := { r with
    mode := r.modeNext.getD r.mode, modeNext := none, slot := none, resumeLvl := none
    inHandler := true }
  let s := s.modBank e x fun b => { b with
    wrote := b.wrote.filter fun w => decide (w.1 < o.n)
    held := false, heldFor := none, reqWait := none
    x0 := BitVec.ofNat 64 x0, x1 := BitVec.ofNat 64 x1, x2 := info
    x3 := if isSeq e then BitVec.ofNat 64 (idx / 4 * 4) else 0 }
  match e with
  | .steward => s.modBank e x fun b => { b with regs := { r1 with pc := s.steward.xvec.toNat } }
  | .cell n =>
    let ends := code == 0x04 || code == 0x0B || code == 0x0C || b.attr.handler == 0x3FFF
    let waited := fun (s : State) =>
      if b.held || (b.ctxReq.isSome && ends && code != 0x0A) then s.stallCheck else s
    waited (if code = 0x0A then
      -- a debug stop (R520)
      let s := s.modBank e x fun b => { b with regs := r1 }
      let s := s.modCell n.val fun c => { c with dbg := { c.dbg with stopped := true, stepping := false } }
      s.traceDebug n.val 1 (BitVec.ofNat 64 x0)
    else if ends then (s.modBank e x fun b => { b with regs := r1 }).endByException n.val x code
    else s.modBank e x fun b => { b with regs := { r1 with pc := b.attr.handler } })

/-! ## Completion (R160) -/

/-- The results of an operation are written into the bank and into the registers that a later
squash would go back to (R161, R163). -/
def State.writeResults (s : State) (e : Engine) (x : Bool) (o : Op) (ds : List Dest) : State :=
  ds.foldl (fun s d =>
    let b := s.bank e x
    let younger := b.wrote.filter fun w => decide (o.n < w.1) && w.2.2.sameReg d
    let free := d.freed s.fresh
    let s := if younger.isEmpty && !o.free then s else { s with fresh := s.fresh + 1 }
    s.modBank e x fun b => { b with
      regs := (if younger.isEmpty && !o.free then d else free).apply b.regs
      ops := b.ops.map fun p =>
        if o.n < p.n then
          let d' := if o.free || younger.any fun w => decide (w.1 < p.n) then free else d
          { p with snap := d'.apply p.snap }
        else p }) s

/-- The operation leaves the bank. -/
def State.popOp (s : State) (e : Engine) (x : Bool) (o : Op) : State :=
  s.modBank e x fun b => { b with ops := b.ops.filter fun p => p.n != o.n || p.kind != o.kind }

/-- Bytes written to a cell's scratch. -/
def Cell.storeScratch (c : Cell) (a : Nat) (l : List Byte) : Cell :=
  { c with scratch := (l.zip (List.range l.length)).foldl (fun m e => m.set 0 (a + e.2) e.1) c.scratch }

/-- A line of the Steward's data cache. -/
def Steward.line (m : Steward) (k : Nat) : List Byte × Bool :=
  match m.dcache.find? fun l => l.1 == k with
  | some l => l.2
  | none => ((List.range 64).map fun i => m.mem.get 0 (64 * k + i), false)

/-- A line written back to Steward memory. -/
def Steward.writeBack (m : Steward) (k : Nat) (l : List Byte) : Steward :=
  { m with mem := (l.zip (List.range l.length)).foldl (fun t e => t.set 0 (64 * k + e.2) e.1) m.mem }

/-- A line put into the data cache; the oldest of 512 lines makes room (R189). -/
def Steward.putLine (m : Steward) (k : Nat) (l : List Byte) (dirty : Bool) : Steward :=
  let rest := m.dcache.filter fun e => e.1 != k
  let m := { m with dcache := rest ++ [(k, l, dirty)] }
  if m.dcache.length ≤ 512 then m
  else match m.dcache with
    | (j, o, d) :: t => let m := { m with dcache := t }
                        if d then m.writeBack j o else m
    | [] => m

/-- A byte loaded through the data cache. -/
def Steward.byte (m : Steward) (a : Nat) : Byte := (m.line (a / 64)).1.getD (a % 64) 0

/-- Bytes stored through the data cache. -/
def Steward.store (m : Steward) (a : Nat) (l : List Byte) : Steward :=
  (l.zip (List.range l.length)).foldl (fun m e =>
    let k := (a + e.2) / 64
    m.putLine k ((m.line k).1.set ((a + e.2) % 64) e.1) true) m

/-- Scratch or Steward memory takes a store at write-back (R170, R172, R209). -/
def State.storeMem (s : State) (e : Engine) (a : Nat) (l : List Byte) : State :=
  match e with
  | .cell n => s.modCell n.val fun c => c.storeScratch a l
  | .steward => { s with steward := s.steward.store a l }

/-- The bits of XREC word 0 that XSET writes (R182, R227). -/
def xsetMask (seq : Bool) : BitVec 64 := if seq then 0x1C00000#64 else 0x1FFFF00#64

/-- A write of a Steward system register (R190, R228, R229); one of a read-only register is ignored. -/
def State.sysWrite (s : State) (e : Engine) (x : Bool) (sr : Nat) (v : BitVec 64) : State :=
  let m := s.steward
  match sr with
  | 0x000 => { s with steward := { m with xvec := v.setWidth 32 &&& ~~~3#32 } }
  | 0x001 => s.modBank e x fun b => { b with x0 := (b.x0 &&& ~~~(xsetMask true)) ||| (v &&& xsetMask true) }
  | 0x004 => s.modBank e x fun b => { b with x3 := v &&& 0xFFFFFFFC#64 }
  | 0x008 => { s with steward := { m with evPend := m.evPend &&& ~~~(v.setWidth 7) } }
  | 0x009 => { s with steward := { m with evMask := v.setWidth 7 } }
  | 0x020 => { s with steward := { m with timer := if v = 0 then none else some (s.time.now + v.toNat) } }
  | _ => s

/-- The first operation raises the exception that has been found (R180, R231): the later ones are
squashed, and entry waits until those of them that units have begun are finished. -/
def State.raise1 (s : State) (e : Engine) (x : Bool) (o : Op) (code : Nat) (info : BitVec 64) : Option State :=
  let b := s.bank e x
  if b.ops.any fun p => decide (o.n < p.n) then
    some (s.squash e x (o.n + 1))
  else if b.ghosts.any fun p => decide (o.n < p.n) then none
  else some (s.takeException e x o code info)

/-- BUDGET behind operations of cores alone: they are discarded as squashed, and their cores go on with
them (R251, log 275). -/
def State.cutBudget (s : State) (e : Engine) (x : Bool) : Option State :=
  let b := s.bank e x
  let before := b.ops.dropLast
  match b.ops.getLast? with
  | some o =>
    match o.kind with
    | .trap code info =>
      if code = 0x0B && before.all fun p => (coreOf p.word).isSome && p.working then
        some (((s.modBank e x fun b => { b with ops := [o], ghosts := b.ghosts ++ before }).exBump e
          .instrSquashed before.length).takeException e x o code info)
      else none
    | _ => none
  | none => none

/-- The first operation of a bank retires when it can: write-back in program order (R174), an exception
whose predecessors have finished (R231), and END (R179). -/
def State.retire1 (s : State) (e : Engine) (x : Bool) : Option State :=
  let b := s.bank e x
  match b.ops with
  | [] => none
  | o :: rest =>
    match o.kind with
    | .trap code info => if o.d = some 1 then s.raise1 e x o code info else s.cutBudget e x
    | .sysWrite sr v => if o.begun then some ((s.popOp e x o).sysWrite e x sr v) else none
    | .latch hi => let s := s.popOp e x o; some { s with steward := { s.steward with t64Hi := hi } }
    | .resumed => some ((s.popOp e x o).exBump e .excResumed)
    | .dropped u _ =>
      let s := s.popOp e x o
      some (match e with
        | .cell n => (s.queBump n.val .droprWords u).freeLanded e x 0
        | .steward => s)
    | .scratchStore a l => some ((s.popOp e x o).storeMem e a l)
    | .send t bad =>
      match e, b.hdr with
      | .cell n, some h =>
        let t := t.poisonIf b.regs.poisoned
        if bad then
          let o' := { o with kind := OpKind.trap 0x02 t.tag.pack, d := some 1 }
          some ((s.unreserve e x o).modBank e x fun b => { b with ops := o' :: b.ops.drop 1 })
        else some ((s.popOp e x o).commitSend n.val x h o.n t)
      | _, _ => some (s.popOp e x o)
    | .ctxRel c =>
      let k := s.ctxOf c
      let s := s.popOp e x o
      some (if k.st == .live && decide (2 ≤ k.cls) then s.release c 0x08 else s.exBump e .ctxrelNop)
    | .regionStore h off l info =>
      if !s.reqRoom e then
        if b.reqWait.isSome then none else some (s.reqHolds e x)
      else
        let s := (s.reqGoes e x).regionReq e x o.n h l.length true off l
        some (s.modBank e x fun b => { b with
          ops := { o with kind := .regionStored info } :: b.ops.drop 1 })
    | .endFiring =>
      match e, b.hdr with
      | .cell n, some h =>
        if rest != [] || s.offersLeft n.val x h.cls then none
        else
          let s := (s.traceFiring n.val x h none).leaveBank n.val x
          some (if 2 ≤ h.cls then s.stallEnd else s)
      | _, _ => none
    | .result _ => s.cutBudget e x
    | .regionLoad .. => none
    | .regionStored _ => none

/-- The bank retires as far as it can. -/
def State.retireLoop (e : Engine) (x : Bool) : Nat → State → State
  | 0, s => s
  | k + 1, s =>
    match s.retire1 e x with
    | some s => State.retireLoop e x k s
    | none => s

def State.retire (s : State) (e : Engine) (x : Bool) : State :=
  State.retireLoop e x (3 * (s.bank e x).ops.length + 2) s

/-- Both banks of a cell retire as far as they can. -/
def State.retireCell (s : State) (n : Nat) : State :=
  let e : Engine := .cell ⟨n % 128, Nat.mod_lt n (by decide)⟩
  (s.retire e true).retire e false

/-! ## Issue (R160, R161, R231) -/

/-- An instruction is counted as issued (R146, R192): `whole` for an instruction, not for a step of
a block-repeat that is not its last. -/
def State.countIssue (s : State) (e : Engine) (x whole : Bool) : State :=
  let s := if whole then s.exBump e .instrIssued else s
  s.modBank e x fun b => { b with
    budget := b.budget + 1, issued := if whole then b.issued + 1 else b.issued }

/-- An operation enters the bank, and its unit's queue (R232). -/
def State.pushOp (s : State) (x : Ex) (k : OpKind) (d : Option Nat) (free : Bool := false) : State :=
  let o : Op := { kind := k, n := x.b.n, d := d, word := x.w, snap := x.b.regs, free := free }
  let o := { o with begun := o.begins fun _ => true }
  (s.modBank x.e x.x fun b => { b with ops := b.ops ++ [o] }).feedFor x.e x.w

/-- An exception found at issue: taken when every earlier instruction has finished (R231).  The
instruction that takes it counts toward the budget, but for BUDGET itself (R146); `counted` when it
has issued (R192). -/
def State.earlyException (s : State) (x : Ex) (counted : Bool) (code : Nat) (info : BitVec 64) : State :=
  let s := if code = 0x0B then s else s.countIssue x.e x.x counted
  let s := s.pushOp x (.trap code info) (some 1)
  let s := s.modBank x.e x.x fun b => { b with n := b.n + 1 }
  s.retire x.e x.x

/-- A register that an instruction at a smaller distance than its own has written (R163). -/
def Bank.doubles (b : Bank) (d : Dest) : Bool :=
  b.wrote.any fun w => decide (w.1 < b.n) && decide (b.n < w.1 + w.2.1) && d.sameReg w.2.2

/-- Results that two instructions write within a distance get a free value (R163). -/
def State.freeDoubles (s : State) (x : Ex) (ds : List Dest) : List Dest × State :=
  ds.foldl (fun (acc : List Dest × State) d =>
    if x.b.doubles d then (acc.1 ++ [d.freed acc.2.fresh], { acc.2 with fresh := acc.2.fresh + 1 })
    else (acc.1 ++ [d], acc.2)) ([], s)

/-- The registers that an instruction writes are remembered while a distance can reach them. -/
def Bank.noteWrites (b : Bank) (n d : Nat) (ds : List Dest) : Bank :=
  { b with wrote := (b.wrote.filter fun w => decide (n < w.1 + 6)) ++ ds.map fun y => (n, d, y) }

/-- The registers that an operation will write. -/
def OpKind.dests : OpKind → List Dest
  | .result l => l
  | .regionLoad rd vec _ _ _ => [if vec then .v rd 0 else .g rd 0]
  | _ => []

/-- An instruction has issued with its registers at `r`, and writes `ds` at distance `d`. -/
def State.issued (s : State) (x : Ex) (r : Regs) (ds : List Dest) (d : Nat := 1) : State :=
  let s := s.countIssue x.e x.x true
  s.modBank x.e x.x fun b =>
    { (b.noteWrites x.b.n d ds) with regs := r, n := x.b.n + 1, held := false, heldFor := none }

/-- What an instruction does is carried out. -/
def State.carry (s : State) (x : Ex) (a : Act) : State :=
  let fin := fun (r : Regs) => r.finish x.code x.u x.len
  let put := fun (ds : List Dest) (r : Regs) => ds.foldl (fun r d => d.apply r) r
  match a with
  | .hold => s
  | .fail code info => s.earlyException x true code info
  | .goto r ds k =>
    let (ds, s) := s.freeDoubles x ds
    let s := match k with
      | some k => s.pushOp x k none
      | none => s
    (s.issued x (put ds r) ds).retire x.e x.x
  | .done ds =>
    let (ds, s) := s.freeDoubles x ds
    (s.issued x (fin (put ds x.base)) ds).retire x.e x.x
  | .doneOp ds k =>
    let (ds, s) := s.freeDoubles x ds
    ((s.pushOp x k none).issued x (fin (put ds x.base)) ds).retire x.e x.x
  | .branch t ds =>
    let (ds, s) := s.freeDoubles x ds
    let r := put ds x.base
    let r := { r with pc := r.pc + x.u * x.len, slot := some { idx := x.base.pc, target := t } }
    (s.issued x r ds).retire x.e x.x
  | .op (.result ds) d =>
    let (ds, s) := s.freeDoubles x ds
    ((s.pushOp x (.result ds) d).issued x (fin x.base) ds (d.getD 0)).retire x.e x.x
  | .op k d =>
    ((s.pushOp x k d (k.dests.any x.b.doubles)).issued x (fin x.base) k.dests (d.getD 0)).retire x.e x.x
  | .step ds st =>
    let (ds, s) := s.freeDoubles x ds
    let s := s.countIssue x.e x.x false
    let s := match st with
      | some k => s.pushOp x k none
      | none => s
    let s := s.modBank x.e x.x fun b => { (b.noteWrites x.b.n 1 ds) with regs := put ds b.regs }
    s.retire x.e x.x
  | .lastStep ds st =>
    let (ds, s) := s.freeDoubles x ds
    let s := match st with
      | some k => s.pushOp x k none
      | none => s
    (s.issued x (fin (put ds x.base)) ds).retire x.e x.x

/-- A breakpoint register (R519). -/
def bpHit (v : BitVec 64) (pc : Nat) (x : Bool) : Bool :=
  v.getLsbD 16 && (v.extractLsb' 0 14).toNat == pc &&
  ((v.extractLsb' 14 2).toNat == 0 || (v.extractLsb' 14 2).toNat == if x then 1 else 2)

/-- A breakpoint that hits at `pc` (R519). -/
def Cell.breakAt (c : Cell) (pc : Nat) (x : Bool) : Option Nat :=
  if c.dbg.passed then none
  else (List.range 4).find? fun k => bpHit (c.dbg.bp.get 0 k) pc x

/-- Exceptions of the fetch and of what is fetched, before the instruction is known (R231): BUDGET,
BREAK, FETCH_RANGE, FETCH_UE, and ILLEGAL_INSTR for a word that is no instruction. -/
def State.beforeIssue (s : State) (e : Engine) (x : Bool) (a : At) (b : Bank) (w w2 : Word) :
    Option (Nat × BitVec 64) :=
  let pc := b.regs.pc
  match e with
  | .steward =>
    if 2 ^ 32 ≤ pc then some (0x03, BitVec.ofNat 64 pc)
    else if a.fetchUe = .first then some (0x04, BitVec.ofNat 64 pc)
    else if a.fetchUe = .second && isX w then some (0x04, BitVec.ofNat 64 (pc + 4))
    else if legal true w w2 then none else some (0x01, BitVec.ofNat 64 w.toNat)
  | .cell n =>
    if x && decide (256 ≤ b.budget) then some (0x0B, 256)
    else match (if s.debugOn n.val then (s.cell n.val).breakAt pc x else none) with
      | some k => some (0x0A, BitVec.ofNat 64 (0x400 + k))
      | none =>
        if pc < b.attr.bsLo || b.attr.bsHi < pc then some (0x03, BitVec.ofNat 64 pc)
        else if isX w && b.attr.bsHi < pc + 1 then some (0x03, BitVec.ofNat 64 (pc + 1))
        else if a.fetchUe = .first then some (0x04, BitVec.ofNat 64 pc)
        else if a.fetchUe = .second && isX w then some (0x04, BitVec.ofNat 64 (pc + 1))
        else if legal false w w2 then none else some (0x01, BitVec.ofNat 64 w.toNat)

/-- R165: not permitted in a delay slot. -/
def noSlot (w : Word) : Bool :=
  isBranch w || w.extractLsb' 26 6 == 0x18#6 || w.extractLsb' 26 6 == 0x19#6 ||
  (w.extractLsb' 26 6 == 0x32#6 && (w.extractLsb' 0 6 == 0x02#6 || w.extractLsb' 0 6 == 0x04#6))

/-- The fetch of the Steward fills its instruction cache (R189). -/
def State.fillCache (s : State) (e : Engine) (pc : Nat) : State :=
  match e with
  | .cell _ => s
  | .steward =>
    if s.steward.icache.any fun l => l.1 == pc / 64 then s
    else
      let l := (pc / 64, (List.range 64).map fun i => s.steward.mem.get 0 (pc / 64 * 64 + i))
      let c := s.steward.icache ++ [l]
      { s with steward := { s.steward with icache := if c.length ≤ 512 then c else c.drop 1 } }

/-- An uncorrectable error in a fetched word (R155, R192, R417). -/
def State.noteFetchUe (s : State) (e : Engine) : State :=
  match e with
  | .cell n => (s.engBump n.val .fetchUeCount).cellMemFault n.val 0x14
  | .steward => s

/-- An instruction command: the engine's next instruction issues when it is the one that the command
names.  Before it come the exceptions that stand in its place (R231). -/
def State.issue (s : State) (a : At) (w : Word) (w2 : Option Word) (go : Ex → State → Act × State) :
    State :=
  match s.running a.eng with
  | none => s
  | some x =>
    let b := s.bank a.eng x
    if b.gated then s
    else
      let pc := b.regs.pc
      let at0 := s.codeWord a.eng pc
      let at1 := s.codeWord a.eng (pc + unitOf a.eng)
      let b := b.landFor at0 at1
      let base := { b.regs with mode := b.regs.modeNext.getD b.regs.mode, modeNext := none }
      let ex : Ex := { e := a.eng, x := x, at_ := a, w := at0, len := wordsOf at0, b := b, base := base
                       code := s.codeWord a.eng }
      let was := popCount 12 (s.bank a.eng x).badWords.toNat
      let s1 := ((s.modBank a.eng x fun _ => b).freeLanded a.eng x was).fillCache a.eng pc
      match s1.beforeIssue a.eng x a b at0 at1 with
      | some (code, info) =>
        let s1 := if code = 0x04 then s1.noteFetchUe a.eng else s1
        s1.earlyException ex (code == 0x01) code info
      | none =>
        if at0 != w || (match w2 with | some v => at1 != v | none => false) then s
        else if b.regs.slot.isSome && noSlot at0 then s1.earlyException ex true 0x01 (BitVec.ofNat 64 w.toNat)
        else
          let (act, s2) := go ex s1
          let s3 := s2.carry ex act
          match a.eng, act with
          | _, .hold => s3
          | .cell n, _ => stepStop (if b.held then s3.stallCheck else s3) n.val x
          | .steward, _ => stewardStop s3
where
  /-- The debugger's single step of the Steward halts it again (R518). -/
  stewardStop (s : State) : State :=
    if s.steward.stepping then
      { s with steward := { s.steward with stepping := false, halted := true } }
    else s
  /-- After STEP the engine stops again when one instruction has run (R520). -/
  stepStop (s : State) (n : Nat) (x : Bool) : State :=
    let s := s.modCell n fun c => { c with dbg := { c.dbg with passed := false } }
    let c := s.cell n
    let b := if x then c.p else c.m
    if c.dbg.stepping && b.hdr.isSome then
      let (x0, x1, _) := record b.regs false (c.code.get 0 b.regs.pc) 0x0A
      -- the number of the breakpoint: the spec names none for a STEP (log 10)
      let (info, s) := s.draw
      let s := s.modBank (.cell ⟨n % 128, Nat.mod_lt n (by decide)⟩) x fun b => { b with
        x0 := BitVec.ofNat 64 x0, x1 := BitVec.ofNat 64 x1, x2 := info
        regs := { b.regs with mode := b.regs.modeNext.getD b.regs.mode, modeNext := none, slot := none
                              resumeLvl := none, inHandler := true } }
      let s := s.modCell n fun c => { c with dbg := { c.dbg with stopped := true, stepping := false } }
      s.traceDebug n 1 (BitVec.ofNat 64 x0)
    else if c.dbg.stepping then
      s.modCell n fun c => { c with dbg := { c.dbg with stepping := false } }
    else s

end Sys2Proof.Machine
end

