-- ==== Sys2Proof/Machine/IsaInt.lean ====
section
/-! DEFINITION. The integer instructions (08_gheing_reference.md R199-R203, 09_arithmetic.md
R234-R237). -/

namespace Sys2Proof.Machine

/-- An instruction of distance 1 that writes one g-register. -/
def State.intOp (s : State) (a : At) (w : Word) (w2 : Option Word) (rd : BitVec 5)
    (f : Ex → BitVec 64) : Host.Outcome State Fault Refusal :=
  .next (s.issue a w w2 fun x s => (.done [.g rd.toNat (f x)], s))

/-- The same at distance `d`, as an operation in flight. -/
def State.mulOp (s : State) (a : At) (w : Word) (rd : BitVec 5) (d : Nat) (f : Ex → BitVec 64) :
    Host.Outcome State Fault Refusal :=
  .next (s.issue a w none fun x s => (.op (.result [.g rd.toNat (f x)]) (some d), s))

/-- 1 when the condition holds, else 0. -/
def flag (c : Bool) : BitVec 64 := if c then 1 else 0

/-- The low 32 bits sign-extended. -/
def sx32 (v : BitVec 64) : BitVec 64 := (v.setWidth 32).signExtend 64

/-- Rotate right. -/
def ror (v : BitVec 64) (n : Nat) : BitVec 64 := v.rotateRight (n % 64)

def clz (v : BitVec 64) : Nat := 64 - (if v = 0 then 0 else v.toNat.log2 + 1)
def ctz (v : BitVec 64) : Nat := ((List.range 64).find? fun i => v.getLsbD i).getD 64

/-- The bytes in reverse order. -/
def bswap (v : BitVec 64) : BitVec 64 := BitVec.ofNat 64 (ofBE (leBytes 8 v.toNat))

/-- A shift amount: bits [5:0]. -/
def sh (v : BitVec 64) : Nat := v.toNat % 64

/-- ACC128 and ACC128U (R199): the pair g[rd], g[rd + 1]. -/
def State.accOp (s : State) (a : At) (w : Word) (rd : BitVec 5) (f : Ex → BitVec 128) :
    Host.Outcome State Fault Refusal :=
  .next (s.issue a w none fun x s =>
    let n := rd.toNat
    let v : BitVec 128 := (x.r.gr (n + 1) ++ x.r.gr n) + f x
    (.op (.result [.g n (v.extractLsb' 0 64), .g (n + 1) (v.extractLsb' 64 64)]) (some 2), s))

/-- Division rounded toward zero, and its remainder with the sign of the dividend, at `w` bits
(R202, R235, R236). -/
def divide (w : Nat) (signed : Bool) (a b : Nat) : Nat × Nat :=
  let a := a % 2 ^ w
  let b := b % 2 ^ w
  if b = 0 then (2 ^ w - 1, a)
  else if signed then
    let x := sext w a
    let y := sext w b
    (narrow w (x.tdiv y), narrow w (x.tmod y))
  else (a / b, a % b)

/-- A quotient or remainder of the W forms, sign-extended (R202). -/
def sx32n (v : Nat) : BitVec 64 := (BitVec.ofNat 32 v).signExtend 64

/-- The field that EXTU, EXTS and INS name: pos and w (R200). -/
def fieldMask (pos w : Nat) : BitVec 64 := BitVec.ofNat 64 ((2 ^ w - 1) * 2 ^ pos)

/-- ADD (R199). -/
def execAdd (a : At) (rd ra rb : BitVec 5) (s : State) :
    Host.Outcome State Fault Refusal :=
  s.intOp a (wordT 0x00#6 rd ra rb 0 0x01#6) none rd fun x =>
    x.g ra + x.g rb

/-- SUB (R199). -/
def execSub (a : At) (rd ra rb : BitVec 5) (s : State) :
    Host.Outcome State Fault Refusal :=
  s.intOp a (wordT 0x00#6 rd ra rb 0 0x02#6) none rd fun x =>
    x.g ra - x.g rb

/-- AND (R199). -/
def execAnd (a : At) (rd ra rb : BitVec 5) (s : State) :
    Host.Outcome State Fault Refusal :=
  s.intOp a (wordT 0x00#6 rd ra rb 0 0x03#6) none rd fun x =>
    x.g ra &&& x.g rb

/-- OR (R199). -/
def execOr (a : At) (rd ra rb : BitVec 5) (s : State) :
    Host.Outcome State Fault Refusal :=
  s.intOp a (wordT 0x00#6 rd ra rb 0 0x04#6) none rd fun x =>
    x.g ra ||| x.g rb

/-- XOR (R199). -/
def execXor (a : At) (rd ra rb : BitVec 5) (s : State) :
    Host.Outcome State Fault Refusal :=
  s.intOp a (wordT 0x00#6 rd ra rb 0 0x05#6) none rd fun x =>
    x.g ra ^^^ x.g rb

/-- ANDN (R199). -/
def execAndn (a : At) (rd ra rb : BitVec 5) (s : State) :
    Host.Outcome State Fault Refusal :=
  s.intOp a (wordT 0x00#6 rd ra rb 0 0x06#6) none rd fun x =>
    x.g ra &&& ~~~(x.g rb)

/-- SLL (R199). -/
def execSll (a : At) (rd ra rb : BitVec 5) (s : State) :
    Host.Outcome State Fault Refusal :=
  s.intOp a (wordT 0x00#6 rd ra rb 0 0x08#6) none rd fun x =>
    x.g ra <<< sh (x.g rb)

/-- SRL (R199). -/
def execSrl (a : At) (rd ra rb : BitVec 5) (s : State) :
    Host.Outcome State Fault Refusal :=
  s.intOp a (wordT 0x00#6 rd ra rb 0 0x09#6) none rd fun x =>
    x.g ra >>> sh (x.g rb)

/-- SRA (R199). -/
def execSra (a : At) (rd ra rb : BitVec 5) (s : State) :
    Host.Outcome State Fault Refusal :=
  s.intOp a (wordT 0x00#6 rd ra rb 0 0x0A#6) none rd fun x =>
    (x.g ra).sshiftRight (sh (x.g rb))

/-- ROR (R199). -/
def execRor (a : At) (rd ra rb : BitVec 5) (s : State) :
    Host.Outcome State Fault Refusal :=
  s.intOp a (wordT 0x00#6 rd ra rb 0 0x0B#6) none rd fun x =>
    ror (x.g ra) (sh (x.g rb))

/-- SEQ (R199). -/
def execSeq (a : At) (rd ra rb : BitVec 5) (s : State) :
    Host.Outcome State Fault Refusal :=
  s.intOp a (wordT 0x00#6 rd ra rb 0 0x0C#6) none rd fun x =>
    flag (x.g ra == x.g rb)

/-- SNE (R199). -/
def execSne (a : At) (rd ra rb : BitVec 5) (s : State) :
    Host.Outcome State Fault Refusal :=
  s.intOp a (wordT 0x00#6 rd ra rb 0 0x0D#6) none rd fun x =>
    flag (x.g ra != x.g rb)

/-- SLT (R199). -/
def execSlt (a : At) (rd ra rb : BitVec 5) (s : State) :
    Host.Outcome State Fault Refusal :=
  s.intOp a (wordT 0x00#6 rd ra rb 0 0x0E#6) none rd fun x =>
    flag ((x.g ra).slt (x.g rb))

/-- SLTU (R199). -/
def execSltu (a : At) (rd ra rb : BitVec 5) (s : State) :
    Host.Outcome State Fault Refusal :=
  s.intOp a (wordT 0x00#6 rd ra rb 0 0x0F#6) none rd fun x =>
    flag ((x.g ra).ult (x.g rb))

/-- MIN (R199). -/
def execMin (a : At) (rd ra rb : BitVec 5) (s : State) :
    Host.Outcome State Fault Refusal :=
  s.intOp a (wordT 0x00#6 rd ra rb 0 0x10#6) none rd fun x =>
    if (x.g ra).slt (x.g rb) then x.g ra else x.g rb

/-- MAX (R199). -/
def execMax (a : At) (rd ra rb : BitVec 5) (s : State) :
    Host.Outcome State Fault Refusal :=
  s.intOp a (wordT 0x00#6 rd ra rb 0 0x11#6) none rd fun x =>
    if (x.g ra).slt (x.g rb) then x.g rb else x.g ra

/-- MINU (R199). -/
def execMinu (a : At) (rd ra rb : BitVec 5) (s : State) :
    Host.Outcome State Fault Refusal :=
  s.intOp a (wordT 0x00#6 rd ra rb 0 0x12#6) none rd fun x =>
    if (x.g ra).ult (x.g rb) then x.g ra else x.g rb

/-- MAXU (R199). -/
def execMaxu (a : At) (rd ra rb : BitVec 5) (s : State) :
    Host.Outcome State Fault Refusal :=
  s.intOp a (wordT 0x00#6 rd ra rb 0 0x13#6) none rd fun x =>
    if (x.g ra).ult (x.g rb) then x.g rb else x.g ra

/-- ADDW (R199). -/
def execAddw (a : At) (rd ra rb : BitVec 5) (s : State) :
    Host.Outcome State Fault Refusal :=
  s.intOp a (wordT 0x00#6 rd ra rb 0 0x1E#6) none rd fun x =>
    sx32 (x.g ra + x.g rb)

/-- SUBW (R199). -/
def execSubw (a : At) (rd ra rb : BitVec 5) (s : State) :
    Host.Outcome State Fault Refusal :=
  s.intOp a (wordT 0x00#6 rd ra rb 0 0x1F#6) none rd fun x =>
    sx32 (x.g ra - x.g rb)

/-- ADDC (R199). -/
def execAddc (a : At) (rd ra rb rc : BitVec 5) (s : State) :
    Host.Outcome State Fault Refusal :=
  s.intOp a (wordT 0x00#6 rd ra rb rc 0x14#6) none rd fun x =>
    x.g ra + x.g rb + (x.g rc &&& 1)

/-- CARRY (R199). -/
def execCarry (a : At) (rd ra rb rc : BitVec 5) (s : State) :
    Host.Outcome State Fault Refusal :=
  s.intOp a (wordT 0x00#6 rd ra rb rc 0x15#6) none rd fun x =>
    flag (decide (2 ^ 64 ≤ (x.g ra).toNat + (x.g rb).toNat + (x.g rc).toNat % 2))

/-- SUBB (R199). -/
def execSubb (a : At) (rd ra rb rc : BitVec 5) (s : State) :
    Host.Outcome State Fault Refusal :=
  s.intOp a (wordT 0x00#6 rd ra rb rc 0x16#6) none rd fun x =>
    x.g ra - x.g rb - (x.g rc &&& 1)

/-- BORROW (R199). -/
def execBorrow (a : At) (rd ra rb rc : BitVec 5) (s : State) :
    Host.Outcome State Fault Refusal :=
  s.intOp a (wordT 0x00#6 rd ra rb rc 0x17#6) none rd fun x =>
    flag (decide ((x.g ra).toNat < (x.g rb).toNat + (x.g rc).toNat % 2))

/-- ACC128 (R199). -/
def execAcc128 (a : At) (rd ra : BitVec 5) (s : State) :
    Host.Outcome State Fault Refusal :=
  s.accOp a (wordT 0x00#6 rd ra 0 0 0x18#6) rd fun x => (x.g ra).signExtend 128

/-- ACC128U (R199). -/
def execAcc128u (a : At) (rd ra : BitVec 5) (s : State) :
    Host.Outcome State Fault Refusal :=
  s.accOp a (wordT 0x00#6 rd ra 0 0 0x19#6) rd fun x => (x.g ra).setWidth 128

/-- CLZ (R199). -/
def execClz (a : At) (rd ra : BitVec 5) (s : State) :
    Host.Outcome State Fault Refusal :=
  s.intOp a (wordT 0x00#6 rd ra 0 0 0x1A#6) none rd fun x =>
    BitVec.ofNat 64 (clz (x.g ra))

/-- CTZ (R199). -/
def execCtz (a : At) (rd ra : BitVec 5) (s : State) :
    Host.Outcome State Fault Refusal :=
  s.intOp a (wordT 0x00#6 rd ra 0 0 0x1B#6) none rd fun x =>
    BitVec.ofNat 64 (ctz (x.g ra))

/-- POPC (R199). -/
def execPopc (a : At) (rd ra : BitVec 5) (s : State) :
    Host.Outcome State Fault Refusal :=
  s.intOp a (wordT 0x00#6 rd ra 0 0 0x1C#6) none rd fun x =>
    BitVec.ofNat 64 (popCount 64 (x.g ra).toNat)

/-- BSWAP (R199). -/
def execBswap (a : At) (rd ra : BitVec 5) (s : State) :
    Host.Outcome State Fault Refusal :=
  s.intOp a (wordT 0x00#6 rd ra 0 0 0x1D#6) none rd fun x =>
    bswap (x.g ra)

/-- ADDI (R200). -/
def execAddi (a : At) (rd ra : BitVec 5) (imm : BitVec 16) (s : State) :
    Host.Outcome State Fault Refusal :=
  s.intOp a (wordI 0x04#6 rd ra imm) none rd fun x => x.g ra + imm.signExtend 64

/-- ANDI (R200). -/
def execAndi (a : At) (rd ra : BitVec 5) (imm : BitVec 16) (s : State) :
    Host.Outcome State Fault Refusal :=
  s.intOp a (wordI 0x05#6 rd ra imm) none rd fun x => x.g ra &&& imm.setWidth 64

/-- ORI (R200). -/
def execOri (a : At) (rd ra : BitVec 5) (imm : BitVec 16) (s : State) :
    Host.Outcome State Fault Refusal :=
  s.intOp a (wordI 0x06#6 rd ra imm) none rd fun x => x.g ra ||| imm.setWidth 64

/-- XORI (R200). -/
def execXori (a : At) (rd ra : BitVec 5) (imm : BitVec 16) (s : State) :
    Host.Outcome State Fault Refusal :=
  s.intOp a (wordI 0x07#6 rd ra imm) none rd fun x => x.g ra ^^^ imm.setWidth 64

/-- SLTI (R200). -/
def execSlti (a : At) (rd ra : BitVec 5) (imm : BitVec 16) (s : State) :
    Host.Outcome State Fault Refusal :=
  s.intOp a (wordI 0x08#6 rd ra imm) none rd fun x => flag ((x.g ra).slt (imm.signExtend 64))

/-- SLTIU (R200). -/
def execSltiu (a : At) (rd ra : BitVec 5) (imm : BitVec 16) (s : State) :
    Host.Outcome State Fault Refusal :=
  s.intOp a (wordI 0x09#6 rd ra imm) none rd fun x => flag ((x.g ra).ult (imm.signExtend 64))

/-- SHI (R200): kind 0 SLLI, 1 SRLI, 2 SRAI, 3 RORI. -/
def execShi (a : At) (rd ra : BitVec 5) (kind : BitVec 2) (n : BitVec 6) (s : State) :
    Host.Outcome State Fault Refusal :=
  s.intOp a (wordI 0x0A#6 rd ra (0#8 ++ kind ++ n)) none rd fun x =>
    match kind.toNat with
    | 0 => x.g ra <<< n.toNat
    | 1 => x.g ra >>> n.toNat
    | 2 => (x.g ra).sshiftRight n.toNat
    | _ => ror (x.g ra) n.toNat

/-- LUI (R200). -/
def execLui (a : At) (rd : BitVec 5) (imm : BitVec 16) (s : State) :
    Host.Outcome State Fault Refusal :=
  s.intOp a (wordI 0x0B#6 rd 0 imm) none rd fun _ => imm.signExtend 64 <<< 16

/-- EXTU (R200). -/
def execExtu (a : At) (rd ra : BitVec 5) (pos w1 : BitVec 6) (s : State) :
    Host.Outcome State Fault Refusal :=
  s.intOp a (wordI 0x0C#6 rd ra (0#4 ++ w1 ++ pos)) none rd fun x =>
    BitVec.ofNat 64 ((x.g ra).toNat / 2 ^ pos.toNat % 2 ^ (w1.toNat + 1))

/-- EXTS (R200). -/
def execExts (a : At) (rd ra : BitVec 5) (pos w1 : BitVec 6) (s : State) :
    Host.Outcome State Fault Refusal :=
  s.intOp a (wordI 0x0D#6 rd ra (0#4 ++ w1 ++ pos)) none rd fun x =>
    BitVec.ofInt 64 (sext (w1.toNat + 1) ((x.g ra).toNat / 2 ^ pos.toNat))

/-- INS (R200). -/
def execIns (a : At) (rd ra : BitVec 5) (pos w1 : BitVec 6) (s : State) :
    Host.Outcome State Fault Refusal :=
  s.intOp a (wordI 0x0E#6 rd ra (0#4 ++ w1 ++ pos)) none rd fun x =>
    let m := fieldMask pos.toNat (w1.toNat + 1)
    (x.g rd &&& ~~~m) ||| ((x.g ra <<< pos.toNat) &&& m)

/-- LI (R201). -/
def execLi (a : At) (rd : BitVec 5) (imm : Word) (s : State) :
    Host.Outcome State Fault Refusal :=
  s.intOp a (wordI 0x38#6 rd 0 1) (some imm) rd fun _ => imm.signExtend 64

/-- LIH (R201). -/
def execLih (a : At) (rd : BitVec 5) (imm : Word) (s : State) :
    Host.Outcome State Fault Refusal :=
  s.intOp a (wordI 0x38#6 rd 0 2) (some imm) rd fun x => imm ++ (x.g rd).extractLsb' 0 32

/-- ADDX (R201). -/
def execAddx (a : At) (rd ra : BitVec 5) (imm : Word) (s : State) :
    Host.Outcome State Fault Refusal :=
  s.intOp a (wordI 0x38#6 rd ra 3) (some imm) rd fun x => x.g ra + imm.signExtend 64

/-- ANDX (R201). -/
def execAndx (a : At) (rd ra : BitVec 5) (imm : Word) (s : State) :
    Host.Outcome State Fault Refusal :=
  s.intOp a (wordI 0x38#6 rd ra 4) (some imm) rd fun x => x.g ra &&& imm.signExtend 64

/-- ORX (R201). -/
def execOrx (a : At) (rd ra : BitVec 5) (imm : Word) (s : State) :
    Host.Outcome State Fault Refusal :=
  s.intOp a (wordI 0x38#6 rd ra 5) (some imm) rd fun x => x.g ra ||| imm.setWidth 64

/-- XORX (R201). -/
def execXorx (a : At) (rd ra : BitVec 5) (imm : Word) (s : State) :
    Host.Outcome State Fault Refusal :=
  s.intOp a (wordI 0x38#6 rd ra 6) (some imm) rd fun x => x.g ra ^^^ imm.setWidth 64

/-- MUL (R202, R234). -/
def execMul (a : At) (rd ra rb : BitVec 5) (s : State) :
    Host.Outcome State Fault Refusal :=
  s.mulOp a (wordT 0x01#6 rd ra rb 0 0x01#6) rd 3 fun x =>
    x.g ra * x.g rb

/-- MULH (R202, R234). -/
def execMulh (a : At) (rd ra rb : BitVec 5) (s : State) :
    Host.Outcome State Fault Refusal :=
  s.mulOp a (wordT 0x01#6 rd ra rb 0 0x02#6) rd 3 fun x =>
    BitVec.ofInt 64 ((x.g ra).toInt * (x.g rb).toInt / 2 ^ 64)

/-- MULHU (R202, R234). -/
def execMulhu (a : At) (rd ra rb : BitVec 5) (s : State) :
    Host.Outcome State Fault Refusal :=
  s.mulOp a (wordT 0x01#6 rd ra rb 0 0x03#6) rd 3 fun x =>
    BitVec.ofNat 64 ((x.g ra).toNat * (x.g rb).toNat / 2 ^ 64)

/-- MULHSU (R202, R234). -/
def execMulhsu (a : At) (rd ra rb : BitVec 5) (s : State) :
    Host.Outcome State Fault Refusal :=
  s.mulOp a (wordT 0x01#6 rd ra rb 0 0x04#6) rd 3 fun x =>
    BitVec.ofInt 64 ((x.g ra).toInt * (x.g rb).toNat / 2 ^ 64)

/-- MULW (R202, R234). -/
def execMulw (a : At) (rd ra rb : BitVec 5) (s : State) :
    Host.Outcome State Fault Refusal :=
  s.mulOp a (wordT 0x01#6 rd ra rb 0 0x05#6) rd 3 fun x =>
    sx32 (x.g ra) * sx32 (x.g rb)

/-- MULWU (R202, R234). -/
def execMulwu (a : At) (rd ra rb : BitVec 5) (s : State) :
    Host.Outcome State Fault Refusal :=
  s.mulOp a (wordT 0x01#6 rd ra rb 0 0x06#6) rd 3 fun x =>
    ((x.g ra).setWidth 32).setWidth 64 * ((x.g rb).setWidth 32).setWidth 64

/-- DIV (R202, R235, R236). -/
def execDiv (a : At) (rd ra rb : BitVec 5) (s : State) :
    Host.Outcome State Fault Refusal :=
  s.mulOp a (wordT 0x01#6 rd ra rb 0 0x08#6) rd 4 fun x =>
    BitVec.ofNat 64 (divide 64 true (x.g ra).toNat (x.g rb).toNat).1

/-- DIVU (R202, R235, R236). -/
def execDivu (a : At) (rd ra rb : BitVec 5) (s : State) :
    Host.Outcome State Fault Refusal :=
  s.mulOp a (wordT 0x01#6 rd ra rb 0 0x09#6) rd 4 fun x =>
    BitVec.ofNat 64 (divide 64 false (x.g ra).toNat (x.g rb).toNat).1

/-- REM (R202, R235, R236). -/
def execRem (a : At) (rd ra rb : BitVec 5) (s : State) :
    Host.Outcome State Fault Refusal :=
  s.mulOp a (wordT 0x01#6 rd ra rb 0 0x0A#6) rd 4 fun x =>
    BitVec.ofNat 64 (divide 64 true (x.g ra).toNat (x.g rb).toNat).2

/-- REMU (R202, R235, R236). -/
def execRemu (a : At) (rd ra rb : BitVec 5) (s : State) :
    Host.Outcome State Fault Refusal :=
  s.mulOp a (wordT 0x01#6 rd ra rb 0 0x0B#6) rd 4 fun x =>
    BitVec.ofNat 64 (divide 64 false (x.g ra).toNat (x.g rb).toNat).2

/-- DIVW (R202, R235, R236). -/
def execDivw (a : At) (rd ra rb : BitVec 5) (s : State) :
    Host.Outcome State Fault Refusal :=
  s.mulOp a (wordT 0x01#6 rd ra rb 0 0x0C#6) rd 4 fun x =>
    sx32n (divide 32 true (x.g ra).toNat (x.g rb).toNat).1

/-- DIVWU (R202, R235, R236). -/
def execDivwu (a : At) (rd ra rb : BitVec 5) (s : State) :
    Host.Outcome State Fault Refusal :=
  s.mulOp a (wordT 0x01#6 rd ra rb 0 0x0D#6) rd 4 fun x =>
    sx32n (divide 32 false (x.g ra).toNat (x.g rb).toNat).1

/-- REMW (R202, R235, R236). -/
def execRemw (a : At) (rd ra rb : BitVec 5) (s : State) :
    Host.Outcome State Fault Refusal :=
  s.mulOp a (wordT 0x01#6 rd ra rb 0 0x0E#6) rd 4 fun x =>
    sx32n (divide 32 true (x.g ra).toNat (x.g rb).toNat).2

/-- REMWU (R202, R235, R236). -/
def execRemwu (a : At) (rd ra rb : BitVec 5) (s : State) :
    Host.Outcome State Fault Refusal :=
  s.mulOp a (wordT 0x01#6 rd ra rb 0 0x0F#6) rd 4 fun x =>
    sx32n (divide 32 false (x.g ra).toNat (x.g rb).toNat).2

end Sys2Proof.Machine
end

