-- ==== Sys2Proof/Machine/IsaFlow.lean ====
section
/-! DEFINITION. Branches, loops, mode, status and the exception record (08_gheing_reference.md R207,
R208, R226, R227). -/

namespace Sys2Proof.Machine

/-- The registers after an instruction that leaves `r` and goes on in sequence. -/
def Ex.fin (x : Ex) (r : Regs) : Regs := r.finish x.code x.u x.len

/-! ## Branches and jumps (R164, R196, R207) -/

/-- Where a branch goes: an index, or the branch's address plus 4 x sext(TARGET) (R196). -/
def Ex.target (x : Ex) (t : BitVec 14) : Nat :=
  if x.seq then narrow 32 ((x.base.pc : Int) + 4 * t.toInt) else t.toNat

/-- The index after the delay slot (R207). -/
def Ex.link (x : Ex) : BitVec 64 :=
  BitVec.ofNat 64 (x.base.pc + x.u + x.u * wordsOf (x.code (x.base.pc + x.u)))

/-- A compare-and-branch. -/
def State.branchOp (s : State) (a : At) (op : BitVec 6) (ra rb : BitVec 5) (t : BitVec 14)
    (c : BitVec 64 → BitVec 64 → Bool) : Host.Outcome State Fault Refusal :=
  .next (s.issue a (wordB op ra rb t) none fun x s =>
    (.branch (if c (x.g ra) (x.g rb) then some (x.target t) else none) [], s))

/-- BEQ (R207). -/
def execBeq (a : At) (ra rb : BitVec 5) (target : BitVec 14) (s : State) :
    Host.Outcome State Fault Refusal := s.branchOp a 0x10#6 ra rb target fun u v => u == v

/-- BNE (R207). -/
def execBne (a : At) (ra rb : BitVec 5) (target : BitVec 14) (s : State) :
    Host.Outcome State Fault Refusal := s.branchOp a 0x11#6 ra rb target fun u v => u != v

/-- BLT (R207). -/
def execBlt (a : At) (ra rb : BitVec 5) (target : BitVec 14) (s : State) :
    Host.Outcome State Fault Refusal := s.branchOp a 0x12#6 ra rb target fun u v => u.slt v

/-- BGE (R207). -/
def execBge (a : At) (ra rb : BitVec 5) (target : BitVec 14) (s : State) :
    Host.Outcome State Fault Refusal := s.branchOp a 0x13#6 ra rb target fun u v => !u.slt v

/-- BLTU (R207). -/
def execBltu (a : At) (ra rb : BitVec 5) (target : BitVec 14) (s : State) :
    Host.Outcome State Fault Refusal := s.branchOp a 0x14#6 ra rb target fun u v => u.ult v

/-- BGEU (R207). -/
def execBgeu (a : At) (ra rb : BitVec 5) (target : BitVec 14) (s : State) :
    Host.Outcome State Fault Refusal := s.branchOp a 0x15#6 ra rb target fun u v => !u.ult v

/-- JAL (R207). -/
def execJal (a : At) (rd : BitVec 5) (target : BitVec 14) (s : State) :
    Host.Outcome State Fault Refusal :=
  .next (s.issue a (wordB 0x16#6 rd 0 target) none fun x s =>
    (.branch (some (x.target target)) [.g rd.toNat x.link], s))

/-- JALR (R207): in sequential mode a target that is not word-aligned raises ALIGN. -/
def execJalr (a : At) (rd ra : BitVec 5) (s : State) : Host.Outcome State Fault Refusal :=
  .next (s.issue a (wordB 0x17#6 rd ra 0) none fun x s =>
    let t := (x.g ra).toNat
    if x.seq then
      if t % 4 = 0 then (.branch (some (t % 2 ^ 32)) [.g rd.toNat x.link], s)
      else (.fail 0x06 (BitVec.ofNat 64 (t % 2 ^ 32)), s)
    else (.branch (some (t % 2 ^ 14)) [.g rd.toNat x.link], s))

/-! ## Loops (R166, R208) -/

/-- LE as an index or a byte address (R196). -/
def Ex.le (x : Ex) (le : BitVec 14) : Nat :=
  if x.seq then (x.base.pc + 4 * le.toNat) % 2 ^ 32 else le.toNat

/-- A loop level opens (R166), or a count of 0 skips the body.  A loop end outside BS_LO to BS_HI raises
FETCH_RANGE (R155), which comes before ILLEGAL_INSTR (R231); in the handler LOOP stands for
ILLEGAL_INSTR whatever its end (R183). -/
def Ex.openLoop (x : Ex) (count : Nat) (le : BitVec 14) : Act :=
  let k := x.r.ldepth
  let l := x.le le
  if x.r.inHandler then x.illegal
  else if !x.seq && (decide (l < x.b.attr.bsLo) || decide (x.b.attr.bsHi < l)) then
    .fail 0x03 (BitVec.ofNat 64 l)
  else if k == 4 || decide (l ≤ x.base.pc) || (decide (0 < k) && decide (x.r.le.get 0 (k - 1) ≤ l)) then
    x.illegal
  else if count = 0 then .goto { x.base with pc := exitIndex x.code x.u l, resumeLvl := none } [] none
  else
    let nxt := x.base.pc + x.u
    .goto { x.base with ldepth := k + 1, pc := nxt, resumeLvl := none } [.ls k nxt, .le k l, .lc k count] none

/-- LOOP (R166, R208). -/
def execLoop (a : At) (rc : BitVec 5) (le : BitVec 14) (s : State) :
    Host.Outcome State Fault Refusal :=
  .next (s.issue a (wordL 0x18#6 (rc ++ 0#7) le) none fun x s =>
    (x.openLoop ((x.g rc).toNat % 2 ^ 32) le, s))

/-- LOOPI (R166, R208). -/
def execLoopi (a : At) (count : BitVec 12) (le : BitVec 14) (s : State) :
    Host.Outcome State Fault Refusal :=
  .next (s.issue a (wordL 0x19#6 count le) none fun x s => (x.openLoop count.toNat le, s))

/-- MTL (R208): written at distance 3. -/
def execMtl (a : At) (g : BitVec 5) (n : BitVec 2) (sel : LoopReg) (s : State) :
    Host.Outcome State Fault Refusal :=
  .next (s.issue a (wordLreg g n sel true) none fun x s =>
    let v := (x.g g).toNat
    let i := v % (if x.seq then 2 ^ 32 else 2 ^ 14)
    let d := match sel with
      | .ls => Dest.ls n.toNat i
      | .le => Dest.le n.toNat i
      | .lc => Dest.lc n.toNat (v % 2 ^ 32)
    (.op (.result [d]) (some 3), s))

/-- MFL (R208). -/
def execMfl (a : At) (g : BitVec 5) (n : BitVec 2) (sel : LoopReg) (s : State) :
    Host.Outcome State Fault Refusal :=
  .next (s.issue a (wordLreg g n sel false) none fun x s =>
    let t := match sel with
      | .ls => x.r.ls
      | .le => x.r.le
      | .lc => x.r.lc
    (.done [.g g.toNat (BitVec.ofNat 64 (t.get 0 n.toNat))], s))

/-! ## Mode and status (R226, R227) -/

/-- What BSTAT's mode fields hold when two MODEs write them within the distance of 2: not specified (R163),
but for RM, which holds no reserved value (R159). -/
def freeMode (fresh : Nat) : BitVec 9 :=
  let v := (Config.freeValue fresh).toNat
  BitVec.ofNat 9 (v / 8 * 8 + v % 8 % 5)

/-- MODE (R159, R185, R226): the next instruction runs in its shadow, under the old fields. -/
def execMode (a : At) (ra : BitVec 5) (imm : BitVec 16) (s : State) :
    Host.Outcome State Fault Refusal :=
  .next (s.issue a (wordI 0x0F#6 0 ra imm) none fun x s =>
    let v : BitVec 16 := if ra = 0 then imm else (x.g ra).setWidth 16
    let keep := v.getLsbD 14
    if v.getLsbD 15 || (!keep && decide (5 ≤ (v.extractLsb' 0 3).toNat)) then (x.illegal, s)
    else
      let f := x.base.fss &&& ~~~(v.extractLsb' 9 5)
      let (m, s) :=
        if keep then (x.base.mode, s)
        else if x.r.modeNext.isSome then (freeMode s.fresh, { s with fresh := s.fresh + 1 })
        else (v.extractLsb' 0 9, s)
      (.goto { x.fin { x.base with fss := f } with modeNext := some m } [] none, s))

/-- NOP of the instruction set (R227). -/
def execInstrNop (a : At) (s : State) : Host.Outcome State Fault Refusal :=
  .next (s.issue a (wordT 0x32#6 0 0 0 0 0x01#6) none fun _ s => (.done [], s))

/-- END (R179, R227): it finishes the firing when it retires. -/
def execEndFiring (a : At) (s : State) : Host.Outcome State Fault Refusal :=
  .next (s.issue a (wordT 0x32#6 0 0 0 0 0x02#6) none fun _ s => (.op .endFiring none, s))

/-- DROPR (R139, R227): the queue frees the words when no earlier exception can squash it (R180). -/
def execDropr (a : At) (s : State) : Host.Outcome State Fault Refusal :=
  .next (s.issue a (wordT 0x32#6 0 0 0 0 0x03#6) none fun x s =>
    if x.b.unlanded = 0 then (.done [], s)
    else
      (.goto (x.fin ({ x.b with regs := x.base } : Bank).dropRest.regs) [] (some (.dropped x.b.unlanded x.b.badWords)),
        s.modBank x.e x.x fun b => { b with unlanded := 0, badWords := 0 }))

/-- The registers that RESUME goes on with (R183-R186, R190): XREC applied as written. -/
def Bank.resumed (b : Bank) (seq : Bool) (base : Regs) : Regs :=
  let v := b.x0.toNat
  let k := field v 26 25
  let xle := bit v 23
  let r := { base with
    inHandler := false, slot := none
    pc := if seq then b.x3.toNat / 4 * 4 % 2 ^ 32 else field v 21 8
    lc := if xle then base.lc.set 0 k (field b.x1.toNat 31 0) else base.lc
    resumeLvl := if xle then some k else none }
  if bit v 24 then { r with mode := b.x1.extractLsb' 32 9, modeNext := some base.mode } else r

/-- RESUME (R183, R227): only in the handler. -/
def execResume (a : At) (s : State) : Host.Outcome State Fault Refusal :=
  .next (s.issue a (wordT 0x32#6 0 0 0 0 0x04#6) none fun x s =>
    if !x.r.inHandler then (x.illegal, s)
    else
      let r := x.b.resumed x.seq x.base
      let k := field x.b.x0.toNat 26 25
      (.goto r (if bit x.b.x0.toNat 23 then [.lc k (r.lc.get 0 k)] else []) (some .resumed), s))

/-- BREAK n (R181, R227, R520): with debug disabled it is ILLEGAL_INSTR. -/
def execBrk (a : At) (n : BitVec 10) (s : State) : Host.Outcome State Fault Refusal :=
  .next (s.issue a (wordI 0x32#6 (n.extractLsb' 5 5) (n.extractLsb' 0 5) 0x0005#16) none fun x s =>
    let on := match x.e with
      | .cell c => s.debugOn c.val
      | .steward => false
    if on then (.fail 0x0A (n.setWidth 64), s) else (x.illegal, s))

/-- RDSTAT (R159, R227). -/
def execRdstat (a : At) (rd : BitVec 5) (s : State) : Host.Outcome State Fault Refusal :=
  .next (s.issue a (wordT 0x32#6 rd 0 0 0 0x06#6) none fun x s =>
    let bell := match x.b.hdr with
      | some h => h.bell
      | none => false
    (.done [.g rd.toNat (BitVec.ofNat 64 (bstat x.r bell x.x))], s))

/-- XMOV (R182, R190, R227). -/
def execXmov (a : At) (rd w : BitVec 5) (s : State) : Host.Outcome State Fault Refusal :=
  .next (s.issue a (wordT 0x32#6 rd 0 w 0 0x07#6) none fun x s =>
    let v := match w.toNat with
      | 0 => x.b.x0
      | 1 => x.b.x1
      | 2 => x.b.x2
      | _ => x.b.x3
    (.done [.g rd.toNat v], s))

/-- XSET (R182, R227): only in the handler. -/
def execXset (a : At) (ra : BitVec 5) (s : State) : Host.Outcome State Fault Refusal :=
  .next (s.issue a (wordT 0x32#6 0 ra 0 0 0x08#6) none fun x s =>
    if !x.r.inHandler then (x.illegal, s)
    else
      let m := xsetMask x.seq
      let v := x.g ra
      (.done [], s.modBank x.e x.x fun b => { b with x0 := (b.x0 &&& ~~~m) ||| (v &&& m) }))

end Sys2Proof.Machine
end

