-- ==== Sys2Proof/Machine/Firing.lean ====
section
/-! DEFINITION. The start of a firing and its preemption (06_easel.md R134-R146, 07_block_engine.md
R153-R158), the completion of operations (R160) and the answers to region accesses
(10_fabric.md R269). -/

namespace Sys2Proof.Machine

/-! ## Starting a firing (R156) -/

/-- The attributes of a firing's graph on a cell (R154): kept from the install, or from the graph
while firings of a released context remain. -/
def State.attrOf (s : State) (n : Nat) (p : Packet) : Attr :=
  let h := s.graphOf n p.ctx p.gen
  match (s.cell n).attrs.get none h with
  | some a => a
  | none => { scratchBase := 0, scratchLen := 0, handler := 0x3FFF, bsLo := 0, bsHi := 0x3FFF }

/-- The operand words of a packet in g_p and v_p (R157). -/
def landOperand (k : Nat) (o : Option (List Word)) (r : Regs) : Regs :=
  match o with
  | none => r
  | some ws =>
    let v := ofLE (wordsToBytes ws)
    let r := r.setG k (BitVec.ofNat 64 v)
    if ws.length ≤ 2 then r else r.setV k (BitVec.ofNat 512 v)

/-- The firing word of g6 (R158). -/
def firingWord (n : Nat) (p : Packet) : Nat :=
  p.node + p.gen * 2 ^ 14 + p.cls * 2 ^ 18 + b2n p.epar * 2 ^ 20 + b2n p.bell * 2 ^ 21 +
  p.ppois * 2 ^ 22 + (if p.cls = 0 then n / 2 * 2 else n) * 2 ^ 25

/-- The registers at the start of a firing (R156-R159). -/
def startRegs (n : Nat) (p : Packet) (desc : BitVec 64) : Regs :=
  let r : Regs := { mode := descMode desc, poisoned := p.ppois != 0, pc := descEntry desc }
  let r := landOperand 3 p.c (landOperand 2 p.b (landOperand 1 p.a r))
  ((r.setG 4 (BitVec.ofNat 64 p.ctx)).setG 5 (BitVec.ofNat 64 p.iter)).setG 6
    (BitVec.ofNat 64 (firingWord n p))

/-- The express lane's head, or the draining bank's (R135, R143). -/
def Queues.next (q : Queues) (x : Bool) : Option Queued := headOf (if x then q.express else q.drain)

/-- The packet leaves its list; its words stay occupied while it is read (R139). -/
def State.takePacket (s : State) (n : Nat) (x : Bool) (e : Queued) : State :=
  s.modCell n fun c =>
    let q := c.que
    { c with que :=
        if x then { q with express := q.express.erase e, xHeld := e.pkt.words }
        else if q.filling then { q with eb0 := q.eb0.erase e, eHeld := e.pkt.words }
        else { q with eb1 := q.eb1.erase e, eHeld := e.pkt.words } }

/-- The engine takes a packet (R138-R140, R153, R156): it runs, or its header or descriptor is bad.
`late` words are still to land when its block starts. -/
def State.startFiring (s : State) (n : Nat) (x : Bool) (q : Queued) (late : Nat) (err : ReadErr) :
    State :=
  let e : Engine := .cell ⟨n % 128, Nat.mod_lt n (by decide)⟩
  let s := s.takePacket n x q
  let p := q.pkt
  let free := fun (s : State) => s.modCell n fun c => { c with que := c.que.release x }
  if err.header then
    let s := ((free s).queBump n .easelDamaged).queBump n .droprWords (p.words - 1)
    let s := (s.cellMemFault n 0x12).sideband n p err.sideband
    ((s.tallyOut n p).backToM n).cellLeave n
  else
    let s := s.queBump n (if x then .expressFired else .easelFired)
    let s := s.cellReturn n p.ctx p.gen p.cls p.nops
    if err.desc then
      (((((free s).engBump n .descUe).cellMemFault n 0x13).tallyOut n p).backToM n).cellLeave n
    else
      let desc := (s.cell n).nodes.get 0 p.node
      let words := p.words - 1
      let a := s.attrOf n p
      -- the words that have landed are checked now; the others as they land
      let bad := err.words.toNat % 2 ^ words
      let now := bad % 2 ^ (words - min late words)
      let p := { p with ppois := p.ppois ||| p.portsOf now }
      let s := s.modBank e x fun b =>
        { b with
          hdr := some p, regs := startRegs n p desc, unlanded := min late words
          badWords := BitVec.ofNat 12 bad
          x0 := 0, x1 := 0, x2 := 0, x3 := 0, ops := [], budget := 0, issued := 0, held := false
          heldFor := none, ctxReq := none, wrote := [], attr := a }
      (s.modBank e x fun b => b.land (min late words)).freeLanded e x (popCount 12 bad)

/-- The engine of a cell may take an item: it is powered and not in a debug stop. -/
def State.engineOn (s : State) (n : Nat) : Bool :=
  !(s.cell n).dbg.stopped && !s.power.colLost.contains (n % 16) &&
  (match s.power.cellTest.get none n with
    | some t => t.st == .draining
    | none => true)

/-- FIRING_START (R134, R156): the engine, with no firing to run, takes the next visible packet:
express first; a swap of the Easel's banks that is due comes before.  With no packet it gets the
idle item, which changes nothing (R138). -/
def execFiringStart (c : Fin 128) (late : Fin 13) (err : ReadErr) (s : State) :
    Host.Outcome State Fault Refusal :=
  let n := c.val
  let k := s.cell n
  if !s.engineOn n || k.p.hdr.isSome || (k.m.hdr.isSome && !k.preempted) then .next s
  else
    let s := s.requestItem n
    match (s.cell n).que.next true with
    | some q => .next (s.startFiring n true q late.val err)
    | none =>
      if k.m.hdr.isSome then .next s
      else match (s.cell n).que.next false with
        | some q => .next (s.startFiring n false q late.val err)
        | none => .next s

/-- PREEMPTION (R144): an express packet is visible while bank M runs, and no delay slot stands
between; a firing that has issued END is not preempted (R150). -/
def execPreemption (c : Fin 128) (late : Fin 13) (err : ReadErr) (s : State) :
    Host.Outcome State Fault Refusal :=
  let n := c.val
  let k := s.cell n
  let ended := k.m.ops.any fun o => o.kind == .endFiring
  if !s.engineOn n || k.p.hdr.isSome || k.m.hdr.isNone || k.preempted || k.m.regs.slot.isSome || ended then
    .next s
  else match k.que.next true with
    | some q =>
      let s := ((s.requestItem n).modCell n fun k => { k with preempted := true }).queBump n .preempt
      .next (s.startFiring n true q late.val err)
    | none => .next s

/-! ## Completion (R160, R180) -/

/-- An operation of a bank is finished: its results are written, its core takes the next, and the bank
retires. -/
def State.finishOp (s : State) (e : Engine) (x : Bool) (o : Op) (ds : List Dest) : State :=
  (((s.popOp e x o).writeResults e x o ds).feedFor e o.word).retire e x

/-- An operation of a bank becomes another; the bank retires. -/
def State.turnOp (s : State) (e : Engine) (x : Bool) (o o' : Op) : State :=
  ((s.modBank e x fun b => { b with ops := b.ops.map fun p => if p == o then o' else p }).feedFor e
    o.word).retire e x

/-- OPERATION_COMPLETE (R160): the operation at place `i` writes its results, or its late exception is
found, which is taken once every earlier one has finished (R180, R231).  A core finishes none that it
has not begun (R232).  Behind the bank's operations stand the squashed ones, whose results are
discarded. -/
def execOperationComplete (e : Engine) (express : Bool) (i : Fin 256) (s : State) :
    Host.Outcome State Fault Refusal :=
  let b := s.bank e express
  match b.ops[i.val]? with
  | some o =>
    match o.kind with
    | .result ds => if (coreOf o.word).isSome && !o.begun then .next s else .next (s.finishOp e express o ds)
    | .trap .. =>
      if !o.working || ((coreOf o.word).isSome && !o.begun) then .next s
      else .next (s.turnOp e express o { o with d := some 1 })
    | .sysWrite .. => .next (s.turnOp e express o { o with begun := true })
    | _ => .next s
  | none =>
    match b.ghosts[i.val - b.ops.length]? with
    | some o =>
      if (coreOf o.word).isSome && !o.begun then .next s
      else .next (((s.modBank e express fun b => { b with
        ghosts := b.ghosts.eraseIdx (i.val - b.ops.length) }).feedFor e o.word).retire e express)
    | none => .next s

/-! ## Responses (R173, R269, R270) -/

/-- The value that a region load delivers (R171, R210). -/
def loadDest (rd : Nat) (vec : Bool) (bytes : Nat) (signed : Bool) (l : List Byte) : Dest :=
  if vec then .v rd (BitVec.ofNat 512 (ofLE l))
  else .g rd (if signed then BitVec.ofInt 64 (sext (8 * bytes) (ofLE l)) else BitVec.ofNat 64 (ofLE l))

/-- A response reaches the operation that waits for it; a squashed operation is gone. -/
def State.answerOp (s : State) (e : Engine) (x : Bool) (opId : Nat) (k : RspKind) (bad : Bool) : State :=
  let waits := fun (o : Op) => o.n == opId && match o.kind with
    | .regionLoad .. => true
    | .regionStored _ => true
    | _ => false
  match (s.bank e x).ops.find? waits with
  | none => s
  | some o =>
    let trap := fun (info : BitVec 64) =>
      s.turnOp e x o { o with kind := OpKind.trap 0x07 info, d := some 1 }
    match o.kind with
    | .regionLoad rd vec bytes sg info =>
      (match k with
      | .rdata l => s.finishOp e x o (loadDest rd vec bytes sg l :: if bad then [.poisoned] else [])
      | .rpois => s.finishOp e x o [loadDest rd vec bytes sg [], .poisoned]
      | .rerr _ => trap info
      | .wack => s)
    | .regionStored info =>
      (match k with
      | .rerr _ => trap info
      | _ => s.finishOp e x o [])
    | _ => s

/-- A response is delivered to its requester: for class 0 to both cells of the pair (R69, R435). -/
def State.answer (s : State) (q : Req) (k : RspKind) (bad : Bool) : State :=
  if q.src < 128 then
    let at_ := fun (n : Nat) => Engine.cell ⟨n % 128, Nat.mod_lt n (by decide)⟩
    let s := s.answerOp (at_ q.src) q.express q.opId k bad
    match q.peer with
    | some (x, i) => s.answerOp (at_ (q.src + 1)) x i k bad
    | none => s
  else if q.src = 0x90 then s.answerOp .steward false q.opId k bad
  else s

/-- The timeout ends a request (R269): it completes as if RPOIS had arrived.  One that is still on its way
goes on, and its response will be late. -/
def State.timeoutReq (s : State) (q : Req) : State :=
  let s := s.modFabric fun f => { f with
    reqs := if q.served || q.lost then f.reqs.erase q
      else f.reqs.map fun x => if x == q then { q with ended := true } else x
    lateXids := if q.lost then f.lateXids else f.lateXids ++ [(q.src, q.xid)] }
  let s := s.fabStat q.src .reqTimeout 1
  let j := q.handle / 4096
  let s := if (s.respAt j).toRaised then s
    else (s.modResp j fun r => { r with toRaised := true }).postEvent (288 + j) 0x41
  s.answer q .rpois false

/-- REGION_RESPONSE (R269): a response reaches its requester, the first of its responder (R258), when the
port grants it (R260).  One that comes after the timeout, or in its instant (R274), is discarded and
counted. -/
def execRegionResponse (src : BitVec 8) (xid : BitVec 32) (ue : UnitErr) (s : State) :
    Host.Outcome State Fault Refusal :=
  match s.fabric.rsps.find? fun r => r.req.src == src.toNat && r.req.xid == xid.toNat with
  | none => .next s
  | some r =>
    if !(s.fabric.rsps.find? r.ahead == some r && s.mayExit r.header .rsp) then .next s
    else
      let s := (s.unitErr ue).land r.header .rsp
      let s := s.modFabric fun f => { f with rsps := f.rsps.erase r }
      let mine := fun (y : Req) => y.src == src.toNat && y.xid == xid.toNat && !y.ended
      if s.cutOff src.toNat then
        -- absorbed (R271): the requester ends it under the timeout
        .next (s.modFabric fun f => { f with
          reqs := f.reqs.map fun y => if mine y then { y with lost := true } else y
          lateXids := f.lateXids.erase (src.toNat, xid.toNat) })
      else
        let s := match s.fabric.reqs.find? mine with
          | some y => if y.t0 + 4000000 ≤ s.time.now then s.timeoutReq y else s
          | none => s
        if s.fabric.lateXids.contains (src.toNat, xid.toNat) then
          let s := s.modFabric fun f => { f with lateXids := f.lateXids.erase (src.toNat, xid.toNat) }
          .next (s.fabStat src.toNat .rspLate 1)
        else
          match s.fabric.reqs.find? mine with
          | none => .next s
          | some y =>
            let s := s.modFabric fun f => { f with reqs := f.reqs.erase y }
            let lat := s.time.now - y.t0
            let s := (s.fabStat src.toNat .reqLatSum lat).fabStat src.toNat .reqLatMax lat
            .next (s.answer { r.req with peer := y.peer } r.kind ue.data)

/-- REQ_TIMEOUT (R269): 4 ms after its injection a request without a response ends. -/
def execReqTimeout (src : BitVec 8) (xid : BitVec 32) (s : State) : Host.Outcome State Fault Refusal :=
  match s.fabric.reqs.find? fun q => q.src == src.toNat && q.xid == xid.toNat && !q.ended with
  | none => .next s
  | some q => .next ((s.reach (q.t0 + 4000000)).timeoutReq q)

/-- SLOT_BOUNDARY (R261): the next slot begins; what its allowance lets go may end firings (R179). -/
def execSlotBoundary (s : State) : Host.Outcome State Fault Refusal :=
  let s := s.slotBegin
  .next (s.cells.foldl (fun s e => s.retireCell e.1) s)

end Sys2Proof.Machine
end

