-- ==== Sys2Proof/Machine/Trace.lean ====
section
/-! DEFINITION. The trace collector (20_trace.md R512-R516): the stage, the packets, the region and
TRACE_CTRL. -/

namespace Sys2Proof.Machine

def State.modTrace (f : Trace → Trace) (s : State) : State := { s with trace := f s.trace }

/-- Bytes of the trace region (R512). -/
def traceLen : Nat := 2 ^ 28

/-- The header of the trace region (R512). -/
def Trace.header (t : Trace) : List Byte :=
  leBytes 8 t.wrOff ++ leBytes 4 t.tseq ++ leBytes 4 t.wraps ++ leBytes 4 t.lostTotal ++
  leBytes 1 (b2n t.mode) ++ leBytes 1 (b2n t.stopped)

/-- Where the trace region begins in memory responder 0 (R512). -/
def State.traceBase (s : State) : Nat := ((s.respAt 0).regions.get {} 0xFFF).base

/-- The header is brought up to date. -/
def State.traceHeader (s : State) : State :=
  s.modResp 0 fun r => r.write (r.regions.get {} 0xFFF).base s.trace.header

/-- An item is lost (R512, R513, R522). -/
def Trace.lose (t : Trace) : Trace :=
  { t with
    lost := min (t.lost + 1) (2 ^ 32 - 1)
    lostTotal := min (t.lostTotal + 1) (2 ^ 32 - 1)
    lostCnt := (t.lostCnt + 1) % 2 ^ 32 }

/-- WR_OFF goes on by a packet, and returns to 4,096 at the region's end (R512, R514). -/
def Trace.advance (t : Trace) (n : Nat) : Trace :=
  if traceLen ≤ t.wrOff + n then
    { t with wrOff := 4096, wraps := (t.wraps + 1) % 2 ^ 32, stopped := t.stopped || t.mode }
  else { t with wrOff := t.wrOff + n }

/-- The bytes of one packet go to WR_OFF. -/
def State.putPacket (s : State) (p : List Byte) : State :=
  let s := s.modResp 0 fun r => r.write ((r.regions.get {} 0xFFF).base + s.trace.wrOff) p
  s.modTrace fun t => { t.advance p.length with packets := (t.packets + 1) % 2 ^ 32 }

/-- A packet is written, or lost when MODE 1 has filled the region (R512, R514). -/
def State.writePacketTrace (s : State) (p : List Byte) : State :=
  let s := if !s.trace.stopped && decide (traceLen < s.trace.wrOff + p.length) then
      s.putPacket (0x00#8 :: 0x90#8 :: 0#8 :: 0#8 :: leBytes 4 s.time.t64.toNat ++ List.replicate 8 0#8)
    else s
  let s := if s.trace.stopped then s.modTrace Trace.lose else s.putPacket p
  s.traceHeader

/-- The station ID, 0 outside a chain (R400). -/
def State.stationId (s : State) : Nat := s.chain.id.getD 0

/-- A SYNC packet (R513) is written. -/
def State.writeSync (s : State) (reason : Nat) : State :=
  let t := s.time.t64.toNat
  let p := [0x01#8, 0x90#8, 0#8, 0#8] ++ leBytes 4 t ++ leBytes 8 t ++ leBytes 4 s.trace.tseq ++
    leBytes 4 s.writer.k ++ leBytes 2 (s.writer.k / 2 ^ 32) ++ leBytes 2 s.stationId ++
    leBytes 1 reason ++ List.replicate 3 0#8
  let s := s.modTrace fun x => { x with tseq := (x.tseq + 1) % 2 ^ 32, syncAt := s.time.now }
  s.writePacketTrace p

/-- A LOST packet and the SYNC after it stand before the next packet (R514), while EN is 1 (R516). -/
def State.writeLost (s : State) : State :=
  if s.trace.lost = 0 || s.trace.stopped || !s.trace.en then s
  else
    let p := [0x06#8, 0x90#8, 0#8, 0#8] ++ leBytes 4 s.time.t64.toNat ++ leBytes 4 s.trace.lost ++
      List.replicate 4 0#8
    let s := s.modTrace fun t => { t with lost := 0 }
    (s.writePacketTrace p).writeSync 3

/-- The collector can reach the region: the stacks are trained and not in self-refresh (R515). -/
def State.traceOpen (s : State) : Bool := s.isReady && !s.power.rest

/-- An item is accepted into the stage of 64 KiB, or dropped (R514). -/
def State.stageItem (s : State) (p : List Byte) : State :=
  s.modTrace fun t =>
    if 65536 < (t.stage.map List.length).sum + p.length then t.lose
    else { t with stage := t.stage ++ [p] }

/-- Every staged item is written (R515). -/
def State.drainStage : List (List Byte) → State → State
  | [], s => s
  | p :: l, s =>
    State.drainStage l ((s.modTrace fun t => { t with stage := t.stage.drop 1 }).writePacketTrace p)

/-- A SLEEP or WAKE packet (R513, R515). -/
def State.writeSleep (s : State) (ptype : Byte) : State :=
  let t := s.time.t64.toNat
  s.writePacketTrace ([ptype, 0x90#8, 0x01#8, 0#8] ++ leBytes 4 t ++ leBytes 8 t)

/-- The SYNC with REASON 1 of an EN set while the region was out of reach comes before any other packet
(R516). -/
def State.syncEnabled (s : State) : State :=
  if s.trace.syncDue then (s.modTrace fun t => { t with syncDue := false }).writeSync 1 else s

/-- REST ends (R483, R515): the stacks leave self-refresh, their shares await the scrub, and WAKE,
SYNC and the staged items are written. -/
def State.leaveRest (s : State) : State :=
  if !s.power.rest then s
  else
    let s := { s with power := { s.power with rest := false, scrub := [0, 1, 2, 3], restSince := some s.time.now } }
    let s := s.postEvent 453 0xC3
    if s.trace.en then (s.syncEnabled.writeSleep 0x05#8).writeSync 2 else s

/-- A TOKEN packet (R513). -/
def tokenPacket (src : Nat) (t : Token) (now : Nat) : List Byte :=
  [0x03#8, BitVec.ofNat 8 src] ++ leBytes 2 t.tag.esel.toNat ++ leBytes 4 now ++
  leBytes 8 t.tag.pack.toNat ++ bytesAt (wordsToBytes t.payload) 0 16

/-- A FAULT item (R513, R516). -/
def State.traceFault (s : State) (src fcode lseq reaction : Nat) : State :=
  if s.trace.en && s.trace.faults then
    s.stageItem ([0x08#8, 0x90#8, BitVec.ofNat 8 src, BitVec.ofNat 8 fcode] ++
      leBytes 4 s.time.t64.toNat ++ leBytes 4 lseq ++ leBytes 1 reaction ++ List.replicate 3 0#8)
  else s

/-- TRACE_MARKER (R514): a token to DEST 0x96, or with no token the oldest item of a cell's
buffer, reaches the collector. -/
def execTraceMarker (src : BitVec 8) (t : Option Token) (ue : UnitErr) (s : State) :
    Host.Outcome State Fault Refusal :=
  match t with
  | some t =>
    if t.tag.dest.toNat != 0x96 || !s.arrivable src.toNat t then .next s
    else
      let s := s.unitErr ue
      if s.cutOff 0x90 then .next (s.endpointAbsorb src.toNat t 0x90)
      else
      let s := s.endpointTake src.toNat t 0x90
      if s.trace.en then .next (s.stageItem (tokenPacket src.toNat (t.after ue) s.time.t64.toNat))
      else .next s
  | none =>
    let n := src.toNat
    match (s.cell n).traceBuf with
    | p :: rest =>
      if 128 ≤ n || s.cutOff n then .next s
      else .next ((s.modCell n fun c => { c with traceBuf := rest }).stageItem p)
    | [] => .next s

/-- TRACE_PACKET_WRITE (R514): the oldest staged item is written. -/
def execTracePacketWrite (s : State) : Host.Outcome State Fault Refusal :=
  if !s.traceOpen then .next s
  else match s.trace.stage with
    | [] => .next s
    | p :: rest =>
      .next ((s.writeLost.modTrace fun t => { t with stage := rest }).writePacketTrace p)

/-- TRACE_SYNC (R513): the periodic SYNC, at most 2^30 ns after the last. -/
def execTraceSync (s : State) : Host.Outcome State Fault Refusal :=
  if !s.traceOpen || !s.trace.en then .next s
  else .next ((s.reach (s.trace.syncAt + 2 ^ 30)).writeLost.writeSync 0)

/-- A write of TRACE_CTRL (R516): its reserved bits are zero, a write of MODE clears STOPPED, and EN
from 0 to 1 writes a SYNC before any other packet, a LOST packet too (log 296). -/
def State.writeTraceCtrl (s : State) (v : Nat) : State :=
  let was := s.trace.en
  let s := s.modTrace fun t => { t with
    en := bit v 0, mode := bit v 1, firings := bit v 2, class01 := bit v 3, faults := bit v 4
    debug := bit v 5, stopped := false
    syncDue := bit v 0 && (t.syncDue || !was)
    viol := if v / 64 % 2 ^ 26 = 0 then t.viol else (t.viol + 1) % 2 ^ 32 }
  if !s.traceOpen then s else if s.trace.syncDue then s.syncEnabled else s.traceHeader

/-- TRACE_CTRL_WRITE (R516). -/
def execTraceCtrlWrite (value : BitVec 32) (s : State) : Host.Outcome State Fault Refusal :=
  .next (s.writeTraceCtrl value.toNat)

end Sys2Proof.Machine
end

