-- ==== Sys2Proof/Machine/Watch.lean ====
section
/-! DEFINITION. The Watch (16_watch.md R416-R446): raises, reactions, the fault state, the log, the
pair ports, the comparators, and the Steward's mailbox. -/

namespace Sys2Proof.Machine

def State.modWatch (f : Watch → Watch) (s : State) : State := { s with watch := f s.watch }

def State.modPower (f : Power → Power) (s : State) : State := { s with power := f s.power }
def State.modAon (f : AlwaysOn → AlwaysOn) (s : State) : State := { s with aon := f s.aon }

/-- A start fails at a stage with a reason (R473); a Lantern start's failure is not counted. -/
def State.failStart (s : State) (stage reason : Nat) (lantern : Bool) : State :=
  let s := s.modPower fun p => { p with phase := .pause lantern, pauseAt := s.time.now }
  if lantern then s
  else
    (s.modAon fun a => { a with
      why0 := BitVec.ofNat 8 reason, why1 := a.why0, why2 := a.why1
      startFails := min 3 (a.startFails + 1), stage := stage
      tFail := BitVec.ofNat 32 (s.time.t64.toNat / 1000) }).aonBump .startFailTotal

/-- A start in progress fails at once for a reason of any stage (R474). -/
def State.abortStart (s : State) (reason : Nat) : State :=
  match s.power.phase with
  | .boot k => s.failStart k reason false
  | .lanternBoot k => s.failStart k reason true
  | _ => s

/-- The number of a reaction (R419). -/
def Reaction.code : Reaction → Nat
  | .record => 0
  | .notify => 1
  | .safe => 2
  | .isolate => 3
  | .halt => 4

/-- The stronger of two reactions (R426). -/
def Reaction.max (a b : Reaction) : Reaction := if a.code ≤ b.code then b else a

/-- FSTATE (R446). -/
def FState.code : FState → Nat
  | .idle => 0
  | .handling => 1
  | .faulted => 2
  | .halted => 3

/-- FAULT_N is driven low (R422, R423), and until a start has reached step 9 (R467) and in Lantern mode
(R476). -/
def State.faultLow (s : State) : Bool :=
  !s.isReady || s.watch.fstate != .idle || s.watch.logLost || s.watch.selfStall

/-! ## Reactions (R419-R421) -/

/-- The units that ISOLATE takes out for a source (R420). -/
def State.unitsOf (s : State) (r : Raise) : List Nat :=
  let src := r.src
  if src < 64 then [2 * src, 2 * src + 1]
  else if src < 192 then
    let k := (src - 64) % 64
    if s.pairClass0 (2 * k) then [2 * k, 2 * k + 1] else [2 * k + r.data % 2]
  else if src < 208 then [0x80 + (src - 192)]
  else if 212 ≤ src && src ≤ 227 then (List.range 8).map fun i => src - 212 + 16 * i
  else []

/-- A unit is isolated by a reaction: a cell is flushed too (R420).  `bad` gives the cells and the places
of the packets whose sideband the flush cannot read (R140). -/
def State.isolateUnit (bad : List (Nat × Nat)) (s : State) (u : Nat) : State :=
  if s.fabric.iso.contains u then s
  else
    let lost := (bad.filter fun e => e.1 == u).map (·.2)
    (if u < 128 then s.flush u true true lost else s).isolate u

/-- The force lines that a class's reaction calls for (R419, R421). -/
def linesFor (k : Nat) (x : Reaction) : BitVec 16 :=
  match x with
  | .halt => 0xFFFF#16
  | .safe => 1#16 <<< k
  | .isolate => 1#16 <<< k
  | _ => 0

/-- HALT (R421); a start in progress fails (R474). -/
def State.haltAll (s : State) (src : Nat) : State :=
  if s.watch.fstate == .halted then s
  else
    let s := s.modWatch fun w => { w with fstate := .halted, quiet := none }
    let s := { s with reeve := { s.reeve with halted := true }, steward := { s.steward with halted := true } }
    (s.postEvent 336 0x95 src).abortStart 0x0F

/-- A reaction takes effect. -/
def State.react (s : State) (r : Raise) (x : Reaction) (bad : List (Nat × Nat)) : State :=
  let s := s.modWatch fun w => { w with lines := w.lines ||| linesFor (classOf r.src) x }
  let s := if 3 ≤ x.code && !r.forced then (s.unitsOf r).foldl (State.isolateUnit bad) s else s
  if x == .halt then s.haltAll r.src else s

/-- The fault state unless it is HALTED, which only a full reset ends (R421). -/
def Watch.unlessHalted (w : Watch) (x : FState) : FState :=
  if w.fstate == .halted then .halted else x

/-- The Steward events that a raise sets in EVPEND (R229, log 98): the Watch's, and that of the Reeve or of
the HBM controllers for a fault of theirs. -/
def eventsOf (src : Nat) : BitVec 7 :=
  if src = 236 then 0x06#7 else if 192 ≤ src ∧ src < 212 then 0x42#7 else 0x02#7

/-- A raise reaches the Watch (R418, R425, R426): it opens a handling or merges into the one in
progress, under the last WATCH_CONFIG (R430).  Once HALTED the state stays so. -/
def State.raiseAt (s : State) (r : Raise) (bad : List (Nat × Nat)) : State :=
  let k := classOf r.src
  let x := s.reactionOf k
  let s := s.modWatch fun w => { w with
    srcCount := w.srcCount.bump r.src, quiet := none, quietTime := w.quietNext, budget := w.budgetNext }
  let s := { s with steward := { s.steward with evPend := s.steward.evPend ||| eventsOf r.src } }
  let ev := fun (m : Bool) => if x == .record then [] else [(r, m)]
  let s := match s.watch.cur with
    | none =>
      (s.modWatch fun (w : Watch) => { w with
        fstate := w.unlessHalted .handling
        cur := some { first := r, reaction := x, merged := 0, classes := 2 ^ k, events := ev false } }
      ).watchBump .faults
    | some h =>
      (s.modWatch fun w => { w with
        merged := true
        cur := some { h with reaction := h.reaction.max x, merged := h.merged + 1
                             classes := h.classes ||| 2 ^ k, events := h.events ++ ev true } }
      ).watchBump .merges
  s.react r x bad

/-- FCODEs of a source (R417). -/
def fcodesOf (src : Nat) : List Nat :=
  if src < 64 then [1, 2, 3, 4, 5]
  else if src < 128 then [0x10, 0x11, 0x12, 0x13, 0x14, 0x15]
  else if src < 192 then [0x20, 0x21, 0x22]
  else if src < 208 then [0x30, 0x31]
  else if src < 212 then [0x32, 0x33]
  else if src < 228 then [0x40, 0x41]
  else match src with
    | 228 => [0x48]
    | 229 => [0x49]
    | 230 => [0x50]
    | 231 => [0x51]
    | 232 => [0x58]
    | 233 => [0x59]
    | 234 => [0x60, 0x61]
    | 235 => [0x68]
    | 236 => [0x70]
    | 237 => [0x78]
    | 238 => [0x80]
    | 239 => [0x88]
    | 240 => [0x90]
    | 241 => [0x91]
    | 242 => [0x98]
    | _ => []

/-- FAULT_RAISE (R424, R425): a raise that a unit has detected reaches the Watch; one that no unit of
the model detects is detected now (log 21).  `data.bad` gives the packets of the cells that it flushes whose
sideband cannot be read, by cell and place (R140, R141). -/
def execFaultRaise (src fcode : BitVec 8) (data : RaiseData) (s : State) :
    Host.Outcome State Fault Refusal :=
  let mine := fun (r : Raise) => r.src == src.toNat && r.fcode == fcode.toNat && r.data == data.data.toNat
  let take := fun (s : State) (r : Raise) =>
    (s.modWatch fun w => { w with raises := dropFirst (· == r) w.raises }).raiseAt r data.bad
  if s.watch.selfStall then .next s
  else match s.watch.raises.find? mine with
    | some r => .next (take s r)
    | none =>
      if !(fcodesOf src.toNat).contains fcode.toNat then .next s
      else
        let s := s.detect src.toNat fcode.toNat data.data.toNat
        match s.watch.raises.find? mine with
        | some r => .next (take s r)
        | none => .next s

/-! ## The log (R431-R433) -/

/-- The log memory is lost (R433): the last-gasp record names a source. -/
def State.lastGasp (s : State) (src : Nat) : State :=
  if s.watch.logLost then s
  else
    let s := s.modWatch fun w => { w with logLost := true, lastGasp := some (s.time.t64, src) }
    (s.detect 237 0x78).postEvent 336 0x93 src

/-- The 32 bytes of an entry (R431). -/
def LogEntry.bytes (e : LogEntry) : List Byte :=
  leBytes 8 e.t64.toNat ++ leBytes 4 e.lseq.toNat ++ leBytes 1 e.src ++ leBytes 1 e.fcode ++
  leBytes 1 (e.cls + e.reaction * 16 + b2n e.forced * 128) ++ leBytes 1 e.merge ++
  leBytes 2 e.classes ++ leBytes 1 (b2n e.sticky + 2 * b2n e.halted + 4 * b2n e.broken) ++ [0#8] ++
  leBytes 4 e.recov ++ leBytes 8 e.data

/-- The Steward copies an entry to the fault-log mirror (R431), at the place of its LSEQ (log 204), unless
it is stopped or the stacks are out of reach. -/
def State.mirror (s : State) (e : LogEntry) : State :=
  if s.steward.halted || s.watch.stewardHeld || !s.traceOpen then s
  else s.modResp 8 fun r =>
    r.write ((r.regions.get {} 0xFF7).base + 32 * (e.lseq.toNat % 1024)) e.bytes

/-- The log takes an entry (R431). -/
def State.logPut (s : State) (e : LogEntry) : State :=
  let full := decide (1024 ≤ s.watch.log.length)
  let s := s.modWatch fun w => { w with log := (e :: w.log).take 1024, lseq := w.lseq + 1 }
  if !full then s
  else
    let s := s.watchBump .logWraps
    let n := s.watch.cnt.get 0 (WatchCtr.ctorIdx .logWraps)
    if n % 1024 = 0 then s.postEvent 336 0x94 n else s

/-- The entry of a handling (R431). -/
def Watch.entry (w : Watch) (h : Handling) : LogEntry :=
  { t64 := h.first.t64, lseq := w.lseq, src := h.first.src, fcode := h.first.fcode
    cls := classOf h.first.src, reaction := h.reaction.code, forced := h.first.forced
    merge := min h.merged 255, classes := h.classes, sticky := w.sticky
    halted := w.fstate == .halted, broken := w.broken, recov := h.first.recov, data := h.first.data }

/-- DATA0 of a class's event (R434). -/
def Raise.data0 (r : Raise) (x : Reaction) : Nat :=
  r.src + r.fcode * 2 ^ 8 + x.code * 2 ^ 16 + b2n r.forced * 2 ^ 19

/-- HANDLING_END (R425, R431, R434): the entry is written, or lost with the log memory, the events
are raised, and the state becomes FAULTED. -/
def execHandlingEnd (logErr : Bool) (s : State) : Host.Outcome State Fault Refusal :=
  match s.watch.cur with
  | none => .next s
  | some h =>
    if s.watch.selfStall then .next s
    else
      let s := if logErr then s.lastGasp h.first.src else s
      let lseq := if s.watch.logLost then 0xFFFFFFFF else s.watch.lseq.toNat
      let e := s.watch.entry h
      let s := if s.watch.logLost then s else (s.logPut e).mirror e
      let s := s.traceFault h.first.src h.first.fcode lseq h.reaction.code
      let s := s.modWatch fun w => { w with
        cur := none, fstate := w.unlessHalted .faulted }
      let s := s.modWatch (Watch.quietRun s.time.now)
      .next (h.events.foldl (fun s e =>
        s.postEvent (320 + classOf e.1.src) (if e.2 then 0x81 else 0x80) (e.1.data0 h.reaction) lseq) s)

/-- LOG_SCRUB (R433): the scrub finds an error in the log memory. -/
def execLogScrub (s : State) : Host.Outcome State Fault Refusal := .next (s.lastGasp 237)

/-! ## Conditions and recovery (R425-R429, R434) -/

/-- Conditions that end outside the units whose commands end the others (log 21). -/
def endsOutside (src fcode : Nat) : Bool :=
  (208 ≤ src && src ≤ 211) || src == 231 || src == 240 || (212 ≤ src && src ≤ 227 && fcode == 0x40)

/-- CONDITION_END (R417, R434). -/
def execConditionEnd (src fcode : BitVec 8) (s : State) : Host.Outcome State Fault Refusal :=
  if !endsOutside src.toNat fcode.toNat then .next s
  else
    let s := if src = 240#8 then { s with board := { s.board with refclk := true } } else s
    .next (s.endLevel src.toNat fcode.toNat)

/-- FAULTED ends (R425): the force lines deassert, but for those of the Watch's own stall (R422). -/
def Watch.toIdle (w : Watch) : Watch :=
  { w with fstate := .idle, quiet := none, sticky := false
           lines := if w.selfStall then 0xFFFF#16 else 0 }

/-- Recoveries of the last 3,600 s (R428). -/
def Watch.recent (w : Watch) (now : Nat) : List Nat :=
  w.recTimes.filter fun t => decide (now < t + 3600000000000)

/-- QUIET_PERIOD_EXPIRY (R427, R428): the quiet period passes, and with it the instant at which a raise
would have won (R444); the fault state recovers, or becomes sticky when the budget is spent. -/
def execQuietPeriodExpiry (s : State) : Host.Outcome State Fault Refusal :=
  match s.watch.quiet with
  | none => .next s
  | some t0 =>
    if s.watch.fstate != .faulted || s.watch.selfStall then .next s
    else
      let s := s.reach (t0 + s.watch.quietTime + 1)
      let l := s.watch.recent s.time.now
      if l.length + 1 ≤ s.watch.budget then
        let s := s.modWatch fun w =>
          { w.toIdle with recovered := true, recTimes := l ++ [s.time.now] }
        let s := s.watchBump .recoveries
        .next (s.postEvent 336 0x90 (s.watch.cnt.get 0 (WatchCtr.ctorIdx .recoveries)) (l.length + 1))
      else
        let s := s.modWatch fun w => { w with sticky := true, quiet := none, recTimes := l }
        let s := s.watchBump .stickyCount
        .next (s.postEvent 336 0x91 (s.watch.cnt.get 0 (WatchCtr.ctorIdx .recoveries)) l.length)

/-! ## PROTECT pairs (R435, R436) -/

/-- Tag or ARG0 of a copy (R417). -/
def Transfer.data : Transfer → Nat
  | .token t => t.tag.pack.toNat
  | .req h g n .. =>
    h + g * 2 ^ 16 + (match n with
      | 1 => 0
      | 2 => 1
      | 4 => 2
      | 8 => 3
      | _ => 4) * 2 ^ 26

def Transfer.isReq : Transfer → Bool
  | .token _ => false
  | .req .. => true

/-- Both cells of a pair retire what their port has let go. -/
def State.retirePair (s : State) (k : Nat) : State :=
  (s.retireCell (2 * k)).retireCell (2 * k + 1)

/-- PAIR_COMPARE (R435): the oldest copies of both cells are compared. -/
def execPairCompare (k : Fin 64) (s : State) : Host.Outcome State Fault Refusal :=
  let p := s.pairPort k.val
  if p.stalled || p.pass then .next s
  else match p.even, p.odd with
    | a :: es, b :: os =>
      let s := s.modPair k.val fun p => { p with even := es, odd := os }
      if a.xfer = b.xfer then .next ((s.pairRelease k.val a (some b)).retirePair k.val)
      else
        let s := (s.watchBump .pairDiscard).detect k.val (if a.xfer.isReq then 0x02 else 0x01) a.xfer.data
        .next (((s.pairLost (2 * k.val) a).pairLost (2 * k.val + 1) b).retirePair k.val)
    | _, _ => .next s

/-- SKEW_TIMEOUT (R436): a copy has waited 2 us without the other, which comes later than that. -/
def execSkewTimeout (k : Fin 64) (s : State) : Host.Outcome State Fault Refusal :=
  let p := s.pairPort k.val
  let skew := fun (n : Nat) (o : Offered) (s : State) =>
    let s := (s.reach (o.t + 2001)).watchBump .pairDiscard
    ((s.detect k.val 0x03 o.xfer.data).pairLost n o).retirePair k.val
  if p.stalled || p.pass then .next s
  else match p.even, p.odd with
    | a :: es, [] => .next (skew (2 * k.val) a (s.modPair k.val fun p => { p with even := es }))
    | [], b :: os => .next (skew (2 * k.val + 1) b (s.modPair k.val fun p => { p with odd := os }))
    | _, _ => .next s

/-! ## The Steward's lockstep and the comparators (R437, R441) -/

/-- STEWARD_COMPARE (R437): copies that differ are held. -/
def execStewardCompare (addr : BitVec 64) (agree : Bool) (s : State) :
    Host.Outcome State Fault Refusal :=
  if agree || s.watch.stewardPass || s.watch.stewardHeld then .next s
  else .next ((s.modWatch fun w => { w with stewardHeld := true }).detect 232 0x58 addr.toNat)

/-- COMPARATOR_STALL (R441, R422). -/
def execComparatorStall (c : Comparator) (s : State) : Host.Outcome State Fault Refusal :=
  match c with
  | .pair k =>
    if (s.pairPort k.val).stalled then .next s
    else
      let s := (s.modPair k.val fun p => { p with stalled := true }).detect k.val 0x04
      .next ((s.isolate (2 * k.val)).isolate (2 * k.val + 1))
  | .steward =>
    if s.watch.levels.contains (233, 0x59) then .next s
    else .next ((s.modWatch fun w => { w with stewardHeld := true }).detect 233 0x59)
  | .watch => .next (s.modWatch fun w => { w with selfStall := true, lines := 0xFFFF#16 })

/-- TRIP_READBACK_MISMATCH (R417): trip pins differ from their driven state for 2 us. -/
def execTripReadbackMismatch (pins : BitVec 32) (s : State) : Host.Outcome State Fault Refusal :=
  if pins = 0 then .next s else .next (s.detect 231 0x51 pins.toNat)

/-! ## Messages to the Steward (R443) -/

/-- The Steward firmware has taken messages from the mailbox, the oldest first: how many, the spec leaves
open (R443, log 207).  A halted or held Steward takes none. -/
def State.mailTaken (s : State) : State :=
  if s.steward.halted || s.watch.stewardHeld then s
  else
    let (v, s) := s.draw
    s.modWatch fun w => { w with mbox := w.mbox.drop (v.toNat % (w.mbox.length + 1)) }

/-- STEWARD_MESSAGE (R443, R36): a management message is queued or discarded. -/
def execStewardMessage (src : BitVec 8) (t : Token) (ue : UnitErr) (s : State) :
    Host.Outcome State Fault Refusal :=
  if t.tag.dest.toNat != 0x90 || !s.arrivable src.toNat t then .next s
  else
    let s := s.unitErr ue
    if s.cutOff 0x90 then .next (s.endpointAbsorb src.toNat t 0x90)
    else
    let s := s.endpointTake src.toNat t 0x90
    let s := s.mailTaken
    let t := t.after ue
    if t.tag.poison then .next (s.watchBump .mboxPoison)
    else if 64 ≤ s.watch.mbox.length then .next (s.watchBump .mboxFull)
    else .next (s.modWatch fun w => { w with mbox := w.mbox ++ [t] })

/-- WATCH_STATUS (R446). -/
def Watch.status (w : Watch) : Nat :=
  w.fstate.code + 4 * b2n w.sticky + 8 * b2n w.logLost + 16 * b2n w.broken + 32 * b2n w.recovered +
  64 * b2n w.merged + 256 * w.lines.toNat

end Sys2Proof.Machine
end

