-- ==== Sys2Proof/Machine/Debug.lean ====
section
/-! DEFINITION. Debug of a cell pair (16_watch.md R442, 20_trace.md R519-R521): the commands of
STOP_CTRL, and the breaking and restoring of lockstep. -/

namespace Sys2Proof.Machine

/-- The bank whose firing is in the debug stop of a cell (R520). -/
def Cell.stoppedBank (c : Cell) : Option Bool :=
  if !c.dbg.stopped then none
  else if c.p.hdr.isSome then some true
  else if c.m.hdr.isSome then some false
  else none

def cellEngine (n : Nat) : Engine := .cell ⟨n % 128, Nat.mod_lt n (by decide)⟩

/-- RUN, or STEP, of one cell (R520): as RESUME, the values written to XREC applied. -/
def State.runCell (s : State) (n : Nat) (stepping : Bool) : State :=
  match (s.cell n).stoppedBank with
  | none => s
  | some x =>
    let e := cellEngine n
    let s := s.traceDebug n (if stepping then 3 else 2) (s.bank e x).x0
    let s := s.modBank e x fun b => { b with regs := b.resumed false b.regs }
    let s := s.modCell n fun c =>
      { c with dbg := { c.dbg with stopped := false, stepping := stepping, passed := true } }
    s.engBump n .excResumed

/-- KILL of one cell (R520): the firing ends by exception with code BREAK. -/
def State.killCell (s : State) (n : Nat) : State :=
  match (s.cell n).stoppedBank with
  | none => s
  | some x =>
    let s := s.traceDebug n 4 (s.bank (cellEngine n) x).x0
    let s := s.modCell n fun c =>
      { c with dbg := { c.dbg with stopped := false, stepping := false, passed := false } }
    s.endByException n x 0x0A

/-- STOP_CTRL acts on both cells of a pair with debug enabled (R518, R520). -/
def State.stopCtrl (s : State) (k : Nat) (f : State → Nat → State) : State :=
  if (s.pairPort k).pass then f (f s (2 * k)) (2 * k + 1) else s

/-- RUN (R520). -/
def execRun (k : Fin 64) (s : State) : Host.Outcome State Fault Refusal :=
  .next (s.stopCtrl k.val fun s n => s.runCell n false)

/-- STEP (R520). -/
def execStepOne (k : Fin 64) (s : State) : Host.Outcome State Fault Refusal :=
  .next (s.stopCtrl k.val fun s n => s.runCell n true)

/-- KILL (R520). -/
def execKill (k : Fin 64) (s : State) : Host.Outcome State Fault Refusal :=
  .next (s.stopCtrl k.val State.killCell)

/-- Every epoch that has begun and is not varnished overlaps LOCKSTEP_BROKEN (R442, R324). -/
def State.markUnprotected (s : State) : State :=
  { s with writer := { s.writer with
      epochs := s.writer.epochs.map fun e => if e.varnished then e else { e with unprotected := true } } }

/-- DEBUG_ENABLE 1 for a pair (R442): what is held at the port leaves as in pass mode. -/
def State.breakPair (s : State) (k : Nat) : State :=
  let p := s.pairPort k
  if p.pass then s
  else
    let s := s.modPair k fun p => { p with pass := true, even := [], odd := [] }
    let s := (p.even.zip (p.odd.map some ++ List.replicate p.even.length none)).foldl
      (fun s e => s.pairRelease k e.1 e.2) s
    (s.detect 234 0x61 k).markUnprotected.retirePair k

/-- DEBUG_ENABLE 0 for a pair (R442, R519, R523): a stop ends as KILL, the breakpoints clear, and
comparison is restored. -/
def State.restorePair (s : State) (k : Nat) : State :=
  if !(s.pairPort k).pass then s
  else
    let s := (s.killCell (2 * k)).killCell (2 * k + 1)
    let s := [2 * k, 2 * k + 1].foldl (fun s n => s.modCell n fun c => { c with dbg := {} }) s
    let s := s.modPair k fun p => { p with pass := false, even := [], odd := [] }
    if s.watch.pairs.any fun e => e.2.pass then s else s.endLevel 234 0x61

/-- DEBUG_ENABLE 1 for the Steward (R442). -/
def State.breakSteward (s : State) : State :=
  if s.watch.stewardPass then s
  else ((s.modWatch fun w => { w with stewardPass := true }).detect 234 0x60).markUnprotected

end Sys2Proof.Machine
end

