-- ==== Sys2Proof/Machine/Host.lean ====
section
/-! DEFINITION. The host hub (15_host.md): doorbells, the fetch and the checks of a descriptor, the
parameter records, the event raiser, the completion writer and MSI-X. -/

namespace Sys2Proof.Machine

def State.modHost (f : HostIf → HostIf) (s : State) : State := { s with host := f s.host }

def State.cmdRing (s : State) (r : Nat) : CmdRing := s.host.cmd.get {} r
def State.cplRing (s : State) (q : Nat) : CplRing := s.host.cpl.get {} q

def State.modCmd (r : Nat) (f : CmdRing → CmdRing) (s : State) : State :=
  s.modHost fun h => { h with cmd := h.cmd.upd {} r f }

def State.modCpl (q : Nat) (f : CplRing → CplRing) (s : State) : State :=
  s.modHost fun h => { h with cpl := h.cpl.upd {} q f }

/-- The hub may issue memory requests (R386). -/
def State.busMaster (s : State) : Bool := s.host.bme && !s.host.d3hot && s.host.linkUp

/-! ## Fetching (R391, R393) -/

def CmdRing.size (c : CmdRing) : Nat := 2 ^ c.sizeLog2
def CplRing.size (c : CplRing) : Nat := 2 ^ c.sizeLog2

/-- The Steward carries out the management commands (R19): while a debugger has halted it they wait
(R521, log 243), unless the Watch takes them in HALTED (R421). -/
def State.manager (s : State) : Bool := !s.steward.halted || s.watch.fstate == .halted

/-- A command ring has unfetched work and executes no descriptor (R393, R408, R412). -/
def State.fetchable (s : State) (r : Nat) : Bool :=
  let c := s.cmdRing r
  s.serving && s.manager && s.busMaster && c.en && c.tail != c.cseq.toNat % c.size && c.item.isNone &&
  !(s.host.running.any fun x => x.ring == r && x.live) && (s.power.phase != .lantern || r == 0)

/-- It is the ring's turn in the rotation (R393). -/
def State.fetchTurn (s : State) (r : Nat) : Bool :=
  ((List.range 64).map fun i => (s.host.fetchNext + i) % 64).find? s.fetchable == some r

/-! ## The descriptor (R392, R395) -/

end Sys2Proof.Machine

namespace Sys2Proof

/-- Offset and size of each ARGS field (R395). -/
def argPlaces : List Nat → Nat → List (Nat × Nat)
  | [], _ => []
  | n :: l, o =>
    let a := (o + n - 1) / n * n
    (a, n) :: argPlaces l (a + n)

/-- Bytes of ARGS at an offset of the descriptor. -/
def Desc.argAt (d : Desc) (o n : Nat) : Nat := d.args.toNat / 2 ^ (8 * (o - 32)) % 2 ^ (8 * n)

/-- Field `k` of ARGS. -/
def Desc.arg (d : Desc) (sizes : List Nat) (k : Nat) : Nat :=
  let p := (argPlaces sizes 32).getD k (32, 0)
  d.argAt p.1 p.2

/-- ARGS bytes that no field covers and that are not zero (R395). -/
def Desc.stray (d : Desc) (sizes : List Nat) : List Nat :=
  let l := argPlaces sizes 32
  ((List.range 32).map (· + 32)).filter fun o =>
    !(l.any fun p => decide (p.1 ≤ o) && decide (o < p.1 + p.2)) && d.argAt o 1 != 0

end Sys2Proof

namespace Sys2Proof.Machine

/-- What a command's rules say of a descriptor before it is carried out (R10, R398). -/
structure CmdSpec where
  op       : Nat
  /-- The command is valid on command ring 0 alone (R390). -/
  ring0    : Bool := false
  lantern  : Bool := false
  sizes    : List Nat := []
  /-- TARGET is in range. -/
  target   : Bool
  /-- Bytes of host buffer that the command needs. -/
  need     : Nat := 0
  /-- The command reads its host buffer. -/
  input    : Bool := false
  /-- Offsets found misaligned, and offsets or record numbers out of range (R397). -/
  align    : List Nat := []
  range    : List Nat := []
  presence : Bool := false
  /-- RESEAL needs only PRESENT (R450). -/
  keyOnly  : Bool := false
  /-- The later checks of R10 in order: a status and whether it applies. -/
  fails    : List (Nat × Bool) := []
  /-- The Watch carries the command out while HALTED (R421). -/
  halted   : Bool := false
  /-- The command's own late checks end REST when they pass: a rejection ends nothing (R8, R483). -/
  late     : Bool := false
  deriving DecidableEq, Repr

/-- The opcodes of R398. -/
def knownOps : List Nat :=
  [1, 2, 3, 4, 5, 6, 7, 8, 0x101, 0x102, 0x103, 0x104, 0x105, 0x106, 0x107, 0x108, 0x109,
   0x201, 0x202, 0x203, 0x204, 0x301, 0x302, 0x303, 0x304, 0x305, 0x306, 0x307, 0x308,
   0x401, 0x402, 0x403, 0x501, 0x502, 0x503, 0x504, 0x505, 0x601, 0x602,
   0x701, 0x702, 0x703, 0x704, 0x705, 0x706, 0x707, 0x708, 0x709, 0x70A, 0x70B]

/-- The least of a list of offsets: the first field found wrong (R397). -/
def least : List Nat → Option Nat
  | [] => none
  | a :: l => match least l with
    | none => some a
    | some b => some (min a b)

/-- E_ALIGN (R394). -/
def CmdSpec.misaligned (c : CmdSpec) (d : Desc) : Option Nat :=
  least ((if d.hlen != 0 && d.haddr.toNat % 64 != 0 then [16] else []) ++
    (if d.hlen.toNat % 4 != 0 then [24] else []) ++ c.align)

/-- E_RANGE (R393-R395). -/
def CmdSpec.outOfRange (c : CmdSpec) (d : Desc) (cseq : BitVec 16) : Option Nat :=
  least ((if d.cseq != cseq then [2] else []) ++
    (if d.dflags.toNat / 2 != 0 then [4] else []) ++ (if d.zero != 0 then [5] else []) ++
    (if d.hlen == 0 && d.haddr != 0 then [16] else []) ++
    (if decide (2 ^ 28 < d.hlen.toNat) || decide (d.hlen.toNat < c.need) then [24] else []) ++
    (if c.target then [] else [28]) ++ d.stray c.sizes ++ c.range)

/-- Presence is PRESENT and the seal SEALED (R450). -/
def State.authorised (s : State) : Bool := s.aon.present && s.aon.sealSt == .sealed

/-- What the buffer holds: HLEN bytes, none when it cannot be read (R394). -/
def bufBytes (d : Desc) : HostBuf → List Byte
  | .data l => bytesAt l 0 d.hlen.toNat
  | _ => []

/-- The first check that a descriptor of ring `r` fails (R10), with its DETAIL and RESULT.  In Lantern
mode an OPCODE that names no command draws E_LANTERN, as one not marked L does (log 257). -/
def State.firstFail (s : State) (r : Nat) (c : CmdSpec) (d : Desc) (cseq : BitVec 16) :
    Option (Nat × Nat × Nat) :=
  let known := knownOps.contains d.opcode.toNat && (r == 0 || !c.ring0)
  if s.power.phase == .lantern && !(c.lantern && known) then some (eLantern, 0, 0)
  else if !known then some (eOpcode, 0, 0)
  else match c.misaligned d with
    | some o => some (eAlign, o, 0)
    | none => match c.outOfRange d cseq with
      | some o => some (eRange, o, if o = 2 then cseq.toNat else 0)
      | none =>
        if c.presence && !(if c.keyOnly then s.aon.present else s.authorised) then some (ePresence, 0, 0)
        else
          let l := (c.fails.filter fun f => f.1 == eLocked) ++
            [(eState, s.watch.fstate == .halted && !c.halted)] ++ c.fails.filter fun f => f.1 != eLocked
          match l.find? (·.2) with
          | some f => some (f.1, 0, 0)
          | none => none

/-- A command is carried out to its end. -/
def State.finish (s : State) (r : Nat) (d : Desc) (status : Nat := stOk) (result : Nat := 0)
    (out : List Byte := []) : State :=
  s.complete r d true status 0 result out

/-- A command waits. -/
def State.await (s : State) (r : Nat) (d : Desc) (w : Wait) : State :=
  s.modHost fun h => { h with
    running := h.running ++ [{ ring := r, desc := d, live := true, wait := w, t0 := s.time.now }] }

/-- A descriptor is fetched: it consumes its slot (R393). -/
def State.fetched (s : State) (r : Nat) : State :=
  (s.modCmd r fun c => { c with cseq := c.cseq + 1 }).modHost (fun h =>
    { h with fetchNext := (r + 1) % 64 }) |>.hostBump .descFetched

/-- The opcodes that leave the device in REST (R483). -/
def sleepOps : List Nat := [1, 2, 3, 4, 5, 6, 7, 0x704, 0x70A]

/-- A host command (R393): the descriptor of a ring is fetched, checked in the order of R10, its
input buffer read, and the command carried out.  A descriptor with another command's opcode is not
this command's. -/
def State.hostCmd (s : State) (r : Fin 64) (d : Desc) (b : HostBuf) (c : CmdSpec)
    (go : List Byte → State → State) : State :=
  let op := d.opcode.toNat
  if !s.fetchTurn r.val || (op != c.op && knownOps.contains op) then s
  else
    let cseq := (s.cmdRing r.val).cseq
    let s := s.fetched r.val
    match s.firstFail r.val c d cseq with
    | some (st, det, res) =>
      let s := if st = ePresence then s.aonBump .presenceReject
        else if st = eGuar then s.reeveBump .guaranteeReject else s
      s.complete r.val d true st det res []
    | none =>
      let wake := fun (s : State) => if sleepOps.contains c.op || c.late then s else s.leaveRest
      if c.input && d.hlen != 0 then
        match b with
        | .data _ => go (bufBytes d b) (wake s)
        | .timeout => (s.hostBump .hostReadFail).finish r.val d eTimeout
        | .failed => (s.hostBump .hostReadFail).finish r.val d ePoison
      else go [] (wake s)

/-! ## Parameter records (R396) -/

/-- A row of a parameter table: which values it takes, and whether the value takes two records. -/
structure PRow where
  ok   : Nat → Bool
  wide : Bool := false

/-- An enumerated value of `n` names. -/
def rowEnum (n : Nat) : PRow := { ok := fun v => decide (v < n) }

/-- A number from `lo` to `hi`. -/
def rowNat (lo hi : Nat) : PRow := { ok := fun v => decide (lo ≤ v) && decide (v ≤ hi) }

/-- A time from `lo` to `hi` ns in steps of `step` ns. -/
def rowTime (lo hi step : Nat) : PRow :=
  { ok := fun v => decide (lo ≤ v) && decide (v ≤ hi) && v % step == 0 }

/-- A row that the command does not take. -/
def rowNone : PRow := { ok := fun _ => false }

/-- Parameters by number, or the index of the first record found wrong. -/
abbrev Params := Except Nat (List (Nat × Nat))

/-- The records of a buffer from index `i` on. -/
def parseRecs (rows : List PRow) : Nat → Nat → List Byte → List (Nat × Nat) → Params
  | 0, _, _, acc => .ok acc
  | fuel + 1, i, l, acc =>
    if l.isEmpty then .ok acc
    else
      let p := leAt l 0 2
      let v := leAt l 8 8
      let row := rows.getD (p - 1) rowNone
      let bad := p == 0 || decide (rows.length < p) || !zeroAt l 2 6 || acc.any fun e => e.1 == p
      if bad then .error i
      else if row.wide then
        let l2 := l.drop 16
        if l2.isEmpty || leAt l2 0 2 != p || !zeroAt l2 2 6 then .error i
        else
          let w := v + leAt l2 8 8 * 2 ^ 64
          if row.ok w then parseRecs rows fuel (i + 2) (l.drop 32) (acc ++ [(p, w)]) else .error i
      else if row.ok v then parseRecs rows fuel (i + 1) (l.drop 16) (acc ++ [(p, v)])
      else .error i

/-- The parameter records of a command's buffer. -/
def params (rows : List PRow) (d : Desc) (b : HostBuf) : Params :=
  match b with
  | .data _ => parseRecs rows 64 0 (bufBytes d b) []
  | _ => .ok []

/-- DETAIL of a record found wrong (R397). -/
def recDetail (i : Nat) : Nat := 0x80000000 + i

/-- The records found wrong. -/
def Params.bad (p : Params) : List Nat :=
  match p with
  | .ok _ => []
  | .error i => [recDetail i]

def Params.get (p : Params) (k : Nat) : Option Nat :=
  match p with
  | .ok l => (l.find? fun e => e.1 == k).map (·.2)
  | .error _ => none

/-- A parameter's value, or what it is now. -/
def Params.val (p : Params) (k old : Nat) : Nat := (p.get k).getD old

/-- The record of a parameter, for DETAIL: records of wide values apart, its place in the list. -/
def Params.index (p : Params) (k : Nat) : Nat :=
  match p with
  | .ok l => recDetail ((l.map (·.1)).findIdx (· == k))
  | .error i => recDetail i

/-- HLEN of a buffer of 1 to 64 records (R396); `opt` allows none. -/
def recLen (d : Desc) (opt : Bool := false) : List Nat :=
  let n := d.hlen.toNat
  if (opt && n == 0) || (n % 16 == 0 && decide (16 ≤ n) && decide (n ≤ 1024)) then [] else [24]

/-! ## Doorbells (R389) -/

/-- BAR2, BAR4 and RING_EN have effect: the link is trained and READY is 1 (R470). -/
def State.barLive (s : State) : Bool := s.host.linkUp && s.serving

/-- TAIL_DOORBELL. -/
def execTailDoorbell (offset : BitVec 16) (size : BitVec 4) (value : BitVec 32) (s0 : State) :
    Host.Outcome State Fault Refusal :=
  let live := s0.barLive
  let s := s0.hostBump .dbWrites
  let o := offset.toNat
  let r := o / 256
  let c := s.cmdRing r
  let v := value.toNat
  if !live then .next s0
  else if size != 4#4 || o % 256 != 0 || decide (0x4000 ≤ o) || decide (2 ^ 12 ≤ v) || !c.en ||
      decide (c.size ≤ v) || (s.power.phase == .lantern && r != 0) then
    .next (s.hostBump .dbBad)
  else
    let s := s.modCmd r fun c => { c with tail := v }
    .next { s with steward := { s.steward with evPend := s.steward.evPend ||| 0x01#7 } }

/-- Records of a completion ring that the host has not read (R391). -/
def CplRing.unread (c : CplRing) : Nat := (c.rseq.toNat % c.size + c.size - c.head) % c.size

/-- The MSI-X message of a vector: sent, or its PBA bit set while it is masked or while no message
can leave (R386, R411, R414). -/
def State.message (s : State) (v : Nat) : State :=
  let e := s.host.msix.get {} v
  if e.masked || !s.host.msixEn || !s.busMaster then s.modHost fun h => { h with pba := h.pba ||| (1#64 <<< v) }
  else (s.emit (.msix v e.addr e.data)).hostBump .msixSent

/-- The ring's message is sent, which clears ARMED (R411). -/
def State.signal (s : State) (q : Nat) : State :=
  if !s.host.msixEn then s
  else
    let s := s.message (s.cplRing q).vector
    s.modCpl q fun c => { c with armed := false, since := 0, oldest := none }

/-- THRESH or a HOLDOFF of zero is met (R411). -/
def CplRing.due (c : CplRing) (now : Nat) : Bool :=
  c.armed && (decide (c.thresh ≤ c.since) ||
    match c.oldest with
    | some t => decide (t + 1000 * c.holdoff ≤ now)
    | none => false)

def State.judgeRing (s : State) (q : Nat) : State :=
  if (s.cplRing q).due s.time.now then s.signal q else s

/-- HEAD_DOORBELL (R389, R411). -/
def execHeadDoorbell (offset : BitVec 16) (size : BitVec 4) (value : BitVec 32) (s0 : State) :
    Host.Outcome State Fault Refusal :=
  let s := s0.hostBump .dbWrites
  let o := offset.toNat
  let q := (o - 0x8000) / 256
  let c := s.cplRing q
  let v := value.toNat % 2 ^ 12
  let arm := value.getLsbD 12
  if !s0.barLive then .next s0
  else if size != 4#4 || o % 256 != 0 || decide (o < 0x8000) || decide (0xC000 ≤ o) ||
      decide (2 ^ 13 ≤ value.toNat) || !c.en || decide (c.size ≤ v) ||
      decide (c.unread < (v + c.size - c.head) % c.size) || (s.power.phase == .lantern && q != 0) then
    .next (s.hostBump .dbBad)
  else
    let s := s.modCpl q fun c => { c with head := v }
    if !arm then .next s
    else
      let s := s.modCpl q fun c =>
        { c with armed := true, oldest := if c.unread = 0 then none else some s.time.now }
      if (s.cplRing q).unread = 0 then .next s else .next (s.judgeRing q)

/-! ## The event raiser and the completion writer (R405, R408, R409) -/

def isCellEv (ev : Nat) : Bool := 64 ≤ ev && ev ≤ 191

/-- Sources with an undelivered record, but the one whose record the writer has. -/
def State.pendEvs (s : State) : List Nat :=
  ((s.host.src.filter fun e => e.2.pend.isSome).map (·.1)).filter fun ev => s.host.evtItem != some ev

/-- The raiser may grant a source now (R408). -/
def State.mayGrant (s : State) (ev : Nat) : Bool :=
  let l := s.pendEvs
  let cells := l.filter isCellEv
  let shared := l.filter fun e => !isCellEv e
  let turn := ((List.range 128).map fun i => 64 + (s.host.evtNext + i) % 128).find? cells.contains
  l.contains ev &&
  (if isCellEv ev then turn == some ev && (shared.isEmpty || decide (s.host.evtRun < 16))
   else cells.isEmpty || decide (16 ≤ s.host.evtRun))

/-- EVENT_RECORD_WRITE (R407, R408): the raiser grants a source's record to the completion writer. -/
def execEventRecordWrite (ev : Fin 512) (s : State) : Host.Outcome State Fault Refusal :=
  let e := ev.val
  if s.host.evtItem.isSome || !s.mayGrant e || !s.serving then .next s
  else
    .next (s.modHost fun h => { h with
      evtItem := some e
      evtHeld := false
      evtRun := if isCellEv e then h.evtRun + 1 else 0
      evtNext := if isCellEv e then (e - 64 + 1) % 128 else h.evtNext })

/-- The bytes of a completion record from RSEQ on (R397). -/
def Cpl.tail (c : Cpl) (ring : Nat) : List Byte :=
  leBytes 2 c.status ++ leBytes 1 ring ++ [0#8] ++ leBytes 2 c.cseq.toNat ++
  leBytes 2 c.opcode.toNat ++ leBytes 4 c.detail ++ leBytes 8 c.tag.toNat ++ leBytes 8 c.result

/-- The bytes of an event record from SOURCE on (R405). -/
def EvtRec.tail (e : EvtRec) (ev : Nat) : List Byte :=
  leBytes 2 ev ++ leBytes 1 e.cause ++ leBytes 1 e.count ++ leBytes 8 e.t64.toNat ++
  leBytes 8 e.data0 ++ leBytes 8 e.data1

/-- A ring takes a record (R391). -/
def CplRing.room (c : CplRing) : Bool := c.en && decide (c.unread + 1 < c.size)

/-- A record is written to a completion ring in the order of R409, and its message judged (R411). -/
def State.writeRecord (s : State) (q : Nat) (rtype flags : Nat) (tail : List Byte) (irqNow : Bool) :
    State :=
  let c := s.cplRing q
  let n := c.rseq.toNat
  let phase := b2n (n / c.size % 2 == 0)
  let l := leBytes 1 rtype ++ leBytes 1 (phase + flags) ++ leBytes 2 n ++ tail
  let a := c.base.toNat + 32 * (n % c.size)
  let s := (s.emit (.hostWrite (a + 8) (l.drop 8) false)).emit (.hostWrite a (l.take 8) false)
  let s := s.modCpl q fun c =>
    { c with rseq := c.rseq + 1, since := c.since + 1, oldest := some (c.oldest.getD s.time.now) }
  if irqNow then s.signal q else s.judgeRing q

/-- What the completion writer may grant: ring items by number and the raiser's item (R408). -/
def State.writerItems (s : State) : List Nat :=
  (List.range 64).filter fun r => (s.cmdRing r).item.isSome

/-- The completion ring of the raiser's item. -/
def State.evtRing (s : State) : Option Nat := s.host.evtItem.map fun ev => (s.host.src.get {} ev).ring

/-- Items that a full ring holds are counted once each (R415). -/
def State.noteHeld (s : State) : State :=
  let s := s.writerItems.foldl (fun s r =>
    let c := s.cmdRing r
    if (s.cplRing c.cplRing).room || c.held then s
    else (s.modCmd r fun c => { c with held := true }).hostBump .cplRingFull) s
  match s.evtRing with
  | some q =>
    if (s.cplRing q).room || s.host.evtHeld then s
    else (s.modHost fun h => { h with evtHeld := true }).hostBump .cplRingFull
  | none => s

/-- COMPLETION_WRITE (R408, R409): the writer grants the next item whose completion ring has room. -/
def execCompletionWrite (s : State) : Host.Outcome State Fault Refusal :=
  if !s.busMaster || !s.serving then .next s
  else
    let s := s.noteHeld
    let free := fun (r : Nat) => (s.cplRing (s.cmdRing r).cplRing).room
    let rings := s.writerItems.filter free
    let evt := match s.evtRing with
      | some q => (s.cplRing q).room
      | none => false
    let turn := ((List.range 64).map fun i => (s.host.cplNext + i) % 64).find? rings.contains
    match turn, s.host.evtItem with
    | some r, ev =>
      if evt && decide (16 ≤ s.host.cplRun) then .next (grantEvt s (ev.getD 0))
      else
        match (s.cmdRing r).item with
        | none => .next s
        | some it =>
          let s := s.modHost fun h => { h with cplNext := (r + 1) % 64, cplRun := h.cplRun + 1 }
          let s := if it.out.isEmpty then s else s.emit (.hostWrite it.haddr.toNat it.out true)
          let q := (s.cmdRing r).cplRing
          let s := s.modCmd r fun c => { c with item := none, held := false }
          .next ((s.writeRecord q 0x01 0 (it.tail r) it.irqNow).hostBump .cplWritten)
    | none, some ev => if evt then .next (grantEvt s ev) else .next s
    | none, none => .next s
where
  /-- The raiser's item is granted: its record is delivered. -/
  grantEvt (s : State) (ev : Nat) : State :=
    let e := s.host.src.get {} ev
    match e.pend with
    | none => s
    | some x =>
      let s := s.modHost fun h => { h with
        evtItem := none, evtHeld := false, cplRun := 0
        src := h.src.set {} ev { e with pend := none } }
      let flags := 2 * b2n x.poison + 4 * b2n x.coalesced + 8 * b2n x.trunc
      (s.writeRecord e.ring 0x02 flags (x.tail ev) false).hostBump .evtWritten

/-- HOLDOFF_EXPIRY (R411): HOLDOFF has passed since the oldest unsignalled record of an armed ring. -/
def execHoldoffExpiry (q : Fin 64) (s : State) : Host.Outcome State Fault Refusal :=
  let c := s.cplRing q.val
  match c.oldest with
  | some t =>
    if c.en && c.armed then .next ((s.reach (t + 1000 * c.holdoff)).signal q.val) else .next s
  | none => .next s

/-- A vector whose message waits in the PBA sends it, once nothing holds it (R411, R414). -/
def State.resend (s : State) (v : Nat) : State :=
  if s.host.pba.getLsbD v then
    (s.modHost fun h => { h with pba := h.pba &&& ~~~(1#64 <<< v) }).message v
  else s

/-- MSIX_VECTOR_UNMASK (R411, R414): a message that waited in the PBA is sent. -/
def execMsixVectorUnmask (v : Fin 64) (s : State) : Host.Outcome State Fault Refusal :=
  let s := s.modHost fun h =>
    { h with msix := h.msix.upd {} v.val fun e => { e with masked := false } }
  .next (s.resend v.val)

/-- PCIE_CONFIG_WRITE (R386, R411): once messages can leave, those that wait are sent and every ring
is judged. -/
def execPcieConfigWrite (bme : Bool) (d3hot : Bool) (msixEn : Bool) (s : State) :
    Host.Outcome State Fault Refusal :=
  let s := s.modHost fun h => { h with bme := bme, d3hot := d3hot, msixEn := msixEn }
  if !msixEn || !s.busMaster then .next s
  else
    let s := (List.range 64).foldl State.resend s
    .next ((List.range 64).foldl State.judgeRing s)

/-- Every ring is disabled, and what ran on it completes unseen (R386, R390). -/
def State.ringsDown (s : State) : State :=
  let items := s.writerItems.length
  let s := s.modHost fun h => { h with
    cmd := [], cpl := [], running := h.running.map fun x => { x with live := false } }
  let s := s.hostBump .cplDiscard items
  { s with setup := { s.setup with ringEn := false, ringsUp := false } }

/-- HOST_RESET (R386): the rings, the event routes and the MSI-X table reset, and nothing else. -/
def execHostReset (kind : HostReset) (s : State) : Host.Outcome State Fault Refusal :=
  let s := s.ringsDown
  let s := { s with setup := { s.setup with
    ringErr := false, errCode := 0, crBase := 0, crSize := 0, cqBase := 0, cqSize := 0, cqVector := 0 } }
  let s := s.modHost fun h => { h with
    src := h.src.foldl (fun t e => Tab.set {} t e.1 { e.2 with ring := 0, en := true }) []
    msix := [], pba := 0, msixEn := false, bme := false, d3hot := false
    linkUp := if kind == .linkDown then false else h.linkUp }
  .next s

/-! ## BAR4 writes and graph events (R388, R406) -/

/-- BAR4_WRITE (R388): discarded and counted. -/
def execBar4Write (_offset : BitVec 32) (s : State) : Host.Outcome State Fault Refusal :=
  if s.barLive then .next (s.hostBump .bar4WriteDrop) else .next s

/-- GRAPH_EVENT_TOKEN (R406, R36): a token to DEST 0x95 raises a graph source. -/
def execGraphEventToken (src : BitVec 8) (t : Token) (ue : UnitErr) (s : State) :
    Host.Outcome State Fault Refusal :=
  if t.tag.dest.toNat != 0x95 || !s.arrivable src.toNat t then .next s
  else
    let s := s.unitErr ue
    if s.cutOff 0x90 then .next (s.endpointAbsorb src.toNat t 0x90)
    else
    let s := s.endpointTake src.toNat t 0x90
    let t := t.after ue
    if t.tag.bell then .next (s.hostBump .evtBellDrop)
    else if 64 ≤ t.tag.esel.toNat then .next s
    else
      let d1 := t.tag.ctx.toNat + t.tag.gen.toNat * 2 ^ 17 + t.tag.cls.toNat * 2 ^ 21 +
        t.tag.iter.toNat * 2 ^ 23
      .next (s.postEvent (384 + t.tag.esel.toNat) 0x70 (t.word 0 + t.word 1 * 2 ^ 32) d1
        t.tag.poison (decide (1 < t.tag.len.toNat)))

end Sys2Proof.Machine
end

