-- ==== Sys2Proof/Machine/Presence.lean ====
section
/-! DEFINITION. Presence, the seal loop, the fuses and signed images (17_presence.md R447-R463). -/

namespace Sys2Proof.Machine

def State.modFuses (f : Fuses → Fuses) (s : State) : State := { s with fuses := f s.fuses }

/-- A mask of slot numbers. -/
def maskOf (l : List Nat) : Nat := (l.eraseDups.map (2 ^ ·)).sum

def Seal.code : Seal → Nat
  | .sealed => 0
  | .opened => 1
  | .unsealed => 2

/-- PRESENCE_STATUS (R462). -/
def State.presenceStatus (s : State) : Nat :=
  b2n s.aon.present + 2 * b2n s.aon.loopClosed + 4 * s.aon.sealSt.code + 16 * b2n s.fuses.locked +
  2 ^ 8 * maskOf (s.fuses.reportKey.map (·.1)) + 2 ^ 12 * maskOf (s.fuses.graphPkh.map (·.1)) +
  2 ^ 14 * maskOf s.fuses.graphRevoke + 2 ^ 16 * maskOf s.fuses.fwRevoke + 2 ^ 24 * s.fuses.minSvn

/-- EV 449 for the presence in force (R463). -/
def State.presenceEvent (s : State) : State :=
  s.postEvent 449 (if s.aon.present then 0xA0 else 0xA1) s.presenceStatus

/-- KEY_N_CHANGE (R447): KEY_N changes level and the filter starts afresh. -/
def execKeyNChange (high : Bool) (s : State) : Host.Outcome State Fault Refusal :=
  if s.aon.keyN == high then .next s
  else .next (s.modAon fun a => { a with keyN := high, keySince := s.time.now })

/-- PRESENCE_CHANGE (R447): KEY_N has held its level for 20 ms. -/
def execPresenceChange (s : State) : Host.Outcome State Fault Refusal :=
  if s.aon.present == !s.aon.keyN then .next s
  else
    let s := s.reach (s.aon.keySince + 20000000)
    let s := (s.modAon fun a => { a with present := !a.keyN }).aonBump .keyChanges
    if s.serving then .next s.presenceEvent else .next (s.modAon fun a => { a with keyPending := true })

/-- The last 8 samples, newest first. -/
def AlwaysOn.sampled (a : AlwaysOn) (m : Bool) : List Bool := (m :: a.samples).take 8

/-- SEAL_SAMPLE (R448, R449): the next sample, 50 us after a change of SEAL_A (log 294); the loop is judged,
and SEAL_STATE follows. -/
def execSealSample (matched : Bool) (s : State) : Host.Outcome State Fault Refusal :=
  let s := s.reach ((s.time.now + 50000) / 100000 * 100000 + 50000)
  let l := s.aon.sampled matched
  let s := s.modAon fun a => { a with samples := l }
  if l.length = 8 && l.all id then
    let s := s.modAon fun a => { a with loopClosed := true }
    if s.aon.sealSt == .opened then
      let s := s.modAon fun a => { a with sealSt := .unsealed }
      .next ((s.postEvent 450 0xA9 s.presenceStatus).endLevel 242 0x98)
    else .next s
  else if 2 ≤ ((l.take 4).filter fun m => !m).length then
    let s := s.modAon fun a => { a with loopClosed := false }
    if s.aon.sealSt == .opened then .next s
    else
      let s := if s.aon.sealSt == .sealed then s.aonBump .sealOpens else s
      let s := s.modAon fun a => { a with sealSt := .opened }
      .next ((s.postEvent 450 0xA8 s.presenceStatus).detect 242 0x98)
  else .next s

/-- RESEAL (R454). -/
def execReseal (r : Fin 64) (d : Desc) (b : HostBuf) (s : State) : Host.Outcome State Fault Refusal :=
  let c : CmdSpec :=
    { op := 0x0709, lantern := true, target := d.target == 0, presence := true, keyOnly := true
      fails := [(eState, s.aon.sealSt != .unsealed)] }
  .next (s.hostCmd r d b c fun _ s =>
    let s := (s.modAon fun a => { a with sealSt := .sealed }).aonBump .reseals
    (s.postEvent 450 0xAA s.presenceStatus).finish r.val d)

/-- FUSE_LOCK (R459). -/
def execFuseLock (r : Fin 64) (d : Desc) (b : HostBuf) (s : State) : Host.Outcome State Fault Refusal :=
  let c : CmdSpec :=
    { op := 0x0708, target := d.target == 0, presence := true, fails := [(eLocked, s.fuses.locked)] }
  .next (s.hostCmd r d b c fun _ s => (s.modFuses fun f => { f with locked := true }).finish r.val d)

/-- The fuse slots of R458. -/
inductive KeySlot where
  | report (i : Nat)
  | pkh (i : Nat)
  | revGraph (i : Nat)
  | revFw (i : Nat)
  deriving DecidableEq, Repr

/-- The slot that TARGET names (R458). -/
def keySlot (t : Nat) : Option KeySlot :=
  if t < 4 then some (.report t)
  else if t < 6 then some (.pkh (t - 4))
  else if t = 0x10 || t = 0x11 then some (.revGraph (t - 0x10))
  else if t = 0x18 || t = 0x19 then some (.revFw (t - 0x18))
  else none

/-- KTYPE and KLEN of a slot (R458). -/
def KeySlot.kind : KeySlot → Nat × Nat
  | .report _ => (1, 32)
  | .pkh _ => (2, 48)
  | .revGraph _ => (3, 0)
  | .revFw _ => (3, 0)

/-- The slot, or the revocation, is burned already, or FUSE_LOCKED bars it (R458). -/
def KeySlot.barred (k : KeySlot) (f : Fuses) : Bool :=
  match k with
  | .report i => (f.reportKey.any fun e => e.1 == i) || f.locked
  | .pkh i => (f.graphPkh.any fun e => e.1 == i) || f.locked
  | .revGraph i => f.graphRevoke.contains i
  | .revFw i => f.fwRevoke.contains i

/-- A revocation that leaves no slot of its kind, or of a slot that is not programmed (R458). -/
def KeySlot.last (k : KeySlot) (f : Fuses) : Bool :=
  let left := fun (t : Tab (List Byte)) (rev : List Nat) (i : Nat) =>
    !(t.any fun e => e.1 == i) || !(t.any fun e => e.1 != i && !rev.contains e.1)
  match k with
  | .revGraph i => left f.graphPkh f.graphRevoke i
  | .revFw i => left f.fwPkh f.fwRevoke i
  | _ => false

/-- A fuse slot is burned (R458). -/
def KeySlot.burn (k : KeySlot) (key : List Byte) (f : Fuses) : Fuses :=
  match k with
  | .report i => { f with reportKey := f.reportKey.ins i key }
  | .pkh i => { f with graphPkh := f.graphPkh.ins i key }
  | .revGraph i => { f with graphRevoke := f.graphRevoke ++ [i] }
  | .revFw i => { f with fwRevoke := f.fwRevoke ++ [i] }

/-- KEY_PROVISION (R458). -/
def execKeyProvision (r : Fin 64) (d : Desc) (b : HostBuf) (s : State) :
    Host.Outcome State Fault Refusal :=
  let l := bufBytes d b
  let slot := keySlot d.target.toNat
  let (kt, kl) := (slot.map KeySlot.kind).getD (0, 0)
  let blob := match b with
    | .data _ => leAt l 0 4 == kt && leAt l 4 4 == kl && zeroAt l 8 8
    | _ => true
  let c : CmdSpec :=
    { op := 0x0706, target := slot.isSome, need := 16, input := true, presence := true
      range := if d.hlen.toNat == 16 + kl then (if blob then [] else [16]) else [24]
      fails := [(eLocked, (slot.map (·.barred s.fuses)).getD false),
                (eState, (slot.map (·.last s.fuses)).getD false)] }
  .next (s.hostCmd r d b c fun l s =>
    match slot with
    | some k => (s.modFuses (k.burn (bytesAt l 16 kl))).finish r.val d
    | none => s)

/-! ## Signed images (R455, R456) -/

/-- The header fields that R455 shows as zero are zero. -/
def imageZeros (l : List Byte) : Bool :=
  leAt l 6 1 / 2 == 0 && zeroAt l 7 1 && zeroAt l 12 4 && zeroAt l 20 12 && zeroAt l 129 7 &&
  zeroAt l 232 24

/-- The first two tests of R456. -/
def imageForm (l : List Byte) : Bool :=
  let ty := leAt l 4 1
  leAt l 0 4 == 0x4D494B4B && (ty == 1 || ty == 2) && decide (leAt l 5 1 ≤ 1) && imageZeros l &&
  leAt l 32 1 == 4 && leAt l 16 4 % 4 == 0 && decide (leAt l 8 4 ≤ 64) &&
  !(ty == 2 && (leAt l 6 1 != 0 || leAt l 8 4 != 0))

/-- The fused hash that authenticates an image (R456); a revoked slot gives none. -/
def Fuses.slotFor (f : Fuses) (ty idx : Nat) : Option (List Byte) :=
  let (t, rev) := if ty = 1 || f.graphPkh.isEmpty then (f.fwPkh, f.fwRevoke) else (f.graphPkh, f.graphRevoke)
  if rev.contains idx then none else (t.find? fun e => e.1 == idx).map (·.2)

/-- An image is authentic (R456). -/
def Fuses.authentic (f : Fuses) (l : List Byte) : Bool :=
  imageForm l &&
  match f.slotFor (leAt l 4 1) (leAt l 5 1) with
  | none => false
  | some h =>
    Crypto.sha384 (bytesAt l 32 97) == h &&
    !(leAt l 4 1 == 1 && decide (leAt l 8 4 < f.minSvn)) &&
    Crypto.verify (ofBE (bytesAt l 33 48)) (ofBE (bytesAt l 81 48)) (ofBE (bytesAt l 136 48))
      (ofBE (bytesAt l 184 48)) (ofBE (Crypto.sha384 (l.take 136 ++ l.drop 256)))

/-- The host buffer is not exactly one image long (R455). -/
def imageLen (d : Desc) (b : HostBuf) : List Nat :=
  let n := d.hlen.toNat
  match b with
  | .data _ => if n < 256 || n != 256 + leAt (bufBytes d b) 16 4 then [24] else []
  | _ => if n < 256 then [24] else []

/-- An image of the other type (R456). -/
def imageType (d : Desc) (b : HostBuf) (other : Nat) : List Nat :=
  match b with
  | .data _ => if leAt (bufBytes d b) 4 1 = other then [16] else []
  | _ => []

end Sys2Proof.Machine
end

