-- ==== Sys2Proof/Machine/Setup.lean ====
section
/-! DEFINITION. The setup registers and the timebase (19_setup_registers.md R494-R510). -/

namespace Sys2Proof.Machine

def State.modSetup (f : Setup → Setup) (s : State) : State := { s with setup := f s.setup }
def State.modTime (f : Time → Time) (s : State) : State := { s with time := f s.time }

/-! ## Reads (R495, R498-R507) -/

/-- LANTERN_WHY (R475). -/
def State.lanternWhy (s : State) : Nat :=
  s.aon.why0.toNat + 2 ^ 8 * s.aon.why1.toNat + 2 ^ 16 * s.aon.why2.toNat + 2 ^ 24 * s.aon.startFails +
  2 ^ 26 * s.aon.stage + 2 ^ 30 * b2n (s.power.phase == .lantern)

/-- HOST_STATUS (R499). -/
def State.hostStatus (s : State) : Nat :=
  b2n s.serving + 2 * b2n s.setup.ringsUp + 4 * b2n s.setup.ringErr + 8 * s.setup.errCode +
  64 * b2n (s.power.phase == .lantern) + 128 * b2n s.power.rest

/-- SET_OK (R501, R502). -/
def State.setOk (s : State) : Bool := s.tbRole == 0 && s.writer.st == .stopped

/-- TB_STATUS (R501). -/
def State.tbStatus (s : State) : Nat :=
  s.tbRole + 4 * b2n s.time.slewing + 8 * b2n s.setOk + 16 * b2n s.time.ppsLost

/-- SETUP_ERR (R497). -/
def Setup.errWord (x : Setup) : Nat :=
  match x.err with
  | none => 0
  | some (o, c) => o + 2 ^ 20 * c + 2 ^ 31

/-- Offsets of the registers (R498), each with its reserved bits and whether it answers early. -/
def setupMap : List (Nat × Nat × Bool) :=
  [(0x0, 0xFF000000, true), (0x8, 0, true), (0x10, 0xFFFFFFFE, false), (0x14, 0xFFFFFF00, true),
   (0x20, 0xFFF, false), (0x24, 0, false), (0x28, 0xFFFFFFF0, false), (0x30, 0xFFF, false),
   (0x34, 0, false), (0x38, 0xFFFFFFF0, false), (0x3C, 0xFFFFFFC0, false), (0x100, 0, true),
   (0x104, 0x70000000, true), (0x1000, 0, false), (0x1004, 0, false), (0x1008, 0xFFFFFFFC, false),
   (0x100C, 0xFFFFFFE0, false), (0x1010, 0, false), (0x1014, 0, false), (0x1018, 0, false),
   (0x101C, 0, false), (0x1020, 0, false), (0x1024, 0, false), (0x1028, 0xFFFC, false),
   (0x2000, 0xFFFFFF00, false), (0x2008, 0, false), (0x200C, 0, false), (0x2010, 0xFFFFFFFE, false),
   (0x3000, 0x80FC00E0, true), (0x3004, 0x80000000, true)] ++
  (([0, 1, 2, 3].map fun i => (0x3010 + 4 * i, 0, true)) ++
   ((List.range 10).map fun i => (0x3020 + 4 * i, 0, true)) ++
   [(0x4000, 0xFF000080, false), (0x4008, 0, false), (0x400C, 0, false), (0x4010, 0x7FFF0000, false)])

/-- A register of the map. -/
def setupReg (o : Nat) : Option (Nat × Bool) := (setupMap.find? fun e => e.1 == o).map (·.2)

/-- What a register holds; a read has no effect but the latches of T64_LO and PPS_IN_LO. -/
def State.readReg (s : State) (o : Nat) : Nat :=
  match setupReg o with
  | none => 0
  | some (_, early) =>
    if !early && !s.serving then 0
    else
      let u := s.setup
      let t := s.time
      match o with
      | 0x0 => 0xB18128
      | 0x8 => u.scratch.toNat
      | 0x10 => b2n u.ringEn
      | 0x14 => s.hostStatus
      | 0x20 => u.crBase.toNat % 2 ^ 32
      | 0x24 => u.crBase.toNat / 2 ^ 32
      | 0x28 => u.crSize.toNat
      | 0x30 => u.cqBase.toNat % 2 ^ 32
      | 0x34 => u.cqBase.toNat / 2 ^ 32
      | 0x38 => u.cqSize.toNat
      | 0x3C => u.cqVector.toNat
      | 0x100 => u.violCount.toNat
      | 0x104 => u.errWord
      | 0x1000 => t.t64.toNat % 2 ^ 32
      | 0x1004 => t.t64Hi.toNat
      | 0x1008 => b2n t.ppsInEn + 2 * b2n t.ppsOutEn
      | 0x100C => s.tbStatus
      | 0x1010 => t.freqAdj.toNat
      | 0x1014 => narrow 32 (t.phaseRem.tdiv subNs)
      | 0x1018 => t.setLo.toNat
      | 0x101C => t.setHi.toNat
      | 0x1020 => t.ppsT.toNat % 2 ^ 32
      | 0x1024 => t.ppsHiLatch.toNat
      | 0x1028 => t.ppsInfoLatch.toNat
      | 0x2000 => b2n u.ppsInEdge + 2 * u.ppsOutWidth
      | 0x2008 => u.assetTag.toNat % 2 ^ 32
      | 0x200C => u.assetTag.toNat / 2 ^ 32
      | 0x2010 => b2n u.dbgGate
      | 0x3000 => s.presenceStatus
      | 0x3004 => s.lanternWhy
      | 0x4000 => s.watch.status
      | 0x4008 => (s.watch.lastGasp.map (·.1.toNat % 2 ^ 32)).getD 0
      | 0x400C => (s.watch.lastGasp.map (·.1.toNat / 2 ^ 32)).getD 0
      | 0x4010 => (s.watch.lastGasp.map fun g => g.2 + 0xFF00 + 2 ^ 31).getD 0
      | _ => s.aon.cnt.get 0 (if o < 0x3020 then (o - 0x3010) / 4 else 4 + (o - 0x3020) / 4)

/-! ## Violations (R496) -/

/-- The conditions that a write of `v` to the register at `o` meets, in the order of R496. -/
def State.violations (s : State) (o v : Nat) : List Nat :=
  match setupReg o with
  | none => [0x08]
  | some (rsv, early) =>
    let f := (BitVec.ofNat 32 v).toInt
    let ringReg := decide (0x20 ≤ o) && decide (o ≤ 0x3C)
    let cfgDone := fun (w : Bool) => w || s.fuses.locked
    (if !early && !s.serving then [0x09] else []) ++
    (if v &&& rsv != 0 then [0x03] else []) ++
    (if o == 0x1010 && (decide (f < -3276800) || decide (3276800 < f)) then [0x06] else []) ++
    (if o == 0x2000 && (field v 7 1 == 0 || decide (100 < field v 7 1)) then [0x06] else []) ++
    (if (o == 0x2000 && cfgDone s.setup.cfgWritten) || (o == 0x2008 && cfgDone s.setup.assetLoWritten) ||
        (o == 0x200C && cfgDone s.setup.assetHiWritten) then [0x02] else []) ++
    (if o == 0x2010 && !s.authorised then [0x01] else []) ++
    (if ringReg && s.setup.ringEn then [0x04] else []) ++
    (if ((o == 0x1010 || o == 0x1014) && s.tbRole != 0) || (o == 0x101C && !s.setOk) then [0x05] else [])

/-! ## Effects -/

/-- Ring 0 comes up, or is refused (R500), and the image that runs may raise FW_MIN_SVN (R457). -/
def State.ringsUp (s : State) : State :=
  let u := s.setup
  let ok := fun (x : BitVec 4) => decide (4 ≤ x.toNat) && decide (x.toNat ≤ 12)
  if !ok u.crSize || !ok u.cqSize then
    s.modSetup fun u => { u with
      ringEn := true, ringErr := true, errCode := if ok u.crSize then 2 else 1 }
  else
    let s := s.modSetup fun u => { u with ringEn := true, ringsUp := true }
    let s := s.modCmd 0 fun _ => { en := true, base := u.crBase, sizeLog2 := u.crSize.toNat }
    let s := s.modCpl 0 fun _ =>
      { en := true, base := u.cqBase, sizeLog2 := u.cqSize.toNat, vector := u.cqVector.toNat
        holdoff := 0, thresh := 1, armed := true }
    match s.power.running with
    | some (img, _) =>
      if img.commit then s.modFuses fun f => { f with minSvn := max f.minSvn img.svn } else s
    | none => s

/-- A write of HOST_CTRL (R500). -/
def State.writeRingEn (s : State) (on : Bool) : State :=
  if on == s.setup.ringEn then s
  else if on then s.ringsUp
  else s.ringsDown.modSetup fun u => { u with ringErr := false, errCode := 0 }

/-- A write of TB_CTRL (R503). -/
def State.writeTbCtrl (s : State) (v : Nat) : State :=
  let inEn := bit v 0
  let was := s.time.ppsInEn
  let s := s.modTime fun t => { t with
    ppsInEn := inEn, ppsOutEn := bit v 1, ppsOut := t.ppsOut && bit v 1
    ppsLost := t.ppsLost && inEn, ppsArm := if inEn && !was then t.now else t.ppsArm
    ppsLevel := if inEn then t.ppsLevel else none }
  if inEn then s else s.endLevel 241 0x91

/-- A write of TB_PHASE_ADJ (R502): the value replaces the remainder. -/
def State.writePhase (s : State) (v : Nat) : State :=
  let x := (BitVec.ofNat 32 v).toInt
  let was := s.time.slewing
  let s := s.modTime fun t => { t with
    phaseRem := x * subNs, phaseLast := BitVec.ofNat 32 v, slewing := x != 0 }
  if was && x == 0 then s.postEvent 448 0xE9 0 else s

/-- A write of TB_SET_HI commits (R502). -/
def State.commitTime (s : State) (v : Nat) : State :=
  let old := s.time.t64
  let new : BitVec 64 := BitVec.ofNat 32 v ++ s.time.setLo
  let s := s.slotSync.modTime fun t => { t with
    setHi := BitVec.ofNat 32 v, t64 := new, frac := 0, phaseRem := 0, slewing := false, ppsOut := false }
  s.realign.postEvent 448 0xE8 old.toNat new.toNat

/-- The fields of the register at `o` take `v` (R499-R506). -/
def State.applyReg (s : State) (o v : Nat) : State :=
  let lo := fun (x : BitVec 64) => x.extractLsb' 32 32 ++ BitVec.ofNat 32 (v / 4096 * 4096)
  let hi := fun (x : BitVec 64) => BitVec.ofNat 32 v ++ x.extractLsb' 0 32
  match o with
  | 0x8 => s.modSetup fun u => { u with scratch := BitVec.ofNat 32 v }
  | 0x10 => s.writeRingEn (bit v 0)
  | 0x20 => s.modSetup fun u => { u with crBase := lo u.crBase }
  | 0x24 => s.modSetup fun u => { u with crBase := hi u.crBase }
  | 0x28 => s.modSetup fun u => { u with crSize := BitVec.ofNat 4 v }
  | 0x30 => s.modSetup fun u => { u with cqBase := lo u.cqBase }
  | 0x34 => s.modSetup fun u => { u with cqBase := hi u.cqBase }
  | 0x38 => s.modSetup fun u => { u with cqSize := BitVec.ofNat 4 v }
  | 0x3C => s.modSetup fun u => { u with cqVector := BitVec.ofNat 6 v }
  | 0x104 => if bit v 31 then s.modSetup fun u => { u with err := none } else s
  | 0x1008 => s.writeTbCtrl v
  | 0x1010 => s.modTime fun t => { t with freqAdj := BitVec.ofNat 32 v }
  | 0x1014 => s.writePhase v
  | 0x1018 => s.modTime fun t => { t with setLo := BitVec.ofNat 32 v }
  | 0x101C => s.commitTime v
  | 0x2000 => s.modSetup fun u => { u with
      ppsInEdge := bit v 0, ppsOutWidth := field v 7 1, cfgWritten := true }
  | 0x2008 => s.modSetup fun u => { u with
      assetTag := u.assetTag.extractLsb' 32 32 ++ BitVec.ofNat 32 v, assetLoWritten := true }
  | 0x200C => s.modSetup fun u => { u with
      assetTag := BitVec.ofNat 32 v ++ u.assetTag.extractLsb' 0 32, assetHiWritten := true }
  | 0x2010 => s.modSetup fun u => { u with dbgGate := bit v 0 }
  | _ => s

/-- A write of one register: its effect, unless a condition other than RESERVED stands, and the code
recorded (R496). -/
def State.writeReg (s : State) (o v : Nat) : Option Nat × State :=
  let l := s.violations o v
  (l.head?, if l.all (· == 0x03) then s.applyReg o v else s)

/-- A violation is recorded (R496, R497). -/
def State.recordViol (s : State) (o code : Nat) : State :=
  s.modSetup fun u => { u with
    violCount := u.violCount + 1
    err := match u.err with
      | some e => some e
      | none => some (o / 4 * 4, code) }

/-- One write access of 4 bytes. -/
def State.write4 (s : State) (o v : Nat) : State :=
  let (c, s) := s.writeReg o v
  match c with
  | some c => s.recordViol o c
  | none => s

/-- One write access of 8 bytes: the lower register, then the upper (R495); one violation at most is
counted (R496). -/
def State.write8 (s : State) (o v : Nat) : State :=
  let (c, s) := s.writeReg o (v % 2 ^ 32)
  let (d, s) := s.writeReg (o + 4) (v / 2 ^ 32)
  match c, d with
  | some c, _ => s.recordViol o c
  | none, some d => s.recordViol (o + 4) d
  | none, none => s

/-- A write of the MSI-X table follows PCI Express: address, data and mask of an entry (R496). -/
def State.writeMsix (s : State) (o v : Nat) : State :=
  let n := o / 16
  let f := fun (e : MsixEntry) => match o % 16 / 4 with
    | 0 => { e with addr := e.addr.extractLsb' 32 32 ++ BitVec.ofNat 32 v }
    | 1 => { e with addr := BitVec.ofNat 32 v ++ e.addr.extractLsb' 0 32 }
    | 2 => { e with data := BitVec.ofNat 32 v }
    | _ => { e with masked := bit v 0 }
  let s := s.modHost fun h => { h with msix := h.msix.upd {} n f }
  if (s.host.msix.get {} n).masked then s else s.resend n

/-- SETUP_REGISTER_WRITE (R495, R496). -/
def execSetupRegisterWrite (offset : BitVec 20) (size : BitVec 4) (value : BitVec 64) (s : State) :
    Host.Outcome State Fault Refusal :=
  let o := offset.toNat
  let v := value.toNat
  if !s.host.linkUp then .next s
  else if 0xF0000 ≤ o ∧ o < 0xF0400 then
    if size = 4#4 ∧ o % 4 = 0 then .next (s.writeMsix (o - 0xF0000) (v % 2 ^ 32))
    else if size = 8#4 ∧ o % 8 = 0 then
      .next ((s.writeMsix (o - 0xF0000) (v % 2 ^ 32)).writeMsix (o + 4 - 0xF0000) (v / 2 ^ 32))
    else .next s
  else if 0xF8000 ≤ o ∧ o < 0xF8008 then .next s
  else if size = 4#4 ∧ o % 4 = 0 then .next (s.write4 o (v % 2 ^ 32))
  else if size = 8#4 ∧ o % 8 = 0 then .next (s.write8 o v)
  else .next (s.recordViol o 0x07)

/-- RING_EN_WRITE (R500). -/
def execRingEnWrite (value : BitVec 32) (s : State) : Host.Outcome State Fault Refusal :=
  if s.host.linkUp then .next (s.write4 0x10 value.toNat) else .next s

/-- TB_FREQ_ADJ_WRITE (R502). -/
def execTbFreqAdjWrite (value : BitVec 32) (s : State) : Host.Outcome State Fault Refusal :=
  if s.host.linkUp then .next (s.write4 0x1010 value.toNat) else .next s

/-- TB_PHASE_ADJ_WRITE (R502). -/
def execTbPhaseAdjWrite (value : BitVec 32) (s : State) : Host.Outcome State Fault Refusal :=
  if s.host.linkUp then .next (s.write4 0x1014 value.toNat) else .next s

/-- TB_SET_HI_WRITE (R502). -/
def execTbSetHiWrite (value : BitVec 32) (s : State) : Host.Outcome State Fault Refusal :=
  if s.host.linkUp then .next (s.write4 0x101C value.toNat) else .next s

/-- T64_LO_READ (R501): 4 bytes, or 8 with T64_HI. -/
def execT64LoRead (wide : Bool) (s : State) : Host.Outcome State Fault Refusal :=
  if !s.host.linkUp then .next s
  else if !s.serving then .next (s.emit (.readData (leBytes (if wide then 8 else 4) 0) false))
  else
    let t := s.time.t64
    let s := s.modTime fun x => { x with t64Hi := t.extractLsb' 32 32 }
    .next (s.emit (.readData (leBytes (if wide then 8 else 4) t.toNat) false))

/-- PPS_IN_LO_READ (R501). -/
def execPpsInLoRead (wide : Bool) (s : State) : Host.Outcome State Fault Refusal :=
  if !s.host.linkUp then .next s
  else if !s.serving then .next (s.emit (.readData (leBytes (if wide then 8 else 4) 0) false))
  else
    let t := s.time.ppsT
    let s := s.modTime fun x => { x with
      ppsHiLatch := t.extractLsb' 32 32
      ppsInfoLatch := x.ppsSeq ++ 0#14 ++ x.ppsFrac }
    .next (s.emit (.readData (leBytes (if wide then 8 else 4) t.toNat) false))

/-! ## Steering and PPS (R502-R504) -/

/-- SLEW_DONE (R502): the remainder reaches zero. -/
def execSlewDone (s : State) : Host.Outcome State Fault Refusal :=
  if !s.time.slewing then .next s
  else
    let s := s.elapse ((s.time.phaseRem.natAbs + slewRate - 1) / slewRate)
    let s := s.modTime fun t => { t with slewing := false }
    .next (s.postEvent 448 0xE9 (s.time.phaseLast.signExtend 64).toNat)

/-- The output of PPS_IN's filter changes (R299): the level before it has held for 20 ns. -/
def State.ppsFiltered (s : State) (level : Bool) : State :=
  let s := if s.time.ppsLevel.isSome then s.reach (s.time.ppsRaw + 20) else s
  s.modTime fun t => { t with ppsLevel := some level, ppsRaw := t.now }

/-- PPS_IN_EDGE (R503): a filtered edge of PPS_IN, with its quarter of a nanosecond (log 126). -/
def execPpsInEdge (falling : Bool) (quarter : BitVec 2) (s : State) :
    Host.Outcome State Fault Refusal :=
  if !s.time.ppsInEn || s.time.ppsLevel == some (!falling) then .next s
  else
    let s := s.ppsFiltered (!falling)
    let soon := match s.time.ppsPrev with
      | some t => decide (s.time.now < t + 500000000)
      | none => false
    if falling != s.setup.ppsInEdge || soon then .next s
    else
      let s := s.modTime fun t => { t with
        ppsT := t.t64, ppsFrac := quarter, ppsSeq := t.ppsSeq + 1, ppsLost := false
        ppsPrev := some t.now, ppsArm := t.now }
      .next (s.endLevel 241 0x91)

/-- PPS_LOSS_TIMEOUT (R503). -/
def execPpsLossTimeout (s : State) : Host.Outcome State Fault Refusal :=
  if !s.time.ppsInEn || s.time.ppsLost then .next s
  else
    let s := s.reach (s.time.ppsArm + 1500000000)
    .next ((s.modTime fun t => { t with ppsLost := true }).detect 241 0x91)

/-- PPS_OUT_PULSE (R503): T64 reaches a whole second. -/
def execPpsOutPulse (s : State) : Host.Outcome State Fault Refusal :=
  if !s.time.ppsOutEn || s.time.ppsOut then .next s
  else
    let s := s.reachT64 ((s.time.t64.toNat / 1000000000 + 1) * 1000000000)
    .next (s.modTime fun t => { t with ppsOut := true, ppsRise := t.now })

/-- PPS_OUT_PULSE_END (R503). -/
def execPpsOutPulseEnd (s : State) : Host.Outcome State Fault Refusal :=
  if !s.time.ppsOut then .next s
  else
    let s := s.reach (s.time.ppsRise + 1000000 * s.setup.ppsOutWidth)
    .next (s.modTime fun t => { t with ppsOut := false })

end Sys2Proof.Machine
end

