-- ==== Sys2Proof/Machine/Notice.lean ====
section
/-! DEFINITION. The actuation ports, the Notice protocol, the Noticeboard and the trip outputs
(14_notice.md R360-R384). -/

namespace Sys2Proof.Machine

open Sys2Proof.Crypto (crc32)

def State.modAct (f : ActUnit → ActUnit) (s : State) : State := { s with act := f s.act }

def State.actPort (s : State) (a : Nat) : ActPort := s.act.ports.get {} a

def State.modActPort (a : Nat) (f : ActPort → ActPort) (s : State) : State :=
  s.modAct fun x => { x with ports := x.ports.upd {} a f }

def State.nbEntry (s : State) (e : Nat) : NbEntry := s.act.nb.get {} e

/-- A counter of an actuation port (R384). -/
def State.actBump (a : Nat) (k : ActCtr) (s : State) (n : Nat := 1) : State :=
  s.modAct fun x => { x with portCnt := x.portCnt.bump (32 * a + k.ctorIdx) n }

/-- A counter of the Noticeboard or the trip map (R384). -/
def State.nbBump (k : NbCtr) (s : State) (n : Nat := 1) : State :=
  s.modAct fun x => { x with cnt := x.cnt.bump k.ctorIdx n }

/-- A counter that also raises the sending cell's event, once in an epoch (R373, R377). -/
def State.nbBumpEv (k : NbCtr) (cause src : Nat) (s : State) : State :=
  let s := s.nbBump k
  if 128 ≤ src || s.act.evRaised.contains (src, cause) then s
  else
    (s.modAct fun x => { x with evRaised := x.evRaised ++ [(src, cause)] }).postEvent (64 + src) cause
      (s.act.cnt.get 0 k.ctorIdx)

/-- REST may begin (R483): every actuation port is OFF, no entry and no trip is enabled. -/
def ActUnit.idle (x : ActUnit) : Bool :=
  (x.ports.all fun e => e.2.cfg.mode == .off) && (x.nb.all fun e => !e.2.enable) &&
  x.trips.all fun e => !e.2.enable

/-! ## Trip outputs (R374-R380) -/

/-- A force line asserted at the hubs is in a mask. -/
def ActUnit.forced (x : ActUnit) (fmask : BitVec 16) : Bool := x.lines &&& fmask != 0

def ActUnit.trip (x : ActUnit) (n : Nat) : Trip := x.trips.get {} n

/-- TRIP_n is HEALTHY (R376). -/
def ActUnit.healthy (x : ActUnit) (n : Nat) : Bool :=
  let t := x.trip n
  let g := x.map.filter fun e => e.2.enable && e.2.mask.getLsbD n
  t.enable && !x.forced t.fmask && !g.isEmpty && g.all fun e => e.2.healthy

/-- TRIP_STATE and TRIP_TRANSITIONS follow the trips (R376). -/
def State.judgeTrips (s : State) : State :=
  s.modAct fun x =>
    let w := BitVec.ofNat 32 (maskOf ((List.range 32).filter x.healthy))
    let diff := w ^^^ x.tripState
    { x with
      tripState := w
      transitions := ((List.range 32).filter diff.getLsbD).foldl (fun t n => t.bump n) x.transitions }

/-- The level of pin TRIP_n (R374): high while HEALTHY, and low while ACT_HUB_1 is off or fenced.  A
hub that is isolated (R271) and not fenced goes on driving its pins. -/
def State.tripPin (s : State) (n : Nat) : Bool :=
  s.isReady && !s.fabric.fenced.contains 0x93 && !s.power.hubOff.contains 0x93 && s.act.tripState.getLsbD n

/-- A trip of a map entry's MASK is forced. -/
def ActUnit.maskForced (x : ActUnit) (m : BitVec 32) : Bool :=
  (List.range 32).any fun n => m.getLsbD n && x.forced (x.trip n).fmask

/-! ## Force lines (R371, R379, R380) -/

/-- An entry follows the force lines (R371). -/
def NbEntry.judge (lines : BitVec 16) (now : BitVec 64) (e : NbEntry) : NbEntry :=
  let on := lines &&& e.fmask != 0
  match e.st with
  | .disabled => e
  | .forced => if on then e else { e with st := .released, relAt := now }
  | _ => if on then { e with st := .forced } else e

/-- Every entry follows the force lines.  A disabled entry, as each unlisted one is, stays so. -/
def State.judgeEntries (s : State) : State :=
  s.modAct fun x => { x with nb := x.nb.mapV (NbEntry.judge x.lines s.time.t64) }

/-- FORCE_LINE_ASSERT (R379): a line that the Watch drives asserts at the hubs. -/
def execForceLineAssert (k : Fin 16) (s : State) : Host.Outcome State Fault Refusal :=
  if !s.watch.lines.getLsbD k.val || s.act.lines.getLsbD k.val then .next s
  else
    let s := (s.modAct fun x => { x with lines := x.lines ||| (1#16 <<< k.val) }).judgeEntries
    let s := s.modAct fun x => { x with
      map := x.map.mapV fun m =>
        if m.enable && (List.range 32).any fun n => m.mask.getLsbD n && (x.trip n).fmask.getLsbD k.val
        then { m with healthy := false } else m }
    .next s.judgeTrips

/-- FORCE_LINE_DEASSERT (R380). -/
def execForceLineDeassert (k : Fin 16) (s : State) : Host.Outcome State Fault Refusal :=
  if s.watch.lines.getLsbD k.val || !s.act.lines.getLsbD k.val then .next s
  else
    .next ((s.modAct fun x => { x with lines := x.lines &&& ~~~(1#16 <<< k.val) }).judgeEntries).judgeTrips

/-! ## Tokens to the Noticeboard and the trips (R373, R377, R378) -/

/-- NOTICEBOARD_WRITE (R373). -/
def execNoticeboardWrite (src : BitVec 8) (t : Token) (ue : UnitErr) (s : State) :
    Host.Outcome State Fault Refusal :=
  if t.tag.dest.toNat != 0x92 || !s.arrivable src.toNat t then .next s
  else
    let s := s.unitErr ue
    if s.cutOff 0x92 then .next (s.endpointAbsorb src.toNat t 0x92)
    else
      let s := s.endpointTake src.toNat t 0x92
      let t := t.after ue
      let n := t.tag.esel.toNat % 4096
      let e := s.nbEntry n
      if 4096 ≤ t.tag.esel.toNat || decide (1 < t.tag.len.toNat) || t.tag.bell then
        .next (s.nbBumpEv .nbFmt 0x39 src.toNat)
      else if t.tag.poison then .next (s.nbBump .poisonDrop)
      else if e.st == .disabled then .next (s.nbBumpEv .nbDisabled 0x3A src.toNat)
      else if e.wclass < t.tag.cls.toNat then .next (s.nbBumpEv .wclassDrop 0x3B src.toNat)
      else if e.st == .forced || (e.st == .released && !laterT s.time.t64 e.relAt) then
        .next (s.nbBump .forcedDrop)
      else
        let v := if t.tag.len = 0 then t.word 0 else t.word 0 + t.word 1 * 2 ^ 32
        let e := { e with st := NbSt.live, value := BitVec.ofNat 64 v, fresh := s.time.t64 }
        .next ((s.modAct fun x => { x with nb := x.nb.set {} n e }).nbBump .nbWrites)

/-- A command takes effect on a map entry (R377). -/
def State.demand (s : State) (m : Nat) (healthy : Bool) (k : Option NbCtr) : State :=
  let s := s.modAct fun x => { x with
    map := x.map.upd {} m fun e => { e with healthy := healthy, lastCmd := s.time.t64 } }
  (match k with
  | some k => s.nbBump k
  | none => s).judgeTrips

/-- TRIP_COMMAND (R377). -/
def execTripCommand (src : BitVec 8) (t : Token) (ue : UnitErr) (s : State) :
    Host.Outcome State Fault Refusal :=
  if t.tag.dest.toNat != 0x93 || !s.arrivable src.toNat t then .next s
  else
    let s := s.unitErr ue
    if s.cutOff 0x93 then .next (s.endpointAbsorb src.toNat t 0x93)
    else
      let s := s.endpointTake src.toNat t 0x93
      let t := t.after ue
      let n := t.tag.esel.toNat
      let m := s.act.map.get {} n
      if 256 ≤ n || !m.enable then .next (s.nbBumpEv .tripBadEntry 0x3C src.toNat)
      else if m.wclass < t.tag.cls.toNat then .next (s.nbBumpEv .tripWclass 0x3D src.toNat)
      else if t.tag.poison then .next (s.demand n false (some .tripPoison))
      else if t.tag.len != 0 || t.tag.bell || decide (1 < t.word 0) then
        .next ((s.demand n false none).nbBumpEv .tripFmt 0x3E src.toNat)
      else if t.word 0 = 0 && s.act.maskForced m.mask then .next (s.nbBump .tripForcedDrop)
      else .next (s.demand n (t.word 0 == 0) (some .tripCmds))

/-- A map entry's HEALTHY has lasted too long (R378). -/
def TripMap.aged (now : BitVec 64) (m : TripMap) : Bool :=
  m.maxAge != 0 && m.healthy && decide (100 * m.maxAge < (now - m.lastCmd).toNat)

/-- TRIP_AGE_CHECK (R378): once in each microsecond. -/
def execTripAgeCheck (s : State) : Host.Outcome State Fault Refusal :=
  let s := s.reach ((s.time.now / 1000 + 1) * 1000)
  let n := (s.act.map.filter fun e => e.2.aged s.time.t64).length
  let s := s.modAct fun x => { x with
    map := x.map.mapV fun m => if m.aged s.time.t64 then { m with healthy := false } else m }
  .next (s.nbBump .tripAged n).judgeTrips

/-! ## The ports (R360, R362) -/

/-- A request frame begins, or is found to have begun, under the parameters in effect (R360). -/
def ActPort.begin (p : ActPort) (busy : Bool) : ActPort :=
  if busy && p.up && p.rx.isNone && p.cfg.mode != .off then { p with rx := some { cfg := p.cfg, head := false } }
  else p

/-- The request frame in progress ends (R360). -/
def ActPort.rxEnd (p : ActPort) : ActPort :=
  { p with rx := none, next := p.next.map fun c => { c with rx := false } }

/-- The answer in progress ends (R360). -/
def ActPort.txEnd (p : ActPort) : ActPort :=
  { p with tx := false, txCut := 0, next := p.next.map fun c => { c with tx := false } }

/-- The changes whose frames have ended take effect (R360): those of a later command never wait for
less than an earlier one. -/
def ActPort.effect (p : ActPort) : ActPort :=
  let done := p.next.takeWhile fun c => !c.rx && !c.tx
  { p with cfg := (done.getLast?.map (·.cfg)).getD p.cfg, next := p.next.drop done.length }

/-- The parameters that the host last set, in effect or not yet. -/
def ActPort.set (p : ActPort) : ActCfg := (p.next.getLast?.map (·.cfg)).getD p.cfg

/-- The port goes down (R362). -/
def State.actDown (s : State) (a : Nat) : State :=
  let s := s.modActPort a fun p => { (p.rxEnd.txEnd).effect with up := false, waiting := none }
  (s.actBump a .linkDown).postEvent (272 + a) 0x02

/-- Waiting changes take effect once their frames have ended, and a port whose MODE is OFF has its PMA
powered down once no frame is in progress (R360). -/
def State.actSettle (s : State) (a : Nat) : State :=
  let s := s.modActPort a ActPort.effect
  let p := s.actPort a
  if p.cfg.mode == .off && p.up && p.rx.isNone && !p.tx then s.actDown a else s

/-- ACT_LINK_UP (R362). -/
def execActLinkUp (a : Fin 16) (s : State) : Host.Outcome State Fault Refusal :=
  let p := s.actPort a.val
  if p.up || p.cfg.mode == .off || !s.isReady || s.power.rest || s.power.hubOff.contains (0x92 + a.val / 8) then
    .next s
  else
    let s := s.elapse 1000000
    .next ((s.modActPort a.val fun p => { p with up := true, heard := s.time.now }).postEvent (272 + a.val) 0x01)

/-- ACT_LINK_DOWN (R362, R383): an answer under way is cut off after `a.sent` bytes, its ACRC not
whole. -/
def execActLinkDown (a : ActCut) (s : State) : Host.Outcome State Fault Refusal :=
  let p := s.actPort a.port.val
  if !p.up then .next s
  else
    let s := if p.tx then s.emit (.answerCut a.port.val (min a.sent.toNat p.txCut)) else s
    .next (s.actDown a.port.val)

/-- PEER_SILENT (R362). -/
def execPeerSilent (a : Fin 16) (s : State) : Host.Outcome State Fault Refusal :=
  let p := s.actPort a.val
  if !p.up || p.silent then .next s
  else
    let s := s.reach (p.heard + p.cfg.timeout)
    let s := (s.modActPort a.val fun p => { p with silent := true }).actBump a.val .peerSilent
    .next (s.postEvent (272 + a.val) 0x07)

/-- A value of WIN_FIRST and WIN_LAST (R360). -/
def winOk (v : Nat) : Bool :=
  decide (v < 2 ^ 28) && field v 15 12 == 0 && decide (field v 11 0 ≤ field v 27 16)

/-- ACT_PORT_CONFIG (R360).  `b.busy` says that a request frame has begun at the port whose header has not
ended. -/
def execActPortConfig (r : Fin 64) (d : Desc) (b : ActBuf) (s : State) :
    Host.Outcome State Fault Refusal :=
  let rows := [rowEnum 3, rowEnum 2, rowEnum 2, rowNat 0 (2 ^ 48 - 1), rowNat 0x600 0xFFFF, PRow.mk winOk false,
    rowTime 10000 10000000000 1000, rowNat 1 65535]
  let p := params rows d b.buf
  let c : CmdSpec :=
    { op := 0x0302, target := decide (d.target.toNat < 16), input := true, range := recLen d ++ p.bad }
  .next (s.hostCmd r d b.buf c fun _ s =>
    let a := d.target.toNat
    let o := (s.actPort a).set
    let w := p.val 6 (o.winFirst + o.winLast * 2 ^ 16)
    let mode : ActMode := match p.get 1 with
      | some 0 => .off
      | some 1 => .native
      | some _ => .ethernet
      | none => o.mode
    let cfg : ActCfg :=
      { mode := mode
        fec := p.val 2 (b2n o.fec) == 1, polarity := p.val 3 (b2n o.polarity) == 1, mac := p.val 4 o.mac
        etype := p.val 5 o.etype, winFirst := field w 11 0, winLast := field w 27 16
        timeout := p.val 7 o.timeout, thresh := p.val 8 o.thresh }
    let s := s.modActPort a fun x =>
      let x := x.begin b.busy
      { x with next := x.next ++ [{ cfg := cfg, rx := x.rx.isSome, tx := x.tx }] }
    (s.actSettle a).finish r.val d)

/-! ## Answers (R365-R368, R372) -/

/-- AGE (R366). -/
def NbEntry.age (e : NbEntry) (t : BitVec 64) : Nat :=
  if e.fresh = 0 then 0xFFFFFFFF else min 0xFFFFFFFF ((t - e.fresh).toNat / 100)

/-- The value answered and EFLAGS (R372). -/
def NbEntry.answer (e : NbEntry) (t : BitVec 64) : Nat × Nat :=
  match e.st with
  | .disabled => (0, 8)
  | .wait => (e.safe.toNat, 1 + 4)
  | .live => if (t - e.fresh).toNat ≤ 100 * e.maxAge then (e.value.toNat, 0) else (e.safe.toNat, 1)
  | _ => (e.safe.toNat, 2)

/-- A READ record (R366). -/
def NbEntry.record (e : NbEntry) (t : BitVec 64) : List Byte :=
  let v := e.answer t
  beBytes 8 v.1 ++ beBytes 4 (e.age t) ++ beBytes 1 v.2 ++ [0#8, 0#8, 0#8]

/-- The device is ATTACHED to a chain (R354). -/
def State.attached (s : State) : Bool :=
  s.chain.role == .root || (s.chain.role == .station && s.chain.st == .attached)

/-- The STATUS record (R366). -/
def State.statusRecord (s : State) (a : Nat) : List Byte :=
  beBytes 8 s.time.t64.toNat ++ beBytes 2 s.stationId ++ beBytes 1 a ++ beBytes 1 (b2n s.attached) ++
  List.replicate 4 0#8

/-- The entries that a request reports. -/
def NoticeReq.entries (q : NoticeReq) : List Nat :=
  if q.astat = 0 && !q.status then (List.range q.count).map (q.first + ·) else []

/-- A hub finds the memory of an entry uncorrectable (R369): in one copy it is rewritten from the
other, in both the entry becomes DISABLED. -/
def State.nbError (s : State) (x : NbError) : State :=
  let n := x.entry.toNat
  if !x.both then s.nbBump .nbRepair
  else
    let s := s.modAct fun y => { y with nb := y.nb.upd {} n fun e =>
      match e.st with
      | .wait => { e with enable := false, st := .disabled }
      | .live => { e with enable := false, st := .disabled }
      | _ => e }
    (s.nbBump .nbUe).detect 230 0x50 n

/-- The bytes of an answer that its ACRC closes (R365), with T_SNAP now. -/
def State.answerBody (s : State) (a : Nat) (q : NoticeReq) : List Byte :=
  let p := s.actPort a
  let recs := if q.astat != 0 then []
    else if q.status then s.statusRecord a
    else q.entries.flatMap fun n => (s.nbEntry n).record s.time.t64
  let kind := if q.astat != 0 then 0xF else if q.status then 0xA else 0x9
  let count := if q.astat != 0 then 0 else if q.status then 1 else q.count
  let head := beBytes 1 (0x10 + kind) ++ beBytes 1 q.astat ++ beBytes 2 q.seq ++ beBytes 2 q.first ++
    beBytes 1 count ++ beBytes 1 (b2n p.ann.isSome + 2 * b2n (s.act.lines != 0)) ++ beBytes 4 q.cycle
  let block := match p.ann with
    | some l => beBytes 1 p.annSeq.toNat ++ List.replicate 7 0#8 ++ l
    | none => []
  head ++ beBytes 4 (crc32 head) ++ recs ++ block

/-- The bytes of an answer (R365): in ETHERNET mode those of its frame. -/
def State.answerBytes (s : State) (a : Nat) (q : NoticeReq) : List Byte :=
  let p := s.actPort a
  let body := s.answerBody a q
  let ans := body ++ beBytes 4 (crc32 body)
  if p.cfg.mode == .ethernet then
    let f := beBytes 6 q.src ++ beBytes 6 p.cfg.mac ++ beBytes 2 p.cfg.etype ++ ans
    let f := f ++ List.replicate (60 - f.length) 0#8
    f ++ leBytes 4 (crc32 f)
  else ans

/-- An answer starts (R367, R368). -/
def State.startAnswer (s : State) (a : Nat) (q : NoticeReq) (bad : List NbError) : State :=
  let s := (bad.filter fun x => q.entries.contains x.entry.toNat).foldl State.nbError s
  let stale := (q.entries.filter fun n => ((s.nbEntry n).answer s.time.t64).2 % 2 == 1).length
  let cut := (s.answerBody a q).length + 3 + if (s.actPort a).cfg.mode == .ethernet then 14 else 0
  let s := (s.emit (.answer a (s.answerBytes a q))).modActPort a fun p => { p with tx := true, txCut := cut }
  let s := (s.actBump a .answers).actBump a .staleAnswers stale
  if q.astat = 0 then s else s.actBump a .badReq

/-- The waiting answer starts. -/
def State.startWaiting (s : State) (a : Nat) (bad : List NbError) : State :=
  let p := s.actPort a
  match p.waiting with
  | some q =>
    if p.tx then s else (s.modActPort a fun p => { p with waiting := none }).startAnswer a q bad
  | none => s

/-- QUEUED_ANSWER_START (R367, R368). -/
def execQueuedAnswerStart (a : Fin 16) (bad : List NbError) (s : State) :
    Host.Outcome State Fault Refusal := .next (s.startWaiting a.val bad)

/-- ANSWER_SENT (R360, R368).  `a.busy` says that a request frame has begun at the port whose header has
not ended: it began under the parameters of before. -/
def execAnswerSent (a : ActIdle) (s : State) : Host.Outcome State Fault Refusal :=
  if (s.actPort a.port.val).tx then
    .next ((s.modActPort a.port.val fun p => (p.begin a.busy).txEnd).actSettle a.port.val)
  else .next s

/-! ## Announcements (R382) -/

/-- An announcement ends: its ports carry it no longer and the command completes. -/
def State.endAnnounce (s : State) (x : Announce) : State :=
  let left := (List.range 16).filter fun a => bit x.sent a && !bit x.acked a
  let s := left.foldl (fun s a => s.modActPort a fun p => { p with ann := none }) s
  let s := s.modAct fun y => { y with sends := y.sends.filter fun z => z.sent != x.sent }
  s.completeWhere (fun r => r.wait == .noticeSend x.sent)
    (if x.acked = x.mask then stOk else if x.acked = 0 then eTimeout else ePartial)
    (if x.acked = 0 then 0 else x.acked)

/-- A port's announcement has been acknowledged. -/
def State.annAcked (s : State) (a : Nat) : State :=
  let s := (s.modActPort a fun p => { p with ann := none }).actBump a .annAcked
  match s.act.sends.find? fun x => bit x.sent a && !bit x.acked a with
  | none => s
  | some x =>
    let y := { x with acked := setBit x.acked a true }
    let s := s.modAct fun z => { z with sends := z.sends.map fun v => if v.sent = x.sent then y else v }
    if y.acked = y.sent then s.endAnnounce y else s

/-- ANN_WAIT_EXPIRY (R382): the wait of the announcement that port `a` carries passes, and with it the
instant at which an acknowledgement would have won (R383). -/
def execAnnWaitExpiry (a : Fin 16) (s : State) : Host.Outcome State Fault Refusal :=
  match s.act.sends.find? fun x => bit x.sent a.val && !bit x.acked a.val with
  | none => .next s
  | some x => .next ((s.reach (x.due + 1)).endAnnounce x)

/-- NOTICE_SEND (R382). -/
def execNoticeSend (r : Fin 64) (d : Desc) (b : HostBuf) (s : State) : Host.Outcome State Fault Refusal :=
  let mask := d.target.toNat
  let wait := d.arg [4] 0
  let named := (List.range 16).filter (bit mask)
  let up := named.filter fun a => (s.actPort a).up && (s.actPort a).cfg.mode != .off
  let c : CmdSpec :=
    { op := 0x0503, sizes := [4], target := decide (mask < 2 ^ 16), need := 32, input := true
      range := if decide (wait < 10) || decide (100000 < wait) then [32] else []
      fails := [(eState, up.isEmpty || named.any fun a => (s.actPort a).ann.isSome)] }
  .next (s.hostCmd r d b c fun l s =>
    let sent := maskOf up
    let s := up.foldl (fun s a =>
      (s.modActPort a fun p => { p with annSeq := p.annSeq + 1, ann := some (bytesAt l 0 32) }).actBump a
        .annSent) s
    let x : Announce := { mask := mask, sent := sent, acked := 0, due := s.time.now + 1000 * wait }
    (s.modAct fun y => { y with sends := y.sends ++ [x] }).await r.val d (.noticeSend sent))

/-! ## Requests (R363, R364) -/

/-- Bits of a request header, byte 0 highest (R363). -/
def hdrAt (h : BitVec 128) (byte n : Nat) : Nat := h.toNat / 2 ^ (8 * (16 - byte - n)) % 2 ^ (8 * n)

/-- The request of a header and what checks 3 to 5 of R364 say of it. -/
def requestOf (cfg : ActCfg) (eth : EthHead) (h : BitVec 128) : NoticeReq :=
  let kind := hdrAt h 0 1 % 16
  let first := hdrAt h 4 2
  let count := hdrAt h 6 1
  let ack := hdrAt h 1 1
  let bad := hdrAt h 0 1 / 16 != 1 || !(kind == 1 || kind == 2) || decide (2 ≤ ack) ||
    (ack == 0 && hdrAt h 7 1 != 0) || decide (4096 ≤ first) ||
    (kind == 2 && (first != 0 || count != 0))
  let astat := if bad then 1
    else if kind = 2 then 0
    else if decide (count = 0) || decide (64 < count) then 3
    else if decide (first < cfg.winFirst) || decide (cfg.winLast < first + count - 1) then 2
    else 0
  { status := kind == 2, astat := astat, seq := hdrAt h 2 2, first := first, count := count
    cycle := hdrAt h 8 4, src := eth.src.toNat }

/-- What a well-formed request acknowledges (R382). -/
def State.takeAck (s : State) (a : Nat) (q : NoticeReq) (h : BitVec 128) : State :=
  let p := s.actPort a
  if q.astat = 1 || hdrAt h 1 1 != 1 || p.ann.isNone then s
  else if hdrAt h 7 1 = p.annSeq.toNat then s.annAcked a
  else s.actBump a .annAckBad

/-- A request that is to be answered finds the transmitter idle, or waits, or finds a wait taken
(R368). -/
def State.offerAnswer (s : State) (a : Nat) (q : NoticeReq) (bad : List NbError) : State :=
  let s := s.startWaiting a bad
  let p := s.actPort a
  if !p.tx then s.startAnswer a q bad
  else if p.waiting.isSome then s.actBump a .reqOverflow
  else (s.modActPort a fun p => { p with waiting := some q }).actBump a .answerQueued

/-- NOTICE_REQUEST (R363, R364): the last bit of a request header and its CRC arrives.  Its frame is the one known
to be in progress, or one that began under the parameters in effect.  `eth` is the frame's start in
ETHERNET mode, and `bad` are the entries whose memory the hub finds in error. -/
def execNoticeRequest (a : Fin 16) (eth : EthHead) (head : BitVec 96) (crc : BitVec 32) (bad : List NbError)
    (s : State) : Host.Outcome State Fault Refusal :=
  let n := a.val
  let h := head ++ crc
  let p := s.actPort n
  let f := p.rx.getD { cfg := p.cfg, head := false }
  let cfg := f.cfg
  if !p.up || f.head || cfg.mode == .off then .next s
  else
    let s := s.modActPort n fun p => { p with rx := some { f with head := true } }
    let tagged := eth.etype == 0x8100 || eth.etype == 0x88A8
    if cfg.mode == .ethernet &&
        (eth.dst.toNat != cfg.mac || tagged || eth.etype.toNat != cfg.etype) then
      .next (s.actBump n .notNotice)
    else if crc32 (beBytes 12 head.toNat) != hdrAt h 12 4 then .next (s.actBump n .hdrCrc)
    else
      let s := s.actBump n .rxReq
      let s := if p.silent then s.postEvent (272 + n) 0x08 else s
      let s := s.modActPort n fun p => { p with heard := s.time.now, silent := false }
      let q := requestOf cfg eth h
      .next ((s.takeAck n q h).offerAnswer n q bad)

/-- Frame errors of a port (R362, R364), whose threshold is `thresh`. -/
def State.frameErrors (s : State) (a : Nat) (thresh : Nat) (l : List ActCtr) : State :=
  let s := l.foldl (fun s k => s.actBump a k) s
  let s := s.modActPort a fun p => { p with errs := p.errs + l.length }
  let p := s.actPort a
  if p.errRaised || decide (p.errs < thresh) then s
  else (s.modActPort a fun p => { p with errRaised := true }).postEvent (272 + a) 0x03

/-- REQUEST_FRAME_END (R364): a frame ends.  `len` is the length of an Ethernet frame, or in NATIVE
mode the bytes between the header and the terminate character.  An Ethernet frame may end before it
has held a header, and so may one that goes wrong in NATIVE mode. -/
def execRequestFrameEnd (a : Fin 16) (len : BitVec 16) (fcsOk : Bool) (s : State) :
    Host.Outcome State Fault Refusal :=
  let p := s.actPort a.val
  let n := len.toNat
  let f := p.rx.getD { cfg := p.cfg, head := false }
  let eth := f.cfg.mode == .ethernet
  if !p.up || f.cfg.mode == .off || (!f.head && eth && decide (30 ≤ n)) then .next s
  else
    let l : List ActCtr := if eth then
        (if n < 64 then [ActCtr.runt] else if 64 < n then [.giant] else []) ++
          (if fcsOk then [] else [.fcsErr])
      else if !f.head || n = 0 then [] else [.lenErr]
    let s := s.frameErrors a.val f.cfg.thresh l
    .next ((s.modActPort a.val ActPort.rxEnd).actSettle a.val)

/-! ## Programming (R370, R375) -/

/-- A program of an entry (R370). -/
def NbEntry.program (p : Params) (e : NbEntry) : NbEntry :=
  let n : NbEntry := { e with
    enable := p.val 1 (b2n e.enable) == 1, wclass := p.val 2 e.wclass, maxAge := p.val 3 e.maxAge
    safe := BitVec.ofNat 64 (p.val 4 e.safe.toNat), fmask := BitVec.ofNat 16 (p.val 5 e.fmask.toNat) }
  let ageOnly := [1, 2, 4, 5].all fun k => (p.get k).isNone
  if ageOnly then n
  else if n.enable then { n with st := .wait, fresh := 0 }
  else { n with st := .disabled }

/-- NB_PROGRAM (R370). -/
def execNbProgram (r : Fin 64) (d : Desc) (b : HostBuf) (s : State) : Host.Outcome State Fault Refusal :=
  let rows := [rowEnum 2, rowEnum 4, rowNat 10 100000000, rowNat 0 (2 ^ 64 - 1), rowNat 0 65535]
  let p := params rows d b
  let first := d.target.toNat
  let count := d.arg [2] 0
  let beyond := decide (count = 0) || decide (4096 < first + count)
  let l := (List.range count).map (first + ·)
  let held := !beyond && l.any fun n => (s.nbEntry n).st == .forced || (s.nbEntry n).st == .released
  let c : CmdSpec :=
    { op := 0x0504, sizes := [2], target := decide (first < 4096), input := true, presence := true
      range := (if beyond then [32] else []) ++ recLen d ++ p.bad, fails := [(eState, held)] }
  .next (s.hostCmd r d b c fun _ s =>
    let s := s.modAct fun x => { x with nb := l.foldl (fun t n => t.upd {} n (NbEntry.program p)) x.nb }
    s.judgeEntries.finish r.val d)

/-- TRIP_CONFIG (R375). -/
def execTripConfig (r : Fin 64) (d : Desc) (b : HostBuf) (s : State) : Host.Outcome State Fault Refusal :=
  let t := d.target.toNat
  let isMap := t / 2 ^ 24 == 1
  let n := t % 2 ^ 16
  let age : PRow := { ok := fun v => v == 0 || (decide (10 ≤ v) && decide (v ≤ 100000000)) }
  let rows := if isMap then [rowEnum 2, rowNat 0 (2 ^ 32 - 1), rowEnum 4, age]
    else [rowEnum 2, rowNat 0 65535]
  let p := params rows d b
  let mask := BitVec.ofNat 32 (p.val 2 0)
  let unused := isMap && (p.get 2).isSome &&
    (List.range 32).any fun k => mask.getLsbD k && !(s.act.trip k).enable
  let m := s.act.map.get {} n
  let forced := if isMap then s.act.maskForced (m.mask ||| mask) else s.act.forced (s.act.trip n).fmask
  let c : CmdSpec :=
    { op := 0x0505, input := true, presence := true
      target := decide (t / 2 ^ 24 ≤ 1) && t / 2 ^ 16 % 256 == 0 && decide (n < if isMap then 256 else 32)
      range := recLen d ++ p.bad ++ (if unused then [p.index 2] else []), fails := [(eState, forced)] }
  .next (s.hostCmd r d b c fun _ s =>
    let s := s.modAct fun x =>
      if isMap then
        { x with map := x.map.set {} n { m with
            enable := p.val 1 (b2n m.enable) == 1
            mask := BitVec.ofNat 32 (p.val 2 m.mask.toNat)
            wclass := p.val 3 m.wclass, maxAge := p.val 4 m.maxAge, healthy := false } }
      else
        { x with trips := x.trips.upd {} n fun t => { t with
            enable := p.val 1 (b2n t.enable) == 1, fmask := BitVec.ofNat 16 (p.val 2 t.fmask.toNat) } }
    s.judgeTrips.finish r.val d)

end Sys2Proof.Machine
end

