-- ==== Sys2Proof/Machine/Start.lean ====
section
/-! DEFINITION. Start-up, Lantern mode, power and self-test (18_start_power.md R467-R493), and the
fences of 10_fabric.md R272. -/

namespace Sys2Proof.Machine

def State.modBoard (f : Board → Board) (s : State) : State := { s with board := f s.board }

/-! ## Resets (R467, R468) -/

/-- A full device reset: every unit at its reset state but the always-on domain, the fuses, the
board, and the counting of time (log 2).  The conditions that lie outside the units it resets go on (log 295). -/
def State.fullReset (s : State) : State :=
  let holds := fun (on : Bool) (x : Nat × Nat) => if on then [x] else []
  let r := State.reset
  { r with
    time := { r.time with now := s.time.now, t64 := s.time.t64, frac := s.time.frac }
    setup := { r.setup with
      ppsInEdge := s.fuses.ppsInEdge, ppsOutWidth := s.fuses.ppsOutWidth, assetTag := s.fuses.assetTag }
    aon := s.aon
    watch := { r.watch with
      levels := holds (!s.board.supplyOut.isEmpty) (239, 0x88) ++ holds (!s.board.refclk) (240, 0x90) ++
        holds (s.aon.sealSt == .opened) (242, 0x98) }
    fuses := s.fuses
    board := s.board
    out := s.out
    fresh := s.fresh
    pending := s.pending }

/-- POWER_UP (R467): every supply is within its window. -/
def execPowerUp (s : State) : Host.Outcome State Fault Refusal :=
  .next (s.modBoard fun b => { b with supplyOut := [] }).fullReset

/-- RESET_N_ASSERT (R467). -/
def execResetNAssert (s : State) : Host.Outcome State Fault Refusal :=
  .next (s.modBoard fun b => { b with resetLow := true }).fullReset

/-- ALWAYS_ON_RESET (R468, R447): VDDIO_3V3 has left its range.  SEAL_STATE is no longer OPEN, and the
condition of an open seal ends (R417, R449). -/
def execAlwaysOnReset (s : State) : Host.Outcome State Fault Refusal :=
  .next ((s.modAon fun a => { keyN := a.keyN, keySince := s.time.now }).endLevel 242 0x98)

/-! ## The start (R469-R475) -/

/-- Reset is released and a start begins (R469, R473): a Lantern start after three failures. -/
def execResetRelease (s : State) : Host.Outcome State Fault Refusal :=
  let s := s.modBoard fun b => { b with resetLow := false }
  if s.power.phase != .held || !s.board.refclk || !s.board.supplyOut.isEmpty then .next s
  else
    let lantern := s.aon.startFails == 3
    let s := s.aonBump .starts
    let s := if lantern then s.aonBump .lanternEntries
      else s.modAon fun a => { a with hbmState := [2, 2, 2, 2] }
    .next (s.modPower fun p => { p with
      phase := if lantern then .lanternBoot 1 else .boot 1, relAt := s.time.now })

/-- A reason that a stage can have (R474). -/
def reasonAt (stage reason : Nat) : Bool :=
  [0x01, 0x0D, 0x0E, 0x0F].contains reason ||
  match reason with
  | 0x02 => stage == 1
  | 0x03 => stage == 1
  | 0x04 => stage == 2
  | 0x05 => stage == 3
  | 0x06 => stage == 4
  | 0x07 => decide (4 ≤ stage)
  | 0x08 => stage == 5
  | 0x09 => stage == 6
  | 0x0A => stage == 7
  | 0x0B => stage == 8
  | 0x0C => stage == 8
  | _ => false

/-- An image in a slot authenticates (R456, R471). -/
def Fuses.boots (f : Fuses) (o : Option FwImage) : Option FwImage :=
  o.filter fun i => !f.fwRevoke.contains i.key && decide (f.minSvn ≤ i.svn)

/-- The image that the ROM boots, and whether it is that of slot B (R471). -/
def State.bootImage (s : State) : Option (FwImage × Bool) :=
  match s.fuses.boots s.board.slotA, s.fuses.boots s.board.slotB with
  | some a, some b => if a.svn < b.svn then some (b, true) else some (a, false)
  | some a, none => some (a, false)
  | none, some b => some (b, true)
  | none, none => none

/-- The system regions but for the Cellar's (R266): responder, index, base and length (log 23).  They are
the trace buffer (R512), REEVE_TABLE (R75), the result banks with 512 MiB of each responder (R317, R388),
the hold store and the exception queue of each ingest hub (R293, R281), the stage with the most that
RESULT_STAGE can be (R317), the 64 last reports (R325) and the mirror of the fault log (R431). -/
def systemRegions : List (Nat × Nat × Nat × Nat) :=
  [(0, 0xFFF, 0, 2 ^ 28), (0, 0xFFD, 2 ^ 28, 2 ^ 23)] ++
  ((List.range 16).map fun j => (j, 0xFFC, 2 ^ 29, 2 ^ 29)) ++
  ((List.range 8).map fun h => (h, 0xFFB, 2 ^ 28 + 2 ^ 23, 2 ^ 23)) ++
  ((List.range 8).map fun h => (h, 0xFFA, 2 ^ 28 + 2 ^ 24, 64 * (32 + 9216))) ++
  [(8, 0xFF9, 2 ^ 30, 2 ^ 30), (8, 0xFF8, 0, 64 * 16512), (8, 0xFF7, 2 ^ 21, 1024 * 32)]

/-- The system regions that stage 6 lays out (R266, R512). -/
def State.layRegions (s : State) : State :=
  (systemRegions.foldl (fun s e => s.modResp e.1 fun r => { r with
    regions := r.regions.set {} e.2.1 { valid := true, base := e.2.2.1, length := e.2.2.2 } }) s).layCellar.traceHeader

/-- A start succeeds (R473); a change of presence during it is raised now (R447). -/
def State.ready (s : State) (lantern : Bool) : State :=
  let s := s.modPower fun p => { p with
    phase := if lantern then .lantern else .ready, restSince := some s.time.now }
  let s := if lantern then s.postEvent 454 0xD0 s.lanternWhy
    else (s.modAon fun a => { a with startFails := 0 }).syncEnabled
  if s.aon.keyPending then (s.modAon fun a => { a with keyPending := false }).presenceEvent else s

/-- Stage 7 ends with the cells that failed their self-test: they and the cells of the fused map are mapped
out, at most 4 (R472). -/
def State.cellsDone (s : State) (failed : List Nat) : State :=
  let out := (failed ++ s.fuses.cellMap).eraseDups
  let s := s.modAon fun a => { a with cellFail := failed }
  if 4 < out.length then s.failStart 7 0x0A false
  else s.modPower fun p => { p with mappedOut := out.length, phase := .boot 8 }

/-- A stage ends well: what it leaves, and the next stage. -/
def State.stageOk (s : State) (k : Nat) : State :=
  let next := fun (s : State) => s.modPower fun p => { p with phase := .boot (k + 1) }
  match k with
  | 3 =>
    if !s.board.flash then s.failStart 3 0x05 false
    else next (s.modPower fun p => { p with flashFound := true })
  | 4 =>
    let s := s.modPower fun p => { p with
      slotAAuth := (s.fuses.boots s.board.slotA).isSome, slotBAuth := (s.fuses.boots s.board.slotB).isSome }
    (match s.bootImage with
    | none => s.failStart 4 0x06 false
    | some i => next (s.modPower fun p => { p with running := some i }))
  | 5 => next (s.modAon fun a => { a with hbmState := [0, 0, 0, 0] })
  | 6 => next s.layRegions
  | 7 => s.cellsDone []
  | 8 => s.ready false
  | _ => next s

/-- BOOT_STAGE_DONE (R469, R471-R474). -/
def execBootStageDone (r : BootResult) (s : State) : Host.Outcome State Fault Refusal :=
  match s.power.phase with
  | .boot k =>
    if !s.board.supplyOut.isEmpty then .next (s.failStart k 0x01 false)
    else if s.watch.fstate == .halted then .next (s.failStart k 0x0F false)
    else match r with
      | .ok => .next (s.stageOk k)
      | .stacks bad =>
        if k != 5 then .next s
        else if bad.isEmpty then .next (s.stageOk 5)
        else
          let h := (List.range 4).map fun i => if (bad.map (·.val)).contains i then 1 else 0
          .next ((s.modAon fun a => { a with hbmState := h }).failStart 5 0x08 false)
      | .cells bad =>
        .next (if k = 7 then s.cellsDone (bad.map (·.val)).eraseDups else s)
      | .fail c => if reasonAt k c.toNat then .next (s.failStart k c.toNat false) else .next s
  | .lanternBoot k =>
    (match r with
    | .ok => .next (if k < 2 then s.modPower fun p => { p with phase := .lanternBoot (k + 1) } else s.ready true)
    | .fail c => if reasonAt k c.toNat then .next (s.failStart k c.toNat true) else .next s
    | _ => .next s)
  | _ => .next s

/-- START_TIMEOUT (R469): step 9 has not been reached 2 s after reset release. -/
def execStartTimeout (s : State) : Host.Outcome State Fault Refusal :=
  match s.power.phase with
  | .boot _ => .next ((s.reach (s.power.relAt + 2000000000)).abortStart 0x0D)
  | .lanternBoot _ => .next ((s.reach (s.power.relAt + 2000000000)).abortStart 0x0D)
  | _ => .next s

/-- RETRY_PAUSE_EXPIRY (R473): 10 ms after a failed start a full reset follows. -/
def execRetryPauseExpiry (s : State) : Host.Outcome State Fault Refusal :=
  match s.power.phase with
  | .pause _ => .next (s.reach (s.power.pauseAt + 10000000)).fullReset
  | _ => .next s

/-- PCIE_LINK_TRAINED (R470). -/
def execPcieLinkTrained (s : State) : Host.Outcome State Fault Refusal :=
  if s.power.phase == .held then .next s else .next (s.modHost fun h => { h with linkUp := true })

/-! ## Supplies, clock and temperature (R489, R491, R528, R541) -/

/-- SUPPLY_OUT (R528, R492). -/
def execSupplyOut (k : Fin 9) (mv : BitVec 16) (s : State) : Host.Outcome State Fault Refusal :=
  if s.board.supplyOut.contains k.val then .next s
  else
    let s := s.modBoard fun b =>
      { b with supplyOut := b.supplyOut ++ [k.val], supplyMv := b.supplyMv.set 0 k.val mv.toNat }
    let s := s.postEvent 453 0xC0 k.val mv.toNat
    let s := if s.power.phase == .lantern then s else s.detect 239 0x88 k.val
    .next (s.abortStart 0x01)

/-- SUPPLY_IN (R528). -/
def execSupplyIn (k : Fin 9) (mv : BitVec 16) (s : State) : Host.Outcome State Fault Refusal :=
  if !s.board.supplyOut.contains k.val then .next s
  else
    let s := s.modBoard fun b =>
      { b with supplyOut := b.supplyOut.erase k.val, supplyMv := b.supplyMv.set 0 k.val mv.toNat }
    let s := s.postEvent 453 0xC1 k.val mv.toNat
    if s.board.supplyOut.isEmpty then .next (s.endLevel 239 0x88) else .next s

/-- REFCLK_LOSS (R541, R474). -/
def execRefclkLoss (s : State) : Host.Outcome State Fault Refusal :=
  let s := (s.modBoard fun b => { b with refclk := false }).detect 240 0x90
  match s.power.phase with
  | .boot 1 => .next (s.abortStart 0x02)
  | .lanternBoot 1 => .next (s.abortStart 0x02)
  | _ => .next s

/-- JUNCTION_SENSOR_READ (R88, R417, R489, R491): sensors 0 to 127 are the logical cells', 0x100 + t
edge tile t's; the reading is in 0.125 C. -/
def execJunctionSensorRead (n : BitVec 9) (reading : BitVec 16) (s : State) :
    Host.Outcome State Fault Refusal :=
  let t := reading.toInt
  let k := n.toNat
  let d1 := narrow 64 t
  let s := s.modBoard fun b => { b with tjMax := max b.tjMax t }
  let hot := s.power.hot.contains k
  let s :=
    if !hot && decide ((8 * s.reeve.hotLimit : Nat) ≤ t) then
      (s.modPower fun p => { p with hot := p.hot ++ [k] }).postEvent 451 0xB0 k d1
    else if hot && decide (t ≤ (8 * s.reeve.hotLimit : Nat) - 40) then
      (s.modPower fun p => { p with hot := p.hot.erase k }).postEvent 451 0xB1 k d1
    else s
  let crit := s.power.tjCrit.contains k
  if !crit && decide (920 < t) then
    let s := (s.modPower fun p => { p with tjCrit := p.tjCrit ++ [k] }).postEvent 451 0xB2 k d1
    .next ((s.detect 238 0x80 k).abortStart 0x0E)
  else if crit && decide (t < 880) then
    let s := (s.modPower fun p => { p with tjCrit := p.tjCrit.erase k }).postEvent 451 0xB3 k d1
    if s.power.tjCrit.isEmpty then .next (s.endLevel 238 0x80) else .next s
  else .next s

/-! ## Fences and hubs (R272, R479) -/

/-- A hub that has no work (R479): it may be switched off. -/
def State.hubIdle (s : State) (code : Nat) : Bool :=
  if 0x98 ≤ code && code ≤ 0x9F then
    let r := code - 0x98
    let ports := (List.range 8).map (8 * r + ·)
    ports.all (fun p => (s.ingest.ports.get {} p).cfg.mode == .off) &&
    ports.all (fun p => (s.ingest.evin.get {} p).mode == .off) &&
    !(s.ingest.binds.any fun e => e.2.st != .unbound && e.1 / 256 / 8 == r)
  else if 0x95 ≤ code && code ≤ 0x97 then
    let c := code - 0x94
    let named := fun (p : Nat) => match s.chain.role, s.chain.mode with
      | .off, _ => false
      | _, .ring => p == s.chain.portA || p == s.chain.portB
      | .root, _ => bit s.chain.downPorts p
      | .station, _ => p == s.chain.upPort || bit s.chain.downPorts p
    !((List.range 16).any fun p => p / 4 == c && named p)
  else false

/-- FENCE_REQUEST (R272): for a hub that is to be switched off, or a cell that has been drained. -/
def execFenceRequest (target : BitVec 8) (s : State) : Host.Outcome State Fault Refusal :=
  let k := target.toNat
  let may := if k < 128 then
      (match s.power.cellTest.get none k with
      | some t => t.st == .fenced
      | none => false)
    else s.isReady && s.hubIdle k && !s.power.hubOff.contains k
  if !may || (s.fabric.fencing.any fun f => f.1 == k) || s.fabric.fenced.contains k then .next s
  else .next (s.modFabric fun f => { f with fencing := f.fencing ++ [(k, s.time.now)] })

/-- The target's port is fenced. -/
def State.fenceDone (s : State) (k : Nat) : State :=
  s.modFabric fun f => { f with
    fencing := f.fencing.filter fun x => x.1 != k
    fenced := if f.fenced.contains k then f.fenced else f.fenced ++ [k] }

/-- FENCE_COMPLETE (R272, R486): a cell's test begins, a hub's domain is switched off. -/
def execFenceComplete (target : BitVec 8) (s : State) : Host.Outcome State Fault Refusal :=
  let k := target.toNat
  if !(s.fabric.fencing.any fun f => f.1 == k) then .next s
  else
    let s := s.fenceDone k
    if k < 128 then
      let f := fun (t : Option CellTest) => t.map fun x => { x with st := .testing, since := s.time.now }
      .next (s.modPower fun p => { p with cellTest := p.cellTest.upd none k f })
    else if s.hubIdle k then .next (s.modPower fun p => { p with hubOff := p.hubOff ++ [k] })
    else .next s

/-- HUB_WAKE (R479): a hub that is needed again wakes and opens its port. -/
def execHubWake (hub : BitVec 8) (s : State) : Host.Outcome State Fault Refusal :=
  let k := hub.toNat
  if !s.power.hubOff.contains k || s.power.rest then .next s
  else
    .next ((s.modPower fun p => { p with hubOff := p.hubOff.erase k }).modFabric fun f =>
      { f with fenced := f.fenced.erase k })

/-! ## REST (R483, R484) -/

/-- The conditions of REST hold now (R483). -/
def State.restful (s : State) : Bool :=
  s.isReady && (s.reeve.graphs.all fun g => g.2.isNone) && s.writer.st == .stopped && s.chain.role == .off &&
  (s.ingest.ports.all fun p => p.2.cfg.mode == .off) && (s.ingest.evin.all fun e => e.2.mode == .off) &&
  s.act.idle && s.host.running.isEmpty && s.writerItems.isEmpty

/-- The hubs that REST switches off (R479). -/
def restHubs : List Nat :=
  [0x92, 0x93, 0x94, 0x95, 0x96, 0x97, 0x98, 0x99, 0x9A, 0x9B, 0x9C, 0x9D, 0x9E, 0x9F]

/-- REST_ENTRY (R483, R515): the conditions have held for 1 s. -/
def execRestEntry (s : State) : Host.Outcome State Fault Refusal :=
  match s.power.restSince with
  | none => .next s
  | some t =>
    if !s.restful || s.power.rest then .next s
    else
      let s := s.reach (t + 1000000001)
      let s := State.drainStage s.trace.stage s
      let s := if s.trace.en then s.writeLost.writeSleep 0x04#8 else s
      let s := restHubs.foldl State.fenceDone s
      let s := s.modPower fun p => { p with rest := true, hubOff := restHubs }
      .next ((s.postEvent 453 0xC2).aonBump .restEntries)

/-- REST_EXIT (R483): an access of the Steward to HBM is due. -/
def execRestExit (s : State) : Host.Outcome State Fault Refusal := .next s.leaveRest

/-- SCRUB_DONE (R484): the scrub of a stack's share of the Cellar ends; `bad` are the channels in
which a line could not be corrected. -/
def execScrubDone (stack : Fin 4) (corrected : BitVec 32) (bad : List (Fin 64)) (s : State) :
    Host.Outcome State Fault Refusal :=
  if !s.power.scrub.contains stack.val then .next s
  else
    let s := s.modPower fun p => { p with scrub := p.scrub.erase stack.val }
    let s := s.aonBump .scrubCorrected corrected.toNat
    let s := bad.foldl (fun s c => s.detect (192 + c.val / 4) 0x30 c.val) s
    .next (s.postEvent (307 + stack.val) 0xE0 corrected.toNat)

/-! ## Cells that wake (R481, R482) -/

/-- The code of a partition on a cell (R85, R153, R155). -/
def Cell.takeCode (c : Cell) (p : PartDef) : Cell :=
  { c with
    nodes := p.nodes.foldl (fun t e => t.set 0 e.1.toNat e.2) c.nodes
    code := p.code.foldl (fun t e => t.set 0 e.1.toNat e.2) c.code }

/-- The CRC-32 of a group's node-table and block-store ranges on a cell: the descriptors and then the
words, in rising order (R85, log 266). -/
def Cell.codeCrc (c : Cell) (g : GroupDef) : Nat :=
  let span := fun (lo hi : BitVec 14) => (List.range (hi.toNat + 1 - lo.toNat)).map fun i => lo.toNat + i
  Crypto.crc32 (((span g.nodeLo g.nodeHi).flatMap fun i => leBytes 8 (c.nodes.get 0 i).toNat) ++
    (span g.bsLo g.bsHi).flatMap fun i => leBytes 4 (c.code.get 0 i).toNat)

/-- The partitions whose code the cells of a group hold: those of the loaded graphs, and those that a
SET_GROUP has moved away (R84, R90). -/
def State.groupParts (s : State) (group : Nat) : List PartDef :=
  (((s.reeve.graphs.filterMap (·.2)).flatMap (·.parts)) ++ s.reeve.moved.flatMap (·.2)).filter
    fun p => p.group.val == group

/-- A cell keeps the CRC of a group's code (R85). -/
def State.keepCrc (s : State) (n : Nat) (g : GroupDef) : State :=
  s.modCell n fun c => { c with crc := c.crc.set none g.num.val (some (c.codeCrc g)) }

/-- The CRC of a group's code is recorded (R85). -/
def State.recordCrc (s : State) (g : GroupDef) : State :=
  let crc := ((s.groupParts g.num.val).foldl Cell.takeCode {}).codeCrc g
  { s with reeve := { s.reeve with groups := s.reeve.groups.upd {} g.num.val fun z => { z with crc := some crc } } }

/-- The Reeve reloads a cell with the code of every group that includes it (R85, R486). -/
def State.reloadCell (s : State) (n : Nat) : State :=
  let mine := (s.reeve.groups.filterMap fun e => e.2.gdef).filter fun g => g.mask.getLsbD n
  let s := mine.foldl (fun s g =>
    ((s.groupParts g.num.val).foldl (fun s p => s.modCell n fun c => c.takeCode p) s).keepCrc n g) s
  { s with reeve := { s.reeve with stale := s.reeve.stale.erase n } }

/-- A cell wakes (R482): nothing but its counters and its generation outlasts the sleep. -/
def State.wakeCell (s : State) (n : Nat) : State :=
  let s := s.modCell n fun c =>
    { pal := { cnt := c.pal.cnt, raised := c.pal.raised }
      que := { cnt := c.que.cnt }
      lastP := c.lastP, lastM := c.lastM, cellGen := c.cellGen + 1, bellHold := c.bellHold
      excRaised := c.excRaised, traceDrop := c.traceDrop, traceBuf := c.traceBuf, cnt := c.cnt }
  let s := s.modFabric fun f => { f with gHold := f.gHold.filter fun e => e.1.src != n }
  ({ s with reeve := { s.reeve with
      stale := if s.reeve.stale.contains n then s.reeve.stale else s.reeve.stale ++ [n] } }).stallCheck

/-- COLUMN_POWER_GOOD_LOSS (R481). -/
def execColumnPowerGoodLoss (c : Fin 16) (s : State) : Host.Outcome State Fault Refusal :=
  if s.power.colLost.contains c.val then .next s
  else
    let cells := (List.range 8).map fun i => c.val + 16 * i
    let s := (s.modPower fun p => { p with
      colLost := p.colLost ++ [c.val]
      cellTest := p.cellTest.map fun e =>
        if e.1 % 16 = c.val then (e.1, e.2.map fun t => { t with aborted := true }) else e
      }).aonBump .colpwrLoss
    let s := s.detect (212 + c.val) 0x41 c.val
    .next (cells.foldl State.isolate s)

/-- A cell's test ends (R486, R487): the command completes. -/
def State.endCellTest (s : State) (n result block : Nat) : State :=
  let s := s.modPower fun p => { p with cellTest := p.cellTest.del n }
  let s := s.modFabric fun f => { f with
    fencing := f.fencing.filter fun x => x.1 != n, fenced := f.fenced.erase n }
  let s := if result = 0 then s.aonBump .cellTestPass
    else if result = 1 then s.aonBump .cellTestFail else s
  (s.halfCheck (n / 2)).completeWhere (fun r => r.wait == .cellTest n) stOk (result + 2 ^ 8 * block)

/-- COLUMN_POWER_GOOD_RETURN (R481, R492). -/
def execColumnPowerGoodReturn (c : Fin 16) (s : State) : Host.Outcome State Fault Refusal :=
  if !s.power.colLost.contains c.val then .next s
  else
    let cells := (List.range 8).map fun i => c.val + 16 * i
    let s := s.modPower fun p => { p with colLost := p.colLost.erase c.val }
    let s := s.endLevel (212 + c.val) 0x41
    .next (cells.foldl (fun s n =>
      let s := s.wakeCell n
      if (s.power.cellTest.get none n).isSome then s.endCellTest n 2 0 else s) s)

/-! ## Self-test (R485-R488) -/

/-- A command whose TARGET names a cell under test (R485). -/
def State.testing (s : State) (n : Nat) : Bool := (s.power.cellTest.get none n).isSome

/-- A cell is drained (R486): no LIVE context is placed on it, its queues and banks are empty, and
it holds no credit.  What an isolated cell holds is lost already (R271). -/
def State.drained (s : State) (n : Nat) : Bool :=
  let c := s.cell n
  !(s.reeve.ctx.any fun e => e.2.st == .live && e.2.cells.contains n) &&
  (s.fabric.iso.contains n ||
   (c.que.eb0.isEmpty && c.que.eb1.isEmpty && c.que.express.isEmpty && c.p.hdr.isNone && c.m.hdr.isNone &&
    c.credit.isEmpty))

/-- SELF_TEST (R485, R488). -/
def execSelfTest (r : Fin 64) (d : Desc) (b : HostBuf) (s : State) : Host.Outcome State Fault Refusal :=
  let t := d.target.toNat
  let n := t % 2 ^ 16
  let hbm := t / 2 ^ 24 == 1
  let busy := if hbm then (s.power.hbmTest.get none n).isSome else s.testing n
  let bad := if hbm then (s.power.hbmTest.get none (if n % 2 = 0 then n + 1 else n - 1)).isSome
    else s.pairClass0 n
  let c : CmdSpec :=
    { op := 0x0602, target := decide (t / 2 ^ 24 ≤ 1) && t / 2 ^ 16 % 256 == 0 && decide (n < 128)
      fails := [(eState, bad), (eBusy, busy), (eNoRes, !hbm && decide (4 ≤ s.power.cellTest.length))] }
  .next (s.hostCmd r d b c fun _ s =>
    if hbm then
      (s.modPower fun p => { p with hbmTest := p.hbmTest.set none n (some { seg := 0, fail := 0 }) }).await
        r.val d (.hbmTest n)
    else
      (s.modPower fun p => { p with
        cellTest := p.cellTest.set none n (some { st := .draining, since := s.time.now, aborted := false }) }).await
        r.val d (.cellTest n))

/-- DRAIN_END (R486): the cell is drained and its fence begins. -/
def execDrainEnd (c : Fin 128) (s : State) : Host.Outcome State Fault Refusal :=
  match s.power.cellTest.get none c.val with
  | some t =>
    if t.st != .draining || !s.drained c.val then .next s
    else
      let s := s.modPower fun p => { p with
        cellTest := p.cellTest.set none c.val (some { t with st := .fenced, since := s.time.now }) }
      let s := s.modFabric fun f => { f with fencing := f.fencing ++ [(c.val, s.time.now)] }
      .next (s.halfCheck (c.val / 2))
  | none => .next s

/-- DRAIN_TIMEOUT (R486): the drain has lasted more than 1 s (R492); nothing but the command is changed. -/
def execDrainTimeout (c : Fin 128) (s : State) : Host.Outcome State Fault Refusal :=
  match s.power.cellTest.get none c.val with
  | some t =>
    if t.st != .draining || s.drained c.val then .next s
    else
      let s := s.reach (t.since + 1000000001)
      let s := s.modPower fun p => { p with cellTest := p.cellTest.del c.val }
      .next (s.completeWhere (fun r => r.wait == .cellTest c.val) eTimeout)
  | none => .next s

/-- FENCE_TIMEOUT (R486): the fence is not complete within 10 us. -/
def execFenceTimeout (c : Fin 128) (s : State) : Host.Outcome State Fault Refusal :=
  match s.power.cellTest.get none c.val with
  | some t =>
    if t.st != .fenced then .next s
    else
      let s := s.reach (t.since + 10000)
      let s := s.detect (212 + c.val % 16) 0x40 (c.val % 16)
      .next ((s.isolate c.val).endCellTest c.val 1 9)
  | none => .next s

/-- CELL_TEST_DONE (R486, R487): the test ends and the cell wakes; `block` is the first failing
block, 0 for a pass. -/
def execCellTestDone (c : Fin 128) (block : BitVec 8) (s : State) : Host.Outcome State Fault Refusal :=
  let n := c.val
  match s.power.cellTest.get none n with
  | some t =>
    if t.st != .testing || t.aborted || decide (9 < block.toNat) then .next s
    else
      let s := s.wakeCell n
      if block = 0 then
        let s := s.modFabric fun f => { f with iso := f.iso.erase n }
        .next ((s.reloadCell n).endCellTest n 0 0)
      else
        let s := if s.fabric.iso.contains n then s.postEvent (64 + n) 0x38 else s.isolate n
        .next (s.endCellTest n 1 block.toNat)
  | none => .next s

/-- HBM_TEST_SEGMENT (R488): a segment of 2 MiB, which is 32,768 lines, is done with `bad` failing
lines; the 384th ends the test. -/
def execHbmTestSegment (k : Fin 128) (bad : BitVec 32) (s : State) : Host.Outcome State Fault Refusal :=
  match s.power.hbmTest.get none k.val with
  | none => .next s
  | some t =>
    let t := { t with seg := t.seg + 1, fail := t.fail + bad.toNat }
    if 32768 < bad.toNat then .next s
    else if t.seg < 384 then
      .next (s.modPower fun p => { p with hbmTest := p.hbmTest.set none k.val (some t) })
    else
      let ch := k.val / 2
      let s := s.modPower fun p => { p with hbmTest := p.hbmTest.del k.val }
      let s := if t.fail = 0 then s.aonBump .hbmTestPass
        else ((s.aonBump .hbmTestFail).postEvent (307 + ch / 16) 0xE1 k.val t.fail).detect
          (192 + ch / 4) 0x30 ch
      .next (s.completeWhere (fun r => r.wait == .hbmTest k.val) stOk (b2n (t.fail != 0) + 2 ^ 8 * t.fail))

/-! ## Commands (R471, R477, R478) -/

/-- FW_UPDATE (R455, R456, R471): the image goes to the slot that was not booted. -/
def execFwUpdate (r : Fin 64) (d : Desc) (b : HostBuf) (s : State) : Host.Outcome State Fault Refusal :=
  let big := match b with
    | .data _ => if decide (8 * 2 ^ 20 < leAt (bufBytes d b) 16 4) then [24] else []
    | _ => []
  let c : CmdSpec :=
    { op := 0x0705, lantern := true, target := d.target == 0, need := 256, input := true
      presence := true, late := true, range := imageLen d b ++ imageType d b 2 ++ big }
  .next (s.hostCmd r d b c fun l s =>
    if !s.fuses.authentic l then s.finish r.val d eSig
    else
      -- the version is in the body, whose layout no rule gives (log 10)
      let (v, s) := s.leaveRest.draw
      let i : FwImage :=
        { svn := leAt l 8 4, commit := bit (leAt l 6 1) 0, version := v.setWidth 32, key := leAt l 5 1 }
      let toB := match s.power.running with
        | some (_, b) => !b
        | none => false
      (s.modBoard fun x => if toB then { x with slotB := some i } else { x with slotA := some i }).finish r.val d)

/-- The diagnostic block (R478). -/
def State.diagBlock (s : State) : List Byte :=
  let hbm := s.aon.hbmState.map fun x => if s.power.phase == .lantern && x == 0 then 3 else x
  let svn := match s.power.running with
    | some (i, _) => i.svn
    | none => 0
  let slotB := match s.power.running with
    | some (_, b) => b
    | none => false
  leBytes 4 s.lanternWhy ++ leBytes 4 s.aon.tFail.toNat ++ leBytes 17 (maskOf s.aon.cellFail) ++
  List.replicate 3 0#8 ++ hbm.map (BitVec.ofNat 8) ++
  (List.range 9).flatMap (fun k => leBytes 2 (s.board.supplyMv.get 0 k)) ++
  leBytes 2 (narrow 16 s.board.tjMax) ++
  leBytes 2 (b2n s.power.flashFound + 2 * b2n s.power.slotAAuth + 4 * b2n s.power.slotBAuth +
    8 * b2n slotB + 2 ^ 8 * svn) ++ List.replicate 74 0#8

/-- LANTERN_DIAG (R478). -/
def execLanternDiag (r : Fin 64) (d : Desc) (b : HostBuf) (s : State) : Host.Outcome State Fault Refusal :=
  let c : CmdSpec := { op := 0x070A, lantern := true, target := d.target == 0, need := 128 }
  .next (s.hostCmd r d b c fun _ s => s.finish r.val d stOk 128 s.diagBlock)

/-- RESTART (R398, R412, R477): a full reset, without a completion. -/
def execRestart (r : Fin 64) (d : Desc) (b : HostBuf) (s : State) : Host.Outcome State Fault Refusal :=
  let c : CmdSpec :=
    { op := 0x070B, lantern := true, target := d.target == 0, presence := true, halted := true }
  .next (s.hostCmd r d b c fun _ s =>
    let s := if s.power.phase == .lantern then s.modAon fun a => { a with startFails := 0 } else s
    s.fullReset)

end Sys2Proof.Machine
end

