-- ==== Sys2Proof/Machine/Command.lean ====
section
/-! DEFINITION. The host commands of the rings, the statistics, the cell flush, the Watch and debug
(15_host.md R397-R400, R407; 16_watch.md R418, R429, R430, R432, R442). -/

namespace Sys2Proof.Machine

/-- NOP (R398). -/
def execNop (r : Fin 64) (d : Desc) (b : HostBuf) (s : State) : Host.Outcome State Fault Refusal :=
  let c : CmdSpec := { op := 0x0001, lantern := true, target := d.target == 0 }
  .next (s.hostCmd r d b c fun _ s => s.finish r.val d)

/-- The IDENTIFY block (R400). -/
def State.identity (s : State) : List Byte :=
  let version := match s.power.running with
    | some (i, _) => i.version.toNat
    | none => 0
  leBytes 4 0x8128 ++ [0xB1#8] ++ leBytes 1 (b2n (s.power.phase == .lantern)) ++
  leBytes 1 s.power.mappedOut ++ [0#8] ++ leBytes 16 s.fuses.serial.toNat ++ leBytes 4 version ++
  leBytes 2 s.stationId ++ leBytes 2 (s.reeve.graphs.filter fun e => e.2.isSome).length ++
  leBytes 8 s.time.t64.toNat ++ List.replicate 24 0#8

/-- IDENTIFY (R400, R421). -/
def execIdentify (r : Fin 64) (d : Desc) (b : HostBuf) (s : State) : Host.Outcome State Fault Refusal :=
  let c : CmdSpec :=
    { op := 0x0002, lantern := true, target := d.target == 0, need := 64, halted := true }
  .next (s.hostCmd r d b c fun _ s => s.finish r.val d stOk 64 s.identity)

/-! ## Rings (R391, R398) -/

/-- BASE is not a multiple of 4 KiB: its offset. -/
def ringAlign (base : Nat) : List Nat := if base % 4096 = 0 then [] else [32]

/-- SIZE_LOG2 outside 4 to 12: its offset. -/
def ringSize (n : Nat) : List Nat := if decide (4 ≤ n) && decide (n ≤ 12) then [] else [40]

/-- TARGET names a ring that commands set. -/
def ringTarget (d : Desc) : Bool := decide (1 ≤ d.target.toNat) && decide (d.target.toNat < 64)

/-- CREATE_CMD_RING (R398). -/
def execCreateCmdRing (r : Fin 64) (d : Desc) (b : HostBuf) (s : State) :
    Host.Outcome State Fault Refusal :=
  let arg := d.arg [8, 1, 1]
  let n := d.target.toNat
  let c : CmdSpec :=
    { op := 0x0003, ring0 := true, sizes := [8, 1, 1], target := ringTarget d, align := ringAlign (arg 0)
      range := ringSize (arg 1) ++ if 64 ≤ arg 2 then [41] else []
      fails := [(eState, (s.cmdRing n).en || !(s.cplRing (arg 2)).en)] }
  .next (s.hostCmd r d b c fun _ s =>
    (s.modCmd n fun _ =>
      { en := true, base := BitVec.ofNat 64 (arg 0), sizeLog2 := arg 1, cplRing := arg 2 }).finish r.val d)

/-- CREATE_CPL_RING (R398, R411). -/
def execCreateCplRing (r : Fin 64) (d : Desc) (b : HostBuf) (s : State) :
    Host.Outcome State Fault Refusal :=
  let arg := d.arg [8, 1, 1, 2, 2]
  let n := d.target.toNat
  let c : CmdSpec :=
    { op := 0x0004, ring0 := true, sizes := [8, 1, 1, 2, 2], target := ringTarget d, align := ringAlign (arg 0)
      range := ringSize (arg 1) ++ (if 64 ≤ arg 2 then [41] else []) ++
        (if 1000 < arg 3 then [42] else []) ++
        (if decide (arg 4 = 0) || decide (2 ^ arg 1 ≤ arg 4) then [44] else [])
      fails := [(eState, (s.cplRing n).en)] }
  .next (s.hostCmd r d b c fun _ s =>
    (s.modCpl n fun _ =>
      { en := true, base := BitVec.ofNat 64 (arg 0), sizeLog2 := arg 1, vector := arg 2
        holdoff := arg 3, thresh := arg 4, armed := true }).finish r.val d)

/-- A completion ring is named by a command ring or by a route (R398). -/
def State.ringNamed (s : State) (q : Nat) : Bool :=
  (s.host.cmd.any fun e => e.2.en && e.2.cplRing == q) || s.host.src.any fun e => e.2.ring == q

/-- DELETE_RING (R398). -/
def execDeleteRing (r : Fin 64) (d : Desc) (b : HostBuf) (s : State) : Host.Outcome State Fault Refusal :=
  let t := d.target.toNat
  let n := t % 64
  let cpl := bit t 7
  let busy := (s.host.running.any fun x => x.ring == n && x.live) || (s.cmdRing n).item.isSome
  let c : CmdSpec :=
    { op := 0x0005, target := decide (t < 256) && !bit t 6 && n != 0
      fails := [(eState, if cpl then s.ringNamed n else busy || n == r.val)] }
  .next (s.hostCmd r d b c fun _ s =>
    (if cpl then s.modCpl n fun _ => {} else s.modCmd n fun _ => {}).finish r.val d)

/-- EVENT_ROUTE (R407). -/
def execEventRoute (r : Fin 64) (d : Desc) (b : HostBuf) (s : State) : Host.Outcome State Fault Refusal :=
  let arg := d.arg [2, 1, 1]
  let first := d.target.toNat
  let c : CmdSpec :=
    { op := 0x0006, sizes := [2, 1, 1], target := decide (first < 512)
      range := (if decide (arg 0 = 0) || decide (512 < first + arg 0) then [32] else []) ++
        (if 64 ≤ arg 1 then [34] else []) ++ (if 2 ≤ arg 2 then [35] else [])
      fails := [(eState, !(s.cplRing (arg 1)).en)] }
  .next (s.hostCmd r d b c fun _ s =>
    (s.modHost fun h => { h with
      src := (List.range (arg 0)).foldl (fun t i =>
        t.upd {} (first + i) fun e => { e with ring := arg 1, en := arg 2 == 1 }) h.src }).finish r.val d)

/-! ## Flush (R141) -/

/-- CELL_FLUSH (R141, R485); `b.bad` gives the places, in the order of the discard, of the packets whose
sideband cannot be read (R140). -/
def execCellFlush (r : Fin 64) (d : Desc) (b : FlushBuf) (s : State) : Host.Outcome State Fault Refusal :=
  let n := d.target.toNat
  let scope := d.arg [1] 0
  let easel := scope != 1
  let express := scope != 0
  let c : CmdSpec :=
    { op := 0x0601, sizes := [1], target := decide (n < 128), range := if 2 < scope then [32] else []
      fails := [(eState, express && s.pairClass0 n), (eBusy, s.testing n)] }
  .next (s.hostCmd r d b.buf c fun _ s =>
    let q := (s.cell n).que
    let k := (if easel then q.eb0.length + q.eb1.length else 0) + if express then q.express.length else 0
    (s.flush n easel express b.bad).finish r.val d stOk k)

/-! ## The Watch (R418, R429, R430, R432) -/

/-- A reaction by number (R430). -/
def reactionOfNat (n : Nat) : Reaction :=
  match n with
  | 0 => .record
  | 1 => .notify
  | 2 => .safe
  | 3 => .isolate
  | _ => .halt

/-- The floor of a class (R416). -/
def reactionFloor (k : Nat) : Nat :=
  if [0, 6, 13].contains k then 2 else if k = 7 then 4 else if [1, 3, 5, 9, 14].contains k then 0 else 1

/-- WATCH_CONFIG (R430). -/
def execWatchConfig (r : Fin 64) (d : Desc) (b : HostBuf) (s : State) : Host.Outcome State Fault Refusal :=
  let k := d.target.toNat
  let p := params [rowEnum 5, rowTime 1000000 600000000000 1000000, rowNat 0 255] d b
  let low := match p.get 1 with
    | some x => if x < reactionFloor k then [p.index 1] else []
    | none => []
  let lowers := match p.get 1 with
    | some x => decide (x < (s.reactionOf k).code) && s.watch.lines.getLsbD k
    | none => false
  let c : CmdSpec :=
    { op := 0x0701, target := decide (k < 16), input := true, presence := true
      range := recLen d ++ p.bad ++ low, fails := [(eState, lowers)] }
  .next (s.hostCmd r d b c fun _ s =>
    let react := match p.get 1 with
      | some x => s.watch.react.set none k
          (if reactionOfNat x = defaultReaction k then none else some (reactionOfNat x))
      | none => s.watch.react
    (s.modWatch fun w => { w with
      react := react, quietNext := p.val 2 w.quietNext, budgetNext := p.val 3 w.budgetNext }).finish r.val d)

/-- A forced raise sets out for the Watch (R418). -/
def State.forceRaise (s : State) (src : Nat) : State :=
  let x : Raise :=
    { src := src, fcode := 0xFE, data := 0, forced := true, t64 := s.time.t64
      recov := s.watch.cnt.get 0 (WatchCtr.ctorIdx .recoveries) }
  s.modWatch fun w => ({ w with raises := w.raises ++ [x] }).quietRun s.time.now

/-- A force bit clears (R418): its condition ends. -/
def State.unforce (s : State) (src : Nat) : State :=
  if !s.watch.forceBits.contains src then s
  else
    let s := s.modWatch fun w => ({ w with forceBits := w.forceBits.erase src }).quietRun s.time.now
    let k := classOf src
    if s.reactionOf k == .record || s.watch.holds src then s else s.postEvent (320 + k) 0x82 src

/-- FAULT_FORCE (R418). -/
def execFaultForce (r : Fin 64) (d : Desc) (b : HostBuf) (s : State) : Host.Outcome State Fault Refusal :=
  let src := d.target.toNat
  let on := d.arg [1] 0
  let c : CmdSpec :=
    { op := 0x0702, sizes := [1], target := decide (src < 256), presence := true
      range := if 1 < on then [32] else [] }
  .next (s.hostCmd r d b c fun _ s =>
    let s :=
      if on = 0 then s.unforce src
      else if !isLevel src 0xFE then s.forceRaise src
      else if s.watch.forceBits.contains src then s
      else (s.modWatch fun w => { w with forceBits := w.forceBits ++ [src] }).forceRaise src
    s.finish r.val d)

/-- FAULT_CLEAR (R429). -/
def execFaultClear (r : Fin 64) (d : Desc) (b : HostBuf) (s : State) : Host.Outcome State Fault Refusal :=
  let w := s.watch
  let c : CmdSpec :=
    { op := 0x0703, lantern := true, target := d.target == 0, presence := true
      fails := [(eState, w.fstate != .faulted || !w.levels.isEmpty || !w.forceBits.isEmpty)] }
  .next (s.hostCmd r d b c fun _ s =>
    let s := (s.modWatch fun w => { w.toIdle with recTimes := [] }).watchBump .clears
    (s.postEvent 336 0x92 (s.watch.cnt.get 0 (WatchCtr.ctorIdx .clears))).finish r.val d)

/-- FAULT_LOG_READ (R432, R433, R421). -/
def execFaultLogRead (r : Fin 64) (d : Desc) (b : HostBuf) (s : State) :
    Host.Outcome State Fault Refusal :=
  let arg := d.arg [2, 2]
  let c : CmdSpec :=
    { op := 0x0704, lantern := true, sizes := [2, 2], target := d.target == 0, halted := true
      need := 32 * arg 1
      range := (if 1023 < arg 0 then [32] else []) ++
        if decide (arg 1 = 0) || decide (1024 < arg 1) then [34] else []
      fails := [(ePoison, s.watch.logLost)] }
  .next (s.hostCmd r d b c fun _ s =>
    let l := (s.watch.log.drop (arg 0)).take (arg 1)
    s.finish r.val d stOk l.length (l.flatMap LogEntry.bytes))

/-! ## Debug (R442) -/

/-- DEBUG_ENABLE (R442, R485). -/
def execDebugEnable (r : Fin 64) (d : Desc) (b : HostBuf) (s : State) : Host.Outcome State Fault Refusal :=
  let t := d.target.toNat
  let pair := t / 2 ^ 24 == 1
  let k := t % 64
  let on := d.arg [1] 0
  let c : CmdSpec :=
    { op := 0x0707, sizes := [1], presence := true, range := if 1 < on then [32] else []
      target := decide (t / 2 ^ 24 ≤ 1) && decide (t % 2 ^ 24 < 64) && (pair || k == 0)
      fails := [(eState, on == 0 && (!pair || s.pairClass0 (2 * k))),
        (eBusy, pair && (s.testing (2 * k) || s.testing (2 * k + 1)))] }
  .next (s.hostCmd r d b c fun _ s =>
    (if !pair then s.breakSteward else if on = 1 then s.breakPair k else s.restorePair k).finish r.val d)

/-! ## STATISTICS (R399) -/

/-- `n` entries of a table of counters from an index on. -/
def ctrs (t : Tab Nat) (base n : Nat) : List Nat := (List.range n).map fun i => t.get 0 (base + i)

/-- EASEL_STATUS (R152). -/
def Cell.easelStatus (c : Cell) : Nat :=
  b2n c.que.filling + 2 * b2n c.que.easelFull + 4 * b2n c.que.expressFull + 8 * b2n c.preempted +
  16 * b2n c.que.overrun

/-- Values of a cell. -/
def Cell.stats (c : Cell) : List Nat :=
  ctrs c.pal.cnt 0 18 ++ [c.pal.occ, c.pal.rsvOcc, c.pal.poolOcc] ++
  ctrs c.que.cnt 0 16 ++ [c.que.easelOcc, c.que.expressOcc, c.easelStatus] ++
  ctrs c.cnt 0 13 ++ [c.bellHold] ++ (c.lastP ++ c.lastM).map (·.toNat)

/-- FLOOR_FREE (R76, R103): FREE numbers of the reserved floor. -/
def State.floorFree (s : State) : Nat :=
  0x2000 - (s.reeve.ctx.filter fun e => decide (0x10000 ≤ e.1) && decide (e.1 < 0x12000) && e.2.st != .free).length

/-- Values of the Reeve (R103, R130). -/
def State.reeveStats (s : State) : List Nat :=
  ctrs s.reeve.cnt 0 16 ++ [(s.reeve.ctx.filter fun e => e.2.st == .live).length, s.floorFree] ++
  ((List.range 4).map fun c => (s.reeve.queue.get [] c).length) ++
  ((List.range 128).map fun n => (s.reeve.danger.get {} n).y) ++
  ctrs s.cellar.cnt 0 16 ++ [s.cellar.used] ++ ctrs s.cellar.cnt 17 1 ++ [s.cellar.waitDeclared]

/-- The statistics that units also gather in traffic of their own (R256, R259): CTL messages, and the REQ and
RSP units of the Cellar, the trace and the result writer (log 284). -/
def ownRows (code : Nat) : List FabCtr :=
  if code < 0x80 then [.txCtl]
  else if code < 0x90 then [.txCtl, .txRsp, .injHoldNs, .injHoldMax]
  else if code < 0x92 then [.txCtl, .txReq, .reqIssued, .reqLatSum, .reqLatMax, .injHoldNs, .injHoldMax]
  else [.txCtl]

/-- The statistics of an initiator (R275), in their order. -/
def State.fabStats (s : State) (code : Nat) : List Nat :=
  [FabCtr.txToken, .txReq, .txRsp, .txCtl, .injHoldNs, .injHoldMax, .gAllowHold, .reqIssued, .reqLatSum,
   .reqLatMax, .reqTimeout, .rspLate].map fun k =>
    let v := s.fabric.stat.get 0 (16 * code + k.ctorIdx)
    if (ownRows code).contains k then
      let n := Config.ownTraffic code k.ctorIdx s.time.now
      if k.isMax then min (max v n) (2 ^ 32 - 1) else (v + n) % (if k.wide then 2 ^ 48 else 2 ^ 32)
    else v

/-- Values of a unit and instance (R399), or none where there is no such one. -/
def State.unitStats (s : State) (u i : Nat) : Option (List Nat) :=
  match u with
  | 0x01 => if i < 128 then some (s.cell i).stats else none
  | 0x02 => if i = 0 then some s.reeveStats else none
  | 0x03 => if i < 0xA0 then some (s.fabStats i) else none
  | 0x04 => if i = 0xFFFF then some (ctrs s.fabric.dev 0 5)
      else if i < 16 then some [s.fabric.appendBad.get 0 i] else none
  | 0x05 => if i < 64 then some (ctrs s.ingest.portCnt (32 * i) 22) else none
  | 0x06 => if i < 16384 then some (ctrs s.ingest.bindCnt (8 * i) 8) else none
  | 0x07 => if i < 64 then some (ctrs s.ingest.evCnt (4 * i) 4) else none
  | 0x08 => if i = 0xFFFF then some (ctrs s.chain.cnt 0 17)
      else if i < 16 then some (ctrs s.chain.portCnt (8 * i) 7) else none
  | 0x09 => if i < 16 then some (ctrs s.act.portCnt (32 * i) 17) else none
  | 0x0A => if i = 0 then
        some (ctrs s.act.cnt 0 15 ++ ctrs s.act.transitions 0 32 ++ [s.act.tripState.toNat])
      else none
  | 0x0B => if i = 0 then some (ctrs s.writer.cnt 0 19) else none
  | 0x0C => if i = 0 then some (ctrs s.host.cnt 0 17) else none
  | 0x0D => if i = 0 then some ((List.range 64).map fun k => (s.fabric.slotEntry k).toNat) else none
  | 0x0E => if i = 0 then some (ctrs s.watch.srcCount 0 256 ++ ctrs s.watch.cnt 0 11 ++ [s.watch.status])
      else none
  | _ => none

/-- The W1C fields of a unit's status word (R152, R446). -/
def w1cFields (u : Nat) : Nat :=
  match u with
  | 0x01 => 0x10
  | 0x0E => 0x60
  | _ => 0

/-- What a read does (R275, R399): the maxima of an initiator clear, and the masked W1C fields. -/
def State.statsRead (s : State) (u i mask : Nat) : State :=
  match u with
  | 0x01 => if bit mask 4 then s.modCell i fun c => { c with que := { c.que with overrun := false } } else s
  | 0x03 => s.modFabric fun f => { f with
      stat := (f.stat.set 0 (16 * i + FabCtr.ctorIdx .injHoldMax) 0).set 0
        (16 * i + FabCtr.ctorIdx .reqLatMax) 0 }
  | 0x0E => s.modWatch fun w => { w with
      recovered := w.recovered && !bit mask 5, merged := w.merged && !bit mask 6 }
  | _ => s

/-- STATISTICS (R399, R421, R485). -/
def execStatistics (r : Fin 64) (d : Desc) (b : HostBuf) (s : State) : Host.Outcome State Fault Refusal :=
  let t := d.target.toNat
  let u := t / 2 ^ 24
  let i := t % 2 ^ 16
  let mask := d.arg [8] 0
  let v := s.unitStats u i
  let c : CmdSpec :=
    { op := 0x0007, lantern := true, sizes := [8], halted := true
      target := v.isSome && t / 2 ^ 16 % 256 == 0, need := 8 * (v.getD []).length
      range := if mask &&& w1cFields u = mask then [] else [32]
      fails := [(eBusy, u == 1 && s.testing i)] }
  .next (s.hostCmd r d b c fun _ s =>
    let l := (s.unitStats u i).getD []
    (s.statsRead u i mask).finish r.val d stOk (8 * l.length) (l.flatMap fun x => leBytes 8 x))

end Sys2Proof.Machine
end

