-- ==== Sys2Proof/Machine/Graph.lean ====
section
/-! DEFINITION. The graph commands: loading, starting and stopping graphs, regions, injection, and
the Reeve's, the Cellar's and the fabric's parameters (04_reeve.md, 05_cellar_progress.md,
10_fabric.md R263, R266, 15_host.md R398-R403). -/

namespace Sys2Proof.Machine

def State.modReeve (f : Reeve → Reeve) (s : State) : State := { s with reeve := f s.reeve }

/-! ## Injection (R29, R142, R401) -/

/-- An injected packet is lost (R142). -/
def State.overrun (s : State) (n : Nat) (p : Packet) : State :=
  let s := s.modCell n fun c => { c with que := { c.que with overrun := true } }
  let s := (s.queBump n (if p.isExpress then .expressOverrun else .easelOverrun)).cellReturn n p.ctx p.gen p.cls 1
  let s := match s.openEpoch p.epar with
    | some k => s.gapNotice k 0x03 p.ctx p.gen n 1
    | none => s
  if p.cls ≤ 1 then s.detect (128 + n / 2) 0x22 (n + p.ctx * 2 ^ 16) else s

/-- An injected packet is written into its queue without reading FULL (R142): it commits, or meets FULL
and vanishes, or the write check rewinds it and the posted injection path keeps it (R136).  Whether it
overran, or none where it is kept. -/
def State.postPacket (s : State) (n : Nat) (x : Posted) (err : QueErr) : Option Bool × State :=
  let p := x.pkt
  if (s.cell n).que.full p.isExpress then (some true, s.overrun n p)
  else match s.writePacket n p x.checks err with
    | (.committed, s) => (some false, if p.bell then s else s.tallyAdd n p.ctx p.epar)
    | (.full, s) => (some true, s.overrun n p)
    | (.rewound, s) => (none, s.modCell n fun c =>
        { c with que := { c.que with posted := c.que.posted ++ [{ x with checks := x.checks + 1 }] } })

/-- The HOST_INJECT of a posted packet ends once no cell keeps a copy of it (R142, R401). -/
def State.endPosted (s : State) (ring t0 : Nat) (overran : Bool) : State :=
  let mine := fun (r : Running) => r.ring == ring && r.t0 == t0 && match r.wait with
    | .posted _ => true
    | _ => false
  let kept := s.cells.any fun e => e.2.que.posted.any fun x => x.ring == ring && x.t0 == t0
  match s.host.running.find? mine with
  | none => s
  | some r =>
    let overran := overran || r.wait == .posted true
    if kept then { s with host := { s.host with
      running := s.host.running.map fun y => if mine y then { y with wait := .posted overran } else y } }
    else s.completeWhere mine stOk (b2n overran)

/-- A MONO packet goes to the posted injection path of one cell (R142): the checks of R52, then the
queue. -/
def State.injectMonoAt (s : State) (n : Nat) (t : Token) (ring t0 : Nat) (err : QueErr) :
    Option Bool × State :=
  match (s.cell n).arrivalCheck t.tag with
  | some (k, cause) => (some false, s.failCheck n t k cause)
  | none =>
    let p := monoPacketOf t (descNpri ((s.cell n).nodes.get 0 t.tag.node))
    s.postPacket n { pkt := p, checks := 0, ring := ring, t0 := t0 } err

/-- A MONO token is injected: into both cells of the pair for class 0 (R28, R142). -/
def State.injectMono (s : State) (t : Token) (ring t0 : Nat) (err : QueErr) : Bool × State :=
  let n := t.tag.dest.toNat
  let n := if t.tag.cls = 0 then 2 * (n / 2) else n
  let ts := s.targets n t
  if s.cutOff n || ts.isEmpty then
    (false, (s.returnCredit n t.tag.ctx.toNat t.tag.gen.toNat 1).fabBump
      (if s.fabric.iso.contains n then .isoAbsorb else .fenceAbsorb))
  else ts.foldl (fun r k =>
    let q := r.2.injectMonoAt k t ring t0 err
    (r.1 || q.1 == some true, q.2)) (false, s)

/-- A host injection whose token has credit is carried out (R401).  It completes at once, unless a
posted injection path keeps its packet. -/
def State.injectNow (s : State) (x : Running) (t : Token) (err : QueErr) : State :=
  let s := s.spendHub 0x91 t.tag.ctx.toNat t.tag.gen.toNat
  let r := if t.tag.mono then s.injectMono t x.ring x.t0 err else (false, s.offerToken 0x91 t)
  let s := { r.2 with host := { r.2.host with
    running := r.2.host.running.map fun y => if y == x then { y with wait := .posted false } else y } }
  s.endPosted x.ring x.t0 r.1

/-- HELD_FIRING_OFFER (R58): the posted injection path offers its oldest packet again (R136), and the
Palette the firings that it holds. -/
def execHeldFiringOffer (c : Fin 128) (err : MemErr) (s : State) : Host.Outcome State Fault Refusal :=
  let n := c.val
  match (s.cell n).que.posted with
  | [] => .next (s.offerReady n err)
  | x :: rest =>
    let s := s.modCell n fun c => { c with que := { c.que with posted := rest } }
    let r := s.postPacket n x err.queue
    let s := match r.1 with
      | some overran => r.2.endPosted x.ring x.t0 overran
      | none => r.2
    .next (s.offerReady n { err with queue := .none })

/-- Injections that wait are carried out while there is credit (R81). -/
def State.injectWaiting (s : State) (err : QueErr) : State :=
  s.host.running.foldl (fun s x => match x.wait with
    | .inject t =>
      if s.creditOf 0x91 t.tag.ctx.toNat t.tag.gen.toNat = 0 then s else s.injectNow x t err
    | _ => s) s

/-- Imported tokens that wait at a chain hub enter the fabric while there is credit (R81, R352). -/
def State.importWaiting (s : State) (code : Nat) : State :=
  s.chain.importWait.foldl (fun s e =>
    let g := e.2.tag
    if e.1 != code || s.creditOf code g.ctx.toNat g.gen.toNat = 0 then s
    else
      let s := { s with chain := { s.chain with importWait := dropFirst (· == e) s.chain.importWait } }
      (s.spendHub code g.ctx.toNat g.gen.toNat).offerToken code e.2) s

/-- CREDIT_GRANT: a grant reaches its producer; for class 0 both cells of the pair (R28, R80). -/
def execCreditGrant (prod : BitVec 8) (ctx : CtlCtx) (gen : BitVec 4) (s : State) :
    Host.Outcome State Fault Refusal :=
  let p := prod.toNat
  let pick := fun (m : Ctl) => match m with
    | .creditGrant q _ c g _ _ _ _ => q == p && c == ctx.ctx.toNat && g == gen.toNat
    | _ => false
  match s.ctlNext pick with
  | some (.creditGrant q cg c g k asked pair gone) =>
    let s := (s.ctlErr ctx.ce).takeCtl (.creditGrant q cg c g k asked pair gone)
    if p < 128 then
      if s.fabric.iso.contains p then .next s
      else
        let s := s.takeGrant p cg c g k asked pair gone
        let s := if pair
          then s.takeGrant (p + 1) (s.cell (p + 1)).cellGen.toNat c g k asked pair gone else s
        .next s.stallCheck
    else
      let s := { s with reeve := { s.reeve with hubAsked := s.reeve.hubAsked.erase (p, c, asked) } }
      let s := s.setCredit p c g (s.creditOf p c g + k)
      let s := if p = 0x91 then s.injectWaiting .none else if p < 0x98 then s.importWaiting p else s
      .next (s.hubLeave p c g)
  | _ => .next s

/-- The node that a tag names has a number of operands that MONO contradicts (R29, R39). -/
def State.monoWrong (s : State) (t : Tag) : Bool :=
  if 0x80 ≤ t.dest.toNat then t.mono
  else
    let d := (s.cell t.dest.toNat).nodes.get 0 t.node
    descValid d && t.mono != (descNops d == 1)

/-- HOST_INJECT (R29, R401); `b.err` is what the queue's write check finds in a MONO token's packet (R136,
R142).  The debug injection of a firing that R142 names has no command and no register in the spec
(log 265). -/
def execHostInject (r : Fin 64) (d : Desc) (b : InjectBuf) (s : State) : Host.Outcome State Fault Refusal :=
  let tag := Tag.unpack (BitVec.ofNat 64 (d.arg [8, 16] 0))
  let x := s.ctxOf tag.ctx.toNat
  let live := x.st == .live
  let n := 4 * lenWords tag.len.toNat
  let wrong := tag.reserved || tag.poison || tag.bell || tag.spilled ||
    (live && tag.cls.toNat != x.cls) || s.monoWrong tag || (d.hlen == 0 && decide (2 < tag.len.toNat))
  let c : CmdSpec :=
    { op := 0x0008, sizes := [8, 16], target := d.target == 0, input := true, presence := tag.cls == 0
      range := (if wrong then [32] else []) ++ (if d.hlen != 0 && d.hlen.toNat != n then [24] else [])
      fails := [(eState, !live), (eStale, tag.gen.toNat != x.gen)] }
  .next (s.hostCmd r d b.buf c fun l s =>
    let bytes := if d.hlen = 0 then leBytes n (d.arg [8, 16] 1) else l
    let t : Token := { tag := tag, payload := bytesToWords bytes }
    let s := s.await r.val d (.inject t)
    if s.creditOf 0x91 tag.ctx.toNat tag.gen.toNat = 0 then s.askCredit 0x91 tag.ctx.toNat (some tag.gen.toNat)
    else s.injectWaiting b.err)

/-! ## The body of an image (R84, R154, R438) -/

/-- Two ranges of slots or indices share one. -/
def meets (lo hi lo2 hi2 : BitVec 14) : Bool := decide (lo ≤ hi2) && decide (lo2 ≤ hi)

/-- Two groups may not stand beside each other (R84). -/
def groupClash (a b : GroupDef) : Bool :=
  a.num != b.num && (a.mask &&& b.mask) != 0 &&
  (meets a.nodeLo a.nodeHi b.nodeLo b.nodeHi || meets a.bsLo a.bsHi b.bsLo b.bsHi)

/-- Both cells of each pair or neither (R84). -/
def groupPaired (g : GroupDef) : Bool :=
  (List.range 64).all fun k => g.mask.getLsbD (2 * k) == g.mask.getLsbD (2 * k + 1)

/-- A partition's nodes, words and handler stand inside a group's ranges (R84, R154). -/
def partInside (p : PartDef) (handler : BitVec 14) (g : GroupDef) : Bool :=
  let slot := fun (k : BitVec 14) => decide (g.nodeLo ≤ k) && decide (k ≤ g.nodeHi)
  let idx := fun (k : BitVec 14) => decide (g.bsLo ≤ k) && decide (k ≤ g.bsHi)
  (p.nodes.all fun e => slot e.1 && (!descValid e.2 || idx (BitVec.ofNat 14 (descEntry e.2)))) &&
  (p.code.all fun e => idx e.1) && (handler == 0x3FFF || idx handler)

/-- A group as a body names it. -/
def groupIn (g : GraphBody) (n : Fin 64) : Option GroupDef := g.groups.find? fun x => x.num == n

/-- A body that draws E_RANGE (R84, R154, R438, R317, R77). -/
def State.bodyWrong (s : State) (g : GraphBody) : Bool :=
  let nums := g.groups.map (·.num)
  nums.eraseDups != nums || g.parts.isEmpty || decide (16 < g.parts.length) ||
  (g.groups.any fun x => decide (x.nodeHi < x.nodeLo) || decide (x.bsHi < x.bsLo) ||
    match s.groupDef x.num.val with
    | some y => x != y
    | none => false) ||
  (g.parts.any fun p => match groupIn g p.group with
    | some x => !partInside p g.handler x || (g.cls == 0 && !groupPaired x)
    | none => true) ||
  (g.audit && g.cls != 2) || decide (2 ^ 18 < g.scratchBase + g.scratchLen) ||
  g.scratchBase % 256 != 0 || g.scratchLen % 256 != 0 || decide (32736 < g.resultSlots) ||
  decide (g.parts.length ≤ g.srcPart)

/-- The partitions whose code loaded graphs hold on cells. -/
def State.loadedParts (s : State) : List PartDef :=
  (s.reeve.graphs.filterMap (·.2)).flatMap (·.parts) ++ s.reeve.moved.flatMap (·.2)

/-- Two partitions of a group would stand at one slot or index (R84). -/
def partOverlaps (p q : PartDef) : Bool :=
  p.group == q.group &&
  ((p.nodes.any fun a => q.nodes.any fun b => a.1 == b.1) ||
   p.code.any fun a => q.code.any fun b => a.1 == b.1)

/-- Every pair of a list, in order. -/
def anyPair {α : Type} (f : α → α → Bool) : List α → Bool
  | [] => false
  | a :: l => l.any (f a) || anyPair f l

/-- The cells of a list of partitions. -/
def State.cellsOf (s : State) (l : List PartDef) (extra : List GroupDef) : BitVec 128 :=
  l.foldl (fun m p => m ||| match extra.find? fun x => x.num == p.group with
    | some x => x.mask
    | none => match s.groupDef p.group.val with
      | some x => x.mask
      | none => 0) 0

/-- A scratch window meets that of a loaded graph on a shared cell (R154). -/
def State.scratchClash (s : State) (skip : Nat) (g : GraphBody) (mask : BitVec 128) : Bool :=
  s.reeve.graphs.any fun e => match e.2 with
    | some h =>
      e.1 != skip && decide (0 < g.scratchLen) && decide (0 < h.scratchLen) &&
      decide (g.scratchBase < h.scratchBase + h.scratchLen) &&
      decide (h.scratchBase < g.scratchBase + g.scratchLen) &&
      (mask &&& s.cellsOf (h.parts ++ s.reeve.moved.get [] e.1) []) != 0
    | none => false

/-- A body that draws E_NO_RESOURCE (R84, R154): two partitions of the one image that meet in a group
draw it as those of two graphs do (log 259). -/
def State.bodyNoRoom (s : State) (g : GraphBody) : Bool :=
  let defined := s.reeve.groups.filterMap fun e => e.2.gdef
  let fresh := g.groups.filter fun x => !defined.contains x
  anyPair groupClash fresh || (fresh.any fun x => defined.any (groupClash x)) ||
  anyPair partOverlaps g.parts || (g.parts.any fun p => s.loadedParts.any (partOverlaps p)) ||
  s.scratchClash 1024 g (s.cellsOf g.parts g.groups)

/-- The code of a partition is written on every cell of its group (R85); what an isolated cell holds
is written when it is reloaded (R86). -/
def State.writePart (s : State) (p : PartDef) : State :=
  match s.groupDef p.group.val with
  | none => s
  | some g =>
    let cells := (List.range 128).filter fun n => g.mask.getLsbD n && !s.fabric.iso.contains n
    (cells.foldl (fun s n => (s.modCell n fun c => c.takeCode p).keepCrc n g) s).recordCrc g

/-- LOAD_GRAPH (R84, R154, R402, R456); `g` is what the authenticated body says.  E_PRESENCE is drawn
at acceptance from the class of that body, even for an image that would fail its authentication
(log 258). -/
def execLoadGraph (r : Fin 64) (d : Desc) (b : HostBuf) (g : GraphBody) (s : State) :
    Host.Outcome State Fault Refusal :=
  let h := d.target.toNat
  let c : CmdSpec :=
    { op := 0x0101, target := decide (h < 1024), need := 256, input := true, presence := g.cls == 0
      late := true, range := imageLen d b ++ imageType d b 1, fails := [(eState, (s.graph h).isSome)] }
  .next (s.hostCmd r d b c fun l s =>
    if !s.fuses.authentic l then s.finish r.val d eSig
    else if s.bodyWrong g then s.complete r.val d true eRange 16 0 []
    else if s.bodyNoRoom g then s.finish r.val d eNoRes
    else
      let s := s.leaveRest.modReeve fun x => { x with
        graphs := x.graphs.set none h (some g)
        groups := g.groups.foldl (fun t y => t.upd {} y.num.val fun z => { z with gdef := some y }) x.groups }
      let s := s.modCellar fun x => { x with quarantined := x.quarantined.erase h }
      (g.parts.foldl State.writePart s).finish r.val d)

/-! ## Unloading (R402) -/

/-- A firing of a context of the graph is queued or running on some cell. -/
def State.graphRuns (s : State) (h : Nat) : Bool :=
  let mine := fun (p : Packet) => (s.ctxOf p.ctx).graphs.get 1024 p.gen == h
  s.cells.any fun e =>
    (e.2.que.eb0 ++ e.2.que.eb1 ++ e.2.que.express).any (fun q => mine q.pkt) ||
    (e.2.p.hdr.toList ++ e.2.m.hdr.toList).any mine

/-- A context of the graph is LIVE or RELEASING. -/
def State.graphLive (s : State) (h : Nat) : Bool :=
  s.reeve.ctx.any fun e => e.2.graph == h && (e.2.st == .live || e.2.st == .releasing)

/-- A region that the graph owns is VALID. -/
def State.graphRegions (s : State) (h : Nat) : Bool :=
  s.fabric.resp.any fun e => e.2.regions.any fun g => g.2.valid && g.2.owner == some h

/-- BOUND of the context that a binding names, for the life that it names (R77). -/
def State.named (s : State) (b : Binding) : State :=
  if (s.ctxOf b.ctx).gen == b.gen then s.modCtx b.ctx fun x => { x with bound := x.bound + 1 } else s

/-- BOUND without a binding that becomes UNBOUND. -/
def State.unnamed (s : State) (b : Binding) : State :=
  if b.st != .unbound && (s.ctxOf b.ctx).gen == b.gen then
    s.modCtx b.ctx fun x => { x with bound := x.bound - 1 }
  else s

/-- The bindings and import channels of a graph become UNBOUND. -/
def State.unbindGraph (s : State) (h : Nat) : State :=
  let mine := fun (st : BindSt) (ctx gen : Nat) =>
    st != .unbound && (s.ctxOf ctx).graphs.get 1024 gen == h
  let s := (s.ingest.binds.filter fun e => mine e.2.st e.2.ctx e.2.gen).foldl (fun s e => s.unnamed e.2) s
  { s with
    ingest := { s.ingest with binds := s.ingest.binds.keep fun _ b => !mine b.st b.ctx b.gen }
    chain := { s.chain with imports := s.chain.imports.keep fun _ b => !mine b.st b.ctx b.gen } }

/-- The node slots of a partition hold no node any more. -/
def Cell.dropCode (c : Cell) (p : PartDef) : Cell :=
  { c with
    nodes := p.nodes.foldl (fun t e => t.del e.1.toNat) c.nodes
    code := p.code.foldl (fun t e => t.del e.1.toNat) c.code }

/-- UNLOAD_GRAPH (R402).  A group that is freed keeps its rotation pointer (log 269), and an activation of the
graph its place in the queue (log 270). -/
def execUnloadGraph (r : Fin 64) (d : Desc) (b : HostBuf) (s : State) : Host.Outcome State Fault Refusal :=
  let h := d.target.toNat
  let g := s.graph h
  let cls0 := match g with
    | some x => x.cls == 0
    | none => false
  let c : CmdSpec :=
    { op := 0x0102, target := decide (h < 1024), presence := cls0
      fails := [(eState, g.isNone || s.graphLive h || s.graphRuns h || s.graphRegions h)] }
  .next (s.hostCmd r d b c fun _ s => match s.graph h with
    | none => s.finish r.val d
    | some g =>
      let s := s.unbindGraph h
      let parts := g.parts ++ s.reeve.moved.get [] h
      let s := parts.foldl (fun s p => match s.groupDef p.group.val with
        | some x => ((List.range 128).filter fun n => x.mask.getLsbD n).foldl
            (fun s n => (s.modCell n fun c => c.dropCode p).keepCrc n x) s
        | none => s) s
      let s := s.modReeve fun x => { x with graphs := x.graphs.set none h none, moved := x.moved.del h }
      let named := (s.reeve.graphs.filterMap (·.2)).flatMap fun x => x.groups.map (·.num.val)
      let gone := g.groups.filter fun y => !named.contains y.num.val
      let s := s.modReeve fun x => { x with
        groups := gone.foldl (fun t y => t.upd {} y.num.val fun z => { z with gdef := none }) x.groups }
      let left := (parts.map (·.group.val)).eraseDups.filterMap s.groupDef
      let s := left.foldl State.recordCrc s
      let s := s.modCellar fun x => { x with quarantined := x.quarantined.erase h }
      let s := { s with writer := { s.writer with banks := s.writer.banks.del h } }
      s.finish r.val d)

/-- GRAPH_ENABLE (R127). -/
def execGraphEnable (r : Fin 64) (d : Desc) (b : HostBuf) (s : State) : Host.Outcome State Fault Refusal :=
  let h := d.target.toNat
  let c : CmdSpec :=
    { op := 0x0105, target := decide (h < 1024), fails := [(eState, (s.graph h).isNone)] }
  .next (s.hostCmd r d b c fun _ s =>
    (s.modCellar fun x => { x with quarantined := x.quarantined.erase h }).finish r.val d)

/-! ## Starting and stopping (R82, R83, R93, R95) -/

/-- Some cell is eligible for a partition under the rules left in force (R86, R95). -/
def State.anyEligible (s : State) (ru : Rules) (needs : Tab Needs) (cls : Nat) (p : PartDef) : Bool :=
  (List.range 128).any fun n => s.eligible ru needs cls p n

/-- The checks of R95 for a start: E_STATE, E_BUSY_SELFTEST and E_GUARANTEE. -/
def State.startFails (s : State) (g : GraphBody) : List (Nat × Bool) :=
  let cls := g.cls.toNat
  let any := fun (ru : Rules) (p : PartDef) => s.anyEligible ru s.reeve.needs cls p
  let off := fun (p : PartDef) => !any { budget := false, test := false } p
  let test := fun (p : PartDef) => !any { budget := false } p && any { budget := false, test := false } p
  let full := fun (p : PartDef) => !any {} p && any { budget := false } p
  if 2 ≤ cls then []
  else [(eState, g.parts.any off), (eBusy, g.parts.any test), (eGuar, g.parts.any full)]

/-- START_GRAPH (R82, R93, R95, R127). -/
def execStartGraph (r : Fin 64) (d : Desc) (b : HostBuf) (s : State) : Host.Outcome State Fault Refusal :=
  let h := d.target.toNat
  let g := s.graph h
  let (cls0, fails) := match g with
    | some x => (x.cls == 0, s.startFails x)
    | none => (false, [])
  let c : CmdSpec :=
    { op := 0x0103, target := decide (h < 1024), presence := cls0
      fails := (eState, g.isNone || s.cellar.quarantined.contains h) :: fails }
  .next (s.hostCmd r d b c fun _ s =>
    let cls := match g with
      | some x => x.cls.toNat
      | none => 0
    let a : Activation := { graph := h, asker := none, ring := r.val, t0 := s.time.now, counted := false }
    let s := s.await r.val d (.start h none)
    if (s.reeve.queue.get [] cls).length < 256 then
      (s.modReeve fun x => { x with queue := x.queue.upd [] cls fun q => q ++ [a] }).stallCheck
    else s.modReeve fun x => { x with waiters := x.waiters ++ [a] })

/-- STOP_GRAPH (R83, R402). -/
def execStopGraph (r : Fin 64) (d : Desc) (b : HostBuf) (s : State) : Host.Outcome State Fault Refusal :=
  let n := d.target.toNat
  let x := s.ctxOf n
  let c : CmdSpec :=
    { op := 0x0104, target := decide (n < 2 ^ 17), presence := x.st == .live && x.cls == 0
      fails := [(eState, x.st != .live || x.shadow)] }
  .next (s.hostCmd r d b c fun _ s => (s.await r.val d (.stop n)).release n 0x08)

/-! ## SET_GROUP (R84, R90, R95) -/

/-- A LIVE class 0 or 1 context of the graph would find no room under R94 for the partition in its new group,
whatever else may keep a cell from being chosen (R95). -/
def State.noRoomMoved (s : State) (h : Nat) (g : GraphBody) (k : Nat) (p q : PartDef) : Bool :=
  let cls := g.cls.toNat
  decide (cls ≤ 1) && s.reeve.ctx.any fun e =>
    e.2.st == .live && e.2.graph == h &&
    (match e.2.place[k]? with
    | some n =>
      !s.anyEligible { open_ := false, test := false } (subNeeds s.reeve.needs cls n p) cls q
    | none => false)

/-- SET_GROUP: later placements of the partition use the group; contexts that live stay where they
are (R90). -/
def execSetGroup (r : Fin 64) (d : Desc) (b : HostBuf) (s : State) : Host.Outcome State Fault Refusal :=
  let t := d.target.toNat
  let h := t / 2 ^ 16
  let k := t % 16
  let n := d.arg [1] 0
  let g := s.graph h
  let part := g.bind fun x => x.parts[k]?
  let grp := s.groupDef n
  let num : Fin 64 := ⟨n % 64, Nat.mod_lt n (by decide)⟩
  let cls0 := match g with
    | some x => x.cls == 0
    | none => false
  let (wrong, guar, noRoom) := match g, part, grp with
    | some x, some p, some y =>
      let q := { p with group := num }
      let s2 := s.modReeve fun z => { z with graphs := z.graphs.del h }
      let others := x.parts.take k ++ x.parts.drop (k + 1)
      (!partInside p x.handler y || (cls0 && !groupPaired y), s.noRoomMoved h x k p q,
        (s2.loadedParts.any (partOverlaps q)) || (others.any (partOverlaps q)) || s.scratchClash h x y.mask)
    | _, _, _ => (false, false, false)
  let beyond := match g with
    | some x => decide (x.parts.length ≤ k)
    | none => false
  let c : CmdSpec :=
    { op := 0x0106, sizes := [1], target := decide (h < 1024) && t % 2 ^ 16 / 16 == 0 && !beyond
      presence := cls0, range := if decide (63 < n) || wrong then [32] else []
      fails := [(eState, g.isNone || grp.isNone), (eGuar, guar), (eNoRes, noRoom)] }
  .next (s.hostCmd r d b c fun _ s => match s.graph h, part, grp with
    | some x, some p, some y =>
      let q := { p with group := num }
      let x2 := { x with
        parts := x.parts.set k q
        groups := if x.groups.any fun z => z.num == y.num then x.groups else x.groups ++ [y] }
      let s := s.modReeve fun z => { z with
        graphs := z.graphs.set none h (some x2)
        moved := if p.group == num then z.moved else z.moved.upd [] h fun l => l ++ [p] }
      (s.writePart q).finish r.val d
    | _, _, _ => s.finish r.val d)

/-! ## Regions (R266, R403) -/

/-- The regions of a responder that hold space, but for the Cellar's, in rising order of base. -/
def Responder.taken (r : Responder) : List (Nat × Nat) :=
  let l := (r.regions.filter fun e => e.2.valid && e.1 != 0xFFE).map fun e => (e.2.base, e.2.length)
  l.foldl insert []
where
  insert (l : List (Nat × Nat)) (a : Nat × Nat) : List (Nat × Nat) :=
    (l.filter fun b => decide (b.1 < a.1)) ++ [a] ++ l.filter fun b => !decide (b.1 < a.1)

/-- The first gap of `n` bytes among taken ranges, from `o` to `top`. -/
def firstGap (n top : Nat) : Nat → List (Nat × Nat) → Option Nat
  | o, [] => if o + n ≤ top then some o else none
  | o, a :: l => if o + n ≤ a.1 then some o else firstGap n top (max o (a.1 + a.2)) l

/-- Free bytes of a responder. -/
def State.freeBytes (s : State) (j : Nat) : Nat :=
  respBytes - cellarShare s.cellar.gib - ((s.respAt j).taken.map (·.2)).sum

/-- The first free region index and base for a region on a responder. -/
def State.findRegion (s : State) (j n : Nat) : Option (Nat × Nat) :=
  let r := s.respAt j
  match firstGap n (respBytes - cellarShare s.cellar.gib) 0 r.taken,
      (List.range 4095).find? fun i => !(r.regions.get {} i).valid with
  | some b, some i => some (i, b)
  | _, _ => none

/-- The responder with most free space; the lowest of several (R398). -/
def State.roomiest (s : State) : Nat :=
  (List.range 16).foldl (fun a j => if s.freeBytes a < s.freeBytes j then j else a) 0

/-- REGION_CREATE (R266, R398). -/
def execRegionCreate (r : Fin 64) (d : Desc) (b : HostBuf) (s : State) : Host.Outcome State Fault Refusal :=
  let arg := d.arg [8, 1, 1]
  let h := d.target.toNat
  let n := arg 0
  let j := if arg 2 = 0xFF then s.roomiest else arg 2
  let spot := s.findRegion j n
  let c : CmdSpec :=
    { op := 0x0107, sizes := [8, 1, 1], target := decide (h < 1024)
      range := (if n = 0 || n % 64 != 0 then [32] else []) ++ (if 1 < arg 1 then [40] else []) ++
        (if decide (15 < arg 2) && arg 2 != 0xFF then [41] else [])
      fails := [(eState, (s.graph h).isNone), (eNoRes, spot.isNone)] }
  .next (s.hostCmd r d b c fun _ s => match spot with
    | some (i, base) =>
      let g : Region :=
        { valid := true, append := arg 1 == 1, owner := some h, base := base, length := n, ptr := 0 }
      (s.modResp j fun x => { x with regions := x.regions.set {} i g }).finish r.val d stOk (j * 4096 + i)
    | none => s.finish r.val d)

/-- A region by its handle. -/
def State.regionAt (s : State) (h : Nat) : Region := (s.respAt (h / 4096)).regions.get {} (h % 4096)

/-- A binding names a region as HIST (R288). -/
def State.histNamed (s : State) (h : Nat) : Bool :=
  s.ingest.binds.any fun e => e.2.st != .unbound && e.2.hist == h

/-- REGION_FREE (R403). -/
def execRegionFree (r : Fin 64) (d : Desc) (b : HostBuf) (s : State) : Host.Outcome State Fault Refusal :=
  let h := d.target.toNat
  let g := s.regionAt h
  let live := match g.owner with
    | some o => s.graphLive o
    | none => false
  let c : CmdSpec :=
    { op := 0x0108, target := decide (h < 2 ^ 16) && !(g.valid && g.owner.isNone)
      fails := [(eState, !g.valid || live || s.histNamed h)] }
  .next (s.hostCmd r d b c fun _ s =>
    (s.modResp (h / 4096) fun x =>
      let lines := linesOf g.base g.length
      { x with
        regions := x.regions.set {} (h % 4096) {}
        poison := x.poison.filter fun l => decide (l < g.base / 64) || decide (g.base / 64 + lines.length ≤ l)
      }).finish r.val d)

/-- REGION_COPY (R403, R267). -/
def execRegionCopy (r : Fin 64) (d : Desc) (b : HostBuf) (s : State) : Host.Outcome State Fault Refusal :=
  let arg := d.arg [8, 1]
  let h := d.target.toNat
  let o := arg 0
  let dir := arg 1
  let n := d.hlen.toNat
  let x := s.respAt (h / 4096)
  let g := s.regionAt h
  let sys := g.valid && g.owner.isNone
  let c : CmdSpec :=
    { op := 0x0109, sizes := [8, 1], input := dir == 1
      target := decide (h < 2 ^ 16) &&
        !(dir == 1 && g.valid && (g.append || g.owner.isNone)) && !(dir == 0 && sys && h != 0x0FFF)
      align := (if o % 64 = 0 then [] else [32]) ++ (if dir = 1 && n % 64 != 0 then [24] else [])
      range := (if g.valid && decide (g.length < o + n) then [if g.length < o then 32 else 24] else []) ++
        (if 1 < dir then [40] else [])
      fails := [(eState, !g.valid), (ePoison, dir == 0 && x.isPoisoned (g.base + o) n)] }
  .next (s.hostCmd r d b c fun l s =>
    if dir = 1 then
      let s := s.modResp (h / 4096) fun x => (x.write (g.base + o) l).unmark (g.base + o) n
      s.finish r.val d stOk n
    else s.finish r.val d stOk (n + if g.append then 2 ^ 32 * (g.ptr / 64) else 0) (x.read (g.base + o) n))

/-! ## Parameters (R101, R104, R128, R263) -/

/-- REEVE_CONFIG (R101, R128). -/
def execReeveConfig (r : Fin 64) (d : Desc) (b : HostBuf) (s : State) : Host.Outcome State Fault Refusal :=
  let rows := [rowTime 100 10000 100, rowTime 10000 10000000 1000, rowTime 0 100000000 1000000,
    rowTime 1000000 1000000000 1000000, rowNat 85 115, rowTime 10000 1000000000 1000,
    rowNat 50 100, rowNat 0 95, rowNat 0 255, rowTime 10000000 60000000000 1000000,
    rowNat 0 (2 ^ 32 - 1)]
  let p := params rows d b
  let high := p.val 7 s.cellar.high
  let low := p.val 8 s.cellar.low
  let bad := if high < low + 5 && ((p.get 7).isSome || (p.get 8).isSome) then
    [p.index (if (p.get 8).isSome then 8 else 7)] else []
  let c : CmdSpec :=
    { op := 0x0304, target := d.target == 0, input := true, range := recLen d ++ p.bad ++ bad }
  .next (s.hostCmd r d b c fun _ s =>
    let s := s.modReeve fun x => { x with
      guardWait := p.val 1 x.guardWait, guardWindow := p.val 2 x.guardWindow
      yieldDelay := p.val 3 x.yieldDelay, calmTime := p.val 4 x.calmTime
      hotLimit := p.val 5 x.hotLimit, startWait := p.val 6 x.startWait }
    (s.modCellar fun x => { x with
      high := high, low := low, quarCount := p.val 9 x.quarCount
      quarWindow := p.val 10 x.quarWindow, waitCap := p.val 11 x.waitCap }).finish r.val d)

/-- CELLAR_CONFIG (R104). -/
def execCellarConfig (r : Fin 64) (d : Desc) (b : HostBuf) (s : State) : Host.Outcome State Fault Refusal :=
  let n := d.arg [8] 0
  let g := n / 2 ^ 30
  let busy := !s.cellar.pages.isEmpty || s.reeve.ctx.any fun e => e.2.st != .free && decide (2 ≤ e.2.cls)
  let room := (List.range 16).all fun j =>
    (s.respAt j).taken.all fun e => decide (e.1 + e.2 ≤ respBytes - cellarShare g)
  let c : CmdSpec :=
    { op := 0x0305, sizes := [8], target := d.target == 0
      range := if n % 2 ^ 30 != 0 || decide (g < 4) || decide (64 < g) then [32] else []
      fails := [(eState, busy), (eNoRes, !room)] }
  .next (s.hostCmd r d b c fun _ s => (s.modCellar fun x => { x with gib := g }).layCellar.stallCheck.finish r.val d)

/-- An entry of a slot map obeys rules 1 and 4 of R263. -/
def slotOk (i : Nat) (e : BitVec 16) : Bool :=
  let ty := e.extractLsb' 0 2
  let owner := e.extractLsb' 2 3
  let cell := e.extractLsb' 5 2
  let edge := e.extractLsb' 7 2
  e.extractLsb' 9 7 == 0 && cell != 3 && edge != 3 &&
  (if ty == 1 then owner == 0 || owner == 7 || edge == 0
   else ty != 3 && owner == 0 && cell == 0 && edge == 0) &&
  (ty == 2) == (i % 16 == 0)

/-- A quarter of a slot map obeys rules 2 and 3 of R263. -/
def quarterOk (l : List (BitVec 16)) : Bool :=
  let g := l.filter fun e => e.extractLsb' 0 2 == 1
  let owners := g.map fun e => e.extractLsb' 2 3
  let load : Nat := (g.map fun (e : BitVec 16) =>
    let o := e.extractLsb' 2 3
    3 * (16 * (e.extractLsb' 5 2).toNat + (if o == 0 || o == 7 then 8 else 0) * (e.extractLsb' 7 2).toNat)).sum
  owners.eraseDups == owners && decide (load ≤ 432)

/-- SLOT_ALLOC (R95, R263). -/
def execSlotAlloc (r : Fin 64) (d : Desc) (b : HostBuf) (s : State) : Host.Outcome State Fault Refusal :=
  let l := bufBytes d b
  let map := (List.range 64).map fun i => BitVec.ofNat 16 (leAt l (2 * i) 2)
  let data := match b with
    | .data _ => true
    | _ => false
  let bad := (List.range 64).filter fun i => !slotOk i (map.getD i 0)
  let quarters := (List.range 4).filter fun q => !quarterOk ((map.drop (16 * q)).take 16)
  let loses := (List.range 128).any fun n =>
    decide (slotBudget (fun i => map.getD i 0) (n % 16 / 2) < (s.reeve.needs.get {} n).slots)
  let c : CmdSpec :=
    { op := 0x0306, target := d.target == 0, need := 128, input := true
      range := if data then (bad ++ quarters.map (16 * ·)).map recDetail else []
      fails := [(eGuar, data && loses)] }
  .next (s.hostCmd r d b c fun _ s => (s.modFabric fun f => { f with pendMap := some map }).finish r.val d)

end Sys2Proof.Machine
end

