-- ==== Sys2Proof/Machine/Epoch.lean ====
section
/-! DEFINITION. What the ingest hubs and the result writer share (12_varnish.md R307-R323): the
times of the epochs, who is open in which, gap records, abandonment, and the hold stores. -/

namespace Sys2Proof.Machine

def State.modWriter (f : Writer → Writer) (s : State) : State := { s with writer := f s.writer }

def State.modIngest (f : Ingest → Ingest) (s : State) : State := { s with ingest := f s.ingest }

/-! ## The times of the epochs (R307) -/

/-- The epoch that a time falls in by the numbering in force and those before it. -/
def epochIn (prevLen firstK : Nat) (t o : BitVec 64) (kO len : Nat) :
    List (BitVec 64 × Nat × Nat) → Option Nat
  | [] =>
    let d := (t - o).toInt
    if 0 ≤ d then some (kO + d.toNat / len)
    else
      let n := (d.natAbs + prevLen - 1) / prevLen
      if n + firstK ≤ kO then some (kO - n) else none
  | e :: l =>
    let d := (t - o).toInt
    if 0 ≤ d then some (kO + d.toNat / len) else epochIn prevLen firstK t e.1 e.2.1 e.2.2 l

/-- The epoch that a time falls in; none before the first epoch after START. -/
def Writer.epochOf (w : Writer) (t : BitVec 64) : Option Nat :=
  epochIn w.prevLen w.firstK t w.origin w.kOrigin w.len w.older

/-- The epoch has been varnished (R320). -/
def Writer.done (w : Writer) (k : Nat) : Bool := decide (k < w.w)

/-- The record of an epoch that has begun. -/
def Writer.epoch (w : Writer) (k : Nat) : Option EpochRec := w.epochs.find? fun e => e.k == k

/-- The last epoch, when a STOP has named one, is over (R308). -/
def Writer.beyond (w : Writer) (k : Nat) : Bool :=
  match w.lastK with
  | some l => decide (l < k)
  | none => false

/-! ## Members (R310, R316) -/

/-- The epoch is open for the member. -/
def Member.isOpen (m : Member) : Bool := !m.closed && !m.abandoned && !m.gone

def EpochRec.member (e : EpochRec) (ctx gen : Nat) : Option Member :=
  e.members.find? fun m => m.ctx == ctx && m.gen == gen

/-- The epoch is open for a context. -/
def Writer.openFor (w : Writer) (k ctx gen : Nat) : Bool :=
  match (w.epoch k).bind fun e => e.member ctx gen with
  | some m => m.isOpen
  | none => false

/-- A member's record in an epoch changed. -/
def State.modMember (s : State) (k ctx gen : Nat) (f : Member → Member) : State :=
  s.modWriter fun w => { w with epochs := w.epochs.map fun e =>
    if e.k == k then { e with members := e.members.map fun m =>
      if m.ctx == ctx && m.gen == gen then f m else m } else e }

/-- Blocks of an epoch of a class 2 or 3 context may be forwarded (R316). -/
def Writer.mayForward (w : Writer) (k ctx gen : Nat) : Bool :=
  decide (k < w.firstK + 2) || (w.done (k - 2) && !w.openFor (k - 2) ctx gen)

/-- The bells of an epoch may follow those of the epoch before (R312). -/
def Writer.mayBell (w : Writer) (k ctx gen : Nat) : Bool :=
  decide (k ≤ w.firstK) || !w.openFor (k - 1) ctx gen

/-! ## Gap records (R323) -/

/-- The same context, generation, epoch, reason and LATE. -/
def Gap.same (a b : Gap) : Bool :=
  a.ctx == b.ctx && a.gen == b.gen && a.k == b.k && a.type == b.type && a.late == b.late

/-- A notice merges into its record, whose COUNT saturates. -/
def mergeGap (g : Gap) : List Gap → List Gap
  | [] => [{ g with count := min g.count 0xFFFFFFFF }]
  | a :: l =>
    if a.same g then { a with count := min (a.count + g.count) 0xFFFFFFFF } :: l else a :: mergeGap g l

/-- A record is made: LATE when its epoch has been varnished. -/
def State.addGap (s : State) (g : Gap) : State :=
  s.modWriter fun w => { w with gaps := mergeGap { g with late := w.done g.k } w.gaps }

/-- A gap record that the writer makes itself (R323). -/
def State.ownGap (s : State) (k type ctx gen count : Nat) : State :=
  s.addGap { k := k, type := type, ctx := ctx, gen := gen, graph := s.lifeGraph ctx gen, source := 0xFFFF
             count := count, tFirst := s.time.t64, late := false }

/-- A context entry (R321, R440), LATE when its epoch has been varnished (R323). -/
def State.addEntry (s : State) (k type ctx gen count : Nat) : State :=
  let g : Gap :=
    { k := k, type := type, ctx := ctx, gen := gen, graph := s.lifeGraph ctx gen, source := 0xFFFF
      count := count, tFirst := s.time.t64, late := s.writer.done k }
  s.modWriter fun w => { w with entries := w.entries ++ [g] }

/-! ## Abandonment (R322) -/

/-- The WAITING entries of one parity are swept (R322, R66); one that a spill is copying is purged from
its page when the page is linked. -/
def State.sweepParity (n ctx gen : Nat) (epar : Bool) : List (Nat × Entry) → State → State
  | [], s => s
  | (k, e) :: rest, s =>
    let s :=
      if !(e.st == .waiting && e.hasParity ctx gen epar) then s
      else if (s.cell n).pal.copying (k / 4) (k % 4) then
        s.modPal n fun p => { p with
          spills := p.spills.map fun x => { x with parities := x.parities ++ [(ctx, gen, epar)] } }
      else (s.discardEntry n k).palBump n .sweepFreed
    State.sweepParity n ctx gen epar rest s

/-- What one parity of a context leaves in the cells and in the Cellar is removed (R322). -/
def State.clearParity (s : State) (ctx gen : Nat) (epar : Bool) : State :=
  let x := s.ctxOf ctx
  if x.gen != gen then s
  else
    let cells := x.cells.filter fun n => !s.fabric.iso.contains n
    let s := cells.foldl (fun s n =>
      (State.sweepParity n ctx gen epar (s.cell n).pal.entries s).modCell n fun c =>
        { c with tally := c.tally.set 0 (2 * ctx + b2n epar) 0 }) s
    let s := if 2 ≤ x.cls then
        (s.cellar.pages.map (·.1)).foldl (fun s pg => s.purgeParity ctx gen epar pg) s
      else s
    -- an audited epoch that is not compared leaves no sum to the next of its parity (R440)
    if x.partner.isSome then
      cells.foldl (fun s n => s.modCell n fun c =>
        { c with auditSum := c.auditSum.set 0 (2 * ctx + b2n epar) 0 }) s
    else s

/-- Epoch `k` is abandoned for a member (R322); a shadow's part of it too, and no verdict follows
(R440). -/
def State.abandon (s : State) (k ctx gen : Nat) : State :=
  let epar := k % 2 == 1
  let s := s.modMember k ctx gen fun m => { m with abandoned := true, judging := false }
  let s := (s.ownGap k 0x09 ctx gen 0).varnBump .abandoned
  let s := s.clearParity ctx gen epar
  match (s.ctxOf ctx).partner with
  | some d => (s.clearParity d (s.ctxOf d).gen epar).addEntry k 0x42 ctx gen 0
  | none => s

/-- A class 0 or 1 block does not wait for an old epoch (R316). -/
def State.overtake (s : State) (k ctx gen : Nat) : State :=
  if 2 ≤ k && s.writer.openFor (k - 2) ctx gen then s.abandon (k - 2) ctx gen else s

/-! ## Blocks on their way (R293, R296, R316) -/

def State.port (s : State) (p : Nat) : SensorPort := s.ingest.ports.get {} p

def State.modPort (p : Nat) (f : SensorPort → SensorPort) (s : State) : State :=
  s.modIngest fun x => { x with ports := x.ports.upd {} p f }

def State.binding (s : State) (b : Nat) : Binding := s.ingest.binds.get {} b

def State.modBinding (b : Nat) (f : Binding → Binding) (s : State) : State :=
  s.modIngest fun x => { x with binds := x.binds.upd {} b f }

end Sys2Proof.Machine

namespace Sys2Proof

/-- The partition and node that a binding feeds (R91). -/
def GraphBody.feed (g : GraphBody) (b : Nat) : Nat × Nat :=
  match g.bindNodes.find? fun e => e.1 == b with
  | some e => (e.2.1, e.2.2.toNat)
  | none => (g.srcPart, g.srcNode.toNat)

end Sys2Proof

namespace Sys2Proof.Machine

/-- The contexts that a stream feeds: its own, and the shadow of an audited one (R438), each with
its generation and cell. -/
def State.twins (s : State) (b ctx gen cell : Nat) : List (Nat × Nat × Nat) :=
  (ctx, gen, cell) ::
  match (s.ctxOf ctx).partner, s.graph (s.lifeGraph ctx gen) with
  | some d, some g =>
    let y := s.ctxOf d
    match y.place[(g.feed b).1]? with
    | some n => [(d, y.gen, n)]
    | none => []
  | _, _ => []

/-- The hub of a port as an initiator. -/
def hubCode (p : Nat) : Nat := 0x98 + p / 8

/-- Credit that the hub still lacks for `n` tokens to each twin is requested (R81, R296). -/
def State.askTwins (s : State) (code n : Nat) (l : List (Nat × Nat × Nat)) : State :=
  l.foldl (fun s t => if s.creditOf code t.1 t.2.1 < n then s.askCredit code t.1 (some t.2.1) else s) s

/-- The hub holds credit for `n` tokens to each twin. -/
def State.hasCredit (s : State) (code n : Nat) (l : List (Nat × Nat × Nat)) : Bool :=
  l.all fun t => decide (n ≤ s.creditOf code t.1 t.2.1)

/-- Tokens of a block for one context. -/
def Block.tokens (k : Block) : Nat := if k.stamp.isSome then 2 else 1

/-- A block takes its ITER and waits at its port for the injection port (R33, R296). -/
def State.queueBlock (s : State) (k : Block) : State :=
  let b := s.binding k.binding
  let p := k.binding / 256
  let s := s.modBinding k.binding fun b => { b with iter := (b.iter + 1) % 256 }
  let s := s.modPort p fun x => { x with wait := x.wait ++ [{ k with iter := b.iter }] }
  let key := (k.ctx, k.gen, k.epoch)
  let s := s.modIngest fun x => { x with begun := if x.begun.contains key then x.begun else x.begun ++ [key] }
  let l := s.twins k.binding k.ctx k.gen k.cell
  if s.hasCredit (hubCode p) k.tokens l then s
  else (s.askTwins (hubCode p) k.tokens l).reeveBump .creditWait

/-- Held blocks whose epoch may be forwarded leave the hold stores in order (R293, R316). -/
def State.releaseHold (s : State) : State :=
  let may := fun (k : Block) => s.writer.mayForward k.epoch k.ctx k.gen
  let go := s.ingest.hold.flatMap fun e => e.2.filter may
  let s := s.modIngest fun x => { x with
    hold := (x.hold.mapV fun l => l.filter fun k => !may k).keep fun _ l => l != [] }
  go.foldl State.queueBlock s

/-! ## Dropped epochs (R99, R293) -/

def DropWhy.type : DropWhy → Nat
  | .guaranteeYield => 0x01
  | .holdOverflow => 0x07

def DropWhy.ctr : DropWhy → BindCtr
  | .guaranteeYield => .yieldDrop
  | .holdOverflow => .holdDrop

/-- A block of a dropped epoch is discarded and counted (R99, R293). -/
def State.dropBlock (s : State) (k : Block) (why : DropWhy) : State :=
  (s.bindBump k.binding why.ctr).gapNotice k.epoch why.type k.ctx k.gen k.binding 1

/-- Why an epoch of a context is dropped, if it is. -/
def Ingest.dropped (x : Ingest) (ctx gen k : Nat) : Option DropWhy :=
  (x.drops.find? fun d => d.1 == ctx && d.2.1 == gen && d.2.2.1 == k).map fun d => d.2.2.2

/-- The hubs with a binding of a context, each by its lowest binding. -/
def Ingest.hubsOf (x : Ingest) (ctx gen : Nat) : List Nat :=
  let l := (x.binds.filter fun e => e.2.st == .active && e.2.ctx == ctx && e.2.gen == gen).map (·.1)
  l.filter fun b => !(l.any fun c => decide (c < b) && c / 2048 == b / 2048)

/-- An epoch is dropped whole, once, unless it has begun to be forwarded; each hub concerned sends
one notice, which the notices of its discarded blocks join (R99, R293, R305). -/
def State.dropEpoch (s : State) (ctx gen k : Nat) (why : DropWhy) : State :=
  if (s.ingest.dropped ctx gen k).isSome || s.ingest.begun.contains (ctx, gen, k) then s
  else
    let mine := fun (b : Block) => b.ctx == ctx && b.gen == gen && b.epoch == k
    let held := s.ingest.hold.flatMap fun e => e.2.filter mine
    let s := s.modIngest fun x => { x with
      drops := x.drops ++ [(ctx, gen, k, why)]
      hold := (x.hold.mapV fun l => l.filter fun b => !mine b).keep fun _ l => l != [] }
    let s := (s.ingest.hubsOf ctx gen).foldl (fun s b => s.gapNotice k why.type ctx gen b 0) s
    held.foldl (fun s b => s.dropBlock b why) s

/-- Blocks that a hub's store holds. -/
def holdCap : Nat := 65536

/-- A converted block is discarded with its dropped epoch, held, or sent on (R293, R316). -/
def State.admitBlock (s : State) (k : Block) : State :=
  match s.ingest.dropped k.ctx k.gen k.epoch with
  | some why => s.dropBlock k why
  | none =>
    let h := k.binding / 2048
    if k.cls ≤ 1 || s.ingest.begun.contains (k.ctx, k.gen, k.epoch) ||
        s.writer.mayForward k.epoch k.ctx k.gen then s.queueBlock k
    else if holdCap ≤ (s.ingest.hold.get [] h).length then
      (s.dropEpoch k.ctx k.gen k.epoch .holdOverflow).dropBlock k .holdOverflow
    else s.modIngest fun x => { x with hold := x.hold.upd [] h fun l => l ++ [k] }

end Sys2Proof.Machine
end

