-- ==== Sys2Proof/Machine/Flags.lean ====
section
/-! DEFINITION. Floating point in binary32 and binary64 (09_arithmetic.md R238-R248): operands,
the one rounding, the flags, and each operation as a number of the format with its flags. -/

namespace Sys2Proof.Machine

/-- The flags of R245: NV 1, DZ 2, OF 4, UF 8, NX 16. -/
def flNV : Nat := 1
def flDZ : Nat := 2
def flOF : Nat := 4
def flUF : Nat := 8
def flNX : Nat := 16

/-- A result: its bits and its flags. -/
abbrev FRes := Nat × Nat

/-- A format: exponent bits and trailing significand bits. -/
structure Fmt where
  eb : Nat
  mb : Nat
  deriving DecidableEq, Repr

def Fmt.b32 : Fmt := { eb := 8, mb := 23 }
def Fmt.b64 : Fmt := { eb := 11, mb := 52 }

/-- P of R204. -/
def Fmt.ofP (p : Bool) : Fmt := if p then .b64 else .b32

def Fmt.width (f : Fmt) : Nat := f.eb + f.mb + 1
def Fmt.bias (f : Fmt) : Nat := 2 ^ (f.eb - 1) - 1

/-- Exponent of the least bit of a subnormal. -/
def Fmt.eLow (f : Fmt) : Int := 1 - f.bias - f.mb

def Fmt.inf (f : Fmt) : Nat := (2 ^ f.eb - 1) * 2 ^ f.mb
/-- The canonical quiet NaN (R239). -/
def Fmt.nan (f : Fmt) : Nat := f.inf + 2 ^ (f.mb - 1)
def Fmt.sign (f : Fmt) (neg : Bool) : Nat := if neg then 2 ^ (f.eb + f.mb) else 0
/-- The largest finite value. -/
def Fmt.maxFin (f : Fmt) : Nat := f.inf - 1

/-- An operand: a NaN and whether it signals (R240), an infinity, a zero, or m x 2^e. -/
inductive FVal where
  | nan (sig : Bool)
  | inf (neg : Bool)
  | zero (neg : Bool)
  | fin (neg : Bool) (m : Nat) (e : Int)
  deriving DecidableEq, Repr

def Fmt.decode (f : Fmt) (x : Nat) : FVal :=
  let t := x % 2 ^ f.mb
  let e := x / 2 ^ f.mb % 2 ^ f.eb
  let neg := x.testBit (f.eb + f.mb)
  if e = 2 ^ f.eb - 1 then
    if t = 0 then .inf neg else .nan (!t.testBit (f.mb - 1))
  else if e = 0 then (if t = 0 then .zero neg else .fin neg t f.eLow)
  else .fin neg (2 ^ f.mb + t) (f.eLow + (e - 1))

def FVal.isNan : FVal → Bool
  | .nan _ => true
  | _ => false

def FVal.isSig : FVal → Bool
  | .nan g => g
  | _ => false

def FVal.isNeg : FVal → Bool
  | .inf n => n
  | .zero n => n
  | .fin n _ _ => n
  | .nan _ => false

/-- The operand with its sign changed. -/
def FVal.neg : FVal → FVal
  | .inf n => .inf !n
  | .zero n => .zero !n
  | .fin n m e => .fin (!n) m e
  | .nan g => .nan g

/-- Whether a magnitude is rounded up (R241): `rem` against `half`, with bits lost below (`sticky`). -/
def roundsUp (rm : Nat) (neg odd : Bool) (rem half : Nat) (sticky : Bool) : Bool :=
  let inexact := rem != 0 || sticky
  match rm with
  | 0 => decide (half < rem) || (rem == half && (sticky || odd))
  | 1 => false
  | 2 => !neg && inexact
  | 3 => neg && inexact
  | _ => decide (half ≤ rem)

/-- m x 2^e (and a little more when `sticky`) rounded to a multiple of 2^q: the multiple, and
whether it is inexact. -/
def roundAt (rm : Nat) (neg : Bool) (m : Nat) (e q : Int) (sticky : Bool) : Nat × Bool :=
  if q ≤ e then (m * 2 ^ (e - q).toNat, sticky)
  else
    let k := (q - e).toNat
    let hi := m / 2 ^ k
    let rem := m % 2 ^ k
    (hi + b2n (roundsUp rm neg (hi % 2 == 1) rem (2 ^ (k - 1)) sticky), rem != 0 || sticky)

/-- Bits of a number. -/
def bitLen (m : Nat) : Nat := if m = 0 then 0 else m.log2 + 1

/-- The one rounding of R241 and R242 of a nonzero exact value. -/
def Fmt.round (f : Fmt) (rm : Nat) (neg : Bool) (m : Nat) (e : Int) (sticky : Bool := false) : FRes :=
  let top : Int := e + bitLen m - 1
  let q0 : Int := top - f.mb
  let q : Int := max q0 f.eLow
  let (r, inexact) := roundAt rm neg m e q sticky
  let r0 := (roundAt rm neg m e q0 sticky).1
  -- tiny after rounding with an unbounded exponent (R242)
  let tiny := decide ((if r0 = 2 ^ (f.mb + 1) then top + 1 else top) < f.eLow + f.mb)
  let (r, q) := if r = 2 ^ (f.mb + 1) then (2 ^ f.mb, q + 1) else (r, q)
  if r < 2 ^ f.mb then
    (f.sign neg + r, if inexact then flUF + flNX else 0)
  else
    let biased := (q - f.eLow).toNat + 1
    if 2 ^ f.eb - 1 ≤ biased then
      let toInf := match rm with
        | 0 => true
        | 1 => false
        | 2 => !neg
        | 3 => neg
        | _ => true
      (f.sign neg + (if toInf then f.inf else f.maxFin), flOF + flNX)
    else
      (f.sign neg + biased * 2 ^ f.mb + (r - 2 ^ f.mb),
        if inexact then (if tiny then flUF + flNX else flNX) else 0)

/-- A NaN result: canonical, with NV when invalid. -/
def Fmt.nanRes (f : Fmt) (nv : Bool) : FRes := (f.nan, if nv then flNV else 0)

/-- Two magnitudes as integers at one exponent. -/
def signedAt (neg : Bool) (m : Nat) (e q : Int) : Int :=
  let v : Int := (m * 2 ^ (e - q).toNat : Nat)
  if neg then -v else v

/-- The sign of an exact zero sum (R241). -/
def zeroSign (rm : Nat) (a b : Bool) : Bool := if a == b then a else rm == 3

/-- The sum of two operands that are no NaNs. -/
def Fmt.addV (f : Fmt) (rm : Nat) : FVal → FVal → FRes
  | .nan g, _ => f.nanRes g
  | _, .nan g => f.nanRes g
  | .inf a, .inf b => if a == b then (f.sign a + f.inf, 0) else f.nanRes true
  | .inf a, _ => (f.sign a + f.inf, 0)
  | _, .inf b => (f.sign b + f.inf, 0)
  | .zero a, .zero b => (f.sign (zeroSign rm a b), 0)
  | .zero _, .fin n m e => f.round rm n m e
  | .fin n m e, .zero _ => f.round rm n m e
  | .fin a m e, .fin b n d =>
    let q := min e d
    let v := signedAt a m e q + signedAt b n d q
    if v = 0 then (f.sign (zeroSign rm a b), 0) else f.round rm (decide (v < 0)) v.natAbs q

/-- NaN operands first (R243): the result when there is one. -/
def Fmt.nanOf (f : Fmt) (l : List FVal) : Option FRes :=
  if l.any FVal.isNan then some (f.nanRes (l.any FVal.isSig)) else none

def Fmt.add (f : Fmt) (rm a b : Nat) : FRes :=
  let x := f.decode a
  let y := f.decode b
  (f.nanOf [x, y]).getD (f.addV rm x y)

def Fmt.sub (f : Fmt) (rm a b : Nat) : FRes :=
  let x := f.decode a
  let y := f.decode b
  (f.nanOf [x, y]).getD (f.addV rm x y.neg)

/-- The exact product of two operands that are no NaNs; none for 0 x inf. -/
def mulV : FVal → FVal → Option FVal
  | .inf _, .zero _ => none
  | .zero _, .inf _ => none
  | .inf a, y => some (.inf (a != y.isNeg))
  | x, .inf b => some (.inf (x.isNeg != b))
  | .zero a, y => some (.zero (a != y.isNeg))
  | x, .zero b => some (.zero (x.isNeg != b))
  | .fin a m e, .fin b n d => some (.fin (a != b) (m * n) (e + d))
  | x, _ => some x

/-- An exact value delivered in the format. -/
def Fmt.deliver (f : Fmt) (rm : Nat) : FVal → FRes
  | .nan g => f.nanRes g
  | .inf n => (f.sign n + f.inf, 0)
  | .zero n => (f.sign n, 0)
  | .fin n m e => f.round rm n m e

def Fmt.mul (f : Fmt) (rm a b : Nat) : FRes :=
  let x := f.decode a
  let y := f.decode b
  (f.nanOf [x, y]).getD
    (match mulV x y with
    | none => f.nanRes true
    | some p => f.deliver rm p)

/-- a x b + c with one rounding; the product and the addend may be negated (FMS, FNMA). -/
def Fmt.fused (f : Fmt) (rm : Nat) (negP negC : Bool) (a b c : Nat) : FRes :=
  let x := f.decode a
  let y := f.decode b
  let w := f.decode c
  let w := if negC then w.neg else w
  if x.isNan || y.isNan then f.nanRes (x.isSig || y.isSig || w.isSig)
  else
    match mulV x y with
    | none => f.nanRes true
    | some p =>
      let p := if negP then p.neg else p
      if w.isNan then f.nanRes w.isSig else f.addV rm p w

def Fmt.div (f : Fmt) (rm a b : Nat) : FRes :=
  let x := f.decode a
  let y := f.decode b
  let s := x.isNeg != y.isNeg
  (f.nanOf [x, y]).getD
    (match x, y with
    | .inf _, .inf _ => f.nanRes true
    | .zero _, .zero _ => f.nanRes true
    | .inf _, _ => (f.sign s + f.inf, 0)
    | _, .inf _ => (f.sign s, 0)
    | .zero _, _ => (f.sign s, 0)
    | _, .zero _ => (f.sign s + f.inf, flDZ)
    | .fin _ m e, .fin _ n d =>
      let k := m * 2 ^ 128
      f.round rm s (k / n) (e - d - 128) (k % n != 0)
    | _, _ => f.nanRes false)

/-- The integer square root, one bit at a time from bit `k - 1`. -/
def isqrt (n : Nat) : Nat → Nat → Nat
  | 0, r => r
  | k + 1, r => isqrt n k (if (r + 2 ^ k) * (r + 2 ^ k) ≤ n then r + 2 ^ k else r)

def Fmt.sqrt (f : Fmt) (rm a : Nat) : FRes :=
  match f.decode a with
  | .nan g => f.nanRes g
  | .zero n => (f.sign n, 0)
  | .inf n => if n then f.nanRes true else (f.inf, 0)
  | .fin n m e =>
    if n then f.nanRes true
    else
      let (m, e) := if e % 2 = 0 then (m, e) else (2 * m, e - 1)
      let v := m * 2 ^ 128
      let r := isqrt v 96 0
      f.round rm false r (e / 2 - 64) (r * r != v)

/-- Significand and exponent; a zero's is 0. -/
def FVal.mant : FVal → Nat × Int
  | .fin _ m e => (m, e)
  | _ => (0, 0)

/-- The order of two operands: `a < b`.  -0 equals +0 (R243), and no NaN is less. -/
def ltV (a b : FVal) : Bool :=
  match a, b with
  | .nan _, _ => false
  | _, .nan _ => false
  | .inf x, .inf y => x && !y
  | .inf x, _ => x
  | _, .inf y => !y
  | x, y =>
    let (m, e) := x.mant
    let (n, d) := y.mant
    let q := min e d
    decide (signedAt x.isNeg m e q < signedAt y.isNeg n d q)

/-- minimumNumber and maximumNumber (R204, R243): -0 below +0. -/
def Fmt.minmax (f : Fmt) (isMax : Bool) (a b : Nat) : FRes :=
  let x := f.decode a
  let y := f.decode b
  let fl := if x.isSig || y.isSig then flNV else 0
  if x.isNan && y.isNan then (f.nan, fl)
  else if x.isNan then (b, fl)
  else if y.isNan then (a, fl)
  else
    let aFirst := if ltV x y then true else if ltV y x then false else x.isNeg || !y.isNeg
    (if aFirst == isMax then b else a, fl)

/-- The comparisons of R204: 0 equal, 1 less, 2 less or equal, 3 unordered. -/
def Fmt.cmp (f : Fmt) (k : Nat) (a b : Nat) : Bool × Nat :=
  let x := f.decode a
  let y := f.decode b
  let nan := x.isNan || y.isNan
  let sig := x.isSig || y.isSig
  match k with
  | 0 => (!nan && !ltV x y && !ltV y x, if sig then flNV else 0)
  | 1 => (ltV x y, if nan then flNV else 0)
  | 2 => (!nan && !ltV y x, if nan then flNV else 0)
  | _ => (nan, if sig then flNV else 0)

/-- FCLASS (R205). -/
def Fmt.cls (f : Fmt) (a : Nat) : Nat :=
  match f.decode a with
  | .nan g => if g then 2 ^ 8 else 2 ^ 9
  | .inf n => if n then 1 else 2 ^ 7
  | .zero n => if n then 2 ^ 3 else 2 ^ 4
  | .fin n m _ =>
    let sub := decide (m < 2 ^ f.mb)
    match n, sub with
    | true, false => 2 ^ 1
    | true, true => 2 ^ 2
    | false, true => 2 ^ 5
    | false, false => 2 ^ 6

/-- FABS, FNEG, FSGNJ by the sign they give (R239): a NaN gives the canonical NaN. -/
def Fmt.withSign (f : Fmt) (a : Nat) (neg : Bool) : FRes :=
  if (f.decode a).isNan then (f.nan, 0) else (a % 2 ^ (f.eb + f.mb) + f.sign neg, 0)

def Fmt.signBit (f : Fmt) (a : Nat) : Bool := a.testBit (f.eb + f.mb)

/-- Floating point to a `w`-bit integer (R241, R244). -/
def Fmt.toInt (f : Fmt) (rm w : Nat) (signed : Bool) (a : Nat) : FRes :=
  let top : Int := if signed then 2 ^ (w - 1) - 1 else 2 ^ w - 1
  let low : Int := if signed then -(2 ^ (w - 1)) else 0
  let give : Int → FRes := fun v => (narrow w v, flNV)
  match f.decode a with
  | .nan _ => give top
  | .inf n => give (if n then low else top)
  | .zero _ => (0, 0)
  | .fin n m e =>
    let (r, inexact) := roundAt rm n m e 0 false
    let v : Int := if n then -(r : Int) else r
    if top < v then give top else if v < low then give low
    else (narrow w v, if inexact then flNX else 0)

/-- An integer to floating point (R243). -/
def Fmt.ofInt (f : Fmt) (rm : Nat) (v : Int) : FRes :=
  if v = 0 then (0, 0) else f.round rm (decide (v < 0)) v.natAbs 0

/-- Between the two formats (R204): a signalling operand signals NV. -/
def Fmt.convert (src dst : Fmt) (rm a : Nat) : FRes := dst.deliver rm (src.decode a)

end Sys2Proof.Machine
end

