-- ==== Sys2Proof/Machine/Evin.lean ====
section
/-! DEFINITION. The event inputs and the angle stamps (11_ingest.md R297-R303). -/

namespace Sys2Proof.Machine

def State.evinAt (s : State) (n : Nat) : EvIn := s.ingest.evin.get {} n

def State.modEvin (n : Nat) (f : EvIn → EvIn) (s : State) : State :=
  s.modIngest fun x => { x with evin := x.evin.upd {} n f }

/-- A ratio rounded to the nearest integer, ties to even. -/
def roundDiv (n : Int) (d : Nat) : Int :=
  let q := n / d
  let r := (n % d).toNat
  if d < 2 * r || (2 * r == d && q % 2 == 1) then q + 1 else q

/-! ## Edges (R299-R302) -/

/-- The edge qualifies under EDGE. -/
def EvEdge.takes : EvEdge → EvPulse → Bool
  | _, .merged => false
  | .rise, x => x == .rise
  | .fall, x => x == .fall
  | .both, _ => true

/-- The next position of a pulse train (R302): P, the pulses of the revolution, and P at its start. -/
def EvIn.advance (e : EvIn) : Nat × Nat × Nat :=
  match e.edges with
  | [] => (0, 0, 0)
  | (_, last) :: _ =>
    if e.indexed then
      let p := (last / 2 ^ 32 + 1) * 2 ^ 32
      (p, 0, p)
    else if e.pulse + 1 = e.ppr then (e.revP + 2 ^ 32, 0, e.revP + 2 ^ 32)
    else (last + (roundDiv (2 ^ 32 : Nat) e.ppr).toNat, e.pulse + 1, e.revP)

/-- A qualified pulse of a TACH input (R302); `q` is its time in quarter nanoseconds. -/
def EvIn.tach (e : EvIn) (q : Nat) : EvIn :=
  let a := e.advance
  { e with
    edges := ((q, a.1) :: e.edges).take 16, pulse := a.2.1, revP := a.2.2, indexed := false
    idxPulses := e.idxPulses.map (· + 1) }

/-- The index input of a TACH input marks a revolution (R302). -/
def State.indexMark (s : State) (m : Nat) : State :=
  let e := s.evinAt m
  match e.idxPulses with
  | none => s.modEvin m fun e => { e with indexed := true, idxPulses := some 0 }
  | some n =>
    if n = e.ppr then s.modEvin m fun e => { e with indexed := true, idxPulses := some 0, pprBad := false }
    else
      let s := s.evBump m .pprErr
      let s := if e.pprRaised then s else s.postEvent m 0x15
      s.modEvin m fun e => { e with indexed := true, idxPulses := some 0, pprBad := true, pprRaised := true }

/-- The time of an edge as an event carries it: T64, and its fraction in DATA1 (R406). -/
def State.edgeEvent (s : State) (n count q : Nat) : State :=
  s.postEventAt n 0x10 count (q % 4) (BitVec.ofNat 64 (q / 4))

/-- A qualified edge in EVENT mode (R301). -/
def State.eventEdge (s : State) (n q : Nat) : State :=
  let e := s.evinAt n
  match e.evAt with
  | none =>
    (s.edgeEvent n (e.evCount + 1) q).modEvin n fun e => { e with evAt := some s.time.now, evCount := 0, evLast := q }
  | some _ => s.modEvin n fun e => { e with evCount := e.evCount + 1, evLast := q }

/-- The filter's output changes (R299): the level before it has held for 20 ns. -/
def State.filtered (s : State) (n : Nat) (level : Bool) : State :=
  let e := s.evinAt n
  let s := if e.level.isSome then s.reach (e.rawAt + 20) else s
  s.modEvin n fun e => { e with level := some level, rawAt := s.time.now }

/-- EVIN_EDGE (R299-R302): an edge that the filter accepts, at its raw transition, or a pulse shorter than
20 ns, whose two edges merge (log 126). -/
def execEvinEdge (n : Fin 64) (x : EvPulse) (frac : BitVec 2) (s : State) :
    Host.Outcome State Fault Refusal :=
  let e := s.evinAt n.val
  if e.mode == .off || !s.isReady then .next s
  else if x == .merged then
    .next ((s.evBump n.val .overrate).modEvin n.val fun e => { e with window := e.window + 1 })
  else if e.level == some (x == .rise) then .next s
  else if !e.edge.takes x then .next (s.filtered n.val (x == .rise))
  else
    let s := s.filtered n.val (x == .rise)
    let q := 4 * s.time.t64.toNat + frac.toNat
    let s := s.evBump n.val .edges
    let s := if e.stuck then s.postEvent n.val 0x12 else s
    let s := s.modEvin n.val fun e => { e with
      window := e.window + 1, since := s.time.now, stuck := false
      fresh := if e.stuck then 1 else min 2 (e.fresh + 1) }
    match e.mode with
    | .off => .next s
    | .event => .next (s.eventEdge n.val q)
    | .tach => .next (s.modEvin n.val fun e => e.tach q)
    | .index =>
      let named := (s.ingest.evin.filter fun m => m.2.mode == .tach && m.2.indexIn == n.val).map (·.1)
      .next (named.foldl State.indexMark s)

/-- EV_HOLDOFF_EXPIRY (R301): the hold-off of an EVENT input ends. -/
def execEvHoldoffExpiry (n : Fin 64) (s : State) : Host.Outcome State Fault Refusal :=
  let e := s.evinAt n.val
  match e.evAt with
  | none => .next s
  | some t =>
    let s := s.reach (t + e.holdoff)
    if e.evCount = 0 then .next (s.modEvin n.val fun e => { e with evAt := none })
    else
      .next ((s.edgeEvent n.val e.evCount e.evLast).modEvin n.val fun e =>
        { e with evAt := some s.time.now, evCount := 0 })

/-- Edges and merged pulses of a window above which an input is OVERRATED. -/
def rateLimit : Nat := 25000

/-- One input at the end of a rate window (R299). -/
def State.judgeRate (s : State) (n : Nat) : State :=
  let e := s.evinAt n
  let fast := decide (rateLimit < e.window)
  let s := if e.mode != .off && fast != e.overrated then s.postEvent n (if fast then 0x13 else 0x14) else s
  s.modEvin n fun e => { e with window := 0, overrated := e.mode != .off && fast }

/-- RATE_WINDOW_END (R299): T64 reaches a multiple of 10^6. -/
def execRateWindowEnd (s : State) : Host.Outcome State Fault Refusal :=
  let s := s.reachT64 ((s.time.t64.toNat / 1000000 + 1) * 1000000)
  .next ((s.ingest.evin.map (·.1)).foldl State.judgeRate s)

/-- STUCK_TIMEOUT (R300): an edge in its very instant would win (R305), so the instant is over. -/
def execStuckTimeout (n : Fin 64) (s : State) : Host.Outcome State Fault Refusal :=
  let e := s.evinAt n.val
  if e.mode == .off || e.stuck || !s.isReady then .next s
  else
    let due := e.since + e.stuckTime
    let t := (s.reach due).time.t64
    let s := s.reach (due + 1)
    .next (((s.modEvin n.val fun e => { e with stuck := true }).evBump n.val .stuckCount).postEventAt n.val 0x11 0 0 t)

/-- An input is still named by a TACH input or by a binding (R298). -/
def State.evinNamed (s : State) (n : Nat) : Bool :=
  (s.ingest.evin.any fun e => e.1 != n && e.2.mode == .tach && e.2.indexIn == n) ||
  s.ingest.binds.any fun e => e.2.st != .unbound && e.2.tach == n

def evModeOf : Nat → EvMode
  | 0 => .off
  | 1 => .event
  | 2 => .tach
  | _ => .index

def evEdgeOf : Nat → EvEdge
  | 0 => .rise
  | 1 => .fall
  | _ => .both

/-- EVENT_INPUT_CONFIG (R298). -/
def execEventInputConfig (r : Fin 64) (d : Desc) (b : HostBuf) (s : State) :
    Host.Outcome State Fault Refusal :=
  let n := d.target.toNat
  let o := s.evinAt n
  let inputs := PRow.mk (fun v => decide (v < 64) || v == 0x7F) false
  let rows := [rowEnum 4, rowEnum 3, rowNat 1 65535, inputs, rowTime 1000000 1000000000000 1000000,
    rowTime 1000 1000000000 1000]
  let p := params rows d b
  let mode := match p.get 1 with
    | some v => evModeOf v
    | none => o.mode
  let edge := match p.get 2 with
    | some v => evEdgeOf v
    | none => o.edge
  let idx := p.val 4 o.indexIn
  let idxMode := if idx = n then mode else (s.evinAt idx).mode
  let named := fun (k other : Nat) => p.index (if (p.get k).isSome then k else other)
  let bad :=
    (if edge == .both && mode != .event && ((p.get 1).isSome || (p.get 2).isSome) then [named 2 1] else []) ++
    (if idx != 0x7F && idxMode != .index && ((p.get 4).isSome || (mode == .tach && (p.get 1).isSome))
      then [named 4 1] else []) ++
    (if mode != o.mode && s.evinNamed n then [p.index 1] else [])
  let c : CmdSpec :=
    { op := 0x0303, target := decide (n < 64), input := true, range := recLen d ++ p.bad ++ bad }
  .next (s.hostCmd r d b c fun _ s =>
    let x : EvIn :=
      { mode := mode, edge := edge, ppr := p.val 3 o.ppr, indexIn := idx
        stuckTime := p.val 5 o.stuckTime, holdoff := p.val 6 o.holdoff, since := s.time.now
        level := if o.mode == .off then none else o.level, rawAt := o.rawAt }
    (s.modEvin n fun _ => x).finish r.val d)

/-! ## The stamp (R297, R303) -/

/-- A ratio as binary32, rounded to nearest even. -/
def ratio32 (n d : Nat) : Nat :=
  let m := n * 2 ^ 160
  (Fmt.b32.round 0 false (m / d) (-160) (m % d != 0)).1

/-- P, SPEED, ANGLE_STEP, EXTRAP and INVALID at a time in quarter nanoseconds (R303). -/
structure Angle where
  p       : Int
  speed   : Nat
  step    : Nat
  extrap  : Bool
  invalid : Bool
  deriving DecidableEq, Repr

/-- The angle at `t` on the line through two edges; `a` is the earlier. -/
def lineAngle (a b : Nat × Nat) (t speriod : Nat) (extrap invalid : Bool) : Angle :=
  let dt := b.1 - a.1
  let dp := b.2 - a.2
  { p := roundDiv ((a.2 : Int) * dt + ((t : Int) - a.1) * dp) dt
    speed := ratio32 (dp * 4000000000) (2 ^ 32 * dt)
    step := min 0xFFFFFFFF (roundDiv (4 * dp * speriod : Nat) (256 * dt)).toNat
    extrap := extrap, invalid := invalid }

/-- The newest pair of held edges whose earlier one is at or before `t`; edges newest first. -/
def pairAt (t : Nat) : List (Nat × Nat) → Option ((Nat × Nat) × (Nat × Nat))
  | b :: a :: l => if a.1 < t || (a.1 == t && l.isEmpty) then some (a, b) else pairAt t (a :: l)
  | _ => none

/-- The angle that held edges, newest first, give at `t`. -/
def angleAt (edges : List (Nat × Nat)) (t speriod : Nat) : Angle :=
  match edges with
  | b :: a :: _ =>
    if b.1 < t then lineAngle a b t speriod true (decide (2 * (b.1 - a.1) < t - b.1))
    else
      match pairAt t edges with
      | some (x, y) => lineAngle x y t speriod false false
      | none =>
        match edges.reverse with
        | x :: y :: _ => lineAngle x y t speriod true true
        | _ => { p := 0, speed := 0, step := 0, extrap := true, invalid := true }
  | _ => { p := 0, speed := 0, step := 0, extrap := true, invalid := true }

/-- The eight words of a stamp (R297). -/
def State.stampOf (s : State) (b : Nat) (bd : Binding) (t : BitVec 64) : List Word :=
  let w := fun (n : Nat) => BitVec.ofNat 32 n
  let lo := w t.toNat
  let hi := w (t.toNat / 2 ^ 32)
  if bd.tach = 0x7F then [lo, hi, 0, 0, 0, w 16, 0, w b]
  else
    let e := s.evinAt bd.tach
    let x := if e.indexIn = 0x7F then { e with stuck := false, overrated := false, fresh := 2 } else s.evinAt e.indexIn
    let a := angleAt e.edges (4 * t.toNat) bd.speriod
    let stuck := e.stuck || x.stuck
    let fast := e.overrated || x.overrated
    let invalid := a.invalid || stuck || fast || decide (e.fresh < 2) || decide (x.fresh < 2) || e.pprBad
    let p := narrow 64 a.p
    let flags := b2n a.extrap + 2 * b2n invalid + 4 * b2n stuck + 8 * b2n fast + 256 * bd.tach
    [lo, hi, w p, w (p / 2 ^ 32), w a.speed, w flags, w a.step, w b]

end Sys2Proof.Machine
end

