-- ==== Sys2Proof/Machine/Ingest.lean ====
section
/-! DEFINITION. The sensor ports, the frame parser, the stream bindings and what the hubs inject
(11_ingest.md R276-R296, R304-R306; 12_varnish.md R308, R311, R312). -/

namespace Sys2Proof.Machine

open Sys2Proof.Crypto (crc32)

/-- The hub of a port runs (R479). -/
def State.ingestOn (s : State) (p : Nat) : Bool :=
  s.isReady && !s.power.rest && !s.power.hubOff.contains (hubCode p)

/-- A port's event, once in an epoch for each cause (R279, R289, R292). -/
def State.portOnce (s : State) (p cause data : Nat) : State :=
  if (s.port p).raised.contains cause then s
  else (s.modPort p fun x => { x with raised := x.raised ++ [cause] }).postEvent (192 + p) cause data

/-- Epochs below this are closed at the port (R292). -/
def State.portClosed (s : State) (p : Nat) : Nat := max (s.port p).closedTo s.writer.firstK

/-! ## The link (R276, R278) -/

/-- The bindings of a port. -/
def State.portBinds (s : State) (p : Nat) : List (Nat × Binding) :=
  s.ingest.binds.filter fun e => e.1 / 256 == p

/-- A frame may be arriving: it goes on under what stands now (R276, R305). -/
def State.snapshot (s : State) (p : Nat) : State :=
  if (s.port p).up then
    let l := s.portBinds p
    s.modPort p fun x => { x with old := { cfg := x.cfg, downs := x.downs, binds := l } :: x.old }
  else s

/-- The port goes down (R278). -/
def State.portDown (s : State) (p : Nat) : State :=
  let s := s.modPort p fun x => { x with up := false, downs := x.downs + 1 }
  (s.portBump p .linkDownCount).postEvent (192 + p) 0x02

/-- SENSOR_LINK_UP (R278): lock has held for 1 ms. -/
def execSensorLinkUp (p : Fin 64) (s : State) : Host.Outcome State Fault Refusal :=
  let x := s.port p.val
  if x.up || x.cfg.mode == .off || !s.ingestOn p.val then .next s
  else
    let s := s.elapse 1000000
    .next ((s.modPort p.val fun x => { x with up := true, srcs := [], old := [] }).postEvent (192 + p.val) 0x01)

/-- SENSOR_LINK_DOWN (R278). -/
def execSensorLinkDown (p : Fin 64) (s : State) : Host.Outcome State Fault Refusal :=
  if (s.port p.val).up then .next ((s.modPort p.val fun x => { x with old := [] }).portDown p.val)
  else .next s

/-- SENSOR_PORT_CONFIG (R276). -/
def execSensorPortConfig (r : Fin 64) (d : Desc) (b : HostBuf) (s : State) :
    Host.Outcome State Fault Refusal :=
  let rows := [rowEnum 3, rowEnum 2, rowEnum 3, rowEnum 2, rowNat 0 (2 ^ 48 - 1), rowEnum 2,
    rowNat 0 (2 ^ 32 - 1), PRow.mk (fun v => decide (v < 2 ^ 128)) true, rowNat 0x600 0xFFFF, rowNat 1 65535,
    rowNat 1 65535, rowTime 10000 100000000 1000]
  let p := params rows d b
  let n := d.target.toNat
  let o := (s.port n).cfg
  let mode : PortMode := match p.get 1 with
    | some 0 => .off
    | some 1 => .native
    | some _ => .ethernet
    | none => o.mode
  let cfg : PortCfg :=
    { mode := mode, rate25 := p.val 2 (b2n o.rate25) == 1, fec := p.val 3 o.fec
      polarity := p.val 4 (b2n o.polarity) == 1, mac := p.val 5 o.mac, group := p.val 6 (b2n o.group) == 1
      ipv4 := p.val 7 o.ipv4, ipv6 := p.val 8 o.ipv6, etype := p.val 9 o.etype, udp := p.val 10 o.udp
      thresh := p.val 11 o.thresh, lag := p.val 12 o.lag }
  let lens := s.writer.len :: match s.writer.req with
    | some (.length _ n) => [n]
    | some (.start _ _ (some n)) => [n]
    | _ => []
  let bad :=
    (if cfg.fec == 2 && !cfg.rate25 then [p.index (if (p.get 3).isSome then 3 else 2)] else []) ++
    (if (p.get 12).isSome && lens.any fun l => decide (l ≤ cfg.lag) then [p.index 12] else [])
  let c : CmdSpec :=
    { op := 0x0301, target := decide (n < 64), input := true, range := recLen d ++ p.bad ++ bad }
  .next (s.hostCmd r d b c fun _ s =>
    let s := (s.snapshot n).modPort n fun x => { x with cfg := cfg }
    (if mode == .off && (s.port n).up then s.portDown n else s).finish r.val d)

/-! ## Parsing (R280-R286) -/

/-- How the walk of a frame ends early: discarded under a counter, or sent to the exception queue
with a reason. -/
inductive Stray where
  | drop (c : PortCtr)
  | queue (reason : Nat)
  deriving DecidableEq, Repr

/-- A record of a field frame (R285). -/
structure FieldRec where
  stream : Nat
  fmt    : Nat
  tvalid : Bool
  nsamp  : Nat
  tFirst : BitVec 64
  data   : List Byte
  deriving DecidableEq, Repr

/-- A field frame or sub-frame; a record that is skipped (FMT_BAD) is none. -/
structure SubFrame where
  src  : Nat
  seq  : Nat
  recs : List (Option FieldRec)
  deriving DecidableEq, Repr

/-- A big-endian number in a frame. -/
def beAt (l : List Byte) (o n : Nat) : Nat := ofBE (bytesAt l o n)

/-- Bytes of a sample (R286); none for a reserved format. -/
def sampleSize : Nat → Option Nat
  | 0 => some 2
  | 1 => some 3
  | 2 => some 4
  | 3 => some 4
  | _ => none

/-- RLEN agrees with NSAMP and FMT (R285); a reserved format has no size to agree with. -/
def rlenOk (nsamp rlen : Nat) (size : Option Nat) : Bool :=
  if nsamp = 0 then rlen == 16
  else match size with
    | some k => rlen == 16 + (nsamp * k + 3) / 4 * 4
    | none => decide (16 ≤ rlen)

/-- The records of a frame (R282, R285). -/
def walkRecs : Nat → List Byte → Except Stray (List (Option FieldRec))
  | 0, _ => .error (.drop .lenConflict)
  | fuel + 1, l =>
    if l.isEmpty then .ok []
    else if l.length < 16 then .error (.drop .lenConflict)
    else
      let b1 := beAt l 1 1
      let nsamp := beAt l 2 2
      let rlen := beAt l 4 2
      let size := sampleSize (b1 % 16)
      if !rlenOk nsamp rlen size || decide (l.length < rlen) then .error (.drop .lenConflict)
      else
        match walkRecs fuel (l.drop rlen) with
        | .error e => .error e
        | .ok rest =>
          let skip := nsamp == 0 || size.isNone || decide (32 ≤ b1) || beAt l 6 2 != 0
          let x : FieldRec :=
            { stream := beAt l 0 1, fmt := b1 % 16, tvalid := b1.testBit 4, nsamp := nsamp
              tFirst := BitVec.ofNat 64 (beAt l 8 8), data := (l.take rlen).drop 16 }
          .ok ((if skip then none else some x) :: rest)

/-- KIND of a field header: DATA or NEST; none is FIELD_BAD (R283). -/
def fieldKind (l : List Byte) : Option Bool :=
  let b := beAt l 0 1
  if b / 16 = 1 && b % 16 ≤ 1 && beAt l 1 1 == 0 then some (b % 16 == 1) else none

/-- The sub-frames of a NEST frame (R284). -/
def walkSubs : Nat → List Byte → Except Stray (List SubFrame)
  | 0, _ => .error (.drop .lenConflict)
  | fuel + 1, l =>
    if l.isEmpty then .ok []
    else if l.length < 8 then .error (.drop .lenConflict)
    else match fieldKind l with
      | none => .error (.drop .fieldBad)
      | some true => .error (.queue 0x06)
      | some false =>
        let n := beAt l 2 2
        if n < 8 || l.length < n then .error (.drop .lenConflict)
        else match walkRecs (n + 1) ((l.take n).drop 8), walkSubs fuel (l.drop n) with
          | .error e, _ => .error e
          | _, .error e => .error e
          | .ok rs, .ok rest => .ok ({ src := beAt l 4 2, seq := beAt l 6 2, recs := rs } :: rest)

/-- The field frame on a carrier of so many bytes; `long` is a frame above the minimum length
(R282-R284). -/
def walkField (l : List Byte) (avail : Nat) (long : Bool) : Except Stray (List SubFrame) :=
  match fieldKind l with
  | none => .error (.drop .fieldBad)
  | some nest =>
    let n := beAt l 2 2
    if n < 8 || avail < n || (n < avail && long) then .error (.drop .lenConflict)
    else
      let body := (bytesAt l 0 n).drop 8
      if nest then walkSubs (n + 1) body
      else (walkRecs (n + 1) body).map fun rs => [{ src := beAt l 4 2, seq := beAt l 6 2, recs := rs }]

/-- The ones' complement sum of the 16-bit words of some bytes, folded to 16 bits. -/
def sum16 (l : List Byte) : Nat :=
  let t := ((List.range ((l.length + 1) / 2)).map fun i => beAt l (2 * i) 2).sum
  let f := fun (t : Nat) => t % 65536 + t / 65536
  f (f (f t))

/-- UDP (R280, R282): `ip` is the IP payload, `plen` its length, `pseudo` the addresses. -/
def walkUdp (cfg : PortCfg) (ip : List Byte) (plen : Nat) (pseudo : List Byte) (v6 long : Bool) :
    Except Stray (List SubFrame) :=
  let n := beAt ip 4 2
  let ck := beAt ip 6 2
  let whole := pseudo ++ beBytes 4 n ++ beBytes 4 17 ++ bytesAt ip 0 n
  if beAt ip 2 2 != cfg.udp then .error (.drop .notField)
  else if n != plen then .error (.drop .lenConflict)
  else if (if ck = 0 then v6 else sum16 whole != 0xFFFF) then .error (.drop .udpCsum)
  else walkField (ip.drop 8) (n - 8) long

/-- The bytes after the EtherType hold an IP packet of `total` bytes (R282). -/
def ipConflict (total avail : Nat) (long : Bool) : Bool :=
  decide (avail < total) || (decide (total < avail) && long)

/-- IPv4 (R280): what goes further than the parser follows, then what is not for the port. -/
def walkIpv4 (cfg : PortCfg) (l : List Byte) (long : Bool) : Except Stray (List SubFrame) :=
  let ihl := beAt l 0 1 % 16
  let frag := beAt l 6 2 % 16384
  let total := beAt l 2 2
  if 5 < ihl then .error (.queue 0x02)
  else if ihl < 5 then .error (.drop .notField)
  else if frag != 0 then .error (.queue 0x03)
  else if beAt l 9 1 != 17 then .error (.queue 0x04)
  else if sum16 (bytesAt l 0 20) != 0xFFFF then .error (.drop .ipCsum)
  else if cfg.ipv4 != 0 && beAt l 16 4 != cfg.ipv4 then .error (.drop .notField)
  else if ipConflict total l.length long then .error (.drop .lenConflict)
  else walkUdp cfg (l.drop 20) (total - 20) (bytesAt l 12 8) false long

/-- IPv6 (R280). -/
def walkIpv6 (cfg : PortCfg) (l : List Byte) (long : Bool) : Except Stray (List SubFrame) :=
  let plen := beAt l 4 2
  if beAt l 6 1 != 17 then .error (.queue 0x05)
  else if cfg.ipv6 != 0 && beAt l 24 16 != cfg.ipv6 then .error (.drop .notField)
  else if ipConflict (plen + 40) l.length long then .error (.drop .lenConflict)
  else walkUdp cfg (l.drop 40) plen (bytesAt l 8 32) true long

/-- The IEEE 802.1Q tags from an offset: the offset of the EtherType; none at a third tag. -/
def skipTags (l : List Byte) : Nat → Nat → Option Nat
  | fuel, o =>
    let t := beAt l o 2
    if t = 0x8100 || t = 0x88A8 then
      match fuel with
      | 0 => none
      | k + 1 => skipTags l k (o + 4)
    else some o

/-- The layers of an accepted frame (R280, R284). -/
def walkFrame (cfg : PortCfg) (frame : List Byte) : Except Stray (List SubFrame) :=
  let l := frame.take (frame.length - 4)
  if cfg.mode == .ethernet then
    let long := decide (64 < frame.length)
    match skipTags l 2 12 with
    | none => .error (.queue 0x01)
    | some o =>
      let t := beAt l o 2
      let l := l.drop (o + 2)
      if t = cfg.etype then walkField l l.length long
      else if t = 0x0800 then walkIpv4 cfg l long
      else if t = 0x86DD then walkIpv6 cfg l long
      else .error (.drop .notField)
  else walkField l l.length (decide (48 < frame.length))

/-- The checks 1 to 4 of R279: the counter that discards the frame. -/
def frameCheck (cfg : PortCfg) (frame : List Byte) (uncorr : Bool) : Option PortCtr :=
  let n := frame.length
  let eth := cfg.mode == .ethernet
  let da := beAt frame 0 6
  if n < (if eth then 64 else 48) then some .runt
  else if (if eth then 9216 else 4096) < n then some .giant
  else if uncorr || crc32 (frame.take (n - 4)) != leAt frame (n - 4) 4 then some .fcsErr
  else if eth && da != cfg.mac && !(cfg.group && (beAt frame 0 1).testBit 0) then some .daMiss
  else none

/-- The frame errors of a port (R279). -/
def PortCtr.isError : PortCtr → Bool
  | .runt | .giant | .fcsErr | .lenConflict | .fieldBad => true
  | _ => false

/-- A frame is discarded and counted; frame errors that reach the threshold raise the port's event
once in the epoch (R279). -/
def State.dropFrame (s : State) (p : Nat) (c : PortCtr) : State :=
  let s := s.portBump p c
  if !c.isError then s
  else
    let s := s.modPort p fun x => { x with errs := x.errs + 1 }
    if (s.port p).cfg.thresh ≤ (s.port p).errs then s.portOnce p 0x03 0 else s

/-- A frame goes to the hub's exception queue (R281). -/
def State.queueFrame (s : State) (p reason : Nat) (frame : List Byte) : State :=
  let q := s.ingest.exq.get [] (p / 8)
  if 64 ≤ q.length then s.portBump p .exqDrop
  else
    let e : ExqEntry := { port := p, reason := reason, time := s.time.t64, frame := frame }
    let s := (s.modIngest fun x => { x with exq := x.exq.set [] (p / 8) (q ++ [e]) }).portBump p .exqFrames
    if q.isEmpty then
      let s := s.postEvent (192 + p) 0x04
      { s with steward := { s.steward with evPend := s.steward.evPend ||| 0x20#7 } }
    else s

/-! ## Blocks (R288-R293) -/

/-- A sample in binary32 (R290). -/
def convert (fmt : Nat) (scale offset : Nat) (l : List Byte) : Nat :=
  let f := Fmt.b32
  let v := sext (8 * l.length) (ofLE l)
  let x : FVal := if fmt = 3 then f.decode (ofLE l)
    else if v = 0 then .zero false else .fin (decide (v < 0)) v.natAbs 0
  let y := f.decode scale
  let w := f.decode offset
  if x.isNan || y.isNan || w.isNan then f.nan
  else match mulV x y with
    | none => f.nan
    | some p => (f.addV 0 p w).1

/-- A NaN or an infinity. -/
def notFinite (v : Nat) : Bool := v / 2 ^ 23 % 256 == 255

/-- Samples are gathered into blocks of `n` (R289): the finished blocks, each with its time and
whether it holds a value that is not finite, and the part left over. -/
def gather (n : Nat) : List (Nat × BitVec 64) → List Word → Bool → BitVec 64 →
    List (List Word × Bool × BitVec 64) × (List Word × Bool × BitVec 64)
  | [], part, bad, t => ([], (part, bad, t))
  | (v, u) :: l, part, bad, t =>
    let t := if part.isEmpty then u else t
    let part := part ++ [BitVec.ofNat 32 v]
    let bad := bad || notFinite v
    if part.length = n then
      let r := gather n l [] false 0
      ((part, bad, t) :: r.1, r.2)
    else gather n l part bad t

/-- A time later by `n` sample periods (R291). -/
def after (t : BitVec 64) (n speriod : Nat) : BitVec 64 :=
  t + BitVec.ofNat 64 (roundDiv (n * speriod : Nat) 256).toNat

/-- The record does not follow on the one before in time (R289). -/
def strayTime (prev : BitVec 64 × Nat) (t : BitVec 64) (speriod : Nat) : Bool :=
  let gap : Int := 512 * (t - prev.1).toInt - 2 * (prev.2 * speriod : Nat)
  decide (speriod < gap.natAbs)

/-- A converted block of an ACTIVE binding (R290, R292, R308, R316). -/
def State.newBlock (s : State) (b : Nat) (words : List Word) (bad : Bool) (t : BitVec 64) : State :=
  let bd := s.binding b
  let p := b / 256
  let s := if bad then s.bindBump b .convErr else s
  if s.writer.st == .stopped then s.bindBump b .noEpoch
  else
    match s.writer.epochOf t with
    | none => (s.portBump p .lateBlock).portOnce p 0x06 b
    | some k =>
      let due := s.writer.tb (k + 1) + BitVec.ofNat 64 (s.port p).cfg.lag
      if s.writer.beyond k then s.bindBump b .noEpoch
      else if k < s.portClosed p || !laterT due s.time.t64 || s.writer.k + 2 < k then
        ((s.portBump p .lateBlock).gapNotice k 0x06 bd.ctx bd.gen b 1).portOnce p 0x06 b
      else
        let s := if bd.cls ≤ 1 then s.overtake k bd.ctx bd.gen else s
        s.admitBlock
          { binding := b, ctx := bd.ctx, gen := bd.gen, cell := bd.cell, node := bd.node, cls := bd.cls
            blen := bd.blen, mono := bd.mono, iter := 0, words := words, bad := bad, epoch := k
            stamp := if bd.stamp then some (s.stampOf b bd t) else none, hist := bd.hist }

/-- A record that does not adjoin ends the partial block (R289). -/
def State.breakBlock (s : State) (b : Nat) : State :=
  let bd := s.binding b
  let s := s.bindBump b .srcGap
  let s := match bd.part.isEmpty || s.writer.st == .stopped, s.writer.epochOf bd.partT with
    | false, some k => s.gapNotice k 0x05 bd.ctx bd.gen b 1
    | _, _ => s
  (s.modBinding b fun x => { x with part := [], partBad := false, partT := 0 }).portOnce (b / 256) 0x05 b

/-- A binding made while an epoch of its context was being dropped has no effect until the next boundary
(R102). -/
def State.early (s : State) (b : Binding) : Bool :=
  s.writer.st == .running && decide (s.writer.k < b.since)

/-- A record of a stream (R285, R288-R291); `gap` says that its frame followed a SEQ gap. -/
def State.takeRec (s : State) (p : Nat) (gap : Bool) (r : FieldRec) : State :=
  let b := 256 * p + r.stream
  let bd := s.binding b
  match (if s.early bd then BindSt.unbound else bd.st) with
  | .unbound => s.portBump p .noBinding
  | .inactive =>
    let n := bd.fill + r.nsamp
    (s.modBinding b fun x => { x with fill := n % 2 ^ bd.blen }).bindBump b .inactiveDrop (n / 2 ^ bd.blen)
  | .active =>
    let arrival := bd.arrival || !r.tvalid
    let s := if !bd.arrival && !r.tvalid then s.bindBump b .tMissing else s
    let span := BitVec.ofNat 64 (roundDiv ((r.nsamp - 1) * bd.speriod : Nat) 256).toNat
    let t := if arrival then s.time.t64 - BitVec.ofNat 64 bd.arrOffset - span else r.tFirst
    let broken := match bd.prev with
      | none => false
      | some pv => gap || bd.prevDowns != (s.port p).downs || (!arrival && strayTime pv t bd.speriod)
    let s := if broken then s.breakBlock b else s
    let bd := s.binding b
    let size := (sampleSize r.fmt).getD 1
    let samples := (List.range r.nsamp).map fun i =>
      (convert r.fmt bd.scale bd.offset (bytesAt r.data (size * i) size), after t i bd.speriod)
    let g := gather (2 ^ bd.blen) samples bd.part bd.partBad bd.partT
    let downs := (s.port p).downs
    let s := s.modBinding b fun x => { x with
      part := g.2.1, partBad := g.2.2.1, partT := if g.2.1.isEmpty then 0 else g.2.2.2
      prev := some (t, r.nsamp), prevDowns := downs }
    g.1.foldl (fun s k => s.newBlock b k.1 k.2.1 k.2.2) s

/-- SEQ of a frame (R287): whether it is taken, and whether it follows a gap. -/
def State.takeSeq (s : State) (p : Nat) (f : SubFrame) : State × Bool × Bool :=
  let l := (s.port p).srcs
  let put := fun (s : State) =>
    s.modPort p fun x => { x with srcs := (x.srcs.filter fun e => e.1 != f.src) ++ [(f.src, f.seq)] }
  match l.find? fun e => e.1 == f.src with
  | none => if 64 ≤ l.length then (s.portBump p .srcTableFull, true, false) else (put s, true, false)
  | some (_, last) =>
    if !later 16 f.seq last then (s.portBump p .seqStale, false, false)
    else if f.seq = (last + 1) % 65536 then (put s, true, false)
    else ((put s).portBump p .seqGap, true, true)

/-- The records of a frame in order; a gap breaks the first record of each stream (R287, R305). -/
def State.takeRecs (p : Nat) (gap : Bool) : List (Option FieldRec) → List Nat → State → State
  | [], _, s => s
  | none :: l, seen, s => State.takeRecs p gap l seen (s.portBump p .fmtBad)
  | some r :: l, seen, s =>
    State.takeRecs p gap l (r.stream :: seen) (s.takeRec p (gap && !seen.contains r.stream) r)

/-- A frame is checked, parsed and taken under the parameters and bindings that stand (R279-R293). -/
def State.takeFrame (s : State) (p : Nat) (frame : List Byte) (uncorr : Bool) : State :=
  let cfg := (s.port p).cfg
  match frameCheck cfg frame uncorr with
  | some c => s.dropFrame p c
  | none =>
    let s := (s.portBump p .rxFrames).portBump p .rxBytes frame.length
    match walkFrame cfg frame with
    | .error (.drop c) => s.dropFrame p c
    | .error (.queue r) => s.queueFrame p r frame
    | .ok subs => subs.foldl (fun s f =>
      let q := s.takeSeq p f
      if q.2.1 then State.takeRecs p q.2.2 f.recs [] q.1 else q.1) s

/-- What a binding says apart from the stream that runs through it. -/
def Binding.terms (b : Binding) : Binding :=
  { b with part := [], partBad := false, partT := 0, prev := none, prevDowns := 0, fill := 0
           bellNext := 0, iter := 0 }

/-- A binding of a snapshot: a context released since is not fed any more (R305). -/
def State.recall (s : State) (b : Binding) : Binding :=
  let x := s.ctxOf b.ctx
  if b.st == .active && !(x.st == .live && x.gen == b.gen) then
    { b with st := .inactive, part := [], partBad := false }
  else b

/-- The bindings of a port put in place of what stands. -/
def State.putBinds (s : State) (p : Nat) (l : List (Nat × Binding)) : State :=
  s.modIngest fun x => { x with
    binds := l.foldl (fun t e => t.set {} e.1 e.2) (x.binds.filter fun e => e.1 / 256 != p) }

/-- A frame that began before a change is handled wholly under what stood then; the change takes
effect at its end, where the blocks that a changed binding still holds are discarded (R276, R305). -/
def State.takeOld (s : State) (p : Nat) (snap : PortSnap) (frame : List Byte) (uncorr : Bool) : State :=
  let x := s.port p
  let cur := s.portBinds p
  let old := snap.binds.map fun e =>
    let o := s.recall e.2
    let c := Tab.get {} cur e.1
    (e.1, if c.terms = o.terms then c else { o with bellNext := c.bellNext })
  let changed := ((cur ++ old).map (·.1)).eraseDups.filter fun b =>
    (Tab.get ({} : Binding) cur b).terms != (Tab.get {} old b).terms
  let s := ((s.modPort p fun x => { x with cfg := snap.cfg, downs := snap.downs }).putBinds p old).takeFrame p frame uncorr
  let kept := (s.portBinds p).filter fun e => !changed.contains e.1
  let s := (s.modPort p fun y => { y with cfg := x.cfg, downs := x.downs }).putBinds p
    (kept ++ cur.filter fun e => changed.contains e.1)
  let gone := fun (k : Block) => changed.contains k.binding
  let lost := s.ingest.hold.flatMap fun e => e.2.filter gone
  let s := s.modIngest fun x => { x with
    hold := (x.hold.mapV fun l => l.filter fun k => !gone k).keep fun _ l => l != [] }
  lost.foldl (fun s k => s.bindBump k.binding .inactiveDrop) s

/-- FRAME_RECEIVED (R279-R293, R305): a frame has arrived whole; `back` changes of its port came
after its first byte.  `corr` and `uncorr` count the FEC blocks corrected and not (R277). -/
def execFrameReceived (p : Fin 64) (back : Nat) (frame : List Byte) (corr uncorr : BitVec 16)
    (s : State) : Host.Outcome State Fault Refusal :=
  let x := s.port p.val
  let snap := if back = 0 then none else x.old[back - 1]?
  if !s.ingestOn p.val || (if back = 0 then !x.up else snap.isNone) then .next s
  else
    let s := (s.portBump p.val .fecCorr corr.toNat).portBump p.val .fecUncorr uncorr.toNat
    let bad := uncorr != 0
    let s := match snap with
      | none => s.takeFrame p.val frame bad
      | some o => s.takeOld p.val o frame bad
    .next (s.modPort p.val fun x => { x with old := [] })

/-! ## Injection (R295, R296, R311, R312) -/

/-- A token of a stream: `port` 0 is A, 1 is B. -/
def streamTag (cell node port ctx gen iter cls : Nat) (epar : Bool) (len : Nat) (flags : BitVec 5) : Tag :=
  { dest := BitVec.ofNat 8 cell, esel := BitVec.ofNat 16 (4 * node + port), ctx := BitVec.ofNat 17 ctx
    gen := BitVec.ofNat 4 gen, iter := BitVec.ofNat 8 iter, cls := BitVec.ofNat 2 cls, epar := epar
    len := BitVec.ofNat 3 len, flags := flags }

/-- The data token and the stamp token of a block, for one of the contexts it feeds (R27, R296). -/
def Block.toTokens (k : Block) (ctx gen cell : Nat) : List Token :=
  let epar := k.epoch % 2 == 1
  let tag := fun (port len : Nat) (mono : Bool) =>
    streamTag cell k.node port ctx gen k.iter k.cls epar len (mkFlags k.bad false false mono)
  { tag := tag 0 k.blen k.mono, payload := k.words } ::
  match k.stamp with
  | some w => [{ tag := tag 1 3 false, payload := w }]
  | none => []

/-- A token leaves a hub on one credit (R80). -/
def State.hubSend (s : State) (code : Nat) (t : Token) : State :=
  (s.spendHub code t.tag.ctx.toNat t.tag.gen.toNat).offerToken code t

/-- The history append of a block (R295). -/
def State.appendHist (s : State) (code : Nat) (k : Block) (t : Token) : State :=
  if k.hist = 0xFFFF then s
  else
    let tag := { t.tag with dest := BitVec.ofNat 8 (0x80 + k.hist / 4096), esel := BitVec.ofNat 16 k.hist }
    s.offerToken code { t with tag := tag }

/-- BLOCK_EMIT (R295, R296): the oldest block of a port is emitted when its hub holds credit. -/
def execBlockEmit (p : Fin 64) (s : State) : Host.Outcome State Fault Refusal :=
  let code := hubCode p.val
  match (s.port p.val).wait with
  | [] => .next s
  | k :: rest =>
    let l := s.twins k.binding k.ctx k.gen k.cell
    if !s.hasCredit code k.tokens l then .next (s.askTwins code k.tokens l)
    else
      let s := s.modPort p.val fun x => { x with wait := rest }
      let s := l.foldl (fun s t =>
        (k.toTokens t.1 t.2.1 t.2.2).foldl (fun s x => s.hubSend code x) s) s
      let s := match k.toTokens k.ctx k.gen k.cell with
        | t :: _ => s.appendHist code k t
        | [] => s
      let s := s.bindBump k.binding .blocks
      .next (l.foldl (fun s t => s.hubLeave code t.1 t.2.1) s)

/-- PORT_EPOCH_CLOSE (R292): T64 reaches the end of the port's next epoch plus PORT_LAG. -/
def execPortEpochClose (p : Fin 64) (s : State) : Host.Outcome State Fault Refusal :=
  let k := s.portClosed p.val
  if s.writer.st == .stopped || s.writer.beyond k || s.writer.k < k then .next s
  else
    let s := s.reachT64 ((s.writer.tb (k + 1)).toNat + (s.port p.val).cfg.lag)
    .next (s.modPort p.val fun x => { x with closedTo := k + 1 })

/-- The bells that close epoch `k` for one context (R37, R311). -/
def bellTokens (b : Binding) (k ctx gen cell : Nat) : List Token :=
  let words := [BitVec.ofNat 32 k, BitVec.ofNat 32 (k / 2 ^ 32 % 2 ^ 16)]
  let tag := fun (port : Nat) (mono : Bool) =>
    streamTag cell b.node port ctx gen 0 b.cls (k % 2 == 1) 1 (mkFlags false true false mono)
  { tag := tag 0 b.mono, payload := words } ::
  if b.stamp then [{ tag := tag 1 false, payload := words }] else []

/-- The next epoch whose bells a binding gets. -/
def State.bellEpoch (s : State) (b : Nat) : Nat :=
  max (max (s.binding b).bellNext (s.binding b).since) s.writer.firstK

/-- The conditions of R312 hold for a binding. -/
def State.bellDue (s : State) (b : Nat) : Bool :=
  let bd := s.binding b
  let k := s.bellEpoch b
  let mine := fun (x : Block) => x.binding == b && x.epoch == k
  bd.st == .active && s.writer.st == .running && decide (k < s.portClosed (b / 256)) &&
  !((s.port (b / 256)).wait.any mine) && !((s.ingest.hold.get [] (b / 2048)).any mine) &&
  s.writer.mayBell k bd.ctx bd.gen

/-- BELL_INJECT (R311, R312): a hub injects the bells of a binding's next epoch. -/
def execBellInject (b : Fin 16384) (s : State) : Host.Outcome State Fault Refusal :=
  let bd := s.binding b.val
  let code := hubCode (b.val / 256)
  if !s.bellDue b.val then .next s
  else
    let l := s.twins b.val bd.ctx bd.gen bd.cell
    let n := if bd.stamp then 2 else 1
    if !s.hasCredit code n l then .next (s.askTwins code n l)
    else
      let k := s.bellEpoch b.val
      let s := s.modBinding b.val fun x => { x with bellNext := k + 1 }
      .next (l.foldl (fun s t =>
        (bellTokens bd k t.1 t.2.1 t.2.2).foldl (fun s x => s.hubSend code x) s) s)

/-! ## Binding (R288, R294, R95) -/

/-- The sum of two fractions. -/
def addFrac (a b : Nat × Nat) : Nat × Nat := (a.1 * b.2 + b.1 * a.2, a.2 * b.2)

/-- Blocks per nanosecond of a binding. -/
def Binding.rate (b : Binding) : Nat × Nat := (256, b.speriod * 2 ^ b.blen)

/-- Transaction units per nanosecond (R294); an audited binding counts twice (R438). -/
def State.unitRate (s : State) (b : Binding) : Nat × Nat :=
  let data := if b.blen = 4 then 3 else 2
  let u := data + 2 * b2n b.stamp + if b.hist = 0xFFFF then 0 else data
  let twice := match s.graph (s.lifeGraph b.ctx b.gen) with
    | some g => g.audit
    | none => false
  let r := b.rate
  (r.1 * u * if twice then 2 else 1, r.2)

/-- With this binding a hub's declared rates exceed their limit (R294). -/
def State.hubFull (s : State) (n : Nat) (b : Binding) : Bool :=
  let others := s.ingest.binds.filter fun e => e.1 / 2048 == n / 2048 && e.1 != n && e.2.st != .unbound
  let t := others.foldl (fun a e => addFrac a (s.unitRate e.2)) (s.unitRate b)
  decide (t.2 < t.1)

/-- With this binding a class 0 or 1 partition gets more blocks per slot frame than it declares
(R95, R288). -/
def State.partFull (s : State) (n : Nat) (b : Binding) (g : GraphBody) : Bool :=
  let part := (g.feed n).1
  let declared := match g.parts[part]? with
    | some p => p.rate
    | none => 0
  let mine := s.ingest.binds.filter fun e =>
    e.1 != n && e.2.st == .active && e.2.ctx == b.ctx && e.2.gen == b.gen && (g.feed e.1).1 == part
  let t := mine.foldl (fun a e => addFrac a e.2.rate) b.rate
  decide (declared * t.2 < 1600 * t.1)

/-- BIND_STREAM (R288, R91, R95, R294). -/
def execBindStream (r : Fin 64) (d : Desc) (hb : HostBuf) (s : State) : Host.Outcome State Fault Refusal :=
  let sizes := [4, 4, 4, 4, 4, 2, 1, 1, 1, 1, 1]
  let a := d.arg sizes
  let n := d.target.toNat
  let c := a 0
  let x := s.ctxOf c
  let g := if x.st == .live then s.graph (s.lifeGraph c x.gen) else none
  let (part, node) := match g with
    | some g => g.feed n
    | none => (0, 0)
  let b : Binding :=
    { st := .active, ctx := c, gen := x.gen, cell := x.place.getD part 0, node := node, cls := x.cls
      blen := a 6, stamp := a 7 == 1, mono := a 8 == 1, scale := a 1, offset := a 2, speriod := a 3
      arrival := a 9 == 1, arrOffset := a 4, tach := a 10, hist := a 5, bellNext := s.portClosed (n / 256)
      since := if s.writer.st == .running && (s.ingest.dropped c x.gen s.writer.k).isSome
        then s.writer.k + 1 else 0
      made := s.ingest.bindSeq + 1 }
  let noTach := a 10 != 0x7F && (decide (63 < a 10) || (s.evinAt (a 10)).mode != .tach)
  let range := (if decide (2 ^ 17 ≤ c) then [32] else []) ++ (if a 3 = 0 then [44] else []) ++
    (if 4 < a 6 then [54] else []) ++ (if 1 < a 7 then [55] else []) ++
    (if decide (1 < a 8) || (a 8 == 1 && a 7 == 1) then [56] else []) ++ (if 1 < a 9 then [57] else []) ++
    (if noTach then [58] else [])
  let guar := match g with
    | some g => decide (x.cls ≤ 1) && s.partFull n b g
    | none => false
  let cs : CmdSpec :=
    { op := 0x0201, sizes := sizes, target := decide (n < 16384), range := range
      presence := x.st == .live && x.cls == 0
      fails := [(eState, x.st != .live || x.shadow || (s.binding n).st == .active), (eGuar, guar),
        (eNoRes, s.hubFull n b)] }
  .next (s.hostCmd r d hb cs fun _ s =>
    let s := (((s.snapshot (n / 256)).unnamed (s.binding n)).modBinding n fun _ => b).named b
    let s := s.modIngest fun x => { x with bindSeq := b.made }
    let code := hubCode (n / 256)
    (s.askTwins code 1 (s.twins n c x.gen b.cell)).finish r.val d)

/-- UNBIND_STREAM (R288, R305). -/
def execUnbindStream (r : Fin 64) (d : Desc) (hb : HostBuf) (s : State) : Host.Outcome State Fault Refusal :=
  let n := d.target.toNat
  let b := s.binding n
  let c : CmdSpec :=
    { op := 0x0202, target := decide (n < 16384), fails := [(eState, b.st == .unbound)]
      presence := b.st != .unbound && b.cls == 0 }
  .next (s.hostCmd r d hb c fun _ s =>
    let s := s.snapshot (n / 256)
    let h := n / 2048
    let mine := (s.ingest.hold.get [] h).filter fun k => k.binding == n
    let s := s.modIngest fun y => { y with
      binds := y.binds.del n, hold := y.hold.upd [] h fun l => l.filter fun k => k.binding != n }
    let s := (s.bindBump n .inactiveDrop mine.length).unnamed b
    let s := (s.twins n b.ctx b.gen b.cell).foldl (fun s t => s.hubLeave (hubCode (n / 256)) t.1 t.2.1) s
    s.finish r.val d)

/-! ## The exception queue (R281) -/

/-- The bytes of an entry (R281). -/
def ExqEntry.bytes (e : ExqEntry) : List Byte :=
  leBytes 1 e.port ++ leBytes 1 e.reason ++ leBytes 2 e.frame.length ++ leBytes 4 0 ++
  leBytes 8 e.time.toNat ++ List.replicate 16 0#8 ++ e.frame

/-- EXQ_READ (R281, R398). -/
def execExqRead (r : Fin 64) (d : Desc) (b : HostBuf) (s : State) : Host.Outcome State Fault Refusal :=
  let h := d.target.toNat
  let count := d.arg [1, 1] 0
  let l := (s.ingest.exq.get [] h).take count
  let out := l.flatMap ExqEntry.bytes
  let c : CmdSpec :=
    { op := 0x0403, sizes := [1, 1], target := decide (h < 8), need := out.length
      range := if 1 < d.arg [1, 1] 1 then [33] else [] }
  .next (s.hostCmd r d b c fun _ s =>
    let s := if d.arg [1, 1] 1 = 1 then
        s.modIngest fun x => { x with exq := x.exq.upd [] h fun q => q.drop count }
      else s
    s.finish r.val d stOk l.length out)

end Sys2Proof.Machine
end

