-- ==== Sys2Proof/Machine/Writer.lean ====
section
/-! DEFINITION. The epochs and the result writer (12_varnish.md R307-R332, 16_watch.md R438-R440,
15_host.md R388): boundaries, bells, results, varnish, reports, settlement. -/

namespace Sys2Proof.Machine

/-! ## A new epoch (R309, R310) -/

/-- The members of an epoch that begins: LIVE contexts whose graph has sinks, shadows apart (R310,
R438). -/
def State.newMembers (s : State) : List Member :=
  s.reeve.ctx.filterMap fun e =>
    let x := e.2
    match s.graph x.graph with
    | some g =>
      if x.st == .live && !x.shadow && g.nsink != 0 then
        some { ctx := e.1, gen := x.gen, graph := x.graph, nsink := g.nsink.toNat, bells := 0
               shadowBells := 0, shadow := x.partner, judging := false, closed := false
               abandoned := false, gone := false, late := 0 }
      else none
    | none => none

/-- What may be raised once in an epoch may be raised again. -/
def State.clearOnce (s : State) : State :=
  let s := { s with cells := s.cells.remap {} fun c =>
    { c with pal := { c.pal with raised := [] }, excRaised := [] } }
  let s := s.modFabric fun f => { f with
    resp := f.resp.remap {} fun r => { r with badRaised := false, toRaised := false } }
  let s := s.modReeve fun x => { x with
    danger := x.danger.remap {} fun d => { d with raised := false, left := 0 } }
  let s := s.modIngest fun x => { x with
    ports := x.ports.remap {} fun p => { p with errs := 0, raised := [] }
    evin := x.evin.remap {} fun e => { e with pprRaised := false } }
  s.modAct fun x => { x with
    evRaised := []
    ports := x.ports.remap {} fun p => { p with errs := 0, errRaised := false } }

/-- A context with a bound stream that a cell affects (R98). -/
def State.affected (s : State) (n cls : Nat) : List (Nat × Nat) :=
  (s.reeve.ctx.filter fun e =>
    let x := e.2
    x.st == .live && x.cls == cls && x.cells.contains n &&
    s.ingest.binds.any fun b => b.2.st == .active && b.2.ctx == e.1 && b.2.gen == x.gen).map
      fun e => (e.1, e.2.gen)

/-- The starting epoch is dropped for a context that yields to cell `n` (R99); of several cells that affect it
the lowest raises its event (log 272). -/
def State.yieldTo (s : State) (n k : Nat) (c : Nat × Nat) : State :=
  if (s.ingest.dropped c.1 c.2 k).isSome || s.ingest.begun.contains (c.1, c.2, k) then s
  else
    let s := (s.dropEpoch c.1 c.2 k .guaranteeYield).reeveBump .guaranteeYield
    if (s.reeve.danger.get {} n).raised then s
    else (s.modDanger n fun x => { x with raised := true }).postEvent (64 + n) 0x36 c.1

/-- The yield state of a cell at an epoch boundary (R98). -/
def State.yieldAt (s : State) (k n : Nat) : State :=
  let x := s.reeve.danger.get {} n
  if x.y < 2 then s
  else if !x.d then s.modDanger n fun x => { x with y := 1, left := x.y }
  else
    let bulk := s.affected n 3
    let mid := s.affected n 2
    let l := if x.y = 3 then bulk ++ mid else if bulk.isEmpty then mid else bulk
    let s := l.foldl (State.yieldTo · n k) s
    s.modDanger n fun x => { x with y := 3, owed := false }

/-- The drops that triggers at the very start of the epoch have brought about (R102). -/
def State.owedYields (s : State) : State :=
  (s.reeve.danger.filter fun e => e.2.owed).foldl (fun s e => s.yieldAt s.writer.k e.1) s

/-! ## Arrivals at a cell (R52), and what triggers danger (R97) -/

/-- A token stands first at the port of its cell: the cell takes it, absorbs it, or leaves it in the
fabric while a buffer is full (R52, R59, R61, R271). -/
def State.tokenComes (s : State) (n src : Nat) (t : Token) (ue : UnitErr) (err odd : MemErr) : State :=
  if s.cutOff n then (s.unitErr ue).absorb src t n
  else
    let ts := s.targets n t
    if t.isG && ts.any fun k => decide (8 ≤ (s.cell k).pal.hold.length) then s.markHeld src t
    else if !t.isG && decide (32 ≤ (s.cell n).pal.wait.length) then (s.holdAtPort n src t).stallCheck
    else
      (ts.foldl (fun s k => s.arrive k (t.after ue) (if k = n then err else odd))
        ((s.unitErr ue).takeFlight src t)).stallCheck

/-- TOKEN_ARRIVAL (R52): a token that is next in its order reaches its cell.  `err.own` is what its memories
find, `err.odd` what those of the odd cell of a class 0 pair find (R69). -/
def execTokenArrival (c : Fin 128) (src : BitVec 8) (t : Token) (ue : UnitErr) (err : MemErrs)
    (s : State) : Host.Outcome State Fault Refusal :=
  if !isForCell t c.val || !s.arrivable src.toNat t then .next s.owedYields
  else .next (s.tokenComes c.val src.toNat t ue err.own err.odd).owedYields

/-- GUARD_WAIT_EXPIRY: a class 0 or 1 firing has waited longer than GUARD_WAIT in the express lane, and
triggers again while it goes on waiting (log 271). -/
def execGuardWaitExpiry (c : Fin 128) (s : State) : Host.Outcome State Fault Refusal :=
  match (s.cell c.val).que.express with
  | [] => .next s
  | q :: _ => .next ((s.reach (q.t + s.reeve.guardWait + 1)).trigger c.val).owedYields

/-! ## The epochs begin -/

/-- Epoch `k` begins (R309, R310, R319, R408). -/
def State.epochBegin (s : State) (k : Nat) : State :=
  let e : EpochRec :=
    { k := k, members := s.newMembers, varnished := false, limit := false, unprotected := s.watch.broken
      results := 0, poisoned := 0 }
  let s := s.modWriter fun w => { w with k := k, epochs := w.epochs ++ [e], next := k % 128 }
  let s := s.modHost fun h => { h with evtNext := k % 128, cplNext := k % 64 }
  let s := s.clearOnce
  let s := s.modIngest fun x => { x with
    drops := x.drops.filter fun d => decide (k < d.2.2.1 + 4)
    begun := x.begun.filter fun d => decide (k < d.2.2 + 4) }
  (s.reeve.danger.map (·.1)).foldl (State.yieldAt · k) s

/-- The epochs start at `t` with index `k` (R308): the hubs close and bell from it on. -/
def State.epochsStart (s : State) (t : BitVec 64) (k len : Nat) : State :=
  let s := s.modWriter fun w => { w with
    st := .running, origin := t, kOrigin := k, len := len, prevLen := len, older := [], req := none, lastK := none
    w := k, firstK := k, epochs := [], stage := []
    gaps := w.gaps.map fun g => { g with late := true }, entries := w.entries.map fun g => { g with late := true } }
  let s := s.modIngest fun x => { x with
    ports := x.ports.remap {} fun p => { p with closedTo := 0 }
    binds := x.binds.remap {} fun b => { b with bellNext := 0, since := 0 }
    drops := [], begun := [] }
  s.epochBegin k

/-- EPOCH_START (R308): T64 reaches START_T64. -/
def execEpochStart (s : State) : Host.Outcome State Fault Refusal :=
  match s.writer.req with
  | some (.start t k len) =>
    let s := s.reachT64 t.toNat
    .next (s.epochsStart t k (len.getD s.writer.len))
  | _ => .next s

/-- EPOCH_BOUNDARY (R308, R309): T64 reaches the end of the epoch in progress. -/
def execEpochBoundary (s : State) : Host.Outcome State Fault Refusal :=
  let w := s.writer
  let k := w.k + 1
  let t := w.tb k
  if w.st == .stopped || w.lastK.isSome then .next s
  else
    let s := s.reachT64 t.toNat
    match w.req with
    | some (.stop u) =>
      if laterT t u then .next (s.modWriter fun w => { w with req := none, lastK := some w.k })
      else .next (s.epochBegin k)
    | some (.length u n) =>
      if !laterT u t then
        .next ((s.modWriter fun w => { w with
          req := none, prevLen := w.len, older := (w.origin, w.kOrigin, w.len) :: w.older
          len := n, origin := t, kOrigin := k }).epochBegin k)
      else .next (s.epochBegin k)
    | _ => .next (s.epochBegin k)

/-- The largest PORT_LAG of the ports that `p` picks; a port that nothing has set has the default. -/
def State.maxLag (s : State) (p : SensorPort → Bool) : Nat :=
  ((List.range 64).map fun i => let x := s.port i; if p x then x.cfg.lag else 0).foldl max 0

/-- EPOCH_CONFIG (R308, R330). -/
def execEpochConfig (r : Fin 64) (d : Desc) (b : HostBuf) (s : State) : Host.Outcome State Fault Refusal :=
  let sizes := [8, 4, 2, 1]
  let t := d.arg sizes 0
  let k := d.arg sizes 1 + d.arg sizes 2 * 2 ^ 32
  let req := d.arg sizes 3
  let stage := PRow.mk (fun v => v % 2 ^ 26 == 0 && decide (2 ^ 26 ≤ v) && decide (v ≤ 2 ^ 30)) false
  let rows := [rowTime 100000 10000000000 1000, rowTime 100000 100000000000 1000,
    rowTime 50000 10000000000 1000, stage]
  let p := params rows d b
  let w := s.writer
  let lag := s.maxLag fun _ => true
  let len := p.val 1 w.len
  let limit := p.val 2 w.varnishLimit
  let change := req == 1 || req == 2
  let named := fun (i : Nat) => if (p.get i).isSome then p.index i else 46
  let early := t % 1000 != 0 || laterT (s.time.t64 + 1000000) (BitVec.ofNat 64 t)
  let range := recLen d true ++ p.bad ++ (if 3 < req then [46] else []) ++
    (if req = 1 && early then [32] else []) ++ (if req = 2 && (p.get 1).isNone then [46] else []) ++
    (if (change || (p.get 1).isSome) && decide (len ≤ lag) then [named 1] else []) ++
    (if (change || (p.get 2).isSome) && decide (limit < lag + 50000) then [named 2] else [])
  let running := w.st == .running
  let busy := w.req.isSome || w.lastK.isSome
  let state := s.chain.role == .station || (req == 1 && running) ||
    ((req == 2 || req == 3) && (!running || busy)) ||
    (running && (req == 0 || req == 3) && (p.get 1).isSome) || (running && (p.get 4).isSome)
  let c : CmdSpec :=
    { op := 0x0307, sizes := sizes, target := d.target == 0, input := true, range := range
      fails := [(eState, state)] }
  .next (s.hostCmd r d b c fun _ s =>
    let s := s.modWriter fun w => { w with
      varnishLimit := limit, settleLimit := p.val 3 w.settleLimit
      stageMiB := p.val 4 (w.stageMiB * 2 ^ 20) / 2 ^ 20
      len := if change then w.len else len
      req := if req = 1 then some (.start (BitVec.ofNat 64 t) k (p.get 1))
        else if req = 2 then some (.length (BitVec.ofNat 64 t) len)
        else if req = 3 then some (.stop (BitVec.ofNat 64 t)) else w.req }
    s.finish r.val d)

/-- BELL_RELEASE (R313): a tally is zero and the bells that it held are offered. -/
def execBellRelease (c : Fin 128) (ctx : BitVec 17) (epar : Bool) (s : State) :
    Host.Outcome State Fault Refusal :=
  if (s.cell c.val).tally.get 0 (2 * ctx.toNat + b2n epar) != 0 || s.fabric.iso.contains c.val then .next s
  else .next (s.offerReady c.val .none)

/-! ## Results (R317, R318) -/

/-- The epoch of a result: the open epoch of its context with its parity; for a context that is
never a member, the earliest such epoch that is not varnished (R310, R317). -/
def State.resultEpoch (s : State) (ctx gen : Nat) (epar nsink : Bool) : Option Nat :=
  let l := s.writer.epochs.filter fun e => e.k % 2 == b2n epar
  let l := if nsink then l.filter fun e => match e.member ctx gen with
      | some m => m.isOpen
      | none => false
    else l.filter fun e => !e.varnished
  l.head?.map (·.k)

def State.modBanks (s : State) (h : Nat) (f : BankPair → BankPair) : State :=
  s.modWriter fun w => { w with banks := w.banks.upd {} h f }

def State.bankOf (s : State) (h : Nat) : BankPair := s.writer.banks.get {} h

/-- A result is written to a slot of the work bank (R317). -/
def State.writeSlot (s : State) (h i ctx gen : Nat) (x : Slot) : State :=
  let old := (s.bankOf h).work.slots.get none i
  let late := decide (x.k < s.writer.w)
  let mine := match old with
    | some o => o.k == x.k && o.late == late
    | none => false
  let keep := match old with
    | some o => late && o.k == s.writer.w && !o.late
    | none => false
  if keep then s.varnBump .lateDrop
  else
    let s := s.modBanks h fun b => { b with work := { b.work with
      slots := b.work.slots.set none i (some { x with late := late, again := mine }) } }
    let s := if mine then s.varnBump .resOverwrite else s
    let s := s.modWriter fun w => { w with epochs := w.epochs.map fun e =>
      if e.k == x.k then { e with results := e.results + 1, poisoned := e.poisoned + b2n x.poison } else e }
    let s := if late then s.modMember x.k ctx gen fun m => { m with late := m.late + 1 } else s
    s.varnBump .resWritten

/-- Records that the stage holds. -/
def Writer.stageCap (w : Writer) : Nat := w.stageMiB * 2 ^ 20 / 128

/-- The token of a cell stands at the writer's port, and its place in the intake is free (R319). -/
def State.atWriter (s : State) (f : Flit) : Bool :=
  decide (f.src < 128) && f.tok.tag.dest == 0x91#8 && (s.writer.intake.get none f.src).isNone &&
  (match (s.fabric.stream ((f.tok.header f.src).transit f.tok.chan false 0)).head? with
  | some t => t.passed.length + 1 == t.path.length
  | none => false) && s.arrivable f.src f.tok

/-- The intake takes the item of a cell. -/
def State.takeIn (s : State) (n : Nat) (t : Token) : State :=
  (s.takeFlight n t).modWriter fun w => { w with intake := w.intake.set none n (some t) }

/-- The intake takes what stands at the port. -/
def State.fillIntake : Nat → State → State
  | 0, s => s
  | n + 1, s =>
    match s.fabric.flight.find? s.atWriter with
    | some f => State.fillIntake n (s.takeIn f.src f.tok)
    | none => s

/-- The cell whose item the writer grants next: in rising number from `next` on (R319). -/
def Writer.turn (w : Writer) : Option Nat :=
  ((List.range 128).map fun i => (w.next + i) % 128).find? fun n => (w.intake.get none n).isSome

/-- The writer grants a token (R319): a cell's when its turn has come and no gap notice is due; until then
it waits in the intake. -/
def State.writerGrant (s : State) (n : Nat) (t : Token) (ue : UnitErr) : Bool × State :=
  if 128 ≤ n then
    if s.arrivable n t then (true, (s.unitErr ue).endpointTake n t 0x91) else (false, s)
  else
    let s := if (s.writer.intake.get none n).isNone && s.arrivable n t then s.takeIn n t else s
    let s := s.fillIntake s.fabric.flight.length
    let w := s.writer
    if w.intake.get none n == some t && w.turn == some n && (w.notices.isEmpty || decide (w.run < 16)) then
      let s := s.modWriter fun w => { w with
        intake := w.intake.del n, next := (n + 1) % 128, run := w.run + 1 }
      (true, (s.unitErr ue).returnCredit 0x91 t.tag.ctx.toNat t.tag.gen.toNat 1)
    else (false, s)

/-- RESULT_TOKEN (R317, R36). -/
def execResultToken (src : BitVec 8) (t : Token) (ue : UnitErr) (s : State) :
    Host.Outcome State Fault Refusal :=
  if t.tag.dest.toNat != 0x91 || t.tag.bell then .next s
  else if s.cutOff 0x91 then
    .next (if s.arrivable src.toNat t then (s.unitErr ue).endpointAbsorb src.toNat t 0x91 else s)
  else
    match s.writerGrant src.toNat t ue with
    | (false, s) => .next s
    | (true, s) =>
      let t := t.after ue
      let c := t.tag.ctx.toNat
      let g := t.tag.gen.toNat
      let h := s.lifeGraph c g
      let i := t.tag.esel.toNat
      match s.graph h with
      | none => .next (s.varnBump .resRange)
      | some x =>
        if x.resultSlots ≤ i then .next (s.varnBump .resRange)
        else
          match s.resultEpoch c g t.tag.epar (x.nsink != 0) with
          | none => .next (s.varnBump .resAfterClose)
          | some k =>
            let img : Slot :=
              { payload := t.payload, tag := t.tag.pack, k := k, poison := t.tag.poison, late := false
                again := false }
            if k ≤ s.writer.w then .next (s.writeSlot h i c g img)
            else if s.writer.stageCap ≤ s.writer.stage.length then
              .next ((s.ownGap k 0x0A c g 1).varnBump .stageFull)
            else
              .next (s.modWriter fun w => { w with stage := w.stage ++ [{ graph := h, slot := i, img := img }] })

/-! ## Bells and closing (R315, R321, R438-R440) -/

/-- A member closes an epoch; a late close is entered for the next report (R315, R321). -/
def State.closeMember (s : State) (k ctx gen : Nat) : State :=
  let late := match (s.writer.epoch k).bind fun e => e.member ctx gen with
    | some m => m.late
    | none => 0
  let s := s.modMember k ctx gen fun m => { m with closed := true, judging := false }
  let s := if s.writer.done k then (s.addEntry k 0x41 ctx gen late).varnBump .lateClose else s
  s.releaseHold

/-- BELL_AT_WRITER (R315, R37, R439). -/
def execBellAtWriter (src : BitVec 8) (t : Token) (ue : UnitErr) (s : State) :
    Host.Outcome State Fault Refusal :=
  if t.tag.dest.toNat != 0x91 || !t.tag.bell then .next s
  else if s.cutOff 0x91 then
    .next (if s.arrivable src.toNat t then (s.unitErr ue).endpointAbsorb src.toNat t 0x91 else s)
  else
    match s.writerGrant src.toNat t ue with
    | (false, s) => .next s
    | (true, s) =>
      let c := t.tag.ctx.toNat
      let g := t.tag.gen.toNat
      let n := t.word 0 + t.word 1 % 2 ^ 16 * 2 ^ 32
      let x := s.ctxOf c
      let shadow := x.shadow && x.gen == g
      let owner := if shadow then x.partner.getD c else c
      let og := if shadow then (s.ctxOf owner).gen else g
      match s.writer.epochs.find? fun e => e.k % 2 ^ 48 == n with
      | none => .next (s.varnBump .bellBad)
      | some e =>
        if (t.word 0 % 2 == 1) != t.tag.epar then .next (s.varnBump .bellBad)
        else
          match e.member owner og with
          | none => .next (s.varnBump .bellNonmember)
          | some m =>
            let count := if shadow then m.shadowBells else m.bells
            if m.gone then .next (s.varnBump .bellNonmember)
            else if m.nsink ≤ count then .next (s.varnBump .bellExtra)
            else if !m.isOpen then .next (s.varnBump .bellBad)
            else
              let m := if shadow then { m with shadowBells := m.shadowBells + 1 }
                else { m with bells := m.bells + 1 }
              let full := decide (m.nsink ≤ m.bells) && (m.shadow.isNone || decide (m.nsink ≤ m.shadowBells))
              let m := { m with judging := full && m.shadow.isSome }
              let s := s.modMember e.k owner og fun _ => m
              if full && m.shadow.isNone then .next (s.closeMember e.k owner og) else .next s

/-- AUDIT_SUM of a parity over the cells of a context (R440). -/
def State.auditOf (s : State) (ctx : Nat) (epar : Bool) : BitVec 64 :=
  (s.ctxOf ctx).cells.foldl (fun a n => a + (s.cell n).auditSum.get 0 (2 * ctx + b2n epar)) 0

/-- Those sums zeroed. -/
def State.auditClear (s : State) (ctx : Nat) (epar : Bool) : State :=
  (s.ctxOf ctx).cells.foldl (fun s n => s.modCell n fun c =>
    { c with auditSum := c.auditSum.set 0 (2 * ctx + b2n epar) 0 }) s

/-- AUDIT_VERDICT (R440): primary and shadow have closed an epoch. -/
def execAuditVerdict (ctx : BitVec 17) (s : State) : Host.Outcome State Fault Refusal :=
  let c := ctx.toNat
  let judged := fun (e : EpochRec) => e.members.any fun m => m.ctx == c && m.judging && m.isOpen
  match s.writer.epochs.find? judged, (s.ctxOf c).partner with
  | some e, some d =>
    let g := (s.ctxOf c).gen
    let epar := e.k % 2 == 1
    let same := s.auditOf c epar == s.auditOf d epar
    let s := (s.auditClear c epar).auditClear d epar
    let s := if same then s.watchBump .auditAgree
      else ((s.addEntry e.k 0x42 c g 1).detect 235 0x68 (c + e.k % 2 ^ 32 * 2 ^ 32)).watchBump .auditDisputed
    .next (s.closeMember e.k c g)
  | _, _ => .next s

/-- GAP_NOTICE (R319, R323): the writer grants a notice that has reached it, when no cell's item waits or
16 cells have had theirs. -/
def execGapNotice (k : Nat) (s : State) : Host.Outcome State Fault Refusal :=
  match s.writer.notices[k]? with
  | none => .next s
  | some g =>
    if s.writer.turn.isSome && decide (s.writer.run < 16) then .next s
    else
      .next (((s.modWriter fun w => { w with notices := w.notices.eraseIdx k, run := 0 }).varnBump
        .gapNotices).addGap g)

/-! ## Settlement (R326, R328) -/

/-- CHAIN_SETTLED and the SETTLED fields of every published header take an epoch (R326, R328). -/
def State.settleTo (s : State) (k flags : Nat) : State :=
  let s := s.modWriter fun w => { w with
    settled := some (k, flags)
    banks := w.banks.mapV fun b =>
      if b.published.valid then
        { b with published := { b.published with settledK := k % 2 ^ 48, settledFlags := flags } }
      else b }
  s.postEvent 306 0x59 (k % 2 ^ 48) flags

/-- The flags and missing stations of an epoch at the root: what each slot has sent of it (R326,
R355, R356). -/
def State.settlement (s : State) (k : Nat) : Nat × List RootSlot × Bool :=
  let l := s.writer.summaries.filter fun e => e.1 == k
  let absent := s.chain.slots.filter fun x => !(l.any fun e => e.2.1 == x.station)
  let awaited := absent.filter fun x => x.st == .attached && x.first.any fun f => decide (f ≤ k)
  (l.foldl (fun a e => a ||| e.2.2) 0, awaited, !absent.isEmpty)

/-- The root settles what it can, in order (R326). -/
def State.rootSettle (s : State) : List (Nat × Nat) → State
  | [] => s
  | (k, _) :: rest =>
    let q := s.settlement k
    if !q.2.1.isEmpty && !s.writer.settleOver then s
    else
      let s := s.varnBump .settleMissing q.2.1.length
      let s := s.modWriter fun w => { w with
        rootVarn := rest, settleOver := false, summaries := w.summaries.filter fun e => decide (k < e.1) }
      (s.settleTo k (q.1 ||| if q.2.2 then 256 else 0)).rootSettle rest

/-- SETTLE_LIMIT_EXPIRY (R326): SETTLE_LIMIT has passed since the root's varnish of the oldest epoch
that it has not settled. -/
def execSettleLimitExpiry (s : State) : Host.Outcome State Fault Refusal :=
  match s.writer.rootVarn with
  | [] => .next s
  | (k, t) :: rest =>
    let s := s.reach (t + s.writer.settleLimit)
    .next ((s.modWriter fun w => { w with settleOver := true }).rootSettle ((k, t) :: rest))

/-! ## Varnish (R320-R325) -/

/-- VARNISH_LIMIT_REACHED (R320): T64 reaches T_B(k+1) + VARNISH_LIMIT with members open. -/
def execVarnishLimitReached (s : State) : Host.Outcome State Fault Refusal :=
  let w := s.writer
  match w.epoch w.w with
  | none => .next s
  | some e =>
    if w.st == .stopped || !(decide (e.k < w.k) || w.beyond (e.k + 1)) || !(e.members.any Member.isOpen) then
      .next s
    else
      let s := s.reachT64 ((w.tb (e.k + 1)).toNat + w.varnishLimit)
      .next (s.modWriter fun w => { w with epochs := w.epochs.map fun x =>
        if x.k == e.k then { x with limit := true } else x })

/-- An entry of a report (R323). -/
def Gap.bytes (g : Gap) : List Byte :=
  leBytes 4 g.k ++ leBytes 2 (g.k / 2 ^ 32) ++ leBytes 1 g.type ++ leBytes 1 (b2n g.late) ++
  leBytes 4 g.ctx ++ leBytes 1 g.gen ++ [0#8] ++ leBytes 2 g.graph ++ leBytes 2 g.source ++ leBytes 2 0 ++
  leBytes 4 g.count ++ leBytes 8 g.tFirst.toNat

/-- A stable insertion: `g` after every entry that it does not precede. -/
def insertGap (lt : Gap → Gap → Bool) (g : Gap) : List Gap → List Gap
  | [] => [g]
  | a :: l => if lt g a then g :: a :: l else a :: insertGap lt g l

def sortGaps (lt : Gap → Gap → Bool) (l : List Gap) : List Gap :=
  l.foldl (fun a g => insertGap lt g a) []

/-- Gap entries by CTX, era and epoch, and TYPE (R324). -/
def gapLt (a b : Gap) : Bool :=
  if a.ctx != b.ctx then decide (a.ctx < b.ctx)
  else if a.k != b.k then decide (a.k < b.k) else decide (a.type < b.type)

def ctxLt (a b : Gap) : Bool := decide (a.ctx < b.ctx)

/-- FLAGS of a report (R324). -/
def reportFlags (k : Nat) (entries gaps : List Gap) (unprotected lost poison : Bool) : Nat :=
  let has := fun (n : Nat) => entries.any fun g => g.type == n
  b2n (has 0x40) + 2 * b2n (gaps.any fun g => g.k == k) +
  4 * b2n (has 0x41 || gaps.any (·.late)) + 8 * b2n (has 0x42) + 16 * b2n unprotected + 32 * b2n lost +
  64 * b2n poison + 128 * b2n (gaps.any fun g => g.type == 9)

/-- The report key: the burned slot with the highest number (R461). -/
def Fuses.reportSlot (f : Fuses) : Option (Nat × List Byte) := f.reportKey.getLast?

/-- The report of an epoch (R324): header, context entries, gap entries and tag. -/
def State.reportBytes (s : State) (e : EpochRec) (tv : BitVec 64) (flags lost : Nat)
    (entries gaps : List Gap) : List Byte :=
  let len := 64 + 32 * (entries.length + gaps.length) + 32
  let keyId := match s.fuses.reportSlot with
    | some k => k.1
    | none => 0xFFFFFFFF
  let head := leBytes 4 e.k ++ leBytes 2 (e.k / 2 ^ 32) ++ leBytes 2 s.stationId ++ leBytes 8 tv.toNat ++
    leBytes 4 s.writer.vseq ++ leBytes 4 flags ++ leBytes 2 (e.members.filter fun m => !m.gone).length ++
    leBytes 2 entries.length ++ leBytes 2 gaps.length ++ leBytes 2 0 ++ leBytes 4 e.results ++
    leBytes 4 e.poisoned ++ leBytes 4 lost ++ leBytes 4 len ++ leBytes 4 keyId ++ List.replicate 12 0#8
  let body := head ++ (entries ++ gaps).flatMap Gap.bytes
  body ++ match s.fuses.reportSlot with
    | some k => Crypto.hmac k.2 body
    | none => List.replicate 32 0#8

/-- The summary of a report: its header and its tag (R325). -/
def summaryOf (report : List Byte) : List Byte := report.take 64 ++ report.drop (report.length - 32)

/-- Slots written for an epoch (R318). -/
def ResBank.count (b : ResBank) (k : Nat) : Nat :=
  (b.slots.filter fun e => match e.2 with
    | some x => x.k == k && !x.late
    | none => false).length

/-- Steps 2 and 3 of R320 for one graph: the header is written and the banks change places. -/
def BankPair.publish (b : BankPair) (k vseq flags : Nat) (tv : BitVec 64) (settled : Option (Nat × Nat)) :
    BankPair :=
  let q := settled.getD (0, 0)
  { published := { b.work with
      valid := true, k := k, vseq := vseq, flags := flags, tv := tv, written := b.work.count k
      settledK := q.1 % 2 ^ 48, settledFlags := q.2 }
    work := b.published }

/-- Stage records of the epoch that has become the earliest are applied (R320 step 5). -/
def State.applyStage (s : State) : State :=
  let now := s.writer.stage.filter fun x => x.img.k == s.writer.w
  let s := s.modWriter fun w => { w with stage := w.stage.filter fun x => x.img.k != w.w }
  now.foldl (fun s x =>
    if (s.graph x.graph).isSome then s.writeSlot x.graph x.slot 0 0 x.img else s) s

/-- A READ_RESULTS whose output is not yet written ends in E_STALE (R327, R331). -/
def State.staleReads (s : State) : State :=
  (s.host.cmd.map (·.1)).foldl (fun s r =>
    match (s.cmdRing r).item with
    | some it =>
      if it.opcode.toNat == 0x0401 && it.status == stOk then
        let s := s.modCmd r fun c => { c with item := some { it with status := eStale, result := 0, out := [] } }
        ((s.hostBump .cmdOk (2 ^ 32 - 1)).hostBump .cmdReject).varnBump .readStale
      else s
    | none => s) s

/-- The epochs have stopped (R308, R322): late members abandon the last, held blocks are
discarded. -/
def State.epochsStop (s : State) (k : Nat) : State :=
  let late := match s.writer.epoch k with
    | some e => e.members.filter Member.isOpen
    | none => []
  let s := late.foldl (fun s m => s.abandon k m.ctx m.gen) s
  let held := s.ingest.hold.flatMap (·.2)
  let s := s.modIngest fun x => { x with hold := [] }
  let s := held.foldl (fun s b => s.bindBump b.binding .noEpoch) s
  let s := s.modWriter fun w => { w with st := .stopped, lastK := none, req := none }
  { s with power := { s.power with restSince := some s.time.now } }

/-- In a chain, the chain-settled epoch has reached `k` (R320); a device that is not attached to a
chain settles its own epochs (R326, R354). -/
def State.settledThrough (s : State) (k : Nat) : Bool :=
  s.chain.role == .off || !s.attached || match s.writer.settled with
    | some x => decide (k ≤ x.1)
    | none => false

/-- An epoch may be varnished now, but for the wait of an epoch without members (R320). -/
def State.varnishable (s : State) (e : EpochRec) : Bool :=
  let w := s.writer
  w.st == .running && (decide (e.k < w.k) || w.beyond (e.k + 1)) &&
  (e.k == w.firstK || s.settledThrough (e.k - 1)) && (e.limit || !e.members.any Member.isOpen)

/-- The report is kept and told of (steps 6 of R320, R325, R326, R328). -/
def State.publishReport (s : State) (k flags : Nat) (bytes : List Byte) : State :=
  let s := s.modWriter fun w => { w with reports := ({ k := k, bytes := bytes } :: w.reports).take 64 }
  let s := s.postEvent 306 0x58 (k % 2 ^ 48) (flags + s.writer.vseq * 2 ^ 32)
  match s.chain.role with
  | .off => s.settleTo k flags
  | .root =>
    let s := s.modWriter fun w => { w with
      rootVarn := w.rootVarn ++ [(k, s.time.now)], summaries := w.summaries ++ [(k, 0, flags)] }
    s.rootSettle s.writer.rootVarn
  | .station =>
    let s := { s with chain := { s.chain with summaries := s.chain.summaries ++ [summaryOf bytes] } }
    if s.attached then s else s.settleTo k (flags ||| 256)

/-- The earliest epoch is varnished (R320). -/
def State.doVarnish (s : State) (e : EpochRec) : State :=
  let k := e.k
  let tv := s.time.t64
  -- an epoch left open is abandoned when the next one varnishes (R322)
  let old := match (if k = 0 then none else s.writer.epoch (k - 1)) with
    | some p => p.members.filter Member.isOpen
    | none => []
  let s := old.foldl (fun s m => s.abandon (k - 1) m.ctx m.gen) s
  let late := e.members.filter Member.isOpen
  let s := (s.varnBump .varnished).varnBump .lateMember late.length
  let s := if late.isEmpty then s else s.varnBump .varnishIncomplete
  let s := late.foldl (fun s m => s.addEntry k 0x40 m.ctx m.gen 0) s
  let entries := sortGaps ctxLt (s.writer.entries.filter fun g => decide (g.k ≤ k) || g.late)
  let gaps := sortGaps gapLt (s.writer.gaps.filter fun g => g.k == k || g.late)
  let lost := entries.length - 256 + (gaps.length - 256)
  let s := s.varnBump .gapLost lost
  let flags := reportFlags k entries gaps (e.unprotected || s.watch.broken) (0 < lost) (0 < e.poisoned)
  let entries := entries.take 256
  let gaps := gaps.take 256
  let s := s.modWriter fun w => { w with
    vseq := (w.vseq + 1) % 2 ^ 32, w := k + 1
    entries := w.entries.filter fun g => !(decide (g.k ≤ k) || g.late)
    gaps := w.gaps.filter fun g => !(g.k == k || g.late)
    epochs := (w.epochs.map fun x => if x.k == k then { x with varnished := true } else x).filter
      fun x => decide (k < x.k + 4) }
  let graphs := (s.reeve.graphs.filter fun x => match x.2 with
    | some g => g.resultSlots != 0
    | none => false).map (·.1)
  let s := graphs.foldl (fun s h =>
    s.modBanks h fun b => b.publish k s.writer.vseq flags tv s.writer.settled) s
  let s := s.staleReads
  let s := (s.releaseHold).applyStage
  let s := s.publishReport k flags (s.reportBytes e tv flags lost entries gaps)
  if s.writer.lastK == some k then s.epochsStop k else s

/-- VARNISH (R320): without members, at T_B(k+1) plus the largest PORT_LAG of the ports that are up. -/
def execVarnish (s : State) : Host.Outcome State Fault Refusal :=
  match s.writer.epoch s.writer.w with
  | none => .next s
  | some e =>
    if !s.varnishable e then .next s
    else
      let none := (e.members.filter fun m => !m.gone).isEmpty
      let s := if none then
          s.reachT64 ((s.writer.tb (e.k + 1)).toNat + s.maxLag fun p => p.up)
        else s
      .next (s.doVarnish e)

/-! ## Reading (R325, R327, R388) -/

/-- The bytes of a slot (R318). -/
def Slot.bytes (x : Slot) : List Byte :=
  bytesAt (wordsToBytes x.payload) 0 64 ++ leBytes 8 x.tag.toNat ++ leBytes 4 x.k ++ leBytes 2 (x.k / 2 ^ 32) ++
  leBytes 1 (b2n x.poison + 2 * b2n x.late + 4 * b2n x.again) ++ List.replicate 49 0#8

/-- The fields of a bank's header; the header is 4,096 bytes (R318). -/
def ResBank.fields (b : ResBank) (slots : Nat) : List Byte :=
  leBytes 4 b.k ++ leBytes 2 (b.k / 2 ^ 32) ++ leBytes 2 0 ++ leBytes 4 b.vseq ++ leBytes 4 b.flags ++
  leBytes 8 b.tv.toNat ++ leBytes 4 slots ++ leBytes 4 b.written ++ leBytes 4 b.settledK ++
  leBytes 2 (b.settledK / 2 ^ 32) ++ leBytes 2 0 ++ leBytes 4 b.settledFlags

def slotBytes (b : ResBank) (i : Nat) : List Byte :=
  match b.slots.get none i with
  | some x => x.bytes
  | none => List.replicate 128 0#8

/-- READ_RESULTS (R327). -/
def execReadResults (r : Fin 64) (d : Desc) (b : HostBuf) (s : State) : Host.Outcome State Fault Refusal :=
  let a := d.arg [4, 2, 2, 2]
  let h := d.target.toNat
  let k := a 0 + a 1 * 2 ^ 32
  let first := a 2
  let count := a 3
  let g := s.graph h
  let beyond := match g with
    | some x => decide (x.resultSlots < first + count)
    | none => false
  let bank := (s.bankOf h).published
  let slots := match g with
    | some x => x.resultSlots
    | none => 0
  let c : CmdSpec :=
    { op := 0x0401, sizes := [4, 2, 2, 2], target := decide (h < 1024), need := 4096 + 128 * count
      range := if beyond then [if slots < first then 38 else 40] else []
      fails := [(eState, g.isNone), (eStale, !bank.valid || bank.k % 2 ^ 48 != k)] }
  .next (s.hostCmd r d b c fun _ s =>
    s.finish r.val d stOk bank.vseq (bytesAt (bank.fields slots) 0 4096 ++
      (List.range count).flatMap fun i => slotBytes bank (first + i)))

/-- READ_REPORT (R325). -/
def execReadReport (r : Fin 64) (d : Desc) (b : HostBuf) (s : State) : Host.Outcome State Fault Refusal :=
  let a := d.arg [4, 2]
  let x := s.writer.reports.find? fun e => e.k % 2 ^ 48 == a 0 + a 1 * 2 ^ 32
  let c : CmdSpec :=
    { op := 0x0402, sizes := [4, 2], target := d.target == 0, need := 16480, fails := [(eStale, x.isNone)] }
  .next (s.hostCmd r d b c fun _ s => match x with
    | some x => s.finish r.val d stOk x.bytes.length x.bytes
    | none => s.finish r.val d)

/-- A byte of the BAR4 window (R388). -/
def State.bar4Byte (s : State) (o : Nat) : Byte :=
  let h := o / 2 ^ 22
  let q := o % 2 ^ 22
  let bank := (s.bankOf h).published
  match s.graph h with
  | none => 0
  | some g =>
    if !bank.valid || s.power.phase == .lantern then 0
    else if q < 4096 then (bank.fields g.resultSlots).getD q 0
    else if q < 4096 + 128 * g.resultSlots then (slotBytes bank ((q - 4096) / 128)).getD ((q - 4096) % 128) 0
    else 0

/-- BAR4_READ (R388): `ue` says that the read meets an uncorrectable HBM error. -/
def execBar4Read (offset : BitVec 32) (len : Fin 4097) (ue : Bool) (s : State) :
    Host.Outcome State Fault Refusal :=
  if !s.barLive then .next s
  else
    let bytes := (List.range len.val).map fun i => s.bar4Byte ((offset.toNat + i) % 2 ^ 32)
    let s := (s.hostBump .bar4Reads).emit (.readData bytes ue)
    .next (if ue then s.hostBump .bar4Poison else s)

end Sys2Proof.Machine
end

