-- ==== Sys2Proof/Machine/Chain.lean ====
section
/-! DEFINITION. The chain ports: links, bulk frames, learning, tokens between stations, and the
host's chain commands (13_cart.md R333-R335, R344, R346-R353). -/

namespace Sys2Proof.Machine

open Sys2Proof.Crypto (crc32)

def State.modChain (f : Chain → Chain) (s : State) : State := { s with chain := f s.chain }

/-- A counter of the station or the root (R359). -/
def State.chainBump (k : ChainCtr) (s : State) (n : Nat := 1) : State :=
  s.modChain fun c => { c with cnt := c.cnt.bump k.ctorIdx n }

/-- A counter of a chain port; the byte counts are 48 bits wide (R359). -/
def State.linkBump (p : Nat) (k : ChainPortCtr) (s : State) (n : Nat := 1) : State :=
  let i := 8 * p + k.ctorIdx
  let wide := k == .txBulkBytes || k == .rxBulkBytes
  s.modChain fun c => { c with portCnt := if wide then c.portCnt.bump48 i n else c.portCnt.bump i n }

/-! ## Ports (R335, R336) -/

/-- The ports toward the leaves, in rising order. -/
def Chain.downs (c : Chain) : List Nat := (List.range 16).filter fun p => bit c.downPorts p

/-- The ports that the role names. -/
def Chain.named (c : Chain) : List Nat :=
  match c.role, c.mode with
  | .off, _ => []
  | _, .ring => [c.portA, c.portB].eraseDups
  | .root, _ => c.downs
  | .station, _ => (c.upPort :: c.downs).eraseDups

/-- CYCLE_LEN as the device knows it. -/
def Chain.cycle (c : Chain) : Nat :=
  if c.role == .root || c.hdrCycleLen == 0 then c.cycleLen else c.hdrCycleLen

/-- CYCLE_LEN and CW_LEN; a station learns them from the Cart. -/
def Chain.window (c : Chain) : Option (Nat × Nat) :=
  match c.role with
  | .off => none
  | .root => some (c.cycleLen, c.cwLen)
  | .station => if c.hdrCycleLen = 0 then none else some (c.hdrCycleLen, c.cwLen)

/-- T64 and a quarter of a nanosecond, in units of 2^-16 ns (R344). -/
def State.t64Fine (s : State) (quarter : BitVec 2) : Nat :=
  s.time.t64.toNat * 65536 + quarter.toNat * 16384

/-! ## Settling alone, and detachment (R326, R354) -/

/-- Reports of epochs that have not settled are settled here, oldest first, with `extra` flags. -/
def State.settleOwn (s : State) (extra : Nat) : State :=
  let from_ := match s.writer.settled with
    | some x => max (x.1 + 1) s.writer.firstK
    | none => s.writer.firstK
  let l := (s.writer.reports.filter fun r => decide (from_ ≤ r.k) && decide (r.k < s.writer.w)).reverse
  l.foldl (fun s r => s.settleTo r.k (leAt r.bytes 20 4 ||| extra)) s

/-- A station detaches (R354): T64 free-runs, and the epochs that waited for the chain settle with
MISSING. -/
def State.detach (s : State) : State :=
  if s.chain.st == .detached then s
  else
    let s := s.modChain fun c => { c with
      st := .detached, offHigh := 0, offLow := 0, unanswered := [], firstEpoch := none }
    let s := s.modTime fun t => { t with follow := 0 }
    ((s.chainBump .detachCount).postEvent 452 0x66).settleOwn 256

/-! ## Links (R334) -/

/-- A port goes down. -/
def State.chainDown (p : Nat) (s : State) : State :=
  if !s.chain.up.contains p then s
  else
    let s := s.modChain fun c => { c with
      up := c.up.erase p, measured := c.measured.erase p, delaySum := c.delaySum.del p
      passLat := c.passLat.filter fun e => e.1 / 16 != p && e.1 % 16 != p }
    let s := (s.linkBump p .linkDownCount).postEvent (256 + p) 0x02
    let c := s.chain
    let lost := if c.mode == .ring then c.up.isEmpty else p == c.upPort
    if c.role == .station && lost then s.detach else s

/-- CHAIN_LINK_UP: 64 valid sync headers in a row have given lock, and it has held for 1 ms; `c.bad` marks the
invalid ones among the last 64. -/
def execChainLinkUp (c : LinkHeads) (s : State) : Host.Outcome State Fault Refusal :=
  let p := c.port.val
  if c.bad != 0 || !s.chain.named.contains p || s.chain.up.contains p ||
    s.power.hubOff.contains (0x94 + p / 4) then .next s
  else
    let s := s.elapse 1000000
    let s := s.modChain fun c => { c with
      up := (List.range 16).filter fun q => q == p || c.up.contains q, measureAt := c.measureAt.del p }
    .next (s.postEvent (256 + p) 0x01)

/-- CHAIN_LINK_DOWN: 16 of the last 64 sync headers were invalid.  `c.perr` blocks had a parity mismatch since the
port's last frame. -/
def execChainLinkDown (c : LinkLoss) (s : State) : Host.Outcome State Fault Refusal :=
  if popCount 64 c.bad.toNat < 16 || !s.chain.up.contains c.port.val then .next s
  else .next ((s.linkBump c.port.val .blockErr c.perr).chainDown c.port.val)

/-- PASS_LAT from one port to another, in 0.25 ns: constant while both are up (R341, log 16). -/
def State.passOf (s : State) (p q : Nat) : Nat × State :=
  match s.chain.passLat.get none (16 * p + q) with
  | some v => (v, s)
  | none =>
    let (v, s) := s.draw
    let v := 160 + v.toNat % 33
    (v, s.modChain fun c => { c with passLat := c.passLat.set none (16 * p + q) (some v) })

/-! ## Bulk frames (R350) -/

/-- The header of a frame without its CRC. -/
def Bulk.head (b : Bulk) : List Byte :=
  leBytes 2 b.dst ++ leBytes 2 b.src ++ leBytes 1 b.btype ++ leBytes 1 (b2n b.dir) ++
  leBytes 2 b.payload.length ++ leBytes 4 b.bseq ++ leBytes 4 0 ++ leBytes 8 b.tSend ++ leBytes 4 0

/-- The bytes between START_BULK and TERM. -/
def Bulk.bytes (b : Bulk) : List Byte :=
  b.head ++ leBytes 4 (crc32 b.head) ++ b.payload ++ leBytes 4 (crc32 b.payload)

/-- Blocks of a frame, START_BULK and TERM among them. -/
def Bulk.blocks (b : Bulk) : Nat := 2 + (b.payload.length + 36 + 7) / 8

/-- A frame read; none when HCRC, PCRC or the length is wrong. -/
def parseBulk (l : List Byte) : Option Bulk :=
  let n := leAt l 6 2
  if l.length < 36 || crc32 (l.take 28) != leAt l 28 4 || 4096 < n || l.length != 36 + n then none
  else
    let p := bytesAt l 32 n
    if crc32 p != leAt l (32 + n) 4 then none
    else
      some { dst := leAt l 0 2 % 4096, src := leAt l 2 2 % 4096, btype := leAt l 4 1
             dir := bit (leAt l 5 1) 0, bseq := leAt l 8 4, tSend := leAt l 16 8, payload := p }

/-- A frame waits at a port behind those before it (R349). -/
def State.pushBulk (s : State) (p : Nat) (b : Bulk) : State :=
  let b := if s.chain.mode == .ring then { b with dir := p == s.chain.portB } else b
  s.modChain fun c => { c with queue := c.queue.upd [] p fun l => l ++ [b] }

/-- A frame of the device's own, with the next BSEQ. -/
def State.ownBulk (s : State) (p dst btype : Nat) (payload : List Byte) : State :=
  let b : Bulk :=
    { dst := dst, src := s.stationId, btype := btype, dir := false, bseq := s.chain.bseq, tSend := 0
      payload := payload }
  (s.modChain fun c => { c with bseq := (c.bseq + 1) % 2 ^ 32 }).pushBulk p b

/-! ## Learning and routing (R347, R348) -/

/-- A frame from `src` on a port teaches.  Only the frames that come from the root's side teach the
way to station 0, which is also the SRC of a station without an ID (log 26). -/
def State.teach (s : State) (src p : Nat) : State :=
  let c := s.chain
  if c.mode == .ring || (src == 0 && (c.role == .root || p != c.upPort)) then s
  else
    let e := c.learn.get {} src
    let set := fun (x : Learn) (s : State) => s.modChain fun c => { c with learn := c.learn.set {} src x }
    if !e.valid then set { valid := true, port := p, age := s.time.now, moved := false } s
    else if e.port = p then set { e with age := s.time.now } s
    else
      let s := s.chainBump .stationMoved
      if e.moved then s else (set { e with moved := true } s).postEvent 452 0x64 src p

/-- The ring port that a sender's frame leaves on: the fewer hops, PORT_A on a tie; the only port
that is up when the other is not; and in a ring split elsewhere the only direction that does not cross the
break, as far as the Carts have shown where it lies (R348, log 33). -/
def Chain.ringPort (c : Chain) (dst : Nat) : Nat :=
  let n := c.walk.length
  let own := c.id.getD 0
  let i := c.walk.findIdx (· == own)
  let j := c.walk.findIdx (· == dst)
  let steps := (j + n - i) % n
  let near := if c.ringSplit || c.split then
      match c.ringEnd with
      | some k => decide (steps ≤ (k + n - i) % n)
      | none => Config.splitAhead own dst (c.lastCycle.getD (c.launched.getD 0))
    else decide (steps ≤ (n - steps) % n)
  let p := if near then c.portA else c.portB
  if c.up.contains p then p else if p = c.portA then c.portB else c.portA

/-- The port that a frame for `dst` leaves on, or the count of its discard.  `at_` is the port it
came on. -/
def Chain.route (c : Chain) (dst : Nat) (at_ : Option Nat) : Except ChainCtr Nat :=
  match c.role, c.mode with
  | .off, _ => .error .noRoute
  | _, .ring =>
    match at_ with
    | some p => .ok (if p = c.portA then c.portB else c.portA)
    | none => .ok (c.ringPort dst)
  | r, _ =>
    let e := c.learn.get {} dst
    if e.valid && at_ != some e.port then .ok e.port
    else if r == .root then .error (if e.valid then .loopDrop else .noRoute)
    else .ok c.upPort

/-- A frame is forwarded whole, or discarded. -/
def State.forward (s : State) (b : Bulk) (p : Nat) : State :=
  match s.chain.route b.dst (some p) with
  | .ok q => s.modChain fun c => { c with queue := c.queue.upd [] q fun l => l ++ [b] }
  | .error k => s.chainBump k

/-- STATION_AGE_EXPIRY. -/
def execStationAgeExpiry (station : BitVec 12) (s : State) : Host.Outcome State Fault Refusal :=
  let k := station.toNat
  let e := s.chain.learn.get {} k
  if !e.valid then .next s
  else
    let s := s.reach (e.age + s.chain.stationAge)
    .next (s.modChain fun c => { c with learn := c.learn.del k })

/-- PRESENCE_SEND: every STATION_AGE / 4 a station tells the root of itself. -/
def execPresenceSend (s : State) : Host.Outcome State Fault Refusal :=
  if s.chain.role != .station then .next s
  else
    let s := match s.chain.presentAt with
      | some t => s.reach (t + s.chain.stationAge / 4)
      | none => s
    let s := s.modChain fun c => { c with presentAt := some s.time.now }
    match s.chain.route 0 none with
    | .ok p => .next (s.ownBulk p 0 5 [])
    | .error _ => .next s

/-! ## Tokens from other stations (R352) -/

/-- The partition and node that an import channel feeds (R91). -/
def importFeed (g : GraphBody) (ch : Nat) : Nat × Nat :=
  match g.importNodes.find? fun e => e.1 == ch with
  | some e => (e.2.1, e.2.2.toNat)
  | none => (g.srcPart, g.srcNode.toNat)

/-- The contexts that a channel feeds: its own, and the shadow of an audited one (R438). -/
def State.importTwins (s : State) (ch : Nat) (b : Import) : List (Nat × Nat × Nat) :=
  (b.ctx, b.gen, b.cell) ::
  match (s.ctxOf b.ctx).partner, s.graph (s.lifeGraph b.ctx b.gen) with
  | some d, some g =>
    let y := s.ctxOf d
    match y.place[(importFeed g ch).1]? with
    | some n => [(d, y.gen, n)]
    | none => []
  | _, _ => []

/-- The chain hub of a port as an initiator (R253). -/
def chainHub (p : Nat) : Nat := 0x94 + p / 4

/-- An imported token enters the fabric when its hub holds credit and nothing of its context waits
before it; otherwise it waits (R80, R81). -/
def State.importToken (s : State) (code : Nat) (t : Token) : State :=
  let c := t.tag.ctx.toNat
  let g := t.tag.gen.toNat
  let behind := s.chain.importWait.any fun e =>
    e.1 == code && e.2.tag.ctx == t.tag.ctx && e.2.tag.gen == t.tag.gen
  if behind || s.creditOf code c g = 0 then
    (s.modChain fun x => { x with importWait := x.importWait ++ [(code, t)] }).askCredit code c (some g)
  else s.hubSend code t

/-- The fields that a token record carries (R351). -/
structure TokRec where
  channel : Nat
  port    : Nat
  ilen    : Nat
  iter    : Nat
  epar    : Bool
  bell    : Bool
  poison  : Bool
  words   : List Word
  deriving DecidableEq, Repr

/-- A record arrives at the import table from a station, at a hub. -/
def State.importRec (s : State) (code src : Nat) (x : TokRec) : State :=
  let b := s.chain.imports.get {} x.channel
  if 4095 < x.channel || 2 < x.port || b.st != .active || b.station != src then s.chainBump .importDrop
  else
    (s.importTwins x.channel b).foldl (fun s d =>
      s.importToken code
        { tag := streamTag d.2.2 b.node x.port d.1 d.2.1 x.iter b.cls x.epar x.ilen
            (mkFlags x.poison x.bell false false)
          payload := x.words }) s

/-- The records of a TOKENS payload; one that cannot be read ends them (R351). -/
def parseRecords : Nat → List Byte → List (Option TokRec)
  | 0, _ => []
  | fuel + 1, l =>
    if l.length < 16 then []
    else
      let h := leAt l 0 8
      let ilen := field h 20 18
      if 3 < ilen then [none]
      else
        let n := (8 + 4 * 2 ^ ilen + 15) / 16 * 16
        some { channel := field h 15 0, port := field h 17 16, ilen := ilen, iter := field h 28 21
               epar := bit h 29, bell := bit h 30, poison := bit h 31
               words := bytesToWords (bytesAt l 8 (4 * 2 ^ ilen)) } :: parseRecords fuel (l.drop n)

/-- The bytes of a record, 16-byte-aligned. -/
def TokRec.bytes (x : TokRec) : List Byte :=
  let h := x.channel + x.port * 2 ^ 16 + x.ilen * 2 ^ 18 + x.iter * 2 ^ 21 + b2n x.epar * 2 ^ 29 +
    b2n x.bell * 2 ^ 30 + b2n x.poison * 2 ^ 31
  let n := (8 + 4 * 2 ^ x.ilen + 15) / 16 * 16
  bytesAt (leBytes 8 h ++ wordsToBytes x.words) 0 n

/-- The records of a frame are taken in order. -/
def State.importAll (s : State) (code src : Nat) (l : List Byte) : State :=
  (parseRecords (l.length / 16) l).foldl (fun s r => match r with
    | some x => s.importRec code src x
    | none => s.chainBump .importDrop) s

/-! ## Tokens to other stations (R351) -/

/-- Bytes that the egress buffer holds. -/
def Chain.egressUsed (c : Chain) : Nat :=
  (c.egress.map fun e => e.2.length).sum +
  (c.queue.map fun e => ((e.2.filter fun b => b.btype == 1 && b.src == c.id.getD 0).map
    fun b => b.payload.length).sum).sum

/-- A record is appended to the TOKENS frame of its station and port; a full frame is closed. -/
def State.appendRecord (s : State) (p dst : Nat) (r : List Byte) : State :=
  let key := 4096 * p + dst
  let cur := s.chain.egress.get [] key
  let s := if 4096 < cur.length + r.length then
      (s.modChain fun c => { c with egress := c.egress.del key }).ownBulk p dst 1 cur
    else s
  s.modChain fun c => { c with egress := c.egress.upd [] key fun l => l ++ r }

/-- CHAIN_EGRESS_TOKEN (R351, R36). -/
def execChainEgressToken (src : BitVec 8) (t : Token) (ue : UnitErr) (s0 : State) :
    Host.Outcome State Fault Refusal :=
  if t.tag.dest.toNat != 0x94 || !s0.arrivable src.toNat t then .next s0
  else
    let s := s0.unitErr ue
    if s.cutOff 0x94 then .next (s.endpointAbsorb src.toNat t 0x94)
    else
      let s := s.endpointTake src.toNat t 0x94
      let t := t.after ue
      let w := t.word 0
      let dst := t.tag.esel.toNat
      let ilen := field w 20 18
      let bad := field w 17 16 == 3 || decide (3 < ilen) || decide (2 ^ t.tag.len.toNat < 1 + 2 ^ ilen) ||
        decide (4095 < field w 15 0) || decide (2 ^ 21 ≤ w) || decide (4096 ≤ dst)
      let x : TokRec :=
        { channel := field w 15 0, port := field w 17 16, ilen := ilen, iter := t.tag.iter.toNat
          epar := t.tag.epar, bell := t.tag.bell, poison := t.tag.poison
          words := (t.payload.drop 1).take (2 ^ ilen) }
      if bad then .next (s.chainBump .chainFmt)
      else if dst = s.stationId then .next (s.importRec 0x94 dst x)
      else if 262144 < s.chain.egressUsed + x.bytes.length then
        .next (if t.isG then s.chainBump .egressDrop else s0)
      else
        match s.chain.route dst none with
        | .ok p => .next (s.appendRecord p dst x.bytes)
        | .error k => .next (s.chainBump k)

/-! ## Delay measurement (R344) -/

/-- DELAY_MEASURE: at link up, and again every 1 s, eight exchanges begin. -/
def execDelayMeasure (c : Fin 16) (s : State) : Host.Outcome State Fault Refusal :=
  let p := c.val
  if !s.chain.up.contains p then .next s
  else
    let s := match s.chain.measureAt.get none p with
      | some t => s.reach (t + 1000000000)
      | none => s
    let s := s.modChain fun c => { c with
      measureAt := c.measureAt.set none p (some s.time.now)
      delaySum := c.delaySum.set none p (some (0, 0)) }
    .next (s.ownBulk p (s.chain.nbr.get 0 p) 3 [])

/-- A DELAY_RESP ends an exchange: `t4` is its arrival. -/
def State.delayAnswer (s : State) (p : Nat) (b : Bulk) (t4 : Nat) : State :=
  match s.chain.delaySum.get none p with
  | none => s
  | some (n, sum) =>
    if b.payload.length != 24 then s
    else
      let t := fun (i : Nat) => (leAt b.payload (8 * i) 8 : Int)
      let sum := sum + ((t4 - t 0) - (t 2 - t 1)) / 2
      if n = 7 then
        s.modChain fun c => { c with
          linkDelay := c.linkDelay.set 0 p (sum / 8).toNat
          measured := c.measured.erase p ++ [p], delaySum := c.delaySum.del p }
      else
        (s.modChain fun c => { c with delaySum := c.delaySum.set none p (some (n + 1, sum)) }).ownBulk p
          b.src 3 []

/-! ## MGMT frames (R353) -/

/-- A chain-send is over: all its frames acknowledged, or its time up.  E_PARTIAL says that it took effect at
the ports marked and at no others (R9): a frame that still waits at another is not sent any more. -/
def State.sendOver (s : State) (x : ChainSend) : State :=
  let s := s.modChain fun c => { c with sends := c.sends.filter fun y => y.bseq != x.bseq }
  let st := if x.acked = 0 then eTimeout else if x.acked = x.mask then stOk else ePartial
  let mine := fun (b : Bulk) => b.btype == 2 && b.src == s.stationId && b.bseq == x.bseq && !b.payload.isEmpty
  let s := if st = ePartial then
      s.modChain fun c => { c with queue := (c.queue.map fun e =>
        (e.1, if bit x.acked e.1 then e.2 else e.2.filter fun b => !mine b)).filter fun e => e.2 != [] }
    else s
  s.completeWhere (fun r => r.wait == .chainSend x.bseq) st x.acked

/-- An MGMT frame arrives from a neighbour.  An acknowledgement is an MGMT frame without a payload
that carries the BSEQ it acknowledges (log 27). -/
def State.takeMgmt (s : State) (p : Nat) (b : Bulk) : State :=
  if b.payload.isEmpty then
    match s.chain.sends.find? fun x => x.bseq == b.bseq && bit x.sent p with
    | none => s
    | some x =>
      let y := { x with acked := setBit x.acked p true }
      let s := s.modChain fun c => { c with sends := c.sends.map fun z => if z.bseq == x.bseq then y else z }
      if y.acked = y.sent then s.sendOver y else s
  else
    let ack : Bulk :=
      { dst := b.src, src := s.stationId, btype := 2, dir := false, bseq := b.bseq, tSend := 0, payload := [] }
    let s := { s with steward := { s.steward with evPend := s.steward.evPend ||| 0x08#7 } }
    s.pushBulk p ack

/-- CHAIN_SEND_TIMEOUT: 10 cycles have passed since the oldest chain-send. -/
def execChainSendTimeout (s : State) : Host.Outcome State Fault Refusal :=
  match s.chain.sends with
  | [] => .next s
  | x :: _ => .next ((s.reach (x.t0 + 10 * s.chain.cycle)).sendOver x)

/-- CHAIN_SEND (R353, R349). -/
def execChainSend (r : Fin 64) (d : Desc) (b : HostBuf) (s : State) : Host.Outcome State Fault Refusal :=
  let mask := d.target.toNat
  let n := d.hlen.toNat
  let probe : Bulk :=
    { dst := 0, src := 0, btype := 2, dir := false, bseq := 0, tSend := 0, payload := List.replicate n 0 }
  let long := match s.chain.window with
    | some w => decide ((w.1 - w.2) * 100 < (2 + (n + 36 + 7) / 8) * 128)
    | none => false
  let sent := (List.range 16).filter fun p => bit mask p && s.chain.up.contains p
  let c : CmdSpec :=
    { op := 0x0502, target := decide (mask < 2 ^ 16), input := true
      range := if 4096 < n || long then [24] else [], fails := [(eState, sent.isEmpty)] }
  .next (s.hostCmd r d b c fun l s =>
    let q := s.chain.bseq
    let s := s.modChain fun c => { c with
      bseq := (c.bseq + 1) % 2 ^ 32
      sends := c.sends ++ [{ mask := mask, sent := sent.foldl (fun m p => m + 2 ^ p) 0, acked := 0
                             bseq := q, t0 := s.time.now }] }
    let s := sent.foldl (fun s p =>
      s.pushBulk p { probe with src := s.stationId, dst := s.chain.nbr.get 0 p, bseq := q, payload := l }) s
    s.await r.val d (.chainSend q))

/-! ## A frame arrives, and a frame is sent (R347, R349, R350) -/

/-- The frame is for this device. -/
def Chain.mine (c : Chain) (dst : Nat) : Bool :=
  match c.role with
  | .off => false
  | .root => dst == 0
  | .station => c.id == some dst

/-- A frame for this device, from a port at a time. -/
def State.consume (s : State) (p : Nat) (b : Bulk) (quarter : BitVec 2) : State :=
  match b.btype with
  | 1 => s.importAll (chainHub p) b.src b.payload
  | 2 => s.takeMgmt p b
  | 3 =>
    let s := s.modChain fun c => { c with nbr := c.nbr.set 0 p b.src }
    s.ownBulk p b.src 4 (leBytes 8 b.tSend ++ leBytes 8 (s.t64Fine quarter) ++ leBytes 8 0)
  | 4 =>
    let s := s.modChain fun c => { c with nbr := c.nbr.set 0 p b.src }
    s.delayAnswer p b (s.t64Fine quarter)
  | 5 => if s.chain.role == .root && b.src == 0 then s.modChain fun c => { c with newcomer := true } else s
  | _ => s

/-- BULK_FRAME_RECEIVED: a frame, or inside the cyclic window any control block but IDLE (R342); `perr` blocks
came with a parity mismatch since the port's last frame, IDLE blocks among them (R334). -/
def execBulkFrameReceived (c : Fin 16) (bytes : List Byte) (quarter : BitVec 2) (perr : Nat) (s : State) :
    Host.Outcome State Fault Refusal :=
  let p := c.val
  let inside := s.chain.role == .root && decide (s.time.t64.toNat % s.chain.cycleLen < s.chain.cwLen)
  if !s.chain.up.contains p then .next s
  else
    let s := s.linkBump p .blockErr perr
    if inside then .next (s.chainBump .cartPeerViol)
    else
      match parseBulk bytes with
      | none => .next (s.linkBump p .bulkCrc)
      | some b =>
        let s := (s.linkBump p .rxBulkBytes b.payload.length).teach b.src p
        let near := b.btype == 2 || b.btype == 3 || b.btype == 4
        if near || s.chain.mine b.dst then .next (s.consume p b quarter) else .next (s.forward b p)

/-- The frame at the head of a port, and the state without it.  When none is closed, the first
TOKENS frame of the port closes now (R351). -/
def State.headBulk (s : State) (p : Nat) : Option (Bulk × State) :=
  match s.chain.queue.get [] p with
  | b :: rest => some (b, s.modChain fun c => { c with queue := c.queue.set [] p rest })
  | [] =>
    match s.chain.egress.find? fun e => e.1 / 4096 == p with
    | none => none
    | some e =>
      let s := (s.modChain fun c => { c with egress := c.egress.del e.1 }).ownBulk p (e.1 % 4096) 1 e.2
      match s.chain.queue.get [] p with
      | b :: rest => some (b, s.modChain fun c => { c with queue := c.queue.set [] p rest })
      | [] => none

/-- A frame longer than the bulk window is discarded; its SRC is told, unless that is this device. -/
def State.rejectBulk (s : State) (p : Nat) (b : Bulk) : State :=
  let s := s.linkBump p .bulkReject
  if b.src = s.stationId then s
  else
    match s.chain.route b.src none with
    | .ok q => s.ownBulk q b.src 6 (leBytes 4 b.bseq ++ leBytes 2 eRange)
    | .error _ => s

/-- The send times that a frame carries are taken when it starts (R344). -/
def Bulk.stamped (b : Bulk) (t : Nat) : Bulk :=
  match b.btype with
  | 3 => { b with tSend := t }
  | 4 => { b with payload := b.payload.take 16 ++ leBytes 8 t }
  | _ => b

/-- BULK_FRAME_SEND: the head of a port starts once the port is free, when it ends before the next
cyclic window. -/
def execBulkFrameSend (c : Fin 16) (quarter : BitVec 2) (s : State) : Host.Outcome State Fault Refusal :=
  let p := c.val
  if !s.chain.up.contains p || (s.headBulk p).isNone then .next s
  else
    let s := s.reach (s.chain.busyTo.get 0 p)
    match s.chain.window, s.headBulk p with
    | some (cyc, cw), some (b, t) =>
      let n := b.blocks * 128
      let phase := s.time.t64.toNat % cyc
      if (cyc - cw) * 100 < n then .next (t.rejectBulk p b)
      else if phase < cw then .next s
      else if phase * 100 + n ≤ cyc * 100 then
        let b := b.stamped (s.t64Fine quarter)
        let t := t.modChain fun c => { c with busyTo := c.busyTo.set 0 p (s.time.now + (n + 99) / 100) }
        .next ((t.emit (.frame p b.bytes)).linkBump p .txBulkBytes b.payload.length)
      else
        let edge := s.time.t64.toNat / cyc + 1
        if s.chain.deferAt.get 0 p = edge then .next s
        else
          .next ((s.modChain fun c => { c with deferAt := c.deferAt.set 0 p edge }).linkBump p .windowDefer)
    | _, _ => .next s

/-! ## The host's channel commands (R352) -/

def State.import_ (s : State) (k : Nat) : Import := s.chain.imports.get {} k

/-- BIND_IMPORT. -/
def execBindImport (r : Fin 64) (d : Desc) (b : HostBuf) (s : State) : Host.Outcome State Fault Refusal :=
  let a := d.arg [4, 2]
  let k := d.target.toNat
  let c := a 0
  let x := s.ctxOf c
  let g := if x.st == .live then s.graph (s.lifeGraph c x.gen) else none
  let (part, node) := match g with
    | some g => importFeed g k
    | none => (0, 0)
  let m : Import :=
    { st := .active, station := a 1, ctx := c, gen := x.gen, cell := x.place.getD part 0, node := node
      cls := x.cls }
  let live := x.st == .live && !x.shadow
  let cs : CmdSpec :=
    { op := 0x0203, sizes := [4, 2], target := decide (k < 4096)
      range := (if 2 ^ 17 ≤ c then [32] else []) ++ if 4096 ≤ a 1 then [36] else []
      fails := [(eState, !live || (s.import_ k).st == .active), (eGuar, live && decide (x.cls ≤ 1))] }
  .next (s.hostCmd r d b cs fun _ s =>
    let s := s.modChain fun y => { y with imports := y.imports.set {} k m }
    let hub := match s.chain.route (a 1) none with
      | .ok p => chainHub p
      | .error _ => 0x94
    (s.askTwins hub 1 (s.importTwins k m)).finish r.val d)

/-- UNBIND_IMPORT. -/
def execUnbindImport (r : Fin 64) (d : Desc) (b : HostBuf) (s : State) : Host.Outcome State Fault Refusal :=
  let k := d.target.toNat
  let m := s.import_ k
  let c : CmdSpec :=
    { op := 0x0204, target := decide (k < 4096), fails := [(eState, m.st == .unbound)] }
  .next (s.hostCmd r d b c fun _ s =>
    let s := s.modChain fun y => { y with imports := y.imports.del k }
    let hubs := [0x94, 0x95, 0x96, 0x97]
    let s := (s.importTwins k m).foldl (fun s t =>
      hubs.foldl (fun s code => s.hubLeave code t.1 t.2.1) s) s
    s.finish r.val d)

end Sys2Proof.Machine
end

