-- ==== Sys2Proof/Machine/Cart.lean ====
section
/-! DEFINITION. The Cart: its launch, its pass through a station, its return to the root,
enumeration, detachment and rejoin, and the chain-configuration command (13_cart.md R335-R346,
R354-R356). -/

namespace Sys2Proof.Machine

open Sys2Proof.Crypto (crc32)

/-! ## The frame (R337, R338) -/

/-- Bytes put over those at an offset. -/
def putBytes (l : List Byte) (o : Nat) (b : List Byte) : List Byte := l.take o ++ b ++ l.drop (o + b.length)

/-- HCRC holds. -/
def cartOk (l : List Byte) : Bool := decide (96 ≤ l.length) && crc32 (l.take 92) == leAt l 92 4

/-- The header has been altered in flight: its CRC follows (log 28). -/
def cartSeal (l : List Byte) : List Byte := putBytes l 92 (leBytes 4 (crc32 (l.take 92)))

/-- Bytes of a Cart of as many slots as its header says. -/
def cartLen (l : List Byte) : Nat := 112 + 160 * leAt l 4 2

/-- What a station uses of a header. -/
structure CartHdr where
  cycle    : Nat
  root     : Nat
  flags    : Nat
  time     : BitVec 64
  corr     : Nat
  cycleLen : Nat
  cwLen    : Nat
  /-- CUR_EPOCH and CUR_ERA, K_ORIGIN, SETTLED_EPOCH and SETTLED_ERA as one index each. -/
  cur      : Nat
  nextId   : Nat
  origin   : BitVec 64
  kOrigin  : Nat
  len      : Nat
  running  : Bool
  changeT  : BitVec 64
  kind     : Nat
  newLen   : Nat
  settled  : Nat
  sflags   : Nat
  slots    : List Nat
  deriving DecidableEq, Repr

def readHdr (l : List Byte) : CartHdr :=
  { cycle := leAt l 0 2, root := leAt l 2 2 % 4096, flags := leAt l 6 2, time := BitVec.ofNat 64 (leAt l 8 8)
    corr := leAt l 16 8, cycleLen := leAt l 24 4, cwLen := leAt l 28 4
    cur := leAt l 32 4 + leAt l 36 2 * 2 ^ 32, nextId := leAt l 38 2 % 4096
    origin := BitVec.ofNat 64 (leAt l 40 8), kOrigin := leAt l 48 6, len := leAt l 56 4 * 1000
    running := leAt l 60 1 == 1, changeT := BitVec.ofNat 64 (leAt l 64 8), kind := leAt l 72 1
    newLen := leAt l 76 4 * 1000, settled := leAt l 80 4 + leAt l 84 2 * 2 ^ 32, sflags := leAt l 88 4
    slots := (List.range (min (leAt l 4 2) ((l.length - 96) / 160))).map fun i => leAt l (96 + 160 * i) 2 % 4096 }

/-- CCRC of a slot. -/
def slotCcrc (l : List Byte) : Nat := crc32 (l.take 3 ++ bytesAt l 4 2 ++ bytesAt l 8 32)

/-- ACRC of a slot. -/
def slotAcrc (l : List Byte) : Nat := crc32 (bytesAt l 3 1 ++ bytesAt l 6 2 ++ bytesAt l 40 96)

/-- A slot as the root writes it. -/
def slotOf (station cmd cseq : Nat) (carg : List Byte) : List Byte :=
  let l := leBytes 2 station ++ leBytes 1 cmd ++ leBytes 1 0 ++ leBytes 2 cseq ++ leBytes 2 0 ++
    bytesAt carg 0 32 ++ List.replicate 96 0#8
  l ++ leBytes 4 (slotCcrc l) ++ List.replicate 20 0#8

/-- A slot answered. -/
def slotAnswered (l : List Byte) (type aseq : Nat) (ans : List Byte) : List Byte :=
  let l := putBytes (putBytes (putBytes l 3 (leBytes 1 type)) 6 (leBytes 2 aseq)) 40 (bytesAt ans 0 96)
  putBytes l 140 (leBytes 4 (slotAcrc l))

/-! ## The walk (R336) -/

/-- The port that a station forwards a Cart on, from the port it came on. -/
def Chain.onward (c : Chain) (p : Nat) : Nat :=
  match c.mode with
  | .ring =>
    let q := if p = c.portA then c.portB else c.portA
    if c.up.contains q then q else p
  | _ =>
    let d := c.downs.filter fun q => c.up.contains q && q != c.upPort
    let rest := if p = c.upPort then d else d.filter fun q => decide (p < q)
    rest.headD c.upPort

/-- A Cart leaves on a port that is up. -/
def State.sendCart (s : State) (p : Nat) (cart : List Byte) : State :=
  if s.chain.up.contains p then s.emit (.frame p cart) else s

/-- CORR of a pass from `p` to `q` (R344). -/
def State.addCorr (s : State) (p q : Nat) (cart : List Byte) : List Byte × State :=
  let (lat, s) := s.passOf p q
  let corr := leAt cart 16 8 + s.chain.linkDelay.get 0 p + lat * 16384
  (cartSeal (putBytes cart 16 (leBytes 8 corr)), s)

/-! ## Time at a station (R344) -/

/-- T64 of the station less the root's at the header's arrival, in units of 2^-16 ns. -/
def State.rootOffset (s : State) (h : CartHdr) (p : Nat) : Int :=
  (s.time.t64 - h.time).toInt * 65536 + (s.time.frac * 65536 / subNs : Nat) -
    (h.corr : Int) - (s.chain.linkDelay.get 0 p : Nat)

/-- The T64 of the root at the header's arrival. -/
def State.rootTime (s : State) (h : CartHdr) (p : Nat) : BitVec 64 :=
  h.time + BitVec.ofNat 64 ((h.corr + s.chain.linkDelay.get 0 p) / 65536)

/-- A slew of the offset sets out, at a rate in ppm. -/
def State.followAt (s : State) (off : Int) (ppm : Nat) : State :=
  s.modTime fun t => { t with follow := -off * 1000000, followRate := ppm * 65536 }

/-- T64 steps forward by what the station is behind. -/
def State.stepForward (s : State) (off : Int) : State :=
  let total : Int := s.time.frac + off.natAbs * 1000000
  let s := s.slotSync.modTime fun t => { t with
    t64 := t.t64 + BitVec.ofNat 64 (total / subNs).toNat, frac := (total % subNs).toNat, follow := 0 }
  s.realign.postEvent 452 0x62

/-- The station corrects T64, or detaches. -/
def State.correct (s : State) (off : Int) : State :=
  let ns := 65536
  let big := decide (100 * ns < off.natAbs)
  let s := s.modChain fun c => { c with
    offset := off, offHigh := if big then c.offHigh + 1 else 0
    offLow := if off.natAbs < 20 * ns then min 16 (c.offLow + 1) else 0 }
  match s.chain.st with
  | .attached => if !big then s.followAt off 200 else if 3 ≤ s.chain.offHigh then s.detach else s
  | .rejoining => if off < -(1000 * ns : Int) then s.stepForward off else s.followAt off 500
  | .detached => s

/-! ## Epochs at a station (R345) -/

/-- The root's numbering of the epochs. -/
def CartHdr.numbering (h : CartHdr) (w : Writer) : Writer :=
  { w with origin := h.origin, kOrigin := h.kOrigin, len := h.len, prevLen := h.len, older := [], firstK := 0 }

/-- A change that the header announces waits for CHANGE_T64, unless it has been made. -/
def State.takeChange (s : State) (h : CartHdr) : State :=
  let w := s.writer
  let idle := w.st == .stopped
  if h.kind = 1 && idle then
    s.modWriter fun w => { w with req := some (.start h.changeT h.kOrigin (some h.len)) }
  else if h.kind = 2 && !idle && !(w.len == h.newLen && !laterT h.changeT w.origin) then
    s.modWriter fun w => { w with req := some (.length h.changeT h.newLen) }
  else if h.kind = 3 && !idle && w.lastK.isNone then
    s.modWriter fun w => { w with req := some (.stop h.changeT) }
  else s

/-- A rejoining station takes the configuration whole (R355 step 3): epochs that run by another
numbering start anew with the chain's (log 29). -/
def State.takeEpochs (s : State) (h : CartHdr) (t : BitVec 64) : State :=
  let w := s.writer
  let n := h.numbering w
  if h.running then
    match n.epochOf t with
    | none => s
    | some k =>
      let same := w.st == .running && w.epochOf t == some k && w.tb (k + 1) == n.tb (k + 1)
      if same then s.takeChange h
      else
        ((s.epochsStart (n.tb k) k h.len).modWriter fun w => { w with
          origin := h.origin, kOrigin := h.kOrigin }).takeChange h
  else if w.st == .running then
    if w.lastK.isNone then s.modWriter fun w => { w with lastK := some w.k, req := none } else s
  else s.takeChange h

/-- The last epoch, when a STOP has named it: the one in progress at its time (R308). -/
def Writer.lastEpoch (w : Writer) : Option Nat :=
  match w.lastK, w.req with
  | some l, _ => some l
  | none, some (.stop u) => w.epochOf u
  | none, _ => none

/-- The epoch that a time falls in, as the header and the station count it: none after the last. -/
def Writer.current (w : Writer) (t : BitVec 64) : Option Nat :=
  (w.epochOf t).map fun k => match w.lastEpoch with
    | some l => min k l
    | none => k

/-- The epoch of the root's time is not the header's (R345, log 150). -/
def State.epochSlips (s : State) (h : CartHdr) (t : BitVec 64) : Bool :=
  let w := s.writer
  h.running &&
  (if w.st == .running then
    match w.current t with
    | some k => k % 2 ^ 48 != h.cur
    | none => true
  else h.kind != 3 && w.req.isNone)

/-- The steps of R355 before REJOIN_REQ are done: LINK_DELAY measured and T64 close. -/
def Chain.ready (c : Chain) (p : Nat) : Bool := c.measured.contains p && decide (16 ≤ c.offLow)

/-- Epoch configuration and settled epoch of a header (R345, R326). -/
def State.takeTime (s : State) (h : CartHdr) (p : Nat) : State :=
  let t := s.rootTime h p
  let ready := s.chain.ready p
  let s := match s.chain.st with
    | .attached => s.takeChange h
    | .rejoining => if ready then s.takeEpochs h t else s
    | .detached => s
  let check := s.chain.st == .attached || (s.chain.st == .rejoining && ready)
  let s := if check && s.epochSlips h t then (s.chainBump .epochSlip).detach else s
  let own := match s.writer.settled with
    | some x => x.1
    | none => s.writer.firstK + 2 ^ 48 - 1
  if s.chain.st == .attached && later 48 h.settled own then
    s.settleTo (near48 s.writer.w h.settled) h.sflags
  else s

/-! ## The slot at a station (R339) -/

/-- The station state as STATUS names it. -/
def StationSt.code : StationSt → Nat
  | .detached => 0
  | .rejoining => 1
  | .attached => 2

/-- The content of STATUS, REJOIN_REQ and PONG; PASS_LAT is that of the pass in progress (log 16). -/
def State.stationStatus (s : State) (lat : Nat) : List Byte :=
  let k := if s.writer.st == .running then s.writer.k else 0
  leBytes 2 s.chain.st.code ++ leBytes 8 (narrow 64 s.chain.offset) ++ leBytes 4 k ++
  leBytes 2 (k / 2 ^ 32) ++ leBytes 1 lat

/-- Bytes that the station's host supplies: free values. -/
def State.drawBytes : Nat → State → List Byte × State
  | 0, s => ([], s)
  | n + 1, s =>
    let (v, s) := s.draw
    let (l, s) := State.drawBytes n s
    (leBytes 8 v.toNat ++ l, s)

/-- The answer of a cycle: ANS_TYPE, ASEQ and content.  What answers no command carries the CSEQ of
the slot (log 30). -/
def State.slotAnswer (s : State) (p lat cseq : Nat) : (Nat × Nat × List Byte) × State :=
  match s.chain.unanswered with
  | (cmd, q) :: rest =>
    let s := s.modChain fun c => { c with unanswered := rest }
    if cmd = 2 then ((4, q, s.stationStatus lat), s)
    else if cmd = 3 then
      let (l, s) := s.drawBytes 4
      ((5, q, l), s)
    else ((1, q, s.stationStatus lat), s)
  | [] =>
    if s.chain.st == .rejoining && s.chain.ready p then ((3, cseq, s.stationStatus lat), s)
    else match s.chain.summaries with
      | m :: rest => ((2, cseq, m), s.modChain fun c => { c with summaries := rest })
      | [] => ((1, cseq, s.stationStatus lat), s)

/-- A command of the root reaches the station. -/
def State.takeCommand (s : State) (cmd cseq : Nat) (carg : List Byte) : State :=
  let s := if cmd = 0 then s else s.modChain fun c => { c with unanswered := c.unanswered ++ [(cmd, cseq)] }
  match cmd with
  | 1 =>
    if s.chain.st == .rejoining then
      let s := s.modChain fun c => { c with
        st := .attached, firstEpoch := some (leAt carg 0 4 + leAt carg 4 2 * 2 ^ 32), offHigh := 0 }
      (s.chainBump .rejoinCount).postEvent 452 0x65
    else s
  | 3 =>
    let s := s.emit (.hostMsg (bytesAt carg 0 32))
    { s with steward := { s.steward with evPend := s.steward.evPend ||| 0x08#7 } }.postEvent 452 0x60
      (s.chain.rootId.getD 0)
  | 4 => s.detach.modChain fun c => { c with barred := true, unanswered := [(cmd, cseq)] }
  | _ => s

/-- The station's own slot: the answer is chosen before the command of this cycle has been read
whole, and a slot with a bad command is ignored (R339, R341). -/
def State.takeSlot (s : State) (p lat : Nat) (slot : List Byte) : List Byte × State :=
  let cmd := leAt slot 2 1
  let cseq := leAt slot 4 2
  if 4 < cmd || slotCcrc slot != leAt slot 136 4 then (slot, s.chainBump .cmdBad)
  else
    let s := s.modChain fun c => { c with
      unanswered := c.unanswered.filter fun u => decide ((cseq + 65536 - u.2) % 65536 ≤ 2) }
    let (a, s) := s.slotAnswer p lat cseq
    (slotAnswered slot a.1 a.2.1 a.2.2, s.takeCommand cmd cseq (bytesAt slot 8 32))

/-- The ID at a station (R346, R355): taken in enumeration or from an offer, lost with the slot. -/
def State.takeId (s : State) (h : CartHdr) (cart : List Byte) (whole : Bool) : List Byte × State :=
  if bit h.flags 0 then
    if h.nextId = 0 then (cart, s.modChain fun c => { c with id := none })
    else
      (putBytes cart 38 (leBytes 2 ((h.nextId + 1) % 4096)), s.modChain fun c => { c with id := some h.nextId })
  else match s.chain.id with
    | some k =>
      if whole && s.chain.st != .attached && !h.slots.contains k then
        (cart, s.modChain fun c => { c with id := none })
      else (cart, s)
    | none =>
      if bit h.flags 1 && !bit h.flags 2 && !s.chain.barred then
        (putBytes cart 6 (leBytes 2 (h.flags + 4)), s.modChain fun c => { c with id := some h.nextId })
      else (cart, s)

/-! ## The pass (R341, R343, R354) -/

/-- The places in the walk of the stations that have answered. -/
def answeredIn (cart : List Byte) : List Nat :=
  ((List.range (min (leAt cart 4 2) ((cart.length - 96) / 160))).filter fun i =>
    leAt cart (99 + 160 * i) 1 != 0).map (· + 1)

/-- Where a split ring ends, by a Cart that comes back on `p`: on PORT_A from the half that begins there, whose
last station has answered; on PORT_B from the other (R336, R348). -/
def Chain.endBy (c : Chain) (p : Nat) (cart : List Byte) : Nat :=
  let l := answeredIn cart
  if p = c.portA then l.foldl max 0 else l.headD (leAt cart 4 2 + 1) - 1

/-- A Cart that came on `p` and goes on to `q` is taken on its first pass.  In CHAIN and TREE a station
rejoins only while its up port is up (R354). -/
def State.takeCart (s : State) (p q : Nat) (h : CartHdr) (cart : List Byte) (whole : Bool) :
    List Byte × State :=
  let wakes := s.chain.st == .detached && !s.chain.barred &&
    (s.chain.mode == .ring || s.chain.up.contains s.chain.upPort)
  let s := s.modChain fun c => { c with
    lastCycle := some h.cycle, lastAt := s.time.now, seen := some (h.cycle, s.time.now)
    hdrCycleLen := h.cycleLen, cwLen := h.cwLen, ringSplit := bit h.flags 3, walk := h.root :: h.slots
    ringEnd := if bit h.flags 3 then c.ringEnd else none, rootId := some h.root
    st := if wakes then .rejoining else c.st, offLow := if c.st == .detached then 0 else c.offLow }
  let s := (s.correct (s.rootOffset h p)).takeTime h p
  let (cart, s) := s.takeId h cart whole
  match s.chain.id.bind fun k => h.slots.findIdx? (· == k) with
  | none => s.addCorr p q cart
  | some i =>
    let o := 96 + 160 * i
    let (lat, s) := s.passOf p q
    let (slot, s) := s.takeSlot p lat (bytesAt cart o 160)
    s.addCorr p q (putBytes cart o slot)

/-- The Cart is within the window of R343: with the number of cycles it is later. -/
def State.cartLater (s : State) (cycle : Nat) : Option Nat :=
  match s.chain.lastCycle with
  | none => some 1
  | some l =>
    let d := (cycle + 65536 - l) % 65536
    if s.chain.lastAt + 1024 * s.chain.cycle ≤ s.time.now then some 1
    else if 1 ≤ d && d ≤ 1024 then some d else none

/-- CART_PASS: `short` says that the Cart ended without TERM or went on beyond its length. -/
def execCartPass (c : Fin 16) (cart : List Byte) (short : Bool) (perr : Nat) (s : State) :
    Host.Outcome State Fault Refusal :=
  let p := c.val
  if s.chain.role != .station || !s.chain.up.contains p then .next s
  else
    let s := s.linkBump p .blockErr perr
    let q := s.chain.onward p
    let good := cartOk cart
    let cut := short || (good && cart.length != cartLen cart)
    let s := if cut then s.chainBump .cartTrunc else s
    let cart := if good then cart.take (cartLen cart) else cart
    if !good then .next ((s.chainBump .cartHcrc).sendCart q cart)
    else
      let h := readHdr cart
      let again := match s.chain.seen with
        | some x => x.1 == h.cycle && decide (s.time.now < x.2 + h.cycleLen)
        | none => false
      if again then
        if s.chain.lastCycle == some h.cycle then
          let s := if bit h.flags 3 then s.modChain fun c => { c with ringEnd := some (c.endBy p cart) } else s
          let (cart, s) := s.addCorr p q cart
          .next (s.sendCart q cart)
        else .next (s.sendCart q cart)
      else
        match s.cartLater h.cycle with
        | none =>
          let s := s.modChain fun c => { c with seen := some (h.cycle, s.time.now) }
          .next ((s.chainBump .cartOutWindow).sendCart q cart)
        | some d =>
          if s.chain.rootId.isSome && s.chain.rootId != some h.root then .next (s.detach.sendCart q cart)
          else
            let s := s.chainBump .cartMissed (d - 1)
            let (cart, s) := s.takeCart p q h cart (!cut)
            .next (s.sendCart q cart)

/-- CART_LOSS_DETACH: no Cart taken for CART_LOSS cycles. -/
def execCartLossDetach (s : State) : Host.Outcome State Fault Refusal :=
  if s.chain.role != .station || s.chain.st == .detached then .next s
  else .next (s.reach (s.chain.lastAt + s.chain.cartLoss * s.chain.cycle)).detach

/-! ## The cyclic window (R340) -/

/-- Passes of a walk with `n` member stations (R336, R340): every link is crossed twice, from the root's down
ports on; a ring counts as split next to the root. -/
def Chain.passes (c : Chain) (n : Nat) : Nat :=
  let r := if c.mode == .tree then (c.downs.filter c.up.contains).length else 1
  2 * n - r

/-- CW_LEN for `n` member stations: the walk's cable and passes, the Cart's frame time, 100 ns, in
hundredths of a nanosecond and then rounded up. -/
def Chain.cwFor (c : Chain) (n : Nat) : Nat :=
  let cable := if c.mode == .ring then
      2 * (c.cable - min (c.linkDelay.get 0 c.portA) (c.linkDelay.get 0 c.portB))
    else c.cable
  let total := (cable * 100 + 65535) / 65536 + c.passes n * 4800 + 2048 + 2560 * n + 10000
  (total + 9999) / 10000 * 100

/-- The bulk window with `n` stations is at least 500 ns. -/
def Chain.roomy (c : Chain) (n : Nat) : Bool := decide (c.cwFor n + 500 ≤ c.cycleLen)

/-! ## Slots at the root (R338, R346, R356) -/

def State.rootSlot (s : State) (k : Nat) : Option RootSlot := s.chain.slots.find? fun x => x.station == k

def State.modSlot (k : Nat) (f : RootSlot → RootSlot) (s : State) : State :=
  s.modChain fun c => { c with slots := c.slots.map fun x => if x.station == k then f x else x }

/-- The slot of a station that has taken an ID. -/
def newSlot (k : Nat) : RootSlot :=
  { station := k, st := .rejoining, cmd := 0, cseq := 0, acked := false, heard := true, silent := 0
    goneAt := 0, lat := 160, first := none }

/-- What waits for summaries is looked at again (R326). -/
def State.settleMore (s : State) : State := s.rootSettle s.writer.rootVarn

/-- The root holds a station DETACHED. -/
def State.holdDetached (s : State) (k : Nat) : State :=
  match s.rootSlot k with
  | some x =>
    if x.st == .detached then s
    else (s.modSlot k fun x => { x with st := .detached, goneAt := s.time.now, first := none }).postEvent 452 0x66
  | none => s

/-- A cycle without an answer is counted against each station that gave none. -/
def State.countSilence (s : State) : State :=
  let s := s.modChain fun c => { c with slots := c.slots.map fun x =>
    if x.heard then x else { x with silent := x.silent + 1 } }
  let lost := s.chain.slots.filter fun x => !x.heard && decide (s.chain.cartLoss ≤ x.silent)
  (lost.foldl (fun s x => s.holdDetached x.station) s).settleMore

/-- DETACH_HOLD_EXPIRY: the slot goes and the ID is free. -/
def execDetachHoldExpiry (station : BitVec 12) (s : State) : Host.Outcome State Fault Refusal :=
  let k := station.toNat
  match s.rootSlot k with
  | some x =>
    if s.chain.role != .root || x.st != .detached then .next s
    else
      let s := s.reach (x.goneAt + s.chain.detachHold)
      .next (s.modChain fun c => { c with slots := c.slots.filter fun y => y.station != k }).settleMore
  | none => .next s

/-! ## The launch (R336, R337, R346) -/

/-- The first epoch that begins at or after a time (R355). -/
def State.epochAfter (s : State) (t : BitVec 64) : Nat :=
  let w := s.writer
  if w.st == .running then
    match w.epochOf (t - 1) with
    | some k => k + 1
    | none => w.firstK
  else match w.req with
    | some (.start _ k _) => k
    | _ => 0

def ChainMode.code : ChainMode → Nat
  | .chain => 0
  | .ring => 1
  | .tree => 2

/-- The epoch fields of the header, from CUR_EPOCH on apart from NEXT_ID. -/
def State.epochFields (s : State) (t : BitVec 64) : List Byte × List Byte :=
  let w := s.writer
  let k := (w.current t).getD w.k
  let run := w.st == .running
  let cur := if run then leBytes 6 k else leBytes 6 0
  let (o, ko, len) := match w.req with
    | some (.start u k l) => (u, k, l.getD w.len)
    | _ => (w.origin, w.kOrigin, w.len)
  let (ct, kind, nl) := match w.req, w.lastK with
    | some (.start u _ _), _ => (u.toNat, 1, 0)
    | some (.length u n), _ => (u.toNat, 2, n)
    | some (.stop u), _ => (u.toNat, 3, 0)
    | none, some l => ((w.tb l).toNat, 3, 0)
    | none, none => (0, 0, 0)
  let (sk, sf) := match w.settled with
    | some x => x
    | none => (w.firstK + 2 ^ 48 - 1, 0)
  (cur, leBytes 8 o.toNat ++ leBytes 6 ko ++ leBytes 2 0 ++ leBytes 4 (len / 1000) ++ leBytes 1 (b2n run) ++
    leBytes 3 0 ++ leBytes 8 ct ++ leBytes 1 kind ++ leBytes 3 0 ++ leBytes 4 (nl / 1000) ++ leBytes 6 sk ++
    leBytes 2 0 ++ leBytes 4 sf)

/-- The ports that the root launches on. -/
def Chain.launchOn (c : Chain) : List Nat :=
  match c.mode with
  | .ring =>
    if c.up.contains c.portA && (!c.split && c.up.contains c.portB) then [c.portA]
    else [c.portA, c.portB].filter c.up.contains
  | _ => (c.downs.filter c.up.contains).take 1

/-- The ring is split as the next header says. -/
def Chain.splitNow (c : Chain) : Bool :=
  c.mode == .ring && (c.split || !(c.up.contains c.portA && c.up.contains c.portB))

/-- The lowest free ID. -/
def Chain.freeId (c : Chain) : Option Nat :=
  (List.range 4096).find? fun k => k != 0 && !(c.slots.any fun x => x.station == k)

/-- The slots of a launch: each takes its next CSEQ, and REJOIN_ACK names the first epoch after the
cycle. -/
def RootSlot.launch (x : RootSlot) (first : Nat) : RootSlot :=
  { x with
    cseq := (x.cseq + 1) % 65536, acked := x.cmd == 1, heard := false
    first := if x.cmd == 1 && x.st != .attached then some first else x.first }

/-- CART_LAUNCH: T64 reaches the next multiple of CYCLE_LEN; the first header byte leaves 3 to 7 ns
later, which the spec leaves open within those bounds (R357).  `split` says that a link of the ring is not
up, or not yet for 1 ms, between two other stations (R336, log 289). -/
def execCartLaunch (s : State) : Host.Outcome State Fault Refusal :=
  if s.chain.role != .root then .next s
  else
    let cyc := s.chain.cycleLen
    let n := (s.time.t64.toNat + cyc - 1) / cyc
    let n := if s.chain.launched == some n then n + 1 else n
    let s := s.reachT64 (n * cyc)
    let s := if s.chain.launched.isSome then s.countSilence else s
    let s := s.modChain fun c => { c with ringEnd := if c.split then c.ringEnd else none }
    let (v, s) := s.draw
    let s := s.elapse (3 + v.toNat % 5)
    let c := s.chain
    let joins := c.newcomer && !c.enumWanted
    let room := c.roomy (c.slots.length + 1)
    let offer := if joins && room then c.freeId else none
    let s := if joins && !room then s.postEvent 452 0x61 else s
    let first := s.epochAfter (BitVec.ofNat 64 ((n + 1) * cyc))
    let slots := c.slots.map fun x => x.launch first
    let body := if c.enumWanted then []
      else slots.flatMap fun x =>
        slotOf x.station x.cmd x.cseq (if x.cmd = 1 then leBytes 6 (x.first.getD 0) else [])
    let cw := c.cwFor c.slots.length
    let e := s.epochFields s.time.t64
    let flags := b2n c.enumWanted + 2 * b2n offer.isSome + 8 * b2n c.splitNow
    let head := leBytes 2 n ++ leBytes 2 (c.mode.code * 4096) ++
      leBytes 2 (if c.enumWanted then 0 else slots.length) ++ leBytes 2 flags ++ leBytes 8 s.time.t64.toNat ++
      leBytes 8 0 ++ leBytes 4 cyc ++ leBytes 4 cw ++ e.1 ++
      leBytes 2 (if c.enumWanted then 1 else offer.getD 0) ++ e.2
    let cart := head ++ leBytes 4 (crc32 head) ++ body ++ List.replicate 16 0#8
    let s := s.modChain fun c => { c with
      launched := some n, cwLen := cw, newcomer := false, offered := offer, enumOut := c.enumWanted
      slots := if c.enumWanted then c.slots.map fun x => { x with heard := true }
        else slots.map fun x => { x with cmd := 0 }
      walk := 0 :: c.slots.map (·.station), sentCart := cart, sentOn := c.launchOn }
    .next (s.chain.sentOn.foldl (fun s p => s.sendCart p cart) s)

/-! ## The return (R342, R355, R356) -/

/-- The bytes of a slot that only the root writes. -/
def rootPart (l : List Byte) : List Byte :=
  l.take 3 ++ bytesAt l 4 2 ++ bytesAt l 8 32 ++ bytesAt l 136 4 ++ bytesAt l 144 16

/-- The bytes of a slot that its station writes. -/
def stationPart (l : List Byte) : List Byte := bytesAt l 6 2 ++ bytesAt l 40 96 ++ bytesAt l 140 4

/-- The bytes of a Cart's header and trailer that no station alters: NEXT_ID changes in an enumeration, TAKEN
under an offer, CORR and HCRC always (R337, R342). -/
def fixedPart (enum offer : Bool) (l : List Byte) : List Byte :=
  l.take 6 ++ (if offer then leBytes 2 (setBit (leAt l 6 2) 2 false) else bytesAt l 6 2) ++ bytesAt l 8 8 ++
  bytesAt l 24 14 ++ (if enum then [] else bytesAt l 38 2) ++ bytesAt l 40 52

/-- The trailer. -/
def cartTrailer (l : List Byte) : List Byte := l.drop (96 + 160 * leAt l 4 2)

/-- A station's state as it reports it. -/
def State.heardState (s : State) (k : Nat) (ans : List Byte) : State :=
  let s := s.modSlot k fun x => { x with lat := leAt ans 16 1 }
  match leAt ans 0 2 with
  | 2 => s.modSlot k fun x => { x with st := .attached }
  | 1 => s.modSlot k fun x => { x with st := .rejoining, first := if x.acked then x.first else none }
  | _ => s.holdDetached k

/-- A summary reaches the root (R326, R355). -/
def State.takeSummary (s : State) (x : RootSlot) (ans : List Byte) : State :=
  let k := near48 s.writer.w (leAt ans 0 6)
  let done := match s.writer.settled with
    | some y => decide (k ≤ y.1) && decide (s.writer.firstK ≤ y.1)
    | none => false
  if !(x.first.any fun f => decide (f ≤ k)) then s.chainBump .summaryPreJoin
  else if done then s.varnBump .summaryLate
  else if s.writer.summaries.any fun e => e.1 == k && e.2.1 == x.station then s
  else s.modWriter fun w => { w with summaries := w.summaries ++ [(k, x.station, leAt ans 20 4)] }

/-- The answer of a slot is acted on. -/
def State.takeAnswer (s : State) (x : RootSlot) (type : Nat) (ans : List Byte) : State :=
  let k := x.station
  let s := s.modSlot k fun x => { x with heard := true, silent := 0 }
  match type with
  | 2 => s.takeSummary x ans
  | 3 =>
    let s := s.heardState k ans
    -- one that rides with the acknowledgement does not ask again
    if x.acked then s else s.modSlot k fun x => { x with cmd := 1 }
  | 5 => s.emit (.hostReply k (bytesAt ans 0 32))
  | _ => s.heardState k ans

/-- A slot of the returned Cart is checked: a slot without a valid answer is unanswered, and a
violation is counted and nothing is done (R341, R342). -/
def State.checkSlot (s : State) (cart : List Byte) (i : Nat) : State :=
  let o := 96 + 160 * i
  let a := bytesAt cart o 160
  let b := bytesAt s.chain.sentCart o 160
  let type := leAt a 3 1
  match s.rootSlot (leAt b 0 2) with
  | none => s
  | some x =>
    let late := (x.cseq + 65536 - leAt a 6 2) % 65536
    if cart.length < o + 160 then s
    else if rootPart a != rootPart b then s.chainBump .cartPeerViol
    else if type = 0 then
      if stationPart a != stationPart b then s.chainBump .cartPeerViol else s
    else if slotAcrc a != leAt a 140 4 then s
    else if 5 < type || 1 < late then s.chainBump .cartPeerViol
    else s.takeAnswer x type (bytesAt a 40 96)

/-- The enumerating Cart is back: the root reads the count and builds the slots (R346); stations that do not
fit have the command rejected, which leaves the slots as they were (R340, R8, log 157). -/
def State.enumBack (s : State) (nextId : Nat) : State :=
  let n := if nextId = 0 then 4095 else nextId - 1
  let m := ((List.range (n + 1)).filter s.chain.roomy).foldl max 0
  let s := s.modChain fun c => { c with enumWanted := false, enumOut := false }
  let mine := fun (r : Running) => r.wait == .enumerate
  if m = n then
    let s := (s.modChain fun c => { c with slots := (List.range m).map fun i => newSlot (i + 1) }).settleMore
    (s.postEvent 452 0x63).completeWhere mine stOk n
  else (s.settleMore.postEvent 452 0x61).completeWhere mine eRange

/-- A station took the ID on offer. -/
def State.joined (s : State) (k : Nat) : State :=
  s.modChain fun c => { c with
    offered := none
    slots := (c.slots.filter fun x => decide (x.station < k)) ++ [newSlot k] ++
      c.slots.filter fun x => decide (k < x.station) }

/-- The walk has ended: the Cart is read.  `cable` is the cable delay of the whole walk, as the stations have
measured it (R340, R344, log 290).  One that comes back on the port that it was launched on shows where a ring
is split. -/
def State.readReturn (s : State) (p via : Nat) (cart : List Byte) (cut : Bool) (cable : Nat) : State :=
  let c := s.chain
  let turned := c.mode == .ring && p == via
  let s := s.modChain fun c => { c with
    ringEnd := if turned then some (c.endBy p cart) else c.ringEnd }
  let same := fixedPart c.enumOut c.offered.isSome cart == fixedPart c.enumOut c.offered.isSome c.sentCart &&
    (cut || cartTrailer cart == cartTrailer c.sentCart)
  if !same then s.chainBump .cartPeerViol
  else
    let s := if cut || turned then s else s.modChain fun c => { c with cable := cable }
    if c.enumOut then s.enumBack (leAt cart 38 2 % 4096)
    else
      let s := (List.range (leAt c.sentCart 4 2)).foldl (fun s i => s.checkSlot cart i) s
      let s := match c.offered with
        | some k => if bit (leAt cart 6 2) 2 then s.joined k else s
        | none => s
      s.settleMore

/-- A Cart of another root is discarded (R356). -/
def State.foreignCart (s : State) : State :=
  let new := s.chain.foreignAt.isNone
  let s := (s.chainBump .cartForeign).modChain fun c => { c with foreignAt := some s.time.now }
  if new then s.postEvent 452 0x67 else s

/-- CART_RETURN: in CHAIN and TREE the root, too, forwards the Cart to its next port (R336).  `via`
is the port that this Cart was launched on; `fin.broken` says that a link between two other stations is down as
the next launch finds it (R336, log 289). -/
def execCartReturn (c via : Fin 16) (cart : List Byte) (short : Bool) (fin : CartEnd) (s : State) :
    Host.Outcome State Fault Refusal :=
  let p := c.val
  if s.chain.role != .root || !s.chain.up.contains p then .next s
  else
    let s := (s.linkBump p .blockErr fin.perr).modChain fun c => { c with split := fin.broken }
    let good := cartOk cart
    let own := bytesAt cart 0 2 == bytesAt s.chain.sentCart 0 2 && bytesAt cart 8 8 == bytesAt s.chain.sentCart 8 8 &&
      !s.chain.sentCart.isEmpty
    let cut := short || (good && cart.length != cartLen cart)
    let s := if cut then s.chainBump .cartTrunc else s
    let next := if s.chain.mode == .ring then none
      else (s.chain.downs.filter fun q => s.chain.up.contains q && decide (p < q)).head?
    if !good then
      let s := s.chainBump .cartHcrc
      match next with
      | some q => .next (s.sendCart q cart)
      | none => .next s
    else if !own then .next s.foreignCart
    else
      match next with
      | some q =>
        let (cart, s) := s.addCorr p q cart
        .next (s.sendCart q cart)
      | none => .next (s.readReturn p via.val cart cut fin.cable)

/-- ROOT_CONFLICT_REARM: 1 s has passed with no foreign Cart. -/
def execRootConflictRearm (s : State) : Host.Outcome State Fault Refusal :=
  match s.chain.foreignAt with
  | none => .next s
  | some t => .next ((s.reach (t + 1000000000)).modChain fun c => { c with foreignAt := none })

/-! ## The host's commands (R335, R346) -/

/-- ENUMERATE. -/
def execEnumerate (r : Fin 64) (d : Desc) (b : HostBuf) (s : State) : Host.Outcome State Fault Refusal :=
  let c : CmdSpec :=
    { op := 0x0501, target := d.target == 0
      fails := [(eState, s.chain.role != .root || s.chain.enumWanted)] }
  .next (s.hostCmd r d b c fun _ s =>
    (s.modChain fun c => { c with enumWanted := true }).await r.val d .enumerate)

def roleOf : Nat → ChainRole
  | 0 => .off
  | 1 => .root
  | _ => .station

def modeOf : Nat → ChainMode
  | 0 => .chain
  | 1 => .ring
  | _ => .tree

/-- A device that leaves its chain is its own root: what waited for the chain settles (R326). -/
def State.leaveChain (s : State) : State :=
  match s.chain.role with
  | .off => s
  | .station => s.settleOwn 0
  | .root =>
    let l := s.writer.rootVarn
    let s := l.foldl (fun s e =>
      s.settleTo e.1 (((s.writer.summaries.filter fun x => x.1 == e.1).map fun x => x.2.2).foldl (· ||| ·) 0)) s
    s.modWriter fun w => { w with rootVarn := [], summaries := [], settleOver := false }

/-- The chain state of a new role: links, channels, counters and chain-sends stay. -/
def Chain.renew (c : Chain) (role : ChainRole) : Chain :=
  { role := role, mode := c.mode, upPort := c.upPort, downPorts := c.downPorts, portA := c.portA
    portB := c.portB, cycleLen := c.cycleLen, stationAge := c.stationAge, detachHold := c.detachHold
    cartLoss := c.cartLoss, up := c.up, linkDelay := c.linkDelay, measured := c.measured
    measureAt := c.measureAt, nbr := c.nbr, passLat := c.passLat, bseq := c.bseq, imports := c.imports
    importWait := c.importWait, sends := c.sends, busyTo := c.busyTo, portCnt := c.portCnt, cnt := c.cnt
    id := if role == .root then some 0 else none }

/-- The device takes another role; it leaves role 0 of R501 when it becomes a station (R502). -/
def State.newRole (s : State) (role : ChainRole) : State :=
  let s := s.leaveChain
  let s := s.completeWhere (fun r => r.wait == .enumerate) eTimeout
  let s := s.modChain fun c => c.renew role
  s.modTime fun t =>
    if role == .station then { t with phaseRem := 0, slewing := false } else { t with follow := 0 }

/-- CHAIN_CONFIG. -/
def execChainConfig (r : Fin 64) (d : Desc) (b : HostBuf) (s : State) : Host.Outcome State Fault Refusal :=
  let pair := PRow.mk (fun v => decide (v % 65536 < 16) && decide (v / 65536 < 16)) false
  let rows := [rowEnum 3, rowEnum 3, rowNat 0 15, rowNat 0 65535, pair, rowTime 5000 10000000 100,
    rowTime 100000000 60000000000 1000000, rowTime 1000000000 3600000000000 1000000000, rowNat 2 255]
  let p := params rows d b
  let c := s.chain
  let role := match p.get 1 with
    | some v => roleOf v
    | none => c.role
  let mode := match p.get 2 with
    | some v => modeOf v
    | none => c.mode
  let up := p.val 3 c.upPort
  let downs := p.val 4 c.downPorts
  let ring := p.val 5 (c.portA + 65536 * c.portB)
  let n := { c with
    mode := mode, upPort := up, downPorts := downs, portA := ring % 65536, portB := ring / 65536
    cycleLen := p.val 6 c.cycleLen, stationAge := p.val 7 c.stationAge
    detachHold := p.val 8 c.detachHold, cartLoss := p.val 9 c.cartLoss, barred := false
    launched := if p.val 6 c.cycleLen = c.cycleLen then c.launched else none }
  let many := mode == .chain && decide (1 < popCount 16 downs) && ((p.get 2).isSome || (p.get 4).isSome)
  let short := c.role == .root && role == .root && (p.get 6).isSome && !n.roomy c.slots.length
  let ports := up != c.upPort || downs != c.downPorts || ring != c.portA + 65536 * c.portB
  let alters := role != c.role || mode != c.mode || ports
  let cs : CmdSpec :=
    { op := 0x0308, target := d.target == 0, input := true
      range := recLen d ++ p.bad ++ (if many then [p.index (if (p.get 4).isSome then 4 else 2)] else []) ++
        (if short then [p.index 6] else [])
      fails := [(eState, s.attached && alters && role != .off)] }
  .next (s.hostCmd r d b cs fun _ s =>
    let s := s.modChain fun _ => n
    let s := if role == n.role then s else s.newRole role
    let gone := s.chain.up.filter fun q => !s.chain.named.contains q
    (gone.foldl (fun s q => s.chainDown q) s).finish r.val d)

end Sys2Proof.Machine
end

