-- ==== Sys2Proof/Machine/IsaFp.lean ====
section
/-! DEFINITION. The scalar floating-point instructions (08_gheing_reference.md R204-R206). -/

namespace Sys2Proof.Machine

/-- A floating-point result with its flags (R206, R245): one FP_TRAP when an enabled flag is among
them, else the result and the flags at distance `d`.  `mask` is the lane mask of a vector. -/
def Ex.fpAct (x : Ex) (d fl mask : Nat) (v : Dest) : Act :=
  if fl &&& x.r.fte != 0 then .op (.trap 0x08 (BitVec.ofNat 64 (fl + mask * 2 ^ 16))) (some d)
  else .op (.result (if fl = 0 then [v] else [v, .fss (BitVec.ofNat 5 fl)])) (some d)

/-- An operand of format `f`: the low bits of a register (R204). -/
def Ex.fop (x : Ex) (f : Fmt) (n : BitVec 5) : Nat := (x.g n).toNat % 2 ^ f.width

/-- A scalar floating-point instruction: word, distance, and its result of the operands. -/
def State.fpOp (s : State) (a : At) (p : Bool) (rd ra rb rc : BitVec 5) (fn : BitVec 5) (d : Nat)
    (op : Fmt → Nat → Nat → Nat → Nat → FRes) : Host.Outcome State Fault Refusal :=
  .next (s.issue a (wordF rd ra rb rc p fn) none fun x s =>
    let f := Fmt.ofP p
    let (v, fl) := op f x.r.rm (x.fop f ra) (x.fop f rb) (x.fop f rc)
    (x.fpAct d fl 0 (.g rd.toNat (BitVec.ofNat 64 v)), s))

/-- An integer to floating point (R204): 64 bits, signed or not. -/
def State.fpFromInt (s : State) (a : At) (p : Bool) (rd ra : BitVec 5) (fn : BitVec 5)
    (val : BitVec 64 → Int) : Host.Outcome State Fault Refusal :=
  .next (s.issue a (wordF rd ra 0 0 p fn) none fun x s =>
    let (v, fl) := (Fmt.ofP p).ofInt x.r.rm (val (x.g ra))
    (x.fpAct 3 fl 0 (.g rd.toNat (BitVec.ofNat 64 v)), s))

/-- A comparison as a number with its flags. -/
def cmpRes (r : Bool × Nat) : FRes := (b2n r.1, r.2)

/-- FADD (R204). -/
def execFadd (a : At) (p : Bool) (rd ra rb : BitVec 5) (s : State) :
    Host.Outcome State Fault Refusal :=
  s.fpOp a p rd ra rb 0 0x01#5 3 fun f rm u v _ => f.add rm u v

/-- FSUB (R204). -/
def execFsub (a : At) (p : Bool) (rd ra rb : BitVec 5) (s : State) :
    Host.Outcome State Fault Refusal :=
  s.fpOp a p rd ra rb 0 0x02#5 3 fun f rm u v _ => f.sub rm u v

/-- FMUL (R204). -/
def execFmul (a : At) (p : Bool) (rd ra rb : BitVec 5) (s : State) :
    Host.Outcome State Fault Refusal :=
  s.fpOp a p rd ra rb 0 0x03#5 3 fun f rm u v _ => f.mul rm u v

/-- FDIV (R204). -/
def execFdiv (a : At) (p : Bool) (rd ra rb : BitVec 5) (s : State) :
    Host.Outcome State Fault Refusal :=
  s.fpOp a p rd ra rb 0 0x04#5 4 fun f rm u v _ => f.div rm u v

/-- FSQRT (R204). -/
def execFsqrt (a : At) (p : Bool) (rd ra : BitVec 5) (s : State) :
    Host.Outcome State Fault Refusal :=
  s.fpOp a p rd ra 0 0 0x05#5 4 fun f rm u _ _ => f.sqrt rm u

/-- FMA (R204). -/
def execFma (a : At) (p : Bool) (rd ra rb rc : BitVec 5) (s : State) :
    Host.Outcome State Fault Refusal :=
  s.fpOp a p rd ra rb rc 0x06#5 3 fun f rm u v w => f.fused rm false false u v w

/-- FMS (R204). -/
def execFms (a : At) (p : Bool) (rd ra rb rc : BitVec 5) (s : State) :
    Host.Outcome State Fault Refusal :=
  s.fpOp a p rd ra rb rc 0x07#5 3 fun f rm u v w => f.fused rm false true u v w

/-- FNMA (R204). -/
def execFnma (a : At) (p : Bool) (rd ra rb rc : BitVec 5) (s : State) :
    Host.Outcome State Fault Refusal :=
  s.fpOp a p rd ra rb rc 0x08#5 3 fun f rm u v w => f.fused rm true false u v w

/-- FMIN (R204). -/
def execFmin (a : At) (p : Bool) (rd ra rb : BitVec 5) (s : State) :
    Host.Outcome State Fault Refusal :=
  s.fpOp a p rd ra rb 0 0x09#5 3 fun f _ u v _ => f.minmax false u v

/-- FMAX (R204). -/
def execFmax (a : At) (p : Bool) (rd ra rb : BitVec 5) (s : State) :
    Host.Outcome State Fault Refusal :=
  s.fpOp a p rd ra rb 0 0x0A#5 3 fun f _ u v _ => f.minmax true u v

/-- FABS (R204). -/
def execFabs (a : At) (p : Bool) (rd ra : BitVec 5) (s : State) :
    Host.Outcome State Fault Refusal :=
  s.fpOp a p rd ra 0 0 0x0B#5 3 fun f _ u _ _ => f.withSign u false

/-- FNEG (R204). -/
def execFneg (a : At) (p : Bool) (rd ra : BitVec 5) (s : State) :
    Host.Outcome State Fault Refusal :=
  s.fpOp a p rd ra 0 0 0x0C#5 3 fun f _ u _ _ => f.withSign u !f.signBit u

/-- FCMPEQ (R204). -/
def execFcmpeq (a : At) (p : Bool) (rd ra rb : BitVec 5) (s : State) :
    Host.Outcome State Fault Refusal :=
  s.fpOp a p rd ra rb 0 0x0D#5 3 fun f _ u v _ => cmpRes (f.cmp 0 u v)

/-- FCMPLT (R204). -/
def execFcmplt (a : At) (p : Bool) (rd ra rb : BitVec 5) (s : State) :
    Host.Outcome State Fault Refusal :=
  s.fpOp a p rd ra rb 0 0x0E#5 3 fun f _ u v _ => cmpRes (f.cmp 1 u v)

/-- FCMPLE (R204). -/
def execFcmple (a : At) (p : Bool) (rd ra rb : BitVec 5) (s : State) :
    Host.Outcome State Fault Refusal :=
  s.fpOp a p rd ra rb 0 0x0F#5 3 fun f _ u v _ => cmpRes (f.cmp 2 u v)

/-- FCMPUN (R204). -/
def execFcmpun (a : At) (p : Bool) (rd ra rb : BitVec 5) (s : State) :
    Host.Outcome State Fault Refusal :=
  s.fpOp a p rd ra rb 0 0x10#5 3 fun f _ u v _ => cmpRes (f.cmp 3 u v)

/-- FCLASS (R204, R205). -/
def execFclass (a : At) (p : Bool) (rd ra : BitVec 5) (s : State) :
    Host.Outcome State Fault Refusal :=
  s.fpOp a p rd ra 0 0 0x11#5 3 fun f _ u _ _ => (f.cls u, 0)

/-- FCVT.I (R204). -/
def execFcvtI (a : At) (p : Bool) (rd ra : BitVec 5) (s : State) :
    Host.Outcome State Fault Refusal :=
  s.fpOp a p rd ra 0 0 0x12#5 3 fun f rm u _ _ => f.toInt rm 64 true u

/-- FCVT.U (R204). -/
def execFcvtU (a : At) (p : Bool) (rd ra : BitVec 5) (s : State) :
    Host.Outcome State Fault Refusal :=
  s.fpOp a p rd ra 0 0 0x13#5 3 fun f rm u _ _ => f.toInt rm 64 false u

/-- FCVT.P (R204). -/
def execFcvtP (a : At) (p : Bool) (rd ra : BitVec 5) (s : State) :
    Host.Outcome State Fault Refusal :=
  s.fpOp a p rd ra 0 0 0x16#5 3 fun f rm u _ _ => f.convert (if f = Fmt.b64 then Fmt.b32 else Fmt.b64) rm u

/-- FSGNJ (R204). -/
def execFsgnj (a : At) (p : Bool) (rd ra rb : BitVec 5) (s : State) :
    Host.Outcome State Fault Refusal :=
  s.fpOp a p rd ra rb 0 0x17#5 3 fun f _ u v _ => f.withSign u (f.signBit v)

/-- FCVT.F (R204). -/
def execFcvtF (a : At) (p : Bool) (rd ra : BitVec 5) (s : State) :
    Host.Outcome State Fault Refusal :=
  s.fpFromInt a p rd ra 0x14#5 fun v => v.toInt

/-- FCVT.FU (R204). -/
def execFcvtFu (a : At) (p : Bool) (rd ra : BitVec 5) (s : State) :
    Host.Outcome State Fault Refusal :=
  s.fpFromInt a p rd ra 0x15#5 fun v => v.toNat

end Sys2Proof.Machine
end

