-- ==== Sys2Proof/Machine/IsaMem.lean ====
section
/-! DEFINITION. Loads and stores of scratch and regions, and the block-repeat instructions
(07_block_engine.md R169-R173, 08_gheing_reference.md R209-R214). -/

namespace Sys2Proof.Machine

/-! ## Scratch and Steward memory -/

/-- The bytes that an access may name: the graph's scratch window (R170), or the Steward's 32-bit
addresses (R209). -/
def Ex.window (x : Ex) : Nat := if x.seq then 2 ^ 32 else x.b.attr.scratchLen

/-- Where a relative address lies. -/
def Ex.phys (x : Ex) (a : Nat) : Nat := if x.seq then a else x.b.attr.scratchBase + a

/-- The bytes that pending stores of the bank put over memory (R191). -/
def overlay (ops : List Op) (a : Nat) (l : List Byte) : List Byte :=
  ops.foldl (fun l o => match o.kind with
    | .scratchStore p d =>
      (List.range l.length).map fun i =>
        if decide (p ≤ a + i) && decide (a + i < p + d.length) then d.getD (a + i - p) 0
        else l.getD i 0
    | _ => l) l

/-- Bytes read at an address relative to the window. -/
def State.readMem (s : State) (x : Ex) (rel n : Nat) : List Byte :=
  let a := x.phys rel
  let l := (List.range n).map fun i => match x.e with
    | .cell c => (s.cell c.val).scratch.get 0 (a + i)
    | .steward => s.steward.byte (a + i)
  overlay (s.bank x.e x.x).ops a l

/-- What a scratch read finds (R173, R192, R417): its counters and fault, and POISONED for an
uncorrectable error.  The Steward's loads fill its data cache. -/
def State.readErr (s : State) (x : Ex) (rel : Nat) : List Dest × State :=
  match x.e with
  | .steward =>
    let k := x.phys rel / 64
    let (l, d) := s.steward.line k
    ([], { s with steward := s.steward.putLine k l d })
  | .cell c =>
    match x.at_.mem with
    | .none => ([], s)
    | .corrected => ([], s.engBump c.val .scratchCe)
    | .data => ([.poisoned], (s.engBump c.val .scratchUe).cellMemFault c.val 0x15)

/-- The checks of a scratch access (R170, R231): ALIGN, then SCRATCH_RANGE. -/
def Ex.checkMem (x : Ex) (a n : Nat) : Option Act :=
  if a % n != 0 then some (.fail 0x06 (BitVec.ofNat 64 a))
  else if x.window < a + n then some (.fail 0x05 (BitVec.ofNat 64 a))
  else none

/-- A = g[ra] + sext(OFF) x size (R209). -/
def Ex.memAddr (x : Ex) (ra : BitVec 5) (off : BitVec 12) (n : Nat) : Nat :=
  (x.g ra + off.signExtend 64 * BitVec.ofNat 64 n).toNat

/-- The bytes of a size code (R209). -/
def szBytes (sz : Nat) : Nat := if sz = 4 then 64 else 2 ^ sz

/-- A loaded scalar (R209). -/
def loaded (signed : Bool) (l : List Byte) : BitVec 64 :=
  if signed then BitVec.ofInt 64 (sext (8 * l.length) (ofLE l)) else BitVec.ofNat 64 (ofLE l)

/-- LD (R170, R209). -/
def execLd (a : At) (sz : BitVec 2) (sgn : Bool) (rt ra : BitVec 5) (off : BitVec 12) (s : State) :
    Host.Outcome State Fault Refusal :=
  .next (s.issue a (wordM 0x20#6 rt ra (0#1 ++ sz) sgn off) none fun x s =>
    let n := szBytes sz.toNat
    let p := x.memAddr ra off n
    match x.checkMem p n with
    | some e => (e, s)
    | none =>
      let l := s.readMem x p n
      let (ds, s) := s.readErr x p
      (.op (.result (.g rt.toNat (loaded sgn l) :: ds)) (some 2), s))

/-- LDV (R170, R209). -/
def execLdv (a : At) (vt : BitVec 4) (ra : BitVec 5) (off : BitVec 12) (s : State) :
    Host.Outcome State Fault Refusal :=
  .next (s.issue a (wordM 0x20#6 (0#1 ++ vt) ra 4#3 false off) none fun x s =>
    let p := x.memAddr ra off 64
    match x.checkMem p 64 with
    | some e => (e, s)
    | none =>
      let l := s.readMem x p 64
      let (ds, s) := s.readErr x p
      (.op (.result (.v vt.toNat (BitVec.ofNat 512 (ofLE l)) :: ds)) (some 3), s))

/-- ST (R170, R172, R209): it commits at write-back. -/
def execSt (a : At) (sz : BitVec 2) (rt ra : BitVec 5) (off : BitVec 12) (s : State) :
    Host.Outcome State Fault Refusal :=
  .next (s.issue a (wordM 0x21#6 rt ra (0#1 ++ sz) false off) none fun x s =>
    let n := szBytes sz.toNat
    let p := x.memAddr ra off n
    match x.checkMem p n with
    | some e => (e, s)
    | none => (.op (.scratchStore (x.phys p) (leBytes n (x.g rt).toNat)) none, s))

/-- STV (R170, R172, R209). -/
def execStv (a : At) (vt : BitVec 4) (ra : BitVec 5) (off : BitVec 12) (s : State) :
    Host.Outcome State Fault Refusal :=
  .next (s.issue a (wordM 0x21#6 (0#1 ++ vt) ra 4#3 false off) none fun x s =>
    let p := x.memAddr ra off 64
    match x.checkMem p 64 with
    | some e => (e, s)
    | none => (.op (.scratchStore (x.phys p) (leBytes 64 (x.v vt).toNat)) none, s))

/-! ## Regions (R171, R210) -/

/-- XINFO of REGION: the handle in [15:0] and the offset above (log 20). -/
def regionInfo (h off : Nat) : BitVec 64 := BitVec.ofNat 64 (h + off * 2 ^ 16)

/-- LDR (R171, R210). -/
def execLdr (a : At) (sz : Sz) (sgn : Bool) (rt rh ro : BitVec 5) (s : State) :
    Host.Outcome State Fault Refusal :=
  .next (s.issue a (wordM 0x22#6 rt rh sz sgn (ro ++ 0#7)) none fun x s =>
    let n := szBytes sz.toNat
    let h := (x.g rh).toNat % 2 ^ 16
    let off := (x.g ro).toNat
    if off % n != 0 then (.fail 0x06 (x.g ro), s)
    else if !s.reqRoom x.e then (.hold, s.reqHolds x.e x.x)
    else
      let s := (s.reqGoes x.e x.x).regionReq x.e x.x x.b.n h n false off []
      (.op (.regionLoad rt.toNat (sz == 4#3) n sgn (regionInfo h off)) (some 6), s))

/-- STR (R171, R172, R210): it commits at write-back. -/
def execStr (a : At) (sz : Sz) (rt rh ro : BitVec 5) (s : State) : Host.Outcome State Fault Refusal :=
  .next (s.issue a (wordM 0x23#6 rt rh sz false (ro ++ 0#7)) none fun x s =>
    let n := szBytes sz.toNat
    let h := (x.g rh).toNat % 2 ^ 16
    let off := (x.g ro).toNat
    if off % n != 0 then (.fail 0x06 (x.g ro), s)
    else
      let v := if sz == 4#3 then (x.r.vr rt.toNat).toNat else (x.g rt).toNat
      (.op (.regionStore h off (leBytes n v) (regionInfo h off)) none, s))

/-! ## Block-repeat (R169, R211-R214) -/

/-- The remaining bytes of a repeat, and MATCH (R211). -/
def repCount (v : BitVec 64) : Nat := v.toNat % 2 ^ 63
def repMatch (v : BitVec 64) : Bool := v.getLsbD 63

/-- The count of a repeat with MATCH. -/
def repWord (m : Bool) (n : Nat) : BitVec 64 := BitVec.ofNat 64 (b2n m * 2 ^ 63 + n)

/-- SCRATCH_RANGE of a step (R212): the first of its ranges that falls outside. -/
def Ex.checkRange (x : Ex) (l : List Nat) (n : Nat) : Option Act :=
  (l.find? fun a => decide (x.window < a + n)).map fun a => .fail 0x05 (BitVec.ofNat 64 a)

/-- A step, the last when no bytes remain. -/
def repAct (last : Bool) (ds : List Dest) (st : Option OpKind) : Act :=
  if last then .lastStep ds st else .step ds st

/-- An address advanced. -/
def adv (v : BitVec 64) (n : Nat) : BitVec 64 := v + BitVec.ofNat 64 n

/-- BMOV (R211, R212): a step reads all its source before it writes. -/
def execBmov (a : At) (rd ra rb : BitVec 5) (s : State) : Host.Outcome State Fault Refusal :=
  .next (s.issue a (wordRep rd ra rb 0 false 0x01#6) none fun x s =>
    let k := repCount (x.g rb)
    let n := min 64 k
    if k = 0 then (.lastStep [] none, s)
    else match x.checkRange [(x.g ra).toNat, (x.g rd).toNat] n with
      | some e => (e, s)
      | none =>
        let l := s.readMem x (x.g ra).toNat n
        let (ds, s) := s.readErr x (x.g ra).toNat
        (repAct (k == n) ([.g rd.toNat (adv (x.g rd) n), .g ra.toNat (adv (x.g ra) n),
            .g rb.toNat (repWord (repMatch (x.g rb)) (k - n))] ++ ds)
          (some (.scratchStore (x.phys (x.g rd).toNat) l)), s))

/-- BFILL (R211): the byte at address X receives byte (X mod 8) of g[ra]. -/
def execBfill (a : At) (rd ra rb : BitVec 5) (s : State) : Host.Outcome State Fault Refusal :=
  .next (s.issue a (wordRep rd ra rb 0 false 0x02#6) none fun x s =>
    let k := repCount (x.g rb)
    let n := min 64 k
    let p := (x.g rd).toNat
    if k = 0 then (.lastStep [] none, s)
    else match x.checkRange [p] n with
      | some e => (e, s)
      | none =>
        let l := (List.range n).map fun i =>
          BitVec.ofNat 8 ((x.g ra).toNat / 2 ^ (8 * ((p + i) % 8)))
        (repAct (k == n) [.g rd.toNat (adv (x.g rd) n), .g rb.toNat (repWord (repMatch (x.g rb)) (k - n))]
          (some (.scratchStore (x.phys p) l)), s))

/-- The rest of a scan or compare whose match has been found (R213, R214). -/
def Ex.afterMatch (x : Ex) (rb : BitVec 5) : Act :=
  let k := repCount (x.g rb)
  if x.r.ct then
    let n := min 64 k
    repAct (k == n) [.g rb.toNat (repWord true (k - n))] none
  else .lastStep [.g rb.toNat (repWord true 0)] none

/-- A step that examined `n` bytes and found its first match at byte `m`, or none: the address
registers advance to it (R213). -/
def Ex.scanned (x : Ex) (addrs : List (BitVec 5)) (rb : BitVec 5) (n : Nat) (m : Option Nat)
    (ds : List Dest) : Act :=
  let k := repCount (x.g rb)
  let move := fun (d : Nat) => addrs.map fun r => Dest.g r.toNat (adv (x.g r) d)
  match m with
  | some d =>
    if x.r.ct then repAct (k == n) (move d ++ [.g rb.toNat (repWord true (k - n))] ++ ds) none
    else .lastStep (move d ++ [.g rb.toNat (repWord true 0)] ++ ds) none
  | none => repAct (k == n) (move n ++ [.g rb.toNat (repWord false (k - n))] ++ ds) none

/-- BSCAN (R211-R213). -/
def execBscan (a : At) (w : BitVec 2) (ne : Bool) (rd ra rb : BitVec 5) (s : State) :
    Host.Outcome State Fault Refusal :=
  .next (s.issue a (wordRep rd ra rb w ne 0x03#6) none fun x s =>
    let e := 2 ^ w.toNat
    let k := repCount (x.g rb)
    let n := min 64 k
    let p := (x.g rd).toNat
    if k = 0 then (.lastStep [] none, s)
    else if p % e != 0 || k % e != 0 then (.fail 0x06 (x.g rd), s)
    else if repMatch (x.g rb) then (x.afterMatch rb, s)
    else match x.checkRange [p] n with
      | some f => (f, s)
      | none =>
        let l := s.readMem x p n
        let (ds, s) := s.readErr x p
        let pat := (x.g ra).toNat % 2 ^ (8 * e)
        let m := (List.range (n / e)).find? fun i => (leAt l (i * e) e == pat) != ne
        (x.scanned [rd] rb n (m.map (· * e)) ds, s))

/-- BCMP (R211-R213): a match is the first unequal byte. -/
def execBcmp (a : At) (rd ra rb : BitVec 5) (s : State) : Host.Outcome State Fault Refusal :=
  .next (s.issue a (wordRep rd ra rb 0 false 0x04#6) none fun x s =>
    let k := repCount (x.g rb)
    let n := min 64 k
    if k = 0 then (.lastStep [] none, s)
    else if repMatch (x.g rb) then (x.afterMatch rb, s)
    else match x.checkRange [(x.g rd).toNat, (x.g ra).toNat] n with
      | some f => (f, s)
      | none =>
        let l := s.readMem x (x.g rd).toNat n
        let l2 := s.readMem x (x.g ra).toNat n
        let (ds, s) := s.readErr x (x.g rd).toNat
        let m := (List.range n).find? fun i => l.getD i 0 != l2.getD i 0
        (x.scanned [rd, ra] rb n m ds, s))

end Sys2Proof.Machine
end

