-- ==== Sys2Proof/Machine/IsaSend.lean ====
section
/-! DEFINITION. Sending tokens and contexts (07_block_engine.md R174-R178, 08_gheing_reference.md
R222-R225, R227). -/

namespace Sys2Proof.Machine

/-- The fields of a SEND or SENDI that both share (R193). -/
structure SendForm where
  dest  : BitVec 8
  port  : BitVec 2
  len   : BitVec 3
  mono  : Bool
  itsel : BitVec 2
  src   : BitVec 5

/-- The token that a SEND builds (R175): POISON is set at write-back. -/
def Ex.token (x : Ex) (h : Packet) (f : SendForm) (node : Nat) (ctx : Nat) (gen : Nat) (iter3 : Nat) :
    Token :=
  let g5 := (x.r.gr 5).toNat % 256
  let iter := match f.itsel.toNat with
    | 0 => g5
    | 1 => (g5 + 1) % 256
    | 2 => 0
    | _ => iter3 % 256
  let words := if f.len.toNat < 5 then lenWords f.len.toNat else 0
  let v := if f.len.toNat ≤ 1 then (x.g f.src).toNat else (x.r.vr (f.src.toNat % 16)).toNat
  { tag :=
      { dest := f.dest, esel := BitVec.ofNat 14 node ++ f.port, ctx := BitVec.ofNat 17 ctx
        gen := BitVec.ofNat 4 gen, iter := BitVec.ofNat 8 iter, cls := BitVec.ofNat 2 h.cls
        epar := h.epar, len := f.len, flags := mkFlags false h.bell false f.mono }
    payload := (List.range words).map fun i => BitVec.ofNat 32 (v / 2 ^ (32 * i)) }

/-- The early ILLEGAL_TAG cases (R175, R224). -/
def badTag (h : Packet) (f : SendForm) : Bool :=
  let d := f.dest.toNat
  decide (0x97 ≤ d) || (f.port == 3 && decide (d < 0x80)) || decide (5 ≤ f.len.toNat) ||
  (h.cls == 0 && decide (d < 0x80) && d % 2 == 1)

/-- SEND and SENDI (R174-R176): one credit for CTX and GEN is reserved at issue, never the last one;
without it the SEND holds, counted once, and the cell asks for a block. -/
def State.sendOp (s : State) (x : Ex) (f : SendForm) (node ctx iter3 : Nat) (late : Bool) :
    Act × State :=
  match x.e, x.b.hdr with
  | .cell n, some h =>
    let own := ctx == h.ctx
    let pair := h.cls == 0
    let pool := poolOf pair ctx
    let gen? := if own then some h.gen else (s.cell n.val).credGen.get none pool
    let t := x.token h f node ctx (gen?.getD 0) iter3
    if badTag h f then (.fail 0x02 (t.poisonIf x.r.poisoned).tag.pack, s)
    else
      let asker := if pair then 2 * (n.val / 2) else n.val
      let asked := if own then some h.gen else none
      let have_ := match gen? with
        | some g => s.creditOf n.val pool g
        | none => 0
      if have_ < 2 then
        let s := if x.b.held then s
          else (s.modBank x.e x.x fun b => { b with held := true, heldFor := some ctx }).engBump n.val
            .sendCreditHold
        let s := if x.b.held then s else s.reeveBump .creditWait
        (.hold, (s.askCredit asker ctx asked pair).stallCheck)
      else
        let s := s.setCredit n.val pool (gen?.getD 0) (have_ - 1)
        let s := if have_ - 1 ≤ 16 then s.askCredit asker ctx asked pair else s
        (.op (.send t late) none, s)
  | _, _ => (x.illegal, s)

/-- SEND (R222): a node register with bits above [21:0] is a late ILLEGAL_TAG. -/
def execSend (a : At) (dest : BitVec 8) (port : BitVec 2) (len : BitVec 3) (mono : Bool)
    (itsel : BitVec 2) (src nr : BitVec 5) (s : State) : Host.Outcome State Fault Refusal :=
  .next (s.issue a (wordS 0x30#6 dest port len mono itsel src nr) none fun x s =>
    let v := (x.g nr).toNat
    s.sendOp x { dest := dest, port := port, len := len, mono := mono, itsel := itsel, src := src }
      (v % 2 ^ 14) ((x.r.gr 4).toNat % 2 ^ 17) (v / 2 ^ 14) (decide (2 ^ 22 ≤ v)))

/-- SENDI (R223). -/
def execSendi (a : At) (dest : BitVec 8) (port : BitVec 2) (len : BitVec 3) (mono : Bool)
    (itsel : BitVec 2) (src cr : BitVec 5) (node : BitVec 14) (ir : BitVec 5) (s : State) :
    Host.Outcome State Fault Refusal :=
  .next (s.issue a (wordS 0x31#6 dest port len mono itsel src cr) (some (node ++ ir ++ 0#13)) fun x s =>
    let c := if cr = 0 then x.r.gr 4 else x.g cr
    s.sendOp x { dest := dest, port := port, len := len, mono := mono, itsel := itsel, src := src }
      node.toNat (c.toNat % 2 ^ 17) (x.g ir).toNat false)

/-- CTXREQ (R82, R127, R178, R225): it holds while its activation is pending.  One that a late exception has
squashed is met again by a request for the same graph, and left for one for another (log 267). -/
def execCtxreq (a : At) (rd : BitVec 5) (graph : BitVec 10) (s : State) :
    Host.Outcome State Fault Refusal :=
  .next (s.issue a (wordI 0x33#6 rd 0 (0#6 ++ graph)) none fun x s =>
    let g := graph.toNat
    let set := fun (s : State) (q : Option (Nat × Option Nat)) =>
      s.modBank x.e x.x fun b => { b with ctxReq := q }
    match x.e, x.b.hdr with
    | .cell n, some h =>
      match x.b.ctxReq.filter fun q => q.1 == g with
      | some (_, some c) => (.done [.g rd.toNat (BitVec.ofNat 64 c)], set s none)
      | some (_, none) => (.hold, s)
      | none =>
        if h.cls ≤ 1 then (x.illegal, s)
        else match s.graph g with
          | none => (.fail 0x09 (BitVec.ofNat 64 g), s)
          | some b =>
            let cls := b.cls.toNat
            if cls ≤ 1 then (x.illegal, s)
            else if s.cellar.quarantined.contains g then (.fail 0x09 (BitVec.ofNat 64 g), s)
            else if 256 ≤ (s.reeve.queue.get [] cls).length then
              (.hold, (s.modBank x.e x.x fun b => { b with held := true }).stallCheck)
            else
              let act : Activation :=
                { graph := g, asker := some (n.val, x.x), ring := 0, t0 := s.time.now, counted := false }
              let s := { s with reeve := { s.reeve with
                queue := s.reeve.queue.upd [] cls fun q => q ++ [act] } }
              (.hold, ((set s (some (g, none))).engBump n.val .ctxreqIssued).stallCheck)
    | _, _ => (x.illegal, s))

/-- CTXREL (R178, R227): it commits at write-back. -/
def execCtxrel (a : At) (ra : BitVec 5) (s : State) : Host.Outcome State Fault Refusal :=
  .next (s.issue a (wordT 0x32#6 0 ra 0 0 0x09#6) none fun x s =>
    let c := (x.g ra).toNat % 2 ^ 17
    let k := s.ctxOf c
    if k.st == .live && decide (k.cls ≤ 1) then (x.illegal, s) else (.op (.ctxRel c) none, s))

end Sys2Proof.Machine
end

