-- ==== Sys2Proof/Machine/IsaPriv.lean ====
section
/-! DEFINITION. The privileged instructions and the Steward's system registers
(08_gheing_reference.md R228, R229). -/

namespace Sys2Proof.Machine

def State.modSteward (f : Steward → Steward) (s : State) : State := { s with steward := f s.steward }

/-- T64_HI as an instruction of the bank reads it: the latch of an earlier T64_LO read that waits for its
write-back, or the register's. -/
def Bank.t64Hi (b : Bank) (m : Steward) : Word :=
  b.ops.foldl (fun v o => match o.kind with
    | .latch hi => hi
    | _ => v) m.t64Hi

/-- MFSR (R228, R229): reading T64_LO latches T64_HI. -/
def execMfsr (a : At) (rd : BitVec 5) (sr : BitVec 10) (s : State) : Host.Outcome State Fault Refusal :=
  .next (s.issue a (wordPriv rd 0 sr 0x01#6) none fun x s =>
    let m := s.steward
    let t := s.time.t64
    let v : BitVec 64 := match sr.toNat with
      | 0x000 => m.xvec.setWidth 64
      | 0x001 => x.b.x0
      | 0x002 => x.b.x1
      | 0x003 => x.b.x2
      | 0x004 => x.b.x3
      | 0x008 => m.evPend.setWidth 64
      | 0x009 => m.evMask.setWidth 64
      | 0x010 => (t.setWidth 32).setWidth 64
      | 0x011 => (x.b.t64Hi m).setWidth 64
      | _ => BitVec.ofNat 64 (match m.timer with
          | some d => d - s.time.now
          | none => 0)
    (if sr = 0x010#10 then .doneOp [.g rd.toNat v] (.latch (t.extractLsb' 32 32)) else .done [.g rd.toNat v], s))

/-- MTSR (R182, R190, R228, R229): written at distance 2, in program order; XREC is writable only in the
handler. -/
def execMtsr (a : At) (ra : BitVec 5) (sr : BitVec 10) (s : State) : Host.Outcome State Fault Refusal :=
  .next (s.issue a (wordPriv 0 ra sr 0x02#6) none fun x s =>
    let ro := (sr == 0x001#10 || sr == 0x004#10) && !x.r.inHandler
    (.op (if ro then .result [] else .sysWrite sr.toNat (x.g ra)) (some 2), s))

/-- WAITE (R228): issue holds until EVPEND and EVMASK have a common bit. -/
def execWaite (a : At) (s : State) : Host.Outcome State Fault Refusal :=
  .next (s.issue a (wordPriv 0 0 0 0x03#6) none fun _ s =>
    if s.steward.evPend &&& s.steward.evMask = 0 then (.hold, s) else (.done [], s))

/-- The cache line that g[ra] names (R228). -/
def Ex.lineOf (x : Ex) (ra : BitVec 5) : Nat := (x.g ra).toNat % 2 ^ 32 / 64

/-- A line is written back when it is dirty, and kept clean. -/
def Steward.clean (k : Nat) (m : Steward) : Steward :=
  match m.dcache.find? fun l => l.1 == k with
  | some (_, l, true) =>
    { m.writeBack k l with dcache := m.dcache.map fun e => if e.1 == k then (k, l, false) else e }
  | _ => m

/-- A line leaves the data cache without a write. -/
def Steward.invalidate (k : Nat) (m : Steward) : Steward :=
  { m with dcache := m.dcache.filter fun l => l.1 != k }

/-- A cache operation holds until every earlier instruction has finished (R228, R230, log 276), so that
none of them can squash it (R180). -/
def State.cacheOp (s : State) (a : At) (ra : BitVec 5) (fn : BitVec 6) (f : Nat → Steward → Steward) :
    Host.Outcome State Fault Refusal :=
  .next (s.issue a (wordPriv 0 ra 0 fn) none fun x s =>
    if !x.b.ops.isEmpty then (.hold, s) else (.done [], s.modSteward (f (x.lineOf ra))))

/-- ICINV (R228). -/
def execIcinv (a : At) (ra : BitVec 5) (s : State) : Host.Outcome State Fault Refusal :=
  s.cacheOp a ra 0x04#6 fun k m => { m with icache := m.icache.filter fun l => l.1 != k }

/-- DCCLEAN (R228). -/
def execDcclean (a : At) (ra : BitVec 5) (s : State) : Host.Outcome State Fault Refusal :=
  s.cacheOp a ra 0x05#6 Steward.clean

/-- DCINV (R228). -/
def execDcinv (a : At) (ra : BitVec 5) (s : State) : Host.Outcome State Fault Refusal :=
  s.cacheOp a ra 0x06#6 Steward.invalidate

/-- DCCI (R228). -/
def execDcci (a : At) (ra : BitVec 5) (s : State) : Host.Outcome State Fault Refusal :=
  s.cacheOp a ra 0x07#6 fun k m => (m.clean k).invalidate k

/-- A load or store that has not completed. -/
def Op.access (o : Op) : Bool :=
  match o.kind with
  | .regionLoad .. => true
  | .regionStore .. => true
  | .regionStored _ => true
  | .scratchStore .. => true
  | .result _ => field o.word.toNat 31 26 == 0x20
  | _ => false

/-- FENCE (R228): issue holds until every earlier load and store has completed. -/
def execFence (a : At) (s : State) : Host.Outcome State Fault Refusal :=
  .next (s.issue a (wordPriv 0 0 0 0x08#6) none fun x s =>
    if x.b.ops.any Op.access then (.hold, s) else (.done [], s))

/-- STEWARD_TIMER_EXPIRY (R229): TIMER reaches 0 and sets EVPEND[4]. -/
def execStewardTimerExpiry (s : State) : Host.Outcome State Fault Refusal :=
  match s.steward.timer with
  | some d => .next ((s.reach d).modSteward fun m => { m with timer := none, evPend := m.evPend ||| 0x10#7 })
  | none => .next s

end Sys2Proof.Machine
end

