-- ==== Sys2Proof/Machine/IsaVec.lean ====
section
/-! DEFINITION. The vector instructions (08_gheing_reference.md R215-R221, 09_arithmetic.md R247,
R248). -/

namespace Sys2Proof.Machine

/-- The lanes of a v-register at width `w`, lane 0 first (R157). -/
def lanes (w : Nat) (v : BitVec 512) : List Nat :=
  (List.range (512 / w)).map fun j => v.toNat / 2 ^ (w * j) % 2 ^ w

/-- The v-register that lanes form; lanes not given are zero. -/
def ofLanes (w : Nat) : List Nat → Nat
  | [] => 0
  | a :: t => a % 2 ^ w + 2 ^ w * ofLanes w t

def vOf (w : Nat) (l : List Nat) : BitVec 512 := BitVec.ofNat 512 (ofLanes w l)

/-- The lane width of TY (R215). -/
def laneW (ty : BitVec 2) : Nat := if ty.getLsbD 0 then 64 else 32

/-- The format of TY 0 and 1. -/
def laneF (ty : BitVec 2) : Fmt := Fmt.ofP (ty.getLsbD 0)

/-- The union of flags. -/
def unionFl (l : List Nat) : Nat := l.foldl (· ||| ·) 0

/-- The lanes that raised an enabled flag (R215). -/
def laneMask (fte : Nat) (l : List Nat) : Nat :=
  ((List.range l.length).map fun j => if l.getD j 0 &&& fte = 0 then 0 else 2 ^ j).sum

/-- Lane results delivered (R215): one trap, or every lane and the union of the flags. -/
def Ex.vfpAct (x : Ex) (d w : Nat) (vd : BitVec 4) (l : List FRes) : Act :=
  let fl := l.map (·.2)
  x.fpAct d (unionFl fl) (laneMask x.r.fte fl) (.v vd.toNat (vOf w (l.map (·.1))))

/-- A lane-by-lane floating-point instruction (R216). -/
def State.vfp (s : State) (a : At) (ty : BitVec 2) (vd va vb vc : BitVec 4) (fn : BitVec 8) (d : Nat)
    (op : Fmt → Nat → Nat → Nat → Nat → FRes) : Host.Outcome State Fault Refusal :=
  .next (s.issue a (wordV 0x28#6 vd va vb vc ty fn) none fun x s =>
    let w := laneW ty
    let f := laneF ty
    let u := lanes w (x.v va)
    let v := lanes w (x.v vb)
    let y := lanes w (x.v vc)
    let l := (List.range (512 / w)).map fun j => op f x.r.rm (u.getD j 0) (v.getD j 0) (y.getD j 0)
    (x.vfpAct d w vd l, s))

/-- A lane mask from a comparison (R216). -/
def maskRes (f : Fmt) (r : Bool × Nat) : FRes := (if r.1 then 2 ^ f.width - 1 else 0, r.2)

/-- Adjacent lanes added in pairs (R217). -/
def addPairs (f : Fmt) (rm : Nat) : List Nat → List FRes
  | a :: b :: t => f.add rm a b :: addPairs f rm t
  | _ => []

/-- The tree sum of R217, `k` levels. -/
def treeSum (f : Fmt) (rm : Nat) : Nat → List Nat → Nat → FRes
  | 0, l, fl => (l.getD 0 0, fl)
  | k + 1, l, fl =>
    let r := addPairs f rm l
    treeSum f rm k (r.map (·.1)) (fl ||| unionFl (r.map (·.2)))

/-- A lane-by-lane integer instruction (R218): width, and the lanes of va, vb and vc. -/
def State.vint (s : State) (a : At) (ty : BitVec 2) (vd va vb vc : BitVec 4) (fn : BitVec 8)
    (op : Nat → Nat → Nat → Nat → Nat) : Host.Outcome State Fault Refusal :=
  .next (s.issue a (wordV 0x29#6 vd va vb vc ty fn) none fun x s =>
    let w := laneW ty
    let u := lanes w (x.v va)
    let v := lanes w (x.v vb)
    let y := lanes w (x.v vc)
    let l := (List.range (512 / w)).map fun j => op w (u.getD j 0) (v.getD j 0) (y.getD j 0)
    (.op (.result [.v vd.toNat (vOf w l)]) (some 2), s))

/-- All ones of a lane when the condition holds. -/
def ones (w : Nat) (c : Bool) : Nat := if c then 2 ^ w - 1 else 0

/-- A complex product in the order of R247: real part, imaginary part, and the union of flags. -/
def cmul (f : Fmt) (rm ar ai br bi : Nat) : Nat × Nat × Nat :=
  let p := f.mul rm ai bi
  let re := f.fused rm false true ar br p.1
  let u := f.mul rm ai br
  let im := f.fused rm false false ar bi u.1
  (re.1, im.1, unionFl [p.2, re.2, u.2, im.2])

/-- A VSPEC product (R220, R247); `conj` negates the imaginary parts of vb. -/
def State.vcmul (s : State) (a : At) (ty : BitVec 2) (vd va vb : BitVec 4) (fn : BitVec 8) (conj : Bool) :
    Host.Outcome State Fault Refusal :=
  .next (s.issue a (wordV 0x2B#6 vd va vb 0 ty fn) none fun x s =>
    let w := laneW ty
    let f := laneF ty
    let u := lanes w (x.v va)
    let v := lanes w (x.v vb)
    let l := (List.range (512 / w / 2)).flatMap fun j =>
      let bi := v.getD (2 * j + 1) 0
      let bi := if conj then bi ^^^ f.sign true else bi
      let (re, im, fl) := cmul f x.r.rm (u.getD (2 * j) 0) (u.getD (2 * j + 1) 0) (v.getD (2 * j) 0) bi
      [((re, fl) : FRes), (im, fl)]
    (x.vfpAct 4 w vd l, s))

/-- A complex number of lanes. -/
abbrev Cx := Nat × Nat

/-- A complex sum or difference, each part rounded (R248), with its flags. -/
def cadd (f : Fmt) (rm : Nat) (x y : Cx) : Cx × Nat :=
  let a := f.add rm x.1 y.1
  let b := f.add rm x.2 y.2
  ((a.1, b.1), a.2 ||| b.2)

def csub (f : Fmt) (rm : Nat) (x y : Cx) : Cx × Nat :=
  let a := f.sub rm x.1 y.1
  let b := f.sub rm x.2 y.2
  ((a.1, b.1), a.2 ||| b.2)

/-- One radix-4 butterfly (R248): inputs x0 to x3, twiddles w1 to w3; the four outputs and the
union of flags. -/
def butterfly (f : Fmt) (rm : Nat) (x0 x1 x2 x3 w1 w2 w3 : Cx) : List Cx × Nat :=
  let m := fun (x w : Cx) => cmul f rm x.1 x.2 w.1 w.2
  let (r1, i1, f1) := m x1 w1
  let (r2, i2, f2) := m x2 w2
  let (r3, i3, f3) := m x3 w3
  let (a, fa) := cadd f rm x0 (r2, i2)
  let (b, fb) := csub f rm x0 (r2, i2)
  let (c, fc) := cadd f rm (r1, i1) (r3, i3)
  let (d, fd) := csub f rm (r1, i1) (r3, i3)
  let (y0, g0) := cadd f rm a c
  let (y2, g2) := csub f rm a c
  let p := f.add rm b.1 d.2
  let q := f.sub rm b.2 d.1
  let t := f.sub rm b.1 d.2
  let u := f.add rm b.2 d.1
  ([y0, (p.1, q.1), y2, (t.1, u.1)],
    unionFl [f1, f2, f3, fa, fb, fc, fd, g0, g2, p.2, q.2, t.2, u.2])

/-- VFADD (R216). -/
def execVfadd (a : At) (ty : BitVec 2) (vd va vb : BitVec 4) (s : State) :
    Host.Outcome State Fault Refusal :=
  s.vfp a ty vd va vb 0 0x01#8 4 fun f rm u v _ => f.add rm u v

/-- VFSUB (R216). -/
def execVfsub (a : At) (ty : BitVec 2) (vd va vb : BitVec 4) (s : State) :
    Host.Outcome State Fault Refusal :=
  s.vfp a ty vd va vb 0 0x02#8 4 fun f rm u v _ => f.sub rm u v

/-- VFMUL (R216). -/
def execVfmul (a : At) (ty : BitVec 2) (vd va vb : BitVec 4) (s : State) :
    Host.Outcome State Fault Refusal :=
  s.vfp a ty vd va vb 0 0x03#8 4 fun f rm u v _ => f.mul rm u v

/-- VFDIV (R216). -/
def execVfdiv (a : At) (ty : BitVec 2) (vd va vb : BitVec 4) (s : State) :
    Host.Outcome State Fault Refusal :=
  s.vfp a ty vd va vb 0 0x04#8 5 fun f rm u v _ => f.div rm u v

/-- VFSQRT (R216). -/
def execVfsqrt (a : At) (ty : BitVec 2) (vd va : BitVec 4) (s : State) :
    Host.Outcome State Fault Refusal :=
  s.vfp a ty vd va 0 0 0x05#8 5 fun f rm u _ _ => f.sqrt rm u

/-- VFMA (R216). -/
def execVfma (a : At) (ty : BitVec 2) (vd va vb vc : BitVec 4) (s : State) :
    Host.Outcome State Fault Refusal :=
  s.vfp a ty vd va vb vc 0x06#8 4 fun f rm u v w => f.fused rm false false u v w

/-- VFMS (R216). -/
def execVfms (a : At) (ty : BitVec 2) (vd va vb vc : BitVec 4) (s : State) :
    Host.Outcome State Fault Refusal :=
  s.vfp a ty vd va vb vc 0x07#8 4 fun f rm u v w => f.fused rm false true u v w

/-- VFNMA (R216). -/
def execVfnma (a : At) (ty : BitVec 2) (vd va vb vc : BitVec 4) (s : State) :
    Host.Outcome State Fault Refusal :=
  s.vfp a ty vd va vb vc 0x08#8 4 fun f rm u v w => f.fused rm true false u v w

/-- VFMIN (R216). -/
def execVfmin (a : At) (ty : BitVec 2) (vd va vb : BitVec 4) (s : State) :
    Host.Outcome State Fault Refusal :=
  s.vfp a ty vd va vb 0 0x09#8 4 fun f _ u v _ => f.minmax false u v

/-- VFMAX (R216). -/
def execVfmax (a : At) (ty : BitVec 2) (vd va vb : BitVec 4) (s : State) :
    Host.Outcome State Fault Refusal :=
  s.vfp a ty vd va vb 0 0x0A#8 4 fun f _ u v _ => f.minmax true u v

/-- VFABS (R216). -/
def execVfabs (a : At) (ty : BitVec 2) (vd va : BitVec 4) (s : State) :
    Host.Outcome State Fault Refusal :=
  s.vfp a ty vd va 0 0 0x0B#8 4 fun f _ u _ _ => f.withSign u false

/-- VFNEG (R216). -/
def execVfneg (a : At) (ty : BitVec 2) (vd va : BitVec 4) (s : State) :
    Host.Outcome State Fault Refusal :=
  s.vfp a ty vd va 0 0 0x0C#8 4 fun f _ u _ _ => f.withSign u !f.signBit u

/-- VFCMPEQ (R216). -/
def execVfcmpeq (a : At) (ty : BitVec 2) (vd va vb : BitVec 4) (s : State) :
    Host.Outcome State Fault Refusal :=
  s.vfp a ty vd va vb 0 0x0D#8 4 fun f _ u v _ => maskRes f (f.cmp 0 u v)

/-- VFCMPLT (R216). -/
def execVfcmplt (a : At) (ty : BitVec 2) (vd va vb : BitVec 4) (s : State) :
    Host.Outcome State Fault Refusal :=
  s.vfp a ty vd va vb 0 0x0E#8 4 fun f _ u v _ => maskRes f (f.cmp 1 u v)

/-- VFCMPLE (R216). -/
def execVfcmple (a : At) (ty : BitVec 2) (vd va vb : BitVec 4) (s : State) :
    Host.Outcome State Fault Refusal :=
  s.vfp a ty vd va vb 0 0x0F#8 4 fun f _ u v _ => maskRes f (f.cmp 2 u v)

/-- VFCMPUN (R216). -/
def execVfcmpun (a : At) (ty : BitVec 2) (vd va vb : BitVec 4) (s : State) :
    Host.Outcome State Fault Refusal :=
  s.vfp a ty vd va vb 0 0x10#8 4 fun f _ u v _ => maskRes f (f.cmp 3 u v)

/-- VFCLASS (R216). -/
def execVfclass (a : At) (ty : BitVec 2) (vd va : BitVec 4) (s : State) :
    Host.Outcome State Fault Refusal :=
  s.vfp a ty vd va 0 0 0x11#8 4 fun f _ u _ _ => (f.cls u, 0)

/-- VFCVT.I (R216). -/
def execVfcvtI (a : At) (ty : BitVec 2) (vd va : BitVec 4) (s : State) :
    Host.Outcome State Fault Refusal :=
  s.vfp a ty vd va 0 0 0x12#8 4 fun f rm u _ _ => f.toInt rm f.width true u

/-- VFCVT.U (R216). -/
def execVfcvtU (a : At) (ty : BitVec 2) (vd va : BitVec 4) (s : State) :
    Host.Outcome State Fault Refusal :=
  s.vfp a ty vd va 0 0 0x13#8 4 fun f rm u _ _ => f.toInt rm f.width false u

/-- VFSGNJ (R216). -/
def execVfsgnj (a : At) (ty : BitVec 2) (vd va vb : BitVec 4) (s : State) :
    Host.Outcome State Fault Refusal :=
  s.vfp a ty vd va vb 0 0x17#8 4 fun f _ u v _ => f.withSign u (f.signBit v)

/-- VFCVT.F (R216). -/
def execVfcvtF (a : At) (ty : BitVec 2) (vd va : BitVec 4) (s : State) :
    Host.Outcome State Fault Refusal :=
  s.vfp a ty vd va 0 0 0x14#8 4 fun f rm u _ _ => f.ofInt rm (sext f.width u)

/-- VFCVT.FU (R216). -/
def execVfcvtFu (a : At) (ty : BitVec 2) (vd va : BitVec 4) (s : State) :
    Host.Outcome State Fault Refusal :=
  s.vfp a ty vd va 0 0 0x15#8 4 fun f rm u _ _ => f.ofInt rm u

/-- VFCVT.P (R216): lanes 0 to 7 of the source; a narrowed result leaves lanes 8 to 15 zero. -/
def execVfcvtP (a : At) (ty : BitVec 2) (vd va : BitVec 4) (s : State) :
    Host.Outcome State Fault Refusal :=
  .next (s.issue a (wordV 0x28#6 vd va 0 0 ty 0x16#8) none fun x s =>
    let src := laneF ty
    let dst := if ty = 0 then Fmt.b64 else Fmt.b32
    let l := ((lanes (laneW ty) (x.v va)).take 8).map fun u => src.convert dst x.r.rm u
    (x.vfpAct 4 dst.width vd l, s))

/-- VFRSUM (R216, R217): the flags of every addition count for lane 0 (R245). -/
def execVfrsum (a : At) (ty : BitVec 2) (vd va : BitVec 4) (s : State) :
    Host.Outcome State Fault Refusal :=
  .next (s.issue a (wordV 0x28#6 vd va 0 0 ty 0x18#8) none fun x s =>
    let w := laneW ty
    let r := treeSum (laneF ty) x.r.rm (if w = 32 then 4 else 3) (lanes w (x.v va)) 0
    (x.vfpAct 4 w vd [r], s))

/-- VADD (R218). -/
def execVadd (a : At) (ty : BitVec 2) (vd va vb : BitVec 4) (s : State) :
    Host.Outcome State Fault Refusal :=
  s.vint a ty vd va vb 0 0x01#8 fun _ u v _ => u + v

/-- VSUB (R218). -/
def execVsub (a : At) (ty : BitVec 2) (vd va vb : BitVec 4) (s : State) :
    Host.Outcome State Fault Refusal :=
  s.vint a ty vd va vb 0 0x02#8 fun w u v _ => u + 2 ^ w - v

/-- VAND (R218). -/
def execVand (a : At) (ty : BitVec 2) (vd va vb : BitVec 4) (s : State) :
    Host.Outcome State Fault Refusal :=
  s.vint a ty vd va vb 0 0x03#8 fun _ u v _ => u &&& v

/-- VOR (R218). -/
def execVor (a : At) (ty : BitVec 2) (vd va vb : BitVec 4) (s : State) :
    Host.Outcome State Fault Refusal :=
  s.vint a ty vd va vb 0 0x04#8 fun _ u v _ => u ||| v

/-- VXOR (R218). -/
def execVxor (a : At) (ty : BitVec 2) (vd va vb : BitVec 4) (s : State) :
    Host.Outcome State Fault Refusal :=
  s.vint a ty vd va vb 0 0x05#8 fun _ u v _ => u ^^^ v

/-- VANDN (R218). -/
def execVandn (a : At) (ty : BitVec 2) (vd va vb : BitVec 4) (s : State) :
    Host.Outcome State Fault Refusal :=
  s.vint a ty vd va vb 0 0x06#8 fun w u v _ => u &&& (2 ^ w - 1 - v)

/-- VSLL (R218). -/
def execVsll (a : At) (ty : BitVec 2) (vd va vb : BitVec 4) (s : State) :
    Host.Outcome State Fault Refusal :=
  s.vint a ty vd va vb 0 0x08#8 fun w u v _ => u * 2 ^ (v % w)

/-- VSRL (R218). -/
def execVsrl (a : At) (ty : BitVec 2) (vd va vb : BitVec 4) (s : State) :
    Host.Outcome State Fault Refusal :=
  s.vint a ty vd va vb 0 0x09#8 fun w u v _ => u / 2 ^ (v % w)

/-- VSRA (R218). -/
def execVsra (a : At) (ty : BitVec 2) (vd va vb : BitVec 4) (s : State) :
    Host.Outcome State Fault Refusal :=
  s.vint a ty vd va vb 0 0x0A#8 fun w u v _ => narrow w (sext w u / 2 ^ (v % w))

/-- VCMPEQ (R218). -/
def execVcmpeq (a : At) (ty : BitVec 2) (vd va vb : BitVec 4) (s : State) :
    Host.Outcome State Fault Refusal :=
  s.vint a ty vd va vb 0 0x0C#8 fun w u v _ => ones w (u == v)

/-- VCMPLT (R218). -/
def execVcmplt (a : At) (ty : BitVec 2) (vd va vb : BitVec 4) (s : State) :
    Host.Outcome State Fault Refusal :=
  s.vint a ty vd va vb 0 0x0E#8 fun w u v _ => ones w (decide (sext w u < sext w v))

/-- VCMPLTU (R218). -/
def execVcmpltu (a : At) (ty : BitVec 2) (vd va vb : BitVec 4) (s : State) :
    Host.Outcome State Fault Refusal :=
  s.vint a ty vd va vb 0 0x0F#8 fun w u v _ => ones w (decide (u < v))

/-- VMIN (R218). -/
def execVmin (a : At) (ty : BitVec 2) (vd va vb : BitVec 4) (s : State) :
    Host.Outcome State Fault Refusal :=
  s.vint a ty vd va vb 0 0x10#8 fun w u v _ => if sext w u < sext w v then u else v

/-- VMAX (R218). -/
def execVmax (a : At) (ty : BitVec 2) (vd va vb : BitVec 4) (s : State) :
    Host.Outcome State Fault Refusal :=
  s.vint a ty vd va vb 0 0x11#8 fun w u v _ => if sext w u < sext w v then v else u

/-- VMOV (R218). -/
def execVmov (a : At) (ty : BitVec 2) (vd va : BitVec 4) (s : State) :
    Host.Outcome State Fault Refusal :=
  s.vint a ty vd va 0 0 0x14#8 fun _ u _ _ => u

/-- VSEL (R218). -/
def execVsel (a : At) (ty : BitVec 2) (vd va vb vc : BitVec 4) (s : State) :
    Host.Outcome State Fault Refusal :=
  s.vint a ty vd va vb vc 0x15#8 fun w u v y => if y.testBit (w - 1) then u else v

/-- VPERM (R218): each lane picks a lane of va, modulo the lane count. -/
def execVperm (a : At) (ty : BitVec 2) (vd va vb : BitVec 4) (s : State) :
    Host.Outcome State Fault Refusal :=
  .next (s.issue a (wordV 0x29#6 vd va vb 0 ty 0x16#8) none fun x s =>
    let w := laneW ty
    let u := lanes w (x.v va)
    let l := (lanes w (x.v vb)).map fun k => u.getD (k % (512 / w)) 0
    (.op (.result [.v vd.toNat (vOf w l)]) (some 2), s))

/-- VBCAST (R219). -/
def execVbcast (a : At) (ty : BitVec 2) (v : BitVec 4) (g : BitVec 5) (s : State) :
    Host.Outcome State Fault Refusal :=
  .next (s.issue a (wordLane g v 0 ty 0x01#8) none fun x s =>
    let w := laneW ty
    (.op (.result [.v v.toNat (vOf w (List.replicate (512 / w) (x.g g).toNat))]) (some 2), s))

/-- VEXT (R219). -/
def execVext (a : At) (ty : BitVec 2) (v : BitVec 4) (g : BitVec 5) (lane : BitVec 4) (s : State) :
    Host.Outcome State Fault Refusal :=
  .next (s.issue a (wordLane g v lane ty 0x02#8) none fun x s =>
    let l := lanes (laneW ty) (x.v v)
    (.op (.result [.g g.toNat (BitVec.ofNat 64 (l.getD lane.toNat 0))]) (some 2), s))

/-- VINS (R219): the other lanes are kept. -/
def execVins (a : At) (ty : BitVec 2) (v : BitVec 4) (g : BitVec 5) (lane : BitVec 4) (s : State) :
    Host.Outcome State Fault Refusal :=
  .next (s.issue a (wordLane g v lane ty 0x03#8) none fun x s =>
    let w := laneW ty
    let l := (lanes w (x.v v)).set lane.toNat (x.g g).toNat
    (.op (.result [.v v.toNat (vOf w l)]) (some 2), s))

/-- VCMUL (R220, R247). -/
def execVcmul (a : At) (ty : BitVec 2) (vd va vb : BitVec 4) (s : State) :
    Host.Outcome State Fault Refusal :=
  s.vcmul a ty vd va vb 0x02#8 false

/-- VCMULC (R220, R247). -/
def execVcmulc (a : At) (ty : BitVec 2) (vd va vb : BitVec 4) (s : State) :
    Host.Outcome State Fault Refusal :=
  s.vcmul a ty vd va vb 0x03#8 true

/-- VBFLY4 (R220, R221, R248): two groups of four with TY 0, one with TY 1. -/
def execVbfly4 (a : At) (ty : BitVec 2) (vd va vb : BitVec 4) (s : State) :
    Host.Outcome State Fault Refusal :=
  .next (s.issue a (wordV 0x2B#6 vd va vb 0 ty 0x01#8) none fun x s =>
    let w := laneW ty
    let u := lanes w (x.v va)
    let v := lanes w (x.v vb)
    let c := fun (l : List Nat) (j : Nat) => ((l.getD (2 * j) 0, l.getD (2 * j + 1) 0) : Cx)
    let l := (List.range (512 / w / 8)).flatMap fun k =>
      let j := 4 * k
      let (ys, fl) := butterfly (laneF ty) x.r.rm (c u j) (c u (j + 1)) (c u (j + 2)) (c u (j + 3))
        (c v j) (c v (j + 1)) (c v (j + 2))
      ys.flatMap fun y => [((y.1, fl) : FRes), (y.2, fl)]
    (x.vfpAct 4 w vd l, s))

end Sys2Proof.Machine
end

