-- ==== Sys2Proof/Machine/Page.lean ====
section
/-! DEFINITION. The bytes of a page of the Cellar as the debug paths show them (05_cellar_progress.md
R105-R108): its header, its slots, its place in a memory responder. -/

namespace Sys2Proof.Machine

/-- The key of an entry in its 44 bits (R50, R108). -/
def Entry.keyBits (e : Entry) : Nat :=
  b2n e.bell + 2 * (e.iter % 2 ^ 8) + 2 ^ 9 * (e.gen % 2 ^ 4) + 2 ^ 13 * (e.ctx % 2 ^ 17) +
    2 ^ 30 * (e.node % 2 ^ 14)

/-- Bytes 0-7 of an entry record (R108). -/
def Entry.word0 (e : Entry) : Nat :=
  e.keyBits + 2 ^ 44 * (e.cls % 4) + 2 ^ 46 * (e.need % 8) +
    2 ^ 49 * (b2n e.a.isSome + 2 * b2n e.b.isSome + 4 * b2n e.c.isSome) + 2 ^ 52 * b2n e.dup

/-- VALUE of a port: the operand of LEN 0 or 1, and zero otherwise (R108). -/
def valueOf : Option Operand → Nat
  | some o => if o.len ≤ 1 then ofLE (wordsToBytes o.words) else 0
  | none => 0

/-- META of a port (R108). -/
def metaOf : Option Operand → Nat
  | some o => o.len % 8 + 8 * b2n o.epar + 16 * b2n o.poison + 32 * b2n o.spilled
  | none => 0

/-- The entry record of a slot: 48 bytes, with SCRC over the first 40 (R108). -/
def Entry.record (e : Entry) : List Byte :=
  let l := leBytes 8 e.word0 ++ leBytes 8 (valueOf e.a) ++ leBytes 8 (valueOf e.b) ++
    leBytes 8 (valueOf e.c) ++ leBytes 8 (metaOf e.a + 2 ^ 8 * metaOf e.b + 2 ^ 16 * metaOf e.c)
  l ++ leBytes 4 (Crypto.crc32 l) ++ leBytes 4 0

/-- Eight bytes of a slot, where the slot defines them: the record, and the words of an operand of LEN
2 to 4 in the payload block of its port (R108). -/
def Entry.slotWord (e : Entry) (o : Nat) : Option Nat :=
  if o < 48 then some (leAt e.record o 8)
  else
    let k := (o - 48) / 64
    let at_ := (o - 48) % 64
    match e.port k with
    | some x =>
      let l := wordsToBytes x.words
      if k < 3 && decide (2 ≤ x.len) && decide (at_ + 8 ≤ l.length) then some (leAt l at_ 8) else none
    | none => none

/-- The page after a page in its list; 0x3F_FFFF ends the list (R107). -/
def nextIn (pg : Nat) : List Nat → Nat
  | [] => 0x3FFFFF
  | a :: l => if a == pg then l.headD 0x3FFFFF else nextIn pg l

/-- KEY_i of a header: of an empty slot the key is a free value (R107, log 10). -/
def Page.keyAt (p : Page) (pg i : Nat) : Nat :=
  match p.slotAt i with
  | some e => e.keyBits
  | none => Config.emptyKey pg i p.tSpill.toNat % 2 ^ 44

/-- The header of a page: 1,024 bytes, with HCRC over the first 1,020 (R107). -/
def Page.header (p : Page) (pg next : Nat) : List Byte :=
  let occ := (p.occ.map fun j => 2 ^ j).sum
  let l := leBytes 2 (p.cell + 2 ^ 7 * p.group) ++ leBytes 2 0 ++ leBytes 4 next ++ leBytes 8 occ ++
    leBytes 8 p.tSpill.toNat ++ ((List.range 64).flatMap fun i => leBytes 6 (p.keyAt pg i)) ++ leBytes 612 0
  l ++ leBytes 4 (Crypto.crc32 l)

/-- Eight bytes of a copy of a page in use, where its layout defines them (R106): a header that is not yet
written and a slot that holds no entry define none. -/
def Page.word (p : Page) (pg next o : Nat) : Option Nat :=
  if o < 1024 then (if p.linked then some (leAt (p.header pg next) o 8) else none)
  else
    match p.slotAt ((o - 1024) / 240) with
    | some e => e.slotWord ((o - 1024) % 240)
    | none => none

/-- The page and the offset in its copy of an address in a responder's share of the Cellar: the four
channels' parts in order, in each the even pseudo-channel's copies before the odd one's, the channel's pages
in rising order (R105, log 241). -/
def pageAt (gib j x : Nat) : Nat × Nat :=
  let part := cellarShare gib / 4
  let z := x % part % (part / 2)
  (64 * (z / 16384) + 4 * j + x / part, z % 16384)

/-- Eight bytes of the Cellar, where a page in use defines them. -/
def Cellar.word (c : Cellar) (j x : Nat) : Option Nat :=
  let (pg, o) := pageAt c.gib j x
  match c.pages.get none pg with
  | some p => p.word pg (nextIn pg (c.lists.get [] (32 * p.cell + p.group))) o
  | none => none

end Sys2Proof.Machine
end

