-- ==== Sys2Proof/Machine/Jtag.lean ====
section
/-! DEFINITION. The JTAG port: boundary scan, and the debug path with its address space
(20_trace.md R517-R521, 19_setup_registers.md R506). -/

namespace Sys2Proof.Machine

def State.modJtag (f : Jtag → Jtag) (s : State) : State := { s with jtag := f s.jtag }

/-- An instruction is loaded, and its data register read out. -/
def State.jtagScan (s : State) (i : JtagIns) (bits value : Nat) : State :=
  (s.modJtag fun j => { j with ir := i }).emit (.tdo bits value)

/-! ## Boundary scan (R517): 0 to 63 EVIN_n, 64 to 95 TRIP_n, 96 KEY_N, 97 SEAL_A, 98 SEAL_B,
99 FAULT_N, 100 RESET_N, 101 PERST_N, 102 PPS_IN, 103 PPS_OUT, 104 to 109 the boot flash (log 31) -/

/-- The cells that only observe: TRIP_n and FAULT_N. -/
def observeOnly : BitVec 110 := 0xFFFFFFFF#110 <<< 64 ||| 1#110 <<< 99

/-- The boundary latches drive the scanned outputs. -/
def JtagIns.drives : JtagIns → Bool
  | .extest => true
  | .clamp => true
  | _ => false

/-- What the boundary cells capture: pins that the device drives by itself, and the others as they
are. -/
def State.boundary (s : State) (pins : BitVec 110) : Nat :=
  let bitOf := fun (i : Nat) =>
    if 64 ≤ i && i < 96 then s.tripPin (i - 64)
    else if i = 96 then s.aon.keyN
    else if i = 99 then !s.faultLow
    else if i = 103 then if s.jtag.ir.drives then s.jtag.latch.getLsbD 103 else s.time.ppsOut
    else pins.getLsbD i
  ((List.range 110).map fun i => b2n (bitOf i) * 2 ^ i).sum

/-- A scan of the boundary register: capture, then update of the cells that can drive. -/
def State.boundaryScan (s : State) (i : JtagIns) (pins scan : BitVec 110) : State :=
  let v := s.boundary pins
  (s.jtagScan i 110 v).modJtag fun j => { j with latch := scan &&& ~~~observeOnly }

/-- EXTEST. -/
def execExtest (pins scan : BitVec 110) (s : State) : Host.Outcome State Fault Refusal :=
  .next (s.boundaryScan .extest pins scan)

/-- SAMPLE/PRELOAD. -/
def execSamplePreload (pins scan : BitVec 110) (s : State) : Host.Outcome State Fault Refusal :=
  .next (s.boundaryScan .samplePreload pins scan)

/-- IDCODE. -/
def execIdcode (s : State) : Host.Outcome State Fault Refusal := .next (s.jtagScan .idcode 32 0xB81287AF)

/-- CLAMP: the latches drive the outputs, and the bypass register is selected. -/
def execClamp (s : State) : Host.Outcome State Fault Refusal := .next (s.jtagScan .clamp 1 0)

/-- HIGHZ: the scanned outputs let go, and the bypass register is selected. -/
def execHighz (s : State) : Host.Outcome State Fault Refusal := .next (s.jtagScan .highz 1 0)

/-- BYPASS, and every code that names no instruction. -/
def execBypass (s : State) : Host.Outcome State Fault Refusal := .next (s.jtagScan .bypass 1 0)

/-! ## The debug address space (R516, R518, R519, R521) -/

/-- What an access finds. -/
inductive DbgPlace where
  /-- Trace control, by offset. -/
  | trace (o : Nat)
  /-- A cell of a pair, by offset in its half of the page. -/
  | cell (n o : Nat)
  /-- The Steward's window. -/
  | steward (o : Nat)
  /-- HBM, by responder and offset. -/
  | hbm (j o : Nat)
  /-- Outside, or not accessible now. -/
  | outside
  deriving DecidableEq, Repr

/-- The place of an address, as R518 lays the space out: accesses are of 8 bytes at multiples of 8,
and within a pair's page the even cell comes first (log 32). -/
def State.dbgPlace (s : State) (a : Nat) : DbgPlace :=
  if a % 8 != 0 then .outside
  else if a < 0x100 then .trace a
  else if 0x10000 ≤ a && a < 0x50000 then
    let k := (a - 0x10000) / 0x1000
    let o := a % 0x1000
    if (s.pairPort k).pass then .cell (2 * k + o / 0x800) (o % 0x800) else .outside
  else if 0x100000 ≤ a && a < 0x110000 then
    if s.watch.stewardPass then .steward (a - 0x100000) else .outside
  else if 2 ^ 32 ≤ a && a < 2 ^ 32 + 16 * respBytes then
    let o := a - 2 ^ 32
    if s.traceOpen then .hbm (o / respBytes) (o % respBytes) else .outside
  else .outside

/-- The registers of a bank, at 8 bytes each: g0 to g31 at 0x000, XREC at 0x100, the program counter
at 0x120, BSTAT at 0x128, LS, LE and LC at 0x140, and the v-registers at 0x200 (log 32). -/
def Bank.dbgWord (b : Bank) (o : Nat) : Nat :=
  let r := b.regs
  let i := o / 8
  if o < 0x100 then (r.g.get 0 i).toNat
  else if o = 0x100 then b.x0.toNat
  else if o = 0x108 then b.x1.toNat
  else if o = 0x110 then b.x2.toNat
  else if o = 0x118 then b.x3.toNat
  else if o = 0x120 then r.pc
  else if o = 0x128 then
    r.mode.toNat + r.fss.toNat * 2 ^ 9 + r.ldepth * 2 ^ 14 + b2n r.poisoned * 2 ^ 17 + b2n r.inHandler * 2 ^ 18
  else if 0x140 ≤ o && o < 0x160 then r.ls.get 0 ((o - 0x140) / 8)
  else if 0x160 ≤ o && o < 0x180 then r.le.get 0 ((o - 0x160) / 8)
  else if 0x180 ≤ o && o < 0x1A0 then r.lc.get 0 ((o - 0x180) / 8)
  else if 0x200 ≤ o && o < 0x600 then
    (r.v.get 0 ((o - 0x200) / 64)).toNat / 2 ^ (64 * ((o - 0x200) / 8 % 8)) % 2 ^ 64
  else 0

/-- A word of a stopped bank is written: g-registers, and the writable fields of XREC (R182). -/
def Bank.dbgPut (b : Bank) (seq : Bool) (o : Nat) (v : BitVec 64) : Bank :=
  if 8 ≤ o && o < 0x100 then { b with regs := { b.regs with g := b.regs.g.set 0 (o / 8) v } }
  else if o = 0x100 then { b with x0 := (b.x0 &&& ~~~(xsetMask seq)) ||| (v &&& xsetMask seq) }
  else if o = 0x118 && seq then { b with x3 := v &&& 0xFFFFFFFC#64 }
  else b

/-- Trace control and the trace counters (R516, R518, R522). -/
def State.traceWord (s : State) (o : Nat) : Nat :=
  let t := s.trace
  let full := decide (65536 < (t.stage.map List.length).sum + 32)
  match o with
  | 0x00 => b2n t.en + 2 * b2n t.mode + 4 * b2n t.firings + 8 * b2n t.class01 + 16 * b2n t.faults + 32 * b2n t.debug
  | 0x10 => t.cells.toNat % 2 ^ 64
  | 0x18 => t.cells.toNat / 2 ^ 64
  | 0x20 => b2n t.stopped + 2 * b2n full
  | 0x40 => t.viol
  | 0x48 => t.packets
  | 0x50 => t.lostCnt
  | 0x58 => t.cellDrop
  | _ => 0

/-- Reserved bits written 1 (R6, R516). -/
def State.traceViol (s : State) (bad : Bool) : State :=
  if bad then s.modTrace fun t => { t with viol := (t.viol + 1) % 2 ^ 32 } else s

def State.putTrace (s : State) (o : Nat) (v : BitVec 64) : State :=
  match o with
  | 0x00 => (s.writeTraceCtrl (v.toNat % 2 ^ 32)).traceViol (decide (2 ^ 32 ≤ v.toNat))
  | 0x10 => s.modTrace fun t => { t with cells := t.cells.extractLsb' 64 64 ++ v }
  | 0x18 => s.modTrace fun t => { t with cells := v ++ t.cells.extractLsb' 0 64 }
  | 0x20 => s.traceViol (decide (4 ≤ v.toNat))
  | 0x40 => s.traceViol (decide (2 ^ 32 ≤ v.toNat))
  | 0x48 => s.traceViol (decide (2 ^ 32 ≤ v.toNat))
  | 0x50 => s.traceViol (decide (2 ^ 32 ≤ v.toNat))
  | 0x58 => s.traceViol (decide (2 ^ 32 ≤ v.toNat))
  | _ => s.traceViol (v != 0)

/-- A cell's debug registers: BP_0 to BP_3 at 0x00, STOP_CTRL at 0x20, the stop state at 0x28, and
the stopped bank from 0x100 (log 32). -/
def State.cellDbgWord (s : State) (n o : Nat) : Nat :=
  let c := s.cell n
  if o < 0x20 then (c.dbg.bp.get 0 (o / 8)).toNat
  else if o = 0x28 then
    match c.stoppedBank with
    | some x => 1 + 2 * b2n x
    | none => 0
  else if 0x100 ≤ o then
    match c.stoppedBank with
    | some x => (if x then c.p else c.m).dbgWord (o - 0x100)
    | none => 0
  else 0

def State.putCellDbg (s : State) (n o : Nat) (v : BitVec 64) : State :=
  if o < 0x20 then
    s.modCell n fun c => { c with dbg := { c.dbg with bp := c.dbg.bp.set 0 (o / 8) (v &&& 0x1FFFF#64) } }
  else if o = 0x20 then
    match v.toNat with
    | 1 => s.stopCtrl (n / 2) fun s n => s.runCell n false
    | 2 => s.stopCtrl (n / 2) fun s n => s.runCell n true
    | 3 => s.stopCtrl (n / 2) State.killCell
    | _ => s
  else if 0x100 ≤ o then
    match (s.cell n).stoppedBank with
    | some x => s.modBank (cellEngine n) x fun b => b.dbgPut false (o - 0x100) v
    | none => s
  else s

/-- The Steward's window: halt 1, run 2 and step 3 at 0x00, the halt state at 0x08, a memory address
at 0x10, 8 bytes of memory there at 0x18, and the registers from 0x100 (log 32). -/
def State.stewardWord (s : State) (o : Nat) : Nat :=
  let m := s.steward
  if o = 0x08 then b2n m.halted
  else if o = 0x10 then s.jtag.stwAddr.toNat
  else if o = 0x18 then ofLE ((List.range 8).map fun i => m.mem.get 0 (s.jtag.stwAddr.toNat + i))
  else if 0x100 ≤ o then m.bank.dbgWord (o - 0x100)
  else 0

def State.putSteward (s : State) (o : Nat) (v : BitVec 64) : State :=
  let mod := fun (f : Steward → Steward) => { s with steward := f s.steward }
  if o = 0x00 then
    match v.toNat with
    | 1 => mod fun m => { m with halted := true, stepping := false }
    | 2 => if s.watch.fstate == .halted then s else mod fun m => { m with halted := false, stepping := false }
    | 3 => if s.watch.fstate == .halted then s else mod fun m => { m with halted := false, stepping := true }
    | _ => s
  else if o = 0x10 then s.modJtag fun j => { j with stwAddr := v.setWidth 32 }
  else if o = 0x18 then
    let a := s.jtag.stwAddr.toNat
    let bytes := (leBytes 8 v.toNat).zip (List.range 8)
    mod fun m => { m with mem := bytes.foldl (fun t e => t.set 0 (a + e.2) e.1) m.mem }
  else if 0x100 ≤ o then mod fun m => { m with bank := m.bank.dbgPut true (o - 0x100) v }
  else s

def State.dbgError (s : State) : State := s.modJtag fun j => { j with error := true }

/-- A capture of DBG_DATA at an address (R517, R518).  Bytes of the Cellar that no page in use defines read
as a free value (R106-R108, log 241). -/
def State.dbgRead (s : State) (a : Nat) : Nat × State :=
  match s.dbgPlace a with
  | .trace o => (s.traceWord o, s)
  | .cell n o => (s.cellDbgWord n o, s)
  | .steward o => (s.stewardWord o, s)
  | .hbm j o =>
    if (s.respAt j).isPoisoned o 8 then (0, s.dbgError)
    else if o < respBytes - cellarShare s.cellar.gib then (ofLE ((s.respAt j).read o 8), s)
    else match s.cellar.word j (o - (respBytes - cellarShare s.cellar.gib)) with
      | some v => (v, s)
      | none =>
        let (v, s) := s.draw
        (v.toNat, s)
  | .outside => (0, s.dbgError)

/-- An update of DBG_DATA: HBM is read-only here. -/
def State.dbgWrite (s : State) (a : Nat) (v : BitVec 64) : State :=
  match s.dbgPlace a with
  | .trace o => s.putTrace o v
  | .cell n o => s.putCellDbg n o v
  | .steward o => s.putSteward o v
  | _ => s.dbgError

/-- DBG_ADDR: the scan reads the address that was and loads the next. -/
def execDbgAddr (value : BitVec 64) (s : State) : Host.Outcome State Fault Refusal :=
  .next ((s.jtagScan .dbgAddr 64 s.jtag.addr.toNat).modJtag fun j => { j with addr := value })

/-- DBG_DATA: with the gate closed it captures zero and updates are ignored (R506, R517).  A scan
that ends before its update has none. -/
def execDbgData (update : Option (BitVec 64)) (s : State) : Host.Outcome State Fault Refusal :=
  if !s.setup.dbgGate then .next (s.jtagScan .dbgData 64 0)
  else
    let a := s.jtag.addr.toNat
    let (v, s) := s.dbgRead a
    let s := s.jtagScan .dbgData 64 v
    let s := match update with
      | some w => s.dbgWrite a w
      | none => s
    .next (s.modJtag fun j => { j with addr := j.addr + 8 })

/-- DBG_STATUS: BUSY reads 0, since every access ends with its scan. -/
def execDbgStatus (s : State) : Host.Outcome State Fault Refusal :=
  .next (s.jtagScan .dbgStatus 64 (b2n (!s.setup.dbgGate) + 2 * b2n s.jtag.error))

end Sys2Proof.Machine
end

