-- ==== Sys2Proof/Machine/Dispatch.lean ====
section
/-! DEFINITION. One arm for each command: a direct call of its meaning. -/

namespace Sys2Proof.Machine

/-- The effect of a command on everything but the queue of waiting commands. -/
def exec (i : Instr) (s : State) : Host.Outcome State Fault Refusal :=
  match i with
  | .nop r d b => Sys2Proof.Machine.execNop r d b s
  | .identify r d b => Sys2Proof.Machine.execIdentify r d b s
  | .createCmdRing r d b => Sys2Proof.Machine.execCreateCmdRing r d b s
  | .createCplRing r d b => Sys2Proof.Machine.execCreateCplRing r d b s
  | .deleteRing r d b => Sys2Proof.Machine.execDeleteRing r d b s
  | .eventRoute r d b => Sys2Proof.Machine.execEventRoute r d b s
  | .statistics r d b => Sys2Proof.Machine.execStatistics r d b s
  | .hostInject r d b => Sys2Proof.Machine.execHostInject r d b s
  | .loadGraph r d b g => Sys2Proof.Machine.execLoadGraph r d b g s
  | .unloadGraph r d b => Sys2Proof.Machine.execUnloadGraph r d b s
  | .startGraph r d b => Sys2Proof.Machine.execStartGraph r d b s
  | .stopGraph r d b => Sys2Proof.Machine.execStopGraph r d b s
  | .graphEnable r d b => Sys2Proof.Machine.execGraphEnable r d b s
  | .setGroup r d b => Sys2Proof.Machine.execSetGroup r d b s
  | .regionCreate r d b => Sys2Proof.Machine.execRegionCreate r d b s
  | .regionFree r d b => Sys2Proof.Machine.execRegionFree r d b s
  | .regionCopy r d b => Sys2Proof.Machine.execRegionCopy r d b s
  | .bindStream r d b => Sys2Proof.Machine.execBindStream r d b s
  | .unbindStream r d b => Sys2Proof.Machine.execUnbindStream r d b s
  | .bindImport r d b => Sys2Proof.Machine.execBindImport r d b s
  | .unbindImport r d b => Sys2Proof.Machine.execUnbindImport r d b s
  | .sensorPortConfig r d b => Sys2Proof.Machine.execSensorPortConfig r d b s
  | .actPortConfig r d b => Sys2Proof.Machine.execActPortConfig r d b s
  | .eventInputConfig r d b => Sys2Proof.Machine.execEventInputConfig r d b s
  | .reeveConfig r d b => Sys2Proof.Machine.execReeveConfig r d b s
  | .cellarConfig r d b => Sys2Proof.Machine.execCellarConfig r d b s
  | .slotAlloc r d b => Sys2Proof.Machine.execSlotAlloc r d b s
  | .epochConfig r d b => Sys2Proof.Machine.execEpochConfig r d b s
  | .chainConfig r d b => Sys2Proof.Machine.execChainConfig r d b s
  | .readResults r d b => Sys2Proof.Machine.execReadResults r d b s
  | .readReport r d b => Sys2Proof.Machine.execReadReport r d b s
  | .exqRead r d b => Sys2Proof.Machine.execExqRead r d b s
  | .enumerate r d b => Sys2Proof.Machine.execEnumerate r d b s
  | .chainSend r d b => Sys2Proof.Machine.execChainSend r d b s
  | .noticeSend r d b => Sys2Proof.Machine.execNoticeSend r d b s
  | .nbProgram r d b => Sys2Proof.Machine.execNbProgram r d b s
  | .tripConfig r d b => Sys2Proof.Machine.execTripConfig r d b s
  | .cellFlush r d b => Sys2Proof.Machine.execCellFlush r d b s
  | .selfTest r d b => Sys2Proof.Machine.execSelfTest r d b s
  | .watchConfig r d b => Sys2Proof.Machine.execWatchConfig r d b s
  | .faultForce r d b => Sys2Proof.Machine.execFaultForce r d b s
  | .faultClear r d b => Sys2Proof.Machine.execFaultClear r d b s
  | .faultLogRead r d b => Sys2Proof.Machine.execFaultLogRead r d b s
  | .fwUpdate r d b => Sys2Proof.Machine.execFwUpdate r d b s
  | .keyProvision r d b => Sys2Proof.Machine.execKeyProvision r d b s
  | .debugEnable r d b => Sys2Proof.Machine.execDebugEnable r d b s
  | .fuseLock r d b => Sys2Proof.Machine.execFuseLock r d b s
  | .reseal r d b => Sys2Proof.Machine.execReseal r d b s
  | .lanternDiag r d b => Sys2Proof.Machine.execLanternDiag r d b s
  | .restart r d b => Sys2Proof.Machine.execRestart r d b s
  | .tailDoorbell offset size value => Sys2Proof.Machine.execTailDoorbell offset size value s
  | .headDoorbell offset size value => Sys2Proof.Machine.execHeadDoorbell offset size value s
  | .completionWrite => Sys2Proof.Machine.execCompletionWrite s
  | .holdoffExpiry q => Sys2Proof.Machine.execHoldoffExpiry q s
  | .eventRecordWrite ev => Sys2Proof.Machine.execEventRecordWrite ev s
  | .bar4Read offset len ue => Sys2Proof.Machine.execBar4Read offset len ue s
  | .bar4Write offset => Sys2Proof.Machine.execBar4Write offset s
  | .hostReset kind => Sys2Proof.Machine.execHostReset kind s
  | .ringEnWrite value => Sys2Proof.Machine.execRingEnWrite value s
  | .setupRegisterWrite offset size value => Sys2Proof.Machine.execSetupRegisterWrite offset size value s
  | .t64LoRead wide => Sys2Proof.Machine.execT64LoRead wide s
  | .ppsInLoRead wide => Sys2Proof.Machine.execPpsInLoRead wide s
  | .tbFreqAdjWrite value => Sys2Proof.Machine.execTbFreqAdjWrite value s
  | .tbPhaseAdjWrite value => Sys2Proof.Machine.execTbPhaseAdjWrite value s
  | .tbSetHiWrite value => Sys2Proof.Machine.execTbSetHiWrite value s
  | .slewDone => Sys2Proof.Machine.execSlewDone s
  | .ppsInEdge falling quarter => Sys2Proof.Machine.execPpsInEdge falling quarter s
  | .ppsLossTimeout => Sys2Proof.Machine.execPpsLossTimeout s
  | .ppsOutPulse => Sys2Proof.Machine.execPpsOutPulse s
  | .powerUp => Sys2Proof.Machine.execPowerUp s
  | .resetNAssert => Sys2Proof.Machine.execResetNAssert s
  | .resetRelease => Sys2Proof.Machine.execResetRelease s
  | .bootStageDone r => Sys2Proof.Machine.execBootStageDone r s
  | .startTimeout => Sys2Proof.Machine.execStartTimeout s
  | .retryPauseExpiry => Sys2Proof.Machine.execRetryPauseExpiry s
  | .pcieLinkTrained => Sys2Proof.Machine.execPcieLinkTrained s
  | .supplyOut k mv => Sys2Proof.Machine.execSupplyOut k mv s
  | .supplyIn k mv => Sys2Proof.Machine.execSupplyIn k mv s
  | .alwaysOnReset => Sys2Proof.Machine.execAlwaysOnReset s
  | .refclkLoss => Sys2Proof.Machine.execRefclkLoss s
  | .junctionSensorRead n reading => Sys2Proof.Machine.execJunctionSensorRead n reading s
  | .presenceChange => Sys2Proof.Machine.execPresenceChange s
  | .sealSample matched => Sys2Proof.Machine.execSealSample matched s
  | .restEntry => Sys2Proof.Machine.execRestEntry s
  | .restExit => Sys2Proof.Machine.execRestExit s
  | .scrubDone stack corrected bad => Sys2Proof.Machine.execScrubDone stack corrected bad s
  | .hubWake hub => Sys2Proof.Machine.execHubWake hub s
  | .columnPowerGoodLoss c => Sys2Proof.Machine.execColumnPowerGoodLoss c s
  | .columnPowerGoodReturn c => Sys2Proof.Machine.execColumnPowerGoodReturn c s
  | .drainEnd c => Sys2Proof.Machine.execDrainEnd c s
  | .drainTimeout c => Sys2Proof.Machine.execDrainTimeout c s
  | .fenceTimeout c => Sys2Proof.Machine.execFenceTimeout c s
  | .cellTestDone c block => Sys2Proof.Machine.execCellTestDone c block s
  | .hbmTestSegment k bad => Sys2Proof.Machine.execHbmTestSegment k bad s
  | .fenceRequest target => Sys2Proof.Machine.execFenceRequest target s
  | .fenceComplete target => Sys2Proof.Machine.execFenceComplete target s
  | .tokenArrival c src t ue err => Sys2Proof.Machine.execTokenArrival c src t ue err s
  | .rsvHoldProceed c err => Sys2Proof.Machine.execRsvHoldProceed c err s
  | .waitBufferProceed c err => Sys2Proof.Machine.execWaitBufferProceed c err s
  | .heldFiringOffer c err => Sys2Proof.Machine.execHeldFiringOffer c err s
  | .spillPageGrant c => Sys2Proof.Machine.execSpillPageGrant c s
  | .spillSlotAck c slot => Sys2Proof.Machine.execSpillSlotAck c slot s
  | .spillLink c => Sys2Proof.Machine.execSpillLink c s
  | .pageinRequest c k err => Sys2Proof.Machine.execPageinRequest c k err s
  | .pageinReturn c k err => Sys2Proof.Machine.execPageinReturn c k err s
  | .pageinNone c k => Sys2Proof.Machine.execPageinNone c k s
  | .cellarPurge err => Sys2Proof.Machine.execCellarPurge err s
  | .sweepComplete c ctx gen => Sys2Proof.Machine.execSweepComplete c ctx gen s
  | .firingStart c late err => Sys2Proof.Machine.execFiringStart c late err s
  | .preemption c late err => Sys2Proof.Machine.execPreemption c late err s
  | .operationComplete e express k => Sys2Proof.Machine.execOperationComplete e express k s
  | .add a rd ra rb => Sys2Proof.Machine.execAdd a rd ra rb s
  | .sub a rd ra rb => Sys2Proof.Machine.execSub a rd ra rb s
  | .and a rd ra rb => Sys2Proof.Machine.execAnd a rd ra rb s
  | .or a rd ra rb => Sys2Proof.Machine.execOr a rd ra rb s
  | .xor a rd ra rb => Sys2Proof.Machine.execXor a rd ra rb s
  | .andn a rd ra rb => Sys2Proof.Machine.execAndn a rd ra rb s
  | .sll a rd ra rb => Sys2Proof.Machine.execSll a rd ra rb s
  | .srl a rd ra rb => Sys2Proof.Machine.execSrl a rd ra rb s
  | .sra a rd ra rb => Sys2Proof.Machine.execSra a rd ra rb s
  | .ror a rd ra rb => Sys2Proof.Machine.execRor a rd ra rb s
  | .seq a rd ra rb => Sys2Proof.Machine.execSeq a rd ra rb s
  | .sne a rd ra rb => Sys2Proof.Machine.execSne a rd ra rb s
  | .slt a rd ra rb => Sys2Proof.Machine.execSlt a rd ra rb s
  | .sltu a rd ra rb => Sys2Proof.Machine.execSltu a rd ra rb s
  | .min a rd ra rb => Sys2Proof.Machine.execMin a rd ra rb s
  | .max a rd ra rb => Sys2Proof.Machine.execMax a rd ra rb s
  | .minu a rd ra rb => Sys2Proof.Machine.execMinu a rd ra rb s
  | .maxu a rd ra rb => Sys2Proof.Machine.execMaxu a rd ra rb s
  | .addc a rd ra rb rc => Sys2Proof.Machine.execAddc a rd ra rb rc s
  | .carry a rd ra rb rc => Sys2Proof.Machine.execCarry a rd ra rb rc s
  | .subb a rd ra rb rc => Sys2Proof.Machine.execSubb a rd ra rb rc s
  | .borrow a rd ra rb rc => Sys2Proof.Machine.execBorrow a rd ra rb rc s
  | .acc128 a rd ra => Sys2Proof.Machine.execAcc128 a rd ra s
  | .acc128u a rd ra => Sys2Proof.Machine.execAcc128u a rd ra s
  | .clz a rd ra => Sys2Proof.Machine.execClz a rd ra s
  | .ctz a rd ra => Sys2Proof.Machine.execCtz a rd ra s
  | .popc a rd ra => Sys2Proof.Machine.execPopc a rd ra s
  | .bswap a rd ra => Sys2Proof.Machine.execBswap a rd ra s
  | .addw a rd ra rb => Sys2Proof.Machine.execAddw a rd ra rb s
  | .subw a rd ra rb => Sys2Proof.Machine.execSubw a rd ra rb s
  | .addi a rd ra imm => Sys2Proof.Machine.execAddi a rd ra imm s
  | .andi a rd ra imm => Sys2Proof.Machine.execAndi a rd ra imm s
  | .ori a rd ra imm => Sys2Proof.Machine.execOri a rd ra imm s
  | .xori a rd ra imm => Sys2Proof.Machine.execXori a rd ra imm s
  | .slti a rd ra imm => Sys2Proof.Machine.execSlti a rd ra imm s
  | .sltiu a rd ra imm => Sys2Proof.Machine.execSltiu a rd ra imm s
  | .shi a rd ra kind n => Sys2Proof.Machine.execShi a rd ra kind n s
  | .lui a rd imm => Sys2Proof.Machine.execLui a rd imm s
  | .extu a rd ra pos w1 => Sys2Proof.Machine.execExtu a rd ra pos w1 s
  | .exts a rd ra pos w1 => Sys2Proof.Machine.execExts a rd ra pos w1 s
  | .ins a rd ra pos w1 => Sys2Proof.Machine.execIns a rd ra pos w1 s
  | .li a rd imm => Sys2Proof.Machine.execLi a rd imm s
  | .lih a rd imm => Sys2Proof.Machine.execLih a rd imm s
  | .addx a rd ra imm => Sys2Proof.Machine.execAddx a rd ra imm s
  | .andx a rd ra imm => Sys2Proof.Machine.execAndx a rd ra imm s
  | .orx a rd ra imm => Sys2Proof.Machine.execOrx a rd ra imm s
  | .xorx a rd ra imm => Sys2Proof.Machine.execXorx a rd ra imm s
  | .mul a rd ra rb => Sys2Proof.Machine.execMul a rd ra rb s
  | .mulh a rd ra rb => Sys2Proof.Machine.execMulh a rd ra rb s
  | .mulhu a rd ra rb => Sys2Proof.Machine.execMulhu a rd ra rb s
  | .mulhsu a rd ra rb => Sys2Proof.Machine.execMulhsu a rd ra rb s
  | .mulw a rd ra rb => Sys2Proof.Machine.execMulw a rd ra rb s
  | .mulwu a rd ra rb => Sys2Proof.Machine.execMulwu a rd ra rb s
  | .div a rd ra rb => Sys2Proof.Machine.execDiv a rd ra rb s
  | .divu a rd ra rb => Sys2Proof.Machine.execDivu a rd ra rb s
  | .rem a rd ra rb => Sys2Proof.Machine.execRem a rd ra rb s
  | .remu a rd ra rb => Sys2Proof.Machine.execRemu a rd ra rb s
  | .divw a rd ra rb => Sys2Proof.Machine.execDivw a rd ra rb s
  | .divwu a rd ra rb => Sys2Proof.Machine.execDivwu a rd ra rb s
  | .remw a rd ra rb => Sys2Proof.Machine.execRemw a rd ra rb s
  | .remwu a rd ra rb => Sys2Proof.Machine.execRemwu a rd ra rb s
  | .fadd a p rd ra rb => Sys2Proof.Machine.execFadd a p rd ra rb s
  | .fsub a p rd ra rb => Sys2Proof.Machine.execFsub a p rd ra rb s
  | .fmul a p rd ra rb => Sys2Proof.Machine.execFmul a p rd ra rb s
  | .fdiv a p rd ra rb => Sys2Proof.Machine.execFdiv a p rd ra rb s
  | .fsqrt a p rd ra => Sys2Proof.Machine.execFsqrt a p rd ra s
  | .fma a p rd ra rb rc => Sys2Proof.Machine.execFma a p rd ra rb rc s
  | .fms a p rd ra rb rc => Sys2Proof.Machine.execFms a p rd ra rb rc s
  | .fnma a p rd ra rb rc => Sys2Proof.Machine.execFnma a p rd ra rb rc s
  | .fmin a p rd ra rb => Sys2Proof.Machine.execFmin a p rd ra rb s
  | .fmax a p rd ra rb => Sys2Proof.Machine.execFmax a p rd ra rb s
  | .fabs a p rd ra => Sys2Proof.Machine.execFabs a p rd ra s
  | .fneg a p rd ra => Sys2Proof.Machine.execFneg a p rd ra s
  | .fcmpeq a p rd ra rb => Sys2Proof.Machine.execFcmpeq a p rd ra rb s
  | .fcmplt a p rd ra rb => Sys2Proof.Machine.execFcmplt a p rd ra rb s
  | .fcmple a p rd ra rb => Sys2Proof.Machine.execFcmple a p rd ra rb s
  | .fcmpun a p rd ra rb => Sys2Proof.Machine.execFcmpun a p rd ra rb s
  | .fclass a p rd ra => Sys2Proof.Machine.execFclass a p rd ra s
  | .fcvtI a p rd ra => Sys2Proof.Machine.execFcvtI a p rd ra s
  | .fcvtU a p rd ra => Sys2Proof.Machine.execFcvtU a p rd ra s
  | .fcvtF a p rd ra => Sys2Proof.Machine.execFcvtF a p rd ra s
  | .fcvtFu a p rd ra => Sys2Proof.Machine.execFcvtFu a p rd ra s
  | .fcvtP a p rd ra => Sys2Proof.Machine.execFcvtP a p rd ra s
  | .fsgnj a p rd ra rb => Sys2Proof.Machine.execFsgnj a p rd ra rb s
  | .beq a ra rb target => Sys2Proof.Machine.execBeq a ra rb target s
  | .bne a ra rb target => Sys2Proof.Machine.execBne a ra rb target s
  | .blt a ra rb target => Sys2Proof.Machine.execBlt a ra rb target s
  | .bge a ra rb target => Sys2Proof.Machine.execBge a ra rb target s
  | .bltu a ra rb target => Sys2Proof.Machine.execBltu a ra rb target s
  | .bgeu a ra rb target => Sys2Proof.Machine.execBgeu a ra rb target s
  | .jal a rd target => Sys2Proof.Machine.execJal a rd target s
  | .jalr a rd ra => Sys2Proof.Machine.execJalr a rd ra s
  | .loop a rc le => Sys2Proof.Machine.execLoop a rc le s
  | .loopi a count le => Sys2Proof.Machine.execLoopi a count le s
  | .mtl a g n sel => Sys2Proof.Machine.execMtl a g n sel s
  | .mfl a g n sel => Sys2Proof.Machine.execMfl a g n sel s
  | .ld a sz sgn rt ra off => Sys2Proof.Machine.execLd a sz sgn rt ra off s
  | .ldv a vt ra off => Sys2Proof.Machine.execLdv a vt ra off s
  | .st a sz rt ra off => Sys2Proof.Machine.execSt a sz rt ra off s
  | .stv a vt ra off => Sys2Proof.Machine.execStv a vt ra off s
  | .ldr a sz sgn rt rh ro => Sys2Proof.Machine.execLdr a sz sgn rt rh ro s
  | .str a sz rt rh ro => Sys2Proof.Machine.execStr a sz rt rh ro s
  | .bmov a rd ra rb => Sys2Proof.Machine.execBmov a rd ra rb s
  | .bfill a rd ra rb => Sys2Proof.Machine.execBfill a rd ra rb s
  | .bscan a w ne rd ra rb => Sys2Proof.Machine.execBscan a w ne rd ra rb s
  | .bcmp a rd ra rb => Sys2Proof.Machine.execBcmp a rd ra rb s
  | .vfadd a ty vd va vb => Sys2Proof.Machine.execVfadd a ty vd va vb s
  | .vfsub a ty vd va vb => Sys2Proof.Machine.execVfsub a ty vd va vb s
  | .vfmul a ty vd va vb => Sys2Proof.Machine.execVfmul a ty vd va vb s
  | .vfdiv a ty vd va vb => Sys2Proof.Machine.execVfdiv a ty vd va vb s
  | .vfsqrt a ty vd va => Sys2Proof.Machine.execVfsqrt a ty vd va s
  | .vfma a ty vd va vb vc => Sys2Proof.Machine.execVfma a ty vd va vb vc s
  | .vfms a ty vd va vb vc => Sys2Proof.Machine.execVfms a ty vd va vb vc s
  | .vfnma a ty vd va vb vc => Sys2Proof.Machine.execVfnma a ty vd va vb vc s
  | .vfmin a ty vd va vb => Sys2Proof.Machine.execVfmin a ty vd va vb s
  | .vfmax a ty vd va vb => Sys2Proof.Machine.execVfmax a ty vd va vb s
  | .vfabs a ty vd va => Sys2Proof.Machine.execVfabs a ty vd va s
  | .vfneg a ty vd va => Sys2Proof.Machine.execVfneg a ty vd va s
  | .vfcmpeq a ty vd va vb => Sys2Proof.Machine.execVfcmpeq a ty vd va vb s
  | .vfcmplt a ty vd va vb => Sys2Proof.Machine.execVfcmplt a ty vd va vb s
  | .vfcmple a ty vd va vb => Sys2Proof.Machine.execVfcmple a ty vd va vb s
  | .vfcmpun a ty vd va vb => Sys2Proof.Machine.execVfcmpun a ty vd va vb s
  | .vfclass a ty vd va => Sys2Proof.Machine.execVfclass a ty vd va s
  | .vfcvtI a ty vd va => Sys2Proof.Machine.execVfcvtI a ty vd va s
  | .vfcvtU a ty vd va => Sys2Proof.Machine.execVfcvtU a ty vd va s
  | .vfcvtF a ty vd va => Sys2Proof.Machine.execVfcvtF a ty vd va s
  | .vfcvtFu a ty vd va => Sys2Proof.Machine.execVfcvtFu a ty vd va s
  | .vfcvtP a ty vd va => Sys2Proof.Machine.execVfcvtP a ty vd va s
  | .vfsgnj a ty vd va vb => Sys2Proof.Machine.execVfsgnj a ty vd va vb s
  | .vfrsum a ty vd va => Sys2Proof.Machine.execVfrsum a ty vd va s
  | .vadd a ty vd va vb => Sys2Proof.Machine.execVadd a ty vd va vb s
  | .vsub a ty vd va vb => Sys2Proof.Machine.execVsub a ty vd va vb s
  | .vand a ty vd va vb => Sys2Proof.Machine.execVand a ty vd va vb s
  | .vor a ty vd va vb => Sys2Proof.Machine.execVor a ty vd va vb s
  | .vxor a ty vd va vb => Sys2Proof.Machine.execVxor a ty vd va vb s
  | .vandn a ty vd va vb => Sys2Proof.Machine.execVandn a ty vd va vb s
  | .vsll a ty vd va vb => Sys2Proof.Machine.execVsll a ty vd va vb s
  | .vsrl a ty vd va vb => Sys2Proof.Machine.execVsrl a ty vd va vb s
  | .vsra a ty vd va vb => Sys2Proof.Machine.execVsra a ty vd va vb s
  | .vcmpeq a ty vd va vb => Sys2Proof.Machine.execVcmpeq a ty vd va vb s
  | .vcmplt a ty vd va vb => Sys2Proof.Machine.execVcmplt a ty vd va vb s
  | .vcmpltu a ty vd va vb => Sys2Proof.Machine.execVcmpltu a ty vd va vb s
  | .vmin a ty vd va vb => Sys2Proof.Machine.execVmin a ty vd va vb s
  | .vmax a ty vd va vb => Sys2Proof.Machine.execVmax a ty vd va vb s
  | .vmov a ty vd va => Sys2Proof.Machine.execVmov a ty vd va s
  | .vsel a ty vd va vb vc => Sys2Proof.Machine.execVsel a ty vd va vb vc s
  | .vperm a ty vd va vb => Sys2Proof.Machine.execVperm a ty vd va vb s
  | .vbcast a ty v g => Sys2Proof.Machine.execVbcast a ty v g s
  | .vext a ty v g lane => Sys2Proof.Machine.execVext a ty v g lane s
  | .vins a ty v g lane => Sys2Proof.Machine.execVins a ty v g lane s
  | .vbfly4 a ty vd va vb => Sys2Proof.Machine.execVbfly4 a ty vd va vb s
  | .vcmul a ty vd va vb => Sys2Proof.Machine.execVcmul a ty vd va vb s
  | .vcmulc a ty vd va vb => Sys2Proof.Machine.execVcmulc a ty vd va vb s
  | .send a dest port len mono itsel src nr => Sys2Proof.Machine.execSend a dest port len mono itsel src nr s
  | .sendi a dest port len mono itsel src cr node ir => Sys2Proof.Machine.execSendi a dest port len mono itsel src cr node ir s
  | .ctxreq a rd graph => Sys2Proof.Machine.execCtxreq a rd graph s
  | .mode a ra imm => Sys2Proof.Machine.execMode a ra imm s
  | .instrNop a => Sys2Proof.Machine.execInstrNop a s
  | .endFiring a => Sys2Proof.Machine.execEndFiring a s
  | .dropr a => Sys2Proof.Machine.execDropr a s
  | .resume a => Sys2Proof.Machine.execResume a s
  | .brk a n => Sys2Proof.Machine.execBrk a n s
  | .rdstat a rd => Sys2Proof.Machine.execRdstat a rd s
  | .xmov a rd w => Sys2Proof.Machine.execXmov a rd w s
  | .xset a ra => Sys2Proof.Machine.execXset a ra s
  | .ctxrel a ra => Sys2Proof.Machine.execCtxrel a ra s
  | .mfsr a rd sr => Sys2Proof.Machine.execMfsr a rd sr s
  | .mtsr a ra sr => Sys2Proof.Machine.execMtsr a ra sr s
  | .waite a => Sys2Proof.Machine.execWaite a s
  | .icinv a ra => Sys2Proof.Machine.execIcinv a ra s
  | .dcclean a ra => Sys2Proof.Machine.execDcclean a ra s
  | .dcinv a ra => Sys2Proof.Machine.execDcinv a ra s
  | .dcci a ra => Sys2Proof.Machine.execDcci a ra s
  | .fence a => Sys2Proof.Machine.execFence a s
  | .stewardTimerExpiry => Sys2Proof.Machine.execStewardTimerExpiry s
  | .creditRequest prod ctx gen => Sys2Proof.Machine.execCreditRequest prod ctx gen s
  | .creditGrant prod ctx gen => Sys2Proof.Machine.execCreditGrant prod ctx gen s
  | .creditReturn unit ctx gen => Sys2Proof.Machine.execCreditReturn unit ctx gen s
  | .loadReport c => Sys2Proof.Machine.execLoadReport c s
  | .activationGrant => Sys2Proof.Machine.execActivationGrant s
  | .contextInstall c ctx => Sys2Proof.Machine.execContextInstall c ctx s
  | .installAck ctx => Sys2Proof.Machine.execInstallAck ctx s
  | .contextUninstall c ctx => Sys2Proof.Machine.execContextUninstall c ctx s
  | .contextFree ctx => Sys2Proof.Machine.execContextFree ctx s
  | .startWaitExpiry r => Sys2Proof.Machine.execStartWaitExpiry r s
  | .guardWaitExpiry c => Sys2Proof.Machine.execGuardWaitExpiry c s
  | .guardWindowExpiry c => Sys2Proof.Machine.execGuardWindowExpiry c s
  | .yieldDelayExpiry c => Sys2Proof.Machine.execYieldDelayExpiry c s
  | .calmTimeExpiry c => Sys2Proof.Machine.execCalmTimeExpiry c s
  | .stallTimerExpiry => Sys2Proof.Machine.execStallTimerExpiry s
  | .ageSweep => Sys2Proof.Machine.execAgeSweep s
  | .slotBoundary => Sys2Proof.Machine.execSlotBoundary s
  | .regionRequest src xid ue => Sys2Proof.Machine.execRegionRequest src xid ue s
  | .regionResponse src xid ue => Sys2Proof.Machine.execRegionResponse src xid ue s
  | .reqTimeout src xid => Sys2Proof.Machine.execReqTimeout src xid s
  | .appendToken j src t ue => Sys2Proof.Machine.execAppendToken j src t ue s
  | .fabricHeaderError router lost => Sys2Proof.Machine.execFabricHeaderError router lost s
  | .deadTimeExpiry target => Sys2Proof.Machine.execDeadTimeExpiry target s
  | .sensorLinkUp p => Sys2Proof.Machine.execSensorLinkUp p s
  | .sensorLinkDown p => Sys2Proof.Machine.execSensorLinkDown p s
  | .frameReceived p back frame corr uncorr => Sys2Proof.Machine.execFrameReceived p back frame corr uncorr s
  | .blockEmit p => Sys2Proof.Machine.execBlockEmit p s
  | .portEpochClose p => Sys2Proof.Machine.execPortEpochClose p s
  | .bellInject b => Sys2Proof.Machine.execBellInject b s
  | .evinEdge n x frac => Sys2Proof.Machine.execEvinEdge n x frac s
  | .evHoldoffExpiry n => Sys2Proof.Machine.execEvHoldoffExpiry n s
  | .rateWindowEnd => Sys2Proof.Machine.execRateWindowEnd s
  | .stuckTimeout n => Sys2Proof.Machine.execStuckTimeout n s
  | .epochStart => Sys2Proof.Machine.execEpochStart s
  | .epochBoundary => Sys2Proof.Machine.execEpochBoundary s
  | .bellRelease c ctx epar => Sys2Proof.Machine.execBellRelease c ctx epar s
  | .resultToken src t ue => Sys2Proof.Machine.execResultToken src t ue s
  | .bellAtWriter src t ue => Sys2Proof.Machine.execBellAtWriter src t ue s
  | .gapNotice k => Sys2Proof.Machine.execGapNotice k s
  | .varnishLimitReached => Sys2Proof.Machine.execVarnishLimitReached s
  | .varnish => Sys2Proof.Machine.execVarnish s
  | .auditVerdict ctx => Sys2Proof.Machine.execAuditVerdict ctx s
  | .chainLinkUp c => Sys2Proof.Machine.execChainLinkUp c s
  | .chainLinkDown c => Sys2Proof.Machine.execChainLinkDown c s
  | .cartLaunch => Sys2Proof.Machine.execCartLaunch s
  | .cartPass c cart short perr => Sys2Proof.Machine.execCartPass c cart short perr s
  | .cartReturn c via cart short fin => Sys2Proof.Machine.execCartReturn c via cart short fin s
  | .settleLimitExpiry => Sys2Proof.Machine.execSettleLimitExpiry s
  | .cartLossDetach => Sys2Proof.Machine.execCartLossDetach s
  | .detachHoldExpiry station => Sys2Proof.Machine.execDetachHoldExpiry station s
  | .bulkFrameReceived c bytes quarter perr => Sys2Proof.Machine.execBulkFrameReceived c bytes quarter perr s
  | .bulkFrameSend c quarter => Sys2Proof.Machine.execBulkFrameSend c quarter s
  | .delayMeasure c => Sys2Proof.Machine.execDelayMeasure c s
  | .presenceSend => Sys2Proof.Machine.execPresenceSend s
  | .stationAgeExpiry station => Sys2Proof.Machine.execStationAgeExpiry station s
  | .chainEgressToken src t ue => Sys2Proof.Machine.execChainEgressToken src t ue s
  | .chainSendTimeout => Sys2Proof.Machine.execChainSendTimeout s
  | .actLinkUp a => Sys2Proof.Machine.execActLinkUp a s
  | .actLinkDown a => Sys2Proof.Machine.execActLinkDown a s
  | .noticeRequest a eth head crc bad => Sys2Proof.Machine.execNoticeRequest a eth head crc bad s
  | .queuedAnswerStart a bad => Sys2Proof.Machine.execQueuedAnswerStart a bad s
  | .peerSilent a => Sys2Proof.Machine.execPeerSilent a s
  | .annWaitExpiry a => Sys2Proof.Machine.execAnnWaitExpiry a s
  | .noticeboardWrite src t ue => Sys2Proof.Machine.execNoticeboardWrite src t ue s
  | .tripCommand src t ue => Sys2Proof.Machine.execTripCommand src t ue s
  | .tripAgeCheck => Sys2Proof.Machine.execTripAgeCheck s
  | .forceLineAssert k => Sys2Proof.Machine.execForceLineAssert k s
  | .forceLineDeassert k => Sys2Proof.Machine.execForceLineDeassert k s
  | .graphEventToken src t ue => Sys2Proof.Machine.execGraphEventToken src t ue s
  | .stewardMessage src t ue => Sys2Proof.Machine.execStewardMessage src t ue s
  | .faultRaise src fcode data => Sys2Proof.Machine.execFaultRaise src fcode data s
  | .handlingEnd logErr => Sys2Proof.Machine.execHandlingEnd logErr s
  | .conditionEnd src fcode => Sys2Proof.Machine.execConditionEnd src fcode s
  | .quietPeriodExpiry => Sys2Proof.Machine.execQuietPeriodExpiry s
  | .logScrub => Sys2Proof.Machine.execLogScrub s
  | .pairCompare k => Sys2Proof.Machine.execPairCompare k s
  | .skewTimeout k => Sys2Proof.Machine.execSkewTimeout k s
  | .stewardCompare addr agree => Sys2Proof.Machine.execStewardCompare addr agree s
  | .comparatorStall c => Sys2Proof.Machine.execComparatorStall c s
  | .tripReadbackMismatch pins => Sys2Proof.Machine.execTripReadbackMismatch pins s
  | .traceMarker src t ue => Sys2Proof.Machine.execTraceMarker src t ue s
  | .tracePacketWrite => Sys2Proof.Machine.execTracePacketWrite s
  | .traceSync => Sys2Proof.Machine.execTraceSync s
  | .traceCtrlWrite value => Sys2Proof.Machine.execTraceCtrlWrite value s
  | .extest pins scan => Sys2Proof.Machine.execExtest pins scan s
  | .idcode => Sys2Proof.Machine.execIdcode s
  | .samplePreload pins scan => Sys2Proof.Machine.execSamplePreload pins scan s
  | .clamp => Sys2Proof.Machine.execClamp s
  | .highz => Sys2Proof.Machine.execHighz s
  | .bypass => Sys2Proof.Machine.execBypass s
  | .dbgAddr value => Sys2Proof.Machine.execDbgAddr value s
  | .dbgData update => Sys2Proof.Machine.execDbgData update s
  | .dbgStatus => Sys2Proof.Machine.execDbgStatus s
  | .run k => Sys2Proof.Machine.execRun k s
  | .stepOne k => Sys2Proof.Machine.execStepOne k s
  | .kill k => Sys2Proof.Machine.execKill k s
  | .answerSent a => Sys2Proof.Machine.execAnswerSent a s
  | .requestFrameEnd a len fcsOk => Sys2Proof.Machine.execRequestFrameEnd a len fcsOk s
  | .keyNChange high => Sys2Proof.Machine.execKeyNChange high s
  | .ppsOutPulseEnd => Sys2Proof.Machine.execPpsOutPulseEnd s
  | .pcieConfigWrite bme d3hot msixEn => Sys2Proof.Machine.execPcieConfigWrite bme d3hot msixEn s
  | .msixVectorUnmask v => Sys2Proof.Machine.execMsixVectorUnmask v s
  | .rootConflictRearm => Sys2Proof.Machine.execRootConflictRearm s

end Sys2Proof.Machine
end

