-- ==== Sys2Proof/Safety.lean ====
section
/-! DEFINITION. What a safe run is: it goes on, and it burns no fuse back; and when an instruction
issues, in the terms that claims use. -/

namespace Sys2Proof.Machine

/-- A step that goes on. -/
def Goes (s : State) : Prop := ∃ t, step s = .next t

/-- What the fuses of `b` are after those of `a`, by R457 and R459: FW_MIN_SVN is not lower;
FUSE_LOCKED stays burned, and where it is burned no key slot changes; the fused firmware hashes, the
serial number and the fused setup fields are as they were. -/
structure Fuses.After (a b : Fuses) : Prop where
  minSvn      : a.minSvn ≤ b.minSvn
  locked      : a.locked = true → b.locked = true
  reportKey   : a.locked = true → b.reportKey = a.reportKey
  graphPkh    : a.locked = true → b.graphPkh = a.graphPkh
  fwPkh       : b.fwPkh = a.fwPkh
  serial      : b.serial = a.serial
  assetTag    : b.assetTag = a.assetTag
  ppsInEdge   : b.ppsInEdge = a.ppsInEdge
  ppsOutWidth : b.ppsOutWidth = a.ppsOutWidth

/-! ## When an instruction issues (07_block_engine.md R144, R156, R161, R231) -/

/-- The bank of an engine once the landing registers that its next instruction names have landed
(R157); a word that lands with a parity error poisons the firing (R140). -/
def State.bankAt (s : State) (e : Engine) (x : Bool) : Bank :=
  let b := s.bank e x
  b.landFor (s.codeWord e b.regs.pc) (s.codeWord e (b.regs.pc + unitOf e))

/-- What the meaning of the next instruction of a bank sees. -/
def State.exAt (s : State) (a : At) (x : Bool) : Ex :=
  let b := s.bankAt a.eng x
  let w := s.codeWord a.eng b.regs.pc
  { e := a.eng, x := x, at_ := a, w := w, len := wordsOf w, b := b
    base := { b.regs with mode := b.regs.modeNext.getD b.regs.mode, modeNext := none }
    code := s.codeWord a.eng }

/-- The state once those registers have landed, and the Steward's fetch has filled its cache
(R189). -/
def State.fetchState (s : State) (e : Engine) (x : Bool) : State :=
  ((s.modBank e x fun _ => s.bankAt e x).freeLanded e x (popCount 12 (s.bank e x).badWords.toNat)).fillCache e
    (s.bank e x).regs.pc

/-- The operations of an engine that a core has or that wait for it (R232). -/
def State.coreOps (s : State) (e : Engine) (c : Core) : List Op :=
  (s.bank e true).core c ++ (s.bank e false).core c

/-- The instruction of words `w` and `w2` issues: its bank may issue (R144, R156), no earlier
operation holds it (R161), it is the next instruction of the bank, no exception of R231 stands in
its place, and it does not stand in a delay slot that R165 bars it from. -/
structure Issues (s : State) (a : At) (x : Bool) (w : Word) (w2 : Option Word) : Prop where
  runs  : s.running a.eng = some x
  free  : (s.bank a.eng x).gated = false
  word  : s.codeWord a.eng (s.bank a.eng x).regs.pc = w
  word2 : ∀ v, w2 = some v → s.codeWord a.eng ((s.bank a.eng x).regs.pc + unitOf a.eng) = v
  clean : (s.fetchState a.eng x).beforeIssue a.eng x a (s.bankAt a.eng x) w
            (s.codeWord a.eng ((s.bank a.eng x).regs.pc + unitOf a.eng)) = none
  slot  : ((s.bank a.eng x).regs.slot.isSome && noSlot w) = false

/-- The oldest operation of a bank stays until an event ends it: it waits for its result, its
response, or its late exception, or an MTSR for its distance. -/
def Op.waits (o : Op) : Bool :=
  match o.kind with
  | .result _ => true
  | .regionLoad .. => true
  | .regionStored _ => true
  | .trap .. => o.d != some 1
  | .sysWrite .. => !o.begun
  | _ => false

/-- Nothing but the instruction itself changes its bank: the oldest operation in flight waits, no BUDGET
waits to end the firing (R146, R251), no earlier instruction within its distance writes a register of `ds`
(R163), no core stands idle while an operation waits for it (R232), the bank does not hold a SEND or a
context request, and no debugger steps the engine. -/
structure Calm (s : State) (a : At) (x : Bool) (ds : List Dest) : Prop where
  waits  : ∀ o, (s.bankAt a.eng x).ops.head? = some o → o.waits = true
  budget : ∀ o ∈ (s.bankAt a.eng x).ops, ∀ i, o.kind ≠ .trap 0x0B i
  fresh  : ∀ d ∈ ds, (s.bankAt a.eng x).doubles d = false
  cores  : ∀ c, ((s.fetchState a.eng x).coreOps a.eng c).any (·.begun) = true ∨
    (s.fetchState a.eng x).coreOps a.eng c = []
  unheld : (s.bank a.eng x).held = false
  steps  : match a.eng with
    | .cell n => (s.cell n.val).dbg.stepping = false
    | .steward => s.steward.stepping = false

/-- The firing queues of a cell once the words that the next instruction names have landed: those with a
parity error are counted (R140), and the last gives the packet's words back (R139). -/
def State.landedQue (s : State) (n : Fin 128) (x : Bool) : Queues :=
  let b := s.bankAt (.cell n) x
  let q := (s.cell n.val).que
  let bad := popCount 12 (s.bank (.cell n) x).badWords.toNat - popCount 12 b.badWords.toNat
  let q := { q with cnt := q.cnt.bump QueCtr.easelPe.ctorIdx bad }
  if b.unlanded == 0 && (if x then q.xHeld else q.eHeld) != 0 && !b.dropping then q.release x else q

/-- What an instruction that changes its own bank, and with `st` its memory, leaves: every unit but
the cells or the Steward, every other cell, the other bank, and the rest of its own cell but its
INSTR_ISSUED counter (with `whole`: not for a step of a block-repeat that is not its last), the mark
of a passed breakpoint and the queues as the landed operand words leave them. -/
def Own (st whole : Bool) (s t : State) : Engine → Bool → Prop
  | .cell n, x =>
    t = { s with cells := t.cells } ∧ (∀ m, m ≠ n.val → t.cell m = s.cell m) ∧
    t.cell n.val = { s.cell n.val with
      p := if x then (t.cell n.val).p else (s.cell n.val).p
      m := if x then (s.cell n.val).m else (t.cell n.val).m
      scratch := if st then (t.cell n.val).scratch else (s.cell n.val).scratch
      cnt := if whole then (s.cell n.val).cnt.bump EngCtr.instrIssued.ctorIdx else (s.cell n.val).cnt
      dbg := { (s.cell n.val).dbg with passed := false }
      que := s.landedQue n x }
  | .steward, _ =>
    t = { s with steward := { s.steward with
      bank := t.steward.bank, icache := t.steward.icache
      dcache := if st then t.steward.dcache else s.steward.dcache
      mem := if st then t.steward.mem else s.steward.mem } }

/-- Only the bank changed. -/
abbrev OnlyBank (s t : State) (e : Engine) (x : Bool) : Prop := Own false true s t e x

/-- The bank went on in sequence, through its loops and its delay slot (R164, R167, R168): one more
instruction has issued, and the registers are `r` at the next place. -/
structure WentOn (s t : State) (a : At) (x : Bool) (r : Regs) : Prop where
  regs  : (t.bank a.eng x).regs = r.finish (s.codeWord a.eng) (unitOf a.eng) (s.exAt a x).len
  count : (t.bank a.eng x).n = (s.bank a.eng x).n + 1
  only  : OnlyBank s t a.eng x

/-- The operation that the next instruction leaves in flight, `k` at distance `d` (R160): its unit works on it
at once, but a core that has another lets it wait (R232), and an MTSR waits for its distance. -/
def State.opAt (s : State) (a : At) (x : Bool) (k : OpKind) (d : Option Nat) : Op :=
  let o : Op :=
    { kind := k, n := (s.bankAt a.eng x).n, d := d, word := (s.exAt a x).w, snap := (s.bankAt a.eng x).regs }
  { o with begun := o.begins fun c => ((s.fetchState a.eng x).coreOps a.eng c).any (·.begun) }

/-- An instruction of distance 1 wrote `ds`, in order, and nothing else (R160-R163). -/
structure Wrote (s t : State) (a : At) (x : Bool) (ds : List Dest) : Prop where
  on  : WentOn s t a x (ds.foldl (fun r d => d.apply r) (s.exAt a x).base)
  ops : (t.bank a.eng x).ops = (s.bankAt a.eng x).ops

/-- An instruction left an operation in flight that ends in `k` at distance `d`, and wrote nothing
(R160-R162). -/
structure Started (s t : State) (a : At) (x : Bool) (k : OpKind) (d : Option Nat) : Prop where
  on  : WentOn s t a x (s.exAt a x).base
  ops : (t.bank a.eng x).ops = (s.bankAt a.eng x).ops ++ [s.opAt a x k d]

/-- A branch or jump issued: its target, if taken, waits for the delay slot (R164), and the results
`ds` are written. -/
structure Jumped (s t : State) (a : At) (x : Bool) (target : Option Nat) (ds : List Dest) : Prop where
  regs  : (t.bank a.eng x).regs =
    { ds.foldl (fun r d => d.apply r) (s.exAt a x).base with
      pc := (s.bank a.eng x).regs.pc + unitOf a.eng * (s.exAt a x).len
      slot := some { idx := (s.bank a.eng x).regs.pc, target := target } }
  count : (t.bank a.eng x).n = (s.bank a.eng x).n + 1
  ops   : (t.bank a.eng x).ops = (s.bankAt a.eng x).ops
  only  : OnlyBank s t a.eng x

/-- The instruction issued and left the registers `r`, with no operation and nothing else changed. -/
structure Left (s t : State) (a : At) (x : Bool) (r : Regs) : Prop where
  regs  : (t.bank a.eng x).regs = r
  count : (t.bank a.eng x).n = (s.bank a.eng x).n + 1
  ops   : (t.bank a.eng x).ops = (s.bankAt a.eng x).ops
  only  : OnlyBank s t a.eng x

/-- No operation is in flight in the bank, those that its units still work on were squashed before, and
no debugger steps the engine. -/
def Alone (s : State) (a : At) (x : Bool) : Prop :=
  Calm s a x [] ∧ (s.bankAt a.eng x).ops = [] ∧ ∀ o ∈ (s.bankAt a.eng x).ghosts, o.n ≤ (s.bankAt a.eng x).n

/-- What an instruction of one engine leaves: every unit but that engine, every other cell, the
engine's memory and the other bank. -/
def Near (s t : State) : Engine → Bool → Prop
  | .cell n, x =>
    t = { s with cells := t.cells } ∧ (∀ m, m ≠ n.val → t.cell m = s.cell m) ∧
    (t.cell n.val).scratch = (s.cell n.val).scratch ∧ t.bank (.cell n) (!x) = s.bank (.cell n) (!x)
  | .steward, _ =>
    t = { s with steward := t.steward } ∧ t.steward.mem = s.steward.mem ∧
      t.steward.dcache = s.steward.dcache

/-- A bank that is not in its handler may take an exception to it: the Steward's always, a cell's
when its graph names a handler (R180, R187). -/
def HasHandler (s : State) (a : At) (x : Bool) : Prop :=
  (s.bank a.eng x).regs.inHandler = false ∧ (isSeq a.eng = true ∨ (s.bank a.eng x).attr.handler ≠ 0x3FFF)

/-- The bank took an exception to its handler: the record of R182 holds the registers before the
instruction, its word, the code and XINFO; the handler begins at HANDLER, or at XVEC in the Steward,
with the mode that the next instruction would have had; no operation is left. -/
structure Trapped (s t : State) (a : At) (x : Bool) (code : Nat) (info : BitVec 64) : Prop where
  regs : (t.bank a.eng x).regs = { (s.exAt a x).base with
    slot := none, resumeLvl := none, inHandler := true
    pc := if isSeq a.eng then s.steward.xvec.toNat else (s.bank a.eng x).attr.handler }
  x0   : (t.bank a.eng x).x0 =
    BitVec.ofNat 64 (record (s.bankAt a.eng x).regs (isSeq a.eng) (s.exAt a x).w code).1
  x1   : (t.bank a.eng x).x1 =
    BitVec.ofNat 64 (record (s.bankAt a.eng x).regs (isSeq a.eng) (s.exAt a x).w code).2.1
  x2   : (t.bank a.eng x).x2 = info
  ops  : (t.bank a.eng x).ops = []
  near : Near s t a.eng x

/-! ## Loads and stores (07_block_engine.md R169-R173, R189) -/

/-- The data cache of the Steward takes a line or two more before one has to leave. -/
def Steward.Room (m : Steward) : Prop :=
  m.dcache.length + 2 ≤ 512 ∧ ∀ e ∈ m.dcache, e.2.1.length = 64

/-- The bytes `l` stand at `p` in the memory of an engine, and every other byte of it is as before. -/
def Holds (s t : State) (p : Nat) (l : List Byte) : Engine → Prop
  | .cell n => ∀ q, (t.cell n.val).scratch.get 0 q =
      if p ≤ q ∧ q < p + l.length then l.getD (q - p) 0 else (s.cell n.val).scratch.get 0 q
  | .steward => l.length ≤ 64 → s.steward.Room → ∀ q, t.steward.byte q =
      if p ≤ q ∧ q < p + l.length then l.getD (q - p) 0 else s.steward.byte q

/-- A store as it waits in its bank. -/
def storeOps (s : State) (a : At) (x : Bool) : Option (Nat × List Byte) → List Op
  | some (p, l) => [s.opAt a x (.scratchStore p l) none]
  | none => []

/-- A store issued, or with `last` false a step of a block-repeat (R169): it wrote `ds` at once and
made the store `st`, if any, which commits at once when no earlier operation waits, and otherwise
waits behind them (R172, R174).  A step that is not the last stays at its place. -/
structure Ran (s t : State) (a : At) (x : Bool) (ds : List Dest) (st : Option (Nat × List Byte))
    (last : Bool) : Prop where
  regs  : (t.bank a.eng x).regs =
    if last then (ds.foldl (fun r d => d.apply r) (s.exAt a x).base).finish (s.codeWord a.eng)
      (unitOf a.eng) (s.exAt a x).len
    else ds.foldl (fun r d => d.apply r) (s.bankAt a.eng x).regs
  count : (t.bank a.eng x).n = if last then (s.bank a.eng x).n + 1 else (s.bank a.eng x).n
  ops   : (t.bank a.eng x).ops = if st.isSome && (s.bankAt a.eng x).ops.isEmpty then []
    else (s.bankAt a.eng x).ops ++ storeOps s a x st
  own   : Own (st.isSome && (s.bankAt a.eng x).ops.isEmpty) last s t a.eng x
  mem   : ∀ p l, st = some (p, l) → (s.bankAt a.eng x).ops = [] → Holds s t p l a.eng

end Sys2Proof.Machine
end

