-- ==== Sys2Proof/Machine/Encode.lean ====
section
/-! DEFINITION. The words of each Gheing instruction (08_gheing_reference.md R193-R229). -/

namespace Sys2Proof.Machine

/-- Where an instruction command runs and the words it stands for: the first, and the second of
format X (R193).  Other commands have none. -/
def words : Instr → Option (At × Word × Option Word)
  | .add a rd ra rb => some (a, wordT 0x00#6 rd ra rb 0 0x01#6, none)
  | .sub a rd ra rb => some (a, wordT 0x00#6 rd ra rb 0 0x02#6, none)
  | .and a rd ra rb => some (a, wordT 0x00#6 rd ra rb 0 0x03#6, none)
  | .or a rd ra rb => some (a, wordT 0x00#6 rd ra rb 0 0x04#6, none)
  | .xor a rd ra rb => some (a, wordT 0x00#6 rd ra rb 0 0x05#6, none)
  | .andn a rd ra rb => some (a, wordT 0x00#6 rd ra rb 0 0x06#6, none)
  | .sll a rd ra rb => some (a, wordT 0x00#6 rd ra rb 0 0x08#6, none)
  | .srl a rd ra rb => some (a, wordT 0x00#6 rd ra rb 0 0x09#6, none)
  | .sra a rd ra rb => some (a, wordT 0x00#6 rd ra rb 0 0x0A#6, none)
  | .ror a rd ra rb => some (a, wordT 0x00#6 rd ra rb 0 0x0B#6, none)
  | .seq a rd ra rb => some (a, wordT 0x00#6 rd ra rb 0 0x0C#6, none)
  | .sne a rd ra rb => some (a, wordT 0x00#6 rd ra rb 0 0x0D#6, none)
  | .slt a rd ra rb => some (a, wordT 0x00#6 rd ra rb 0 0x0E#6, none)
  | .sltu a rd ra rb => some (a, wordT 0x00#6 rd ra rb 0 0x0F#6, none)
  | .min a rd ra rb => some (a, wordT 0x00#6 rd ra rb 0 0x10#6, none)
  | .max a rd ra rb => some (a, wordT 0x00#6 rd ra rb 0 0x11#6, none)
  | .minu a rd ra rb => some (a, wordT 0x00#6 rd ra rb 0 0x12#6, none)
  | .maxu a rd ra rb => some (a, wordT 0x00#6 rd ra rb 0 0x13#6, none)
  | .addc a rd ra rb rc => some (a, wordT 0x00#6 rd ra rb rc 0x14#6, none)
  | .carry a rd ra rb rc => some (a, wordT 0x00#6 rd ra rb rc 0x15#6, none)
  | .subb a rd ra rb rc => some (a, wordT 0x00#6 rd ra rb rc 0x16#6, none)
  | .borrow a rd ra rb rc => some (a, wordT 0x00#6 rd ra rb rc 0x17#6, none)
  | .acc128 a rd ra => some (a, wordT 0x00#6 rd ra 0 0 0x18#6, none)
  | .acc128u a rd ra => some (a, wordT 0x00#6 rd ra 0 0 0x19#6, none)
  | .clz a rd ra => some (a, wordT 0x00#6 rd ra 0 0 0x1A#6, none)
  | .ctz a rd ra => some (a, wordT 0x00#6 rd ra 0 0 0x1B#6, none)
  | .popc a rd ra => some (a, wordT 0x00#6 rd ra 0 0 0x1C#6, none)
  | .bswap a rd ra => some (a, wordT 0x00#6 rd ra 0 0 0x1D#6, none)
  | .addw a rd ra rb => some (a, wordT 0x00#6 rd ra rb 0 0x1E#6, none)
  | .subw a rd ra rb => some (a, wordT 0x00#6 rd ra rb 0 0x1F#6, none)
  | .addi a rd ra imm => some (a, wordI 0x04#6 rd ra imm, none)
  | .andi a rd ra imm => some (a, wordI 0x05#6 rd ra imm, none)
  | .ori a rd ra imm => some (a, wordI 0x06#6 rd ra imm, none)
  | .xori a rd ra imm => some (a, wordI 0x07#6 rd ra imm, none)
  | .slti a rd ra imm => some (a, wordI 0x08#6 rd ra imm, none)
  | .sltiu a rd ra imm => some (a, wordI 0x09#6 rd ra imm, none)
  | .shi a rd ra kind n => some (a, wordI 0x0A#6 rd ra (0#8 ++ kind ++ n), none)
  | .lui a rd imm => some (a, wordI 0x0B#6 rd 0 imm, none)
  | .extu a rd ra pos w1 => some (a, wordI 0x0C#6 rd ra (0#4 ++ w1 ++ pos), none)
  | .exts a rd ra pos w1 => some (a, wordI 0x0D#6 rd ra (0#4 ++ w1 ++ pos), none)
  | .ins a rd ra pos w1 => some (a, wordI 0x0E#6 rd ra (0#4 ++ w1 ++ pos), none)
  | .li a rd imm => some (a, wordI 0x38#6 rd 0 1, some imm)
  | .lih a rd imm => some (a, wordI 0x38#6 rd 0 2, some imm)
  | .addx a rd ra imm => some (a, wordI 0x38#6 rd ra 3, some imm)
  | .andx a rd ra imm => some (a, wordI 0x38#6 rd ra 4, some imm)
  | .orx a rd ra imm => some (a, wordI 0x38#6 rd ra 5, some imm)
  | .xorx a rd ra imm => some (a, wordI 0x38#6 rd ra 6, some imm)
  | .mul a rd ra rb => some (a, wordT 0x01#6 rd ra rb 0 0x01#6, none)
  | .mulh a rd ra rb => some (a, wordT 0x01#6 rd ra rb 0 0x02#6, none)
  | .mulhu a rd ra rb => some (a, wordT 0x01#6 rd ra rb 0 0x03#6, none)
  | .mulhsu a rd ra rb => some (a, wordT 0x01#6 rd ra rb 0 0x04#6, none)
  | .mulw a rd ra rb => some (a, wordT 0x01#6 rd ra rb 0 0x05#6, none)
  | .mulwu a rd ra rb => some (a, wordT 0x01#6 rd ra rb 0 0x06#6, none)
  | .div a rd ra rb => some (a, wordT 0x01#6 rd ra rb 0 0x08#6, none)
  | .divu a rd ra rb => some (a, wordT 0x01#6 rd ra rb 0 0x09#6, none)
  | .rem a rd ra rb => some (a, wordT 0x01#6 rd ra rb 0 0x0A#6, none)
  | .remu a rd ra rb => some (a, wordT 0x01#6 rd ra rb 0 0x0B#6, none)
  | .divw a rd ra rb => some (a, wordT 0x01#6 rd ra rb 0 0x0C#6, none)
  | .divwu a rd ra rb => some (a, wordT 0x01#6 rd ra rb 0 0x0D#6, none)
  | .remw a rd ra rb => some (a, wordT 0x01#6 rd ra rb 0 0x0E#6, none)
  | .remwu a rd ra rb => some (a, wordT 0x01#6 rd ra rb 0 0x0F#6, none)
  | .fadd a p rd ra rb => some (a, wordF rd ra rb 0 p 0x01#5, none)
  | .fsub a p rd ra rb => some (a, wordF rd ra rb 0 p 0x02#5, none)
  | .fmul a p rd ra rb => some (a, wordF rd ra rb 0 p 0x03#5, none)
  | .fdiv a p rd ra rb => some (a, wordF rd ra rb 0 p 0x04#5, none)
  | .fsqrt a p rd ra => some (a, wordF rd ra 0 0 p 0x05#5, none)
  | .fma a p rd ra rb rc => some (a, wordF rd ra rb rc p 0x06#5, none)
  | .fms a p rd ra rb rc => some (a, wordF rd ra rb rc p 0x07#5, none)
  | .fnma a p rd ra rb rc => some (a, wordF rd ra rb rc p 0x08#5, none)
  | .fmin a p rd ra rb => some (a, wordF rd ra rb 0 p 0x09#5, none)
  | .fmax a p rd ra rb => some (a, wordF rd ra rb 0 p 0x0A#5, none)
  | .fabs a p rd ra => some (a, wordF rd ra 0 0 p 0x0B#5, none)
  | .fneg a p rd ra => some (a, wordF rd ra 0 0 p 0x0C#5, none)
  | .fcmpeq a p rd ra rb => some (a, wordF rd ra rb 0 p 0x0D#5, none)
  | .fcmplt a p rd ra rb => some (a, wordF rd ra rb 0 p 0x0E#5, none)
  | .fcmple a p rd ra rb => some (a, wordF rd ra rb 0 p 0x0F#5, none)
  | .fcmpun a p rd ra rb => some (a, wordF rd ra rb 0 p 0x10#5, none)
  | .fclass a p rd ra => some (a, wordF rd ra 0 0 p 0x11#5, none)
  | .fcvtI a p rd ra => some (a, wordF rd ra 0 0 p 0x12#5, none)
  | .fcvtU a p rd ra => some (a, wordF rd ra 0 0 p 0x13#5, none)
  | .fcvtF a p rd ra => some (a, wordF rd ra 0 0 p 0x14#5, none)
  | .fcvtFu a p rd ra => some (a, wordF rd ra 0 0 p 0x15#5, none)
  | .fcvtP a p rd ra => some (a, wordF rd ra 0 0 p 0x16#5, none)
  | .fsgnj a p rd ra rb => some (a, wordF rd ra rb 0 p 0x17#5, none)
  | .beq a ra rb target => some (a, wordB 0x10#6 ra rb target, none)
  | .bne a ra rb target => some (a, wordB 0x11#6 ra rb target, none)
  | .blt a ra rb target => some (a, wordB 0x12#6 ra rb target, none)
  | .bge a ra rb target => some (a, wordB 0x13#6 ra rb target, none)
  | .bltu a ra rb target => some (a, wordB 0x14#6 ra rb target, none)
  | .bgeu a ra rb target => some (a, wordB 0x15#6 ra rb target, none)
  | .jal a rd target => some (a, wordB 0x16#6 rd 0 target, none)
  | .jalr a rd ra => some (a, wordB 0x17#6 rd ra 0, none)
  | .loop a rc le => some (a, wordL 0x18#6 (rc ++ 0#7) le, none)
  | .loopi a count le => some (a, wordL 0x19#6 count le, none)
  | .mtl a g n sel => some (a, wordLreg g n sel true, none)
  | .mfl a g n sel => some (a, wordLreg g n sel false, none)
  | .ld a sz sgn rt ra off => some (a, wordM 0x20#6 rt ra (0#1 ++ sz) sgn off, none)
  | .ldv a vt ra off => some (a, wordM 0x20#6 (0#1 ++ vt) ra 4#3 false off, none)
  | .st a sz rt ra off => some (a, wordM 0x21#6 rt ra (0#1 ++ sz) false off, none)
  | .stv a vt ra off => some (a, wordM 0x21#6 (0#1 ++ vt) ra 4#3 false off, none)
  | .ldr a sz sgn rt rh ro => some (a, wordM 0x22#6 rt rh sz sgn (ro ++ 0#7), none)
  | .str a sz rt rh ro => some (a, wordM 0x23#6 rt rh sz false (ro ++ 0#7), none)
  | .bmov a rd ra rb => some (a, wordRep rd ra rb 0 false 0x01#6, none)
  | .bfill a rd ra rb => some (a, wordRep rd ra rb 0 false 0x02#6, none)
  | .bscan a w ne rd ra rb => some (a, wordRep rd ra rb w ne 0x03#6, none)
  | .bcmp a rd ra rb => some (a, wordRep rd ra rb 0 false 0x04#6, none)
  | .vfadd a ty vd va vb => some (a, wordV 0x28#6 vd va vb 0 ty 0x01#8, none)
  | .vfsub a ty vd va vb => some (a, wordV 0x28#6 vd va vb 0 ty 0x02#8, none)
  | .vfmul a ty vd va vb => some (a, wordV 0x28#6 vd va vb 0 ty 0x03#8, none)
  | .vfdiv a ty vd va vb => some (a, wordV 0x28#6 vd va vb 0 ty 0x04#8, none)
  | .vfsqrt a ty vd va => some (a, wordV 0x28#6 vd va 0 0 ty 0x05#8, none)
  | .vfma a ty vd va vb vc => some (a, wordV 0x28#6 vd va vb vc ty 0x06#8, none)
  | .vfms a ty vd va vb vc => some (a, wordV 0x28#6 vd va vb vc ty 0x07#8, none)
  | .vfnma a ty vd va vb vc => some (a, wordV 0x28#6 vd va vb vc ty 0x08#8, none)
  | .vfmin a ty vd va vb => some (a, wordV 0x28#6 vd va vb 0 ty 0x09#8, none)
  | .vfmax a ty vd va vb => some (a, wordV 0x28#6 vd va vb 0 ty 0x0A#8, none)
  | .vfabs a ty vd va => some (a, wordV 0x28#6 vd va 0 0 ty 0x0B#8, none)
  | .vfneg a ty vd va => some (a, wordV 0x28#6 vd va 0 0 ty 0x0C#8, none)
  | .vfcmpeq a ty vd va vb => some (a, wordV 0x28#6 vd va vb 0 ty 0x0D#8, none)
  | .vfcmplt a ty vd va vb => some (a, wordV 0x28#6 vd va vb 0 ty 0x0E#8, none)
  | .vfcmple a ty vd va vb => some (a, wordV 0x28#6 vd va vb 0 ty 0x0F#8, none)
  | .vfcmpun a ty vd va vb => some (a, wordV 0x28#6 vd va vb 0 ty 0x10#8, none)
  | .vfclass a ty vd va => some (a, wordV 0x28#6 vd va 0 0 ty 0x11#8, none)
  | .vfcvtI a ty vd va => some (a, wordV 0x28#6 vd va 0 0 ty 0x12#8, none)
  | .vfcvtU a ty vd va => some (a, wordV 0x28#6 vd va 0 0 ty 0x13#8, none)
  | .vfcvtF a ty vd va => some (a, wordV 0x28#6 vd va 0 0 ty 0x14#8, none)
  | .vfcvtFu a ty vd va => some (a, wordV 0x28#6 vd va 0 0 ty 0x15#8, none)
  | .vfcvtP a ty vd va => some (a, wordV 0x28#6 vd va 0 0 ty 0x16#8, none)
  | .vfsgnj a ty vd va vb => some (a, wordV 0x28#6 vd va vb 0 ty 0x17#8, none)
  | .vfrsum a ty vd va => some (a, wordV 0x28#6 vd va 0 0 ty 0x18#8, none)
  | .vadd a ty vd va vb => some (a, wordV 0x29#6 vd va vb 0 ty 0x01#8, none)
  | .vsub a ty vd va vb => some (a, wordV 0x29#6 vd va vb 0 ty 0x02#8, none)
  | .vand a ty vd va vb => some (a, wordV 0x29#6 vd va vb 0 ty 0x03#8, none)
  | .vor a ty vd va vb => some (a, wordV 0x29#6 vd va vb 0 ty 0x04#8, none)
  | .vxor a ty vd va vb => some (a, wordV 0x29#6 vd va vb 0 ty 0x05#8, none)
  | .vandn a ty vd va vb => some (a, wordV 0x29#6 vd va vb 0 ty 0x06#8, none)
  | .vsll a ty vd va vb => some (a, wordV 0x29#6 vd va vb 0 ty 0x08#8, none)
  | .vsrl a ty vd va vb => some (a, wordV 0x29#6 vd va vb 0 ty 0x09#8, none)
  | .vsra a ty vd va vb => some (a, wordV 0x29#6 vd va vb 0 ty 0x0A#8, none)
  | .vcmpeq a ty vd va vb => some (a, wordV 0x29#6 vd va vb 0 ty 0x0C#8, none)
  | .vcmplt a ty vd va vb => some (a, wordV 0x29#6 vd va vb 0 ty 0x0E#8, none)
  | .vcmpltu a ty vd va vb => some (a, wordV 0x29#6 vd va vb 0 ty 0x0F#8, none)
  | .vmin a ty vd va vb => some (a, wordV 0x29#6 vd va vb 0 ty 0x10#8, none)
  | .vmax a ty vd va vb => some (a, wordV 0x29#6 vd va vb 0 ty 0x11#8, none)
  | .vmov a ty vd va => some (a, wordV 0x29#6 vd va 0 0 ty 0x14#8, none)
  | .vsel a ty vd va vb vc => some (a, wordV 0x29#6 vd va vb vc ty 0x15#8, none)
  | .vperm a ty vd va vb => some (a, wordV 0x29#6 vd va vb 0 ty 0x16#8, none)
  | .vbcast a ty v g => some (a, wordLane g v 0 ty 0x01#8, none)
  | .vext a ty v g lane => some (a, wordLane g v lane ty 0x02#8, none)
  | .vins a ty v g lane => some (a, wordLane g v lane ty 0x03#8, none)
  | .vbfly4 a ty vd va vb => some (a, wordV 0x2B#6 vd va vb 0 ty 0x01#8, none)
  | .vcmul a ty vd va vb => some (a, wordV 0x2B#6 vd va vb 0 ty 0x02#8, none)
  | .vcmulc a ty vd va vb => some (a, wordV 0x2B#6 vd va vb 0 ty 0x03#8, none)
  | .send a dest port len mono itsel src nr => some (a, wordS 0x30#6 dest port len mono itsel src nr, none)
  | .sendi a dest port len mono itsel src cr node ir => some (a, wordS 0x31#6 dest port len mono itsel src cr, some (node ++ ir ++ 0#13))
  | .ctxreq a rd graph => some (a, wordI 0x33#6 rd 0 (0#6 ++ graph), none)
  | .mode a ra imm => some (a, wordI 0x0F#6 0 ra imm, none)
  | .instrNop a => some (a, wordT 0x32#6 0 0 0 0 0x01#6, none)
  | .endFiring a => some (a, wordT 0x32#6 0 0 0 0 0x02#6, none)
  | .dropr a => some (a, wordT 0x32#6 0 0 0 0 0x03#6, none)
  | .resume a => some (a, wordT 0x32#6 0 0 0 0 0x04#6, none)
  | .brk a n => some (a, wordI 0x32#6 (n.extractLsb' 5 5) (n.extractLsb' 0 5) 0x0005#16, none)
  | .rdstat a rd => some (a, wordT 0x32#6 rd 0 0 0 0x06#6, none)
  | .xmov a rd w => some (a, wordT 0x32#6 rd 0 w 0 0x07#6, none)
  | .xset a ra => some (a, wordT 0x32#6 0 ra 0 0 0x08#6, none)
  | .ctxrel a ra => some (a, wordT 0x32#6 0 ra 0 0 0x09#6, none)
  | .mfsr a rd sr => some (a, wordPriv rd 0 sr 0x01#6, none)
  | .mtsr a ra sr => some (a, wordPriv 0 ra sr 0x02#6, none)
  | .waite a => some (a, wordPriv 0 0 0 0x03#6, none)
  | .icinv a ra => some (a, wordPriv 0 ra 0 0x04#6, none)
  | .dcclean a ra => some (a, wordPriv 0 ra 0 0x05#6, none)
  | .dcinv a ra => some (a, wordPriv 0 ra 0 0x06#6, none)
  | .dcci a ra => some (a, wordPriv 0 ra 0 0x07#6, none)
  | .fence a => some (a, wordPriv 0 0 0 0x08#6, none)
  | .nop _ _ _ => none
  | .identify _ _ _ => none
  | .createCmdRing _ _ _ => none
  | .createCplRing _ _ _ => none
  | .deleteRing _ _ _ => none
  | .eventRoute _ _ _ => none
  | .statistics _ _ _ => none
  | .hostInject _ _ _ => none
  | .loadGraph _ _ _ _ => none
  | .unloadGraph _ _ _ => none
  | .startGraph _ _ _ => none
  | .stopGraph _ _ _ => none
  | .graphEnable _ _ _ => none
  | .setGroup _ _ _ => none
  | .regionCreate _ _ _ => none
  | .regionFree _ _ _ => none
  | .regionCopy _ _ _ => none
  | .bindStream _ _ _ => none
  | .unbindStream _ _ _ => none
  | .bindImport _ _ _ => none
  | .unbindImport _ _ _ => none
  | .sensorPortConfig _ _ _ => none
  | .actPortConfig _ _ _ => none
  | .eventInputConfig _ _ _ => none
  | .reeveConfig _ _ _ => none
  | .cellarConfig _ _ _ => none
  | .slotAlloc _ _ _ => none
  | .epochConfig _ _ _ => none
  | .chainConfig _ _ _ => none
  | .readResults _ _ _ => none
  | .readReport _ _ _ => none
  | .exqRead _ _ _ => none
  | .enumerate _ _ _ => none
  | .chainSend _ _ _ => none
  | .noticeSend _ _ _ => none
  | .nbProgram _ _ _ => none
  | .tripConfig _ _ _ => none
  | .cellFlush _ _ _ => none
  | .selfTest _ _ _ => none
  | .watchConfig _ _ _ => none
  | .faultForce _ _ _ => none
  | .faultClear _ _ _ => none
  | .faultLogRead _ _ _ => none
  | .fwUpdate _ _ _ => none
  | .keyProvision _ _ _ => none
  | .debugEnable _ _ _ => none
  | .fuseLock _ _ _ => none
  | .reseal _ _ _ => none
  | .lanternDiag _ _ _ => none
  | .restart _ _ _ => none
  | .tailDoorbell _ _ _ => none
  | .headDoorbell _ _ _ => none
  | .completionWrite => none
  | .holdoffExpiry _ => none
  | .eventRecordWrite _ => none
  | .bar4Read _ _ _ => none
  | .bar4Write _ => none
  | .hostReset _ => none
  | .ringEnWrite _ => none
  | .setupRegisterWrite _ _ _ => none
  | .t64LoRead _ => none
  | .ppsInLoRead _ => none
  | .tbFreqAdjWrite _ => none
  | .tbPhaseAdjWrite _ => none
  | .tbSetHiWrite _ => none
  | .slewDone => none
  | .ppsInEdge _ _ => none
  | .ppsLossTimeout => none
  | .ppsOutPulse => none
  | .powerUp => none
  | .resetNAssert => none
  | .resetRelease => none
  | .bootStageDone _ => none
  | .startTimeout => none
  | .retryPauseExpiry => none
  | .pcieLinkTrained => none
  | .supplyOut _ _ => none
  | .supplyIn _ _ => none
  | .alwaysOnReset => none
  | .refclkLoss => none
  | .junctionSensorRead _ _ => none
  | .presenceChange => none
  | .sealSample _ => none
  | .restEntry => none
  | .restExit => none
  | .scrubDone _ _ _ => none
  | .hubWake _ => none
  | .columnPowerGoodLoss _ => none
  | .columnPowerGoodReturn _ => none
  | .drainEnd _ => none
  | .drainTimeout _ => none
  | .fenceTimeout _ => none
  | .cellTestDone _ _ => none
  | .hbmTestSegment _ _ => none
  | .fenceRequest _ => none
  | .fenceComplete _ => none
  | .tokenArrival _ _ _ _ _ => none
  | .rsvHoldProceed _ _ => none
  | .waitBufferProceed _ _ => none
  | .heldFiringOffer _ _ => none
  | .spillPageGrant _ => none
  | .spillSlotAck _ _ => none
  | .spillLink _ => none
  | .pageinRequest _ _ _ => none
  | .pageinReturn _ _ _ => none
  | .pageinNone _ _ => none
  | .cellarPurge _ => none
  | .sweepComplete _ _ _ => none
  | .firingStart _ _ _ => none
  | .preemption _ _ _ => none
  | .operationComplete _ _ _ => none
  | .stewardTimerExpiry => none
  | .creditRequest _ _ _ => none
  | .creditGrant _ _ _ => none
  | .creditReturn _ _ _ => none
  | .loadReport _ => none
  | .activationGrant => none
  | .contextInstall _ _ => none
  | .installAck _ => none
  | .contextUninstall _ _ => none
  | .contextFree _ => none
  | .startWaitExpiry _ => none
  | .guardWaitExpiry _ => none
  | .guardWindowExpiry _ => none
  | .yieldDelayExpiry _ => none
  | .calmTimeExpiry _ => none
  | .stallTimerExpiry => none
  | .ageSweep => none
  | .slotBoundary => none
  | .regionRequest _ _ _ => none
  | .regionResponse _ _ _ => none
  | .reqTimeout _ _ => none
  | .appendToken _ _ _ _ => none
  | .fabricHeaderError _ _ => none
  | .deadTimeExpiry _ => none
  | .sensorLinkUp _ => none
  | .sensorLinkDown _ => none
  | .frameReceived _ _ _ _ _ => none
  | .blockEmit _ => none
  | .portEpochClose _ => none
  | .bellInject _ => none
  | .evinEdge _ _ _ => none
  | .evHoldoffExpiry _ => none
  | .rateWindowEnd => none
  | .stuckTimeout _ => none
  | .epochStart => none
  | .epochBoundary => none
  | .bellRelease _ _ _ => none
  | .resultToken _ _ _ => none
  | .bellAtWriter _ _ _ => none
  | .gapNotice _ => none
  | .varnishLimitReached => none
  | .varnish => none
  | .auditVerdict _ => none
  | .chainLinkUp _ => none
  | .chainLinkDown _ => none
  | .cartLaunch => none
  | .cartPass _ _ _ _ => none
  | .cartReturn _ _ _ _ _ => none
  | .settleLimitExpiry => none
  | .cartLossDetach => none
  | .detachHoldExpiry _ => none
  | .bulkFrameReceived _ _ _ _ => none
  | .bulkFrameSend _ _ => none
  | .delayMeasure _ => none
  | .presenceSend => none
  | .stationAgeExpiry _ => none
  | .chainEgressToken _ _ _ => none
  | .chainSendTimeout => none
  | .actLinkUp _ => none
  | .actLinkDown _ => none
  | .noticeRequest _ _ _ _ _ => none
  | .queuedAnswerStart _ _ => none
  | .peerSilent _ => none
  | .annWaitExpiry _ => none
  | .noticeboardWrite _ _ _ => none
  | .tripCommand _ _ _ => none
  | .tripAgeCheck => none
  | .forceLineAssert _ => none
  | .forceLineDeassert _ => none
  | .graphEventToken _ _ _ => none
  | .stewardMessage _ _ _ => none
  | .faultRaise _ _ _ => none
  | .handlingEnd _ => none
  | .conditionEnd _ _ => none
  | .quietPeriodExpiry => none
  | .logScrub => none
  | .pairCompare _ => none
  | .skewTimeout _ => none
  | .stewardCompare _ _ => none
  | .comparatorStall _ => none
  | .tripReadbackMismatch _ => none
  | .traceMarker _ _ _ => none
  | .tracePacketWrite => none
  | .traceSync => none
  | .traceCtrlWrite _ => none
  | .extest _ _ => none
  | .idcode => none
  | .samplePreload _ _ => none
  | .clamp => none
  | .highz => none
  | .bypass => none
  | .dbgAddr _ => none
  | .dbgData _ => none
  | .dbgStatus => none
  | .run _ => none
  | .stepOne _ => none
  | .kill _ => none
  | .answerSent _ => none
  | .requestFrameEnd _ _ _ => none
  | .keyNChange _ => none
  | .ppsOutPulseEnd => none
  | .pcieConfigWrite _ _ _ => none
  | .msixVectorUnmask _ => none
  | .rootConflictRearm => none

end Sys2Proof.Machine
end

