-- ==== Sys2Proof/WellFormed.lean ====
section
/-! DEFINITION. Which commands are well formed: the values that a command's fields can hold
together. -/

namespace Sys2Proof
open Sys2Proof.Machine

/-- A token's payload has the words that LEN says, where LEN is not reserved (R22, R25). -/
def Token.wf (t : Token) : Bool :=
  decide (5 ≤ t.tag.len.toNat) || t.payload.length == lenWords t.tag.len.toNat

/-- The host answers at most the HLEN bytes of its buffer (R394). -/
def HostBuf.wf (d : Desc) : HostBuf → Bool
  | .data l => decide (l.length ≤ d.hlen.toNat)
  | .timeout | .failed => true

/-- A write of PCIe carries 1, 2, 4 or 8 bytes (R386). -/
def sizeWf (n : BitVec 4) : Bool := n == 1 || n == 2 || n == 4 || n == 8

/-- A partition's nodes and words stand at different places (R155). -/
def PartDef.wf (p : PartDef) : Bool := (p.nodes.map (·.1)).Nodup && (p.code.map (·.1)).Nodup

/-- An image defines a group once, and its partitions' contents are well formed. -/
def GraphBody.wf (g : GraphBody) : Bool := (g.groups.map (·.num)).Nodup && g.parts.all PartDef.wf

/-- A result of a boot stage names a stack or a cell once (R469). -/
def BootResult.wf : BootResult → Bool
  | .stacks l => l.Nodup
  | .cells l => l.Nodup
  | .ok | .fail _ => true

/-- An instruction's words are an instruction of the mode of its engine (R193-R229). -/
def instrWf (i : Instr) : Bool :=
  match words i with
  | some (a, w, w2) => legal (isSeqEngine a.eng) w (w2.getD 0)
  | none => true
where
  isSeqEngine : Engine → Bool
    | .steward => true
    | .cell _ => false

/-- The command is well formed. -/
def Instr.wf (i : Instr) : Bool :=
  match i with
  | .nop _ d b => b.wf d
  | .identify _ d b => b.wf d
  | .createCmdRing _ d b => b.wf d
  | .createCplRing _ d b => b.wf d
  | .deleteRing _ d b => b.wf d
  | .eventRoute _ d b => b.wf d
  | .statistics _ d b => b.wf d
  | .hostInject _ d b => b.buf.wf d
  | .loadGraph _ d b g => b.wf d && g.wf
  | .unloadGraph _ d b => b.wf d
  | .startGraph _ d b => b.wf d
  | .stopGraph _ d b => b.wf d
  | .graphEnable _ d b => b.wf d
  | .setGroup _ d b => b.wf d
  | .regionCreate _ d b => b.wf d
  | .regionFree _ d b => b.wf d
  | .regionCopy _ d b => b.wf d
  | .bindStream _ d b => b.wf d
  | .unbindStream _ d b => b.wf d
  | .bindImport _ d b => b.wf d
  | .unbindImport _ d b => b.wf d
  | .sensorPortConfig _ d b => b.wf d
  | .actPortConfig _ d b => b.buf.wf d
  | .eventInputConfig _ d b => b.wf d
  | .reeveConfig _ d b => b.wf d
  | .cellarConfig _ d b => b.wf d
  | .slotAlloc _ d b => b.wf d
  | .epochConfig _ d b => b.wf d
  | .chainConfig _ d b => b.wf d
  | .readResults _ d b => b.wf d
  | .readReport _ d b => b.wf d
  | .exqRead _ d b => b.wf d
  | .enumerate _ d b => b.wf d
  | .chainSend _ d b => b.wf d
  | .noticeSend _ d b => b.wf d
  | .nbProgram _ d b => b.wf d
  | .tripConfig _ d b => b.wf d
  | .cellFlush _ d b => b.buf.wf d
  | .selfTest _ d b => b.wf d
  | .watchConfig _ d b => b.wf d
  | .faultForce _ d b => b.wf d
  | .faultClear _ d b => b.wf d
  | .faultLogRead _ d b => b.wf d
  | .fwUpdate _ d b => b.wf d
  | .keyProvision _ d b => b.wf d
  | .debugEnable _ d b => b.wf d
  | .fuseLock _ d b => b.wf d
  | .reseal _ d b => b.wf d
  | .lanternDiag _ d b => b.wf d
  | .restart _ d b => b.wf d
  | .tailDoorbell _ size _ => sizeWf size
  | .headDoorbell _ size _ => sizeWf size
  | .completionWrite => true
  | .holdoffExpiry _ => true
  | .eventRecordWrite _ => true
  | .bar4Read _ _ _ => true
  | .bar4Write _ => true
  | .hostReset _ => true
  | .ringEnWrite _ => true
  | .setupRegisterWrite _ size _ => sizeWf size
  | .t64LoRead _ => true
  | .ppsInLoRead _ => true
  | .tbFreqAdjWrite _ => true
  | .tbPhaseAdjWrite _ => true
  | .tbSetHiWrite _ => true
  | .slewDone => true
  | .ppsInEdge _ _ => true
  | .ppsLossTimeout => true
  | .ppsOutPulse => true
  | .powerUp => true
  | .resetNAssert => true
  | .resetRelease => true
  | .bootStageDone r => r.wf
  | .startTimeout => true
  | .retryPauseExpiry => true
  | .pcieLinkTrained => true
  | .supplyOut _ _ => true
  | .supplyIn _ _ => true
  | .alwaysOnReset => true
  | .refclkLoss => true
  | .junctionSensorRead _ _ => true
  | .presenceChange => true
  | .sealSample _ => true
  | .restEntry => true
  | .restExit => true
  | .scrubDone _ _ bad => decide bad.Nodup
  | .hubWake _ => true
  | .columnPowerGoodLoss _ => true
  | .columnPowerGoodReturn _ => true
  | .drainEnd _ => true
  | .drainTimeout _ => true
  | .fenceTimeout _ => true
  | .cellTestDone _ _ => true
  | .hbmTestSegment _ _ => true
  | .fenceRequest _ => true
  | .fenceComplete _ => true
  | .tokenArrival _ _ t _ _ => t.wf
  | .rsvHoldProceed _ _ => true
  | .waitBufferProceed _ _ => true
  | .heldFiringOffer _ _ => true
  | .spillPageGrant _ => true
  | .spillSlotAck _ _ => true
  | .spillLink _ => true
  | .pageinRequest _ _ _ => true
  | .pageinReturn _ _ _ => true
  | .pageinNone _ _ => true
  | .cellarPurge _ => true
  | .sweepComplete _ _ _ => true
  | .firingStart _ _ _ => true
  | .preemption _ _ _ => true
  | .operationComplete _ _ _ => true
  | .add _ _ _ _ => instrWf i
  | .sub _ _ _ _ => instrWf i
  | .and _ _ _ _ => instrWf i
  | .or _ _ _ _ => instrWf i
  | .xor _ _ _ _ => instrWf i
  | .andn _ _ _ _ => instrWf i
  | .sll _ _ _ _ => instrWf i
  | .srl _ _ _ _ => instrWf i
  | .sra _ _ _ _ => instrWf i
  | .ror _ _ _ _ => instrWf i
  | .seq _ _ _ _ => instrWf i
  | .sne _ _ _ _ => instrWf i
  | .slt _ _ _ _ => instrWf i
  | .sltu _ _ _ _ => instrWf i
  | .min _ _ _ _ => instrWf i
  | .max _ _ _ _ => instrWf i
  | .minu _ _ _ _ => instrWf i
  | .maxu _ _ _ _ => instrWf i
  | .addc _ _ _ _ _ => instrWf i
  | .carry _ _ _ _ _ => instrWf i
  | .subb _ _ _ _ _ => instrWf i
  | .borrow _ _ _ _ _ => instrWf i
  | .acc128 _ _ _ => instrWf i
  | .acc128u _ _ _ => instrWf i
  | .clz _ _ _ => instrWf i
  | .ctz _ _ _ => instrWf i
  | .popc _ _ _ => instrWf i
  | .bswap _ _ _ => instrWf i
  | .addw _ _ _ _ => instrWf i
  | .subw _ _ _ _ => instrWf i
  | .addi _ _ _ _ => instrWf i
  | .andi _ _ _ _ => instrWf i
  | .ori _ _ _ _ => instrWf i
  | .xori _ _ _ _ => instrWf i
  | .slti _ _ _ _ => instrWf i
  | .sltiu _ _ _ _ => instrWf i
  | .shi _ _ _ _ _ => instrWf i
  | .lui _ _ _ => instrWf i
  | .extu _ _ _ _ _ => instrWf i
  | .exts _ _ _ _ _ => instrWf i
  | .ins _ _ _ _ _ => instrWf i
  | .li _ _ _ => instrWf i
  | .lih _ _ _ => instrWf i
  | .addx _ _ _ _ => instrWf i
  | .andx _ _ _ _ => instrWf i
  | .orx _ _ _ _ => instrWf i
  | .xorx _ _ _ _ => instrWf i
  | .mul _ _ _ _ => instrWf i
  | .mulh _ _ _ _ => instrWf i
  | .mulhu _ _ _ _ => instrWf i
  | .mulhsu _ _ _ _ => instrWf i
  | .mulw _ _ _ _ => instrWf i
  | .mulwu _ _ _ _ => instrWf i
  | .div _ _ _ _ => instrWf i
  | .divu _ _ _ _ => instrWf i
  | .rem _ _ _ _ => instrWf i
  | .remu _ _ _ _ => instrWf i
  | .divw _ _ _ _ => instrWf i
  | .divwu _ _ _ _ => instrWf i
  | .remw _ _ _ _ => instrWf i
  | .remwu _ _ _ _ => instrWf i
  | .fadd _ _ _ _ _ => instrWf i
  | .fsub _ _ _ _ _ => instrWf i
  | .fmul _ _ _ _ _ => instrWf i
  | .fdiv _ _ _ _ _ => instrWf i
  | .fsqrt _ _ _ _ => instrWf i
  | .fma _ _ _ _ _ _ => instrWf i
  | .fms _ _ _ _ _ _ => instrWf i
  | .fnma _ _ _ _ _ _ => instrWf i
  | .fmin _ _ _ _ _ => instrWf i
  | .fmax _ _ _ _ _ => instrWf i
  | .fabs _ _ _ _ => instrWf i
  | .fneg _ _ _ _ => instrWf i
  | .fcmpeq _ _ _ _ _ => instrWf i
  | .fcmplt _ _ _ _ _ => instrWf i
  | .fcmple _ _ _ _ _ => instrWf i
  | .fcmpun _ _ _ _ _ => instrWf i
  | .fclass _ _ _ _ => instrWf i
  | .fcvtI _ _ _ _ => instrWf i
  | .fcvtU _ _ _ _ => instrWf i
  | .fcvtF _ _ _ _ => instrWf i
  | .fcvtFu _ _ _ _ => instrWf i
  | .fcvtP _ _ _ _ => instrWf i
  | .fsgnj _ _ _ _ _ => instrWf i
  | .beq _ _ _ _ => instrWf i
  | .bne _ _ _ _ => instrWf i
  | .blt _ _ _ _ => instrWf i
  | .bge _ _ _ _ => instrWf i
  | .bltu _ _ _ _ => instrWf i
  | .bgeu _ _ _ _ => instrWf i
  | .jal _ _ _ => instrWf i
  | .jalr _ _ _ => instrWf i
  | .loop _ _ _ => instrWf i
  | .loopi _ _ _ => instrWf i
  | .mtl _ _ _ _ => instrWf i
  | .mfl _ _ _ _ => instrWf i
  | .ld _ _ _ _ _ _ => instrWf i
  | .ldv _ _ _ _ => instrWf i
  | .st _ _ _ _ _ => instrWf i
  | .stv _ _ _ _ => instrWf i
  | .ldr _ _ _ _ _ _ => instrWf i
  | .str _ _ _ _ _ => instrWf i
  | .bmov _ _ _ _ => instrWf i
  | .bfill _ _ _ _ => instrWf i
  | .bscan _ _ _ _ _ _ => instrWf i
  | .bcmp _ _ _ _ => instrWf i
  | .vfadd _ _ _ _ _ => instrWf i
  | .vfsub _ _ _ _ _ => instrWf i
  | .vfmul _ _ _ _ _ => instrWf i
  | .vfdiv _ _ _ _ _ => instrWf i
  | .vfsqrt _ _ _ _ => instrWf i
  | .vfma _ _ _ _ _ _ => instrWf i
  | .vfms _ _ _ _ _ _ => instrWf i
  | .vfnma _ _ _ _ _ _ => instrWf i
  | .vfmin _ _ _ _ _ => instrWf i
  | .vfmax _ _ _ _ _ => instrWf i
  | .vfabs _ _ _ _ => instrWf i
  | .vfneg _ _ _ _ => instrWf i
  | .vfcmpeq _ _ _ _ _ => instrWf i
  | .vfcmplt _ _ _ _ _ => instrWf i
  | .vfcmple _ _ _ _ _ => instrWf i
  | .vfcmpun _ _ _ _ _ => instrWf i
  | .vfclass _ _ _ _ => instrWf i
  | .vfcvtI _ _ _ _ => instrWf i
  | .vfcvtU _ _ _ _ => instrWf i
  | .vfcvtF _ _ _ _ => instrWf i
  | .vfcvtFu _ _ _ _ => instrWf i
  | .vfcvtP _ _ _ _ => instrWf i
  | .vfsgnj _ _ _ _ _ => instrWf i
  | .vfrsum _ _ _ _ => instrWf i
  | .vadd _ _ _ _ _ => instrWf i
  | .vsub _ _ _ _ _ => instrWf i
  | .vand _ _ _ _ _ => instrWf i
  | .vor _ _ _ _ _ => instrWf i
  | .vxor _ _ _ _ _ => instrWf i
  | .vandn _ _ _ _ _ => instrWf i
  | .vsll _ _ _ _ _ => instrWf i
  | .vsrl _ _ _ _ _ => instrWf i
  | .vsra _ _ _ _ _ => instrWf i
  | .vcmpeq _ _ _ _ _ => instrWf i
  | .vcmplt _ _ _ _ _ => instrWf i
  | .vcmpltu _ _ _ _ _ => instrWf i
  | .vmin _ _ _ _ _ => instrWf i
  | .vmax _ _ _ _ _ => instrWf i
  | .vmov _ _ _ _ => instrWf i
  | .vsel _ _ _ _ _ _ => instrWf i
  | .vperm _ _ _ _ _ => instrWf i
  | .vbcast _ _ _ _ => instrWf i
  | .vext _ _ _ _ _ => instrWf i
  | .vins _ _ _ _ _ => instrWf i
  | .vbfly4 _ _ _ _ _ => instrWf i
  | .vcmul _ _ _ _ _ => instrWf i
  | .vcmulc _ _ _ _ _ => instrWf i
  | .send _ _ _ _ _ _ _ _ => instrWf i
  | .sendi _ _ _ _ _ _ _ _ _ _ => instrWf i
  | .ctxreq _ _ _ => instrWf i
  | .mode _ _ _ => instrWf i
  | .instrNop _ => instrWf i
  | .endFiring _ => instrWf i
  | .dropr _ => instrWf i
  | .resume _ => instrWf i
  | .brk _ _ => instrWf i
  | .rdstat _ _ => instrWf i
  | .xmov _ _ _ => instrWf i
  | .xset _ _ => instrWf i
  | .ctxrel _ _ => instrWf i
  | .mfsr _ _ _ => instrWf i
  | .mtsr _ _ _ => instrWf i
  | .waite _ => instrWf i
  | .icinv _ _ => instrWf i
  | .dcclean _ _ => instrWf i
  | .dcinv _ _ => instrWf i
  | .dcci _ _ => instrWf i
  | .fence _ => instrWf i
  | .stewardTimerExpiry => true
  | .creditRequest _ _ _ => true
  | .creditGrant _ _ _ => true
  | .creditReturn _ _ _ => true
  | .loadReport _ => true
  | .activationGrant => true
  | .contextInstall _ _ => true
  | .installAck _ => true
  | .contextUninstall _ _ => true
  | .contextFree _ => true
  | .startWaitExpiry _ => true
  | .guardWaitExpiry _ => true
  | .guardWindowExpiry _ => true
  | .yieldDelayExpiry _ => true
  | .calmTimeExpiry _ => true
  | .stallTimerExpiry => true
  | .ageSweep => true
  | .slotBoundary => true
  | .regionRequest _ _ _ => true
  | .regionResponse _ _ _ => true
  | .reqTimeout _ _ => true
  | .appendToken _ _ t _ => t.wf
  | .fabricHeaderError _ lost => match lost with
    | .token _ t => t.wf
    | .req .. | .rsp .. | .ctl _ => true
  | .deadTimeExpiry _ => true
  | .sensorLinkUp _ => true
  | .sensorLinkDown _ => true
  | .frameReceived _ _ _ _ _ => true
  | .blockEmit _ => true
  | .portEpochClose _ => true
  | .bellInject _ => true
  | .evinEdge _ _ _ => true
  | .evHoldoffExpiry _ => true
  | .rateWindowEnd => true
  | .stuckTimeout _ => true
  | .epochStart => true
  | .epochBoundary => true
  | .bellRelease _ _ _ => true
  | .resultToken _ t _ => t.wf
  | .bellAtWriter _ t _ => t.wf
  | .gapNotice _ => true
  | .varnishLimitReached => true
  | .varnish => true
  | .auditVerdict _ => true
  | .chainLinkUp _ => true
  | .chainLinkDown _ => true
  | .cartLaunch => true
  | .cartPass _ _ _ _ => true
  | .cartReturn _ _ _ _ _ => true
  | .settleLimitExpiry => true
  | .cartLossDetach => true
  | .detachHoldExpiry _ => true
  | .bulkFrameReceived _ _ _ _ => true
  | .bulkFrameSend _ _ => true
  | .delayMeasure _ => true
  | .presenceSend => true
  | .stationAgeExpiry _ => true
  | .chainEgressToken _ t _ => t.wf
  | .chainSendTimeout => true
  | .actLinkUp _ => true
  | .actLinkDown _ => true
  | .noticeRequest _ _ _ _ bad => decide (bad.map (·.entry)).Nodup
  | .queuedAnswerStart _ bad => decide (bad.map (·.entry)).Nodup
  | .peerSilent _ => true
  | .annWaitExpiry _ => true
  | .noticeboardWrite _ t _ => t.wf
  | .tripCommand _ t _ => t.wf
  | .tripAgeCheck => true
  | .forceLineAssert _ => true
  | .forceLineDeassert _ => true
  | .graphEventToken _ t _ => t.wf
  | .stewardMessage _ t _ => t.wf
  | .faultRaise _ _ _ => true
  | .handlingEnd _ => true
  | .conditionEnd _ _ => true
  | .quietPeriodExpiry => true
  | .logScrub => true
  | .pairCompare _ => true
  | .skewTimeout _ => true
  | .stewardCompare _ _ => true
  | .comparatorStall _ => true
  | .tripReadbackMismatch _ => true
  | .traceMarker _ t _ => t.all Token.wf
  | .tracePacketWrite => true
  | .traceSync => true
  | .traceCtrlWrite _ => true
  | .extest _ _ => true
  | .idcode => true
  | .samplePreload _ _ => true
  | .clamp => true
  | .highz => true
  | .bypass => true
  | .dbgAddr _ => true
  | .dbgData _ => true
  | .dbgStatus => true
  | .run _ => true
  | .stepOne _ => true
  | .kill _ => true
  | .answerSent _ => true
  | .requestFrameEnd _ _ _ => true
  | .keyNChange _ => true
  | .ppsOutPulseEnd => true
  | .pcieConfigWrite _ _ _ => true
  | .msixVectorUnmask _ => true
  | .rootConflictRearm => true

end Sys2Proof
end

