-- ==== Sys2Proof/Certificates/Slice0/Obligations.lean ====
section
/-! DEFINITION. The statements about the block, made from the numbered rules of the spec. -/

namespace Sys2Proof.Claims
end Sys2Proof.Claims

open Sys2Proof Sys2Proof.Machine Sys2Proof.Claims

namespace Sys2Proof.Claims
open Sys2Proof.Machine

/-! ## Instructions (07_block_engine.md, 08_gheing_reference.md) -/

/-- The g-registers of a bank as its next instruction reads them, the landing registers that it names
among them (R157, R195). -/
def gs (s : State) (a : At) (x : Bool) (n : BitVec 5) : BitVec 64 :=
  (s.bankAt a.eng x).regs.gr n.toNat

/-- The v-registers of a bank, likewise. -/
def vs (s : State) (a : At) (x : Bool) (n : BitVec 4) : BitVec 512 :=
  (s.bankAt a.eng x).regs.vr n.toNat

/-- Whenever the instruction issues it goes on and writes g[rd] with what `f` makes of the
g-registers; a write of g0 is discarded (`Regs.setG`); nothing else changes (`Wrote`). -/
def Puts (i : Instr) (rd : BitVec 5) (f : (BitVec 5 → BitVec 64) → BitVec 64) : Prop :=
  ∀ s a x w w2, words i = some (a, w, w2) → Issues s a x w w2 → Calm s a x [.g rd.toNat 0] →
    ∃ t, exec i s = .next t ∧ Wrote s t a x [.g rd.toNat (f (gs s a x))]

/-- Whenever the instruction issues it goes on and leaves an operation in flight that ends in the
results `f` makes of the registers, at distance `d`; nothing else changes (`Started`). -/
def Starts (i : Instr) (d : Nat)
    (f : (BitVec 5 → BitVec 64) → (BitVec 4 → BitVec 512) → Regs → List Dest) : Prop :=
  ∀ s a x w w2, words i = some (a, w, w2) → Issues s a x w w2 →
    let ds := f (gs s a x) (vs s a x) (s.bankAt a.eng x).regs
    Calm s a x ds →
    ∃ t, exec i s = .next t ∧ Started s t a x (.result ds) (some d)

/-- Whenever the floating-point instruction issues it goes on and leaves an operation in flight at
distance `d`: with no enabled flag among its flags, the result and the flags for FSS; with one, an
FP_TRAP that carries the flags and the lanes that raised one (R206, R215, R245). -/
def Floats (i : Instr) (d : Nat) (dest : Nat → Dest)
    (f : (BitVec 5 → BitVec 64) → (BitVec 4 → BitVec 512) → Regs → Nat × Nat × Nat) : Prop :=
  ∀ s a x w w2, words i = some (a, w, w2) → Issues s a x w w2 →
    let r := (s.bankAt a.eng x).regs
    let (v, flags, lanes) := f (gs s a x) (vs s a x) r
    let ds := if flags = 0 then [dest v] else [dest v, .fss (BitVec.ofNat 5 flags)]
    (flags &&& r.fte = 0 → Calm s a x ds →
      ∃ t, exec i s = .next t ∧ Started s t a x (.result ds) (some d)) ∧
    (flags &&& r.fte ≠ 0 → Calm s a x [] →
      ∃ t, exec i s = .next t ∧
        Started s t a x (.trap 0x08 (BitVec.ofNat 64 (flags + lanes * 2 ^ 16))) (some d))

/-- A scalar operation on the operands of R204, with its flags. -/
def FloatOp (i : Instr) (p : Bool) (rd ra rb rc : BitVec 5) (d : Nat)
    (op : Fmt → Nat → Nat → Nat → Nat → FRes) : Prop :=
  Floats i d (fun v => .g rd.toNat (BitVec.ofNat 64 v)) fun g _ r =>
    let k := (Fmt.ofP p).width
    let y := op (Fmt.ofP p) r.rm ((g ra).toNat % 2 ^ k) ((g rb).toNat % 2 ^ k) ((g rc).toNat % 2 ^ k)
    (y.1, y.2, 0)

/-- A conversion of a 64-bit integer (R204). -/
def FromInt (i : Instr) (p : Bool) (rd ra : BitVec 5) (val : BitVec 64 → Int) : Prop :=
  Floats i 3 (fun v => .g rd.toNat (BitVec.ofNat 64 v)) fun g _ r =>
    let y := (Fmt.ofP p).ofInt r.rm (val (g ra))
    (y.1, y.2, 0)

/-- A v-register made of lane results with their flags (R215). -/
def laned (w fte : Nat) (l : List FRes) : Nat × Nat × Nat :=
  (ofLanes w (l.map (·.1)), unionFl (l.map (·.2)), laneMask fte (l.map (·.2)))

/-- A lane-by-lane floating-point operation (R216). -/
def VecFloat (i : Instr) (ty : BitVec 2) (vd va vb vc : BitVec 4) (d : Nat)
    (op : Fmt → Nat → Nat → Nat → Nat → FRes) : Prop :=
  Floats i d (fun v => .v vd.toNat (BitVec.ofNat 512 v)) fun _ v r =>
    let w := laneW ty
    laned w r.fte ((List.range (512 / w)).map fun j => op (laneF ty) r.rm
      ((lanes w (v va)).getD j 0) ((lanes w (v vb)).getD j 0) ((lanes w (v vc)).getD j 0))

/-- A lane-by-lane integer operation (R218). -/
def VecInt (i : Instr) (ty : BitVec 2) (vd va vb vc : BitVec 4)
    (op : Nat → Nat → Nat → Nat → Nat) : Prop :=
  Starts i 2 fun _ v _ =>
    let w := laneW ty
    [.v vd.toNat (vOf w ((List.range (512 / w)).map fun j => op w
      ((lanes w (v va)).getD j 0) ((lanes w (v vb)).getD j 0) ((lanes w (v vc)).getD j 0)))]

/-- The lane results of VCMUL and VCMULC (R220, R247): `conj` negates the imaginary parts of the
second operand. -/
def products (ty : BitVec 2) (rm : Nat) (conj : Bool) (u v : BitVec 512) : List FRes :=
  let w := laneW ty
  let f := laneF ty
  (List.range (512 / w / 2)).flatMap fun j =>
    let b := (lanes w v).getD (2 * j + 1) 0
    let y := cmul f rm ((lanes w u).getD (2 * j) 0) ((lanes w u).getD (2 * j + 1) 0)
      ((lanes w v).getD (2 * j) 0) (if conj then b ^^^ f.sign true else b)
    [(y.1, y.2.2), (y.2.1, y.2.2)]

/-- The lane results of VBFLY4 (R220, R221, R248). -/
def butterflies (ty : BitVec 2) (rm : Nat) (u v : BitVec 512) : List FRes :=
  let w := laneW ty
  let c := fun (l : List Nat) (j : Nat) => ((l.getD (2 * j) 0, l.getD (2 * j + 1) 0) : Cx)
  let p := c (lanes w u)
  let q := c (lanes w v)
  (List.range (512 / w / 8)).flatMap fun k =>
    let y := butterfly (laneF ty) rm (p (4 * k)) (p (4 * k + 1)) (p (4 * k + 2)) (p (4 * k + 3))
      (q (4 * k)) (q (4 * k + 1)) (q (4 * k + 2))
    y.1.flatMap fun z => [(z.1, y.2), (z.2, y.2)]

end Sys2Proof.Claims

/-- R199: the instructions of opcode 0x00 with one result.  Their results stand at once. -/
def Obligations.IntegerRegisterOps : Prop :=
  (∀ a rd ra rb, Puts (.add a rd ra rb) rd fun g => g ra + g rb) ∧
  (∀ a rd ra rb, Puts (.sub a rd ra rb) rd fun g => g ra - g rb) ∧
  (∀ a rd ra rb, Puts (.and a rd ra rb) rd fun g => g ra &&& g rb) ∧
  (∀ a rd ra rb, Puts (.or a rd ra rb) rd fun g => g ra ||| g rb) ∧
  (∀ a rd ra rb, Puts (.xor a rd ra rb) rd fun g => g ra ^^^ g rb) ∧
  (∀ a rd ra rb, Puts (.andn a rd ra rb) rd fun g => g ra &&& ~~~(g rb)) ∧
  (∀ a rd ra rb, Puts (.sll a rd ra rb) rd fun g => g ra <<< sh (g rb)) ∧
  (∀ a rd ra rb, Puts (.srl a rd ra rb) rd fun g => g ra >>> sh (g rb)) ∧
  (∀ a rd ra rb, Puts (.sra a rd ra rb) rd fun g => (g ra).sshiftRight (sh (g rb))) ∧
  (∀ a rd ra rb, Puts (.ror a rd ra rb) rd fun g => ror (g ra) (sh (g rb))) ∧
  (∀ a rd ra rb, Puts (.seq a rd ra rb) rd fun g => flag (g ra == g rb)) ∧
  (∀ a rd ra rb, Puts (.sne a rd ra rb) rd fun g => flag (g ra != g rb)) ∧
  (∀ a rd ra rb, Puts (.slt a rd ra rb) rd fun g => flag ((g ra).slt (g rb))) ∧
  (∀ a rd ra rb, Puts (.sltu a rd ra rb) rd fun g => flag ((g ra).ult (g rb))) ∧
  (∀ a rd ra rb, Puts (.min a rd ra rb) rd fun g => if (g ra).slt (g rb) then g ra else g rb) ∧
  (∀ a rd ra rb, Puts (.max a rd ra rb) rd fun g => if (g ra).slt (g rb) then g rb else g ra) ∧
  (∀ a rd ra rb, Puts (.minu a rd ra rb) rd fun g => if (g ra).ult (g rb) then g ra else g rb) ∧
  (∀ a rd ra rb, Puts (.maxu a rd ra rb) rd fun g => if (g ra).ult (g rb) then g rb else g ra) ∧
  (∀ a rd ra rb rc, Puts (.addc a rd ra rb rc) rd fun g => g ra + g rb + (g rc &&& 1)) ∧
  (∀ a rd ra rb rc, Puts (.carry a rd ra rb rc) rd fun g =>
      flag (decide (2 ^ 64 ≤ (g ra).toNat + (g rb).toNat + (g rc).toNat % 2))) ∧
  (∀ a rd ra rb rc, Puts (.subb a rd ra rb rc) rd fun g => g ra - g rb - (g rc &&& 1)) ∧
  (∀ a rd ra rb rc, Puts (.borrow a rd ra rb rc) rd fun g =>
      flag (decide ((g ra).toNat < (g rb).toNat + (g rc).toNat % 2))) ∧
  (∀ a rd ra, Puts (.clz a rd ra) rd fun g => BitVec.ofNat 64 (clz (g ra))) ∧
  (∀ a rd ra, Puts (.ctz a rd ra) rd fun g => BitVec.ofNat 64 (ctz (g ra))) ∧
  (∀ a rd ra, Puts (.popc a rd ra) rd fun g => BitVec.ofNat 64 (popCount 64 (g ra).toNat)) ∧
  (∀ a rd ra, Puts (.bswap a rd ra) rd fun g => bswap (g ra)) ∧
  (∀ a rd ra rb, Puts (.addw a rd ra rb) rd fun g => sx32 (g ra + g rb)) ∧
  (∀ a rd ra rb, Puts (.subw a rd ra rb) rd fun g => sx32 (g ra - g rb))

/-- R200, R201: the integer instructions with an immediate. -/
def Obligations.IntegerImmediateOps : Prop :=
  (∀ a rd ra imm, Puts (.addi a rd ra imm) rd fun g => g ra + imm.signExtend 64) ∧
  (∀ a rd ra imm, Puts (.andi a rd ra imm) rd fun g => g ra &&& imm.setWidth 64) ∧
  (∀ a rd ra imm, Puts (.ori a rd ra imm) rd fun g => g ra ||| imm.setWidth 64) ∧
  (∀ a rd ra imm, Puts (.xori a rd ra imm) rd fun g => g ra ^^^ imm.setWidth 64) ∧
  (∀ a rd ra imm, Puts (.slti a rd ra imm) rd fun g => flag ((g ra).slt (imm.signExtend 64))) ∧
  (∀ a rd ra imm, Puts (.sltiu a rd ra imm) rd fun g => flag ((g ra).ult (imm.signExtend 64))) ∧
  (∀ a rd ra kind n, Puts (.shi a rd ra kind n) rd fun g =>
      match kind.toNat with
      | 0 => g ra <<< n.toNat
      | 1 => g ra >>> n.toNat
      | 2 => (g ra).sshiftRight n.toNat
      | _ => ror (g ra) n.toNat) ∧
  (∀ a rd imm, Puts (.lui a rd imm) rd fun _ => imm.signExtend 64 <<< 16) ∧
  (∀ a rd ra pos w1, Puts (.extu a rd ra pos w1) rd fun g =>
      BitVec.ofNat 64 ((g ra).toNat / 2 ^ pos.toNat % 2 ^ (w1.toNat + 1))) ∧
  (∀ a rd ra pos w1, Puts (.exts a rd ra pos w1) rd fun g =>
      BitVec.ofInt 64 (sext (w1.toNat + 1) ((g ra).toNat / 2 ^ pos.toNat))) ∧
  (∀ a rd ra pos w1, Puts (.ins a rd ra pos w1) rd fun g =>
      let m := fieldMask pos.toNat (w1.toNat + 1)
      (g rd &&& ~~~m) ||| ((g ra <<< pos.toNat) &&& m)) ∧
  (∀ a rd imm, Puts (.li a rd imm) rd fun _ => imm.signExtend 64) ∧
  (∀ a rd imm, Puts (.lih a rd imm) rd fun g => imm ++ (g rd).extractLsb' 0 32) ∧
  (∀ a rd ra imm, Puts (.addx a rd ra imm) rd fun g => g ra + imm.signExtend 64) ∧
  (∀ a rd ra imm, Puts (.andx a rd ra imm) rd fun g => g ra &&& imm.signExtend 64) ∧
  (∀ a rd ra imm, Puts (.orx a rd ra imm) rd fun g => g ra ||| imm.setWidth 64) ∧
  (∀ a rd ra imm, Puts (.xorx a rd ra imm) rd fun g => g ra ^^^ imm.setWidth 64)

/-- R199, R202: results at a distance above 1. -/
def Obligations.MultiplyDivideOps : Prop :=
  (∀ a rd ra rb, Starts (.mul a rd ra rb) 3 fun g _ _ =>
      [.g rd.toNat (g ra * g rb)]) ∧
  (∀ a rd ra rb, Starts (.mulh a rd ra rb) 3 fun g _ _ =>
      [.g rd.toNat (BitVec.ofInt 64 ((g ra).toInt * (g rb).toInt / 2 ^ 64))]) ∧
  (∀ a rd ra rb, Starts (.mulhu a rd ra rb) 3 fun g _ _ =>
      [.g rd.toNat (BitVec.ofNat 64 ((g ra).toNat * (g rb).toNat / 2 ^ 64))]) ∧
  (∀ a rd ra rb, Starts (.mulhsu a rd ra rb) 3 fun g _ _ =>
      [.g rd.toNat (BitVec.ofInt 64 ((g ra).toInt * (g rb).toNat / 2 ^ 64))]) ∧
  (∀ a rd ra rb, Starts (.mulw a rd ra rb) 3 fun g _ _ =>
      [.g rd.toNat (sx32 (g ra) * sx32 (g rb))]) ∧
  (∀ a rd ra rb, Starts (.mulwu a rd ra rb) 3 fun g _ _ =>
      [.g rd.toNat (((g ra).setWidth 32).setWidth 64 * ((g rb).setWidth 32).setWidth 64)]) ∧
  (∀ a rd ra rb, Starts (.div a rd ra rb) 4 fun g _ _ =>
      [.g rd.toNat (BitVec.ofNat 64 (divide 64 true (g ra).toNat (g rb).toNat).1)]) ∧
  (∀ a rd ra rb, Starts (.divu a rd ra rb) 4 fun g _ _ =>
      [.g rd.toNat (BitVec.ofNat 64 (divide 64 false (g ra).toNat (g rb).toNat).1)]) ∧
  (∀ a rd ra rb, Starts (.rem a rd ra rb) 4 fun g _ _ =>
      [.g rd.toNat (BitVec.ofNat 64 (divide 64 true (g ra).toNat (g rb).toNat).2)]) ∧
  (∀ a rd ra rb, Starts (.remu a rd ra rb) 4 fun g _ _ =>
      [.g rd.toNat (BitVec.ofNat 64 (divide 64 false (g ra).toNat (g rb).toNat).2)]) ∧
  (∀ a rd ra rb, Starts (.divw a rd ra rb) 4 fun g _ _ =>
      [.g rd.toNat (sx32n (divide 32 true (g ra).toNat (g rb).toNat).1)]) ∧
  (∀ a rd ra rb, Starts (.divwu a rd ra rb) 4 fun g _ _ =>
      [.g rd.toNat (sx32n (divide 32 false (g ra).toNat (g rb).toNat).1)]) ∧
  (∀ a rd ra rb, Starts (.remw a rd ra rb) 4 fun g _ _ =>
      [.g rd.toNat (sx32n (divide 32 true (g ra).toNat (g rb).toNat).2)]) ∧
  (∀ a rd ra rb, Starts (.remwu a rd ra rb) 4 fun g _ _ =>
      [.g rd.toNat (sx32n (divide 32 false (g ra).toNat (g rb).toNat).2)]) ∧
  (∀ a rd ra, Starts (.acc128 a rd ra) 2 fun g _ r =>
      let v := (r.gr (rd.toNat + 1) ++ r.gr rd.toNat) + (g ra).signExtend 128
      [.g rd.toNat (v.extractLsb' 0 64), .g (rd.toNat + 1) (v.extractLsb' 64 64)]) ∧
  (∀ a rd ra, Starts (.acc128u a rd ra) 2 fun g _ r =>
      let v := (r.gr (rd.toNat + 1) ++ r.gr rd.toNat) + (g ra).setWidth 128
      [.g rd.toNat (v.extractLsb' 0 64), .g (rd.toNat + 1) (v.extractLsb' 64 64)])

/-- R204-R206: the scalar floating-point instructions. -/
def Obligations.ScalarFloatOps : Prop :=
  (∀ a p rd ra rb, FloatOp (.fadd a p rd ra rb) p rd ra rb 0 3
      fun f rm u v _ => f.add rm u v) ∧
  (∀ a p rd ra rb, FloatOp (.fsub a p rd ra rb) p rd ra rb 0 3
      fun f rm u v _ => f.sub rm u v) ∧
  (∀ a p rd ra rb, FloatOp (.fmul a p rd ra rb) p rd ra rb 0 3
      fun f rm u v _ => f.mul rm u v) ∧
  (∀ a p rd ra rb, FloatOp (.fdiv a p rd ra rb) p rd ra rb 0 4
      fun f rm u v _ => f.div rm u v) ∧
  (∀ a p rd ra, FloatOp (.fsqrt a p rd ra) p rd ra 0 0 4
      fun f rm u _ _ => f.sqrt rm u) ∧
  (∀ a p rd ra rb rc, FloatOp (.fma a p rd ra rb rc) p rd ra rb rc 3
      fun f rm u v w => f.fused rm false false u v w) ∧
  (∀ a p rd ra rb rc, FloatOp (.fms a p rd ra rb rc) p rd ra rb rc 3
      fun f rm u v w => f.fused rm false true u v w) ∧
  (∀ a p rd ra rb rc, FloatOp (.fnma a p rd ra rb rc) p rd ra rb rc 3
      fun f rm u v w => f.fused rm true false u v w) ∧
  (∀ a p rd ra rb, FloatOp (.fmin a p rd ra rb) p rd ra rb 0 3
      fun f _ u v _ => f.minmax false u v) ∧
  (∀ a p rd ra rb, FloatOp (.fmax a p rd ra rb) p rd ra rb 0 3
      fun f _ u v _ => f.minmax true u v) ∧
  (∀ a p rd ra, FloatOp (.fabs a p rd ra) p rd ra 0 0 3
      fun f _ u _ _ => f.withSign u false) ∧
  (∀ a p rd ra, FloatOp (.fneg a p rd ra) p rd ra 0 0 3
      fun f _ u _ _ => f.withSign u !f.signBit u) ∧
  (∀ a p rd ra rb, FloatOp (.fcmpeq a p rd ra rb) p rd ra rb 0 3
      fun f _ u v _ => cmpRes (f.cmp 0 u v)) ∧
  (∀ a p rd ra rb, FloatOp (.fcmplt a p rd ra rb) p rd ra rb 0 3
      fun f _ u v _ => cmpRes (f.cmp 1 u v)) ∧
  (∀ a p rd ra rb, FloatOp (.fcmple a p rd ra rb) p rd ra rb 0 3
      fun f _ u v _ => cmpRes (f.cmp 2 u v)) ∧
  (∀ a p rd ra rb, FloatOp (.fcmpun a p rd ra rb) p rd ra rb 0 3
      fun f _ u v _ => cmpRes (f.cmp 3 u v)) ∧
  (∀ a p rd ra, FloatOp (.fclass a p rd ra) p rd ra 0 0 3
      fun f _ u _ _ => (f.cls u, 0)) ∧
  (∀ a p rd ra, FloatOp (.fcvtI a p rd ra) p rd ra 0 0 3
      fun f rm u _ _ => f.toInt rm 64 true u) ∧
  (∀ a p rd ra, FloatOp (.fcvtU a p rd ra) p rd ra 0 0 3
      fun f rm u _ _ => f.toInt rm 64 false u) ∧
  (∀ a p rd ra, FromInt (.fcvtF a p rd ra) p rd ra fun v => v.toInt) ∧
  (∀ a p rd ra, FromInt (.fcvtFu a p rd ra) p rd ra fun v => v.toNat) ∧
  (∀ a p rd ra, FloatOp (.fcvtP a p rd ra) p rd ra 0 0 3
      fun f rm u _ _ => f.convert (if f = Fmt.b64 then Fmt.b32 else Fmt.b64) rm u) ∧
  (∀ a p rd ra rb, FloatOp (.fsgnj a p rd ra rb) p rd ra rb 0 3
      fun f _ u v _ => f.withSign u (f.signBit v))

/-- R215-R217, R220, R221: the vector floating-point instructions. -/
def Obligations.VectorFloatOps : Prop :=
  (∀ a ty vd va vb, VecFloat (.vfadd a ty vd va vb) ty vd va vb 0 4
      fun f rm u v _ => f.add rm u v) ∧
  (∀ a ty vd va vb, VecFloat (.vfsub a ty vd va vb) ty vd va vb 0 4
      fun f rm u v _ => f.sub rm u v) ∧
  (∀ a ty vd va vb, VecFloat (.vfmul a ty vd va vb) ty vd va vb 0 4
      fun f rm u v _ => f.mul rm u v) ∧
  (∀ a ty vd va vb, VecFloat (.vfdiv a ty vd va vb) ty vd va vb 0 5
      fun f rm u v _ => f.div rm u v) ∧
  (∀ a ty vd va, VecFloat (.vfsqrt a ty vd va) ty vd va 0 0 5
      fun f rm u _ _ => f.sqrt rm u) ∧
  (∀ a ty vd va vb vc, VecFloat (.vfma a ty vd va vb vc) ty vd va vb vc 4
      fun f rm u v w => f.fused rm false false u v w) ∧
  (∀ a ty vd va vb vc, VecFloat (.vfms a ty vd va vb vc) ty vd va vb vc 4
      fun f rm u v w => f.fused rm false true u v w) ∧
  (∀ a ty vd va vb vc, VecFloat (.vfnma a ty vd va vb vc) ty vd va vb vc 4
      fun f rm u v w => f.fused rm true false u v w) ∧
  (∀ a ty vd va vb, VecFloat (.vfmin a ty vd va vb) ty vd va vb 0 4
      fun f _ u v _ => f.minmax false u v) ∧
  (∀ a ty vd va vb, VecFloat (.vfmax a ty vd va vb) ty vd va vb 0 4
      fun f _ u v _ => f.minmax true u v) ∧
  (∀ a ty vd va, VecFloat (.vfabs a ty vd va) ty vd va 0 0 4
      fun f _ u _ _ => f.withSign u false) ∧
  (∀ a ty vd va, VecFloat (.vfneg a ty vd va) ty vd va 0 0 4
      fun f _ u _ _ => f.withSign u !f.signBit u) ∧
  (∀ a ty vd va vb, VecFloat (.vfcmpeq a ty vd va vb) ty vd va vb 0 4
      fun f _ u v _ => maskRes f (f.cmp 0 u v)) ∧
  (∀ a ty vd va vb, VecFloat (.vfcmplt a ty vd va vb) ty vd va vb 0 4
      fun f _ u v _ => maskRes f (f.cmp 1 u v)) ∧
  (∀ a ty vd va vb, VecFloat (.vfcmple a ty vd va vb) ty vd va vb 0 4
      fun f _ u v _ => maskRes f (f.cmp 2 u v)) ∧
  (∀ a ty vd va vb, VecFloat (.vfcmpun a ty vd va vb) ty vd va vb 0 4
      fun f _ u v _ => maskRes f (f.cmp 3 u v)) ∧
  (∀ a ty vd va, VecFloat (.vfclass a ty vd va) ty vd va 0 0 4
      fun f _ u _ _ => (f.cls u, 0)) ∧
  (∀ a ty vd va, VecFloat (.vfcvtI a ty vd va) ty vd va 0 0 4
      fun f rm u _ _ => f.toInt rm f.width true u) ∧
  (∀ a ty vd va, VecFloat (.vfcvtU a ty vd va) ty vd va 0 0 4
      fun f rm u _ _ => f.toInt rm f.width false u) ∧
  (∀ a ty vd va, VecFloat (.vfcvtF a ty vd va) ty vd va 0 0 4
      fun f rm u _ _ => f.ofInt rm (sext f.width u)) ∧
  (∀ a ty vd va, VecFloat (.vfcvtFu a ty vd va) ty vd va 0 0 4
      fun f rm u _ _ => f.ofInt rm u) ∧
  (∀ a ty vd va vb, VecFloat (.vfsgnj a ty vd va vb) ty vd va vb 0 4
      fun f _ u v _ => f.withSign u (f.signBit v)) ∧
  (∀ a ty vd va, Floats (.vfcvtP a ty vd va) 4 (fun v => .v vd.toNat (BitVec.ofNat 512 v))
      fun _ v r =>
        let dst := if ty = 0 then Fmt.b64 else Fmt.b32
        laned dst.width r.fte
          (((lanes (laneW ty) (v va)).take 8).map fun u => (laneF ty).convert dst r.rm u)) ∧
  (∀ a ty vd va, Floats (.vfrsum a ty vd va) 4 (fun v => .v vd.toNat (BitVec.ofNat 512 v))
      fun _ v r =>
        let w := laneW ty
        laned w r.fte [treeSum (laneF ty) r.rm (if w = 32 then 4 else 3) (lanes w (v va)) 0]) ∧
  (∀ a ty vd va vb, Floats (.vcmul a ty vd va vb) 4 (fun v => .v vd.toNat (BitVec.ofNat 512 v))
      fun _ v r => laned (laneW ty) r.fte (products ty r.rm false (v va) (v vb))) ∧
  (∀ a ty vd va vb, Floats (.vcmulc a ty vd va vb) 4 (fun v => .v vd.toNat (BitVec.ofNat 512 v))
      fun _ v r => laned (laneW ty) r.fte (products ty r.rm true (v va) (v vb))) ∧
  (∀ a ty vd va vb, Floats (.vbfly4 a ty vd va vb) 4 (fun v => .v vd.toNat (BitVec.ofNat 512 v))
      fun _ v r => laned (laneW ty) r.fte (butterflies ty r.rm (v va) (v vb)))

/-- R218, R219: the vector integer and lane instructions. -/
def Obligations.VectorIntegerOps : Prop :=
  (∀ a ty vd va vb, VecInt (.vadd a ty vd va vb) ty vd va vb 0
      fun _ u v _ => u + v) ∧
  (∀ a ty vd va vb, VecInt (.vsub a ty vd va vb) ty vd va vb 0
      fun w u v _ => u + 2 ^ w - v) ∧
  (∀ a ty vd va vb, VecInt (.vand a ty vd va vb) ty vd va vb 0
      fun _ u v _ => u &&& v) ∧
  (∀ a ty vd va vb, VecInt (.vor a ty vd va vb) ty vd va vb 0
      fun _ u v _ => u ||| v) ∧
  (∀ a ty vd va vb, VecInt (.vxor a ty vd va vb) ty vd va vb 0
      fun _ u v _ => u ^^^ v) ∧
  (∀ a ty vd va vb, VecInt (.vandn a ty vd va vb) ty vd va vb 0
      fun w u v _ => u &&& (2 ^ w - 1 - v)) ∧
  (∀ a ty vd va vb, VecInt (.vsll a ty vd va vb) ty vd va vb 0
      fun w u v _ => u * 2 ^ (v % w)) ∧
  (∀ a ty vd va vb, VecInt (.vsrl a ty vd va vb) ty vd va vb 0
      fun w u v _ => u / 2 ^ (v % w)) ∧
  (∀ a ty vd va vb, VecInt (.vsra a ty vd va vb) ty vd va vb 0
      fun w u v _ => narrow w (sext w u / 2 ^ (v % w))) ∧
  (∀ a ty vd va vb, VecInt (.vcmpeq a ty vd va vb) ty vd va vb 0
      fun w u v _ => ones w (u == v)) ∧
  (∀ a ty vd va vb, VecInt (.vcmplt a ty vd va vb) ty vd va vb 0
      fun w u v _ => ones w (decide (sext w u < sext w v))) ∧
  (∀ a ty vd va vb, VecInt (.vcmpltu a ty vd va vb) ty vd va vb 0
      fun w u v _ => ones w (decide (u < v))) ∧
  (∀ a ty vd va vb, VecInt (.vmin a ty vd va vb) ty vd va vb 0
      fun w u v _ => if sext w u < sext w v then u else v) ∧
  (∀ a ty vd va vb, VecInt (.vmax a ty vd va vb) ty vd va vb 0
      fun w u v _ => if sext w u < sext w v then v else u) ∧
  (∀ a ty vd va, VecInt (.vmov a ty vd va) ty vd va 0 0
      fun _ u _ _ => u) ∧
  (∀ a ty vd va vb vc, VecInt (.vsel a ty vd va vb vc) ty vd va vb vc
      fun w u v y => if y.testBit (w - 1) then u else v) ∧
  (∀ a ty vd va vb, Starts (.vperm a ty vd va vb) 2 fun _ v _ =>
      let w := laneW ty
      [.v vd.toNat (vOf w ((lanes w (v vb)).map fun k => (lanes w (v va)).getD (k % (512 / w)) 0))]) ∧
  (∀ a ty vd g, Starts (.vbcast a ty vd g) 2 fun r _ _ =>
      [.v vd.toNat (vOf (laneW ty) (List.replicate (512 / laneW ty) (r g).toNat))]) ∧
  (∀ a ty va g lane, Starts (.vext a ty va g lane) 2 fun _ v _ =>
      [.g g.toNat (BitVec.ofNat 64 ((lanes (laneW ty) (v va)).getD lane.toNat 0))]) ∧
  (∀ a ty vd g lane, Starts (.vins a ty vd g lane) 2 fun r v _ =>
      [.v vd.toNat (vOf (laneW ty) ((lanes (laneW ty) (v vd)).set lane.toNat (r g).toNat))])

namespace Sys2Proof.Claims
open Sys2Proof.Machine

/-- Whenever the instruction issues it goes on, writes the results `f` makes of the state, and
changes nothing else. -/
def Writes (i : Instr) (f : State → At → Bool → List Dest) : Prop :=
  ∀ s a x w w2, words i = some (a, w, w2) → Issues s a x w w2 → Calm s a x (f s a x) →
    ∃ t, exec i s = .next t ∧ Wrote s t a x (f s a x)

/-- A compare-and-branch of R207: it goes on, and its target (R196) waits when `c` holds. -/
def Branches (i : Instr) (target : BitVec 14) (c : (BitVec 5 → BitVec 64) → Bool) : Prop :=
  ∀ s a x w w2, words i = some (a, w, w2) → Issues s a x w w2 → Calm s a x [] →
    ∃ t, exec i s = .next t ∧
      Jumped s t a x (if c (gs s a x) then some ((s.exAt a x).target target) else none) []

end Sys2Proof.Claims

/-- R164, R196, R207: branches and jumps. -/
def Obligations.BranchesAndJumps : Prop :=
  (∀ a ra rb target, Branches (.beq a ra rb target) target fun g => (g ra) == (g rb)) ∧
  (∀ a ra rb target, Branches (.bne a ra rb target) target fun g => (g ra) != (g rb)) ∧
  (∀ a ra rb target, Branches (.blt a ra rb target) target fun g => (g ra).slt (g rb)) ∧
  (∀ a ra rb target, Branches (.bge a ra rb target) target fun g => !(g ra).slt (g rb)) ∧
  (∀ a ra rb target, Branches (.bltu a ra rb target) target fun g => (g ra).ult (g rb)) ∧
  (∀ a ra rb target, Branches (.bgeu a ra rb target) target fun g => !(g ra).ult (g rb)) ∧
  (∀ a rd target s x w w2, words (.jal a rd target) = some (a, w, w2) → Issues s a x w w2 →
    Calm s a x [.g rd.toNat 0] →
    ∃ t, exec (.jal a rd target) s = .next t ∧
      Jumped s t a x (some ((s.exAt a x).target target)) [.g rd.toNat (s.exAt a x).link]) ∧
  (∀ a rd ra s x w w2, words (.jalr a rd ra) = some (a, w, w2) → Issues s a x w w2 →
    let v := (gs s a x ra).toNat
    (Calm s a x [.g rd.toNat 0] → isSeq a.eng = false ∨ v % 4 = 0 →
      ∃ t, exec (.jalr a rd ra) s = .next t ∧
        Jumped s t a x (some (if isSeq a.eng then v % 2 ^ 32 else v % 2 ^ 14))
          [.g rd.toNat (s.exAt a x).link]) ∧
    (Alone s a x → HasHandler s a x → isSeq a.eng = true → v % 4 ≠ 0 →
      ∃ t, exec (.jalr a rd ra) s = .next t ∧
        Trapped s t a x 0x06 (BitVec.ofNat 64 (v % 2 ^ 32))))

/-- R155, R166, R208: the loop instructions. -/
def Obligations.LoopOps : Prop :=
  (∀ i a le count s x w w2, words i = some (a, w, w2) → Issues s a x w w2 →
    (∃ rc, i = .loop a rc le ∧ count = (gs s a x rc).toNat % 2 ^ 32) ∨
      (∃ c : BitVec 12, i = .loopi a c le ∧ count = c.toNat) →
    let r := (s.bankAt a.eng x).regs
    let k := r.ldepth
    let l := (s.exAt a x).le le
    let base := (s.exAt a x).base
    let within := isSeq a.eng = true ∨ ((s.bank a.eng x).attr.bsLo ≤ l ∧ l ≤ (s.bank a.eng x).attr.bsHi)
    let ok := k ≠ 4 ∧ r.pc < l ∧ (k = 0 ∨ l < r.le.get 0 (k - 1))
    (r.inHandler = false → within → ok → count ≠ 0 →
      Calm s a x [.ls k (r.pc + unitOf a.eng), .le k l, .lc k count] →
      ∃ t, exec i s = .next t ∧ Left s t a x { base with
        ls := r.ls.set 0 k (r.pc + unitOf a.eng), le := r.le.set 0 k l, lc := r.lc.set 0 k count
        ldepth := k + 1, pc := r.pc + unitOf a.eng, resumeLvl := none }) ∧
    (r.inHandler = false → within → ok → count = 0 → Calm s a x [] →
      ∃ t, exec i s = .next t ∧ Left s t a x { base with
        pc := exitIndex (s.codeWord a.eng) (unitOf a.eng) l, resumeLvl := none }) ∧
    (Alone s a x → HasHandler s a x → ¬within → ∃ t, exec i s = .next t ∧
      Trapped s t a x 0x03 (BitVec.ofNat 64 l)) ∧
    (Alone s a x → HasHandler s a x → within → ¬ok → ∃ t, exec i s = .next t ∧
      Trapped s t a x 0x01 (BitVec.ofNat 64 w.toNat))) ∧
  (∀ a g n sel, Starts (.mtl a g n sel) 3 fun r _ _ =>
    let v := (r g).toNat
    match sel with
    | .ls => [.ls n.toNat (v % (if isSeq a.eng then 2 ^ 32 else 2 ^ 14))]
    | .le => [.le n.toNat (v % (if isSeq a.eng then 2 ^ 32 else 2 ^ 14))]
    | .lc => [.lc n.toNat (v % 2 ^ 32)]) ∧
  (∀ a g n sel, Writes (.mfl a g n sel) fun s a x =>
    let r := (s.bankAt a.eng x).regs
    [.g g.toNat (BitVec.ofNat 64 (match sel with
      | .ls => r.ls.get 0 n.toNat
      | .le => r.le.get 0 n.toNat
      | .lc => r.lc.get 0 n.toNat))])

/-- R226, R227: status, mode and the exception record. -/
def Obligations.StatusAndRecordOps : Prop :=
  (∀ a, Writes (.instrNop a) fun _ _ _ => []) ∧
  (∀ a rd, Writes (.rdstat a rd) fun s a x =>
    [.g rd.toNat (BitVec.ofNat 64 (bstat (s.bankAt a.eng x).regs
      (match (s.bankAt a.eng x).hdr with
        | some h => h.bell
        | none => false) x))]) ∧
  (∀ a rd w, Writes (.xmov a rd w) fun s a x =>
    let b := s.bank a.eng x
    [.g rd.toNat (match w.toNat with
      | 0 => b.x0
      | 1 => b.x1
      | 2 => b.x2
      | _ => b.x3)]) ∧
  (∀ a ra s x w w2, words (.xset a ra) = some (a, w, w2) → Issues s a x w w2 →
    ((s.bank a.eng x).regs.inHandler = true → Calm s a x [] →
      ∃ t, exec (.xset a ra) s = .next t ∧ Wrote s t a x [] ∧
        (t.bank a.eng x).x0 = ((s.bank a.eng x).x0 &&& ~~~(xsetMask (isSeq a.eng))) |||
          (gs s a x ra &&& xsetMask (isSeq a.eng))) ∧
    (Alone s a x → HasHandler s a x → ∃ t, exec (.xset a ra) s = .next t ∧
      Trapped s t a x 0x01 (BitVec.ofNat 64 w.toNat))) ∧
  (∀ a ra imm s x w w2, words (.mode a ra imm) = some (a, w, w2) → Issues s a x w w2 →
    let v : BitVec 16 := if ra = 0 then imm else (gs s a x ra).setWidth 16
    let bad := v.getLsbD 15 = true ∨ (v.getLsbD 14 = false ∧ 5 ≤ (v.extractLsb' 0 3).toNat)
    let base := (s.exAt a x).base
    let next := fun m : BitVec 9 =>
      { { base with fss := base.fss &&& ~~~(v.extractLsb' 9 5) }.finish (s.codeWord a.eng)
          (unitOf a.eng) (s.exAt a x).len with modeNext := some m }
    (¬bad → Calm s a x [] → v.getLsbD 14 = true ∨ (s.bankAt a.eng x).regs.modeNext = none →
      ∃ t, exec (.mode a ra imm) s = .next t ∧
        Left s t a x (next (if v.getLsbD 14 then base.mode else v.extractLsb' 0 9))) ∧
    (¬bad → Calm s a x [] → v.getLsbD 14 = false → (s.bankAt a.eng x).regs.modeNext ≠ none →
      ∃ t m, exec (.mode a ra imm) s = .next t ∧ m.toNat % 8 < 5 ∧
        Left { s with fresh := s.fresh + 1 } t a x (next m)) ∧
    (bad → Alone s a x → HasHandler s a x → ∃ t, exec (.mode a ra imm) s = .next t ∧
      Trapped s t a x 0x01 (BitVec.ofNat 64 w.toNat)))

/-- R179, R181, R183, R139: ends of handlers and firings. -/
def Obligations.HandlerAndFiringOps : Prop :=
  (∀ a s x w w2, words (.resume a) = some (a, w, w2) → Issues s a x w w2 →
    let r := (s.bankAt a.eng x).resumed (isSeq a.eng) (s.exAt a x).base
    let v := (s.bank a.eng x).x0.toNat
    ((s.bank a.eng x).regs.inHandler = true → Calm s a x (if bit v 23 then [.lc (field v 26 25) 0] else []) →
      ∃ t, exec (.resume a) s = .next t ∧
        (t.bank a.eng x).regs = { r with lc := (t.bank a.eng x).regs.lc } ∧
        (∀ k, (t.bank a.eng x).regs.lc.get 0 k = r.lc.get 0 k) ∧
        ((s.bankAt a.eng x).ops = [] → (t.bank a.eng x).ops = [] ∧
          ∀ c : Fin 128, a.eng = .cell c → (t.cell c.val).cnt.get 0 EngCtr.excResumed.ctorIdx =
            ((s.cell c.val).cnt.get 0 EngCtr.excResumed.ctorIdx + 1) % 2 ^ 32) ∧
        ((s.bankAt a.eng x).ops ≠ [] →
          (t.bank a.eng x).ops = (s.bankAt a.eng x).ops ++ [s.opAt a x .resumed none]) ∧
        Near s t a.eng x) ∧
    (Alone s a x → HasHandler s a x → ∃ t, exec (.resume a) s = .next t ∧
      Trapped s t a x 0x01 (BitVec.ofNat 64 w.toNat))) ∧
  (∀ a n s x w w2, words (.brk a n) = some (a, w, w2) → Issues s a x w w2 → Alone s a x →
    (∀ c : Fin 128, a.eng = .cell c → s.debugOn c.val = true → s.trace.en = false →
      (s.bank a.eng x).regs.inHandler = false →
      ∃ t, exec (.brk a n) s = .next t ∧ (t.cell c.val).dbg.stopped = true ∧
        (t.bank a.eng x).x2 = n.setWidth 64 ∧
        (t.bank a.eng x).regs.pc = (s.bank a.eng x).regs.pc ∧
        (t.bank a.eng x).ops = [] ∧ Near s t a.eng x) ∧
    (HasHandler s a x → (∀ c : Fin 128, a.eng = .cell c → s.debugOn c.val = false) →
      ∃ t, exec (.brk a n) s = .next t ∧ Trapped s t a x 0x01 (BitVec.ofNat 64 w.toNat))) ∧
  (∀ a s x w w2, words (.dropr a) = some (a, w, w2) → Issues s a x w w2 → Calm s a x [] →
    let b := s.bankAt a.eng x
    (b.unlanded = 0 → ∃ t, exec (.dropr a) s = .next t ∧ Wrote s t a x []) ∧
    (b.unlanded ≠ 0 → ∃ t, exec (.dropr a) s = .next t ∧ (t.bank a.eng x).unlanded = 0 ∧
      (t.bank a.eng x).badWords = 0 ∧
      (t.bank a.eng x).regs = ({ b with regs := (s.exAt a x).base } : Bank).dropRest.regs.finish
        (s.codeWord a.eng) (unitOf a.eng) (s.exAt a x).len ∧
      (b.ops = [] → (t.bank a.eng x).ops = [] ∧ ∀ c : Fin 128, a.eng = .cell c →
        (t.cell c.val).que.cnt = (s.landedQue c x).cnt.bump QueCtr.droprWords.ctorIdx b.unlanded) ∧
      (b.ops ≠ [] → OnlyBank s t a.eng x ∧
        (t.bank a.eng x).ops = b.ops ++ [s.opAt a x (.dropped b.unlanded b.badWords) none]) ∧
      Near s t a.eng x)) ∧
  (∀ a s x w w2, words (.endFiring a) = some (a, w, w2) → Issues s a x w w2 → Calm s a x [] →
    ((s.bankAt a.eng x).ops ≠ [] →
      ∃ t, exec (.endFiring a) s = .next t ∧ Started s t a x .endFiring none) ∧
    (∀ (c : Fin 128) h, a.eng = .cell c → (s.bank a.eng x).ops = [] → (s.bank a.eng x).hdr = some h →
      s.offersLeft c.val x h.cls = false →
      ∃ t, exec (.endFiring a) s = .next t ∧ (t.bank a.eng x).hdr = none ∧
        (t.bank a.eng x).ops = []))

/-- R180-R182, R231: what every instruction gives way to. -/
def Obligations.ExceptionsBeforeIssue : Prop :=
  ∀ i s a x w w2, words i = some (a, w, w2) → s.running a.eng = some x →
    (s.bank a.eng x).gated = false → Alone s a x → HasHandler s a x →
    let w' := s.codeWord a.eng (s.bank a.eng x).regs.pc
    let found := (s.fetchState a.eng x).beforeIssue a.eng x a (s.bankAt a.eng x) w'
      (s.codeWord a.eng ((s.bank a.eng x).regs.pc + unitOf a.eng))
    (∀ code info, found = some (code, info) → code = 0x01 ∨ code = 0x03 →
      ∃ t, exec i s = .next t ∧ Trapped s t a x code info) ∧
    (found = none → w' = w → w2 = none → ((s.bank a.eng x).regs.slot.isSome && noSlot w) = true →
      ∃ t, exec i s = .next t ∧ Trapped s t a x 0x01 (BitVec.ofNat 64 w.toNat))

/-- R161: the distance gate holds back every instruction. -/
def Obligations.DistanceGate : Prop :=
  ∀ i s a w w2, words i = some (a, w, w2) →
    (s.running a.eng = none → exec i s = .next s) ∧
    (∀ x, s.running a.eng = some x → (s.bank a.eng x).gated = true → exec i s = .next s) ∧
    (∀ x, s.running a.eng = some x → (s.bank a.eng x).gated = false →
      s.codeWord a.eng (s.bank a.eng x).regs.pc ≠ w →
      (s.fetchState a.eng x).beforeIssue a.eng x a (s.bankAt a.eng x)
        (s.codeWord a.eng (s.bank a.eng x).regs.pc)
        (s.codeWord a.eng ((s.bank a.eng x).regs.pc + unitOf a.eng)) = none →
      exec i s = .next s)

namespace Sys2Proof.Claims
open Sys2Proof.Machine

/-- The bytes that an access may name: the graph's scratch window, or 32-bit addresses in the
Steward (R170, R209). -/
def window (s : State) (a : At) (x : Bool) : Nat :=
  if isSeq a.eng then 2 ^ 32 else (s.bank a.eng x).attr.scratchLen

/-- Where a relative address lies in the engine's memory (R170). -/
def place (s : State) (a : At) (x : Bool) (p : Nat) : Nat :=
  if isSeq a.eng then p else (s.bank a.eng x).attr.scratchBase + p

/-- The byte at a relative address as the bank loads it: that of the youngest store of the bank
which waits and covers it, else that of memory (R170, R191, R209). -/
def seen (s : State) (a : At) (x : Bool) (p : Nat) : Byte :=
  let z := place s a x p
  (s.bank a.eng x).ops.foldl (fun b o => match o.kind with
    | .scratchStore q l => if q ≤ z ∧ z < q + l.length then l.getD (z - q) 0 else b
    | _ => b)
    (match a.eng with
      | .cell n => (s.cell n.val).scratch.get 0 z
      | .steward => s.steward.byte z)

/-- What a read at `p` makes of the rest of the machine (R173, R192, R417): its counter, and for an
uncorrectable error the CELLMEM fault; the Steward's line comes into its data cache (R189). -/
def afterRead (s : State) (a : At) (p : Nat) : State :=
  match a.eng, a.mem with
  | .steward, _ =>
    let l := s.steward.line (p / 64)
    { s with steward := s.steward.putLine (p / 64) l.1 l.2 }
  | .cell _, .none => s
  | .cell n, .corrected => s.engBump n.val .scratchCe
  | .cell n, .data => (s.engBump n.val .scratchUe).detect (64 + n.val / 2) 0x15 n.val

/-- A read with an uncorrectable error sets POISONED (R173). -/
def poison (a : At) : List Dest :=
  match a.eng, a.mem with
  | .cell _, .data => [.poisoned]
  | _, _ => []

/-- The Steward's data cache has room for what the instruction brings in (R189). -/
def Fits (s : State) (a : At) : Prop := isSeq a.eng = true → s.steward.Room

/-- A load of `n` bytes: aligned and inside the window, it leaves its result in flight at distance
`d`; else it takes ALIGN or SCRATCH_RANGE with its address (R170, R209, R231). -/
def LoadsAt (i : Instr) (ra : BitVec 5) (off : BitVec 12) (n d : Nat) (dest : List Byte → Dest) : Prop :=
  ∀ s a x w w2, words i = some (a, w, w2) → Issues s a x w w2 →
    let p := (gs s a x ra + off.signExtend 64 * BitVec.ofNat 64 n).toNat
    let r := dest ((List.range n).map fun j => seen s a x (p + j))
    (p % n = 0 → p + n ≤ window s a x → Calm s a x [r] → Fits s a → ∃ t, exec i s = .next t ∧
      Started (afterRead s a p) t a x (.result (r :: poison a)) (some d)) ∧
    (p % n ≠ 0 → Alone s a x → HasHandler s a x → ∃ t, exec i s = .next t ∧
      Trapped s t a x 0x06 (BitVec.ofNat 64 p)) ∧
    (p % n = 0 → window s a x < p + n → Alone s a x → HasHandler s a x → ∃ t, exec i s = .next t ∧
      Trapped s t a x 0x05 (BitVec.ofNat 64 p))

/-- A store of the low `n` bytes of `val` (R170, R172, R209). -/
def StoresAt (i : Instr) (ra : BitVec 5) (off : BitVec 12) (n : Nat) (val : State → At → Bool → Nat) : Prop :=
  ∀ s a x w w2, words i = some (a, w, w2) → Issues s a x w w2 →
    let p := (gs s a x ra + off.signExtend 64 * BitVec.ofNat 64 n).toNat
    (p % n = 0 → p + n ≤ window s a x → Calm s a x [] → ∃ t, exec i s = .next t ∧
      Ran s t a x [] (some (place s a x p, leBytes n (val s a x))) true) ∧
    (p % n ≠ 0 → Alone s a x → HasHandler s a x → ∃ t, exec i s = .next t ∧
      Trapped s t a x 0x06 (BitVec.ofNat 64 p)) ∧
    (p % n = 0 → window s a x < p + n → Alone s a x → HasHandler s a x → ∃ t, exec i s = .next t ∧
      Trapped s t a x 0x05 (BitVec.ofNat 64 p))

end Sys2Proof.Claims

/-- R170, R173, R209: loads. -/
def Obligations.Loads : Prop :=
  (∀ a sz sgn rt ra off, LoadsAt (.ld a sz sgn rt ra off) ra off (2 ^ sz.toNat) 2 fun l =>
    .g rt.toNat (if sgn then BitVec.ofInt 64 (sext (8 * l.length) (ofLE l)) else BitVec.ofNat 64 (ofLE l))) ∧
  (∀ a vt ra off, LoadsAt (.ldv a vt ra off) ra off 64 3 fun l => .v vt.toNat (BitVec.ofNat 512 (ofLE l)))

/-- R170, R172, R209: stores. -/
def Obligations.Stores : Prop :=
  (∀ a sz rt ra off, StoresAt (.st a sz rt ra off) ra off (2 ^ sz.toNat) fun s a x => (gs s a x rt).toNat) ∧
  (∀ a vt ra off, StoresAt (.stv a vt ra off) ra off 64 fun s a x => (vs s a x vt).toNat)

namespace Sys2Proof.Claims
open Sys2Proof.Machine

/-- The request of a region access: a cell's under the graph of its firing, the Steward's as SYSTEM
under its own code (R171, R269). -/
def request (s : State) (a : At) (x : Bool) (h n : Nat) (write : Bool) (off : Nat) (data : List Byte) : Req :=
  let (src, graph, dry) := match a.eng, (s.bank a.eng x).hdr with
    | .cell c, some p => (c.val, s.graphOf c.val p.ctx p.gen, (s.ctxOf p.ctx).shadow && write)
    | _, _ => (0x90, 0x3FF, false)
  { src := src, xid := 0, handle := h, graph := graph, bytes := n, write := write, offset := off
    data := data, upois := false, dry := dry, t0 := 0, express := x, opId := (s.bank a.eng x).n
    peer := none, served := false, lost := false }

/-- The request sets out; that of a class 0 firing is offered at the cell's port of its pair
(R435). -/
def asked (s : State) (a : At) (x : Bool) (q : Req) : State :=
  match a.eng, (s.bank a.eng x).hdr with
  | .cell c, some p =>
    if p.cls = 0 then
      let o : Offered := { xfer := .req q.handle q.graph q.bytes q.write q.offset q.data false
                           t := s.time.now, express := x, opId := q.opId }
      s.modPair (c.val / 2) fun y =>
        if c.val % 2 = 0 then { y with even := y.even ++ [o] } else { y with odd := y.odd ++ [o] }
    else s.sendReq q
  | _, _ => s.sendReq q

/-- The bank once its access no longer waits for room: a wait is counted (R269, R275). -/
def waited (s : State) (a : At) (x : Bool) : State := s.reqGoes a.eng x

/-- The engine runs a firing with room for one more request (R269); its pair is whole and compares,
for class 0 (R435, R436, R442); a context that writes has no partner whose sums would change
(R439). -/
def MayAsk (s : State) (a : At) (x write : Bool) : Prop :=
  ∀ c : Fin 128, a.eng = .cell c → s.outstanding c.val < 16 ∧
    ∃ p, (s.bank a.eng x).hdr = some p ∧
      (p.cls = 0 → s.pairHalf (c.val / 2) = false ∧ (s.pairPort (c.val / 2)).pass = false) ∧
      (write = true → p.cls ≠ 0 → (s.ctxOf p.ctx).partner = none)

end Sys2Proof.Claims

/-- R171, R210: region accesses. -/
def Obligations.RegionOps : Prop :=
  (∀ a sz sgn rt rh ro s x w w2, words (.ldr a sz sgn rt rh ro) = some (a, w, w2) → Issues s a x w w2 →
    let n := if sz = 4#3 then 64 else 2 ^ sz.toNat
    let h := (gs s a x rh).toNat % 2 ^ 16
    let off := (gs s a x ro).toNat
    let d : Dest := if sz == 4#3 then .v rt.toNat 0 else .g rt.toNat 0
    (off % n = 0 → MayAsk s a x false → Calm s a x [d] →
      ∃ t, exec (.ldr a sz sgn rt rh ro) s = .next t ∧
        Started (asked (waited s a x) a x (request s a x h n false off [])) t a x
          (.regionLoad rt.toNat (sz == 4#3) n sgn (BitVec.ofNat 64 (h + off * 2 ^ 16))) (some 6)) ∧
    (off % n = 0 → (∃ c : Fin 128, a.eng = .cell c ∧ 16 ≤ s.outstanding c.val) →
      exec (.ldr a sz sgn rt rh ro) s = .next ((s.fetchState a.eng x).reqHolds a.eng x)) ∧
    (off % n ≠ 0 → Alone s a x → HasHandler s a x → ∃ t, exec (.ldr a sz sgn rt rh ro) s = .next t ∧
      Trapped s t a x 0x06 (gs s a x ro))) ∧
  (∀ a sz rt rh ro s x w w2, words (.str a sz rt rh ro) = some (a, w, w2) → Issues s a x w w2 →
    let n := if sz = 4#3 then 64 else 2 ^ sz.toNat
    let h := (gs s a x rh).toNat % 2 ^ 16
    let off := (gs s a x ro).toNat
    let v := if sz == 4#3 then ((s.bankAt a.eng x).regs.vr rt.toNat).toNat else (gs s a x rt).toNat
    let info := BitVec.ofNat 64 (h + off * 2 ^ 16)
    (off % n = 0 → (s.bankAt a.eng x).ops = [] → MayAsk s a x true → Calm s a x [] →
      ∃ t, exec (.str a sz rt rh ro) s = .next t ∧
        Started (asked (waited s a x) a x (request s a x h n true off (leBytes n v))) t a x (.regionStored info) none) ∧
    (off % n = 0 → ((s.bankAt a.eng x).ops ≠ [] ∨ ∃ c : Fin 128, a.eng = .cell c ∧ 16 ≤ s.outstanding c.val) →
      Calm s a x [] → ∃ t, exec (.str a sz rt rh ro) s = .next t ∧
        Started s t a x (.regionStore h off (leBytes n v) info) none) ∧
    (off % n ≠ 0 → Alone s a x → HasHandler s a x → ∃ t, exec (.str a sz rt rh ro) s = .next t ∧
      Trapped s t a x 0x06 (gs s a x ro)))

namespace Sys2Proof.Claims
open Sys2Proof.Machine

/-- The remaining bytes of a block-repeat, and the bytes of its next step (R211). -/
def left (s : State) (a : At) (x : Bool) (rb : BitVec 5) : Nat := (gs s a x rb).toNat % 2 ^ 63
def chunk (s : State) (a : At) (x : Bool) (rb : BitVec 5) : Nat := min 64 (left s a x rb)

/-- The register of the remaining bytes after a step, with MATCH in bit 63 (R211). -/
def countReg (rb : BitVec 5) (found : Bool) (k : Nat) : Dest :=
  .g rb.toNat (BitVec.ofNat 64 ((if found then 2 ^ 63 else 0) + k))

/-- The bytes at a relative address as the bank loads them. -/
def read (s : State) (a : At) (x : Bool) (p n : Nat) : List Byte :=
  (List.range n).map fun j => seen s a x (p + j)

/-- A block-repeat with no bytes left issues and changes no register (R211). -/
def Empty (i : Instr) (rb : BitVec 5) : Prop :=
  ∀ s a x w w2, words i = some (a, w, w2) → Issues s a x w w2 → left s a x rb = 0 → Calm s a x [] →
    ∃ t, exec i s = .next t ∧ Ran s t a x [] none true

/-- A step one of whose ranges leaves the window takes SCRATCH_RANGE with that range's address, the
first in order (R212). -/
def Outside (i : Instr) (s : State) (a : At) (x : Bool) (rb : BitVec 5) (ranges : List (BitVec 5)) : Prop :=
  ∀ r, (ranges.find? fun r => decide (window s a x < (gs s a x r).toNat + chunk s a x rb)) = some r →
    Alone s a x → HasHandler s a x → ∃ t, exec i s = .next t ∧ Trapped s t a x 0x05 (gs s a x r)

/-- A step of a scan or compare that reads at `p`, with its first match in byte `hit`: the address
registers advance to it, MATCH is set, and unless CT asks for constant time the repeat ends with no
bytes left (R213). -/
def Scans (i : Instr) (s : State) (a : At) (x : Bool) (rb : BitVec 5) (addrs : List (BitVec 5)) (p : Nat)
    (hit : Option Nat) : Prop :=
  let k := left s a x rb
  let n := chunk s a x rb
  let stop := hit.isSome && !(s.bankAt a.eng x).regs.ct
  Calm s a x ((addrs ++ [rb]).map fun r => .g r.toNat 0) → ∃ t, exec i s = .next t ∧ Ran (afterRead s a p) t a x
    (addrs.map (fun r => Dest.g r.toNat (gs s a x r + BitVec.ofNat 64 (hit.getD n))) ++
      [countReg rb hit.isSome (if stop then 0 else k - n)] ++ poison a)
    none (stop || k == n)

/-- A scan or compare whose match has been found: it ends, or under CT counts on without reading
(R214). -/
def GoesOn (i : Instr) (s : State) (a : At) (x : Bool) (rb : BitVec 5) : Prop :=
  let k := left s a x rb
  let n := chunk s a x rb
  let ct := (s.bankAt a.eng x).regs.ct
  Calm s a x [.g rb.toNat 0] → ∃ t, exec i s = .next t ∧ Ran s t a x [countReg rb true (if ct then k - n else 0)] none (!ct || k == n)

end Sys2Proof.Claims

/-- R211-R214: the block-repeats. -/
def Obligations.BlockRepeats : Prop :=
  (∀ a rd ra rb, Empty (.bmov a rd ra rb) rb) ∧ (∀ a rd ra rb, Empty (.bfill a rd ra rb) rb) ∧
  (∀ a w ne rd ra rb, Empty (.bscan a w ne rd ra rb) rb) ∧ (∀ a rd ra rb, Empty (.bcmp a rd ra rb) rb) ∧
  (∀ a rd ra rb s x w w2, words (.bmov a rd ra rb) = some (a, w, w2) → Issues s a x w w2 →
    let k := left s a x rb
    let n := chunk s a x rb
    let p := (gs s a x ra).toNat
    let q := (gs s a x rd).toNat
    k ≠ 0 → Outside (.bmov a rd ra rb) s a x rb [ra, rd] ∧
    (p + n ≤ window s a x → q + n ≤ window s a x →
      Calm s a x [.g rd.toNat 0, .g ra.toNat 0, .g rb.toNat 0] → Fits s a →
    ∃ t, exec (.bmov a rd ra rb) s = .next t ∧ Ran (afterRead s a p) t a x
      ([.g rd.toNat (gs s a x rd + BitVec.ofNat 64 n), .g ra.toNat (gs s a x ra + BitVec.ofNat 64 n),
        countReg rb ((gs s a x rb).getLsbD 63) (k - n)] ++ poison a)
      (some (place s a x q, read s a x p n)) (k == n))) ∧
  (∀ a rd ra rb s x w w2, words (.bfill a rd ra rb) = some (a, w, w2) → Issues s a x w w2 →
    let k := left s a x rb
    let n := chunk s a x rb
    let q := (gs s a x rd).toNat
    k ≠ 0 → Outside (.bfill a rd ra rb) s a x rb [rd] ∧
    (q + n ≤ window s a x → Calm s a x [.g rd.toNat 0, .g rb.toNat 0] →
    ∃ t, exec (.bfill a rd ra rb) s = .next t ∧ Ran s t a x
      [.g rd.toNat (gs s a x rd + BitVec.ofNat 64 n), countReg rb ((gs s a x rb).getLsbD 63) (k - n)]
      (some (place s a x q, (List.range n).map fun j =>
        ((gs s a x ra) >>> (8 * ((q + j) % 8))).setWidth 8)) (k == n))) ∧
  (∀ a w' ne rd ra rb s x w w2, words (.bscan a w' ne rd ra rb) = some (a, w, w2) → Issues s a x w w2 →
    let k := left s a x rb
    let n := chunk s a x rb
    let e := 2 ^ w'.toNat
    let p := (gs s a x rd).toNat
    let hit := (List.range (n / e)).find? fun j =>
      (leAt (read s a x p n) (j * e) e == (gs s a x ra).toNat % 2 ^ (8 * e)) != ne
    (k ≠ 0 → p % e ≠ 0 ∨ k % e ≠ 0 → Alone s a x → HasHandler s a x →
      ∃ t, exec (.bscan a w' ne rd ra rb) s = .next t ∧ Trapped s t a x 0x06 (gs s a x rd)) ∧
    (k ≠ 0 → p % e = 0 → k % e = 0 →
      ((gs s a x rb).getLsbD 63 = true → GoesOn (.bscan a w' ne rd ra rb) s a x rb) ∧
      ((gs s a x rb).getLsbD 63 = false → Outside (.bscan a w' ne rd ra rb) s a x rb [rd]) ∧
      ((gs s a x rb).getLsbD 63 = false → p + n ≤ window s a x → Fits s a →
        Scans (.bscan a w' ne rd ra rb) s a x rb [rd] p (hit.map (· * e))))) ∧
  (∀ a rd ra rb s x w w2, words (.bcmp a rd ra rb) = some (a, w, w2) → Issues s a x w w2 →
    let k := left s a x rb
    let n := chunk s a x rb
    let p := (gs s a x rd).toNat
    let q := (gs s a x ra).toNat
    let hit := (List.range n).find? fun j => seen s a x (p + j) != seen s a x (q + j)
    k ≠ 0 →
      ((gs s a x rb).getLsbD 63 = true → GoesOn (.bcmp a rd ra rb) s a x rb) ∧
      ((gs s a x rb).getLsbD 63 = false → Outside (.bcmp a rd ra rb) s a x rb [rd, ra]) ∧
      ((gs s a x rb).getLsbD 63 = false → p + n ≤ window s a x → q + n ≤ window s a x → Fits s a →
        Scans (.bcmp a rd ra rb) s a x rb [rd, ra] p hit))

namespace Sys2Proof.Claims
open Sys2Proof.Machine

/-- Where a cell keeps the credit of a firing of packet `h` for context `k`: that of class 0 firings, which
is their pair's, lies apart (R80). -/
def poolFor (h : Packet) (k : Nat) : Nat := if h.cls = 0 then k + 2 ^ 17 else k

/-- The generation that a SEND of a firing of packet `h` to context `k` uses, and the cell's credit
for it (R174, R176): its own, or the one that the cell holds. -/
def genFor (s : State) (c : Fin 128) (h : Packet) (k : Nat) : Option Nat :=
  if k = h.ctx then some h.gen else (s.cell c.val).credGen.get none (poolFor h k)
def creditFor (s : State) (c : Fin 128) (h : Packet) (k : Nat) : Nat :=
  match genFor s c h k with
  | some g => (s.cell c.val).credit.get 0 (16 * poolFor h k + g)
  | none => 0

/-- The token of a SEND (R175). -/
def tokenOf (s : State) (a : At) (x : Bool) (h : Packet) (f : SendForm) (node k gen iter : Nat)
    (flags : BitVec 5) : Token :=
  let r := (s.bankAt a.eng x).regs
  let i5 := (r.gr 5).toNat % 256
  let n := match f.len.toNat with | 0 => 1 | 1 => 2 | 2 => 4 | 3 => 8 | 4 => 16 | _ => 0
  let v := if f.len.toNat ≤ 1 then (r.gr f.src.toNat).toNat else (r.vr (f.src.toNat % 16)).toNat
  { tag :=
      { dest := f.dest, esel := BitVec.ofNat 14 node ++ f.port, ctx := BitVec.ofNat 17 k
        gen := BitVec.ofNat 4 gen
        iter := BitVec.ofNat 8 (match f.itsel.toNat with
          | 0 => i5
          | 1 => (i5 + 1) % 256
          | 2 => 0
          | _ => iter % 256)
        cls := BitVec.ofNat 2 h.cls, epar := h.epar, len := f.len, flags := flags }
    payload := (List.range n).map fun j => BitVec.ofNat 32 (v / 2 ^ (32 * j)) }

/-- One credit reserved at issue; with 16 or fewer left the producer, which for class 0 is the even
cell, asks for a block (R80, R176). -/
def reserved (s : State) (c : Fin 128) (h : Packet) (k : Nat) : State :=
  let n := creditFor s c h k - 1
  let t := s.modCell c.val fun y =>
    { y with credit := y.credit.set 0 (16 * poolFor h k + (genFor s c h k).getD 0) n }
  if n ≤ 16 then
    t.askCredit (if h.cls = 0 then 2 * (c.val / 2) else c.val) k (if k = h.ctx then some h.gen else none)
      (h.cls == 0)
  else t

/-- SEND and SENDI with node `node`, context `ctx`, iteration `iter` and late error `late`
(R174-R176, R222-R224). -/
def SendsBy (i : Instr) (f : SendForm) (node ctx iter : State → At → Bool → Nat)
    (late : State → At → Bool → Bool) : Prop :=
  ∀ s a x w w2 (c : Fin 128) h, words i = some (a, w, w2) → Issues s a x w w2 → a.eng = .cell c →
    (s.bank a.eng x).hdr = some h →
    let k := ctx s a x
    let b := s.bankAt a.eng x
    let d := f.dest.toNat
    let tok := tokenOf s a x h f (node s a x) k ((genFor s c h k).getD 0) (iter s a x)
    let bad := 0x97 ≤ d ∨ (f.port = 3#2 ∧ d < 0x80) ∨ 5 ≤ f.len.toNat ∨ (h.cls = 0 ∧ d < 0x80 ∧ d % 2 = 1)
    let flags := mkFlags false h.bell false f.mono
    let out := tok (if b.regs.poisoned then flags ||| 16#5 else flags)
    (bad → Alone s a x → HasHandler s a x → ∃ t, exec i s = .next t ∧
      Trapped s t a x 0x02 out.tag.pack) ∧
    (¬bad → creditFor s c h k < 2 → ∃ t, exec i s = .next t ∧ (t.bank a.eng x).regs = b.regs ∧
      (t.bank a.eng x).ops = b.ops ∧ (t.bank a.eng x).n = b.n ∧
      (t.cell c.val).credit = (s.cell c.val).credit) ∧
    (¬bad → 2 ≤ creditFor s c h k → Calm s a x [] → b.ops ≠ [] → ∃ t, exec i s = .next t ∧
      Started (reserved s c h k) t a x (.send (tok flags) (late s a x)) none) ∧
    (¬bad → 2 ≤ creditFor s c h k → Calm s a x [] → b.ops = [] → late s a x = false →
      s.fabric.iso.contains c.val = false → (s.ctxOf h.ctx).partner = none →
      ((s.ctxOf h.ctx).shadow = false ∨ d < 0x80) →
      (h.cls = 0 → s.pairHalf (c.val / 2) = false ∧ (s.pairPort (c.val / 2)).pass = false) →
      let u := reserved s c h k
      let v := u.slotSync
      ∃ t, exec i s = .next t ∧
        (t.bank a.eng x).regs = (s.exAt a x).base.finish (s.codeWord a.eng) (unitOf a.eng) (s.exAt a x).len ∧
        (t.bank a.eng x).n = b.n + 1 ∧ (t.bank a.eng x).ops = [] ∧
        (t.cell c.val).cnt = ((s.cell c.val).cnt.bump EngCtr.instrIssued.ctorIdx).bump EngCtr.sendCommit.ctorIdx ∧
        Near (if h.cls = 0 then
            let o : Offered := { xfer := .token out, t := s.time.now, express := x, opId := b.n }
            u.modPair (c.val / 2) fun y =>
              if c.val % 2 = 0 then { y with even := y.even ++ [o] } else { y with odd := y.odd ++ [o] }
          else if !out.isG then u.inject c.val out
          else if v.gRoom c.val out && !(v.fabric.gHold.any fun e => e.1.src == c.val) then
            v.injectG c.val out false
          else (v.modFabric fun f => { f with
            gHold := f.gHold ++ [(({ src := c.val, tok := out } : Flit), s.time.now)] }).fabStat c.val .gAllowHold 1)
          t a.eng x)

end Sys2Proof.Claims

/-- R174-R176, R222-R224: sending. -/
def Obligations.Sends : Prop :=
  (∀ a dest port len mono itsel src nr, SendsBy (.send a dest port len mono itsel src nr)
    { dest := dest, port := port, len := len, mono := mono, itsel := itsel, src := src }
    (fun s a x => (gs s a x nr).toNat % 2 ^ 14) (fun s a x => (gs s a x 4).toNat % 2 ^ 17)
    (fun s a x => (gs s a x nr).toNat / 2 ^ 14) (fun s a x => decide (2 ^ 22 ≤ (gs s a x nr).toNat))) ∧
  (∀ a dest port len mono itsel src cr node ir, SendsBy (.sendi a dest port len mono itsel src cr node ir)
    { dest := dest, port := port, len := len, mono := mono, itsel := itsel, src := src }
    (fun _ _ _ => node.toNat)
    (fun s a x => (gs s a x (if cr = 0 then 4 else cr)).toNat % 2 ^ 17)
    (fun s a x => (gs s a x ir).toNat) (fun _ _ _ => false))

/-- R178, R225: the context instructions. -/
def Obligations.ContextOps : Prop :=
  (∀ a rd graph s x w w2 (n : Fin 128) h, words (.ctxreq a rd graph) = some (a, w, w2) →
    Issues s a x w w2 → a.eng = .cell n → (s.bank a.eng x).hdr = some h →
    let i := Instr.ctxreq a rd graph
    let b := s.bankAt a.eng x
    let g := graph.toNat
    let fresh := ∀ c, b.ctxReq ≠ some (g, c)
    (∀ c, b.ctxReq = some (g, some c) → Calm s a x [.g rd.toNat 0] →
      ∃ t, exec i s = .next t ∧ Wrote s t a x [.g rd.toNat (BitVec.ofNat 64 c)] ∧
        (t.bank a.eng x).ctxReq = none) ∧
    (b.ctxReq = some (g, none) → exec i s = .next (s.fetchState a.eng x)) ∧
    (fresh → h.cls ≤ 1 ∨ (∃ y, s.graph g = some y ∧ y.cls.toNat ≤ 1) → Alone s a x →
      HasHandler s a x →
      ∃ t, exec i s = .next t ∧ Trapped s t a x 0x01 (BitVec.ofNat 64 w.toNat)) ∧
    (fresh → 2 ≤ h.cls → Alone s a x → HasHandler s a x →
      s.graph g = none ∨ (∃ y, s.graph g = some y ∧ 2 ≤ y.cls.toNat ∧ s.cellar.quarantined.contains g = true) →
      ∃ t, exec i s = .next t ∧ Trapped s t a x 0x09 (BitVec.ofNat 64 g)) ∧
    (∀ y, fresh → 2 ≤ h.cls → s.graph g = some y → 2 ≤ y.cls.toNat →
      s.cellar.quarantined.contains g = false → (s.reeve.queue.get [] y.cls.toNat).length < 256 →
      ∃ t, exec i s = .next t ∧ (t.bank a.eng x).ctxReq = some (g, none) ∧
        t.reeve.queue.get [] y.cls.toNat = s.reeve.queue.get [] y.cls.toNat ++
          [{ graph := g, asker := some (n.val, x), ring := 0, t0 := s.time.now, counted := false }] ∧
        (∀ k, k ≠ y.cls.toNat → t.reeve.queue.get [] k = s.reeve.queue.get [] k) ∧
        (t.bank a.eng x).regs = b.regs ∧ (t.bank a.eng x).ops = b.ops ∧ (t.bank a.eng x).n = b.n)) ∧
  (∀ a ra s x w w2 (n : Fin 128), words (.ctxrel a ra) = some (a, w, w2) → Issues s a x w w2 →
    a.eng = .cell n →
    let i := Instr.ctxrel a ra
    let c := (gs s a x ra).toNat % 2 ^ 17
    let k := s.ctxOf c
    let r := (s.exAt a x).base.finish (s.codeWord a.eng) (unitOf a.eng) (s.exAt a x).len
    (k.st = .live ∧ k.cls ≤ 1 → Alone s a x → HasHandler s a x →
      ∃ t, exec i s = .next t ∧ Trapped s t a x 0x01 (BitVec.ofNat 64 w.toNat)) ∧
    (¬(k.st = .live ∧ k.cls ≤ 1) → Calm s a x [] → (s.bankAt a.eng x).ops ≠ [] →
      ∃ t, exec i s = .next t ∧ Started s t a x (.ctxRel c) none) ∧
    (k.st = .live ∧ 2 ≤ k.cls ∧ k.installed = true → Alone s a x →
      ∃ t, exec i s = .next t ∧ (t.ctxOf c).st ≠ .live ∧ (t.bank a.eng x).regs = r ∧
        (t.bank a.eng x).ops = []) ∧
    (k.st ≠ .live → Alone s a x →
      ∃ t, exec i s = .next t ∧ (t.cell n.val).cnt =
          ((s.cell n.val).cnt.bump EngCtr.instrIssued.ctorIdx).bump EngCtr.ctxrelNop.ctorIdx ∧
        (t.bank a.eng x).regs = r ∧ (t.bank a.eng x).ops = [] ∧ Near s t a.eng x))

/-- R228, R229: the privileged instructions. -/
def Obligations.StewardOps : Prop :=
  (∀ i s a x w w2, words i = some (a, w, w2) → Issues s a x w w2 → a.eng = .steward →
    let m := s.steward
    let b := s.bankAt a.eng x
    let v := fun ra => gs s a x ra
    let line := fun ra => (v ra).toNat % 2 ^ 32 / 64
    let c := (s.fetchState a.eng x).steward.icache
    let r := (s.exAt a x).base.finish (s.codeWord a.eng) (unitOf a.eng) (s.exAt a x).len
    let on := fun (t : State) => (t.bank a.eng x).regs = r ∧ (t.bank a.eng x).n = b.n + 1 ∧
      (t.bank a.eng x).ops = b.ops ∧ Own true true s t a.eng x
    let back := fun (t : State) (k : Nat) (l : List Byte) => ∀ q, t.steward.mem.get 0 q =
      if 64 * k ≤ q ∧ q < 64 * k + l.length then l.getD (q - 64 * k) 0 else m.mem.get 0 q
    let dirty := fun (k : Nat) (l : List Byte) => m.dcache.find? (fun e => e.1 == k) = some (k, l, true)
    (∀ rd sr, i = .mfsr a rd sr → Calm s a x [.g rd.toNat 0] →
      let hi := s.time.t64.extractLsb' 32 32
      let d : Dest := .g rd.toNat (match sr.toNat with
        | 0x000 => m.xvec.setWidth 64
        | 0x001 => b.x0
        | 0x002 => b.x1
        | 0x003 => b.x2
        | 0x004 => b.x3
        | 0x008 => m.evPend.setWidth 64
        | 0x009 => m.evMask.setWidth 64
        | 0x010 => (s.time.t64.setWidth 32).setWidth 64
        | 0x011 => (b.t64Hi m).setWidth 64
        | _ => BitVec.ofNat 64 (match m.timer with
          | some d => d - s.time.now
          | none => 0))
      (sr ≠ 0x010#10 → ∃ t, exec i s = .next t ∧ Wrote s t a x [d]) ∧
      (sr = 0x010#10 → b.ops = [] → ∃ t, exec i s = .next t ∧
        Wrote { s with steward := { m with t64Hi := hi } } t a x [d]) ∧
      (sr = 0x010#10 → b.ops ≠ [] → ∃ t, exec i s = .next t ∧ WentOn s t a x (d.apply (s.exAt a x).base) ∧
        (t.bank a.eng x).ops = b.ops ++ [s.opAt a x (.latch hi) none])) ∧
    (∀ sr ra, i = .mtsr a ra sr → Calm s a x [] → ∃ t, exec i s = .next t ∧
      Started s t a x (if (sr = 0x001#10 ∨ sr = 0x004#10) ∧ b.regs.inHandler = false then .result []
        else .sysWrite sr.toNat (v ra)) (some 2)) ∧
    (i = .waite a → Calm s a x [] →
      (m.evPend &&& m.evMask = 0 → exec i s = .next (s.fetchState a.eng x)) ∧
      (m.evPend &&& m.evMask ≠ 0 → ∃ t, exec i s = .next t ∧ Wrote s t a x [])) ∧
    (i = .fence a → Calm s a x [] →
      (b.ops.any Op.access = true → exec i s = .next (s.fetchState a.eng x)) ∧
      (b.ops.any Op.access = false → ∃ t, exec i s = .next t ∧ Wrote s t a x [])) ∧
    (∀ ra, i = .icinv a ra ∨ i = .dcclean a ra ∨ i = .dcinv a ra ∨ i = .dcci a ra → b.ops ≠ [] →
      exec i s = .next (s.fetchState a.eng x)) ∧
    (∀ ra, i = .icinv a ra → Calm s a x [] → b.ops = [] → ∃ t, exec i s = .next t ∧ Wrote s t a x [] ∧
      t.steward.icache = c.filter fun e => e.1 != line ra) ∧
    (∀ ra, i = .dcclean a ra → Calm s a x [] → b.ops = [] → ∃ t, exec i s = .next t ∧ on t ∧
      t.steward.icache = c ∧
      (∀ l, dirty (line ra) l → back t (line ra) l ∧
        t.steward.dcache = m.dcache.map fun e => if e.1 = line ra then (line ra, l, false) else e) ∧
      ((∀ l, ¬dirty (line ra) l) → t.steward.mem = m.mem ∧ t.steward.dcache = m.dcache)) ∧
    (∀ ra, i = .dcinv a ra → Calm s a x [] → b.ops = [] → ∃ t, exec i s = .next t ∧ on t ∧
      t.steward.icache = c ∧ t.steward.mem = m.mem ∧
      t.steward.dcache = m.dcache.filter fun e => e.1 != line ra) ∧
    (∀ ra, i = .dcci a ra → Calm s a x [] → b.ops = [] → ∃ t, exec i s = .next t ∧ on t ∧
      t.steward.icache = c ∧ (∀ l, dirty (line ra) l → back t (line ra) l) ∧
      ((∀ l, ¬dirty (line ra) l) → t.steward.mem = m.mem) ∧
      t.steward.dcache = m.dcache.filter fun e => e.1 != line ra)) ∧
  (∀ s d, s.steward.timer = some d → exec .stewardTimerExpiry s = .next { s.reach d with
    steward := { s.steward with timer := none, evPend := s.steward.evPend ||| 0x10#7 } })

namespace Sys2Proof.Claims
open Sys2Proof.Machine

/-- The value that an operand of a packet has in its g-register (R157). -/
def operandG (o : Option (List Word)) : BitVec 64 :=
  match o with
  | none => 0
  | some l => BitVec.ofNat 64 (ofLE (wordsToBytes l))

/-- The firing of packet `p` on cell `n` begins in a bank whose node's descriptor is `desc`
(R153, R156-R159): g1 to g3 hold the operands, g4 the context, g5 the iteration, g6 the firing word;
the mode and the entry come from the descriptor; no flag, loop, slot, operation or exception is
left of an earlier firing. -/
structure Begins (b : Bank) (n : Nat) (p : Packet) (desc : BitVec 64) (late : Nat) : Prop where
  hdr   : b.hdr = some p
  pc    : b.regs.pc = descEntry desc
  mode  : b.regs.mode = descMode desc
  g1    : b.regs.gr 1 = operandG p.a
  g2    : b.regs.gr 2 = operandG p.b
  g3    : b.regs.gr 3 = operandG p.c
  g4    : b.regs.gr 4 = BitVec.ofNat 64 p.ctx
  g5    : b.regs.gr 5 = BitVec.ofNat 64 p.iter
  g6    : b.regs.gr 6 = BitVec.ofNat 64 (p.node + p.gen * 2 ^ 14 + p.cls * 2 ^ 18 + b2n p.epar * 2 ^ 20 +
    b2n p.bell * 2 ^ 21 + p.ppois * 2 ^ 22 + (if p.cls = 0 then n / 2 * 2 else n) * 2 ^ 25)
  rest  : ∀ k, 7 ≤ k → b.regs.gr k = 0
  clean : b.regs.fss = 0 ∧ b.regs.ldepth = 0 ∧ b.regs.slot = none ∧ b.regs.inHandler = false ∧
    b.regs.modeNext = none ∧ b.regs.poisoned = (p.ppois != 0)
  ops   : b.ops = [] ∧ b.budget = 0 ∧ b.x0 = 0 ∧ b.x1 = 0 ∧ b.x2 = 0 ∧ b.x3 = 0
  late  : b.unlanded = min late (p.words - 1)

/-- The engine of cell `c` took the packet `q`, which no error spoiled: it left its queue and its
firing began. -/
def Took (s t : State) (c : Fin 128) (x : Bool) (q : Queued) (late : Nat) : Prop :=
  Begins (t.bank (.cell c) x) c.val q.pkt ((s.cell c.val).nodes.get 0 q.pkt.node) late ∧
  t.bank (.cell c) (!x) = s.bank (.cell c) (!x) ∧
  (x = true → (t.cell c.val).que.express = (s.cell c.val).que.express.erase q ∧
    (t.cell c.val).que.eb0 = (s.cell c.val).que.eb0 ∧ (t.cell c.val).que.eb1 = (s.cell c.val).que.eb1) ∧
  (x = false → (t.cell c.val).que.drain = (s.cell c.val).que.drain.erase q ∧
    (t.cell c.val).que.fill = (s.cell c.val).que.fill ∧
    (t.cell c.val).que.express = (s.cell c.val).que.express)

end Sys2Proof.Claims

/-- R134, R144, R156-R159: firings begin. -/
def Obligations.FiringStart : Prop :=
  (∀ s (c : Fin 128) (late : Fin 13), s.engineOn c.val = true → (s.cell c.val).p.hdr = none →
    let k := s.cell c.val
    let i := Instr.firingStart c late {}
    (∀ q, k.m.hdr = none ∨ k.preempted = true → headOf k.que.express = some q → q.pkt.ppois < 8 →
      ∃ t, exec i s = .next t ∧ Took s t c true q late.val) ∧
    (∀ q, k.m.hdr = none → k.que.express = [] → k.que.drain ≠ [] → headOf k.que.drain = some q →
      q.pkt.ppois < 8 →
      ∃ t, exec i s = .next t ∧ Took s t c false q late.val) ∧
    (∀ q, k.m.hdr = none → k.que.express = [] → k.que.drain = [] → k.que.eHeld = 0 →
      headOf k.que.fill = some q → q.pkt.ppois < 8 →
      ∃ t, exec i s = .next t ∧ (t.cell c.val).que.filling = !k.que.filling ∧
        Took (s.modCell c.val fun y => { y with que := { y.que with filling := !y.que.filling } }) t c
          false q late.val) ∧
    (k.m.hdr = none → k.que.express = [] → k.que.eb0 = [] → k.que.eb1 = [] → exec i s = .next s)) ∧
  (∀ s (c : Fin 128) (late : Fin 13) q h, s.engineOn c.val = true → (s.cell c.val).p.hdr = none →
    (s.cell c.val).m.hdr = some h → (s.cell c.val).preempted = false →
    (s.cell c.val).m.regs.slot = none → (∀ o ∈ (s.cell c.val).m.ops, o.kind ≠ .endFiring) →
    headOf (s.cell c.val).que.express = some q → q.pkt.ppois < 8 →
    ∃ t, exec (.preemption c late {}) s = .next t ∧ (t.cell c.val).preempted = true ∧ Took s t c true q late.val)

namespace Sys2Proof.Claims
open Sys2Proof.Machine

/-- The oldest operation of a bank stays, and no BUDGET waits behind it (R174, R251). -/
def Stays (l : List Op) : Prop :=
  (∀ p, l.head? = some p → p.waits = true) ∧ ∀ p ∈ l, ∀ i, p.kind ≠ .trap 0x0B i

/-- A core may finish an operation only once it has begun it (R232). -/
def InUnit (o : Op) : Prop := coreOf o.word = none ∨ o.begun = true

end Sys2Proof.Claims

/-- R160, R180, R228, R232: results, late exceptions, and the order of the cores. -/
def Obligations.OperationCompletes : Prop :=
  ∀ s e x (i : Fin 256),
    let b := s.bank e x
    let c := exec (.operationComplete e x i) s
    (∀ o ds, b.ops[i.val]? = some o → o.kind = .result ds → InUnit o → o.free = false →
      (∀ d ∈ ds, ∀ w ∈ b.wrote, o.n < w.1 → w.2.2.sameReg d = false) →
      let rest := b.ops.filter fun p => p.n != o.n || p.kind != o.kind
      Stays rest →
      ∃ t, c = .next t ∧
        (t.bank e x).regs = ds.foldl (fun r d => d.apply r) b.regs ∧
        (t.bank e x).ops.map (·.kind) = rest.map (·.kind) ∧ (t.bank e x).n = b.n ∧
        (coreOf o.word = none → Near s t e x) ∧
        (∀ k, coreOf o.word = some k → (∀ y, (((s.popOp e x o).bank e y).core k).any (·.begun) = false) →
          (∀ p, (((s.popOp e x o).bank e true).core k).head? = some p →
            ((t.bank e true).core k).head?.map (·.begun) = some true) ∧
          (∀ p, ((s.popOp e x o).bank e true).core k = [] →
            (((s.popOp e x o).bank e false).core k).head? = some p →
            ((t.bank e false).core k).head?.map (·.begun) = some true))) ∧
    (∀ o code info, b.ops = [o] → i.val = 0 → o.kind = .trap code info → o.d ≠ some 1 → InUnit o →
      (∀ k, coreOf o.word = some k → ∀ y, ∀ p ∈ (s.bank e y).core k, p = o) →
      (∀ p ∈ b.ghosts, p.n ≤ o.n) → b.held = false → o.snap.inHandler = false →
      isSeq e = true ∨ b.attr.handler ≠ 0x3FFF → code < 256 →
      code ≠ 0x04 ∧ code ≠ 0x0A ∧ code ≠ 0x0B ∧ code ≠ 0x0C →
      ∃ t, c = .next t ∧ (t.bank e x).ops = [] ∧
        (t.bank e x).regs.inHandler = true ∧ (t.bank e x).x2 = info ∧
        (t.bank e x).x0.toNat % 256 = code ∧
        (t.bank e x).regs.pc = (if isSeq e then s.steward.xvec.toNat else b.attr.handler) ∧ Near s t e x) ∧
    (∀ o sr v, e = .steward → b.ops = [o] → i.val = 0 → o.kind = .sysWrite sr v → coreOf o.word = none →
      let m := s.steward
      ∃ t, c = .next t ∧ (t.bank e x).ops = [] ∧ (t.bank e x).regs = b.regs ∧ (t.bank e x).n = b.n ∧
        t.steward.xvec = (if sr = 0x000 then v.setWidth 32 &&& ~~~3#32 else m.xvec) ∧
        t.steward.evPend = (if sr = 0x008 then m.evPend &&& ~~~(v.setWidth 7) else m.evPend) ∧
        t.steward.evMask = (if sr = 0x009 then v.setWidth 7 else m.evMask) ∧
        t.steward.timer = (if sr = 0x020 then
          if v = 0 then none else some (s.time.now + v.toNat) else m.timer) ∧
        (t.bank e x).x0 = (if sr = 0x001 then (b.x0 &&& ~~~(xsetMask true)) ||| (v &&& xsetMask true) else b.x0) ∧
        (t.bank e x).x3 = (if sr = 0x004 then v &&& 0xFFFFFFFC#64 else b.x3) ∧
        (t.bank e x).x1 = b.x1 ∧ (t.bank e x).x2 = b.x2 ∧ t.steward.t64Hi = m.t64Hi ∧ Near s t e x) ∧
    (∀ o, b.ops[i.val]? = none → b.ghosts[i.val - b.ops.length]? = some o → coreOf o.word = none →
      Stays b.ops →
      ∃ t, c = .next t ∧ (t.bank e x).ghosts = b.ghosts.eraseIdx (i.val - b.ops.length) ∧
        (t.bank e x).regs = b.regs ∧ (t.bank e x).ops = b.ops ∧ (t.bank e x).n = b.n ∧ Near s t e x) ∧
    ((b.ops[i.val]? = none ∧ b.ghosts[i.val - b.ops.length]? = none) ∨
      (∃ o, b.ops[i.val]? = some o ∧ ((∀ ds, o.kind ≠ .result ds) ∧ (∀ c f, o.kind ≠ .trap c f) ∧
        (∀ n v, o.kind ≠ .sysWrite n v))) ∨
      (∃ o, (b.ops[i.val]? = some o ∧ ((∃ ds, o.kind = .result ds) ∨ ∃ k f, o.kind = .trap k f)) ∧ ¬InUnit o) →
      c = .next s)

/-- R267, R269: region requests and their answers. -/
def Obligations.RegionTraffic : Prop :=
  (∀ s (src : BitVec 8) (xid : BitVec 32) q,
    s.fabric.reqs.find? (fun q => q.src == src.toNat && q.xid == xid.toNat && !q.served && !q.lost) = some q →
    let j := q.handle / 4096
    let r := s.respAt j
    let g := r.regions.get {} (q.handle % 4096)
    let i := Instr.regionRequest src xid {}
    let served := fun (t : State) (k : RspKind) => t.fabric.rsps = s.fabric.rsps ++ [⟨{ q with served := true }, k⟩] ∧
      t.fabric.reqs = if q.ended then s.fabric.reqs.erase q
        else s.fabric.reqs.map fun y => if y == q then { q with served := true } else y
    (s.reqNext q = false → exec i s = .next s) ∧
    (s.reqNext q = true → s.cutOff (0x80 + j) = false →
      let ok := g.valid = true ∧ g.append = false ∧ q.offset + q.bytes ≤ g.length ∧
        q.graph = g.owner.getD 0x3FF
      (¬ok → ∃ t k, exec i s = .next t ∧ served t (.rerr k) ∧ t.fabric.resp = s.fabric.resp) ∧
      (ok → q.write = true → q.dry = false → ∃ t, exec i s = .next t ∧ served t .wack ∧
        (∀ a, (t.respAt j).mem.get 0 a = if g.base + q.offset ≤ a ∧ a < g.base + q.offset + q.data.length then
          q.data.getD (a - (g.base + q.offset)) 0 else r.mem.get 0 a) ∧
        ∀ k, k ≠ j → t.respAt k = s.respAt k) ∧
      (ok → q.write = false → r.isPoisoned (g.base + q.offset) q.bytes = false →
        ∃ t, exec i s = .next t ∧ t.fabric.resp = s.fabric.resp ∧
          served t (.rdata ((List.range q.bytes).map fun n => r.mem.get 0 (g.base + q.offset + n)))) ∧
      (ok → q.write = false → r.isPoisoned (g.base + q.offset) q.bytes = true →
        ∃ t, exec i s = .next t ∧ t.fabric.resp = s.fabric.resp ∧ served t .rpois)) ∧
    (s.reqNext q = true → s.cutOff (0x80 + j) = true →
      ∃ t, exec i s = .next t ∧ t.fabric.resp = s.fabric.resp ∧ served t .rpois)) ∧
  (∀ s (src : BitVec 8) (xid : BitVec 32) r,
    let own := fun (y : Req) => y.src == src.toNat && y.xid == xid.toNat && !y.ended
    let i := Instr.regionResponse src xid {}
    s.fabric.rsps.find? (fun r => r.req.src == src.toNat && r.req.xid == xid.toNat) = some r →
    s.fabric.rsps.find? r.ahead = some r → s.mayExit r.header .rsp = true → s.cutOff src.toNat = false →
    (s.fabric.lateXids.contains (src.toNat, xid.toNat) = true → s.fabric.reqs.find? own = none →
      ∃ t, exec i s = .next t ∧ t.fabric.rsps = s.fabric.rsps.erase r ∧
        t.fabric.lateXids = s.fabric.lateXids.erase (src.toNat, xid.toNat) ∧
        t.fabric.reqs = s.fabric.reqs ∧ t.cells = s.cells ∧ t.steward = s.steward ∧
        t.fabric.stat = s.fabric.stat.bump (16 * src.toNat + FabCtr.rspLate.ctorIdx) 1) ∧
    (∀ y (c : Fin 128) x o rd vec n sg info, s.fabric.lateXids.contains (src.toNat, xid.toNat) = false →
      s.fabric.reqs.find? own = some y → y.peer = none → r.req.src = c.val →
      r.req.express = x → r.req.opId = o.n → (s.bank (.cell c) x).ops = [o] → o.free = false →
      coreOf o.word = none → o.kind = .regionLoad rd vec n sg info →
      (∀ w ∈ (s.bank (.cell c) x).wrote, w.1 ≤ o.n) →
      (∀ l, r.kind = .rdata l → s.time.now < y.t0 + 4000000 →
        ∃ t, exec i s = .next t ∧ t.fabric.rsps = s.fabric.rsps.erase r ∧
          t.fabric.reqs = s.fabric.reqs.erase y ∧ (t.bank (.cell c) x).ops = [] ∧
          (t.bank (.cell c) x).regs = Dest.apply (if vec then .v rd (BitVec.ofNat 512 (ofLE l))
            else .g rd (if sg then BitVec.ofInt 64 (sext (8 * n) (ofLE l)) else BitVec.ofNat 64 (ofLE l)))
            (s.bank (.cell c) x).regs) ∧
      (y.t0 + 4000000 ≤ s.time.now → y.src = c.val → y.xid = xid.toNat → y.express = x → y.opId = o.n →
        y.served = true → y.lost = false →
        ∃ t, exec i s = .next t ∧ t.fabric.rsps = s.fabric.rsps.erase r ∧
          t.fabric.reqs = s.fabric.reqs.erase y ∧ (t.bank (.cell c) x).ops = [] ∧
          (t.bank (.cell c) x).regs = Dest.apply .poisoned
            (Dest.apply (if vec then .v rd 0 else .g rd 0) (s.bank (.cell c) x).regs) ∧
          t.fabric.stat = (s.fabric.stat.bump (16 * y.src + FabCtr.reqTimeout.ctorIdx) 1).bump
            (16 * src.toNat + FabCtr.rspLate.ctorIdx) 1))) ∧
  (∀ s (src : BitVec 8) (xid : BitVec 32) q,
    s.fabric.reqs.find? (fun y => y.src == src.toNat && y.xid == xid.toNat && !y.ended) = some q →
    ∃ t, exec (.reqTimeout src xid) s = .next t ∧ q.t0 + 4000000 ≤ t.time.now ∧
      (∀ (c : Fin 128) o rd vec n sg info, q.src = c.val → q.peer = none → q.opId = o.n →
        (s.bank (.cell c) q.express).ops = [o] → o.kind = .regionLoad rd vec n sg info → o.free = false →
        coreOf o.word = none → (∀ w ∈ (s.bank (.cell c) q.express).wrote, w.1 ≤ o.n) →
        t.fabric.reqs = (if q.served = true ∨ q.lost = true then s.fabric.reqs.erase q
          else s.fabric.reqs.map fun y => if y == q then { q with ended := true } else y) ∧
        t.fabric.lateXids = (if q.lost then s.fabric.lateXids else s.fabric.lateXids ++ [(q.src, q.xid)]) ∧
        t.fabric.stat = s.fabric.stat.bump (16 * q.src + FabCtr.reqTimeout.ctorIdx) 1 ∧
        (t.bank (.cell c) q.express).ops = [] ∧
        (t.bank (.cell c) q.express).regs = Dest.apply .poisoned
          (Dest.apply (if vec then .v rd 0 else .g rd 0) (s.bank (.cell c) q.express).regs)))

namespace Sys2Proof.Claims
open Sys2Proof.Machine

/-- A fault of a source that holds no condition is raised last (R417). -/
def Raised (t : State) (src fcode data : Nat) : Prop :=
  ∃ r, t.watch.raises.getLast? = some r ∧ r.src = src ∧ r.fcode = fcode ∧ r.data = data ∧ r.forced = false

/-- A token of the fabric has left it. -/
def LeftFabric (s t : State) (src : BitVec 8) (k : Token) : Prop :=
  t.fabric.flight = dropFirst (fun f => f.src == src.toNat && f.tok == k) s.fabric.flight

end Sys2Proof.Claims

namespace Sys2Proof.Claims
open Sys2Proof.Machine

/-- The transaction that a lost unit belongs to, with its header, channel and its place among those of its
initiator, destination, VN and lane (R270). -/
def lostAt (s : State) : Lost → Option (Header × Chan × Nat)
  | .token src k => some (k.header src.toNat, k.chan,
      (s.fabric.flight.filter fun f => f.src == src.toNat && f.tok.way == k.way).findIdx fun f => f.tok == k)
  | .req src xid => (s.fabric.reqs.find? fun q =>
      q.src == src.toNat && q.xid == xid.toNat && !q.served && !q.lost).map fun q =>
        (q.header, .req, (s.fabric.reqs.filter q.ahead).findIdx (· == q))
  | .rsp src xid => (s.fabric.rsps.find? fun x => x.req.src == src.toNat && x.req.xid == xid.toNat).map fun x =>
      (x.header, .rsp, (s.fabric.rsps.filter x.ahead).findIdx (· == x))
  | .ctl m => some (m.header, .ctl, (s.fabric.ctl.filter fun x =>
      !x.isReturn && ctlSrc x == ctlSrc m && ctlDest x == ctlDest m).findIdx (· == m))

end Sys2Proof.Claims

/-- R258-R264, R268, R270, R271: the fabric's own events. -/
def Obligations.FabricEvents : Prop :=
  (∀ s, (∀ n, (s.cell n).p.ops = [] ∧ (s.cell n).m.ops = []) → s.slotsDue = 0 →
    let u := s.reachT64 (s.fabric.slotT.toNat + 25)
    let next := s.fabric.slotT + 25
    let k := next.toNat / 25 % 64
    let moved := { s.fabric.runSlot (s.fabric.slotEntry s.fabric.slot) 40 with
      slot := k, slotT := next, slotAt := u.time.now - (u.time.t64 - next).toNat }
    u.slotsDue = 1 →
    (k % 16 ≠ 0 → exec .slotBoundary s = .next { u with fabric := moved }) ∧
    (k % 16 = 0 → s.fabric.gHold = [] → k ≠ 0 ∨ s.fabric.pendMap = none →
      exec .slotBoundary s = .next { u with fabric := { moved with spent := [] } }) ∧
    (∀ m, k = 0 → s.fabric.gHold = [] → s.fabric.pendMap = some m → ∃ t, exec .slotBoundary s = .next t ∧
      t.fabric.slot = 0 ∧ t.fabric.spent = [] ∧ t.fabric.pendMap = none ∧
      (∀ i, i < 64 → t.fabric.slotEntry i = m.getD i 0#16) ∧
      t.fabric.dev = s.fabric.dev.bump FabDevCtr.slotMapApplied.ctorIdx 1)) ∧
  (∀ (f : Fabric) (e : BitVec 16) r out (offers : Chan → List Transit),
    let ctl := e.extractLsb' 0 2 = 2#2
    let first := if ctl ∧ offers .ctl ≠ [] then some Chan.ctl else if offers .g ≠ [] then some .g else none
    (f.grant e r out offers = none ↔ ∀ c, offers c = []) ∧
    (∀ t, f.grant e r out offers = some t → ∃ c, t ∈ offers c ∧ (first = none ∨ first = some c) ∧
      (c = .g →
        let own := fun (y : Transit) => (attachOf y.src).1 = r ∧
          e.extractLsb' 0 2 = 1#2 ∧ (e.extractLsb' 2 3).toNat = columnPair y.src
        (∃ y ∈ offers .g, own y) ∧ own t ∨
        (∀ y ∈ offers .g, ¬own y) ∧ ((attachOf t.src).1 ≠ r ∨ ∀ y ∈ offers .g, (attachOf y.src).1 = r)))) ∧
  (∀ s (j : Fin 16) (src : BitVec 8) (k : Token), k.tag.dest.toNat = 0x80 + j.val →
    s.arrivable src.toNat k = true → s.cutOff (0x80 + j.val) = false →
    let h := k.tag.esel.toNat
    let r := s.respAt j.val
    let g := r.regions.get {} (h % 4096)
    let l := leBytes 8 k.tag.pack.toNat ++ wordsToBytes k.payload
    let l := l ++ List.replicate ((8 - l.length % 8) % 8) 0
    let ok := h / 4096 = j.val ∧ g.valid = true ∧ g.append = true
    let i := Instr.appendToken j src k {}
    (ok → g.ptr + l.length ≤ g.length → ∃ t, exec i s = .next t ∧ LeftFabric s t src k ∧
      ((t.respAt j.val).regions.get {} (h % 4096)).ptr = (g.ptr + l.length) % g.length ∧
      ∀ a, (t.respAt j.val).mem.get 0 a = if g.base + g.ptr ≤ a ∧ a < g.base + g.ptr + l.length then
        l.getD (a - (g.base + g.ptr)) 0 else r.mem.get 0 a) ∧
    (ok → g.length < g.ptr + l.length → ∃ t, exec i s = .next t ∧ LeftFabric s t src k ∧
      ((t.respAt j.val).regions.get {} (h % 4096)).ptr = l.length % g.length ∧
      ∀ a, (t.respAt j.val).mem.get 0 a = if g.base ≤ a ∧ a < g.base + l.length then l.getD (a - g.base) 0
        else if g.base + g.ptr ≤ a ∧ a < g.base + g.ptr + (g.length - g.ptr) then 0 else r.mem.get 0 a) ∧
    (¬ok → ∃ t, exec i s = .next t ∧ LeftFabric s t src k ∧
      t.fabric.appendBad = s.fabric.appendBad.bump j.val ∧
      ∀ n, (t.respAt n).mem = (s.respAt n).mem ∧ (t.respAt n).regions = (s.respAt n).regions)) ∧
  (∀ s (n : Fin 128) (lost : Lost),
    let ok := ∃ h c i, lostAt s lost = some (h, c, i) ∧ s.standsIn n.val h c i = true
    (¬ok → exec (.fabricHeaderError n lost) s = .next s) ∧
    (ok → ∃ t, exec (.fabricHeaderError n lost) s = .next t ∧ Raised t 228 0x48 n.val ∧
      t.fabric.dev = s.fabric.dev.bump FabDevCtr.fabricUe.ctorIdx 1 ∧
      t.cells = s.cells ∧ match lost with
        | .token src k => LeftFabric s t src k ∧ (t.ctxOf k.tag.ctx.toNat).orphan = true ∧
            t.fabric.ctl = s.fabric.ctl
        | .req src xid => t.fabric.ctl = s.fabric.ctl ∧ ∀ q, s.fabric.reqs.find? (fun q =>
              q.src == src.toNat && q.xid == xid.toNat && !q.served && !q.lost) = some q →
            t.fabric.reqs = if q.ended then s.fabric.reqs.erase q
              else s.fabric.reqs.map fun y => if y == q then { q with lost := true } else y
        | .rsp src xid => t.fabric.ctl = s.fabric.ctl ∧ ∀ r, s.fabric.rsps.find? (fun r =>
              r.req.src == src.toNat && r.req.xid == xid.toNat) = some r →
            t.fabric.rsps = s.fabric.rsps.erase r ∧
            t.fabric.reqs = s.fabric.reqs.map fun q =>
              if q.src == src.toNat && q.xid == xid.toNat then { q with lost := true } else q
        | .ctl m => t.fabric.ctl = s.fabric.ctl.erase m ++ [m])) ∧
  (∀ s (target : BitVec 8),
    (s.waitsFor target.toNat = none → exec (.deadTimeExpiry target) s = .next s) ∧
    (∀ w, s.waitsFor target.toNat = some w → s.fabric.iso.contains target.toNat = false →
      ∃ t, exec (.deadTimeExpiry target) s = .next t ∧ t.fabric.iso = s.fabric.iso ++ [target.toNat] ∧
        w.t0 + 10000 ≤ t.time.now ∧ Raised t 229 0x49 target.toNat))

namespace Sys2Proof.Claims
open Sys2Proof.Machine

/-- A class 2 or 3 token, or with `low` one of class 0 or 1, has its own entry to begin in cell `n`
at once: its generation is installed, its node has more than one operand and takes its port, no entry
of its set is stale or has its key, the Cellar holds none of its set and returns none with its key, and way
`w` and block `b` are free (R47, R52-R54, R59, R72, R110). -/
structure Lands (s : State) (n : Nat) (k : Token) (w : Nat) (b : Blk) : Prop where
  cur   : (s.cell n).current k.tag.ctx.toNat k.tag.gen.toNat = true
  desc  : descValid ((s.cell n).nodes.get 0 k.tag.node) = true
  nops  : 2 ≤ descNops ((s.cell n).nodes.get 0 k.tag.node)
  plain : k.tag.mono = false
  port  : (needOf (descNops ((s.cell n).nodes.get 0 k.tag.node))).testBit k.tag.port = true
  fresh : ∀ v, v < 4 → ((s.cell n).pal.at (4 * setOf k.tag + v)).st = .waiting →
    (s.cell n).current ((s.cell n).pal.at (4 * setOf k.tag + v)).ctx
      ((s.cell n).pal.at (4 * setOf k.tag + v)).gen = true
  miss  : (s.cell n).pal.hit (setOf k.tag) k.tag = none
  depth : (s.cell n).pal.depth.get 0 (setOf k.tag) = 0
  come  : s.incoming n k.tag = false
  way   : (s.cell n).pal.freeWay (setOf k.tag) k.tag.cls.toNat = some w
  blk   : (s.cell n).pal.block k.tag.cls.toNat k.tag.len.toNat = some b

/-- The token's entry stands WAITING in its way with the token as its one operand; every other entry
is as before (R51). -/
def Landed (s t : State) (n : Nat) (k : Token) (w : Nat) (b : Blk) : Prop :=
  (t.cell n).pal.at (4 * setOf k.tag + w) =
    ({ st := .waiting, node := k.tag.node, ctx := k.tag.ctx.toNat, gen := k.tag.gen.toNat
       iter := k.tag.iter.toNat, bell := k.tag.bell, cls := k.tag.cls.toNat
       need := 2 ^ descNops ((s.cell n).nodes.get 0 k.tag.node) - 1 } : Entry).setPort k.tag.port
      (some { len := k.tag.len.toNat, epar := k.tag.epar, poison := k.tag.poison, spilled := false
              words := k.payload, blk := b }) ∧
  ∀ i, i ≠ 4 * setOf k.tag + w → (t.cell n).pal.at i = (s.cell n).pal.at i

/-- The packet `p` joined the queue of its class in cell `n` (R57, R136). -/
def Queued' (s t : State) (n : Nat) (p : Packet) : Prop :=
  let e : Queued := { pkt := p, seq := (s.cell n).que.seq, t := s.time.now }
  (t.cell n).que.seq = (s.cell n).que.seq + 1 ∧
  if p.isExpress then (t.cell n).que.express = (s.cell n).que.express ++ [e]
  else (t.cell n).que.fill = (s.cell n).que.fill ++ [e]

/-- No drop of the epoch in progress is still to come (R102). -/
def NoneOwed (s : State) : Prop := ∀ e ∈ s.reeve.danger, e.2.owed = false

/-- The queue of the packet's class has room for it, and no bell rule holds it (R57, R58, R136,
R313). -/
def Room (s : State) (n : Nat) (p : Packet) : Prop :=
  (s.cell n).que.full p.isExpress = false ∧ p.words ≤ (s.cell n).que.free p.isExpress ∧ p.bell = false

end Sys2Proof.Claims

/-- R52-R66: what becomes of a token at its cell. -/
def Obligations.TokenArrival : Prop :=
  (∀ s (c : Fin 128) (src : BitVec 8) (k : Token), k.tag.dest.toNat = c.val → 2 ≤ k.tag.cls.toNat →
    s.arrivable src.toNat k = true → NoneOwed s →
    let i := Instr.tokenArrival c src k {} ⟨.none, .none⟩
    let gone := if s.fabric.iso.contains c.val then FabDevCtr.isoAbsorb else FabDevCtr.fenceAbsorb
    let q := s.cell c.val
    (s.cutOff c.val = true → ∃ t, exec i s = .next t ∧ LeftFabric s t src k ∧ t.cells = s.cells ∧
      t.fabric.dev.get 0 gone.ctorIdx = (s.fabric.dev.get 0 gone.ctorIdx + 1) % 2 ^ 32) ∧
    (s.cutOff c.val = false → q.pal.wait.length < 32 → q.current k.tag.ctx.toNat k.tag.gen.toNat = false →
      ∃ t, exec i s = .next t ∧ LeftFabric s t src k ∧ (t.cell c.val).pal.entries = q.pal.entries ∧
        (t.cell c.val).pal.cnt = q.pal.cnt.bump PalCtr.staleGen.ctorIdx 1) ∧
    (∀ w b, s.cutOff c.val = false → q.pal.wait = [] → Lands s c.val k w b →
      ∃ t, exec i s = .next t ∧ LeftFabric s t src k ∧ Landed s t c.val k w b) ∧
    (s.cutOff c.val = false → q.pal.wait = [] → q.pal.ready = [] → k.tag.mono = true → k.tag.bell = false →
      q.current k.tag.ctx.toNat k.tag.gen.toNat = true →
      let d := q.nodes.get 0 k.tag.node
      descValid d = true → descNops d = 1 → k.tag.port = 0 →
      let p : Packet :=
        { node := k.tag.node, ctx := k.tag.ctx.toNat, gen := k.tag.gen.toNat, iter := k.tag.iter.toNat
          cls := k.tag.cls.toNat, epar := k.tag.epar, bell := k.tag.bell, npri := descNpri d
          ppois := b2n k.tag.poison, a := some k.payload, b := none, c := none, nops := 1, epars := [k.tag.epar] }
      Room s c.val p → ∃ t, exec i s = .next t ∧ LeftFabric s t src k ∧ Queued' s t c.val p ∧
        (t.cell c.val).pal.ready = [])) ∧
  (∀ s (c : Fin 128) k w b, 2 ≤ k.tag.cls.toNat → (s.cell c.val).pal.wait = [(k, .pressure)] →
    Lands s c.val k w b → ∃ t, exec (.waitBufferProceed c .none) s = .next t ∧
      Landed s t c.val k w b ∧ (t.cell c.val).pal.wait = []) ∧
  (∀ s (c : Fin 128) k w b, k.tag.cls.toNat ≤ 1 → (s.cell c.val).pal.hold = [k] → Lands s c.val k w b →
    ∃ t, exec (.rsvHoldProceed c .none) s = .next t ∧ Landed s t c.val k w b ∧
      (t.cell c.val).pal.hold = []) ∧
  (∀ s (c : Fin 128) p r, (s.cell c.val).que.posted = [] → (s.cell c.val).pal.ready = [r] → r.item = .mono p →
    Room s c.val p →
    ∃ t, exec (.heldFiringOffer c .none) s = .next t ∧ Queued' s t c.val p ∧
      (t.cell c.val).pal.ready = []) ∧
  (∀ s (c : Fin 128) (ctx : BitVec 17) (gen : BitVec 4),
    (s.cell c.val).pal.sweeps.contains (ctx.toNat, gen.toNat) = true →
    ∃ t, exec (.sweepComplete c ctx gen) s = .next t ∧
      (t.cell c.val).pal.sweeps = (s.cell c.val).pal.sweeps.erase (ctx.toNat, gen.toNat) ∧
      ∀ i, ((t.cell c.val).pal.at i).st = .waiting → ((t.cell c.val).pal.at i).ctx = ctx.toNat →
        ((t.cell c.val).pal.at i).gen = gen.toNat → (t.cell c.val).pal.copying (i / 4) (i % 4) = true)

namespace Sys2Proof.Claims
open Sys2Proof.Machine

/-- Of the fabric only the control messages changed, with the mesh that carries them and its counters. -/
def CtlOnly (s t : State) : Prop :=
  t.fabric = { s.fabric with
    ctl := t.fabric.ctl, net := t.fabric.net, turn := t.fabric.turn, turnIn := t.fabric.turnIn
    stat := t.fabric.stat, dev := t.fabric.dev }

end Sys2Proof.Claims

/-- R80, R87, R97, R98, R176: credit, load and danger. -/
def Obligations.CreditAndLoad : Prop :=
  (∀ s (prod : BitVec 8) (ctx : BitVec 17) (gen : Option (BitVec 4)) ce,
    let p := prod.toNat
    let c := ctx.toNat
    let ask := gen.map (·.toNat)
    let mine := fun (m : Ctl) => match m with
      | .creditReq q d a _ => q == p && d == c && a == ask
      | _ => false
    let i := Instr.creditRequest prod ⟨ctx, ce⟩ gen
    (s.ctlNext mine = none → exec i s = .next s) ∧
    (∀ pair, s.ctlNext mine = some (.creditReq p c ask pair) →
      let x := s.ctxOf c
      let g := ask.getD x.gen
      let live := x.st == .live && x.gen == g
      let foreign := ask.isNone && decide (p < 128)
      ∃ t, exec i s = .next t ∧
        t.ctxOf c = { x with
          count := x.count.set 0 g (x.count.get 0 g + 64)
          creditors := x.creditors ++ (if pair then [p, p + 1] else [p]).filter fun n =>
            foreign && live && !x.cells.contains n && !x.creditors.contains n } ∧
        (∀ k, k ≠ c → t.ctxOf k = s.ctxOf k) ∧
        t.fabric.ctl = s.fabric.ctl.erase (.creditReq p c ask pair) ++
          [.creditGrant p (s.cell p).cellGen.toNat c g 64 ask pair (foreign && !live)] ∧
        t = { s with
          reeve := { s.reeve with ctx := t.reeve.ctx, cached := t.reeve.cached, cnt := t.reeve.cnt }
          fabric := t.fabric } ∧ CtlOnly s t)) ∧
  (∀ s (unit : BitVec 8) (ctx : BitVec 17) (gen : BitVec 4) ce,
    let u := unit.toNat
    let c := ctx.toNat
    let g := gen.toNat
    let mine := fun (m : Ctl) => match m with
      | .creditReturn v d h _ => v == u && d == c && h == g
      | _ => false
    let amount := fun (m : Ctl) => match m with
      | .creditReturn _ _ _ n => n
      | _ => 0
    let total := ((s.fabric.ctl.filter mine).map amount).sum
    let stat := 16 * unitOfDest u + FabCtr.txCtl.ctorIdx
    let i := Instr.creditReturn unit ⟨ctx, ce⟩ gen
    (total = 0 → exec i s = .next s) ∧
    (0 < total → ∃ t, exec i s = .next t ∧
      (t.ctxOf c).count.get 0 g = (s.ctxOf c).count.get 0 g - min total 256 ∧
      (∀ k, k ≠ g → (t.ctxOf c).count.get 0 k = (s.ctxOf c).count.get 0 k) ∧
      (∀ k, k ≠ c → t.ctxOf k = s.ctxOf k) ∧
      t.fabric.ctl = (s.fabric.ctl.filter fun m => !mine m) ++
        (if total ≤ 256 then [] else [.creditReturn u c g (total - 256)]) ∧
      t.fabric.stat.get 0 stat = (s.fabric.stat.get 0 stat + 1) % 2 ^ 48 ∧
      t = { s with
        reeve := { s.reeve with ctx := t.reeve.ctx, cached := t.reeve.cached, cnt := t.reeve.cnt }
        fabric := { s.fabric with ctl := t.fabric.ctl, stat := t.fabric.stat, dev := t.fabric.dev } })) ∧
  (∀ s (c : Fin 128),
    let q := s.cell c.val
    let v := max (q.que.easelOcc * 255 / 512) ((q.pal.occ - q.pal.rsvOcc) * 255 / 7168)
    let l := s.reeve.load.get 0 c.val
    let u := s.reach (s.reeve.loadAt.get 0 c.val + 1000)
    ∃ t, exec (.loadReport c) s = .next t ∧
      t = { u with reeve := { s.reeve with load := t.reeve.load, loadAt := t.reeve.loadAt } } ∧
      (∀ k, k ≠ c.val → t.reeve.load.get 0 k = s.reeve.load.get 0 k ∧
        t.reeve.loadAt.get 0 k = s.reeve.loadAt.get 0 k) ∧
      t.reeve.loadAt.get 0 c.val = u.time.now ∧
      t.reeve.load.get 0 c.val = if l ≤ v then l + (v - l) / 8 else l - (l - v) / 8) ∧
  (∀ s (c : Fin 128) q l, (s.cell c.val).que.express = q :: l → s.pairClass0 c.val = false → NoneOwed s →
    let u := s.reach (q.t + s.reeve.guardWait + 1)
    u.atEdge = false →
    let x := s.reeve.danger.get {} c.val
    let y : Danger := if x.d then { x with last := u.time.now }
      else { x with d := true, since := u.time.now, last := u.time.now, owed := false
                    y := if x.y = 0 then 1 else x.y }
    exec (.guardWaitExpiry c) s =
      .next { u with reeve := { u.reeve with danger := s.reeve.danger.set {} c.val y } }) ∧
  (∀ s (c : Fin 128),
    let x := s.reeve.danger.get {} c.val
    let put : State → Danger → State := fun u y =>
      { u with reeve := { u.reeve with danger := s.reeve.danger.set {} c.val y } }
    (x.d = true →
      let u := s.reach (x.last + s.reeve.guardWindow)
      exec (.guardWindowExpiry c) s = .next (put u { x with d := false, since := u.time.now })) ∧
    (x.d = true → x.y = 1 → x.since + s.reeve.yieldDelay ≤ x.last + s.reeve.guardWindow →
      exec (.yieldDelayExpiry c) s = .next (put (s.reach (x.since + s.reeve.yieldDelay)) { x with y := 2 })) ∧
    (x.d = false → x.y = 1 →
      exec (.calmTimeExpiry c) s = .next (put (s.reach (x.since + s.reeve.calmTime)) { x with y := 0 })))

/-- R78-R93: contexts from grant to free. -/
def Obligations.ContextLife : Prop :=
  (∀ s cls a q c u, s.reeve.halted = false → cls < 4 → (∀ k, k < cls → s.reeve.queue.get [] k = []) →
    s.reeve.queue.get [] cls = a :: q → s.reeve.waiters = [] → s.tryGrant a = .granted c u →
    ∃ t, exec .activationGrant s = .next t ∧ t.reeve.queue.get [] cls = q ∧
      (t.ctxOf c).st = .live ∧ (t.ctxOf c).graph = a.graph ∧ (s.ctxOf c).st = .free ∧
      (t.ctxOf c).gen = if (s.ctxOf c).ever then ((s.ctxOf c).gen + 1) % 16 else 0) ∧
  (∀ s (c : Fin 128) (ctx : BitVec 17) ce cg x gen cls h part g,
    let pick := fun (m : Ctl) => match m with
      | .install k _ y _ _ _ _ => k == c.val && y == ctx.toNat
      | _ => false
    s.ctlNext pick = some (.install c.val cg x gen cls h part) → s.fabric.iso.contains c.val = false →
    (s.cell c.val).cellGen.toNat = cg → s.graph h = some g →
    ∃ t, exec (.contextInstall c ⟨ctx, ce⟩) s = .next t ∧
      (t.cell c.val).ctxs = (s.cell c.val).ctxs.set none x (some { gen := gen, cls := cls, graph := h, part := part }) ∧
      (t.cell c.val).tally.get 0 (2 * x) = 0 ∧ (t.cell c.val).tally.get 0 (2 * x + 1) = 0 ∧
      ((t.cell c.val).attrs.get none h).isSome = true ∧
      t.fabric.ctl = s.fabric.ctl.erase (.install c.val cg x gen cls h part) ++ [.installAck c.val x gen] ∧
      CtlOnly s t ∧
      ∀ k, k ≠ c.val → t.cell k = s.cell k) ∧
  (∀ s (ctx : BitVec 17) ce,
    let x := s.ctxOf ctx.toNat
    x.st = .live → x.installed = false → x.relWanted = none → x.partner = none → x.shadow = false →
    (∀ n ∈ x.acks, s.fabric.ctl.count (.installAck n ctx.toNat x.gen) = 1) →
    ∃ t, exec (.installAck ⟨ctx, ce⟩) s = .next t ∧ (t.ctxOf ctx.toNat).installed = true ∧
      (t.ctxOf ctx.toNat).acks = [] ∧ (t.ctxOf ctx.toNat).st = .live ∧
      (∀ n ∈ x.acks, t.fabric.ctl.contains (.installAck n ctx.toNat x.gen) = false) ∧
      (∀ (n : Fin 128) y, x.asker = some (n.val, y) → (s.bank (.cell n) y).ctxReq = some (x.graph, none) →
        (t.bank (.cell n) y).ctxReq = some (x.graph, some ctx.toNat))) ∧
  (∀ s (c : Fin 128) (ctx : BitVec 17) ce cg x gen,
    let pick := fun (m : Ctl) => match m with
      | .uninstall k _ y _ => k == c.val && y == ctx.toNat
      | _ => false
    s.ctlNext pick = some (.uninstall c.val cg x gen) → s.fabric.iso.contains c.val = false →
    (s.cell c.val).cellGen.toNat = cg →
    ∃ t, exec (.contextUninstall c ⟨ctx, ce⟩) s = .next t ∧ (t.cell c.val).current x gen = false ∧
      (t.cell c.val).pal.sweeps = (s.cell c.val).pal.sweeps ++ [(x, gen)] ∧
      (t.cell c.val).pal.entries = (s.cell c.val).pal.entries) ∧
  (∀ s (ctx : BitVec 17), (s.ctxOf ctx.toNat).st = .held →
    (s.ctxOf ctx.toNat).count.get 0 (((s.ctxOf ctx.toNat).gen + 9) % 16) = 0 → (s.ctxOf ctx.toNat).orphan = false →
    ∃ t, exec (.contextFree ctx) s = .next t ∧ (t.ctxOf ctx.toNat).st = .free ∧
      (∀ c, c ≠ ctx.toNat → t.ctxOf c = s.ctxOf c) ∧ t = { s with reeve := t.reeve, cellar := t.cellar }) ∧
  (∀ s (r : Fin 64) x,
    let pick := fun (x : Running) => x.ring == r.val && (match x.wait with | .start _ none => true | _ => false)
    s.host.running.find? pick = some x → x.live = true → s.host.running.filter (· == x) = [x] →
    ∃ t, exec (.startWaitExpiry r) s = .next t ∧ x.t0 + s.reeve.startWait ≤ t.time.now ∧
      t.host.running = s.host.running.filter (fun y => !(y == x)) ∧
      (∃ it, (t.cmdRing r.val).item = some it ∧ it.status = eNoRes ∧ it.tag = x.desc.tag ∧ it.cseq = x.desc.cseq) ∧
      t.reeve.cnt = s.reeve.cnt.bump ReeveCtr.startTimeout.ctorIdx 1)

/-- R62, R63, R111, R322: spills. -/
def Obligations.CellarSpills : Prop :=
  (∀ s (c : Fin 128) sp rest, (s.cell c.val).pal.spills = sp :: rest → sp.page = none →
    let v := (s.cell c.val).pal.spillVictims sp.group sp.set
    (s.nextPage = none → ∃ t, exec (.spillPageGrant c) s = .next t ∧ (t.cell c.val).pal.spills = rest ∧
      t.cellar.pages = s.cellar.pages ∧
      t.cellar.cnt = s.cellar.cnt.bump CellarCtr.cellarEmpty.ctorIdx 1) ∧
    (∀ pg, s.nextPage = some pg → v = [] → ∃ t, exec (.spillPageGrant c) s = .next t ∧
      (t.cell c.val).pal.spills = rest ∧ t.cellar.pages = s.cellar.pages ∧ t.cellar.cnt = s.cellar.cnt) ∧
    (∀ pg, s.nextPage = some pg → v ≠ [] → ∃ t, exec (.spillPageGrant c) s = .next t ∧
      t.cellar.pages = s.cellar.pages.set none pg
        (some { cell := c.val, group := sp.group, linked := false, tSpill := 0, slots := [] }) ∧
      t.cellar.channel = (pg % 64 + 1) % 64 ∧
      (t.cell c.val).pal.spills = { sp with page := some pg, victims := v } :: rest ∧
      (t.cell c.val).pal.entries = (s.cell c.val).pal.entries)) ∧
  (∀ s (c : Fin 128) (slot : Fin 64) sp pg p set way, (s.cell c.val).pal.spills = [sp] →
    sp.page = some pg → s.cellar.pages.get none pg = some p →
    sp.victims.find? (fun v => v.1 % 64 == slot.val) = some (set, way) → sp.acked.contains slot.val = false →
    ∃ t, exec (.spillSlotAck c ⟨slot, []⟩) s = .next t ∧
      t.cellar.pages.get none pg =
        some { p with slots := p.slots.ins slot.val ((s.cell c.val).pal.at (4 * set + way)) } ∧
      (t.cell c.val).pal.at (4 * set + way) = {} ∧
      (∀ k, k ≠ 4 * set + way → (t.cell c.val).pal.at k = (s.cell c.val).pal.at k) ∧
      (t.cell c.val).pal.spills = [{ sp with acked := sp.acked ++ [slot.val] }] ∧
      (t.cell c.val).pal.depth.get 0 set = ((s.cell c.val).pal.depth.get 0 set + 1) % 2 ^ 32) ∧
  (∀ s (c : Fin 128) sp rest pg p, (s.cell c.val).pal.spills = sp :: rest → sp.page = some pg →
    (∀ v ∈ sp.victims, v.1 % 64 ∈ sp.acked) → s.cellar.pages.get none pg = some p → p.slots ≠ [] →
    ∃ t, exec (.spillLink c) s = .next t ∧ (t.cell c.val).pal.spills = rest ∧
      (sp.parities = [] →
        t.cellar.pages.get none pg = some { p with linked := true, tSpill := s.time.t64 } ∧
        t.cellar.lists.get [] (32 * c.val + sp.group) = pg :: s.cellar.lists.get [] (32 * c.val + sp.group)) ∧
      ∀ x ∈ sp.parities, ∀ q, t.cellar.pages.get none pg = some q →
        ∀ e ∈ q.slots, e.2.hasParity x.1 x.2.1 x.2.2 = false)

/-- R64, R73, R112, R118: page-ins and the purge. -/
def Obligations.CellarPageIns : Prop :=
  (∀ s (c : Fin 128) (i : Fin 4) r, s.pageinAt c.val i.val = some r → r.taken = false →
    (s.cellar.pageins.filter fun p => p.taken).length < 16 →
    (∀ sp ∈ (s.cell c.val).pal.spills, sp.page = none ∨ sp.group ≠ r.set / 64) →
    let l := s.cellar.lists.get [] (32 * c.val + r.set / 64)
    let holds := fun pg => ∃ e, s.cellar.slotAt pg (r.set % 64) = some e ∧ e.sameKey r.key = true
    let done := fun (t : State) (y : PageIn) => t.cellar.pages = s.cellar.pages ∧ t.cells = s.cells ∧
      t.cellar.pageins = s.cellar.pageins.map fun q => if q == r then y else q
    ((∀ pg ∈ l, ¬holds pg) → ∃ t, exec (.pageinRequest c i []) s = .next t ∧
      done t { r with taken := true, none := true } ∧
      t.cellar.cnt = s.cellar.cnt.bump CellarCtr.headerWalk.ctorIdx l.length) ∧
    (∀ a pg b, l = a ++ pg :: b → (∀ p ∈ a, ¬holds p) → holds pg →
      ∃ t rest, exec (.pageinRequest c i []) s = .next t ∧ rest.length ≤ 8 ∧
        (∀ x ∈ rest, x.1 = pg ∧ x.2.1 ≠ r.set % 64 ∧ r.mask.testBit x.2.1 = true ∧
          ∃ p, s.cellar.pages.get none pg = some p ∧ x.2 ∈ p.slots) ∧
        done t { r with taken := true, slots := (pg, r.set % 64, r.key) :: rest } ∧
        t.cellar.cnt = s.cellar.cnt.bump CellarCtr.headerWalk.ctorIdx (a.length + 1))) ∧
  (∀ s (c : Fin 128) (i : Fin 4) r, s.pageinAt c.val i.val = some r → r.taken = true → r.none = true →
    ∃ t, exec (.pageinNone c i) s = .next t ∧ t.cellar.pageins = s.cellar.pageins.erase r ∧
      (t.cell c.val).pal.entries = (s.cell c.val).pal.entries ∧
      (t.cell c.val).pal.wait.map (·.1) = (s.cell c.val).pal.wait.map (·.1) ∧
      (∀ e ∈ (t.cell c.val).pal.wait, e.2 = .pagein → r.key.sameKey (keyEntryOf e.1.tag) = false) ∧
      t.cellar.cnt = s.cellar.cnt.bump CellarCtr.pageinNone.ctorIdx 1) ∧
  (∀ s (c : Fin 128) (i : Fin 4) r pg p slot key e, s.pageinAt c.val i.val = some r →
    s.cellar.pageins.count r = 1 → r.got = none → r.slots = [(pg, slot, key)] → key.sameKey r.key = true →
    s.cellar.pages.get none pg = some p → p.linked = true → p.cell = c.val → p.group = r.set / 64 →
    s.cellar.slotAt pg slot = some e → e.sameKey key = true →
    (s.cell c.val).current e.ctx e.gen = true → (s.cell c.val).pal.wait = [] →
    let set := 64 * (r.set / 64) + slot
    ∃ t, exec (.pageinReturn c i ⟨.none, .none⟩) s = .next t ∧ t.cellar.slotAt pg slot = none ∧
      (t.cell c.val).pal.depth.get 0 set = (s.cell c.val).pal.depth.get 0 set - 1 ∧
      ((s.cell c.val).pal.freeWay set 2 = none →
        t.cellar.pageins = (s.cellar.pageins.map fun y =>
          if y == r then { r with slots := [], got := some (set, e, true) } else y) ∧
        (t.cell c.val).pal.entries = (s.cell c.val).pal.entries) ∧
      (∀ w, (s.cell c.val).pal.freeWay set 2 = some w → (s.cell c.val).pal.shBlocks + e.blocks ≤ 3584 →
        r ∉ t.cellar.pageins ∧ (∀ y, y ≠ r → (y ∈ t.cellar.pageins ↔ y ∈ s.cellar.pageins)) ∧
        let f := (t.cell c.val).pal.at (4 * set + w)
        f.sameKey e = true ∧ f.st = e.st ∧ f.need = e.need ∧ f.cls = e.cls ∧
        ∀ p, p < 3 → (f.port p).map (fun o => (o.words, o.poison, o.spilled)) =
          (e.port p).map fun o => (o.words, o.poison, true))) ∧
  (∀ s ctx gen rest, s.cellar.purges = (ctx, gen) :: rest →
    ∃ t, exec (.cellarPurge []) s = .next t ∧ t.cellar.purges = rest ∧
      ∀ l ∈ s.cellar.lists, ∀ pg ∈ l.2, ∀ p, t.cellar.pages.get none pg = some p →
        ∀ e ∈ p.slots, ¬(e.2.ctx = ctx ∧ e.2.gen = gen))

/-- R124-R127: the stall detector. -/
def Obligations.StallDetector : Prop :=
  (∀ s, s.cellar.stall = .run → exec .stallTimerExpiry s = .next s) ∧
  (∀ s, s.cellar.stall ≠ .run →
    let u := s.reach (s.cellar.stallAt + 50000)
    ((u.stallC2 && u.stallC3) = false →
      exec .stallTimerExpiry s = .next { u with cellar := { u.cellar with stall := .run } }) ∧
    ((u.stallC2 && u.stallC3) = true → s.cellar.stall = .armed →
      ∃ t, exec .stallTimerExpiry s = .next t ∧ t.cellar.stall = .escape ∧
        t.cellar.escapeAt = u.time.now ∧ t.cellar.stallAt = u.time.now ∧
        (s.victim = none → t.reeve = s.reeve ∧
          t.cellar.cnt = (s.cellar.cnt.bump CellarCtr.stallDeclared.ctorIdx 1).bump
            CellarCtr.stallNoCandidate.ctorIdx 1) ∧
        (∀ c x, s.victim = some (c, x) → (s.ctxOf c).installed = true → (t.ctxOf c).st ≠ .live))) ∧
  (∀ s, let next := s.reeve.actNext
    ∃ t, exec .ageSweep s = .next t ∧ t = { s with reeve := { s.reeve with ctx := t.reeve.ctx } } ∧
      t.reeve.ctx = s.reeve.ctx.map fun e =>
        (e.1, if e.2.st = .live ∧ 2 ^ 30 < (next + 2 ^ 32 - e.2.actSeq) % 2 ^ 32
          then { e.2 with actSeq := (next + 2 ^ 32 - 2 ^ 30) % 2 ^ 32 } else e.2))

/-- R495-R506: writes of the setup registers. -/
def Obligations.SetupRegisters : Prop :=
  (∀ s o v, s.host.linkUp = true → o ∈ [0x8, 0x20, 0x24, 0x28, 0x30, 0x34, 0x38, 0x3C, 0x1010, 0x1018,
      0x2008, 0x200C, 0x2010] → v < 2 ^ 32 → s.violations o v = [] →
    ∃ t, exec (.setupRegisterWrite (BitVec.ofNat 20 o) 4#4 (BitVec.ofNat 64 v)) s = .next t ∧
      t.readReg o = v ∧ t = { s with setup := t.setup, time := t.time }) ∧
  (∀ s v, s.host.linkUp = true → s.serving = true → s.setup.ringEn = false → v < 2 ^ 64 → v % 4096 = 0 →
    ∃ t, exec (.setupRegisterWrite 0x20#20 8#4 (BitVec.ofNat 64 v)) s = .next t ∧
      t = { s with setup := { s.setup with crBase := BitVec.ofNat 64 v } }) ∧
  (∀ s (o : BitVec 20) (v : BitVec 64) code l, s.host.linkUp = true → o.toNat < 0xF0000 → o.toNat % 4 = 0 →
    s.violations o.toNat (v.toNat % 2 ^ 32) = code :: l → (∃ k ∈ code :: l, k ≠ 0x03) →
    exec (.setupRegisterWrite o 4#4 v) s = .next { s with setup := { s.setup with
      violCount := s.setup.violCount + 1
      err := some (s.setup.err.getD (o.toNat, code)) } }) ∧
  (∀ s, s.host.linkUp = true → s.serving = true →
    let u := s.setup
    let ok := fun (x : BitVec 4) => 4 ≤ x.toNat ∧ x.toNat ≤ 12
    (u.ringEn = false → ok u.crSize ∧ ok u.cqSize → ∃ t, exec (.ringEnWrite 1#32) s = .next t ∧
      t.cmdRing 0 = { en := true, base := u.crBase, sizeLog2 := u.crSize.toNat } ∧
      t.cplRing 0 = { en := true, base := u.cqBase, sizeLog2 := u.cqSize.toNat, vector := u.cqVector.toNat
                      thresh := 1, armed := true } ∧
      t.setup = { u with ringEn := true, ringsUp := true } ∧
      (∀ r, r ≠ 0 → t.cmdRing r = s.cmdRing r ∧ t.cplRing r = s.cplRing r)) ∧
    (u.ringEn = false → ¬(ok u.crSize ∧ ok u.cqSize) →
      ∃ n, exec (.ringEnWrite 1#32) s = .next { s with setup := { u with
        ringEn := true, ringErr := true, errCode := n } } ∧ (n = 1 ↔ ¬ok u.crSize) ∧ (n = 2 ↔ ok u.crSize)) ∧
    (u.ringEn = true → ∃ t, exec (.ringEnWrite 0#32) s = .next t ∧ t.host.cmd = [] ∧ t.host.cpl = [] ∧
      (∀ x ∈ t.host.running, x.live = false) ∧
      t.setup = { u with ringEn := false, ringsUp := false, ringErr := false, errCode := 0 }))

/-- R501-R504: the timebase. -/
def Obligations.Timebase : Prop :=
  (∀ s wide, s.host.linkUp = true → s.serving = true →
    exec (.t64LoRead wide) s = .next { s with
      time := { s.time with t64Hi := s.time.t64.extractLsb' 32 32 }
      out := s.out ++ [.readData (leBytes (if wide then 8 else 4) s.time.t64.toNat) false] } ∧
    exec (.ppsInLoRead wide) s = .next { s with
      time := { s.time with ppsHiLatch := s.time.ppsT.extractLsb' 32 32
                            ppsInfoLatch := s.time.ppsSeq ++ 0#14 ++ s.time.ppsFrac }
      out := s.out ++ [.readData (leBytes (if wide then 8 else 4) s.time.ppsT.toNat) false] }) ∧
  (∀ s (v : BitVec 32), s.host.linkUp = true →
    (s.violations 0x1010 v.toNat = [] → exec (.tbFreqAdjWrite v) s =
      .next { s with time := { s.time with freqAdj := v } }) ∧
    (s.violations 0x1014 v.toNat = [] → s.time.slewing = false → exec (.tbPhaseAdjWrite v) s =
      .next { s with time := { s.time with
        phaseRem := v.toInt * 65536000000, phaseLast := v, slewing := v.toInt != 0 } }) ∧
    (s.violations 0x101C v.toNat = [] →
      let new := v ++ s.time.setLo
      let w : State := { s with time := { s.time with
        setHi := v, t64 := new, frac := 0, phaseRem := 0, slewing := false, ppsOut := false } }
      let b := new.toNat / 25 * 25
      let short := (s.time.now - s.fabric.slotAt) + (b + 25 - new.toNat) < 20
      ∃ t, exec (.tbSetHiWrite v) s = .next t ∧ t.time = w.time ∧
        (s.slotsDue = 0 → t = State.postEvent { w with fabric := { s.fabric with
          slotT := BitVec.ofNat 64 (if short then b + 25 else b) } } 448 0xE8 s.time.t64.toNat new.toNat)) ∧
    (∀ o c l, (o = 0x1010 ∨ o = 0x1014 ∨ o = 0x101C) → s.violations o v.toNat = c :: l → (∃ k ∈ c :: l, k ≠ 0x03) →
      exec (if o = 0x1010 then .tbFreqAdjWrite v else if o = 0x1014 then .tbPhaseAdjWrite v
        else .tbSetHiWrite v) s = .next { s with setup := { s.setup with
          violCount := s.setup.violCount + 1
          err := some (s.setup.err.getD (o, c)) } })) ∧
  (∀ s, s.time.slewing = true →
    let u := s.elapse ((s.time.phaseRem.natAbs + 3276799) / 3276800)
    exec .slewDone s = .next (State.postEvent { u with time := { u.time with slewing := false } }
      448 0xE9 (s.time.phaseLast.signExtend 64).toNat)) ∧
  (∀ s falling quarter, s.time.ppsInEn = true → s.time.ppsLevel ≠ some (!falling) →
    let u := if s.time.ppsLevel.isSome then s.reach (s.time.ppsRaw + 20) else s
    let seen : Time := { u.time with ppsLevel := some (!falling), ppsRaw := u.time.now }
    (falling ≠ s.setup.ppsInEdge → exec (.ppsInEdge falling quarter) s = .next { u with time := seen }) ∧
    (falling = s.setup.ppsInEdge → (∀ t, s.time.ppsPrev = some t → t + 500000000 ≤ u.time.now) →
      s.watch.levels.contains (241, 0x91) = false →
      exec (.ppsInEdge falling quarter) s = .next { u with time := { seen with
        ppsT := u.time.t64, ppsFrac := quarter, ppsSeq := s.time.ppsSeq + 1, ppsLost := false
        ppsPrev := some u.time.now, ppsArm := u.time.now } })) ∧
  (∀ s, s.time.ppsInEn = true → s.time.ppsLost = false → s.watch.levels.contains (241, 0x91) = false →
    ∃ t, exec .ppsLossTimeout s = .next t ∧ t.time.ppsLost = true ∧ s.time.ppsArm + 1500000000 ≤ t.time.now ∧
      t.watch.levels = s.watch.levels ++ [(241, 0x91)] ∧ Raised t 241 0x91 0 ∧
      t = { s with time := t.time, watch := t.watch }) ∧
  (∀ s, s.time.ppsOutEn = true → s.time.ppsOut = false →
    let u := s.reachT64 ((s.time.t64.toNat / 1000000000 + 1) * 1000000000)
    exec .ppsOutPulse s = .next { u with time := { u.time with ppsOut := true, ppsRise := u.time.now } }) ∧
  (∀ s, s.time.ppsOut = true →
    let u := s.reach (s.time.ppsRise + 1000000 * s.setup.ppsOutWidth)
    exec .ppsOutPulseEnd s = .next { u with time := { u.time with ppsOut := false } })

/-- R386-R391, R411: what the host does to the hub. -/
def Obligations.HostWindows : Prop :=
  (∀ s (r : Fin 64) (size : BitVec 4) (v : BitVec 32), s.host.linkUp = true → s.serving = true →
    let c := s.cmdRing r.val
    let i := Instr.tailDoorbell (BitVec.ofNat 16 (256 * r.val)) size v
    let ok := size = 4#4 ∧ c.en = true ∧ v.toNat < 2 ^ c.sizeLog2 ∧ v.toNat < 2 ^ 12 ∧
      (s.power.phase ≠ .lantern ∨ r.val = 0)
    let cnt := s.host.cnt.bump HostCtr.dbWrites.ctorIdx 1
    let cmd := s.host.cmd.upd {} r.val fun c => { c with tail := v.toNat }
    (ok → exec i s = .next { s with
      host := { s.host with cnt := cnt, cmd := cmd }
      steward := { s.steward with evPend := s.steward.evPend ||| 1#7 } }) ∧
    (¬ok → exec i s = .next { s with host := { s.host with cnt := cnt.bump HostCtr.dbBad.ctorIdx 1 } })) ∧
  (∀ s (q : Fin 64) (size : BitVec 4) (v : BitVec 32), s.host.linkUp = true → s.serving = true →
    let c := s.cplRing q.val
    let n := 2 ^ c.sizeLog2
    let h := v.toNat % 2 ^ 12
    let i := Instr.headDoorbell (BitVec.ofNat 16 (0x8000 + 256 * q.val)) size v
    let ok := size = 4#4 ∧ c.en = true ∧ v.toNat < 2 ^ 13 ∧ h < n ∧
      (h + n - c.head) % n ≤ (c.rseq.toNat % n + n - c.head) % n ∧ (s.power.phase ≠ .lantern ∨ q.val = 0)
    let cnt := s.host.cnt.bump HostCtr.dbWrites.ctorIdx 1
    (¬ok → exec i s = .next { s with host := { s.host with cnt := cnt.bump HostCtr.dbBad.ctorIdx 1 } }) ∧
    let left := (c.rseq.toNat % n + n - h) % n
    let put := fun (y : CplRing) => s.host.cpl.set {} q.val y
    let armed : CplRing := { c with
      head := h, armed := true, oldest := if left = 0 then none else some s.time.now }
    let fires := left ≠ 0 ∧ (c.thresh ≤ c.since ∨ c.holdoff = 0) ∧ s.host.msixEn = true
    let quiet : CplRing := { c with head := h, armed := false, since := 0, oldest := none }
    let e := s.host.msix.get {} c.vector
    (ok → v.getLsbD 12 = false → exec i s = .next { s with
      host := { s.host with cnt := cnt, cpl := put { c with head := h } } }) ∧
    (ok → v.getLsbD 12 = true → ¬fires → exec i s = .next { s with
      host := { s.host with cnt := cnt, cpl := put armed } }) ∧
    (ok → v.getLsbD 12 = true → fires → e.masked = false ∧ s.busMaster = true → exec i s = .next { s with
      host := { s.host with cnt := cnt.bump HostCtr.msixSent.ctorIdx 1, cpl := put quiet }
      out := s.out ++ [.msix c.vector e.addr e.data] }) ∧
    (ok → v.getLsbD 12 = true → fires → ¬(e.masked = false ∧ s.busMaster = true) → exec i s = .next { s with
      host := { s.host with cnt := cnt, cpl := put quiet, pba := s.host.pba ||| (1#64 <<< c.vector) } })) ∧
  (∀ s (offset : BitVec 32) (len : Fin 4097) ue, s.host.linkUp = true → s.serving = true →
    let cnt := s.host.cnt.bump HostCtr.bar4Reads.ctorIdx 1
    exec (.bar4Read offset len ue) s = .next { s with
      host := { s.host with cnt := if ue then cnt.bump HostCtr.bar4Poison.ctorIdx 1 else cnt }
      out := s.out ++ [.readData ((List.range len.val).map fun i => s.bar4Byte ((offset.toNat + i) % 2 ^ 32)) ue] } ∧
    exec (.bar4Write offset) s = .next { s with
      host := { s.host with cnt := s.host.cnt.bump HostCtr.bar4WriteDrop.ctorIdx 1 } }) ∧
  (∀ s k, ∃ src, exec (.hostReset k) s = .next { s with
      host := { s.host with
        cmd := [], cpl := [], running := s.host.running.map fun x => { x with live := false }
        src := src, msix := [], pba := 0, msixEn := false, bme := false, d3hot := false
        linkUp := if k = .linkDown then false else s.host.linkUp
        cnt := s.host.cnt.bump HostCtr.cplDiscard.ctorIdx
          ((List.range 64).filter fun r => (s.cmdRing r).item.isSome).length }
      setup := { s.setup with
        ringEn := false, ringsUp := false, ringErr := false, errCode := 0, crBase := 0, crSize := 0
        cqBase := 0, cqSize := 0, cqVector := 0 } } ∧
    (∀ e, (src.get {} e).ring = 0 ∧ (src.get {} e).en = true) ∧
    (s.host.src.wf {} = true → ∀ e, (src.get {} e).pend = (s.host.src.get {} e).pend)) ∧
  (∀ s bme d3hot en,
    let i := Instr.pcieConfigWrite bme d3hot en
    let u := { s with host := { s.host with bme := bme, d3hot := d3hot, msixEn := en } }
    let open_ := bme = true ∧ d3hot = false ∧ s.host.linkUp = true ∧ en = true
    (¬open_ → exec i s = .next u) ∧
    (open_ → s.host.pba = 0 → (∀ q, (s.cplRing q).due s.time.now = false) → exec i s = .next u) ∧
    (open_ → ∃ t, exec i s = .next t ∧ t.host.bme = true ∧ t.host.d3hot = false ∧ t.host.msixEn = true ∧
      (∀ v : Fin 64, (s.host.msix.get {} v.val).masked = false → t.host.pba.getLsbD v.val = false) ∧
      (∀ q : Fin 64, (t.cplRing q.val).due s.time.now = false) ∧
      t = { s with host := t.host, out := t.out })) ∧
  (∀ s (v : Fin 64),
    let e := s.host.msix.get {} v.val
    let x := s.host.msix.set {} v.val { e with masked := false }
    (s.host.pba.getLsbD v.val = false →
      exec (.msixVectorUnmask v) s = .next { s with host := { s.host with msix := x } }) ∧
    (s.host.msixEn = false ∨ s.busMaster = false →
      exec (.msixVectorUnmask v) s = .next { s with host := { s.host with msix := x } }) ∧
    (s.host.pba.getLsbD v.val = true → s.host.msixEn = true → s.busMaster = true → exec (.msixVectorUnmask v) s = .next { s with
      host := { s.host with msix := x, pba := s.host.pba &&& ~~~(1#64 <<< v.val)
                            cnt := s.host.cnt.bump HostCtr.msixSent.ctorIdx 1 }
      out := s.out ++ [.msix v.val e.addr e.data] }))

/-- R397, R405-R411: completions and events. -/
def Obligations.Completions : Prop :=
  (∀ s (ev : Fin 512), s.host.evtItem = none → s.serving = true → s.pendEvs = [ev.val] →
    ∃ t, exec (.eventRecordWrite ev) s = .next t ∧ t.host.evtItem = some ev.val ∧
      t = { s with host := { s.host with
        evtItem := t.host.evtItem, evtHeld := false, evtRun := t.host.evtRun, evtNext := t.host.evtNext } }) ∧
  (∀ s (r : Fin 64) it, s.serving = true → s.busMaster = true → s.host.msixEn = false →
    s.host.evtItem = none → (s.cmdRing r.val).item = some it →
    (∀ k, k < 64 → k ≠ r.val → (s.cmdRing k).item = none) →
    let q := (s.cmdRing r.val).cplRing
    let c := s.cplRing q
    let size := 2 ^ c.sizeLog2
    let n := c.rseq.toNat
    c.en = true → (n % size + size - c.head) % size + 1 < size →
    let a := c.base.toNat + 32 * (n % size)
    let hi := leBytes 2 it.status ++ leBytes 1 r.val ++ [0#8] ++ leBytes 2 it.cseq.toNat ++
      leBytes 2 it.opcode.toNat ++ leBytes 4 it.detail ++ leBytes 8 it.tag.toNat ++ leBytes 8 it.result
    let rec0 := [0x01#8, if n / size % 2 = 0 then 1#8 else 0#8] ++ leBytes 2 n ++ hi
    ∃ t, exec .completionWrite s = .next t ∧
      t.out = s.out ++ (if it.out = [] then [] else [.hostWrite it.haddr.toNat it.out true]) ++
        [.hostWrite (a + 8) (rec0.drop 8) false, .hostWrite a (rec0.take 8) false] ∧
      (t.cplRing q).rseq = c.rseq + 1 ∧ (t.cmdRing r.val).item = none ∧
      (∀ k, k ≠ r.val → t.cmdRing k = s.cmdRing k) ∧ t = { s with host := t.host, out := t.out }) ∧
  (∀ s ev x, s.serving = true → s.busMaster = true → s.host.msixEn = false →
    s.host.evtItem = some ev → (s.host.src.get {} ev).pend = some x → (∀ k, k < 64 → (s.cmdRing k).item = none) →
    let q := (s.host.src.get {} ev).ring
    let c := s.cplRing q
    let size := 2 ^ c.sizeLog2
    c.en = true → (c.rseq.toNat % size + size - c.head) % size + 1 < size →
    ∃ t, exec .completionWrite s = .next t ∧ t.host.evtItem = none ∧
      (t.host.src.get {} ev).pend = none ∧ (t.cplRing q).rseq = c.rseq + 1 ∧
      t.out.length = s.out.length + 2 ∧ t = { s with host := t.host, out := t.out }) ∧
  (∀ s (q : Fin 64) o, (s.cplRing q.val).en = true → (s.cplRing q.val).armed = true →
    (s.cplRing q.val).oldest = some o → s.host.msixEn = true → s.busMaster = true →
    let e := s.host.msix.get {} (s.cplRing q.val).vector
    e.masked = false → ∃ t, exec (.holdoffExpiry q) s = .next t ∧
      o + 1000 * (s.cplRing q.val).holdoff ≤ t.time.now ∧ (t.cplRing q.val).armed = false ∧
      t.out = s.out ++ [.msix (s.cplRing q.val).vector e.addr e.data] ∧
      t = { s with host := t.host, time := t.time, out := t.out }) ∧
  (∀ s (src : BitVec 8) (k : Token), k.tag.dest.toNat = 0x95 → s.arrivable src.toNat k = true →
    let i := Instr.graphEventToken src k {}
    (s.cutOff 0x90 = true → ∃ t, exec i s = .next t ∧ LeftFabric s t src k ∧ t.host = s.host) ∧
    (s.cutOff 0x90 = false → k.tag.bell = true → ∃ t, exec i s = .next t ∧ LeftFabric s t src k ∧
      t.host.cnt = s.host.cnt.bump HostCtr.evtBellDrop.ctorIdx 1 ∧ t.host.src = s.host.src) ∧
    (s.cutOff 0x90 = false → k.tag.bell = false → k.tag.esel.toNat < 64 →
      let e := s.host.src.get {} (384 + k.tag.esel.toNat)
      let r : EvtRec :=
        { cause := 0x70, count := 1, t64 := s.time.t64
          data0 := (k.word 0 + k.word 1 * 2 ^ 32) % 2 ^ 64
          data1 := (k.tag.ctx.toNat + k.tag.gen.toNat * 2 ^ 17 + k.tag.cls.toNat * 2 ^ 21 +
            k.tag.iter.toNat * 2 ^ 23) % 2 ^ 64
          poison := k.tag.poison, coalesced := false, trunc := decide (1 < k.tag.len.toNat) }
      e.en = true → e.pend = none → ∃ t, exec i s = .next t ∧ LeftFabric s t src k ∧
        t.host.src.get {} (384 + k.tag.esel.toNat) = { e with pend := some r }))

namespace Sys2Proof.Claims
open Sys2Proof.Machine

/-! ## Host commands (15_host.md) -/

/-- A command of the rings: its ring, its descriptor, its opcode, and whether it is served in Lantern
mode (R398, R487). -/
def cmdOf : Instr → Option (Fin 64 × Desc × Nat × Bool)
  | .nop r d _ => some (r, d, 0x0001, true)
  | .identify r d _ => some (r, d, 0x0002, true)
  | .createCmdRing r d _ => some (r, d, 0x0003, false)
  | .createCplRing r d _ => some (r, d, 0x0004, false)
  | .deleteRing r d _ => some (r, d, 0x0005, false)
  | .eventRoute r d _ => some (r, d, 0x0006, false)
  | .statistics r d _ => some (r, d, 0x0007, true)
  | .hostInject r d _ => some (r, d, 0x0008, false)
  | .loadGraph r d _ _ => some (r, d, 0x0101, false)
  | .unloadGraph r d _ => some (r, d, 0x0102, false)
  | .startGraph r d _ => some (r, d, 0x0103, false)
  | .stopGraph r d _ => some (r, d, 0x0104, false)
  | .graphEnable r d _ => some (r, d, 0x0105, false)
  | .setGroup r d _ => some (r, d, 0x0106, false)
  | .regionCreate r d _ => some (r, d, 0x0107, false)
  | .regionFree r d _ => some (r, d, 0x0108, false)
  | .regionCopy r d _ => some (r, d, 0x0109, false)
  | .bindStream r d _ => some (r, d, 0x0201, false)
  | .unbindStream r d _ => some (r, d, 0x0202, false)
  | .bindImport r d _ => some (r, d, 0x0203, false)
  | .unbindImport r d _ => some (r, d, 0x0204, false)
  | .sensorPortConfig r d _ => some (r, d, 0x0301, false)
  | .actPortConfig r d _ => some (r, d, 0x0302, false)
  | .eventInputConfig r d _ => some (r, d, 0x0303, false)
  | .reeveConfig r d _ => some (r, d, 0x0304, false)
  | .cellarConfig r d _ => some (r, d, 0x0305, false)
  | .slotAlloc r d _ => some (r, d, 0x0306, false)
  | .epochConfig r d _ => some (r, d, 0x0307, false)
  | .chainConfig r d _ => some (r, d, 0x0308, false)
  | .readResults r d _ => some (r, d, 0x0401, false)
  | .readReport r d _ => some (r, d, 0x0402, false)
  | .exqRead r d _ => some (r, d, 0x0403, false)
  | .enumerate r d _ => some (r, d, 0x0501, false)
  | .chainSend r d _ => some (r, d, 0x0502, false)
  | .noticeSend r d _ => some (r, d, 0x0503, false)
  | .nbProgram r d _ => some (r, d, 0x0504, false)
  | .tripConfig r d _ => some (r, d, 0x0505, false)
  | .cellFlush r d _ => some (r, d, 0x0601, false)
  | .selfTest r d _ => some (r, d, 0x0602, false)
  | .watchConfig r d _ => some (r, d, 0x0701, false)
  | .faultForce r d _ => some (r, d, 0x0702, false)
  | .faultClear r d _ => some (r, d, 0x0703, true)
  | .faultLogRead r d _ => some (r, d, 0x0704, true)
  | .fwUpdate r d _ => some (r, d, 0x0705, true)
  | .keyProvision r d _ => some (r, d, 0x0706, false)
  | .debugEnable r d _ => some (r, d, 0x0707, false)
  | .fuseLock r d _ => some (r, d, 0x0708, false)
  | .reseal r d _ => some (r, d, 0x0709, true)
  | .lanternDiag r d _ => some (r, d, 0x070A, true)
  | .restart r d _ => some (r, d, 0x070B, true)
  | _ => none

/-- The ring's next descriptor is this one, of opcode `op`, and is as every command wants it: next in
sequence, nothing set that must be clear, its buffer aligned and large enough, the device in a mode
that serves it (R392-R395, R398, R421, R487). -/
structure Comes (s : State) (r : Fin 64) (d : Desc) (op : Nat) (sizes : List Nat) (need : Nat)
    (lantern halted : Bool) : Prop where
  turn    : s.fetchTurn r.val = true
  opcode  : d.opcode.toNat = op
  order   : d.cseq = (s.cmdRing r.val).cseq
  flags   : d.dflags.toNat / 2 = 0
  zero    : d.zero = 0
  noBuf   : d.hlen = 0 → d.haddr = 0
  aligned : d.hlen ≠ 0 → d.haddr.toNat % 64 = 0
  words   : d.hlen.toNat % 4 = 0
  bound   : d.hlen.toNat ≤ 2 ^ 28
  room    : need ≤ d.hlen.toNat
  args    : d.stray sizes = []
  phase   : s.power.phase = .lantern → lantern = true
  halt    : s.watch.fstate = .halted → halted = true

/-- The state in which the command acts: the descriptor's slot is consumed, and the device has left
REST unless the command leaves it there (R393, R483). -/
def taken (s : State) (r op : Nat) : State :=
  if sleepOps.contains op then s.fetched r else (s.fetched r).leaveRest

/-- The command is carried out: its effect `f`, then its completion with OK and its RESULT and output
(R397). -/
def Does (i : Instr) (s : State) (r : Fin 64) (d : Desc) (op : Nat) (f : State → State)
    (result : Nat := 0) (out : List Byte := []) : Prop :=
  exec i s = .next ((f (taken s r.val op)).finish r.val d stOk result out)

end Sys2Proof.Claims

/-- R10, R393-R397: what refuses a command before anything of it is done. -/
def Obligations.CommandsRefused : Prop :=
  ∀ i r d op lantern s, cmdOf i = some (r, d, op, lantern) →
    let no := fun (st det res : Nat) =>
      exec i s = .next ((s.fetched r.val).complete r.val d true st det res [])
    let onRing := (op = 3 ∨ op = 4) → r = 0
    let served := (s.power.phase = .lantern → lantern = true) ∧ onRing
    (s.fetchTurn r.val = false → exec i s = .next s) ∧
    (d.opcode.toNat ≠ op → d.opcode.toNat ∈ knownOps → exec i s = .next s) ∧
    (s.fetchTurn r.val = true →
      (d.opcode.toNat = op → s.power.phase = .lantern → lantern = false → no eLantern 0 0) ∧
      (d.opcode.toNat ∉ knownOps ∨ d.opcode.toNat = op ∧ ¬onRing → s.power.phase ≠ .lantern →
        no eOpcode 0 0) ∧
      (d.opcode.toNat = op → served → d.hlen ≠ 0 → d.haddr.toNat % 64 ≠ 0 → no eAlign 16 0) ∧
      (d.opcode.toNat = op → served → (d.hlen = 0 ∨ d.haddr.toNat % 64 = 0) → d.hlen.toNat % 4 = 0 →
        d.cseq ≠ (s.cmdRing r.val).cseq →
        no eRange 2 (s.cmdRing r.val).cseq.toNat ∨ ∃ o, 24 ≤ o ∧ no eAlign o 0))

/-- R391-R400, R407: rings, routes and statistics. -/
def Obligations.RingCommands : Prop :=
  (∀ s (r : Fin 64) d b, Comes s r d 1 [] 0 true false → d.target = 0 →
    ∃ t, exec (.nop r d b) s = .next t ∧
      (t.cmdRing r.val).cseq = (s.cmdRing r.val).cseq + 1 ∧
      (t.cmdRing r.val).item = some { status := 0, cseq := d.cseq, opcode := d.opcode, detail := 0, tag := d.tag
                                      result := 0, irqNow := d.dflags.getLsbD 0, haddr := d.haddr, out := [] } ∧
      (∀ k, k ≠ r.val → t.cmdRing k = s.cmdRing k) ∧
      t.host.cnt = (s.host.cnt.bump HostCtr.descFetched.ctorIdx 1).bump HostCtr.cmdOk.ctorIdx 1 ∧
      t.host.fetchNext = (r.val + 1) % 64 ∧ t.host.running = s.host.running ∧
      t = { s with host := t.host, power := { s.power with restSince := some s.time.now } }) ∧
  (∀ s (r : Fin 64) d b, Comes s r d 2 [] 64 true true → d.target = 0 →
    let l := (taken s r.val 2).identity
    l.length = 64 ∧ Does (.identify r d b) s r d 2 id 64 l) ∧
  (∀ s (r : Fin 64) d b (k q : Fin 64) size, Comes s r d 3 [8, 1, 1] 0 false false → r = 0 → k.val ≠ 0 →
    d.target.toNat = k.val → d.arg [8, 1, 1] 0 % 4096 = 0 → d.arg [8, 1, 1] 1 = size → 4 ≤ size → size ≤ 12 →
    d.arg [8, 1, 1] 2 = q.val → (s.cmdRing k.val).en = false → (s.cplRing q.val).en = true →
    Does (.createCmdRing r d b) s r d 3 (State.modCmd k.val fun _ =>
      { en := true, base := BitVec.ofNat 64 (d.arg [8, 1, 1] 0), sizeLog2 := size, cplRing := q.val })) ∧
  (∀ s (r : Fin 64) d b (k v : Fin 64) size hold thresh, Comes s r d 4 [8, 1, 1, 2, 2] 0 false false →
    r = 0 → k.val ≠ 0 → d.target.toNat = k.val → let arg := d.arg [8, 1, 1, 2, 2]
    arg 0 % 4096 = 0 → arg 1 = size → 4 ≤ size → size ≤ 12 → arg 2 = v.val → arg 3 = hold → hold ≤ 1000 →
    arg 4 = thresh → 1 ≤ thresh → thresh < 2 ^ size → (s.cplRing k.val).en = false →
    Does (.createCplRing r d b) s r d 4 (State.modCpl k.val fun _ =>
      { en := true, base := BitVec.ofNat 64 (arg 0), sizeLog2 := size, vector := v.val
        holdoff := hold, thresh := thresh, armed := true })) ∧
  (∀ s (r : Fin 64) d b (k : Fin 64), Comes s r d 5 [] 0 false false → k.val ≠ 0 →
    (d.target.toNat = k.val → k ≠ r → (s.cmdRing k.val).item = none →
      (∀ x ∈ s.host.running, x.ring = k.val → x.live = false) →
      Does (.deleteRing r d b) s r d 5 (State.modCmd k.val fun _ => {})) ∧
    (d.target.toNat = 128 + k.val → s.ringNamed k.val = false →
      Does (.deleteRing r d b) s r d 5 (State.modCpl k.val fun _ => {}))) ∧
  (∀ s (r : Fin 64) d b first n (q : Fin 64) on, Comes s r d 6 [2, 1, 1] 0 false false →
    d.target.toNat = first → d.arg [2, 1, 1] 0 = n → 1 ≤ n → first + n ≤ 512 → d.arg [2, 1, 1] 1 = q.val →
    d.arg [2, 1, 1] 2 = b2n on → (s.cplRing q.val).en = true →
    ∃ src, Does (.eventRoute r d b) s r d 6 (State.modHost fun h => { h with src := src }) ∧
      ∀ k, src.get {} k = if first ≤ k ∧ k < first + n then { s.host.src.get {} k with ring := q.val, en := on }
        else s.host.src.get {} k) ∧
  (∀ s (r : Fin 64) d b u i v mask, s.unitStats u i = some v → u < 256 → i < 2 ^ 16 →
    Comes s r d 7 [8] (8 * v.length) true true →
    d.target.toNat = u * 2 ^ 24 + i → d.arg [8] 0 = mask → mask &&& w1cFields u = mask →
    (u = 1 → s.testing i = false) →
    let l := ((taken s r.val 7).unitStats u i).getD []
    l.length = v.length ∧
    Does (.statistics r d b) s r d 7 (fun s => s.statsRead u i mask) (8 * v.length) (l.flatMap (leBytes 8)))

/-- R141, R418-R442: the Watch's commands and the flush. -/
def Obligations.WatchCommands : Prop :=
  (∀ s (r : Fin 64) d b bad (c : Fin 128) scope, Comes s r d 0x601 [1] 0 false false → d.target.toNat = c.val →
    d.arg [1] 0 = scope → scope ≤ 2 → (scope ≠ 0 → s.pairClass0 c.val = false) → s.testing c.val = false →
    let q := (s.cell c.val).que
    let k := (if scope = 1 then 0 else q.eb0.length + q.eb1.length) + if scope = 0 then 0 else q.express.length
    Does (.cellFlush r d ⟨b, bad⟩) s r d 0x601 (fun s => s.flush c.val (scope != 1) (scope != 0) bad) k) ∧
  (∀ s (r : Fin 64) d b (k : Fin 16) l p, Comes s r d 0x701 [] 0 false false → d.target.toNat = k.val →
    s.authorised = true → recLen d = [] → b = .data l →
    params [rowEnum 5, rowTime 1000000 600000000000 1000000, rowNat 0 255] d b = .ok p →
    let get := fun n => (p.find? fun e => e.1 == n).map (·.2)
    (∀ x, get 1 = some x → reactionFloor k.val ≤ x ∧
      (x < (s.reactionOf k.val).code → s.watch.lines.getLsbD k.val = false)) →
    Does (.watchConfig r d b) s r d 0x701 (State.modWatch fun w => { w with
      react := match get 1 with
        | some x => w.react.set none k.val
            (if reactionOfNat x = defaultReaction k.val then none else some (reactionOfNat x))
        | none => w.react
      quietNext := (get 2).getD w.quietNext
      budgetNext := (get 3).getD w.budgetNext })) ∧
  (∀ s (r : Fin 64) d b (src : Fin 256), Comes s r d 0x702 [1] 0 false false → d.target.toNat = src.val →
    s.authorised = true →
    (d.arg [1] 0 = 0 → Does (.faultForce r d b) s r d 0x702 fun s => s.unforce src.val) ∧
    (d.arg [1] 0 = 1 → isLevel src.val 0xFE = false →
      Does (.faultForce r d b) s r d 0x702 fun s => s.forceRaise src.val) ∧
    (d.arg [1] 0 = 1 → isLevel src.val 0xFE = true → src.val ∈ s.watch.forceBits →
      Does (.faultForce r d b) s r d 0x702 id) ∧
    (d.arg [1] 0 = 1 → isLevel src.val 0xFE = true → src.val ∉ s.watch.forceBits →
      Does (.faultForce r d b) s r d 0x702 fun s =>
        (s.modWatch fun w => { w with forceBits := w.forceBits ++ [src.val] }).forceRaise src.val)) ∧
  (∀ s (r : Fin 64) d b, Comes s r d 0x703 [] 0 true false → d.target = 0 → s.authorised = true →
    s.watch.fstate = .faulted → s.watch.levels = [] → s.watch.forceBits = [] →
    Does (.faultClear r d b) s r d 0x703 fun s =>
      let u := s.modWatch fun w => { w.toIdle with
        recTimes := [], cnt := w.cnt.bump WatchCtr.clears.ctorIdx 1 }
      u.postEvent 336 0x92 (u.watch.cnt.get 0 WatchCtr.clears.ctorIdx)) ∧
  (∀ s (r : Fin 64) d b from_ n, Comes s r d 0x704 [2, 2] (32 * n) true true → d.target = 0 →
    d.arg [2, 2] 0 = from_ → from_ ≤ 1023 → d.arg [2, 2] 1 = n → 1 ≤ n → n ≤ 1024 → s.watch.logLost = false →
    let l := (s.watch.log.drop from_).take n
    Does (.faultLogRead r d b) s r d 0x704 id l.length (l.flatMap LogEntry.bytes)) ∧
  (∀ s (r : Fin 64) d b (k : Fin 64), Comes s r d 0x707 [1] 0 false false → s.authorised = true →
    (d.target = 0 → d.arg [1] 0 = 1 → Does (.debugEnable r d b) s r d 0x707 State.breakSteward) ∧
    (d.target.toNat = 2 ^ 24 + k.val → s.testing (2 * k.val) = false → s.testing (2 * k.val + 1) = false →
      (d.arg [1] 0 = 1 → Does (.debugEnable r d b) s r d 0x707 fun s => s.breakPair k.val) ∧
      (d.arg [1] 0 = 0 → s.pairClass0 (2 * k.val) = false →
        Does (.debugEnable r d b) s r d 0x707 fun s => s.restorePair k.val)))

/-- R82-R95, R127, R402: graphs. -/
def Obligations.GraphCommands : Prop :=
  (∀ s (r : Fin 64) d l (g : GraphBody) h, Comes s r d 0x101 [] 256 false false → d.target.toNat = h → h < 1024 →
    let i := Instr.loadGraph r d (.data l) g
    imageLen d (.data l) = [] → imageType d (.data l) 1 = [] → (g.cls = 0 → s.authorised = true) →
    s.graph h = none →
    let u := s.fetched r.val
    (s.fuses.authentic (bufBytes d (.data l)) = false → exec i s = .next (u.finish r.val d eSig)) ∧
    (s.fuses.authentic (bufBytes d (.data l)) = true →
      (u.bodyWrong g = true → exec i s = .next (u.complete r.val d true eRange 16 0 [])) ∧
      (u.bodyWrong g = false → u.bodyNoRoom g = true → exec i s = .next (u.finish r.val d eNoRes)) ∧
      (u.bodyWrong g = false → u.bodyNoRoom g = false → Does i s r d 0x101 fun s =>
        let v := { s with
          reeve := { s.reeve with
            graphs := s.reeve.graphs.set none h (some g)
            groups := g.groups.foldl (fun t y => t.upd {} y.num.val fun z => { z with gdef := some y })
              s.reeve.groups }
          cellar := { s.cellar with quarantined := s.cellar.quarantined.erase h } }
        g.parts.foldl State.writePart v))) ∧
  (∀ s (r : Fin 64) d b (g : GraphBody) h, Comes s r d 0x102 [] 0 false false → d.target.toNat = h → h < 1024 →
    s.graph h = some g → (g.cls = 0 → s.authorised = true) → s.graphLive h = false → s.graphRuns h = false →
    s.graphRegions h = false →
    ∃ f, Does (.unloadGraph r d b) s r d 0x102 f ∧
      let u := taken s r.val 0x102
      let t := f u
      t.graph h = none ∧ (∀ k, k ≠ h → t.graph k = s.graph k) ∧
      t.cellar.quarantined = s.cellar.quarantined.erase h ∧ t.writer.banks = s.writer.banks.del h ∧
      (∀ n, (t.cell n).pal = (s.cell n).pal ∧ (t.cell n).que = (s.cell n).que ∧ (t.cell n).p = (s.cell n).p ∧
        (t.cell n).m = (s.cell n).m) ∧
      (∀ p ∈ g.parts, ∀ y, s.groupDef p.group.val = some y → ∀ n : Fin 128, y.mask.getLsbD n.val = true →
        ∀ e ∈ p.nodes, (t.cell n.val).nodes.get 0 e.1.toNat = 0) ∧
      t.fabric = u.fabric ∧ t.host = u.host ∧ t.trace = u.trace ∧ t.watch = s.watch) ∧
  (∀ s (r : Fin 64) d b (g : GraphBody) h, Comes s r d 0x103 [] 0 false false → d.target.toNat = h → h < 1024 →
    s.graph h = some g → (g.cls = 0 → s.authorised = true) → h ∉ s.cellar.quarantined →
    (∀ f ∈ s.startFails g, f.2 = false) →
    let u := taken s r.val 0x103
    let a : Activation := { graph := h, asker := none, ring := r.val, t0 := s.time.now, counted := false }
    let x : Running := { ring := r.val, desc := d, live := true, wait := .start h none, t0 := s.time.now }
    let q := s.reeve.queue.get [] g.cls.toNat
    let host := { u.host with running := s.host.running ++ [x] }
    (q.length < 256 → exec (.startGraph r d b) s = .next (State.stallCheck { u with
      reeve := { s.reeve with queue := s.reeve.queue.upd [] g.cls.toNat fun q => q ++ [a] }, host := host })) ∧
    (256 ≤ q.length → exec (.startGraph r d b) s = .next { u with
      reeve := { s.reeve with waiters := s.reeve.waiters ++ [a] }, host := host })) ∧
  (∀ s (r : Fin 64) d b (c : BitVec 17), Comes s r d 0x104 [] 0 false false → d.target.toNat = c.toNat →
    let x := s.ctxOf c.toNat
    x.st = .live → x.shadow = false → (x.cls = 0 → s.authorised = true) → x.installed = true → x.partner = none →
    ∃ t, exec (.stopGraph r d b) s = .next t ∧ (t.ctxOf c.toNat).gen = x.gen ∧
      (t.ctxOf c.toNat).st ≠ .live ∧ (∀ k, k ≠ c.toNat → (t.ctxOf k).st = (s.ctxOf k).st) ∧
      t.cells = s.cells ∧ t.reeve.graphs = s.reeve.graphs) ∧
  (∀ s (r : Fin 64) d b h, Comes s r d 0x105 [] 0 false false → d.target.toNat = h → h < 1024 →
    (s.graph h).isSome = true → Does (.graphEnable r d b) s r d 0x105 fun s =>
      { s with cellar := { s.cellar with quarantined := s.cellar.quarantined.erase h } }) ∧
  (∀ s (r : Fin 64) d b h (k : Fin 16) (n : Fin 64) (g : GraphBody) p y, Comes s r d 0x106 [1] 0 false false →
    d.target.toNat = h * 2 ^ 16 + k.val → h < 1024 → d.arg [1] 0 = n.val → s.graph h = some g →
    g.parts[k.val]? = some p → s.groupDef n.val = some y → partInside p g.handler y = true →
    (g.cls = 0 → groupPaired y = true ∧ s.authorised = true) →
    let q := { p with group := n }
    s.noRoomMoved h g k.val p q = false → s.scratchClash h g y.mask = false →
    (∀ z ∈ g.parts.take k.val ++ g.parts.drop (k.val + 1), partOverlaps q z = false) →
    (∀ e ∈ s.reeve.graphs, e.1 ≠ h → ∀ z, e.2 = some z → ∀ w ∈ z.parts, partOverlaps q w = false) →
    (∀ e ∈ s.reeve.moved, ∀ w ∈ e.2, partOverlaps q w = false) →
    Does (.setGroup r d b) s r d 0x106 fun s =>
      let v := { s with reeve := { s.reeve with
        graphs := s.reeve.graphs.set none h (some { g with
          parts := g.parts.set k.val q
          groups := if g.groups.any (fun z => z.num == y.num) then g.groups else g.groups ++ [y] })
        moved := if p.group = n then s.reeve.moved else s.reeve.moved.upd [] h fun l => l ++ [p] } }
      v.writePart q)

/-- R80, R81, R401: credit and injection. -/
def Obligations.CreditAndInjection : Prop :=
  (∀ s (c : Fin 128) (ctx : BitVec 17) (gen : BitVec 4) ce cg k asked pair gone,
    let p := c.val
    let x := ctx.toNat
    let g := gen.toNat
    let pick := fun (m : Ctl) => match m with
      | .creditGrant q _ y h _ _ _ _ => q == p && y == x && h == g
      | _ => false
    let m := Ctl.creditGrant p cg x g k asked pair gone
    let q := s.cell p
    let pool := poolOf pair x
    let i := Instr.creditGrant (BitVec.ofNat 8 p) ⟨ctx, ce⟩ gen
    let took := fun (q : Cell) => { q with
      credit := q.credit.set 0 (16 * pool + g) (q.credit.get 0 (16 * pool + g) + k)
      credGen := q.credGen.set none pool (some (laterGen (q.credGen.get none pool) g asked))
      leaving := if gone = true ∧ (x, g) ∉ q.leaving then q.leaving ++ [(x, g)] else q.leaving
      asked := q.asked.erase (pool, asked) }
    let known := fun (q : Cell) => q.current x g = true ∨ q.runs x g = true ∨ (x, g) ∈ q.leaving
    (s.ctlNext pick = none → exec i s = .next s) ∧
    (s.ctlNext pick = some m → s.fabric.iso.contains p = false →
      ∃ t, exec i s = .next t ∧ CtlOnly s t ∧
        (q.cellGen.toNat ≠ cg ∨ s.cutOff p = true → t.cell p = q) ∧
        (q.cellGen.toNat = cg → s.cutOff p = false →
          (asked = none ∨ known q → t.cell p = took q) ∧
          (asked ≠ none → ¬known q → pair = false → 0 < k →
            t.cell p = { q with asked := q.asked.erase (x, asked) } ∧
            t.fabric.ctl = s.fabric.ctl.erase m ++ [.creditReturn p x g k])) ∧
        (pair = true → asked = none ∨ known (s.cell (p + 1)) → s.cutOff (p + 1) = false →
          t.cell (p + 1) = took (s.cell (p + 1))) ∧
        (∀ n, n ≠ p → (pair = true → n ≠ p + 1) → t.cell n = s.cell n) ∧
        t = { s with fabric := t.fabric, cells := t.cells, cellar := t.cellar })) ∧
  (∀ s (j : Fin 8) (ctx : BitVec 17) (gen : BitVec 4) ce cg k asked pair gone,
    let p := 0x98 + j.val
    let x := ctx.toNat
    let g := gen.toNat
    let pick := fun (m : Ctl) => match m with
      | .creditGrant q _ y h _ _ _ _ => q == p && y == x && h == g
      | _ => false
    s.ctlNext pick = some (.creditGrant p cg x g k asked pair gone) →
    (s.ctxOf x).st = .live → (s.ctxOf x).gen = g → s.hubBound p x g = true →
    ∃ t, exec (.creditGrant (BitVec.ofNat 8 p) ⟨ctx, ce⟩ gen) s = .next t ∧ CtlOnly s t ∧
      t.creditOf p x g = s.creditOf p x g + k ∧
      t = { s with fabric := t.fabric, reeve := { s.reeve with
        hubCredit := t.reeve.hubCredit, hubAsked := s.reeve.hubAsked.erase (p, x, asked) } }) ∧
  (∀ s (r : Fin 64) d b err tag, tag = Tag.unpack (BitVec.ofNat 64 (d.arg [8, 16] 0)) →
    Comes s r d 8 [8, 16] 0 false false → d.target = 0 → (d.hlen ≠ 0 → ∃ l, b = .data l) →
    let x := s.ctxOf tag.ctx.toNat
    let n := 4 * lenWords tag.len.toNat
    x.st = .live → tag.gen.toNat = x.gen → tag.cls.toNat = x.cls → (tag.cls = 0 → s.authorised = true) →
    tag.reserved = false → tag.poison = false → tag.bell = false → tag.spilled = false →
    s.monoWrong tag = false → (d.hlen = 0 → tag.len.toNat ≤ 2) → (d.hlen ≠ 0 → d.hlen.toNat = n) →
    let k : Token :=
      { tag := tag, payload := bytesToWords (if d.hlen = 0 then leBytes n (d.arg [8, 16] 1) else bufBytes d b) }
    let u := taken s r.val 8
    let y : Running := { ring := r.val, desc := d, live := true, wait := .inject k, t0 := s.time.now }
    let v := { u with host := { u.host with running := s.host.running ++ [y] } }
    let c := s.creditOf 0x91 tag.ctx.toNat tag.gen.toNat
    let i := Instr.hostInject r d ⟨b, err⟩
    (c = 0 → exec i s = .next (v.askCredit 0x91 tag.ctx.toNat (some tag.gen.toNat))) ∧
    (c ≠ 0 → tag.mono = false → (∀ z ∈ s.host.running, ∀ w, z.wait ≠ .inject w) →
      (∀ z ∈ s.host.running, z.ring = r.val → z.t0 = s.time.now → ∀ o, z.wait ≠ .posted o) →
      (∀ e ∈ s.cells, ∀ z ∈ e.2.que.posted, ¬(z.ring = r.val ∧ z.t0 = s.time.now)) →
      let w := (v.spendHub 0x91 tag.ctx.toNat tag.gen.toNat).offerToken 0x91 k
      exec i s = .next (State.finish { w with host := { w.host with running := s.host.running } } r.val d stOk 0)))

/-- R101, R104, R128, R263, R266, R403: regions and parameters. -/
def Obligations.RegionCommands : Prop :=
  (∀ s (r : Fin 64) d b h n (j : Fin 16) app i base, Comes s r d 0x107 [8, 1, 1] 0 false false →
    d.target.toNat = h → h < 1024 → d.arg [8, 1, 1] 0 = n → n ≠ 0 → n % 64 = 0 → d.arg [8, 1, 1] 1 = b2n app →
    (d.arg [8, 1, 1] 2 = j.val ∨ d.arg [8, 1, 1] 2 = 0xFF ∧ s.roomiest = j.val) → (s.graph h).isSome = true →
    s.findRegion j.val n = some (i, base) →
    let g : Region := { valid := true, append := app, owner := some h, base := base, length := n, ptr := 0 }
    Does (.regionCreate r d b) s r d 0x107
      (State.modResp j.val fun x => { x with regions := x.regions.set {} i g }) (j.val * 4096 + i)) ∧
  (∀ s (r : Fin 64) d b (j : Fin 16) (i : Fin 4096) o, Comes s r d 0x108 [] 0 false false →
    d.target.toNat = j.val * 4096 + i.val →
    let g := (s.respAt j.val).regions.get {} i.val
    g.valid = true → g.owner = some o → s.graphLive o = false → s.histNamed (j.val * 4096 + i.val) = false →
    Does (.regionFree r d b) s r d 0x108 (State.modResp j.val fun x => { x with
      regions := x.regions.set {} i.val {}
      poison := x.poison.filter fun l =>
        decide (l < g.base / 64) || decide (g.base / 64 + (linesOf g.base g.length).length ≤ l) })) ∧
  (∀ s (r : Fin 64) d b (j : Fin 16) (i : Fin 4096) o, Comes s r d 0x109 [8, 1] 0 false false →
    d.target.toNat = j.val * 4096 + i.val → d.arg [8, 1] 0 = o → o % 64 = 0 →
    let x := s.respAt j.val
    let g := x.regions.get {} i.val
    let n := d.hlen.toNat
    g.valid = true → g.owner.isSome = true → o + n ≤ g.length →
    (d.arg [8, 1] 1 = 1 → g.append = false → n % 64 = 0 → n ≠ 0 → ∀ l, b = .data l →
      Does (.regionCopy r d b) s r d 0x109 (State.modResp j.val fun x =>
        (x.write (g.base + o) (bytesAt l 0 n)).unmark (g.base + o) n) n) ∧
    (d.arg [8, 1] 1 = 0 → x.isPoisoned (g.base + o) n = false →
      Does (.regionCopy r d b) s r d 0x109 id (n + if g.append then 2 ^ 32 * (g.ptr / 64) else 0)
        (x.read (g.base + o) n))) ∧
  (∀ s (r : Fin 64) d l p, Comes s r d 0x304 [] 0 false false → d.target = 0 → recLen d = [] →
    params [rowTime 100 10000 100, rowTime 10000 10000000 1000, rowTime 0 100000000 1000000,
      rowTime 1000000 1000000000 1000000, rowNat 85 115, rowTime 10000 1000000000 1000, rowNat 50 100,
      rowNat 0 95, rowNat 0 255, rowTime 10000000 60000000000 1000000, rowNat 0 (2 ^ 32 - 1)] d (.data l) = .ok p →
    let get := fun n => (p.find? fun e => e.1 == n).map (·.2)
    let high := (get 7).getD s.cellar.high
    let low := (get 8).getD s.cellar.low
    (low + 5 ≤ high ∨ get 7 = none ∧ get 8 = none) →
    Does (.reeveConfig r d (.data l)) s r d 0x304 fun s => { s with
      reeve := { s.reeve with
        guardWait := (get 1).getD s.reeve.guardWait, guardWindow := (get 2).getD s.reeve.guardWindow
        yieldDelay := (get 3).getD s.reeve.yieldDelay, calmTime := (get 4).getD s.reeve.calmTime
        hotLimit := (get 5).getD s.reeve.hotLimit, startWait := (get 6).getD s.reeve.startWait }
      cellar := { s.cellar with
        high := high, low := low, quarCount := (get 9).getD s.cellar.quarCount
        quarWindow := (get 10).getD s.cellar.quarWindow, waitCap := (get 11).getD s.cellar.waitCap } }) ∧
  (∀ s (r : Fin 64) d b g, Comes s r d 0x305 [8] 0 false false → d.target = 0 →
    d.arg [8] 0 = g * 2 ^ 30 → 4 ≤ g → g ≤ 64 → s.cellar.pages = [] →
    (∀ e ∈ s.reeve.ctx, e.2.st ≠ .free → e.2.cls < 2) →
    (∀ j < 16, ∀ e ∈ (s.respAt j).taken, e.1 + e.2 ≤ respBytes - cellarShare g) →
    Does (.cellarConfig r d b) s r d 0x305 fun s =>
      State.stallCheck (State.layCellar { s with cellar := { s.cellar with gib := g } })) ∧
  (∀ s (r : Fin 64) d l, Comes s r d 0x306 [] 128 false false → d.target = 0 →
    let map := (List.range 64).map fun i => BitVec.ofNat 16 (leAt (bufBytes d (.data l)) (2 * i) 2)
    (∀ i < 64, slotOk i (map.getD i 0) = true) → (∀ q < 4, quarterOk ((map.drop (16 * q)).take 16) = true) →
    (∀ n < 128, (s.reeve.needs.get {} n).slots ≤ slotBudget (fun i => map.getD i 0) (n % 16 / 2)) →
    Does (.slotAlloc r d (.data l)) s r d 0x306 fun s =>
      { s with fabric := { s.fabric with pendMap := some map } })

/-- R276-R290: sensor ports and their frames. -/
def Obligations.SensorPorts : Prop :=
  (∀ s (p : Fin 64), (s.port p.val).up = false → (s.port p.val).cfg.mode ≠ .off → s.ingestOn p.val = true →
    exec (.sensorLinkUp p) s = .next (((s.elapse 1000000).modPort p.val fun x =>
      { x with up := true, srcs := [], old := [] }).postEvent (192 + p.val) 0x01)) ∧
  (∀ s (p : Fin 64), (s.port p.val).up = true →
    ∃ t, exec (.sensorLinkDown p) s = .next t ∧ (t.port p.val).up = false ∧
      (t.port p.val).downs = (s.port p.val).downs + 1 ∧ (t.port p.val).cfg = (s.port p.val).cfg ∧
      (∀ k, k ≠ p.val → t.port k = s.port k) ∧
      t.ingest.portCnt = s.ingest.portCnt.bump (32 * p.val + PortCtr.linkDownCount.ctorIdx) 1 ∧
      t = { s with ingest := { s.ingest with ports := t.ingest.ports, portCnt := t.ingest.portCnt }, host := t.host }) ∧
  (∀ s (r : Fin 64) d l (n : Fin 64) p, Comes s r d 0x301 [] 0 false false → d.target.toNat = n.val →
    recLen d = [] → params [rowEnum 3, rowEnum 2, rowEnum 3, rowEnum 2, rowNat 0 (2 ^ 48 - 1), rowEnum 2,
      rowNat 0 (2 ^ 32 - 1), PRow.mk (fun v => decide (v < 2 ^ 128)) true, rowNat 0x600 0xFFFF, rowNat 1 65535,
      rowNat 1 65535, rowTime 10000 100000000 1000] d (.data l) = .ok p →
    let o := (s.port n.val).cfg
    let get := fun k => (p.find? fun e => e.1 == k).map (·.2)
    let cfg : PortCfg :=
      { mode := match get 1 with
          | some 0 => .off
          | some 1 => .native
          | some _ => .ethernet
          | none => o.mode
        rate25 := (get 2).getD (b2n o.rate25) == 1, fec := (get 3).getD o.fec
        polarity := (get 4).getD (b2n o.polarity) == 1, mac := (get 5).getD o.mac
        group := (get 6).getD (b2n o.group) == 1, ipv4 := (get 7).getD o.ipv4, ipv6 := (get 8).getD o.ipv6
        etype := (get 9).getD o.etype, udp := (get 10).getD o.udp, thresh := (get 11).getD o.thresh
        lag := (get 12).getD o.lag }
    (cfg.fec ≠ 2 ∨ cfg.rate25 = true) → (get 12 = none ∨ s.writer.req = none ∧ cfg.lag < s.writer.len) →
    Does (.sensorPortConfig r d (.data l)) s r d 0x301 fun s =>
      let v := (s.snapshot n.val).modPort n.val fun x => { x with cfg := cfg }
      if cfg.mode = .off ∧ (s.port n.val).up = true then v.portDown n.val else v) ∧
  (∀ s (p : Fin 64) frame (corr uncorr : BitVec 16), s.ingestOn p.val = true → (s.port p.val).up = true →
    let x := s.port p.val
    let cnt := (s.ingest.portCnt.bump (32 * p.val + PortCtr.fecCorr.ctorIdx) corr.toNat).bump
      (32 * p.val + PortCtr.fecUncorr.ctorIdx) uncorr.toNat
    let ok := (cnt.bump (32 * p.val + PortCtr.rxFrames.ctorIdx) 1).bump48
      (32 * p.val + PortCtr.rxBytes.ctorIdx) frame.length
    let i := Instr.frameReceived p 0 frame corr uncorr
    (∀ c, frameCheck x.cfg frame (uncorr != 0) = some c →
      ∃ t, exec i s = .next t ∧ t.ingest.portCnt = cnt.bump (32 * p.val + c.ctorIdx) 1 ∧
        (t.port p.val).errs = x.errs + (if c.isError then 1 else 0) ∧ (t.port p.val).srcs = x.srcs ∧
        t = { s with ingest := { s.ingest with ports := t.ingest.ports, portCnt := t.ingest.portCnt }
                     host := t.host }) ∧
    (frameCheck x.cfg frame (uncorr != 0) = none →
      (∀ reason, walkFrame x.cfg frame = .error (.queue reason) →
        (s.ingest.exq.get [] (p.val / 8)).length < 64 →
        ∃ t, exec i s = .next t ∧
          t.ingest.exq = s.ingest.exq.set [] (p.val / 8) (s.ingest.exq.get [] (p.val / 8) ++
            [{ port := p.val, reason := reason, time := s.time.t64, frame := frame }]) ∧
          t.ingest.portCnt = ok.bump (32 * p.val + PortCtr.exqFrames.ctorIdx) 1 ∧
          t.ingest.binds = s.ingest.binds ∧ t.fabric = s.fabric ∧
          (s.ingest.exq.get [] (p.val / 8) = [] → t.steward.evPend = s.steward.evPend ||| 0x20#7)) ∧
      (∀ src seq (r : FieldRec) last, walkFrame x.cfg frame = .ok [{ src := src, seq := seq, recs := [some r] }] →
        x.srcs.find? (fun e => e.1 == src) = some (src, last) → later 16 seq last = true →
        seq = (last + 1) % 65536 → 1 ≤ r.nsamp →
        let n := 256 * p.val + r.stream
        let b := s.binding n
        (b.st = .unbound → ∃ t, exec i s = .next t ∧ t.ingest.binds = s.ingest.binds ∧
          (t.port p.val).srcs = (x.srcs.filter fun e => e.1 != src) ++ [(src, seq)] ∧
          t.ingest.portCnt = ok.bump (32 * p.val + PortCtr.noBinding.ctorIdx) 1 ∧ t.fabric = s.fabric) ∧
        (b.st = .active → s.early b = false → b.arrival = false → r.tvalid = true → b.prev = none →
          b.part.length + r.nsamp < 2 ^ b.blen →
          let size := (sampleSize r.fmt).getD 1
          let vs := (List.range r.nsamp).map fun i => convert r.fmt b.scale b.offset (bytesAt r.data (size * i) size)
          ∃ t, exec i s = .next t ∧ t.binding n = { b with
              part := b.part ++ vs.map (BitVec.ofNat 32), partBad := b.partBad || vs.any notFinite
              partT := if b.part = [] then r.tFirst else b.partT
              prev := some (r.tFirst, r.nsamp), prevDowns := x.downs } ∧
            (∀ k, k ≠ n → t.binding k = s.binding k) ∧ t.fabric = s.fabric ∧ t.host = s.host ∧
            t.ingest.portCnt = ok ∧ t.ingest.hold = s.ingest.hold)))) ∧
  (∀ s (r : Fin 64) d b (h : Fin 8) count flag, d.target.toNat = h.val → d.arg [1, 1] 0 = count →
    d.arg [1, 1] 1 = b2n flag →
    let l := (s.ingest.exq.get [] h.val).take count
    Comes s r d 0x403 [1, 1] (l.flatMap ExqEntry.bytes).length false false →
    Does (.exqRead r d b) s r d 0x403 (fun s => if flag then { s with ingest := { s.ingest with
      exq := s.ingest.exq.upd [] h.val fun q => q.drop count } } else s) l.length (l.flatMap ExqEntry.bytes))

/-- R288-R296, R311, R312: bindings, blocks and bells. -/
def Obligations.StreamBindings : Prop :=
  (∀ s (r : Fin 64) d hb (n : BitVec 14) (g : GraphBody), Comes s r d 0x201 [4, 4, 4, 4, 4, 2, 1, 1, 1, 1, 1] 0 false false →
    d.target.toNat = n.toNat →
    let a := d.arg [4, 4, 4, 4, 4, 2, 1, 1, 1, 1, 1]
    let x := s.ctxOf (a 0)
    a 0 < 2 ^ 17 → a 3 ≠ 0 → a 6 ≤ 4 → a 7 ≤ 1 → a 8 ≤ 1 → (a 8 = 0 ∨ a 7 = 0) → a 9 ≤ 1 →
    (a 10 = 0x7F ∨ a 10 < 64 ∧ (s.evinAt (a 10)).mode = .tach) →
    x.st = .live → x.shadow = false → (x.cls = 0 → s.authorised = true) → (s.binding n.toNat).st ≠ .active →
    s.graph (s.lifeGraph (a 0) x.gen) = some g →
    let b : Binding :=
      { st := .active, ctx := a 0, gen := x.gen, cell := x.place.getD (g.feed n.toNat).1 0
        node := (g.feed n.toNat).2, cls := x.cls, blen := a 6, stamp := a 7 == 1, mono := a 8 == 1
        scale := a 1, offset := a 2, speriod := a 3, arrival := a 9 == 1, arrOffset := a 4, tach := a 10
        hist := a 5, bellNext := s.portClosed (n.toNat / 256)
        since := if s.writer.st = .running ∧ (s.ingest.dropped (a 0) x.gen s.writer.k).isSome = true
          then s.writer.k + 1 else 0
        made := s.ingest.bindSeq + 1 }
    (x.cls ≤ 1 → s.partFull n.toNat b g = false) → s.hubFull n.toNat b = false →
    Does (.bindStream r d hb) s r d 0x201 fun s =>
      let v := (((s.snapshot (n.toNat / 256)).unnamed (s.binding n.toNat)).modBinding n.toNat fun _ => b).named b
      let v := { v with ingest := { v.ingest with bindSeq := b.made } }
      v.askTwins (hubCode (n.toNat / 256)) 1 (v.twins n.toNat (a 0) x.gen b.cell)) ∧
  (∀ s (r : Fin 64) d hb (n : BitVec 14), Comes s r d 0x202 [] 0 false false → d.target.toNat = n.toNat →
    (s.binding n.toNat).st ≠ .unbound → ((s.binding n.toNat).cls = 0 → s.authorised = true) →
    ∃ f, Does (.unbindStream r d hb) s r d 0x202 f ∧
      let u := taken s r.val 0x202
      let t := f u
      let mine := (s.ingest.hold.get [] (n.toNat / 2048)).filter fun k => k.binding == n.toNat
      t.binding n.toNat = {} ∧ (∀ k, k ≠ n.toNat → t.binding k = s.binding k) ∧
      t.ingest.hold.get [] (n.toNat / 2048) =
        (s.ingest.hold.get [] (n.toNat / 2048)).filter (fun k => k.binding != n.toNat) ∧
      t.ingest.bindCnt = s.ingest.bindCnt.bump (8 * n.toNat + BindCtr.inactiveDrop.ctorIdx) mine.length ∧
      t.cells = s.cells ∧ t.host = u.host) ∧
  (∀ s (p : Fin 64) (k : Block) rest, (s.port p.val).wait = k :: rest →
    let code := hubCode p.val
    let l := s.twins k.binding k.ctx k.gen k.cell
    (s.hasCredit code k.tokens l = false →
      exec (.blockEmit p) s = .next (s.askTwins code k.tokens l)) ∧
    (s.hasCredit code k.tokens l = true → (s.ctxOf k.ctx).partner = none → k.stamp = none → k.hist = 0xFFFF →
      let tok : Token :=
        { tag := streamTag k.cell k.node 0 k.ctx k.gen k.iter k.cls (k.epoch % 2 == 1) k.blen
            (mkFlags k.bad false false k.mono)
          payload := k.words }
      let u := s.modPort p.val fun x => { x with wait := rest }
      let v := (u.hubSend code tok).bindBump k.binding .blocks
      exec (.blockEmit p) s = .next (v.hubLeave code k.ctx k.gen))) ∧
  (∀ s (p : Fin 64),
    let k := s.portClosed p.val
    s.writer.st ≠ .stopped → s.writer.beyond k = false → k ≤ s.writer.k →
    exec (.portEpochClose p) s = .next ((s.reachT64 ((s.writer.tb (k + 1)).toNat +
      (s.port p.val).cfg.lag)).modPort p.val fun x => { x with closedTo := k + 1 })) ∧
  (∀ s (b : Fin 16384), s.bellDue b.val = true →
    let bd := s.binding b.val
    let code := hubCode (b.val / 256)
    let l := s.twins b.val bd.ctx bd.gen bd.cell
    let k := s.bellEpoch b.val
    (s.hasCredit code (if bd.stamp then 2 else 1) l = false →
      exec (.bellInject b) s = .next (s.askTwins code (if bd.stamp then 2 else 1) l)) ∧
    (s.hasCredit code 1 l = true → bd.stamp = false → (s.ctxOf bd.ctx).partner = none →
      let tok : Token :=
        { tag := streamTag bd.cell bd.node 0 bd.ctx bd.gen 0 bd.cls (k % 2 == 1) 1 (mkFlags false true false bd.mono)
          payload := [BitVec.ofNat 32 k, BitVec.ofNat 32 (k / 2 ^ 32 % 2 ^ 16)] }
      exec (.bellInject b) s = .next ((s.modBinding b.val fun x => { x with bellNext := k + 1 }).hubSend code tok)))

/-- R298-R302: event inputs. -/
def Obligations.EventInputs : Prop :=
  (∀ s (r : Fin 64) d l (n : Fin 64) p, Comes s r d 0x303 [] 0 false false → d.target.toNat = n.val →
    recLen d = [] → params [rowEnum 4, rowEnum 3, rowNat 1 65535,
      PRow.mk (fun v => decide (v < 64) || v == 0x7F) false, rowTime 1000000 1000000000000 1000000,
      rowTime 1000 1000000000 1000] d (.data l) = .ok p →
    let o := s.evinAt n.val
    let get := fun k => (p.find? fun e => e.1 == k).map (·.2)
    let mode := ((get 1).map evModeOf).getD o.mode
    let edge := ((get 2).map evEdgeOf).getD o.edge
    let idx := (get 4).getD o.indexIn
    (edge ≠ .both ∨ mode = .event) → (idx = 0x7F ∨ idx ≠ n.val ∧ (s.evinAt idx).mode = .index) →
    (mode = o.mode ∨ s.evinNamed n.val = false) →
    Does (.eventInputConfig r d (.data l)) s r d 0x303 fun s =>
      let x : EvIn :=
        { mode := mode, edge := edge, ppr := (get 3).getD o.ppr, indexIn := idx
          stuckTime := (get 5).getD o.stuckTime, holdoff := (get 6).getD o.holdoff, since := s.time.now
          level := if o.mode = .off then none else o.level, rawAt := o.rawAt }
      s.modEvin n.val fun _ => x) ∧
  (∀ s (n : Fin 64) (frac : BitVec 2), (s.evinAt n.val).mode ≠ .off → s.isReady = true →
    exec (.evinEdge n .merged frac) s = .next ((s.evBump n.val .overrate).modEvin n.val fun e =>
      { e with window := e.window + 1 })) ∧
  (∀ s (n : Fin 64) (x : EvPulse) (frac : BitVec 2), (s.evinAt n.val).mode ≠ .off → s.isReady = true →
    x ≠ .merged →
    let e := s.evinAt n.val
    let u := if e.level.isSome then s.reach (e.rawAt + 20) else s
    let q := 4 * u.time.t64.toNat + frac.toNat
    (e.level = some (x == .rise) → exec (.evinEdge n x frac) s = .next s) ∧
    (e.level ≠ some (x == .rise) → e.edge.takes x = false → exec (.evinEdge n x frac) s =
      .next (u.modEvin n.val fun e => { e with level := some (x == .rise), rawAt := u.time.now })) ∧
    (e.level ≠ some (x == .rise) → e.edge.takes x = true → ∃ t, exec (.evinEdge n x frac) s = .next t ∧
      t.ingest.evCnt.get 0 (4 * n.val + EvCtr.edges.ctorIdx) =
        (s.ingest.evCnt.get 0 (4 * n.val + EvCtr.edges.ctorIdx) + 1) % 2 ^ 32 ∧
      (e.mode = .event → t.evinAt n.val = { e with
        level := some (x == .rise), rawAt := u.time.now
        window := e.window + 1, since := u.time.now, stuck := false
        fresh := if e.stuck then 1 else min 2 (e.fresh + 1)
        evAt := some (e.evAt.getD u.time.now), evCount := if e.evAt = none then 0 else e.evCount + 1, evLast := q }) ∧
      (e.mode = .tach → (t.evinAt n.val).edges = ((q, e.advance.1) :: e.edges).take 16 ∧
        (t.evinAt n.val).pulse = e.advance.2.1 ∧ (t.evinAt n.val).since = u.time.now) ∧
      (e.mode = .index → ∀ m, (s.evinAt m).mode = .tach → (s.evinAt m).indexIn = n.val →
        (t.evinAt m).indexed = true ∧ (t.evinAt m).idxPulses = some 0) ∧
      (e.mode ≠ .index → ∀ m, m ≠ n.val → t.evinAt m = s.evinAt m) ∧
      t = { u with ingest := { s.ingest with evin := t.ingest.evin, evCnt := t.ingest.evCnt }, host := t.host })) ∧
  (∀ s (n : Fin 64) at_, (s.evinAt n.val).evAt = some at_ →
    let e := s.evinAt n.val
    let u := s.reach (at_ + e.holdoff)
    (e.evCount = 0 → exec (.evHoldoffExpiry n) s = .next (u.modEvin n.val fun e => { e with evAt := none })) ∧
    (e.evCount ≠ 0 → exec (.evHoldoffExpiry n) s = .next
      ((u.postEventAt n.val 0x10 e.evCount (e.evLast % 4) (BitVec.ofNat 64 (e.evLast / 4))).modEvin n.val fun e =>
        { e with evAt := some u.time.now, evCount := 0 }))) ∧
  (∀ s, Tab.wf {} s.ingest.evin = true →
    let u := s.reachT64 ((s.time.t64.toNat / 1000000 + 1) * 1000000)
    ∃ t, exec .rateWindowEnd s = .next t ∧
      (∀ n, let e := s.evinAt n
        t.evinAt n = { e with window := 0, overrated := decide (e.mode ≠ .off) && decide (25000 < e.window) }) ∧
      t = { u with ingest := { s.ingest with evin := t.ingest.evin }, host := t.host }) ∧
  (∀ s (n : Fin 64), (s.evinAt n.val).mode ≠ .off → (s.evinAt n.val).stuck = false → s.isReady = true →
    let e := s.evinAt n.val
    let due := e.since + e.stuckTime
    exec (.stuckTimeout n) s = .next ((((s.reach (due + 1)).modEvin n.val fun e =>
      { e with stuck := true }).evBump n.val .stuckCount).postEventAt n.val 0x11 0 0 (s.reach due).time.t64))

/-- R334-R354: chain ports. -/
def Obligations.ChainPorts : Prop :=
  (∀ s (c : Fin 16) (bad : BitVec 64),
    (bad ≠ 0 → exec (.chainLinkUp ⟨c, bad⟩) s = .next s) ∧
    (c.val ∈ s.chain.named → c.val ∉ s.chain.up → (0x94 + c.val / 4) ∉ s.power.hubOff →
      let u := s.elapse 1000000
      exec (.chainLinkUp ⟨c, 0⟩) s = .next (State.postEvent { u with chain := { s.chain with
        up := (List.range 16).filter fun q => decide (q = c.val ∨ q ∈ s.chain.up)
        measureAt := s.chain.measureAt.del c.val } } (256 + c.val) 0x01))) ∧
  (∀ s (c : Fin 16) (bad : BitVec 64) perr,
    (popCount 64 bad.toNat < 16 → exec (.chainLinkDown ⟨c, bad, perr⟩) s = .next s) ∧
    (16 ≤ popCount 64 bad.toNat → c.val ∈ s.chain.up → s.chain.role = .root →
      let v := { s with chain := { s.chain with
        up := s.chain.up.erase c.val, measured := s.chain.measured.erase c.val
        delaySum := s.chain.delaySum.del c.val
        passLat := s.chain.passLat.filter fun e => e.1 / 16 != c.val && e.1 % 16 != c.val
        portCnt := (s.chain.portCnt.bump (8 * c.val + ChainPortCtr.blockErr.ctorIdx) perr).bump
          (8 * c.val + ChainPortCtr.linkDownCount.ctorIdx) 1 } }
      exec (.chainLinkDown ⟨c, bad, perr⟩) s = .next (v.postEvent (256 + c.val) 0x02))) ∧
  (∀ (s : State) p q, s.chain.passLat.get none (16 * p + q) = none →
    let v := (s.passOf p q).1
    let t := (s.passOf p q).2
    160 ≤ v ∧ v ≤ 192 ∧ t.passOf p q = (v, t) ∧
    t = { s with fresh := t.fresh, chain := { s.chain with passLat := t.chain.passLat } }) ∧
  (∀ s (r : Fin 64) d b (k : BitVec 12) (g : GraphBody), Comes s r d 0x203 [4, 2] 0 false false →
    d.target.toNat = k.toNat →
    let a := d.arg [4, 2]
    let x := s.ctxOf (a 0)
    a 0 < 2 ^ 17 → a 1 < 4096 → x.st = .live → x.shadow = false → 2 ≤ x.cls → (s.import_ k.toNat).st ≠ .active →
    s.graph (s.lifeGraph (a 0) x.gen) = some g →
    let m : Import :=
      { st := .active, station := a 1, ctx := a 0, gen := x.gen
        cell := x.place.getD (importFeed g k.toNat).1 0, node := (importFeed g k.toNat).2, cls := x.cls }
    Does (.bindImport r d b) s r d 0x203 fun s =>
      let v := { s with chain := { s.chain with imports := s.chain.imports.set {} k.toNat m } }
      let hub := match s.chain.route (a 1) none with
        | .ok p => chainHub p
        | .error _ => 0x94
      v.askTwins hub 1 (v.importTwins k.toNat m)) ∧
  (∀ s (r : Fin 64) d b (k : BitVec 12), Comes s r d 0x204 [] 0 false false → d.target.toNat = k.toNat →
    (s.import_ k.toNat).st ≠ .unbound →
    ∃ f, Does (.unbindImport r d b) s r d 0x204 f ∧
      let u := taken s r.val 0x204
      let t := f u
      t.import_ k.toNat = {} ∧ (∀ j, j ≠ k.toNat → t.import_ j = s.import_ j) ∧
      t = { u with chain := t.chain, reeve := { u.reeve with hubCredit := t.reeve.hubCredit }
                   fabric := { u.fabric with ctl := t.fabric.ctl } }) ∧
  (∀ s (r : Fin 64) d b (mask : BitVec 16), Comes s r d 0x502 [] 0 false false → d.target.toNat = mask.toNat →
    d.hlen.toNat ≤ 4096 → (d.hlen ≠ 0 → ∃ l, b = .data l) →
    (∀ w, s.chain.window = some w → (2 + (d.hlen.toNat + 36 + 7) / 8) * 128 ≤ (w.1 - w.2) * 100) →
    let sent := (List.range 16).filter fun p => mask.getLsbD p && s.chain.up.contains p
    sent ≠ [] →
    ∃ t, exec (.chainSend r d b) s = .next t ∧ t.chain.bseq = (s.chain.bseq + 1) % 2 ^ 32 ∧
      t.host.running = s.host.running ++ [{ ring := r.val, desc := d, live := true
                                            wait := .chainSend s.chain.bseq, t0 := s.time.now }] ∧
      (∀ p, ∃ dir, t.chain.queue.get [] p = s.chain.queue.get [] p ++ if p ∈ sent then
        [{ dst := s.chain.nbr.get 0 p, src := s.stationId, btype := 2, dir := dir, bseq := s.chain.bseq
           tSend := 0, payload := if d.hlen = 0 then [] else bufBytes d b }] else []) ∧
      t.chain.up = s.chain.up ∧ t.cells = s.cells ∧ t.reeve = s.reeve) ∧
  (∀ s x rest, s.chain.sends = x :: rest → x.acked = 0 → (∀ y ∈ rest, y.bseq ≠ x.bseq) →
    let u := s.reach (x.t0 + 10 * s.chain.cycle)
    exec .chainSendTimeout s = .next (State.completeWhere { u with chain := { s.chain with sends := rest } }
      (fun r => r.wait == .chainSend x.bseq) eTimeout 0)) ∧
  (∀ s (c : Fin 16), c.val ∈ s.chain.up → s.chain.measureAt.get none c.val = none →
    ∃ t, exec (.delayMeasure c) s = .next t ∧ t.chain.measureAt.get none c.val = some s.time.now ∧
      t.chain.delaySum.get none c.val = some (0, 0) ∧ t.chain.bseq = (s.chain.bseq + 1) % 2 ^ 32 ∧
      (∃ dir, t.chain.queue.get [] c.val = s.chain.queue.get [] c.val ++
        [{ dst := s.chain.nbr.get 0 c.val, src := s.stationId, btype := 3, dir := dir, bseq := s.chain.bseq
           tSend := 0, payload := [] }]) ∧
      t = { s with chain := { s.chain with
        measureAt := t.chain.measureAt, delaySum := t.chain.delaySum, bseq := t.chain.bseq
        queue := t.chain.queue } }) ∧
  (∀ s p at_, s.chain.role = .station → s.chain.presentAt = some at_ → s.chain.route 0 none = .ok p →
    let u := s.reach (at_ + s.chain.stationAge / 4)
    ∃ t dir, exec .presenceSend s = .next t ∧ t.chain.presentAt = some u.time.now ∧
      t.chain.queue.get [] p = s.chain.queue.get [] p ++
        [{ dst := 0, src := s.stationId, btype := 5, dir := dir, bseq := s.chain.bseq, tSend := 0, payload := [] }] ∧
      t = { u with chain := { s.chain with
        presentAt := t.chain.presentAt, bseq := t.chain.bseq, queue := t.chain.queue } }) ∧
  (∀ s (k : BitVec 12), (s.chain.learn.get {} k.toNat).valid = true →
    let u := s.reach ((s.chain.learn.get {} k.toNat).age + s.chain.stationAge)
    exec (.stationAgeExpiry k) s =
      .next { u with chain := { s.chain with learn := s.chain.learn.del k.toNat } })

/-- R347-R352: bulk frames and tokens between stations. -/
def Obligations.ChainFrames : Prop :=
  (∀ s (c : Fin 16) bytes (quarter : BitVec 2) perr, c.val ∈ s.chain.up →
    let i := Instr.bulkFrameReceived c bytes quarter perr
    let ctr := fun (k : ChainPortCtr) => 8 * c.val + k.ctorIdx
    let cnt := s.chain.portCnt.bump (ctr .blockErr) perr
    let inside := s.chain.role = .root ∧ s.time.t64.toNat % s.chain.cycleLen < s.chain.cwLen
    (inside → exec i s = .next { s with chain := { s.chain with
      portCnt := cnt, cnt := s.chain.cnt.bump ChainCtr.cartPeerViol.ctorIdx 1 } }) ∧
    (¬inside → parseBulk bytes = none →
      exec i s = .next { s with chain := { s.chain with portCnt := cnt.bump (ctr .bulkCrc) 1 } }) ∧
    (¬inside → ∀ b, parseBulk bytes = some b → s.chain.mode ≠ .ring → s.chain.role = .root →
      b.btype = 1 → b.dst ≠ 0 → b.src ≠ 0 →
      (s.chain.learn.get {} b.dst).valid = true → (s.chain.learn.get {} b.dst).port ≠ c.val →
      (s.chain.learn.get {} b.src).valid = true → (s.chain.learn.get {} b.src).port = c.val →
      let q := (s.chain.learn.get {} b.dst).port
      ∃ t, exec i s = .next t ∧ t.chain.queue.get [] q = s.chain.queue.get [] q ++ [b] ∧
        t.chain.portCnt = cnt.bump48 (ctr .rxBulkBytes) b.payload.length ∧
        (t.chain.learn.get {} b.src).age = s.time.now ∧
        t = { s with chain := { s.chain with
          queue := t.chain.queue, portCnt := t.chain.portCnt, learn := t.chain.learn } })) ∧
  (∀ s (c : Fin 16) (quarter : BitVec 2) cyc cw b rest, c.val ∈ s.chain.up →
    s.chain.queue.get [] c.val = b :: rest → s.chain.window = some (cyc, cw) →
    let u := s.reach (s.chain.busyTo.get 0 c.val)
    let n := b.blocks * 128
    let phase := u.time.t64.toNat % cyc
    let ctr := fun (k : ChainPortCtr) => 8 * c.val + k.ctorIdx
    let o := [Output.frame c.val (b.stamped (u.t64Fine quarter)).bytes]
    n ≤ (cyc - cw) * 100 → cw ≤ phase →
    (phase * 100 + n ≤ cyc * 100 → exec (.bulkFrameSend c quarter) s = .next { u with
      out := s.out ++ o
      chain := { s.chain with
        queue := s.chain.queue.set [] c.val rest
        busyTo := s.chain.busyTo.set 0 c.val (u.time.now + (n + 99) / 100)
        portCnt := s.chain.portCnt.bump48 (ctr .txBulkBytes) (b.stamped (u.t64Fine quarter)).payload.length } }) ∧
    (cyc * 100 < phase * 100 + n →
      let edge := u.time.t64.toNat / cyc + 1
      exec (.bulkFrameSend c quarter) s = .next (if s.chain.deferAt.get 0 c.val = edge then u else { u with
        chain := { s.chain with
          deferAt := s.chain.deferAt.set 0 c.val edge
          portCnt := s.chain.portCnt.bump (ctr .windowDefer) 1 } }))) ∧
  (∀ s (src : BitVec 8) (k : Token), k.tag.dest.toNat = 0x94 → s.arrivable src.toNat k = true →
    s.cutOff 0x94 = false →
    let w := k.word 0
    let dst := k.tag.esel.toNat
    let ilen := field w 20 18
    let ok := field w 17 16 ≠ 3 ∧ ilen ≤ 3 ∧ 1 + 2 ^ ilen ≤ 2 ^ k.tag.len.toNat ∧ field w 15 0 ≤ 4095 ∧
      w < 2 ^ 21 ∧ dst < 4096
    let x : TokRec :=
      { channel := field w 15 0, port := field w 17 16, ilen := ilen, iter := k.tag.iter.toNat
        epar := k.tag.epar, bell := k.tag.bell, poison := k.tag.poison
        words := (k.payload.drop 1).take (2 ^ ilen) }
    let i := Instr.chainEgressToken src k {}
    (¬ok → ∃ t, exec i s = .next t ∧ LeftFabric s t src k ∧ t.cells = s.cells ∧
      t.chain = { s.chain with cnt := s.chain.cnt.bump ChainCtr.chainFmt.ctorIdx 1 }) ∧
    (ok → dst ≠ s.stationId → s.chain.egressUsed + x.bytes.length ≤ 262144 → ∀ p, s.chain.route dst none = .ok p →
      (s.chain.egress.get [] (4096 * p + dst)).length + x.bytes.length ≤ 4096 →
      ∃ t, exec i s = .next t ∧ LeftFabric s t src k ∧ t.cells = s.cells ∧
        t.chain = { s.chain with egress := s.chain.egress.upd [] (4096 * p + dst) (· ++ x.bytes) }) ∧
    (ok → dst ≠ s.stationId → 262144 < s.chain.egressUsed + x.bytes.length → k.isG = false →
      exec i s = .next s))

/-- R335-R356: the Cart. -/
def Obligations.CartCommands : Prop :=
  (∀ s (r : Fin 64) d l p, Comes s r d 0x308 [] 0 false false → d.target = 0 → recLen d = [] →
    params [rowEnum 3, rowEnum 3, rowNat 0 15, rowNat 0 65535,
      PRow.mk (fun v => decide (v % 65536 < 16) && decide (v / 65536 < 16)) false, rowTime 5000 10000000 100,
      rowTime 100000000 60000000000 1000000, rowTime 1000000000 3600000000000 1000000000, rowNat 2 255]
      d (.data l) = .ok p →
    let c := s.chain
    let get := fun k => (p.find? fun e => e.1 == k).map (·.2)
    let ring := (get 5).getD (c.portA + 65536 * c.portB)
    let n := { c with
      mode := ((get 2).map modeOf).getD c.mode, upPort := (get 3).getD c.upPort
      downPorts := (get 4).getD c.downPorts, portA := ring % 65536, portB := ring / 65536
      cycleLen := (get 6).getD c.cycleLen, stationAge := (get 7).getD c.stationAge
      detachHold := (get 8).getD c.detachHold, cartLoss := (get 9).getD c.cartLoss, barred := false
      launched := if (get 6).getD c.cycleLen = c.cycleLen then c.launched else none }
    get 1 = none → (n.mode ≠ .chain ∨ popCount 16 n.downPorts ≤ 1) → c.up = [] →
    (s.attached = true → get 2 = none ∧ get 3 = none ∧ get 4 = none ∧ get 5 = none) →
    (c.role = .root → n.roomy c.slots.length = true) →
    Does (.chainConfig r d (.data l)) s r d 0x308 fun s => { s with chain := n }) ∧
  (∀ s (r : Fin 64) d b, Comes s r d 0x501 [] 0 false false → d.target = 0 → s.chain.role = .root →
    s.chain.enumWanted = false →
    let u := taken s r.val 0x501
    let x : Running := { ring := r.val, desc := d, live := true, wait := .enumerate, t0 := s.time.now }
    exec (.enumerate r d b) s = .next { u with
      chain := { s.chain with enumWanted := true }, host := { u.host with running := s.host.running ++ [x] } }) ∧
  (∀ s, s.chain.role = .root → s.chain.enumWanted = false → s.chain.newcomer = false → s.chain.launched = none →
    1 ≤ s.chain.cycleLen →
    let cyc := s.chain.cycleLen
    let n := (s.time.t64.toNat + cyc - 1) / cyc
    let u := s.reachT64 (n * cyc)
    let ports := s.chain.launchOn
    ∃ t k, k < 5 ∧ exec .cartLaunch s = .next t ∧ t.time = (u.elapse (3 + k)).time ∧
      t.chain.launched = some n ∧ t.chain.split = s.chain.split ∧ t.chain.slots.map (·.station) = s.chain.slots.map (·.station) ∧
      t.chain.slots.map (·.cseq) = s.chain.slots.map (fun x => (x.cseq + 1) % 65536) ∧
      (∀ x ∈ t.chain.slots, x.heard = false) ∧
      cartOk t.chain.sentCart = true ∧ t.chain.sentCart.length = 112 + 160 * s.chain.slots.length ∧
      leAt t.chain.sentCart 0 2 = n % 65536 ∧ leAt t.chain.sentCart 8 8 = t.time.t64.toNat ∧
      t.out = s.out ++ (ports.filter s.chain.up.contains).map (fun p => .frame p t.chain.sentCart) ∧
      t = { s with time := t.time, chain := t.chain, out := t.out, fresh := s.fresh + 1 }) ∧
  (∀ s (c : Fin 16) cart perr, s.chain.role = .station → c.val ∈ s.chain.up → cartOk cart = false →
    let q := s.chain.onward c.val
    exec (.cartPass c cart false perr) s = .next { s with
      chain := { s.chain with
        portCnt := s.chain.portCnt.bump (8 * c.val + ChainPortCtr.blockErr.ctorIdx) perr
        cnt := s.chain.cnt.bump ChainCtr.cartHcrc.ctorIdx 1 }
      out := if q ∈ s.chain.up then s.out ++ [.frame q cart] else s.out }) ∧
  (∀ s (c : Fin 16) cart perr k i, s.chain.role = .station → c.val ∈ s.chain.up → cartOk cart = true →
    cart.length = cartLen cart →
    let h := readHdr cart
    let q := s.chain.onward c.val
    let o := 96 + 160 * i
    let slot := bytesAt cart o 160
    s.chain.seen = none → s.chain.lastCycle = none → s.chain.rootId = none ∨ s.chain.rootId = some h.root →
    s.chain.st = .rejoining → c.val ∉ s.chain.measured → s.chain.id = some k → bit h.flags 0 = false →
    h.slots.findIdx? (· == k) = some i → leAt slot 2 1 = 0 → slotCcrc slot = leAt slot 136 4 →
    s.chain.unanswered = [] → s.chain.summaries = [] →
    ∃ t ans lat, exec (.cartPass c cart false perr) s = .next t ∧
      t.chain.passLat.get none (16 * c.val + q) = some lat ∧
      (s.chain.passLat.get none (16 * c.val + q) = none ∨
        s.chain.passLat.get none (16 * c.val + q) = some lat) ∧
      (let new := putBytes cart o (slotAnswered slot 1 (leAt slot 4 2) ans)
       let corr := leAt new 16 8 + s.chain.linkDelay.get 0 c.val + lat * 16384
       t.out = if q ∈ s.chain.up then s.out ++ [.frame q (cartSeal (putBytes new 16 (leBytes 8 corr)))]
         else s.out) ∧
      t.chain.lastCycle = some h.cycle ∧ t.chain.id = some k ∧ t.chain.rootId = some h.root ∧
      t.chain.hdrCycleLen = h.cycleLen ∧ t.chain.cwLen = h.cwLen ∧ t.chain.walk = h.root :: h.slots ∧
      t.writer = s.writer ∧ t.cells = s.cells) ∧
  (∀ s, s.chain.role = .station → s.chain.st ≠ .detached →
    ∃ t, exec .cartLossDetach s = .next t ∧ t.chain.st = .detached ∧ t.chain.unanswered = [] ∧
      t.time = { (s.reach (s.chain.lastAt + s.chain.cartLoss * s.chain.cycle)).time with follow := 0 } ∧
      t.chain.cnt = s.chain.cnt.bump ChainCtr.detachCount.ctorIdx 1 ∧ t.cells = s.cells) ∧
  (∀ s (c via : Fin 16) cart (fin : CartEnd), s.chain.role = .root → c.val ∈ s.chain.up → cartOk cart = true →
    s.chain.mode = .ring → cart.length = cartLen cart →
    let sent := s.chain.sentCart
    let own := bytesAt cart 0 2 = bytesAt sent 0 2 ∧ bytesAt cart 8 8 = bytesAt sent 8 8 ∧ sent ≠ []
    let cnt := s.chain.portCnt.bump (8 * c.val + ChainPortCtr.blockErr.ctorIdx) fin.perr
    let got := { s.chain with portCnt := cnt, split := fin.broken }
    let ctr := fun (k : ChainCtr) => s.chain.cnt.bump k.ctorIdx 1
    let i := Instr.cartReturn c via cart false fin
    let fix := fixedPart s.chain.enumOut s.chain.offered.isSome
    let same := fix cart = fix sent ∧ cartTrailer cart = cartTrailer sent
    (¬own → s.chain.foreignAt ≠ none → exec i s = .next { s with
      chain := { got with cnt := ctr .cartForeign, foreignAt := some s.time.now } }) ∧
    (¬own → s.chain.foreignAt = none → exec i s = .next (State.postEvent { s with
      chain := { got with cnt := ctr .cartForeign, foreignAt := some s.time.now } } 452 0x67)) ∧
    (own → ¬same → exec i s = .next { s with chain := { got with
      cnt := ctr .cartPeerViol
      ringEnd := if c = via then some (s.chain.endBy c.val cart) else s.chain.ringEnd } }) ∧
    (own → same → s.chain.enumOut = true → c = via → s.writer.rootVarn = [] →
      ∀ n, leAt cart 38 2 % 4096 = n + 1 →
      ∃ t, exec i s = .next t ∧
        (n = 0 ∨ s.chain.roomy n = true →
          t.chain.slots = (List.range n).map (fun j => newSlot (j + 1))) ∧
        (n ≠ 0 → s.chain.roomy n = false → t.chain.slots = s.chain.slots) ∧
        t.chain.enumWanted = false ∧ t.chain.enumOut = false ∧
        t.host.running = s.host.running.filter (fun x => x.wait != .enumerate) ∧ t.cells = s.cells)) ∧
  (∀ s (k : BitVec 12) x, s.chain.role = .root → s.rootSlot k.toNat = some x → x.st = .detached →
    s.writer.rootVarn = [] →
    let u := s.reach (x.goneAt + s.chain.detachHold)
    exec (.detachHoldExpiry k) s = .next { u with chain := { s.chain with
      slots := s.chain.slots.filter fun y => y.station != k.toNat } }) ∧
  (∀ s at_, s.chain.foreignAt = some at_ →
    let u := s.reach (at_ + 1000000000)
    exec .rootConflictRearm s = .next { u with chain := { s.chain with foreignAt := none } })

/-- R307-R330: epochs. -/
def Obligations.EpochCommands : Prop :=
  (∀ s (r : Fin 64) d l p req, Comes s r d 0x307 [8, 4, 2, 1] 0 false false → d.target = 0 → recLen d true = [] →
    params [rowTime 100000 10000000000 1000, rowTime 100000 100000000000 1000, rowTime 50000 10000000000 1000,
      PRow.mk (fun v => v % 2 ^ 26 == 0 && decide (2 ^ 26 ≤ v) && decide (v ≤ 2 ^ 30)) false] d (.data l) = .ok p →
    let a := d.arg [8, 4, 2, 1]
    let w := s.writer
    let get := fun k => (p.find? fun e => e.1 == k).map (·.2)
    let lag := s.maxLag fun _ => true
    let len := (get 1).getD w.len
    let limit := (get 2).getD w.varnishLimit
    let idle := w.req = none ∧ w.lastK = none
    a 3 = req → s.chain.role ≠ .station →
    (req = 0 ∧ (get 1 = none ∨ w.st = .stopped ∧ lag < len) ∨
      req = 1 ∧ w.st = .stopped ∧ idle ∧ a 0 % 1000 = 0 ∧
        laterT (s.time.t64 + 1000000) (BitVec.ofNat 64 (a 0)) = false ∧ lag < len ∨
      req = 2 ∧ w.st = .running ∧ idle ∧ (get 1).isSome = true ∧ lag < len ∨
      req = 3 ∧ w.st = .running ∧ idle ∧ get 1 = none) →
    (w.st = .running → get 4 = none) → (lag + 50000 ≤ limit ∨ (req = 0 ∨ req = 3) ∧ get 2 = none) →
    Does (.epochConfig r d (.data l)) s r d 0x307 (State.modWriter fun w => { w with
      varnishLimit := limit, settleLimit := (get 3).getD w.settleLimit
      stageMiB := (get 4).getD (w.stageMiB * 2 ^ 20) / 2 ^ 20
      len := if req = 1 ∨ req = 2 then w.len else len
      req := if req = 1 then some (.start (BitVec.ofNat 64 (a 0)) (a 1 + a 2 * 2 ^ 32) (get 1))
        else if req = 2 then some (.length (BitVec.ofNat 64 (a 0)) len)
        else if req = 3 then some (.stop (BitVec.ofNat 64 (a 0))) else w.req })) ∧
  (∀ s at_ k len, s.writer.req = some (.start at_ k len) →
    let u := s.reachT64 at_.toNat
    ∃ t, exec .epochStart s = .next t ∧ t.time = u.time ∧ t.writer.st = .running ∧ t.writer.origin = at_ ∧
      t.writer.kOrigin = k ∧ t.writer.len = len.getD s.writer.len ∧ t.writer.k = k ∧ t.writer.w = k ∧
      t.writer.firstK = k ∧ t.writer.req = none ∧ t.writer.lastK = none ∧ t.writer.stage = [] ∧
      t.writer.epochs = [{ k := k, members := s.newMembers, varnished := false, limit := false
                           unprotected := s.watch.broken, results := 0, poisoned := 0 }] ∧
      (Tab.wf {} s.cells = true → ∀ n, (t.cell n).que = (s.cell n).que ∧ (t.cell n).p = (s.cell n).p ∧ (t.cell n).m = (s.cell n).m)) ∧
  (∀ s, s.writer.st = .running → s.writer.lastK = none →
    let w := s.writer
    let k := w.k + 1
    let b := w.tb k
    let u := s.reachT64 b.toNat
    let begins := fun (t : State) => t.time = u.time ∧ t.writer.k = k ∧ t.writer.st = .running ∧
      t.writer.lastK = none ∧ t.writer.w = w.w ∧
      t.writer.epochs = w.epochs ++ [{ k := k, members := s.newMembers, varnished := false, limit := false
                                       unprotected := s.watch.broken, results := 0, poisoned := 0 }] ∧
      t.host.evtNext = k % 128 ∧ t.host.cplNext = k % 64
    (w.req = none → ∃ t, exec .epochBoundary s = .next t ∧ begins t ∧ t.writer.req = none ∧
      t.writer.len = w.len ∧ t.writer.origin = w.origin) ∧
    (∀ at_ n, w.req = some (.length at_ n) → laterT at_ b = false → ∃ t, exec .epochBoundary s = .next t ∧ begins t ∧
      t.writer.req = none ∧ t.writer.len = n ∧ t.writer.prevLen = w.len ∧ t.writer.origin = b ∧
      t.writer.kOrigin = k ∧ t.writer.older = (w.origin, w.kOrigin, w.len) :: w.older) ∧
    (∀ at_, w.req = some (.stop at_) →
      (laterT b at_ = true → exec .epochBoundary s = .next { u with writer := { w with req := none, lastK := some w.k } }) ∧
      (laterT b at_ = false → ∃ t, exec .epochBoundary s = .next t ∧ begins t ∧ t.writer.req = w.req))) ∧
  (∀ s (c : Fin 128) (ctx : BitVec 17) (epar : Bool), (s.cell c.val).tally.get 0 (2 * ctx.toNat + b2n epar) = 0 →
    s.fabric.iso.contains c.val = false →
    exec (.bellRelease c ctx epar) s = .next (s.offerReady c.val .none)) ∧
  (∀ s e, s.writer.epoch s.writer.w = some e → s.writer.st = .running → e.k < s.writer.k →
    (∃ m ∈ e.members, m.isOpen = true) →
    let u := s.reachT64 ((s.writer.tb (e.k + 1)).toNat + s.writer.varnishLimit)
    exec .varnishLimitReached s = .next { u with writer := { s.writer with
      epochs := s.writer.epochs.map fun x => if x.k = e.k then { x with limit := true } else x } }) ∧
  (∀ s k at_, s.writer.rootVarn = [(k, at_)] →
    let u := s.reach (at_ + s.writer.settleLimit)
    let q := s.settlement k
    ∃ t, exec .settleLimitExpiry s = .next t ∧ t.writer.rootVarn = [] ∧
      t.writer.settled = some (k, q.1 ||| if q.2.2 then 256 else 0) ∧
      t.writer.cnt = s.writer.cnt.bump VarnCtr.settleMissing.ctorIdx q.2.1.length ∧
      t = { u with writer := t.writer, host := t.host })

namespace Sys2Proof.Claims
open Sys2Proof.Machine

/-- The writer's intake grants the token `k` of `src` now (R319): one from outside the cells that stands at its
port, or a cell's that waits in the intake, when its turn has come and no gap notice is due. -/
def Grants (s : State) (src : BitVec 8) (k : Token) : Prop :=
  128 ≤ src.toNat ∧ s.arrivable src.toNat k = true ∨
  src.toNat < 128 ∧ s.writer.intake.get none src.toNat = some k ∧ (∀ f ∈ s.fabric.flight, s.atWriter f = false) ∧
    s.writer.turn = some src.toNat ∧ (s.writer.notices = [] ∨ s.writer.run < 16)

/-- The intake once that token is granted: the place of a cell is free, the turn is the next cell's, and one more
cell has been granted since the last notice; of the rest of the writer `w` is what the token changes. -/
def Granted (s t : State) (src : BitVec 8) (k : Token) (w : Writer) : Prop :=
  if 128 ≤ src.toNat then LeftFabric s t src k ∧ t.writer = w
  else t.fabric.flight = s.fabric.flight ∧
    t.writer = { w with intake := w.intake.del src.toNat, next := (src.toNat + 1) % 128, run := w.run + 1 }

end Sys2Proof.Claims

/-- R315-R327, R440: results. -/
def Obligations.ResultCommands : Prop :=
  (∀ s (src : BitVec 8) (k : Token) g, k.tag.dest.toNat = 0x91 → k.tag.bell = false →
    Grants s src k → s.cutOff 0x91 = false →
    let c := k.tag.ctx.toNat
    let n := k.tag.gen.toNat
    let h := s.lifeGraph c n
    let i := k.tag.esel.toNat
    let x := Instr.resultToken src k {}
    s.graph h = some g →
    (g.resultSlots ≤ i → ∃ t, exec x s = .next t ∧
      Granted s t src k { s.writer with cnt := s.writer.cnt.bump VarnCtr.resRange.ctorIdx 1 }) ∧
    (i < g.resultSlots → ∀ e, s.resultEpoch c n k.tag.epar (g.nsink != 0) = some e →
      (e = s.writer.w → (s.bankOf h).work.slots.get none i = none →
        ∃ t, exec x s = .next t ∧ Granted s t src k { s.writer with
            epochs := t.writer.epochs, banks := t.writer.banks
            cnt := s.writer.cnt.bump VarnCtr.resWritten.ctorIdx 1 } ∧
          (t.bankOf h).work.slots.get none i = some { payload := k.payload, tag := k.tag.pack, k := e
                                                      poison := k.tag.poison, late := false, again := false } ∧
          (∀ j, j ≠ i → (t.bankOf h).work.slots.get none j = (s.bankOf h).work.slots.get none j) ∧
          (t.bankOf h).published = (s.bankOf h).published ∧ (∀ j, j ≠ h → t.bankOf j = s.bankOf j) ∧
          t.cells = s.cells) ∧
      (s.writer.w < e → s.writer.stage.length < s.writer.stageCap →
        let img : Slot :=
          { payload := k.payload, tag := k.tag.pack, k := e, poison := k.tag.poison, late := false, again := false }
        ∃ t, exec x s = .next t ∧
          Granted s t src k { s.writer with stage := s.writer.stage ++ [{ graph := h, slot := i, img := img }] }))) ∧
  (∀ s (src : BitVec 8) (k : Token), src.toNat < 128 → k.tag.dest.toNat = 0x91 → k.tag.bell = false →
    s.arrivable src.toNat k = true → s.cutOff 0x91 = false → s.writer.intake.get none src.toNat = none →
    (∀ f ∈ s.fabric.flight, f.src = src.toNat ∧ f.tok = k) →
    (∀ n, n ≠ src.toNat → n < 128 → s.writer.intake.get none n = none) →
    s.writer.notices ≠ [] → 16 ≤ s.writer.run →
    ∃ t, exec (.resultToken src k {}) s = .next t ∧ LeftFabric s t src k ∧
      t.writer = { s.writer with intake := s.writer.intake.set none src.toNat (some k) }) ∧
  (∀ s (src : BitVec 8) (k : Token) e m, k.tag.dest.toNat = 0x91 → k.tag.bell = true →
    Grants s src k → s.cutOff 0x91 = false →
    let c := k.tag.ctx.toNat
    let n := k.tag.gen.toNat
    (s.ctxOf c).shadow = false →
    s.writer.epochs.find? (fun x => x.k % 2 ^ 48 == k.word 0 + k.word 1 % 2 ^ 16 * 2 ^ 32) = some e →
    decide (k.word 0 % 2 = 1) = k.tag.epar → e.member c n = some m → m.isOpen = true → m.shadow = none →
    let x := Instr.bellAtWriter src k {}
    (m.bells + 1 < m.nsink → ∃ t, exec x s = .next t ∧
      Granted s t src k { s.writer with epochs := s.writer.epochs.map fun y => if y.k = e.k then { y with
        members := y.members.map fun z => if z.ctx = c ∧ z.gen = n then { m with bells := m.bells + 1, judging := false }
          else z } else y }) ∧
    (m.bells + 1 = m.nsink → ∃ t y z w, exec x s = .next t ∧ Granted s t src k w ∧
      t.writer.epoch e.k = some y ∧ y.member c n = some z ∧ z.closed = true ∧ z.bells = m.nsink)) ∧
  (∀ s (ctx : BitVec 17) e d,
    let c := ctx.toNat
    let judged := fun (y : EpochRec) => y.members.any fun m => m.ctx == c && m.judging && m.isOpen
    s.writer.epochs.find? judged = some e → (s.ctxOf c).partner = some d →
    let g := (s.ctxOf c).gen
    let p := e.k % 2 == 1
    let v := (s.auditClear c p).auditClear d p
    (s.auditOf c p = s.auditOf d p →
      exec (.auditVerdict ctx) s = .next ((v.watchBump .auditAgree).closeMember e.k c g)) ∧
    (s.auditOf c p ≠ s.auditOf d p →
      exec (.auditVerdict ctx) s = .next ((((v.addEntry e.k 0x42 c g 1).detect 235 0x68
        (c + e.k % 2 ^ 32 * 2 ^ 32)).watchBump .auditDisputed).closeMember e.k c g))) ∧
  (∀ s k g, s.writer.notices[k]? = some g →
    (s.writer.turn ≠ none → s.writer.run < 16 → exec (.gapNotice k) s = .next s) ∧
    (s.writer.turn = none ∨ 16 ≤ s.writer.run → exec (.gapNotice k) s = .next { s with writer := { s.writer with
      notices := s.writer.notices.eraseIdx k
      run := 0
      cnt := s.writer.cnt.bump VarnCtr.gapNotices.ctorIdx 1
      gaps := mergeGap { g with late := decide (g.k < s.writer.w) } s.writer.gaps } })) ∧
  (∀ s e, s.writer.epoch s.writer.w = some e → s.varnishable e = true →
    ∃ t report, exec .varnish s = .next t ∧ t.writer.w = e.k + 1 ∧
      t.writer.vseq = (s.writer.vseq + 1) % 2 ^ 32 ∧
      t.writer.reports = ({ k := e.k, bytes := report } :: s.writer.reports).take 64 ∧
      (s.chain.role = .off → ∃ flags, t.writer.settled = some (e.k, flags)) ∧
      (s.writer.lastK = some e.k → t.writer.st = .stopped ∧ t.writer.lastK = none) ∧
      (s.writer.lastK ≠ some e.k → t.writer.st = .running ∧ 
        t.writer.entries = s.writer.entries.filter fun g => decide (e.k < g.k) && !g.late)) ∧
  (∀ s (r : Fin 64) d b h (g : GraphBody) n, d.target.toNat = h → h < 1024 →
    let a := d.arg [4, 2, 2, 2]
    a 3 = n → Comes s r d 0x401 [4, 2, 2, 2] (4096 + 128 * n) false false → s.graph h = some g →
    a 2 + n ≤ g.resultSlots →
    let p := (s.bankOf h).published
    p.valid = true → p.k % 2 ^ 48 = a 0 + a 1 * 2 ^ 32 →
    Does (.readResults r d b) s r d 0x401 id p.vseq (bytesAt (p.fields g.resultSlots) 0 4096 ++
      (List.range n).flatMap fun i => slotBytes p (a 2 + i))) ∧
  (∀ s (r : Fin 64) d b x, Comes s r d 0x402 [4, 2] 16480 false false → d.target = 0 →
    s.writer.reports.find? (fun e => e.k % 2 ^ 48 == d.arg [4, 2] 0 + d.arg [4, 2] 1 * 2 ^ 32) = some x →
    Does (.readReport r d b) s r d 0x402 id x.bytes.length x.bytes)

/-- R360-R368, R382: the actuation ports. -/
def Obligations.NoticePorts : Prop :=
  (∀ s (r : Fin 64) d l (a : Fin 16) busy p, Comes s r d 0x302 [] 0 false false → d.target.toNat = a.val →
    recLen d = [] → params [rowEnum 3, rowEnum 2, rowEnum 2, rowNat 0 (2 ^ 48 - 1), rowNat 0x600 0xFFFF,
      PRow.mk winOk false, rowTime 10000 10000000000 1000, rowNat 1 65535] d (.data l) = .ok p →
    let o := (s.actPort a.val).cfg
    let get := fun k => (p.find? fun e => e.1 == k).map (·.2)
    let w := (get 6).getD (o.winFirst + o.winLast * 2 ^ 16)
    let cfg : ActCfg :=
      { mode := match get 1 with
          | some 0 => .off
          | some 1 => .native
          | some _ => .ethernet
          | none => o.mode
        fec := (get 2).getD (b2n o.fec) == 1, polarity := (get 3).getD (b2n o.polarity) == 1
        mac := (get 4).getD o.mac, etype := (get 5).getD o.etype, winFirst := field w 11 0
        winLast := field w 27 16, timeout := (get 7).getD o.timeout, thresh := (get 8).getD o.thresh }
    let i := Instr.actPortConfig r d ⟨.data l, busy⟩
    let p := s.actPort a.val
    let began := busy = true ∧ p.up = true ∧ p.rx = none ∧ o.mode ≠ .off
    p.next = [] →
    (p.rx = none → p.tx = false → ¬began →
      (cfg.mode ≠ .off ∨ p.up = false → Does i s r d 0x302 (State.modActPort a.val fun x => { x with cfg := cfg })) ∧
      (cfg.mode = .off → p.up = true → Does i s r d 0x302 fun t =>
        ((t.modActPort a.val fun x => { x with cfg := cfg, up := false, txCut := 0, waiting := none }).actBump
          a.val .linkDown).postEvent (272 + a.val) 0x02)) ∧
    (began → Does i s r d 0x302 (State.modActPort a.val fun x => { x with
      rx := some { cfg := o, head := false }, next := [{ cfg := cfg, rx := true, tx := x.tx }] })) ∧
    (p.rx ≠ none ∨ p.tx = true → ¬began → Does i s r d 0x302 (State.modActPort a.val fun x => { x with
      next := [{ cfg := cfg, rx := x.rx.isSome, tx := x.tx }] }))) ∧
  (∀ s (a : Fin 16), (s.actPort a.val).up = false → (s.actPort a.val).cfg.mode ≠ .off → s.isReady = true →
    s.power.rest = false → 0x92 + a.val / 8 ∉ s.power.hubOff →
    let u := s.elapse 1000000
    exec (.actLinkUp a) s = .next ((u.modActPort a.val fun p =>
      { p with up := true, heard := u.time.now }).postEvent (272 + a.val) 0x01)) ∧
  (∀ s (a : Fin 16) (sent : BitVec 12), (s.actPort a.val).up = true →
    let p := s.actPort a.val
    let u := if p.tx then { s with out := s.out ++ [.answerCut a.val (min sent.toNat p.txCut)] } else s
    exec (.actLinkDown ⟨a, sent⟩) s = .next (((u.modActPort a.val fun p =>
      { p with up := false, rx := none, tx := false, txCut := 0, waiting := none, next := []
               cfg := (p.next.getLast?.map (·.cfg)).getD p.cfg }).actBump a.val
        .linkDown).postEvent (272 + a.val) 0x02)) ∧
  (∀ s (a : Fin 16), (s.actPort a.val).up = true → (s.actPort a.val).silent = false →
    let p := s.actPort a.val
    exec (.peerSilent a) s = .next ((((s.reach (p.heard + p.cfg.timeout)).modActPort a.val fun p =>
      { p with silent := true }).actBump a.val .peerSilent).postEvent (272 + a.val) 0x07)) ∧
  (∀ s (a : Fin 16) (eth : EthHead) (head : BitVec 96) (crc : BitVec 32) bad f, (s.actPort a.val).up = true →
    (s.actPort a.val).rx.getD { cfg := (s.actPort a.val).cfg, head := false } = f →
    f.head = false → f.cfg.mode ≠ .off →
    let p := s.actPort a.val
    let h := head ++ crc
    let q := requestOf f.cfg eth h
    let i := Instr.noticeRequest a eth head crc bad
    let mine := f.cfg.mode = .ethernet → eth.dst.toNat = f.cfg.mac ∧ eth.etype.toNat = f.cfg.etype ∧
      eth.etype ≠ 0x8100#16 ∧ eth.etype ≠ 0x88A8#16
    let good := Sys2Proof.Crypto.crc32 (beBytes 12 head.toNat) = hdrAt h 12 4
    let cnt := fun (k : ActCtr) => s.act.portCnt.bump (32 * a.val + k.ctorIdx) 1
    (¬mine ∨ ¬good → ∃ t, exec i s = .next t ∧
      t.act.portCnt = (if mine then cnt .hdrCrc else cnt .notNotice) ∧
      t.actPort a.val = { p with rx := some { f with head := true } } ∧
      t = { s with act := { s.act with ports := t.act.ports, portCnt := t.act.portCnt } }) ∧
    (mine → good → hdrAt h 1 1 = 0 → bad = [] →
      (p.tx = false → p.waiting = none → ∃ t, exec i s = .next t ∧
        t.out = s.out ++ [.answer a.val (s.answerBytes a.val q)] ∧ (t.actPort a.val).tx = true ∧
        (t.actPort a.val).heard = s.time.now ∧ (t.actPort a.val).silent = false ∧ t.act.nb = s.act.nb ∧
        t.act.lines = s.act.lines ∧ t.act.map = s.act.map ∧
        t = { s with act := t.act, host := t.host, out := t.out }) ∧
      (p.tx = true → p.waiting = none → ∃ t, exec i s = .next t ∧ t.out = s.out ∧
        (t.actPort a.val).waiting = some q ∧ t.act.nb = s.act.nb ∧
        t.act.portCnt = (cnt .rxReq).bump (32 * a.val + ActCtr.answerQueued.ctorIdx) 1) ∧
      (p.tx = true → p.waiting ≠ none → ∃ t, exec i s = .next t ∧ t.out = s.out ∧
        (t.actPort a.val).waiting = p.waiting ∧ t.act.nb = s.act.nb ∧
        t.act.portCnt = (cnt .rxReq).bump (32 * a.val + ActCtr.reqOverflow.ctorIdx) 1))) ∧
  (∀ s (a : Fin 16) q, (s.actPort a.val).tx = false → (s.actPort a.val).waiting = some q →
    ∃ t, exec (.queuedAnswerStart a []) s = .next t ∧
      t.out = s.out ++ [.answer a.val (s.answerBytes a.val q)] ∧ (t.actPort a.val).tx = true ∧
      (t.actPort a.val).waiting = none ∧ t.act.nb = s.act.nb ∧ t = { s with act := t.act, out := t.out }) ∧
  (∀ s (a : Fin 16) busy, (s.actPort a.val).tx = true →
    ((s.actPort a.val).next = [] → (s.actPort a.val).cfg.mode ≠ .off →
      exec (.answerSent ⟨a, busy⟩) s = .next (s.modActPort a.val fun p => { p with
        tx := false, txCut := 0
        rx := if busy ∧ p.up ∧ p.rx = none then some { cfg := p.cfg, head := false } else p.rx })) ∧
    (∀ c, (s.actPort a.val).next = [c] → c.rx = false → busy = false → c.cfg.mode ≠ .off →
      exec (.answerSent ⟨a, busy⟩) s = .next (s.modActPort a.val fun p => { p with
        tx := false, txCut := 0, cfg := c.cfg, next := [] }))) ∧
  (∀ s (a : Fin 16) (len : BitVec 16) ok f,
    let p := s.actPort a.val
    let n := len.toNat
    p.rx.getD { cfg := p.cfg, head := false } = f → p.up = true → f.cfg.mode ≠ .off →
    p.next = [] → p.cfg.mode ≠ .off → (f.head = true ∨ f.cfg.mode = .native ∨ n < 30) →
    let errs : List ActCtr := if f.cfg.mode = .ethernet then
        (if n < 64 then [.runt] else if 64 < n then [.giant] else []) ++ (if ok then [] else [.fcsErr])
      else if f.head ∧ n ≠ 0 then [.lenErr] else []
    p.errRaised = true ∨ p.errs + errs.length < f.cfg.thresh →
    ∃ t, exec (.requestFrameEnd a len ok) s = .next t ∧
      t.actPort a.val = { p with rx := none, errs := p.errs + errs.length } ∧
      t.act.portCnt = errs.foldl (fun c k => c.bump (32 * a.val + k.ctorIdx) 1) s.act.portCnt ∧
      t = { s with act := { s.act with ports := t.act.ports, portCnt := t.act.portCnt } }) ∧
  (∀ s (r : Fin 64) d l (a : Fin 16) wait, Comes s r d 0x503 [4] 32 false false → d.target.toNat = 2 ^ a.val →
    d.arg [4] 0 = wait → 10 ≤ wait → wait ≤ 100000 → (s.actPort a.val).up = true →
    (s.actPort a.val).cfg.mode ≠ .off → (s.actPort a.val).ann = none →
    ∃ t, exec (.noticeSend r d (.data l)) s = .next t ∧
      (t.actPort a.val).ann = some (bytesAt (bufBytes d (.data l)) 0 32) ∧
      (t.actPort a.val).annSeq = (s.actPort a.val).annSeq + 1 ∧ (∀ k, k ≠ a.val → t.actPort k = s.actPort k) ∧
      t.act.sends = s.act.sends ++
        [{ mask := 2 ^ a.val, sent := 2 ^ a.val, acked := 0, due := s.time.now + 1000 * wait }] ∧
      t.host.running = s.host.running ++ [{ ring := r.val, desc := d, live := true
                                            wait := .noticeSend (2 ^ a.val), t0 := s.time.now }]) ∧
  (∀ s (a : Fin 16) x, s.act.sends.find? (fun x => bit x.sent a.val && !bit x.acked a.val) = some x →
    x.acked = 0 → x.mask ≠ 0 →
    ∃ t, exec (.annWaitExpiry a) s = .next t ∧ (t.actPort a.val).ann = none ∧
      t.act.sends = s.act.sends.filter (fun z => z.sent != x.sent) ∧
      t.host.running = s.host.running.filter (fun y => y.wait != .noticeSend x.sent) ∧
      t.time = (s.reach (x.due + 1)).time ∧ t.act.nb = s.act.nb)

/-- R370-R380: the Noticeboard and the trips. -/
def Obligations.NoticeboardAndTrips : Prop :=
  let follows := fun (t : State) => ∀ n, n < 32 → t.act.tripState.getLsbD n = t.act.healthy n
  (∀ s (r : Fin 64) d l (n : BitVec 12) p, Comes s r d 0x504 [2] 0 false false → d.target.toNat = n.toNat →
    d.arg [2] 0 = 1 → s.authorised = true → recLen d = [] →
    params [rowEnum 2, rowEnum 4, rowNat 10 100000000, rowNat 0 (2 ^ 64 - 1), rowNat 0 65535] d (.data l) = .ok p →
    let e := s.nbEntry n.toNat
    let get := fun k => (p.find? fun e => e.1 == k).map (·.2)
    let fmask := BitVec.ofNat 16 ((get 5).getD e.fmask.toNat)
    let on := (get 1).getD (b2n e.enable) == 1
    e.st ≠ .forced → e.st ≠ .released → (get 1 ≠ none ∨ get 2 ≠ none ∨ get 4 ≠ none ∨ get 5 ≠ none) →
    s.act.lines &&& fmask = 0 → (∀ k, (s.nbEntry k).judge s.act.lines s.time.t64 = s.nbEntry k) →
    ∃ f, Does (.nbProgram r d (.data l)) s r d 0x504 f ∧
      let u := taken s r.val 0x504
      let t := f u
      t.nbEntry n.toNat = { e with
        enable := on, wclass := (get 2).getD e.wclass, maxAge := (get 3).getD e.maxAge
        safe := BitVec.ofNat 64 ((get 4).getD e.safe.toNat), fmask := fmask
        st := if on then .wait else .disabled, fresh := if on then 0 else e.fresh } ∧
      (∀ k, k ≠ n.toNat → t.nbEntry k = s.nbEntry k) ∧
      t = { u with act := { s.act with nb := t.act.nb } }) ∧
  (∀ s (r : Fin 64) d l, Comes s r d 0x505 [] 0 false false → s.authorised = true → recLen d = [] →
    (∀ (n : BitVec 8) p, d.target.toNat = 2 ^ 24 + n.toNat → params [rowEnum 2, rowNat 0 (2 ^ 32 - 1), rowEnum 4,
        { ok := fun v => v == 0 || (decide (10 ≤ v) && decide (v ≤ 100000000)) }] d (.data l) = .ok p →
      let m := s.act.map.get {} n.toNat
      let get := fun k => (p.find? fun e => e.1 == k).map (·.2)
      (∀ v, get 2 = some v → ∀ k < 32, (BitVec.ofNat 32 v).getLsbD k = true → (s.act.trip k).enable = true) →
      s.act.maskForced (m.mask ||| BitVec.ofNat 32 ((get 2).getD 0)) = false →
      ∃ f, Does (.tripConfig r d (.data l)) s r d 0x505 f ∧
        let u := taken s r.val 0x505
        let t := f u
        t.act.map.get {} n.toNat = { m with
          enable := (get 1).getD (b2n m.enable) == 1, mask := BitVec.ofNat 32 ((get 2).getD m.mask.toNat)
          wclass := (get 3).getD m.wclass, maxAge := (get 4).getD m.maxAge, healthy := false } ∧
        (∀ k, k ≠ n.toNat → t.act.map.get {} k = s.act.map.get {} k) ∧ t.act.trips = s.act.trips ∧ follows t) ∧
    (∀ (n : Fin 32) p, d.target.toNat = n.val → params [rowEnum 2, rowNat 0 65535] d (.data l) = .ok p →
      let o := s.act.trip n.val
      let get := fun k => (p.find? fun e => e.1 == k).map (·.2)
      s.act.forced o.fmask = false →
      ∃ f, Does (.tripConfig r d (.data l)) s r d 0x505 f ∧
        let u := taken s r.val 0x505
        let t := f u
        t.act.trip n.val = { o with
          enable := (get 1).getD (b2n o.enable) == 1, fmask := BitVec.ofNat 16 ((get 2).getD o.fmask.toNat) } ∧
        (∀ k, k ≠ n.val → t.act.trip k = s.act.trip k) ∧ t.act.map = s.act.map ∧ follows t)) ∧
  (∀ s (src : BitVec 8) (k : Token) (n : BitVec 12), k.tag.dest.toNat = 0x92 → s.arrivable src.toNat k = true →
    s.cutOff 0x92 = false → k.tag.esel.toNat = n.toNat → k.tag.len.toNat ≤ 1 → k.tag.bell = false →
    k.tag.poison = false → 128 ≤ src.toNat →
    let e := s.nbEntry n.toNat
    let x := Instr.noticeboardWrite src k {}
    let cnt := fun (k : NbCtr) => s.act.cnt.bump k.ctorIdx 1
    (e.st = .disabled → ∃ t, exec x s = .next t ∧ LeftFabric s t src k ∧
      t.act = { s.act with cnt := cnt .nbDisabled }) ∧
    (e.st ≠ .disabled → e.wclass < k.tag.cls.toNat → ∃ t, exec x s = .next t ∧ LeftFabric s t src k ∧
      t.act = { s.act with cnt := cnt .wclassDrop }) ∧
    (e.st ≠ .disabled → k.tag.cls.toNat ≤ e.wclass →
      (e.st = .forced → ∃ t, exec x s = .next t ∧ LeftFabric s t src k ∧
        t.act = { s.act with cnt := cnt .forcedDrop }) ∧
      (e.st ≠ .forced → (e.st = .released → laterT s.time.t64 e.relAt = true) →
        let v := if k.tag.len = 0 then k.word 0 else k.word 0 + k.word 1 * 2 ^ 32
        ∃ t, exec x s = .next t ∧ LeftFabric s t src k ∧ t.cells = s.cells ∧ t.act = { s.act with
          nb := s.act.nb.set {} n.toNat { e with st := .live, value := BitVec.ofNat 64 v, fresh := s.time.t64 }
          cnt := cnt .nbWrites }))) ∧
  (∀ s (src : BitVec 8) (k : Token) (n : BitVec 8), k.tag.dest.toNat = 0x93 → s.arrivable src.toNat k = true →
    s.cutOff 0x93 = false → k.tag.esel.toNat = n.toNat → 128 ≤ src.toNat →
    let m := s.act.map.get {} n.toNat
    let x := Instr.tripCommand src k {}
    (m.enable = false → ∃ t, exec x s = .next t ∧ LeftFabric s t src k ∧
      t.act = { s.act with cnt := s.act.cnt.bump NbCtr.tripBadEntry.ctorIdx 1 }) ∧
    (m.enable = true → k.tag.cls.toNat ≤ m.wclass → ∀ h, (k.tag.poison = true ∧ h = false ∨
        k.tag.poison = false ∧ k.tag.len = 0 ∧ k.tag.bell = false ∧ k.word 0 = 1 ∧ h = false ∨
        k.tag.poison = false ∧ k.tag.len = 0 ∧ k.tag.bell = false ∧ k.word 0 = 0 ∧
          s.act.maskForced m.mask = false ∧ h = true) →
      ∃ t, exec x s = .next t ∧ LeftFabric s t src k ∧
        t.act.map.get {} n.toNat = { m with healthy := h, lastCmd := s.time.t64 } ∧
        (∀ j, j ≠ n.toNat → t.act.map.get {} j = s.act.map.get {} j) ∧ t.act.nb = s.act.nb ∧ follows t ∧
        t.cells = s.cells)) ∧
  (∀ s, ∃ t, exec .tripAgeCheck s = .next t ∧
    let u := s.reach ((s.time.now / 1000 + 1) * 1000)
    (∀ n, let m := s.act.map.get {} n
      t.act.map.get {} n = { m with healthy := m.healthy && !m.aged u.time.t64 }) ∧ follows t ∧
    t.act.trips = s.act.trips ∧ t = { u with act := t.act }) ∧
  (∀ s (k : Fin 16), s.watch.lines.getLsbD k.val = true → s.act.lines.getLsbD k.val = false →
    ∃ t, exec (.forceLineAssert k) s = .next t ∧ t.act.lines = s.act.lines ||| (1#16 <<< k.val) ∧
      (∀ n, (s.nbEntry n).st ≠ .disabled → (s.nbEntry n).fmask.getLsbD k.val = true →
        (t.nbEntry n).st = .forced) ∧
      (∀ n, (s.nbEntry n).st = .disabled → t.nbEntry n = s.nbEntry n) ∧
      (∀ n m, (s.act.map.get {} m).enable = true → n < 32 → (s.act.map.get {} m).mask.getLsbD n = true →
        (s.act.trip n).fmask.getLsbD k.val = true → (t.act.map.get {} m).healthy = false) ∧ follows t ∧
      t = { s with act := t.act }) ∧
  (∀ s (k : Fin 16), s.watch.lines.getLsbD k.val = false → s.act.lines.getLsbD k.val = true →
    ∃ t, exec (.forceLineDeassert k) s = .next t ∧ t.act.lines = s.act.lines &&& ~~~(1#16 <<< k.val) ∧
      (∀ n, (s.nbEntry n).st = .forced → t.act.lines &&& (s.nbEntry n).fmask = 0 →
        t.nbEntry n = { s.nbEntry n with st := .released, relAt := s.time.t64 }) ∧
      t.act.map = s.act.map ∧ follows t ∧ t = { s with act := t.act })

/-- R467-R478: resets and starts. -/
def Obligations.StartCommands : Prop :=
  let full := fun (s : State) => { State.reset with
    time := { State.reset.time with now := s.time.now, t64 := s.time.t64, frac := s.time.frac }
    setup := { State.reset.setup with
      ppsInEdge := s.fuses.ppsInEdge, ppsOutWidth := s.fuses.ppsOutWidth, assetTag := s.fuses.assetTag }
    watch := { State.reset.watch with levels :=
      (if s.board.supplyOut = [] then [] else [(239, 0x88)]) ++ (if s.board.refclk then [] else [(240, 0x90)]) ++
      if s.aon.sealSt = .opened then [(242, 0x98)] else [] }
    aon := s.aon, fuses := s.fuses, board := s.board, out := s.out, fresh := s.fresh, pending := s.pending }
  (∀ s, exec .powerUp s = .next (full { s with board := { s.board with supplyOut := [] } })) ∧
  (∀ s, exec .resetNAssert s = .next (full { s with board := { s.board with resetLow := true } })) ∧
  (∀ s l, s.power.phase = .pause l →
    exec .retryPauseExpiry s = .next (full (s.reach (s.power.pauseAt + 10000000)))) ∧
  (∀ s (r : Fin 64) d b, Comes s r d 0x70B [] 0 true true → d.target = 0 → s.authorised = true →
    let u := taken s r.val 0x70B
    exec (.restart r d b) s = .next (full (if s.power.phase = .lantern
      then { u with aon := { s.aon with startFails := 0 } } else u))) ∧
  (∀ s, ∃ t, exec .alwaysOnReset s = .next t ∧ t.aon = {
      present := false, keyN := s.aon.keyN, keySince := s.time.now, keyPending := false, samples := []
      loopClosed := false, sealSt := .unsealed, startFails := 0, why0 := 0, why1 := 0, why2 := 0, stage := 0
      tFail := 0, cellFail := [], hbmState := [2, 2, 2, 2], cnt := [] } ∧
    t.watch.levels = s.watch.levels.erase (242, 0x98) ∧
    t = { s with aon := t.aon, watch := t.watch, host := t.host }) ∧
  (∀ s, s.power.phase = .held → s.board.refclk = true → s.board.supplyOut = [] →
    let starts := s.aon.cnt.bump AonCtr.starts.ctorIdx 1
    let board := { s.board with resetLow := false }
    (s.aon.startFails ≠ 3 → exec .resetRelease s = .next { s with
      board := board, aon := { s.aon with cnt := starts, hbmState := [2, 2, 2, 2] }
      power := { s.power with phase := .boot 1, relAt := s.time.now } }) ∧
    (s.aon.startFails = 3 → exec .resetRelease s = .next { s with
      board := board, aon := { s.aon with cnt := starts.bump AonCtr.lanternEntries.ctorIdx 1 }
      power := { s.power with phase := .lanternBoot 1, relAt := s.time.now } })) ∧
  (∀ s k, s.power.phase = .boot k → s.board.supplyOut = [] → s.watch.fstate ≠ .halted →
    let go := fun (n : Nat) => { s with power := { s.power with phase := .boot n } }
    ((k = 1 ∨ k = 2) → exec (.bootStageDone .ok) s = .next (go (k + 1))) ∧
    (k = 3 → s.board.flash = true → exec (.bootStageDone .ok) s = .next { s with
      power := { s.power with phase := .boot 4, flashFound := true } }) ∧
    (k = 4 → ∀ i, s.bootImage = some i → exec (.bootStageDone .ok) s = .next { s with
      power := { s.power with
        phase := .boot 5, running := some i, slotAAuth := (s.fuses.boots s.board.slotA).isSome
        slotBAuth := (s.fuses.boots s.board.slotB).isSome } }) ∧
    (k = 5 → exec (.bootStageDone .ok) s = .next { go 6 with aon := { s.aon with hbmState := [0, 0, 0, 0] } }) ∧
    (k = 6 → ∃ t, exec (.bootStageDone .ok) s = .next t ∧ t.power.phase = .boot 7 ∧
      (∀ e ∈ systemRegions, (t.respAt e.1).regions.get {} e.2.1 =
        { valid := true, base := e.2.2.1, length := e.2.2.2 }) ∧
      t = { s with power := t.power, fabric := t.fabric }) ∧
    (k = 7 → ∀ bad : List (Fin 132),
      let l := (bad.map (·.val)).eraseDups
      let n := (l ++ s.fuses.cellMap).eraseDups.length
      n ≤ 4 → exec (.bootStageDone (.cells bad)) s = .next { s with
        aon := { s.aon with cellFail := l }, power := { s.power with phase := .boot 8, mappedOut := n } }) ∧
    (k = 7 → exec (.bootStageDone .ok) s = exec (.bootStageDone (.cells [])) s) ∧
    (k = 8 → s.aon.keyPending = false → s.trace.syncDue = false → exec (.bootStageDone .ok) s = .next { s with
      power := { s.power with phase := .ready, restSince := some s.time.now }
      aon := { s.aon with startFails := 0 } })) ∧
  (∀ s k (c : BitVec 8), s.power.phase = .boot k → s.board.supplyOut = [] → s.watch.fstate ≠ .halted →
    let fails := fun (s : State) (c : BitVec 8) => { s with
      power := { s.power with phase := .pause false, pauseAt := s.time.now }
      aon := { s.aon with
        why0 := c, why1 := s.aon.why0, why2 := s.aon.why1, stage := k
        startFails := min 3 (s.aon.startFails + 1), tFail := BitVec.ofNat 32 (s.time.t64.toNat / 1000)
        cnt := s.aon.cnt.bump AonCtr.startFailTotal.ctorIdx 1 } }
    (k = 7 → ∀ bad : List (Fin 132),
      let l := (bad.map (·.val)).eraseDups
      4 < (l ++ s.fuses.cellMap).eraseDups.length → exec (.bootStageDone (.cells bad)) s =
        .next (fails { s with aon := { s.aon with cellFail := l } } 0x0A)) ∧
    (reasonAt k c.toNat = true → exec (.bootStageDone (.fail c)) s = .next (fails s c)) ∧
    exec .startTimeout s = .next (fails (s.reach (s.power.relAt + 2000000000)) 0x0D)) ∧
  (∀ s, s.power.phase ≠ .held →
    exec .pcieLinkTrained s = .next { s with host := { s.host with linkUp := true } }) ∧
  (∀ s (r : Fin 64) d l, Comes s r d 0x705 [] 256 true false → d.target = 0 → s.authorised = true →
    let x := bufBytes d (.data l)
    imageLen d (.data l) = [] → imageType d (.data l) 2 = [] → leAt x 16 4 ≤ 8 * 2 ^ 20 →
    let i := Instr.fwUpdate r d (.data l)
    (s.fuses.authentic x = false → exec i s = .next ((s.fetched r.val).finish r.val d eSig)) ∧
    (s.fuses.authentic x = true → ∃ v, let img : FwImage :=
        { svn := leAt x 8 4, commit := bit (leAt x 6 1) 0, version := v, key := leAt x 5 1 }
      let toB := s.power.running.any fun y => !y.2
      Does i s r d 0x705 fun s => { s with
        fresh := s.fresh + 1
        board := if toB then { s.board with slotB := some img } else { s.board with slotA := some img } })) ∧
  (∀ s (r : Fin 64) d b, Comes s r d 0x70A [] 128 true false → d.target = 0 →
    let l := (taken s r.val 0x70A).diagBlock
    (s.aon.hbmState.length = 4 → l.length = 128) ∧ Does (.lanternDiag r d b) s r d 0x70A id 128 l)

/-- R272, R479-R491, R528: power and self-test. -/
def Obligations.PowerAndTests : Prop :=
  (∀ s (k : Fin 9) (mv : BitVec 16), k.val ∉ s.board.supplyOut → s.power.phase = .ready →
    let u := { s with board := { s.board with
      supplyOut := s.board.supplyOut ++ [k.val], supplyMv := s.board.supplyMv.set 0 k.val mv.toNat } }
    exec (.supplyOut k mv) s = .next ((u.postEvent 453 0xC0 k.val mv.toNat).detect 239 0x88 k.val)) ∧
  (∀ s (k : Fin 9) (mv : BitVec 16), s.board.supplyOut = [k.val] →
    let u := { s with board := { s.board with
      supplyOut := [], supplyMv := s.board.supplyMv.set 0 k.val mv.toNat } }
    exec (.supplyIn k mv) s = .next ((u.postEvent 453 0xC1 k.val mv.toNat).endLevel 239 0x88)) ∧
  (∀ s, s.power.phase = .ready → exec .refclkLoss s = .next
    (State.detect { s with board := { s.board with refclk := false } } 240 0x90)) ∧
  (∀ s (n : BitVec 9) (v : BitVec 16), v.toInt ≤ 920 → n.toNat ∉ s.power.tjCrit →
    let u := { s with board := { s.board with tjMax := max s.board.tjMax v.toInt } }
    let hot := s.power.hot.contains n.toNat
    let lim : Int := (8 * s.reeve.hotLimit : Nat)
    (hot = false → v.toInt < lim → exec (.junctionSensorRead n v) s = .next u) ∧
    (hot = false → lim ≤ v.toInt → exec (.junctionSensorRead n v) s = .next (State.postEvent { u with
      power := { s.power with hot := s.power.hot ++ [n.toNat] } } 451 0xB0 n.toNat (narrow 64 v.toInt))) ∧
    (hot = true → v.toInt ≤ lim - 40 → exec (.junctionSensorRead n v) s = .next (State.postEvent { u with
      power := { s.power with hot := s.power.hot.erase n.toNat } } 451 0xB1 n.toNat (narrow 64 v.toInt)))) ∧
  (∀ s (k : BitVec 8), 128 ≤ k.toNat → s.isReady = true → s.hubIdle k.toNat = true →
    k.toNat ∉ s.power.hubOff → (∀ f ∈ s.fabric.fencing, f.1 ≠ k.toNat) → k.toNat ∉ s.fabric.fenced →
    exec (.fenceRequest k) s = .next { s with fabric := { s.fabric with
      fencing := s.fabric.fencing ++ [(k.toNat, s.time.now)] } }) ∧
  (∀ s (k : BitVec 8), 128 ≤ k.toNat → s.hubIdle k.toNat = true → (∃ at_, (k.toNat, at_) ∈ s.fabric.fencing) →
    exec (.fenceComplete k) s = .next { s with
      fabric := { s.fabric with
        fencing := s.fabric.fencing.filter fun x => x.1 != k.toNat
        fenced := if s.fabric.fenced.contains k.toNat then s.fabric.fenced else s.fabric.fenced ++ [k.toNat] }
      power := { s.power with hubOff := s.power.hubOff ++ [k.toNat] } }) ∧
  (∀ s (k : BitVec 8), k.toNat ∈ s.power.hubOff → s.power.rest = false →
    exec (.hubWake k) s = .next { s with
      power := { s.power with hubOff := s.power.hubOff.erase k.toNat }
      fabric := { s.fabric with fenced := s.fabric.fenced.erase k.toNat } }) ∧
  (∀ s at_, s.power.restSince = some at_ → s.restful = true → s.power.rest = false →
    ∃ t, exec .restEntry s = .next t ∧ t.power.rest = true ∧ t.power.hubOff = restHubs ∧
      t.time = (s.reach (at_ + 1000000001)).time ∧ (∀ h ∈ restHubs, h ∈ t.fabric.fenced) ∧ t.cells = s.cells ∧
      t.aon.cnt = s.aon.cnt.bump AonCtr.restEntries.ctorIdx 1) ∧
  (∀ s, s.power.rest = true → ∃ t, exec .restExit s = .next t ∧ t.power.rest = false ∧
    t.power.scrub = [0, 1, 2, 3] ∧ t.power.restSince = some s.time.now ∧ t.cells = s.cells) ∧
  (∀ s (k : Fin 4) (n : BitVec 32), k.val ∈ s.power.scrub →
    let u := { s with
      power := { s.power with scrub := s.power.scrub.erase k.val }
      aon := { s.aon with cnt := s.aon.cnt.bump AonCtr.scrubCorrected.ctorIdx n.toNat } }
    exec (.scrubDone k n []) s = .next (u.postEvent (307 + k.val) 0xE0 n.toNat)) ∧
  (∀ s (r : Fin 64) d b (n : Fin 128), Comes s r d 0x602 [] 0 false false →
    let u := taken s r.val 0x602
    let run := fun (w : Wait) => { u.host with running := s.host.running ++
      [{ ring := r.val, desc := d, live := true, wait := w, t0 := s.time.now }] }
    (d.target.toNat = n.val → s.pairClass0 n.val = false → s.testing n.val = false →
      s.power.cellTest.length < 4 →
      let test : CellTest := { st := .draining, since := s.time.now, aborted := false }
      exec (.selfTest r d b) s = .next { u with
        power := { u.power with cellTest := s.power.cellTest.set none n.val (some test) }
        host := run (.cellTest n.val) }) ∧
    (d.target.toNat = 2 ^ 24 + n.val → s.power.hbmTest.get none n.val = none →
      s.power.hbmTest.get none (if n.val % 2 = 0 then n.val + 1 else n.val - 1) = none →
      exec (.selfTest r d b) s = .next { u with
        power := { u.power with hbmTest := s.power.hbmTest.set none n.val (some { seg := 0, fail := 0 }) }
        host := run (.hbmTest n.val) })) ∧
  (∀ s (c : Fin 128) x, s.power.cellTest.get none c.val = some x →
    let f := s.fabric
    let wait := s.power.cellTest.set none c.val (some { x with st := .fenced, since := s.time.now })
    let fenced := { f with fencing := f.fencing.filter (fun y => y.1 != c.val), fenced := f.fenced.erase c.val }
    (x.st = .draining → s.drained c.val = true →
      exec (.drainEnd c) s = .next (State.halfCheck { s with
        power := { s.power with cellTest := wait }
        fabric := { f with fencing := f.fencing ++ [(c.val, s.time.now)] } } (c.val / 2))) ∧
    (x.st = .draining → s.drained c.val = false →
      let u := s.reach (x.since + 1000000001)
      exec (.drainTimeout c) s = .next (State.completeWhere { u with
        power := { s.power with cellTest := s.power.cellTest.del c.val } }
        (fun r => r.wait == .cellTest c.val) eTimeout)) ∧
    (x.st = .fenced → exec (.fenceRequest (BitVec.ofNat 8 c.val)) s = .next (
      if f.fencing.any (fun y => y.1 == c.val) || f.fenced.contains c.val then s
      else { s with fabric := { f with fencing := f.fencing ++ [(c.val, s.time.now)] } })) ∧
    ((∃ at_, (c.val, at_) ∈ f.fencing) → ∃ t, exec (.fenceComplete (BitVec.ofNat 8 c.val)) s = .next t ∧
      t.power.cellTest.get none c.val = some { x with st := .testing, since := s.time.now } ∧
      c.val ∈ t.fabric.fenced ∧ t = { s with power := t.power, fabric := t.fabric }) ∧
    (x.st = .fenced → ∃ t, exec (.fenceTimeout c) s = .next t ∧ c.val ∈ t.fabric.iso ∧
      t.power.cellTest = s.power.cellTest.del c.val ∧
      t.host.running = s.host.running.filter (fun r => r.wait != .cellTest c.val)) ∧
    (x.st = .testing → x.aborted = false → ∃ t, exec (.cellTestDone c 0) s = .next t ∧
      t.power.cellTest = s.power.cellTest.del c.val ∧ t.fabric.iso = f.iso.erase c.val ∧
      t.fabric.fenced = fenced.fenced ∧ (t.cell c.val).que.eb0 = [] ∧ (t.cell c.val).que.express = [] ∧
      (t.cell c.val).cellGen = (s.cell c.val).cellGen + 1 ∧
      t.aon.cnt = s.aon.cnt.bump AonCtr.cellTestPass.ctorIdx 1 ∧
      t.host.running = s.host.running.filter (fun r => r.wait != .cellTest c.val))) ∧
  (∀ s (k : Fin 128) (bad : BitVec 32) x, s.power.hbmTest.get none k.val = some x → bad.toNat ≤ 32768 →
    let y : HbmTest := { seg := x.seg + 1, fail := x.fail + bad.toNat }
    (x.seg + 1 < 384 → exec (.hbmTestSegment k bad) s = .next { s with
      power := { s.power with hbmTest := s.power.hbmTest.set none k.val (some y) } }) ∧
    (384 ≤ x.seg + 1 → x.fail = 0 → bad = 0 → exec (.hbmTestSegment k bad) s = .next (State.completeWhere { s with
      power := { s.power with hbmTest := s.power.hbmTest.del k.val }
      aon := { s.aon with cnt := s.aon.cnt.bump AonCtr.hbmTestPass.ctorIdx 1 } }
      (fun r => r.wait == .hbmTest k.val) stOk 0))) ∧
  (∀ s (c : Fin 16), c.val ∉ s.power.colLost →
    ∃ t, exec (.columnPowerGoodLoss c) s = .next t ∧ t.power.colLost = s.power.colLost ++ [c.val] ∧
      (∀ i, i < 8 → c.val + 16 * i ∈ t.fabric.iso) ∧ (∀ u ∈ s.fabric.iso, u ∈ t.fabric.iso) ∧
      t.aon.cnt = s.aon.cnt.bump AonCtr.colpwrLoss.ctorIdx 1) ∧
  (∀ s (c : Fin 16), c.val ∈ s.power.colLost → s.power.cellTest = [] →
    ∃ t, exec (.columnPowerGoodReturn c) s = .next t ∧ t.power.colLost = s.power.colLost.erase c.val ∧
      (∀ i, i < 8 → (t.cell (c.val + 16 * i)).cellGen = (s.cell (c.val + 16 * i)).cellGen + 1 ∧
        (t.cell (c.val + 16 * i)).nodes = [] ∧ c.val + 16 * i ∈ t.reeve.stale) ∧
      (∀ n, n % 16 ≠ c.val → t.cell n = s.cell n) ∧ t.fabric.iso = s.fabric.iso)

/-- R447-R449, R458: presence, the seal and the key slots. -/
def Obligations.PresenceAndKeys : Prop :=
  (∀ s high, s.aon.keyN = !high → exec (.keyNChange high) s =
    .next { s with aon := { s.aon with keyN := high, keySince := s.time.now } }) ∧
  (∀ s, s.aon.present = s.aon.keyN →
    ∃ t, exec .presenceChange s = .next t ∧ t.aon.present = !s.aon.keyN ∧
      s.aon.keySince + 20000000 ≤ t.time.now ∧
      t.aon.cnt = s.aon.cnt.bump AonCtr.keyChanges.ctorIdx 1 ∧
      (s.serving = true → (s.host.src.get {} 449).en = true → (s.host.src.get {} 449).pend = none →
        ∃ e, (t.host.src.get {} 449).pend = some e ∧ e.cause = (if s.aon.keyN then 0xA1 else 0xA0)) ∧
      (s.serving = false → t.aon.keyPending = true ∧ t.host = s.host) ∧
      t.aon.sealSt = s.aon.sealSt ∧ t = { s with time := t.time, aon := t.aon, host := t.host }) ∧
  (∀ s m,
    let at_ := s.reach ((s.time.now + 50000) / 100000 * 100000 + 50000)
    let l := (m :: s.aon.samples).take 8
    let closed := l.length = 8 ∧ ∀ b ∈ l, b = true
    let opened := 2 ≤ (l.take 4).count false
    let put := fun (loop : Bool) (x : Seal) => { at_ with aon := { s.aon with
      samples := l, loopClosed := loop, sealSt := x } }
    (closed → s.aon.sealSt ≠ .opened → exec (.sealSample m) s = .next (put true s.aon.sealSt)) ∧
    (closed → s.aon.sealSt = .opened →
      let u := put true .unsealed
      exec (.sealSample m) s = .next ((u.postEvent 450 0xA9 u.presenceStatus).endLevel 242 0x98)) ∧
    (opened → s.aon.sealSt = .opened → exec (.sealSample m) s = .next (put false .opened)) ∧
    (opened → s.aon.sealSt = .unsealed →
      let u := put false .opened
      exec (.sealSample m) s = .next ((u.postEvent 450 0xA8 u.presenceStatus).detect 242 0x98)) ∧
    (opened → s.aon.sealSt = .sealed →
      let u := put false .opened
      let v := { u with aon := { u.aon with cnt := u.aon.cnt.bump AonCtr.sealOpens.ctorIdx 1 } }
      exec (.sealSample m) s = .next ((v.postEvent 450 0xA8 v.presenceStatus).detect 242 0x98)) ∧
    (¬closed → ¬opened → exec (.sealSample m) s = .next (put s.aon.loopClosed s.aon.sealSt))) ∧
  (∀ s (r : Fin 64) d l, Comes s r d 0x706 [] 16 false false → s.authorised = true →
    let b := bufBytes d (.data l)
    let blob := fun (kt kl : Nat) => d.hlen.toNat = 16 + kl ∧ leAt b 0 4 = kt ∧ leAt b 4 4 = kl ∧
      zeroAt b 8 8 = true
    let burns := fun (f : Fuses) => Does (.keyProvision r d (.data l)) s r d 0x706
      fun u => { u with fuses := f }
    let f := s.fuses
    let t := d.target.toNat
    (t < 4 → blob 1 32 → f.locked = false → (∀ e ∈ f.reportKey, e.1 ≠ t) →
      burns { f with reportKey := f.reportKey.ins t (bytesAt b 16 32) }) ∧
    (4 ≤ t → t < 6 → blob 2 48 → f.locked = false → (∀ e ∈ f.graphPkh, e.1 ≠ t - 4) →
      burns { f with graphPkh := f.graphPkh.ins (t - 4) (bytesAt b 16 48) }) ∧
    (∀ i k, i + k = 1 → blob 3 0 →
      (t = 0x10 + i → i ∉ f.graphRevoke → (∃ e ∈ f.graphPkh, e.1 = i) →
        (∃ e ∈ f.graphPkh, e.1 = k ∧ k ∉ f.graphRevoke) →
        burns { f with graphRevoke := f.graphRevoke ++ [i] }) ∧
      (t = 0x18 + i → i ∉ f.fwRevoke → (∃ e ∈ f.fwPkh, e.1 = i) →
        (∃ e ∈ f.fwPkh, e.1 = k ∧ k ∉ f.fwRevoke) →
        burns { f with fwRevoke := f.fwRevoke ++ [i] })))

/-- R454, R459: the seal is set again, and the fuses are locked. -/
def Obligations.ResealAndFuseLock : Prop :=
  (∀ s (r : Fin 64) d b, Comes s r d 0x709 [] 0 true false → d.target = 0 →
    let i := Instr.reseal r d b
    let ends := fun (u : State) (st : Nat) => exec i s = .next (u.complete r.val d true st 0 0 [])
    (s.aon.present = false → ends ((s.fetched r.val).aonBump .presenceReject) ePresence) ∧
    (s.aon.present = true →
      (s.aon.sealSt = .sealed ∨ s.aon.sealSt = .opened → ends (s.fetched r.val) eState) ∧
      (s.aon.sealSt = .unsealed → Does i s r d 0x709 fun u =>
        let v := { u with aon := { u.aon with
          sealSt := .sealed, cnt := u.aon.cnt.bump AonCtr.reseals.ctorIdx 1 } }
        v.postEvent 450 0xAA v.presenceStatus))) ∧
  (∀ s (r : Fin 64) d b, Comes s r d 0x708 [] 0 false false → d.target = 0 → s.authorised = true →
    (s.fuses.locked = false → Does (.fuseLock r d b) s r d 0x708
      fun u => { u with fuses := { u.fuses with locked := true } }) ∧
    (s.fuses.locked = true → exec (.fuseLock r d b) s =
      .next ((s.fetched r.val).complete r.val d true eLocked 0 0 []))) ∧
  (∀ c s t, s.fuses.locked = true → exec c s = .next t →
    t.fuses.locked = true ∧ t.fuses.reportKey = s.fuses.reportKey ∧ t.fuses.graphPkh = s.fuses.graphPkh ∧
    t.fuses.fwPkh = s.fuses.fwPkh) ∧
  (∀ s (r : Fin 64) d l, Comes s r d 0x706 [] 16 false false → s.authorised = true → s.fuses.locked = true →
    let b := bufBytes d (.data l)
    (d.target.toNat < 4 ∧ leAt b 0 4 = 1 ∧ leAt b 4 4 = 32 ∨
      4 ≤ d.target.toNat ∧ d.target.toNat < 6 ∧ leAt b 0 4 = 2 ∧ leAt b 4 4 = 48) →
    d.hlen.toNat = 16 + leAt b 4 4 → zeroAt b 8 8 = true →
    exec (.keyProvision r d (.data l)) s = .next ((s.fetched r.val).complete r.val d true eLocked 0 0 [])) ∧
  (∀ s o n v t, s.fuses.locked = true → exec (.setupRegisterWrite o n v) s = .next t →
    t.setup.ppsInEdge = s.setup.ppsInEdge ∧ t.setup.ppsOutWidth = s.setup.ppsOutWidth ∧
    t.setup.assetTag = s.setup.assetTag)

/-- R417-R436: the Watch. -/
def Obligations.WatchEvents : Prop :=
  (∀ s (src fcode : BitVec 8) (data : BitVec 64) bad r, s.watch.selfStall = false →
    s.watch.raises.find? (fun r => r.src == src.toNat && r.fcode == fcode.toNat && r.data == data.toNat) = some r →
    let k := classOf r.src
    let x := s.reactionOf k
    let w := s.watch
    let i := Instr.faultRaise src fcode ⟨data, bad⟩
    let lines := w.lines ||| (if x = .halt then 0xFFFF#16 else if x = .safe ∨ x = .isolate then 1#16 <<< k else 0)
    let ev := fun (m : Bool) => if x = .record then [] else [(r, m)]
    let steward := { s.steward with evPend := s.steward.evPend ||| 0x02#7 |||
      (if r.src = 236 then 0x04#7 else if 192 ≤ r.src ∧ r.src < 212 then 0x40#7 else 0) }
    let got := { w with
      raises := dropFirst (· == r) w.raises, srcCount := w.srcCount.bump r.src 1, quiet := none, lines := lines
      quietTime := w.quietNext, budget := w.budgetNext }
    let first : Handling := { first := r, reaction := x, merged := 0, classes := 2 ^ k, events := ev false }
    (x.code ≤ 2 → w.cur = none → exec i s = .next { s with
      steward := steward
      watch := { got with
        fstate := if w.fstate = .halted then .halted else .handling
        cur := some first, cnt := w.cnt.bump WatchCtr.faults.ctorIdx 1 } }) ∧
    (x.code ≤ 2 → ∀ h, w.cur = some h → exec i s = .next { s with
      steward := steward
      watch := { got with
        merged := true, cnt := w.cnt.bump WatchCtr.merges.ctorIdx 1
        cur := some { h with
          reaction := if h.reaction.code ≤ x.code then x else h.reaction, merged := h.merged + 1
          classes := h.classes ||| 2 ^ k, events := h.events ++ ev true } } }) ∧
    (3 ≤ x.code → w.cur = none → ∃ t, exec i s = .next t ∧ t.watch.cur = some first ∧ t.watch.lines = lines ∧
      t.watch.srcCount = got.srcCount ∧ (r.forced = false → ∀ u ∈ s.unitsOf r, u ∈ t.fabric.iso) ∧
      (x = .halt → w.fstate ≠ .halted →
        t.watch.fstate = .halted ∧ t.reeve.halted = true ∧ t.steward.halted = true))) ∧
  (∀ s (src fcode : BitVec 8) (data : BitVec 64) bad, s.watch.selfStall = false →
    s.watch.raises.find? (fun r => r.src == src.toNat && r.fcode == fcode.toNat && r.data == data.toNat) = none →
    fcode.toNat ∈ fcodesOf src.toNat →
    exec (.faultRaise src fcode ⟨data, bad⟩) s =
      exec (.faultRaise src fcode ⟨data, bad⟩) (s.detect src.toNat fcode.toNat data.toNat)) ∧
  (∀ s h, s.watch.cur = some h → s.watch.selfStall = false →
    let w := s.watch
    let done := fun (w : Watch) => w.quietRun s.time.now
    let fstate := if w.fstate = .halted then FState.halted else .faulted
    let events := fun (lseq : Nat) (u : State) => h.events.foldl (fun u e =>
      u.postEvent (320 + classOf e.1.src) (if e.2 then 0x81 else 0x80) (e.1.data0 h.reaction) lseq) u
    let mirror := fun (u : State) =>
      if s.steward.halted = false ∧ w.stewardHeld = false ∧ s.traceOpen = true then
        State.modResp 8 (fun m => m.write ((m.regions.get {} 0xFF7).base + 32 * (w.lseq.toNat % 1024))
          (w.entry h).bytes) u
      else u
    (w.logLost = false → s.trace.en = false → w.log.length < 1024 → exec (.handlingEnd false) s = .next
      (events w.lseq.toNat <| mirror { s with watch := done { w with
        log := w.entry h :: w.log, lseq := w.lseq + 1, cur := none, fstate := fstate } })) ∧
    (w.logLost = false → 1024 ≤ w.log.length → ∃ t, exec (.handlingEnd false) s = .next t ∧
      t.watch.log = (w.entry h :: w.log).take 1024 ∧ t.watch.lseq = w.lseq + 1 ∧ t.watch.cur = none ∧
      t.watch.fstate = fstate ∧ t.watch.cnt = w.cnt.bump WatchCtr.logWraps.ctorIdx 1) ∧
    (w.logLost = false → ∃ t, exec (.handlingEnd true) s = .next t ∧ t.watch.logLost = true ∧
      t.watch.lastGasp = some (s.time.t64, h.first.src) ∧ t.watch.log = w.log ∧ t.watch.lseq = w.lseq ∧
      t.watch.cur = none ∧ t.watch.fstate = fstate ∧ ((237, 0x78) ∉ w.levels → Raised t 237 0x78 0)) ∧
    (w.logLost = true → s.trace.en = false → ∀ err, exec (.handlingEnd err) s = .next
      (events 0xFFFFFFFF { s with watch := done { w with cur := none, fstate := fstate } }))) ∧
  (∀ s, s.watch.logLost = false → ∃ t, exec .logScrub s = .next t ∧ t.watch.logLost = true ∧
    t.watch.lastGasp = some (s.time.t64, 237) ∧ t.watch.log = s.watch.log ∧
    ((237, 0x78) ∉ s.watch.levels → Raised t 237 0x78 0) ∧ t = { s with watch := t.watch, host := t.host }) ∧
  (∀ s (src fcode : BitVec 8), (208 ≤ src.toNat ∧ src.toNat ≤ 211 ∨ src = 231 ∨
      212 ≤ src.toNat ∧ src.toNat ≤ 227 ∧ fcode = 0x40) →
    exec (.conditionEnd src fcode) s = .next (s.endLevel src.toNat fcode.toNat)) ∧
  (∀ s (fcode : BitVec 8), exec (.conditionEnd 240 fcode) s = .next
    (State.endLevel { s with board := { s.board with refclk := true } } 240 fcode.toNat)) ∧
  (∀ (s : State) src fcode, (src, fcode) ∈ s.watch.levels → s.watch.levels.Nodup →
    let t := s.endLevel src fcode
    (src, fcode) ∉ t.watch.levels ∧ (∀ e ∈ s.watch.levels, e ≠ (src, fcode) → e ∈ t.watch.levels) ∧
    t = { s with watch := t.watch, host := t.host }) ∧
  (∀ s t0, s.watch.quiet = some t0 → s.watch.fstate = .faulted → s.watch.selfStall = false →
    let u := s.reach (t0 + s.watch.quietTime + 1)
    let w := s.watch
    let l := w.recTimes.filter fun t => decide (u.time.now < t + 3600000000000)
    let n := w.cnt.get 0 WatchCtr.recoveries.ctorIdx
    (l.length < w.budget → exec .quietPeriodExpiry s = .next (State.postEvent { u with watch := { w with
      fstate := .idle, quiet := none, sticky := false, lines := 0, recovered := true
      recTimes := l ++ [u.time.now], cnt := w.cnt.bump WatchCtr.recoveries.ctorIdx 1 } }
      336 0x90 ((n + 1) % 2 ^ 32) (l.length + 1))) ∧
    (w.budget ≤ l.length → exec .quietPeriodExpiry s = .next (State.postEvent { u with watch := { w with
      sticky := true, quiet := none, recTimes := l, cnt := w.cnt.bump WatchCtr.stickyCount.ctorIdx 1 } }
      336 0x91 n l.length))) ∧
  (∀ s (k : Fin 64), (s.pairPort k.val).stalled = false → (s.pairPort k.val).pass = false →
    let p := s.pairPort k.val
    let took := fun (v : State) (es os : List Offered) =>
      v.pairPort k.val = { p with even := es, odd := os } ∧ (∀ j, j ≠ k.val → v.pairPort j = s.pairPort j) ∧
      v.cells = s.cells
    let discards := fun (v : State) => v.watch.cnt = s.watch.cnt.bump WatchCtr.pairDiscard.ctorIdx 1
    let tokens := fun (x y : Transfer) => (∃ t, x = .token t) ∧ ∃ t, y = .token t
    (∀ a es b os, p.even = a :: es → p.odd = b :: os →
      (∀ t, a.xfer = .token t → b.xfer = .token t → ∃ u, took u es os ∧
        u = { s with watch := { s.watch with pairs := u.watch.pairs } } ∧
        exec (.pairCompare k) s = .next ((u.offerToken (2 * k.val) t true).retirePair k.val)) ∧
      (∀ h g n w o l up, a.xfer = .req h g n w o l up → b.xfer = a.xfer → ∃ v, took v es os ∧
        v.fabric.reqs = s.fabric.reqs ++ [
          { src := 2 * k.val, xid := s.fabric.xid.get 0 (2 * k.val), handle := h, graph := g, bytes := n
            write := w, offset := o, data := l, upois := up, dry := false, t0 := s.time.now
            express := a.express, opId := a.opId, peer := some (b.express, b.opId), pair := true, served := false
            lost := s.fabric.iso.contains (2 * k.val) }] ∧
        exec (.pairCompare k) s = .next (v.retirePair k.val)) ∧
      (a.xfer ≠ b.xfer → ∃ v, took v es os ∧ discards v ∧
        Raised v k.val (if a.xfer.isReq = true then 0x02 else 0x01) a.xfer.data ∧
        (tokens a.xfer b.xfer → v.fabric = s.fabric) ∧
        exec (.pairCompare k) s = .next (v.retirePair k.val))) ∧
    (∀ a l, (p.even = a :: l ∧ p.odd = [] ∨ p.even = [] ∧ p.odd = a :: l) → ∃ v,
      took v (if p.odd = [] then l else []) (if p.odd = [] then [] else l) ∧ discards v ∧
      v.time = (s.reach (a.t + 2001)).time ∧ Raised v k.val 0x03 a.xfer.data ∧
      (tokens a.xfer a.xfer → v.fabric = s.fabric) ∧
      exec (.skewTimeout k) s = .next (v.retirePair k.val))) ∧
  (∀ s (k : Fin 64), (s.pairPort k.val).stalled = false →
    ∃ t, exec (.comparatorStall (.pair k)) s = .next t ∧ (t.pairPort k.val).stalled = true ∧
      2 * k.val ∈ t.fabric.iso ∧ 2 * k.val + 1 ∈ t.fabric.iso ∧
      ∃ r ∈ t.watch.raises, r.src = k.val ∧ r.fcode = 0x04) ∧
  (∀ s, (233, 0x59) ∉ s.watch.levels → ∃ t, exec (.comparatorStall .steward) s = .next t ∧
    t.watch.stewardHeld = true ∧ Raised t 233 0x59 0 ∧ (233, 0x59) ∈ t.watch.levels ∧
    t = { s with watch := t.watch }) ∧
  (∀ s, exec (.comparatorStall .watch) s =
    .next { s with watch := { s.watch with selfStall := true, lines := 0xFFFF#16 } }) ∧
  (∀ s addr, (exec (.stewardCompare addr true) s = .next s) ∧
    (s.watch.stewardPass = false → s.watch.stewardHeld = false → (232, 0x58) ∉ s.watch.levels →
      ∃ t, exec (.stewardCompare addr false) s = .next t ∧ t.watch.stewardHeld = true ∧
        Raised t 232 0x58 addr.toNat ∧ t = { s with watch := t.watch })) ∧
  (∀ s (pins : BitVec 32), pins ≠ 0 → (231, 0x51) ∉ s.watch.levels →
    ∃ t, exec (.tripReadbackMismatch pins) s = .next t ∧ Raised t 231 0x51 pins.toNat ∧
      (231, 0x51) ∈ t.watch.levels ∧ t = { s with watch := t.watch })

/-- R443: messages to the Steward. -/
def Obligations.StewardMessages : Prop :=
  ∀ s (src : BitVec 8) (k : Token) ue, k.tag.dest.toNat = 0x90 → s.arrivable src.toNat k = true →
    let j := k.after ue
    ∃ t n, exec (.stewardMessage src k ue) s = .next t ∧ LeftFabric s t src k ∧
      (s.steward.halted = true ∨ s.watch.stewardHeld = true → n = 0) ∧
      let box := s.watch.mbox.drop n
      (s.cutOff 0x90 = true → t.watch = s.watch) ∧
      (s.cutOff 0x90 = false → j.tag.poison = true → t.watch = { s.watch with
        mbox := box, cnt := s.watch.cnt.bump WatchCtr.mboxPoison.ctorIdx 1 }) ∧
      (s.cutOff 0x90 = false → j.tag.poison = false → 64 ≤ box.length → t.watch = { s.watch with
        mbox := box, cnt := s.watch.cnt.bump WatchCtr.mboxFull.ctorIdx 1 }) ∧
      (s.cutOff 0x90 = false → j.tag.poison = false → box.length < 64 →
        t.watch = { s.watch with mbox := box ++ [j] }) ∧
      t = { s with fabric := t.fabric, watch := t.watch, fresh := t.fresh }

/-- R512-R516: the trace. -/
def Obligations.TraceCommands : Prop :=
  let held := fun (t : Trace) => (t.stage.map List.length).sum
  let stages := fun (t : State) (s : State) (l : List Byte) =>
    (held s.trace + l.length ≤ 65536 → t.trace = { s.trace with stage := s.trace.stage ++ [l] }) ∧
    (65536 < held s.trace + l.length → s.trace.lostTotal + 1 < 2 ^ 32 → s.trace.lost + 1 < 2 ^ 32 →
      t.trace = { s.trace with
        lost := s.trace.lost + 1, lostTotal := s.trace.lostTotal + 1
        lostCnt := (s.trace.lostCnt + 1) % 2 ^ 32 })
  let base := fun (s : State) => ((s.respAt 0).regions.get {} 0xFFF).base
  let writes := fun (s t : State) (l : List Byte) =>
    (t.respAt 0).read (base s + s.trace.wrOff) l.length = l ∧
    (∀ a, (a < base s ∨ base s + 22 ≤ a) → (a < base s + s.trace.wrOff ∨ base s + s.trace.wrOff + l.length ≤ a) →
      (t.respAt 0).mem.get 0 a = (s.respAt 0).mem.get 0 a) ∧
    (t.respAt 0).read (base s) 8 = leBytes 8 (s.trace.wrOff + l.length) ∧
    (∀ j, j ≠ 0 → t.respAt j = s.respAt j) ∧ t.cells = s.cells ∧ t.host = s.host
  let free := fun (s : State) (n : Nat) =>
    s.traceOpen = true ∧ s.trace.lost = 0 ∧ s.trace.stopped = false ∧ 4096 ≤ s.trace.wrOff ∧
    s.trace.wrOff + n < 2 ^ 28
  (∀ s (src : BitVec 8) (k : Token) ue, k.tag.dest.toNat = 0x96 → s.arrivable src.toNat k = true →
    s.cutOff 0x90 = false →
    ∃ t, exec (.traceMarker src (some k) ue) s = .next t ∧ LeftFabric s t src k ∧
      t = { s with fabric := t.fabric, trace := t.trace } ∧
      (s.trace.en = false → t.trace = s.trace) ∧
      (s.trace.en = true → stages t s (tokenPacket src.toNat (k.after ue) s.time.t64.toNat))) ∧
  (∀ s (src : BitVec 8) l rest, (s.cell src.toNat).traceBuf = l :: rest → src.toNat < 128 →
    s.cutOff src.toNat = false →
    ∃ t, exec (.traceMarker src none {}) s = .next t ∧ stages t s l ∧
      t.cells = s.cells.set {} src.toNat { s.cell src.toNat with traceBuf := rest } ∧
      t = { s with cells := t.cells, trace := t.trace }) ∧
  (∀ s l rest, s.trace.stage = l :: rest → free s l.length →
    ∃ t, exec .tracePacketWrite s = .next t ∧ writes s t l ∧ t.time = s.time ∧ t.trace = { s.trace with
      stage := rest, wrOff := s.trace.wrOff + l.length, packets := (s.trace.packets + 1) % 2 ^ 32 }) ∧
  (∀ s, free s 32 → s.trace.en = true →
    let u := s.reach (s.trace.syncAt + 2 ^ 30)
    let l := [0x01#8, 0x90#8, 0#8, 0#8] ++ leBytes 4 u.time.t64.toNat ++ leBytes 8 u.time.t64.toNat ++
      leBytes 4 s.trace.tseq ++ leBytes 4 s.writer.k ++ leBytes 2 (s.writer.k / 2 ^ 32) ++
      leBytes 2 (s.chain.id.getD 0) ++ List.replicate 4 0#8
    ∃ t, exec .traceSync s = .next t ∧ writes s t l ∧ t.time = u.time ∧ t.trace = { s.trace with
      tseq := (s.trace.tseq + 1) % 2 ^ 32, syncAt := u.time.now, wrOff := s.trace.wrOff + 32
      packets := (s.trace.packets + 1) % 2 ^ 32 }) ∧
  (∀ s (v : BitVec 32), ∃ t, exec (.traceCtrlWrite v) s = .next t ∧ t.trace.en = v.getLsbD 0 ∧
    t.trace.mode = v.getLsbD 1 ∧ t.trace.firings = v.getLsbD 2 ∧ t.trace.class01 = v.getLsbD 3 ∧
    t.trace.faults = v.getLsbD 4 ∧ t.trace.debug = v.getLsbD 5 ∧ t.trace.cells = s.trace.cells ∧
    t.trace.viol = (if v.toNat < 64 then s.trace.viol else (s.trace.viol + 1) % 2 ^ 32) ∧
    t.trace.stage = s.trace.stage ∧ t = { s with fabric := t.fabric, trace := t.trace } ∧
    (s.trace.en = true ∧ s.trace.syncDue = false ∨ v.getLsbD 0 = false → t.trace.wrOff = s.trace.wrOff ∧ t.trace.stopped = false) ∧
    (s.trace.en = false → v.getLsbD 0 = true → s.traceOpen = true → 4096 ≤ s.trace.wrOff →
      s.trace.wrOff + 32 < 2 ^ 28 →
      t.trace.wrOff = s.trace.wrOff + 32 ∧ t.trace.tseq = (s.trace.tseq + 1) % 2 ^ 32 ∧
      (t.respAt 0).read (base s + s.trace.wrOff) 2 = [0x01#8, 0x90#8] ∧
      (t.respAt 0).read (base s + s.trace.wrOff + 28) 1 = [1#8]))

/-- R506, R517-R520: JTAG and debug (register layouts: logs 31, 32). -/
def Obligations.JtagAndDebug : Prop :=
  let scans := fun (i : Instr) (s : State) (ir : JtagIns) (bits value : Nat) =>
    exec i s = .next { s with
      jtag := { s.jtag with ir := ir }, out := s.out ++ [.tdo bits value] }
  (∀ s, scans .idcode s .idcode 32 0xB81287AF ∧ scans .clamp s .clamp 1 0 ∧ scans .highz s .highz 1 0 ∧
    scans .bypass s .bypass 1 0 ∧
    scans .dbgStatus s .dbgStatus 64
      ((if s.setup.dbgGate then 0 else 1) + 2 * if s.jtag.error then 1 else 0)) ∧
  (∀ s pins scan i ir, (i = Instr.extest pins scan ∧ ir = .extest ∨
      i = Instr.samplePreload pins scan ∧ ir = .samplePreload) →
    ∃ t v, exec i s = .next t ∧ t.out = s.out ++ [.tdo 110 v] ∧ v < 2 ^ 110 ∧
      (∀ n, n < 110 → v.testBit n = (
        if 64 ≤ n ∧ n < 96 then s.tripPin (n - 64)
        else if n = 96 then s.aon.keyN
        else if n = 99 then s.isReady && s.watch.fstate == .idle && !s.watch.logLost && !s.watch.selfStall
        else if n = 103 then
          if s.jtag.ir = .extest ∨ s.jtag.ir = .clamp then s.jtag.latch.getLsbD 103 else s.time.ppsOut
        else pins.getLsbD n)) ∧
      (∀ n, n < 110 → t.jtag.latch.getLsbD n =
        (scan.getLsbD n && !(decide (64 ≤ n ∧ n < 96) || n == 99))) ∧
      t = { s with jtag := { s.jtag with ir := ir, latch := t.jtag.latch }, out := t.out }) ∧
  (∀ s v, exec (.dbgAddr v) s = .next { s with
    jtag := { s.jtag with ir := .dbgAddr, addr := v }, out := s.out ++ [.tdo 64 s.jtag.addr.toNat] }) ∧
  (∀ s x, s.setup.dbgGate = false → scans (.dbgData x) s .dbgData 64 0) ∧
  (∀ s, s.setup.dbgGate = true →
    let a := s.jtag.addr.toNat
    let reads := fun (x : Option (BitVec 64)) (error : Bool) (v : Nat) => exec (.dbgData x) s = .next { s with
      jtag := { s.jtag with ir := .dbgData, addr := s.jtag.addr + 8, error := error }
      out := s.out ++ [.tdo 64 v] }
    (a % 8 = 0 → a < 0x100 → reads none s.jtag.error (s.traceWord a)) ∧
    (a % 8 ≠ 0 ∨ 0x100 ≤ a ∧ a < 0x10000 ∨ 0x50000 ≤ a ∧ a < 0x100000 ∨ 0x110000 ≤ a ∧ a < 2 ^ 32 ∨
      2 ^ 32 + 16 * respBytes ≤ a → ∀ x, reads x true 0) ∧
    (∀ j o, o < respBytes - cellarShare s.cellar.gib → j < 16 → o % 8 = 0 → a = 2 ^ 32 + j * respBytes + o →
      s.traceOpen = true → (s.respAt j).isPoisoned o 8 = false →
      reads none s.jtag.error (ofLE ((s.respAt j).read o 8)) ∧
      ∀ w, reads (some w) true (ofLE ((s.respAt j).read o 8))) ∧
    (∀ j o v, o < cellarShare s.cellar.gib → s.cellar.gib ≤ 96 → j < 16 → o % 8 = 0 →
      a = 2 ^ 32 + j * respBytes + (respBytes - cellarShare s.cellar.gib) + o → s.traceOpen = true →
      (s.respAt j).isPoisoned (respBytes - cellarShare s.cellar.gib + o) 8 = false →
      s.cellar.word j o = some v → reads none s.jtag.error v)) ∧
  (∀ s (k : Fin 64) i, (i = Instr.run k ∨ i = .stepOne k ∨ i = .kill k) → (s.pairPort k.val).pass = false →
    exec i s = .next s) ∧
  (∀ s (k : Fin 64) i stepping, (i = Instr.run k ∧ stepping = false ∨ i = .stepOne k ∧ stepping = true) →
    (s.pairPort k.val).pass = true →
    ∃ t, exec i s = .next t ∧ (∀ m, m / 2 ≠ k.val → t.cell m = s.cell m) ∧
      ∀ n x, n / 2 = k.val →
        ((s.cell n).stoppedBank = none → t.cell n = s.cell n) ∧
        ((s.cell n).stoppedBank = some x →
          (t.cell n).dbg = { (s.cell n).dbg with stopped := false, stepping := stepping, passed := true } ∧
          (let b := s.bank (cellEngine n) x
           t.bank (cellEngine n) x = { b with regs := b.resumed false b.regs }) ∧
          t.bank (cellEngine n) (!x) = s.bank (cellEngine n) (!x) ∧
          (t.cell n).cnt = (s.cell n).cnt.bump EngCtr.excResumed.ctorIdx 1 ∧
          (t.cell n).que = (s.cell n).que ∧ (t.cell n).pal = (s.cell n).pal)) ∧
  (∀ s (k : Fin 64), (s.pairPort k.val).pass = true →
    ∃ t, exec (.kill k) s = .next t ∧ (∀ m, m / 2 ≠ k.val → t.cell m = s.cell m) ∧
      ∀ n x, n / 2 = k.val →
        ((s.cell n).stoppedBank = none → t.cell n = s.cell n) ∧
        ((s.cell n).stoppedBank = some x →
          (t.cell n).dbg = { (s.cell n).dbg with stopped := false, stepping := false, passed := false } ∧
          (t.bank (cellEngine n) x).hdr = none ∧ (t.bank (cellEngine n) x).ops = [] ∧
          t.bank (cellEngine n) (!x) = s.bank (cellEngine n) (!x) ∧
          (t.cell n).cnt.get 0 EngCtr.excEnded.ctorIdx = ((s.cell n).cnt.get 0 EngCtr.excEnded.ctorIdx + 1) % 2 ^ 32))

/-- A step is the front command's effect (the model's queue and clock: logs 1, 9). -/
def Obligations.StepRunsTheCommand : Prop :=
  (∀ s c rest, s.pending = c :: rest → step s = exec c { s with pending := rest, out := [] }) ∧
  (∀ (s : State) c, step { s with pending := c :: s.pending } = exec c { s with out := [] }) ∧
  (∀ s, s.pending = [] → ∃ t, step s = .next t ∧ t.time.now = s.time.now + 1 ∧
    t = { s with time := t.time, out := [] })

/-- Reset (R469 and the Reset columns). -/
def Obligations.ResetState : Prop :=
  let s : State := State.reset
  let u : State := { s with power := { s.power with phase := .ready } }
  s.pending = [] ∧ s.power.phase = .held ∧ s.fabric.flight = [] ∧ s.fabric.reqs = [] ∧ s.fabric.rsps = [] ∧
  s.fabric.ctl = [] ∧ s.host.cmd = [] ∧ s.host.cpl = [] ∧ s.host.running = [] ∧
  (∀ n, (s.cell n).p.hdr = none ∧ (s.cell n).m.hdr = none ∧ (s.cell n).que.eb0 = [] ∧
    (s.cell n).que.eb1 = [] ∧ (s.cell n).que.express = [] ∧ (s.cell n).pal.entries = [] ∧ (s.cell n).nodes = []) ∧
  u.readReg 0x0 = 0xB18128 ∧ u.readReg 0x2000 = 200 ∧
  (∀ o ∈ [0x8, 0x10, 0x20, 0x24, 0x28, 0x30, 0x34, 0x38, 0x3C, 0x100, 0x104, 0x1008, 0x1010, 0x1014, 0x1018,
    0x101C, 0x1020, 0x1024, 0x1028, 0x2010, 0x4000, 0x4008, 0x400C, 0x4010], u.readReg o = 0) ∧
  (List.range 16).map (fun k => (s.reactionOf k).code) = [2, 1, 2, 1, 3, 1, 2, 4, 1, 1, 2, 1, 2, 2, 1, 1] ∧
  s.watch.fstate = .idle ∧ s.watch.lines = 0 ∧ s.watch.quietTime = 10000000000 ∧ s.watch.budget = 6 ∧
  s.watch.log = [] ∧ s.watch.mbox = [] ∧
  s.trace.en = true ∧ s.trace.mode = false ∧ s.trace.firings = false ∧ s.trace.class01 = false ∧
  s.trace.faults = true ∧ s.trace.debug = true ∧ s.trace.cells = 0 ∧ s.trace.wrOff = 4096 ∧
  (∀ p, (s.port p).cfg.mode = .off ∧ (s.port p).cfg.etype = 0x88B5 ∧ (s.port p).cfg.udp = 49400 ∧
    (s.port p).cfg.lag = 200000 ∧ (s.port p).up = false) ∧
  (∀ a, (s.actPort a).cfg.mode = .off ∧ (s.actPort a).up = false ∧ (s.actPort a).cfg.etype = 0x88B6 ∧
    (s.actPort a).cfg.timeout = 1000000 ∧ (s.actPort a).cfg.thresh = 16) ∧
  (∀ n, (s.nbEntry n).st = .disabled ∧ (s.nbEntry n).fmask = 0xFFFF#16 ∧ (s.nbEntry n).maxAge = 10) ∧
  (∀ n, (s.act.map.get {} n).healthy = false ∧ (s.act.trip n).enable = false) ∧ s.act.tripState = 0 ∧
  s.chain.role = .off ∧ s.chain.st = .detached ∧ s.chain.cycleLen = 100000 ∧ s.chain.stationAge = 1000000000 ∧
  s.chain.detachHold = 10000000000 ∧
  s.writer.len = 1000000 ∧ s.writer.st = .stopped ∧ s.writer.varnishLimit = 2000000 ∧
  s.reeve.guardWait = 1000 ∧ s.reeve.hotLimit = 105 ∧ s.cellar.gib = 16 ∧
  Fuses.After {} s.fuses

/-- R457, R459: what every step keeps. -/
def Obligations.InvariantKept : Prop :=
  (∀ s, ∃ t, step s = .next t) ∧
  (∀ z s t, Fuses.After z s.fuses → step s = .next t →
    Fuses.After z t.fuses ∧ t.pending = s.pending.tail)
end

