-- ==== Sys2Proof/Laws/State.lean ====
section
/-! SUPPORT. What each update of a unit leaves of the other units: one lemma for each field. -/

namespace Sys2Proof.Machine

/-! `modCell` changes `cells` and nothing else. -/

@[simp] theorem State.modCell_reeve (n : Nat) (f : Cell → Cell) (s : State) :
    (State.modCell n f s).reeve = s.reeve := rfl
@[simp] theorem State.modCell_cellar (n : Nat) (f : Cell → Cell) (s : State) :
    (State.modCell n f s).cellar = s.cellar := rfl
@[simp] theorem State.modCell_chain (n : Nat) (f : Cell → Cell) (s : State) :
    (State.modCell n f s).chain = s.chain := rfl
@[simp] theorem State.modCell_ingest (n : Nat) (f : Cell → Cell) (s : State) :
    (State.modCell n f s).ingest = s.ingest := rfl
@[simp] theorem State.modCell_act (n : Nat) (f : Cell → Cell) (s : State) :
    (State.modCell n f s).act = s.act := rfl
@[simp] theorem State.modCell_writer (n : Nat) (f : Cell → Cell) (s : State) :
    (State.modCell n f s).writer = s.writer := rfl
@[simp] theorem State.modCell_steward (n : Nat) (f : Cell → Cell) (s : State) :
    (State.modCell n f s).steward = s.steward := rfl
@[simp] theorem State.modCell_trace (n : Nat) (f : Cell → Cell) (s : State) :
    (State.modCell n f s).trace = s.trace := rfl
@[simp] theorem State.modCell_jtag (n : Nat) (f : Cell → Cell) (s : State) :
    (State.modCell n f s).jtag = s.jtag := rfl
@[simp] theorem State.modCell_fabric (n : Nat) (f : Cell → Cell) (s : State) :
    (State.modCell n f s).fabric = s.fabric := rfl
@[simp] theorem State.modCell_time (n : Nat) (f : Cell → Cell) (s : State) :
    (State.modCell n f s).time = s.time := rfl
@[simp] theorem State.modCell_setup (n : Nat) (f : Cell → Cell) (s : State) :
    (State.modCell n f s).setup = s.setup := rfl
@[simp] theorem State.modCell_host (n : Nat) (f : Cell → Cell) (s : State) :
    (State.modCell n f s).host = s.host := rfl
@[simp] theorem State.modCell_watch (n : Nat) (f : Cell → Cell) (s : State) :
    (State.modCell n f s).watch = s.watch := rfl
@[simp] theorem State.modCell_aon (n : Nat) (f : Cell → Cell) (s : State) :
    (State.modCell n f s).aon = s.aon := rfl
@[simp] theorem State.modCell_fuses (n : Nat) (f : Cell → Cell) (s : State) :
    (State.modCell n f s).fuses = s.fuses := rfl
@[simp] theorem State.modCell_power (n : Nat) (f : Cell → Cell) (s : State) :
    (State.modCell n f s).power = s.power := rfl
@[simp] theorem State.modCell_board (n : Nat) (f : Cell → Cell) (s : State) :
    (State.modCell n f s).board = s.board := rfl
@[simp] theorem State.modCell_out (n : Nat) (f : Cell → Cell) (s : State) :
    (State.modCell n f s).out = s.out := rfl
@[simp] theorem State.modCell_fresh (n : Nat) (f : Cell → Cell) (s : State) :
    (State.modCell n f s).fresh = s.fresh := rfl
@[simp] theorem State.modCell_pending (n : Nat) (f : Cell → Cell) (s : State) :
    (State.modCell n f s).pending = s.pending := rfl

/-! `modCtx` changes `reeve` and nothing else. -/

@[simp] theorem State.modCtx_cellar (c : Nat) (f : Ctx → Ctx) (s : State) :
    (State.modCtx c f s).cellar = s.cellar := rfl
@[simp] theorem State.modCtx_chain (c : Nat) (f : Ctx → Ctx) (s : State) :
    (State.modCtx c f s).chain = s.chain := rfl
@[simp] theorem State.modCtx_ingest (c : Nat) (f : Ctx → Ctx) (s : State) :
    (State.modCtx c f s).ingest = s.ingest := rfl
@[simp] theorem State.modCtx_act (c : Nat) (f : Ctx → Ctx) (s : State) :
    (State.modCtx c f s).act = s.act := rfl
@[simp] theorem State.modCtx_writer (c : Nat) (f : Ctx → Ctx) (s : State) :
    (State.modCtx c f s).writer = s.writer := rfl
@[simp] theorem State.modCtx_cells (c : Nat) (f : Ctx → Ctx) (s : State) :
    (State.modCtx c f s).cells = s.cells := rfl
@[simp] theorem State.modCtx_steward (c : Nat) (f : Ctx → Ctx) (s : State) :
    (State.modCtx c f s).steward = s.steward := rfl
@[simp] theorem State.modCtx_trace (c : Nat) (f : Ctx → Ctx) (s : State) :
    (State.modCtx c f s).trace = s.trace := rfl
@[simp] theorem State.modCtx_jtag (c : Nat) (f : Ctx → Ctx) (s : State) :
    (State.modCtx c f s).jtag = s.jtag := rfl
@[simp] theorem State.modCtx_fabric (c : Nat) (f : Ctx → Ctx) (s : State) :
    (State.modCtx c f s).fabric = s.fabric := rfl
@[simp] theorem State.modCtx_time (c : Nat) (f : Ctx → Ctx) (s : State) :
    (State.modCtx c f s).time = s.time := rfl
@[simp] theorem State.modCtx_setup (c : Nat) (f : Ctx → Ctx) (s : State) :
    (State.modCtx c f s).setup = s.setup := rfl
@[simp] theorem State.modCtx_host (c : Nat) (f : Ctx → Ctx) (s : State) :
    (State.modCtx c f s).host = s.host := rfl
@[simp] theorem State.modCtx_watch (c : Nat) (f : Ctx → Ctx) (s : State) :
    (State.modCtx c f s).watch = s.watch := rfl
@[simp] theorem State.modCtx_aon (c : Nat) (f : Ctx → Ctx) (s : State) :
    (State.modCtx c f s).aon = s.aon := rfl
@[simp] theorem State.modCtx_fuses (c : Nat) (f : Ctx → Ctx) (s : State) :
    (State.modCtx c f s).fuses = s.fuses := rfl
@[simp] theorem State.modCtx_power (c : Nat) (f : Ctx → Ctx) (s : State) :
    (State.modCtx c f s).power = s.power := rfl
@[simp] theorem State.modCtx_board (c : Nat) (f : Ctx → Ctx) (s : State) :
    (State.modCtx c f s).board = s.board := rfl
@[simp] theorem State.modCtx_out (c : Nat) (f : Ctx → Ctx) (s : State) :
    (State.modCtx c f s).out = s.out := rfl
@[simp] theorem State.modCtx_fresh (c : Nat) (f : Ctx → Ctx) (s : State) :
    (State.modCtx c f s).fresh = s.fresh := rfl
@[simp] theorem State.modCtx_pending (c : Nat) (f : Ctx → Ctx) (s : State) :
    (State.modCtx c f s).pending = s.pending := rfl

/-! `modPal` changes `cells` and nothing else. -/

@[simp] theorem State.modPal_reeve (s : State) (n : Nat) (f : Palette → Palette) :
    (State.modPal s n f).reeve = s.reeve := rfl
@[simp] theorem State.modPal_cellar (s : State) (n : Nat) (f : Palette → Palette) :
    (State.modPal s n f).cellar = s.cellar := rfl
@[simp] theorem State.modPal_chain (s : State) (n : Nat) (f : Palette → Palette) :
    (State.modPal s n f).chain = s.chain := rfl
@[simp] theorem State.modPal_ingest (s : State) (n : Nat) (f : Palette → Palette) :
    (State.modPal s n f).ingest = s.ingest := rfl
@[simp] theorem State.modPal_act (s : State) (n : Nat) (f : Palette → Palette) :
    (State.modPal s n f).act = s.act := rfl
@[simp] theorem State.modPal_writer (s : State) (n : Nat) (f : Palette → Palette) :
    (State.modPal s n f).writer = s.writer := rfl
@[simp] theorem State.modPal_steward (s : State) (n : Nat) (f : Palette → Palette) :
    (State.modPal s n f).steward = s.steward := rfl
@[simp] theorem State.modPal_trace (s : State) (n : Nat) (f : Palette → Palette) :
    (State.modPal s n f).trace = s.trace := rfl
@[simp] theorem State.modPal_jtag (s : State) (n : Nat) (f : Palette → Palette) :
    (State.modPal s n f).jtag = s.jtag := rfl
@[simp] theorem State.modPal_fabric (s : State) (n : Nat) (f : Palette → Palette) :
    (State.modPal s n f).fabric = s.fabric := rfl
@[simp] theorem State.modPal_time (s : State) (n : Nat) (f : Palette → Palette) :
    (State.modPal s n f).time = s.time := rfl
@[simp] theorem State.modPal_setup (s : State) (n : Nat) (f : Palette → Palette) :
    (State.modPal s n f).setup = s.setup := rfl
@[simp] theorem State.modPal_host (s : State) (n : Nat) (f : Palette → Palette) :
    (State.modPal s n f).host = s.host := rfl
@[simp] theorem State.modPal_watch (s : State) (n : Nat) (f : Palette → Palette) :
    (State.modPal s n f).watch = s.watch := rfl
@[simp] theorem State.modPal_aon (s : State) (n : Nat) (f : Palette → Palette) :
    (State.modPal s n f).aon = s.aon := rfl
@[simp] theorem State.modPal_fuses (s : State) (n : Nat) (f : Palette → Palette) :
    (State.modPal s n f).fuses = s.fuses := rfl
@[simp] theorem State.modPal_power (s : State) (n : Nat) (f : Palette → Palette) :
    (State.modPal s n f).power = s.power := rfl
@[simp] theorem State.modPal_board (s : State) (n : Nat) (f : Palette → Palette) :
    (State.modPal s n f).board = s.board := rfl
@[simp] theorem State.modPal_out (s : State) (n : Nat) (f : Palette → Palette) :
    (State.modPal s n f).out = s.out := rfl
@[simp] theorem State.modPal_fresh (s : State) (n : Nat) (f : Palette → Palette) :
    (State.modPal s n f).fresh = s.fresh := rfl
@[simp] theorem State.modPal_pending (s : State) (n : Nat) (f : Palette → Palette) :
    (State.modPal s n f).pending = s.pending := rfl

/-! `modDanger` changes `reeve` and nothing else. -/

@[simp] theorem State.modDanger_cellar (n : Nat) (f : Danger → Danger) (s : State) :
    (State.modDanger n f s).cellar = s.cellar := rfl
@[simp] theorem State.modDanger_chain (n : Nat) (f : Danger → Danger) (s : State) :
    (State.modDanger n f s).chain = s.chain := rfl
@[simp] theorem State.modDanger_ingest (n : Nat) (f : Danger → Danger) (s : State) :
    (State.modDanger n f s).ingest = s.ingest := rfl
@[simp] theorem State.modDanger_act (n : Nat) (f : Danger → Danger) (s : State) :
    (State.modDanger n f s).act = s.act := rfl
@[simp] theorem State.modDanger_writer (n : Nat) (f : Danger → Danger) (s : State) :
    (State.modDanger n f s).writer = s.writer := rfl
@[simp] theorem State.modDanger_cells (n : Nat) (f : Danger → Danger) (s : State) :
    (State.modDanger n f s).cells = s.cells := rfl
@[simp] theorem State.modDanger_steward (n : Nat) (f : Danger → Danger) (s : State) :
    (State.modDanger n f s).steward = s.steward := rfl
@[simp] theorem State.modDanger_trace (n : Nat) (f : Danger → Danger) (s : State) :
    (State.modDanger n f s).trace = s.trace := rfl
@[simp] theorem State.modDanger_jtag (n : Nat) (f : Danger → Danger) (s : State) :
    (State.modDanger n f s).jtag = s.jtag := rfl
@[simp] theorem State.modDanger_fabric (n : Nat) (f : Danger → Danger) (s : State) :
    (State.modDanger n f s).fabric = s.fabric := rfl
@[simp] theorem State.modDanger_time (n : Nat) (f : Danger → Danger) (s : State) :
    (State.modDanger n f s).time = s.time := rfl
@[simp] theorem State.modDanger_setup (n : Nat) (f : Danger → Danger) (s : State) :
    (State.modDanger n f s).setup = s.setup := rfl
@[simp] theorem State.modDanger_host (n : Nat) (f : Danger → Danger) (s : State) :
    (State.modDanger n f s).host = s.host := rfl
@[simp] theorem State.modDanger_watch (n : Nat) (f : Danger → Danger) (s : State) :
    (State.modDanger n f s).watch = s.watch := rfl
@[simp] theorem State.modDanger_aon (n : Nat) (f : Danger → Danger) (s : State) :
    (State.modDanger n f s).aon = s.aon := rfl
@[simp] theorem State.modDanger_fuses (n : Nat) (f : Danger → Danger) (s : State) :
    (State.modDanger n f s).fuses = s.fuses := rfl
@[simp] theorem State.modDanger_power (n : Nat) (f : Danger → Danger) (s : State) :
    (State.modDanger n f s).power = s.power := rfl
@[simp] theorem State.modDanger_board (n : Nat) (f : Danger → Danger) (s : State) :
    (State.modDanger n f s).board = s.board := rfl
@[simp] theorem State.modDanger_out (n : Nat) (f : Danger → Danger) (s : State) :
    (State.modDanger n f s).out = s.out := rfl
@[simp] theorem State.modDanger_fresh (n : Nat) (f : Danger → Danger) (s : State) :
    (State.modDanger n f s).fresh = s.fresh := rfl
@[simp] theorem State.modDanger_pending (n : Nat) (f : Danger → Danger) (s : State) :
    (State.modDanger n f s).pending = s.pending := rfl

/-! `modCellar` changes `cellar` and nothing else. -/

@[simp] theorem State.modCellar_reeve (f : Cellar → Cellar) (s : State) :
    (State.modCellar f s).reeve = s.reeve := rfl
@[simp] theorem State.modCellar_cellar (f : Cellar → Cellar) (s : State) :
    (State.modCellar f s).cellar = f s.cellar := rfl
@[simp] theorem State.modCellar_chain (f : Cellar → Cellar) (s : State) :
    (State.modCellar f s).chain = s.chain := rfl
@[simp] theorem State.modCellar_ingest (f : Cellar → Cellar) (s : State) :
    (State.modCellar f s).ingest = s.ingest := rfl
@[simp] theorem State.modCellar_act (f : Cellar → Cellar) (s : State) :
    (State.modCellar f s).act = s.act := rfl
@[simp] theorem State.modCellar_writer (f : Cellar → Cellar) (s : State) :
    (State.modCellar f s).writer = s.writer := rfl
@[simp] theorem State.modCellar_cells (f : Cellar → Cellar) (s : State) :
    (State.modCellar f s).cells = s.cells := rfl
@[simp] theorem State.modCellar_steward (f : Cellar → Cellar) (s : State) :
    (State.modCellar f s).steward = s.steward := rfl
@[simp] theorem State.modCellar_trace (f : Cellar → Cellar) (s : State) :
    (State.modCellar f s).trace = s.trace := rfl
@[simp] theorem State.modCellar_jtag (f : Cellar → Cellar) (s : State) :
    (State.modCellar f s).jtag = s.jtag := rfl
@[simp] theorem State.modCellar_fabric (f : Cellar → Cellar) (s : State) :
    (State.modCellar f s).fabric = s.fabric := rfl
@[simp] theorem State.modCellar_time (f : Cellar → Cellar) (s : State) :
    (State.modCellar f s).time = s.time := rfl
@[simp] theorem State.modCellar_setup (f : Cellar → Cellar) (s : State) :
    (State.modCellar f s).setup = s.setup := rfl
@[simp] theorem State.modCellar_host (f : Cellar → Cellar) (s : State) :
    (State.modCellar f s).host = s.host := rfl
@[simp] theorem State.modCellar_watch (f : Cellar → Cellar) (s : State) :
    (State.modCellar f s).watch = s.watch := rfl
@[simp] theorem State.modCellar_aon (f : Cellar → Cellar) (s : State) :
    (State.modCellar f s).aon = s.aon := rfl
@[simp] theorem State.modCellar_fuses (f : Cellar → Cellar) (s : State) :
    (State.modCellar f s).fuses = s.fuses := rfl
@[simp] theorem State.modCellar_power (f : Cellar → Cellar) (s : State) :
    (State.modCellar f s).power = s.power := rfl
@[simp] theorem State.modCellar_board (f : Cellar → Cellar) (s : State) :
    (State.modCellar f s).board = s.board := rfl
@[simp] theorem State.modCellar_out (f : Cellar → Cellar) (s : State) :
    (State.modCellar f s).out = s.out := rfl
@[simp] theorem State.modCellar_fresh (f : Cellar → Cellar) (s : State) :
    (State.modCellar f s).fresh = s.fresh := rfl
@[simp] theorem State.modCellar_pending (f : Cellar → Cellar) (s : State) :
    (State.modCellar f s).pending = s.pending := rfl

/-! `modFabric` changes `fabric` and nothing else. -/

@[simp] theorem State.modFabric_reeve (f : Fabric → Fabric) (s : State) :
    (State.modFabric f s).reeve = s.reeve := rfl
@[simp] theorem State.modFabric_cellar (f : Fabric → Fabric) (s : State) :
    (State.modFabric f s).cellar = s.cellar := rfl
@[simp] theorem State.modFabric_chain (f : Fabric → Fabric) (s : State) :
    (State.modFabric f s).chain = s.chain := rfl
@[simp] theorem State.modFabric_ingest (f : Fabric → Fabric) (s : State) :
    (State.modFabric f s).ingest = s.ingest := rfl
@[simp] theorem State.modFabric_act (f : Fabric → Fabric) (s : State) :
    (State.modFabric f s).act = s.act := rfl
@[simp] theorem State.modFabric_writer (f : Fabric → Fabric) (s : State) :
    (State.modFabric f s).writer = s.writer := rfl
@[simp] theorem State.modFabric_cells (f : Fabric → Fabric) (s : State) :
    (State.modFabric f s).cells = s.cells := rfl
@[simp] theorem State.modFabric_steward (f : Fabric → Fabric) (s : State) :
    (State.modFabric f s).steward = s.steward := rfl
@[simp] theorem State.modFabric_trace (f : Fabric → Fabric) (s : State) :
    (State.modFabric f s).trace = s.trace := rfl
@[simp] theorem State.modFabric_jtag (f : Fabric → Fabric) (s : State) :
    (State.modFabric f s).jtag = s.jtag := rfl
@[simp] theorem State.modFabric_fabric (f : Fabric → Fabric) (s : State) :
    (State.modFabric f s).fabric = f s.fabric := rfl
@[simp] theorem State.modFabric_time (f : Fabric → Fabric) (s : State) :
    (State.modFabric f s).time = s.time := rfl
@[simp] theorem State.modFabric_setup (f : Fabric → Fabric) (s : State) :
    (State.modFabric f s).setup = s.setup := rfl
@[simp] theorem State.modFabric_host (f : Fabric → Fabric) (s : State) :
    (State.modFabric f s).host = s.host := rfl
@[simp] theorem State.modFabric_watch (f : Fabric → Fabric) (s : State) :
    (State.modFabric f s).watch = s.watch := rfl
@[simp] theorem State.modFabric_aon (f : Fabric → Fabric) (s : State) :
    (State.modFabric f s).aon = s.aon := rfl
@[simp] theorem State.modFabric_fuses (f : Fabric → Fabric) (s : State) :
    (State.modFabric f s).fuses = s.fuses := rfl
@[simp] theorem State.modFabric_power (f : Fabric → Fabric) (s : State) :
    (State.modFabric f s).power = s.power := rfl
@[simp] theorem State.modFabric_board (f : Fabric → Fabric) (s : State) :
    (State.modFabric f s).board = s.board := rfl
@[simp] theorem State.modFabric_out (f : Fabric → Fabric) (s : State) :
    (State.modFabric f s).out = s.out := rfl
@[simp] theorem State.modFabric_fresh (f : Fabric → Fabric) (s : State) :
    (State.modFabric f s).fresh = s.fresh := rfl
@[simp] theorem State.modFabric_pending (f : Fabric → Fabric) (s : State) :
    (State.modFabric f s).pending = s.pending := rfl

/-! `modResp` changes `fabric` and nothing else. -/

@[simp] theorem State.modResp_reeve (j : Nat) (f : Responder → Responder) (s : State) :
    (State.modResp j f s).reeve = s.reeve := rfl
@[simp] theorem State.modResp_cellar (j : Nat) (f : Responder → Responder) (s : State) :
    (State.modResp j f s).cellar = s.cellar := rfl
@[simp] theorem State.modResp_chain (j : Nat) (f : Responder → Responder) (s : State) :
    (State.modResp j f s).chain = s.chain := rfl
@[simp] theorem State.modResp_ingest (j : Nat) (f : Responder → Responder) (s : State) :
    (State.modResp j f s).ingest = s.ingest := rfl
@[simp] theorem State.modResp_act (j : Nat) (f : Responder → Responder) (s : State) :
    (State.modResp j f s).act = s.act := rfl
@[simp] theorem State.modResp_writer (j : Nat) (f : Responder → Responder) (s : State) :
    (State.modResp j f s).writer = s.writer := rfl
@[simp] theorem State.modResp_cells (j : Nat) (f : Responder → Responder) (s : State) :
    (State.modResp j f s).cells = s.cells := rfl
@[simp] theorem State.modResp_steward (j : Nat) (f : Responder → Responder) (s : State) :
    (State.modResp j f s).steward = s.steward := rfl
@[simp] theorem State.modResp_trace (j : Nat) (f : Responder → Responder) (s : State) :
    (State.modResp j f s).trace = s.trace := rfl
@[simp] theorem State.modResp_jtag (j : Nat) (f : Responder → Responder) (s : State) :
    (State.modResp j f s).jtag = s.jtag := rfl
@[simp] theorem State.modResp_time (j : Nat) (f : Responder → Responder) (s : State) :
    (State.modResp j f s).time = s.time := rfl
@[simp] theorem State.modResp_setup (j : Nat) (f : Responder → Responder) (s : State) :
    (State.modResp j f s).setup = s.setup := rfl
@[simp] theorem State.modResp_host (j : Nat) (f : Responder → Responder) (s : State) :
    (State.modResp j f s).host = s.host := rfl
@[simp] theorem State.modResp_watch (j : Nat) (f : Responder → Responder) (s : State) :
    (State.modResp j f s).watch = s.watch := rfl
@[simp] theorem State.modResp_aon (j : Nat) (f : Responder → Responder) (s : State) :
    (State.modResp j f s).aon = s.aon := rfl
@[simp] theorem State.modResp_fuses (j : Nat) (f : Responder → Responder) (s : State) :
    (State.modResp j f s).fuses = s.fuses := rfl
@[simp] theorem State.modResp_power (j : Nat) (f : Responder → Responder) (s : State) :
    (State.modResp j f s).power = s.power := rfl
@[simp] theorem State.modResp_board (j : Nat) (f : Responder → Responder) (s : State) :
    (State.modResp j f s).board = s.board := rfl
@[simp] theorem State.modResp_out (j : Nat) (f : Responder → Responder) (s : State) :
    (State.modResp j f s).out = s.out := rfl
@[simp] theorem State.modResp_fresh (j : Nat) (f : Responder → Responder) (s : State) :
    (State.modResp j f s).fresh = s.fresh := rfl
@[simp] theorem State.modResp_pending (j : Nat) (f : Responder → Responder) (s : State) :
    (State.modResp j f s).pending = s.pending := rfl

/-! `modPair` changes `watch` and nothing else. -/

@[simp] theorem State.modPair_reeve (s : State) (k : Nat) (f : PairPort → PairPort) :
    (State.modPair s k f).reeve = s.reeve := rfl
@[simp] theorem State.modPair_cellar (s : State) (k : Nat) (f : PairPort → PairPort) :
    (State.modPair s k f).cellar = s.cellar := rfl
@[simp] theorem State.modPair_chain (s : State) (k : Nat) (f : PairPort → PairPort) :
    (State.modPair s k f).chain = s.chain := rfl
@[simp] theorem State.modPair_ingest (s : State) (k : Nat) (f : PairPort → PairPort) :
    (State.modPair s k f).ingest = s.ingest := rfl
@[simp] theorem State.modPair_act (s : State) (k : Nat) (f : PairPort → PairPort) :
    (State.modPair s k f).act = s.act := rfl
@[simp] theorem State.modPair_writer (s : State) (k : Nat) (f : PairPort → PairPort) :
    (State.modPair s k f).writer = s.writer := rfl
@[simp] theorem State.modPair_cells (s : State) (k : Nat) (f : PairPort → PairPort) :
    (State.modPair s k f).cells = s.cells := rfl
@[simp] theorem State.modPair_steward (s : State) (k : Nat) (f : PairPort → PairPort) :
    (State.modPair s k f).steward = s.steward := rfl
@[simp] theorem State.modPair_trace (s : State) (k : Nat) (f : PairPort → PairPort) :
    (State.modPair s k f).trace = s.trace := rfl
@[simp] theorem State.modPair_jtag (s : State) (k : Nat) (f : PairPort → PairPort) :
    (State.modPair s k f).jtag = s.jtag := rfl
@[simp] theorem State.modPair_fabric (s : State) (k : Nat) (f : PairPort → PairPort) :
    (State.modPair s k f).fabric = s.fabric := rfl
@[simp] theorem State.modPair_time (s : State) (k : Nat) (f : PairPort → PairPort) :
    (State.modPair s k f).time = s.time := rfl
@[simp] theorem State.modPair_setup (s : State) (k : Nat) (f : PairPort → PairPort) :
    (State.modPair s k f).setup = s.setup := rfl
@[simp] theorem State.modPair_host (s : State) (k : Nat) (f : PairPort → PairPort) :
    (State.modPair s k f).host = s.host := rfl
@[simp] theorem State.modPair_aon (s : State) (k : Nat) (f : PairPort → PairPort) :
    (State.modPair s k f).aon = s.aon := rfl
@[simp] theorem State.modPair_fuses (s : State) (k : Nat) (f : PairPort → PairPort) :
    (State.modPair s k f).fuses = s.fuses := rfl
@[simp] theorem State.modPair_power (s : State) (k : Nat) (f : PairPort → PairPort) :
    (State.modPair s k f).power = s.power := rfl
@[simp] theorem State.modPair_board (s : State) (k : Nat) (f : PairPort → PairPort) :
    (State.modPair s k f).board = s.board := rfl
@[simp] theorem State.modPair_out (s : State) (k : Nat) (f : PairPort → PairPort) :
    (State.modPair s k f).out = s.out := rfl
@[simp] theorem State.modPair_fresh (s : State) (k : Nat) (f : PairPort → PairPort) :
    (State.modPair s k f).fresh = s.fresh := rfl
@[simp] theorem State.modPair_pending (s : State) (k : Nat) (f : PairPort → PairPort) :
    (State.modPair s k f).pending = s.pending := rfl

/-! `modSteward` changes `steward` and nothing else. -/

@[simp] theorem State.modSteward_reeve (f : Steward → Steward) (s : State) :
    (State.modSteward f s).reeve = s.reeve := rfl
@[simp] theorem State.modSteward_cellar (f : Steward → Steward) (s : State) :
    (State.modSteward f s).cellar = s.cellar := rfl
@[simp] theorem State.modSteward_chain (f : Steward → Steward) (s : State) :
    (State.modSteward f s).chain = s.chain := rfl
@[simp] theorem State.modSteward_ingest (f : Steward → Steward) (s : State) :
    (State.modSteward f s).ingest = s.ingest := rfl
@[simp] theorem State.modSteward_act (f : Steward → Steward) (s : State) :
    (State.modSteward f s).act = s.act := rfl
@[simp] theorem State.modSteward_writer (f : Steward → Steward) (s : State) :
    (State.modSteward f s).writer = s.writer := rfl
@[simp] theorem State.modSteward_cells (f : Steward → Steward) (s : State) :
    (State.modSteward f s).cells = s.cells := rfl
@[simp] theorem State.modSteward_steward (f : Steward → Steward) (s : State) :
    (State.modSteward f s).steward = f s.steward := rfl
@[simp] theorem State.modSteward_trace (f : Steward → Steward) (s : State) :
    (State.modSteward f s).trace = s.trace := rfl
@[simp] theorem State.modSteward_jtag (f : Steward → Steward) (s : State) :
    (State.modSteward f s).jtag = s.jtag := rfl
@[simp] theorem State.modSteward_fabric (f : Steward → Steward) (s : State) :
    (State.modSteward f s).fabric = s.fabric := rfl
@[simp] theorem State.modSteward_time (f : Steward → Steward) (s : State) :
    (State.modSteward f s).time = s.time := rfl
@[simp] theorem State.modSteward_setup (f : Steward → Steward) (s : State) :
    (State.modSteward f s).setup = s.setup := rfl
@[simp] theorem State.modSteward_host (f : Steward → Steward) (s : State) :
    (State.modSteward f s).host = s.host := rfl
@[simp] theorem State.modSteward_watch (f : Steward → Steward) (s : State) :
    (State.modSteward f s).watch = s.watch := rfl
@[simp] theorem State.modSteward_aon (f : Steward → Steward) (s : State) :
    (State.modSteward f s).aon = s.aon := rfl
@[simp] theorem State.modSteward_fuses (f : Steward → Steward) (s : State) :
    (State.modSteward f s).fuses = s.fuses := rfl
@[simp] theorem State.modSteward_power (f : Steward → Steward) (s : State) :
    (State.modSteward f s).power = s.power := rfl
@[simp] theorem State.modSteward_board (f : Steward → Steward) (s : State) :
    (State.modSteward f s).board = s.board := rfl
@[simp] theorem State.modSteward_out (f : Steward → Steward) (s : State) :
    (State.modSteward f s).out = s.out := rfl
@[simp] theorem State.modSteward_fresh (f : Steward → Steward) (s : State) :
    (State.modSteward f s).fresh = s.fresh := rfl
@[simp] theorem State.modSteward_pending (f : Steward → Steward) (s : State) :
    (State.modSteward f s).pending = s.pending := rfl

/-! `modWatch` changes `watch` and nothing else. -/

@[simp] theorem State.modWatch_reeve (f : Watch → Watch) (s : State) :
    (State.modWatch f s).reeve = s.reeve := rfl
@[simp] theorem State.modWatch_cellar (f : Watch → Watch) (s : State) :
    (State.modWatch f s).cellar = s.cellar := rfl
@[simp] theorem State.modWatch_chain (f : Watch → Watch) (s : State) :
    (State.modWatch f s).chain = s.chain := rfl
@[simp] theorem State.modWatch_ingest (f : Watch → Watch) (s : State) :
    (State.modWatch f s).ingest = s.ingest := rfl
@[simp] theorem State.modWatch_act (f : Watch → Watch) (s : State) :
    (State.modWatch f s).act = s.act := rfl
@[simp] theorem State.modWatch_writer (f : Watch → Watch) (s : State) :
    (State.modWatch f s).writer = s.writer := rfl
@[simp] theorem State.modWatch_cells (f : Watch → Watch) (s : State) :
    (State.modWatch f s).cells = s.cells := rfl
@[simp] theorem State.modWatch_steward (f : Watch → Watch) (s : State) :
    (State.modWatch f s).steward = s.steward := rfl
@[simp] theorem State.modWatch_trace (f : Watch → Watch) (s : State) :
    (State.modWatch f s).trace = s.trace := rfl
@[simp] theorem State.modWatch_jtag (f : Watch → Watch) (s : State) :
    (State.modWatch f s).jtag = s.jtag := rfl
@[simp] theorem State.modWatch_fabric (f : Watch → Watch) (s : State) :
    (State.modWatch f s).fabric = s.fabric := rfl
@[simp] theorem State.modWatch_time (f : Watch → Watch) (s : State) :
    (State.modWatch f s).time = s.time := rfl
@[simp] theorem State.modWatch_setup (f : Watch → Watch) (s : State) :
    (State.modWatch f s).setup = s.setup := rfl
@[simp] theorem State.modWatch_host (f : Watch → Watch) (s : State) :
    (State.modWatch f s).host = s.host := rfl
@[simp] theorem State.modWatch_watch (f : Watch → Watch) (s : State) :
    (State.modWatch f s).watch = f s.watch := rfl
@[simp] theorem State.modWatch_aon (f : Watch → Watch) (s : State) :
    (State.modWatch f s).aon = s.aon := rfl
@[simp] theorem State.modWatch_fuses (f : Watch → Watch) (s : State) :
    (State.modWatch f s).fuses = s.fuses := rfl
@[simp] theorem State.modWatch_power (f : Watch → Watch) (s : State) :
    (State.modWatch f s).power = s.power := rfl
@[simp] theorem State.modWatch_board (f : Watch → Watch) (s : State) :
    (State.modWatch f s).board = s.board := rfl
@[simp] theorem State.modWatch_out (f : Watch → Watch) (s : State) :
    (State.modWatch f s).out = s.out := rfl
@[simp] theorem State.modWatch_fresh (f : Watch → Watch) (s : State) :
    (State.modWatch f s).fresh = s.fresh := rfl
@[simp] theorem State.modWatch_pending (f : Watch → Watch) (s : State) :
    (State.modWatch f s).pending = s.pending := rfl

/-! `modHost` changes `host` and nothing else. -/

@[simp] theorem State.modHost_reeve (f : HostIf → HostIf) (s : State) :
    (State.modHost f s).reeve = s.reeve := rfl
@[simp] theorem State.modHost_cellar (f : HostIf → HostIf) (s : State) :
    (State.modHost f s).cellar = s.cellar := rfl
@[simp] theorem State.modHost_chain (f : HostIf → HostIf) (s : State) :
    (State.modHost f s).chain = s.chain := rfl
@[simp] theorem State.modHost_ingest (f : HostIf → HostIf) (s : State) :
    (State.modHost f s).ingest = s.ingest := rfl
@[simp] theorem State.modHost_act (f : HostIf → HostIf) (s : State) :
    (State.modHost f s).act = s.act := rfl
@[simp] theorem State.modHost_writer (f : HostIf → HostIf) (s : State) :
    (State.modHost f s).writer = s.writer := rfl
@[simp] theorem State.modHost_cells (f : HostIf → HostIf) (s : State) :
    (State.modHost f s).cells = s.cells := rfl
@[simp] theorem State.modHost_steward (f : HostIf → HostIf) (s : State) :
    (State.modHost f s).steward = s.steward := rfl
@[simp] theorem State.modHost_trace (f : HostIf → HostIf) (s : State) :
    (State.modHost f s).trace = s.trace := rfl
@[simp] theorem State.modHost_jtag (f : HostIf → HostIf) (s : State) :
    (State.modHost f s).jtag = s.jtag := rfl
@[simp] theorem State.modHost_fabric (f : HostIf → HostIf) (s : State) :
    (State.modHost f s).fabric = s.fabric := rfl
@[simp] theorem State.modHost_time (f : HostIf → HostIf) (s : State) :
    (State.modHost f s).time = s.time := rfl
@[simp] theorem State.modHost_setup (f : HostIf → HostIf) (s : State) :
    (State.modHost f s).setup = s.setup := rfl
@[simp] theorem State.modHost_host (f : HostIf → HostIf) (s : State) :
    (State.modHost f s).host = f s.host := rfl
@[simp] theorem State.modHost_watch (f : HostIf → HostIf) (s : State) :
    (State.modHost f s).watch = s.watch := rfl
@[simp] theorem State.modHost_aon (f : HostIf → HostIf) (s : State) :
    (State.modHost f s).aon = s.aon := rfl
@[simp] theorem State.modHost_fuses (f : HostIf → HostIf) (s : State) :
    (State.modHost f s).fuses = s.fuses := rfl
@[simp] theorem State.modHost_power (f : HostIf → HostIf) (s : State) :
    (State.modHost f s).power = s.power := rfl
@[simp] theorem State.modHost_board (f : HostIf → HostIf) (s : State) :
    (State.modHost f s).board = s.board := rfl
@[simp] theorem State.modHost_out (f : HostIf → HostIf) (s : State) :
    (State.modHost f s).out = s.out := rfl
@[simp] theorem State.modHost_fresh (f : HostIf → HostIf) (s : State) :
    (State.modHost f s).fresh = s.fresh := rfl
@[simp] theorem State.modHost_pending (f : HostIf → HostIf) (s : State) :
    (State.modHost f s).pending = s.pending := rfl

/-! `modCmd` changes `host` and nothing else. -/

@[simp] theorem State.modCmd_reeve (r : Nat) (f : CmdRing → CmdRing) (s : State) :
    (State.modCmd r f s).reeve = s.reeve := rfl
@[simp] theorem State.modCmd_cellar (r : Nat) (f : CmdRing → CmdRing) (s : State) :
    (State.modCmd r f s).cellar = s.cellar := rfl
@[simp] theorem State.modCmd_chain (r : Nat) (f : CmdRing → CmdRing) (s : State) :
    (State.modCmd r f s).chain = s.chain := rfl
@[simp] theorem State.modCmd_ingest (r : Nat) (f : CmdRing → CmdRing) (s : State) :
    (State.modCmd r f s).ingest = s.ingest := rfl
@[simp] theorem State.modCmd_act (r : Nat) (f : CmdRing → CmdRing) (s : State) :
    (State.modCmd r f s).act = s.act := rfl
@[simp] theorem State.modCmd_writer (r : Nat) (f : CmdRing → CmdRing) (s : State) :
    (State.modCmd r f s).writer = s.writer := rfl
@[simp] theorem State.modCmd_cells (r : Nat) (f : CmdRing → CmdRing) (s : State) :
    (State.modCmd r f s).cells = s.cells := rfl
@[simp] theorem State.modCmd_steward (r : Nat) (f : CmdRing → CmdRing) (s : State) :
    (State.modCmd r f s).steward = s.steward := rfl
@[simp] theorem State.modCmd_trace (r : Nat) (f : CmdRing → CmdRing) (s : State) :
    (State.modCmd r f s).trace = s.trace := rfl
@[simp] theorem State.modCmd_jtag (r : Nat) (f : CmdRing → CmdRing) (s : State) :
    (State.modCmd r f s).jtag = s.jtag := rfl
@[simp] theorem State.modCmd_fabric (r : Nat) (f : CmdRing → CmdRing) (s : State) :
    (State.modCmd r f s).fabric = s.fabric := rfl
@[simp] theorem State.modCmd_time (r : Nat) (f : CmdRing → CmdRing) (s : State) :
    (State.modCmd r f s).time = s.time := rfl
@[simp] theorem State.modCmd_setup (r : Nat) (f : CmdRing → CmdRing) (s : State) :
    (State.modCmd r f s).setup = s.setup := rfl
@[simp] theorem State.modCmd_watch (r : Nat) (f : CmdRing → CmdRing) (s : State) :
    (State.modCmd r f s).watch = s.watch := rfl
@[simp] theorem State.modCmd_aon (r : Nat) (f : CmdRing → CmdRing) (s : State) :
    (State.modCmd r f s).aon = s.aon := rfl
@[simp] theorem State.modCmd_fuses (r : Nat) (f : CmdRing → CmdRing) (s : State) :
    (State.modCmd r f s).fuses = s.fuses := rfl
@[simp] theorem State.modCmd_power (r : Nat) (f : CmdRing → CmdRing) (s : State) :
    (State.modCmd r f s).power = s.power := rfl
@[simp] theorem State.modCmd_board (r : Nat) (f : CmdRing → CmdRing) (s : State) :
    (State.modCmd r f s).board = s.board := rfl
@[simp] theorem State.modCmd_out (r : Nat) (f : CmdRing → CmdRing) (s : State) :
    (State.modCmd r f s).out = s.out := rfl
@[simp] theorem State.modCmd_fresh (r : Nat) (f : CmdRing → CmdRing) (s : State) :
    (State.modCmd r f s).fresh = s.fresh := rfl
@[simp] theorem State.modCmd_pending (r : Nat) (f : CmdRing → CmdRing) (s : State) :
    (State.modCmd r f s).pending = s.pending := rfl

/-! `modCpl` changes `host` and nothing else. -/

@[simp] theorem State.modCpl_reeve (q : Nat) (f : CplRing → CplRing) (s : State) :
    (State.modCpl q f s).reeve = s.reeve := rfl
@[simp] theorem State.modCpl_cellar (q : Nat) (f : CplRing → CplRing) (s : State) :
    (State.modCpl q f s).cellar = s.cellar := rfl
@[simp] theorem State.modCpl_chain (q : Nat) (f : CplRing → CplRing) (s : State) :
    (State.modCpl q f s).chain = s.chain := rfl
@[simp] theorem State.modCpl_ingest (q : Nat) (f : CplRing → CplRing) (s : State) :
    (State.modCpl q f s).ingest = s.ingest := rfl
@[simp] theorem State.modCpl_act (q : Nat) (f : CplRing → CplRing) (s : State) :
    (State.modCpl q f s).act = s.act := rfl
@[simp] theorem State.modCpl_writer (q : Nat) (f : CplRing → CplRing) (s : State) :
    (State.modCpl q f s).writer = s.writer := rfl
@[simp] theorem State.modCpl_cells (q : Nat) (f : CplRing → CplRing) (s : State) :
    (State.modCpl q f s).cells = s.cells := rfl
@[simp] theorem State.modCpl_steward (q : Nat) (f : CplRing → CplRing) (s : State) :
    (State.modCpl q f s).steward = s.steward := rfl
@[simp] theorem State.modCpl_trace (q : Nat) (f : CplRing → CplRing) (s : State) :
    (State.modCpl q f s).trace = s.trace := rfl
@[simp] theorem State.modCpl_jtag (q : Nat) (f : CplRing → CplRing) (s : State) :
    (State.modCpl q f s).jtag = s.jtag := rfl
@[simp] theorem State.modCpl_fabric (q : Nat) (f : CplRing → CplRing) (s : State) :
    (State.modCpl q f s).fabric = s.fabric := rfl
@[simp] theorem State.modCpl_time (q : Nat) (f : CplRing → CplRing) (s : State) :
    (State.modCpl q f s).time = s.time := rfl
@[simp] theorem State.modCpl_setup (q : Nat) (f : CplRing → CplRing) (s : State) :
    (State.modCpl q f s).setup = s.setup := rfl
@[simp] theorem State.modCpl_watch (q : Nat) (f : CplRing → CplRing) (s : State) :
    (State.modCpl q f s).watch = s.watch := rfl
@[simp] theorem State.modCpl_aon (q : Nat) (f : CplRing → CplRing) (s : State) :
    (State.modCpl q f s).aon = s.aon := rfl
@[simp] theorem State.modCpl_fuses (q : Nat) (f : CplRing → CplRing) (s : State) :
    (State.modCpl q f s).fuses = s.fuses := rfl
@[simp] theorem State.modCpl_power (q : Nat) (f : CplRing → CplRing) (s : State) :
    (State.modCpl q f s).power = s.power := rfl
@[simp] theorem State.modCpl_board (q : Nat) (f : CplRing → CplRing) (s : State) :
    (State.modCpl q f s).board = s.board := rfl
@[simp] theorem State.modCpl_out (q : Nat) (f : CplRing → CplRing) (s : State) :
    (State.modCpl q f s).out = s.out := rfl
@[simp] theorem State.modCpl_fresh (q : Nat) (f : CplRing → CplRing) (s : State) :
    (State.modCpl q f s).fresh = s.fresh := rfl
@[simp] theorem State.modCpl_pending (q : Nat) (f : CplRing → CplRing) (s : State) :
    (State.modCpl q f s).pending = s.pending := rfl

/-! `modTrace` changes `trace` and nothing else. -/

@[simp] theorem State.modTrace_reeve (f : Trace → Trace) (s : State) :
    (State.modTrace f s).reeve = s.reeve := rfl
@[simp] theorem State.modTrace_cellar (f : Trace → Trace) (s : State) :
    (State.modTrace f s).cellar = s.cellar := rfl
@[simp] theorem State.modTrace_chain (f : Trace → Trace) (s : State) :
    (State.modTrace f s).chain = s.chain := rfl
@[simp] theorem State.modTrace_ingest (f : Trace → Trace) (s : State) :
    (State.modTrace f s).ingest = s.ingest := rfl
@[simp] theorem State.modTrace_act (f : Trace → Trace) (s : State) :
    (State.modTrace f s).act = s.act := rfl
@[simp] theorem State.modTrace_writer (f : Trace → Trace) (s : State) :
    (State.modTrace f s).writer = s.writer := rfl
@[simp] theorem State.modTrace_cells (f : Trace → Trace) (s : State) :
    (State.modTrace f s).cells = s.cells := rfl
@[simp] theorem State.modTrace_steward (f : Trace → Trace) (s : State) :
    (State.modTrace f s).steward = s.steward := rfl
@[simp] theorem State.modTrace_trace (f : Trace → Trace) (s : State) :
    (State.modTrace f s).trace = f s.trace := rfl
@[simp] theorem State.modTrace_jtag (f : Trace → Trace) (s : State) :
    (State.modTrace f s).jtag = s.jtag := rfl
@[simp] theorem State.modTrace_fabric (f : Trace → Trace) (s : State) :
    (State.modTrace f s).fabric = s.fabric := rfl
@[simp] theorem State.modTrace_time (f : Trace → Trace) (s : State) :
    (State.modTrace f s).time = s.time := rfl
@[simp] theorem State.modTrace_setup (f : Trace → Trace) (s : State) :
    (State.modTrace f s).setup = s.setup := rfl
@[simp] theorem State.modTrace_host (f : Trace → Trace) (s : State) :
    (State.modTrace f s).host = s.host := rfl
@[simp] theorem State.modTrace_watch (f : Trace → Trace) (s : State) :
    (State.modTrace f s).watch = s.watch := rfl
@[simp] theorem State.modTrace_aon (f : Trace → Trace) (s : State) :
    (State.modTrace f s).aon = s.aon := rfl
@[simp] theorem State.modTrace_fuses (f : Trace → Trace) (s : State) :
    (State.modTrace f s).fuses = s.fuses := rfl
@[simp] theorem State.modTrace_power (f : Trace → Trace) (s : State) :
    (State.modTrace f s).power = s.power := rfl
@[simp] theorem State.modTrace_board (f : Trace → Trace) (s : State) :
    (State.modTrace f s).board = s.board := rfl
@[simp] theorem State.modTrace_out (f : Trace → Trace) (s : State) :
    (State.modTrace f s).out = s.out := rfl
@[simp] theorem State.modTrace_fresh (f : Trace → Trace) (s : State) :
    (State.modTrace f s).fresh = s.fresh := rfl
@[simp] theorem State.modTrace_pending (f : Trace → Trace) (s : State) :
    (State.modTrace f s).pending = s.pending := rfl

/-! `modAon` changes `aon` and nothing else. -/

@[simp] theorem State.modAon_reeve (f : AlwaysOn → AlwaysOn) (s : State) :
    (State.modAon f s).reeve = s.reeve := rfl
@[simp] theorem State.modAon_cellar (f : AlwaysOn → AlwaysOn) (s : State) :
    (State.modAon f s).cellar = s.cellar := rfl
@[simp] theorem State.modAon_chain (f : AlwaysOn → AlwaysOn) (s : State) :
    (State.modAon f s).chain = s.chain := rfl
@[simp] theorem State.modAon_ingest (f : AlwaysOn → AlwaysOn) (s : State) :
    (State.modAon f s).ingest = s.ingest := rfl
@[simp] theorem State.modAon_act (f : AlwaysOn → AlwaysOn) (s : State) :
    (State.modAon f s).act = s.act := rfl
@[simp] theorem State.modAon_writer (f : AlwaysOn → AlwaysOn) (s : State) :
    (State.modAon f s).writer = s.writer := rfl
@[simp] theorem State.modAon_cells (f : AlwaysOn → AlwaysOn) (s : State) :
    (State.modAon f s).cells = s.cells := rfl
@[simp] theorem State.modAon_steward (f : AlwaysOn → AlwaysOn) (s : State) :
    (State.modAon f s).steward = s.steward := rfl
@[simp] theorem State.modAon_trace (f : AlwaysOn → AlwaysOn) (s : State) :
    (State.modAon f s).trace = s.trace := rfl
@[simp] theorem State.modAon_jtag (f : AlwaysOn → AlwaysOn) (s : State) :
    (State.modAon f s).jtag = s.jtag := rfl
@[simp] theorem State.modAon_fabric (f : AlwaysOn → AlwaysOn) (s : State) :
    (State.modAon f s).fabric = s.fabric := rfl
@[simp] theorem State.modAon_time (f : AlwaysOn → AlwaysOn) (s : State) :
    (State.modAon f s).time = s.time := rfl
@[simp] theorem State.modAon_setup (f : AlwaysOn → AlwaysOn) (s : State) :
    (State.modAon f s).setup = s.setup := rfl
@[simp] theorem State.modAon_host (f : AlwaysOn → AlwaysOn) (s : State) :
    (State.modAon f s).host = s.host := rfl
@[simp] theorem State.modAon_watch (f : AlwaysOn → AlwaysOn) (s : State) :
    (State.modAon f s).watch = s.watch := rfl
@[simp] theorem State.modAon_aon (f : AlwaysOn → AlwaysOn) (s : State) :
    (State.modAon f s).aon = f s.aon := rfl
@[simp] theorem State.modAon_fuses (f : AlwaysOn → AlwaysOn) (s : State) :
    (State.modAon f s).fuses = s.fuses := rfl
@[simp] theorem State.modAon_power (f : AlwaysOn → AlwaysOn) (s : State) :
    (State.modAon f s).power = s.power := rfl
@[simp] theorem State.modAon_board (f : AlwaysOn → AlwaysOn) (s : State) :
    (State.modAon f s).board = s.board := rfl
@[simp] theorem State.modAon_out (f : AlwaysOn → AlwaysOn) (s : State) :
    (State.modAon f s).out = s.out := rfl
@[simp] theorem State.modAon_fresh (f : AlwaysOn → AlwaysOn) (s : State) :
    (State.modAon f s).fresh = s.fresh := rfl
@[simp] theorem State.modAon_pending (f : AlwaysOn → AlwaysOn) (s : State) :
    (State.modAon f s).pending = s.pending := rfl

/-! `modFuses` changes `fuses` and nothing else. -/

@[simp] theorem State.modFuses_reeve (f : Fuses → Fuses) (s : State) :
    (State.modFuses f s).reeve = s.reeve := rfl
@[simp] theorem State.modFuses_cellar (f : Fuses → Fuses) (s : State) :
    (State.modFuses f s).cellar = s.cellar := rfl
@[simp] theorem State.modFuses_chain (f : Fuses → Fuses) (s : State) :
    (State.modFuses f s).chain = s.chain := rfl
@[simp] theorem State.modFuses_ingest (f : Fuses → Fuses) (s : State) :
    (State.modFuses f s).ingest = s.ingest := rfl
@[simp] theorem State.modFuses_act (f : Fuses → Fuses) (s : State) :
    (State.modFuses f s).act = s.act := rfl
@[simp] theorem State.modFuses_writer (f : Fuses → Fuses) (s : State) :
    (State.modFuses f s).writer = s.writer := rfl
@[simp] theorem State.modFuses_cells (f : Fuses → Fuses) (s : State) :
    (State.modFuses f s).cells = s.cells := rfl
@[simp] theorem State.modFuses_steward (f : Fuses → Fuses) (s : State) :
    (State.modFuses f s).steward = s.steward := rfl
@[simp] theorem State.modFuses_trace (f : Fuses → Fuses) (s : State) :
    (State.modFuses f s).trace = s.trace := rfl
@[simp] theorem State.modFuses_jtag (f : Fuses → Fuses) (s : State) :
    (State.modFuses f s).jtag = s.jtag := rfl
@[simp] theorem State.modFuses_fabric (f : Fuses → Fuses) (s : State) :
    (State.modFuses f s).fabric = s.fabric := rfl
@[simp] theorem State.modFuses_time (f : Fuses → Fuses) (s : State) :
    (State.modFuses f s).time = s.time := rfl
@[simp] theorem State.modFuses_setup (f : Fuses → Fuses) (s : State) :
    (State.modFuses f s).setup = s.setup := rfl
@[simp] theorem State.modFuses_host (f : Fuses → Fuses) (s : State) :
    (State.modFuses f s).host = s.host := rfl
@[simp] theorem State.modFuses_watch (f : Fuses → Fuses) (s : State) :
    (State.modFuses f s).watch = s.watch := rfl
@[simp] theorem State.modFuses_aon (f : Fuses → Fuses) (s : State) :
    (State.modFuses f s).aon = s.aon := rfl
@[simp] theorem State.modFuses_fuses (f : Fuses → Fuses) (s : State) :
    (State.modFuses f s).fuses = f s.fuses := rfl
@[simp] theorem State.modFuses_power (f : Fuses → Fuses) (s : State) :
    (State.modFuses f s).power = s.power := rfl
@[simp] theorem State.modFuses_board (f : Fuses → Fuses) (s : State) :
    (State.modFuses f s).board = s.board := rfl
@[simp] theorem State.modFuses_out (f : Fuses → Fuses) (s : State) :
    (State.modFuses f s).out = s.out := rfl
@[simp] theorem State.modFuses_fresh (f : Fuses → Fuses) (s : State) :
    (State.modFuses f s).fresh = s.fresh := rfl
@[simp] theorem State.modFuses_pending (f : Fuses → Fuses) (s : State) :
    (State.modFuses f s).pending = s.pending := rfl

/-! `modSetup` changes `setup` and nothing else. -/

@[simp] theorem State.modSetup_reeve (f : Setup → Setup) (s : State) :
    (State.modSetup f s).reeve = s.reeve := rfl
@[simp] theorem State.modSetup_cellar (f : Setup → Setup) (s : State) :
    (State.modSetup f s).cellar = s.cellar := rfl
@[simp] theorem State.modSetup_chain (f : Setup → Setup) (s : State) :
    (State.modSetup f s).chain = s.chain := rfl
@[simp] theorem State.modSetup_ingest (f : Setup → Setup) (s : State) :
    (State.modSetup f s).ingest = s.ingest := rfl
@[simp] theorem State.modSetup_act (f : Setup → Setup) (s : State) :
    (State.modSetup f s).act = s.act := rfl
@[simp] theorem State.modSetup_writer (f : Setup → Setup) (s : State) :
    (State.modSetup f s).writer = s.writer := rfl
@[simp] theorem State.modSetup_cells (f : Setup → Setup) (s : State) :
    (State.modSetup f s).cells = s.cells := rfl
@[simp] theorem State.modSetup_steward (f : Setup → Setup) (s : State) :
    (State.modSetup f s).steward = s.steward := rfl
@[simp] theorem State.modSetup_trace (f : Setup → Setup) (s : State) :
    (State.modSetup f s).trace = s.trace := rfl
@[simp] theorem State.modSetup_jtag (f : Setup → Setup) (s : State) :
    (State.modSetup f s).jtag = s.jtag := rfl
@[simp] theorem State.modSetup_fabric (f : Setup → Setup) (s : State) :
    (State.modSetup f s).fabric = s.fabric := rfl
@[simp] theorem State.modSetup_time (f : Setup → Setup) (s : State) :
    (State.modSetup f s).time = s.time := rfl
@[simp] theorem State.modSetup_setup (f : Setup → Setup) (s : State) :
    (State.modSetup f s).setup = f s.setup := rfl
@[simp] theorem State.modSetup_host (f : Setup → Setup) (s : State) :
    (State.modSetup f s).host = s.host := rfl
@[simp] theorem State.modSetup_watch (f : Setup → Setup) (s : State) :
    (State.modSetup f s).watch = s.watch := rfl
@[simp] theorem State.modSetup_aon (f : Setup → Setup) (s : State) :
    (State.modSetup f s).aon = s.aon := rfl
@[simp] theorem State.modSetup_fuses (f : Setup → Setup) (s : State) :
    (State.modSetup f s).fuses = s.fuses := rfl
@[simp] theorem State.modSetup_power (f : Setup → Setup) (s : State) :
    (State.modSetup f s).power = s.power := rfl
@[simp] theorem State.modSetup_board (f : Setup → Setup) (s : State) :
    (State.modSetup f s).board = s.board := rfl
@[simp] theorem State.modSetup_out (f : Setup → Setup) (s : State) :
    (State.modSetup f s).out = s.out := rfl
@[simp] theorem State.modSetup_fresh (f : Setup → Setup) (s : State) :
    (State.modSetup f s).fresh = s.fresh := rfl
@[simp] theorem State.modSetup_pending (f : Setup → Setup) (s : State) :
    (State.modSetup f s).pending = s.pending := rfl

/-! `modTime` changes `time` and nothing else. -/

@[simp] theorem State.modTime_reeve (f : Time → Time) (s : State) :
    (State.modTime f s).reeve = s.reeve := rfl
@[simp] theorem State.modTime_cellar (f : Time → Time) (s : State) :
    (State.modTime f s).cellar = s.cellar := rfl
@[simp] theorem State.modTime_chain (f : Time → Time) (s : State) :
    (State.modTime f s).chain = s.chain := rfl
@[simp] theorem State.modTime_ingest (f : Time → Time) (s : State) :
    (State.modTime f s).ingest = s.ingest := rfl
@[simp] theorem State.modTime_act (f : Time → Time) (s : State) :
    (State.modTime f s).act = s.act := rfl
@[simp] theorem State.modTime_writer (f : Time → Time) (s : State) :
    (State.modTime f s).writer = s.writer := rfl
@[simp] theorem State.modTime_cells (f : Time → Time) (s : State) :
    (State.modTime f s).cells = s.cells := rfl
@[simp] theorem State.modTime_steward (f : Time → Time) (s : State) :
    (State.modTime f s).steward = s.steward := rfl
@[simp] theorem State.modTime_trace (f : Time → Time) (s : State) :
    (State.modTime f s).trace = s.trace := rfl
@[simp] theorem State.modTime_jtag (f : Time → Time) (s : State) :
    (State.modTime f s).jtag = s.jtag := rfl
@[simp] theorem State.modTime_fabric (f : Time → Time) (s : State) :
    (State.modTime f s).fabric = s.fabric := rfl
@[simp] theorem State.modTime_time (f : Time → Time) (s : State) :
    (State.modTime f s).time = f s.time := rfl
@[simp] theorem State.modTime_setup (f : Time → Time) (s : State) :
    (State.modTime f s).setup = s.setup := rfl
@[simp] theorem State.modTime_host (f : Time → Time) (s : State) :
    (State.modTime f s).host = s.host := rfl
@[simp] theorem State.modTime_watch (f : Time → Time) (s : State) :
    (State.modTime f s).watch = s.watch := rfl
@[simp] theorem State.modTime_aon (f : Time → Time) (s : State) :
    (State.modTime f s).aon = s.aon := rfl
@[simp] theorem State.modTime_fuses (f : Time → Time) (s : State) :
    (State.modTime f s).fuses = s.fuses := rfl
@[simp] theorem State.modTime_power (f : Time → Time) (s : State) :
    (State.modTime f s).power = s.power := rfl
@[simp] theorem State.modTime_board (f : Time → Time) (s : State) :
    (State.modTime f s).board = s.board := rfl
@[simp] theorem State.modTime_out (f : Time → Time) (s : State) :
    (State.modTime f s).out = s.out := rfl
@[simp] theorem State.modTime_fresh (f : Time → Time) (s : State) :
    (State.modTime f s).fresh = s.fresh := rfl
@[simp] theorem State.modTime_pending (f : Time → Time) (s : State) :
    (State.modTime f s).pending = s.pending := rfl

/-! `modPower` changes `power` and nothing else. -/

@[simp] theorem State.modPower_reeve (f : Power → Power) (s : State) :
    (State.modPower f s).reeve = s.reeve := rfl
@[simp] theorem State.modPower_cellar (f : Power → Power) (s : State) :
    (State.modPower f s).cellar = s.cellar := rfl
@[simp] theorem State.modPower_chain (f : Power → Power) (s : State) :
    (State.modPower f s).chain = s.chain := rfl
@[simp] theorem State.modPower_ingest (f : Power → Power) (s : State) :
    (State.modPower f s).ingest = s.ingest := rfl
@[simp] theorem State.modPower_act (f : Power → Power) (s : State) :
    (State.modPower f s).act = s.act := rfl
@[simp] theorem State.modPower_writer (f : Power → Power) (s : State) :
    (State.modPower f s).writer = s.writer := rfl
@[simp] theorem State.modPower_cells (f : Power → Power) (s : State) :
    (State.modPower f s).cells = s.cells := rfl
@[simp] theorem State.modPower_steward (f : Power → Power) (s : State) :
    (State.modPower f s).steward = s.steward := rfl
@[simp] theorem State.modPower_trace (f : Power → Power) (s : State) :
    (State.modPower f s).trace = s.trace := rfl
@[simp] theorem State.modPower_jtag (f : Power → Power) (s : State) :
    (State.modPower f s).jtag = s.jtag := rfl
@[simp] theorem State.modPower_fabric (f : Power → Power) (s : State) :
    (State.modPower f s).fabric = s.fabric := rfl
@[simp] theorem State.modPower_time (f : Power → Power) (s : State) :
    (State.modPower f s).time = s.time := rfl
@[simp] theorem State.modPower_setup (f : Power → Power) (s : State) :
    (State.modPower f s).setup = s.setup := rfl
@[simp] theorem State.modPower_host (f : Power → Power) (s : State) :
    (State.modPower f s).host = s.host := rfl
@[simp] theorem State.modPower_watch (f : Power → Power) (s : State) :
    (State.modPower f s).watch = s.watch := rfl
@[simp] theorem State.modPower_aon (f : Power → Power) (s : State) :
    (State.modPower f s).aon = s.aon := rfl
@[simp] theorem State.modPower_fuses (f : Power → Power) (s : State) :
    (State.modPower f s).fuses = s.fuses := rfl
@[simp] theorem State.modPower_power (f : Power → Power) (s : State) :
    (State.modPower f s).power = f s.power := rfl
@[simp] theorem State.modPower_board (f : Power → Power) (s : State) :
    (State.modPower f s).board = s.board := rfl
@[simp] theorem State.modPower_out (f : Power → Power) (s : State) :
    (State.modPower f s).out = s.out := rfl
@[simp] theorem State.modPower_fresh (f : Power → Power) (s : State) :
    (State.modPower f s).fresh = s.fresh := rfl
@[simp] theorem State.modPower_pending (f : Power → Power) (s : State) :
    (State.modPower f s).pending = s.pending := rfl

/-! `modBoard` changes `board` and nothing else. -/

@[simp] theorem State.modBoard_reeve (f : Board → Board) (s : State) :
    (State.modBoard f s).reeve = s.reeve := rfl
@[simp] theorem State.modBoard_cellar (f : Board → Board) (s : State) :
    (State.modBoard f s).cellar = s.cellar := rfl
@[simp] theorem State.modBoard_chain (f : Board → Board) (s : State) :
    (State.modBoard f s).chain = s.chain := rfl
@[simp] theorem State.modBoard_ingest (f : Board → Board) (s : State) :
    (State.modBoard f s).ingest = s.ingest := rfl
@[simp] theorem State.modBoard_act (f : Board → Board) (s : State) :
    (State.modBoard f s).act = s.act := rfl
@[simp] theorem State.modBoard_writer (f : Board → Board) (s : State) :
    (State.modBoard f s).writer = s.writer := rfl
@[simp] theorem State.modBoard_cells (f : Board → Board) (s : State) :
    (State.modBoard f s).cells = s.cells := rfl
@[simp] theorem State.modBoard_steward (f : Board → Board) (s : State) :
    (State.modBoard f s).steward = s.steward := rfl
@[simp] theorem State.modBoard_trace (f : Board → Board) (s : State) :
    (State.modBoard f s).trace = s.trace := rfl
@[simp] theorem State.modBoard_jtag (f : Board → Board) (s : State) :
    (State.modBoard f s).jtag = s.jtag := rfl
@[simp] theorem State.modBoard_fabric (f : Board → Board) (s : State) :
    (State.modBoard f s).fabric = s.fabric := rfl
@[simp] theorem State.modBoard_time (f : Board → Board) (s : State) :
    (State.modBoard f s).time = s.time := rfl
@[simp] theorem State.modBoard_setup (f : Board → Board) (s : State) :
    (State.modBoard f s).setup = s.setup := rfl
@[simp] theorem State.modBoard_host (f : Board → Board) (s : State) :
    (State.modBoard f s).host = s.host := rfl
@[simp] theorem State.modBoard_watch (f : Board → Board) (s : State) :
    (State.modBoard f s).watch = s.watch := rfl
@[simp] theorem State.modBoard_aon (f : Board → Board) (s : State) :
    (State.modBoard f s).aon = s.aon := rfl
@[simp] theorem State.modBoard_fuses (f : Board → Board) (s : State) :
    (State.modBoard f s).fuses = s.fuses := rfl
@[simp] theorem State.modBoard_power (f : Board → Board) (s : State) :
    (State.modBoard f s).power = s.power := rfl
@[simp] theorem State.modBoard_board (f : Board → Board) (s : State) :
    (State.modBoard f s).board = f s.board := rfl
@[simp] theorem State.modBoard_out (f : Board → Board) (s : State) :
    (State.modBoard f s).out = s.out := rfl
@[simp] theorem State.modBoard_fresh (f : Board → Board) (s : State) :
    (State.modBoard f s).fresh = s.fresh := rfl
@[simp] theorem State.modBoard_pending (f : Board → Board) (s : State) :
    (State.modBoard f s).pending = s.pending := rfl

/-! `modAct` changes `act` and nothing else. -/

@[simp] theorem State.modAct_reeve (f : ActUnit → ActUnit) (s : State) :
    (State.modAct f s).reeve = s.reeve := rfl
@[simp] theorem State.modAct_cellar (f : ActUnit → ActUnit) (s : State) :
    (State.modAct f s).cellar = s.cellar := rfl
@[simp] theorem State.modAct_chain (f : ActUnit → ActUnit) (s : State) :
    (State.modAct f s).chain = s.chain := rfl
@[simp] theorem State.modAct_ingest (f : ActUnit → ActUnit) (s : State) :
    (State.modAct f s).ingest = s.ingest := rfl
@[simp] theorem State.modAct_act (f : ActUnit → ActUnit) (s : State) :
    (State.modAct f s).act = f s.act := rfl
@[simp] theorem State.modAct_writer (f : ActUnit → ActUnit) (s : State) :
    (State.modAct f s).writer = s.writer := rfl
@[simp] theorem State.modAct_cells (f : ActUnit → ActUnit) (s : State) :
    (State.modAct f s).cells = s.cells := rfl
@[simp] theorem State.modAct_steward (f : ActUnit → ActUnit) (s : State) :
    (State.modAct f s).steward = s.steward := rfl
@[simp] theorem State.modAct_trace (f : ActUnit → ActUnit) (s : State) :
    (State.modAct f s).trace = s.trace := rfl
@[simp] theorem State.modAct_jtag (f : ActUnit → ActUnit) (s : State) :
    (State.modAct f s).jtag = s.jtag := rfl
@[simp] theorem State.modAct_fabric (f : ActUnit → ActUnit) (s : State) :
    (State.modAct f s).fabric = s.fabric := rfl
@[simp] theorem State.modAct_time (f : ActUnit → ActUnit) (s : State) :
    (State.modAct f s).time = s.time := rfl
@[simp] theorem State.modAct_setup (f : ActUnit → ActUnit) (s : State) :
    (State.modAct f s).setup = s.setup := rfl
@[simp] theorem State.modAct_host (f : ActUnit → ActUnit) (s : State) :
    (State.modAct f s).host = s.host := rfl
@[simp] theorem State.modAct_watch (f : ActUnit → ActUnit) (s : State) :
    (State.modAct f s).watch = s.watch := rfl
@[simp] theorem State.modAct_aon (f : ActUnit → ActUnit) (s : State) :
    (State.modAct f s).aon = s.aon := rfl
@[simp] theorem State.modAct_fuses (f : ActUnit → ActUnit) (s : State) :
    (State.modAct f s).fuses = s.fuses := rfl
@[simp] theorem State.modAct_power (f : ActUnit → ActUnit) (s : State) :
    (State.modAct f s).power = s.power := rfl
@[simp] theorem State.modAct_board (f : ActUnit → ActUnit) (s : State) :
    (State.modAct f s).board = s.board := rfl
@[simp] theorem State.modAct_out (f : ActUnit → ActUnit) (s : State) :
    (State.modAct f s).out = s.out := rfl
@[simp] theorem State.modAct_fresh (f : ActUnit → ActUnit) (s : State) :
    (State.modAct f s).fresh = s.fresh := rfl
@[simp] theorem State.modAct_pending (f : ActUnit → ActUnit) (s : State) :
    (State.modAct f s).pending = s.pending := rfl

/-! `modActPort` changes `act` and nothing else. -/

@[simp] theorem State.modActPort_reeve (a : Nat) (f : ActPort → ActPort) (s : State) :
    (State.modActPort a f s).reeve = s.reeve := rfl
@[simp] theorem State.modActPort_cellar (a : Nat) (f : ActPort → ActPort) (s : State) :
    (State.modActPort a f s).cellar = s.cellar := rfl
@[simp] theorem State.modActPort_chain (a : Nat) (f : ActPort → ActPort) (s : State) :
    (State.modActPort a f s).chain = s.chain := rfl
@[simp] theorem State.modActPort_ingest (a : Nat) (f : ActPort → ActPort) (s : State) :
    (State.modActPort a f s).ingest = s.ingest := rfl
@[simp] theorem State.modActPort_writer (a : Nat) (f : ActPort → ActPort) (s : State) :
    (State.modActPort a f s).writer = s.writer := rfl
@[simp] theorem State.modActPort_cells (a : Nat) (f : ActPort → ActPort) (s : State) :
    (State.modActPort a f s).cells = s.cells := rfl
@[simp] theorem State.modActPort_steward (a : Nat) (f : ActPort → ActPort) (s : State) :
    (State.modActPort a f s).steward = s.steward := rfl
@[simp] theorem State.modActPort_trace (a : Nat) (f : ActPort → ActPort) (s : State) :
    (State.modActPort a f s).trace = s.trace := rfl
@[simp] theorem State.modActPort_jtag (a : Nat) (f : ActPort → ActPort) (s : State) :
    (State.modActPort a f s).jtag = s.jtag := rfl
@[simp] theorem State.modActPort_fabric (a : Nat) (f : ActPort → ActPort) (s : State) :
    (State.modActPort a f s).fabric = s.fabric := rfl
@[simp] theorem State.modActPort_time (a : Nat) (f : ActPort → ActPort) (s : State) :
    (State.modActPort a f s).time = s.time := rfl
@[simp] theorem State.modActPort_setup (a : Nat) (f : ActPort → ActPort) (s : State) :
    (State.modActPort a f s).setup = s.setup := rfl
@[simp] theorem State.modActPort_host (a : Nat) (f : ActPort → ActPort) (s : State) :
    (State.modActPort a f s).host = s.host := rfl
@[simp] theorem State.modActPort_watch (a : Nat) (f : ActPort → ActPort) (s : State) :
    (State.modActPort a f s).watch = s.watch := rfl
@[simp] theorem State.modActPort_aon (a : Nat) (f : ActPort → ActPort) (s : State) :
    (State.modActPort a f s).aon = s.aon := rfl
@[simp] theorem State.modActPort_fuses (a : Nat) (f : ActPort → ActPort) (s : State) :
    (State.modActPort a f s).fuses = s.fuses := rfl
@[simp] theorem State.modActPort_power (a : Nat) (f : ActPort → ActPort) (s : State) :
    (State.modActPort a f s).power = s.power := rfl
@[simp] theorem State.modActPort_board (a : Nat) (f : ActPort → ActPort) (s : State) :
    (State.modActPort a f s).board = s.board := rfl
@[simp] theorem State.modActPort_out (a : Nat) (f : ActPort → ActPort) (s : State) :
    (State.modActPort a f s).out = s.out := rfl
@[simp] theorem State.modActPort_fresh (a : Nat) (f : ActPort → ActPort) (s : State) :
    (State.modActPort a f s).fresh = s.fresh := rfl
@[simp] theorem State.modActPort_pending (a : Nat) (f : ActPort → ActPort) (s : State) :
    (State.modActPort a f s).pending = s.pending := rfl

/-! `modReeve` changes `reeve` and nothing else. -/

@[simp] theorem State.modReeve_reeve (f : Reeve → Reeve) (s : State) :
    (State.modReeve f s).reeve = f s.reeve := rfl
@[simp] theorem State.modReeve_cellar (f : Reeve → Reeve) (s : State) :
    (State.modReeve f s).cellar = s.cellar := rfl
@[simp] theorem State.modReeve_chain (f : Reeve → Reeve) (s : State) :
    (State.modReeve f s).chain = s.chain := rfl
@[simp] theorem State.modReeve_ingest (f : Reeve → Reeve) (s : State) :
    (State.modReeve f s).ingest = s.ingest := rfl
@[simp] theorem State.modReeve_act (f : Reeve → Reeve) (s : State) :
    (State.modReeve f s).act = s.act := rfl
@[simp] theorem State.modReeve_writer (f : Reeve → Reeve) (s : State) :
    (State.modReeve f s).writer = s.writer := rfl
@[simp] theorem State.modReeve_cells (f : Reeve → Reeve) (s : State) :
    (State.modReeve f s).cells = s.cells := rfl
@[simp] theorem State.modReeve_steward (f : Reeve → Reeve) (s : State) :
    (State.modReeve f s).steward = s.steward := rfl
@[simp] theorem State.modReeve_trace (f : Reeve → Reeve) (s : State) :
    (State.modReeve f s).trace = s.trace := rfl
@[simp] theorem State.modReeve_jtag (f : Reeve → Reeve) (s : State) :
    (State.modReeve f s).jtag = s.jtag := rfl
@[simp] theorem State.modReeve_fabric (f : Reeve → Reeve) (s : State) :
    (State.modReeve f s).fabric = s.fabric := rfl
@[simp] theorem State.modReeve_time (f : Reeve → Reeve) (s : State) :
    (State.modReeve f s).time = s.time := rfl
@[simp] theorem State.modReeve_setup (f : Reeve → Reeve) (s : State) :
    (State.modReeve f s).setup = s.setup := rfl
@[simp] theorem State.modReeve_host (f : Reeve → Reeve) (s : State) :
    (State.modReeve f s).host = s.host := rfl
@[simp] theorem State.modReeve_watch (f : Reeve → Reeve) (s : State) :
    (State.modReeve f s).watch = s.watch := rfl
@[simp] theorem State.modReeve_aon (f : Reeve → Reeve) (s : State) :
    (State.modReeve f s).aon = s.aon := rfl
@[simp] theorem State.modReeve_fuses (f : Reeve → Reeve) (s : State) :
    (State.modReeve f s).fuses = s.fuses := rfl
@[simp] theorem State.modReeve_power (f : Reeve → Reeve) (s : State) :
    (State.modReeve f s).power = s.power := rfl
@[simp] theorem State.modReeve_board (f : Reeve → Reeve) (s : State) :
    (State.modReeve f s).board = s.board := rfl
@[simp] theorem State.modReeve_out (f : Reeve → Reeve) (s : State) :
    (State.modReeve f s).out = s.out := rfl
@[simp] theorem State.modReeve_fresh (f : Reeve → Reeve) (s : State) :
    (State.modReeve f s).fresh = s.fresh := rfl
@[simp] theorem State.modReeve_pending (f : Reeve → Reeve) (s : State) :
    (State.modReeve f s).pending = s.pending := rfl

/-! `modWriter` changes `writer` and nothing else. -/

@[simp] theorem State.modWriter_reeve (f : Writer → Writer) (s : State) :
    (State.modWriter f s).reeve = s.reeve := rfl
@[simp] theorem State.modWriter_cellar (f : Writer → Writer) (s : State) :
    (State.modWriter f s).cellar = s.cellar := rfl
@[simp] theorem State.modWriter_chain (f : Writer → Writer) (s : State) :
    (State.modWriter f s).chain = s.chain := rfl
@[simp] theorem State.modWriter_ingest (f : Writer → Writer) (s : State) :
    (State.modWriter f s).ingest = s.ingest := rfl
@[simp] theorem State.modWriter_act (f : Writer → Writer) (s : State) :
    (State.modWriter f s).act = s.act := rfl
@[simp] theorem State.modWriter_writer (f : Writer → Writer) (s : State) :
    (State.modWriter f s).writer = f s.writer := rfl
@[simp] theorem State.modWriter_cells (f : Writer → Writer) (s : State) :
    (State.modWriter f s).cells = s.cells := rfl
@[simp] theorem State.modWriter_steward (f : Writer → Writer) (s : State) :
    (State.modWriter f s).steward = s.steward := rfl
@[simp] theorem State.modWriter_trace (f : Writer → Writer) (s : State) :
    (State.modWriter f s).trace = s.trace := rfl
@[simp] theorem State.modWriter_jtag (f : Writer → Writer) (s : State) :
    (State.modWriter f s).jtag = s.jtag := rfl
@[simp] theorem State.modWriter_fabric (f : Writer → Writer) (s : State) :
    (State.modWriter f s).fabric = s.fabric := rfl
@[simp] theorem State.modWriter_time (f : Writer → Writer) (s : State) :
    (State.modWriter f s).time = s.time := rfl
@[simp] theorem State.modWriter_setup (f : Writer → Writer) (s : State) :
    (State.modWriter f s).setup = s.setup := rfl
@[simp] theorem State.modWriter_host (f : Writer → Writer) (s : State) :
    (State.modWriter f s).host = s.host := rfl
@[simp] theorem State.modWriter_watch (f : Writer → Writer) (s : State) :
    (State.modWriter f s).watch = s.watch := rfl
@[simp] theorem State.modWriter_aon (f : Writer → Writer) (s : State) :
    (State.modWriter f s).aon = s.aon := rfl
@[simp] theorem State.modWriter_fuses (f : Writer → Writer) (s : State) :
    (State.modWriter f s).fuses = s.fuses := rfl
@[simp] theorem State.modWriter_power (f : Writer → Writer) (s : State) :
    (State.modWriter f s).power = s.power := rfl
@[simp] theorem State.modWriter_board (f : Writer → Writer) (s : State) :
    (State.modWriter f s).board = s.board := rfl
@[simp] theorem State.modWriter_out (f : Writer → Writer) (s : State) :
    (State.modWriter f s).out = s.out := rfl
@[simp] theorem State.modWriter_fresh (f : Writer → Writer) (s : State) :
    (State.modWriter f s).fresh = s.fresh := rfl
@[simp] theorem State.modWriter_pending (f : Writer → Writer) (s : State) :
    (State.modWriter f s).pending = s.pending := rfl

/-! `modIngest` changes `ingest` and nothing else. -/

@[simp] theorem State.modIngest_reeve (f : Ingest → Ingest) (s : State) :
    (State.modIngest f s).reeve = s.reeve := rfl
@[simp] theorem State.modIngest_cellar (f : Ingest → Ingest) (s : State) :
    (State.modIngest f s).cellar = s.cellar := rfl
@[simp] theorem State.modIngest_chain (f : Ingest → Ingest) (s : State) :
    (State.modIngest f s).chain = s.chain := rfl
@[simp] theorem State.modIngest_ingest (f : Ingest → Ingest) (s : State) :
    (State.modIngest f s).ingest = f s.ingest := rfl
@[simp] theorem State.modIngest_act (f : Ingest → Ingest) (s : State) :
    (State.modIngest f s).act = s.act := rfl
@[simp] theorem State.modIngest_writer (f : Ingest → Ingest) (s : State) :
    (State.modIngest f s).writer = s.writer := rfl
@[simp] theorem State.modIngest_cells (f : Ingest → Ingest) (s : State) :
    (State.modIngest f s).cells = s.cells := rfl
@[simp] theorem State.modIngest_steward (f : Ingest → Ingest) (s : State) :
    (State.modIngest f s).steward = s.steward := rfl
@[simp] theorem State.modIngest_trace (f : Ingest → Ingest) (s : State) :
    (State.modIngest f s).trace = s.trace := rfl
@[simp] theorem State.modIngest_jtag (f : Ingest → Ingest) (s : State) :
    (State.modIngest f s).jtag = s.jtag := rfl
@[simp] theorem State.modIngest_fabric (f : Ingest → Ingest) (s : State) :
    (State.modIngest f s).fabric = s.fabric := rfl
@[simp] theorem State.modIngest_time (f : Ingest → Ingest) (s : State) :
    (State.modIngest f s).time = s.time := rfl
@[simp] theorem State.modIngest_setup (f : Ingest → Ingest) (s : State) :
    (State.modIngest f s).setup = s.setup := rfl
@[simp] theorem State.modIngest_host (f : Ingest → Ingest) (s : State) :
    (State.modIngest f s).host = s.host := rfl
@[simp] theorem State.modIngest_watch (f : Ingest → Ingest) (s : State) :
    (State.modIngest f s).watch = s.watch := rfl
@[simp] theorem State.modIngest_aon (f : Ingest → Ingest) (s : State) :
    (State.modIngest f s).aon = s.aon := rfl
@[simp] theorem State.modIngest_fuses (f : Ingest → Ingest) (s : State) :
    (State.modIngest f s).fuses = s.fuses := rfl
@[simp] theorem State.modIngest_power (f : Ingest → Ingest) (s : State) :
    (State.modIngest f s).power = s.power := rfl
@[simp] theorem State.modIngest_board (f : Ingest → Ingest) (s : State) :
    (State.modIngest f s).board = s.board := rfl
@[simp] theorem State.modIngest_out (f : Ingest → Ingest) (s : State) :
    (State.modIngest f s).out = s.out := rfl
@[simp] theorem State.modIngest_fresh (f : Ingest → Ingest) (s : State) :
    (State.modIngest f s).fresh = s.fresh := rfl
@[simp] theorem State.modIngest_pending (f : Ingest → Ingest) (s : State) :
    (State.modIngest f s).pending = s.pending := rfl

/-! `modPort` changes `ingest` and nothing else. -/

@[simp] theorem State.modPort_reeve (p : Nat) (f : SensorPort → SensorPort) (s : State) :
    (State.modPort p f s).reeve = s.reeve := rfl
@[simp] theorem State.modPort_cellar (p : Nat) (f : SensorPort → SensorPort) (s : State) :
    (State.modPort p f s).cellar = s.cellar := rfl
@[simp] theorem State.modPort_chain (p : Nat) (f : SensorPort → SensorPort) (s : State) :
    (State.modPort p f s).chain = s.chain := rfl
@[simp] theorem State.modPort_act (p : Nat) (f : SensorPort → SensorPort) (s : State) :
    (State.modPort p f s).act = s.act := rfl
@[simp] theorem State.modPort_writer (p : Nat) (f : SensorPort → SensorPort) (s : State) :
    (State.modPort p f s).writer = s.writer := rfl
@[simp] theorem State.modPort_cells (p : Nat) (f : SensorPort → SensorPort) (s : State) :
    (State.modPort p f s).cells = s.cells := rfl
@[simp] theorem State.modPort_steward (p : Nat) (f : SensorPort → SensorPort) (s : State) :
    (State.modPort p f s).steward = s.steward := rfl
@[simp] theorem State.modPort_trace (p : Nat) (f : SensorPort → SensorPort) (s : State) :
    (State.modPort p f s).trace = s.trace := rfl
@[simp] theorem State.modPort_jtag (p : Nat) (f : SensorPort → SensorPort) (s : State) :
    (State.modPort p f s).jtag = s.jtag := rfl
@[simp] theorem State.modPort_fabric (p : Nat) (f : SensorPort → SensorPort) (s : State) :
    (State.modPort p f s).fabric = s.fabric := rfl
@[simp] theorem State.modPort_time (p : Nat) (f : SensorPort → SensorPort) (s : State) :
    (State.modPort p f s).time = s.time := rfl
@[simp] theorem State.modPort_setup (p : Nat) (f : SensorPort → SensorPort) (s : State) :
    (State.modPort p f s).setup = s.setup := rfl
@[simp] theorem State.modPort_host (p : Nat) (f : SensorPort → SensorPort) (s : State) :
    (State.modPort p f s).host = s.host := rfl
@[simp] theorem State.modPort_watch (p : Nat) (f : SensorPort → SensorPort) (s : State) :
    (State.modPort p f s).watch = s.watch := rfl
@[simp] theorem State.modPort_aon (p : Nat) (f : SensorPort → SensorPort) (s : State) :
    (State.modPort p f s).aon = s.aon := rfl
@[simp] theorem State.modPort_fuses (p : Nat) (f : SensorPort → SensorPort) (s : State) :
    (State.modPort p f s).fuses = s.fuses := rfl
@[simp] theorem State.modPort_power (p : Nat) (f : SensorPort → SensorPort) (s : State) :
    (State.modPort p f s).power = s.power := rfl
@[simp] theorem State.modPort_board (p : Nat) (f : SensorPort → SensorPort) (s : State) :
    (State.modPort p f s).board = s.board := rfl
@[simp] theorem State.modPort_out (p : Nat) (f : SensorPort → SensorPort) (s : State) :
    (State.modPort p f s).out = s.out := rfl
@[simp] theorem State.modPort_fresh (p : Nat) (f : SensorPort → SensorPort) (s : State) :
    (State.modPort p f s).fresh = s.fresh := rfl
@[simp] theorem State.modPort_pending (p : Nat) (f : SensorPort → SensorPort) (s : State) :
    (State.modPort p f s).pending = s.pending := rfl

/-! `modBinding` changes `ingest` and nothing else. -/

@[simp] theorem State.modBinding_reeve (b : Nat) (f : Binding → Binding) (s : State) :
    (State.modBinding b f s).reeve = s.reeve := rfl
@[simp] theorem State.modBinding_cellar (b : Nat) (f : Binding → Binding) (s : State) :
    (State.modBinding b f s).cellar = s.cellar := rfl
@[simp] theorem State.modBinding_chain (b : Nat) (f : Binding → Binding) (s : State) :
    (State.modBinding b f s).chain = s.chain := rfl
@[simp] theorem State.modBinding_act (b : Nat) (f : Binding → Binding) (s : State) :
    (State.modBinding b f s).act = s.act := rfl
@[simp] theorem State.modBinding_writer (b : Nat) (f : Binding → Binding) (s : State) :
    (State.modBinding b f s).writer = s.writer := rfl
@[simp] theorem State.modBinding_cells (b : Nat) (f : Binding → Binding) (s : State) :
    (State.modBinding b f s).cells = s.cells := rfl
@[simp] theorem State.modBinding_steward (b : Nat) (f : Binding → Binding) (s : State) :
    (State.modBinding b f s).steward = s.steward := rfl
@[simp] theorem State.modBinding_trace (b : Nat) (f : Binding → Binding) (s : State) :
    (State.modBinding b f s).trace = s.trace := rfl
@[simp] theorem State.modBinding_jtag (b : Nat) (f : Binding → Binding) (s : State) :
    (State.modBinding b f s).jtag = s.jtag := rfl
@[simp] theorem State.modBinding_fabric (b : Nat) (f : Binding → Binding) (s : State) :
    (State.modBinding b f s).fabric = s.fabric := rfl
@[simp] theorem State.modBinding_time (b : Nat) (f : Binding → Binding) (s : State) :
    (State.modBinding b f s).time = s.time := rfl
@[simp] theorem State.modBinding_setup (b : Nat) (f : Binding → Binding) (s : State) :
    (State.modBinding b f s).setup = s.setup := rfl
@[simp] theorem State.modBinding_host (b : Nat) (f : Binding → Binding) (s : State) :
    (State.modBinding b f s).host = s.host := rfl
@[simp] theorem State.modBinding_watch (b : Nat) (f : Binding → Binding) (s : State) :
    (State.modBinding b f s).watch = s.watch := rfl
@[simp] theorem State.modBinding_aon (b : Nat) (f : Binding → Binding) (s : State) :
    (State.modBinding b f s).aon = s.aon := rfl
@[simp] theorem State.modBinding_fuses (b : Nat) (f : Binding → Binding) (s : State) :
    (State.modBinding b f s).fuses = s.fuses := rfl
@[simp] theorem State.modBinding_power (b : Nat) (f : Binding → Binding) (s : State) :
    (State.modBinding b f s).power = s.power := rfl
@[simp] theorem State.modBinding_board (b : Nat) (f : Binding → Binding) (s : State) :
    (State.modBinding b f s).board = s.board := rfl
@[simp] theorem State.modBinding_out (b : Nat) (f : Binding → Binding) (s : State) :
    (State.modBinding b f s).out = s.out := rfl
@[simp] theorem State.modBinding_fresh (b : Nat) (f : Binding → Binding) (s : State) :
    (State.modBinding b f s).fresh = s.fresh := rfl
@[simp] theorem State.modBinding_pending (b : Nat) (f : Binding → Binding) (s : State) :
    (State.modBinding b f s).pending = s.pending := rfl

/-! `modEvin` changes `ingest` and nothing else. -/

@[simp] theorem State.modEvin_reeve (n : Nat) (f : EvIn → EvIn) (s : State) :
    (State.modEvin n f s).reeve = s.reeve := rfl
@[simp] theorem State.modEvin_cellar (n : Nat) (f : EvIn → EvIn) (s : State) :
    (State.modEvin n f s).cellar = s.cellar := rfl
@[simp] theorem State.modEvin_chain (n : Nat) (f : EvIn → EvIn) (s : State) :
    (State.modEvin n f s).chain = s.chain := rfl
@[simp] theorem State.modEvin_act (n : Nat) (f : EvIn → EvIn) (s : State) :
    (State.modEvin n f s).act = s.act := rfl
@[simp] theorem State.modEvin_writer (n : Nat) (f : EvIn → EvIn) (s : State) :
    (State.modEvin n f s).writer = s.writer := rfl
@[simp] theorem State.modEvin_cells (n : Nat) (f : EvIn → EvIn) (s : State) :
    (State.modEvin n f s).cells = s.cells := rfl
@[simp] theorem State.modEvin_steward (n : Nat) (f : EvIn → EvIn) (s : State) :
    (State.modEvin n f s).steward = s.steward := rfl
@[simp] theorem State.modEvin_trace (n : Nat) (f : EvIn → EvIn) (s : State) :
    (State.modEvin n f s).trace = s.trace := rfl
@[simp] theorem State.modEvin_jtag (n : Nat) (f : EvIn → EvIn) (s : State) :
    (State.modEvin n f s).jtag = s.jtag := rfl
@[simp] theorem State.modEvin_fabric (n : Nat) (f : EvIn → EvIn) (s : State) :
    (State.modEvin n f s).fabric = s.fabric := rfl
@[simp] theorem State.modEvin_time (n : Nat) (f : EvIn → EvIn) (s : State) :
    (State.modEvin n f s).time = s.time := rfl
@[simp] theorem State.modEvin_setup (n : Nat) (f : EvIn → EvIn) (s : State) :
    (State.modEvin n f s).setup = s.setup := rfl
@[simp] theorem State.modEvin_host (n : Nat) (f : EvIn → EvIn) (s : State) :
    (State.modEvin n f s).host = s.host := rfl
@[simp] theorem State.modEvin_watch (n : Nat) (f : EvIn → EvIn) (s : State) :
    (State.modEvin n f s).watch = s.watch := rfl
@[simp] theorem State.modEvin_aon (n : Nat) (f : EvIn → EvIn) (s : State) :
    (State.modEvin n f s).aon = s.aon := rfl
@[simp] theorem State.modEvin_fuses (n : Nat) (f : EvIn → EvIn) (s : State) :
    (State.modEvin n f s).fuses = s.fuses := rfl
@[simp] theorem State.modEvin_power (n : Nat) (f : EvIn → EvIn) (s : State) :
    (State.modEvin n f s).power = s.power := rfl
@[simp] theorem State.modEvin_board (n : Nat) (f : EvIn → EvIn) (s : State) :
    (State.modEvin n f s).board = s.board := rfl
@[simp] theorem State.modEvin_out (n : Nat) (f : EvIn → EvIn) (s : State) :
    (State.modEvin n f s).out = s.out := rfl
@[simp] theorem State.modEvin_fresh (n : Nat) (f : EvIn → EvIn) (s : State) :
    (State.modEvin n f s).fresh = s.fresh := rfl
@[simp] theorem State.modEvin_pending (n : Nat) (f : EvIn → EvIn) (s : State) :
    (State.modEvin n f s).pending = s.pending := rfl

/-! `modBanks` changes `writer` and nothing else. -/

@[simp] theorem State.modBanks_reeve (s : State) (h : Nat) (f : BankPair → BankPair) :
    (State.modBanks s h f).reeve = s.reeve := rfl
@[simp] theorem State.modBanks_cellar (s : State) (h : Nat) (f : BankPair → BankPair) :
    (State.modBanks s h f).cellar = s.cellar := rfl
@[simp] theorem State.modBanks_chain (s : State) (h : Nat) (f : BankPair → BankPair) :
    (State.modBanks s h f).chain = s.chain := rfl
@[simp] theorem State.modBanks_ingest (s : State) (h : Nat) (f : BankPair → BankPair) :
    (State.modBanks s h f).ingest = s.ingest := rfl
@[simp] theorem State.modBanks_act (s : State) (h : Nat) (f : BankPair → BankPair) :
    (State.modBanks s h f).act = s.act := rfl
@[simp] theorem State.modBanks_cells (s : State) (h : Nat) (f : BankPair → BankPair) :
    (State.modBanks s h f).cells = s.cells := rfl
@[simp] theorem State.modBanks_steward (s : State) (h : Nat) (f : BankPair → BankPair) :
    (State.modBanks s h f).steward = s.steward := rfl
@[simp] theorem State.modBanks_trace (s : State) (h : Nat) (f : BankPair → BankPair) :
    (State.modBanks s h f).trace = s.trace := rfl
@[simp] theorem State.modBanks_jtag (s : State) (h : Nat) (f : BankPair → BankPair) :
    (State.modBanks s h f).jtag = s.jtag := rfl
@[simp] theorem State.modBanks_fabric (s : State) (h : Nat) (f : BankPair → BankPair) :
    (State.modBanks s h f).fabric = s.fabric := rfl
@[simp] theorem State.modBanks_time (s : State) (h : Nat) (f : BankPair → BankPair) :
    (State.modBanks s h f).time = s.time := rfl
@[simp] theorem State.modBanks_setup (s : State) (h : Nat) (f : BankPair → BankPair) :
    (State.modBanks s h f).setup = s.setup := rfl
@[simp] theorem State.modBanks_host (s : State) (h : Nat) (f : BankPair → BankPair) :
    (State.modBanks s h f).host = s.host := rfl
@[simp] theorem State.modBanks_watch (s : State) (h : Nat) (f : BankPair → BankPair) :
    (State.modBanks s h f).watch = s.watch := rfl
@[simp] theorem State.modBanks_aon (s : State) (h : Nat) (f : BankPair → BankPair) :
    (State.modBanks s h f).aon = s.aon := rfl
@[simp] theorem State.modBanks_fuses (s : State) (h : Nat) (f : BankPair → BankPair) :
    (State.modBanks s h f).fuses = s.fuses := rfl
@[simp] theorem State.modBanks_power (s : State) (h : Nat) (f : BankPair → BankPair) :
    (State.modBanks s h f).power = s.power := rfl
@[simp] theorem State.modBanks_board (s : State) (h : Nat) (f : BankPair → BankPair) :
    (State.modBanks s h f).board = s.board := rfl
@[simp] theorem State.modBanks_out (s : State) (h : Nat) (f : BankPair → BankPair) :
    (State.modBanks s h f).out = s.out := rfl
@[simp] theorem State.modBanks_fresh (s : State) (h : Nat) (f : BankPair → BankPair) :
    (State.modBanks s h f).fresh = s.fresh := rfl
@[simp] theorem State.modBanks_pending (s : State) (h : Nat) (f : BankPair → BankPair) :
    (State.modBanks s h f).pending = s.pending := rfl

/-! `modChain` changes `chain` and nothing else. -/

@[simp] theorem State.modChain_reeve (f : Chain → Chain) (s : State) :
    (State.modChain f s).reeve = s.reeve := rfl
@[simp] theorem State.modChain_cellar (f : Chain → Chain) (s : State) :
    (State.modChain f s).cellar = s.cellar := rfl
@[simp] theorem State.modChain_chain (f : Chain → Chain) (s : State) :
    (State.modChain f s).chain = f s.chain := rfl
@[simp] theorem State.modChain_ingest (f : Chain → Chain) (s : State) :
    (State.modChain f s).ingest = s.ingest := rfl
@[simp] theorem State.modChain_act (f : Chain → Chain) (s : State) :
    (State.modChain f s).act = s.act := rfl
@[simp] theorem State.modChain_writer (f : Chain → Chain) (s : State) :
    (State.modChain f s).writer = s.writer := rfl
@[simp] theorem State.modChain_cells (f : Chain → Chain) (s : State) :
    (State.modChain f s).cells = s.cells := rfl
@[simp] theorem State.modChain_steward (f : Chain → Chain) (s : State) :
    (State.modChain f s).steward = s.steward := rfl
@[simp] theorem State.modChain_trace (f : Chain → Chain) (s : State) :
    (State.modChain f s).trace = s.trace := rfl
@[simp] theorem State.modChain_jtag (f : Chain → Chain) (s : State) :
    (State.modChain f s).jtag = s.jtag := rfl
@[simp] theorem State.modChain_fabric (f : Chain → Chain) (s : State) :
    (State.modChain f s).fabric = s.fabric := rfl
@[simp] theorem State.modChain_time (f : Chain → Chain) (s : State) :
    (State.modChain f s).time = s.time := rfl
@[simp] theorem State.modChain_setup (f : Chain → Chain) (s : State) :
    (State.modChain f s).setup = s.setup := rfl
@[simp] theorem State.modChain_host (f : Chain → Chain) (s : State) :
    (State.modChain f s).host = s.host := rfl
@[simp] theorem State.modChain_watch (f : Chain → Chain) (s : State) :
    (State.modChain f s).watch = s.watch := rfl
@[simp] theorem State.modChain_aon (f : Chain → Chain) (s : State) :
    (State.modChain f s).aon = s.aon := rfl
@[simp] theorem State.modChain_fuses (f : Chain → Chain) (s : State) :
    (State.modChain f s).fuses = s.fuses := rfl
@[simp] theorem State.modChain_power (f : Chain → Chain) (s : State) :
    (State.modChain f s).power = s.power := rfl
@[simp] theorem State.modChain_board (f : Chain → Chain) (s : State) :
    (State.modChain f s).board = s.board := rfl
@[simp] theorem State.modChain_out (f : Chain → Chain) (s : State) :
    (State.modChain f s).out = s.out := rfl
@[simp] theorem State.modChain_fresh (f : Chain → Chain) (s : State) :
    (State.modChain f s).fresh = s.fresh := rfl
@[simp] theorem State.modChain_pending (f : Chain → Chain) (s : State) :
    (State.modChain f s).pending = s.pending := rfl

/-! `modSlot` changes `chain` and nothing else. -/

@[simp] theorem State.modSlot_reeve (k : Nat) (f : RootSlot → RootSlot) (s : State) :
    (State.modSlot k f s).reeve = s.reeve := rfl
@[simp] theorem State.modSlot_cellar (k : Nat) (f : RootSlot → RootSlot) (s : State) :
    (State.modSlot k f s).cellar = s.cellar := rfl
@[simp] theorem State.modSlot_ingest (k : Nat) (f : RootSlot → RootSlot) (s : State) :
    (State.modSlot k f s).ingest = s.ingest := rfl
@[simp] theorem State.modSlot_act (k : Nat) (f : RootSlot → RootSlot) (s : State) :
    (State.modSlot k f s).act = s.act := rfl
@[simp] theorem State.modSlot_writer (k : Nat) (f : RootSlot → RootSlot) (s : State) :
    (State.modSlot k f s).writer = s.writer := rfl
@[simp] theorem State.modSlot_cells (k : Nat) (f : RootSlot → RootSlot) (s : State) :
    (State.modSlot k f s).cells = s.cells := rfl
@[simp] theorem State.modSlot_steward (k : Nat) (f : RootSlot → RootSlot) (s : State) :
    (State.modSlot k f s).steward = s.steward := rfl
@[simp] theorem State.modSlot_trace (k : Nat) (f : RootSlot → RootSlot) (s : State) :
    (State.modSlot k f s).trace = s.trace := rfl
@[simp] theorem State.modSlot_jtag (k : Nat) (f : RootSlot → RootSlot) (s : State) :
    (State.modSlot k f s).jtag = s.jtag := rfl
@[simp] theorem State.modSlot_fabric (k : Nat) (f : RootSlot → RootSlot) (s : State) :
    (State.modSlot k f s).fabric = s.fabric := rfl
@[simp] theorem State.modSlot_time (k : Nat) (f : RootSlot → RootSlot) (s : State) :
    (State.modSlot k f s).time = s.time := rfl
@[simp] theorem State.modSlot_setup (k : Nat) (f : RootSlot → RootSlot) (s : State) :
    (State.modSlot k f s).setup = s.setup := rfl
@[simp] theorem State.modSlot_host (k : Nat) (f : RootSlot → RootSlot) (s : State) :
    (State.modSlot k f s).host = s.host := rfl
@[simp] theorem State.modSlot_watch (k : Nat) (f : RootSlot → RootSlot) (s : State) :
    (State.modSlot k f s).watch = s.watch := rfl
@[simp] theorem State.modSlot_aon (k : Nat) (f : RootSlot → RootSlot) (s : State) :
    (State.modSlot k f s).aon = s.aon := rfl
@[simp] theorem State.modSlot_fuses (k : Nat) (f : RootSlot → RootSlot) (s : State) :
    (State.modSlot k f s).fuses = s.fuses := rfl
@[simp] theorem State.modSlot_power (k : Nat) (f : RootSlot → RootSlot) (s : State) :
    (State.modSlot k f s).power = s.power := rfl
@[simp] theorem State.modSlot_board (k : Nat) (f : RootSlot → RootSlot) (s : State) :
    (State.modSlot k f s).board = s.board := rfl
@[simp] theorem State.modSlot_out (k : Nat) (f : RootSlot → RootSlot) (s : State) :
    (State.modSlot k f s).out = s.out := rfl
@[simp] theorem State.modSlot_fresh (k : Nat) (f : RootSlot → RootSlot) (s : State) :
    (State.modSlot k f s).fresh = s.fresh := rfl
@[simp] theorem State.modSlot_pending (k : Nat) (f : RootSlot → RootSlot) (s : State) :
    (State.modSlot k f s).pending = s.pending := rfl

/-! `modJtag` changes `jtag` and nothing else. -/

@[simp] theorem State.modJtag_reeve (f : Jtag → Jtag) (s : State) :
    (State.modJtag f s).reeve = s.reeve := rfl
@[simp] theorem State.modJtag_cellar (f : Jtag → Jtag) (s : State) :
    (State.modJtag f s).cellar = s.cellar := rfl
@[simp] theorem State.modJtag_chain (f : Jtag → Jtag) (s : State) :
    (State.modJtag f s).chain = s.chain := rfl
@[simp] theorem State.modJtag_ingest (f : Jtag → Jtag) (s : State) :
    (State.modJtag f s).ingest = s.ingest := rfl
@[simp] theorem State.modJtag_act (f : Jtag → Jtag) (s : State) :
    (State.modJtag f s).act = s.act := rfl
@[simp] theorem State.modJtag_writer (f : Jtag → Jtag) (s : State) :
    (State.modJtag f s).writer = s.writer := rfl
@[simp] theorem State.modJtag_cells (f : Jtag → Jtag) (s : State) :
    (State.modJtag f s).cells = s.cells := rfl
@[simp] theorem State.modJtag_steward (f : Jtag → Jtag) (s : State) :
    (State.modJtag f s).steward = s.steward := rfl
@[simp] theorem State.modJtag_trace (f : Jtag → Jtag) (s : State) :
    (State.modJtag f s).trace = s.trace := rfl
@[simp] theorem State.modJtag_jtag (f : Jtag → Jtag) (s : State) :
    (State.modJtag f s).jtag = f s.jtag := rfl
@[simp] theorem State.modJtag_fabric (f : Jtag → Jtag) (s : State) :
    (State.modJtag f s).fabric = s.fabric := rfl
@[simp] theorem State.modJtag_time (f : Jtag → Jtag) (s : State) :
    (State.modJtag f s).time = s.time := rfl
@[simp] theorem State.modJtag_setup (f : Jtag → Jtag) (s : State) :
    (State.modJtag f s).setup = s.setup := rfl
@[simp] theorem State.modJtag_host (f : Jtag → Jtag) (s : State) :
    (State.modJtag f s).host = s.host := rfl
@[simp] theorem State.modJtag_watch (f : Jtag → Jtag) (s : State) :
    (State.modJtag f s).watch = s.watch := rfl
@[simp] theorem State.modJtag_aon (f : Jtag → Jtag) (s : State) :
    (State.modJtag f s).aon = s.aon := rfl
@[simp] theorem State.modJtag_fuses (f : Jtag → Jtag) (s : State) :
    (State.modJtag f s).fuses = s.fuses := rfl
@[simp] theorem State.modJtag_power (f : Jtag → Jtag) (s : State) :
    (State.modJtag f s).power = s.power := rfl
@[simp] theorem State.modJtag_board (f : Jtag → Jtag) (s : State) :
    (State.modJtag f s).board = s.board := rfl
@[simp] theorem State.modJtag_out (f : Jtag → Jtag) (s : State) :
    (State.modJtag f s).out = s.out := rfl
@[simp] theorem State.modJtag_fresh (f : Jtag → Jtag) (s : State) :
    (State.modJtag f s).fresh = s.fresh := rfl
@[simp] theorem State.modJtag_pending (f : Jtag → Jtag) (s : State) :
    (State.modJtag f s).pending = s.pending := rfl

/-! `land` changes `fabric` and nothing else. -/

@[simp] theorem State.land_reeve (h : Header) (c : Chan) (s : State) :
    (State.land h c s).reeve = s.reeve := rfl
@[simp] theorem State.land_cellar (h : Header) (c : Chan) (s : State) :
    (State.land h c s).cellar = s.cellar := rfl
@[simp] theorem State.land_chain (h : Header) (c : Chan) (s : State) :
    (State.land h c s).chain = s.chain := rfl
@[simp] theorem State.land_ingest (h : Header) (c : Chan) (s : State) :
    (State.land h c s).ingest = s.ingest := rfl
@[simp] theorem State.land_act (h : Header) (c : Chan) (s : State) :
    (State.land h c s).act = s.act := rfl
@[simp] theorem State.land_writer (h : Header) (c : Chan) (s : State) :
    (State.land h c s).writer = s.writer := rfl
@[simp] theorem State.land_cells (h : Header) (c : Chan) (s : State) :
    (State.land h c s).cells = s.cells := rfl
@[simp] theorem State.land_steward (h : Header) (c : Chan) (s : State) :
    (State.land h c s).steward = s.steward := rfl
@[simp] theorem State.land_trace (h : Header) (c : Chan) (s : State) :
    (State.land h c s).trace = s.trace := rfl
@[simp] theorem State.land_jtag (h : Header) (c : Chan) (s : State) :
    (State.land h c s).jtag = s.jtag := rfl
@[simp] theorem State.land_time (h : Header) (c : Chan) (s : State) :
    (State.land h c s).time = s.time := rfl
@[simp] theorem State.land_setup (h : Header) (c : Chan) (s : State) :
    (State.land h c s).setup = s.setup := rfl
@[simp] theorem State.land_host (h : Header) (c : Chan) (s : State) :
    (State.land h c s).host = s.host := rfl
@[simp] theorem State.land_watch (h : Header) (c : Chan) (s : State) :
    (State.land h c s).watch = s.watch := rfl
@[simp] theorem State.land_aon (h : Header) (c : Chan) (s : State) :
    (State.land h c s).aon = s.aon := rfl
@[simp] theorem State.land_fuses (h : Header) (c : Chan) (s : State) :
    (State.land h c s).fuses = s.fuses := rfl
@[simp] theorem State.land_power (h : Header) (c : Chan) (s : State) :
    (State.land h c s).power = s.power := rfl
@[simp] theorem State.land_board (h : Header) (c : Chan) (s : State) :
    (State.land h c s).board = s.board := rfl
@[simp] theorem State.land_out (h : Header) (c : Chan) (s : State) :
    (State.land h c s).out = s.out := rfl
@[simp] theorem State.land_fresh (h : Header) (c : Chan) (s : State) :
    (State.land h c s).fresh = s.fresh := rfl
@[simp] theorem State.land_pending (h : Header) (c : Chan) (s : State) :
    (State.land h c s).pending = s.pending := rfl

/-! `launch` changes `fabric` and nothing else. -/

@[simp] theorem State.launch_reeve (h : Header) (c : Chan) (pair : Bool) (s : State) :
    (State.launch h c pair s).reeve = s.reeve := rfl
@[simp] theorem State.launch_cellar (h : Header) (c : Chan) (pair : Bool) (s : State) :
    (State.launch h c pair s).cellar = s.cellar := rfl
@[simp] theorem State.launch_chain (h : Header) (c : Chan) (pair : Bool) (s : State) :
    (State.launch h c pair s).chain = s.chain := rfl
@[simp] theorem State.launch_ingest (h : Header) (c : Chan) (pair : Bool) (s : State) :
    (State.launch h c pair s).ingest = s.ingest := rfl
@[simp] theorem State.launch_act (h : Header) (c : Chan) (pair : Bool) (s : State) :
    (State.launch h c pair s).act = s.act := rfl
@[simp] theorem State.launch_writer (h : Header) (c : Chan) (pair : Bool) (s : State) :
    (State.launch h c pair s).writer = s.writer := rfl
@[simp] theorem State.launch_cells (h : Header) (c : Chan) (pair : Bool) (s : State) :
    (State.launch h c pair s).cells = s.cells := rfl
@[simp] theorem State.launch_steward (h : Header) (c : Chan) (pair : Bool) (s : State) :
    (State.launch h c pair s).steward = s.steward := rfl
@[simp] theorem State.launch_trace (h : Header) (c : Chan) (pair : Bool) (s : State) :
    (State.launch h c pair s).trace = s.trace := rfl
@[simp] theorem State.launch_jtag (h : Header) (c : Chan) (pair : Bool) (s : State) :
    (State.launch h c pair s).jtag = s.jtag := rfl
@[simp] theorem State.launch_time (h : Header) (c : Chan) (pair : Bool) (s : State) :
    (State.launch h c pair s).time = s.time := rfl
@[simp] theorem State.launch_setup (h : Header) (c : Chan) (pair : Bool) (s : State) :
    (State.launch h c pair s).setup = s.setup := rfl
@[simp] theorem State.launch_host (h : Header) (c : Chan) (pair : Bool) (s : State) :
    (State.launch h c pair s).host = s.host := rfl
@[simp] theorem State.launch_watch (h : Header) (c : Chan) (pair : Bool) (s : State) :
    (State.launch h c pair s).watch = s.watch := rfl
@[simp] theorem State.launch_aon (h : Header) (c : Chan) (pair : Bool) (s : State) :
    (State.launch h c pair s).aon = s.aon := rfl
@[simp] theorem State.launch_fuses (h : Header) (c : Chan) (pair : Bool) (s : State) :
    (State.launch h c pair s).fuses = s.fuses := rfl
@[simp] theorem State.launch_power (h : Header) (c : Chan) (pair : Bool) (s : State) :
    (State.launch h c pair s).power = s.power := rfl
@[simp] theorem State.launch_board (h : Header) (c : Chan) (pair : Bool) (s : State) :
    (State.launch h c pair s).board = s.board := rfl
@[simp] theorem State.launch_out (h : Header) (c : Chan) (pair : Bool) (s : State) :
    (State.launch h c pair s).out = s.out := rfl
@[simp] theorem State.launch_fresh (h : Header) (c : Chan) (pair : Bool) (s : State) :
    (State.launch h c pair s).fresh = s.fresh := rfl
@[simp] theorem State.launch_pending (h : Header) (c : Chan) (pair : Bool) (s : State) :
    (State.launch h c pair s).pending = s.pending := rfl

/-! `sendCtl` changes `fabric` and nothing else. -/

@[simp] theorem State.sendCtl_reeve (s : State) (m : Ctl) :
    (State.sendCtl s m).reeve = s.reeve := rfl
@[simp] theorem State.sendCtl_cellar (s : State) (m : Ctl) :
    (State.sendCtl s m).cellar = s.cellar := rfl
@[simp] theorem State.sendCtl_chain (s : State) (m : Ctl) :
    (State.sendCtl s m).chain = s.chain := rfl
@[simp] theorem State.sendCtl_ingest (s : State) (m : Ctl) :
    (State.sendCtl s m).ingest = s.ingest := rfl
@[simp] theorem State.sendCtl_act (s : State) (m : Ctl) :
    (State.sendCtl s m).act = s.act := rfl
@[simp] theorem State.sendCtl_writer (s : State) (m : Ctl) :
    (State.sendCtl s m).writer = s.writer := rfl
@[simp] theorem State.sendCtl_cells (s : State) (m : Ctl) :
    (State.sendCtl s m).cells = s.cells := rfl
@[simp] theorem State.sendCtl_steward (s : State) (m : Ctl) :
    (State.sendCtl s m).steward = s.steward := rfl
@[simp] theorem State.sendCtl_trace (s : State) (m : Ctl) :
    (State.sendCtl s m).trace = s.trace := rfl
@[simp] theorem State.sendCtl_jtag (s : State) (m : Ctl) :
    (State.sendCtl s m).jtag = s.jtag := rfl
@[simp] theorem State.sendCtl_time (s : State) (m : Ctl) :
    (State.sendCtl s m).time = s.time := rfl
@[simp] theorem State.sendCtl_setup (s : State) (m : Ctl) :
    (State.sendCtl s m).setup = s.setup := rfl
@[simp] theorem State.sendCtl_host (s : State) (m : Ctl) :
    (State.sendCtl s m).host = s.host := rfl
@[simp] theorem State.sendCtl_watch (s : State) (m : Ctl) :
    (State.sendCtl s m).watch = s.watch := rfl
@[simp] theorem State.sendCtl_aon (s : State) (m : Ctl) :
    (State.sendCtl s m).aon = s.aon := rfl
@[simp] theorem State.sendCtl_fuses (s : State) (m : Ctl) :
    (State.sendCtl s m).fuses = s.fuses := rfl
@[simp] theorem State.sendCtl_power (s : State) (m : Ctl) :
    (State.sendCtl s m).power = s.power := rfl
@[simp] theorem State.sendCtl_board (s : State) (m : Ctl) :
    (State.sendCtl s m).board = s.board := rfl
@[simp] theorem State.sendCtl_out (s : State) (m : Ctl) :
    (State.sendCtl s m).out = s.out := rfl
@[simp] theorem State.sendCtl_fresh (s : State) (m : Ctl) :
    (State.sendCtl s m).fresh = s.fresh := rfl
@[simp] theorem State.sendCtl_pending (s : State) (m : Ctl) :
    (State.sendCtl s m).pending = s.pending := rfl

/-! `takeCtl` changes `fabric` and nothing else. -/

@[simp] theorem State.takeCtl_reeve (s : State) (m : Ctl) :
    (State.takeCtl s m).reeve = s.reeve := rfl
@[simp] theorem State.takeCtl_cellar (s : State) (m : Ctl) :
    (State.takeCtl s m).cellar = s.cellar := rfl
@[simp] theorem State.takeCtl_chain (s : State) (m : Ctl) :
    (State.takeCtl s m).chain = s.chain := rfl
@[simp] theorem State.takeCtl_ingest (s : State) (m : Ctl) :
    (State.takeCtl s m).ingest = s.ingest := rfl
@[simp] theorem State.takeCtl_act (s : State) (m : Ctl) :
    (State.takeCtl s m).act = s.act := rfl
@[simp] theorem State.takeCtl_writer (s : State) (m : Ctl) :
    (State.takeCtl s m).writer = s.writer := rfl
@[simp] theorem State.takeCtl_cells (s : State) (m : Ctl) :
    (State.takeCtl s m).cells = s.cells := rfl
@[simp] theorem State.takeCtl_steward (s : State) (m : Ctl) :
    (State.takeCtl s m).steward = s.steward := rfl
@[simp] theorem State.takeCtl_trace (s : State) (m : Ctl) :
    (State.takeCtl s m).trace = s.trace := rfl
@[simp] theorem State.takeCtl_jtag (s : State) (m : Ctl) :
    (State.takeCtl s m).jtag = s.jtag := rfl
@[simp] theorem State.takeCtl_time (s : State) (m : Ctl) :
    (State.takeCtl s m).time = s.time := rfl
@[simp] theorem State.takeCtl_setup (s : State) (m : Ctl) :
    (State.takeCtl s m).setup = s.setup := rfl
@[simp] theorem State.takeCtl_host (s : State) (m : Ctl) :
    (State.takeCtl s m).host = s.host := rfl
@[simp] theorem State.takeCtl_watch (s : State) (m : Ctl) :
    (State.takeCtl s m).watch = s.watch := rfl
@[simp] theorem State.takeCtl_aon (s : State) (m : Ctl) :
    (State.takeCtl s m).aon = s.aon := rfl
@[simp] theorem State.takeCtl_fuses (s : State) (m : Ctl) :
    (State.takeCtl s m).fuses = s.fuses := rfl
@[simp] theorem State.takeCtl_power (s : State) (m : Ctl) :
    (State.takeCtl s m).power = s.power := rfl
@[simp] theorem State.takeCtl_board (s : State) (m : Ctl) :
    (State.takeCtl s m).board = s.board := rfl
@[simp] theorem State.takeCtl_out (s : State) (m : Ctl) :
    (State.takeCtl s m).out = s.out := rfl
@[simp] theorem State.takeCtl_fresh (s : State) (m : Ctl) :
    (State.takeCtl s m).fresh = s.fresh := rfl
@[simp] theorem State.takeCtl_pending (s : State) (m : Ctl) :
    (State.takeCtl s m).pending = s.pending := rfl

/-! `modMember` changes `writer` and nothing else. -/

@[simp] theorem State.modMember_reeve (s : State) (k ctx gen : Nat) (f : Member → Member) :
    (State.modMember s k ctx gen f).reeve = s.reeve := rfl
@[simp] theorem State.modMember_cellar (s : State) (k ctx gen : Nat) (f : Member → Member) :
    (State.modMember s k ctx gen f).cellar = s.cellar := rfl
@[simp] theorem State.modMember_chain (s : State) (k ctx gen : Nat) (f : Member → Member) :
    (State.modMember s k ctx gen f).chain = s.chain := rfl
@[simp] theorem State.modMember_ingest (s : State) (k ctx gen : Nat) (f : Member → Member) :
    (State.modMember s k ctx gen f).ingest = s.ingest := rfl
@[simp] theorem State.modMember_act (s : State) (k ctx gen : Nat) (f : Member → Member) :
    (State.modMember s k ctx gen f).act = s.act := rfl
@[simp] theorem State.modMember_cells (s : State) (k ctx gen : Nat) (f : Member → Member) :
    (State.modMember s k ctx gen f).cells = s.cells := rfl
@[simp] theorem State.modMember_steward (s : State) (k ctx gen : Nat) (f : Member → Member) :
    (State.modMember s k ctx gen f).steward = s.steward := rfl
@[simp] theorem State.modMember_trace (s : State) (k ctx gen : Nat) (f : Member → Member) :
    (State.modMember s k ctx gen f).trace = s.trace := rfl
@[simp] theorem State.modMember_jtag (s : State) (k ctx gen : Nat) (f : Member → Member) :
    (State.modMember s k ctx gen f).jtag = s.jtag := rfl
@[simp] theorem State.modMember_fabric (s : State) (k ctx gen : Nat) (f : Member → Member) :
    (State.modMember s k ctx gen f).fabric = s.fabric := rfl
@[simp] theorem State.modMember_time (s : State) (k ctx gen : Nat) (f : Member → Member) :
    (State.modMember s k ctx gen f).time = s.time := rfl
@[simp] theorem State.modMember_setup (s : State) (k ctx gen : Nat) (f : Member → Member) :
    (State.modMember s k ctx gen f).setup = s.setup := rfl
@[simp] theorem State.modMember_host (s : State) (k ctx gen : Nat) (f : Member → Member) :
    (State.modMember s k ctx gen f).host = s.host := rfl
@[simp] theorem State.modMember_watch (s : State) (k ctx gen : Nat) (f : Member → Member) :
    (State.modMember s k ctx gen f).watch = s.watch := rfl
@[simp] theorem State.modMember_aon (s : State) (k ctx gen : Nat) (f : Member → Member) :
    (State.modMember s k ctx gen f).aon = s.aon := rfl
@[simp] theorem State.modMember_fuses (s : State) (k ctx gen : Nat) (f : Member → Member) :
    (State.modMember s k ctx gen f).fuses = s.fuses := rfl
@[simp] theorem State.modMember_power (s : State) (k ctx gen : Nat) (f : Member → Member) :
    (State.modMember s k ctx gen f).power = s.power := rfl
@[simp] theorem State.modMember_board (s : State) (k ctx gen : Nat) (f : Member → Member) :
    (State.modMember s k ctx gen f).board = s.board := rfl
@[simp] theorem State.modMember_out (s : State) (k ctx gen : Nat) (f : Member → Member) :
    (State.modMember s k ctx gen f).out = s.out := rfl
@[simp] theorem State.modMember_fresh (s : State) (k ctx gen : Nat) (f : Member → Member) :
    (State.modMember s k ctx gen f).fresh = s.fresh := rfl
@[simp] theorem State.modMember_pending (s : State) (k ctx gen : Nat) (f : Member → Member) :
    (State.modMember s k ctx gen f).pending = s.pending := rfl

end Sys2Proof.Machine
end

