-- ==== Sys2Proof/Laws/Tab.lean ====
section
/-! SUPPORT. The laws of keyed tables and of a responder's memory: what a write leaves at each index,
and that every operation keeps the canonical form. -/

namespace Sys2Proof

variable {α : Type}

/-! ## Reading -/

@[simp] theorem Tab.get_nil (d : α) (k : Nat) : Tab.get d [] k = d := rfl

theorem Tab.get_del (d : α) (t : Tab α) (k j : Nat) :
    Tab.get d (Tab.del t k) j = if j = k then d else Tab.get d t j := by
  induction t with
  | nil => simp [Tab.del]
  | cons e t ih =>
    obtain ⟨i, v⟩ := e
    simp only [Tab.del, Tab.get]
    by_cases h : i = k
    · simp only [h, ↓reduceIte, ih]
      by_cases g : j = k
      · simp [g]
      · simp [g, Ne.symm g]
    · simp only [h, ↓reduceIte, Tab.get, ih]
      by_cases g : i = j
      · subst g; simp [h]
      · simp [g]

theorem Tab.get_ins (d : α) (t : Tab α) (k j : Nat) (v : α) (h : ∀ e ∈ t, e.1 ≠ k) :
    Tab.get d (Tab.ins t k v) j = if j = k then v else Tab.get d t j := by
  induction t with
  | nil => simp [Tab.ins, Tab.get, eq_comm]
  | cons e t ih =>
    obtain ⟨i, w⟩ := e
    have hi : i ≠ k := h (i, w) (by simp)
    simp only [Tab.ins]
    split
    · simp [Tab.get, eq_comm]
    · simp only [Tab.get, ih fun e he => h e (by simp [he])]
      by_cases g : i = j
      · subst g; simp [hi]
      · simp [g]

theorem Tab.del_ne (t : Tab α) (k : Nat) : ∀ e ∈ Tab.del t k, e.1 ≠ k := by
  induction t with
  | nil => simp [Tab.del]
  | cons e t ih =>
    obtain ⟨i, w⟩ := e
    simp only [Tab.del]
    split
    · exact ih
    · intro e he
      rcases List.mem_cons.1 he with rfl | he
      · assumption
      · exact ih e he

/-- What a table reads as after a write: the value there, and what it read before elsewhere. -/
theorem Tab.get_set [DecidableEq α] (d : α) (t : Tab α) (k j : Nat) (v : α) :
    Tab.get d (Tab.set d t k v) j = if j = k then v else Tab.get d t j := by
  unfold Tab.set
  split
  · rename_i h; rw [Tab.get_del, h]
  · rw [Tab.get_ins _ _ _ _ _ (Tab.del_ne t k), Tab.get_del]
    split <;> simp_all

@[simp] theorem Tab.get_set_same [DecidableEq α] (d : α) (t : Tab α) (k : Nat) (v : α) :
    Tab.get d (Tab.set d t k v) k = v := by
  simp [Tab.get_set]

theorem Tab.get_set_other [DecidableEq α] (d : α) (t : Tab α) {k j : Nat} (v : α) (h : j ≠ k) :
    Tab.get d (Tab.set d t k v) j = Tab.get d t j := by
  simp [Tab.get_set, h]

theorem Tab.get_upd [DecidableEq α] (d : α) (t : Tab α) (k j : Nat) (f : α → α) :
    Tab.get d (Tab.upd d t k f) j = if j = k then f (Tab.get d t k) else Tab.get d t j :=
  Tab.get_set ..

@[simp] theorem Tab.get_upd_same [DecidableEq α] (d : α) (t : Tab α) (k : Nat) (f : α → α) :
    Tab.get d (Tab.upd d t k f) k = f (Tab.get d t k) := by
  simp [Tab.get_upd]

theorem Tab.get_upd_other [DecidableEq α] (d : α) (t : Tab α) {k j : Nat} (f : α → α) (h : j ≠ k) :
    Tab.get d (Tab.upd d t k f) j = Tab.get d t j := by
  simp [Tab.get_upd, h]

/-! ## The canonical form -/

theorem Tab.wf_cons [DecidableEq α] (d : α) (j : Nat) (v : α) (t : Tab α) :
    Tab.wf d ((j, v) :: t) = true ↔ v ≠ d ∧ (∀ e ∈ t, j < e.1) ∧ Tab.wf d t = true := by
  induction t generalizing j v with
  | nil => simp [Tab.wf]
  | cons e t ih =>
    obtain ⟨k, w⟩ := e
    have h := ih k w
    simp only [Tab.wf, Bool.and_eq_true, bne_iff_ne, decide_eq_true_eq, h]
    constructor
    · rintro ⟨⟨h1, h2⟩, h3, h4, h5⟩
      refine ⟨h1, fun e he => ?_, h3, h4, h5⟩
      rcases List.mem_cons.1 he with rfl | he
      · exact h2
      · exact Nat.lt_trans h2 (h4 e he)
    · rintro ⟨h1, h2, h3, h4, h5⟩
      exact ⟨⟨h1, h2 (k, w) (by simp)⟩, h3, h4, h5⟩

theorem Tab.del_mem (t : Tab α) (k : Nat) : ∀ e ∈ Tab.del t k, e ∈ t := by
  induction t with
  | nil => simp [Tab.del]
  | cons e t ih =>
    obtain ⟨i, w⟩ := e
    simp only [Tab.del]
    split <;> intro e he
    · simp [ih e he]
    · rcases List.mem_cons.1 he with rfl | he
      · simp
      · simp [ih e he]

theorem Tab.ins_mem (t : Tab α) (k : Nat) (v : α) : ∀ e ∈ Tab.ins t k v, e = (k, v) ∨ e ∈ t := by
  induction t with
  | nil => simp [Tab.ins]
  | cons e t ih =>
    obtain ⟨i, w⟩ := e
    simp only [Tab.ins]
    split <;> intro e he
    · simpa using he
    · rcases List.mem_cons.1 he with rfl | he
      · simp
      · rcases ih e he with rfl | h <;> simp [*]

theorem Tab.del_wf [DecidableEq α] (d : α) (t : Tab α) (k : Nat) (h : Tab.wf d t = true) :
    Tab.wf d (Tab.del t k) = true := by
  induction t with
  | nil => exact h
  | cons e t ih =>
    obtain ⟨i, w⟩ := e
    obtain ⟨h1, h2, h3⟩ := (Tab.wf_cons ..).1 h
    simp only [Tab.del]
    split
    · exact ih h3
    · exact (Tab.wf_cons ..).2 ⟨h1, fun e he => h2 e (Tab.del_mem t k e he), ih h3⟩

theorem Tab.ins_wf [DecidableEq α] (d : α) (t : Tab α) (k : Nat) (v : α) (h : Tab.wf d t = true)
    (hv : v ≠ d) (hk : ∀ e ∈ t, e.1 ≠ k) : Tab.wf d (Tab.ins t k v) = true := by
  induction t with
  | nil => simp [Tab.ins, Tab.wf, hv]
  | cons e t ih =>
    obtain ⟨i, w⟩ := e
    obtain ⟨h1, h2, h3⟩ := (Tab.wf_cons ..).1 h
    have hi : i ≠ k := hk (i, w) (by simp)
    simp only [Tab.ins]
    split
    · rename_i hlt
      refine (Tab.wf_cons ..).2 ⟨hv, fun e he => ?_, h⟩
      rcases List.mem_cons.1 he with rfl | he
      · exact hlt
      · exact Nat.lt_trans hlt (h2 e he)
    · rename_i hge
      refine (Tab.wf_cons ..).2 ⟨h1, fun e he => ?_, ih h3 fun e he => hk e (by simp [he])⟩
      rcases Tab.ins_mem t k v e he with rfl | he
      · simp only; omega
      · exact h2 e he

/-- A write keeps the canonical form. -/
theorem Tab.set_wf [DecidableEq α] (d : α) (t : Tab α) (k : Nat) (v : α) (h : Tab.wf d t = true) :
    Tab.wf d (Tab.set d t k v) = true := by
  unfold Tab.set
  split
  · exact Tab.del_wf d t k h
  · rename_i hv
    exact Tab.ins_wf d _ k v (Tab.del_wf d t k h) hv (Tab.del_ne t k)

theorem Tab.upd_wf [DecidableEq α] (d : α) (t : Tab α) (k : Nat) (f : α → α) (h : Tab.wf d t = true) :
    Tab.wf d (Tab.upd d t k f) = true := Tab.set_wf d t k _ h

/-- An index below every listed one reads as the default. -/
theorem Tab.get_below (d : α) (t : Tab α) (k : Nat) (h : ∀ e ∈ t, k < e.1) : Tab.get d t k = d := by
  induction t with
  | nil => rfl
  | cons e t ih =>
    obtain ⟨i, w⟩ := e
    have := h (i, w) (by simp)
    simp only [Tab.get]
    rw [if_neg (by simp only at this; omega), ih fun e he => h e (by simp [he])]

/-- Two tables in canonical form that read alike are equal. -/
theorem Tab.wf_ext [DecidableEq α] (d : α) (t u : Tab α) (ht : Tab.wf d t = true) (hu : Tab.wf d u = true)
    (h : ∀ k, Tab.get d t k = Tab.get d u k) : t = u := by
  induction t generalizing u with
  | nil =>
    cases u with
    | nil => rfl
    | cons e u =>
      obtain ⟨i, w⟩ := e
      have h1 := ((Tab.wf_cons ..).1 hu).1
      have h2 := h i
      simp only [Tab.get, ↓reduceIte] at h2
      exact absurd h2.symm h1
  | cons e t ih =>
    obtain ⟨i, v⟩ := e
    obtain ⟨h1, h2, h3⟩ := (Tab.wf_cons ..).1 ht
    cases u with
    | nil =>
      have h4 := h i
      simp only [Tab.get, ↓reduceIte] at h4
      exact absurd h4 h1
    | cons e u =>
      obtain ⟨j, w⟩ := e
      obtain ⟨g1, g2, g3⟩ := (Tab.wf_cons ..).1 hu
      have hij : i = j := by
        rcases Nat.lt_trichotomy i j with l | l | l
        · have := h i
          simp only [Tab.get, ↓reduceIte] at this
          rw [if_neg (by omega), Tab.get_below d u i fun e he => Nat.lt_trans l (g2 e he)] at this
          exact absurd this h1
        · exact l
        · have := h j
          simp only [Tab.get, ↓reduceIte] at this
          rw [if_neg (by omega), Tab.get_below d t j fun e he => Nat.lt_trans l (h2 e he)] at this
          exact absurd this.symm g1
      subst hij
      have hvw : v = w := by simpa [Tab.get] using h i
      subst hvw
      rw [ih u h3 g3 fun k => ?_]
      by_cases hk : i = k
      · subst hk
        rw [Tab.get_below d t i h2, Tab.get_below d u i g2]
      · simpa [Tab.get, hk] using h k

/-! ## A responder's memory -/

namespace Machine

/-- A write of bytes keeps the memory's canonical form. -/
theorem Responder.write_wf (r : Responder) (a : Nat) (l : List Byte) (h : Tab.wf 0 r.mem = true) :
    Tab.wf 0 (r.write a l).mem = true := by
  unfold Responder.write
  simp only
  generalize l.zip (List.range l.length) = z
  generalize r.mem = m at h ⊢
  induction z generalizing m with
  | nil => exact h
  | cons e z ih => exact ih _ (Tab.set_wf 0 m _ _ h)

theorem Responder.write_fold (m : Tab Byte) (a o : Nat) (l : List Byte) (k : Nat) :
    Tab.get 0 ((l.zip (List.range' o l.length)).foldl (fun m e => Tab.set 0 m (a + e.2) e.1) m) k =
      if a + o ≤ k ∧ k < a + o + l.length then l.getD (k - (a + o)) 0 else Tab.get 0 m k := by
  induction l generalizing m o with
  | nil => rw [if_neg (by simp only [List.length_nil]; omega)]; rfl
  | cons b l ih =>
    simp only [List.length_cons, List.range'_succ, List.zip_cons_cons, List.foldl_cons, ih, Tab.get_set]
    by_cases h : k = a + o
    · subst h; rw [if_neg (by omega)]; simp
    · by_cases h2 : a + (o + 1) ≤ k ∧ k < a + (o + 1) + l.length
      · have e : k - (a + o) = (k - (a + (o + 1))) + 1 := by omega
        rw [if_pos h2, if_pos (by omega), e]
        simp
      · rw [if_neg h2, if_neg h, if_neg (by omega)]

/-- What a byte reads as after a write: the byte written there, and what it read before elsewhere. -/
theorem Responder.get_write (r : Responder) (a : Nat) (l : List Byte) (k : Nat) :
    (r.write a l).mem.get 0 k =
      if a ≤ k ∧ k < a + l.length then l.getD (k - a) 0 else r.mem.get 0 k := by
  have h := Responder.write_fold r.mem a 0 l k
  simpa [Responder.write, List.range_eq_range'] using h

/-- A read of what was written gives it back. -/
theorem Responder.read_write (r : Responder) (a : Nat) (l : List Byte) :
    (r.write a l).read a l.length = l := by
  apply List.ext_getElem
  · simp [Responder.read]
  · intro i h1 h2
    simp only [Responder.read, List.getElem_map, List.getElem_range]
    rw [Responder.get_write, if_pos (by omega), Nat.add_sub_cancel_left]
    simp [h2]

end Machine

end Sys2Proof
end

