-- ==== Sys2Proof/Laws/Issue.lean ====
section
/-! SUPPORT. What the issue of an instruction does, once for all instructions. -/

namespace Sys2Proof.Machine

/-! ## Cells and banks -/

theorem State.cell_modCell (s : State) (n m : Nat) (f : Cell → Cell) :
    (s.modCell n f).cell m = if m = n then f (s.cell n) else s.cell m := Tab.get_upd ..

@[simp] theorem State.cell_modCell_same (s : State) (n : Nat) (f : Cell → Cell) :
    (s.modCell n f).cell n = f (s.cell n) := by simp [State.cell_modCell]

@[simp] theorem State.bank_modBank (s : State) (e : Engine) (x : Bool) (f : Bank → Bank) :
    (s.modBank e x f).bank e x = f (s.bank e x) := by
  cases e <;> cases x <;> simp [State.modBank, State.bank]

/-- A change of a cell that keeps its banks keeps every bank. -/
theorem State.bank_modCell (s : State) (n : Nat) (f : Cell → Cell) (e : Engine) (x : Bool)
    (hp : (f (s.cell n)).p = (s.cell n).p) (hm : (f (s.cell n)).m = (s.cell n).m) :
    (s.modCell n f).bank e x = s.bank e x := by
  cases e with
  | steward => rfl
  | cell j =>
    simp only [State.bank, State.cell_modCell]
    by_cases h : j.val = n <;> cases x <;> simp [h, hp, hm]

@[simp] theorem State.bank_exBump (s : State) (e e' : Engine) (k : EngCtr) (m : Nat) (x : Bool) :
    (s.exBump e k m).bank e' x = s.bank e' x := by
  cases e with
  | steward => rfl
  | cell n => exact State.bank_modCell _ _ _ _ _ rfl rfl

@[simp] theorem State.bank_queBump (s : State) (n : Nat) (k : QueCtr) (m : Nat) (e : Engine) (x : Bool) :
    (State.queBump n k s m).bank e x = s.bank e x := State.bank_modCell _ _ _ _ _ rfl rfl

@[simp] theorem State.bank_freeLanded (s : State) (e e' : Engine) (x y : Bool) (was : Nat) :
    (s.freeLanded e x was).bank e' y = s.bank e' y := by
  unfold State.freeLanded
  split
  · rfl
  · dsimp only
    have h : ∀ (c : Bool) (s : State) (n : Nat) (f : Cell → Queues), (if c then
        s.modCell n fun c => { c with que := f c } else s).bank e' y = s.bank e' y := by
      intro c s n f
      cases c
      · rfl
      · exact State.bank_modCell _ _ _ _ _ rfl rfl
    exact (h ..).trans (State.bank_queBump ..)

@[simp] theorem State.bank_fillCache (s : State) (e e' : Engine) (x : Bool) (pc : Nat) :
    (s.fillCache e pc).bank e' x = s.bank e' x := by
  unfold State.fillCache
  cases e with
  | cell n => rfl
  | steward =>
    dsimp only
    split
    · rfl
    · cases e' <;> rfl

/-- Landing changes what is left to land, the poison of the firing and of what a squash takes it back to,
and nothing else of the bank. -/
theorem land_eq (b : Bank) (u : Nat) : ∃ (h : Option Packet) (v : Nat) (w : BitVec 12) (o : Bool)
    (f : Op → Op), b.land u = { b with
      hdr := h, unlanded := v, badWords := w, regs := { b.regs with poisoned := o }, ops := b.ops.map f } ∧
      h.isSome = b.hdr.isSome ∧
      ∀ p, f p = { p with snap := (f p).snap } := by
  unfold Bank.land
  split
  · exact ⟨b.hdr, b.unlanded, b.badWords, b.regs.poisoned, id, by simp, rfl, fun _ => rfl⟩
  · rename_i p hp
    dsimp only
    split
    · exact ⟨b.hdr, u, _, b.regs.poisoned, id, by simp only [List.map_id]; rfl, rfl, fun _ => rfl⟩
    · exact ⟨_, u, _, true, _, rfl, by simp [hp], fun _ => rfl⟩

theorem State.bankAt_eq (s : State) (e : Engine) (x : Bool) : ∃ (h : Option Packet) (v : Nat)
    (w : BitVec 12) (o : Bool) (f : Op → Op), s.bankAt e x = { s.bank e x with
      hdr := h, unlanded := v, badWords := w, regs := { (s.bank e x).regs with poisoned := o }
      ops := (s.bank e x).ops.map f } ∧ h.isSome = (s.bank e x).hdr.isSome ∧
      ∀ p, f p = { p with snap := (f p).snap } := by
  unfold State.bankAt Bank.landFor
  dsimp only
  split
  · exact ⟨(s.bank e x).hdr, (s.bank e x).unlanded, (s.bank e x).badWords, (s.bank e x).regs.poisoned, id,
      by simp, rfl, fun _ => rfl⟩
  · exact land_eq ..

@[simp] theorem State.bankAt_pc (s : State) (e : Engine) (x : Bool) :
    (s.bankAt e x).regs.pc = (s.bank e x).regs.pc := by
  obtain ⟨_, _, _, _, _, h, -⟩ := s.bankAt_eq e x; rw [h]
@[simp] theorem State.bankAt_slot (s : State) (e : Engine) (x : Bool) :
    (s.bankAt e x).regs.slot = (s.bank e x).regs.slot := by
  obtain ⟨_, _, _, _, _, h, -⟩ := s.bankAt_eq e x; rw [h]
@[simp] theorem State.bankAt_inHandler (s : State) (e : Engine) (x : Bool) :
    (s.bankAt e x).regs.inHandler = (s.bank e x).regs.inHandler := by
  obtain ⟨_, _, _, _, _, h, -⟩ := s.bankAt_eq e x; rw [h]
@[simp] theorem State.bankAt_n (s : State) (e : Engine) (x : Bool) :
    (s.bankAt e x).n = (s.bank e x).n := by
  obtain ⟨_, _, _, _, _, h, -⟩ := s.bankAt_eq e x; rw [h]
@[simp] theorem State.bankAt_attr (s : State) (e : Engine) (x : Bool) :
    (s.bankAt e x).attr = (s.bank e x).attr := by
  obtain ⟨_, _, _, _, _, h, -⟩ := s.bankAt_eq e x; rw [h]
@[simp] theorem State.bankAt_held (s : State) (e : Engine) (x : Bool) :
    (s.bankAt e x).held = (s.bank e x).held := by
  obtain ⟨_, _, _, _, _, h, -⟩ := s.bankAt_eq e x; rw [h]
@[simp] theorem State.bankAt_ctxReq (s : State) (e : Engine) (x : Bool) :
    (s.bankAt e x).ctxReq = (s.bank e x).ctxReq := by
  obtain ⟨_, _, _, _, _, h, -⟩ := s.bankAt_eq e x; rw [h]
@[simp] theorem State.bankAt_ghosts (s : State) (e : Engine) (x : Bool) :
    (s.bankAt e x).ghosts = (s.bank e x).ghosts := by
  obtain ⟨_, _, _, _, _, h, -⟩ := s.bankAt_eq e x; rw [h]
@[simp] theorem State.bankAt_hdr_isSome (s : State) (e : Engine) (x : Bool) :
    (s.bankAt e x).hdr.isSome = (s.bank e x).hdr.isSome := by
  obtain ⟨_, _, _, _, _, h, h2, -⟩ := s.bankAt_eq e x; rw [h, ← h2]

@[simp] theorem State.exAt_r (s : State) (a : At) (x : Bool) :
    (s.exAt a x).r = (s.bankAt a.eng x).regs := rfl
@[simp] theorem State.exAt_e (s : State) (a : At) (x : Bool) : (s.exAt a x).e = a.eng := rfl
@[simp] theorem State.exAt_x (s : State) (a : At) (x : Bool) : (s.exAt a x).x = x := rfl
@[simp] theorem State.exAt_u (s : State) (a : At) (x : Bool) :
    (s.exAt a x).u = unitOf a.eng := rfl
@[simp] theorem State.exAt_code (s : State) (a : At) (x : Bool) :
    (s.exAt a x).code = s.codeWord a.eng := rfl
@[simp] theorem State.exAt_b (s : State) (a : At) (x : Bool) :
    (s.exAt a x).b = s.bankAt a.eng x := rfl

@[simp] theorem State.fetchState_bank (s : State) (e : Engine) (x : Bool) :
    (s.fetchState e x).bank e x = s.bankAt e x := by simp [State.fetchState]

/-! ## The instruction issues -/

/-- What the stepping of a debugger adds to an issue. -/
def State.afterIssue (s : State) (e : Engine) (x : Bool) : State :=
  match e with
  | .cell n => State.issue.stepStop s n.val x
  | .steward => State.issue.stewardStop s

theorem State.issue_of {s : State} {a : At} {x : Bool} {w : Word} {w2 : Option Word}
    (h : Issues s a x w w2) (hh : (s.bank a.eng x).held = false) (go : Ex → State → Act × State) :
    s.issue a w w2 go =
      let r := go (s.exAt a x) (s.fetchState a.eng x)
      if r.1 = .hold then r.2 else (r.2.carry (s.exAt a x) r.1).afterIssue a.eng x := by
  obtain ⟨hr, hg, hw, hw2, hc, hs⟩ := h
  unfold State.issue
  simp only [hr, hg, Bool.false_eq_true, ↓reduceIte]
  have e1 : (s.bank a.eng x).landFor (s.codeWord a.eng (s.bank a.eng x).regs.pc)
      (s.codeWord a.eng ((s.bank a.eng x).regs.pc + unitOf a.eng)) = s.bankAt a.eng x := rfl
  simp only [e1]
  have e2 : ((s.modBank a.eng x fun _ => s.bankAt a.eng x).freeLanded a.eng x
      (popCount 12 (s.bank a.eng x).badWords.toNat)).fillCache a.eng
      (s.bank a.eng x).regs.pc = s.fetchState a.eng x := rfl
  simp only [e2, State.exAt, State.bankAt_pc, State.bankAt_slot, State.bankAt_held, hh, hw]
  cases w2 with
  | none =>
    simp only [hc, hs, bne_self_eq_false, Bool.or_self, Bool.false_eq_true, ↓reduceIte]
    generalize go _ (s.fetchState a.eng x) = r
    obtain ⟨act, s2⟩ := r
    cases he : a.eng <;> cases act <;> simp [State.afterIssue, State.carry]
  | some v =>
    have hv := hw2 v rfl
    simp only [hv] at hc ⊢
    simp only [hc, hs, bne_self_eq_false, Bool.or_self, Bool.false_eq_true, ↓reduceIte]
    generalize go _ (s.fetchState a.eng x) = r
    obtain ⟨act, s2⟩ := r
    cases he : a.eng <;> cases act <;> simp [State.afterIssue, State.carry]

/-! ## What is left after it -/

@[simp] theorem State.bank_countIssue (s : State) (e : Engine) (x whole : Bool) :
    (s.countIssue e x whole).bank e x = { s.bank e x with
      budget := (s.bank e x).budget + 1
      issued := if whole then (s.bank e x).issued + 1 else (s.bank e x).issued } := by
  cases whole <;> simp [State.countIssue]

@[simp] theorem State.bank_issued (s : State) (x : Ex) (r : Regs) (ds : List Dest) (d : Nat) :
    (s.issued x r ds d).bank x.e x.x = { ((s.bank x.e x.x).noteWrites x.b.n d ds) with
      budget := (s.bank x.e x.x).budget + 1, issued := (s.bank x.e x.x).issued + 1
      regs := r, n := x.b.n + 1, held := false, heldFor := none } := by
  simp [State.issued, Bank.noteWrites]

/-- Nothing cuts a bank in which no BUDGET waits. -/
theorem State.cutBudget_none (s : State) (e : Engine) (x : Bool)
    (h : ∀ o ∈ (s.bank e x).ops, ∀ i, o.kind ≠ .trap 0x0B i) : s.cutBudget e x = none := by
  unfold State.cutBudget
  dsimp only
  split
  · rename_i o ho
    have hm := h o (List.mem_of_getLast? ho)
    split
    · rename_i code info hk
      split
      · rename_i hc
        simp only [Bool.and_eq_true, decide_eq_true_eq] at hc
        exact absurd (hc.1 ▸ hk) (hm info)
      · rfl
    · rfl
  · rfl

/-- A bank whose first operation waits, and in which no BUDGET waits, retires nothing. -/
theorem State.retire1_waits (s : State) (e : Engine) (x : Bool)
    (h : ∀ o, (s.bank e x).ops.head? = some o → o.waits = true)
    (hb : ∀ o ∈ (s.bank e x).ops, ∀ i, o.kind ≠ .trap 0x0B i) : s.retire1 e x = none := by
  have hc := State.cutBudget_none s e x hb
  unfold State.retire1
  dsimp only
  split
  · rfl
  · rename_i o rest ho
    have hl := h o (by simp [ho])
    obtain ⟨k, n, d, w, r, g, f⟩ := o
    cases k <;> simp_all [Op.waits]

theorem State.retire_waits (s : State) (e : Engine) (x : Bool)
    (h : ∀ o, (s.bank e x).ops.head? = some o → o.waits = true)
    (hb : ∀ o ∈ (s.bank e x).ops, ∀ i, o.kind ≠ .trap 0x0B i) : s.retire e x = s := by
  simp [State.retire, State.retireLoop, State.retire1_waits s e x h hb]

/-- A walk that frees no register leaves the results and the state. -/
theorem foldl_free_none (p : Dest → Bool) (s : State) : ∀ (l r : List Dest), (∀ d ∈ l, p d = false) →
    l.foldl (fun (acc : List Dest × State) d =>
      if p d then (acc.1 ++ [d.freed acc.2.fresh], { acc.2 with fresh := acc.2.fresh + 1 })
      else (acc.1 ++ [d], acc.2)) (r, s) = (r ++ l, s)
  | [], r, _ => by simp
  | d :: l, r, h => by
    rw [List.foldl_cons, h d (by simp)]
    simp only [Bool.false_eq_true, ↓reduceIte]
    rw [foldl_free_none p s l _ fun e he => h e (by simp [he])]
    simp

theorem State.freeDoubles_none (s : State) (x : Ex) (ds : List Dest)
    (h : ∀ d ∈ ds, x.b.doubles d = false) : s.freeDoubles x ds = (ds, s) := by
  unfold State.freeDoubles
  exact (foldl_free_none _ s ds [] h).trans (by simp)

/-! ## What it leaves of the rest of the machine -/

/-- `u` differs from `s` only in the bank, with these counters and this debug unit of its cell. -/
def Part (st : Bool) (s u : State) (c : Tab Nat) (d : Debug) : Engine → Bool → Prop
  | .cell n, x =>
    u = { s with cells := u.cells } ∧ (∀ m, m ≠ n.val → u.cell m = s.cell m) ∧
    u.cell n.val = { s.cell n.val with
      p := if x then (u.cell n.val).p else (s.cell n.val).p
      m := if x then (s.cell n.val).m else (u.cell n.val).m
      scratch := if st then (u.cell n.val).scratch else (s.cell n.val).scratch
      cnt := c, dbg := d, que := s.landedQue n x }
  | .steward, _ =>
    u = { s with steward := { s.steward with
      bank := u.steward.bank, icache := u.steward.icache
      dcache := if st then u.steward.dcache else s.steward.dcache
      mem := if st then u.steward.mem else s.steward.mem } }

theorem cellsOnly_modCell {s u : State} (h : u = { s with cells := u.cells }) (n : Nat)
    (f : Cell → Cell) : u.modCell n f = { s with cells := (u.modCell n f).cells } := by
  obtain ⟨⟩ := s
  obtain ⟨⟩ := u
  simpa [State.modCell] using h

theorem Part.modBank {st : Bool} {s u : State} {c : Tab Nat} {d : Debug} {e : Engine} {x : Bool}
    (h : Part st s u c d e x) (f : Bank → Bank) : Part st s (u.modBank e x f) c d e x := by
  cases e with
  | steward =>
    revert h
    unfold Part
    simp only [State.modBank]
    obtain ⟨⟩ := s
    obtain ⟨_, _, _, _, _, _, _, v, _, _, _, _, _, _, _, _, _, _, _, _, _, _⟩ := u
    obtain ⟨⟩ := v
    simp +contextual
  | cell n =>
    obtain ⟨h1, h2, h3⟩ := h
    refine ⟨?_, fun m hm => ?_, ?_⟩
    · exact cellsOnly_modCell h1 _ _
    · simp [State.modBank, State.cell_modCell, hm, h2 m hm]
    · simp only [State.modBank, State.cell_modCell_same]
      revert h3
      generalize u.cell n.val = w
      obtain ⟨⟩ := w
      cases x <;> simp +contextual

theorem Part.exBump {st : Bool} {s u : State} {c : Tab Nat} {d : Debug} {e : Engine} {x : Bool}
    (h : Part st s u c d e x) (k : EngCtr) (m : Nat) :
    Part st s (u.exBump e k m) (c.bump k.ctorIdx m) d e x := by
  cases e with
  | steward => exact h
  | cell n =>
    obtain ⟨h1, h2, h3⟩ := h
    refine ⟨?_, fun m hm => ?_, ?_⟩
    · exact cellsOnly_modCell h1 _ _
    · simp [State.exBump, State.engBump, State.cell_modCell, hm, h2 m hm]
    · simp only [State.exBump, State.engBump, State.cell_modCell_same]
      revert h3
      generalize u.cell n.val = w
      obtain ⟨⟩ := w
      cases x <;> simp +contextual

theorem Part.ite {st : Bool} {s a b : State} {c : Tab Nat} {d : Debug} {e : Engine} {x : Bool} {p : Prop}
    [Decidable p] (ha : Part st s a c d e x) (hb : Part st s b c d e x) :
    Part st s (if p then a else b) c d e x := by split <;> assumption

theorem Part.fetch (s : State) (e : Engine) (x : Bool) :
    Part false s (s.fetchState e x) (match e with | .cell n => (s.cell n.val).cnt | .steward => [])
      (match e with | .cell n => (s.cell n.val).dbg | .steward => {}) e x := by
  cases e with
  | steward =>
    unfold State.fetchState
    simp only [State.freeLanded, State.fillCache]
    exact Part.ite rfl rfl
  | cell n =>
    have hb : (s.modBank (.cell n) x fun _ => s.bankAt (.cell n) x).bank (.cell n) x = s.bankAt (.cell n) x :=
      State.bank_modBank ..
    unfold State.fetchState State.freeLanded
    simp only [State.fillCache, hb]
    generalize hv : s.modBank (.cell n) x (fun _ => s.bankAt (.cell n) x) = v
    have hv2 : (∀ m, m ≠ n.val → v.cell m = s.cell m) ∧ v = { s with cells := v.cells } ∧
        v.cell n.val = { s.cell n.val with
          p := if x then (v.cell n.val).p else (s.cell n.val).p
          m := if x then (s.cell n.val).m else (v.cell n.val).m } := by
      subst hv
      refine ⟨fun m hm => by simp [State.modBank, State.cell_modCell, hm], rfl, ?_⟩
      simp only [State.modBank, State.cell_modCell_same]
      cases x <;> simp
    clear hv
    have hq : (v.cell n.val).que = (s.cell n.val).que := by rw [hv2.2.2]
    have hl : s.landedQue n x = (if (s.bankAt (.cell n) x).unlanded == 0 &&
          (if x then ((State.queBump n.val .easelPe v (popCount 12 (s.bank (.cell n) x).badWords.toNat -
            popCount 12 (s.bankAt (.cell n) x).badWords.toNat)).cell n.val).que.xHeld
          else ((State.queBump n.val .easelPe v (popCount 12 (s.bank (.cell n) x).badWords.toNat -
            popCount 12 (s.bankAt (.cell n) x).badWords.toNat)).cell n.val).que.eHeld) != 0 &&
          !(s.bankAt (.cell n) x).dropping
        then ((State.queBump n.val .easelPe v (popCount 12 (s.bank (.cell n) x).badWords.toNat -
            popCount 12 (s.bankAt (.cell n) x).badWords.toNat)).cell n.val).que.release x
        else ((State.queBump n.val .easelPe v (popCount 12 (s.bank (.cell n) x).badWords.toNat -
            popCount 12 (s.bankAt (.cell n) x).badWords.toNat)).cell n.val).que) := by
      simp only [State.queBump, State.cell_modCell_same, hq]
      rfl
    rw [Part, hl]
    have hu : (State.queBump n.val .easelPe v (popCount 12 (s.bank (.cell n) x).badWords.toNat -
          popCount 12 (s.bankAt (.cell n) x).badWords.toNat)) =
          { s with cells := (State.queBump n.val .easelPe v (popCount 12 (s.bank (.cell n) x).badWords.toNat -
          popCount 12 (s.bankAt (.cell n) x).badWords.toNat)).cells } := cellsOnly_modCell hv2.2.1 _ _
    have hm : ∀ m, m ≠ n.val → (State.queBump n.val .easelPe v (popCount 12 (s.bank (.cell n) x).badWords.toNat -
          popCount 12 (s.bankAt (.cell n) x).badWords.toNat)).cell m = s.cell m := fun m hm => by
      simp [State.queBump, State.cell_modCell, hm, hv2.1 m hm]
    have hn : (State.queBump n.val .easelPe v (popCount 12 (s.bank (.cell n) x).badWords.toNat -
          popCount 12 (s.bankAt (.cell n) x).badWords.toNat)).cell n.val = { s.cell n.val with
          p := if x then (v.cell n.val).p else (s.cell n.val).p
          m := if x then (s.cell n.val).m else (v.cell n.val).m
          que := ((State.queBump n.val .easelPe v (popCount 12 (s.bank (.cell n) x).badWords.toNat -
            popCount 12 (s.bankAt (.cell n) x).badWords.toNat)).cell n.val).que } := by
      simp only [State.queBump, State.cell_modCell_same]
      rw [hv2.2.2]
      cases x <;> simp
    generalize (State.queBump n.val .easelPe v (popCount 12 (s.bank (.cell n) x).badWords.toNat -
          popCount 12 (s.bankAt (.cell n) x).badWords.toNat)) = w at hu hm hn ⊢
    generalize ((s.bankAt (.cell n) x).unlanded == 0 &&
          (if x then (w.cell n.val).que.xHeld else (w.cell n.val).que.eHeld) != 0 &&
          !(s.bankAt (.cell n) x).dropping) = c
    cases c
    · simp only [Bool.false_eq_true, ↓reduceIte]
      refine ⟨hu, hm, ?_⟩
      rw [hn]
      cases x <;> simp
    · simp only [↓reduceIte]
      refine ⟨cellsOnly_modCell hu _ _, fun m hne => by simp [State.cell_modCell, hne, hm m hne], ?_⟩
      simp only [State.cell_modCell_same]
      rw [hn]
      cases x <;> simp

theorem Part.after {st : Bool} {s u : State} {c : Tab Nat} {d : Debug} {e : Engine} {x : Bool}
    (h : Part st s u c d e x) (hd : d.stepping = false)
    (hs : e = .steward → s.steward.stepping = false) :
    Part st s (u.afterIssue e x) c { d with passed := false } e x ∧
      (u.afterIssue e x).bank e x = u.bank e x := by
  cases e with
  | steward =>
    have h' : u = _ := h
    have hu : u.steward.stepping = false := by rw [h']; exact hs rfl
    simp only [State.afterIssue, State.issue.stewardStop, hu, Bool.false_eq_true, ↓reduceIte]
    exact ⟨h, trivial⟩
  | cell n =>
    obtain ⟨h1, h2, h3⟩ := h
    have hu : (u.cell n.val).dbg = d := by rw [h3]
    simp only [State.afterIssue, State.issue.stepStop, State.cell_modCell_same, hu, hd,
      Bool.false_and, Bool.false_eq_true, ↓reduceIte]
    refine ⟨⟨?_, fun m hm => ?_, ?_⟩, ?_⟩
    · exact cellsOnly_modCell h1 _ _
    · simp [State.cell_modCell, hm, h2 m hm]
    · simp only [State.cell_modCell_same]
      revert h3
      generalize u.cell n.val = w
      obtain ⟨⟩ := w
      cases x <;> simp +contextual [hd]
    · exact State.bank_modCell _ _ _ _ _ rfl rfl

/-! ## The instruction goes on -/

theorem Part.only {st : Bool} {s u : State} {c : Tab Nat} {d : Debug} {e : Engine} {x : Bool}
    (h : Part st s u c d e x) (hd : ∀ n : Fin 128, e = .cell n →
      c = (s.cell n.val).cnt.bump EngCtr.instrIssued.ctorIdx ∧
      d = { (s.cell n.val).dbg with passed := false }) : Own st true s u e x := by
  cases e with
  | steward => exact h
  | cell n =>
    obtain ⟨rfl, rfl⟩ := hd n rfl
    exact h

/-- A state that differs from `s` only in the bank that issues. -/
abbrev Part0 (st : Bool) (s u : State) (e : Engine) (x : Bool) : Prop :=
  Part st s u (match e with | .cell n => (s.cell n.val).cnt | .steward => [])
    (match e with | .cell n => (s.cell n.val).dbg | .steward => {}) e x

/-- What an issue leaves of the rest of the machine: `f` is what it makes of the bank. -/
theorem Part.issue {st : Bool} {s u : State} {a : At} {x : Bool} {ds : List Dest} (hc : Calm s a x ds)
    (h0 : Part0 st s u a.eng x) (f : Bank → Bank) :
    let v := (u.countIssue a.eng x true).modBank a.eng x f
    Own st true s (v.afterIssue a.eng x) a.eng x ∧
      (v.afterIssue a.eng x).bank a.eng x = f { u.bank a.eng x with
        budget := (u.bank a.eng x).budget + 1, issued := (u.bank a.eng x).issued + 1 } := by
  intro v
  have h2 := ((h0.exBump .instrIssued 1).modBank fun b => { b with
    budget := b.budget + 1, issued := if true then b.issued + 1 else b.issued }).modBank f
  have hv : v = State.modBank (State.modBank (State.exBump u a.eng .instrIssued 1) a.eng x fun b => { b with
      budget := b.budget + 1, issued := if true then b.issued + 1 else b.issued }) a.eng x f := by
    simp [v, State.countIssue]
  rw [← hv] at h2
  have h3 := Part.after h2 (by
    have := hc.steps
    cases he : a.eng <;> simp_all) (by
    intro he
    have := hc.steps
    simp_all)
  refine ⟨Part.only h3.1 fun n hn => by simp [hn], ?_⟩
  rw [h3.2]
  simp [v]

/-- A change of the bank by an instruction that has issued, and of nothing else: its first
operation, if any, waits for its result or for its late exception, and no BUDGET waits. -/
theorem State.ran {st : Bool} {s u : State} {a : At} {x : Bool} {ds : List Dest} (hc : Calm s a x ds)
    (h0 : Part0 st s u a.eng x) (r : Regs) (l : List Dest) (d : Nat)
    (hw : ∀ o, (u.bank a.eng x).ops.head? = some o → o.waits = true)
    (hb : ∀ o ∈ (u.bank a.eng x).ops, ∀ i, o.kind ≠ .trap 0x0B i) :
    let t := ((u.issued (s.exAt a x) r l d).retire a.eng x).afterIssue a.eng x
    Own st true s t a.eng x ∧ (t.bank a.eng x).regs = r ∧
      (t.bank a.eng x).n = (s.bank a.eng x).n + 1 ∧
      (t.bank a.eng x).ops = (u.bank a.eng x).ops := by
  intro t
  have hp := Part.issue hc h0 fun b => { (b.noteWrites (s.bankAt a.eng x).n d l) with
    regs := r, n := (s.bankAt a.eng x).n + 1, held := false, heldFor := none }
  have hi := State.bank_issued u (s.exAt a x) r l d
  simp only [State.exAt_e, State.exAt_x] at hi
  have hr : (u.issued (s.exAt a x) r l d).retire a.eng x = u.issued (s.exAt a x) r l d := by
    refine State.retire_waits _ _ _ ?_ ?_
    · rw [hi]; simpa [Bank.noteWrites] using hw
    · rw [hi]; simpa [Bank.noteWrites] using hb
  have ht : t = (u.issued (s.exAt a x) r l d).afterIssue a.eng x := by simp only [t, hr]
  rw [ht]
  simp only [State.issued, State.exAt_e, State.exAt_x, State.exAt_b]
  refine ⟨hp.1, ?_⟩
  have := hp.2
  simp only at this
  rw [this]
  simp [Bank.noteWrites]

/-- An instruction of distance 1. -/
theorem State.issue_done {s : State} {a : At} {x : Bool} {w : Word} {w2 : Option Word}
    {ds : List Dest} {go : Ex → State → Act × State} (h : Issues s a x w w2) (hc : Calm s a x ds)
    (hgo : go (s.exAt a x) (s.fetchState a.eng x) = (.done ds, s.fetchState a.eng x)) :
    Wrote s (s.issue a w w2 go) a x ds := by
  have hf := State.freeDoubles_none (s.fetchState a.eng x) (s.exAt a x) ds hc.fresh
  have hr := State.ran hc (Part.fetch s a.eng x) ((ds.foldl (fun r d => d.apply r)
    (s.exAt a x).base).finish (s.codeWord a.eng) (unitOf a.eng) (s.exAt a x).len) ds 1
    (by simpa using hc.waits) (by simpa using hc.budget)
  rw [State.issue_of h hc.unheld, hgo]
  simp only [reduceCtorEq, ↓reduceIte, State.carry, hf]
  exact ⟨⟨hr.2.1, hr.2.2.1, hr.1⟩, by simpa using hr.2.2.2⟩

/-- An instruction that goes on with registers of its own. -/
theorem State.issue_goto {s : State} {a : At} {x : Bool} {w : Word} {w2 : Option Word}
    {r : Regs} {ds : List Dest} {go : Ex → State → Act × State} (h : Issues s a x w w2) (hc : Calm s a x ds)
    (hgo : go (s.exAt a x) (s.fetchState a.eng x) = (.goto r ds none, s.fetchState a.eng x)) :
    let t := s.issue a w w2 go
    OnlyBank s t a.eng x ∧ (t.bank a.eng x).regs = ds.foldl (fun r d => d.apply r) r ∧
      (t.bank a.eng x).n = (s.bank a.eng x).n + 1 ∧
      (t.bank a.eng x).ops = (s.bankAt a.eng x).ops := by
  intro t
  have hf := State.freeDoubles_none (s.fetchState a.eng x) (s.exAt a x) ds hc.fresh
  have hr := State.ran hc (Part.fetch s a.eng x) (ds.foldl (fun r d => d.apply r) r) ds 1
    (by simpa using hc.waits) (by simpa using hc.budget)
  simp only [t]
  rw [State.issue_of h hc.unheld, hgo]
  simpa [State.carry, hf] using hr

/-! ## Operations enter the bank -/

theorem Bank.core_push (b : Bank) (o : Op) (c : Core) : ({ b with ops := b.ops ++ [o] } : Bank).core c =
    b.core c ++ if coreOf o.word == some c && o.working then [o] else [] := by
  unfold Bank.core
  rw [← List.append_assoc, List.filter_append]
  simp [List.filter_cons]

/-- A core without operations begins the one that has just entered, and no other. -/
theorem Bank.begin_push (b : Bank) (o : Op) (c : Core) (hb : b.core c = []) (hc : coreOf o.word = some c)
    (ho : o.working = true) : ({ b with ops := b.ops ++ [o] } : Bank).beginOp c o.n =
      { b with ops := b.ops ++ [{ o with begun := true }] } := by
  have hid : ∀ l : List Op, (∀ p ∈ l, ¬((coreOf p.word == some c && p.working) = true)) →
      l.map (fun p => if p.n == o.n && coreOf p.word == some c && p.working then { p with begun := true } else p)
        = l := by
    intro l hl
    refine (List.map_congr_left fun p hp => ?_).trans (List.map_id l)
    have := hl p hp
    simp only [id_eq, ite_eq_right_iff, Bool.and_eq_true] at this ⊢
    exact fun h => absurd ⟨h.1.2, h.2⟩ this
  unfold Bank.core at hb
  rw [List.filter_append, List.append_eq_nil_iff, List.filter_eq_nil_iff, List.filter_eq_nil_iff] at hb
  unfold Bank.beginOp
  simp only [List.map_append, hid _ hb.1, hid _ hb.2, List.map_cons, List.map_nil]
  simp [hc, ho]

/-- What an operation that enters leaves: the bank with it, and nothing else changed. -/
theorem State.pushed {s : State} {a : At} {x : Bool} {ds : List Dest} (hc : Calm s a x ds) (k : OpKind)
    (d : Option Nat) (free : Bool) :
    let v := (s.fetchState a.eng x).pushOp (s.exAt a x) k d free
    Part0 false s v a.eng x ∧ v.bank a.eng x = { s.bankAt a.eng x with
      ops := (s.bankAt a.eng x).ops ++ [{ s.opAt a x k d with free := free }] } := by
  intro v
  have hp := Part.fetch s a.eng x
  have hbk := State.fetchState_bank s a.eng x
  have hcr := hc.cores
  generalize hu : s.fetchState a.eng x = u at hp hbk hcr
  have hv : v = u.pushOp (s.exAt a x) k d free := by simp only [v, hu]
  have hop : s.opAt a x k d = { kind := k, n := (s.bankAt a.eng x).n, d := d, word := (s.exAt a x).w
                                snap := (s.bankAt a.eng x).regs, begun := (s.opAt a x k d).begun } := rfl
  have hbg : (s.opAt a x k d).begun = ({ kind := k, n := (s.bankAt a.eng x).n, d := d, word := (s.exAt a x).w
                                         snap := (s.bankAt a.eng x).regs } : Op).begins fun c =>
      (u.coreOps a.eng c).any (·.begun) := by
    rw [← hu]; rfl
  clear hu
  generalize s.opAt a x k d = o at hop hbg ⊢
  clear_value v
  subst hv
  unfold State.pushOp
  simp only [State.exAt_e, State.exAt_x, State.exAt_b]
  generalize hw : (s.exAt a x).w = w at hop hbg ⊢
  generalize hs : (s.bankAt a.eng x) = B at hop hbg hbk ⊢
  generalize a.eng = e at hp hbk hcr hbg ⊢
  generalize hdue : ({ kind := k, n := B.n, d := d, word := w, snap := B.regs, free := free } : Op).begins
    (fun _ => true) = due
  -- the state with the operation in its bank
  have p1 := fun o : Op => Part.modBank hp fun b => { b with ops := b.ops ++ [o] }
  have b1 : ∀ o : Op, (u.modBank e x fun b => { b with ops := b.ops ++ [o] }).bank e x =
      { B with ops := B.ops ++ [o] } := fun o => by simp [hbk]
  unfold State.feedFor
  cases hco : coreOf w with
  | none =>
    refine ⟨p1 _, ?_⟩
    simp only [b1]
    have : due = o.begun := by rw [hbg, ← hdue]; cases k <;> simp [Op.begins, hco]
    rw [hop, ← this]
  | some c =>
    have hd0 : due = false := by rw [← hdue]; cases k <;> simp [Op.begins, hco]
    subst hd0
    simp only
    generalize ho0 : ({ kind := k, n := B.n, d := d, word := w, snap := B.regs, begun := false
                        free := free } : Op) = o0
    have hwk : o0.working = ({ kind := k, n := B.n, d := d, word := w, snap := B.regs } : Op).working := by
      subst ho0; rfl
    have hword : coreOf o0.word = some c := by subst ho0; exact hco
    have hbeg0 : o0.begun = false := by subst ho0; rfl
    -- the operations of the core in each bank
    have hcore : ∀ y, ((u.modBank e x fun b => { b with ops := b.ops ++ [o0] }).bank e y).core c =
        (u.bank e y).core c ++ if (isSeq e || y == x) && o0.working
          then [o0] else [] := by
      intro y
      cases e with
      | steward =>
        simp only [State.modBank, State.bank, Bank.core_push, hword]
        simp [isSeq]
      | cell n =>
        by_cases hy : y = x
        · subst hy
          simp only [State.bank_modBank, Bank.core_push, hword]
          simp [isSeq]
        · have : (u.modBank (.cell n) x fun b => { b with ops := b.ops ++ [o0] }).bank (.cell n) y =
              u.bank (.cell n) y := by
            cases x <;> cases y <;> simp_all [State.modBank, State.bank]
          rw [this]
          simp [hy, isSeq]
    unfold State.feedCore
    simp only [hcore]
    rcases hcr c with hbusy | hnone
    · -- the core works on another operation
      have hb2 : o.begun = false := by
        rw [hbg]
        cases k <;> simp [Op.begins, hco, hbusy]
      have : (((u.bank e true).core c ++ if (isSeq e || true == x) && o0.working then [o0] else []) ++
          ((u.bank e false).core c ++ if (isSeq e || false == x) && o0.working then [o0] else [])).any (·.begun) = true := by
        unfold State.coreOps at hbusy
        simp only [List.any_append, Bool.or_eq_true] at hbusy ⊢
        rcases hbusy with h | h
        · exact .inl (.inl h)
        · exact .inr (.inl h)
      simp only [this, ↓reduceIte]
      refine ⟨p1 _, ?_⟩
      rw [b1, hop, hb2, ← ho0]
    · -- it has none
      unfold State.coreOps at hnone
      rw [List.append_eq_nil_iff] at hnone
      simp only [hnone.1, hnone.2, List.nil_append]
      have hnb : (u.coreOps e c).any (·.begun) = false := by simp [State.coreOps, hnone.1, hnone.2]
      have hob : o.begun = o0.working := by
        rw [hbg, hwk]
        cases k <;> simp [Op.begins, hco, hnb, Op.working]
      cases hwo : o0.working with
      | false =>
        simp only [Bool.and_false, Bool.false_eq_true, ↓reduceIte, List.append_nil, List.any_nil]
        refine ⟨p1 _, ?_⟩
        rw [b1, hop, hob, hwo, ← ho0]
      | true =>
        have hBc : B.core c = [] := by
          rw [← hbk]
          cases x
          · exact hnone.2
          · exact hnone.1
        have hfin : ({ B with ops := B.ops ++ [o0] } : Bank).beginOp c o0.n =
            { B with ops := B.ops ++ [{ o with free := free }] } := by
          rw [Bank.begin_push B o0 c hBc hword hwo, hop, hob, hwo, ← ho0]
        have hend : ∀ v, v = (u.modBank e x fun b => { b with ops := b.ops ++ [o0] }).modBank e x
              (fun b => b.beginOp c o0.n) → Part0 false s v e x ∧
              v.bank e x = { B with ops := B.ops ++ [{ o with free := free }] } := fun v hv => by
          rw [hv]
          exact ⟨(p1 o0).modBank fun b => b.beginOp c o0.n, (State.bank_modBank ..).trans (by rw [b1, hfin])⟩
        cases e with
        | steward =>
          simp only [isSeq, Bool.true_or, Bool.and_self, ↓reduceIte, List.cons_append, List.any_cons, hbeg0,
            Bool.false_or, List.nil_append, List.any_nil, Bool.false_eq_true]
          exact hend _ rfl
        | cell n =>
          cases x
          · simp only [isSeq, Bool.false_or, Bool.and_true, show (true == false) = false from rfl,
              show (false == false) = true from rfl, ↓reduceIte, List.nil_append, List.any_cons, hbeg0,
              List.any_nil, Bool.false_eq_true]
            exact hend _ rfl
          · simp only [isSeq, Bool.false_or, Bool.and_true, show (false == true) = false from rfl,
              show (true == true) = true from rfl, ↓reduceIte, List.append_nil, List.any_cons, hbeg0,
              List.any_nil, Bool.false_eq_true]
            exact hend _ rfl

/-- The head of a bank's operations with one more behind them. -/
theorem head_push {l : List Op} {o : Op} (hl : ∀ p, l.head? = some p → p.waits = true)
    (ho : l ≠ [] ∨ o.waits = true) : ∀ p, (l ++ [o]).head? = some p → p.waits = true := by
  cases l with
  | nil =>
    intro p hp
    simp only [List.nil_append, List.head?_cons, Option.some.injEq] at hp
    exact hp ▸ ho.resolve_left (by simp)
  | cons q l => exact fun p hp => hl p (by simpa using hp)

/-- An instruction that leaves an operation in flight. -/
theorem State.issue_op {s : State} {a : At} {x : Bool} {w : Word} {w2 : Option Word}
    {k : OpKind} {d : Option Nat} {go : Ex → State → Act × State}
    (h : Issues s a x w w2) (hc : Calm s a x k.dests) (hk : ∀ i, k ≠ .trap 0x0B i)
    (ho : (s.bankAt a.eng x).ops ≠ [] ∨ (s.opAt a x k d).waits = true)
    (hgo : go (s.exAt a x) (s.fetchState a.eng x) = (.op k d, s.fetchState a.eng x)) :
    Started s (s.issue a w w2 go) a x k d := by
  have hf := State.freeDoubles_none (s.fetchState a.eng x) (s.exAt a x) k.dests hc.fresh
  have hfr : (k.dests.any (s.exAt a x).b.doubles) = false := by
    rw [List.any_eq_false]
    intro y hy
    simpa using hc.fresh y hy
  obtain ⟨hp, hb⟩ := State.pushed hc k d false
  have hr := State.ran hc hp ((s.exAt a x).base.finish (s.codeWord a.eng) (unitOf a.eng) (s.exAt a x).len)
    k.dests (d.getD 0) (by rw [hb]; exact head_push hc.waits ho) (by
      rw [hb]
      intro o hm i
      rcases List.mem_append.mp hm with hm | hm
      · exact hc.budget o hm i
      · rw [List.mem_singleton.mp hm]; exact hk i)
  have ht : s.issue a w w2 go = ((((s.fetchState a.eng x).pushOp (s.exAt a x) k d false).issued (s.exAt a x)
      ((s.exAt a x).base.finish (s.codeWord a.eng) (unitOf a.eng) (s.exAt a x).len)
      k.dests (d.getD 0)).retire a.eng x).afterIssue a.eng x := by
    rw [State.issue_of h hc.unheld, hgo]
    simp only [reduceCtorEq, ↓reduceIte]
    cases k with
    | result l =>
      simp only [OpKind.dests] at hf ⊢
      simp only [State.carry, hf]
      rfl
    | _ => simp only [State.carry, hfr]; rfl
  rw [ht]
  exact ⟨⟨hr.2.1, hr.2.2.1, hr.1⟩, by rw [hr.2.2.2, hb]; rfl⟩

/-- The same, where the instruction's effect on the rest of the machine makes `u` of the state before it. -/
theorem State.issue_op_from {s u v : State} {a : At} {x : Bool} {w : Word} {w2 : Option Word}
    {k : OpKind} {d : Option Nat} {go : Ex → State → Act × State}
    (h : Issues s a x w w2) (hh : (s.bank a.eng x).held = false) (hx : u.exAt a x = s.exAt a x)
    (hc : Calm u a x k.dests) (hk : ∀ i, k ≠ .trap 0x0B i) (hco : coreOf (u.exAt a x).w = none)
    (hp : Part0 false u v a.eng x) (hb : (v.bank a.eng x).ops = (u.bankAt a.eng x).ops)
    (ho : (u.bankAt a.eng x).ops ≠ [] ∨ (u.opAt a x k d).waits = true)
    (hgo : go (s.exAt a x) (s.fetchState a.eng x) = (.op k d, v)) :
    Started u (s.issue a w w2 go) a x k d := by
  have hf := State.freeDoubles_none v (u.exAt a x) k.dests hc.fresh
  have hfr : (k.dests.any (u.exAt a x).b.doubles) = false := by
    rw [List.any_eq_false]
    intro y hy
    simpa using hc.fresh y hy
  have hcode : u.codeWord a.eng = s.codeWord a.eng := congrArg Ex.code hx
  have hps : v.pushOp (u.exAt a x) k d false = v.modBank a.eng x fun b =>
      { b with ops := b.ops ++ [u.opAt a x k d] } := by
    unfold State.pushOp State.feedFor
    simp only [State.exAt_e, State.exAt_x, hco]
    have : ∀ o : Op, coreOf o.word = none → ∀ p q, o.begins p = o.begins q := by
      intro o ho p q
      unfold Op.begins
      rw [ho]
      cases o.kind <;> rfl
    have := this { kind := k, n := (u.bankAt a.eng x).n, d := d, word := (u.exAt a x).w
                   snap := (u.bankAt a.eng x).regs } hco
      (fun c => ((u.fetchState a.eng x).coreOps a.eng c).any (·.begun)) fun _ => true
    simp only [State.opAt]
    rw [this]
    rfl
  have h1 : Part0 false u (v.pushOp (u.exAt a x) k d false) a.eng x := by rw [hps]; exact hp.modBank _
  have hb1 : ((v.pushOp (u.exAt a x) k d false).bank a.eng x).ops = (u.bankAt a.eng x).ops ++ [u.opAt a x k d] := by
    rw [hps]; simp [hb]
  have hr := State.ran hc h1 ((u.exAt a x).base.finish (u.codeWord a.eng) (unitOf a.eng) (u.exAt a x).len)
    k.dests (d.getD 0) (by rw [hb1]; exact head_push hc.waits ho) (by
      rw [hb1]
      intro o hm i
      rcases List.mem_append.mp hm with hm | hm
      · exact hc.budget o hm i
      · rw [List.mem_singleton.mp hm]; exact hk i)
  have ht : s.issue a w w2 go = (((v.pushOp (u.exAt a x) k d false).issued (u.exAt a x)
      ((u.exAt a x).base.finish (u.codeWord a.eng) (unitOf a.eng) (u.exAt a x).len)
      k.dests (d.getD 0)).retire a.eng x).afterIssue a.eng x := by
    rw [State.issue_of h hh, hgo, hx, hcode]
    rw [hx] at hf hfr
    simp only [reduceCtorEq, ↓reduceIte]
    cases k with
    | result l =>
      simp only [OpKind.dests] at hf ⊢
      simp only [State.carry, hf]
      rfl
    | _ => simp only [State.carry, hfr]; rfl
  rw [ht]
  exact ⟨⟨hr.2.1, hr.2.2.1, hr.1⟩, by rw [hr.2.2.2, hb1]⟩

/-- A branch or jump. -/
theorem State.issue_branch {s : State} {a : At} {x : Bool} {w : Word} {w2 : Option Word}
    {g : Option Nat} {ds : List Dest} {go : Ex → State → Act × State} (h : Issues s a x w w2)
    (hc : Calm s a x ds)
    (hgo : go (s.exAt a x) (s.fetchState a.eng x) = (.branch g ds, s.fetchState a.eng x)) :
    let t := s.issue a w w2 go
    let r := ds.foldl (fun r d => d.apply r) (s.exAt a x).base
    OnlyBank s t a.eng x ∧
      (t.bank a.eng x).regs = { r with
        pc := r.pc + unitOf a.eng * (s.exAt a x).len
        slot := some { idx := (s.bank a.eng x).regs.pc, target := g } } ∧
      (t.bank a.eng x).n = (s.bank a.eng x).n + 1 ∧
      (t.bank a.eng x).ops = (s.bankAt a.eng x).ops := by
  intro t r
  have hf := State.freeDoubles_none (s.fetchState a.eng x) (s.exAt a x) ds hc.fresh
  have hr := State.ran hc (Part.fetch s a.eng x) { r with
        pc := r.pc + unitOf a.eng * (s.exAt a x).len
        slot := some { idx := (s.bank a.eng x).regs.pc, target := g } } ds 1
    (by simpa using hc.waits) (by simpa using hc.budget)
  simp only [t]
  rw [State.issue_of h hc.unheld, hgo]
  simp only [reduceCtorEq, ↓reduceIte, State.carry, hf]
  have hpc : (s.exAt a x).base.pc = (s.bank a.eng x).regs.pc := by simp [State.exAt]
  rw [hpc]
  simpa using hr

/-! ## Stores -/

/-- What a store leaves at each byte of a cell's scratch. -/
theorem storeScratch_get (c : Cell) (p : Nat) (l : List Byte) (q : Nat) :
    (c.storeScratch p l).scratch.get 0 q =
      if p ≤ q ∧ q < p + l.length then l.getD (q - p) 0 else c.scratch.get 0 q := by
  have h : ∀ (l : List Byte) (k : Nat) (m : Tab Byte),
      ((l.zip (List.range' k l.length)).foldl (fun m e => m.set 0 (p + e.2) e.1) m).get 0 q =
        if p + k ≤ q ∧ q < p + k + l.length then l.getD (q - (p + k)) 0 else m.get 0 q := by
    intro l
    induction l with
    | nil =>
      intro k m
      simp only [List.length_nil, List.range'_zero, List.zip_nil_left, List.foldl_nil]
      rw [if_neg (by omega)]
    | cons b l ih =>
      intro k m
      simp only [List.length_cons, List.range'_succ, List.zip_cons_cons, List.foldl_cons]
      rw [ih (k + 1), Tab.get_set]
      by_cases h1 : q = p + k
      · subst h1
        have h3 : ¬(p + (k + 1) ≤ p + k ∧ p + k < p + (k + 1) + l.length) := by omega
        rw [if_neg h3]
        simp
      · by_cases h2 : p + k ≤ q ∧ q < p + k + (l.length + 1)
        · have h3 : p + (k + 1) ≤ q ∧ q < p + (k + 1) + l.length := by omega
          have h4 : q - (p + k) = q - (p + (k + 1)) + 1 := by omega
          simp [h2, h3, h4]
        · have h3 : ¬(p + (k + 1) ≤ q ∧ q < p + (k + 1) + l.length) := by omega
          simp [h1, h2, h3]
  have := h l 0 c.scratch
  simpa [Cell.storeScratch, List.range_eq_range'] using this

theorem Part.store {st : Bool} {s u : State} {c : Tab Nat} {d : Debug} {e : Engine} {x : Bool}
    (h : Part st s u c d e x) (p : Nat) (l : List Byte) :
    Part true s (u.storeMem e p l) c d e x := by
  cases e with
  | steward =>
    have hb : ∀ m : Steward, m.store p l =
        { m with dcache := (m.store p l).dcache, mem := (m.store p l).mem } := by
      intro m
      have hp : ∀ (m : Steward) (k : Nat) (l : List Byte), m.putLine k l true =
          { m with dcache := (m.putLine k l true).dcache, mem := (m.putLine k l true).mem } := by
        intro m k l
        unfold Steward.putLine
        dsimp only
        split
        · rfl
        · split
          · split <;> rfl
          · rfl
      unfold Steward.store
      generalize l.zip (List.range l.length) = z
      induction z generalizing m with
      | nil => rfl
      | cons e z ih =>
        simp only [List.foldl_cons]
        rw [ih]
        have := hp m ((p + e.2) / 64) ((m.line ((p + e.2) / 64)).1.set ((p + e.2) % 64) e.1)
        generalize Steward.putLine _ _ _ _ = v at this ⊢
        obtain ⟨⟩ := v
        simp at this ⊢
        simp [this]
    revert h
    unfold Part
    simp only [State.storeMem]
    rw [hb u.steward]
    generalize (u.steward.store p l).dcache = y1
    generalize (u.steward.store p l).mem = y2
    obtain ⟨⟩ := s
    obtain ⟨_, _, _, _, _, _, _, v, _, _, _, _, _, _, _, _, _, _, _, _, _, _⟩ := u
    obtain ⟨⟩ := v
    simp +contextual
  | cell n =>
    obtain ⟨h1, h2, h3⟩ := h
    refine ⟨cellsOnly_modCell h1 _ _, fun m hm => ?_, ?_⟩
    · simp [State.storeMem, State.cell_modCell, hm, h2 m hm]
    · simp only [State.storeMem, State.cell_modCell_same, Cell.storeScratch]
      revert h3
      generalize u.cell n.val = w
      obtain ⟨⟩ := w
      cases x <;> simp +contextual

theorem State.bank_storeMem (s : State) (e : Engine) (x : Bool) (p : Nat) (l : List Byte) :
    (s.storeMem e p l).bank e x = s.bank e x := by
  cases e with
  | cell n => exact State.bank_modCell _ _ _ _ _ rfl rfl
  | steward =>
    have hb : ∀ m : Steward, (m.store p l).bank = m.bank := by
      intro m
      have hp : ∀ (m : Steward) (k : Nat) (l : List Byte), (m.putLine k l true).bank = m.bank := by
        intro m k l
        unfold Steward.putLine
        dsimp only
        split
        · rfl
        · split
          · split <;> rfl
          · rfl
      unfold Steward.store
      generalize l.zip (List.range l.length) = z
      induction z generalizing m with
      | nil => rfl
      | cons e z ih =>
        simp only [List.foldl_cons]
        rw [ih, hp]
    exact hb _

/-- The first operation, a store, leaves the bank. -/
theorem State.retire_store (s : State) (e : Engine) (x : Bool) (o : Op) (p : Nat) (l : List Byte)
    (ho : (s.bank e x).ops = [o]) (hk : o.kind = .scratchStore p l) :
    s.retire e x = (s.popOp e x o).storeMem e p l := by
  have h1 : s.retire1 e x = some ((s.popOp e x o).storeMem e p l) := by
    unfold State.retire1
    dsimp only
    split
    · simp_all
    · rename_i o' rest h
      rw [ho] at h
      obtain ⟨rfl, -⟩ := List.cons.inj h
      split <;> simp_all
  have h2 : ((s.popOp e x o).storeMem e p l).retire1 e x = none := by
    have : ((s.popOp e x o).storeMem e p l).bank e x = _ := State.bank_storeMem ..
    unfold State.retire1
    dsimp only
    split
    · rfl
    · rename_i o' rest h
      rw [this] at h
      simp [State.popOp, ho] at h
  simp [State.retire, State.retireLoop, h1, h2]

theorem Part.issued {st : Bool} {s u : State} {a : At} {x : Bool} (h : Part0 st s u a.eng x)
    (r : Regs) (l : List Dest) (d : Nat) : Part st s (u.issued (s.exAt a x) r l d)
      ((match a.eng with | .cell n => (s.cell n.val).cnt | .steward => ([] : Tab Nat)).bump
        EngCtr.instrIssued.ctorIdx 1)
      (match a.eng with | .cell n => (s.cell n.val).dbg | .steward => {}) a.eng x := by
  have := ((h.exBump .instrIssued 1).modBank fun b => { b with
    budget := b.budget + 1, issued := if true then b.issued + 1 else b.issued }).modBank
    fun b => { (b.noteWrites (s.bankAt a.eng x).n d l) with
      regs := r, n := (s.bankAt a.eng x).n + 1, held := false, heldFor := none }
  simpa [State.issued, State.countIssue] using this

/-- A store through the data cache depends on the cache and the memory alone. -/
theorem Steward.store_same (m : Steward) (b : Bank) (i : List (Nat × List Byte)) (p : Nat)
    (l : List Byte) : ({ m with bank := b, icache := i } : Steward).store p l =
      { m.store p l with bank := b, icache := i } := by
  have hp : ∀ (m : Steward) (k : Nat) (l : List Byte),
      ({ m with bank := b, icache := i } : Steward).putLine k l true =
        { m.putLine k l true with bank := b, icache := i } := by
    intro m k l
    unfold Steward.putLine
    dsimp only
    split
    · rfl
    · split
      · split <;> rfl
      · rfl
  unfold Steward.store
  generalize l.zip (List.range l.length) = z
  induction z generalizing m with
  | nil => rfl
  | cons e z ih =>
    simp only [List.foldl_cons]
    rw [← ih, ← hp]
    rfl

end Sys2Proof.Machine
end

