-- ==== Sys2Proof/Laws/Keep.lean ====
section
/-! SUPPORT. What it means that a meaning leaves the command queue and the fuses alone, and the
small lemmas by which that is shown, operation by operation. -/

namespace Sys2Proof.Machine

/-- The queue of commands is `q` and the fuses are `z`. -/
def Is (q : List Instr) (z : Fuses) (t : State) : Prop := t.pending = q ∧ t.fuses = z

/-- An outcome goes on, to a state with the queue `q` and the fuses `z`. -/
def IsO (q : List Instr) (z : Fuses) (o : Host.Outcome State Fault Refusal) : Prop :=
  ∃ t, o = .next t ∧ Is q z t

variable {q : List Instr} {z : Fuses}

theorem is_iff {s t : State} (h : ∀ q z, Is q z s → Is q z t) : Is q z t ↔ Is q z s := by
  obtain ⟨h1, h2⟩ := h s.pending s.fuses ⟨rfl, rfl⟩
  simp [Is, h1, h2]

theorem isO_next (t : State) : IsO q z (.next t) ↔ Is q z t := by
  simp [IsO]

theorem is_ite {c : Prop} [Decidable c] {a b : State} (hb : Is q z b)
    (ha : Is q z b → Is q z a) : Is q z (if c then a else b) := by
  split
  · exact ha hb
  · exact hb

theorem isO_ite {c : Prop} [Decidable c] {a b : Host.Outcome State Fault Refusal} (ha : IsO q z a)
    (hb : IsO q z b) : IsO q z (if c then a else b) := by
  split <;> assumption

theorem is_ite_snd {α : Type} {c : Prop} [Decidable c] {a b : α × State} (ha : Is q z a.2)
    (hb : Is q z b.2) : Is q z (if c then a else b).2 := by
  split <;> assumption

theorem is_step {x : State} {p : Prop} (hx : Is q z x) (h : Is q z x → p) : p := h hx

theorem is_fun {x : State → State} {p : Prop} (hx : ∀ s, Is q z s → Is q z (x s))
    (h : (∀ s, Is q z s → Is q z (x s)) → p) : p := h hx

theorem is_mk (x0 : Reeve) (x1 : Cellar) (x2 : Chain) (x3 : Ingest) (x4 : ActUnit) (x5 : Writer) (x6 : Tab Cell)
    (x7 : Steward) (x8 : Trace) (x9 : Jtag) (x10 : Fabric) (x11 : Time) (x12 : Setup) (x13 : HostIf) (x14 : Watch)
    (x15 : AlwaysOn) (x16 : Fuses) (x17 : Power) (x18 : Board) (x19 : List Output) (x20 : Nat) (x21 : List Instr) :
    Is q z (.mk x0 x1 x2 x3 x4 x5 x6 x7 x8 x9 x10 x11 x12 x13 x14 x15 x16 x17 x18 x19 x20 x21)
      ↔ x21 = q ∧ x16 = z := Iff.rfl

theorem is_snd {α : Type} {e : α × State} {a : α} {s : State} (h : e = (a, s)) (he : Is q z e.2) :
    Is q z s := by
  subst h; exact he

theorem is_foldl {β : Type} {g : State → β → State} {l : List β} {s : State}
    (h : ∀ s b, Is q z s → Is q z (g s b)) (hs : Is q z s) : Is q z (l.foldl g s) := by
  induction l generalizing s with
  | nil => exact hs
  | cons b l ih => exact ih (h s b hs)

theorem is_foldl_fst {α β : Type} {g : State × α → β → State × α} {l : List β} {a : State × α}
    (h : ∀ a b, Is q z a.1 → Is q z (g a b).1) (hs : Is q z a.1) : Is q z (l.foldl g a).1 := by
  induction l generalizing a with
  | nil => exact hs
  | cons b l ih => exact ih (h a b hs)

theorem is_foldl_snd {α β : Type} {g : α × State → β → α × State} {l : List β} {a : α × State}
    (h : ∀ a b, Is q z a.2 → Is q z (g a b).2) (hs : Is q z a.2) : Is q z (l.foldl g a).2 := by
  induction l generalizing a with
  | nil => exact hs
  | cons b l ih => exact ih (h a b hs)

end Sys2Proof.Machine
end

