-- ==== Sys2Proof/Laws/KeepOps.lean ====
section
/-! SUPPORT. No operation of Ops touches the command queue, and none but the burning of fuses
touches the fuses. -/

set_option linter.all false

namespace Sys2Proof.Machine

variable {q : List Instr} {z : Fuses}

theorem State.elapse_keeps : ∀ x0 s, Is q z (State.elapse x0 s) ↔ Is q z s := by
  intro x0 s; refine is_iff fun q z hs => ?_
  unfold State.elapse
  conv => arg 3; zeta
  repeat'
    first
    | with_reducible assumption
    | (simp -zeta only [↓is_mk]; try change Is q z _)

theorem State.reach_keeps : ∀ x0 s, Is q z (State.reach x0 s) ↔ Is q z s := by
  intro x0 s; refine is_iff fun q z hs => ?_
  unfold State.reach
  conv => arg 3; zeta
  repeat'
    first
    | with_reducible assumption
    | (simp -zeta only [↓is_mk, ↓State.elapse_keeps]; try change Is q z _)

theorem State.reachT64_keeps : ∀ x0 s, Is q z (State.reachT64 x0 s) ↔ Is q z s := by
  intro x0 s; refine is_iff fun q z hs => ?_
  unfold State.reachT64
  conv => arg 3; zeta
  repeat'
    first
    | with_reducible assumption
    | (simp -zeta only [↓is_mk, ↓State.elapse_keeps]; try change Is q z _)
    | (with_reducible refine is_ite ?_ ?_; rotate_left; intro h; try simp -zeta only [↓is_mk, ↓State.elapse_keeps] at h)
    | split

theorem State.emit_keeps : ∀ x0 s, Is q z (State.emit x0 s) ↔ Is q z s := by
  intro x0 s; refine is_iff fun q z hs => ?_
  unfold State.emit
  conv => arg 3; zeta
  repeat'
    first
    | with_reducible assumption
    | (simp -zeta only [↓is_mk]; try change Is q z _)

theorem State.draw_keeps : ∀ s, Is q z (State.draw s).2 ↔ Is q z s := by
  intro s; refine is_iff fun q z hs => ?_
  unfold State.draw
  conv => arg 3; zeta
  repeat'
    first
    | with_reducible assumption
    | (simp -zeta only [↓is_mk]; try change Is q z _)

theorem State.hostBump_keeps : ∀ x0 s x2, Is q z (State.hostBump x0 s x2) ↔ Is q z s := by
  intro x0 s x2; refine is_iff fun q z hs => ?_
  unfold State.hostBump
  conv => arg 3; zeta
  repeat'
    first
    | with_reducible assumption
    | (simp -zeta only [↓is_mk]; try change Is q z _)

theorem State.watchBump_keeps : ∀ x0 s x2, Is q z (State.watchBump x0 s x2) ↔ Is q z s := by
  intro x0 s x2; refine is_iff fun q z hs => ?_
  unfold State.watchBump
  conv => arg 3; zeta
  repeat'
    first
    | with_reducible assumption
    | (simp -zeta only [↓is_mk]; try change Is q z _)

theorem State.aonBump_keeps : ∀ x0 s x2, Is q z (State.aonBump x0 s x2) ↔ Is q z s := by
  intro x0 s x2; refine is_iff fun q z hs => ?_
  unfold State.aonBump
  conv => arg 3; zeta
  repeat'
    first
    | with_reducible assumption
    | (simp -zeta only [↓is_mk]; try change Is q z _)

theorem State.fabBump_keeps : ∀ x0 s x2, Is q z (State.fabBump x0 s x2) ↔ Is q z s := by
  intro x0 s x2; refine is_iff fun q z hs => ?_
  unfold State.fabBump
  conv => arg 3; zeta
  repeat'
    first
    | with_reducible assumption
    | (simp -zeta only [↓is_mk]; try change Is q z _)

theorem State.fabStat_keeps : ∀ x0 x1 x2 s, Is q z (State.fabStat x0 x1 x2 s) ↔ Is q z s := by
  intro x0 x1 x2 s; refine is_iff fun q z hs => ?_
  unfold State.fabStat
  conv => arg 3; zeta
  repeat'
    first
    | with_reducible assumption
    | (simp -zeta only [↓is_mk]; try change Is q z _)
    | (with_reducible refine is_ite ?_ ?_; rotate_left; intro h; try simp -zeta only [↓is_mk] at h)
    | split

theorem State.postEventAt_keeps : ∀ s x1 x2 x3 x4 x5 x6 x7, Is q z (State.postEventAt s x1 x2 x3 x4 x5 x6 x7) ↔ Is q z s := by
  intro s x1 x2 x3 x4 x5 x6 x7; refine is_iff fun q z hs => ?_
  unfold State.postEventAt
  conv => arg 3; zeta
  repeat'
    first
    | with_reducible assumption
    | (simp -zeta only [↓is_mk, ↓State.hostBump_keeps]; try change Is q z _)
    | (with_reducible refine is_ite ?_ ?_; rotate_left; intro h; try simp -zeta only [↓is_mk, ↓State.hostBump_keeps] at h)
    | (split <;> try (rename_i h; refine is_step (is_snd (q := q) (z := z) h ?_) (fun hs => ?_); rotate_left; clear h))
    | split

theorem State.postEvent_keeps : ∀ s x1 x2 x3 x4 x5 x6, Is q z (State.postEvent s x1 x2 x3 x4 x5 x6) ↔ Is q z s := by
  intro s x1 x2 x3 x4 x5 x6; refine is_iff fun q z hs => ?_
  unfold State.postEvent
  conv => arg 3; zeta
  repeat'
    first
    | with_reducible assumption
    | (simp -zeta only [↓is_mk, ↓State.postEventAt_keeps]; try change Is q z _)

theorem State.detect_keeps : ∀ s x1 x2 x3, Is q z (State.detect s x1 x2 x3) ↔ Is q z s := by
  intro s x1 x2 x3; refine is_iff fun q z hs => ?_
  unfold State.detect
  conv => arg 3; zeta
  repeat'
    first
    | with_reducible assumption
    | (simp -zeta only [↓is_mk]; try change Is q z _)
    | (with_reducible refine is_ite ?_ ?_; rotate_left; intro h; try simp -zeta only [↓is_mk] at h)
    | split

theorem State.endLevel_keeps : ∀ s x1 x2, Is q z (State.endLevel s x1 x2) ↔ Is q z s := by
  intro s x1 x2; refine is_iff fun q z hs => ?_
  unfold State.endLevel
  conv => arg 3; zeta
  repeat'
    first
    | with_reducible assumption
    | (simp -zeta only [↓is_mk, ↓State.postEvent_keeps]; try change Is q z _)
    | (with_reducible refine is_ite ?_ ?_; rotate_left; intro h; try simp -zeta only [↓is_mk, ↓State.postEvent_keeps] at h)
    | split

theorem State.modCell_keeps : ∀ x0 x1 s, Is q z (State.modCell x0 x1 s) ↔ Is q z s := by
  intro x0 x1 s; refine is_iff fun q z hs => ?_
  unfold State.modCell
  conv => arg 3; zeta
  repeat'
    first
    | with_reducible assumption
    | (simp -zeta only [↓is_mk]; try change Is q z _)

theorem State.palBump_keeps : ∀ x0 x1 s x3, Is q z (State.palBump x0 x1 s x3) ↔ Is q z s := by
  intro x0 x1 s x3; refine is_iff fun q z hs => ?_
  unfold State.palBump
  conv => arg 3; zeta
  repeat'
    first
    | with_reducible assumption
    | (simp -zeta only [↓is_mk, ↓State.modCell_keeps]; try change Is q z _)

theorem State.queBump_keeps : ∀ x0 x1 s x3, Is q z (State.queBump x0 x1 s x3) ↔ Is q z s := by
  intro x0 x1 s x3; refine is_iff fun q z hs => ?_
  unfold State.queBump
  conv => arg 3; zeta
  repeat'
    first
    | with_reducible assumption
    | (simp -zeta only [↓is_mk, ↓State.modCell_keeps]; try change Is q z _)

theorem State.engBump_keeps : ∀ x0 x1 s x3, Is q z (State.engBump x0 x1 s x3) ↔ Is q z s := by
  intro x0 x1 s x3; refine is_iff fun q z hs => ?_
  unfold State.engBump
  conv => arg 3; zeta
  repeat'
    first
    | with_reducible assumption
    | (simp -zeta only [↓is_mk, ↓State.modCell_keeps]; try change Is q z _)

theorem State.cellEvent_keeps : ∀ x0 x1 x2 s, Is q z (State.cellEvent x0 x1 x2 s) ↔ Is q z s := by
  intro x0 x1 x2 s; refine is_iff fun q z hs => ?_
  unfold State.cellEvent
  conv => arg 3; zeta
  repeat'
    first
    | with_reducible assumption
    | (simp -zeta only [↓is_mk, ↓State.modCell_keeps, ↓State.postEvent_keeps]; try change Is q z _)
    | (with_reducible refine is_ite ?_ ?_; rotate_left; intro h; try simp -zeta only [↓is_mk, ↓State.modCell_keeps, ↓State.postEvent_keeps] at h)
    | split

theorem State.palBumpEv_keeps : ∀ x0 x1 x2 s, Is q z (State.palBumpEv x0 x1 x2 s) ↔ Is q z s := by
  intro x0 x1 x2 s; refine is_iff fun q z hs => ?_
  unfold State.palBumpEv
  conv => arg 3; zeta
  repeat'
    first
    | with_reducible assumption
    | (simp -zeta only [↓is_mk, ↓State.cellEvent_keeps, ↓State.palBump_keeps]; try change Is q z _)

theorem State.cellMemFault_keeps : ∀ x0 x1 s, Is q z (State.cellMemFault x0 x1 s) ↔ Is q z s := by
  intro x0 x1 s; refine is_iff fun q z hs => ?_
  unfold State.cellMemFault
  conv => arg 3; zeta
  repeat'
    first
    | with_reducible assumption
    | (simp -zeta only [↓is_mk, ↓State.detect_keeps]; try change Is q z _)

theorem State.reeveBump_keeps : ∀ x0 s x2, Is q z (State.reeveBump x0 s x2) ↔ Is q z s := by
  intro x0 s x2; refine is_iff fun q z hs => ?_
  unfold State.reeveBump
  conv => arg 3; zeta
  repeat'
    first
    | with_reducible assumption
    | (simp -zeta only [↓is_mk]; try change Is q z _)

theorem State.cellarBump_keeps : ∀ x0 s x2, Is q z (State.cellarBump x0 s x2) ↔ Is q z s := by
  intro x0 s x2; refine is_iff fun q z hs => ?_
  unfold State.cellarBump
  conv => arg 3; zeta
  repeat'
    first
    | with_reducible assumption
    | (simp -zeta only [↓is_mk]; try change Is q z _)

theorem State.portBump_keeps : ∀ x0 x1 s x3, Is q z (State.portBump x0 x1 s x3) ↔ Is q z s := by
  intro x0 x1 s x3; refine is_iff fun q z hs => ?_
  unfold State.portBump
  conv => arg 3; zeta
  repeat'
    first
    | with_reducible assumption
    | (simp -zeta only [↓is_mk]; try change Is q z _)
    | (with_reducible refine is_ite ?_ ?_; rotate_left; intro h; try simp -zeta only [↓is_mk] at h)
    | split

theorem State.bindBump_keeps : ∀ x0 x1 s x3, Is q z (State.bindBump x0 x1 s x3) ↔ Is q z s := by
  intro x0 x1 s x3; refine is_iff fun q z hs => ?_
  unfold State.bindBump
  conv => arg 3; zeta
  repeat'
    first
    | with_reducible assumption
    | (simp -zeta only [↓is_mk]; try change Is q z _)

theorem State.evBump_keeps : ∀ x0 x1 s x3, Is q z (State.evBump x0 x1 s x3) ↔ Is q z s := by
  intro x0 x1 s x3; refine is_iff fun q z hs => ?_
  unfold State.evBump
  conv => arg 3; zeta
  repeat'
    first
    | with_reducible assumption
    | (simp -zeta only [↓is_mk]; try change Is q z _)

theorem State.varnBump_keeps : ∀ x0 s x2, Is q z (State.varnBump x0 s x2) ↔ Is q z s := by
  intro x0 s x2; refine is_iff fun q z hs => ?_
  unfold State.varnBump
  conv => arg 3; zeta
  repeat'
    first
    | with_reducible assumption
    | (simp -zeta only [↓is_mk]; try change Is q z _)

theorem State.modCtx_keeps : ∀ x0 x1 s, Is q z (State.modCtx x0 x1 s) ↔ Is q z s := by
  intro x0 x1 s; refine is_iff fun q z hs => ?_
  unfold State.modCtx
  conv => arg 3; zeta
  repeat'
    first
    | with_reducible assumption
    | (simp -zeta only [↓is_mk]; try change Is q z _)

theorem State.trigger_keeps : ∀ s x1, Is q z (State.trigger s x1) ↔ Is q z s := by
  intro s x1; refine is_iff fun q z hs => ?_
  unfold State.trigger
  conv => arg 3; zeta
  repeat'
    first
    | with_reducible assumption
    | (simp -zeta only [↓is_mk]; try change Is q z _)
    | (with_reducible refine is_ite ?_ ?_; rotate_left; intro h; try simp -zeta only [↓is_mk] at h)
    | with_reducible refine is_foldl (fun s b hs => ?_) ?_
    | split

theorem State.launch_keeps : ∀ x0 x1 x2 s, Is q z (State.launch x0 x1 x2 s) ↔ Is q z s := by
  intro x0 x1 x2 s; refine is_iff fun q z hs => ?_
  unfold State.launch
  conv => arg 3; zeta
  repeat'
    first
    | with_reducible assumption
    | (simp -zeta only [↓is_mk, ↓State.fabStat_keeps]; try change Is q z _)
    | (split <;> try (rename_i h; refine is_step (is_snd (q := q) (z := z) h ?_) (fun hs => ?_); rotate_left; clear h))
    | split

theorem State.land_keeps : ∀ x0 x1 s, Is q z (State.land x0 x1 s) ↔ Is q z s := by
  intro x0 x1 s; refine is_iff fun q z hs => ?_
  unfold State.land
  conv => arg 3; zeta
  repeat'
    first
    | with_reducible assumption
    | (simp -zeta only [↓is_mk]; try change Is q z _)

theorem State.sendCtl_keeps : ∀ s x1, Is q z (State.sendCtl s x1) ↔ Is q z s := by
  intro s x1; refine is_iff fun q z hs => ?_
  unfold State.sendCtl
  conv => arg 3; zeta
  repeat'
    first
    | with_reducible assumption
    | (simp -zeta only [↓is_mk, ↓State.launch_keeps]; try change Is q z _)

theorem State.takeCtl_keeps : ∀ s x1, Is q z (State.takeCtl s x1) ↔ Is q z s := by
  intro s x1; refine is_iff fun q z hs => ?_
  unfold State.takeCtl
  conv => arg 3; zeta
  repeat'
    first
    | with_reducible assumption
    | (simp -zeta only [↓is_mk, ↓State.land_keeps]; try change Is q z _)

theorem State.returnCredit_keeps : ∀ s x1 x2 x3 x4, Is q z (State.returnCredit s x1 x2 x3 x4) ↔ Is q z s := by
  intro s x1 x2 x3 x4; refine is_iff fun q z hs => ?_
  unfold State.returnCredit
  conv => arg 3; zeta
  repeat'
    first
    | with_reducible assumption
    | (simp -zeta only [↓is_mk]; try change Is q z _)
    | (with_reducible refine is_ite ?_ ?_; rotate_left; intro h; try simp -zeta only [↓is_mk] at h)
    | split

theorem State.cellReturn_keeps : ∀ s x1 x2 x3 x4 x5, Is q z (State.cellReturn s x1 x2 x3 x4 x5) ↔ Is q z s := by
  intro s x1 x2 x3 x4 x5; refine is_iff fun q z hs => ?_
  unfold State.cellReturn
  conv => arg 3; zeta
  repeat'
    first
    | with_reducible assumption
    | (simp -zeta only [↓is_mk, ↓State.returnCredit_keeps]; try change Is q z _)
    | (with_reducible refine is_ite ?_ ?_; rotate_left; intro h; try simp -zeta only [↓is_mk, ↓State.returnCredit_keeps] at h)
    | split

theorem State.inject_keeps : ∀ s x1 x2 x3, Is q z (State.inject s x1 x2 x3) ↔ Is q z s := by
  intro s x1 x2 x3; refine is_iff fun q z hs => ?_
  unfold State.inject
  conv => arg 3; zeta
  repeat'
    first
    | with_reducible assumption
    | (simp -zeta only [↓is_mk, ↓State.launch_keeps]; try change Is q z _)

theorem State.takeFlight_keeps : ∀ s x1 x2, Is q z (State.takeFlight s x1 x2) ↔ Is q z s := by
  intro s x1 x2; refine is_iff fun q z hs => ?_
  unfold State.takeFlight
  conv => arg 3; zeta
  repeat'
    first
    | with_reducible assumption
    | (simp -zeta only [↓is_mk, ↓State.land_keeps]; try change Is q z _)

theorem State.setCredit_keeps : ∀ s x1 x2 x3 x4, Is q z (State.setCredit s x1 x2 x3 x4) ↔ Is q z s := by
  intro s x1 x2 x3 x4; refine is_iff fun q z hs => ?_
  unfold State.setCredit
  conv => arg 3; zeta
  repeat'
    first
    | with_reducible assumption
    | (simp -zeta only [↓is_mk, ↓State.modCell_keeps]; try change Is q z _)
    | (with_reducible refine is_ite ?_ ?_; rotate_left; intro h; try simp -zeta only [↓is_mk, ↓State.modCell_keeps] at h)
    | split

theorem State.askCredit_keeps : ∀ s x1 x2 x3 x4, Is q z (State.askCredit s x1 x2 x3 x4) ↔ Is q z s := by
  intro s x1 x2 x3 x4; refine is_iff fun q z hs => ?_
  unfold State.askCredit
  conv => arg 3; zeta
  repeat'
    first
    | with_reducible assumption
    | (simp -zeta only [↓is_mk, ↓State.modCell_keeps, ↓State.sendCtl_keeps]; try change Is q z _)
    | (with_reducible refine is_ite ?_ ?_; rotate_left; intro h; try simp -zeta only [↓is_mk, ↓State.modCell_keeps, ↓State.sendCtl_keeps] at h)
    | split

theorem State.spendHub_keeps : ∀ s x1 x2 x3, Is q z (State.spendHub s x1 x2 x3) ↔ Is q z s := by
  intro s x1 x2 x3; refine is_iff fun q z hs => ?_
  unfold State.spendHub
  conv => arg 3; zeta
  repeat'
    first
    | with_reducible assumption
    | (simp -zeta only [↓is_mk, ↓State.askCredit_keeps, ↓State.setCredit_keeps]; try change Is q z _)
    | (with_reducible refine is_ite ?_ ?_; rotate_left; intro h; try simp -zeta only [↓is_mk, ↓State.askCredit_keeps, ↓State.setCredit_keeps] at h)
    | split

theorem State.acceptFlight_keeps : ∀ s x1 x2 x3, Is q z (State.acceptFlight s x1 x2 x3) ↔ Is q z s := by
  intro s x1 x2 x3; refine is_iff fun q z hs => ?_
  unfold State.acceptFlight
  conv => arg 3; zeta
  repeat'
    first
    | with_reducible assumption
    | (simp -zeta only [↓is_mk, ↓State.returnCredit_keeps, ↓State.takeFlight_keeps]; try change Is q z _)

theorem State.complete_keeps : ∀ s x1 x2 x3 x4 x5 x6 x7, Is q z (State.complete s x1 x2 x3 x4 x5 x6 x7) ↔ Is q z s := by
  intro s x1 x2 x3 x4 x5 x6 x7; refine is_iff fun q z hs => ?_
  unfold State.complete
  conv => arg 3; zeta
  repeat'
    first
    | with_reducible assumption
    | (simp -zeta only [↓is_mk, ↓State.hostBump_keeps]; try change Is q z _)
    | (with_reducible refine is_ite ?_ ?_; rotate_left; intro h; try simp -zeta only [↓is_mk, ↓State.hostBump_keeps] at h)
    | split

theorem State.completeWhere_keeps : ∀ s x1 x2 x3, Is q z (State.completeWhere s x1 x2 x3) ↔ Is q z s := by
  intro s x1 x2 x3; refine is_iff fun q z hs => ?_
  unfold State.completeWhere
  conv => arg 3; zeta
  repeat'
    first
    | with_reducible assumption
    | (simp -zeta only [↓is_mk, ↓State.complete_keeps]; try change Is q z _)
    | with_reducible refine is_foldl (fun s b hs => ?_) ?_

end Sys2Proof.Machine
end

