-- ==== Sys2Proof/Laws/KeepQueue.lean ====
section
/-! SUPPORT. No operation of Queue touches the command queue, and none but the burning of fuses
touches the fuses. -/

set_option linter.all false

namespace Sys2Proof.Machine

variable {q : List Instr} {z : Fuses}

theorem State.setFull_keeps : ∀ s x1 x2, Is q z (State.setFull s x1 x2) ↔ Is q z s := by
  intro s x1 x2; refine is_iff fun q z hs => ?_
  unfold State.setFull
  conv => arg 3; zeta
  repeat'
    first
    | with_reducible assumption
    | (simp -zeta only [↓is_mk, ↓State.modCell_keeps, ↓State.queBump_keeps]; try change Is q z _)
    | (with_reducible refine is_ite ?_ ?_; rotate_left; intro h; try simp -zeta only [↓is_mk, ↓State.modCell_keeps, ↓State.queBump_keeps] at h)
    | split

theorem State.commitPacket_keeps : ∀ s x1 x2, Is q z (State.commitPacket s x1 x2) ↔ Is q z s := by
  intro s x1 x2; refine is_iff fun q z hs => ?_
  unfold State.commitPacket
  conv => arg 3; zeta
  repeat'
    first
    | with_reducible assumption
    | (simp -zeta only [↓is_mk, ↓State.modCell_keeps, ↓State.setFull_keeps]; try change Is q z _)
    | (with_reducible refine is_ite ?_ ?_; rotate_left; intro h; try simp -zeta only [↓is_mk, ↓State.modCell_keeps, ↓State.setFull_keeps] at h)
    | split

theorem State.writePacket_keeps : ∀ s x1 x2 x3 x4, Is q z (State.writePacket s x1 x2 x3 x4).2 ↔ Is q z s := by
  intro s x1 x2 x3 x4; refine is_iff fun q z hs => ?_
  unfold State.writePacket
  conv => arg 3; zeta
  repeat'
    first
    | with_reducible assumption
    | (simp -zeta only [↓is_mk, ↓State.cellMemFault_keeps, ↓State.commitPacket_keeps, ↓State.queBump_keeps, ↓State.setFull_keeps]; try change Is q z _)
    | (with_reducible refine is_ite ?_ ?_; rotate_left; intro h; try simp -zeta only [↓is_mk, ↓State.cellMemFault_keeps, ↓State.commitPacket_keeps, ↓State.queBump_keeps, ↓State.setFull_keeps] at h)
    | (with_reducible refine is_ite_snd ?_ ?_)
    | (split <;> try (rename_i h; refine is_step (is_snd (q := q) (z := z) h ?_) (fun hs => ?_); rotate_left; clear h))
    | split

theorem State.requestItem_keeps : ∀ s x1, Is q z (State.requestItem s x1) ↔ Is q z s := by
  intro s x1; refine is_iff fun q z hs => ?_
  unfold State.requestItem
  conv => arg 3; zeta
  repeat'
    first
    | with_reducible assumption
    | (simp -zeta only [↓is_mk, ↓State.modCell_keeps, ↓State.queBump_keeps]; try change Is q z _)
    | (with_reducible refine is_ite ?_ ?_; rotate_left; intro h; try simp -zeta only [↓is_mk, ↓State.modCell_keeps, ↓State.queBump_keeps] at h)
    | split

theorem State.tallyAdd_keeps : ∀ s x1 x2 x3, Is q z (State.tallyAdd s x1 x2 x3) ↔ Is q z s := by
  intro s x1 x2 x3; refine is_iff fun q z hs => ?_
  unfold State.tallyAdd
  conv => arg 3; zeta
  repeat'
    first
    | with_reducible assumption
    | (simp -zeta only [↓is_mk, ↓State.modCell_keeps]; try change Is q z _)

theorem State.tallySub_keeps : ∀ s x1 x2 x3 x4, Is q z (State.tallySub s x1 x2 x3 x4) ↔ Is q z s := by
  intro s x1 x2 x3 x4; refine is_iff fun q z hs => ?_
  unfold State.tallySub
  conv => arg 3; zeta
  repeat'
    first
    | with_reducible assumption
    | (simp -zeta only [↓is_mk, ↓State.modCell_keeps]; try change Is q z _)

theorem State.tallyOut_keeps : ∀ s x1 x2, Is q z (State.tallyOut s x1 x2) ↔ Is q z s := by
  intro s x1 x2; refine is_iff fun q z hs => ?_
  unfold State.tallyOut
  conv => arg 3; zeta
  repeat'
    first
    | with_reducible assumption
    | (simp -zeta only [↓is_mk, ↓State.tallySub_keeps]; try change Is q z _)
    | with_reducible refine is_foldl (fun s b hs => ?_) ?_

theorem State.orphan_keeps : ∀ s x1, Is q z (State.orphan s x1) ↔ Is q z s := by
  intro s x1; refine is_iff fun q z hs => ?_
  unfold State.orphan
  conv => arg 3; zeta
  repeat'
    first
    | with_reducible assumption
    | (simp -zeta only [↓is_mk, ↓State.modCtx_keeps]; try change Is q z _)

theorem State.sideband_keeps : ∀ s x1 x2 x3, Is q z (State.sideband s x1 x2 x3) ↔ Is q z s := by
  intro s x1 x2 x3; refine is_iff fun q z hs => ?_
  unfold State.sideband
  conv => arg 3; zeta
  repeat'
    first
    | with_reducible assumption
    | (simp -zeta only [↓is_mk, ↓State.cellMemFault_keeps, ↓State.cellReturn_keeps, ↓State.orphan_keeps, ↓State.queBump_keeps]; try change Is q z _)
    | (with_reducible refine is_ite ?_ ?_; rotate_left; intro h; try simp -zeta only [↓is_mk, ↓State.cellMemFault_keeps, ↓State.cellReturn_keeps, ↓State.orphan_keeps, ↓State.queBump_keeps] at h)
    | split

theorem State.dropPacket_keeps : ∀ s x1 x2 x3, Is q z (State.dropPacket s x1 x2 x3) ↔ Is q z s := by
  intro s x1 x2 x3; refine is_iff fun q z hs => ?_
  unfold State.dropPacket
  conv => arg 3; zeta
  repeat'
    first
    | with_reducible assumption
    | (simp -zeta only [↓is_mk, ↓State.sideband_keeps, ↓State.tallyOut_keeps]; try change Is q z _)

theorem State.backToM_keeps : ∀ s x1, Is q z (State.backToM s x1) ↔ Is q z s := by
  intro s x1; refine is_iff fun q z hs => ?_
  unfold State.backToM
  conv => arg 3; zeta
  repeat'
    first
    | with_reducible assumption
    | (simp -zeta only [↓is_mk, ↓State.modCell_keeps]; try change Is q z _)

theorem State.flush_keeps : ∀ s x1 x2 x3 x4, Is q z (State.flush s x1 x2 x3 x4) ↔ Is q z s := by
  intro s x1 x2 x3 x4; refine is_iff fun q z hs => ?_
  unfold State.flush
  conv => arg 3; zeta
  repeat'
    first
    | with_reducible assumption
    | (simp -zeta only [↓is_mk, ↓State.backToM_keeps, ↓State.dropPacket_keeps, ↓State.modCell_keeps, ↓State.queBump_keeps]; try change Is q z _)
    | (with_reducible refine is_ite ?_ ?_; rotate_left; intro h; try simp -zeta only [↓is_mk, ↓State.backToM_keeps, ↓State.dropPacket_keeps, ↓State.modCell_keeps, ↓State.queBump_keeps] at h)
    | with_reducible refine is_foldl (fun s b hs => ?_) ?_
    | split

end Sys2Proof.Machine
end

