-- ==== Sys2Proof/Laws/KeepPalette.lean ====
section
/-! SUPPORT. No operation of Palette touches the command queue, and none but the burning of fuses
touches the fuses. -/

set_option linter.all false

namespace Sys2Proof.Machine

variable {q : List Instr} {z : Fuses}

theorem State.modPal_keeps : ∀ s x1 x2, Is q z (State.modPal s x1 x2) ↔ Is q z s := by
  intro s x1 x2; refine is_iff fun q z hs => ?_
  unfold State.modPal
  conv => arg 3; zeta
  repeat'
    first
    | with_reducible assumption
    | (simp -zeta only [↓is_mk, ↓State.modCell_keeps]; try change Is q z _)

theorem State.discardEntry_keeps : ∀ s x1 x2, Is q z (State.discardEntry s x1 x2) ↔ Is q z s := by
  intro s x1 x2; refine is_iff fun q z hs => ?_
  unfold State.discardEntry
  conv => arg 3; zeta
  repeat'
    first
    | with_reducible assumption
    | (simp -zeta only [↓is_mk, ↓State.cellReturn_keeps, ↓State.modPal_keeps, ↓State.tallySub_keeps]; try change Is q z _)
    | (with_reducible refine is_ite ?_ ?_; rotate_left; intro h; try simp -zeta only [↓is_mk, ↓State.cellReturn_keeps, ↓State.modPal_keeps, ↓State.tallySub_keeps] at h)
    | with_reducible refine is_foldl (fun s b hs => ?_) ?_
    | split

theorem State.discardToken_keeps : ∀ s x1 x2, Is q z (State.discardToken s x1 x2) ↔ Is q z s := by
  intro s x1 x2; refine is_iff fun q z hs => ?_
  unfold State.discardToken
  conv => arg 3; zeta
  repeat'
    first
    | with_reducible assumption
    | (simp -zeta only [↓is_mk, ↓State.cellReturn_keeps]; try change Is q z _)

theorem State.poisonPort_keeps : ∀ s x1 x2 x3 x4, Is q z (State.poisonPort s x1 x2 x3 x4) ↔ Is q z s := by
  intro s x1 x2 x3 x4; refine is_iff fun q z hs => ?_
  unfold State.poisonPort
  conv => arg 3; zeta
  repeat'
    first
    | with_reducible assumption
    | (simp -zeta only [↓is_mk, ↓State.cellMemFault_keeps, ↓State.modPal_keeps, ↓State.palBump_keeps]; try change Is q z _)
    | (split <;> try (rename_i h; refine is_step (is_snd (q := q) (z := z) h ?_) (fun hs => ?_); rotate_left; clear h))
    | split

theorem State.loseKey_keeps : ∀ s x1 x2, Is q z (State.loseKey s x1 x2) ↔ Is q z s := by
  intro s x1 x2; refine is_iff fun q z hs => ?_
  unfold State.loseKey
  conv => arg 3; zeta
  repeat'
    first
    | with_reducible assumption
    | (simp -zeta only [↓is_mk, ↓State.cellMemFault_keeps, ↓State.discardEntry_keeps, ↓State.modPal_keeps, ↓State.palBump_keeps]; try change Is q z _)
    | (with_reducible refine is_ite ?_ ?_; rotate_left; intro h; try simp -zeta only [↓is_mk, ↓State.cellMemFault_keeps, ↓State.discardEntry_keeps, ↓State.modPal_keeps, ↓State.palBump_keeps] at h)
    | split

theorem State.entryError_keeps : ∀ s x1 x2 x3, Is q z (State.entryError s x1 x2 x3) ↔ Is q z s := by
  intro s x1 x2 x3; refine is_iff fun q z hs => ?_
  unfold State.entryError
  conv => arg 3; zeta
  repeat'
    first
    | with_reducible assumption
    | (simp -zeta only [↓is_mk, ↓State.loseKey_keeps, ↓State.palBump_keeps, ↓State.poisonPort_keeps]; try change Is q z _)
    | (with_reducible refine is_ite ?_ ?_; rotate_left; intro h; try simp -zeta only [↓is_mk, ↓State.loseKey_keeps, ↓State.palBump_keeps, ↓State.poisonPort_keeps] at h)
    | (split <;> try (rename_i h; refine is_step (is_snd (q := q) (z := z) h ?_) (fun hs => ?_); rotate_left; clear h))
    | split

theorem State.readEntry_keeps : ∀ s x1 x2 x3, Is q z (State.readEntry s x1 x2 x3) ↔ Is q z s := by
  intro s x1 x2 x3; refine is_iff fun q z hs => ?_
  unfold State.readEntry
  conv => arg 3; zeta
  repeat'
    first
    | with_reducible assumption
    | (simp -zeta only [↓is_mk, ↓State.entryError_keeps]; try change Is q z _)
    | with_reducible refine is_foldl (fun s b hs => ?_) ?_

theorem State.readSet_keeps : ∀ s x1 x2 x3, Is q z (State.readSet s x1 x2 x3) ↔ Is q z s := by
  intro s x1 x2 x3; refine is_iff fun q z hs => ?_
  unfold State.readSet
  conv => arg 3; zeta
  repeat'
    first
    | with_reducible assumption
    | (simp -zeta only [↓is_mk, ↓State.entryError_keeps]; try change Is q z _)
    | with_reducible refine is_foldl (fun s b hs => ?_) ?_

theorem State.readItem_keeps : ∀ s x1 x2 x3, Is q z (State.readItem s x1 x2 x3) ↔ Is q z s := by
  intro s x1 x2 x3; refine is_iff fun q z hs => ?_
  unfold State.readItem
  conv => arg 3; zeta
  repeat'
    first
    | with_reducible assumption
    | (simp -zeta only [↓is_mk, ↓State.readEntry_keeps]; try change Is q z _)
    | (split <;> try (rename_i h; refine is_step (is_snd (q := q) (z := z) h ?_) (fun hs => ?_); rotate_left; clear h))
    | split

theorem State.offerLoop_keeps : ∀ x0 x1 x2 x3 s, Is q z (State.offerLoop x0 x1 x2 x3 s) ↔ Is q z s := by
  intro x0 x1 x2 x3 s; refine is_iff fun q z hs => ?_
  induction x2 generalizing x3 s with
  | nil => exact hs
  | cons a l ih =>
    simp only [State.offerLoop]
    split
    · exact ih _ _ hs
    · split
      · exact hs
      · split
        · split
          · exact ih _ _ hs
          · exact ih _ _ (by simpa only [State.modCell_keeps] using hs)
        · split <;> rename_i h
          · have hw := is_snd h (by simpa only [State.writePacket_keeps, State.readItem_keeps] using hs)
            exact ih _ _ (by simpa only [State.modPal_keeps] using hw)
          · have hw := is_snd h (by simpa only [State.writePacket_keeps, State.readItem_keeps] using hs)
            simpa only [State.modPal_keeps] using hw
          · exact is_snd h (by simpa only [State.writePacket_keeps, State.readItem_keeps] using hs)

theorem State.offerReady_keeps : ∀ s x1 x2, Is q z (State.offerReady s x1 x2) ↔ Is q z s := by
  intro s x1 x2; refine is_iff fun q z hs => ?_
  unfold State.offerReady
  conv => arg 3; zeta
  repeat'
    first
    | with_reducible assumption
    | (simp -zeta only [↓is_mk, ↓State.offerLoop_keeps]; try change Is q z _)

theorem State.makeReady_keeps : ∀ s x1 x2 x3, Is q z (State.makeReady s x1 x2 x3) ↔ Is q z s := by
  intro s x1 x2 x3; refine is_iff fun q z hs => ?_
  unfold State.makeReady
  conv => arg 3; zeta
  repeat'
    first
    | with_reducible assumption
    | (simp -zeta only [↓is_mk, ↓State.modPal_keeps, ↓State.offerReady_keeps, ↓State.palBumpEv_keeps]; try change Is q z _)
    | (with_reducible refine is_ite ?_ ?_; rotate_left; intro h; try simp -zeta only [↓is_mk, ↓State.modPal_keeps, ↓State.offerReady_keeps, ↓State.palBumpEv_keeps] at h)
    | split

theorem State.storeOperand_keeps : ∀ s x1 x2 x3 x4 x5 x6, Is q z (State.storeOperand s x1 x2 x3 x4 x5 x6) ↔ Is q z s := by
  intro s x1 x2 x3 x4 x5 x6; refine is_iff fun q z hs => ?_
  unfold State.storeOperand
  conv => arg 3; zeta
  repeat'
    first
    | with_reducible assumption
    | (simp -zeta only [↓is_mk, ↓State.makeReady_keeps, ↓State.modPal_keeps]; try change Is q z _)
    | (with_reducible refine is_ite ?_ ?_; rotate_left; intro h; try simp -zeta only [↓is_mk, ↓State.makeReady_keeps, ↓State.modPal_keeps] at h)
    | split

theorem State.freeStale_keeps : ∀ s x1 x2, Is q z (State.freeStale s x1 x2) ↔ Is q z s := by
  intro s x1 x2; refine is_iff fun q z hs => ?_
  unfold State.freeStale
  conv => arg 3; zeta
  repeat'
    first
    | with_reducible assumption
    | (simp -zeta only [↓is_mk, ↓State.discardEntry_keeps, ↓State.palBump_keeps]; try change Is q z _)
    | (with_reducible refine is_ite ?_ ?_; rotate_left; intro h; try simp -zeta only [↓is_mk, ↓State.discardEntry_keeps, ↓State.palBump_keeps] at h)
    | with_reducible refine is_foldl (fun s b hs => ?_) ?_
    | split

theorem State.startSpill_keeps : ∀ s x1 x2, Is q z (State.startSpill s x1 x2) ↔ Is q z s := by
  intro s x1 x2; refine is_iff fun q z hs => ?_
  unfold State.startSpill
  conv => arg 3; zeta
  repeat'
    first
    | with_reducible assumption
    | (simp -zeta only [↓is_mk, ↓State.modPal_keeps]; try change Is q z _)
    | (with_reducible refine is_ite ?_ ?_; rotate_left; intro h; try simp -zeta only [↓is_mk, ↓State.modPal_keeps] at h)
    | split

theorem State.pressed_keeps : ∀ s x1 x2 x3, Is q z (State.pressed s x1 x2 x3).2 ↔ Is q z s := by
  intro s x1 x2 x3; refine is_iff fun q z hs => ?_
  unfold State.pressed
  conv => arg 3; zeta
  repeat'
    first
    | with_reducible assumption
    | (simp -zeta only [↓is_mk, ↓State.palBump_keeps, ↓State.startSpill_keeps]; try change Is q z _)
    | (with_reducible refine is_ite ?_ ?_; rotate_left; intro h; try simp -zeta only [↓is_mk, ↓State.palBump_keeps, ↓State.startSpill_keeps] at h)
    | (with_reducible refine is_ite_snd ?_ ?_)
    | split

theorem State.lookHit_keeps : ∀ s x1 x2 x3 x4 x5 x6, Is q z (State.lookHit s x1 x2 x3 x4 x5 x6).2 ↔ Is q z s := by
  intro s x1 x2 x3 x4 x5 x6; refine is_iff fun q z hs => ?_
  unfold State.lookHit
  conv => arg 3; zeta
  repeat'
    first
    | with_reducible assumption
    | (simp -zeta only [↓is_mk, ↓State.discardToken_keeps, ↓State.modPal_keeps, ↓State.palBump_keeps, ↓State.palBumpEv_keeps, ↓State.startSpill_keeps, ↓State.storeOperand_keeps, ↓State.tallySub_keeps]; try change Is q z _)
    | (with_reducible refine is_ite ?_ ?_; rotate_left; intro h; try simp -zeta only [↓is_mk, ↓State.discardToken_keeps, ↓State.modPal_keeps, ↓State.palBump_keeps, ↓State.palBumpEv_keeps, ↓State.startSpill_keeps, ↓State.storeOperand_keeps, ↓State.tallySub_keeps] at h)
    | (with_reducible refine is_ite_snd ?_ ?_)
    | (split <;> try (rename_i h; refine is_step (is_snd (q := q) (z := z) h ?_) (fun hs => ?_); rotate_left; clear h))
    | split

theorem State.allocate_keeps : ∀ s x1 x2 x3 x4 x5 x6, Is q z (State.allocate s x1 x2 x3 x4 x5 x6) ↔ Is q z s := by
  intro s x1 x2 x3 x4 x5 x6; refine is_iff fun q z hs => ?_
  unfold State.allocate
  conv => arg 3; zeta
  repeat'
    first
    | with_reducible assumption
    | (simp -zeta only [↓is_mk, ↓State.storeOperand_keeps]; try change Is q z _)

theorem State.lookMiss_keeps : ∀ s x1 x2 x3 x4 x5 x6, Is q z (State.lookMiss s x1 x2 x3 x4 x5 x6).2 ↔ Is q z s := by
  intro s x1 x2 x3 x4 x5 x6; refine is_iff fun q z hs => ?_
  unfold State.lookMiss
  conv => arg 3; zeta
  repeat'
    first
    | with_reducible assumption
    | (simp -zeta only [↓is_mk, ↓State.allocate_keeps, ↓State.palBump_keeps, ↓State.pressed_keeps]; try change Is q z _)
    | (with_reducible refine is_ite ?_ ?_; rotate_left; intro h; try simp -zeta only [↓is_mk, ↓State.allocate_keeps, ↓State.palBump_keeps, ↓State.pressed_keeps] at h)
    | (with_reducible refine is_ite_snd ?_ ?_)
    | (split <;> try (rename_i h; refine is_step (is_snd (q := q) (z := z) h ?_) (fun hs => ?_); rotate_left; clear h))
    | split

theorem State.lookup_keeps : ∀ s x1 x2 x3 x4 x5, Is q z (State.lookup s x1 x2 x3 x4 x5).2 ↔ Is q z s := by
  intro s x1 x2 x3 x4 x5; refine is_iff fun q z hs => ?_
  unfold State.lookup
  dsimp only
  split
  · simpa only [↓State.lookHit_keeps, ↓State.freeStale_keeps, ↓State.readSet_keeps] using hs
  · simpa only [↓State.lookMiss_keeps, ↓State.freeStale_keeps, ↓State.readSet_keeps] using hs

theorem State.askPagein_keeps : ∀ s x1 x2, Is q z (State.askPagein s x1 x2) ↔ Is q z s := by
  intro s x1 x2; refine is_iff fun q z hs => ?_
  unfold State.askPagein
  conv => arg 3; zeta
  repeat'
    first
    | with_reducible assumption
    | (simp -zeta only [↓is_mk, ↓State.palBump_keeps]; try change Is q z _)
    | (with_reducible refine is_ite ?_ ?_; rotate_left; intro h; try simp -zeta only [↓is_mk, ↓State.palBump_keeps] at h)
    | split

theorem State.park_keeps : ∀ s x1 x2 x3, Is q z (State.park s x1 x2 x3) ↔ Is q z s := by
  intro s x1 x2 x3; refine is_iff fun q z hs => ?_
  unfold State.park
  conv => arg 3; zeta
  repeat'
    first
    | with_reducible assumption
    | (simp -zeta only [↓is_mk, ↓State.askPagein_keeps, ↓State.modPal_keeps, ↓State.palBumpEv_keeps, ↓State.trigger_keeps]; try change Is q z _)
    | (with_reducible refine is_ite ?_ ?_; rotate_left; intro h; try simp -zeta only [↓is_mk, ↓State.askPagein_keeps, ↓State.modPal_keeps, ↓State.palBumpEv_keeps, ↓State.trigger_keeps] at h)
    | (split <;> try (rename_i h; refine is_step (is_snd (q := q) (z := z) h ?_) (fun hs => ?_); rotate_left; clear h))
    | split

theorem State.failCheck_keeps : ∀ s x1 x2 x3 x4, Is q z (State.failCheck s x1 x2 x3 x4) ↔ Is q z s := by
  intro s x1 x2 x3 x4; refine is_iff fun q z hs => ?_
  unfold State.failCheck
  conv => arg 3; zeta
  repeat'
    first
    | with_reducible assumption
    | (simp -zeta only [↓is_mk, ↓State.discardToken_keeps, ↓State.palBump_keeps, ↓State.palBumpEv_keeps]; try change Is q z _)
    | (split <;> try (rename_i h; refine is_step (is_snd (q := q) (z := z) h ?_) (fun hs => ?_); rotate_left; clear h))
    | split

theorem State.arrive_keeps : ∀ s x1 x2 x3, Is q z (State.arrive s x1 x2 x3) ↔ Is q z s := by
  intro s x1 x2 x3; refine is_iff fun q z hs => ?_
  unfold State.arrive
  conv => arg 3; zeta
  repeat'
    first
    | with_reducible assumption
    | (simp -zeta only [↓is_mk, ↓State.failCheck_keeps, ↓State.lookup_keeps, ↓State.modPal_keeps, ↓State.offerReady_keeps, ↓State.park_keeps, ↓State.tallyAdd_keeps]; try change Is q z _)
    | (with_reducible refine is_ite ?_ ?_; rotate_left; intro h; try simp -zeta only [↓is_mk, ↓State.failCheck_keeps, ↓State.lookup_keeps, ↓State.modPal_keeps, ↓State.offerReady_keeps, ↓State.park_keeps, ↓State.tallyAdd_keeps] at h)
    | (split <;> try (rename_i h; refine is_step (is_snd (q := q) (z := z) h ?_) (fun hs => ?_); rotate_left; clear h))
    | split

theorem State.absorb_keeps : ∀ s x1 x2 x3, Is q z (State.absorb s x1 x2 x3) ↔ Is q z s := by
  intro s x1 x2 x3; refine is_iff fun q z hs => ?_
  unfold State.absorb
  conv => arg 3; zeta
  repeat'
    first
    | with_reducible assumption
    | (simp -zeta only [↓is_mk, ↓State.acceptFlight_keeps, ↓State.fabBump_keeps]; try change Is q z _)

theorem State.unitErr_keeps : ∀ s x1, Is q z (State.unitErr s x1) ↔ Is q z s := by
  intro s x1; refine is_iff fun q z hs => ?_
  unfold State.unitErr
  conv => arg 3; zeta
  repeat'
    first
    | with_reducible assumption
    | (simp -zeta only [↓is_mk, ↓State.fabBump_keeps]; try change Is q z _)

theorem State.ctlErr_keeps : ∀ s x1, Is q z (State.ctlErr s x1) ↔ Is q z s := by
  intro s x1; refine is_iff fun q z hs => ?_
  unfold State.ctlErr
  conv => arg 3; zeta
  repeat'
    first
    | with_reducible assumption
    | (simp -zeta only [↓is_mk, ↓State.unitErr_keeps]; try change Is q z _)

theorem State.markHeld_keeps : ∀ s x1 x2, Is q z (State.markHeld s x1 x2) ↔ Is q z s := by
  intro s x1 x2; refine is_iff fun q z hs => ?_
  unfold State.markHeld
  conv => arg 3; zeta
  repeat'
    first
    | with_reducible assumption
    | (simp -zeta only [↓is_mk]; try change Is q z _)
    | (with_reducible refine is_ite ?_ ?_; rotate_left; intro h; try simp -zeta only [↓is_mk] at h)
    | split

theorem State.holdAtPort_keeps : ∀ s x1 x2 x3, Is q z (State.holdAtPort s x1 x2 x3) ↔ Is q z s := by
  intro s x1 x2 x3; refine is_iff fun q z hs => ?_
  unfold State.holdAtPort
  conv => arg 3; zeta
  repeat'
    first
    | with_reducible assumption
    | (simp -zeta only [↓is_mk, ↓State.markHeld_keeps, ↓State.palBump_keeps]; try change Is q z _)
    | (with_reducible refine is_ite ?_ ?_; rotate_left; intro h; try simp -zeta only [↓is_mk, ↓State.markHeld_keeps, ↓State.palBump_keeps] at h)
    | split

theorem State.failWaiting_keeps : ∀ s x1 x2 x3 x4, Is q z (State.failWaiting s x1 x2 x3 x4) ↔ Is q z s := by
  intro s x1 x2 x3 x4; refine is_iff fun q z hs => ?_
  unfold State.failWaiting
  conv => arg 3; zeta
  repeat'
    first
    | with_reducible assumption
    | (simp -zeta only [↓is_mk, ↓State.failCheck_keeps, ↓State.tallySub_keeps]; try change Is q z _)
    | (with_reducible refine is_ite ?_ ?_; rotate_left; intro h; try simp -zeta only [↓is_mk, ↓State.failCheck_keeps, ↓State.tallySub_keeps] at h)
    | split

theorem State.holdLoop_keeps : ∀ x0 x1 x2 s, Is q z (State.holdLoop x0 x1 x2 s) ↔ Is q z s := by
  intro x0 x1 x2 s; refine is_iff fun q z hs => ?_
  induction x2 generalizing s with
  | nil => exact hs
  | cons t l ih =>
    simp only [State.holdLoop]
    split
    · simpa only [State.failWaiting_keeps, State.modPal_keeps] using hs
    · split
      · split <;> rename_i h
        · have hw := is_snd h (by simpa only [State.lookup_keeps] using hs)
          simpa only [State.modPal_keeps] using hw
        · exact is_snd h (by simpa only [State.lookup_keeps] using hs)
      · exact ih _ hs

theorem execRsvHoldProceed_keeps : ∀ q z x0 x1 s, Is q z s → IsO q z (execRsvHoldProceed x0 x1 s) := by
  intro q z x0 x1 s hs
  unfold execRsvHoldProceed
  conv => arg 3; zeta
  repeat'
    first
    | with_reducible assumption
    | (simp -zeta only [↓is_mk, ↓isO_next, ↓State.holdLoop_keeps]; try change Is q z _)

theorem State.settle_keeps : ∀ s x1 x2 x3, Is q z (State.settle s x1 x2 x3) ↔ Is q z s := by
  intro s x1 x2 x3; refine is_iff fun q z hs => ?_
  unfold State.settle
  conv => arg 3; zeta
  repeat'
    first
    | with_reducible assumption
    | (simp -zeta only [↓is_mk, ↓State.askPagein_keeps, ↓State.modPal_keeps]; try change Is q z _)
    | (with_reducible refine is_ite ?_ ?_; rotate_left; intro h; try simp -zeta only [↓is_mk, ↓State.askPagein_keeps, ↓State.modPal_keeps] at h)
    | (split <;> try (rename_i h; refine is_step (is_snd (q := q) (z := z) h ?_) (fun hs => ?_); rotate_left; clear h))
    | split

theorem State.retry_keeps : ∀ s x1 x2 x3, Is q z (State.retry s x1 x2 x3) ↔ Is q z s := by
  intro s x1 x2 x3; refine is_iff fun q z hs => ?_
  unfold State.retry
  conv => arg 3; zeta
  repeat'
    first
    | with_reducible assumption
    | (simp -zeta only [↓is_mk, ↓State.lookup_keeps, ↓State.settle_keeps]; try change Is q z _)
    | (split <;> try (rename_i h; refine is_step (is_snd (q := q) (z := z) h ?_) (fun hs => ?_); rotate_left; clear h))

theorem State.waitLoop_keeps : ∀ x0 x1 x2 x3 s, Is q z (State.waitLoop x0 x1 x2 x3 s) ↔ Is q z s := by
  intro x0 x1 x2 x3 s; refine is_iff fun q z hs => ?_
  induction x3 generalizing x2 s with
  | nil => exact hs
  | cons a l ih =>
    obtain ⟨t, w⟩ := a
    simp only [State.waitLoop]
    split
    · exact ih _ _ hs
    · split
      · simpa only [State.failWaiting_keeps, State.modPal_keeps] using hs
      · split
        · simpa only [State.retry_keeps] using hs
        · split
          · simpa only [State.askPagein_keeps] using hs
          · exact ih _ _ hs

theorem State.sweepBells_keeps : ∀ s x1 x2 x3, Is q z (State.sweepBells s x1 x2 x3) ↔ Is q z s := by
  intro s x1 x2 x3; refine is_iff fun q z hs => ?_
  unfold State.sweepBells
  conv => arg 3; zeta
  repeat'
    first
    | with_reducible assumption
    | (simp -zeta only [↓is_mk, ↓State.discardEntry_keeps, ↓State.modPal_keeps, ↓State.palBump_keeps]; try change Is q z _)
    | (with_reducible refine is_ite ?_ ?_; rotate_left; intro h; try simp -zeta only [↓is_mk, ↓State.discardEntry_keeps, ↓State.modPal_keeps, ↓State.palBump_keeps] at h)
    | with_reducible refine is_foldl (fun s b hs => ?_) ?_
    | (split <;> try (rename_i h; refine is_step (is_snd (q := q) (z := z) h ?_) (fun hs => ?_); rotate_left; clear h))
    | split

theorem State.sweepEntries_keeps : ∀ x0 x1 x2 x3 s, Is q z (State.sweepEntries x0 x1 x2 x3 s) ↔ Is q z s := by
  intro x0 x1 x2 x3 s; refine is_iff fun q z hs => ?_
  induction x3 generalizing s with
  | nil => exact hs
  | cons a l ih =>
    obtain ⟨k, e⟩ := a
    simp only [State.sweepEntries]
    refine ih _ (is_ite hs fun _ => ?_)
    simpa only [State.palBump_keeps, State.discardEntry_keeps] using hs

end Sys2Proof.Machine
end

