-- ==== Sys2Proof/Laws/KeepReeve.lean ====
section
/-! SUPPORT. No operation of Reeve touches the command queue, and none but the burning of fuses
touches the fuses. -/

set_option linter.all false

namespace Sys2Proof.Machine

variable {q : List Instr} {z : Fuses}

theorem State.stallCheck_keeps : ∀ s, Is q z (State.stallCheck s) ↔ Is q z s := by
  intro s; refine is_iff fun q z hs => ?_
  unfold State.stallCheck
  conv => arg 3; zeta
  repeat'
    first
    | with_reducible assumption
    | (simp -zeta only [↓is_mk]; try change Is q z _)
    | (with_reducible refine is_ite ?_ ?_; rotate_left; intro h; try simp -zeta only [↓is_mk] at h)
    | (split <;> try (rename_i h; refine is_step (is_snd (q := q) (z := z) h ?_) (fun hs => ?_); rotate_left; clear h))
    | split

theorem State.stallEnd_keeps : ∀ s, Is q z (State.stallEnd s) ↔ Is q z s := by
  intro s; refine is_iff fun q z hs => ?_
  unfold State.stallEnd
  conv => arg 3; zeta
  repeat'
    first
    | with_reducible assumption
    | (simp -zeta only [↓is_mk, ↓State.stallCheck_keeps]; try change Is q z _)
    | (split <;> try (rename_i h; refine is_step (is_snd (q := q) (z := z) h ?_) (fun hs => ?_); rotate_left; clear h))
    | split

theorem execWaitBufferProceed_keeps : ∀ q z x0 x1 s, Is q z s → IsO q z (execWaitBufferProceed x0 x1 s) := by
  intro q z x0 x1 s hs
  unfold execWaitBufferProceed
  conv => arg 3; zeta
  repeat'
    first
    | with_reducible assumption
    | (simp -zeta only [↓is_mk, ↓isO_next, ↓State.stallCheck_keeps, ↓State.waitLoop_keeps]; try change Is q z _)

theorem State.gapNotice_keeps : ∀ s x1 x2 x3 x4 x5 x6, Is q z (State.gapNotice s x1 x2 x3 x4 x5 x6) ↔ Is q z s := by
  intro s x1 x2 x3 x4 x5 x6; refine is_iff fun q z hs => ?_
  unfold State.gapNotice
  conv => arg 3; zeta
  repeat'
    first
    | with_reducible assumption
    | (simp -zeta only [↓is_mk]; try change Is q z _)

theorem State.grantBlock_keeps : ∀ s x1 x2 x3 x4 x5, Is q z (State.grantBlock s x1 x2 x3 x4 x5) ↔ Is q z s := by
  intro s x1 x2 x3 x4 x5; refine is_iff fun q z hs => ?_
  unfold State.grantBlock
  conv => arg 3; zeta
  repeat'
    first
    | with_reducible assumption
    | (simp -zeta only [↓is_mk, ↓State.modCtx_keeps, ↓State.sendCtl_keeps]; try change Is q z _)

theorem execCreditRequest_keeps : ∀ q z x0 x1 x2 s, Is q z s → IsO q z (execCreditRequest x0 x1 x2 s) := by
  intro q z x0 x1 x2 s hs
  unfold execCreditRequest
  conv => arg 3; zeta
  repeat'
    first
    | with_reducible assumption
    | (simp -zeta only [↓is_mk, ↓isO_next, ↓State.ctlErr_keeps, ↓State.grantBlock_keeps, ↓State.takeCtl_keeps]; try change Is q z _)
    | (split <;> try (rename_i h; refine is_step (is_snd (q := q) (z := z) h ?_) (fun hs => ?_); rotate_left; clear h))
    | split

theorem State.hubLeave_keeps : ∀ s x1 x2 x3, Is q z (State.hubLeave s x1 x2 x3) ↔ Is q z s := by
  intro s x1 x2 x3; refine is_iff fun q z hs => ?_
  unfold State.hubLeave
  conv => arg 3; zeta
  repeat'
    first
    | with_reducible assumption
    | (simp -zeta only [↓is_mk, ↓State.returnCredit_keeps, ↓State.setCredit_keeps]; try change Is q z _)
    | (with_reducible refine is_ite ?_ ?_; rotate_left; intro h; try simp -zeta only [↓is_mk, ↓State.returnCredit_keeps, ↓State.setCredit_keeps] at h)
    | split

theorem State.poolReturn_keeps : ∀ s x1 x2 x3 x4 x5, Is q z (State.poolReturn s x1 x2 x3 x4 x5) ↔ Is q z s := by
  intro s x1 x2 x3 x4 x5; refine is_iff fun q z hs => ?_
  unfold State.poolReturn
  conv => arg 3; zeta
  repeat'
    first
    | with_reducible assumption
    | (simp -zeta only [↓is_mk, ↓State.cellReturn_keeps]; try change Is q z _)

theorem State.cellLeave_keeps : ∀ s x1, Is q z (State.cellLeave s x1) ↔ Is q z s := by
  intro s x1; refine is_iff fun q z hs => ?_
  unfold State.cellLeave
  conv => arg 3; zeta
  repeat'
    first
    | with_reducible assumption
    | (simp -zeta only [↓is_mk, ↓State.modCell_keeps, ↓State.poolReturn_keeps, ↓State.setCredit_keeps]; try change Is q z _)
    | (with_reducible refine is_ite ?_ ?_; rotate_left; intro h; try simp -zeta only [↓is_mk, ↓State.modCell_keeps, ↓State.poolReturn_keeps, ↓State.setCredit_keeps] at h)
    | with_reducible refine is_foldl (fun s b hs => ?_) ?_
    | split

theorem State.takeGrant_keeps : ∀ s x1 x2 x3 x4 x5 x6 x7 x8, Is q z (State.takeGrant s x1 x2 x3 x4 x5 x6 x7 x8) ↔ Is q z s := by
  intro s x1 x2 x3 x4 x5 x6 x7 x8; refine is_iff fun q z hs => ?_
  unfold State.takeGrant
  conv => arg 3; zeta
  repeat'
    first
    | with_reducible assumption
    | (simp -zeta only [↓is_mk, ↓State.modCell_keeps, ↓State.poolReturn_keeps]; try change Is q z _)
    | (with_reducible refine is_ite ?_ ?_; rotate_left; intro h; try simp -zeta only [↓is_mk, ↓State.modCell_keeps, ↓State.poolReturn_keeps] at h)
    | split

theorem execCreditReturn_keeps : ∀ q z x0 x1 x2 s, Is q z s → IsO q z (execCreditReturn x0 x1 x2 s) := by
  intro q z x0 x1 x2 s hs
  unfold execCreditReturn
  conv => arg 3; zeta
  repeat'
    first
    | with_reducible assumption
    | (simp -zeta only [↓is_mk, ↓isO_next, ↓State.ctlErr_keeps, ↓State.fabStat_keeps, ↓State.modCtx_keeps, ↓State.returnCredit_keeps]; try change Is q z _)
    | (with_reducible refine is_ite ?_ ?_; rotate_left; intro h; try simp -zeta only [↓is_mk, ↓isO_next, ↓State.ctlErr_keeps, ↓State.fabStat_keeps, ↓State.modCtx_keeps, ↓State.returnCredit_keeps] at h)
    | (with_reducible refine isO_ite ?_ ?_)
    | (split <;> try (rename_i h; refine is_step (is_snd (q := q) (z := z) h ?_) (fun hs => ?_); rotate_left; clear h))
    | split

theorem execLoadReport_keeps : ∀ q z x0 s, Is q z s → IsO q z (execLoadReport x0 s) := by
  intro q z x0 s hs
  unfold execLoadReport
  conv => arg 3; zeta
  repeat'
    first
    | with_reducible assumption
    | (simp -zeta only [↓is_mk, ↓isO_next, ↓State.reach_keeps]; try change Is q z _)

theorem State.allocCtx_keeps : ∀ s x1 x2 x3 x4 x5 x6 x7, Is q z (State.allocCtx s x1 x2 x3 x4 x5 x6 x7) ↔ Is q z s := by
  intro s x1 x2 x3 x4 x5 x6 x7; refine is_iff fun q z hs => ?_
  unfold State.allocCtx
  conv => arg 3; zeta
  repeat'
    first
    | with_reducible assumption
    | (simp -zeta only [↓is_mk, ↓State.modCtx_keeps, ↓State.reeveBump_keeps, ↓State.sendCtl_keeps]; try change Is q z _)
    | (with_reducible refine is_ite ?_ ?_; rotate_left; intro h; try simp -zeta only [↓is_mk, ↓State.modCtx_keeps, ↓State.reeveBump_keeps, ↓State.sendCtl_keeps] at h)
    | with_reducible refine is_foldl (fun s b hs => ?_) ?_
    | split

theorem State.tryGrant_keeps {s t : State} {a : Activation} {c : Nat} (hs : Is q z s)
    (h : s.tryGrant a = .granted c t) : Is q z t := by
  unfold State.tryGrant at h
  have hc : ∀ (w : Placing) s, Is q z s → Is q z
      (let s := s.reeveBump .placeHotAvoid w.hot
       let s := s.reeveBump .actThrottled (b2n w.diverted)
       ({ s with reeve := { s.reeve with needs := w.needs, groups := w.groups } } : State)) := by
    intro w s hs
    simp only [↓is_mk]
    change Is q z _
    simpa only [↓State.reeveBump_keeps] using hs
  split at h
  · cases h
  · dsimp only at h
    split at h
    · cases h
    · split at h
      · split at h
        · split at h
          · simp only [Try.granted.injEq] at h
            rw [← h.2]
            simp only [↓State.allocCtx_keeps]
            exact hc _ _ hs
          · cases h
        · simp only [Try.granted.injEq] at h
          rw [← h.2]
          simp only [↓State.allocCtx_keeps]
          exact hc _ _ hs
      · cases h

theorem State.refillQueue_keeps : ∀ s x1, Is q z (State.refillQueue s x1) ↔ Is q z s := by
  intro s x1; refine is_iff fun q z hs => ?_
  unfold State.refillQueue
  conv => arg 3; zeta
  repeat'
    first
    | with_reducible assumption
    | (simp -zeta only [↓is_mk]; try change Is q z _)
    | (split <;> try (rename_i h; refine is_step (is_snd (q := q) (z := z) h ?_) (fun hs => ?_); rotate_left; clear h))
    | split

theorem State.noteGrant_keeps : ∀ s x1 x2, Is q z (State.noteGrant s x1 x2) ↔ Is q z s := by
  intro s x1 x2; refine is_iff fun q z hs => ?_
  unfold State.noteGrant
  conv => arg 3; zeta
  repeat'
    first
    | with_reducible assumption
    | (simp -zeta only [↓is_mk]; try change Is q z _)
    | (with_reducible refine is_ite ?_ ?_; rotate_left; intro h; try simp -zeta only [↓is_mk] at h)
    | (split <;> try (rename_i h; refine is_step (is_snd (q := q) (z := z) h ?_) (fun hs => ?_); rotate_left; clear h))
    | split

theorem State.grantFrom_keeps : ∀ x0 s, Is q z (State.grantFrom x0 s) ↔ Is q z s := by
  intro x0 s; refine is_iff fun q z hs => ?_
  induction x0 generalizing s with
  | nil => exact hs
  | cons c l ih =>
    simp only [State.grantFrom]
    split
    · exact ih _ hs
    · split <;> rename_i h
      · simp only [↓State.refillQueue_keeps, ↓State.noteGrant_keeps, ↓is_mk]
        exact State.tryGrant_keeps hs h
      · refine ih _ (is_ite ?_ fun _ => hs)
        simp only [↓State.cellarBump_keeps, ↓is_mk]
        exact hs
      · exact ih _ hs

theorem execActivationGrant_keeps : ∀ q z s, Is q z s → IsO q z (execActivationGrant s) := by
  intro q z s hs
  unfold execActivationGrant
  conv => arg 3; zeta
  repeat'
    first
    | with_reducible assumption
    | (simp -zeta only [↓is_mk, ↓isO_next, ↓State.grantFrom_keeps, ↓State.stallCheck_keeps]; try change Is q z _)
    | (with_reducible refine is_ite ?_ ?_; rotate_left; intro h; try simp -zeta only [↓is_mk, ↓isO_next, ↓State.grantFrom_keeps, ↓State.stallCheck_keeps] at h)
    | (with_reducible refine isO_ite ?_ ?_)
    | split

theorem execContextInstall_keeps : ∀ q z x0 x1 s, Is q z s → IsO q z (execContextInstall x0 x1 s) := by
  intro q z x0 x1 s hs
  unfold execContextInstall
  conv => arg 3; zeta
  repeat'
    first
    | with_reducible assumption
    | (simp -zeta only [↓is_mk, ↓isO_next, ↓State.ctlErr_keeps, ↓State.modCell_keeps, ↓State.sendCtl_keeps, ↓State.takeCtl_keeps]; try change Is q z _)
    | (with_reducible refine is_ite ?_ ?_; rotate_left; intro h; try simp -zeta only [↓is_mk, ↓isO_next, ↓State.ctlErr_keeps, ↓State.modCell_keeps, ↓State.sendCtl_keeps, ↓State.takeCtl_keeps] at h)
    | (with_reducible refine isO_ite ?_ ?_)
    | (split <;> try (rename_i h; refine is_step (is_snd (q := q) (z := z) h ?_) (fun hs => ?_); rotate_left; clear h))
    | split

theorem State.endBindings_keeps : ∀ s x1 x2, Is q z (State.endBindings s x1 x2) ↔ Is q z s := by
  intro s x1 x2; refine is_iff fun q z hs => ?_
  unfold State.endBindings
  conv => arg 3; zeta
  repeat'
    first
    | with_reducible assumption
    | (simp -zeta only [↓is_mk, ↓State.bindBump_keeps]; try change Is q z _)
    | (with_reducible refine is_ite ?_ ?_; rotate_left; intro h; try simp -zeta only [↓is_mk, ↓State.bindBump_keeps] at h)
    | with_reducible refine is_foldl (fun s b hs => ?_) ?_
    | split

theorem State.endMember_keeps : ∀ s x1 x2 x3, Is q z (State.endMember s x1 x2 x3) ↔ Is q z s := by
  intro s x1 x2 x3; refine is_iff fun q z hs => ?_
  unfold State.endMember
  conv => arg 3; zeta
  repeat'
    first
    | with_reducible assumption
    | (simp -zeta only [↓is_mk, ↓State.gapNotice_keeps]; try change Is q z _)
    | (with_reducible refine is_ite ?_ ?_; rotate_left; intro h; try simp -zeta only [↓is_mk, ↓State.gapNotice_keeps] at h)
    | with_reducible refine is_foldl (fun s b hs => ?_) ?_
    | split

theorem State.toHeld_keeps : ∀ s x1, Is q z (State.toHeld s x1) ↔ Is q z s := by
  intro s x1; refine is_iff fun q z hs => ?_
  unfold State.toHeld
  conv => arg 3; zeta
  repeat'
    first
    | with_reducible assumption
    | (simp -zeta only [↓is_mk, ↓State.completeWhere_keeps, ↓State.modCtx_keeps, ↓State.reeveBump_keeps]; try change Is q z _)
    | (with_reducible refine is_ite ?_ ?_; rotate_left; intro h; try simp -zeta only [↓is_mk, ↓State.completeWhere_keeps, ↓State.modCtx_keeps, ↓State.reeveBump_keeps] at h)
    | with_reducible refine is_foldl (fun s b hs => ?_) ?_
    | (split <;> try (rename_i h; refine is_step (is_snd (q := q) (z := z) h ?_) (fun hs => ?_); rotate_left; clear h))
    | split

theorem State.release1_keeps : ∀ s x1 x2, Is q z (State.release1 s x1 x2) ↔ Is q z s := by
  intro s x1 x2; refine is_iff fun q z hs => ?_
  unfold State.release1
  conv => arg 3; zeta
  repeat'
    first
    | with_reducible assumption
    | (simp -zeta only [↓is_mk, ↓State.endBindings_keeps, ↓State.endMember_keeps, ↓State.hubLeave_keeps, ↓State.modCtx_keeps, ↓State.reeveBump_keeps, ↓State.sendCtl_keeps, ↓State.toHeld_keeps]; try change Is q z _)
    | (with_reducible refine is_ite ?_ ?_; rotate_left; intro h; try simp -zeta only [↓is_mk, ↓State.endBindings_keeps, ↓State.endMember_keeps, ↓State.hubLeave_keeps, ↓State.modCtx_keeps, ↓State.reeveBump_keeps, ↓State.sendCtl_keeps, ↓State.toHeld_keeps] at h)
    | with_reducible refine is_foldl (fun s b hs => ?_) ?_
    | (split <;> try (rename_i h; refine is_step (is_snd (q := q) (z := z) h ?_) (fun hs => ?_); rotate_left; clear h))
    | split

theorem State.release_keeps : ∀ s x1 x2, Is q z (State.release s x1 x2) ↔ Is q z s := by
  intro s x1 x2; refine is_iff fun q z hs => ?_
  unfold State.release
  conv => arg 3; zeta
  repeat'
    first
    | with_reducible assumption
    | (simp -zeta only [↓is_mk, ↓State.release1_keeps]; try change Is q z _)
    | (split <;> try (rename_i h; refine is_step (is_snd (q := q) (z := z) h ?_) (fun hs => ?_); rotate_left; clear h))
    | split

theorem State.giveCtx_keeps : ∀ s x1 x2 x3, Is q z (State.giveCtx s x1 x2 x3) ↔ Is q z s := by
  intro s x1 x2 x3; refine is_iff fun q z hs => ?_
  unfold State.giveCtx
  conv => arg 3; zeta
  repeat'
    first
    | with_reducible assumption
    | (simp -zeta only [↓is_mk, ↓State.modCell_keeps]; try change Is q z _)
    | (with_reducible refine is_ite ?_ ?_; rotate_left; intro h; try simp -zeta only [↓is_mk, ↓State.modCell_keeps] at h)
    | split

theorem execInstallAck_keeps : ∀ q z x0 s, Is q z s → IsO q z (execInstallAck x0 s) := by
  intro q z x0 s hs
  unfold execInstallAck
  conv => arg 3; zeta
  repeat'
    first
    | with_reducible assumption
    | (simp -zeta only [↓is_mk, ↓isO_next, ↓State.completeWhere_keeps, ↓State.ctlErr_keeps, ↓State.giveCtx_keeps, ↓State.modCtx_keeps, ↓State.release_keeps, ↓State.sendCtl_keeps, ↓State.takeCtl_keeps]; try change Is q z _)
    | (with_reducible refine is_ite ?_ ?_; rotate_left; intro h; try simp -zeta only [↓is_mk, ↓isO_next, ↓State.completeWhere_keeps, ↓State.ctlErr_keeps, ↓State.giveCtx_keeps, ↓State.modCtx_keeps, ↓State.release_keeps, ↓State.sendCtl_keeps, ↓State.takeCtl_keeps] at h)
    | (with_reducible refine isO_ite ?_ ?_)
    | with_reducible refine is_foldl (fun s b hs => ?_) ?_
    | (split <;> try (rename_i h; refine is_step (is_snd (q := q) (z := z) h ?_) (fun hs => ?_); rotate_left; clear h))
    | split

theorem execContextUninstall_keeps : ∀ q z x0 x1 s, Is q z s → IsO q z (execContextUninstall x0 x1 s) := by
  intro q z x0 x1 s hs
  unfold execContextUninstall
  conv => arg 3; zeta
  repeat'
    first
    | with_reducible assumption
    | (simp -zeta only [↓is_mk, ↓isO_next, ↓State.cellLeave_keeps, ↓State.ctlErr_keeps, ↓State.modCell_keeps, ↓State.takeCtl_keeps]; try change Is q z _)
    | (with_reducible refine is_ite ?_ ?_; rotate_left; intro h; try simp -zeta only [↓is_mk, ↓isO_next, ↓State.cellLeave_keeps, ↓State.ctlErr_keeps, ↓State.modCell_keeps, ↓State.takeCtl_keeps] at h)
    | (with_reducible refine isO_ite ?_ ?_)
    | (split <;> try (rename_i h; refine is_step (is_snd (q := q) (z := z) h ?_) (fun hs => ?_); rotate_left; clear h))
    | split

theorem State.sweepReported_keeps : ∀ s x1 x2 x3, Is q z (State.sweepReported s x1 x2 x3) ↔ Is q z s := by
  intro s x1 x2 x3; refine is_iff fun q z hs => ?_
  unfold State.sweepReported
  conv => arg 3; zeta
  repeat'
    first
    | with_reducible assumption
    | (simp -zeta only [↓is_mk, ↓State.modCtx_keeps, ↓State.toHeld_keeps]; try change Is q z _)
    | (with_reducible refine is_ite ?_ ?_; rotate_left; intro h; try simp -zeta only [↓is_mk, ↓State.modCtx_keeps, ↓State.toHeld_keeps] at h)
    | split

theorem execSweepComplete_keeps : ∀ q z x0 x1 x2 s, Is q z s → IsO q z (execSweepComplete x0 x1 x2 s) := by
  intro q z x0 x1 x2 s hs
  unfold execSweepComplete
  conv => arg 3; zeta
  repeat'
    first
    | with_reducible assumption
    | (simp -zeta only [↓is_mk, ↓isO_next, ↓State.modPal_keeps, ↓State.stallCheck_keeps, ↓State.sweepBells_keeps, ↓State.sweepEntries_keeps, ↓State.sweepReported_keeps]; try change Is q z _)
    | (with_reducible refine is_ite ?_ ?_; rotate_left; intro h; try simp -zeta only [↓is_mk, ↓isO_next, ↓State.modPal_keeps, ↓State.stallCheck_keeps, ↓State.sweepBells_keeps, ↓State.sweepEntries_keeps, ↓State.sweepReported_keeps] at h)
    | (with_reducible refine isO_ite ?_ ?_)
    | split

theorem execContextFree_keeps : ∀ q z x0 s, Is q z s → IsO q z (execContextFree x0 s) := by
  intro q z x0 s hs
  unfold execContextFree
  conv => arg 3; zeta
  repeat'
    first
    | with_reducible assumption
    | (simp -zeta only [↓is_mk, ↓isO_next, ↓State.modCtx_keeps, ↓State.stallCheck_keeps]; try change Is q z _)
    | (with_reducible refine is_ite ?_ ?_; rotate_left; intro h; try simp -zeta only [↓is_mk, ↓isO_next, ↓State.modCtx_keeps, ↓State.stallCheck_keeps] at h)
    | (with_reducible refine isO_ite ?_ ?_)
    | split

theorem execStartWaitExpiry_keeps : ∀ q z x0 s, Is q z s → IsO q z (execStartWaitExpiry x0 s) := by
  intro q z x0 s hs
  unfold execStartWaitExpiry
  conv => arg 3; zeta
  repeat'
    first
    | with_reducible assumption
    | (simp -zeta only [↓is_mk, ↓isO_next, ↓State.completeWhere_keeps, ↓State.reach_keeps, ↓State.reeveBump_keeps, ↓State.refillQueue_keeps, ↓State.stallCheck_keeps]; try change Is q z _)
    | (with_reducible refine is_ite ?_ ?_; rotate_left; intro h; try simp -zeta only [↓is_mk, ↓isO_next, ↓State.completeWhere_keeps, ↓State.reach_keeps, ↓State.reeveBump_keeps, ↓State.refillQueue_keeps, ↓State.stallCheck_keeps] at h)
    | (with_reducible refine isO_ite ?_ ?_)
    | with_reducible refine is_foldl (fun s b hs => ?_) ?_
    | (split <;> try (rename_i h; refine is_step (is_snd (q := q) (z := z) h ?_) (fun hs => ?_); rotate_left; clear h))
    | split

theorem State.modDanger_keeps : ∀ x0 x1 s, Is q z (State.modDanger x0 x1 s) ↔ Is q z s := by
  intro x0 x1 s; refine is_iff fun q z hs => ?_
  unfold State.modDanger
  conv => arg 3; zeta
  repeat'
    first
    | with_reducible assumption
    | (simp -zeta only [↓is_mk]; try change Is q z _)

theorem execGuardWindowExpiry_keeps : ∀ q z x0 s, Is q z s → IsO q z (execGuardWindowExpiry x0 s) := by
  intro q z x0 s hs
  unfold execGuardWindowExpiry
  conv => arg 3; zeta
  repeat'
    first
    | with_reducible assumption
    | (simp -zeta only [↓is_mk, ↓isO_next, ↓State.modDanger_keeps, ↓State.reach_keeps]; try change Is q z _)
    | (with_reducible refine is_ite ?_ ?_; rotate_left; intro h; try simp -zeta only [↓is_mk, ↓isO_next, ↓State.modDanger_keeps, ↓State.reach_keeps] at h)
    | (with_reducible refine isO_ite ?_ ?_)
    | split

theorem execYieldDelayExpiry_keeps : ∀ q z x0 s, Is q z s → IsO q z (execYieldDelayExpiry x0 s) := by
  intro q z x0 s hs
  unfold execYieldDelayExpiry
  conv => arg 3; zeta
  repeat'
    first
    | with_reducible assumption
    | (simp -zeta only [↓is_mk, ↓isO_next, ↓State.modDanger_keeps, ↓State.reach_keeps]; try change Is q z _)
    | (with_reducible refine is_ite ?_ ?_; rotate_left; intro h; try simp -zeta only [↓is_mk, ↓isO_next, ↓State.modDanger_keeps, ↓State.reach_keeps] at h)
    | (with_reducible refine isO_ite ?_ ?_)
    | split

theorem execCalmTimeExpiry_keeps : ∀ q z x0 s, Is q z s → IsO q z (execCalmTimeExpiry x0 s) := by
  intro q z x0 s hs
  unfold execCalmTimeExpiry
  conv => arg 3; zeta
  repeat'
    first
    | with_reducible assumption
    | (simp -zeta only [↓is_mk, ↓isO_next, ↓State.modDanger_keeps, ↓State.reach_keeps]; try change Is q z _)
    | (with_reducible refine is_ite ?_ ?_; rotate_left; intro h; try simp -zeta only [↓is_mk, ↓isO_next, ↓State.modDanger_keeps, ↓State.reach_keeps] at h)
    | (with_reducible refine isO_ite ?_ ?_)
    | split

end Sys2Proof.Machine
end

