-- ==== Sys2Proof/Laws/KeepCellar.lean ====
section
/-! SUPPORT. No operation of Cellar touches the command queue, and none but the burning of fuses
touches the fuses. -/

set_option linter.all false

namespace Sys2Proof.Machine

variable {q : List Instr} {z : Fuses}

theorem State.modCellar_keeps : ∀ x0 s, Is q z (State.modCellar x0 s) ↔ Is q z s := by
  intro x0 s; refine is_iff fun q z hs => ?_
  unfold State.modCellar
  conv => arg 3; zeta
  repeat'
    first
    | with_reducible assumption
    | (simp -zeta only [↓is_mk]; try change Is q z _)

theorem State.cellarMark_keeps : ∀ s, Is q z (State.cellarMark s) ↔ Is q z s := by
  intro s; refine is_iff fun q z hs => ?_
  unfold State.cellarMark
  conv => arg 3; zeta
  repeat'
    first
    | with_reducible assumption
    | (simp -zeta only [↓is_mk, ↓State.modCellar_keeps, ↓State.postEvent_keeps]; try change Is q z _)
    | (with_reducible refine is_ite ?_ ?_; rotate_left; intro h; try simp -zeta only [↓is_mk, ↓State.modCellar_keeps, ↓State.postEvent_keeps] at h)
    | split

theorem State.freePage_keeps : ∀ s x1, Is q z (State.freePage s x1) ↔ Is q z s := by
  intro s x1; refine is_iff fun q z hs => ?_
  unfold State.freePage
  conv => arg 3; zeta
  repeat'
    first
    | with_reducible assumption
    | (simp -zeta only [↓is_mk, ↓State.cellarBump_keeps, ↓State.modCellar_keeps]; try change Is q z _)
    | (split <;> try (rename_i h; refine is_step (is_snd (q := q) (z := z) h ?_) (fun hs => ?_); rotate_left; clear h))
    | split

theorem State.clearSlot_keeps : ∀ s x1 x2, Is q z (State.clearSlot s x1 x2) ↔ Is q z s := by
  intro s x1 x2; refine is_iff fun q z hs => ?_
  unfold State.clearSlot
  conv => arg 3; zeta
  repeat'
    first
    | with_reducible assumption
    | (simp -zeta only [↓is_mk, ↓State.freePage_keeps, ↓State.modCellar_keeps]; try change Is q z _)
    | (with_reducible refine is_ite ?_ ?_; rotate_left; intro h; try simp -zeta only [↓is_mk, ↓State.freePage_keeps, ↓State.modCellar_keeps] at h)
    | (split <;> try (rename_i h; refine is_step (is_snd (q := q) (z := z) h ?_) (fun hs => ?_); rotate_left; clear h))
    | split

theorem State.depthAdd_keeps : ∀ s x1 x2, Is q z (State.depthAdd s x1 x2) ↔ Is q z s := by
  intro s x1 x2; refine is_iff fun q z hs => ?_
  unfold State.depthAdd
  conv => arg 3; zeta
  repeat'
    first
    | with_reducible assumption
    | (simp -zeta only [↓is_mk, ↓State.modPal_keeps]; try change Is q z _)

theorem State.depthSub_keeps : ∀ s x1 x2, Is q z (State.depthSub s x1 x2) ↔ Is q z s := by
  intro s x1 x2; refine is_iff fun q z hs => ?_
  unfold State.depthSub
  conv => arg 3; zeta
  repeat'
    first
    | with_reducible assumption
    | (simp -zeta only [↓is_mk, ↓State.modPal_keeps]; try change Is q z _)

theorem State.copyLoss_keeps : ∀ s x1, Is q z (State.copyLoss s x1) ↔ Is q z s := by
  intro s x1; refine is_iff fun q z hs => ?_
  unfold State.copyLoss
  conv => arg 3; zeta
  repeat'
    first
    | with_reducible assumption
    | (simp -zeta only [↓is_mk, ↓State.detect_keeps, ↓State.postEvent_keeps]; try change Is q z _)

theorem State.retryCopy_keeps : ∀ s x1, Is q z (State.retryCopy s x1) ↔ Is q z s := by
  intro s x1; refine is_iff fun q z hs => ?_
  unfold State.retryCopy
  conv => arg 3; zeta
  repeat'
    first
    | with_reducible assumption
    | (simp -zeta only [↓is_mk, ↓State.cellarBump_keeps]; try change Is q z _)
    | (with_reducible refine is_ite ?_ ?_; rotate_left; intro h; try simp -zeta only [↓is_mk, ↓State.cellarBump_keeps] at h)
    | split

theorem State.headerErr_keeps : ∀ s x1 x2, Is q z (State.headerErr s x1 x2) ↔ Is q z s := by
  intro s x1 x2; refine is_iff fun q z hs => ?_
  unfold State.headerErr
  conv => arg 3; zeta
  repeat'
    first
    | with_reducible assumption
    | (simp -zeta only [↓is_mk, ↓State.cellarBump_keeps, ↓State.copyLoss_keeps, ↓State.retryCopy_keeps]; try change Is q z _)
    | (split <;> try (rename_i h; refine is_step (is_snd (q := q) (z := z) h ?_) (fun hs => ?_); rotate_left; clear h))
    | split

theorem State.headerErrs_keeps : ∀ s x1 x2, Is q z (State.headerErrs s x1 x2) ↔ Is q z s := by
  intro s x1 x2; refine is_iff fun q z hs => ?_
  unfold State.headerErrs
  conv => arg 3; zeta
  repeat'
    first
    | with_reducible assumption
    | (simp -zeta only [↓is_mk, ↓State.headerErr_keeps]; try change Is q z _)
    | (with_reducible refine is_ite ?_ ?_; rotate_left; intro h; try simp -zeta only [↓is_mk, ↓State.headerErr_keeps] at h)
    | with_reducible refine is_foldl (fun s b hs => ?_) ?_
    | split

theorem execSpillPageGrant_keeps : ∀ q z x0 s, Is q z s → IsO q z (execSpillPageGrant x0 s) := by
  intro q z x0 s hs
  unfold execSpillPageGrant
  conv => arg 3; zeta
  repeat'
    first
    | with_reducible assumption
    | (simp -zeta only [↓is_mk, ↓isO_next, ↓State.cellarBump_keeps, ↓State.cellarMark_keeps, ↓State.modCellar_keeps, ↓State.modPal_keeps, ↓State.palBump_keeps, ↓State.postEvent_keeps, ↓State.stallCheck_keeps]; try change Is q z _)
    | (with_reducible refine is_ite ?_ ?_; rotate_left; intro h; try simp -zeta only [↓is_mk, ↓isO_next, ↓State.cellarBump_keeps, ↓State.cellarMark_keeps, ↓State.modCellar_keeps, ↓State.modPal_keeps, ↓State.palBump_keeps, ↓State.postEvent_keeps, ↓State.stallCheck_keeps] at h)
    | (with_reducible refine isO_ite ?_ ?_)
    | (split <;> try (rename_i h; refine is_step (is_snd (q := q) (z := z) h ?_) (fun hs => ?_); rotate_left; clear h))
    | split

theorem execSpillSlotAck_keeps : ∀ q z x0 x1 s, Is q z s → IsO q z (execSpillSlotAck x0 x1 s) := by
  intro q z x0 x1 s hs
  unfold execSpillSlotAck
  conv => arg 3; zeta
  repeat'
    first
    | with_reducible assumption
    | (simp -zeta only [↓is_mk, ↓isO_next, ↓State.depthAdd_keeps, ↓State.modCellar_keeps, ↓State.modPal_keeps, ↓State.readEntry_keeps]; try change Is q z _)
    | (with_reducible refine is_ite ?_ ?_; rotate_left; intro h; try simp -zeta only [↓is_mk, ↓isO_next, ↓State.depthAdd_keeps, ↓State.modCellar_keeps, ↓State.modPal_keeps, ↓State.readEntry_keeps] at h)
    | (with_reducible refine isO_ite ?_ ?_)
    | (split <;> try (rename_i h; refine is_step (is_snd (q := q) (z := z) h ?_) (fun hs => ?_); rotate_left; clear h))
    | split

theorem State.purgeParity_keeps : ∀ s x1 x2 x3 x4, Is q z (State.purgeParity s x1 x2 x3 x4) ↔ Is q z s := by
  intro s x1 x2 x3 x4; refine is_iff fun q z hs => ?_
  unfold State.purgeParity
  conv => arg 3; zeta
  repeat'
    first
    | with_reducible assumption
    | (simp -zeta only [↓is_mk, ↓State.cellarBump_keeps, ↓State.clearSlot_keeps, ↓State.depthSub_keeps, ↓State.returnCredit_keeps]; try change Is q z _)
    | with_reducible refine is_foldl (fun s b hs => ?_) ?_
    | (split <;> try (rename_i h; refine is_step (is_snd (q := q) (z := z) h ?_) (fun hs => ?_); rotate_left; clear h))
    | split

theorem execSpillLink_keeps : ∀ q z x0 s, Is q z s → IsO q z (execSpillLink x0 s) := by
  intro q z x0 s hs
  unfold execSpillLink
  conv => arg 3; zeta
  repeat'
    first
    | with_reducible assumption
    | (simp -zeta only [↓is_mk, ↓isO_next, ↓State.freePage_keeps, ↓State.modCellar_keeps, ↓State.modPal_keeps, ↓State.purgeParity_keeps, ↓State.stallCheck_keeps]; try change Is q z _)
    | (with_reducible refine is_ite ?_ ?_; rotate_left; intro h; try simp -zeta only [↓is_mk, ↓isO_next, ↓State.freePage_keeps, ↓State.modCellar_keeps, ↓State.modPal_keeps, ↓State.purgeParity_keeps, ↓State.stallCheck_keeps] at h)
    | (with_reducible refine isO_ite ?_ ?_)
    | with_reducible refine is_foldl (fun s b hs => ?_) ?_
    | (split <;> try (rename_i h; refine is_step (is_snd (q := q) (z := z) h ?_) (fun hs => ?_); rotate_left; clear h))
    | split

theorem State.setPagein_keeps : ∀ s x1 x2, Is q z (State.setPagein s x1 x2) ↔ Is q z s := by
  intro s x1 x2; refine is_iff fun q z hs => ?_
  unfold State.setPagein
  conv => arg 3; zeta
  repeat'
    first
    | with_reducible assumption
    | (simp -zeta only [↓is_mk, ↓State.modCellar_keeps]; try change Is q z _)
    | (with_reducible refine is_ite ?_ ?_; rotate_left; intro h; try simp -zeta only [↓is_mk, ↓State.modCellar_keeps] at h)
    | split

theorem execPageinRequest_keeps : ∀ q z x0 x1 x2 s, Is q z s → IsO q z (execPageinRequest x0 x1 x2 s) := by
  intro q z x0 x1 x2 s hs
  unfold execPageinRequest
  conv => arg 3; zeta
  repeat'
    first
    | with_reducible assumption
    | (simp -zeta only [↓is_mk, ↓isO_next, ↓State.cellarBump_keeps, ↓State.headerErrs_keeps, ↓State.setPagein_keeps]; try change Is q z _)
    | (with_reducible refine is_ite ?_ ?_; rotate_left; intro h; try simp -zeta only [↓is_mk, ↓isO_next, ↓State.cellarBump_keeps, ↓State.headerErrs_keeps, ↓State.setPagein_keeps] at h)
    | (with_reducible refine isO_ite ?_ ?_)
    | (split <;> try (rename_i h; refine is_step (is_snd (q := q) (z := z) h ?_) (fun hs => ?_); rotate_left; clear h))
    | split

theorem State.dropPagein_keeps : ∀ s x1, Is q z (State.dropPagein s x1) ↔ Is q z s := by
  intro s x1; refine is_iff fun q z hs => ?_
  unfold State.dropPagein
  conv => arg 3; zeta
  repeat'
    first
    | with_reducible assumption
    | (simp -zeta only [↓is_mk, ↓State.modCellar_keeps]; try change Is q z _)

theorem State.nextPagein_keeps : ∀ s x1 x2, Is q z (State.nextPagein s x1 x2) ↔ Is q z s := by
  intro s x1 x2; refine is_iff fun q z hs => ?_
  unfold State.nextPagein
  conv => arg 3; zeta
  repeat'
    first
    | with_reducible assumption
    | (simp -zeta only [↓is_mk, ↓State.dropPagein_keeps, ↓State.setPagein_keeps]; try change Is q z _)
    | (with_reducible refine is_ite ?_ ?_; rotate_left; intro h; try simp -zeta only [↓is_mk, ↓State.dropPagein_keeps, ↓State.setPagein_keeps] at h)
    | split

theorem State.toldNone_keeps : ∀ s x1 x2, Is q z (State.toldNone s x1 x2) ↔ Is q z s := by
  intro s x1 x2; refine is_iff fun q z hs => ?_
  unfold State.toldNone
  conv => arg 3; zeta
  repeat'
    first
    | with_reducible assumption
    | (simp -zeta only [↓is_mk, ↓State.modPal_keeps]; try change Is q z _)
    | (with_reducible refine is_ite ?_ ?_; rotate_left; intro h; try simp -zeta only [↓is_mk, ↓State.modPal_keeps] at h)
    | split

theorem execPageinNone_keeps : ∀ q z x0 x1 s, Is q z s → IsO q z (execPageinNone x0 x1 s) := by
  intro q z x0 x1 s hs
  unfold execPageinNone
  conv => arg 3; zeta
  repeat'
    first
    | with_reducible assumption
    | (simp -zeta only [↓is_mk, ↓isO_next, ↓State.cellarBump_keeps, ↓State.dropPagein_keeps, ↓State.toldNone_keeps]; try change Is q z _)
    | (with_reducible refine is_ite ?_ ?_; rotate_left; intro h; try simp -zeta only [↓is_mk, ↓isO_next, ↓State.cellarBump_keeps, ↓State.dropPagein_keeps, ↓State.toldNone_keeps] at h)
    | (with_reducible refine isO_ite ?_ ?_)
    | (split <;> try (rename_i h; refine is_step (is_snd (q := q) (z := z) h ?_) (fun hs => ?_); rotate_left; clear h))
    | split

theorem State.restore_keeps : ∀ s x1 x2 x3 x4, Is q z (State.restore s x1 x2 x3 x4) ↔ Is q z s := by
  intro s x1 x2 x3 x4; refine is_iff fun q z hs => ?_
  unfold State.restore
  conv => arg 3; zeta
  repeat'
    first
    | with_reducible assumption
    | (simp -zeta only [↓is_mk, ↓State.modPal_keeps, ↓State.palBump_keeps]; try change Is q z _)
    | (with_reducible refine is_ite ?_ ?_; rotate_left; intro h; try simp -zeta only [↓is_mk, ↓State.modPal_keeps, ↓State.palBump_keeps] at h)
    | with_reducible refine is_foldl (fun s b hs => ?_) ?_
    | (split <;> try (rename_i h; refine is_step (is_snd (q := q) (z := z) h ?_) (fun hs => ?_); rotate_left; clear h))
    | split

theorem State.applyWaiting_keeps : ∀ s x1 x2 x3, Is q z (State.applyWaiting s x1 x2 x3) ↔ Is q z s := by
  intro s x1 x2 x3; refine is_iff fun q z hs => ?_
  unfold State.applyWaiting
  dsimp only
  generalize (s.cell x1).pal.wait.filter _ = l
  refine is_foldl_fst (fun a e hs => ?_) hs
  split
  · simpa only [State.failWaiting_keeps, State.modPal_keeps] using hs
  · split
    · simpa only [State.retry_keeps] using hs
    · exact hs

theorem State.dropRestored_keeps : ∀ s x1 x2, Is q z (State.dropRestored s x1 x2) ↔ Is q z s := by
  intro s x1 x2; refine is_iff fun q z hs => ?_
  unfold State.dropRestored
  conv => arg 3; zeta
  repeat'
    first
    | with_reducible assumption
    | (simp -zeta only [↓is_mk, ↓State.cellReturn_keeps, ↓State.palBump_keeps, ↓State.tallySub_keeps]; try change Is q z _)
    | (with_reducible refine is_ite ?_ ?_; rotate_left; intro h; try simp -zeta only [↓is_mk, ↓State.cellReturn_keeps, ↓State.palBump_keeps, ↓State.tallySub_keeps] at h)
    | with_reducible refine is_foldl (fun s b hs => ?_) ?_
    | split

theorem State.landPagein_keeps : ∀ s x1 x2 x3, Is q z (State.landPagein s x1 x2 x3) ↔ Is q z s := by
  intro s x1 x2 x3; refine is_iff fun q z hs => ?_
  unfold State.landPagein
  conv => arg 3; zeta
  repeat'
    first
    | with_reducible assumption
    | (simp -zeta only [↓is_mk, ↓State.applyWaiting_keeps, ↓State.dropRestored_keeps, ↓State.nextPagein_keeps, ↓State.restore_keeps]; try change Is q z _)
    | (with_reducible refine is_ite ?_ ?_; rotate_left; intro h; try simp -zeta only [↓is_mk, ↓State.applyWaiting_keeps, ↓State.dropRestored_keeps, ↓State.nextPagein_keeps, ↓State.restore_keeps] at h)
    | (split <;> try (rename_i h; refine is_step (is_snd (q := q) (z := z) h ?_) (fun hs => ?_); rotate_left; clear h))
    | split

theorem State.takeSlotOf_keeps : ∀ s x1 x2 x3 x4, Is q z (State.takeSlotOf s x1 x2 x3 x4) ↔ Is q z s := by
  intro s x1 x2 x3 x4; refine is_iff fun q z hs => ?_
  unfold State.takeSlotOf
  conv => arg 3; zeta
  repeat'
    first
    | with_reducible assumption
    | (simp -zeta only [↓is_mk, ↓State.cellarBump_keeps, ↓State.clearSlot_keeps, ↓State.copyLoss_keeps, ↓State.depthSub_keeps, ↓State.landPagein_keeps, ↓State.nextPagein_keeps, ↓State.orphan_keeps, ↓State.palBump_keeps, ↓State.retryCopy_keeps, ↓State.setPagein_keeps, ↓State.toldNone_keeps]; try change Is q z _)
    | (with_reducible refine is_ite ?_ ?_; rotate_left; intro h; try simp -zeta only [↓is_mk, ↓State.cellarBump_keeps, ↓State.clearSlot_keeps, ↓State.copyLoss_keeps, ↓State.depthSub_keeps, ↓State.landPagein_keeps, ↓State.nextPagein_keeps, ↓State.orphan_keeps, ↓State.palBump_keeps, ↓State.retryCopy_keeps, ↓State.setPagein_keeps, ↓State.toldNone_keeps] at h)
    | with_reducible refine is_foldl (fun s b hs => ?_) ?_
    | (split <;> try (rename_i h; refine is_step (is_snd (q := q) (z := z) h ?_) (fun hs => ?_); rotate_left; clear h))
    | split

theorem execPageinReturn_keeps : ∀ q z x0 x1 x2 s, Is q z s → IsO q z (execPageinReturn x0 x1 x2 s) := by
  intro q z x0 x1 x2 s hs
  unfold execPageinReturn
  conv => arg 3; zeta
  repeat'
    first
    | with_reducible assumption
    | (simp -zeta only [↓is_mk, ↓isO_next, ↓State.landPagein_keeps, ↓State.stallCheck_keeps, ↓State.takeSlotOf_keeps]; try change Is q z _)
    | (split <;> try (rename_i h; refine is_step (is_snd (q := q) (z := z) h ?_) (fun hs => ?_); rotate_left; clear h))
    | split

theorem State.purgePage_keeps : ∀ s x1 x2 x3, Is q z (State.purgePage s x1 x2 x3) ↔ Is q z s := by
  intro s x1 x2 x3; refine is_iff fun q z hs => ?_
  unfold State.purgePage
  conv => arg 3; zeta
  repeat'
    first
    | with_reducible assumption
    | (simp -zeta only [↓is_mk, ↓State.cellarBump_keeps, ↓State.clearSlot_keeps, ↓State.depthSub_keeps, ↓State.returnCredit_keeps, ↓State.tallySub_keeps]; try change Is q z _)
    | (with_reducible refine is_ite ?_ ?_; rotate_left; intro h; try simp -zeta only [↓is_mk, ↓State.cellarBump_keeps, ↓State.clearSlot_keeps, ↓State.depthSub_keeps, ↓State.returnCredit_keeps, ↓State.tallySub_keeps] at h)
    | with_reducible refine is_foldl (fun s b hs => ?_) ?_
    | (split <;> try (rename_i h; refine is_step (is_snd (q := q) (z := z) h ?_) (fun hs => ?_); rotate_left; clear h))
    | split

theorem execCellarPurge_keeps : ∀ q z x0 s, Is q z s → IsO q z (execCellarPurge x0 s) := by
  intro q z x0 s hs
  unfold execCellarPurge
  conv => arg 3; zeta
  repeat'
    first
    | with_reducible assumption
    | (simp -zeta only [↓is_mk, ↓isO_next, ↓State.headerErrs_keeps, ↓State.modCellar_keeps, ↓State.purgePage_keeps, ↓State.stallCheck_keeps]; try change Is q z _)
    | with_reducible refine is_foldl (fun s b hs => ?_) ?_
    | (split <;> try (rename_i h; refine is_step (is_snd (q := q) (z := z) h ?_) (fun hs => ?_); rotate_left; clear h))
    | split

theorem State.abortCtx_keeps : ∀ s x1, Is q z (State.abortCtx s x1) ↔ Is q z s := by
  intro s x1; refine is_iff fun q z hs => ?_
  unfold State.abortCtx
  conv => arg 3; zeta
  repeat'
    first
    | with_reducible assumption
    | (simp -zeta only [↓is_mk, ↓State.cellarBump_keeps, ↓State.postEvent_keeps, ↓State.release_keeps]; try change Is q z _)

theorem State.refusePending_keeps : ∀ s x1, Is q z (State.refusePending s x1) ↔ Is q z s := by
  intro s x1; refine is_iff fun q z hs => ?_
  unfold State.refusePending
  conv => arg 3; zeta
  repeat'
    first
    | with_reducible assumption
    | (simp -zeta only [↓is_mk, ↓State.completeWhere_keeps]; try change Is q z _)
    | (with_reducible refine is_ite ?_ ?_; rotate_left; intro h; try simp -zeta only [↓is_mk, ↓State.completeWhere_keeps] at h)
    | split

theorem State.quarantine_keeps : ∀ s x1, Is q z (State.quarantine s x1) ↔ Is q z s := by
  intro s x1; refine is_iff fun q z hs => ?_
  unfold State.quarantine
  conv => arg 3; zeta
  repeat'
    first
    | with_reducible assumption
    | (simp -zeta only [↓is_mk, ↓State.abortCtx_keeps, ↓State.cellarBump_keeps, ↓State.modCellar_keeps, ↓State.postEvent_keeps, ↓State.refusePending_keeps]; try change Is q z _)
    | (with_reducible refine is_ite ?_ ?_; rotate_left; intro h; try simp -zeta only [↓is_mk, ↓State.abortCtx_keeps, ↓State.cellarBump_keeps, ↓State.modCellar_keeps, ↓State.postEvent_keeps, ↓State.refusePending_keeps] at h)
    | with_reducible refine is_foldl (fun s b hs => ?_) ?_
    | split

theorem State.abortNext_keeps : ∀ s, Is q z (State.abortNext s) ↔ Is q z s := by
  intro s; refine is_iff fun q z hs => ?_
  unfold State.abortNext
  conv => arg 3; zeta
  repeat'
    first
    | with_reducible assumption
    | (simp -zeta only [↓is_mk, ↓State.abortCtx_keeps, ↓State.cellarBump_keeps, ↓State.modCellar_keeps, ↓State.postEvent_keeps, ↓State.quarantine_keeps]; try change Is q z _)
    | (with_reducible refine is_ite ?_ ?_; rotate_left; intro h; try simp -zeta only [↓is_mk, ↓State.abortCtx_keeps, ↓State.cellarBump_keeps, ↓State.modCellar_keeps, ↓State.postEvent_keeps, ↓State.quarantine_keeps] at h)
    | (split <;> try (rename_i h; refine is_step (is_snd (q := q) (z := z) h ?_) (fun hs => ?_); rotate_left; clear h))
    | split

theorem execStallTimerExpiry_keeps : ∀ q z s, Is q z s → IsO q z (execStallTimerExpiry s) := by
  intro q z s hs
  unfold execStallTimerExpiry
  conv => arg 3; zeta
  repeat'
    first
    | with_reducible assumption
    | (simp -zeta only [↓is_mk, ↓isO_next, ↓State.abortNext_keeps, ↓State.cellarBump_keeps, ↓State.modCellar_keeps, ↓State.postEvent_keeps, ↓State.reach_keeps]; try change Is q z _)
    | (with_reducible refine is_ite ?_ ?_; rotate_left; intro h; try simp -zeta only [↓is_mk, ↓isO_next, ↓State.abortNext_keeps, ↓State.cellarBump_keeps, ↓State.modCellar_keeps, ↓State.postEvent_keeps, ↓State.reach_keeps] at h)
    | (with_reducible refine isO_ite ?_ ?_)
    | (split <;> try (rename_i h; refine is_step (is_snd (q := q) (z := z) h ?_) (fun hs => ?_); rotate_left; clear h))
    | split

theorem execAgeSweep_keeps : ∀ q z s, Is q z s → IsO q z (execAgeSweep s) := by
  intro q z s hs
  unfold execAgeSweep
  conv => arg 3; zeta
  repeat'
    first
    | with_reducible assumption
    | (simp -zeta only [↓is_mk, ↓isO_next]; try change Is q z _)
    | (with_reducible refine is_ite ?_ ?_; rotate_left; intro h; try simp -zeta only [↓is_mk, ↓isO_next] at h)
    | (with_reducible refine isO_ite ?_ ?_)
    | split

end Sys2Proof.Machine
end

