-- ==== Sys2Proof/Laws/KeepFabric.lean ====
section
/-! SUPPORT. No operation of Fabric touches the command queue, and none but the burning of fuses
touches the fuses. -/

set_option linter.all false

namespace Sys2Proof.Machine

variable {q : List Instr} {z : Fuses}

theorem State.modFabric_keeps : ∀ x0 s, Is q z (State.modFabric x0 s) ↔ Is q z s := by
  intro x0 s; refine is_iff fun q z hs => ?_
  unfold State.modFabric
  conv => arg 3; zeta
  repeat'
    first
    | with_reducible assumption
    | (simp -zeta only [↓is_mk]; try change Is q z _)

theorem State.injectG_keeps : ∀ s x1 x2 x3, Is q z (State.injectG s x1 x2 x3) ↔ Is q z s := by
  intro s x1 x2 x3; refine is_iff fun q z hs => ?_
  unfold State.injectG
  conv => arg 3; zeta
  repeat'
    first
    | with_reducible assumption
    | (simp -zeta only [↓is_mk, ↓State.inject_keeps, ↓State.modFabric_keeps]; try change Is q z _)
    | (with_reducible refine is_ite ?_ ?_; rotate_left; intro h; try simp -zeta only [↓is_mk, ↓State.inject_keeps, ↓State.modFabric_keeps] at h)
    | split

theorem State.injectHeld_keeps : ∀ x0 x1 s, Is q z (State.injectHeld x0 x1 s) ↔ Is q z s := by
  intro x0 x1 s; refine is_iff fun q z hs => ?_
  induction x1 generalizing s with
  | nil => exact hs
  | cons a l ih =>
    obtain ⟨f, t⟩ := a
    simp only [State.injectHeld]
    refine ih _ (is_ite hs fun _ => ?_)
    simpa only [↓State.fabStat_keeps, ↓State.injectG_keeps, ↓State.modFabric_keeps] using hs

theorem State.applyMap_keeps : ∀ s, Is q z (State.applyMap s) ↔ Is q z s := by
  intro s; refine is_iff fun q z hs => ?_
  unfold State.applyMap
  conv => arg 3; zeta
  repeat'
    first
    | with_reducible assumption
    | (simp -zeta only [↓is_mk, ↓State.fabBump_keeps, ↓State.modFabric_keeps]; try change Is q z _)
    | (with_reducible refine is_ite ?_ ?_; rotate_left; intro h; try simp -zeta only [↓is_mk, ↓State.fabBump_keeps, ↓State.modFabric_keeps] at h)
    | with_reducible refine is_foldl (fun s b hs => ?_) ?_
    | (split <;> try (rename_i h; refine is_step (is_snd (q := q) (z := z) h ?_) (fun hs => ?_); rotate_left; clear h))
    | split

theorem State.slotTurn_keeps : ∀ x0 s, Is q z (State.slotTurn x0 s) ↔ Is q z s := by
  intro x0 s; refine is_iff fun q z hs => ?_
  unfold State.slotTurn
  conv => arg 3; zeta
  repeat'
    first
    | with_reducible assumption
    | (simp -zeta only [↓is_mk, ↓State.applyMap_keeps, ↓State.injectHeld_keeps, ↓State.modFabric_keeps]; try change Is q z _)
    | (with_reducible refine is_ite ?_ ?_; rotate_left; intro h; try simp -zeta only [↓is_mk, ↓State.applyMap_keeps, ↓State.injectHeld_keeps, ↓State.modFabric_keeps] at h)
    | split

theorem State.slotTurns_keeps : ∀ x0 x1 s, Is q z (State.slotTurns x0 x1 s) ↔ Is q z s := by
  intro x0 x1 s; refine is_iff fun q z hs => ?_
  induction x0 generalizing x1 s with
  | zero => exact hs
  | succ n ih =>
    simp only [State.slotTurns]
    exact ih _ _ (by simpa only [↓State.slotTurn_keeps] using hs)

theorem State.slotSync_keeps : ∀ s, Is q z (State.slotSync s) ↔ Is q z s := by
  intro s; refine is_iff fun q z hs => ?_
  unfold State.slotSync
  conv => arg 3; zeta
  repeat'
    first
    | with_reducible assumption
    | (simp -zeta only [↓is_mk, ↓State.modFabric_keeps, ↓State.slotTurns_keeps]; try change Is q z _)
    | (with_reducible refine is_ite ?_ ?_; rotate_left; intro h; try simp -zeta only [↓is_mk, ↓State.modFabric_keeps, ↓State.slotTurns_keeps] at h)
    | split

theorem State.realign_keeps : ∀ s, Is q z (State.realign s) ↔ Is q z s := by
  intro s; refine is_iff fun q z hs => ?_
  unfold State.realign
  conv => arg 3; zeta
  repeat'
    first
    | with_reducible assumption
    | (simp -zeta only [↓is_mk, ↓State.modFabric_keeps]; try change Is q z _)

theorem State.offerToken_keeps : ∀ s x1 x2 x3, Is q z (State.offerToken s x1 x2 x3) ↔ Is q z s := by
  intro s x1 x2 x3; refine is_iff fun q z hs => ?_
  unfold State.offerToken
  conv => arg 3; zeta
  repeat'
    first
    | with_reducible assumption
    | (simp -zeta only [↓is_mk, ↓State.fabStat_keeps, ↓State.inject_keeps, ↓State.injectG_keeps, ↓State.modFabric_keeps, ↓State.orphan_keeps, ↓State.slotSync_keeps]; try change Is q z _)
    | (with_reducible refine is_ite ?_ ?_; rotate_left; intro h; try simp -zeta only [↓is_mk, ↓State.fabStat_keeps, ↓State.inject_keeps, ↓State.injectG_keeps, ↓State.modFabric_keeps, ↓State.orphan_keeps, ↓State.slotSync_keeps] at h)
    | split

theorem State.slotBegin_keeps : ∀ s, Is q z (State.slotBegin s) ↔ Is q z s := by
  intro s; refine is_iff fun q z hs => ?_
  unfold State.slotBegin
  conv => arg 3; zeta
  repeat'
    first
    | with_reducible assumption
    | (simp -zeta only [↓is_mk, ↓State.reachT64_keeps, ↓State.slotSync_keeps]; try change Is q z _)

theorem State.modResp_keeps : ∀ x0 x1 s, Is q z (State.modResp x0 x1 s) ↔ Is q z s := by
  intro x0 x1 s; refine is_iff fun q z hs => ?_
  unfold State.modResp
  conv => arg 3; zeta
  repeat'
    first
    | with_reducible assumption
    | (simp -zeta only [↓is_mk, ↓State.modFabric_keeps]; try change Is q z _)

theorem State.layCellar_keeps : ∀ s, Is q z (State.layCellar s) ↔ Is q z s := by
  intro s; refine is_iff fun q z hs => ?_
  unfold State.layCellar
  conv => arg 3; zeta
  repeat'
    first
    | with_reducible assumption
    | (simp -zeta only [↓is_mk, ↓State.modResp_keeps]; try change Is q z _)
    | with_reducible refine is_foldl (fun s b hs => ?_) ?_

theorem State.serve_keeps : ∀ s x1 x2, Is q z (State.serve s x1 x2).2 ↔ Is q z s := by
  intro s x1 x2; refine is_iff fun q z hs => ?_
  unfold State.serve
  conv => arg 3; zeta
  repeat'
    first
    | with_reducible assumption
    | (simp -zeta only [↓is_mk, ↓State.modResp_keeps]; try change Is q z _)
    | (with_reducible refine is_ite ?_ ?_; rotate_left; intro h; try simp -zeta only [↓is_mk, ↓State.modResp_keeps] at h)
    | (with_reducible refine is_ite_snd ?_ ?_)
    | (split <;> try (rename_i h; refine is_step (is_snd (q := q) (z := z) h ?_) (fun hs => ?_); rotate_left; clear h))
    | split

theorem execRegionRequest_keeps : ∀ q z x0 x1 x2 s, Is q z s → IsO q z (execRegionRequest x0 x1 x2 s) := by
  intro q z x0 x1 x2 s hs
  unfold execRegionRequest
  conv => arg 3; zeta
  repeat'
    first
    | with_reducible assumption
    | (simp -zeta only [↓is_mk, ↓isO_next, ↓State.land_keeps, ↓State.launch_keeps, ↓State.modFabric_keeps, ↓State.serve_keeps, ↓State.unitErr_keeps]; try change Is q z _)
    | (with_reducible refine is_ite ?_ ?_; rotate_left; intro h; try simp -zeta only [↓is_mk, ↓isO_next, ↓State.land_keeps, ↓State.launch_keeps, ↓State.modFabric_keeps, ↓State.serve_keeps, ↓State.unitErr_keeps] at h)
    | (with_reducible refine isO_ite ?_ ?_)
    | (split <;> try (rename_i h; refine is_step (is_snd (q := q) (z := z) h ?_) (fun hs => ?_); rotate_left; clear h))
    | split

theorem State.sendReq_keeps : ∀ s x1, Is q z (State.sendReq s x1) ↔ Is q z s := by
  intro s x1; refine is_iff fun q z hs => ?_
  unfold State.sendReq
  conv => arg 3; zeta
  repeat'
    first
    | with_reducible assumption
    | (simp -zeta only [↓is_mk, ↓State.fabStat_keeps, ↓State.launch_keeps, ↓State.modFabric_keeps]; try change Is q z _)
    | (with_reducible refine is_ite ?_ ?_; rotate_left; intro h; try simp -zeta only [↓is_mk, ↓State.fabStat_keeps, ↓State.launch_keeps, ↓State.modFabric_keeps] at h)
    | split

theorem State.endpointTake_keeps : ∀ s x1 x2 x3, Is q z (State.endpointTake s x1 x2 x3) ↔ Is q z s := by
  intro s x1 x2 x3; refine is_iff fun q z hs => ?_
  unfold State.endpointTake
  conv => arg 3; zeta
  repeat'
    first
    | with_reducible assumption
    | (simp -zeta only [↓is_mk, ↓State.acceptFlight_keeps, ↓State.takeFlight_keeps]; try change Is q z _)
    | (with_reducible refine is_ite ?_ ?_; rotate_left; intro h; try simp -zeta only [↓is_mk, ↓State.acceptFlight_keeps, ↓State.takeFlight_keeps] at h)
    | split

theorem State.endpointAbsorb_keeps : ∀ s x1 x2 x3, Is q z (State.endpointAbsorb s x1 x2 x3) ↔ Is q z s := by
  intro s x1 x2 x3; refine is_iff fun q z hs => ?_
  unfold State.endpointAbsorb
  conv => arg 3; zeta
  repeat'
    first
    | with_reducible assumption
    | (simp -zeta only [↓is_mk, ↓State.endpointTake_keeps, ↓State.fabBump_keeps]; try change Is q z _)

theorem execAppendToken_keeps : ∀ q z x0 x1 x2 x3 s, Is q z s → IsO q z (execAppendToken x0 x1 x2 x3 s) := by
  intro q z x0 x1 x2 x3 s hs
  unfold execAppendToken
  conv => arg 3; zeta
  repeat'
    first
    | with_reducible assumption
    | (simp -zeta only [↓is_mk, ↓isO_next, ↓State.endpointAbsorb_keeps, ↓State.endpointTake_keeps, ↓State.modFabric_keeps, ↓State.modResp_keeps, ↓State.postEvent_keeps, ↓State.unitErr_keeps]; try change Is q z _)
    | (with_reducible refine is_ite ?_ ?_; rotate_left; intro h; try simp -zeta only [↓is_mk, ↓isO_next, ↓State.endpointAbsorb_keeps, ↓State.endpointTake_keeps, ↓State.modFabric_keeps, ↓State.modResp_keeps, ↓State.postEvent_keeps, ↓State.unitErr_keeps] at h)
    | (with_reducible refine isO_ite ?_ ?_)
    | split

theorem State.discard_keeps : ∀ x0 x1 x2 x3 s, Is q z (State.discard x0 x1 x2 x3 s) ↔ Is q z s := by
  intro x0 x1 x2 x3 s; refine is_iff fun q z hs => ?_
  unfold State.discard
  conv => arg 3; zeta
  repeat'
    first
    | with_reducible assumption
    | (simp -zeta only [↓is_mk, ↓State.detect_keeps, ↓State.fabBump_keeps, ↓State.modFabric_keeps]; try change Is q z _)

theorem execFabricHeaderError_keeps : ∀ q z x0 x1 s, Is q z s → IsO q z (execFabricHeaderError x0 x1 s) := by
  intro q z x0 x1 s hs
  unfold execFabricHeaderError
  conv => arg 3; zeta
  repeat'
    first
    | with_reducible assumption
    | (simp -zeta only [↓is_mk, ↓isO_next, ↓State.discard_keeps, ↓State.modFabric_keeps, ↓State.orphan_keeps, ↓State.sendCtl_keeps]; try change Is q z _)
    | (with_reducible refine is_ite ?_ ?_; rotate_left; intro h; try simp -zeta only [↓is_mk, ↓isO_next, ↓State.discard_keeps, ↓State.modFabric_keeps, ↓State.orphan_keeps, ↓State.sendCtl_keeps] at h)
    | (with_reducible refine isO_ite ?_ ?_)
    | (split <;> try (rename_i h; refine is_step (is_snd (q := q) (z := z) h ?_) (fun hs => ?_); rotate_left; clear h))
    | split

theorem State.tellReeve_keeps : ∀ s x1, Is q z (State.tellReeve s x1) ↔ Is q z s := by
  intro s x1; refine is_iff fun q z hs => ?_
  unfold State.tellReeve
  conv => arg 3; zeta
  repeat'
    first
    | with_reducible assumption
    | (simp -zeta only [↓is_mk, ↓State.modCtx_keeps, ↓State.sweepReported_keeps]; try change Is q z _)
    | with_reducible refine is_foldl (fun s b hs => ?_) ?_

theorem State.modPair_keeps : ∀ s x1 x2, Is q z (State.modPair s x1 x2) ↔ Is q z s := by
  intro s x1 x2; refine is_iff fun q z hs => ?_
  unfold State.modPair
  conv => arg 3; zeta
  repeat'
    first
    | with_reducible assumption
    | (simp -zeta only [↓is_mk]; try change Is q z _)

theorem State.pairLost_keeps : ∀ s x1 x2, Is q z (State.pairLost s x1 x2) ↔ Is q z s := by
  intro s x1 x2; refine is_iff fun q z hs => ?_
  unfold State.pairLost
  conv => arg 3; zeta
  repeat'
    first
    | with_reducible assumption
    | (simp -zeta only [↓is_mk, ↓State.sendReq_keeps]; try change Is q z _)
    | (split <;> try (rename_i h; refine is_step (is_snd (q := q) (z := z) h ?_) (fun hs => ?_); rotate_left; clear h))
    | split

theorem State.pairDrop_keeps : ∀ s x1 x2, Is q z (State.pairDrop s x1 x2) ↔ Is q z s := by
  intro s x1 x2; refine is_iff fun q z hs => ?_
  unfold State.pairDrop
  conv => arg 3; zeta
  repeat'
    first
    | with_reducible assumption
    | (simp -zeta only [↓is_mk, ↓State.pairLost_keeps]; try change Is q z _)
    | with_reducible refine is_foldl (fun s b hs => ?_) ?_

theorem State.halfCheck_keeps : ∀ s x1, Is q z (State.halfCheck s x1) ↔ Is q z s := by
  intro s x1; refine is_iff fun q z hs => ?_
  unfold State.halfCheck
  conv => arg 3; zeta
  repeat'
    first
    | with_reducible assumption
    | (simp -zeta only [↓is_mk, ↓State.detect_keeps, ↓State.endLevel_keeps, ↓State.modPair_keeps, ↓State.pairDrop_keeps, ↓State.watchBump_keeps]; try change Is q z _)
    | (with_reducible refine is_ite ?_ ?_; rotate_left; intro h; try simp -zeta only [↓is_mk, ↓State.detect_keeps, ↓State.endLevel_keeps, ↓State.modPair_keeps, ↓State.pairDrop_keeps, ↓State.watchBump_keeps] at h)
    | split

theorem State.isolate_keeps : ∀ s x1, Is q z (State.isolate s x1) ↔ Is q z s := by
  intro s x1; refine is_iff fun q z hs => ?_
  unfold State.isolate
  conv => arg 3; zeta
  repeat'
    first
    | with_reducible assumption
    | (simp -zeta only [↓is_mk, ↓State.detect_keeps, ↓State.halfCheck_keeps, ↓State.modFabric_keeps, ↓State.orphan_keeps, ↓State.postEvent_keeps, ↓State.tellReeve_keeps]; try change Is q z _)
    | (with_reducible refine is_ite ?_ ?_; rotate_left; intro h; try simp -zeta only [↓is_mk, ↓State.detect_keeps, ↓State.halfCheck_keeps, ↓State.modFabric_keeps, ↓State.orphan_keeps, ↓State.postEvent_keeps, ↓State.tellReeve_keeps] at h)
    | with_reducible refine is_foldl (fun s b hs => ?_) ?_
    | split

theorem execDeadTimeExpiry_keeps : ∀ q z x0 s, Is q z s → IsO q z (execDeadTimeExpiry x0 s) := by
  intro q z x0 s hs
  unfold execDeadTimeExpiry
  conv => arg 3; zeta
  repeat'
    first
    | with_reducible assumption
    | (simp -zeta only [↓is_mk, ↓isO_next, ↓State.isolate_keeps, ↓State.reach_keeps]; try change Is q z _)
    | (split <;> try (rename_i h; refine is_step (is_snd (q := q) (z := z) h ?_) (fun hs => ?_); rotate_left; clear h))
    | split

end Sys2Proof.Machine
end

