-- ==== Sys2Proof/Laws/KeepEngine.lean ====
section
/-! SUPPORT. No operation of Engine touches the command queue, and none but the burning of fuses
touches the fuses. -/

set_option linter.all false

namespace Sys2Proof.Machine

variable {q : List Instr} {z : Fuses}

theorem State.modBank_keeps : ∀ s x1 x2 x3, Is q z (State.modBank s x1 x2 x3) ↔ Is q z s := by
  intro s x1 x2 x3; refine is_iff fun q z hs => ?_
  unfold State.modBank
  conv => arg 3; zeta
  repeat'
    first
    | with_reducible assumption
    | (simp -zeta only [↓is_mk, ↓State.modCell_keeps]; try change Is q z _)
    | (with_reducible refine is_ite ?_ ?_; rotate_left; intro h; try simp -zeta only [↓is_mk, ↓State.modCell_keeps] at h)
    | (split <;> try (rename_i h; refine is_step (is_snd (q := q) (z := z) h ?_) (fun hs => ?_); rotate_left; clear h))
    | split

theorem State.feedCore_keeps : ∀ s x1 x2, Is q z (State.feedCore s x1 x2) ↔ Is q z s := by
  intro s x1 x2; refine is_iff fun q z hs => ?_
  unfold State.feedCore
  conv => arg 3; zeta
  repeat'
    first
    | with_reducible assumption
    | (simp -zeta only [↓is_mk, ↓State.modBank_keeps]; try change Is q z _)
    | (with_reducible refine is_ite ?_ ?_; rotate_left; intro h; try simp -zeta only [↓is_mk, ↓State.modBank_keeps] at h)
    | (split <;> try (rename_i h; refine is_step (is_snd (q := q) (z := z) h ?_) (fun hs => ?_); rotate_left; clear h))
    | split

theorem State.feedFor_keeps : ∀ s x1 x2, Is q z (State.feedFor s x1 x2) ↔ Is q z s := by
  intro s x1 x2; refine is_iff fun q z hs => ?_
  unfold State.feedFor
  conv => arg 3; zeta
  repeat'
    first
    | with_reducible assumption
    | (simp -zeta only [↓is_mk, ↓State.feedCore_keeps]; try change Is q z _)
    | (split <;> try (rename_i h; refine is_step (is_snd (q := q) (z := z) h ?_) (fun hs => ?_); rotate_left; clear h))
    | split

theorem State.exBump_keeps : ∀ s x1 x2 x3, Is q z (State.exBump s x1 x2 x3) ↔ Is q z s := by
  intro s x1 x2 x3; refine is_iff fun q z hs => ?_
  unfold State.exBump
  conv => arg 3; zeta
  repeat'
    first
    | with_reducible assumption
    | (simp -zeta only [↓is_mk, ↓State.engBump_keeps]; try change Is q z _)
    | (split <;> try (rename_i h; refine is_step (is_snd (q := q) (z := z) h ?_) (fun hs => ?_); rotate_left; clear h))
    | split

theorem State.freeLanded_keeps : ∀ s x1 x2 x3, Is q z (State.freeLanded s x1 x2 x3) ↔ Is q z s := by
  intro s x1 x2 x3; refine is_iff fun q z hs => ?_
  unfold State.freeLanded
  conv => arg 3; zeta
  repeat'
    first
    | with_reducible assumption
    | (simp -zeta only [↓is_mk, ↓State.modCell_keeps, ↓State.queBump_keeps, ↓State.release_keeps]; try change Is q z _)
    | (with_reducible refine is_ite ?_ ?_; rotate_left; intro h; try simp -zeta only [↓is_mk, ↓State.modCell_keeps, ↓State.queBump_keeps, ↓State.release_keeps] at h)
    | (split <;> try (rename_i h; refine is_step (is_snd (q := q) (z := z) h ?_) (fun hs => ?_); rotate_left; clear h))
    | split

theorem State.auditFold_keeps : ∀ s x1 x2 x3 x4, Is q z (State.auditFold s x1 x2 x3 x4) ↔ Is q z s := by
  intro s x1 x2 x3 x4; refine is_iff fun q z hs => ?_
  unfold State.auditFold
  conv => arg 3; zeta
  repeat'
    first
    | with_reducible assumption
    | (simp -zeta only [↓is_mk, ↓State.modCell_keeps]; try change Is q z _)
    | (with_reducible refine is_ite ?_ ?_; rotate_left; intro h; try simp -zeta only [↓is_mk, ↓State.modCell_keeps] at h)
    | split

theorem State.pairRelease_keeps : ∀ s x1 x2 x3, Is q z (State.pairRelease s x1 x2 x3) ↔ Is q z s := by
  intro s x1 x2 x3; refine is_iff fun q z hs => ?_
  unfold State.pairRelease
  conv => arg 3; zeta
  repeat'
    first
    | with_reducible assumption
    | (simp -zeta only [↓is_mk, ↓State.offerToken_keeps, ↓State.sendReq_keeps]; try change Is q z _)
    | (split <;> try (rename_i h; refine is_step (is_snd (q := q) (z := z) h ?_) (fun hs => ?_); rotate_left; clear h))
    | split

theorem State.pairOffer_keeps : ∀ s x1 x2, Is q z (State.pairOffer s x1 x2) ↔ Is q z s := by
  intro s x1 x2; refine is_iff fun q z hs => ?_
  unfold State.pairOffer
  conv => arg 3; zeta
  repeat'
    first
    | with_reducible assumption
    | (simp -zeta only [↓is_mk, ↓State.modFabric_keeps, ↓State.modPair_keeps, ↓State.pairLost_keeps, ↓State.pairRelease_keeps, ↓State.watchBump_keeps]; try change Is q z _)
    | (with_reducible refine is_ite ?_ ?_; rotate_left; intro h; try simp -zeta only [↓is_mk, ↓State.modFabric_keeps, ↓State.modPair_keeps, ↓State.pairLost_keeps, ↓State.pairRelease_keeps, ↓State.watchBump_keeps] at h)
    | (split <;> try (rename_i h; refine is_step (is_snd (q := q) (z := z) h ?_) (fun hs => ?_); rotate_left; clear h))
    | split

theorem State.commitSend_keeps : ∀ s x1 x2 x3 x4 x5, Is q z (State.commitSend s x1 x2 x3 x4 x5) ↔ Is q z s := by
  intro s x1 x2 x3 x4 x5; refine is_iff fun q z hs => ?_
  unfold State.commitSend
  conv => arg 3; zeta
  repeat'
    first
    | with_reducible assumption
    | (simp -zeta only [↓is_mk, ↓State.auditFold_keeps, ↓State.engBump_keeps, ↓State.offerToken_keeps, ↓State.pairOffer_keeps, ↓State.returnCredit_keeps]; try change Is q z _)
    | (with_reducible refine is_ite ?_ ?_; rotate_left; intro h; try simp -zeta only [↓is_mk, ↓State.auditFold_keeps, ↓State.engBump_keeps, ↓State.offerToken_keeps, ↓State.pairOffer_keeps, ↓State.returnCredit_keeps] at h)
    | split

theorem State.regionReq_keeps : ∀ s x1 x2 x3 x4 x5 x6 x7 x8, Is q z (State.regionReq s x1 x2 x3 x4 x5 x6 x7 x8) ↔ Is q z s := by
  intro s x1 x2 x3 x4 x5 x6 x7 x8; refine is_iff fun q z hs => ?_
  unfold State.regionReq
  conv => arg 3; zeta
  repeat'
    first
    | with_reducible assumption
    | (simp -zeta only [↓is_mk, ↓State.auditFold_keeps, ↓State.pairOffer_keeps, ↓State.sendReq_keeps]; try change Is q z _)
    | (with_reducible refine is_ite ?_ ?_; rotate_left; intro h; try simp -zeta only [↓is_mk, ↓State.auditFold_keeps, ↓State.pairOffer_keeps, ↓State.sendReq_keeps] at h)
    | (split <;> try (rename_i h; refine is_step (is_snd (q := q) (z := z) h ?_) (fun hs => ?_); rotate_left; clear h))
    | split

theorem State.reqHolds_keeps : ∀ s x1 x2, Is q z (State.reqHolds s x1 x2) ↔ Is q z s := by
  intro s x1 x2; refine is_iff fun q z hs => ?_
  unfold State.reqHolds
  conv => arg 3; zeta
  repeat'
    first
    | with_reducible assumption
    | (simp -zeta only [↓is_mk, ↓State.modBank_keeps]; try change Is q z _)

theorem State.reqGoes_keeps : ∀ s x1 x2, Is q z (State.reqGoes s x1 x2) ↔ Is q z s := by
  intro s x1 x2; refine is_iff fun q z hs => ?_
  unfold State.reqGoes
  conv => arg 3; zeta
  repeat'
    first
    | with_reducible assumption
    | (simp -zeta only [↓is_mk, ↓State.fabStat_keeps, ↓State.modBank_keeps]; try change Is q z _)
    | (with_reducible refine is_ite ?_ ?_; rotate_left; intro h; try simp -zeta only [↓is_mk, ↓State.fabStat_keeps, ↓State.modBank_keeps] at h)
    | (split <;> try (rename_i h; refine is_step (is_snd (q := q) (z := z) h ?_) (fun hs => ?_); rotate_left; clear h))
    | split

theorem State.unreserve_keeps : ∀ s x1 x2 x3, Is q z (State.unreserve s x1 x2 x3) ↔ Is q z s := by
  intro s x1 x2 x3; refine is_iff fun q z hs => ?_
  unfold State.unreserve
  conv => arg 3; zeta
  repeat'
    first
    | with_reducible assumption
    | (simp -zeta only [↓is_mk, ↓State.modBank_keeps, ↓State.setCredit_keeps]; try change Is q z _)
    | (split <;> try (rename_i h; refine is_step (is_snd (q := q) (z := z) h ?_) (fun hs => ?_); rotate_left; clear h))
    | split

theorem State.squash_keeps : ∀ s x1 x2 x3, Is q z (State.squash s x1 x2 x3) ↔ Is q z s := by
  intro s x1 x2 x3; refine is_iff fun q z hs => ?_
  unfold State.squash
  conv => arg 3; zeta
  repeat'
    first
    | with_reducible assumption
    | (simp -zeta only [↓is_mk, ↓State.modBank_keeps, ↓State.unreserve_keeps]; try change Is q z _)
    | with_reducible refine is_foldl (fun s b hs => ?_) ?_

theorem State.cellTrace_keeps : ∀ s x1 x2, Is q z (State.cellTrace s x1 x2) ↔ Is q z s := by
  intro s x1 x2; refine is_iff fun q z hs => ?_
  unfold State.cellTrace
  conv => arg 3; zeta
  repeat'
    first
    | with_reducible assumption
    | (simp -zeta only [↓is_mk, ↓State.modCell_keeps]; try change Is q z _)
    | (with_reducible refine is_ite ?_ ?_; rotate_left; intro h; try simp -zeta only [↓is_mk, ↓State.modCell_keeps] at h)
    | split

theorem State.traceDebug_keeps : ∀ s x1 x2 x3, Is q z (State.traceDebug s x1 x2 x3) ↔ Is q z s := by
  intro s x1 x2 x3; refine is_iff fun q z hs => ?_
  unfold State.traceDebug
  conv => arg 3; zeta
  repeat'
    first
    | with_reducible assumption
    | (simp -zeta only [↓is_mk, ↓State.cellTrace_keeps]; try change Is q z _)
    | (with_reducible refine is_ite ?_ ?_; rotate_left; intro h; try simp -zeta only [↓is_mk, ↓State.cellTrace_keeps] at h)
    | split

theorem State.traceFiring_keeps : ∀ s x1 x2 x3 x4, Is q z (State.traceFiring s x1 x2 x3 x4) ↔ Is q z s := by
  intro s x1 x2 x3 x4; refine is_iff fun q z hs => ?_
  unfold State.traceFiring
  conv => arg 3; zeta
  repeat'
    first
    | with_reducible assumption
    | (simp -zeta only [↓is_mk, ↓State.cellTrace_keeps]; try change Is q z _)
    | (with_reducible refine is_ite ?_ ?_; rotate_left; intro h; try simp -zeta only [↓is_mk, ↓State.cellTrace_keeps] at h)
    | split

theorem State.leaveBank_keeps : ∀ s x1 x2, Is q z (State.leaveBank s x1 x2) ↔ Is q z s := by
  intro s x1 x2; refine is_iff fun q z hs => ?_
  unfold State.leaveBank
  conv => arg 3; zeta
  repeat'
    first
    | with_reducible assumption
    | (simp -zeta only [↓is_mk, ↓State.backToM_keeps, ↓State.cellLeave_keeps, ↓State.modBank_keeps, ↓State.modCell_keeps, ↓State.queBump_keeps, ↓State.release_keeps, ↓State.squash_keeps, ↓State.tallyOut_keeps]; try change Is q z _)
    | (split <;> try (rename_i h; refine is_step (is_snd (q := q) (z := z) h ?_) (fun hs => ?_); rotate_left; clear h))
    | split

theorem State.endByException_keeps : ∀ s x1 x2 x3, Is q z (State.endByException s x1 x2 x3) ↔ Is q z s := by
  intro s x1 x2 x3; refine is_iff fun q z hs => ?_
  unfold State.endByException
  conv => arg 3; zeta
  repeat'
    first
    | with_reducible assumption
    | (simp -zeta only [↓is_mk, ↓State.detect_keeps, ↓State.engBump_keeps, ↓State.gapNotice_keeps, ↓State.leaveBank_keeps, ↓State.modCell_keeps, ↓State.postEvent_keeps, ↓State.queBump_keeps, ↓State.traceFiring_keeps]; try change Is q z _)
    | (with_reducible refine is_ite ?_ ?_; rotate_left; intro h; try simp -zeta only [↓is_mk, ↓State.detect_keeps, ↓State.engBump_keeps, ↓State.gapNotice_keeps, ↓State.leaveBank_keeps, ↓State.modCell_keeps, ↓State.postEvent_keeps, ↓State.queBump_keeps, ↓State.traceFiring_keeps] at h)
    | (split <;> try (rename_i h; refine is_step (is_snd (q := q) (z := z) h ?_) (fun hs => ?_); rotate_left; clear h))
    | split

theorem State.takeException_keeps : ∀ s x1 x2 x3 x4 x5, Is q z (State.takeException s x1 x2 x3 x4 x5) ↔ Is q z s := by
  intro s x1 x2 x3 x4 x5; refine is_iff fun q z hs => ?_
  unfold State.takeException
  conv => arg 3; zeta
  repeat'
    first
    | with_reducible assumption
    | (simp -zeta only [↓is_mk, ↓State.endByException_keeps, ↓State.exBump_keeps, ↓State.modBank_keeps, ↓State.modCell_keeps, ↓State.squash_keeps, ↓State.stallCheck_keeps, ↓State.traceDebug_keeps]; try change Is q z _)
    | (with_reducible refine is_ite ?_ ?_; rotate_left; intro h; try simp -zeta only [↓is_mk, ↓State.endByException_keeps, ↓State.exBump_keeps, ↓State.modBank_keeps, ↓State.modCell_keeps, ↓State.squash_keeps, ↓State.stallCheck_keeps, ↓State.traceDebug_keeps] at h)
    | (split <;> try (rename_i h; refine is_step (is_snd (q := q) (z := z) h ?_) (fun hs => ?_); rotate_left; clear h))
    | split

theorem State.writeResults_keeps : ∀ s x1 x2 x3 x4, Is q z (State.writeResults s x1 x2 x3 x4) ↔ Is q z s := by
  intro s x1 x2 x3 x4; refine is_iff fun q z hs => ?_
  unfold State.writeResults
  conv => arg 3; zeta
  repeat'
    first
    | with_reducible assumption
    | (simp -zeta only [↓is_mk, ↓State.modBank_keeps]; try change Is q z _)
    | (with_reducible refine is_ite ?_ ?_; rotate_left; intro h; try simp -zeta only [↓is_mk, ↓State.modBank_keeps] at h)
    | with_reducible refine is_foldl (fun s b hs => ?_) ?_
    | split

theorem State.popOp_keeps : ∀ s x1 x2 x3, Is q z (State.popOp s x1 x2 x3) ↔ Is q z s := by
  intro s x1 x2 x3; refine is_iff fun q z hs => ?_
  unfold State.popOp
  conv => arg 3; zeta
  repeat'
    first
    | with_reducible assumption
    | (simp -zeta only [↓is_mk, ↓State.modBank_keeps]; try change Is q z _)

theorem State.storeMem_keeps : ∀ s x1 x2 x3, Is q z (State.storeMem s x1 x2 x3) ↔ Is q z s := by
  intro s x1 x2 x3; refine is_iff fun q z hs => ?_
  unfold State.storeMem
  conv => arg 3; zeta
  repeat'
    first
    | with_reducible assumption
    | (simp -zeta only [↓is_mk, ↓State.modCell_keeps]; try change Is q z _)
    | (split <;> try (rename_i h; refine is_step (is_snd (q := q) (z := z) h ?_) (fun hs => ?_); rotate_left; clear h))
    | split

theorem State.sysWrite_keeps : ∀ s x1 x2 x3 x4, Is q z (State.sysWrite s x1 x2 x3 x4) ↔ Is q z s := by
  intro s x1 x2 x3 x4; refine is_iff fun q z hs => ?_
  unfold State.sysWrite
  conv => arg 3; zeta
  repeat'
    first
    | with_reducible assumption
    | (simp -zeta only [↓is_mk, ↓State.modBank_keeps]; try change Is q z _)
    | (with_reducible refine is_ite ?_ ?_; rotate_left; intro h; try simp -zeta only [↓is_mk, ↓State.modBank_keeps] at h)
    | (split <;> try (rename_i h; refine is_step (is_snd (q := q) (z := z) h ?_) (fun hs => ?_); rotate_left; clear h))
    | split

theorem State.raise1_keeps {s t : State} {e : Engine} {x : Bool} {o : Op} {code : Nat} {info : BitVec 64}
    (hs : Is q z s) (h : s.raise1 e x o code info = some t) : Is q z t := by
  unfold State.raise1 at h
  dsimp only at h
  split at h
  · rw [← Option.some.inj h]; simpa only [↓State.squash_keeps] using hs
  · split at h
    · cases h
    · rw [← Option.some.inj h]; simpa only [↓State.takeException_keeps] using hs

theorem State.cutBudget_keeps {s t : State} {e : Engine} {x : Bool} (hs : Is q z s)
    (h : s.cutBudget e x = some t) : Is q z t := by
  unfold State.cutBudget at h
  dsimp only at h
  split at h
  · split at h
    · split at h
      · rw [← Option.some.inj h]
        simpa only [↓State.takeException_keeps, ↓State.exBump_keeps, ↓State.modBank_keeps] using hs
      · cases h
    · cases h
  · cases h

theorem State.retire1_keeps {s t : State} {e : Engine} {x : Bool} (hs : Is q z s)
    (h : s.retire1 e x = some t) : Is q z t := by
  unfold State.retire1 at h
  dsimp only at h
  split at h
  · cases h
  · repeat' split at h
    all_goals first
      | (cases h; done)
      | exact State.raise1_keeps hs h
      | exact State.cutBudget_keeps hs h
      | (rw [← Option.some.inj h]
         try simp -zeta only [↓is_mk]
         try change Is q z _
         repeat' first
           | with_reducible assumption
           | simp -zeta only [↓is_mk, ↓State.sysWrite_keeps, ↓State.takeException_keeps, ↓State.storeMem_keeps,
               ↓State.popOp_keeps, ↓State.queBump_keeps, ↓State.freeLanded_keeps, ↓State.unreserve_keeps,
               ↓State.reqHolds_keeps, ↓State.reqGoes_keeps,
               ↓State.commitSend_keeps, ↓State.release_keeps, ↓State.exBump_keeps, ↓State.regionReq_keeps,
               ↓State.modBank_keeps, ↓State.leaveBank_keeps, ↓State.traceFiring_keeps, ↓State.stallEnd_keeps]
           | (with_reducible refine is_ite ?_ fun _ => ?_)
           | split)

theorem State.retireLoop_keeps : ∀ x0 x1 x2 s, Is q z (State.retireLoop x0 x1 x2 s) ↔ Is q z s := by
  intro x0 x1 x2 s; refine is_iff fun q z hs => ?_
  induction x2 generalizing s with
  | zero => exact hs
  | succ k ih =>
    unfold State.retireLoop
    split <;> rename_i h
    · exact ih _ (State.retire1_keeps hs h)
    · exact hs

theorem State.retire_keeps : ∀ s x1 x2, Is q z (State.retire s x1 x2) ↔ Is q z s := by
  intro s x1 x2; refine is_iff fun q z hs => ?_
  unfold State.retire
  conv => arg 3; zeta
  repeat'
    first
    | with_reducible assumption
    | (simp -zeta only [↓is_mk, ↓State.retireLoop_keeps]; try change Is q z _)

theorem State.retireCell_keeps : ∀ s x1, Is q z (State.retireCell s x1) ↔ Is q z s := by
  intro s x1; refine is_iff fun q z hs => ?_
  unfold State.retireCell
  conv => arg 3; zeta
  repeat'
    first
    | with_reducible assumption
    | (simp -zeta only [↓is_mk, ↓State.retire_keeps]; try change Is q z _)

theorem State.countIssue_keeps : ∀ s x1 x2 x3, Is q z (State.countIssue s x1 x2 x3) ↔ Is q z s := by
  intro s x1 x2 x3; refine is_iff fun q z hs => ?_
  unfold State.countIssue
  conv => arg 3; zeta
  repeat'
    first
    | with_reducible assumption
    | (simp -zeta only [↓is_mk, ↓State.exBump_keeps, ↓State.modBank_keeps]; try change Is q z _)
    | (with_reducible refine is_ite ?_ ?_; rotate_left; intro h; try simp -zeta only [↓is_mk, ↓State.exBump_keeps, ↓State.modBank_keeps] at h)
    | split

theorem State.pushOp_keeps : ∀ s x1 x2 x3 x4, Is q z (State.pushOp s x1 x2 x3 x4) ↔ Is q z s := by
  intro s x1 x2 x3 x4; refine is_iff fun q z hs => ?_
  unfold State.pushOp
  conv => arg 3; zeta
  repeat'
    first
    | with_reducible assumption
    | (simp -zeta only [↓is_mk, ↓State.feedFor_keeps, ↓State.modBank_keeps]; try change Is q z _)

theorem State.earlyException_keeps : ∀ s x1 x2 x3 x4, Is q z (State.earlyException s x1 x2 x3 x4) ↔ Is q z s := by
  intro s x1 x2 x3 x4; refine is_iff fun q z hs => ?_
  unfold State.earlyException
  conv => arg 3; zeta
  repeat'
    first
    | with_reducible assumption
    | (simp -zeta only [↓is_mk, ↓State.countIssue_keeps, ↓State.modBank_keeps, ↓State.pushOp_keeps, ↓State.retire_keeps]; try change Is q z _)
    | (with_reducible refine is_ite ?_ ?_; rotate_left; intro h; try simp -zeta only [↓is_mk, ↓State.countIssue_keeps, ↓State.modBank_keeps, ↓State.pushOp_keeps, ↓State.retire_keeps] at h)
    | split

theorem State.freeDoubles_keeps : ∀ s x1 x2, Is q z (State.freeDoubles s x1 x2).2 ↔ Is q z s := by
  intro s x1 x2; refine is_iff fun q z hs => ?_
  unfold State.freeDoubles
  dsimp only
  generalize ([] : List Dest) = l0
  have h : ∀ (l : List Dest) (f : List Dest × State → Dest → List Dest × State),
      (∀ a d, Is q z a.2 → Is q z (f a d).2) → ∀ a, Is q z a.2 → Is q z (l.foldl f a).2 := by
    intro l f hf
    induction l with
    | nil => intro a h; exact h
    | cons d l ih => intro a h; exact ih _ (hf _ _ h)
  refine h _ _ (fun a d ha => ?_) _ hs
  split
  · exact ⟨ha.1, ha.2⟩
  · exact ha

theorem State.issued_keeps : ∀ s x1 x2 x3 x4, Is q z (State.issued s x1 x2 x3 x4) ↔ Is q z s := by
  intro s x1 x2 x3 x4; refine is_iff fun q z hs => ?_
  unfold State.issued
  conv => arg 3; zeta
  repeat'
    first
    | with_reducible assumption
    | (simp -zeta only [↓is_mk, ↓State.countIssue_keeps, ↓State.modBank_keeps]; try change Is q z _)

theorem State.carry_keeps : ∀ s x1 x2, Is q z (State.carry s x1 x2) ↔ Is q z s := by
  intro s x1 x2; refine is_iff fun q z hs => ?_
  unfold State.carry
  conv => arg 3; zeta
  repeat'
    first
    | with_reducible assumption
    | (simp -zeta only [↓is_mk, ↓State.countIssue_keeps, ↓State.earlyException_keeps, ↓State.freeDoubles_keeps, ↓State.issued_keeps, ↓State.modBank_keeps, ↓State.pushOp_keeps, ↓State.retire_keeps]; try change Is q z _)
    | with_reducible refine is_foldl (fun s b hs => ?_) ?_
    | (split <;> try (rename_i h; refine is_step (is_snd (q := q) (z := z) h ?_) (fun hs => ?_); rotate_left; clear h))
    | split

theorem State.fillCache_keeps : ∀ s x1 x2, Is q z (State.fillCache s x1 x2) ↔ Is q z s := by
  intro s x1 x2; refine is_iff fun q z hs => ?_
  unfold State.fillCache
  conv => arg 3; zeta
  repeat'
    first
    | with_reducible assumption
    | (simp -zeta only [↓is_mk]; try change Is q z _)
    | (with_reducible refine is_ite ?_ ?_; rotate_left; intro h; try simp -zeta only [↓is_mk] at h)
    | (split <;> try (rename_i h; refine is_step (is_snd (q := q) (z := z) h ?_) (fun hs => ?_); rotate_left; clear h))
    | split

theorem State.noteFetchUe_keeps : ∀ s x1, Is q z (State.noteFetchUe s x1) ↔ Is q z s := by
  intro s x1; refine is_iff fun q z hs => ?_
  unfold State.noteFetchUe
  conv => arg 3; zeta
  repeat'
    first
    | with_reducible assumption
    | (simp -zeta only [↓is_mk, ↓State.cellMemFault_keeps, ↓State.engBump_keeps]; try change Is q z _)
    | (split <;> try (rename_i h; refine is_step (is_snd (q := q) (z := z) h ?_) (fun hs => ?_); rotate_left; clear h))
    | split

theorem State.issue.stepStop_keeps : ∀ s x1 x2, Is q z (State.issue.stepStop s x1 x2) ↔ Is q z s := by
  intro s x1 x2; refine is_iff fun q z hs => ?_
  unfold State.issue.stepStop
  conv => arg 3; zeta
  repeat'
    first
    | with_reducible assumption
    | (simp -zeta only [↓is_mk, ↓State.carry_keeps, ↓State.draw_keeps, ↓State.earlyException_keeps, ↓State.fillCache_keeps, ↓State.freeLanded_keeps, ↓State.modBank_keeps, ↓State.modCell_keeps, ↓State.noteFetchUe_keeps, ↓State.stallCheck_keeps, ↓State.traceDebug_keeps]; try change Is q z _)
    | refine State.issue_keeps (fun x s hs => ?_) ?_
    | (with_reducible refine is_ite ?_ ?_; rotate_left; intro h; try simp -zeta only [↓is_mk, ↓State.carry_keeps, ↓State.draw_keeps, ↓State.earlyException_keeps, ↓State.fillCache_keeps, ↓State.freeLanded_keeps, ↓State.modBank_keeps, ↓State.modCell_keeps, ↓State.noteFetchUe_keeps, ↓State.stallCheck_keeps, ↓State.traceDebug_keeps] at h)
    | (split <;> try (rename_i h; refine is_step (is_snd (q := q) (z := z) h ?_) (fun hs => ?_); rotate_left; clear h))
    | split

theorem State.issue.stewardStop_keeps : ∀ s, Is q z (State.issue.stewardStop s) ↔ Is q z s := by
  intro s; refine is_iff fun q z hs => ?_
  unfold State.issue.stewardStop
  conv => arg 3; zeta
  repeat'
    first
    | with_reducible assumption
    | (simp -zeta only [↓is_mk, ↓State.carry_keeps, ↓State.draw_keeps, ↓State.earlyException_keeps, ↓State.fillCache_keeps, ↓State.freeLanded_keeps, ↓State.modBank_keeps, ↓State.modCell_keeps, ↓State.noteFetchUe_keeps, ↓State.stallCheck_keeps, ↓State.issue.stepStop_keeps, ↓State.traceDebug_keeps]; try change Is q z _)
    | refine State.issue_keeps (fun x s hs => ?_) ?_
    | (with_reducible refine is_ite ?_ ?_; rotate_left; intro h; try simp -zeta only [↓is_mk, ↓State.carry_keeps, ↓State.draw_keeps, ↓State.earlyException_keeps, ↓State.fillCache_keeps, ↓State.freeLanded_keeps, ↓State.modBank_keeps, ↓State.modCell_keeps, ↓State.noteFetchUe_keeps, ↓State.stallCheck_keeps, ↓State.issue.stepStop_keeps, ↓State.traceDebug_keeps] at h)
    | (split <;> try (rename_i h; refine is_step (is_snd (q := q) (z := z) h ?_) (fun hs => ?_); rotate_left; clear h))
    | split

theorem State.issue_keeps {s : State} {a : At} {w : Word} {w2 : Option Word} {go : Ex → State → Act × State}
    (hgo : ∀ x s, Is q z s → Is q z (go x s).2) (hs : Is q z s) : Is q z (s.issue a w w2 go) := by
  unfold State.issue
  dsimp only
  split
  · exact hs
  · split
    · exact hs
    · split
      · simp only [↓State.earlyException_keeps]
        refine is_ite ?_ fun _ => ?_ <;>
          simpa only [↓State.noteFetchUe_keeps, ↓State.fillCache_keeps, ↓State.freeLanded_keeps, ↓State.modBank_keeps] using hs
      · refine is_ite ?_ fun _ => hs
        refine is_ite ?_ fun _ => ?_
        · split <;> (try split) <;>
            simp only [↓State.issue.stepStop_keeps, ↓State.issue.stewardStop_keeps, ↓State.stallCheck_keeps,
              ↓State.carry_keeps] <;>
            apply hgo <;>
            simpa only [↓State.fillCache_keeps, ↓State.freeLanded_keeps, ↓State.modBank_keeps] using hs
        · simpa only [↓State.earlyException_keeps, ↓State.fillCache_keeps, ↓State.freeLanded_keeps, ↓State.modBank_keeps] using hs

end Sys2Proof.Machine
end

