-- ==== Sys2Proof/Laws/KeepIsaInt.lean ====
section
/-! SUPPORT. No operation of IsaInt touches the command queue, and none but the burning of fuses
touches the fuses. -/

set_option linter.all false

namespace Sys2Proof.Machine

variable {q : List Instr} {z : Fuses}

theorem State.intOp_keeps : ∀ q z s x1 x2 x3 x4 x5, Is q z s → IsO q z (State.intOp s x1 x2 x3 x4 x5) := by
  intro q z s x1 x2 x3 x4 x5 hs
  unfold State.intOp
  conv => arg 3; zeta
  repeat'
    first
    | with_reducible assumption
    | (simp -zeta only [↓is_mk, ↓isO_next, ↓State.issue_keeps]; try change Is q z _)
    | refine State.issue_keeps (fun x s hs => ?_) ?_

theorem State.mulOp_keeps : ∀ q z s x1 x2 x3 x4 x5, Is q z s → IsO q z (State.mulOp s x1 x2 x3 x4 x5) := by
  intro q z s x1 x2 x3 x4 x5 hs
  unfold State.mulOp
  conv => arg 3; zeta
  repeat'
    first
    | with_reducible assumption
    | (simp -zeta only [↓is_mk, ↓isO_next, ↓State.issue_keeps]; try change Is q z _)
    | refine State.issue_keeps (fun x s hs => ?_) ?_

theorem State.accOp_keeps : ∀ q z s x1 x2 x3 x4, Is q z s → IsO q z (State.accOp s x1 x2 x3 x4) := by
  intro q z s x1 x2 x3 x4 hs
  unfold State.accOp
  conv => arg 3; zeta
  repeat'
    first
    | with_reducible assumption
    | (simp -zeta only [↓is_mk, ↓isO_next, ↓State.issue_keeps]; try change Is q z _)
    | refine State.issue_keeps (fun x s hs => ?_) ?_

theorem execAdd_keeps : ∀ q z x0 x1 x2 x3 s, Is q z s → IsO q z (execAdd x0 x1 x2 x3 s) := by
  intro q z x0 x1 x2 x3 s hs
  unfold execAdd
  conv => arg 3; zeta
  repeat'
    first
    | with_reducible assumption
    | (simp -zeta only [↓is_mk, ↓isO_next]; try change Is q z _)
    | with_reducible apply State.intOp_keeps

theorem execSub_keeps : ∀ q z x0 x1 x2 x3 s, Is q z s → IsO q z (execSub x0 x1 x2 x3 s) := by
  intro q z x0 x1 x2 x3 s hs
  unfold execSub
  conv => arg 3; zeta
  repeat'
    first
    | with_reducible assumption
    | (simp -zeta only [↓is_mk, ↓isO_next]; try change Is q z _)
    | with_reducible apply State.intOp_keeps

theorem execAnd_keeps : ∀ q z x0 x1 x2 x3 s, Is q z s → IsO q z (execAnd x0 x1 x2 x3 s) := by
  intro q z x0 x1 x2 x3 s hs
  unfold execAnd
  conv => arg 3; zeta
  repeat'
    first
    | with_reducible assumption
    | (simp -zeta only [↓is_mk, ↓isO_next]; try change Is q z _)
    | with_reducible apply State.intOp_keeps

theorem execOr_keeps : ∀ q z x0 x1 x2 x3 s, Is q z s → IsO q z (execOr x0 x1 x2 x3 s) := by
  intro q z x0 x1 x2 x3 s hs
  unfold execOr
  conv => arg 3; zeta
  repeat'
    first
    | with_reducible assumption
    | (simp -zeta only [↓is_mk, ↓isO_next]; try change Is q z _)
    | with_reducible apply State.intOp_keeps

theorem execXor_keeps : ∀ q z x0 x1 x2 x3 s, Is q z s → IsO q z (execXor x0 x1 x2 x3 s) := by
  intro q z x0 x1 x2 x3 s hs
  unfold execXor
  conv => arg 3; zeta
  repeat'
    first
    | with_reducible assumption
    | (simp -zeta only [↓is_mk, ↓isO_next]; try change Is q z _)
    | with_reducible apply State.intOp_keeps

theorem execAndn_keeps : ∀ q z x0 x1 x2 x3 s, Is q z s → IsO q z (execAndn x0 x1 x2 x3 s) := by
  intro q z x0 x1 x2 x3 s hs
  unfold execAndn
  conv => arg 3; zeta
  repeat'
    first
    | with_reducible assumption
    | (simp -zeta only [↓is_mk, ↓isO_next]; try change Is q z _)
    | with_reducible apply State.intOp_keeps

theorem execSll_keeps : ∀ q z x0 x1 x2 x3 s, Is q z s → IsO q z (execSll x0 x1 x2 x3 s) := by
  intro q z x0 x1 x2 x3 s hs
  unfold execSll
  conv => arg 3; zeta
  repeat'
    first
    | with_reducible assumption
    | (simp -zeta only [↓is_mk, ↓isO_next]; try change Is q z _)
    | with_reducible apply State.intOp_keeps

theorem execSrl_keeps : ∀ q z x0 x1 x2 x3 s, Is q z s → IsO q z (execSrl x0 x1 x2 x3 s) := by
  intro q z x0 x1 x2 x3 s hs
  unfold execSrl
  conv => arg 3; zeta
  repeat'
    first
    | with_reducible assumption
    | (simp -zeta only [↓is_mk, ↓isO_next]; try change Is q z _)
    | with_reducible apply State.intOp_keeps

theorem execSra_keeps : ∀ q z x0 x1 x2 x3 s, Is q z s → IsO q z (execSra x0 x1 x2 x3 s) := by
  intro q z x0 x1 x2 x3 s hs
  unfold execSra
  conv => arg 3; zeta
  repeat'
    first
    | with_reducible assumption
    | (simp -zeta only [↓is_mk, ↓isO_next]; try change Is q z _)
    | with_reducible apply State.intOp_keeps

theorem execRor_keeps : ∀ q z x0 x1 x2 x3 s, Is q z s → IsO q z (execRor x0 x1 x2 x3 s) := by
  intro q z x0 x1 x2 x3 s hs
  unfold execRor
  conv => arg 3; zeta
  repeat'
    first
    | with_reducible assumption
    | (simp -zeta only [↓is_mk, ↓isO_next]; try change Is q z _)
    | with_reducible apply State.intOp_keeps

theorem execSeq_keeps : ∀ q z x0 x1 x2 x3 s, Is q z s → IsO q z (execSeq x0 x1 x2 x3 s) := by
  intro q z x0 x1 x2 x3 s hs
  unfold execSeq
  conv => arg 3; zeta
  repeat'
    first
    | with_reducible assumption
    | (simp -zeta only [↓is_mk, ↓isO_next]; try change Is q z _)
    | with_reducible apply State.intOp_keeps

theorem execSne_keeps : ∀ q z x0 x1 x2 x3 s, Is q z s → IsO q z (execSne x0 x1 x2 x3 s) := by
  intro q z x0 x1 x2 x3 s hs
  unfold execSne
  conv => arg 3; zeta
  repeat'
    first
    | with_reducible assumption
    | (simp -zeta only [↓is_mk, ↓isO_next]; try change Is q z _)
    | with_reducible apply State.intOp_keeps

theorem execSlt_keeps : ∀ q z x0 x1 x2 x3 s, Is q z s → IsO q z (execSlt x0 x1 x2 x3 s) := by
  intro q z x0 x1 x2 x3 s hs
  unfold execSlt
  conv => arg 3; zeta
  repeat'
    first
    | with_reducible assumption
    | (simp -zeta only [↓is_mk, ↓isO_next]; try change Is q z _)
    | with_reducible apply State.intOp_keeps

theorem execSltu_keeps : ∀ q z x0 x1 x2 x3 s, Is q z s → IsO q z (execSltu x0 x1 x2 x3 s) := by
  intro q z x0 x1 x2 x3 s hs
  unfold execSltu
  conv => arg 3; zeta
  repeat'
    first
    | with_reducible assumption
    | (simp -zeta only [↓is_mk, ↓isO_next]; try change Is q z _)
    | with_reducible apply State.intOp_keeps

theorem execMin_keeps : ∀ q z x0 x1 x2 x3 s, Is q z s → IsO q z (execMin x0 x1 x2 x3 s) := by
  intro q z x0 x1 x2 x3 s hs
  unfold execMin
  conv => arg 3; zeta
  repeat'
    first
    | with_reducible assumption
    | (simp -zeta only [↓is_mk, ↓isO_next]; try change Is q z _)
    | with_reducible apply State.intOp_keeps
    | (with_reducible refine is_ite ?_ ?_; rotate_left; intro h; try simp -zeta only [↓is_mk, ↓isO_next] at h)
    | (with_reducible refine isO_ite ?_ ?_)
    | split

theorem execMax_keeps : ∀ q z x0 x1 x2 x3 s, Is q z s → IsO q z (execMax x0 x1 x2 x3 s) := by
  intro q z x0 x1 x2 x3 s hs
  unfold execMax
  conv => arg 3; zeta
  repeat'
    first
    | with_reducible assumption
    | (simp -zeta only [↓is_mk, ↓isO_next]; try change Is q z _)
    | with_reducible apply State.intOp_keeps
    | (with_reducible refine is_ite ?_ ?_; rotate_left; intro h; try simp -zeta only [↓is_mk, ↓isO_next] at h)
    | (with_reducible refine isO_ite ?_ ?_)
    | split

theorem execMinu_keeps : ∀ q z x0 x1 x2 x3 s, Is q z s → IsO q z (execMinu x0 x1 x2 x3 s) := by
  intro q z x0 x1 x2 x3 s hs
  unfold execMinu
  conv => arg 3; zeta
  repeat'
    first
    | with_reducible assumption
    | (simp -zeta only [↓is_mk, ↓isO_next]; try change Is q z _)
    | with_reducible apply State.intOp_keeps
    | (with_reducible refine is_ite ?_ ?_; rotate_left; intro h; try simp -zeta only [↓is_mk, ↓isO_next] at h)
    | (with_reducible refine isO_ite ?_ ?_)
    | split

theorem execMaxu_keeps : ∀ q z x0 x1 x2 x3 s, Is q z s → IsO q z (execMaxu x0 x1 x2 x3 s) := by
  intro q z x0 x1 x2 x3 s hs
  unfold execMaxu
  conv => arg 3; zeta
  repeat'
    first
    | with_reducible assumption
    | (simp -zeta only [↓is_mk, ↓isO_next]; try change Is q z _)
    | with_reducible apply State.intOp_keeps
    | (with_reducible refine is_ite ?_ ?_; rotate_left; intro h; try simp -zeta only [↓is_mk, ↓isO_next] at h)
    | (with_reducible refine isO_ite ?_ ?_)
    | split

theorem execAddw_keeps : ∀ q z x0 x1 x2 x3 s, Is q z s → IsO q z (execAddw x0 x1 x2 x3 s) := by
  intro q z x0 x1 x2 x3 s hs
  unfold execAddw
  conv => arg 3; zeta
  repeat'
    first
    | with_reducible assumption
    | (simp -zeta only [↓is_mk, ↓isO_next]; try change Is q z _)
    | with_reducible apply State.intOp_keeps

theorem execSubw_keeps : ∀ q z x0 x1 x2 x3 s, Is q z s → IsO q z (execSubw x0 x1 x2 x3 s) := by
  intro q z x0 x1 x2 x3 s hs
  unfold execSubw
  conv => arg 3; zeta
  repeat'
    first
    | with_reducible assumption
    | (simp -zeta only [↓is_mk, ↓isO_next]; try change Is q z _)
    | with_reducible apply State.intOp_keeps

theorem execAddc_keeps : ∀ q z x0 x1 x2 x3 x4 s, Is q z s → IsO q z (execAddc x0 x1 x2 x3 x4 s) := by
  intro q z x0 x1 x2 x3 x4 s hs
  unfold execAddc
  conv => arg 3; zeta
  repeat'
    first
    | with_reducible assumption
    | (simp -zeta only [↓is_mk, ↓isO_next]; try change Is q z _)
    | with_reducible apply State.intOp_keeps

theorem execCarry_keeps : ∀ q z x0 x1 x2 x3 x4 s, Is q z s → IsO q z (execCarry x0 x1 x2 x3 x4 s) := by
  intro q z x0 x1 x2 x3 x4 s hs
  unfold execCarry
  conv => arg 3; zeta
  repeat'
    first
    | with_reducible assumption
    | (simp -zeta only [↓is_mk, ↓isO_next]; try change Is q z _)
    | with_reducible apply State.intOp_keeps

theorem execSubb_keeps : ∀ q z x0 x1 x2 x3 x4 s, Is q z s → IsO q z (execSubb x0 x1 x2 x3 x4 s) := by
  intro q z x0 x1 x2 x3 x4 s hs
  unfold execSubb
  conv => arg 3; zeta
  repeat'
    first
    | with_reducible assumption
    | (simp -zeta only [↓is_mk, ↓isO_next]; try change Is q z _)
    | with_reducible apply State.intOp_keeps

theorem execBorrow_keeps : ∀ q z x0 x1 x2 x3 x4 s, Is q z s → IsO q z (execBorrow x0 x1 x2 x3 x4 s) := by
  intro q z x0 x1 x2 x3 x4 s hs
  unfold execBorrow
  conv => arg 3; zeta
  repeat'
    first
    | with_reducible assumption
    | (simp -zeta only [↓is_mk, ↓isO_next]; try change Is q z _)
    | with_reducible apply State.intOp_keeps

theorem execAcc128_keeps : ∀ q z x0 x1 x2 s, Is q z s → IsO q z (execAcc128 x0 x1 x2 s) := by
  intro q z x0 x1 x2 s hs
  unfold execAcc128
  conv => arg 3; zeta
  repeat'
    first
    | with_reducible assumption
    | (simp -zeta only [↓is_mk, ↓isO_next]; try change Is q z _)
    | with_reducible apply State.accOp_keeps

theorem execAcc128u_keeps : ∀ q z x0 x1 x2 s, Is q z s → IsO q z (execAcc128u x0 x1 x2 s) := by
  intro q z x0 x1 x2 s hs
  unfold execAcc128u
  conv => arg 3; zeta
  repeat'
    first
    | with_reducible assumption
    | (simp -zeta only [↓is_mk, ↓isO_next]; try change Is q z _)
    | with_reducible apply State.accOp_keeps

theorem execClz_keeps : ∀ q z x0 x1 x2 s, Is q z s → IsO q z (execClz x0 x1 x2 s) := by
  intro q z x0 x1 x2 s hs
  unfold execClz
  conv => arg 3; zeta
  repeat'
    first
    | with_reducible assumption
    | (simp -zeta only [↓is_mk, ↓isO_next]; try change Is q z _)
    | with_reducible apply State.intOp_keeps

theorem execCtz_keeps : ∀ q z x0 x1 x2 s, Is q z s → IsO q z (execCtz x0 x1 x2 s) := by
  intro q z x0 x1 x2 s hs
  unfold execCtz
  conv => arg 3; zeta
  repeat'
    first
    | with_reducible assumption
    | (simp -zeta only [↓is_mk, ↓isO_next]; try change Is q z _)
    | with_reducible apply State.intOp_keeps

theorem execPopc_keeps : ∀ q z x0 x1 x2 s, Is q z s → IsO q z (execPopc x0 x1 x2 s) := by
  intro q z x0 x1 x2 s hs
  unfold execPopc
  conv => arg 3; zeta
  repeat'
    first
    | with_reducible assumption
    | (simp -zeta only [↓is_mk, ↓isO_next]; try change Is q z _)
    | with_reducible apply State.intOp_keeps

theorem execBswap_keeps : ∀ q z x0 x1 x2 s, Is q z s → IsO q z (execBswap x0 x1 x2 s) := by
  intro q z x0 x1 x2 s hs
  unfold execBswap
  conv => arg 3; zeta
  repeat'
    first
    | with_reducible assumption
    | (simp -zeta only [↓is_mk, ↓isO_next]; try change Is q z _)
    | with_reducible apply State.intOp_keeps

theorem execAddi_keeps : ∀ q z x0 x1 x2 x3 s, Is q z s → IsO q z (execAddi x0 x1 x2 x3 s) := by
  intro q z x0 x1 x2 x3 s hs
  unfold execAddi
  conv => arg 3; zeta
  repeat'
    first
    | with_reducible assumption
    | (simp -zeta only [↓is_mk, ↓isO_next]; try change Is q z _)
    | with_reducible apply State.intOp_keeps

theorem execAndi_keeps : ∀ q z x0 x1 x2 x3 s, Is q z s → IsO q z (execAndi x0 x1 x2 x3 s) := by
  intro q z x0 x1 x2 x3 s hs
  unfold execAndi
  conv => arg 3; zeta
  repeat'
    first
    | with_reducible assumption
    | (simp -zeta only [↓is_mk, ↓isO_next]; try change Is q z _)
    | with_reducible apply State.intOp_keeps

theorem execOri_keeps : ∀ q z x0 x1 x2 x3 s, Is q z s → IsO q z (execOri x0 x1 x2 x3 s) := by
  intro q z x0 x1 x2 x3 s hs
  unfold execOri
  conv => arg 3; zeta
  repeat'
    first
    | with_reducible assumption
    | (simp -zeta only [↓is_mk, ↓isO_next]; try change Is q z _)
    | with_reducible apply State.intOp_keeps

theorem execXori_keeps : ∀ q z x0 x1 x2 x3 s, Is q z s → IsO q z (execXori x0 x1 x2 x3 s) := by
  intro q z x0 x1 x2 x3 s hs
  unfold execXori
  conv => arg 3; zeta
  repeat'
    first
    | with_reducible assumption
    | (simp -zeta only [↓is_mk, ↓isO_next]; try change Is q z _)
    | with_reducible apply State.intOp_keeps

theorem execSlti_keeps : ∀ q z x0 x1 x2 x3 s, Is q z s → IsO q z (execSlti x0 x1 x2 x3 s) := by
  intro q z x0 x1 x2 x3 s hs
  unfold execSlti
  conv => arg 3; zeta
  repeat'
    first
    | with_reducible assumption
    | (simp -zeta only [↓is_mk, ↓isO_next]; try change Is q z _)
    | with_reducible apply State.intOp_keeps

theorem execSltiu_keeps : ∀ q z x0 x1 x2 x3 s, Is q z s → IsO q z (execSltiu x0 x1 x2 x3 s) := by
  intro q z x0 x1 x2 x3 s hs
  unfold execSltiu
  conv => arg 3; zeta
  repeat'
    first
    | with_reducible assumption
    | (simp -zeta only [↓is_mk, ↓isO_next]; try change Is q z _)
    | with_reducible apply State.intOp_keeps

theorem execShi_keeps : ∀ q z x0 x1 x2 x3 x4 s, Is q z s → IsO q z (execShi x0 x1 x2 x3 x4 s) := by
  intro q z x0 x1 x2 x3 x4 s hs
  unfold execShi
  conv => arg 3; zeta
  repeat'
    first
    | with_reducible assumption
    | (simp -zeta only [↓is_mk, ↓isO_next]; try change Is q z _)
    | with_reducible apply State.intOp_keeps
    | (split <;> try (rename_i h; refine is_step (is_snd (q := q) (z := z) h ?_) (fun hs => ?_); rotate_left; clear h))
    | split

theorem execLui_keeps : ∀ q z x0 x1 x2 s, Is q z s → IsO q z (execLui x0 x1 x2 s) := by
  intro q z x0 x1 x2 s hs
  unfold execLui
  conv => arg 3; zeta
  repeat'
    first
    | with_reducible assumption
    | (simp -zeta only [↓is_mk, ↓isO_next]; try change Is q z _)
    | with_reducible apply State.intOp_keeps

theorem execExtu_keeps : ∀ q z x0 x1 x2 x3 x4 s, Is q z s → IsO q z (execExtu x0 x1 x2 x3 x4 s) := by
  intro q z x0 x1 x2 x3 x4 s hs
  unfold execExtu
  conv => arg 3; zeta
  repeat'
    first
    | with_reducible assumption
    | (simp -zeta only [↓is_mk, ↓isO_next]; try change Is q z _)
    | with_reducible apply State.intOp_keeps

theorem execExts_keeps : ∀ q z x0 x1 x2 x3 x4 s, Is q z s → IsO q z (execExts x0 x1 x2 x3 x4 s) := by
  intro q z x0 x1 x2 x3 x4 s hs
  unfold execExts
  conv => arg 3; zeta
  repeat'
    first
    | with_reducible assumption
    | (simp -zeta only [↓is_mk, ↓isO_next]; try change Is q z _)
    | with_reducible apply State.intOp_keeps

theorem execIns_keeps : ∀ q z x0 x1 x2 x3 x4 s, Is q z s → IsO q z (execIns x0 x1 x2 x3 x4 s) := by
  intro q z x0 x1 x2 x3 x4 s hs
  unfold execIns
  conv => arg 3; zeta
  repeat'
    first
    | with_reducible assumption
    | (simp -zeta only [↓is_mk, ↓isO_next]; try change Is q z _)
    | with_reducible apply State.intOp_keeps

theorem execLi_keeps : ∀ q z x0 x1 x2 s, Is q z s → IsO q z (execLi x0 x1 x2 s) := by
  intro q z x0 x1 x2 s hs
  unfold execLi
  conv => arg 3; zeta
  repeat'
    first
    | with_reducible assumption
    | (simp -zeta only [↓is_mk, ↓isO_next]; try change Is q z _)
    | with_reducible apply State.intOp_keeps

theorem execLih_keeps : ∀ q z x0 x1 x2 s, Is q z s → IsO q z (execLih x0 x1 x2 s) := by
  intro q z x0 x1 x2 s hs
  unfold execLih
  conv => arg 3; zeta
  repeat'
    first
    | with_reducible assumption
    | (simp -zeta only [↓is_mk, ↓isO_next]; try change Is q z _)
    | with_reducible apply State.intOp_keeps

theorem execAddx_keeps : ∀ q z x0 x1 x2 x3 s, Is q z s → IsO q z (execAddx x0 x1 x2 x3 s) := by
  intro q z x0 x1 x2 x3 s hs
  unfold execAddx
  conv => arg 3; zeta
  repeat'
    first
    | with_reducible assumption
    | (simp -zeta only [↓is_mk, ↓isO_next]; try change Is q z _)
    | with_reducible apply State.intOp_keeps

theorem execAndx_keeps : ∀ q z x0 x1 x2 x3 s, Is q z s → IsO q z (execAndx x0 x1 x2 x3 s) := by
  intro q z x0 x1 x2 x3 s hs
  unfold execAndx
  conv => arg 3; zeta
  repeat'
    first
    | with_reducible assumption
    | (simp -zeta only [↓is_mk, ↓isO_next]; try change Is q z _)
    | with_reducible apply State.intOp_keeps

theorem execOrx_keeps : ∀ q z x0 x1 x2 x3 s, Is q z s → IsO q z (execOrx x0 x1 x2 x3 s) := by
  intro q z x0 x1 x2 x3 s hs
  unfold execOrx
  conv => arg 3; zeta
  repeat'
    first
    | with_reducible assumption
    | (simp -zeta only [↓is_mk, ↓isO_next]; try change Is q z _)
    | with_reducible apply State.intOp_keeps

theorem execXorx_keeps : ∀ q z x0 x1 x2 x3 s, Is q z s → IsO q z (execXorx x0 x1 x2 x3 s) := by
  intro q z x0 x1 x2 x3 s hs
  unfold execXorx
  conv => arg 3; zeta
  repeat'
    first
    | with_reducible assumption
    | (simp -zeta only [↓is_mk, ↓isO_next]; try change Is q z _)
    | with_reducible apply State.intOp_keeps

theorem execMul_keeps : ∀ q z x0 x1 x2 x3 s, Is q z s → IsO q z (execMul x0 x1 x2 x3 s) := by
  intro q z x0 x1 x2 x3 s hs
  unfold execMul
  conv => arg 3; zeta
  repeat'
    first
    | with_reducible assumption
    | (simp -zeta only [↓is_mk, ↓isO_next]; try change Is q z _)
    | with_reducible apply State.mulOp_keeps

theorem execMulh_keeps : ∀ q z x0 x1 x2 x3 s, Is q z s → IsO q z (execMulh x0 x1 x2 x3 s) := by
  intro q z x0 x1 x2 x3 s hs
  unfold execMulh
  conv => arg 3; zeta
  repeat'
    first
    | with_reducible assumption
    | (simp -zeta only [↓is_mk, ↓isO_next]; try change Is q z _)
    | with_reducible apply State.mulOp_keeps

theorem execMulhu_keeps : ∀ q z x0 x1 x2 x3 s, Is q z s → IsO q z (execMulhu x0 x1 x2 x3 s) := by
  intro q z x0 x1 x2 x3 s hs
  unfold execMulhu
  conv => arg 3; zeta
  repeat'
    first
    | with_reducible assumption
    | (simp -zeta only [↓is_mk, ↓isO_next]; try change Is q z _)
    | with_reducible apply State.mulOp_keeps

theorem execMulhsu_keeps : ∀ q z x0 x1 x2 x3 s, Is q z s → IsO q z (execMulhsu x0 x1 x2 x3 s) := by
  intro q z x0 x1 x2 x3 s hs
  unfold execMulhsu
  conv => arg 3; zeta
  repeat'
    first
    | with_reducible assumption
    | (simp -zeta only [↓is_mk, ↓isO_next]; try change Is q z _)
    | with_reducible apply State.mulOp_keeps

theorem execMulw_keeps : ∀ q z x0 x1 x2 x3 s, Is q z s → IsO q z (execMulw x0 x1 x2 x3 s) := by
  intro q z x0 x1 x2 x3 s hs
  unfold execMulw
  conv => arg 3; zeta
  repeat'
    first
    | with_reducible assumption
    | (simp -zeta only [↓is_mk, ↓isO_next]; try change Is q z _)
    | with_reducible apply State.mulOp_keeps

theorem execMulwu_keeps : ∀ q z x0 x1 x2 x3 s, Is q z s → IsO q z (execMulwu x0 x1 x2 x3 s) := by
  intro q z x0 x1 x2 x3 s hs
  unfold execMulwu
  conv => arg 3; zeta
  repeat'
    first
    | with_reducible assumption
    | (simp -zeta only [↓is_mk, ↓isO_next]; try change Is q z _)
    | with_reducible apply State.mulOp_keeps

theorem execDiv_keeps : ∀ q z x0 x1 x2 x3 s, Is q z s → IsO q z (execDiv x0 x1 x2 x3 s) := by
  intro q z x0 x1 x2 x3 s hs
  unfold execDiv
  conv => arg 3; zeta
  repeat'
    first
    | with_reducible assumption
    | (simp -zeta only [↓is_mk, ↓isO_next]; try change Is q z _)
    | with_reducible apply State.mulOp_keeps

theorem execDivu_keeps : ∀ q z x0 x1 x2 x3 s, Is q z s → IsO q z (execDivu x0 x1 x2 x3 s) := by
  intro q z x0 x1 x2 x3 s hs
  unfold execDivu
  conv => arg 3; zeta
  repeat'
    first
    | with_reducible assumption
    | (simp -zeta only [↓is_mk, ↓isO_next]; try change Is q z _)
    | with_reducible apply State.mulOp_keeps

theorem execRem_keeps : ∀ q z x0 x1 x2 x3 s, Is q z s → IsO q z (execRem x0 x1 x2 x3 s) := by
  intro q z x0 x1 x2 x3 s hs
  unfold execRem
  conv => arg 3; zeta
  repeat'
    first
    | with_reducible assumption
    | (simp -zeta only [↓is_mk, ↓isO_next]; try change Is q z _)
    | with_reducible apply State.mulOp_keeps

theorem execRemu_keeps : ∀ q z x0 x1 x2 x3 s, Is q z s → IsO q z (execRemu x0 x1 x2 x3 s) := by
  intro q z x0 x1 x2 x3 s hs
  unfold execRemu
  conv => arg 3; zeta
  repeat'
    first
    | with_reducible assumption
    | (simp -zeta only [↓is_mk, ↓isO_next]; try change Is q z _)
    | with_reducible apply State.mulOp_keeps

theorem execDivw_keeps : ∀ q z x0 x1 x2 x3 s, Is q z s → IsO q z (execDivw x0 x1 x2 x3 s) := by
  intro q z x0 x1 x2 x3 s hs
  unfold execDivw
  conv => arg 3; zeta
  repeat'
    first
    | with_reducible assumption
    | (simp -zeta only [↓is_mk, ↓isO_next]; try change Is q z _)
    | with_reducible apply State.mulOp_keeps

theorem execDivwu_keeps : ∀ q z x0 x1 x2 x3 s, Is q z s → IsO q z (execDivwu x0 x1 x2 x3 s) := by
  intro q z x0 x1 x2 x3 s hs
  unfold execDivwu
  conv => arg 3; zeta
  repeat'
    first
    | with_reducible assumption
    | (simp -zeta only [↓is_mk, ↓isO_next]; try change Is q z _)
    | with_reducible apply State.mulOp_keeps

theorem execRemw_keeps : ∀ q z x0 x1 x2 x3 s, Is q z s → IsO q z (execRemw x0 x1 x2 x3 s) := by
  intro q z x0 x1 x2 x3 s hs
  unfold execRemw
  conv => arg 3; zeta
  repeat'
    first
    | with_reducible assumption
    | (simp -zeta only [↓is_mk, ↓isO_next]; try change Is q z _)
    | with_reducible apply State.mulOp_keeps

theorem execRemwu_keeps : ∀ q z x0 x1 x2 x3 s, Is q z s → IsO q z (execRemwu x0 x1 x2 x3 s) := by
  intro q z x0 x1 x2 x3 s hs
  unfold execRemwu
  conv => arg 3; zeta
  repeat'
    first
    | with_reducible assumption
    | (simp -zeta only [↓is_mk, ↓isO_next]; try change Is q z _)
    | with_reducible apply State.mulOp_keeps

end Sys2Proof.Machine
end

