-- ==== Sys2Proof/Laws/KeepIsaFp.lean ====
section
/-! SUPPORT. No operation of IsaFp touches the command queue, and none but the burning of fuses
touches the fuses. -/

set_option linter.all false

namespace Sys2Proof.Machine

variable {q : List Instr} {z : Fuses}

theorem State.fpOp_keeps : ∀ q z s x1 x2 x3 x4 x5 x6 x7 x8 x9, Is q z s → IsO q z (State.fpOp s x1 x2 x3 x4 x5 x6 x7 x8 x9) := by
  intro q z s x1 x2 x3 x4 x5 x6 x7 x8 x9 hs
  unfold State.fpOp
  conv => arg 3; zeta
  repeat'
    first
    | with_reducible assumption
    | (simp -zeta only [↓is_mk, ↓isO_next, ↓State.issue_keeps]; try change Is q z _)
    | refine State.issue_keeps (fun x s hs => ?_) ?_
    | (split <;> try (rename_i h; refine is_step (is_snd (q := q) (z := z) h ?_) (fun hs => ?_); rotate_left; clear h))

theorem State.fpFromInt_keeps : ∀ q z s x1 x2 x3 x4 x5 x6, Is q z s → IsO q z (State.fpFromInt s x1 x2 x3 x4 x5 x6) := by
  intro q z s x1 x2 x3 x4 x5 x6 hs
  unfold State.fpFromInt
  conv => arg 3; zeta
  repeat'
    first
    | with_reducible assumption
    | (simp -zeta only [↓is_mk, ↓isO_next, ↓State.issue_keeps]; try change Is q z _)
    | refine State.issue_keeps (fun x s hs => ?_) ?_
    | (split <;> try (rename_i h; refine is_step (is_snd (q := q) (z := z) h ?_) (fun hs => ?_); rotate_left; clear h))

theorem execFadd_keeps : ∀ q z x0 x1 x2 x3 x4 s, Is q z s → IsO q z (execFadd x0 x1 x2 x3 x4 s) := by
  intro q z x0 x1 x2 x3 x4 s hs
  unfold execFadd
  conv => arg 3; zeta
  repeat'
    first
    | with_reducible assumption
    | (simp -zeta only [↓is_mk, ↓isO_next]; try change Is q z _)
    | with_reducible apply State.fpOp_keeps

theorem execFsub_keeps : ∀ q z x0 x1 x2 x3 x4 s, Is q z s → IsO q z (execFsub x0 x1 x2 x3 x4 s) := by
  intro q z x0 x1 x2 x3 x4 s hs
  unfold execFsub
  conv => arg 3; zeta
  repeat'
    first
    | with_reducible assumption
    | (simp -zeta only [↓is_mk, ↓isO_next]; try change Is q z _)
    | with_reducible apply State.fpOp_keeps

theorem execFmul_keeps : ∀ q z x0 x1 x2 x3 x4 s, Is q z s → IsO q z (execFmul x0 x1 x2 x3 x4 s) := by
  intro q z x0 x1 x2 x3 x4 s hs
  unfold execFmul
  conv => arg 3; zeta
  repeat'
    first
    | with_reducible assumption
    | (simp -zeta only [↓is_mk, ↓isO_next]; try change Is q z _)
    | with_reducible apply State.fpOp_keeps

theorem execFdiv_keeps : ∀ q z x0 x1 x2 x3 x4 s, Is q z s → IsO q z (execFdiv x0 x1 x2 x3 x4 s) := by
  intro q z x0 x1 x2 x3 x4 s hs
  unfold execFdiv
  conv => arg 3; zeta
  repeat'
    first
    | with_reducible assumption
    | (simp -zeta only [↓is_mk, ↓isO_next]; try change Is q z _)
    | with_reducible apply State.fpOp_keeps

theorem execFsqrt_keeps : ∀ q z x0 x1 x2 x3 s, Is q z s → IsO q z (execFsqrt x0 x1 x2 x3 s) := by
  intro q z x0 x1 x2 x3 s hs
  unfold execFsqrt
  conv => arg 3; zeta
  repeat'
    first
    | with_reducible assumption
    | (simp -zeta only [↓is_mk, ↓isO_next]; try change Is q z _)
    | with_reducible apply State.fpOp_keeps

theorem execFma_keeps : ∀ q z x0 x1 x2 x3 x4 x5 s, Is q z s → IsO q z (execFma x0 x1 x2 x3 x4 x5 s) := by
  intro q z x0 x1 x2 x3 x4 x5 s hs
  unfold execFma
  conv => arg 3; zeta
  repeat'
    first
    | with_reducible assumption
    | (simp -zeta only [↓is_mk, ↓isO_next]; try change Is q z _)
    | with_reducible apply State.fpOp_keeps

theorem execFms_keeps : ∀ q z x0 x1 x2 x3 x4 x5 s, Is q z s → IsO q z (execFms x0 x1 x2 x3 x4 x5 s) := by
  intro q z x0 x1 x2 x3 x4 x5 s hs
  unfold execFms
  conv => arg 3; zeta
  repeat'
    first
    | with_reducible assumption
    | (simp -zeta only [↓is_mk, ↓isO_next]; try change Is q z _)
    | with_reducible apply State.fpOp_keeps

theorem execFnma_keeps : ∀ q z x0 x1 x2 x3 x4 x5 s, Is q z s → IsO q z (execFnma x0 x1 x2 x3 x4 x5 s) := by
  intro q z x0 x1 x2 x3 x4 x5 s hs
  unfold execFnma
  conv => arg 3; zeta
  repeat'
    first
    | with_reducible assumption
    | (simp -zeta only [↓is_mk, ↓isO_next]; try change Is q z _)
    | with_reducible apply State.fpOp_keeps

theorem execFmin_keeps : ∀ q z x0 x1 x2 x3 x4 s, Is q z s → IsO q z (execFmin x0 x1 x2 x3 x4 s) := by
  intro q z x0 x1 x2 x3 x4 s hs
  unfold execFmin
  conv => arg 3; zeta
  repeat'
    first
    | with_reducible assumption
    | (simp -zeta only [↓is_mk, ↓isO_next]; try change Is q z _)
    | with_reducible apply State.fpOp_keeps

theorem execFmax_keeps : ∀ q z x0 x1 x2 x3 x4 s, Is q z s → IsO q z (execFmax x0 x1 x2 x3 x4 s) := by
  intro q z x0 x1 x2 x3 x4 s hs
  unfold execFmax
  conv => arg 3; zeta
  repeat'
    first
    | with_reducible assumption
    | (simp -zeta only [↓is_mk, ↓isO_next]; try change Is q z _)
    | with_reducible apply State.fpOp_keeps

theorem execFabs_keeps : ∀ q z x0 x1 x2 x3 s, Is q z s → IsO q z (execFabs x0 x1 x2 x3 s) := by
  intro q z x0 x1 x2 x3 s hs
  unfold execFabs
  conv => arg 3; zeta
  repeat'
    first
    | with_reducible assumption
    | (simp -zeta only [↓is_mk, ↓isO_next]; try change Is q z _)
    | with_reducible apply State.fpOp_keeps

theorem execFneg_keeps : ∀ q z x0 x1 x2 x3 s, Is q z s → IsO q z (execFneg x0 x1 x2 x3 s) := by
  intro q z x0 x1 x2 x3 s hs
  unfold execFneg
  conv => arg 3; zeta
  repeat'
    first
    | with_reducible assumption
    | (simp -zeta only [↓is_mk, ↓isO_next]; try change Is q z _)
    | with_reducible apply State.fpOp_keeps

theorem execFcmpeq_keeps : ∀ q z x0 x1 x2 x3 x4 s, Is q z s → IsO q z (execFcmpeq x0 x1 x2 x3 x4 s) := by
  intro q z x0 x1 x2 x3 x4 s hs
  unfold execFcmpeq
  conv => arg 3; zeta
  repeat'
    first
    | with_reducible assumption
    | (simp -zeta only [↓is_mk, ↓isO_next]; try change Is q z _)
    | with_reducible apply State.fpOp_keeps

theorem execFcmplt_keeps : ∀ q z x0 x1 x2 x3 x4 s, Is q z s → IsO q z (execFcmplt x0 x1 x2 x3 x4 s) := by
  intro q z x0 x1 x2 x3 x4 s hs
  unfold execFcmplt
  conv => arg 3; zeta
  repeat'
    first
    | with_reducible assumption
    | (simp -zeta only [↓is_mk, ↓isO_next]; try change Is q z _)
    | with_reducible apply State.fpOp_keeps

theorem execFcmple_keeps : ∀ q z x0 x1 x2 x3 x4 s, Is q z s → IsO q z (execFcmple x0 x1 x2 x3 x4 s) := by
  intro q z x0 x1 x2 x3 x4 s hs
  unfold execFcmple
  conv => arg 3; zeta
  repeat'
    first
    | with_reducible assumption
    | (simp -zeta only [↓is_mk, ↓isO_next]; try change Is q z _)
    | with_reducible apply State.fpOp_keeps

theorem execFcmpun_keeps : ∀ q z x0 x1 x2 x3 x4 s, Is q z s → IsO q z (execFcmpun x0 x1 x2 x3 x4 s) := by
  intro q z x0 x1 x2 x3 x4 s hs
  unfold execFcmpun
  conv => arg 3; zeta
  repeat'
    first
    | with_reducible assumption
    | (simp -zeta only [↓is_mk, ↓isO_next]; try change Is q z _)
    | with_reducible apply State.fpOp_keeps

theorem execFclass_keeps : ∀ q z x0 x1 x2 x3 s, Is q z s → IsO q z (execFclass x0 x1 x2 x3 s) := by
  intro q z x0 x1 x2 x3 s hs
  unfold execFclass
  conv => arg 3; zeta
  repeat'
    first
    | with_reducible assumption
    | (simp -zeta only [↓is_mk, ↓isO_next]; try change Is q z _)
    | with_reducible apply State.fpOp_keeps

theorem execFcvtI_keeps : ∀ q z x0 x1 x2 x3 s, Is q z s → IsO q z (execFcvtI x0 x1 x2 x3 s) := by
  intro q z x0 x1 x2 x3 s hs
  unfold execFcvtI
  conv => arg 3; zeta
  repeat'
    first
    | with_reducible assumption
    | (simp -zeta only [↓is_mk, ↓isO_next]; try change Is q z _)
    | with_reducible apply State.fpOp_keeps

theorem execFcvtU_keeps : ∀ q z x0 x1 x2 x3 s, Is q z s → IsO q z (execFcvtU x0 x1 x2 x3 s) := by
  intro q z x0 x1 x2 x3 s hs
  unfold execFcvtU
  conv => arg 3; zeta
  repeat'
    first
    | with_reducible assumption
    | (simp -zeta only [↓is_mk, ↓isO_next]; try change Is q z _)
    | with_reducible apply State.fpOp_keeps

theorem execFcvtP_keeps : ∀ q z x0 x1 x2 x3 s, Is q z s → IsO q z (execFcvtP x0 x1 x2 x3 s) := by
  intro q z x0 x1 x2 x3 s hs
  unfold execFcvtP
  conv => arg 3; zeta
  repeat'
    first
    | with_reducible assumption
    | (simp -zeta only [↓is_mk, ↓isO_next]; try change Is q z _)
    | with_reducible apply State.fpOp_keeps

theorem execFsgnj_keeps : ∀ q z x0 x1 x2 x3 x4 s, Is q z s → IsO q z (execFsgnj x0 x1 x2 x3 x4 s) := by
  intro q z x0 x1 x2 x3 x4 s hs
  unfold execFsgnj
  conv => arg 3; zeta
  repeat'
    first
    | with_reducible assumption
    | (simp -zeta only [↓is_mk, ↓isO_next]; try change Is q z _)
    | with_reducible apply State.fpOp_keeps

theorem execFcvtF_keeps : ∀ q z x0 x1 x2 x3 s, Is q z s → IsO q z (execFcvtF x0 x1 x2 x3 s) := by
  intro q z x0 x1 x2 x3 s hs
  unfold execFcvtF
  conv => arg 3; zeta
  repeat'
    first
    | with_reducible assumption
    | (simp -zeta only [↓is_mk, ↓isO_next]; try change Is q z _)
    | with_reducible apply State.fpFromInt_keeps

theorem execFcvtFu_keeps : ∀ q z x0 x1 x2 x3 s, Is q z s → IsO q z (execFcvtFu x0 x1 x2 x3 s) := by
  intro q z x0 x1 x2 x3 s hs
  unfold execFcvtFu
  conv => arg 3; zeta
  repeat'
    first
    | with_reducible assumption
    | (simp -zeta only [↓is_mk, ↓isO_next]; try change Is q z _)
    | with_reducible apply State.fpFromInt_keeps

end Sys2Proof.Machine
end

