-- ==== Sys2Proof/Laws/KeepIsaVec.lean ====
section
/-! SUPPORT. No operation of IsaVec touches the command queue, and none but the burning of fuses
touches the fuses. -/

set_option linter.all false

namespace Sys2Proof.Machine

variable {q : List Instr} {z : Fuses}

theorem State.vfp_keeps : ∀ q z s x1 x2 x3 x4 x5 x6 x7 x8 x9, Is q z s → IsO q z (State.vfp s x1 x2 x3 x4 x5 x6 x7 x8 x9) := by
  intro q z s x1 x2 x3 x4 x5 x6 x7 x8 x9 hs
  unfold State.vfp
  conv => arg 3; zeta
  repeat'
    first
    | with_reducible assumption
    | (simp -zeta only [↓is_mk, ↓isO_next, ↓State.issue_keeps]; try change Is q z _)
    | refine State.issue_keeps (fun x s hs => ?_) ?_

theorem State.vint_keeps : ∀ q z s x1 x2 x3 x4 x5 x6 x7 x8, Is q z s → IsO q z (State.vint s x1 x2 x3 x4 x5 x6 x7 x8) := by
  intro q z s x1 x2 x3 x4 x5 x6 x7 x8 hs
  unfold State.vint
  conv => arg 3; zeta
  repeat'
    first
    | with_reducible assumption
    | (simp -zeta only [↓is_mk, ↓isO_next, ↓State.issue_keeps]; try change Is q z _)
    | refine State.issue_keeps (fun x s hs => ?_) ?_

theorem State.vcmul_keeps : ∀ q z s x1 x2 x3 x4 x5 x6 x7, Is q z s → IsO q z (State.vcmul s x1 x2 x3 x4 x5 x6 x7) := by
  intro q z s x1 x2 x3 x4 x5 x6 x7 hs
  unfold State.vcmul
  conv => arg 3; zeta
  repeat'
    first
    | with_reducible assumption
    | (simp -zeta only [↓is_mk, ↓isO_next, ↓State.issue_keeps]; try change Is q z _)
    | refine State.issue_keeps (fun x s hs => ?_) ?_
    | (with_reducible refine is_ite ?_ ?_; rotate_left; intro h; try simp -zeta only [↓is_mk, ↓isO_next, ↓State.issue_keeps] at h)
    | (with_reducible refine isO_ite ?_ ?_)
    | (split <;> try (rename_i h; refine is_step (is_snd (q := q) (z := z) h ?_) (fun hs => ?_); rotate_left; clear h))
    | split

theorem execVfadd_keeps : ∀ q z x0 x1 x2 x3 x4 s, Is q z s → IsO q z (execVfadd x0 x1 x2 x3 x4 s) := by
  intro q z x0 x1 x2 x3 x4 s hs
  unfold execVfadd
  conv => arg 3; zeta
  repeat'
    first
    | with_reducible assumption
    | (simp -zeta only [↓is_mk, ↓isO_next]; try change Is q z _)
    | with_reducible apply State.vfp_keeps

theorem execVfsub_keeps : ∀ q z x0 x1 x2 x3 x4 s, Is q z s → IsO q z (execVfsub x0 x1 x2 x3 x4 s) := by
  intro q z x0 x1 x2 x3 x4 s hs
  unfold execVfsub
  conv => arg 3; zeta
  repeat'
    first
    | with_reducible assumption
    | (simp -zeta only [↓is_mk, ↓isO_next]; try change Is q z _)
    | with_reducible apply State.vfp_keeps

theorem execVfmul_keeps : ∀ q z x0 x1 x2 x3 x4 s, Is q z s → IsO q z (execVfmul x0 x1 x2 x3 x4 s) := by
  intro q z x0 x1 x2 x3 x4 s hs
  unfold execVfmul
  conv => arg 3; zeta
  repeat'
    first
    | with_reducible assumption
    | (simp -zeta only [↓is_mk, ↓isO_next]; try change Is q z _)
    | with_reducible apply State.vfp_keeps

theorem execVfdiv_keeps : ∀ q z x0 x1 x2 x3 x4 s, Is q z s → IsO q z (execVfdiv x0 x1 x2 x3 x4 s) := by
  intro q z x0 x1 x2 x3 x4 s hs
  unfold execVfdiv
  conv => arg 3; zeta
  repeat'
    first
    | with_reducible assumption
    | (simp -zeta only [↓is_mk, ↓isO_next]; try change Is q z _)
    | with_reducible apply State.vfp_keeps

theorem execVfsqrt_keeps : ∀ q z x0 x1 x2 x3 s, Is q z s → IsO q z (execVfsqrt x0 x1 x2 x3 s) := by
  intro q z x0 x1 x2 x3 s hs
  unfold execVfsqrt
  conv => arg 3; zeta
  repeat'
    first
    | with_reducible assumption
    | (simp -zeta only [↓is_mk, ↓isO_next]; try change Is q z _)
    | with_reducible apply State.vfp_keeps

theorem execVfma_keeps : ∀ q z x0 x1 x2 x3 x4 x5 s, Is q z s → IsO q z (execVfma x0 x1 x2 x3 x4 x5 s) := by
  intro q z x0 x1 x2 x3 x4 x5 s hs
  unfold execVfma
  conv => arg 3; zeta
  repeat'
    first
    | with_reducible assumption
    | (simp -zeta only [↓is_mk, ↓isO_next]; try change Is q z _)
    | with_reducible apply State.vfp_keeps

theorem execVfms_keeps : ∀ q z x0 x1 x2 x3 x4 x5 s, Is q z s → IsO q z (execVfms x0 x1 x2 x3 x4 x5 s) := by
  intro q z x0 x1 x2 x3 x4 x5 s hs
  unfold execVfms
  conv => arg 3; zeta
  repeat'
    first
    | with_reducible assumption
    | (simp -zeta only [↓is_mk, ↓isO_next]; try change Is q z _)
    | with_reducible apply State.vfp_keeps

theorem execVfnma_keeps : ∀ q z x0 x1 x2 x3 x4 x5 s, Is q z s → IsO q z (execVfnma x0 x1 x2 x3 x4 x5 s) := by
  intro q z x0 x1 x2 x3 x4 x5 s hs
  unfold execVfnma
  conv => arg 3; zeta
  repeat'
    first
    | with_reducible assumption
    | (simp -zeta only [↓is_mk, ↓isO_next]; try change Is q z _)
    | with_reducible apply State.vfp_keeps

theorem execVfmin_keeps : ∀ q z x0 x1 x2 x3 x4 s, Is q z s → IsO q z (execVfmin x0 x1 x2 x3 x4 s) := by
  intro q z x0 x1 x2 x3 x4 s hs
  unfold execVfmin
  conv => arg 3; zeta
  repeat'
    first
    | with_reducible assumption
    | (simp -zeta only [↓is_mk, ↓isO_next]; try change Is q z _)
    | with_reducible apply State.vfp_keeps

theorem execVfmax_keeps : ∀ q z x0 x1 x2 x3 x4 s, Is q z s → IsO q z (execVfmax x0 x1 x2 x3 x4 s) := by
  intro q z x0 x1 x2 x3 x4 s hs
  unfold execVfmax
  conv => arg 3; zeta
  repeat'
    first
    | with_reducible assumption
    | (simp -zeta only [↓is_mk, ↓isO_next]; try change Is q z _)
    | with_reducible apply State.vfp_keeps

theorem execVfabs_keeps : ∀ q z x0 x1 x2 x3 s, Is q z s → IsO q z (execVfabs x0 x1 x2 x3 s) := by
  intro q z x0 x1 x2 x3 s hs
  unfold execVfabs
  conv => arg 3; zeta
  repeat'
    first
    | with_reducible assumption
    | (simp -zeta only [↓is_mk, ↓isO_next]; try change Is q z _)
    | with_reducible apply State.vfp_keeps

theorem execVfneg_keeps : ∀ q z x0 x1 x2 x3 s, Is q z s → IsO q z (execVfneg x0 x1 x2 x3 s) := by
  intro q z x0 x1 x2 x3 s hs
  unfold execVfneg
  conv => arg 3; zeta
  repeat'
    first
    | with_reducible assumption
    | (simp -zeta only [↓is_mk, ↓isO_next]; try change Is q z _)
    | with_reducible apply State.vfp_keeps

theorem execVfcmpeq_keeps : ∀ q z x0 x1 x2 x3 x4 s, Is q z s → IsO q z (execVfcmpeq x0 x1 x2 x3 x4 s) := by
  intro q z x0 x1 x2 x3 x4 s hs
  unfold execVfcmpeq
  conv => arg 3; zeta
  repeat'
    first
    | with_reducible assumption
    | (simp -zeta only [↓is_mk, ↓isO_next]; try change Is q z _)
    | with_reducible apply State.vfp_keeps

theorem execVfcmplt_keeps : ∀ q z x0 x1 x2 x3 x4 s, Is q z s → IsO q z (execVfcmplt x0 x1 x2 x3 x4 s) := by
  intro q z x0 x1 x2 x3 x4 s hs
  unfold execVfcmplt
  conv => arg 3; zeta
  repeat'
    first
    | with_reducible assumption
    | (simp -zeta only [↓is_mk, ↓isO_next]; try change Is q z _)
    | with_reducible apply State.vfp_keeps

theorem execVfcmple_keeps : ∀ q z x0 x1 x2 x3 x4 s, Is q z s → IsO q z (execVfcmple x0 x1 x2 x3 x4 s) := by
  intro q z x0 x1 x2 x3 x4 s hs
  unfold execVfcmple
  conv => arg 3; zeta
  repeat'
    first
    | with_reducible assumption
    | (simp -zeta only [↓is_mk, ↓isO_next]; try change Is q z _)
    | with_reducible apply State.vfp_keeps

theorem execVfcmpun_keeps : ∀ q z x0 x1 x2 x3 x4 s, Is q z s → IsO q z (execVfcmpun x0 x1 x2 x3 x4 s) := by
  intro q z x0 x1 x2 x3 x4 s hs
  unfold execVfcmpun
  conv => arg 3; zeta
  repeat'
    first
    | with_reducible assumption
    | (simp -zeta only [↓is_mk, ↓isO_next]; try change Is q z _)
    | with_reducible apply State.vfp_keeps

theorem execVfclass_keeps : ∀ q z x0 x1 x2 x3 s, Is q z s → IsO q z (execVfclass x0 x1 x2 x3 s) := by
  intro q z x0 x1 x2 x3 s hs
  unfold execVfclass
  conv => arg 3; zeta
  repeat'
    first
    | with_reducible assumption
    | (simp -zeta only [↓is_mk, ↓isO_next]; try change Is q z _)
    | with_reducible apply State.vfp_keeps

theorem execVfcvtI_keeps : ∀ q z x0 x1 x2 x3 s, Is q z s → IsO q z (execVfcvtI x0 x1 x2 x3 s) := by
  intro q z x0 x1 x2 x3 s hs
  unfold execVfcvtI
  conv => arg 3; zeta
  repeat'
    first
    | with_reducible assumption
    | (simp -zeta only [↓is_mk, ↓isO_next]; try change Is q z _)
    | with_reducible apply State.vfp_keeps

theorem execVfcvtU_keeps : ∀ q z x0 x1 x2 x3 s, Is q z s → IsO q z (execVfcvtU x0 x1 x2 x3 s) := by
  intro q z x0 x1 x2 x3 s hs
  unfold execVfcvtU
  conv => arg 3; zeta
  repeat'
    first
    | with_reducible assumption
    | (simp -zeta only [↓is_mk, ↓isO_next]; try change Is q z _)
    | with_reducible apply State.vfp_keeps

theorem execVfsgnj_keeps : ∀ q z x0 x1 x2 x3 x4 s, Is q z s → IsO q z (execVfsgnj x0 x1 x2 x3 x4 s) := by
  intro q z x0 x1 x2 x3 x4 s hs
  unfold execVfsgnj
  conv => arg 3; zeta
  repeat'
    first
    | with_reducible assumption
    | (simp -zeta only [↓is_mk, ↓isO_next]; try change Is q z _)
    | with_reducible apply State.vfp_keeps

theorem execVfcvtF_keeps : ∀ q z x0 x1 x2 x3 s, Is q z s → IsO q z (execVfcvtF x0 x1 x2 x3 s) := by
  intro q z x0 x1 x2 x3 s hs
  unfold execVfcvtF
  conv => arg 3; zeta
  repeat'
    first
    | with_reducible assumption
    | (simp -zeta only [↓is_mk, ↓isO_next]; try change Is q z _)
    | with_reducible apply State.vfp_keeps

theorem execVfcvtFu_keeps : ∀ q z x0 x1 x2 x3 s, Is q z s → IsO q z (execVfcvtFu x0 x1 x2 x3 s) := by
  intro q z x0 x1 x2 x3 s hs
  unfold execVfcvtFu
  conv => arg 3; zeta
  repeat'
    first
    | with_reducible assumption
    | (simp -zeta only [↓is_mk, ↓isO_next]; try change Is q z _)
    | with_reducible apply State.vfp_keeps

theorem execVfcvtP_keeps : ∀ q z x0 x1 x2 x3 s, Is q z s → IsO q z (execVfcvtP x0 x1 x2 x3 s) := by
  intro q z x0 x1 x2 x3 s hs
  unfold execVfcvtP
  conv => arg 3; zeta
  repeat'
    first
    | with_reducible assumption
    | (simp -zeta only [↓is_mk, ↓isO_next, ↓State.issue_keeps]; try change Is q z _)
    | refine State.issue_keeps (fun x s hs => ?_) ?_
    | (with_reducible refine is_ite ?_ ?_; rotate_left; intro h; try simp -zeta only [↓is_mk, ↓isO_next, ↓State.issue_keeps] at h)
    | (with_reducible refine isO_ite ?_ ?_)
    | split

theorem execVfrsum_keeps : ∀ q z x0 x1 x2 x3 s, Is q z s → IsO q z (execVfrsum x0 x1 x2 x3 s) := by
  intro q z x0 x1 x2 x3 s hs
  unfold execVfrsum
  conv => arg 3; zeta
  repeat'
    first
    | with_reducible assumption
    | (simp -zeta only [↓is_mk, ↓isO_next, ↓State.issue_keeps]; try change Is q z _)
    | refine State.issue_keeps (fun x s hs => ?_) ?_

theorem execVadd_keeps : ∀ q z x0 x1 x2 x3 x4 s, Is q z s → IsO q z (execVadd x0 x1 x2 x3 x4 s) := by
  intro q z x0 x1 x2 x3 x4 s hs
  unfold execVadd
  conv => arg 3; zeta
  repeat'
    first
    | with_reducible assumption
    | (simp -zeta only [↓is_mk, ↓isO_next]; try change Is q z _)
    | with_reducible apply State.vint_keeps

theorem execVsub_keeps : ∀ q z x0 x1 x2 x3 x4 s, Is q z s → IsO q z (execVsub x0 x1 x2 x3 x4 s) := by
  intro q z x0 x1 x2 x3 x4 s hs
  unfold execVsub
  conv => arg 3; zeta
  repeat'
    first
    | with_reducible assumption
    | (simp -zeta only [↓is_mk, ↓isO_next]; try change Is q z _)
    | with_reducible apply State.vint_keeps

theorem execVand_keeps : ∀ q z x0 x1 x2 x3 x4 s, Is q z s → IsO q z (execVand x0 x1 x2 x3 x4 s) := by
  intro q z x0 x1 x2 x3 x4 s hs
  unfold execVand
  conv => arg 3; zeta
  repeat'
    first
    | with_reducible assumption
    | (simp -zeta only [↓is_mk, ↓isO_next]; try change Is q z _)
    | with_reducible apply State.vint_keeps

theorem execVor_keeps : ∀ q z x0 x1 x2 x3 x4 s, Is q z s → IsO q z (execVor x0 x1 x2 x3 x4 s) := by
  intro q z x0 x1 x2 x3 x4 s hs
  unfold execVor
  conv => arg 3; zeta
  repeat'
    first
    | with_reducible assumption
    | (simp -zeta only [↓is_mk, ↓isO_next]; try change Is q z _)
    | with_reducible apply State.vint_keeps

theorem execVxor_keeps : ∀ q z x0 x1 x2 x3 x4 s, Is q z s → IsO q z (execVxor x0 x1 x2 x3 x4 s) := by
  intro q z x0 x1 x2 x3 x4 s hs
  unfold execVxor
  conv => arg 3; zeta
  repeat'
    first
    | with_reducible assumption
    | (simp -zeta only [↓is_mk, ↓isO_next]; try change Is q z _)
    | with_reducible apply State.vint_keeps

theorem execVandn_keeps : ∀ q z x0 x1 x2 x3 x4 s, Is q z s → IsO q z (execVandn x0 x1 x2 x3 x4 s) := by
  intro q z x0 x1 x2 x3 x4 s hs
  unfold execVandn
  conv => arg 3; zeta
  repeat'
    first
    | with_reducible assumption
    | (simp -zeta only [↓is_mk, ↓isO_next]; try change Is q z _)
    | with_reducible apply State.vint_keeps

theorem execVsll_keeps : ∀ q z x0 x1 x2 x3 x4 s, Is q z s → IsO q z (execVsll x0 x1 x2 x3 x4 s) := by
  intro q z x0 x1 x2 x3 x4 s hs
  unfold execVsll
  conv => arg 3; zeta
  repeat'
    first
    | with_reducible assumption
    | (simp -zeta only [↓is_mk, ↓isO_next]; try change Is q z _)
    | with_reducible apply State.vint_keeps

theorem execVsrl_keeps : ∀ q z x0 x1 x2 x3 x4 s, Is q z s → IsO q z (execVsrl x0 x1 x2 x3 x4 s) := by
  intro q z x0 x1 x2 x3 x4 s hs
  unfold execVsrl
  conv => arg 3; zeta
  repeat'
    first
    | with_reducible assumption
    | (simp -zeta only [↓is_mk, ↓isO_next]; try change Is q z _)
    | with_reducible apply State.vint_keeps

theorem execVsra_keeps : ∀ q z x0 x1 x2 x3 x4 s, Is q z s → IsO q z (execVsra x0 x1 x2 x3 x4 s) := by
  intro q z x0 x1 x2 x3 x4 s hs
  unfold execVsra
  conv => arg 3; zeta
  repeat'
    first
    | with_reducible assumption
    | (simp -zeta only [↓is_mk, ↓isO_next]; try change Is q z _)
    | with_reducible apply State.vint_keeps

theorem execVcmpeq_keeps : ∀ q z x0 x1 x2 x3 x4 s, Is q z s → IsO q z (execVcmpeq x0 x1 x2 x3 x4 s) := by
  intro q z x0 x1 x2 x3 x4 s hs
  unfold execVcmpeq
  conv => arg 3; zeta
  repeat'
    first
    | with_reducible assumption
    | (simp -zeta only [↓is_mk, ↓isO_next]; try change Is q z _)
    | with_reducible apply State.vint_keeps

theorem execVcmplt_keeps : ∀ q z x0 x1 x2 x3 x4 s, Is q z s → IsO q z (execVcmplt x0 x1 x2 x3 x4 s) := by
  intro q z x0 x1 x2 x3 x4 s hs
  unfold execVcmplt
  conv => arg 3; zeta
  repeat'
    first
    | with_reducible assumption
    | (simp -zeta only [↓is_mk, ↓isO_next]; try change Is q z _)
    | with_reducible apply State.vint_keeps

theorem execVcmpltu_keeps : ∀ q z x0 x1 x2 x3 x4 s, Is q z s → IsO q z (execVcmpltu x0 x1 x2 x3 x4 s) := by
  intro q z x0 x1 x2 x3 x4 s hs
  unfold execVcmpltu
  conv => arg 3; zeta
  repeat'
    first
    | with_reducible assumption
    | (simp -zeta only [↓is_mk, ↓isO_next]; try change Is q z _)
    | with_reducible apply State.vint_keeps

theorem execVmin_keeps : ∀ q z x0 x1 x2 x3 x4 s, Is q z s → IsO q z (execVmin x0 x1 x2 x3 x4 s) := by
  intro q z x0 x1 x2 x3 x4 s hs
  unfold execVmin
  conv => arg 3; zeta
  repeat'
    first
    | with_reducible assumption
    | (simp -zeta only [↓is_mk, ↓isO_next]; try change Is q z _)
    | with_reducible apply State.vint_keeps
    | (with_reducible refine is_ite ?_ ?_; rotate_left; intro h; try simp -zeta only [↓is_mk, ↓isO_next] at h)
    | (with_reducible refine isO_ite ?_ ?_)
    | split

theorem execVmax_keeps : ∀ q z x0 x1 x2 x3 x4 s, Is q z s → IsO q z (execVmax x0 x1 x2 x3 x4 s) := by
  intro q z x0 x1 x2 x3 x4 s hs
  unfold execVmax
  conv => arg 3; zeta
  repeat'
    first
    | with_reducible assumption
    | (simp -zeta only [↓is_mk, ↓isO_next]; try change Is q z _)
    | with_reducible apply State.vint_keeps
    | (with_reducible refine is_ite ?_ ?_; rotate_left; intro h; try simp -zeta only [↓is_mk, ↓isO_next] at h)
    | (with_reducible refine isO_ite ?_ ?_)
    | split

theorem execVmov_keeps : ∀ q z x0 x1 x2 x3 s, Is q z s → IsO q z (execVmov x0 x1 x2 x3 s) := by
  intro q z x0 x1 x2 x3 s hs
  unfold execVmov
  conv => arg 3; zeta
  repeat'
    first
    | with_reducible assumption
    | (simp -zeta only [↓is_mk, ↓isO_next]; try change Is q z _)
    | with_reducible apply State.vint_keeps

theorem execVsel_keeps : ∀ q z x0 x1 x2 x3 x4 x5 s, Is q z s → IsO q z (execVsel x0 x1 x2 x3 x4 x5 s) := by
  intro q z x0 x1 x2 x3 x4 x5 s hs
  unfold execVsel
  conv => arg 3; zeta
  repeat'
    first
    | with_reducible assumption
    | (simp -zeta only [↓is_mk, ↓isO_next]; try change Is q z _)
    | with_reducible apply State.vint_keeps
    | (with_reducible refine is_ite ?_ ?_; rotate_left; intro h; try simp -zeta only [↓is_mk, ↓isO_next] at h)
    | (with_reducible refine isO_ite ?_ ?_)
    | split

theorem execVperm_keeps : ∀ q z x0 x1 x2 x3 x4 s, Is q z s → IsO q z (execVperm x0 x1 x2 x3 x4 s) := by
  intro q z x0 x1 x2 x3 x4 s hs
  unfold execVperm
  conv => arg 3; zeta
  repeat'
    first
    | with_reducible assumption
    | (simp -zeta only [↓is_mk, ↓isO_next, ↓State.issue_keeps]; try change Is q z _)
    | refine State.issue_keeps (fun x s hs => ?_) ?_

theorem execVbcast_keeps : ∀ q z x0 x1 x2 x3 s, Is q z s → IsO q z (execVbcast x0 x1 x2 x3 s) := by
  intro q z x0 x1 x2 x3 s hs
  unfold execVbcast
  conv => arg 3; zeta
  repeat'
    first
    | with_reducible assumption
    | (simp -zeta only [↓is_mk, ↓isO_next, ↓State.issue_keeps]; try change Is q z _)
    | refine State.issue_keeps (fun x s hs => ?_) ?_

theorem execVext_keeps : ∀ q z x0 x1 x2 x3 x4 s, Is q z s → IsO q z (execVext x0 x1 x2 x3 x4 s) := by
  intro q z x0 x1 x2 x3 x4 s hs
  unfold execVext
  conv => arg 3; zeta
  repeat'
    first
    | with_reducible assumption
    | (simp -zeta only [↓is_mk, ↓isO_next, ↓State.issue_keeps]; try change Is q z _)
    | refine State.issue_keeps (fun x s hs => ?_) ?_

theorem execVins_keeps : ∀ q z x0 x1 x2 x3 x4 s, Is q z s → IsO q z (execVins x0 x1 x2 x3 x4 s) := by
  intro q z x0 x1 x2 x3 x4 s hs
  unfold execVins
  conv => arg 3; zeta
  repeat'
    first
    | with_reducible assumption
    | (simp -zeta only [↓is_mk, ↓isO_next, ↓State.issue_keeps]; try change Is q z _)
    | refine State.issue_keeps (fun x s hs => ?_) ?_

theorem execVcmul_keeps : ∀ q z x0 x1 x2 x3 x4 s, Is q z s → IsO q z (execVcmul x0 x1 x2 x3 x4 s) := by
  intro q z x0 x1 x2 x3 x4 s hs
  unfold execVcmul
  conv => arg 3; zeta
  repeat'
    first
    | with_reducible assumption
    | (simp -zeta only [↓is_mk, ↓isO_next]; try change Is q z _)
    | with_reducible apply State.vcmul_keeps

theorem execVcmulc_keeps : ∀ q z x0 x1 x2 x3 x4 s, Is q z s → IsO q z (execVcmulc x0 x1 x2 x3 x4 s) := by
  intro q z x0 x1 x2 x3 x4 s hs
  unfold execVcmulc
  conv => arg 3; zeta
  repeat'
    first
    | with_reducible assumption
    | (simp -zeta only [↓is_mk, ↓isO_next]; try change Is q z _)
    | with_reducible apply State.vcmul_keeps

theorem execVbfly4_keeps : ∀ q z x0 x1 x2 x3 x4 s, Is q z s → IsO q z (execVbfly4 x0 x1 x2 x3 x4 s) := by
  intro q z x0 x1 x2 x3 x4 s hs
  unfold execVbfly4
  conv => arg 3; zeta
  repeat'
    first
    | with_reducible assumption
    | (simp -zeta only [↓is_mk, ↓isO_next, ↓State.issue_keeps]; try change Is q z _)
    | refine State.issue_keeps (fun x s hs => ?_) ?_
    | (split <;> try (rename_i h; refine is_step (is_snd (q := q) (z := z) h ?_) (fun hs => ?_); rotate_left; clear h))

end Sys2Proof.Machine
end

