-- ==== Sys2Proof/Laws/KeepIsaFlow.lean ====
section
/-! SUPPORT. No operation of IsaFlow touches the command queue, and none but the burning of fuses
touches the fuses. -/

set_option linter.all false

namespace Sys2Proof.Machine

variable {q : List Instr} {z : Fuses}

theorem State.branchOp_keeps : ∀ q z s x1 x2 x3 x4 x5 x6, Is q z s → IsO q z (State.branchOp s x1 x2 x3 x4 x5 x6) := by
  intro q z s x1 x2 x3 x4 x5 x6 hs
  unfold State.branchOp
  conv => arg 3; zeta
  repeat'
    first
    | with_reducible assumption
    | (simp -zeta only [↓is_mk, ↓isO_next, ↓State.issue_keeps]; try change Is q z _)
    | refine State.issue_keeps (fun x s hs => ?_) ?_

theorem execBeq_keeps : ∀ q z x0 x1 x2 x3 s, Is q z s → IsO q z (execBeq x0 x1 x2 x3 s) := by
  intro q z x0 x1 x2 x3 s hs
  unfold execBeq
  conv => arg 3; zeta
  repeat'
    first
    | with_reducible assumption
    | (simp -zeta only [↓is_mk, ↓isO_next]; try change Is q z _)
    | with_reducible apply State.branchOp_keeps

theorem execBne_keeps : ∀ q z x0 x1 x2 x3 s, Is q z s → IsO q z (execBne x0 x1 x2 x3 s) := by
  intro q z x0 x1 x2 x3 s hs
  unfold execBne
  conv => arg 3; zeta
  repeat'
    first
    | with_reducible assumption
    | (simp -zeta only [↓is_mk, ↓isO_next]; try change Is q z _)
    | with_reducible apply State.branchOp_keeps

theorem execBlt_keeps : ∀ q z x0 x1 x2 x3 s, Is q z s → IsO q z (execBlt x0 x1 x2 x3 s) := by
  intro q z x0 x1 x2 x3 s hs
  unfold execBlt
  conv => arg 3; zeta
  repeat'
    first
    | with_reducible assumption
    | (simp -zeta only [↓is_mk, ↓isO_next]; try change Is q z _)
    | with_reducible apply State.branchOp_keeps

theorem execBge_keeps : ∀ q z x0 x1 x2 x3 s, Is q z s → IsO q z (execBge x0 x1 x2 x3 s) := by
  intro q z x0 x1 x2 x3 s hs
  unfold execBge
  conv => arg 3; zeta
  repeat'
    first
    | with_reducible assumption
    | (simp -zeta only [↓is_mk, ↓isO_next]; try change Is q z _)
    | with_reducible apply State.branchOp_keeps

theorem execBltu_keeps : ∀ q z x0 x1 x2 x3 s, Is q z s → IsO q z (execBltu x0 x1 x2 x3 s) := by
  intro q z x0 x1 x2 x3 s hs
  unfold execBltu
  conv => arg 3; zeta
  repeat'
    first
    | with_reducible assumption
    | (simp -zeta only [↓is_mk, ↓isO_next]; try change Is q z _)
    | with_reducible apply State.branchOp_keeps

theorem execBgeu_keeps : ∀ q z x0 x1 x2 x3 s, Is q z s → IsO q z (execBgeu x0 x1 x2 x3 s) := by
  intro q z x0 x1 x2 x3 s hs
  unfold execBgeu
  conv => arg 3; zeta
  repeat'
    first
    | with_reducible assumption
    | (simp -zeta only [↓is_mk, ↓isO_next]; try change Is q z _)
    | with_reducible apply State.branchOp_keeps

theorem execJal_keeps : ∀ q z x0 x1 x2 s, Is q z s → IsO q z (execJal x0 x1 x2 s) := by
  intro q z x0 x1 x2 s hs
  unfold execJal
  conv => arg 3; zeta
  repeat'
    first
    | with_reducible assumption
    | (simp -zeta only [↓is_mk, ↓isO_next, ↓State.issue_keeps]; try change Is q z _)
    | refine State.issue_keeps (fun x s hs => ?_) ?_

theorem execJalr_keeps : ∀ q z x0 x1 x2 s, Is q z s → IsO q z (execJalr x0 x1 x2 s) := by
  intro q z x0 x1 x2 s hs
  unfold execJalr
  conv => arg 3; zeta
  repeat'
    first
    | with_reducible assumption
    | (simp -zeta only [↓is_mk, ↓isO_next, ↓State.issue_keeps]; try change Is q z _)
    | refine State.issue_keeps (fun x s hs => ?_) ?_
    | (with_reducible refine is_ite ?_ ?_; rotate_left; intro h; try simp -zeta only [↓is_mk, ↓isO_next, ↓State.issue_keeps] at h)
    | (with_reducible refine isO_ite ?_ ?_)
    | split

theorem execLoop_keeps : ∀ q z x0 x1 x2 s, Is q z s → IsO q z (execLoop x0 x1 x2 s) := by
  intro q z x0 x1 x2 s hs
  unfold execLoop
  conv => arg 3; zeta
  repeat'
    first
    | with_reducible assumption
    | (simp -zeta only [↓is_mk, ↓isO_next, ↓State.issue_keeps]; try change Is q z _)
    | refine State.issue_keeps (fun x s hs => ?_) ?_

theorem execLoopi_keeps : ∀ q z x0 x1 x2 s, Is q z s → IsO q z (execLoopi x0 x1 x2 s) := by
  intro q z x0 x1 x2 s hs
  unfold execLoopi
  conv => arg 3; zeta
  repeat'
    first
    | with_reducible assumption
    | (simp -zeta only [↓is_mk, ↓isO_next, ↓State.issue_keeps]; try change Is q z _)
    | refine State.issue_keeps (fun x s hs => ?_) ?_

theorem execMtl_keeps : ∀ q z x0 x1 x2 x3 s, Is q z s → IsO q z (execMtl x0 x1 x2 x3 s) := by
  intro q z x0 x1 x2 x3 s hs
  unfold execMtl
  conv => arg 3; zeta
  repeat'
    first
    | with_reducible assumption
    | (simp -zeta only [↓is_mk, ↓isO_next, ↓State.issue_keeps]; try change Is q z _)
    | refine State.issue_keeps (fun x s hs => ?_) ?_
    | (split <;> try (rename_i h; refine is_step (is_snd (q := q) (z := z) h ?_) (fun hs => ?_); rotate_left; clear h))
    | split

theorem execMfl_keeps : ∀ q z x0 x1 x2 x3 s, Is q z s → IsO q z (execMfl x0 x1 x2 x3 s) := by
  intro q z x0 x1 x2 x3 s hs
  unfold execMfl
  conv => arg 3; zeta
  repeat'
    first
    | with_reducible assumption
    | (simp -zeta only [↓is_mk, ↓isO_next, ↓State.issue_keeps]; try change Is q z _)
    | refine State.issue_keeps (fun x s hs => ?_) ?_
    | (split <;> try (rename_i h; refine is_step (is_snd (q := q) (z := z) h ?_) (fun hs => ?_); rotate_left; clear h))
    | split

theorem execMode_keeps : ∀ q z x0 x1 x2 s, Is q z s → IsO q z (execMode x0 x1 x2 s) := by
  intro q z x0 x1 x2 s hs
  unfold execMode
  conv => arg 3; zeta
  repeat'
    first
    | with_reducible assumption
    | (simp -zeta only [↓is_mk, ↓isO_next, ↓State.issue_keeps]; try change Is q z _)
    | refine State.issue_keeps (fun x s hs => ?_) ?_
    | (with_reducible refine is_ite ?_ ?_; rotate_left; intro h; try simp -zeta only [↓is_mk, ↓isO_next, ↓State.issue_keeps] at h)
    | (with_reducible refine isO_ite ?_ ?_)
    | (split <;> try (rename_i h; refine is_step (is_snd (q := q) (z := z) h ?_) (fun hs => ?_); rotate_left; clear h))
    | split

theorem execInstrNop_keeps : ∀ q z x0 s, Is q z s → IsO q z (execInstrNop x0 s) := by
  intro q z x0 s hs
  unfold execInstrNop
  conv => arg 3; zeta
  repeat'
    first
    | with_reducible assumption
    | (simp -zeta only [↓is_mk, ↓isO_next, ↓State.issue_keeps]; try change Is q z _)
    | refine State.issue_keeps (fun x s hs => ?_) ?_

theorem execEndFiring_keeps : ∀ q z x0 s, Is q z s → IsO q z (execEndFiring x0 s) := by
  intro q z x0 s hs
  unfold execEndFiring
  conv => arg 3; zeta
  repeat'
    first
    | with_reducible assumption
    | (simp -zeta only [↓is_mk, ↓isO_next, ↓State.issue_keeps]; try change Is q z _)
    | refine State.issue_keeps (fun x s hs => ?_) ?_

theorem execDropr_keeps : ∀ q z x0 s, Is q z s → IsO q z (execDropr x0 s) := by
  intro q z x0 s hs
  unfold execDropr
  conv => arg 3; zeta
  repeat'
    first
    | with_reducible assumption
    | (simp -zeta only [↓is_mk, ↓isO_next, ↓State.issue_keeps, ↓State.modBank_keeps]; try change Is q z _)
    | refine State.issue_keeps (fun x s hs => ?_) ?_
    | (with_reducible refine is_ite ?_ ?_; rotate_left; intro h; try simp -zeta only [↓is_mk, ↓isO_next, ↓State.issue_keeps, ↓State.modBank_keeps] at h)
    | (with_reducible refine isO_ite ?_ ?_)
    | split

theorem execResume_keeps : ∀ q z x0 s, Is q z s → IsO q z (execResume x0 s) := by
  intro q z x0 s hs
  unfold execResume
  conv => arg 3; zeta
  repeat'
    first
    | with_reducible assumption
    | (simp -zeta only [↓is_mk, ↓isO_next, ↓State.issue_keeps]; try change Is q z _)
    | refine State.issue_keeps (fun x s hs => ?_) ?_
    | (with_reducible refine is_ite ?_ ?_; rotate_left; intro h; try simp -zeta only [↓is_mk, ↓isO_next, ↓State.issue_keeps] at h)
    | (with_reducible refine isO_ite ?_ ?_)
    | split

theorem execBrk_keeps : ∀ q z x0 x1 s, Is q z s → IsO q z (execBrk x0 x1 s) := by
  intro q z x0 x1 s hs
  unfold execBrk
  conv => arg 3; zeta
  repeat'
    first
    | with_reducible assumption
    | (simp -zeta only [↓is_mk, ↓isO_next, ↓State.issue_keeps]; try change Is q z _)
    | refine State.issue_keeps (fun x s hs => ?_) ?_
    | (with_reducible refine is_ite ?_ ?_; rotate_left; intro h; try simp -zeta only [↓is_mk, ↓isO_next, ↓State.issue_keeps] at h)
    | (with_reducible refine isO_ite ?_ ?_)
    | (split <;> try (rename_i h; refine is_step (is_snd (q := q) (z := z) h ?_) (fun hs => ?_); rotate_left; clear h))
    | split

theorem execRdstat_keeps : ∀ q z x0 x1 s, Is q z s → IsO q z (execRdstat x0 x1 s) := by
  intro q z x0 x1 s hs
  unfold execRdstat
  conv => arg 3; zeta
  repeat'
    first
    | with_reducible assumption
    | (simp -zeta only [↓is_mk, ↓isO_next, ↓State.issue_keeps]; try change Is q z _)
    | refine State.issue_keeps (fun x s hs => ?_) ?_
    | (split <;> try (rename_i h; refine is_step (is_snd (q := q) (z := z) h ?_) (fun hs => ?_); rotate_left; clear h))
    | split

theorem execXmov_keeps : ∀ q z x0 x1 x2 s, Is q z s → IsO q z (execXmov x0 x1 x2 s) := by
  intro q z x0 x1 x2 s hs
  unfold execXmov
  conv => arg 3; zeta
  repeat'
    first
    | with_reducible assumption
    | (simp -zeta only [↓is_mk, ↓isO_next, ↓State.issue_keeps]; try change Is q z _)
    | refine State.issue_keeps (fun x s hs => ?_) ?_
    | (split <;> try (rename_i h; refine is_step (is_snd (q := q) (z := z) h ?_) (fun hs => ?_); rotate_left; clear h))
    | split

theorem execXset_keeps : ∀ q z x0 x1 s, Is q z s → IsO q z (execXset x0 x1 s) := by
  intro q z x0 x1 s hs
  unfold execXset
  conv => arg 3; zeta
  repeat'
    first
    | with_reducible assumption
    | (simp -zeta only [↓is_mk, ↓isO_next, ↓State.issue_keeps, ↓State.modBank_keeps]; try change Is q z _)
    | refine State.issue_keeps (fun x s hs => ?_) ?_
    | (with_reducible refine is_ite ?_ ?_; rotate_left; intro h; try simp -zeta only [↓is_mk, ↓isO_next, ↓State.issue_keeps, ↓State.modBank_keeps] at h)
    | (with_reducible refine isO_ite ?_ ?_)
    | split

end Sys2Proof.Machine
end

