-- ==== Sys2Proof/Laws/KeepIsaMem.lean ====
section
/-! SUPPORT. No operation of IsaMem touches the command queue, and none but the burning of fuses
touches the fuses. -/

set_option linter.all false

namespace Sys2Proof.Machine

variable {q : List Instr} {z : Fuses}

theorem State.readErr_keeps : ∀ s x1 x2, Is q z (State.readErr s x1 x2).2 ↔ Is q z s := by
  intro s x1 x2; refine is_iff fun q z hs => ?_
  unfold State.readErr
  conv => arg 3; zeta
  repeat'
    first
    | with_reducible assumption
    | (simp -zeta only [↓is_mk, ↓State.cellMemFault_keeps, ↓State.engBump_keeps]; try change Is q z _)
    | (split <;> try (rename_i h; refine is_step (is_snd (q := q) (z := z) h ?_) (fun hs => ?_); rotate_left; clear h))
    | split

theorem execLd_keeps : ∀ q z x0 x1 x2 x3 x4 x5 s, Is q z s → IsO q z (execLd x0 x1 x2 x3 x4 x5 s) := by
  intro q z x0 x1 x2 x3 x4 x5 s hs
  unfold execLd
  conv => arg 3; zeta
  repeat'
    first
    | with_reducible assumption
    | (simp -zeta only [↓is_mk, ↓isO_next, ↓State.issue_keeps, ↓State.readErr_keeps]; try change Is q z _)
    | refine State.issue_keeps (fun x s hs => ?_) ?_
    | (split <;> try (rename_i h; refine is_step (is_snd (q := q) (z := z) h ?_) (fun hs => ?_); rotate_left; clear h))
    | split

theorem execLdv_keeps : ∀ q z x0 x1 x2 x3 s, Is q z s → IsO q z (execLdv x0 x1 x2 x3 s) := by
  intro q z x0 x1 x2 x3 s hs
  unfold execLdv
  conv => arg 3; zeta
  repeat'
    first
    | with_reducible assumption
    | (simp -zeta only [↓is_mk, ↓isO_next, ↓State.issue_keeps, ↓State.readErr_keeps]; try change Is q z _)
    | refine State.issue_keeps (fun x s hs => ?_) ?_
    | (split <;> try (rename_i h; refine is_step (is_snd (q := q) (z := z) h ?_) (fun hs => ?_); rotate_left; clear h))
    | split

theorem execSt_keeps : ∀ q z x0 x1 x2 x3 x4 s, Is q z s → IsO q z (execSt x0 x1 x2 x3 x4 s) := by
  intro q z x0 x1 x2 x3 x4 s hs
  unfold execSt
  conv => arg 3; zeta
  repeat'
    first
    | with_reducible assumption
    | (simp -zeta only [↓is_mk, ↓isO_next, ↓State.issue_keeps]; try change Is q z _)
    | refine State.issue_keeps (fun x s hs => ?_) ?_
    | (split <;> try (rename_i h; refine is_step (is_snd (q := q) (z := z) h ?_) (fun hs => ?_); rotate_left; clear h))
    | split

theorem execStv_keeps : ∀ q z x0 x1 x2 x3 s, Is q z s → IsO q z (execStv x0 x1 x2 x3 s) := by
  intro q z x0 x1 x2 x3 s hs
  unfold execStv
  conv => arg 3; zeta
  repeat'
    first
    | with_reducible assumption
    | (simp -zeta only [↓is_mk, ↓isO_next, ↓State.issue_keeps]; try change Is q z _)
    | refine State.issue_keeps (fun x s hs => ?_) ?_
    | (split <;> try (rename_i h; refine is_step (is_snd (q := q) (z := z) h ?_) (fun hs => ?_); rotate_left; clear h))
    | split

theorem execLdr_keeps : ∀ q z x0 x1 x2 x3 x4 x5 s, Is q z s → IsO q z (execLdr x0 x1 x2 x3 x4 x5 s) := by
  intro q z x0 x1 x2 x3 x4 x5 s hs
  unfold execLdr
  conv => arg 3; zeta
  repeat'
    first
    | with_reducible assumption
    | (simp -zeta only [↓is_mk, ↓isO_next, ↓State.issue_keeps, ↓State.regionReq_keeps, ↓State.reqGoes_keeps, ↓State.reqHolds_keeps]; try change Is q z _)
    | refine State.issue_keeps (fun x s hs => ?_) ?_
    | (with_reducible refine is_ite ?_ ?_; rotate_left; intro h; try simp -zeta only [↓is_mk, ↓isO_next, ↓State.issue_keeps, ↓State.regionReq_keeps, ↓State.reqGoes_keeps, ↓State.reqHolds_keeps] at h)
    | (with_reducible refine isO_ite ?_ ?_)
    | split

theorem execStr_keeps : ∀ q z x0 x1 x2 x3 x4 s, Is q z s → IsO q z (execStr x0 x1 x2 x3 x4 s) := by
  intro q z x0 x1 x2 x3 x4 s hs
  unfold execStr
  conv => arg 3; zeta
  repeat'
    first
    | with_reducible assumption
    | (simp -zeta only [↓is_mk, ↓isO_next, ↓State.issue_keeps]; try change Is q z _)
    | refine State.issue_keeps (fun x s hs => ?_) ?_
    | (with_reducible refine is_ite ?_ ?_; rotate_left; intro h; try simp -zeta only [↓is_mk, ↓isO_next, ↓State.issue_keeps] at h)
    | (with_reducible refine isO_ite ?_ ?_)
    | split

theorem execBmov_keeps : ∀ q z x0 x1 x2 x3 s, Is q z s → IsO q z (execBmov x0 x1 x2 x3 s) := by
  intro q z x0 x1 x2 x3 s hs
  unfold execBmov
  conv => arg 3; zeta
  repeat'
    first
    | with_reducible assumption
    | (simp -zeta only [↓is_mk, ↓isO_next, ↓State.issue_keeps, ↓State.readErr_keeps]; try change Is q z _)
    | refine State.issue_keeps (fun x s hs => ?_) ?_
    | (with_reducible refine is_ite ?_ ?_; rotate_left; intro h; try simp -zeta only [↓is_mk, ↓isO_next, ↓State.issue_keeps, ↓State.readErr_keeps] at h)
    | (with_reducible refine isO_ite ?_ ?_)
    | (split <;> try (rename_i h; refine is_step (is_snd (q := q) (z := z) h ?_) (fun hs => ?_); rotate_left; clear h))
    | split

theorem execBfill_keeps : ∀ q z x0 x1 x2 x3 s, Is q z s → IsO q z (execBfill x0 x1 x2 x3 s) := by
  intro q z x0 x1 x2 x3 s hs
  unfold execBfill
  conv => arg 3; zeta
  repeat'
    first
    | with_reducible assumption
    | (simp -zeta only [↓is_mk, ↓isO_next, ↓State.issue_keeps]; try change Is q z _)
    | refine State.issue_keeps (fun x s hs => ?_) ?_
    | (with_reducible refine is_ite ?_ ?_; rotate_left; intro h; try simp -zeta only [↓is_mk, ↓isO_next, ↓State.issue_keeps] at h)
    | (with_reducible refine isO_ite ?_ ?_)
    | (split <;> try (rename_i h; refine is_step (is_snd (q := q) (z := z) h ?_) (fun hs => ?_); rotate_left; clear h))
    | split

theorem execBscan_keeps : ∀ q z x0 x1 x2 x3 x4 x5 s, Is q z s → IsO q z (execBscan x0 x1 x2 x3 x4 x5 s) := by
  intro q z x0 x1 x2 x3 x4 x5 s hs
  unfold execBscan
  conv => arg 3; zeta
  repeat'
    first
    | with_reducible assumption
    | (simp -zeta only [↓is_mk, ↓isO_next, ↓State.issue_keeps, ↓State.readErr_keeps]; try change Is q z _)
    | refine State.issue_keeps (fun x s hs => ?_) ?_
    | (with_reducible refine is_ite ?_ ?_; rotate_left; intro h; try simp -zeta only [↓is_mk, ↓isO_next, ↓State.issue_keeps, ↓State.readErr_keeps] at h)
    | (with_reducible refine isO_ite ?_ ?_)
    | (split <;> try (rename_i h; refine is_step (is_snd (q := q) (z := z) h ?_) (fun hs => ?_); rotate_left; clear h))
    | split

theorem execBcmp_keeps : ∀ q z x0 x1 x2 x3 s, Is q z s → IsO q z (execBcmp x0 x1 x2 x3 s) := by
  intro q z x0 x1 x2 x3 s hs
  unfold execBcmp
  conv => arg 3; zeta
  repeat'
    first
    | with_reducible assumption
    | (simp -zeta only [↓is_mk, ↓isO_next, ↓State.issue_keeps, ↓State.readErr_keeps]; try change Is q z _)
    | refine State.issue_keeps (fun x s hs => ?_) ?_
    | (with_reducible refine is_ite ?_ ?_; rotate_left; intro h; try simp -zeta only [↓is_mk, ↓isO_next, ↓State.issue_keeps, ↓State.readErr_keeps] at h)
    | (with_reducible refine isO_ite ?_ ?_)
    | (split <;> try (rename_i h; refine is_step (is_snd (q := q) (z := z) h ?_) (fun hs => ?_); rotate_left; clear h))
    | split

end Sys2Proof.Machine
end

