-- ==== Sys2Proof/Laws/KeepIsaSend.lean ====
section
/-! SUPPORT. No operation of IsaSend touches the command queue, and none but the burning of fuses
touches the fuses. -/

set_option linter.all false

namespace Sys2Proof.Machine

variable {q : List Instr} {z : Fuses}

theorem State.sendOp_keeps : ∀ s x1 x2 x3 x4 x5 x6, Is q z (State.sendOp s x1 x2 x3 x4 x5 x6).2 ↔ Is q z s := by
  intro s x1 x2 x3 x4 x5 x6; refine is_iff fun q z hs => ?_
  unfold State.sendOp
  conv => arg 3; zeta
  repeat'
    first
    | with_reducible assumption
    | (simp -zeta only [↓is_mk, ↓State.askCredit_keeps, ↓State.engBump_keeps, ↓State.modBank_keeps, ↓State.reeveBump_keeps, ↓State.setCredit_keeps, ↓State.stallCheck_keeps]; try change Is q z _)
    | (with_reducible refine is_ite ?_ ?_; rotate_left; intro h; try simp -zeta only [↓is_mk, ↓State.askCredit_keeps, ↓State.engBump_keeps, ↓State.modBank_keeps, ↓State.reeveBump_keeps, ↓State.setCredit_keeps, ↓State.stallCheck_keeps] at h)
    | (with_reducible refine is_ite_snd ?_ ?_)
    | (split <;> try (rename_i h; refine is_step (is_snd (q := q) (z := z) h ?_) (fun hs => ?_); rotate_left; clear h))
    | split

theorem execSend_keeps : ∀ q z x0 x1 x2 x3 x4 x5 x6 x7 s, Is q z s → IsO q z (execSend x0 x1 x2 x3 x4 x5 x6 x7 s) := by
  intro q z x0 x1 x2 x3 x4 x5 x6 x7 s hs
  unfold execSend
  conv => arg 3; zeta
  repeat'
    first
    | with_reducible assumption
    | (simp -zeta only [↓is_mk, ↓isO_next, ↓State.issue_keeps, ↓State.sendOp_keeps]; try change Is q z _)
    | refine State.issue_keeps (fun x s hs => ?_) ?_

theorem execSendi_keeps : ∀ q z x0 x1 x2 x3 x4 x5 x6 x7 x8 x9 s, Is q z s → IsO q z (execSendi x0 x1 x2 x3 x4 x5 x6 x7 x8 x9 s) := by
  intro q z x0 x1 x2 x3 x4 x5 x6 x7 x8 x9 s hs
  unfold execSendi
  conv => arg 3; zeta
  repeat'
    first
    | with_reducible assumption
    | (simp -zeta only [↓is_mk, ↓isO_next, ↓State.issue_keeps, ↓State.sendOp_keeps]; try change Is q z _)
    | refine State.issue_keeps (fun x s hs => ?_) ?_
    | (with_reducible refine is_ite ?_ ?_; rotate_left; intro h; try simp -zeta only [↓is_mk, ↓isO_next, ↓State.issue_keeps, ↓State.sendOp_keeps] at h)
    | (with_reducible refine isO_ite ?_ ?_)
    | split

theorem execCtxreq_keeps : ∀ q z x0 x1 x2 s, Is q z s → IsO q z (execCtxreq x0 x1 x2 s) := by
  intro q z x0 x1 x2 s hs
  unfold execCtxreq
  conv => arg 3; zeta
  repeat'
    first
    | with_reducible assumption
    | (simp -zeta only [↓is_mk, ↓isO_next, ↓State.engBump_keeps, ↓State.issue_keeps, ↓State.modBank_keeps, ↓State.stallCheck_keeps]; try change Is q z _)
    | refine State.issue_keeps (fun x s hs => ?_) ?_
    | (with_reducible refine is_ite ?_ ?_; rotate_left; intro h; try simp -zeta only [↓is_mk, ↓isO_next, ↓State.engBump_keeps, ↓State.issue_keeps, ↓State.modBank_keeps, ↓State.stallCheck_keeps] at h)
    | (with_reducible refine isO_ite ?_ ?_)
    | (split <;> try (rename_i h; refine is_step (is_snd (q := q) (z := z) h ?_) (fun hs => ?_); rotate_left; clear h))
    | split

theorem execCtxrel_keeps : ∀ q z x0 x1 s, Is q z s → IsO q z (execCtxrel x0 x1 s) := by
  intro q z x0 x1 s hs
  unfold execCtxrel
  conv => arg 3; zeta
  repeat'
    first
    | with_reducible assumption
    | (simp -zeta only [↓is_mk, ↓isO_next, ↓State.issue_keeps]; try change Is q z _)
    | refine State.issue_keeps (fun x s hs => ?_) ?_
    | (with_reducible refine is_ite ?_ ?_; rotate_left; intro h; try simp -zeta only [↓is_mk, ↓isO_next, ↓State.issue_keeps] at h)
    | (with_reducible refine isO_ite ?_ ?_)
    | split

end Sys2Proof.Machine
end

