-- ==== Sys2Proof/Laws/KeepIsaPriv.lean ====
section
/-! SUPPORT. No operation of IsaPriv touches the command queue, and none but the burning of fuses
touches the fuses. -/

set_option linter.all false

namespace Sys2Proof.Machine

variable {q : List Instr} {z : Fuses}

theorem State.modSteward_keeps : ∀ x0 s, Is q z (State.modSteward x0 s) ↔ Is q z s := by
  intro x0 s; refine is_iff fun q z hs => ?_
  unfold State.modSteward
  conv => arg 3; zeta
  repeat'
    first
    | with_reducible assumption
    | (simp -zeta only [↓is_mk]; try change Is q z _)

theorem execMfsr_keeps : ∀ q z x0 x1 x2 s, Is q z s → IsO q z (execMfsr x0 x1 x2 s) := by
  intro q z x0 x1 x2 s hs
  unfold execMfsr
  conv => arg 3; zeta
  repeat'
    first
    | with_reducible assumption
    | (simp -zeta only [↓is_mk, ↓isO_next, ↓State.issue_keeps]; try change Is q z _)
    | refine State.issue_keeps (fun x s hs => ?_) ?_
    | (split <;> try (rename_i h; refine is_step (is_snd (q := q) (z := z) h ?_) (fun hs => ?_); rotate_left; clear h))
    | split

theorem execMtsr_keeps : ∀ q z x0 x1 x2 s, Is q z s → IsO q z (execMtsr x0 x1 x2 s) := by
  intro q z x0 x1 x2 s hs
  unfold execMtsr
  conv => arg 3; zeta
  repeat'
    first
    | with_reducible assumption
    | (simp -zeta only [↓is_mk, ↓isO_next, ↓State.issue_keeps, ↓State.sysWrite_keeps]; try change Is q z _)
    | refine State.issue_keeps (fun x s hs => ?_) ?_

theorem execWaite_keeps : ∀ q z x0 s, Is q z s → IsO q z (execWaite x0 s) := by
  intro q z x0 s hs
  unfold execWaite
  conv => arg 3; zeta
  repeat'
    first
    | with_reducible assumption
    | (simp -zeta only [↓is_mk, ↓isO_next, ↓State.issue_keeps]; try change Is q z _)
    | refine State.issue_keeps (fun x s hs => ?_) ?_
    | (with_reducible refine is_ite ?_ ?_; rotate_left; intro h; try simp -zeta only [↓is_mk, ↓isO_next, ↓State.issue_keeps] at h)
    | (with_reducible refine isO_ite ?_ ?_)
    | split

theorem State.cacheOp_keeps : ∀ q z s x1 x2 x3 x4, Is q z s → IsO q z (State.cacheOp s x1 x2 x3 x4) := by
  intro q z s x1 x2 x3 x4 hs
  unfold State.cacheOp
  conv => arg 3; zeta
  repeat'
    first
    | with_reducible assumption
    | (simp -zeta only [↓is_mk, ↓isO_next, ↓State.issue_keeps, ↓State.modSteward_keeps]; try change Is q z _)
    | refine State.issue_keeps (fun x s hs => ?_) ?_
    | (with_reducible refine is_ite ?_ ?_; rotate_left; intro h; try simp -zeta only [↓is_mk, ↓isO_next, ↓State.issue_keeps, ↓State.modSteward_keeps] at h)
    | (with_reducible refine isO_ite ?_ ?_)
    | split

theorem execIcinv_keeps : ∀ q z x0 x1 s, Is q z s → IsO q z (execIcinv x0 x1 s) := by
  intro q z x0 x1 s hs
  unfold execIcinv
  conv => arg 3; zeta
  repeat'
    first
    | with_reducible assumption
    | (simp -zeta only [↓is_mk, ↓isO_next]; try change Is q z _)
    | with_reducible apply State.cacheOp_keeps

theorem execDcclean_keeps : ∀ q z x0 x1 s, Is q z s → IsO q z (execDcclean x0 x1 s) := by
  intro q z x0 x1 s hs
  unfold execDcclean
  conv => arg 3; zeta
  repeat'
    first
    | with_reducible assumption
    | (simp -zeta only [↓is_mk, ↓isO_next]; try change Is q z _)
    | with_reducible apply State.cacheOp_keeps

theorem execDcinv_keeps : ∀ q z x0 x1 s, Is q z s → IsO q z (execDcinv x0 x1 s) := by
  intro q z x0 x1 s hs
  unfold execDcinv
  conv => arg 3; zeta
  repeat'
    first
    | with_reducible assumption
    | (simp -zeta only [↓is_mk, ↓isO_next]; try change Is q z _)
    | with_reducible apply State.cacheOp_keeps

theorem execDcci_keeps : ∀ q z x0 x1 s, Is q z s → IsO q z (execDcci x0 x1 s) := by
  intro q z x0 x1 s hs
  unfold execDcci
  conv => arg 3; zeta
  repeat'
    first
    | with_reducible assumption
    | (simp -zeta only [↓is_mk, ↓isO_next]; try change Is q z _)
    | with_reducible apply State.cacheOp_keeps

theorem execFence_keeps : ∀ q z x0 s, Is q z s → IsO q z (execFence x0 s) := by
  intro q z x0 s hs
  unfold execFence
  conv => arg 3; zeta
  repeat'
    first
    | with_reducible assumption
    | (simp -zeta only [↓is_mk, ↓isO_next, ↓State.issue_keeps]; try change Is q z _)
    | refine State.issue_keeps (fun x s hs => ?_) ?_
    | (with_reducible refine is_ite ?_ ?_; rotate_left; intro h; try simp -zeta only [↓is_mk, ↓isO_next, ↓State.issue_keeps] at h)
    | (with_reducible refine isO_ite ?_ ?_)
    | split

theorem execStewardTimerExpiry_keeps : ∀ q z s, Is q z s → IsO q z (execStewardTimerExpiry s) := by
  intro q z s hs
  unfold execStewardTimerExpiry
  conv => arg 3; zeta
  repeat'
    first
    | with_reducible assumption
    | (simp -zeta only [↓is_mk, ↓isO_next, ↓State.modSteward_keeps, ↓State.reach_keeps]; try change Is q z _)
    | (split <;> try (rename_i h; refine is_step (is_snd (q := q) (z := z) h ?_) (fun hs => ?_); rotate_left; clear h))
    | split

end Sys2Proof.Machine
end

