-- ==== Sys2Proof/Laws/KeepFiring.lean ====
section
/-! SUPPORT. No operation of Firing touches the command queue, and none but the burning of fuses
touches the fuses. -/

set_option linter.all false

namespace Sys2Proof.Machine

variable {q : List Instr} {z : Fuses}

theorem State.takePacket_keeps : ∀ s x1 x2 x3, Is q z (State.takePacket s x1 x2 x3) ↔ Is q z s := by
  intro s x1 x2 x3; refine is_iff fun q z hs => ?_
  unfold State.takePacket
  conv => arg 3; zeta
  repeat'
    first
    | with_reducible assumption
    | (simp -zeta only [↓is_mk, ↓State.modCell_keeps]; try change Is q z _)
    | (with_reducible refine is_ite ?_ ?_; rotate_left; intro h; try simp -zeta only [↓is_mk, ↓State.modCell_keeps] at h)
    | split

theorem State.startFiring_keeps : ∀ s x1 x2 x3 x4 x5, Is q z (State.startFiring s x1 x2 x3 x4 x5) ↔ Is q z s := by
  intro s x1 x2 x3 x4 x5; refine is_iff fun q z hs => ?_
  unfold State.startFiring
  conv => arg 3; zeta
  repeat'
    first
    | with_reducible assumption
    | (simp -zeta only [↓is_mk, ↓State.backToM_keeps, ↓State.cellLeave_keeps, ↓State.cellMemFault_keeps, ↓State.cellReturn_keeps, ↓State.engBump_keeps, ↓State.freeLanded_keeps, ↓State.issued_keeps, ↓State.land_keeps, ↓State.modBank_keeps, ↓State.modCell_keeps, ↓State.queBump_keeps, ↓State.release_keeps, ↓State.sideband_keeps, ↓State.takePacket_keeps, ↓State.tallyOut_keeps]; try change Is q z _)
    | (with_reducible refine is_ite ?_ ?_; rotate_left; intro h; try simp -zeta only [↓is_mk, ↓State.backToM_keeps, ↓State.cellLeave_keeps, ↓State.cellMemFault_keeps, ↓State.cellReturn_keeps, ↓State.engBump_keeps, ↓State.freeLanded_keeps, ↓State.issued_keeps, ↓State.land_keeps, ↓State.modBank_keeps, ↓State.modCell_keeps, ↓State.queBump_keeps, ↓State.release_keeps, ↓State.sideband_keeps, ↓State.takePacket_keeps, ↓State.tallyOut_keeps] at h)
    | split

theorem execFiringStart_keeps : ∀ q z x0 x1 x2 s, Is q z s → IsO q z (execFiringStart x0 x1 x2 s) := by
  intro q z x0 x1 x2 s hs
  unfold execFiringStart
  conv => arg 3; zeta
  repeat'
    first
    | with_reducible assumption
    | (simp -zeta only [↓is_mk, ↓isO_next, ↓State.requestItem_keeps, ↓State.startFiring_keeps]; try change Is q z _)
    | (with_reducible refine is_ite ?_ ?_; rotate_left; intro h; try simp -zeta only [↓is_mk, ↓isO_next, ↓State.requestItem_keeps, ↓State.startFiring_keeps] at h)
    | (with_reducible refine isO_ite ?_ ?_)
    | (split <;> try (rename_i h; refine is_step (is_snd (q := q) (z := z) h ?_) (fun hs => ?_); rotate_left; clear h))
    | split

theorem execPreemption_keeps : ∀ q z x0 x1 x2 s, Is q z s → IsO q z (execPreemption x0 x1 x2 s) := by
  intro q z x0 x1 x2 s hs
  unfold execPreemption
  conv => arg 3; zeta
  repeat'
    first
    | with_reducible assumption
    | (simp -zeta only [↓is_mk, ↓isO_next, ↓State.modCell_keeps, ↓State.queBump_keeps, ↓State.requestItem_keeps, ↓State.startFiring_keeps]; try change Is q z _)
    | (with_reducible refine is_ite ?_ ?_; rotate_left; intro h; try simp -zeta only [↓is_mk, ↓isO_next, ↓State.modCell_keeps, ↓State.queBump_keeps, ↓State.requestItem_keeps, ↓State.startFiring_keeps] at h)
    | (with_reducible refine isO_ite ?_ ?_)
    | (split <;> try (rename_i h; refine is_step (is_snd (q := q) (z := z) h ?_) (fun hs => ?_); rotate_left; clear h))
    | split

theorem State.finishOp_keeps : ∀ s x1 x2 x3 x4, Is q z (State.finishOp s x1 x2 x3 x4) ↔ Is q z s := by
  intro s x1 x2 x3 x4; refine is_iff fun q z hs => ?_
  unfold State.finishOp
  conv => arg 3; zeta
  repeat'
    first
    | with_reducible assumption
    | (simp -zeta only [↓is_mk, ↓State.feedFor_keeps, ↓State.popOp_keeps, ↓State.retire_keeps, ↓State.writeResults_keeps]; try change Is q z _)

theorem State.turnOp_keeps : ∀ s x1 x2 x3 x4, Is q z (State.turnOp s x1 x2 x3 x4) ↔ Is q z s := by
  intro s x1 x2 x3 x4; refine is_iff fun q z hs => ?_
  unfold State.turnOp
  conv => arg 3; zeta
  repeat'
    first
    | with_reducible assumption
    | (simp -zeta only [↓is_mk, ↓State.feedFor_keeps, ↓State.modBank_keeps, ↓State.retire_keeps]; try change Is q z _)
    | (with_reducible refine is_ite ?_ ?_; rotate_left; intro h; try simp -zeta only [↓is_mk, ↓State.feedFor_keeps, ↓State.modBank_keeps, ↓State.retire_keeps] at h)
    | split

theorem execOperationComplete_keeps : ∀ q z x0 x1 x2 s, Is q z s → IsO q z (execOperationComplete x0 x1 x2 s) := by
  intro q z x0 x1 x2 s hs
  unfold execOperationComplete
  conv => arg 3; zeta
  repeat'
    first
    | with_reducible assumption
    | (simp -zeta only [↓is_mk, ↓isO_next, ↓State.feedFor_keeps, ↓State.finishOp_keeps, ↓State.modBank_keeps, ↓State.retire_keeps, ↓State.sysWrite_keeps, ↓State.turnOp_keeps]; try change Is q z _)
    | (with_reducible refine is_ite ?_ ?_; rotate_left; intro h; try simp -zeta only [↓is_mk, ↓isO_next, ↓State.feedFor_keeps, ↓State.finishOp_keeps, ↓State.modBank_keeps, ↓State.retire_keeps, ↓State.sysWrite_keeps, ↓State.turnOp_keeps] at h)
    | (with_reducible refine isO_ite ?_ ?_)
    | (split <;> try (rename_i h; refine is_step (is_snd (q := q) (z := z) h ?_) (fun hs => ?_); rotate_left; clear h))
    | split

theorem State.answerOp_keeps : ∀ s x1 x2 x3 x4 x5, Is q z (State.answerOp s x1 x2 x3 x4 x5) ↔ Is q z s := by
  intro s x1 x2 x3 x4 x5; refine is_iff fun q z hs => ?_
  unfold State.answerOp
  conv => arg 3; zeta
  repeat'
    first
    | with_reducible assumption
    | (simp -zeta only [↓is_mk, ↓State.finishOp_keeps, ↓State.turnOp_keeps]; try change Is q z _)
    | (with_reducible refine is_ite ?_ ?_; rotate_left; intro h; try simp -zeta only [↓is_mk, ↓State.finishOp_keeps, ↓State.turnOp_keeps] at h)
    | (split <;> try (rename_i h; refine is_step (is_snd (q := q) (z := z) h ?_) (fun hs => ?_); rotate_left; clear h))
    | split

theorem State.answer_keeps : ∀ s x1 x2 x3, Is q z (State.answer s x1 x2 x3) ↔ Is q z s := by
  intro s x1 x2 x3; refine is_iff fun q z hs => ?_
  unfold State.answer
  conv => arg 3; zeta
  repeat'
    first
    | with_reducible assumption
    | (simp -zeta only [↓is_mk, ↓State.answerOp_keeps]; try change Is q z _)
    | (with_reducible refine is_ite ?_ ?_; rotate_left; intro h; try simp -zeta only [↓is_mk, ↓State.answerOp_keeps] at h)
    | (split <;> try (rename_i h; refine is_step (is_snd (q := q) (z := z) h ?_) (fun hs => ?_); rotate_left; clear h))
    | split

theorem State.timeoutReq_keeps : ∀ s x1, Is q z (State.timeoutReq s x1) ↔ Is q z s := by
  intro s x1; refine is_iff fun q z hs => ?_
  unfold State.timeoutReq
  conv => arg 3; zeta
  repeat'
    first
    | with_reducible assumption
    | (simp -zeta only [↓is_mk, ↓State.answer_keeps, ↓State.fabStat_keeps, ↓State.modFabric_keeps, ↓State.modResp_keeps, ↓State.postEvent_keeps]; try change Is q z _)
    | (with_reducible refine is_ite ?_ ?_; rotate_left; intro h; try simp -zeta only [↓is_mk, ↓State.answer_keeps, ↓State.fabStat_keeps, ↓State.modFabric_keeps, ↓State.modResp_keeps, ↓State.postEvent_keeps] at h)
    | split

theorem execRegionResponse_keeps : ∀ q z x0 x1 x2 s, Is q z s → IsO q z (execRegionResponse x0 x1 x2 s) := by
  intro q z x0 x1 x2 s hs
  unfold execRegionResponse
  conv => arg 3; zeta
  repeat'
    first
    | with_reducible assumption
    | (simp -zeta only [↓is_mk, ↓isO_next, ↓State.answer_keeps, ↓State.fabStat_keeps, ↓State.land_keeps, ↓State.modFabric_keeps, ↓State.timeoutReq_keeps, ↓State.unitErr_keeps]; try change Is q z _)
    | (with_reducible refine is_ite ?_ ?_; rotate_left; intro h; try simp -zeta only [↓is_mk, ↓isO_next, ↓State.answer_keeps, ↓State.fabStat_keeps, ↓State.land_keeps, ↓State.modFabric_keeps, ↓State.timeoutReq_keeps, ↓State.unitErr_keeps] at h)
    | (with_reducible refine isO_ite ?_ ?_)
    | (split <;> try (rename_i h; refine is_step (is_snd (q := q) (z := z) h ?_) (fun hs => ?_); rotate_left; clear h))
    | split

theorem execReqTimeout_keeps : ∀ q z x0 x1 s, Is q z s → IsO q z (execReqTimeout x0 x1 s) := by
  intro q z x0 x1 s hs
  unfold execReqTimeout
  conv => arg 3; zeta
  repeat'
    first
    | with_reducible assumption
    | (simp -zeta only [↓is_mk, ↓isO_next, ↓State.reach_keeps, ↓State.timeoutReq_keeps]; try change Is q z _)
    | (split <;> try (rename_i h; refine is_step (is_snd (q := q) (z := z) h ?_) (fun hs => ?_); rotate_left; clear h))
    | split

theorem execSlotBoundary_keeps : ∀ q z s, Is q z s → IsO q z (execSlotBoundary s) := by
  intro q z s hs
  unfold execSlotBoundary
  conv => arg 3; zeta
  repeat'
    first
    | with_reducible assumption
    | (simp -zeta only [↓is_mk, ↓isO_next, ↓State.retireCell_keeps, ↓State.slotBegin_keeps]; try change Is q z _)
    | with_reducible refine is_foldl (fun s b hs => ?_) ?_

end Sys2Proof.Machine
end

