-- ==== Sys2Proof/Laws/KeepTrace.lean ====
section
/-! SUPPORT. No operation of Trace touches the command queue, and none but the burning of fuses
touches the fuses. -/

set_option linter.all false

namespace Sys2Proof.Machine

variable {q : List Instr} {z : Fuses}

theorem State.modTrace_keeps : ∀ x0 s, Is q z (State.modTrace x0 s) ↔ Is q z s := by
  intro x0 s; refine is_iff fun q z hs => ?_
  unfold State.modTrace
  conv => arg 3; zeta
  repeat'
    first
    | with_reducible assumption
    | (simp -zeta only [↓is_mk]; try change Is q z _)

theorem State.traceHeader_keeps : ∀ s, Is q z (State.traceHeader s) ↔ Is q z s := by
  intro s; refine is_iff fun q z hs => ?_
  unfold State.traceHeader
  conv => arg 3; zeta
  repeat'
    first
    | with_reducible assumption
    | (simp -zeta only [↓is_mk, ↓State.modResp_keeps]; try change Is q z _)

theorem State.putPacket_keeps : ∀ s x1, Is q z (State.putPacket s x1) ↔ Is q z s := by
  intro s x1; refine is_iff fun q z hs => ?_
  unfold State.putPacket
  conv => arg 3; zeta
  repeat'
    first
    | with_reducible assumption
    | (simp -zeta only [↓is_mk, ↓State.modResp_keeps, ↓State.modTrace_keeps]; try change Is q z _)

theorem State.writePacketTrace_keeps : ∀ s x1, Is q z (State.writePacketTrace s x1) ↔ Is q z s := by
  intro s x1; refine is_iff fun q z hs => ?_
  unfold State.writePacketTrace
  conv => arg 3; zeta
  repeat'
    first
    | with_reducible assumption
    | (simp -zeta only [↓is_mk, ↓State.modTrace_keeps, ↓State.putPacket_keeps, ↓State.traceHeader_keeps]; try change Is q z _)
    | (with_reducible refine is_ite ?_ ?_; rotate_left; intro h; try simp -zeta only [↓is_mk, ↓State.modTrace_keeps, ↓State.putPacket_keeps, ↓State.traceHeader_keeps] at h)
    | split

theorem State.writeSync_keeps : ∀ s x1, Is q z (State.writeSync s x1) ↔ Is q z s := by
  intro s x1; refine is_iff fun q z hs => ?_
  unfold State.writeSync
  conv => arg 3; zeta
  repeat'
    first
    | with_reducible assumption
    | (simp -zeta only [↓is_mk, ↓State.modTrace_keeps, ↓State.writePacketTrace_keeps]; try change Is q z _)

theorem State.writeLost_keeps : ∀ s, Is q z (State.writeLost s) ↔ Is q z s := by
  intro s; refine is_iff fun q z hs => ?_
  unfold State.writeLost
  conv => arg 3; zeta
  repeat'
    first
    | with_reducible assumption
    | (simp -zeta only [↓is_mk, ↓State.modTrace_keeps, ↓State.writePacketTrace_keeps, ↓State.writeSync_keeps]; try change Is q z _)
    | (with_reducible refine is_ite ?_ ?_; rotate_left; intro h; try simp -zeta only [↓is_mk, ↓State.modTrace_keeps, ↓State.writePacketTrace_keeps, ↓State.writeSync_keeps] at h)
    | split

theorem State.stageItem_keeps : ∀ s x1, Is q z (State.stageItem s x1) ↔ Is q z s := by
  intro s x1; refine is_iff fun q z hs => ?_
  unfold State.stageItem
  conv => arg 3; zeta
  repeat'
    first
    | with_reducible assumption
    | (simp -zeta only [↓is_mk, ↓State.modTrace_keeps]; try change Is q z _)
    | (with_reducible refine is_ite ?_ ?_; rotate_left; intro h; try simp -zeta only [↓is_mk, ↓State.modTrace_keeps] at h)
    | split

theorem State.drainStage_keeps : ∀ x0 s, Is q z (State.drainStage x0 s) ↔ Is q z s := by
  intro x0 s; refine is_iff fun q z hs => ?_
  induction x0 generalizing s with
  | nil => exact hs
  | cons a l ih =>
    unfold State.drainStage
    refine ih _ ?_
    simpa only [↓State.modTrace_keeps, ↓State.writePacketTrace_keeps] using hs

theorem State.writeSleep_keeps : ∀ s x1, Is q z (State.writeSleep s x1) ↔ Is q z s := by
  intro s x1; refine is_iff fun q z hs => ?_
  unfold State.writeSleep
  conv => arg 3; zeta
  repeat'
    first
    | with_reducible assumption
    | (simp -zeta only [↓is_mk, ↓State.writePacketTrace_keeps]; try change Is q z _)

theorem State.syncEnabled_keeps : ∀ s, Is q z (State.syncEnabled s) ↔ Is q z s := by
  intro s; refine is_iff fun q z hs => ?_
  unfold State.syncEnabled
  conv => arg 3; zeta
  repeat'
    first
    | with_reducible assumption
    | (simp -zeta only [↓is_mk, ↓State.modTrace_keeps, ↓State.writeSync_keeps]; try change Is q z _)
    | (with_reducible refine is_ite ?_ ?_; rotate_left; intro h; try simp -zeta only [↓is_mk, ↓State.modTrace_keeps, ↓State.writeSync_keeps] at h)
    | split

theorem State.leaveRest_keeps : ∀ s, Is q z (State.leaveRest s) ↔ Is q z s := by
  intro s; refine is_iff fun q z hs => ?_
  unfold State.leaveRest
  conv => arg 3; zeta
  repeat'
    first
    | with_reducible assumption
    | (simp -zeta only [↓is_mk, ↓State.postEvent_keeps, ↓State.syncEnabled_keeps, ↓State.writeSleep_keeps, ↓State.writeSync_keeps]; try change Is q z _)
    | (with_reducible refine is_ite ?_ ?_; rotate_left; intro h; try simp -zeta only [↓is_mk, ↓State.postEvent_keeps, ↓State.syncEnabled_keeps, ↓State.writeSleep_keeps, ↓State.writeSync_keeps] at h)
    | split

theorem State.traceFault_keeps : ∀ s x1 x2 x3 x4, Is q z (State.traceFault s x1 x2 x3 x4) ↔ Is q z s := by
  intro s x1 x2 x3 x4; refine is_iff fun q z hs => ?_
  unfold State.traceFault
  conv => arg 3; zeta
  repeat'
    first
    | with_reducible assumption
    | (simp -zeta only [↓is_mk, ↓State.stageItem_keeps]; try change Is q z _)
    | (with_reducible refine is_ite ?_ ?_; rotate_left; intro h; try simp -zeta only [↓is_mk, ↓State.stageItem_keeps] at h)
    | split

theorem execTraceMarker_keeps : ∀ q z x0 x1 x2 s, Is q z s → IsO q z (execTraceMarker x0 x1 x2 s) := by
  intro q z x0 x1 x2 s hs
  unfold execTraceMarker
  conv => arg 3; zeta
  repeat'
    first
    | with_reducible assumption
    | (simp -zeta only [↓is_mk, ↓isO_next, ↓State.endpointAbsorb_keeps, ↓State.endpointTake_keeps, ↓State.modCell_keeps, ↓State.stageItem_keeps, ↓State.unitErr_keeps]; try change Is q z _)
    | (with_reducible refine is_ite ?_ ?_; rotate_left; intro h; try simp -zeta only [↓is_mk, ↓isO_next, ↓State.endpointAbsorb_keeps, ↓State.endpointTake_keeps, ↓State.modCell_keeps, ↓State.stageItem_keeps, ↓State.unitErr_keeps] at h)
    | (with_reducible refine isO_ite ?_ ?_)
    | (split <;> try (rename_i h; refine is_step (is_snd (q := q) (z := z) h ?_) (fun hs => ?_); rotate_left; clear h))
    | split

theorem execTracePacketWrite_keeps : ∀ q z s, Is q z s → IsO q z (execTracePacketWrite s) := by
  intro q z s hs
  unfold execTracePacketWrite
  conv => arg 3; zeta
  repeat'
    first
    | with_reducible assumption
    | (simp -zeta only [↓is_mk, ↓isO_next, ↓State.modTrace_keeps, ↓State.writeLost_keeps, ↓State.writePacketTrace_keeps]; try change Is q z _)
    | (with_reducible refine is_ite ?_ ?_; rotate_left; intro h; try simp -zeta only [↓is_mk, ↓isO_next, ↓State.modTrace_keeps, ↓State.writeLost_keeps, ↓State.writePacketTrace_keeps] at h)
    | (with_reducible refine isO_ite ?_ ?_)
    | (split <;> try (rename_i h; refine is_step (is_snd (q := q) (z := z) h ?_) (fun hs => ?_); rotate_left; clear h))
    | split

theorem execTraceSync_keeps : ∀ q z s, Is q z s → IsO q z (execTraceSync s) := by
  intro q z s hs
  unfold execTraceSync
  conv => arg 3; zeta
  repeat'
    first
    | with_reducible assumption
    | (simp -zeta only [↓is_mk, ↓isO_next, ↓State.reach_keeps, ↓State.writeLost_keeps, ↓State.writeSync_keeps]; try change Is q z _)
    | (with_reducible refine is_ite ?_ ?_; rotate_left; intro h; try simp -zeta only [↓is_mk, ↓isO_next, ↓State.reach_keeps, ↓State.writeLost_keeps, ↓State.writeSync_keeps] at h)
    | (with_reducible refine isO_ite ?_ ?_)
    | split

theorem State.writeTraceCtrl_keeps : ∀ s x1, Is q z (State.writeTraceCtrl s x1) ↔ Is q z s := by
  intro s x1; refine is_iff fun q z hs => ?_
  unfold State.writeTraceCtrl
  conv => arg 3; zeta
  repeat'
    first
    | with_reducible assumption
    | (simp -zeta only [↓is_mk, ↓State.modTrace_keeps, ↓State.syncEnabled_keeps, ↓State.traceHeader_keeps]; try change Is q z _)
    | (with_reducible refine is_ite ?_ ?_; rotate_left; intro h; try simp -zeta only [↓is_mk, ↓State.modTrace_keeps, ↓State.syncEnabled_keeps, ↓State.traceHeader_keeps] at h)
    | split

theorem execTraceCtrlWrite_keeps : ∀ q z x0 s, Is q z s → IsO q z (execTraceCtrlWrite x0 s) := by
  intro q z x0 s hs
  unfold execTraceCtrlWrite
  conv => arg 3; zeta
  repeat'
    first
    | with_reducible assumption
    | (simp -zeta only [↓is_mk, ↓isO_next, ↓State.writeTraceCtrl_keeps]; try change Is q z _)

end Sys2Proof.Machine
end

