-- ==== Sys2Proof/Laws/KeepWatch.lean ====
section
/-! SUPPORT. No operation of Watch touches the command queue, and none but the burning of fuses
touches the fuses. -/

set_option linter.all false

namespace Sys2Proof.Machine

variable {q : List Instr} {z : Fuses}

theorem State.modWatch_keeps : ∀ x0 s, Is q z (State.modWatch x0 s) ↔ Is q z s := by
  intro x0 s; refine is_iff fun q z hs => ?_
  unfold State.modWatch
  conv => arg 3; zeta
  repeat'
    first
    | with_reducible assumption
    | (simp -zeta only [↓is_mk]; try change Is q z _)

theorem State.modPower_keeps : ∀ x0 s, Is q z (State.modPower x0 s) ↔ Is q z s := by
  intro x0 s; refine is_iff fun q z hs => ?_
  unfold State.modPower
  conv => arg 3; zeta
  repeat'
    first
    | with_reducible assumption
    | (simp -zeta only [↓is_mk]; try change Is q z _)

theorem State.modAon_keeps : ∀ x0 s, Is q z (State.modAon x0 s) ↔ Is q z s := by
  intro x0 s; refine is_iff fun q z hs => ?_
  unfold State.modAon
  conv => arg 3; zeta
  repeat'
    first
    | with_reducible assumption
    | (simp -zeta only [↓is_mk]; try change Is q z _)

theorem State.failStart_keeps : ∀ s x1 x2 x3, Is q z (State.failStart s x1 x2 x3) ↔ Is q z s := by
  intro s x1 x2 x3; refine is_iff fun q z hs => ?_
  unfold State.failStart
  conv => arg 3; zeta
  repeat'
    first
    | with_reducible assumption
    | (simp -zeta only [↓is_mk, ↓State.aonBump_keeps, ↓State.modAon_keeps, ↓State.modPower_keeps]; try change Is q z _)
    | (with_reducible refine is_ite ?_ ?_; rotate_left; intro h; try simp -zeta only [↓is_mk, ↓State.aonBump_keeps, ↓State.modAon_keeps, ↓State.modPower_keeps] at h)
    | split

theorem State.abortStart_keeps : ∀ s x1, Is q z (State.abortStart s x1) ↔ Is q z s := by
  intro s x1; refine is_iff fun q z hs => ?_
  unfold State.abortStart
  conv => arg 3; zeta
  repeat'
    first
    | with_reducible assumption
    | (simp -zeta only [↓is_mk, ↓State.failStart_keeps]; try change Is q z _)
    | (split <;> try (rename_i h; refine is_step (is_snd (q := q) (z := z) h ?_) (fun hs => ?_); rotate_left; clear h))
    | split

theorem State.isolateUnit_keeps : ∀ x0 s x2, Is q z (State.isolateUnit x0 s x2) ↔ Is q z s := by
  intro x0 s x2; refine is_iff fun q z hs => ?_
  unfold State.isolateUnit
  conv => arg 3; zeta
  repeat'
    first
    | with_reducible assumption
    | (simp -zeta only [↓is_mk, ↓State.flush_keeps, ↓State.isolate_keeps]; try change Is q z _)
    | (with_reducible refine is_ite ?_ ?_; rotate_left; intro h; try simp -zeta only [↓is_mk, ↓State.flush_keeps, ↓State.isolate_keeps] at h)
    | split

theorem State.haltAll_keeps : ∀ s x1, Is q z (State.haltAll s x1) ↔ Is q z s := by
  intro s x1; refine is_iff fun q z hs => ?_
  unfold State.haltAll
  conv => arg 3; zeta
  repeat'
    first
    | with_reducible assumption
    | (simp -zeta only [↓is_mk, ↓State.abortStart_keeps, ↓State.modWatch_keeps, ↓State.postEvent_keeps]; try change Is q z _)
    | (with_reducible refine is_ite ?_ ?_; rotate_left; intro h; try simp -zeta only [↓is_mk, ↓State.abortStart_keeps, ↓State.modWatch_keeps, ↓State.postEvent_keeps] at h)
    | split

theorem State.react_keeps : ∀ s x1 x2 x3, Is q z (State.react s x1 x2 x3) ↔ Is q z s := by
  intro s x1 x2 x3; refine is_iff fun q z hs => ?_
  unfold State.react
  conv => arg 3; zeta
  repeat'
    first
    | with_reducible assumption
    | (simp -zeta only [↓is_mk, ↓State.haltAll_keeps, ↓State.isolateUnit_keeps, ↓State.modWatch_keeps]; try change Is q z _)
    | (with_reducible refine is_ite ?_ ?_; rotate_left; intro h; try simp -zeta only [↓is_mk, ↓State.haltAll_keeps, ↓State.isolateUnit_keeps, ↓State.modWatch_keeps] at h)
    | with_reducible refine is_foldl (fun s b hs => ?_) ?_
    | split

theorem State.raiseAt_keeps : ∀ s x1 x2, Is q z (State.raiseAt s x1 x2) ↔ Is q z s := by
  intro s x1 x2; refine is_iff fun q z hs => ?_
  unfold State.raiseAt
  conv => arg 3; zeta
  repeat'
    first
    | with_reducible assumption
    | (simp -zeta only [↓is_mk, ↓State.modWatch_keeps, ↓State.react_keeps, ↓State.watchBump_keeps]; try change Is q z _)
    | (with_reducible refine is_ite ?_ ?_; rotate_left; intro h; try simp -zeta only [↓is_mk, ↓State.modWatch_keeps, ↓State.react_keeps, ↓State.watchBump_keeps] at h)
    | (split <;> try (rename_i h; refine is_step (is_snd (q := q) (z := z) h ?_) (fun hs => ?_); rotate_left; clear h))
    | split

theorem execFaultRaise_keeps : ∀ q z x0 x1 x2 s, Is q z s → IsO q z (execFaultRaise x0 x1 x2 s) := by
  intro q z x0 x1 x2 s hs
  unfold execFaultRaise
  conv => arg 3; zeta
  repeat'
    first
    | with_reducible assumption
    | (simp -zeta only [↓is_mk, ↓isO_next, ↓State.detect_keeps, ↓State.modWatch_keeps, ↓State.raiseAt_keeps]; try change Is q z _)
    | (with_reducible refine is_ite ?_ ?_; rotate_left; intro h; try simp -zeta only [↓is_mk, ↓isO_next, ↓State.detect_keeps, ↓State.modWatch_keeps, ↓State.raiseAt_keeps] at h)
    | (with_reducible refine isO_ite ?_ ?_)
    | (split <;> try (rename_i h; refine is_step (is_snd (q := q) (z := z) h ?_) (fun hs => ?_); rotate_left; clear h))
    | split

theorem State.lastGasp_keeps : ∀ s x1, Is q z (State.lastGasp s x1) ↔ Is q z s := by
  intro s x1; refine is_iff fun q z hs => ?_
  unfold State.lastGasp
  conv => arg 3; zeta
  repeat'
    first
    | with_reducible assumption
    | (simp -zeta only [↓is_mk, ↓State.detect_keeps, ↓State.modWatch_keeps, ↓State.postEvent_keeps]; try change Is q z _)
    | (with_reducible refine is_ite ?_ ?_; rotate_left; intro h; try simp -zeta only [↓is_mk, ↓State.detect_keeps, ↓State.modWatch_keeps, ↓State.postEvent_keeps] at h)
    | split

theorem State.mirror_keeps : ∀ s x1, Is q z (State.mirror s x1) ↔ Is q z s := by
  intro s x1; refine is_iff fun q z hs => ?_
  unfold State.mirror
  conv => arg 3; zeta
  repeat'
    first
    | with_reducible assumption
    | (simp -zeta only [↓is_mk, ↓State.modResp_keeps]; try change Is q z _)
    | (with_reducible refine is_ite ?_ ?_; rotate_left; intro h; try simp -zeta only [↓is_mk, ↓State.modResp_keeps] at h)
    | split

theorem State.logPut_keeps : ∀ s x1, Is q z (State.logPut s x1) ↔ Is q z s := by
  intro s x1; refine is_iff fun q z hs => ?_
  unfold State.logPut
  conv => arg 3; zeta
  repeat'
    first
    | with_reducible assumption
    | (simp -zeta only [↓is_mk, ↓State.modWatch_keeps, ↓State.postEvent_keeps, ↓State.watchBump_keeps]; try change Is q z _)
    | (with_reducible refine is_ite ?_ ?_; rotate_left; intro h; try simp -zeta only [↓is_mk, ↓State.modWatch_keeps, ↓State.postEvent_keeps, ↓State.watchBump_keeps] at h)
    | split

theorem execHandlingEnd_keeps : ∀ q z x0 s, Is q z s → IsO q z (execHandlingEnd x0 s) := by
  intro q z x0 s hs
  unfold execHandlingEnd
  conv => arg 3; zeta
  repeat'
    first
    | with_reducible assumption
    | (simp -zeta only [↓is_mk, ↓isO_next, ↓State.lastGasp_keeps, ↓State.logPut_keeps, ↓State.mirror_keeps, ↓State.modWatch_keeps, ↓State.postEvent_keeps, ↓State.traceFault_keeps]; try change Is q z _)
    | (with_reducible refine is_ite ?_ ?_; rotate_left; intro h; try simp -zeta only [↓is_mk, ↓isO_next, ↓State.lastGasp_keeps, ↓State.logPut_keeps, ↓State.mirror_keeps, ↓State.modWatch_keeps, ↓State.postEvent_keeps, ↓State.traceFault_keeps] at h)
    | (with_reducible refine isO_ite ?_ ?_)
    | with_reducible refine is_foldl (fun s b hs => ?_) ?_
    | (split <;> try (rename_i h; refine is_step (is_snd (q := q) (z := z) h ?_) (fun hs => ?_); rotate_left; clear h))
    | split

theorem execLogScrub_keeps : ∀ q z s, Is q z s → IsO q z (execLogScrub s) := by
  intro q z s hs
  unfold execLogScrub
  conv => arg 3; zeta
  repeat'
    first
    | with_reducible assumption
    | (simp -zeta only [↓is_mk, ↓isO_next, ↓State.lastGasp_keeps]; try change Is q z _)

theorem execConditionEnd_keeps : ∀ q z x0 x1 s, Is q z s → IsO q z (execConditionEnd x0 x1 s) := by
  intro q z x0 x1 s hs
  unfold execConditionEnd
  conv => arg 3; zeta
  repeat'
    first
    | with_reducible assumption
    | (simp -zeta only [↓is_mk, ↓isO_next, ↓State.endLevel_keeps]; try change Is q z _)
    | (with_reducible refine is_ite ?_ ?_; rotate_left; intro h; try simp -zeta only [↓is_mk, ↓isO_next, ↓State.endLevel_keeps] at h)
    | (with_reducible refine isO_ite ?_ ?_)
    | split

theorem execQuietPeriodExpiry_keeps : ∀ q z s, Is q z s → IsO q z (execQuietPeriodExpiry s) := by
  intro q z s hs
  unfold execQuietPeriodExpiry
  conv => arg 3; zeta
  repeat'
    first
    | with_reducible assumption
    | (simp -zeta only [↓is_mk, ↓isO_next, ↓State.modWatch_keeps, ↓State.postEvent_keeps, ↓State.reach_keeps, ↓State.watchBump_keeps]; try change Is q z _)
    | (with_reducible refine is_ite ?_ ?_; rotate_left; intro h; try simp -zeta only [↓is_mk, ↓isO_next, ↓State.modWatch_keeps, ↓State.postEvent_keeps, ↓State.reach_keeps, ↓State.watchBump_keeps] at h)
    | (with_reducible refine isO_ite ?_ ?_)
    | (split <;> try (rename_i h; refine is_step (is_snd (q := q) (z := z) h ?_) (fun hs => ?_); rotate_left; clear h))
    | split

theorem State.retirePair_keeps : ∀ s x1, Is q z (State.retirePair s x1) ↔ Is q z s := by
  intro s x1; refine is_iff fun q z hs => ?_
  unfold State.retirePair
  conv => arg 3; zeta
  repeat'
    first
    | with_reducible assumption
    | (simp -zeta only [↓is_mk, ↓State.retireCell_keeps]; try change Is q z _)

theorem execPairCompare_keeps : ∀ q z x0 s, Is q z s → IsO q z (execPairCompare x0 s) := by
  intro q z x0 s hs
  unfold execPairCompare
  conv => arg 3; zeta
  repeat'
    first
    | with_reducible assumption
    | (simp -zeta only [↓is_mk, ↓isO_next, ↓State.detect_keeps, ↓State.modPair_keeps, ↓State.pairLost_keeps, ↓State.pairRelease_keeps, ↓State.retirePair_keeps, ↓State.watchBump_keeps]; try change Is q z _)
    | (with_reducible refine is_ite ?_ ?_; rotate_left; intro h; try simp -zeta only [↓is_mk, ↓isO_next, ↓State.detect_keeps, ↓State.modPair_keeps, ↓State.pairLost_keeps, ↓State.pairRelease_keeps, ↓State.retirePair_keeps, ↓State.watchBump_keeps] at h)
    | (with_reducible refine isO_ite ?_ ?_)
    | (split <;> try (rename_i h; refine is_step (is_snd (q := q) (z := z) h ?_) (fun hs => ?_); rotate_left; clear h))
    | split

theorem execSkewTimeout_keeps : ∀ q z x0 s, Is q z s → IsO q z (execSkewTimeout x0 s) := by
  intro q z x0 s hs
  unfold execSkewTimeout
  conv => arg 3; zeta
  repeat'
    first
    | with_reducible assumption
    | (simp -zeta only [↓is_mk, ↓isO_next, ↓State.detect_keeps, ↓State.modPair_keeps, ↓State.pairLost_keeps, ↓State.reach_keeps, ↓State.retirePair_keeps, ↓State.watchBump_keeps]; try change Is q z _)
    | (with_reducible refine is_ite ?_ ?_; rotate_left; intro h; try simp -zeta only [↓is_mk, ↓isO_next, ↓State.detect_keeps, ↓State.modPair_keeps, ↓State.pairLost_keeps, ↓State.reach_keeps, ↓State.retirePair_keeps, ↓State.watchBump_keeps] at h)
    | (with_reducible refine isO_ite ?_ ?_)
    | (split <;> try (rename_i h; refine is_step (is_snd (q := q) (z := z) h ?_) (fun hs => ?_); rotate_left; clear h))
    | split

theorem execStewardCompare_keeps : ∀ q z x0 x1 s, Is q z s → IsO q z (execStewardCompare x0 x1 s) := by
  intro q z x0 x1 s hs
  unfold execStewardCompare
  conv => arg 3; zeta
  repeat'
    first
    | with_reducible assumption
    | (simp -zeta only [↓is_mk, ↓isO_next, ↓State.detect_keeps, ↓State.modWatch_keeps]; try change Is q z _)
    | (with_reducible refine is_ite ?_ ?_; rotate_left; intro h; try simp -zeta only [↓is_mk, ↓isO_next, ↓State.detect_keeps, ↓State.modWatch_keeps] at h)
    | (with_reducible refine isO_ite ?_ ?_)
    | split

theorem execComparatorStall_keeps : ∀ q z x0 s, Is q z s → IsO q z (execComparatorStall x0 s) := by
  intro q z x0 s hs
  unfold execComparatorStall
  conv => arg 3; zeta
  repeat'
    first
    | with_reducible assumption
    | (simp -zeta only [↓is_mk, ↓isO_next, ↓State.detect_keeps, ↓State.isolate_keeps, ↓State.modPair_keeps, ↓State.modWatch_keeps]; try change Is q z _)
    | (with_reducible refine is_ite ?_ ?_; rotate_left; intro h; try simp -zeta only [↓is_mk, ↓isO_next, ↓State.detect_keeps, ↓State.isolate_keeps, ↓State.modPair_keeps, ↓State.modWatch_keeps] at h)
    | (with_reducible refine isO_ite ?_ ?_)
    | (split <;> try (rename_i h; refine is_step (is_snd (q := q) (z := z) h ?_) (fun hs => ?_); rotate_left; clear h))
    | split

theorem execTripReadbackMismatch_keeps : ∀ q z x0 s, Is q z s → IsO q z (execTripReadbackMismatch x0 s) := by
  intro q z x0 s hs
  unfold execTripReadbackMismatch
  conv => arg 3; zeta
  repeat'
    first
    | with_reducible assumption
    | (simp -zeta only [↓is_mk, ↓isO_next, ↓State.detect_keeps]; try change Is q z _)
    | (with_reducible refine is_ite ?_ ?_; rotate_left; intro h; try simp -zeta only [↓is_mk, ↓isO_next, ↓State.detect_keeps] at h)
    | (with_reducible refine isO_ite ?_ ?_)
    | (split <;> try (rename_i h; refine is_step (is_snd (q := q) (z := z) h ?_) (fun hs => ?_); rotate_left; clear h))
    | split

theorem State.mailTaken_keeps : ∀ s, Is q z (State.mailTaken s) ↔ Is q z s := by
  intro s; refine is_iff fun q z hs => ?_
  unfold State.mailTaken
  conv => arg 3; zeta
  repeat'
    first
    | with_reducible assumption
    | (simp -zeta only [↓is_mk, ↓State.draw_keeps, ↓State.modWatch_keeps]; try change Is q z _)
    | (with_reducible refine is_ite ?_ ?_; rotate_left; intro h; try simp -zeta only [↓is_mk, ↓State.draw_keeps, ↓State.modWatch_keeps] at h)
    | (split <;> try (rename_i h; refine is_step (is_snd (q := q) (z := z) h ?_) (fun hs => ?_); rotate_left; clear h))
    | split

theorem execStewardMessage_keeps : ∀ q z x0 x1 x2 s, Is q z s → IsO q z (execStewardMessage x0 x1 x2 s) := by
  intro q z x0 x1 x2 s hs
  unfold execStewardMessage
  conv => arg 3; zeta
  repeat'
    first
    | with_reducible assumption
    | (simp -zeta only [↓is_mk, ↓isO_next, ↓State.endpointAbsorb_keeps, ↓State.endpointTake_keeps, ↓State.mailTaken_keeps, ↓State.modWatch_keeps, ↓State.unitErr_keeps, ↓State.watchBump_keeps]; try change Is q z _)
    | (with_reducible refine is_ite ?_ ?_; rotate_left; intro h; try simp -zeta only [↓is_mk, ↓isO_next, ↓State.endpointAbsorb_keeps, ↓State.endpointTake_keeps, ↓State.mailTaken_keeps, ↓State.modWatch_keeps, ↓State.unitErr_keeps, ↓State.watchBump_keeps] at h)
    | (with_reducible refine isO_ite ?_ ?_)
    | split

end Sys2Proof.Machine
end

