-- ==== Sys2Proof/Laws/KeepDebug.lean ====
section
/-! SUPPORT. No operation of Debug touches the command queue, and none but the burning of fuses
touches the fuses. -/

set_option linter.all false

namespace Sys2Proof.Machine

variable {q : List Instr} {z : Fuses}

theorem State.runCell_keeps : ∀ s x1 x2, Is q z (State.runCell s x1 x2) ↔ Is q z s := by
  intro s x1 x2; refine is_iff fun q z hs => ?_
  unfold State.runCell
  conv => arg 3; zeta
  repeat'
    first
    | with_reducible assumption
    | (simp -zeta only [↓is_mk, ↓State.engBump_keeps, ↓State.modBank_keeps, ↓State.modCell_keeps, ↓State.traceDebug_keeps]; try change Is q z _)
    | (split <;> try (rename_i h; refine is_step (is_snd (q := q) (z := z) h ?_) (fun hs => ?_); rotate_left; clear h))
    | split

theorem State.killCell_keeps : ∀ s x1, Is q z (State.killCell s x1) ↔ Is q z s := by
  intro s x1; refine is_iff fun q z hs => ?_
  unfold State.killCell
  conv => arg 3; zeta
  repeat'
    first
    | with_reducible assumption
    | (simp -zeta only [↓is_mk, ↓State.endByException_keeps, ↓State.modCell_keeps, ↓State.traceDebug_keeps]; try change Is q z _)
    | (split <;> try (rename_i h; refine is_step (is_snd (q := q) (z := z) h ?_) (fun hs => ?_); rotate_left; clear h))
    | split

theorem State.stopCtrl_keeps {s : State} {k : Nat} {f : State → Nat → State}
    (hf : ∀ s n, Is q z s → Is q z (f s n)) (hs : Is q z s) : Is q z (s.stopCtrl k f) := by
  unfold State.stopCtrl
  exact is_ite hs fun _ => hf _ _ (hf _ _ hs)

theorem execRun_keeps : ∀ q z x0 s, Is q z s → IsO q z (execRun x0 s) := by
  intro q z x0 s hs
  unfold execRun
  conv => arg 3; zeta
  repeat'
    first
    | with_reducible assumption
    | (simp -zeta only [↓is_mk, ↓isO_next, ↓State.runCell_keeps, ↓State.stopCtrl_keeps]; try change Is q z _)
    | refine State.stopCtrl_keeps (fun s n hs => ?_) ?_

theorem execStepOne_keeps : ∀ q z x0 s, Is q z s → IsO q z (execStepOne x0 s) := by
  intro q z x0 s hs
  unfold execStepOne
  conv => arg 3; zeta
  repeat'
    first
    | with_reducible assumption
    | (simp -zeta only [↓is_mk, ↓isO_next, ↓State.runCell_keeps, ↓State.stopCtrl_keeps]; try change Is q z _)
    | refine State.stopCtrl_keeps (fun s n hs => ?_) ?_

theorem execKill_keeps : ∀ q z x0 s, Is q z s → IsO q z (execKill x0 s) := by
  intro q z x0 s hs
  unfold execKill
  conv => arg 3; zeta
  repeat'
    first
    | with_reducible assumption
    | (simp -zeta only [↓is_mk, ↓isO_next, ↓State.killCell_keeps, ↓State.stopCtrl_keeps]; try change Is q z _)
    | refine State.stopCtrl_keeps (fun s n hs => ?_) ?_

theorem State.markUnprotected_keeps : ∀ s, Is q z (State.markUnprotected s) ↔ Is q z s := by
  intro s; refine is_iff fun q z hs => ?_
  unfold State.markUnprotected
  conv => arg 3; zeta
  repeat'
    first
    | with_reducible assumption
    | (simp -zeta only [↓is_mk]; try change Is q z _)
    | (with_reducible refine is_ite ?_ ?_; rotate_left; intro h; try simp -zeta only [↓is_mk] at h)
    | split

theorem State.breakPair_keeps : ∀ s x1, Is q z (State.breakPair s x1) ↔ Is q z s := by
  intro s x1; refine is_iff fun q z hs => ?_
  unfold State.breakPair
  conv => arg 3; zeta
  repeat'
    first
    | with_reducible assumption
    | (simp -zeta only [↓is_mk, ↓State.detect_keeps, ↓State.markUnprotected_keeps, ↓State.modPair_keeps, ↓State.pairRelease_keeps, ↓State.retirePair_keeps]; try change Is q z _)
    | (with_reducible refine is_ite ?_ ?_; rotate_left; intro h; try simp -zeta only [↓is_mk, ↓State.detect_keeps, ↓State.markUnprotected_keeps, ↓State.modPair_keeps, ↓State.pairRelease_keeps, ↓State.retirePair_keeps] at h)
    | with_reducible refine is_foldl (fun s b hs => ?_) ?_
    | split

theorem State.restorePair_keeps : ∀ s x1, Is q z (State.restorePair s x1) ↔ Is q z s := by
  intro s x1; refine is_iff fun q z hs => ?_
  unfold State.restorePair
  conv => arg 3; zeta
  repeat'
    first
    | with_reducible assumption
    | (simp -zeta only [↓is_mk, ↓State.endLevel_keeps, ↓State.killCell_keeps, ↓State.modCell_keeps, ↓State.modPair_keeps]; try change Is q z _)
    | (with_reducible refine is_ite ?_ ?_; rotate_left; intro h; try simp -zeta only [↓is_mk, ↓State.endLevel_keeps, ↓State.killCell_keeps, ↓State.modCell_keeps, ↓State.modPair_keeps] at h)
    | with_reducible refine is_foldl (fun s b hs => ?_) ?_
    | split

theorem State.breakSteward_keeps : ∀ s, Is q z (State.breakSteward s) ↔ Is q z s := by
  intro s; refine is_iff fun q z hs => ?_
  unfold State.breakSteward
  conv => arg 3; zeta
  repeat'
    first
    | with_reducible assumption
    | (simp -zeta only [↓is_mk, ↓State.detect_keeps, ↓State.markUnprotected_keeps, ↓State.modWatch_keeps]; try change Is q z _)
    | (with_reducible refine is_ite ?_ ?_; rotate_left; intro h; try simp -zeta only [↓is_mk, ↓State.detect_keeps, ↓State.markUnprotected_keeps, ↓State.modWatch_keeps] at h)
    | split

end Sys2Proof.Machine
end

