-- ==== Sys2Proof/Laws/KeepHost.lean ====
section
/-! SUPPORT. No operation of Host touches the command queue, and none but the burning of fuses
touches the fuses. -/

set_option linter.all false

namespace Sys2Proof.Machine

variable {q : List Instr} {z : Fuses}

theorem State.modHost_keeps : ∀ x0 s, Is q z (State.modHost x0 s) ↔ Is q z s := by
  intro x0 s; refine is_iff fun q z hs => ?_
  unfold State.modHost
  conv => arg 3; zeta
  repeat'
    first
    | with_reducible assumption
    | (simp -zeta only [↓is_mk]; try change Is q z _)

theorem State.modCmd_keeps : ∀ x0 x1 s, Is q z (State.modCmd x0 x1 s) ↔ Is q z s := by
  intro x0 x1 s; refine is_iff fun q z hs => ?_
  unfold State.modCmd
  conv => arg 3; zeta
  repeat'
    first
    | with_reducible assumption
    | (simp -zeta only [↓is_mk, ↓State.modHost_keeps]; try change Is q z _)

theorem State.modCpl_keeps : ∀ x0 x1 s, Is q z (State.modCpl x0 x1 s) ↔ Is q z s := by
  intro x0 x1 s; refine is_iff fun q z hs => ?_
  unfold State.modCpl
  conv => arg 3; zeta
  repeat'
    first
    | with_reducible assumption
    | (simp -zeta only [↓is_mk, ↓State.modHost_keeps]; try change Is q z _)

theorem State.finish_keeps : ∀ s x1 x2 x3 x4 x5, Is q z (State.finish s x1 x2 x3 x4 x5) ↔ Is q z s := by
  intro s x1 x2 x3 x4 x5; refine is_iff fun q z hs => ?_
  unfold State.finish
  conv => arg 3; zeta
  repeat'
    first
    | with_reducible assumption
    | (simp -zeta only [↓is_mk, ↓State.complete_keeps]; try change Is q z _)

theorem State.await_keeps : ∀ s x1 x2 x3, Is q z (State.await s x1 x2 x3) ↔ Is q z s := by
  intro s x1 x2 x3; refine is_iff fun q z hs => ?_
  unfold State.await
  conv => arg 3; zeta
  repeat'
    first
    | with_reducible assumption
    | (simp -zeta only [↓is_mk, ↓State.modHost_keeps]; try change Is q z _)

theorem State.fetched_keeps : ∀ s x1, Is q z (State.fetched s x1) ↔ Is q z s := by
  intro s x1; refine is_iff fun q z hs => ?_
  unfold State.fetched
  conv => arg 3; zeta
  repeat'
    first
    | with_reducible assumption
    | (simp -zeta only [↓is_mk, ↓State.hostBump_keeps, ↓State.modCmd_keeps, ↓State.modHost_keeps]; try change Is q z _)

/-- A host command answers a state that keeps the queue and the fuses, or what its own effect makes of
one. -/
theorem State.hostCmd_elim {p : State → Prop} {s : State} {r : Fin 64} {d : Desc} {b : HostBuf}
    {c : CmdSpec} {go : List Byte → State → State} (h0 : ∀ t, Is q z t → p t)
    (hgo : ∀ l t, Is q z t → p (go l t)) (hs : Is q z s) : p (s.hostCmd r d b c go) := by
  unfold State.hostCmd
  dsimp only
  split
  · exact h0 _ hs
  · have hf : Is q z (s.fetched r.val) := by simpa only [↓State.fetched_keeps] using hs
    split
    · apply h0
      simp only [↓State.complete_keeps]
      refine is_ite (is_ite ?_ ?_) ?_ <;>
        simp only [↓State.aonBump_keeps, ↓State.reeveBump_keeps, hf, implies_true]
    · have hl : ∀ t, Is q z t → Is q z (if (sleepOps.contains c.op || c.late) = true then t else t.leaveRest) :=
        fun t h => is_ite (by simpa only [↓State.leaveRest_keeps] using h) fun _ => h
      split
      · split
        · exact hgo _ _ (hl _ hf)
        · apply h0; simpa only [↓State.finish_keeps, ↓State.hostBump_keeps] using hf
        · apply h0; simpa only [↓State.finish_keeps, ↓State.hostBump_keeps] using hf
      · exact hgo _ _ (hl _ hf)

theorem State.hostCmd_keeps {s : State} {r : Fin 64} {d : Desc} {b : HostBuf}
    {c : CmdSpec} {go : List Byte → State → State}
    (hgo : ∀ l t, Is q z t → Is q z (go l t)) (hs : Is q z s) : Is q z (s.hostCmd r d b c go) :=
  State.hostCmd_elim (fun _ h => h) hgo hs

theorem execTailDoorbell_keeps : ∀ q z x0 x1 x2 s, Is q z s → IsO q z (execTailDoorbell x0 x1 x2 s) := by
  intro q z x0 x1 x2 s hs
  unfold execTailDoorbell
  conv => arg 3; zeta
  repeat'
    first
    | with_reducible assumption
    | (simp -zeta only [↓is_mk, ↓isO_next, ↓State.hostBump_keeps, ↓State.modCmd_keeps]; try change Is q z _)
    | (with_reducible refine is_ite ?_ ?_; rotate_left; intro h; try simp -zeta only [↓is_mk, ↓isO_next, ↓State.hostBump_keeps, ↓State.modCmd_keeps] at h)
    | (with_reducible refine isO_ite ?_ ?_)
    | split

theorem State.message_keeps : ∀ s x1, Is q z (State.message s x1) ↔ Is q z s := by
  intro s x1; refine is_iff fun q z hs => ?_
  unfold State.message
  conv => arg 3; zeta
  repeat'
    first
    | with_reducible assumption
    | (simp -zeta only [↓is_mk, ↓State.emit_keeps, ↓State.hostBump_keeps, ↓State.modHost_keeps]; try change Is q z _)
    | (with_reducible refine is_ite ?_ ?_; rotate_left; intro h; try simp -zeta only [↓is_mk, ↓State.emit_keeps, ↓State.hostBump_keeps, ↓State.modHost_keeps] at h)
    | split

theorem State.signal_keeps : ∀ s x1, Is q z (State.signal s x1) ↔ Is q z s := by
  intro s x1; refine is_iff fun q z hs => ?_
  unfold State.signal
  conv => arg 3; zeta
  repeat'
    first
    | with_reducible assumption
    | (simp -zeta only [↓is_mk, ↓State.message_keeps, ↓State.modCpl_keeps]; try change Is q z _)
    | (with_reducible refine is_ite ?_ ?_; rotate_left; intro h; try simp -zeta only [↓is_mk, ↓State.message_keeps, ↓State.modCpl_keeps] at h)
    | split

theorem State.judgeRing_keeps : ∀ s x1, Is q z (State.judgeRing s x1) ↔ Is q z s := by
  intro s x1; refine is_iff fun q z hs => ?_
  unfold State.judgeRing
  conv => arg 3; zeta
  repeat'
    first
    | with_reducible assumption
    | (simp -zeta only [↓is_mk, ↓State.signal_keeps]; try change Is q z _)
    | (with_reducible refine is_ite ?_ ?_; rotate_left; intro h; try simp -zeta only [↓is_mk, ↓State.signal_keeps] at h)
    | split

theorem execHeadDoorbell_keeps : ∀ q z x0 x1 x2 s, Is q z s → IsO q z (execHeadDoorbell x0 x1 x2 s) := by
  intro q z x0 x1 x2 s hs
  unfold execHeadDoorbell
  conv => arg 3; zeta
  repeat'
    first
    | with_reducible assumption
    | (simp -zeta only [↓is_mk, ↓isO_next, ↓State.hostBump_keeps, ↓State.judgeRing_keeps, ↓State.modCpl_keeps]; try change Is q z _)
    | (with_reducible refine is_ite ?_ ?_; rotate_left; intro h; try simp -zeta only [↓is_mk, ↓isO_next, ↓State.hostBump_keeps, ↓State.judgeRing_keeps, ↓State.modCpl_keeps] at h)
    | (with_reducible refine isO_ite ?_ ?_)
    | split

theorem execEventRecordWrite_keeps : ∀ q z x0 s, Is q z s → IsO q z (execEventRecordWrite x0 s) := by
  intro q z x0 s hs
  unfold execEventRecordWrite
  conv => arg 3; zeta
  repeat'
    first
    | with_reducible assumption
    | (simp -zeta only [↓is_mk, ↓isO_next, ↓State.modHost_keeps]; try change Is q z _)
    | (with_reducible refine is_ite ?_ ?_; rotate_left; intro h; try simp -zeta only [↓is_mk, ↓isO_next, ↓State.modHost_keeps] at h)
    | (with_reducible refine isO_ite ?_ ?_)
    | split

theorem State.writeRecord_keeps : ∀ s x1 x2 x3 x4 x5, Is q z (State.writeRecord s x1 x2 x3 x4 x5) ↔ Is q z s := by
  intro s x1 x2 x3 x4 x5; refine is_iff fun q z hs => ?_
  unfold State.writeRecord
  conv => arg 3; zeta
  repeat'
    first
    | with_reducible assumption
    | (simp -zeta only [↓is_mk, ↓State.emit_keeps, ↓State.judgeRing_keeps, ↓State.modCpl_keeps, ↓State.signal_keeps]; try change Is q z _)
    | (with_reducible refine is_ite ?_ ?_; rotate_left; intro h; try simp -zeta only [↓is_mk, ↓State.emit_keeps, ↓State.judgeRing_keeps, ↓State.modCpl_keeps, ↓State.signal_keeps] at h)
    | split

theorem State.noteHeld_keeps : ∀ s, Is q z (State.noteHeld s) ↔ Is q z s := by
  intro s; refine is_iff fun q z hs => ?_
  unfold State.noteHeld
  conv => arg 3; zeta
  repeat'
    first
    | with_reducible assumption
    | (simp -zeta only [↓is_mk, ↓State.hostBump_keeps, ↓State.modCmd_keeps, ↓State.modHost_keeps]; try change Is q z _)
    | (with_reducible refine is_ite ?_ ?_; rotate_left; intro h; try simp -zeta only [↓is_mk, ↓State.hostBump_keeps, ↓State.modCmd_keeps, ↓State.modHost_keeps] at h)
    | with_reducible refine is_foldl (fun s b hs => ?_) ?_
    | (split <;> try (rename_i h; refine is_step (is_snd (q := q) (z := z) h ?_) (fun hs => ?_); rotate_left; clear h))
    | split

theorem execCompletionWrite.grantEvt_keeps : ∀ s x1, Is q z (execCompletionWrite.grantEvt s x1) ↔ Is q z s := by
  intro s x1; refine is_iff fun q z hs => ?_
  unfold execCompletionWrite.grantEvt
  conv => arg 3; zeta
  repeat'
    first
    | with_reducible assumption
    | (simp -zeta only [↓is_mk, ↓State.emit_keeps, ↓State.hostBump_keeps, ↓State.modCmd_keeps, ↓State.modHost_keeps, ↓State.noteHeld_keeps, ↓State.writeRecord_keeps]; try change Is q z _)
    | (with_reducible refine is_ite ?_ ?_; rotate_left; intro h; try simp -zeta only [↓is_mk, ↓State.emit_keeps, ↓State.hostBump_keeps, ↓State.modCmd_keeps, ↓State.modHost_keeps, ↓State.noteHeld_keeps, ↓State.writeRecord_keeps] at h)
    | (split <;> try (rename_i h; refine is_step (is_snd (q := q) (z := z) h ?_) (fun hs => ?_); rotate_left; clear h))
    | split

theorem execCompletionWrite_keeps : ∀ q z s, Is q z s → IsO q z (execCompletionWrite s) := by
  intro q z s hs
  unfold execCompletionWrite
  conv => arg 3; zeta
  repeat'
    first
    | with_reducible assumption
    | (simp -zeta only [↓is_mk, ↓isO_next, ↓State.emit_keeps, ↓execCompletionWrite.grantEvt_keeps, ↓State.hostBump_keeps, ↓State.modCmd_keeps, ↓State.modHost_keeps, ↓State.noteHeld_keeps, ↓State.writeRecord_keeps]; try change Is q z _)
    | (with_reducible refine is_ite ?_ ?_; rotate_left; intro h; try simp -zeta only [↓is_mk, ↓isO_next, ↓State.emit_keeps, ↓execCompletionWrite.grantEvt_keeps, ↓State.hostBump_keeps, ↓State.modCmd_keeps, ↓State.modHost_keeps, ↓State.noteHeld_keeps, ↓State.writeRecord_keeps] at h)
    | (with_reducible refine isO_ite ?_ ?_)
    | (split <;> try (rename_i h; refine is_step (is_snd (q := q) (z := z) h ?_) (fun hs => ?_); rotate_left; clear h))
    | split

theorem execHoldoffExpiry_keeps : ∀ q z x0 s, Is q z s → IsO q z (execHoldoffExpiry x0 s) := by
  intro q z x0 s hs
  unfold execHoldoffExpiry
  conv => arg 3; zeta
  repeat'
    first
    | with_reducible assumption
    | (simp -zeta only [↓is_mk, ↓isO_next, ↓State.reach_keeps, ↓State.signal_keeps]; try change Is q z _)
    | (with_reducible refine is_ite ?_ ?_; rotate_left; intro h; try simp -zeta only [↓is_mk, ↓isO_next, ↓State.reach_keeps, ↓State.signal_keeps] at h)
    | (with_reducible refine isO_ite ?_ ?_)
    | (split <;> try (rename_i h; refine is_step (is_snd (q := q) (z := z) h ?_) (fun hs => ?_); rotate_left; clear h))
    | split

theorem State.resend_keeps : ∀ s x1, Is q z (State.resend s x1) ↔ Is q z s := by
  intro s x1; refine is_iff fun q z hs => ?_
  unfold State.resend
  conv => arg 3; zeta
  repeat'
    first
    | with_reducible assumption
    | (simp -zeta only [↓is_mk, ↓State.message_keeps, ↓State.modHost_keeps]; try change Is q z _)
    | (with_reducible refine is_ite ?_ ?_; rotate_left; intro h; try simp -zeta only [↓is_mk, ↓State.message_keeps, ↓State.modHost_keeps] at h)
    | split

theorem execMsixVectorUnmask_keeps : ∀ q z x0 s, Is q z s → IsO q z (execMsixVectorUnmask x0 s) := by
  intro q z x0 s hs
  unfold execMsixVectorUnmask
  conv => arg 3; zeta
  repeat'
    first
    | with_reducible assumption
    | (simp -zeta only [↓is_mk, ↓isO_next, ↓State.modHost_keeps, ↓State.resend_keeps]; try change Is q z _)

theorem execPcieConfigWrite_keeps : ∀ q z x0 x1 x2 s, Is q z s → IsO q z (execPcieConfigWrite x0 x1 x2 s) := by
  intro q z x0 x1 x2 s hs
  unfold execPcieConfigWrite
  conv => arg 3; zeta
  repeat'
    first
    | with_reducible assumption
    | (simp -zeta only [↓is_mk, ↓isO_next, ↓State.judgeRing_keeps, ↓State.modHost_keeps, ↓State.resend_keeps]; try change Is q z _)
    | (with_reducible refine is_ite ?_ ?_; rotate_left; intro h; try simp -zeta only [↓is_mk, ↓isO_next, ↓State.judgeRing_keeps, ↓State.modHost_keeps, ↓State.resend_keeps] at h)
    | (with_reducible refine isO_ite ?_ ?_)
    | with_reducible refine is_foldl (fun s b hs => ?_) ?_
    | split

theorem State.ringsDown_keeps : ∀ s, Is q z (State.ringsDown s) ↔ Is q z s := by
  intro s; refine is_iff fun q z hs => ?_
  unfold State.ringsDown
  conv => arg 3; zeta
  repeat'
    first
    | with_reducible assumption
    | (simp -zeta only [↓is_mk, ↓State.hostBump_keeps, ↓State.modHost_keeps]; try change Is q z _)

theorem execHostReset_keeps : ∀ q z x0 s, Is q z s → IsO q z (execHostReset x0 s) := by
  intro q z x0 s hs
  unfold execHostReset
  conv => arg 3; zeta
  repeat'
    first
    | with_reducible assumption
    | (simp -zeta only [↓is_mk, ↓isO_next, ↓State.modHost_keeps, ↓State.ringsDown_keeps]; try change Is q z _)
    | (with_reducible refine is_ite ?_ ?_; rotate_left; intro h; try simp -zeta only [↓is_mk, ↓isO_next, ↓State.modHost_keeps, ↓State.ringsDown_keeps] at h)
    | (with_reducible refine isO_ite ?_ ?_)
    | with_reducible refine is_foldl (fun s b hs => ?_) ?_
    | split

theorem execBar4Write_keeps : ∀ q z x0 s, Is q z s → IsO q z (execBar4Write x0 s) := by
  intro q z x0 s hs
  unfold execBar4Write
  conv => arg 3; zeta
  repeat'
    first
    | with_reducible assumption
    | (simp -zeta only [↓is_mk, ↓isO_next, ↓State.hostBump_keeps]; try change Is q z _)
    | (with_reducible refine is_ite ?_ ?_; rotate_left; intro h; try simp -zeta only [↓is_mk, ↓isO_next, ↓State.hostBump_keeps] at h)
    | (with_reducible refine isO_ite ?_ ?_)
    | split

theorem execGraphEventToken_keeps : ∀ q z x0 x1 x2 s, Is q z s → IsO q z (execGraphEventToken x0 x1 x2 s) := by
  intro q z x0 x1 x2 s hs
  unfold execGraphEventToken
  conv => arg 3; zeta
  repeat'
    first
    | with_reducible assumption
    | (simp -zeta only [↓is_mk, ↓isO_next, ↓State.endpointAbsorb_keeps, ↓State.endpointTake_keeps, ↓State.hostBump_keeps, ↓State.postEvent_keeps, ↓State.unitErr_keeps]; try change Is q z _)
    | (with_reducible refine is_ite ?_ ?_; rotate_left; intro h; try simp -zeta only [↓is_mk, ↓isO_next, ↓State.endpointAbsorb_keeps, ↓State.endpointTake_keeps, ↓State.hostBump_keeps, ↓State.postEvent_keeps, ↓State.unitErr_keeps] at h)
    | (with_reducible refine isO_ite ?_ ?_)
    | split

end Sys2Proof.Machine
end

