-- ==== Sys2Proof/Laws/KeepPresence.lean ====
section
/-! SUPPORT. No operation of Presence touches the command queue, and none but the burning of fuses
touches the fuses. -/

set_option linter.all false

namespace Sys2Proof.Machine

variable {q : List Instr} {z : Fuses}

theorem State.presenceEvent_keeps : ∀ s, Is q z (State.presenceEvent s) ↔ Is q z s := by
  intro s; refine is_iff fun q z hs => ?_
  unfold State.presenceEvent
  conv => arg 3; zeta
  repeat'
    first
    | with_reducible assumption
    | (simp -zeta only [↓is_mk, ↓State.postEvent_keeps]; try change Is q z _)

theorem execKeyNChange_keeps : ∀ q z x0 s, Is q z s → IsO q z (execKeyNChange x0 s) := by
  intro q z x0 s hs
  unfold execKeyNChange
  conv => arg 3; zeta
  repeat'
    first
    | with_reducible assumption
    | (simp -zeta only [↓is_mk, ↓isO_next, ↓State.modAon_keeps]; try change Is q z _)
    | (with_reducible refine is_ite ?_ ?_; rotate_left; intro h; try simp -zeta only [↓is_mk, ↓isO_next, ↓State.modAon_keeps] at h)
    | (with_reducible refine isO_ite ?_ ?_)
    | split

theorem execPresenceChange_keeps : ∀ q z s, Is q z s → IsO q z (execPresenceChange s) := by
  intro q z s hs
  unfold execPresenceChange
  conv => arg 3; zeta
  repeat'
    first
    | with_reducible assumption
    | (simp -zeta only [↓is_mk, ↓isO_next, ↓State.aonBump_keeps, ↓State.modAon_keeps, ↓State.presenceEvent_keeps, ↓State.reach_keeps]; try change Is q z _)
    | (with_reducible refine is_ite ?_ ?_; rotate_left; intro h; try simp -zeta only [↓is_mk, ↓isO_next, ↓State.aonBump_keeps, ↓State.modAon_keeps, ↓State.presenceEvent_keeps, ↓State.reach_keeps] at h)
    | (with_reducible refine isO_ite ?_ ?_)
    | split

theorem execSealSample_keeps : ∀ q z x0 s, Is q z s → IsO q z (execSealSample x0 s) := by
  intro q z x0 s hs
  unfold execSealSample
  conv => arg 3; zeta
  repeat'
    first
    | with_reducible assumption
    | (simp -zeta only [↓is_mk, ↓isO_next, ↓State.aonBump_keeps, ↓State.detect_keeps, ↓State.endLevel_keeps, ↓State.modAon_keeps, ↓State.postEvent_keeps, ↓State.reach_keeps]; try change Is q z _)
    | (with_reducible refine is_ite ?_ ?_; rotate_left; intro h; try simp -zeta only [↓is_mk, ↓isO_next, ↓State.aonBump_keeps, ↓State.detect_keeps, ↓State.endLevel_keeps, ↓State.modAon_keeps, ↓State.postEvent_keeps, ↓State.reach_keeps] at h)
    | (with_reducible refine isO_ite ?_ ?_)
    | (split <;> try (rename_i h; refine is_step (is_snd (q := q) (z := z) h ?_) (fun hs => ?_); rotate_left; clear h))
    | split

theorem execReseal_keeps : ∀ q z x0 x1 x2 s, Is q z s → IsO q z (execReseal x0 x1 x2 s) := by
  intro q z x0 x1 x2 s hs
  unfold execReseal
  conv => arg 3; zeta
  repeat'
    first
    | with_reducible assumption
    | (simp -zeta only [↓is_mk, ↓isO_next, ↓State.aonBump_keeps, ↓State.finish_keeps, ↓State.hostCmd_keeps, ↓State.modAon_keeps, ↓State.postEvent_keeps]; try change Is q z _)
    | refine State.hostCmd_keeps (fun l s hs => ?_) ?_

end Sys2Proof.Machine
end

