-- ==== Sys2Proof/Laws/KeepSetup.lean ====
section
/-! SUPPORT. No operation of Setup touches the command queue, and none but the burning of fuses
touches the fuses. -/

set_option linter.all false

namespace Sys2Proof.Machine

variable {q : List Instr} {z : Fuses}

theorem State.modSetup_keeps : ∀ x0 s, Is q z (State.modSetup x0 s) ↔ Is q z s := by
  intro x0 s; refine is_iff fun q z hs => ?_
  unfold State.modSetup
  conv => arg 3; zeta
  repeat'
    first
    | with_reducible assumption
    | (simp -zeta only [↓is_mk]; try change Is q z _)

theorem State.modTime_keeps : ∀ x0 s, Is q z (State.modTime x0 s) ↔ Is q z s := by
  intro x0 s; refine is_iff fun q z hs => ?_
  unfold State.modTime
  conv => arg 3; zeta
  repeat'
    first
    | with_reducible assumption
    | (simp -zeta only [↓is_mk]; try change Is q z _)

theorem State.writeTbCtrl_keeps : ∀ s x1, Is q z (State.writeTbCtrl s x1) ↔ Is q z s := by
  intro s x1; refine is_iff fun q z hs => ?_
  unfold State.writeTbCtrl
  conv => arg 3; zeta
  repeat'
    first
    | with_reducible assumption
    | (simp -zeta only [↓is_mk, ↓State.endLevel_keeps, ↓State.modTime_keeps]; try change Is q z _)
    | (with_reducible refine is_ite ?_ ?_; rotate_left; intro h; try simp -zeta only [↓is_mk, ↓State.endLevel_keeps, ↓State.modTime_keeps] at h)
    | split

theorem State.writePhase_keeps : ∀ s x1, Is q z (State.writePhase s x1) ↔ Is q z s := by
  intro s x1; refine is_iff fun q z hs => ?_
  unfold State.writePhase
  conv => arg 3; zeta
  repeat'
    first
    | with_reducible assumption
    | (simp -zeta only [↓is_mk, ↓State.modTime_keeps, ↓State.postEvent_keeps]; try change Is q z _)
    | (with_reducible refine is_ite ?_ ?_; rotate_left; intro h; try simp -zeta only [↓is_mk, ↓State.modTime_keeps, ↓State.postEvent_keeps] at h)
    | split

theorem State.commitTime_keeps : ∀ s x1, Is q z (State.commitTime s x1) ↔ Is q z s := by
  intro s x1; refine is_iff fun q z hs => ?_
  unfold State.commitTime
  conv => arg 3; zeta
  repeat'
    first
    | with_reducible assumption
    | (simp -zeta only [↓is_mk, ↓State.modTime_keeps, ↓State.postEvent_keeps, ↓State.realign_keeps, ↓State.slotSync_keeps]; try change Is q z _)

theorem State.recordViol_keeps : ∀ s x1 x2, Is q z (State.recordViol s x1 x2) ↔ Is q z s := by
  intro s x1 x2; refine is_iff fun q z hs => ?_
  unfold State.recordViol
  conv => arg 3; zeta
  repeat'
    first
    | with_reducible assumption
    | (simp -zeta only [↓is_mk, ↓State.modSetup_keeps]; try change Is q z _)
    | (split <;> try (rename_i h; refine is_step (is_snd (q := q) (z := z) h ?_) (fun hs => ?_); rotate_left; clear h))
    | split

theorem State.writeMsix_keeps : ∀ s x1 x2, Is q z (State.writeMsix s x1 x2) ↔ Is q z s := by
  intro s x1 x2; refine is_iff fun q z hs => ?_
  unfold State.writeMsix
  conv => arg 3; zeta
  repeat'
    first
    | with_reducible assumption
    | (simp -zeta only [↓is_mk, ↓State.modHost_keeps, ↓State.resend_keeps]; try change Is q z _)
    | (with_reducible refine is_ite ?_ ?_; rotate_left; intro h; try simp -zeta only [↓is_mk, ↓State.modHost_keeps, ↓State.resend_keeps] at h)
    | (split <;> try (rename_i h; refine is_step (is_snd (q := q) (z := z) h ?_) (fun hs => ?_); rotate_left; clear h))
    | split

theorem execT64LoRead_keeps : ∀ q z x0 s, Is q z s → IsO q z (execT64LoRead x0 s) := by
  intro q z x0 s hs
  unfold execT64LoRead
  conv => arg 3; zeta
  repeat'
    first
    | with_reducible assumption
    | (simp -zeta only [↓is_mk, ↓isO_next, ↓State.emit_keeps, ↓State.modTime_keeps]; try change Is q z _)
    | (with_reducible refine is_ite ?_ ?_; rotate_left; intro h; try simp -zeta only [↓is_mk, ↓isO_next, ↓State.emit_keeps, ↓State.modTime_keeps] at h)
    | (with_reducible refine isO_ite ?_ ?_)
    | split

theorem execPpsInLoRead_keeps : ∀ q z x0 s, Is q z s → IsO q z (execPpsInLoRead x0 s) := by
  intro q z x0 s hs
  unfold execPpsInLoRead
  conv => arg 3; zeta
  repeat'
    first
    | with_reducible assumption
    | (simp -zeta only [↓is_mk, ↓isO_next, ↓State.emit_keeps, ↓State.modTime_keeps]; try change Is q z _)
    | (with_reducible refine is_ite ?_ ?_; rotate_left; intro h; try simp -zeta only [↓is_mk, ↓isO_next, ↓State.emit_keeps, ↓State.modTime_keeps] at h)
    | (with_reducible refine isO_ite ?_ ?_)
    | split

theorem execSlewDone_keeps : ∀ q z s, Is q z s → IsO q z (execSlewDone s) := by
  intro q z s hs
  unfold execSlewDone
  conv => arg 3; zeta
  repeat'
    first
    | with_reducible assumption
    | (simp -zeta only [↓is_mk, ↓isO_next, ↓State.elapse_keeps, ↓State.modTime_keeps, ↓State.postEvent_keeps]; try change Is q z _)
    | (with_reducible refine is_ite ?_ ?_; rotate_left; intro h; try simp -zeta only [↓is_mk, ↓isO_next, ↓State.elapse_keeps, ↓State.modTime_keeps, ↓State.postEvent_keeps] at h)
    | (with_reducible refine isO_ite ?_ ?_)
    | split

theorem State.ppsFiltered_keeps : ∀ s x1, Is q z (State.ppsFiltered s x1) ↔ Is q z s := by
  intro s x1; refine is_iff fun q z hs => ?_
  unfold State.ppsFiltered
  conv => arg 3; zeta
  repeat'
    first
    | with_reducible assumption
    | (simp -zeta only [↓is_mk, ↓State.modTime_keeps, ↓State.reach_keeps]; try change Is q z _)
    | (with_reducible refine is_ite ?_ ?_; rotate_left; intro h; try simp -zeta only [↓is_mk, ↓State.modTime_keeps, ↓State.reach_keeps] at h)
    | split

theorem execPpsInEdge_keeps : ∀ q z x0 x1 s, Is q z s → IsO q z (execPpsInEdge x0 x1 s) := by
  intro q z x0 x1 s hs
  unfold execPpsInEdge
  conv => arg 3; zeta
  repeat'
    first
    | with_reducible assumption
    | (simp -zeta only [↓is_mk, ↓isO_next, ↓State.endLevel_keeps, ↓State.modTime_keeps, ↓State.ppsFiltered_keeps]; try change Is q z _)
    | (with_reducible refine is_ite ?_ ?_; rotate_left; intro h; try simp -zeta only [↓is_mk, ↓isO_next, ↓State.endLevel_keeps, ↓State.modTime_keeps, ↓State.ppsFiltered_keeps] at h)
    | (with_reducible refine isO_ite ?_ ?_)
    | (split <;> try (rename_i h; refine is_step (is_snd (q := q) (z := z) h ?_) (fun hs => ?_); rotate_left; clear h))
    | split

theorem execPpsLossTimeout_keeps : ∀ q z s, Is q z s → IsO q z (execPpsLossTimeout s) := by
  intro q z s hs
  unfold execPpsLossTimeout
  conv => arg 3; zeta
  repeat'
    first
    | with_reducible assumption
    | (simp -zeta only [↓is_mk, ↓isO_next, ↓State.detect_keeps, ↓State.modTime_keeps, ↓State.reach_keeps]; try change Is q z _)
    | (with_reducible refine is_ite ?_ ?_; rotate_left; intro h; try simp -zeta only [↓is_mk, ↓isO_next, ↓State.detect_keeps, ↓State.modTime_keeps, ↓State.reach_keeps] at h)
    | (with_reducible refine isO_ite ?_ ?_)
    | split

theorem execPpsOutPulse_keeps : ∀ q z s, Is q z s → IsO q z (execPpsOutPulse s) := by
  intro q z s hs
  unfold execPpsOutPulse
  conv => arg 3; zeta
  repeat'
    first
    | with_reducible assumption
    | (simp -zeta only [↓is_mk, ↓isO_next, ↓State.modTime_keeps, ↓State.reachT64_keeps]; try change Is q z _)
    | (with_reducible refine is_ite ?_ ?_; rotate_left; intro h; try simp -zeta only [↓is_mk, ↓isO_next, ↓State.modTime_keeps, ↓State.reachT64_keeps] at h)
    | (with_reducible refine isO_ite ?_ ?_)
    | split

theorem execPpsOutPulseEnd_keeps : ∀ q z s, Is q z s → IsO q z (execPpsOutPulseEnd s) := by
  intro q z s hs
  unfold execPpsOutPulseEnd
  conv => arg 3; zeta
  repeat'
    first
    | with_reducible assumption
    | (simp -zeta only [↓is_mk, ↓isO_next, ↓State.modTime_keeps, ↓State.reach_keeps]; try change Is q z _)
    | (with_reducible refine is_ite ?_ ?_; rotate_left; intro h; try simp -zeta only [↓is_mk, ↓isO_next, ↓State.modTime_keeps, ↓State.reach_keeps] at h)
    | (with_reducible refine isO_ite ?_ ?_)
    | split

end Sys2Proof.Machine
end

