-- ==== Sys2Proof/Laws/KeepNotice.lean ====
section
/-! SUPPORT. No operation of Notice touches the command queue, and none but the burning of fuses
touches the fuses. -/

set_option linter.all false

namespace Sys2Proof.Machine

variable {q : List Instr} {z : Fuses}

theorem State.modAct_keeps : ∀ x0 s, Is q z (State.modAct x0 s) ↔ Is q z s := by
  intro x0 s; refine is_iff fun q z hs => ?_
  unfold State.modAct
  conv => arg 3; zeta
  repeat'
    first
    | with_reducible assumption
    | (simp -zeta only [↓is_mk]; try change Is q z _)

theorem State.modActPort_keeps : ∀ x0 x1 s, Is q z (State.modActPort x0 x1 s) ↔ Is q z s := by
  intro x0 x1 s; refine is_iff fun q z hs => ?_
  unfold State.modActPort
  conv => arg 3; zeta
  repeat'
    first
    | with_reducible assumption
    | (simp -zeta only [↓is_mk, ↓State.modAct_keeps]; try change Is q z _)

theorem State.actBump_keeps : ∀ x0 x1 s x3, Is q z (State.actBump x0 x1 s x3) ↔ Is q z s := by
  intro x0 x1 s x3; refine is_iff fun q z hs => ?_
  unfold State.actBump
  conv => arg 3; zeta
  repeat'
    first
    | with_reducible assumption
    | (simp -zeta only [↓is_mk, ↓State.modAct_keeps]; try change Is q z _)

theorem State.nbBump_keeps : ∀ x0 s x2, Is q z (State.nbBump x0 s x2) ↔ Is q z s := by
  intro x0 s x2; refine is_iff fun q z hs => ?_
  unfold State.nbBump
  conv => arg 3; zeta
  repeat'
    first
    | with_reducible assumption
    | (simp -zeta only [↓is_mk, ↓State.modAct_keeps]; try change Is q z _)

theorem State.nbBumpEv_keeps : ∀ x0 x1 x2 s, Is q z (State.nbBumpEv x0 x1 x2 s) ↔ Is q z s := by
  intro x0 x1 x2 s; refine is_iff fun q z hs => ?_
  unfold State.nbBumpEv
  conv => arg 3; zeta
  repeat'
    first
    | with_reducible assumption
    | (simp -zeta only [↓is_mk, ↓State.modAct_keeps, ↓State.nbBump_keeps, ↓State.postEvent_keeps]; try change Is q z _)
    | (with_reducible refine is_ite ?_ ?_; rotate_left; intro h; try simp -zeta only [↓is_mk, ↓State.modAct_keeps, ↓State.nbBump_keeps, ↓State.postEvent_keeps] at h)
    | split

theorem State.judgeTrips_keeps : ∀ s, Is q z (State.judgeTrips s) ↔ Is q z s := by
  intro s; refine is_iff fun q z hs => ?_
  unfold State.judgeTrips
  conv => arg 3; zeta
  repeat'
    first
    | with_reducible assumption
    | (simp -zeta only [↓is_mk, ↓State.modAct_keeps]; try change Is q z _)
    | with_reducible refine is_foldl (fun s b hs => ?_) ?_

theorem State.judgeEntries_keeps : ∀ s, Is q z (State.judgeEntries s) ↔ Is q z s := by
  intro s; refine is_iff fun q z hs => ?_
  unfold State.judgeEntries
  conv => arg 3; zeta
  repeat'
    first
    | with_reducible assumption
    | (simp -zeta only [↓is_mk, ↓State.modAct_keeps]; try change Is q z _)

theorem execForceLineAssert_keeps : ∀ q z x0 s, Is q z s → IsO q z (execForceLineAssert x0 s) := by
  intro q z x0 s hs
  unfold execForceLineAssert
  conv => arg 3; zeta
  repeat'
    first
    | with_reducible assumption
    | (simp -zeta only [↓is_mk, ↓isO_next, ↓State.judgeEntries_keeps, ↓State.judgeTrips_keeps, ↓State.modAct_keeps]; try change Is q z _)
    | (with_reducible refine is_ite ?_ ?_; rotate_left; intro h; try simp -zeta only [↓is_mk, ↓isO_next, ↓State.judgeEntries_keeps, ↓State.judgeTrips_keeps, ↓State.modAct_keeps] at h)
    | (with_reducible refine isO_ite ?_ ?_)
    | split

theorem execForceLineDeassert_keeps : ∀ q z x0 s, Is q z s → IsO q z (execForceLineDeassert x0 s) := by
  intro q z x0 s hs
  unfold execForceLineDeassert
  conv => arg 3; zeta
  repeat'
    first
    | with_reducible assumption
    | (simp -zeta only [↓is_mk, ↓isO_next, ↓State.judgeEntries_keeps, ↓State.judgeTrips_keeps, ↓State.modAct_keeps]; try change Is q z _)
    | (with_reducible refine is_ite ?_ ?_; rotate_left; intro h; try simp -zeta only [↓is_mk, ↓isO_next, ↓State.judgeEntries_keeps, ↓State.judgeTrips_keeps, ↓State.modAct_keeps] at h)
    | (with_reducible refine isO_ite ?_ ?_)
    | split

theorem execNoticeboardWrite_keeps : ∀ q z x0 x1 x2 s, Is q z s → IsO q z (execNoticeboardWrite x0 x1 x2 s) := by
  intro q z x0 x1 x2 s hs
  unfold execNoticeboardWrite
  conv => arg 3; zeta
  repeat'
    first
    | with_reducible assumption
    | (simp -zeta only [↓is_mk, ↓isO_next, ↓State.endpointAbsorb_keeps, ↓State.endpointTake_keeps, ↓State.modAct_keeps, ↓State.nbBump_keeps, ↓State.nbBumpEv_keeps, ↓State.unitErr_keeps]; try change Is q z _)
    | (with_reducible refine is_ite ?_ ?_; rotate_left; intro h; try simp -zeta only [↓is_mk, ↓isO_next, ↓State.endpointAbsorb_keeps, ↓State.endpointTake_keeps, ↓State.modAct_keeps, ↓State.nbBump_keeps, ↓State.nbBumpEv_keeps, ↓State.unitErr_keeps] at h)
    | (with_reducible refine isO_ite ?_ ?_)
    | split

theorem State.demand_keeps : ∀ s x1 x2 x3, Is q z (State.demand s x1 x2 x3) ↔ Is q z s := by
  intro s x1 x2 x3; refine is_iff fun q z hs => ?_
  unfold State.demand
  conv => arg 3; zeta
  repeat'
    first
    | with_reducible assumption
    | (simp -zeta only [↓is_mk, ↓State.judgeTrips_keeps, ↓State.modAct_keeps, ↓State.nbBump_keeps]; try change Is q z _)
    | (split <;> try (rename_i h; refine is_step (is_snd (q := q) (z := z) h ?_) (fun hs => ?_); rotate_left; clear h))
    | split

theorem execTripCommand_keeps : ∀ q z x0 x1 x2 s, Is q z s → IsO q z (execTripCommand x0 x1 x2 s) := by
  intro q z x0 x1 x2 s hs
  unfold execTripCommand
  conv => arg 3; zeta
  repeat'
    first
    | with_reducible assumption
    | (simp -zeta only [↓is_mk, ↓isO_next, ↓State.demand_keeps, ↓State.endpointAbsorb_keeps, ↓State.endpointTake_keeps, ↓State.nbBump_keeps, ↓State.nbBumpEv_keeps, ↓State.unitErr_keeps]; try change Is q z _)
    | (with_reducible refine is_ite ?_ ?_; rotate_left; intro h; try simp -zeta only [↓is_mk, ↓isO_next, ↓State.demand_keeps, ↓State.endpointAbsorb_keeps, ↓State.endpointTake_keeps, ↓State.nbBump_keeps, ↓State.nbBumpEv_keeps, ↓State.unitErr_keeps] at h)
    | (with_reducible refine isO_ite ?_ ?_)
    | split

theorem execTripAgeCheck_keeps : ∀ q z s, Is q z s → IsO q z (execTripAgeCheck s) := by
  intro q z s hs
  unfold execTripAgeCheck
  conv => arg 3; zeta
  repeat'
    first
    | with_reducible assumption
    | (simp -zeta only [↓is_mk, ↓isO_next, ↓State.judgeTrips_keeps, ↓State.modAct_keeps, ↓State.nbBump_keeps, ↓State.reach_keeps]; try change Is q z _)
    | (with_reducible refine is_ite ?_ ?_; rotate_left; intro h; try simp -zeta only [↓is_mk, ↓isO_next, ↓State.judgeTrips_keeps, ↓State.modAct_keeps, ↓State.nbBump_keeps, ↓State.reach_keeps] at h)
    | (with_reducible refine isO_ite ?_ ?_)
    | split

theorem State.actDown_keeps : ∀ s x1, Is q z (State.actDown s x1) ↔ Is q z s := by
  intro s x1; refine is_iff fun q z hs => ?_
  unfold State.actDown
  conv => arg 3; zeta
  repeat'
    first
    | with_reducible assumption
    | (simp -zeta only [↓is_mk, ↓State.actBump_keeps, ↓State.modActPort_keeps, ↓State.postEvent_keeps]; try change Is q z _)

theorem State.actSettle_keeps : ∀ s x1, Is q z (State.actSettle s x1) ↔ Is q z s := by
  intro s x1; refine is_iff fun q z hs => ?_
  unfold State.actSettle
  conv => arg 3; zeta
  repeat'
    first
    | with_reducible assumption
    | (simp -zeta only [↓is_mk, ↓State.actDown_keeps, ↓State.modActPort_keeps]; try change Is q z _)
    | (with_reducible refine is_ite ?_ ?_; rotate_left; intro h; try simp -zeta only [↓is_mk, ↓State.actDown_keeps, ↓State.modActPort_keeps] at h)
    | split

theorem execActLinkUp_keeps : ∀ q z x0 s, Is q z s → IsO q z (execActLinkUp x0 s) := by
  intro q z x0 s hs
  unfold execActLinkUp
  conv => arg 3; zeta
  repeat'
    first
    | with_reducible assumption
    | (simp -zeta only [↓is_mk, ↓isO_next, ↓State.elapse_keeps, ↓State.modActPort_keeps, ↓State.postEvent_keeps]; try change Is q z _)
    | (with_reducible refine is_ite ?_ ?_; rotate_left; intro h; try simp -zeta only [↓is_mk, ↓isO_next, ↓State.elapse_keeps, ↓State.modActPort_keeps, ↓State.postEvent_keeps] at h)
    | (with_reducible refine isO_ite ?_ ?_)
    | split

theorem execActLinkDown_keeps : ∀ q z x0 s, Is q z s → IsO q z (execActLinkDown x0 s) := by
  intro q z x0 s hs
  unfold execActLinkDown
  conv => arg 3; zeta
  repeat'
    first
    | with_reducible assumption
    | (simp -zeta only [↓is_mk, ↓isO_next, ↓State.actDown_keeps, ↓State.emit_keeps]; try change Is q z _)
    | (with_reducible refine is_ite ?_ ?_; rotate_left; intro h; try simp -zeta only [↓is_mk, ↓isO_next, ↓State.actDown_keeps, ↓State.emit_keeps] at h)
    | (with_reducible refine isO_ite ?_ ?_)
    | split

theorem execPeerSilent_keeps : ∀ q z x0 s, Is q z s → IsO q z (execPeerSilent x0 s) := by
  intro q z x0 s hs
  unfold execPeerSilent
  conv => arg 3; zeta
  repeat'
    first
    | with_reducible assumption
    | (simp -zeta only [↓is_mk, ↓isO_next, ↓State.actBump_keeps, ↓State.modActPort_keeps, ↓State.postEvent_keeps, ↓State.reach_keeps]; try change Is q z _)
    | (with_reducible refine is_ite ?_ ?_; rotate_left; intro h; try simp -zeta only [↓is_mk, ↓isO_next, ↓State.actBump_keeps, ↓State.modActPort_keeps, ↓State.postEvent_keeps, ↓State.reach_keeps] at h)
    | (with_reducible refine isO_ite ?_ ?_)
    | split

theorem execActPortConfig_keeps : ∀ q z x0 x1 x2 s, Is q z s → IsO q z (execActPortConfig x0 x1 x2 s) := by
  intro q z x0 x1 x2 s hs
  unfold execActPortConfig
  conv => arg 3; zeta
  repeat'
    first
    | with_reducible assumption
    | (simp -zeta only [↓is_mk, ↓isO_next, ↓State.actSettle_keeps, ↓State.finish_keeps, ↓State.hostCmd_keeps, ↓State.modActPort_keeps]; try change Is q z _)
    | refine State.hostCmd_keeps (fun l s hs => ?_) ?_
    | (split <;> try (rename_i h; refine is_step (is_snd (q := q) (z := z) h ?_) (fun hs => ?_); rotate_left; clear h))
    | split

theorem State.nbError_keeps : ∀ s x1, Is q z (State.nbError s x1) ↔ Is q z s := by
  intro s x1; refine is_iff fun q z hs => ?_
  unfold State.nbError
  conv => arg 3; zeta
  repeat'
    first
    | with_reducible assumption
    | (simp -zeta only [↓is_mk, ↓State.detect_keeps, ↓State.modAct_keeps, ↓State.nbBump_keeps]; try change Is q z _)
    | (with_reducible refine is_ite ?_ ?_; rotate_left; intro h; try simp -zeta only [↓is_mk, ↓State.detect_keeps, ↓State.modAct_keeps, ↓State.nbBump_keeps] at h)
    | (split <;> try (rename_i h; refine is_step (is_snd (q := q) (z := z) h ?_) (fun hs => ?_); rotate_left; clear h))
    | split

theorem State.startAnswer_keeps : ∀ s x1 x2 x3, Is q z (State.startAnswer s x1 x2 x3) ↔ Is q z s := by
  intro s x1 x2 x3; refine is_iff fun q z hs => ?_
  unfold State.startAnswer
  conv => arg 3; zeta
  repeat'
    first
    | with_reducible assumption
    | (simp -zeta only [↓is_mk, ↓State.actBump_keeps, ↓State.answer_keeps, ↓State.emit_keeps, ↓State.modActPort_keeps, ↓State.nbError_keeps]; try change Is q z _)
    | (with_reducible refine is_ite ?_ ?_; rotate_left; intro h; try simp -zeta only [↓is_mk, ↓State.actBump_keeps, ↓State.answer_keeps, ↓State.emit_keeps, ↓State.modActPort_keeps, ↓State.nbError_keeps] at h)
    | with_reducible refine is_foldl (fun s b hs => ?_) ?_
    | split

theorem State.startWaiting_keeps : ∀ s x1 x2, Is q z (State.startWaiting s x1 x2) ↔ Is q z s := by
  intro s x1 x2; refine is_iff fun q z hs => ?_
  unfold State.startWaiting
  conv => arg 3; zeta
  repeat'
    first
    | with_reducible assumption
    | (simp -zeta only [↓is_mk, ↓State.modActPort_keeps, ↓State.startAnswer_keeps]; try change Is q z _)
    | (with_reducible refine is_ite ?_ ?_; rotate_left; intro h; try simp -zeta only [↓is_mk, ↓State.modActPort_keeps, ↓State.startAnswer_keeps] at h)
    | (split <;> try (rename_i h; refine is_step (is_snd (q := q) (z := z) h ?_) (fun hs => ?_); rotate_left; clear h))
    | split

theorem execQueuedAnswerStart_keeps : ∀ q z x0 x1 s, Is q z s → IsO q z (execQueuedAnswerStart x0 x1 s) := by
  intro q z x0 x1 s hs
  unfold execQueuedAnswerStart
  conv => arg 3; zeta
  repeat'
    first
    | with_reducible assumption
    | (simp -zeta only [↓is_mk, ↓isO_next, ↓State.startWaiting_keeps]; try change Is q z _)

theorem execAnswerSent_keeps : ∀ q z x0 s, Is q z s → IsO q z (execAnswerSent x0 s) := by
  intro q z x0 s hs
  unfold execAnswerSent
  conv => arg 3; zeta
  repeat'
    first
    | with_reducible assumption
    | (simp -zeta only [↓is_mk, ↓isO_next, ↓State.actSettle_keeps, ↓State.modActPort_keeps]; try change Is q z _)
    | (with_reducible refine is_ite ?_ ?_; rotate_left; intro h; try simp -zeta only [↓is_mk, ↓isO_next, ↓State.actSettle_keeps, ↓State.modActPort_keeps] at h)
    | (with_reducible refine isO_ite ?_ ?_)
    | split

theorem State.endAnnounce_keeps : ∀ s x1, Is q z (State.endAnnounce s x1) ↔ Is q z s := by
  intro s x1; refine is_iff fun q z hs => ?_
  unfold State.endAnnounce
  conv => arg 3; zeta
  repeat'
    first
    | with_reducible assumption
    | (simp -zeta only [↓is_mk, ↓State.completeWhere_keeps, ↓State.modAct_keeps, ↓State.modActPort_keeps]; try change Is q z _)
    | (with_reducible refine is_ite ?_ ?_; rotate_left; intro h; try simp -zeta only [↓is_mk, ↓State.completeWhere_keeps, ↓State.modAct_keeps, ↓State.modActPort_keeps] at h)
    | with_reducible refine is_foldl (fun s b hs => ?_) ?_
    | split

theorem State.annAcked_keeps : ∀ s x1, Is q z (State.annAcked s x1) ↔ Is q z s := by
  intro s x1; refine is_iff fun q z hs => ?_
  unfold State.annAcked
  conv => arg 3; zeta
  repeat'
    first
    | with_reducible assumption
    | (simp -zeta only [↓is_mk, ↓State.actBump_keeps, ↓State.endAnnounce_keeps, ↓State.modAct_keeps, ↓State.modActPort_keeps]; try change Is q z _)
    | (with_reducible refine is_ite ?_ ?_; rotate_left; intro h; try simp -zeta only [↓is_mk, ↓State.actBump_keeps, ↓State.endAnnounce_keeps, ↓State.modAct_keeps, ↓State.modActPort_keeps] at h)
    | (split <;> try (rename_i h; refine is_step (is_snd (q := q) (z := z) h ?_) (fun hs => ?_); rotate_left; clear h))
    | split

theorem execAnnWaitExpiry_keeps : ∀ q z x0 s, Is q z s → IsO q z (execAnnWaitExpiry x0 s) := by
  intro q z x0 s hs
  unfold execAnnWaitExpiry
  conv => arg 3; zeta
  repeat'
    first
    | with_reducible assumption
    | (simp -zeta only [↓is_mk, ↓isO_next, ↓State.endAnnounce_keeps, ↓State.reach_keeps]; try change Is q z _)
    | (split <;> try (rename_i h; refine is_step (is_snd (q := q) (z := z) h ?_) (fun hs => ?_); rotate_left; clear h))
    | split

theorem execNoticeSend_keeps : ∀ q z x0 x1 x2 s, Is q z s → IsO q z (execNoticeSend x0 x1 x2 s) := by
  intro q z x0 x1 x2 s hs
  unfold execNoticeSend
  conv => arg 3; zeta
  repeat'
    first
    | with_reducible assumption
    | (simp -zeta only [↓is_mk, ↓isO_next, ↓State.actBump_keeps, ↓State.await_keeps, ↓State.hostCmd_keeps, ↓State.modAct_keeps, ↓State.modActPort_keeps]; try change Is q z _)
    | refine State.hostCmd_keeps (fun l s hs => ?_) ?_
    | (with_reducible refine is_ite ?_ ?_; rotate_left; intro h; try simp -zeta only [↓is_mk, ↓isO_next, ↓State.actBump_keeps, ↓State.await_keeps, ↓State.hostCmd_keeps, ↓State.modAct_keeps, ↓State.modActPort_keeps] at h)
    | (with_reducible refine isO_ite ?_ ?_)
    | with_reducible refine is_foldl (fun s b hs => ?_) ?_
    | split

theorem State.takeAck_keeps : ∀ s x1 x2 x3, Is q z (State.takeAck s x1 x2 x3) ↔ Is q z s := by
  intro s x1 x2 x3; refine is_iff fun q z hs => ?_
  unfold State.takeAck
  conv => arg 3; zeta
  repeat'
    first
    | with_reducible assumption
    | (simp -zeta only [↓is_mk, ↓State.actBump_keeps, ↓State.annAcked_keeps]; try change Is q z _)
    | (with_reducible refine is_ite ?_ ?_; rotate_left; intro h; try simp -zeta only [↓is_mk, ↓State.actBump_keeps, ↓State.annAcked_keeps] at h)
    | split

theorem State.offerAnswer_keeps : ∀ s x1 x2 x3, Is q z (State.offerAnswer s x1 x2 x3) ↔ Is q z s := by
  intro s x1 x2 x3; refine is_iff fun q z hs => ?_
  unfold State.offerAnswer
  conv => arg 3; zeta
  repeat'
    first
    | with_reducible assumption
    | (simp -zeta only [↓is_mk, ↓State.actBump_keeps, ↓State.modActPort_keeps, ↓State.startAnswer_keeps, ↓State.startWaiting_keeps]; try change Is q z _)
    | (with_reducible refine is_ite ?_ ?_; rotate_left; intro h; try simp -zeta only [↓is_mk, ↓State.actBump_keeps, ↓State.modActPort_keeps, ↓State.startAnswer_keeps, ↓State.startWaiting_keeps] at h)
    | split

theorem execNoticeRequest_keeps : ∀ q z x0 x1 x2 x3 x4 s, Is q z s → IsO q z (execNoticeRequest x0 x1 x2 x3 x4 s) := by
  intro q z x0 x1 x2 x3 x4 s hs
  unfold execNoticeRequest
  conv => arg 3; zeta
  repeat'
    first
    | with_reducible assumption
    | (simp -zeta only [↓is_mk, ↓isO_next, ↓State.actBump_keeps, ↓State.modActPort_keeps, ↓State.offerAnswer_keeps, ↓State.postEvent_keeps, ↓State.takeAck_keeps]; try change Is q z _)
    | (with_reducible refine is_ite ?_ ?_; rotate_left; intro h; try simp -zeta only [↓is_mk, ↓isO_next, ↓State.actBump_keeps, ↓State.modActPort_keeps, ↓State.offerAnswer_keeps, ↓State.postEvent_keeps, ↓State.takeAck_keeps] at h)
    | (with_reducible refine isO_ite ?_ ?_)
    | split

theorem State.frameErrors_keeps : ∀ s x1 x2 x3, Is q z (State.frameErrors s x1 x2 x3) ↔ Is q z s := by
  intro s x1 x2 x3; refine is_iff fun q z hs => ?_
  unfold State.frameErrors
  conv => arg 3; zeta
  repeat'
    first
    | with_reducible assumption
    | (simp -zeta only [↓is_mk, ↓State.actBump_keeps, ↓State.modActPort_keeps, ↓State.postEvent_keeps]; try change Is q z _)
    | (with_reducible refine is_ite ?_ ?_; rotate_left; intro h; try simp -zeta only [↓is_mk, ↓State.actBump_keeps, ↓State.modActPort_keeps, ↓State.postEvent_keeps] at h)
    | with_reducible refine is_foldl (fun s b hs => ?_) ?_
    | split

theorem execRequestFrameEnd_keeps : ∀ q z x0 x1 x2 s, Is q z s → IsO q z (execRequestFrameEnd x0 x1 x2 s) := by
  intro q z x0 x1 x2 s hs
  unfold execRequestFrameEnd
  conv => arg 3; zeta
  repeat'
    first
    | with_reducible assumption
    | (simp -zeta only [↓is_mk, ↓isO_next, ↓State.actSettle_keeps, ↓State.frameErrors_keeps, ↓State.modActPort_keeps]; try change Is q z _)
    | (with_reducible refine is_ite ?_ ?_; rotate_left; intro h; try simp -zeta only [↓is_mk, ↓isO_next, ↓State.actSettle_keeps, ↓State.frameErrors_keeps, ↓State.modActPort_keeps] at h)
    | (with_reducible refine isO_ite ?_ ?_)
    | split

theorem execNbProgram_keeps : ∀ q z x0 x1 x2 s, Is q z s → IsO q z (execNbProgram x0 x1 x2 s) := by
  intro q z x0 x1 x2 s hs
  unfold execNbProgram
  conv => arg 3; zeta
  repeat'
    first
    | with_reducible assumption
    | (simp -zeta only [↓is_mk, ↓isO_next, ↓State.finish_keeps, ↓State.hostCmd_keeps, ↓State.judgeEntries_keeps, ↓State.modAct_keeps]; try change Is q z _)
    | refine State.hostCmd_keeps (fun l s hs => ?_) ?_
    | with_reducible refine is_foldl (fun s b hs => ?_) ?_

theorem execTripConfig_keeps : ∀ q z x0 x1 x2 s, Is q z s → IsO q z (execTripConfig x0 x1 x2 s) := by
  intro q z x0 x1 x2 s hs
  unfold execTripConfig
  conv => arg 3; zeta
  repeat'
    first
    | with_reducible assumption
    | (simp -zeta only [↓is_mk, ↓isO_next, ↓State.finish_keeps, ↓State.hostCmd_keeps, ↓State.judgeTrips_keeps, ↓State.modAct_keeps]; try change Is q z _)
    | refine State.hostCmd_keeps (fun l s hs => ?_) ?_
    | (with_reducible refine is_ite ?_ ?_; rotate_left; intro h; try simp -zeta only [↓is_mk, ↓isO_next, ↓State.finish_keeps, ↓State.hostCmd_keeps, ↓State.judgeTrips_keeps, ↓State.modAct_keeps] at h)
    | (with_reducible refine isO_ite ?_ ?_)
    | split

end Sys2Proof.Machine
end

