-- ==== Sys2Proof/Laws/KeepStart.lean ====
section
/-! SUPPORT. No operation of Start touches the command queue, and none but the burning of fuses
touches the fuses. -/

set_option linter.all false

namespace Sys2Proof.Machine

variable {q : List Instr} {z : Fuses}

theorem State.modBoard_keeps : ∀ x0 s, Is q z (State.modBoard x0 s) ↔ Is q z s := by
  intro x0 s; refine is_iff fun q z hs => ?_
  unfold State.modBoard
  conv => arg 3; zeta
  repeat'
    first
    | with_reducible assumption
    | (simp -zeta only [↓is_mk]; try change Is q z _)

theorem State.fullReset_keeps : ∀ s, Is q z (State.fullReset s) ↔ Is q z s := by
  intro s; refine is_iff fun q z hs => ?_
  unfold State.fullReset
  conv => arg 3; zeta
  repeat'
    first
    | with_reducible assumption
    | (simp -zeta only [↓is_mk]; try change Is q z _)
    | (with_reducible refine is_ite ?_ ?_; rotate_left; intro h; try simp -zeta only [↓is_mk] at h)
    | split

theorem execPowerUp_keeps : ∀ q z s, Is q z s → IsO q z (execPowerUp s) := by
  intro q z s hs
  unfold execPowerUp
  conv => arg 3; zeta
  repeat'
    first
    | with_reducible assumption
    | (simp -zeta only [↓is_mk, ↓isO_next, ↓State.fullReset_keeps, ↓State.modBoard_keeps]; try change Is q z _)

theorem execResetNAssert_keeps : ∀ q z s, Is q z s → IsO q z (execResetNAssert s) := by
  intro q z s hs
  unfold execResetNAssert
  conv => arg 3; zeta
  repeat'
    first
    | with_reducible assumption
    | (simp -zeta only [↓is_mk, ↓isO_next, ↓State.fullReset_keeps, ↓State.modBoard_keeps]; try change Is q z _)

theorem execAlwaysOnReset_keeps : ∀ q z s, Is q z s → IsO q z (execAlwaysOnReset s) := by
  intro q z s hs
  unfold execAlwaysOnReset
  conv => arg 3; zeta
  repeat'
    first
    | with_reducible assumption
    | (simp -zeta only [↓is_mk, ↓isO_next, ↓State.endLevel_keeps, ↓State.modAon_keeps]; try change Is q z _)

theorem execResetRelease_keeps : ∀ q z s, Is q z s → IsO q z (execResetRelease s) := by
  intro q z s hs
  unfold execResetRelease
  conv => arg 3; zeta
  repeat'
    first
    | with_reducible assumption
    | (simp -zeta only [↓is_mk, ↓isO_next, ↓State.aonBump_keeps, ↓State.modAon_keeps, ↓State.modBoard_keeps, ↓State.modPower_keeps]; try change Is q z _)
    | (with_reducible refine is_ite ?_ ?_; rotate_left; intro h; try simp -zeta only [↓is_mk, ↓isO_next, ↓State.aonBump_keeps, ↓State.modAon_keeps, ↓State.modBoard_keeps, ↓State.modPower_keeps] at h)
    | (with_reducible refine isO_ite ?_ ?_)
    | split

theorem State.layRegions_keeps : ∀ s, Is q z (State.layRegions s) ↔ Is q z s := by
  intro s; refine is_iff fun q z hs => ?_
  unfold State.layRegions
  conv => arg 3; zeta
  repeat'
    first
    | with_reducible assumption
    | (simp -zeta only [↓is_mk, ↓State.layCellar_keeps, ↓State.modResp_keeps, ↓State.traceHeader_keeps]; try change Is q z _)
    | with_reducible refine is_foldl (fun s b hs => ?_) ?_

theorem State.ready_keeps : ∀ s x1, Is q z (State.ready s x1) ↔ Is q z s := by
  intro s x1; refine is_iff fun q z hs => ?_
  unfold State.ready
  conv => arg 3; zeta
  repeat'
    first
    | with_reducible assumption
    | (simp -zeta only [↓is_mk, ↓State.modAon_keeps, ↓State.modPower_keeps, ↓State.postEvent_keeps, ↓State.presenceEvent_keeps, ↓State.syncEnabled_keeps]; try change Is q z _)
    | (with_reducible refine is_ite ?_ ?_; rotate_left; intro h; try simp -zeta only [↓is_mk, ↓State.modAon_keeps, ↓State.modPower_keeps, ↓State.postEvent_keeps, ↓State.presenceEvent_keeps, ↓State.syncEnabled_keeps] at h)
    | split

theorem State.cellsDone_keeps : ∀ s x1, Is q z (State.cellsDone s x1) ↔ Is q z s := by
  intro s x1; refine is_iff fun q z hs => ?_
  unfold State.cellsDone
  conv => arg 3; zeta
  repeat'
    first
    | with_reducible assumption
    | (simp -zeta only [↓is_mk, ↓State.failStart_keeps, ↓State.modAon_keeps, ↓State.modPower_keeps]; try change Is q z _)
    | (with_reducible refine is_ite ?_ ?_; rotate_left; intro h; try simp -zeta only [↓is_mk, ↓State.failStart_keeps, ↓State.modAon_keeps, ↓State.modPower_keeps] at h)
    | split

theorem State.stageOk_keeps : ∀ s x1, Is q z (State.stageOk s x1) ↔ Is q z s := by
  intro s x1; refine is_iff fun q z hs => ?_
  unfold State.stageOk
  conv => arg 3; zeta
  repeat'
    first
    | with_reducible assumption
    | (simp -zeta only [↓is_mk, ↓State.cellsDone_keeps, ↓State.failStart_keeps, ↓State.layRegions_keeps, ↓State.modAon_keeps, ↓State.modPower_keeps, ↓State.ready_keeps]; try change Is q z _)
    | (with_reducible refine is_ite ?_ ?_; rotate_left; intro h; try simp -zeta only [↓is_mk, ↓State.cellsDone_keeps, ↓State.failStart_keeps, ↓State.layRegions_keeps, ↓State.modAon_keeps, ↓State.modPower_keeps, ↓State.ready_keeps] at h)
    | (split <;> try (rename_i h; refine is_step (is_snd (q := q) (z := z) h ?_) (fun hs => ?_); rotate_left; clear h))
    | split

theorem execBootStageDone_keeps : ∀ q z x0 s, Is q z s → IsO q z (execBootStageDone x0 s) := by
  intro q z x0 s hs
  unfold execBootStageDone
  conv => arg 3; zeta
  repeat'
    first
    | with_reducible assumption
    | (simp -zeta only [↓is_mk, ↓isO_next, ↓State.cellsDone_keeps, ↓State.failStart_keeps, ↓State.modAon_keeps, ↓State.modPower_keeps, ↓State.ready_keeps, ↓State.stageOk_keeps]; try change Is q z _)
    | (with_reducible refine is_ite ?_ ?_; rotate_left; intro h; try simp -zeta only [↓is_mk, ↓isO_next, ↓State.cellsDone_keeps, ↓State.failStart_keeps, ↓State.modAon_keeps, ↓State.modPower_keeps, ↓State.ready_keeps, ↓State.stageOk_keeps] at h)
    | (with_reducible refine isO_ite ?_ ?_)
    | (split <;> try (rename_i h; refine is_step (is_snd (q := q) (z := z) h ?_) (fun hs => ?_); rotate_left; clear h))
    | split

theorem execStartTimeout_keeps : ∀ q z s, Is q z s → IsO q z (execStartTimeout s) := by
  intro q z s hs
  unfold execStartTimeout
  conv => arg 3; zeta
  repeat'
    first
    | with_reducible assumption
    | (simp -zeta only [↓is_mk, ↓isO_next, ↓State.abortStart_keeps, ↓State.reach_keeps]; try change Is q z _)
    | (split <;> try (rename_i h; refine is_step (is_snd (q := q) (z := z) h ?_) (fun hs => ?_); rotate_left; clear h))
    | split

theorem execRetryPauseExpiry_keeps : ∀ q z s, Is q z s → IsO q z (execRetryPauseExpiry s) := by
  intro q z s hs
  unfold execRetryPauseExpiry
  conv => arg 3; zeta
  repeat'
    first
    | with_reducible assumption
    | (simp -zeta only [↓is_mk, ↓isO_next, ↓State.fullReset_keeps, ↓State.reach_keeps]; try change Is q z _)
    | (split <;> try (rename_i h; refine is_step (is_snd (q := q) (z := z) h ?_) (fun hs => ?_); rotate_left; clear h))
    | split

theorem execPcieLinkTrained_keeps : ∀ q z s, Is q z s → IsO q z (execPcieLinkTrained s) := by
  intro q z s hs
  unfold execPcieLinkTrained
  conv => arg 3; zeta
  repeat'
    first
    | with_reducible assumption
    | (simp -zeta only [↓is_mk, ↓isO_next, ↓State.modHost_keeps]; try change Is q z _)
    | (with_reducible refine is_ite ?_ ?_; rotate_left; intro h; try simp -zeta only [↓is_mk, ↓isO_next, ↓State.modHost_keeps] at h)
    | (with_reducible refine isO_ite ?_ ?_)
    | split

theorem execSupplyOut_keeps : ∀ q z x0 x1 s, Is q z s → IsO q z (execSupplyOut x0 x1 s) := by
  intro q z x0 x1 s hs
  unfold execSupplyOut
  conv => arg 3; zeta
  repeat'
    first
    | with_reducible assumption
    | (simp -zeta only [↓is_mk, ↓isO_next, ↓State.abortStart_keeps, ↓State.detect_keeps, ↓State.modBoard_keeps, ↓State.postEvent_keeps]; try change Is q z _)
    | (with_reducible refine is_ite ?_ ?_; rotate_left; intro h; try simp -zeta only [↓is_mk, ↓isO_next, ↓State.abortStart_keeps, ↓State.detect_keeps, ↓State.modBoard_keeps, ↓State.postEvent_keeps] at h)
    | (with_reducible refine isO_ite ?_ ?_)
    | split

theorem execSupplyIn_keeps : ∀ q z x0 x1 s, Is q z s → IsO q z (execSupplyIn x0 x1 s) := by
  intro q z x0 x1 s hs
  unfold execSupplyIn
  conv => arg 3; zeta
  repeat'
    first
    | with_reducible assumption
    | (simp -zeta only [↓is_mk, ↓isO_next, ↓State.endLevel_keeps, ↓State.modBoard_keeps, ↓State.postEvent_keeps]; try change Is q z _)
    | (with_reducible refine is_ite ?_ ?_; rotate_left; intro h; try simp -zeta only [↓is_mk, ↓isO_next, ↓State.endLevel_keeps, ↓State.modBoard_keeps, ↓State.postEvent_keeps] at h)
    | (with_reducible refine isO_ite ?_ ?_)
    | split

theorem execRefclkLoss_keeps : ∀ q z s, Is q z s → IsO q z (execRefclkLoss s) := by
  intro q z s hs
  unfold execRefclkLoss
  conv => arg 3; zeta
  repeat'
    first
    | with_reducible assumption
    | (simp -zeta only [↓is_mk, ↓isO_next, ↓State.abortStart_keeps, ↓State.detect_keeps, ↓State.modBoard_keeps]; try change Is q z _)
    | (split <;> try (rename_i h; refine is_step (is_snd (q := q) (z := z) h ?_) (fun hs => ?_); rotate_left; clear h))
    | split

theorem execJunctionSensorRead_keeps : ∀ q z x0 x1 s, Is q z s → IsO q z (execJunctionSensorRead x0 x1 s) := by
  intro q z x0 x1 s hs
  unfold execJunctionSensorRead
  conv => arg 3; zeta
  repeat'
    first
    | with_reducible assumption
    | (simp -zeta only [↓is_mk, ↓isO_next, ↓State.abortStart_keeps, ↓State.detect_keeps, ↓State.endLevel_keeps, ↓State.modBoard_keeps, ↓State.modPower_keeps, ↓State.postEvent_keeps]; try change Is q z _)
    | (with_reducible refine is_ite ?_ ?_; rotate_left; intro h; try simp -zeta only [↓is_mk, ↓isO_next, ↓State.abortStart_keeps, ↓State.detect_keeps, ↓State.endLevel_keeps, ↓State.modBoard_keeps, ↓State.modPower_keeps, ↓State.postEvent_keeps] at h)
    | (with_reducible refine isO_ite ?_ ?_)
    | split

theorem execFenceRequest_keeps : ∀ q z x0 s, Is q z s → IsO q z (execFenceRequest x0 s) := by
  intro q z x0 s hs
  unfold execFenceRequest
  conv => arg 3; zeta
  repeat'
    first
    | with_reducible assumption
    | (simp -zeta only [↓is_mk, ↓isO_next, ↓State.modFabric_keeps]; try change Is q z _)
    | (with_reducible refine is_ite ?_ ?_; rotate_left; intro h; try simp -zeta only [↓is_mk, ↓isO_next, ↓State.modFabric_keeps] at h)
    | (with_reducible refine isO_ite ?_ ?_)
    | (split <;> try (rename_i h; refine is_step (is_snd (q := q) (z := z) h ?_) (fun hs => ?_); rotate_left; clear h))
    | split

theorem State.fenceDone_keeps : ∀ s x1, Is q z (State.fenceDone s x1) ↔ Is q z s := by
  intro s x1; refine is_iff fun q z hs => ?_
  unfold State.fenceDone
  conv => arg 3; zeta
  repeat'
    first
    | with_reducible assumption
    | (simp -zeta only [↓is_mk, ↓State.modFabric_keeps]; try change Is q z _)
    | (with_reducible refine is_ite ?_ ?_; rotate_left; intro h; try simp -zeta only [↓is_mk, ↓State.modFabric_keeps] at h)
    | split

theorem execFenceComplete_keeps : ∀ q z x0 s, Is q z s → IsO q z (execFenceComplete x0 s) := by
  intro q z x0 s hs
  unfold execFenceComplete
  conv => arg 3; zeta
  repeat'
    first
    | with_reducible assumption
    | (simp -zeta only [↓is_mk, ↓isO_next, ↓State.fenceDone_keeps, ↓State.modPower_keeps]; try change Is q z _)
    | (with_reducible refine is_ite ?_ ?_; rotate_left; intro h; try simp -zeta only [↓is_mk, ↓isO_next, ↓State.fenceDone_keeps, ↓State.modPower_keeps] at h)
    | (with_reducible refine isO_ite ?_ ?_)
    | split

theorem execHubWake_keeps : ∀ q z x0 s, Is q z s → IsO q z (execHubWake x0 s) := by
  intro q z x0 s hs
  unfold execHubWake
  conv => arg 3; zeta
  repeat'
    first
    | with_reducible assumption
    | (simp -zeta only [↓is_mk, ↓isO_next, ↓State.modFabric_keeps, ↓State.modPower_keeps]; try change Is q z _)
    | (with_reducible refine is_ite ?_ ?_; rotate_left; intro h; try simp -zeta only [↓is_mk, ↓isO_next, ↓State.modFabric_keeps, ↓State.modPower_keeps] at h)
    | (with_reducible refine isO_ite ?_ ?_)
    | split

theorem execRestEntry_keeps : ∀ q z s, Is q z s → IsO q z (execRestEntry s) := by
  intro q z s hs
  unfold execRestEntry
  conv => arg 3; zeta
  repeat'
    first
    | with_reducible assumption
    | (simp -zeta only [↓is_mk, ↓isO_next, ↓State.aonBump_keeps, ↓State.drainStage_keeps, ↓State.fenceDone_keeps, ↓State.modPower_keeps, ↓State.postEvent_keeps, ↓State.reach_keeps, ↓State.writeLost_keeps, ↓State.writeSleep_keeps]; try change Is q z _)
    | (with_reducible refine is_ite ?_ ?_; rotate_left; intro h; try simp -zeta only [↓is_mk, ↓isO_next, ↓State.aonBump_keeps, ↓State.drainStage_keeps, ↓State.fenceDone_keeps, ↓State.modPower_keeps, ↓State.postEvent_keeps, ↓State.reach_keeps, ↓State.writeLost_keeps, ↓State.writeSleep_keeps] at h)
    | (with_reducible refine isO_ite ?_ ?_)
    | with_reducible refine is_foldl (fun s b hs => ?_) ?_
    | (split <;> try (rename_i h; refine is_step (is_snd (q := q) (z := z) h ?_) (fun hs => ?_); rotate_left; clear h))
    | split

theorem execRestExit_keeps : ∀ q z s, Is q z s → IsO q z (execRestExit s) := by
  intro q z s hs
  unfold execRestExit
  conv => arg 3; zeta
  repeat'
    first
    | with_reducible assumption
    | (simp -zeta only [↓is_mk, ↓isO_next, ↓State.leaveRest_keeps]; try change Is q z _)

theorem execScrubDone_keeps : ∀ q z x0 x1 x2 s, Is q z s → IsO q z (execScrubDone x0 x1 x2 s) := by
  intro q z x0 x1 x2 s hs
  unfold execScrubDone
  conv => arg 3; zeta
  repeat'
    first
    | with_reducible assumption
    | (simp -zeta only [↓is_mk, ↓isO_next, ↓State.aonBump_keeps, ↓State.detect_keeps, ↓State.modPower_keeps, ↓State.postEvent_keeps]; try change Is q z _)
    | (with_reducible refine is_ite ?_ ?_; rotate_left; intro h; try simp -zeta only [↓is_mk, ↓isO_next, ↓State.aonBump_keeps, ↓State.detect_keeps, ↓State.modPower_keeps, ↓State.postEvent_keeps] at h)
    | (with_reducible refine isO_ite ?_ ?_)
    | with_reducible refine is_foldl (fun s b hs => ?_) ?_
    | split

theorem State.keepCrc_keeps : ∀ s x1 x2, Is q z (State.keepCrc s x1 x2) ↔ Is q z s := by
  intro s x1 x2; refine is_iff fun q z hs => ?_
  unfold State.keepCrc
  conv => arg 3; zeta
  repeat'
    first
    | with_reducible assumption
    | (simp -zeta only [↓is_mk, ↓State.modCell_keeps]; try change Is q z _)

theorem State.recordCrc_keeps : ∀ s x1, Is q z (State.recordCrc s x1) ↔ Is q z s := by
  intro s x1; refine is_iff fun q z hs => ?_
  unfold State.recordCrc
  conv => arg 3; zeta
  repeat'
    first
    | with_reducible assumption
    | (simp -zeta only [↓is_mk]; try change Is q z _)
    | with_reducible refine is_foldl (fun s b hs => ?_) ?_

theorem State.reloadCell_keeps : ∀ s x1, Is q z (State.reloadCell s x1) ↔ Is q z s := by
  intro s x1; refine is_iff fun q z hs => ?_
  unfold State.reloadCell
  conv => arg 3; zeta
  repeat'
    first
    | with_reducible assumption
    | (simp -zeta only [↓is_mk, ↓State.keepCrc_keeps, ↓State.modCell_keeps]; try change Is q z _)
    | with_reducible refine is_foldl (fun s b hs => ?_) ?_

theorem State.wakeCell_keeps : ∀ s x1, Is q z (State.wakeCell s x1) ↔ Is q z s := by
  intro s x1; refine is_iff fun q z hs => ?_
  unfold State.wakeCell
  conv => arg 3; zeta
  repeat'
    first
    | with_reducible assumption
    | (simp -zeta only [↓is_mk, ↓State.modCell_keeps, ↓State.modFabric_keeps, ↓State.stallCheck_keeps]; try change Is q z _)
    | (with_reducible refine is_ite ?_ ?_; rotate_left; intro h; try simp -zeta only [↓is_mk, ↓State.modCell_keeps, ↓State.modFabric_keeps, ↓State.stallCheck_keeps] at h)
    | split

theorem execColumnPowerGoodLoss_keeps : ∀ q z x0 s, Is q z s → IsO q z (execColumnPowerGoodLoss x0 s) := by
  intro q z x0 s hs
  unfold execColumnPowerGoodLoss
  conv => arg 3; zeta
  repeat'
    first
    | with_reducible assumption
    | (simp -zeta only [↓is_mk, ↓isO_next, ↓State.aonBump_keeps, ↓State.detect_keeps, ↓State.isolate_keeps, ↓State.modPower_keeps]; try change Is q z _)
    | (with_reducible refine is_ite ?_ ?_; rotate_left; intro h; try simp -zeta only [↓is_mk, ↓isO_next, ↓State.aonBump_keeps, ↓State.detect_keeps, ↓State.isolate_keeps, ↓State.modPower_keeps] at h)
    | (with_reducible refine isO_ite ?_ ?_)
    | with_reducible refine is_foldl (fun s b hs => ?_) ?_
    | split

theorem State.endCellTest_keeps : ∀ s x1 x2 x3, Is q z (State.endCellTest s x1 x2 x3) ↔ Is q z s := by
  intro s x1 x2 x3; refine is_iff fun q z hs => ?_
  unfold State.endCellTest
  conv => arg 3; zeta
  repeat'
    first
    | with_reducible assumption
    | (simp -zeta only [↓is_mk, ↓State.aonBump_keeps, ↓State.completeWhere_keeps, ↓State.halfCheck_keeps, ↓State.modFabric_keeps, ↓State.modPower_keeps]; try change Is q z _)
    | (with_reducible refine is_ite ?_ ?_; rotate_left; intro h; try simp -zeta only [↓is_mk, ↓State.aonBump_keeps, ↓State.completeWhere_keeps, ↓State.halfCheck_keeps, ↓State.modFabric_keeps, ↓State.modPower_keeps] at h)
    | split

theorem execColumnPowerGoodReturn_keeps : ∀ q z x0 s, Is q z s → IsO q z (execColumnPowerGoodReturn x0 s) := by
  intro q z x0 s hs
  unfold execColumnPowerGoodReturn
  conv => arg 3; zeta
  repeat'
    first
    | with_reducible assumption
    | (simp -zeta only [↓is_mk, ↓isO_next, ↓State.endCellTest_keeps, ↓State.endLevel_keeps, ↓State.modPower_keeps, ↓State.wakeCell_keeps]; try change Is q z _)
    | (with_reducible refine is_ite ?_ ?_; rotate_left; intro h; try simp -zeta only [↓is_mk, ↓isO_next, ↓State.endCellTest_keeps, ↓State.endLevel_keeps, ↓State.modPower_keeps, ↓State.wakeCell_keeps] at h)
    | (with_reducible refine isO_ite ?_ ?_)
    | with_reducible refine is_foldl (fun s b hs => ?_) ?_
    | split

theorem execSelfTest_keeps : ∀ q z x0 x1 x2 s, Is q z s → IsO q z (execSelfTest x0 x1 x2 s) := by
  intro q z x0 x1 x2 s hs
  unfold execSelfTest
  conv => arg 3; zeta
  repeat'
    first
    | with_reducible assumption
    | (simp -zeta only [↓is_mk, ↓isO_next, ↓State.await_keeps, ↓State.hostCmd_keeps, ↓State.modPower_keeps]; try change Is q z _)
    | refine State.hostCmd_keeps (fun l s hs => ?_) ?_
    | (with_reducible refine is_ite ?_ ?_; rotate_left; intro h; try simp -zeta only [↓is_mk, ↓isO_next, ↓State.await_keeps, ↓State.hostCmd_keeps, ↓State.modPower_keeps] at h)
    | (with_reducible refine isO_ite ?_ ?_)
    | split

theorem execDrainEnd_keeps : ∀ q z x0 s, Is q z s → IsO q z (execDrainEnd x0 s) := by
  intro q z x0 s hs
  unfold execDrainEnd
  conv => arg 3; zeta
  repeat'
    first
    | with_reducible assumption
    | (simp -zeta only [↓is_mk, ↓isO_next, ↓State.halfCheck_keeps, ↓State.modFabric_keeps, ↓State.modPower_keeps]; try change Is q z _)
    | (with_reducible refine is_ite ?_ ?_; rotate_left; intro h; try simp -zeta only [↓is_mk, ↓isO_next, ↓State.halfCheck_keeps, ↓State.modFabric_keeps, ↓State.modPower_keeps] at h)
    | (with_reducible refine isO_ite ?_ ?_)
    | (split <;> try (rename_i h; refine is_step (is_snd (q := q) (z := z) h ?_) (fun hs => ?_); rotate_left; clear h))
    | split

theorem execDrainTimeout_keeps : ∀ q z x0 s, Is q z s → IsO q z (execDrainTimeout x0 s) := by
  intro q z x0 s hs
  unfold execDrainTimeout
  conv => arg 3; zeta
  repeat'
    first
    | with_reducible assumption
    | (simp -zeta only [↓is_mk, ↓isO_next, ↓State.completeWhere_keeps, ↓State.modPower_keeps, ↓State.reach_keeps]; try change Is q z _)
    | (with_reducible refine is_ite ?_ ?_; rotate_left; intro h; try simp -zeta only [↓is_mk, ↓isO_next, ↓State.completeWhere_keeps, ↓State.modPower_keeps, ↓State.reach_keeps] at h)
    | (with_reducible refine isO_ite ?_ ?_)
    | (split <;> try (rename_i h; refine is_step (is_snd (q := q) (z := z) h ?_) (fun hs => ?_); rotate_left; clear h))
    | split

theorem execFenceTimeout_keeps : ∀ q z x0 s, Is q z s → IsO q z (execFenceTimeout x0 s) := by
  intro q z x0 s hs
  unfold execFenceTimeout
  conv => arg 3; zeta
  repeat'
    first
    | with_reducible assumption
    | (simp -zeta only [↓is_mk, ↓isO_next, ↓State.detect_keeps, ↓State.endCellTest_keeps, ↓State.isolate_keeps, ↓State.reach_keeps]; try change Is q z _)
    | (with_reducible refine is_ite ?_ ?_; rotate_left; intro h; try simp -zeta only [↓is_mk, ↓isO_next, ↓State.detect_keeps, ↓State.endCellTest_keeps, ↓State.isolate_keeps, ↓State.reach_keeps] at h)
    | (with_reducible refine isO_ite ?_ ?_)
    | (split <;> try (rename_i h; refine is_step (is_snd (q := q) (z := z) h ?_) (fun hs => ?_); rotate_left; clear h))
    | split

theorem execCellTestDone_keeps : ∀ q z x0 x1 s, Is q z s → IsO q z (execCellTestDone x0 x1 s) := by
  intro q z x0 x1 s hs
  unfold execCellTestDone
  conv => arg 3; zeta
  repeat'
    first
    | with_reducible assumption
    | (simp -zeta only [↓is_mk, ↓isO_next, ↓State.endCellTest_keeps, ↓State.isolate_keeps, ↓State.modFabric_keeps, ↓State.postEvent_keeps, ↓State.reloadCell_keeps, ↓State.wakeCell_keeps]; try change Is q z _)
    | (with_reducible refine is_ite ?_ ?_; rotate_left; intro h; try simp -zeta only [↓is_mk, ↓isO_next, ↓State.endCellTest_keeps, ↓State.isolate_keeps, ↓State.modFabric_keeps, ↓State.postEvent_keeps, ↓State.reloadCell_keeps, ↓State.wakeCell_keeps] at h)
    | (with_reducible refine isO_ite ?_ ?_)
    | (split <;> try (rename_i h; refine is_step (is_snd (q := q) (z := z) h ?_) (fun hs => ?_); rotate_left; clear h))
    | split

theorem execHbmTestSegment_keeps : ∀ q z x0 x1 s, Is q z s → IsO q z (execHbmTestSegment x0 x1 s) := by
  intro q z x0 x1 s hs
  unfold execHbmTestSegment
  conv => arg 3; zeta
  repeat'
    first
    | with_reducible assumption
    | (simp -zeta only [↓is_mk, ↓isO_next, ↓State.aonBump_keeps, ↓State.completeWhere_keeps, ↓State.detect_keeps, ↓State.modPower_keeps, ↓State.postEvent_keeps]; try change Is q z _)
    | (with_reducible refine is_ite ?_ ?_; rotate_left; intro h; try simp -zeta only [↓is_mk, ↓isO_next, ↓State.aonBump_keeps, ↓State.completeWhere_keeps, ↓State.detect_keeps, ↓State.modPower_keeps, ↓State.postEvent_keeps] at h)
    | (with_reducible refine isO_ite ?_ ?_)
    | (split <;> try (rename_i h; refine is_step (is_snd (q := q) (z := z) h ?_) (fun hs => ?_); rotate_left; clear h))
    | split

theorem execFwUpdate_keeps : ∀ q z x0 x1 x2 s, Is q z s → IsO q z (execFwUpdate x0 x1 x2 s) := by
  intro q z x0 x1 x2 s hs
  unfold execFwUpdate
  conv => arg 3; zeta
  repeat'
    first
    | with_reducible assumption
    | (simp -zeta only [↓is_mk, ↓isO_next, ↓State.draw_keeps, ↓State.finish_keeps, ↓State.hostCmd_keeps, ↓State.leaveRest_keeps, ↓State.modBoard_keeps]; try change Is q z _)
    | refine State.hostCmd_keeps (fun l s hs => ?_) ?_
    | (with_reducible refine is_ite ?_ ?_; rotate_left; intro h; try simp -zeta only [↓is_mk, ↓isO_next, ↓State.draw_keeps, ↓State.finish_keeps, ↓State.hostCmd_keeps, ↓State.leaveRest_keeps, ↓State.modBoard_keeps] at h)
    | (with_reducible refine isO_ite ?_ ?_)
    | (split <;> try (rename_i h; refine is_step (is_snd (q := q) (z := z) h ?_) (fun hs => ?_); rotate_left; clear h))
    | split

theorem execLanternDiag_keeps : ∀ q z x0 x1 x2 s, Is q z s → IsO q z (execLanternDiag x0 x1 x2 s) := by
  intro q z x0 x1 x2 s hs
  unfold execLanternDiag
  conv => arg 3; zeta
  repeat'
    first
    | with_reducible assumption
    | (simp -zeta only [↓is_mk, ↓isO_next, ↓State.finish_keeps, ↓State.hostCmd_keeps]; try change Is q z _)
    | refine State.hostCmd_keeps (fun l s hs => ?_) ?_

theorem execRestart_keeps : ∀ q z x0 x1 x2 s, Is q z s → IsO q z (execRestart x0 x1 x2 s) := by
  intro q z x0 x1 x2 s hs
  unfold execRestart
  conv => arg 3; zeta
  repeat'
    first
    | with_reducible assumption
    | (simp -zeta only [↓is_mk, ↓isO_next, ↓State.fullReset_keeps, ↓State.hostCmd_keeps, ↓State.modAon_keeps]; try change Is q z _)
    | refine State.hostCmd_keeps (fun l s hs => ?_) ?_
    | (with_reducible refine is_ite ?_ ?_; rotate_left; intro h; try simp -zeta only [↓is_mk, ↓isO_next, ↓State.fullReset_keeps, ↓State.hostCmd_keeps, ↓State.modAon_keeps] at h)
    | (with_reducible refine isO_ite ?_ ?_)
    | split

end Sys2Proof.Machine
end

