-- ==== Sys2Proof/Laws/KeepCommand.lean ====
section
/-! SUPPORT. No operation of Command touches the command queue, and none but the burning of fuses
touches the fuses. -/

set_option linter.all false

namespace Sys2Proof.Machine

variable {q : List Instr} {z : Fuses}

theorem execNop_keeps : ∀ q z x0 x1 x2 s, Is q z s → IsO q z (execNop x0 x1 x2 s) := by
  intro q z x0 x1 x2 s hs
  unfold execNop
  conv => arg 3; zeta
  repeat'
    first
    | with_reducible assumption
    | (simp -zeta only [↓is_mk, ↓isO_next, ↓State.finish_keeps, ↓State.hostCmd_keeps]; try change Is q z _)
    | refine State.hostCmd_keeps (fun l s hs => ?_) ?_

theorem execIdentify_keeps : ∀ q z x0 x1 x2 s, Is q z s → IsO q z (execIdentify x0 x1 x2 s) := by
  intro q z x0 x1 x2 s hs
  unfold execIdentify
  conv => arg 3; zeta
  repeat'
    first
    | with_reducible assumption
    | (simp -zeta only [↓is_mk, ↓isO_next, ↓State.finish_keeps, ↓State.hostCmd_keeps]; try change Is q z _)
    | refine State.hostCmd_keeps (fun l s hs => ?_) ?_

theorem execCreateCmdRing_keeps : ∀ q z x0 x1 x2 s, Is q z s → IsO q z (execCreateCmdRing x0 x1 x2 s) := by
  intro q z x0 x1 x2 s hs
  unfold execCreateCmdRing
  conv => arg 3; zeta
  repeat'
    first
    | with_reducible assumption
    | (simp -zeta only [↓is_mk, ↓isO_next, ↓State.finish_keeps, ↓State.hostCmd_keeps, ↓State.modCmd_keeps]; try change Is q z _)
    | refine State.hostCmd_keeps (fun l s hs => ?_) ?_
    | (with_reducible refine is_ite ?_ ?_; rotate_left; intro h; try simp -zeta only [↓is_mk, ↓isO_next, ↓State.finish_keeps, ↓State.hostCmd_keeps, ↓State.modCmd_keeps] at h)
    | (with_reducible refine isO_ite ?_ ?_)
    | split

theorem execCreateCplRing_keeps : ∀ q z x0 x1 x2 s, Is q z s → IsO q z (execCreateCplRing x0 x1 x2 s) := by
  intro q z x0 x1 x2 s hs
  unfold execCreateCplRing
  conv => arg 3; zeta
  repeat'
    first
    | with_reducible assumption
    | (simp -zeta only [↓is_mk, ↓isO_next, ↓State.finish_keeps, ↓State.hostCmd_keeps, ↓State.modCpl_keeps]; try change Is q z _)
    | refine State.hostCmd_keeps (fun l s hs => ?_) ?_

theorem execDeleteRing_keeps : ∀ q z x0 x1 x2 s, Is q z s → IsO q z (execDeleteRing x0 x1 x2 s) := by
  intro q z x0 x1 x2 s hs
  unfold execDeleteRing
  conv => arg 3; zeta
  repeat'
    first
    | with_reducible assumption
    | (simp -zeta only [↓is_mk, ↓isO_next, ↓State.finish_keeps, ↓State.hostCmd_keeps, ↓State.modCmd_keeps, ↓State.modCpl_keeps]; try change Is q z _)
    | refine State.hostCmd_keeps (fun l s hs => ?_) ?_
    | (with_reducible refine is_ite ?_ ?_; rotate_left; intro h; try simp -zeta only [↓is_mk, ↓isO_next, ↓State.finish_keeps, ↓State.hostCmd_keeps, ↓State.modCmd_keeps, ↓State.modCpl_keeps] at h)
    | (with_reducible refine isO_ite ?_ ?_)
    | split

theorem execEventRoute_keeps : ∀ q z x0 x1 x2 s, Is q z s → IsO q z (execEventRoute x0 x1 x2 s) := by
  intro q z x0 x1 x2 s hs
  unfold execEventRoute
  conv => arg 3; zeta
  repeat'
    first
    | with_reducible assumption
    | (simp -zeta only [↓is_mk, ↓isO_next, ↓State.finish_keeps, ↓State.hostCmd_keeps, ↓State.modHost_keeps]; try change Is q z _)
    | refine State.hostCmd_keeps (fun l s hs => ?_) ?_
    | with_reducible refine is_foldl (fun s b hs => ?_) ?_

theorem execCellFlush_keeps : ∀ q z x0 x1 x2 s, Is q z s → IsO q z (execCellFlush x0 x1 x2 s) := by
  intro q z x0 x1 x2 s hs
  unfold execCellFlush
  conv => arg 3; zeta
  repeat'
    first
    | with_reducible assumption
    | (simp -zeta only [↓is_mk, ↓isO_next, ↓State.finish_keeps, ↓State.flush_keeps, ↓State.hostCmd_keeps]; try change Is q z _)
    | refine State.hostCmd_keeps (fun l s hs => ?_) ?_
    | (with_reducible refine is_ite ?_ ?_; rotate_left; intro h; try simp -zeta only [↓is_mk, ↓isO_next, ↓State.finish_keeps, ↓State.flush_keeps, ↓State.hostCmd_keeps] at h)
    | (with_reducible refine isO_ite ?_ ?_)
    | split

theorem execWatchConfig_keeps : ∀ q z x0 x1 x2 s, Is q z s → IsO q z (execWatchConfig x0 x1 x2 s) := by
  intro q z x0 x1 x2 s hs
  unfold execWatchConfig
  conv => arg 3; zeta
  repeat'
    first
    | with_reducible assumption
    | (simp -zeta only [↓is_mk, ↓isO_next, ↓State.finish_keeps, ↓State.hostCmd_keeps, ↓State.modWatch_keeps, ↓State.react_keeps]; try change Is q z _)
    | refine State.hostCmd_keeps (fun l s hs => ?_) ?_
    | (with_reducible refine is_ite ?_ ?_; rotate_left; intro h; try simp -zeta only [↓is_mk, ↓isO_next, ↓State.finish_keeps, ↓State.hostCmd_keeps, ↓State.modWatch_keeps, ↓State.react_keeps] at h)
    | (with_reducible refine isO_ite ?_ ?_)
    | (split <;> try (rename_i h; refine is_step (is_snd (q := q) (z := z) h ?_) (fun hs => ?_); rotate_left; clear h))
    | split

theorem State.forceRaise_keeps : ∀ s x1, Is q z (State.forceRaise s x1) ↔ Is q z s := by
  intro s x1; refine is_iff fun q z hs => ?_
  unfold State.forceRaise
  conv => arg 3; zeta
  repeat'
    first
    | with_reducible assumption
    | (simp -zeta only [↓is_mk, ↓State.modWatch_keeps]; try change Is q z _)

theorem State.unforce_keeps : ∀ s x1, Is q z (State.unforce s x1) ↔ Is q z s := by
  intro s x1; refine is_iff fun q z hs => ?_
  unfold State.unforce
  conv => arg 3; zeta
  repeat'
    first
    | with_reducible assumption
    | (simp -zeta only [↓is_mk, ↓State.modWatch_keeps, ↓State.postEvent_keeps]; try change Is q z _)
    | (with_reducible refine is_ite ?_ ?_; rotate_left; intro h; try simp -zeta only [↓is_mk, ↓State.modWatch_keeps, ↓State.postEvent_keeps] at h)
    | split

theorem execFaultForce_keeps : ∀ q z x0 x1 x2 s, Is q z s → IsO q z (execFaultForce x0 x1 x2 s) := by
  intro q z x0 x1 x2 s hs
  unfold execFaultForce
  conv => arg 3; zeta
  repeat'
    first
    | with_reducible assumption
    | (simp -zeta only [↓is_mk, ↓isO_next, ↓State.finish_keeps, ↓State.forceRaise_keeps, ↓State.hostCmd_keeps, ↓State.modWatch_keeps, ↓State.unforce_keeps]; try change Is q z _)
    | refine State.hostCmd_keeps (fun l s hs => ?_) ?_
    | (with_reducible refine is_ite ?_ ?_; rotate_left; intro h; try simp -zeta only [↓is_mk, ↓isO_next, ↓State.finish_keeps, ↓State.forceRaise_keeps, ↓State.hostCmd_keeps, ↓State.modWatch_keeps, ↓State.unforce_keeps] at h)
    | (with_reducible refine isO_ite ?_ ?_)
    | split

theorem execFaultClear_keeps : ∀ q z x0 x1 x2 s, Is q z s → IsO q z (execFaultClear x0 x1 x2 s) := by
  intro q z x0 x1 x2 s hs
  unfold execFaultClear
  conv => arg 3; zeta
  repeat'
    first
    | with_reducible assumption
    | (simp -zeta only [↓is_mk, ↓isO_next, ↓State.finish_keeps, ↓State.hostCmd_keeps, ↓State.modWatch_keeps, ↓State.postEvent_keeps, ↓State.watchBump_keeps]; try change Is q z _)
    | refine State.hostCmd_keeps (fun l s hs => ?_) ?_

theorem execFaultLogRead_keeps : ∀ q z x0 x1 x2 s, Is q z s → IsO q z (execFaultLogRead x0 x1 x2 s) := by
  intro q z x0 x1 x2 s hs
  unfold execFaultLogRead
  conv => arg 3; zeta
  repeat'
    first
    | with_reducible assumption
    | (simp -zeta only [↓is_mk, ↓isO_next, ↓State.finish_keeps, ↓State.hostCmd_keeps]; try change Is q z _)
    | refine State.hostCmd_keeps (fun l s hs => ?_) ?_
    | (with_reducible refine is_ite ?_ ?_; rotate_left; intro h; try simp -zeta only [↓is_mk, ↓isO_next, ↓State.finish_keeps, ↓State.hostCmd_keeps] at h)
    | (with_reducible refine isO_ite ?_ ?_)
    | split

theorem execDebugEnable_keeps : ∀ q z x0 x1 x2 s, Is q z s → IsO q z (execDebugEnable x0 x1 x2 s) := by
  intro q z x0 x1 x2 s hs
  unfold execDebugEnable
  conv => arg 3; zeta
  repeat'
    first
    | with_reducible assumption
    | (simp -zeta only [↓is_mk, ↓isO_next, ↓State.breakPair_keeps, ↓State.breakSteward_keeps, ↓State.finish_keeps, ↓State.hostCmd_keeps, ↓State.restorePair_keeps]; try change Is q z _)
    | refine State.hostCmd_keeps (fun l s hs => ?_) ?_
    | (with_reducible refine is_ite ?_ ?_; rotate_left; intro h; try simp -zeta only [↓is_mk, ↓isO_next, ↓State.breakPair_keeps, ↓State.breakSteward_keeps, ↓State.finish_keeps, ↓State.hostCmd_keeps, ↓State.restorePair_keeps] at h)
    | (with_reducible refine isO_ite ?_ ?_)
    | split

theorem State.statsRead_keeps : ∀ s x1 x2 x3, Is q z (State.statsRead s x1 x2 x3) ↔ Is q z s := by
  intro s x1 x2 x3; refine is_iff fun q z hs => ?_
  unfold State.statsRead
  conv => arg 3; zeta
  repeat'
    first
    | with_reducible assumption
    | (simp -zeta only [↓is_mk, ↓State.modCell_keeps, ↓State.modFabric_keeps, ↓State.modWatch_keeps]; try change Is q z _)
    | (with_reducible refine is_ite ?_ ?_; rotate_left; intro h; try simp -zeta only [↓is_mk, ↓State.modCell_keeps, ↓State.modFabric_keeps, ↓State.modWatch_keeps] at h)
    | (split <;> try (rename_i h; refine is_step (is_snd (q := q) (z := z) h ?_) (fun hs => ?_); rotate_left; clear h))
    | split

theorem execStatistics_keeps : ∀ q z x0 x1 x2 s, Is q z s → IsO q z (execStatistics x0 x1 x2 s) := by
  intro q z x0 x1 x2 s hs
  unfold execStatistics
  conv => arg 3; zeta
  repeat'
    first
    | with_reducible assumption
    | (simp -zeta only [↓is_mk, ↓isO_next, ↓State.finish_keeps, ↓State.hostCmd_keeps, ↓State.statsRead_keeps]; try change Is q z _)
    | refine State.hostCmd_keeps (fun l s hs => ?_) ?_
    | (with_reducible refine is_ite ?_ ?_; rotate_left; intro h; try simp -zeta only [↓is_mk, ↓isO_next, ↓State.finish_keeps, ↓State.hostCmd_keeps, ↓State.statsRead_keeps] at h)
    | (with_reducible refine isO_ite ?_ ?_)
    | split

end Sys2Proof.Machine
end

