-- ==== Sys2Proof/Laws/KeepGraph.lean ====
section
/-! SUPPORT. No operation of Graph touches the command queue, and none but the burning of fuses
touches the fuses. -/

set_option linter.all false

namespace Sys2Proof.Machine

variable {q : List Instr} {z : Fuses}

theorem State.modReeve_keeps : ∀ x0 s, Is q z (State.modReeve x0 s) ↔ Is q z s := by
  intro x0 s; refine is_iff fun q z hs => ?_
  unfold State.modReeve
  conv => arg 3; zeta
  repeat'
    first
    | with_reducible assumption
    | (simp -zeta only [↓is_mk]; try change Is q z _)

theorem State.overrun_keeps : ∀ s x1 x2, Is q z (State.overrun s x1 x2) ↔ Is q z s := by
  intro s x1 x2; refine is_iff fun q z hs => ?_
  unfold State.overrun
  conv => arg 3; zeta
  repeat'
    first
    | with_reducible assumption
    | (simp -zeta only [↓is_mk, ↓State.cellReturn_keeps, ↓State.detect_keeps, ↓State.gapNotice_keeps, ↓State.modCell_keeps, ↓State.queBump_keeps]; try change Is q z _)
    | (with_reducible refine is_ite ?_ ?_; rotate_left; intro h; try simp -zeta only [↓is_mk, ↓State.cellReturn_keeps, ↓State.detect_keeps, ↓State.gapNotice_keeps, ↓State.modCell_keeps, ↓State.queBump_keeps] at h)
    | (split <;> try (rename_i h; refine is_step (is_snd (q := q) (z := z) h ?_) (fun hs => ?_); rotate_left; clear h))
    | split

theorem State.postPacket_keeps : ∀ s x1 x2 x3, Is q z (State.postPacket s x1 x2 x3).2 ↔ Is q z s := by
  intro s x1 x2 x3; refine is_iff fun q z hs => ?_
  unfold State.postPacket
  dsimp only
  split
  · simpa only [↓State.overrun_keeps] using hs
  · split <;> rename_i h
    all_goals have hw := is_snd h (by simpa only [State.writePacket_keeps] using hs)
    · exact is_ite (by simpa only [↓State.tallyAdd_keeps] using hw) fun _ => hw
    · simpa only [↓State.overrun_keeps] using hw
    · simpa only [↓State.modCell_keeps] using hw

theorem State.endPosted_keeps : ∀ s x1 x2 x3, Is q z (State.endPosted s x1 x2 x3) ↔ Is q z s := by
  intro s x1 x2 x3; refine is_iff fun q z hs => ?_
  unfold State.endPosted
  conv => arg 3; zeta
  repeat'
    first
    | with_reducible assumption
    | (simp -zeta only [↓is_mk, ↓State.completeWhere_keeps]; try change Is q z _)
    | (with_reducible refine is_ite ?_ ?_; rotate_left; intro h; try simp -zeta only [↓is_mk, ↓State.completeWhere_keeps] at h)
    | (split <;> try (rename_i h; refine is_step (is_snd (q := q) (z := z) h ?_) (fun hs => ?_); rotate_left; clear h))
    | split

theorem State.injectMonoAt_keeps : ∀ s x1 x2 x3 x4 x5, Is q z (State.injectMonoAt s x1 x2 x3 x4 x5).2 ↔ Is q z s := by
  intro s x1 x2 x3 x4 x5; refine is_iff fun q z hs => ?_
  unfold State.injectMonoAt
  dsimp only
  split
  · simpa only [↓State.failCheck_keeps] using hs
  · simpa only [↓State.postPacket_keeps] using hs

theorem State.injectMono_keeps : ∀ s x1 x2 x3 x4, Is q z (State.injectMono s x1 x2 x3 x4).2 ↔ Is q z s := by
  intro s x1 x2 x3 x4; refine is_iff fun q z hs => ?_
  unfold State.injectMono
  dsimp only
  refine is_ite_snd ?_ (is_foldl_snd (fun a b h => ?_) hs)
  · simpa only [↓State.fabBump_keeps, ↓State.returnCredit_keeps] using hs
  · simpa only [↓State.injectMonoAt_keeps] using h

theorem State.injectNow_keeps : ∀ s x1 x2 x3, Is q z (State.injectNow s x1 x2 x3) ↔ Is q z s := by
  intro s x1 x2 x3; refine is_iff fun q z hs => ?_
  unfold State.injectNow
  conv => arg 3; zeta
  repeat'
    first
    | with_reducible assumption
    | (simp -zeta only [↓is_mk, ↓State.endPosted_keeps, ↓State.injectMono_keeps, ↓State.offerToken_keeps, ↓State.spendHub_keeps]; try change Is q z _)
    | (with_reducible refine is_ite ?_ ?_; rotate_left; intro h; try simp -zeta only [↓is_mk, ↓State.endPosted_keeps, ↓State.injectMono_keeps, ↓State.offerToken_keeps, ↓State.spendHub_keeps] at h)
    | split

theorem execHeldFiringOffer_keeps : ∀ q z x0 x1 s, Is q z s → IsO q z (execHeldFiringOffer x0 x1 s) := by
  intro q z x0 x1 s hs
  unfold execHeldFiringOffer
  conv => arg 3; zeta
  repeat'
    first
    | with_reducible assumption
    | (simp -zeta only [↓is_mk, ↓isO_next, ↓State.endPosted_keeps, ↓State.modCell_keeps, ↓State.offerReady_keeps, ↓State.postPacket_keeps]; try change Is q z _)
    | (split <;> try (rename_i h; refine is_step (is_snd (q := q) (z := z) h ?_) (fun hs => ?_); rotate_left; clear h))
    | split

theorem State.injectWaiting_keeps : ∀ s x1, Is q z (State.injectWaiting s x1) ↔ Is q z s := by
  intro s x1; refine is_iff fun q z hs => ?_
  unfold State.injectWaiting
  conv => arg 3; zeta
  repeat'
    first
    | with_reducible assumption
    | (simp -zeta only [↓is_mk, ↓State.inject_keeps, ↓State.injectNow_keeps]; try change Is q z _)
    | (with_reducible refine is_ite ?_ ?_; rotate_left; intro h; try simp -zeta only [↓is_mk, ↓State.inject_keeps, ↓State.injectNow_keeps] at h)
    | with_reducible refine is_foldl (fun s b hs => ?_) ?_
    | (split <;> try (rename_i h; refine is_step (is_snd (q := q) (z := z) h ?_) (fun hs => ?_); rotate_left; clear h))
    | split

theorem State.importWaiting_keeps : ∀ s x1, Is q z (State.importWaiting s x1) ↔ Is q z s := by
  intro s x1; refine is_iff fun q z hs => ?_
  unfold State.importWaiting
  conv => arg 3; zeta
  repeat'
    first
    | with_reducible assumption
    | (simp -zeta only [↓is_mk, ↓State.offerToken_keeps, ↓State.spendHub_keeps]; try change Is q z _)
    | (with_reducible refine is_ite ?_ ?_; rotate_left; intro h; try simp -zeta only [↓is_mk, ↓State.offerToken_keeps, ↓State.spendHub_keeps] at h)
    | with_reducible refine is_foldl (fun s b hs => ?_) ?_
    | split

theorem execCreditGrant_keeps : ∀ q z x0 x1 x2 s, Is q z s → IsO q z (execCreditGrant x0 x1 x2 s) := by
  intro q z x0 x1 x2 s hs
  unfold execCreditGrant
  conv => arg 3; zeta
  repeat'
    first
    | with_reducible assumption
    | (simp -zeta only [↓is_mk, ↓isO_next, ↓State.ctlErr_keeps, ↓State.hubLeave_keeps, ↓State.importWaiting_keeps, ↓State.injectWaiting_keeps, ↓State.setCredit_keeps, ↓State.stallCheck_keeps, ↓State.takeCtl_keeps, ↓State.takeGrant_keeps]; try change Is q z _)
    | (with_reducible refine is_ite ?_ ?_; rotate_left; intro h; try simp -zeta only [↓is_mk, ↓isO_next, ↓State.ctlErr_keeps, ↓State.hubLeave_keeps, ↓State.importWaiting_keeps, ↓State.injectWaiting_keeps, ↓State.setCredit_keeps, ↓State.stallCheck_keeps, ↓State.takeCtl_keeps, ↓State.takeGrant_keeps] at h)
    | (with_reducible refine isO_ite ?_ ?_)
    | (split <;> try (rename_i h; refine is_step (is_snd (q := q) (z := z) h ?_) (fun hs => ?_); rotate_left; clear h))
    | split

theorem execHostInject_keeps : ∀ q z x0 x1 x2 s, Is q z s → IsO q z (execHostInject x0 x1 x2 s) := by
  intro q z x0 x1 x2 s hs
  unfold execHostInject
  conv => arg 3; zeta
  repeat'
    first
    | with_reducible assumption
    | (simp -zeta only [↓is_mk, ↓isO_next, ↓State.askCredit_keeps, ↓State.await_keeps, ↓State.hostCmd_keeps, ↓State.inject_keeps, ↓State.injectWaiting_keeps]; try change Is q z _)
    | refine State.hostCmd_keeps (fun l s hs => ?_) ?_
    | (with_reducible refine is_ite ?_ ?_; rotate_left; intro h; try simp -zeta only [↓is_mk, ↓isO_next, ↓State.askCredit_keeps, ↓State.await_keeps, ↓State.hostCmd_keeps, ↓State.inject_keeps, ↓State.injectWaiting_keeps] at h)
    | (with_reducible refine isO_ite ?_ ?_)
    | split

theorem State.writePart_keeps : ∀ s x1, Is q z (State.writePart s x1) ↔ Is q z s := by
  intro s x1; refine is_iff fun q z hs => ?_
  unfold State.writePart
  conv => arg 3; zeta
  repeat'
    first
    | with_reducible assumption
    | (simp -zeta only [↓is_mk, ↓State.keepCrc_keeps, ↓State.modCell_keeps, ↓State.recordCrc_keeps]; try change Is q z _)
    | with_reducible refine is_foldl (fun s b hs => ?_) ?_
    | (split <;> try (rename_i h; refine is_step (is_snd (q := q) (z := z) h ?_) (fun hs => ?_); rotate_left; clear h))
    | split

theorem execLoadGraph_keeps : ∀ q z x0 x1 x2 x3 s, Is q z s → IsO q z (execLoadGraph x0 x1 x2 x3 s) := by
  intro q z x0 x1 x2 x3 s hs
  unfold execLoadGraph
  conv => arg 3; zeta
  repeat'
    first
    | with_reducible assumption
    | (simp -zeta only [↓is_mk, ↓isO_next, ↓State.complete_keeps, ↓State.finish_keeps, ↓State.hostCmd_keeps, ↓State.leaveRest_keeps, ↓State.modCellar_keeps, ↓State.modReeve_keeps, ↓State.writePart_keeps]; try change Is q z _)
    | refine State.hostCmd_keeps (fun l s hs => ?_) ?_
    | (with_reducible refine is_ite ?_ ?_; rotate_left; intro h; try simp -zeta only [↓is_mk, ↓isO_next, ↓State.complete_keeps, ↓State.finish_keeps, ↓State.hostCmd_keeps, ↓State.leaveRest_keeps, ↓State.modCellar_keeps, ↓State.modReeve_keeps, ↓State.writePart_keeps] at h)
    | (with_reducible refine isO_ite ?_ ?_)
    | with_reducible refine is_foldl (fun s b hs => ?_) ?_
    | split

theorem State.named_keeps : ∀ s x1, Is q z (State.named s x1) ↔ Is q z s := by
  intro s x1; refine is_iff fun q z hs => ?_
  unfold State.named
  conv => arg 3; zeta
  repeat'
    first
    | with_reducible assumption
    | (simp -zeta only [↓is_mk, ↓State.modCtx_keeps]; try change Is q z _)
    | (with_reducible refine is_ite ?_ ?_; rotate_left; intro h; try simp -zeta only [↓is_mk, ↓State.modCtx_keeps] at h)
    | split

theorem State.unnamed_keeps : ∀ s x1, Is q z (State.unnamed s x1) ↔ Is q z s := by
  intro s x1; refine is_iff fun q z hs => ?_
  unfold State.unnamed
  conv => arg 3; zeta
  repeat'
    first
    | with_reducible assumption
    | (simp -zeta only [↓is_mk, ↓State.modCtx_keeps]; try change Is q z _)
    | (with_reducible refine is_ite ?_ ?_; rotate_left; intro h; try simp -zeta only [↓is_mk, ↓State.modCtx_keeps] at h)
    | split

theorem State.unbindGraph_keeps : ∀ s x1, Is q z (State.unbindGraph s x1) ↔ Is q z s := by
  intro s x1; refine is_iff fun q z hs => ?_
  unfold State.unbindGraph
  conv => arg 3; zeta
  repeat'
    first
    | with_reducible assumption
    | (simp -zeta only [↓is_mk, ↓State.unnamed_keeps]; try change Is q z _)
    | with_reducible refine is_foldl (fun s b hs => ?_) ?_

theorem execUnloadGraph_keeps : ∀ q z x0 x1 x2 s, Is q z s → IsO q z (execUnloadGraph x0 x1 x2 s) := by
  intro q z x0 x1 x2 s hs
  unfold execUnloadGraph
  conv => arg 3; zeta
  repeat'
    first
    | with_reducible assumption
    | (simp -zeta only [↓is_mk, ↓isO_next, ↓State.finish_keeps, ↓State.hostCmd_keeps, ↓State.keepCrc_keeps, ↓State.modCell_keeps, ↓State.modCellar_keeps, ↓State.modReeve_keeps, ↓State.named_keeps, ↓State.recordCrc_keeps, ↓State.unbindGraph_keeps]; try change Is q z _)
    | refine State.hostCmd_keeps (fun l s hs => ?_) ?_
    | with_reducible refine is_foldl (fun s b hs => ?_) ?_
    | (split <;> try (rename_i h; refine is_step (is_snd (q := q) (z := z) h ?_) (fun hs => ?_); rotate_left; clear h))
    | split

theorem execGraphEnable_keeps : ∀ q z x0 x1 x2 s, Is q z s → IsO q z (execGraphEnable x0 x1 x2 s) := by
  intro q z x0 x1 x2 s hs
  unfold execGraphEnable
  conv => arg 3; zeta
  repeat'
    first
    | with_reducible assumption
    | (simp -zeta only [↓is_mk, ↓isO_next, ↓State.finish_keeps, ↓State.hostCmd_keeps, ↓State.modCellar_keeps]; try change Is q z _)
    | refine State.hostCmd_keeps (fun l s hs => ?_) ?_

theorem execStartGraph_keeps : ∀ q z x0 x1 x2 s, Is q z s → IsO q z (execStartGraph x0 x1 x2 s) := by
  intro q z x0 x1 x2 s hs
  unfold execStartGraph
  conv => arg 3; zeta
  repeat'
    first
    | with_reducible assumption
    | (simp -zeta only [↓is_mk, ↓isO_next, ↓State.await_keeps, ↓State.hostCmd_keeps, ↓State.modReeve_keeps, ↓State.stallCheck_keeps]; try change Is q z _)
    | refine State.hostCmd_keeps (fun l s hs => ?_) ?_
    | (with_reducible refine is_ite ?_ ?_; rotate_left; intro h; try simp -zeta only [↓is_mk, ↓isO_next, ↓State.await_keeps, ↓State.hostCmd_keeps, ↓State.modReeve_keeps, ↓State.stallCheck_keeps] at h)
    | (with_reducible refine isO_ite ?_ ?_)
    | (split <;> try (rename_i h; refine is_step (is_snd (q := q) (z := z) h ?_) (fun hs => ?_); rotate_left; clear h))
    | split

theorem execStopGraph_keeps : ∀ q z x0 x1 x2 s, Is q z s → IsO q z (execStopGraph x0 x1 x2 s) := by
  intro q z x0 x1 x2 s hs
  unfold execStopGraph
  conv => arg 3; zeta
  repeat'
    first
    | with_reducible assumption
    | (simp -zeta only [↓is_mk, ↓isO_next, ↓State.await_keeps, ↓State.hostCmd_keeps, ↓State.release_keeps]; try change Is q z _)
    | refine State.hostCmd_keeps (fun l s hs => ?_) ?_

theorem execSetGroup_keeps : ∀ q z x0 x1 x2 s, Is q z s → IsO q z (execSetGroup x0 x1 x2 s) := by
  intro q z x0 x1 x2 s hs
  unfold execSetGroup
  conv => arg 3; zeta
  repeat'
    first
    | with_reducible assumption
    | (simp -zeta only [↓is_mk, ↓isO_next, ↓State.finish_keeps, ↓State.hostCmd_keeps, ↓State.modReeve_keeps, ↓State.writePart_keeps]; try change Is q z _)
    | refine State.hostCmd_keeps (fun l s hs => ?_) ?_
    | (with_reducible refine is_ite ?_ ?_; rotate_left; intro h; try simp -zeta only [↓is_mk, ↓isO_next, ↓State.finish_keeps, ↓State.hostCmd_keeps, ↓State.modReeve_keeps, ↓State.writePart_keeps] at h)
    | (with_reducible refine isO_ite ?_ ?_)
    | (split <;> try (rename_i h; refine is_step (is_snd (q := q) (z := z) h ?_) (fun hs => ?_); rotate_left; clear h))
    | split

theorem execRegionCreate_keeps : ∀ q z x0 x1 x2 s, Is q z s → IsO q z (execRegionCreate x0 x1 x2 s) := by
  intro q z x0 x1 x2 s hs
  unfold execRegionCreate
  conv => arg 3; zeta
  repeat'
    first
    | with_reducible assumption
    | (simp -zeta only [↓is_mk, ↓isO_next, ↓State.finish_keeps, ↓State.hostCmd_keeps, ↓State.modResp_keeps]; try change Is q z _)
    | refine State.hostCmd_keeps (fun l s hs => ?_) ?_
    | (with_reducible refine is_ite ?_ ?_; rotate_left; intro h; try simp -zeta only [↓is_mk, ↓isO_next, ↓State.finish_keeps, ↓State.hostCmd_keeps, ↓State.modResp_keeps] at h)
    | (with_reducible refine isO_ite ?_ ?_)
    | (split <;> try (rename_i h; refine is_step (is_snd (q := q) (z := z) h ?_) (fun hs => ?_); rotate_left; clear h))
    | split

theorem execRegionFree_keeps : ∀ q z x0 x1 x2 s, Is q z s → IsO q z (execRegionFree x0 x1 x2 s) := by
  intro q z x0 x1 x2 s hs
  unfold execRegionFree
  conv => arg 3; zeta
  repeat'
    first
    | with_reducible assumption
    | (simp -zeta only [↓is_mk, ↓isO_next, ↓State.finish_keeps, ↓State.hostCmd_keeps, ↓State.modResp_keeps]; try change Is q z _)
    | refine State.hostCmd_keeps (fun l s hs => ?_) ?_
    | (split <;> try (rename_i h; refine is_step (is_snd (q := q) (z := z) h ?_) (fun hs => ?_); rotate_left; clear h))
    | split

theorem execRegionCopy_keeps : ∀ q z x0 x1 x2 s, Is q z s → IsO q z (execRegionCopy x0 x1 x2 s) := by
  intro q z x0 x1 x2 s hs
  unfold execRegionCopy
  conv => arg 3; zeta
  repeat'
    first
    | with_reducible assumption
    | (simp -zeta only [↓is_mk, ↓isO_next, ↓State.finish_keeps, ↓State.hostCmd_keeps, ↓State.modResp_keeps]; try change Is q z _)
    | refine State.hostCmd_keeps (fun l s hs => ?_) ?_
    | (with_reducible refine is_ite ?_ ?_; rotate_left; intro h; try simp -zeta only [↓is_mk, ↓isO_next, ↓State.finish_keeps, ↓State.hostCmd_keeps, ↓State.modResp_keeps] at h)
    | (with_reducible refine isO_ite ?_ ?_)
    | split

theorem execReeveConfig_keeps : ∀ q z x0 x1 x2 s, Is q z s → IsO q z (execReeveConfig x0 x1 x2 s) := by
  intro q z x0 x1 x2 s hs
  unfold execReeveConfig
  conv => arg 3; zeta
  repeat'
    first
    | with_reducible assumption
    | (simp -zeta only [↓is_mk, ↓isO_next, ↓State.finish_keeps, ↓State.hostCmd_keeps, ↓State.modCellar_keeps, ↓State.modReeve_keeps]; try change Is q z _)
    | refine State.hostCmd_keeps (fun l s hs => ?_) ?_
    | (with_reducible refine is_ite ?_ ?_; rotate_left; intro h; try simp -zeta only [↓is_mk, ↓isO_next, ↓State.finish_keeps, ↓State.hostCmd_keeps, ↓State.modCellar_keeps, ↓State.modReeve_keeps] at h)
    | (with_reducible refine isO_ite ?_ ?_)
    | split

theorem execCellarConfig_keeps : ∀ q z x0 x1 x2 s, Is q z s → IsO q z (execCellarConfig x0 x1 x2 s) := by
  intro q z x0 x1 x2 s hs
  unfold execCellarConfig
  conv => arg 3; zeta
  repeat'
    first
    | with_reducible assumption
    | (simp -zeta only [↓is_mk, ↓isO_next, ↓State.finish_keeps, ↓State.hostCmd_keeps, ↓State.layCellar_keeps, ↓State.modCellar_keeps, ↓State.stallCheck_keeps]; try change Is q z _)
    | refine State.hostCmd_keeps (fun l s hs => ?_) ?_
    | (with_reducible refine is_ite ?_ ?_; rotate_left; intro h; try simp -zeta only [↓is_mk, ↓isO_next, ↓State.finish_keeps, ↓State.hostCmd_keeps, ↓State.layCellar_keeps, ↓State.modCellar_keeps, ↓State.stallCheck_keeps] at h)
    | (with_reducible refine isO_ite ?_ ?_)
    | split

theorem execSlotAlloc_keeps : ∀ q z x0 x1 x2 s, Is q z s → IsO q z (execSlotAlloc x0 x1 x2 s) := by
  intro q z x0 x1 x2 s hs
  unfold execSlotAlloc
  conv => arg 3; zeta
  repeat'
    first
    | with_reducible assumption
    | (simp -zeta only [↓is_mk, ↓isO_next, ↓State.finish_keeps, ↓State.hostCmd_keeps, ↓State.modFabric_keeps]; try change Is q z _)
    | refine State.hostCmd_keeps (fun l s hs => ?_) ?_
    | (with_reducible refine is_ite ?_ ?_; rotate_left; intro h; try simp -zeta only [↓is_mk, ↓isO_next, ↓State.finish_keeps, ↓State.hostCmd_keeps, ↓State.modFabric_keeps] at h)
    | (with_reducible refine isO_ite ?_ ?_)
    | (split <;> try (rename_i h; refine is_step (is_snd (q := q) (z := z) h ?_) (fun hs => ?_); rotate_left; clear h))
    | split

end Sys2Proof.Machine
end

