-- ==== Sys2Proof/Laws/KeepEpoch.lean ====
section
/-! SUPPORT. No operation of Epoch touches the command queue, and none but the burning of fuses
touches the fuses. -/

set_option linter.all false

namespace Sys2Proof.Machine

variable {q : List Instr} {z : Fuses}

theorem State.modWriter_keeps : ∀ x0 s, Is q z (State.modWriter x0 s) ↔ Is q z s := by
  intro x0 s; refine is_iff fun q z hs => ?_
  unfold State.modWriter
  conv => arg 3; zeta
  repeat'
    first
    | with_reducible assumption
    | (simp -zeta only [↓is_mk]; try change Is q z _)

theorem State.modIngest_keeps : ∀ x0 s, Is q z (State.modIngest x0 s) ↔ Is q z s := by
  intro x0 s; refine is_iff fun q z hs => ?_
  unfold State.modIngest
  conv => arg 3; zeta
  repeat'
    first
    | with_reducible assumption
    | (simp -zeta only [↓is_mk]; try change Is q z _)

theorem State.modMember_keeps : ∀ s x1 x2 x3 x4, Is q z (State.modMember s x1 x2 x3 x4) ↔ Is q z s := by
  intro s x1 x2 x3 x4; refine is_iff fun q z hs => ?_
  unfold State.modMember
  conv => arg 3; zeta
  repeat'
    first
    | with_reducible assumption
    | (simp -zeta only [↓is_mk, ↓State.modWriter_keeps]; try change Is q z _)
    | (with_reducible refine is_ite ?_ ?_; rotate_left; intro h; try simp -zeta only [↓is_mk, ↓State.modWriter_keeps] at h)
    | split

theorem State.addGap_keeps : ∀ s x1, Is q z (State.addGap s x1) ↔ Is q z s := by
  intro s x1; refine is_iff fun q z hs => ?_
  unfold State.addGap
  conv => arg 3; zeta
  repeat'
    first
    | with_reducible assumption
    | (simp -zeta only [↓is_mk, ↓State.modWriter_keeps]; try change Is q z _)

theorem State.ownGap_keeps : ∀ s x1 x2 x3 x4 x5, Is q z (State.ownGap s x1 x2 x3 x4 x5) ↔ Is q z s := by
  intro s x1 x2 x3 x4 x5; refine is_iff fun q z hs => ?_
  unfold State.ownGap
  conv => arg 3; zeta
  repeat'
    first
    | with_reducible assumption
    | (simp -zeta only [↓is_mk, ↓State.addGap_keeps]; try change Is q z _)

theorem State.addEntry_keeps : ∀ s x1 x2 x3 x4 x5, Is q z (State.addEntry s x1 x2 x3 x4 x5) ↔ Is q z s := by
  intro s x1 x2 x3 x4 x5; refine is_iff fun q z hs => ?_
  unfold State.addEntry
  conv => arg 3; zeta
  repeat'
    first
    | with_reducible assumption
    | (simp -zeta only [↓is_mk, ↓State.modWriter_keeps]; try change Is q z _)

theorem State.sweepParity_keeps : ∀ x0 x1 x2 x3 x4 s, Is q z (State.sweepParity x0 x1 x2 x3 x4 s) ↔ Is q z s := by
  intro x0 x1 x2 x3 x4 s; refine is_iff fun q z hs => ?_
  induction x4 generalizing s with
  | nil => exact hs
  | cons a l ih =>
    obtain ⟨k, e⟩ := a
    simp only [State.sweepParity]
    refine ih _ ?_
    split
    · exact hs
    · split
      · simpa only [↓State.modPal_keeps] using hs
      · simpa only [↓State.palBump_keeps, ↓State.discardEntry_keeps] using hs

theorem State.clearParity_keeps : ∀ s x1 x2 x3, Is q z (State.clearParity s x1 x2 x3) ↔ Is q z s := by
  intro s x1 x2 x3; refine is_iff fun q z hs => ?_
  unfold State.clearParity
  conv => arg 3; zeta
  repeat'
    first
    | with_reducible assumption
    | (simp -zeta only [↓is_mk, ↓State.modCell_keeps, ↓State.purgeParity_keeps, ↓State.sweepParity_keeps]; try change Is q z _)
    | (with_reducible refine is_ite ?_ ?_; rotate_left; intro h; try simp -zeta only [↓is_mk, ↓State.modCell_keeps, ↓State.purgeParity_keeps, ↓State.sweepParity_keeps] at h)
    | with_reducible refine is_foldl (fun s b hs => ?_) ?_
    | split

theorem State.abandon_keeps : ∀ s x1 x2 x3, Is q z (State.abandon s x1 x2 x3) ↔ Is q z s := by
  intro s x1 x2 x3; refine is_iff fun q z hs => ?_
  unfold State.abandon
  conv => arg 3; zeta
  repeat'
    first
    | with_reducible assumption
    | (simp -zeta only [↓is_mk, ↓State.addEntry_keeps, ↓State.clearParity_keeps, ↓State.modMember_keeps, ↓State.ownGap_keeps, ↓State.varnBump_keeps]; try change Is q z _)
    | (split <;> try (rename_i h; refine is_step (is_snd (q := q) (z := z) h ?_) (fun hs => ?_); rotate_left; clear h))
    | split

theorem State.overtake_keeps : ∀ s x1 x2 x3, Is q z (State.overtake s x1 x2 x3) ↔ Is q z s := by
  intro s x1 x2 x3; refine is_iff fun q z hs => ?_
  unfold State.overtake
  conv => arg 3; zeta
  repeat'
    first
    | with_reducible assumption
    | (simp -zeta only [↓is_mk, ↓State.abandon_keeps]; try change Is q z _)
    | (with_reducible refine is_ite ?_ ?_; rotate_left; intro h; try simp -zeta only [↓is_mk, ↓State.abandon_keeps] at h)
    | split

theorem State.modPort_keeps : ∀ x0 x1 s, Is q z (State.modPort x0 x1 s) ↔ Is q z s := by
  intro x0 x1 s; refine is_iff fun q z hs => ?_
  unfold State.modPort
  conv => arg 3; zeta
  repeat'
    first
    | with_reducible assumption
    | (simp -zeta only [↓is_mk, ↓State.modIngest_keeps]; try change Is q z _)

theorem State.modBinding_keeps : ∀ x0 x1 s, Is q z (State.modBinding x0 x1 s) ↔ Is q z s := by
  intro x0 x1 s; refine is_iff fun q z hs => ?_
  unfold State.modBinding
  conv => arg 3; zeta
  repeat'
    first
    | with_reducible assumption
    | (simp -zeta only [↓is_mk, ↓State.modIngest_keeps]; try change Is q z _)

theorem State.askTwins_keeps : ∀ s x1 x2 x3, Is q z (State.askTwins s x1 x2 x3) ↔ Is q z s := by
  intro s x1 x2 x3; refine is_iff fun q z hs => ?_
  unfold State.askTwins
  conv => arg 3; zeta
  repeat'
    first
    | with_reducible assumption
    | (simp -zeta only [↓is_mk, ↓State.askCredit_keeps]; try change Is q z _)
    | (with_reducible refine is_ite ?_ ?_; rotate_left; intro h; try simp -zeta only [↓is_mk, ↓State.askCredit_keeps] at h)
    | with_reducible refine is_foldl (fun s b hs => ?_) ?_
    | split

theorem State.queueBlock_keeps : ∀ s x1, Is q z (State.queueBlock s x1) ↔ Is q z s := by
  intro s x1; refine is_iff fun q z hs => ?_
  unfold State.queueBlock
  conv => arg 3; zeta
  repeat'
    first
    | with_reducible assumption
    | (simp -zeta only [↓is_mk, ↓State.askTwins_keeps, ↓State.modBinding_keeps, ↓State.modIngest_keeps, ↓State.modPort_keeps, ↓State.reeveBump_keeps]; try change Is q z _)
    | (with_reducible refine is_ite ?_ ?_; rotate_left; intro h; try simp -zeta only [↓is_mk, ↓State.askTwins_keeps, ↓State.modBinding_keeps, ↓State.modIngest_keeps, ↓State.modPort_keeps, ↓State.reeveBump_keeps] at h)
    | split

theorem State.releaseHold_keeps : ∀ s, Is q z (State.releaseHold s) ↔ Is q z s := by
  intro s; refine is_iff fun q z hs => ?_
  unfold State.releaseHold
  conv => arg 3; zeta
  repeat'
    first
    | with_reducible assumption
    | (simp -zeta only [↓is_mk, ↓State.modIngest_keeps, ↓State.queueBlock_keeps]; try change Is q z _)
    | with_reducible refine is_foldl (fun s b hs => ?_) ?_

theorem State.dropBlock_keeps : ∀ s x1 x2, Is q z (State.dropBlock s x1 x2) ↔ Is q z s := by
  intro s x1 x2; refine is_iff fun q z hs => ?_
  unfold State.dropBlock
  conv => arg 3; zeta
  repeat'
    first
    | with_reducible assumption
    | (simp -zeta only [↓is_mk, ↓State.bindBump_keeps, ↓State.gapNotice_keeps]; try change Is q z _)

theorem State.dropEpoch_keeps : ∀ s x1 x2 x3 x4, Is q z (State.dropEpoch s x1 x2 x3 x4) ↔ Is q z s := by
  intro s x1 x2 x3 x4; refine is_iff fun q z hs => ?_
  unfold State.dropEpoch
  conv => arg 3; zeta
  repeat'
    first
    | with_reducible assumption
    | (simp -zeta only [↓is_mk, ↓State.dropBlock_keeps, ↓State.gapNotice_keeps, ↓State.modIngest_keeps]; try change Is q z _)
    | (with_reducible refine is_ite ?_ ?_; rotate_left; intro h; try simp -zeta only [↓is_mk, ↓State.dropBlock_keeps, ↓State.gapNotice_keeps, ↓State.modIngest_keeps] at h)
    | with_reducible refine is_foldl (fun s b hs => ?_) ?_
    | split

theorem State.admitBlock_keeps : ∀ s x1, Is q z (State.admitBlock s x1) ↔ Is q z s := by
  intro s x1; refine is_iff fun q z hs => ?_
  unfold State.admitBlock
  conv => arg 3; zeta
  repeat'
    first
    | with_reducible assumption
    | (simp -zeta only [↓is_mk, ↓State.dropBlock_keeps, ↓State.dropEpoch_keeps, ↓State.modIngest_keeps, ↓State.queueBlock_keeps]; try change Is q z _)
    | (with_reducible refine is_ite ?_ ?_; rotate_left; intro h; try simp -zeta only [↓is_mk, ↓State.dropBlock_keeps, ↓State.dropEpoch_keeps, ↓State.modIngest_keeps, ↓State.queueBlock_keeps] at h)
    | (split <;> try (rename_i h; refine is_step (is_snd (q := q) (z := z) h ?_) (fun hs => ?_); rotate_left; clear h))
    | split

end Sys2Proof.Machine
end

