-- ==== Sys2Proof/Laws/KeepEvin.lean ====
section
/-! SUPPORT. No operation of Evin touches the command queue, and none but the burning of fuses
touches the fuses. -/

set_option linter.all false

namespace Sys2Proof.Machine

variable {q : List Instr} {z : Fuses}

theorem State.modEvin_keeps : ∀ x0 x1 s, Is q z (State.modEvin x0 x1 s) ↔ Is q z s := by
  intro x0 x1 s; refine is_iff fun q z hs => ?_
  unfold State.modEvin
  conv => arg 3; zeta
  repeat'
    first
    | with_reducible assumption
    | (simp -zeta only [↓is_mk, ↓State.modIngest_keeps]; try change Is q z _)

theorem State.indexMark_keeps : ∀ s x1, Is q z (State.indexMark s x1) ↔ Is q z s := by
  intro s x1; refine is_iff fun q z hs => ?_
  unfold State.indexMark
  conv => arg 3; zeta
  repeat'
    first
    | with_reducible assumption
    | (simp -zeta only [↓is_mk, ↓State.evBump_keeps, ↓State.modEvin_keeps, ↓State.postEvent_keeps]; try change Is q z _)
    | (with_reducible refine is_ite ?_ ?_; rotate_left; intro h; try simp -zeta only [↓is_mk, ↓State.evBump_keeps, ↓State.modEvin_keeps, ↓State.postEvent_keeps] at h)
    | (split <;> try (rename_i h; refine is_step (is_snd (q := q) (z := z) h ?_) (fun hs => ?_); rotate_left; clear h))
    | split

theorem State.edgeEvent_keeps : ∀ s x1 x2 x3, Is q z (State.edgeEvent s x1 x2 x3) ↔ Is q z s := by
  intro s x1 x2 x3; refine is_iff fun q z hs => ?_
  unfold State.edgeEvent
  conv => arg 3; zeta
  repeat'
    first
    | with_reducible assumption
    | (simp -zeta only [↓is_mk, ↓State.postEventAt_keeps]; try change Is q z _)

theorem State.eventEdge_keeps : ∀ s x1 x2, Is q z (State.eventEdge s x1 x2) ↔ Is q z s := by
  intro s x1 x2; refine is_iff fun q z hs => ?_
  unfold State.eventEdge
  conv => arg 3; zeta
  repeat'
    first
    | with_reducible assumption
    | (simp -zeta only [↓is_mk, ↓State.edgeEvent_keeps, ↓State.modEvin_keeps]; try change Is q z _)
    | (split <;> try (rename_i h; refine is_step (is_snd (q := q) (z := z) h ?_) (fun hs => ?_); rotate_left; clear h))
    | split

theorem State.filtered_keeps : ∀ s x1 x2, Is q z (State.filtered s x1 x2) ↔ Is q z s := by
  intro s x1 x2; refine is_iff fun q z hs => ?_
  unfold State.filtered
  conv => arg 3; zeta
  repeat'
    first
    | with_reducible assumption
    | (simp -zeta only [↓is_mk, ↓State.modEvin_keeps, ↓State.reach_keeps]; try change Is q z _)
    | (with_reducible refine is_ite ?_ ?_; rotate_left; intro h; try simp -zeta only [↓is_mk, ↓State.modEvin_keeps, ↓State.reach_keeps] at h)
    | split

theorem execEvinEdge_keeps : ∀ q z x0 x1 x2 s, Is q z s → IsO q z (execEvinEdge x0 x1 x2 s) := by
  intro q z x0 x1 x2 s hs
  unfold execEvinEdge
  conv => arg 3; zeta
  repeat'
    first
    | with_reducible assumption
    | (simp -zeta only [↓is_mk, ↓isO_next, ↓State.evBump_keeps, ↓State.eventEdge_keeps, ↓State.filtered_keeps, ↓State.indexMark_keeps, ↓State.modEvin_keeps, ↓State.named_keeps, ↓State.postEvent_keeps]; try change Is q z _)
    | (with_reducible refine is_ite ?_ ?_; rotate_left; intro h; try simp -zeta only [↓is_mk, ↓isO_next, ↓State.evBump_keeps, ↓State.eventEdge_keeps, ↓State.filtered_keeps, ↓State.indexMark_keeps, ↓State.modEvin_keeps, ↓State.named_keeps, ↓State.postEvent_keeps] at h)
    | (with_reducible refine isO_ite ?_ ?_)
    | with_reducible refine is_foldl (fun s b hs => ?_) ?_
    | (split <;> try (rename_i h; refine is_step (is_snd (q := q) (z := z) h ?_) (fun hs => ?_); rotate_left; clear h))
    | split

theorem execEvHoldoffExpiry_keeps : ∀ q z x0 s, Is q z s → IsO q z (execEvHoldoffExpiry x0 s) := by
  intro q z x0 s hs
  unfold execEvHoldoffExpiry
  conv => arg 3; zeta
  repeat'
    first
    | with_reducible assumption
    | (simp -zeta only [↓is_mk, ↓isO_next, ↓State.edgeEvent_keeps, ↓State.modEvin_keeps, ↓State.reach_keeps]; try change Is q z _)
    | (with_reducible refine is_ite ?_ ?_; rotate_left; intro h; try simp -zeta only [↓is_mk, ↓isO_next, ↓State.edgeEvent_keeps, ↓State.modEvin_keeps, ↓State.reach_keeps] at h)
    | (with_reducible refine isO_ite ?_ ?_)
    | (split <;> try (rename_i h; refine is_step (is_snd (q := q) (z := z) h ?_) (fun hs => ?_); rotate_left; clear h))
    | split

theorem State.judgeRate_keeps : ∀ s x1, Is q z (State.judgeRate s x1) ↔ Is q z s := by
  intro s x1; refine is_iff fun q z hs => ?_
  unfold State.judgeRate
  conv => arg 3; zeta
  repeat'
    first
    | with_reducible assumption
    | (simp -zeta only [↓is_mk, ↓State.modEvin_keeps, ↓State.postEvent_keeps]; try change Is q z _)
    | (with_reducible refine is_ite ?_ ?_; rotate_left; intro h; try simp -zeta only [↓is_mk, ↓State.modEvin_keeps, ↓State.postEvent_keeps] at h)
    | split

theorem execRateWindowEnd_keeps : ∀ q z s, Is q z s → IsO q z (execRateWindowEnd s) := by
  intro q z s hs
  unfold execRateWindowEnd
  conv => arg 3; zeta
  repeat'
    first
    | with_reducible assumption
    | (simp -zeta only [↓is_mk, ↓isO_next, ↓State.judgeRate_keeps, ↓State.reachT64_keeps]; try change Is q z _)
    | with_reducible refine is_foldl (fun s b hs => ?_) ?_

theorem execStuckTimeout_keeps : ∀ q z x0 s, Is q z s → IsO q z (execStuckTimeout x0 s) := by
  intro q z x0 s hs
  unfold execStuckTimeout
  conv => arg 3; zeta
  repeat'
    first
    | with_reducible assumption
    | (simp -zeta only [↓is_mk, ↓isO_next, ↓State.evBump_keeps, ↓State.modEvin_keeps, ↓State.postEventAt_keeps, ↓State.reach_keeps]; try change Is q z _)
    | (with_reducible refine is_ite ?_ ?_; rotate_left; intro h; try simp -zeta only [↓is_mk, ↓isO_next, ↓State.evBump_keeps, ↓State.modEvin_keeps, ↓State.postEventAt_keeps, ↓State.reach_keeps] at h)
    | (with_reducible refine isO_ite ?_ ?_)
    | split

theorem execEventInputConfig_keeps : ∀ q z x0 x1 x2 s, Is q z s → IsO q z (execEventInputConfig x0 x1 x2 s) := by
  intro q z x0 x1 x2 s hs
  unfold execEventInputConfig
  conv => arg 3; zeta
  repeat'
    first
    | with_reducible assumption
    | (simp -zeta only [↓is_mk, ↓isO_next, ↓State.finish_keeps, ↓State.hostCmd_keeps, ↓State.modEvin_keeps, ↓State.named_keeps]; try change Is q z _)
    | refine State.hostCmd_keeps (fun l s hs => ?_) ?_
    | (with_reducible refine is_ite ?_ ?_; rotate_left; intro h; try simp -zeta only [↓is_mk, ↓isO_next, ↓State.finish_keeps, ↓State.hostCmd_keeps, ↓State.modEvin_keeps, ↓State.named_keeps] at h)
    | (with_reducible refine isO_ite ?_ ?_)
    | (split <;> try (rename_i h; refine is_step (is_snd (q := q) (z := z) h ?_) (fun hs => ?_); rotate_left; clear h))
    | split

end Sys2Proof.Machine
end

