-- ==== Sys2Proof/Laws/KeepIngest.lean ====
section
/-! SUPPORT. No operation of Ingest touches the command queue, and none but the burning of fuses
touches the fuses. -/

set_option linter.all false

namespace Sys2Proof.Machine

variable {q : List Instr} {z : Fuses}

theorem State.portOnce_keeps : ∀ s x1 x2 x3, Is q z (State.portOnce s x1 x2 x3) ↔ Is q z s := by
  intro s x1 x2 x3; refine is_iff fun q z hs => ?_
  unfold State.portOnce
  conv => arg 3; zeta
  repeat'
    first
    | with_reducible assumption
    | (simp -zeta only [↓is_mk, ↓State.modPort_keeps, ↓State.postEvent_keeps]; try change Is q z _)
    | (with_reducible refine is_ite ?_ ?_; rotate_left; intro h; try simp -zeta only [↓is_mk, ↓State.modPort_keeps, ↓State.postEvent_keeps] at h)
    | split

theorem State.snapshot_keeps : ∀ s x1, Is q z (State.snapshot s x1) ↔ Is q z s := by
  intro s x1; refine is_iff fun q z hs => ?_
  unfold State.snapshot
  conv => arg 3; zeta
  repeat'
    first
    | with_reducible assumption
    | (simp -zeta only [↓is_mk, ↓State.modPort_keeps]; try change Is q z _)
    | (with_reducible refine is_ite ?_ ?_; rotate_left; intro h; try simp -zeta only [↓is_mk, ↓State.modPort_keeps] at h)
    | split

theorem State.portDown_keeps : ∀ s x1, Is q z (State.portDown s x1) ↔ Is q z s := by
  intro s x1; refine is_iff fun q z hs => ?_
  unfold State.portDown
  conv => arg 3; zeta
  repeat'
    first
    | with_reducible assumption
    | (simp -zeta only [↓is_mk, ↓State.modPort_keeps, ↓State.portBump_keeps, ↓State.postEvent_keeps]; try change Is q z _)

theorem execSensorLinkUp_keeps : ∀ q z x0 s, Is q z s → IsO q z (execSensorLinkUp x0 s) := by
  intro q z x0 s hs
  unfold execSensorLinkUp
  conv => arg 3; zeta
  repeat'
    first
    | with_reducible assumption
    | (simp -zeta only [↓is_mk, ↓isO_next, ↓State.elapse_keeps, ↓State.modPort_keeps, ↓State.postEvent_keeps]; try change Is q z _)
    | (with_reducible refine is_ite ?_ ?_; rotate_left; intro h; try simp -zeta only [↓is_mk, ↓isO_next, ↓State.elapse_keeps, ↓State.modPort_keeps, ↓State.postEvent_keeps] at h)
    | (with_reducible refine isO_ite ?_ ?_)
    | split

theorem execSensorLinkDown_keeps : ∀ q z x0 s, Is q z s → IsO q z (execSensorLinkDown x0 s) := by
  intro q z x0 s hs
  unfold execSensorLinkDown
  conv => arg 3; zeta
  repeat'
    first
    | with_reducible assumption
    | (simp -zeta only [↓is_mk, ↓isO_next, ↓State.modPort_keeps, ↓State.portDown_keeps]; try change Is q z _)
    | (with_reducible refine is_ite ?_ ?_; rotate_left; intro h; try simp -zeta only [↓is_mk, ↓isO_next, ↓State.modPort_keeps, ↓State.portDown_keeps] at h)
    | (with_reducible refine isO_ite ?_ ?_)
    | split

theorem execSensorPortConfig_keeps : ∀ q z x0 x1 x2 s, Is q z s → IsO q z (execSensorPortConfig x0 x1 x2 s) := by
  intro q z x0 x1 x2 s hs
  unfold execSensorPortConfig
  conv => arg 3; zeta
  repeat'
    first
    | with_reducible assumption
    | (simp -zeta only [↓is_mk, ↓isO_next, ↓State.finish_keeps, ↓State.hostCmd_keeps, ↓State.modPort_keeps, ↓State.portDown_keeps, ↓State.snapshot_keeps]; try change Is q z _)
    | refine State.hostCmd_keeps (fun l s hs => ?_) ?_
    | (split <;> try (rename_i h; refine is_step (is_snd (q := q) (z := z) h ?_) (fun hs => ?_); rotate_left; clear h))
    | split

theorem State.dropFrame_keeps : ∀ s x1 x2, Is q z (State.dropFrame s x1 x2) ↔ Is q z s := by
  intro s x1 x2; refine is_iff fun q z hs => ?_
  unfold State.dropFrame
  conv => arg 3; zeta
  repeat'
    first
    | with_reducible assumption
    | (simp -zeta only [↓is_mk, ↓State.modPort_keeps, ↓State.portBump_keeps, ↓State.portOnce_keeps]; try change Is q z _)
    | (with_reducible refine is_ite ?_ ?_; rotate_left; intro h; try simp -zeta only [↓is_mk, ↓State.modPort_keeps, ↓State.portBump_keeps, ↓State.portOnce_keeps] at h)
    | split

theorem State.queueFrame_keeps : ∀ s x1 x2 x3, Is q z (State.queueFrame s x1 x2 x3) ↔ Is q z s := by
  intro s x1 x2 x3; refine is_iff fun q z hs => ?_
  unfold State.queueFrame
  conv => arg 3; zeta
  repeat'
    first
    | with_reducible assumption
    | (simp -zeta only [↓is_mk, ↓State.modIngest_keeps, ↓State.portBump_keeps, ↓State.postEvent_keeps]; try change Is q z _)
    | (with_reducible refine is_ite ?_ ?_; rotate_left; intro h; try simp -zeta only [↓is_mk, ↓State.modIngest_keeps, ↓State.portBump_keeps, ↓State.postEvent_keeps] at h)
    | split

theorem State.newBlock_keeps : ∀ s x1 x2 x3 x4, Is q z (State.newBlock s x1 x2 x3 x4) ↔ Is q z s := by
  intro s x1 x2 x3 x4; refine is_iff fun q z hs => ?_
  unfold State.newBlock
  conv => arg 3; zeta
  repeat'
    first
    | with_reducible assumption
    | (simp -zeta only [↓is_mk, ↓State.admitBlock_keeps, ↓State.bindBump_keeps, ↓State.gapNotice_keeps, ↓State.overtake_keeps, ↓State.portBump_keeps, ↓State.portOnce_keeps]; try change Is q z _)
    | (with_reducible refine is_ite ?_ ?_; rotate_left; intro h; try simp -zeta only [↓is_mk, ↓State.admitBlock_keeps, ↓State.bindBump_keeps, ↓State.gapNotice_keeps, ↓State.overtake_keeps, ↓State.portBump_keeps, ↓State.portOnce_keeps] at h)
    | (split <;> try (rename_i h; refine is_step (is_snd (q := q) (z := z) h ?_) (fun hs => ?_); rotate_left; clear h))
    | split

theorem State.breakBlock_keeps : ∀ s x1, Is q z (State.breakBlock s x1) ↔ Is q z s := by
  intro s x1; refine is_iff fun q z hs => ?_
  unfold State.breakBlock
  conv => arg 3; zeta
  repeat'
    first
    | with_reducible assumption
    | (simp -zeta only [↓is_mk, ↓State.bindBump_keeps, ↓State.gapNotice_keeps, ↓State.modBinding_keeps, ↓State.portOnce_keeps]; try change Is q z _)
    | (split <;> try (rename_i h; refine is_step (is_snd (q := q) (z := z) h ?_) (fun hs => ?_); rotate_left; clear h))
    | split

theorem State.takeRec_keeps : ∀ s x1 x2 x3, Is q z (State.takeRec s x1 x2 x3) ↔ Is q z s := by
  intro s x1 x2 x3; refine is_iff fun q z hs => ?_
  unfold State.takeRec
  conv => arg 3; zeta
  repeat'
    first
    | with_reducible assumption
    | (simp -zeta only [↓is_mk, ↓State.bindBump_keeps, ↓State.breakBlock_keeps, ↓State.modBinding_keeps, ↓State.newBlock_keeps, ↓State.portBump_keeps]; try change Is q z _)
    | (with_reducible refine is_ite ?_ ?_; rotate_left; intro h; try simp -zeta only [↓is_mk, ↓State.bindBump_keeps, ↓State.breakBlock_keeps, ↓State.modBinding_keeps, ↓State.newBlock_keeps, ↓State.portBump_keeps] at h)
    | with_reducible refine is_foldl (fun s b hs => ?_) ?_
    | (split <;> try (rename_i h; refine is_step (is_snd (q := q) (z := z) h ?_) (fun hs => ?_); rotate_left; clear h))
    | split

theorem State.takeSeq_keeps (s : State) (p : Nat) (f : SubFrame) (hs : Is q z s) :
    Is q z (s.takeSeq p f).1 := by
  unfold State.takeSeq
  dsimp only
  repeat' split
  all_goals simpa only [↓State.portBump_keeps, ↓State.modPort_keeps] using hs

theorem State.takeRecs_keeps : ∀ x0 x1 x2 x3 s, Is q z (State.takeRecs x0 x1 x2 x3 s) ↔ Is q z s := by
  intro x0 x1 x2 x3 s; refine is_iff fun q z hs => ?_
  induction x2 generalizing x3 s with
  | nil => exact hs
  | cons a l ih =>
    cases a with
    | none => exact ih _ _ (by simpa only [↓State.portBump_keeps] using hs)
    | some r => exact ih _ _ (by simpa only [↓State.takeRec_keeps] using hs)

theorem State.takeFrame_keeps : ∀ s x1 x2 x3, Is q z (State.takeFrame s x1 x2 x3) ↔ Is q z s := by
  intro s x1 x2 x3; refine is_iff fun q z hs => ?_
  unfold State.takeFrame
  dsimp only
  split
  · simpa only [↓State.dropFrame_keeps] using hs
  · have h : Is q z ((s.portBump x1 .rxFrames).portBump x1 .rxBytes x2.length) := by
      simpa only [↓State.portBump_keeps] using hs
    split
    · simpa only [↓State.dropFrame_keeps] using h
    · simpa only [↓State.queueFrame_keeps] using h
    · refine is_foldl (fun s f hs => ?_) h
      have hq := State.takeSeq_keeps s x1 f hs
      refine is_ite hq fun _ => ?_
      simpa only [↓State.takeRecs_keeps] using hq

theorem State.putBinds_keeps : ∀ s x1 x2, Is q z (State.putBinds s x1 x2) ↔ Is q z s := by
  intro s x1 x2; refine is_iff fun q z hs => ?_
  unfold State.putBinds
  conv => arg 3; zeta
  repeat'
    first
    | with_reducible assumption
    | (simp -zeta only [↓is_mk, ↓State.modIngest_keeps]; try change Is q z _)
    | with_reducible refine is_foldl (fun s b hs => ?_) ?_

theorem State.takeOld_keeps : ∀ s x1 x2 x3 x4, Is q z (State.takeOld s x1 x2 x3 x4) ↔ Is q z s := by
  intro s x1 x2 x3 x4; refine is_iff fun q z hs => ?_
  unfold State.takeOld
  conv => arg 3; zeta
  repeat'
    first
    | with_reducible assumption
    | (simp -zeta only [↓is_mk, ↓State.bindBump_keeps, ↓State.modIngest_keeps, ↓State.modPort_keeps, ↓State.putBinds_keeps, ↓State.takeFrame_keeps]; try change Is q z _)
    | (with_reducible refine is_ite ?_ ?_; rotate_left; intro h; try simp -zeta only [↓is_mk, ↓State.bindBump_keeps, ↓State.modIngest_keeps, ↓State.modPort_keeps, ↓State.putBinds_keeps, ↓State.takeFrame_keeps] at h)
    | with_reducible refine is_foldl (fun s b hs => ?_) ?_
    | split

theorem execFrameReceived_keeps : ∀ q z x0 x1 x2 x3 x4 s, Is q z s → IsO q z (execFrameReceived x0 x1 x2 x3 x4 s) := by
  intro q z x0 x1 x2 x3 x4 s hs
  unfold execFrameReceived
  conv => arg 3; zeta
  repeat'
    first
    | with_reducible assumption
    | (simp -zeta only [↓is_mk, ↓isO_next, ↓State.modPort_keeps, ↓State.portBump_keeps, ↓State.takeFrame_keeps, ↓State.takeOld_keeps]; try change Is q z _)
    | (with_reducible refine is_ite ?_ ?_; rotate_left; intro h; try simp -zeta only [↓is_mk, ↓isO_next, ↓State.modPort_keeps, ↓State.portBump_keeps, ↓State.takeFrame_keeps, ↓State.takeOld_keeps] at h)
    | (with_reducible refine isO_ite ?_ ?_)
    | (split <;> try (rename_i h; refine is_step (is_snd (q := q) (z := z) h ?_) (fun hs => ?_); rotate_left; clear h))
    | split

theorem State.hubSend_keeps : ∀ s x1 x2, Is q z (State.hubSend s x1 x2) ↔ Is q z s := by
  intro s x1 x2; refine is_iff fun q z hs => ?_
  unfold State.hubSend
  conv => arg 3; zeta
  repeat'
    first
    | with_reducible assumption
    | (simp -zeta only [↓is_mk, ↓State.offerToken_keeps, ↓State.spendHub_keeps]; try change Is q z _)

theorem State.appendHist_keeps : ∀ s x1 x2 x3, Is q z (State.appendHist s x1 x2 x3) ↔ Is q z s := by
  intro s x1 x2 x3; refine is_iff fun q z hs => ?_
  unfold State.appendHist
  conv => arg 3; zeta
  repeat'
    first
    | with_reducible assumption
    | (simp -zeta only [↓is_mk, ↓State.offerToken_keeps]; try change Is q z _)
    | (with_reducible refine is_ite ?_ ?_; rotate_left; intro h; try simp -zeta only [↓is_mk, ↓State.offerToken_keeps] at h)
    | split

theorem execBlockEmit_keeps : ∀ q z x0 s, Is q z s → IsO q z (execBlockEmit x0 s) := by
  intro q z x0 s hs
  unfold execBlockEmit
  conv => arg 3; zeta
  repeat'
    first
    | with_reducible assumption
    | (simp -zeta only [↓is_mk, ↓isO_next, ↓State.appendHist_keeps, ↓State.askTwins_keeps, ↓State.bindBump_keeps, ↓State.hubLeave_keeps, ↓State.hubSend_keeps, ↓State.modPort_keeps]; try change Is q z _)
    | (with_reducible refine is_ite ?_ ?_; rotate_left; intro h; try simp -zeta only [↓is_mk, ↓isO_next, ↓State.appendHist_keeps, ↓State.askTwins_keeps, ↓State.bindBump_keeps, ↓State.hubLeave_keeps, ↓State.hubSend_keeps, ↓State.modPort_keeps] at h)
    | (with_reducible refine isO_ite ?_ ?_)
    | with_reducible refine is_foldl (fun s b hs => ?_) ?_
    | (split <;> try (rename_i h; refine is_step (is_snd (q := q) (z := z) h ?_) (fun hs => ?_); rotate_left; clear h))
    | split

theorem execPortEpochClose_keeps : ∀ q z x0 s, Is q z s → IsO q z (execPortEpochClose x0 s) := by
  intro q z x0 s hs
  unfold execPortEpochClose
  conv => arg 3; zeta
  repeat'
    first
    | with_reducible assumption
    | (simp -zeta only [↓is_mk, ↓isO_next, ↓State.modPort_keeps, ↓State.reachT64_keeps]; try change Is q z _)
    | (with_reducible refine is_ite ?_ ?_; rotate_left; intro h; try simp -zeta only [↓is_mk, ↓isO_next, ↓State.modPort_keeps, ↓State.reachT64_keeps] at h)
    | (with_reducible refine isO_ite ?_ ?_)
    | split

theorem execBellInject_keeps : ∀ q z x0 s, Is q z s → IsO q z (execBellInject x0 s) := by
  intro q z x0 s hs
  unfold execBellInject
  conv => arg 3; zeta
  repeat'
    first
    | with_reducible assumption
    | (simp -zeta only [↓is_mk, ↓isO_next, ↓State.askTwins_keeps, ↓State.hubSend_keeps, ↓State.modBinding_keeps]; try change Is q z _)
    | (with_reducible refine is_ite ?_ ?_; rotate_left; intro h; try simp -zeta only [↓is_mk, ↓isO_next, ↓State.askTwins_keeps, ↓State.hubSend_keeps, ↓State.modBinding_keeps] at h)
    | (with_reducible refine isO_ite ?_ ?_)
    | with_reducible refine is_foldl (fun s b hs => ?_) ?_
    | split

theorem execBindStream_keeps : ∀ q z x0 x1 x2 s, Is q z s → IsO q z (execBindStream x0 x1 x2 s) := by
  intro q z x0 x1 x2 s hs
  unfold execBindStream
  conv => arg 3; zeta
  repeat'
    first
    | with_reducible assumption
    | (simp -zeta only [↓is_mk, ↓isO_next, ↓State.askTwins_keeps, ↓State.finish_keeps, ↓State.hostCmd_keeps, ↓State.modBinding_keeps, ↓State.modIngest_keeps, ↓State.named_keeps, ↓State.snapshot_keeps, ↓State.unnamed_keeps]; try change Is q z _)
    | refine State.hostCmd_keeps (fun l s hs => ?_) ?_
    | (with_reducible refine is_ite ?_ ?_; rotate_left; intro h; try simp -zeta only [↓is_mk, ↓isO_next, ↓State.askTwins_keeps, ↓State.finish_keeps, ↓State.hostCmd_keeps, ↓State.modBinding_keeps, ↓State.modIngest_keeps, ↓State.named_keeps, ↓State.snapshot_keeps, ↓State.unnamed_keeps] at h)
    | (with_reducible refine isO_ite ?_ ?_)
    | (split <;> try (rename_i h; refine is_step (is_snd (q := q) (z := z) h ?_) (fun hs => ?_); rotate_left; clear h))
    | split

theorem execUnbindStream_keeps : ∀ q z x0 x1 x2 s, Is q z s → IsO q z (execUnbindStream x0 x1 x2 s) := by
  intro q z x0 x1 x2 s hs
  unfold execUnbindStream
  conv => arg 3; zeta
  repeat'
    first
    | with_reducible assumption
    | (simp -zeta only [↓is_mk, ↓isO_next, ↓State.bindBump_keeps, ↓State.finish_keeps, ↓State.hostCmd_keeps, ↓State.hubLeave_keeps, ↓State.modIngest_keeps, ↓State.snapshot_keeps, ↓State.unnamed_keeps]; try change Is q z _)
    | refine State.hostCmd_keeps (fun l s hs => ?_) ?_
    | with_reducible refine is_foldl (fun s b hs => ?_) ?_

theorem execExqRead_keeps : ∀ q z x0 x1 x2 s, Is q z s → IsO q z (execExqRead x0 x1 x2 s) := by
  intro q z x0 x1 x2 s hs
  unfold execExqRead
  conv => arg 3; zeta
  repeat'
    first
    | with_reducible assumption
    | (simp -zeta only [↓is_mk, ↓isO_next, ↓State.finish_keeps, ↓State.hostCmd_keeps, ↓State.modIngest_keeps]; try change Is q z _)
    | refine State.hostCmd_keeps (fun l s hs => ?_) ?_
    | (with_reducible refine is_ite ?_ ?_; rotate_left; intro h; try simp -zeta only [↓is_mk, ↓isO_next, ↓State.finish_keeps, ↓State.hostCmd_keeps, ↓State.modIngest_keeps] at h)
    | (with_reducible refine isO_ite ?_ ?_)
    | split

end Sys2Proof.Machine
end

