-- ==== Sys2Proof/Laws/KeepWriter.lean ====
section
/-! SUPPORT. No operation of Writer touches the command queue, and none but the burning of fuses
touches the fuses. -/

set_option linter.all false

namespace Sys2Proof.Machine

variable {q : List Instr} {z : Fuses}

theorem State.clearOnce_keeps : ∀ s, Is q z (State.clearOnce s) ↔ Is q z s := by
  intro s; refine is_iff fun q z hs => ?_
  unfold State.clearOnce
  conv => arg 3; zeta
  repeat'
    first
    | with_reducible assumption
    | (simp -zeta only [↓is_mk, ↓State.modAct_keeps, ↓State.modFabric_keeps, ↓State.modIngest_keeps, ↓State.modReeve_keeps]; try change Is q z _)

theorem State.yieldTo_keeps : ∀ s x1 x2 x3, Is q z (State.yieldTo s x1 x2 x3) ↔ Is q z s := by
  intro s x1 x2 x3; refine is_iff fun q z hs => ?_
  unfold State.yieldTo
  conv => arg 3; zeta
  repeat'
    first
    | with_reducible assumption
    | (simp -zeta only [↓is_mk, ↓State.dropEpoch_keeps, ↓State.modDanger_keeps, ↓State.postEvent_keeps, ↓State.reeveBump_keeps]; try change Is q z _)
    | (with_reducible refine is_ite ?_ ?_; rotate_left; intro h; try simp -zeta only [↓is_mk, ↓State.dropEpoch_keeps, ↓State.modDanger_keeps, ↓State.postEvent_keeps, ↓State.reeveBump_keeps] at h)
    | split

theorem State.yieldAt_keeps : ∀ s x1 x2, Is q z (State.yieldAt s x1 x2) ↔ Is q z s := by
  intro s x1 x2; refine is_iff fun q z hs => ?_
  unfold State.yieldAt
  conv => arg 3; zeta
  repeat'
    first
    | with_reducible assumption
    | (simp -zeta only [↓is_mk, ↓State.modDanger_keeps, ↓State.yieldTo_keeps]; try change Is q z _)
    | (with_reducible refine is_ite ?_ ?_; rotate_left; intro h; try simp -zeta only [↓is_mk, ↓State.modDanger_keeps, ↓State.yieldTo_keeps] at h)
    | with_reducible refine is_foldl (fun s b hs => ?_) ?_
    | split

theorem State.owedYields_keeps : ∀ s, Is q z (State.owedYields s) ↔ Is q z s := by
  intro s; refine is_iff fun q z hs => ?_
  unfold State.owedYields
  conv => arg 3; zeta
  repeat'
    first
    | with_reducible assumption
    | (simp -zeta only [↓is_mk, ↓State.yieldAt_keeps]; try change Is q z _)
    | with_reducible refine is_foldl (fun s b hs => ?_) ?_

theorem State.tokenComes_keeps : ∀ s x1 x2 x3 x4 x5 x6, Is q z (State.tokenComes s x1 x2 x3 x4 x5 x6) ↔ Is q z s := by
  intro s x1 x2 x3 x4 x5 x6; refine is_iff fun q z hs => ?_
  unfold State.tokenComes
  conv => arg 3; zeta
  repeat'
    first
    | with_reducible assumption
    | (simp -zeta only [↓is_mk, ↓State.absorb_keeps, ↓State.arrive_keeps, ↓State.holdAtPort_keeps, ↓State.markHeld_keeps, ↓State.stallCheck_keeps, ↓State.takeFlight_keeps, ↓State.unitErr_keeps]; try change Is q z _)
    | (with_reducible refine is_ite ?_ ?_; rotate_left; intro h; try simp -zeta only [↓is_mk, ↓State.absorb_keeps, ↓State.arrive_keeps, ↓State.holdAtPort_keeps, ↓State.markHeld_keeps, ↓State.stallCheck_keeps, ↓State.takeFlight_keeps, ↓State.unitErr_keeps] at h)
    | with_reducible refine is_foldl (fun s b hs => ?_) ?_
    | split

theorem execTokenArrival_keeps : ∀ q z x0 x1 x2 x3 x4 s, Is q z s → IsO q z (execTokenArrival x0 x1 x2 x3 x4 s) := by
  intro q z x0 x1 x2 x3 x4 s hs
  unfold execTokenArrival
  conv => arg 3; zeta
  repeat'
    first
    | with_reducible assumption
    | (simp -zeta only [↓is_mk, ↓isO_next, ↓State.owedYields_keeps, ↓State.tokenComes_keeps]; try change Is q z _)
    | (with_reducible refine is_ite ?_ ?_; rotate_left; intro h; try simp -zeta only [↓is_mk, ↓isO_next, ↓State.owedYields_keeps, ↓State.tokenComes_keeps] at h)
    | (with_reducible refine isO_ite ?_ ?_)
    | split

theorem execGuardWaitExpiry_keeps : ∀ q z x0 s, Is q z s → IsO q z (execGuardWaitExpiry x0 s) := by
  intro q z x0 s hs
  unfold execGuardWaitExpiry
  conv => arg 3; zeta
  repeat'
    first
    | with_reducible assumption
    | (simp -zeta only [↓is_mk, ↓isO_next, ↓State.owedYields_keeps, ↓State.reach_keeps, ↓State.trigger_keeps]; try change Is q z _)
    | (split <;> try (rename_i h; refine is_step (is_snd (q := q) (z := z) h ?_) (fun hs => ?_); rotate_left; clear h))
    | split

theorem State.epochBegin_keeps : ∀ s x1, Is q z (State.epochBegin s x1) ↔ Is q z s := by
  intro s x1; refine is_iff fun q z hs => ?_
  unfold State.epochBegin
  conv => arg 3; zeta
  repeat'
    first
    | with_reducible assumption
    | (simp -zeta only [↓is_mk, ↓State.clearOnce_keeps, ↓State.modHost_keeps, ↓State.modIngest_keeps, ↓State.modWriter_keeps, ↓State.yieldAt_keeps]; try change Is q z _)
    | with_reducible refine is_foldl (fun s b hs => ?_) ?_

theorem State.epochsStart_keeps : ∀ s x1 x2 x3, Is q z (State.epochsStart s x1 x2 x3) ↔ Is q z s := by
  intro s x1 x2 x3; refine is_iff fun q z hs => ?_
  unfold State.epochsStart
  conv => arg 3; zeta
  repeat'
    first
    | with_reducible assumption
    | (simp -zeta only [↓is_mk, ↓State.epochBegin_keeps, ↓State.modIngest_keeps, ↓State.modWriter_keeps]; try change Is q z _)

theorem execEpochStart_keeps : ∀ q z s, Is q z s → IsO q z (execEpochStart s) := by
  intro q z s hs
  unfold execEpochStart
  conv => arg 3; zeta
  repeat'
    first
    | with_reducible assumption
    | (simp -zeta only [↓is_mk, ↓isO_next, ↓State.epochsStart_keeps, ↓State.reachT64_keeps]; try change Is q z _)
    | (split <;> try (rename_i h; refine is_step (is_snd (q := q) (z := z) h ?_) (fun hs => ?_); rotate_left; clear h))
    | split

theorem execEpochBoundary_keeps : ∀ q z s, Is q z s → IsO q z (execEpochBoundary s) := by
  intro q z s hs
  unfold execEpochBoundary
  conv => arg 3; zeta
  repeat'
    first
    | with_reducible assumption
    | (simp -zeta only [↓is_mk, ↓isO_next, ↓State.epochBegin_keeps, ↓State.modWriter_keeps, ↓State.reachT64_keeps]; try change Is q z _)
    | (with_reducible refine is_ite ?_ ?_; rotate_left; intro h; try simp -zeta only [↓is_mk, ↓isO_next, ↓State.epochBegin_keeps, ↓State.modWriter_keeps, ↓State.reachT64_keeps] at h)
    | (with_reducible refine isO_ite ?_ ?_)
    | (split <;> try (rename_i h; refine is_step (is_snd (q := q) (z := z) h ?_) (fun hs => ?_); rotate_left; clear h))
    | split

theorem execEpochConfig_keeps : ∀ q z x0 x1 x2 s, Is q z s → IsO q z (execEpochConfig x0 x1 x2 s) := by
  intro q z x0 x1 x2 s hs
  unfold execEpochConfig
  conv => arg 3; zeta
  repeat'
    first
    | with_reducible assumption
    | (simp -zeta only [↓is_mk, ↓isO_next, ↓State.finish_keeps, ↓State.hostCmd_keeps, ↓State.modWriter_keeps, ↓State.named_keeps]; try change Is q z _)
    | refine State.hostCmd_keeps (fun l s hs => ?_) ?_
    | (with_reducible refine is_ite ?_ ?_; rotate_left; intro h; try simp -zeta only [↓is_mk, ↓isO_next, ↓State.finish_keeps, ↓State.hostCmd_keeps, ↓State.modWriter_keeps, ↓State.named_keeps] at h)
    | (with_reducible refine isO_ite ?_ ?_)
    | split

theorem execBellRelease_keeps : ∀ q z x0 x1 x2 s, Is q z s → IsO q z (execBellRelease x0 x1 x2 s) := by
  intro q z x0 x1 x2 s hs
  unfold execBellRelease
  conv => arg 3; zeta
  repeat'
    first
    | with_reducible assumption
    | (simp -zeta only [↓is_mk, ↓isO_next, ↓State.offerReady_keeps]; try change Is q z _)
    | (with_reducible refine is_ite ?_ ?_; rotate_left; intro h; try simp -zeta only [↓is_mk, ↓isO_next, ↓State.offerReady_keeps] at h)
    | (with_reducible refine isO_ite ?_ ?_)
    | split

theorem State.modBanks_keeps : ∀ s x1 x2, Is q z (State.modBanks s x1 x2) ↔ Is q z s := by
  intro s x1 x2; refine is_iff fun q z hs => ?_
  unfold State.modBanks
  conv => arg 3; zeta
  repeat'
    first
    | with_reducible assumption
    | (simp -zeta only [↓is_mk, ↓State.modWriter_keeps]; try change Is q z _)

theorem State.writeSlot_keeps : ∀ s x1 x2 x3 x4 x5, Is q z (State.writeSlot s x1 x2 x3 x4 x5) ↔ Is q z s := by
  intro s x1 x2 x3 x4 x5; refine is_iff fun q z hs => ?_
  unfold State.writeSlot
  conv => arg 3; zeta
  repeat'
    first
    | with_reducible assumption
    | (simp -zeta only [↓is_mk, ↓State.modBanks_keeps, ↓State.modMember_keeps, ↓State.modWriter_keeps, ↓State.varnBump_keeps]; try change Is q z _)
    | (with_reducible refine is_ite ?_ ?_; rotate_left; intro h; try simp -zeta only [↓is_mk, ↓State.modBanks_keeps, ↓State.modMember_keeps, ↓State.modWriter_keeps, ↓State.varnBump_keeps] at h)
    | (split <;> try (rename_i h; refine is_step (is_snd (q := q) (z := z) h ?_) (fun hs => ?_); rotate_left; clear h))
    | split

theorem State.takeIn_keeps : ∀ s x1 x2, Is q z (State.takeIn s x1 x2) ↔ Is q z s := by
  intro s x1 x2; refine is_iff fun q z hs => ?_
  unfold State.takeIn
  conv => arg 3; zeta
  repeat'
    first
    | with_reducible assumption
    | (simp -zeta only [↓is_mk, ↓State.modWriter_keeps, ↓State.takeFlight_keeps]; try change Is q z _)

theorem State.fillIntake_keeps : ∀ x0 s, Is q z (State.fillIntake x0 s) ↔ Is q z s := by
  intro x0 s; refine is_iff fun q z hs => ?_
  induction x0 generalizing s with
  | zero => exact hs
  | succ n ih =>
    simp only [State.fillIntake]
    split
    · exact ih _ (by simpa only [↓State.takeIn_keeps] using hs)
    · exact hs

theorem State.writerGrant_keeps : ∀ s x1 x2 x3, Is q z (State.writerGrant s x1 x2 x3).2 ↔ Is q z s := by
  intro s x1 x2 x3; refine is_iff fun q z hs => ?_
  unfold State.writerGrant
  conv => arg 3; zeta
  repeat'
    first
    | with_reducible assumption
    | (simp -zeta only [↓is_mk, ↓State.endpointTake_keeps, ↓State.fillIntake_keeps, ↓State.modWriter_keeps, ↓State.returnCredit_keeps, ↓State.takeIn_keeps, ↓State.unitErr_keeps]; try change Is q z _)
    | (with_reducible refine is_ite ?_ ?_; rotate_left; intro h; try simp -zeta only [↓is_mk, ↓State.endpointTake_keeps, ↓State.fillIntake_keeps, ↓State.modWriter_keeps, ↓State.returnCredit_keeps, ↓State.takeIn_keeps, ↓State.unitErr_keeps] at h)
    | (with_reducible refine is_ite_snd ?_ ?_)
    | split

theorem execResultToken_keeps : ∀ q z x0 x1 x2 s, Is q z s → IsO q z (execResultToken x0 x1 x2 s) := by
  intro q z x0 x1 x2 s hs
  unfold execResultToken
  conv => arg 3; zeta
  repeat'
    first
    | with_reducible assumption
    | (simp -zeta only [↓is_mk, ↓isO_next, ↓State.endpointAbsorb_keeps, ↓State.modWriter_keeps, ↓State.ownGap_keeps, ↓State.unitErr_keeps, ↓State.varnBump_keeps, ↓State.writeSlot_keeps, ↓State.writerGrant_keeps]; try change Is q z _)
    | (with_reducible refine is_ite ?_ ?_; rotate_left; intro h; try simp -zeta only [↓is_mk, ↓isO_next, ↓State.endpointAbsorb_keeps, ↓State.modWriter_keeps, ↓State.ownGap_keeps, ↓State.unitErr_keeps, ↓State.varnBump_keeps, ↓State.writeSlot_keeps, ↓State.writerGrant_keeps] at h)
    | (with_reducible refine isO_ite ?_ ?_)
    | (split <;> try (rename_i h; refine is_step (is_snd (q := q) (z := z) h ?_) (fun hs => ?_); rotate_left; clear h))
    | split

theorem State.closeMember_keeps : ∀ s x1 x2 x3, Is q z (State.closeMember s x1 x2 x3) ↔ Is q z s := by
  intro s x1 x2 x3; refine is_iff fun q z hs => ?_
  unfold State.closeMember
  conv => arg 3; zeta
  repeat'
    first
    | with_reducible assumption
    | (simp -zeta only [↓is_mk, ↓State.addEntry_keeps, ↓State.modMember_keeps, ↓State.releaseHold_keeps, ↓State.varnBump_keeps]; try change Is q z _)
    | (with_reducible refine is_ite ?_ ?_; rotate_left; intro h; try simp -zeta only [↓is_mk, ↓State.addEntry_keeps, ↓State.modMember_keeps, ↓State.releaseHold_keeps, ↓State.varnBump_keeps] at h)
    | (split <;> try (rename_i h; refine is_step (is_snd (q := q) (z := z) h ?_) (fun hs => ?_); rotate_left; clear h))
    | split

theorem execBellAtWriter_keeps : ∀ q z x0 x1 x2 s, Is q z s → IsO q z (execBellAtWriter x0 x1 x2 s) := by
  intro q z x0 x1 x2 s hs
  unfold execBellAtWriter
  conv => arg 3; zeta
  repeat'
    first
    | with_reducible assumption
    | (simp -zeta only [↓is_mk, ↓isO_next, ↓State.closeMember_keeps, ↓State.endpointAbsorb_keeps, ↓State.modMember_keeps, ↓State.unitErr_keeps, ↓State.varnBump_keeps, ↓State.writerGrant_keeps]; try change Is q z _)
    | (with_reducible refine is_ite ?_ ?_; rotate_left; intro h; try simp -zeta only [↓is_mk, ↓isO_next, ↓State.closeMember_keeps, ↓State.endpointAbsorb_keeps, ↓State.modMember_keeps, ↓State.unitErr_keeps, ↓State.varnBump_keeps, ↓State.writerGrant_keeps] at h)
    | (with_reducible refine isO_ite ?_ ?_)
    | (split <;> try (rename_i h; refine is_step (is_snd (q := q) (z := z) h ?_) (fun hs => ?_); rotate_left; clear h))
    | split

theorem State.auditClear_keeps : ∀ s x1 x2, Is q z (State.auditClear s x1 x2) ↔ Is q z s := by
  intro s x1 x2; refine is_iff fun q z hs => ?_
  unfold State.auditClear
  conv => arg 3; zeta
  repeat'
    first
    | with_reducible assumption
    | (simp -zeta only [↓is_mk, ↓State.modCell_keeps]; try change Is q z _)
    | with_reducible refine is_foldl (fun s b hs => ?_) ?_

theorem execAuditVerdict_keeps : ∀ q z x0 s, Is q z s → IsO q z (execAuditVerdict x0 s) := by
  intro q z x0 s hs
  unfold execAuditVerdict
  conv => arg 3; zeta
  repeat'
    first
    | with_reducible assumption
    | (simp -zeta only [↓is_mk, ↓isO_next, ↓State.addEntry_keeps, ↓State.auditClear_keeps, ↓State.closeMember_keeps, ↓State.detect_keeps, ↓State.watchBump_keeps]; try change Is q z _)
    | (with_reducible refine is_ite ?_ ?_; rotate_left; intro h; try simp -zeta only [↓is_mk, ↓isO_next, ↓State.addEntry_keeps, ↓State.auditClear_keeps, ↓State.closeMember_keeps, ↓State.detect_keeps, ↓State.watchBump_keeps] at h)
    | (with_reducible refine isO_ite ?_ ?_)
    | (split <;> try (rename_i h; refine is_step (is_snd (q := q) (z := z) h ?_) (fun hs => ?_); rotate_left; clear h))
    | split

theorem execGapNotice_keeps : ∀ q z x0 s, Is q z s → IsO q z (execGapNotice x0 s) := by
  intro q z x0 s hs
  unfold execGapNotice
  conv => arg 3; zeta
  repeat'
    first
    | with_reducible assumption
    | (simp -zeta only [↓is_mk, ↓isO_next, ↓State.addGap_keeps, ↓State.modWriter_keeps, ↓State.varnBump_keeps]; try change Is q z _)
    | (with_reducible refine is_ite ?_ ?_; rotate_left; intro h; try simp -zeta only [↓is_mk, ↓isO_next, ↓State.addGap_keeps, ↓State.modWriter_keeps, ↓State.varnBump_keeps] at h)
    | (with_reducible refine isO_ite ?_ ?_)
    | (split <;> try (rename_i h; refine is_step (is_snd (q := q) (z := z) h ?_) (fun hs => ?_); rotate_left; clear h))
    | split

theorem State.settleTo_keeps : ∀ s x1 x2, Is q z (State.settleTo s x1 x2) ↔ Is q z s := by
  intro s x1 x2; refine is_iff fun q z hs => ?_
  unfold State.settleTo
  conv => arg 3; zeta
  repeat'
    first
    | with_reducible assumption
    | (simp -zeta only [↓is_mk, ↓State.modWriter_keeps, ↓State.postEvent_keeps]; try change Is q z _)
    | (with_reducible refine is_ite ?_ ?_; rotate_left; intro h; try simp -zeta only [↓is_mk, ↓State.modWriter_keeps, ↓State.postEvent_keeps] at h)
    | split

theorem State.rootSettle_keeps : ∀ s x1, Is q z (State.rootSettle s x1) ↔ Is q z s := by
  intro s x1; refine is_iff fun q z hs => ?_
  induction x1 generalizing s with
  | nil => exact hs
  | cons a l ih =>
    obtain ⟨k, e⟩ := a
    simp only [State.rootSettle]
    refine is_ite (ih _ ?_) fun _ => hs
    simpa only [↓State.settleTo_keeps, ↓State.modWriter_keeps, ↓State.varnBump_keeps] using hs

theorem execSettleLimitExpiry_keeps : ∀ q z s, Is q z s → IsO q z (execSettleLimitExpiry s) := by
  intro q z s hs
  unfold execSettleLimitExpiry
  conv => arg 3; zeta
  repeat'
    first
    | with_reducible assumption
    | (simp -zeta only [↓is_mk, ↓isO_next, ↓State.modWriter_keeps, ↓State.reach_keeps, ↓State.rootSettle_keeps]; try change Is q z _)
    | (split <;> try (rename_i h; refine is_step (is_snd (q := q) (z := z) h ?_) (fun hs => ?_); rotate_left; clear h))
    | split

theorem execVarnishLimitReached_keeps : ∀ q z s, Is q z s → IsO q z (execVarnishLimitReached s) := by
  intro q z s hs
  unfold execVarnishLimitReached
  conv => arg 3; zeta
  repeat'
    first
    | with_reducible assumption
    | (simp -zeta only [↓is_mk, ↓isO_next, ↓State.modWriter_keeps, ↓State.reachT64_keeps]; try change Is q z _)
    | (with_reducible refine is_ite ?_ ?_; rotate_left; intro h; try simp -zeta only [↓is_mk, ↓isO_next, ↓State.modWriter_keeps, ↓State.reachT64_keeps] at h)
    | (with_reducible refine isO_ite ?_ ?_)
    | (split <;> try (rename_i h; refine is_step (is_snd (q := q) (z := z) h ?_) (fun hs => ?_); rotate_left; clear h))
    | split

theorem State.applyStage_keeps : ∀ s, Is q z (State.applyStage s) ↔ Is q z s := by
  intro s; refine is_iff fun q z hs => ?_
  unfold State.applyStage
  conv => arg 3; zeta
  repeat'
    first
    | with_reducible assumption
    | (simp -zeta only [↓is_mk, ↓State.modWriter_keeps, ↓State.writeSlot_keeps]; try change Is q z _)
    | (with_reducible refine is_ite ?_ ?_; rotate_left; intro h; try simp -zeta only [↓is_mk, ↓State.modWriter_keeps, ↓State.writeSlot_keeps] at h)
    | with_reducible refine is_foldl (fun s b hs => ?_) ?_
    | split

theorem State.staleReads_keeps : ∀ s, Is q z (State.staleReads s) ↔ Is q z s := by
  intro s; refine is_iff fun q z hs => ?_
  unfold State.staleReads
  conv => arg 3; zeta
  repeat'
    first
    | with_reducible assumption
    | (simp -zeta only [↓is_mk, ↓State.hostBump_keeps, ↓State.modCmd_keeps, ↓State.varnBump_keeps]; try change Is q z _)
    | (with_reducible refine is_ite ?_ ?_; rotate_left; intro h; try simp -zeta only [↓is_mk, ↓State.hostBump_keeps, ↓State.modCmd_keeps, ↓State.varnBump_keeps] at h)
    | with_reducible refine is_foldl (fun s b hs => ?_) ?_
    | (split <;> try (rename_i h; refine is_step (is_snd (q := q) (z := z) h ?_) (fun hs => ?_); rotate_left; clear h))
    | split

theorem State.epochsStop_keeps : ∀ s x1, Is q z (State.epochsStop s x1) ↔ Is q z s := by
  intro s x1; refine is_iff fun q z hs => ?_
  unfold State.epochsStop
  conv => arg 3; zeta
  repeat'
    first
    | with_reducible assumption
    | (simp -zeta only [↓is_mk, ↓State.abandon_keeps, ↓State.bindBump_keeps, ↓State.modIngest_keeps, ↓State.modWriter_keeps]; try change Is q z _)
    | with_reducible refine is_foldl (fun s b hs => ?_) ?_
    | (split <;> try (rename_i h; refine is_step (is_snd (q := q) (z := z) h ?_) (fun hs => ?_); rotate_left; clear h))
    | split

theorem State.publishReport_keeps : ∀ s x1 x2 x3, Is q z (State.publishReport s x1 x2 x3) ↔ Is q z s := by
  intro s x1 x2 x3; refine is_iff fun q z hs => ?_
  unfold State.publishReport
  conv => arg 3; zeta
  repeat'
    first
    | with_reducible assumption
    | (simp -zeta only [↓is_mk, ↓State.modWriter_keeps, ↓State.postEvent_keeps, ↓State.rootSettle_keeps, ↓State.settleTo_keeps]; try change Is q z _)
    | (with_reducible refine is_ite ?_ ?_; rotate_left; intro h; try simp -zeta only [↓is_mk, ↓State.modWriter_keeps, ↓State.postEvent_keeps, ↓State.rootSettle_keeps, ↓State.settleTo_keeps] at h)
    | (split <;> try (rename_i h; refine is_step (is_snd (q := q) (z := z) h ?_) (fun hs => ?_); rotate_left; clear h))
    | split

theorem State.doVarnish_keeps : ∀ s x1, Is q z (State.doVarnish s x1) ↔ Is q z s := by
  intro s x1; refine is_iff fun q z hs => ?_
  unfold State.doVarnish
  conv => arg 3; zeta
  repeat'
    first
    | with_reducible assumption
    | (simp -zeta only [↓is_mk, ↓State.abandon_keeps, ↓State.addEntry_keeps, ↓State.applyStage_keeps, ↓State.epochsStop_keeps, ↓State.modBanks_keeps, ↓State.modWriter_keeps, ↓State.publishReport_keeps, ↓State.releaseHold_keeps, ↓State.staleReads_keeps, ↓State.varnBump_keeps]; try change Is q z _)
    | (with_reducible refine is_ite ?_ ?_; rotate_left; intro h; try simp -zeta only [↓is_mk, ↓State.abandon_keeps, ↓State.addEntry_keeps, ↓State.applyStage_keeps, ↓State.epochsStop_keeps, ↓State.modBanks_keeps, ↓State.modWriter_keeps, ↓State.publishReport_keeps, ↓State.releaseHold_keeps, ↓State.staleReads_keeps, ↓State.varnBump_keeps] at h)
    | with_reducible refine is_foldl (fun s b hs => ?_) ?_
    | (split <;> try (rename_i h; refine is_step (is_snd (q := q) (z := z) h ?_) (fun hs => ?_); rotate_left; clear h))
    | split

theorem execVarnish_keeps : ∀ q z s, Is q z s → IsO q z (execVarnish s) := by
  intro q z s hs
  unfold execVarnish
  conv => arg 3; zeta
  repeat'
    first
    | with_reducible assumption
    | (simp -zeta only [↓is_mk, ↓isO_next, ↓State.doVarnish_keeps, ↓State.reachT64_keeps]; try change Is q z _)
    | (with_reducible refine is_ite ?_ ?_; rotate_left; intro h; try simp -zeta only [↓is_mk, ↓isO_next, ↓State.doVarnish_keeps, ↓State.reachT64_keeps] at h)
    | (with_reducible refine isO_ite ?_ ?_)
    | (split <;> try (rename_i h; refine is_step (is_snd (q := q) (z := z) h ?_) (fun hs => ?_); rotate_left; clear h))
    | split

theorem execReadResults_keeps : ∀ q z x0 x1 x2 s, Is q z s → IsO q z (execReadResults x0 x1 x2 s) := by
  intro q z x0 x1 x2 s hs
  unfold execReadResults
  conv => arg 3; zeta
  repeat'
    first
    | with_reducible assumption
    | (simp -zeta only [↓is_mk, ↓isO_next, ↓State.finish_keeps, ↓State.hostCmd_keeps]; try change Is q z _)
    | refine State.hostCmd_keeps (fun l s hs => ?_) ?_
    | (with_reducible refine is_ite ?_ ?_; rotate_left; intro h; try simp -zeta only [↓is_mk, ↓isO_next, ↓State.finish_keeps, ↓State.hostCmd_keeps] at h)
    | (with_reducible refine isO_ite ?_ ?_)
    | (split <;> try (rename_i h; refine is_step (is_snd (q := q) (z := z) h ?_) (fun hs => ?_); rotate_left; clear h))
    | split

theorem execReadReport_keeps : ∀ q z x0 x1 x2 s, Is q z s → IsO q z (execReadReport x0 x1 x2 s) := by
  intro q z x0 x1 x2 s hs
  unfold execReadReport
  conv => arg 3; zeta
  repeat'
    first
    | with_reducible assumption
    | (simp -zeta only [↓is_mk, ↓isO_next, ↓State.finish_keeps, ↓State.hostCmd_keeps]; try change Is q z _)
    | refine State.hostCmd_keeps (fun l s hs => ?_) ?_
    | (split <;> try (rename_i h; refine is_step (is_snd (q := q) (z := z) h ?_) (fun hs => ?_); rotate_left; clear h))
    | split

theorem execBar4Read_keeps : ∀ q z x0 x1 x2 s, Is q z s → IsO q z (execBar4Read x0 x1 x2 s) := by
  intro q z x0 x1 x2 s hs
  unfold execBar4Read
  conv => arg 3; zeta
  repeat'
    first
    | with_reducible assumption
    | (simp -zeta only [↓is_mk, ↓isO_next, ↓State.emit_keeps, ↓State.hostBump_keeps]; try change Is q z _)
    | (with_reducible refine is_ite ?_ ?_; rotate_left; intro h; try simp -zeta only [↓is_mk, ↓isO_next, ↓State.emit_keeps, ↓State.hostBump_keeps] at h)
    | (with_reducible refine isO_ite ?_ ?_)
    | split

end Sys2Proof.Machine
end

