-- ==== Sys2Proof/Laws/KeepChain.lean ====
section
/-! SUPPORT. No operation of Chain touches the command queue, and none but the burning of fuses
touches the fuses. -/

set_option linter.all false

namespace Sys2Proof.Machine

variable {q : List Instr} {z : Fuses}

theorem State.modChain_keeps : ∀ x0 s, Is q z (State.modChain x0 s) ↔ Is q z s := by
  intro x0 s; refine is_iff fun q z hs => ?_
  unfold State.modChain
  conv => arg 3; zeta
  repeat'
    first
    | with_reducible assumption
    | (simp -zeta only [↓is_mk]; try change Is q z _)

theorem State.chainBump_keeps : ∀ x0 s x2, Is q z (State.chainBump x0 s x2) ↔ Is q z s := by
  intro x0 s x2; refine is_iff fun q z hs => ?_
  unfold State.chainBump
  conv => arg 3; zeta
  repeat'
    first
    | with_reducible assumption
    | (simp -zeta only [↓is_mk, ↓State.modChain_keeps]; try change Is q z _)

theorem State.linkBump_keeps : ∀ x0 x1 s x3, Is q z (State.linkBump x0 x1 s x3) ↔ Is q z s := by
  intro x0 x1 s x3; refine is_iff fun q z hs => ?_
  unfold State.linkBump
  conv => arg 3; zeta
  repeat'
    first
    | with_reducible assumption
    | (simp -zeta only [↓is_mk, ↓State.modChain_keeps]; try change Is q z _)
    | (with_reducible refine is_ite ?_ ?_; rotate_left; intro h; try simp -zeta only [↓is_mk, ↓State.modChain_keeps] at h)
    | split

theorem State.settleOwn_keeps : ∀ s x1, Is q z (State.settleOwn s x1) ↔ Is q z s := by
  intro s x1; refine is_iff fun q z hs => ?_
  unfold State.settleOwn
  conv => arg 3; zeta
  repeat'
    first
    | with_reducible assumption
    | (simp -zeta only [↓is_mk, ↓State.settleTo_keeps]; try change Is q z _)
    | with_reducible refine is_foldl (fun s b hs => ?_) ?_
    | (split <;> try (rename_i h; refine is_step (is_snd (q := q) (z := z) h ?_) (fun hs => ?_); rotate_left; clear h))
    | split

theorem State.detach_keeps : ∀ s, Is q z (State.detach s) ↔ Is q z s := by
  intro s; refine is_iff fun q z hs => ?_
  unfold State.detach
  conv => arg 3; zeta
  repeat'
    first
    | with_reducible assumption
    | (simp -zeta only [↓is_mk, ↓State.chainBump_keeps, ↓State.modChain_keeps, ↓State.modTime_keeps, ↓State.postEvent_keeps, ↓State.settleOwn_keeps]; try change Is q z _)
    | (with_reducible refine is_ite ?_ ?_; rotate_left; intro h; try simp -zeta only [↓is_mk, ↓State.chainBump_keeps, ↓State.modChain_keeps, ↓State.modTime_keeps, ↓State.postEvent_keeps, ↓State.settleOwn_keeps] at h)
    | split

theorem State.chainDown_keeps : ∀ x0 s, Is q z (State.chainDown x0 s) ↔ Is q z s := by
  intro x0 s; refine is_iff fun q z hs => ?_
  unfold State.chainDown
  conv => arg 3; zeta
  repeat'
    first
    | with_reducible assumption
    | (simp -zeta only [↓is_mk, ↓State.detach_keeps, ↓State.linkBump_keeps, ↓State.modChain_keeps, ↓State.postEvent_keeps]; try change Is q z _)
    | (with_reducible refine is_ite ?_ ?_; rotate_left; intro h; try simp -zeta only [↓is_mk, ↓State.detach_keeps, ↓State.linkBump_keeps, ↓State.modChain_keeps, ↓State.postEvent_keeps] at h)
    | split

theorem execChainLinkUp_keeps : ∀ q z x0 s, Is q z s → IsO q z (execChainLinkUp x0 s) := by
  intro q z x0 s hs
  unfold execChainLinkUp
  conv => arg 3; zeta
  repeat'
    first
    | with_reducible assumption
    | (simp -zeta only [↓is_mk, ↓isO_next, ↓State.elapse_keeps, ↓State.modChain_keeps, ↓State.named_keeps, ↓State.postEvent_keeps]; try change Is q z _)
    | (with_reducible refine is_ite ?_ ?_; rotate_left; intro h; try simp -zeta only [↓is_mk, ↓isO_next, ↓State.elapse_keeps, ↓State.modChain_keeps, ↓State.named_keeps, ↓State.postEvent_keeps] at h)
    | (with_reducible refine isO_ite ?_ ?_)
    | split

theorem execChainLinkDown_keeps : ∀ q z x0 s, Is q z s → IsO q z (execChainLinkDown x0 s) := by
  intro q z x0 s hs
  unfold execChainLinkDown
  conv => arg 3; zeta
  repeat'
    first
    | with_reducible assumption
    | (simp -zeta only [↓is_mk, ↓isO_next, ↓State.chainDown_keeps, ↓State.linkBump_keeps]; try change Is q z _)
    | (with_reducible refine is_ite ?_ ?_; rotate_left; intro h; try simp -zeta only [↓is_mk, ↓isO_next, ↓State.chainDown_keeps, ↓State.linkBump_keeps] at h)
    | (with_reducible refine isO_ite ?_ ?_)
    | split

theorem State.passOf_keeps : ∀ s x1 x2, Is q z (State.passOf s x1 x2).2 ↔ Is q z s := by
  intro s x1 x2; refine is_iff fun q z hs => ?_
  unfold State.passOf
  conv => arg 3; zeta
  repeat'
    first
    | with_reducible assumption
    | (simp -zeta only [↓is_mk, ↓State.draw_keeps, ↓State.modChain_keeps]; try change Is q z _)
    | (split <;> try (rename_i h; refine is_step (is_snd (q := q) (z := z) h ?_) (fun hs => ?_); rotate_left; clear h))
    | split

theorem State.pushBulk_keeps : ∀ s x1 x2, Is q z (State.pushBulk s x1 x2) ↔ Is q z s := by
  intro s x1 x2; refine is_iff fun q z hs => ?_
  unfold State.pushBulk
  conv => arg 3; zeta
  repeat'
    first
    | with_reducible assumption
    | (simp -zeta only [↓is_mk, ↓State.modChain_keeps]; try change Is q z _)
    | (with_reducible refine is_ite ?_ ?_; rotate_left; intro h; try simp -zeta only [↓is_mk, ↓State.modChain_keeps] at h)
    | split

theorem State.ownBulk_keeps : ∀ s x1 x2 x3 x4, Is q z (State.ownBulk s x1 x2 x3 x4) ↔ Is q z s := by
  intro s x1 x2 x3 x4; refine is_iff fun q z hs => ?_
  unfold State.ownBulk
  conv => arg 3; zeta
  repeat'
    first
    | with_reducible assumption
    | (simp -zeta only [↓is_mk, ↓State.modChain_keeps, ↓State.pushBulk_keeps]; try change Is q z _)

theorem State.teach_keeps : ∀ s x1 x2, Is q z (State.teach s x1 x2) ↔ Is q z s := by
  intro s x1 x2; refine is_iff fun q z hs => ?_
  unfold State.teach
  conv => arg 3; zeta
  repeat'
    first
    | with_reducible assumption
    | (simp -zeta only [↓is_mk, ↓State.chainBump_keeps, ↓State.modChain_keeps, ↓State.postEvent_keeps]; try change Is q z _)
    | (with_reducible refine is_ite ?_ ?_; rotate_left; intro h; try simp -zeta only [↓is_mk, ↓State.chainBump_keeps, ↓State.modChain_keeps, ↓State.postEvent_keeps] at h)
    | split

theorem State.forward_keeps : ∀ s x1 x2, Is q z (State.forward s x1 x2) ↔ Is q z s := by
  intro s x1 x2; refine is_iff fun q z hs => ?_
  unfold State.forward
  conv => arg 3; zeta
  repeat'
    first
    | with_reducible assumption
    | (simp -zeta only [↓is_mk, ↓State.chainBump_keeps, ↓State.modChain_keeps]; try change Is q z _)
    | (split <;> try (rename_i h; refine is_step (is_snd (q := q) (z := z) h ?_) (fun hs => ?_); rotate_left; clear h))
    | split

theorem execStationAgeExpiry_keeps : ∀ q z x0 s, Is q z s → IsO q z (execStationAgeExpiry x0 s) := by
  intro q z x0 s hs
  unfold execStationAgeExpiry
  conv => arg 3; zeta
  repeat'
    first
    | with_reducible assumption
    | (simp -zeta only [↓is_mk, ↓isO_next, ↓State.modChain_keeps, ↓State.reach_keeps]; try change Is q z _)
    | (with_reducible refine is_ite ?_ ?_; rotate_left; intro h; try simp -zeta only [↓is_mk, ↓isO_next, ↓State.modChain_keeps, ↓State.reach_keeps] at h)
    | (with_reducible refine isO_ite ?_ ?_)
    | split

theorem execPresenceSend_keeps : ∀ q z s, Is q z s → IsO q z (execPresenceSend s) := by
  intro q z s hs
  unfold execPresenceSend
  conv => arg 3; zeta
  repeat'
    first
    | with_reducible assumption
    | (simp -zeta only [↓is_mk, ↓isO_next, ↓State.modChain_keeps, ↓State.ownBulk_keeps, ↓State.reach_keeps]; try change Is q z _)
    | (with_reducible refine is_ite ?_ ?_; rotate_left; intro h; try simp -zeta only [↓is_mk, ↓isO_next, ↓State.modChain_keeps, ↓State.ownBulk_keeps, ↓State.reach_keeps] at h)
    | (with_reducible refine isO_ite ?_ ?_)
    | (split <;> try (rename_i h; refine is_step (is_snd (q := q) (z := z) h ?_) (fun hs => ?_); rotate_left; clear h))
    | split

theorem State.importToken_keeps : ∀ s x1 x2, Is q z (State.importToken s x1 x2) ↔ Is q z s := by
  intro s x1 x2; refine is_iff fun q z hs => ?_
  unfold State.importToken
  conv => arg 3; zeta
  repeat'
    first
    | with_reducible assumption
    | (simp -zeta only [↓is_mk, ↓State.askCredit_keeps, ↓State.hubSend_keeps, ↓State.modChain_keeps]; try change Is q z _)
    | (with_reducible refine is_ite ?_ ?_; rotate_left; intro h; try simp -zeta only [↓is_mk, ↓State.askCredit_keeps, ↓State.hubSend_keeps, ↓State.modChain_keeps] at h)
    | split

theorem State.importRec_keeps : ∀ s x1 x2 x3, Is q z (State.importRec s x1 x2 x3) ↔ Is q z s := by
  intro s x1 x2 x3; refine is_iff fun q z hs => ?_
  unfold State.importRec
  conv => arg 3; zeta
  repeat'
    first
    | with_reducible assumption
    | (simp -zeta only [↓is_mk, ↓State.chainBump_keeps, ↓State.importToken_keeps]; try change Is q z _)
    | (with_reducible refine is_ite ?_ ?_; rotate_left; intro h; try simp -zeta only [↓is_mk, ↓State.chainBump_keeps, ↓State.importToken_keeps] at h)
    | with_reducible refine is_foldl (fun s b hs => ?_) ?_
    | split

theorem State.importAll_keeps : ∀ s x1 x2 x3, Is q z (State.importAll s x1 x2 x3) ↔ Is q z s := by
  intro s x1 x2 x3; refine is_iff fun q z hs => ?_
  unfold State.importAll
  conv => arg 3; zeta
  repeat'
    first
    | with_reducible assumption
    | (simp -zeta only [↓is_mk, ↓State.chainBump_keeps, ↓State.importRec_keeps]; try change Is q z _)
    | with_reducible refine is_foldl (fun s b hs => ?_) ?_
    | (split <;> try (rename_i h; refine is_step (is_snd (q := q) (z := z) h ?_) (fun hs => ?_); rotate_left; clear h))
    | split

theorem State.appendRecord_keeps : ∀ s x1 x2 x3, Is q z (State.appendRecord s x1 x2 x3) ↔ Is q z s := by
  intro s x1 x2 x3; refine is_iff fun q z hs => ?_
  unfold State.appendRecord
  conv => arg 3; zeta
  repeat'
    first
    | with_reducible assumption
    | (simp -zeta only [↓is_mk, ↓State.modChain_keeps, ↓State.ownBulk_keeps]; try change Is q z _)
    | (with_reducible refine is_ite ?_ ?_; rotate_left; intro h; try simp -zeta only [↓is_mk, ↓State.modChain_keeps, ↓State.ownBulk_keeps] at h)
    | split

theorem execChainEgressToken_keeps : ∀ q z x0 x1 x2 s, Is q z s → IsO q z (execChainEgressToken x0 x1 x2 s) := by
  intro q z x0 x1 x2 s hs
  unfold execChainEgressToken
  conv => arg 3; zeta
  repeat'
    first
    | with_reducible assumption
    | (simp -zeta only [↓is_mk, ↓isO_next, ↓State.appendRecord_keeps, ↓State.chainBump_keeps, ↓State.endpointAbsorb_keeps, ↓State.endpointTake_keeps, ↓State.importRec_keeps, ↓State.unitErr_keeps]; try change Is q z _)
    | (with_reducible refine is_ite ?_ ?_; rotate_left; intro h; try simp -zeta only [↓is_mk, ↓isO_next, ↓State.appendRecord_keeps, ↓State.chainBump_keeps, ↓State.endpointAbsorb_keeps, ↓State.endpointTake_keeps, ↓State.importRec_keeps, ↓State.unitErr_keeps] at h)
    | (with_reducible refine isO_ite ?_ ?_)
    | (split <;> try (rename_i h; refine is_step (is_snd (q := q) (z := z) h ?_) (fun hs => ?_); rotate_left; clear h))
    | split

theorem execDelayMeasure_keeps : ∀ q z x0 s, Is q z s → IsO q z (execDelayMeasure x0 s) := by
  intro q z x0 s hs
  unfold execDelayMeasure
  conv => arg 3; zeta
  repeat'
    first
    | with_reducible assumption
    | (simp -zeta only [↓is_mk, ↓isO_next, ↓State.modChain_keeps, ↓State.ownBulk_keeps, ↓State.reach_keeps]; try change Is q z _)
    | (with_reducible refine is_ite ?_ ?_; rotate_left; intro h; try simp -zeta only [↓is_mk, ↓isO_next, ↓State.modChain_keeps, ↓State.ownBulk_keeps, ↓State.reach_keeps] at h)
    | (with_reducible refine isO_ite ?_ ?_)
    | (split <;> try (rename_i h; refine is_step (is_snd (q := q) (z := z) h ?_) (fun hs => ?_); rotate_left; clear h))
    | split

theorem State.delayAnswer_keeps : ∀ s x1 x2 x3, Is q z (State.delayAnswer s x1 x2 x3) ↔ Is q z s := by
  intro s x1 x2 x3; refine is_iff fun q z hs => ?_
  unfold State.delayAnswer
  conv => arg 3; zeta
  repeat'
    first
    | with_reducible assumption
    | (simp -zeta only [↓is_mk, ↓State.modChain_keeps, ↓State.ownBulk_keeps]; try change Is q z _)
    | (with_reducible refine is_ite ?_ ?_; rotate_left; intro h; try simp -zeta only [↓is_mk, ↓State.modChain_keeps, ↓State.ownBulk_keeps] at h)
    | (split <;> try (rename_i h; refine is_step (is_snd (q := q) (z := z) h ?_) (fun hs => ?_); rotate_left; clear h))
    | split

theorem State.sendOver_keeps : ∀ s x1, Is q z (State.sendOver s x1) ↔ Is q z s := by
  intro s x1; refine is_iff fun q z hs => ?_
  unfold State.sendOver
  conv => arg 3; zeta
  repeat'
    first
    | with_reducible assumption
    | (simp -zeta only [↓is_mk, ↓State.completeWhere_keeps, ↓State.modChain_keeps]; try change Is q z _)
    | (with_reducible refine is_ite ?_ ?_; rotate_left; intro h; try simp -zeta only [↓is_mk, ↓State.completeWhere_keeps, ↓State.modChain_keeps] at h)
    | split

theorem State.takeMgmt_keeps : ∀ s x1 x2, Is q z (State.takeMgmt s x1 x2) ↔ Is q z s := by
  intro s x1 x2; refine is_iff fun q z hs => ?_
  unfold State.takeMgmt
  conv => arg 3; zeta
  repeat'
    first
    | with_reducible assumption
    | (simp -zeta only [↓is_mk, ↓State.modChain_keeps, ↓State.pushBulk_keeps, ↓State.sendOver_keeps]; try change Is q z _)
    | (with_reducible refine is_ite ?_ ?_; rotate_left; intro h; try simp -zeta only [↓is_mk, ↓State.modChain_keeps, ↓State.pushBulk_keeps, ↓State.sendOver_keeps] at h)
    | (split <;> try (rename_i h; refine is_step (is_snd (q := q) (z := z) h ?_) (fun hs => ?_); rotate_left; clear h))
    | split

theorem execChainSendTimeout_keeps : ∀ q z s, Is q z s → IsO q z (execChainSendTimeout s) := by
  intro q z s hs
  unfold execChainSendTimeout
  conv => arg 3; zeta
  repeat'
    first
    | with_reducible assumption
    | (simp -zeta only [↓is_mk, ↓isO_next, ↓State.reach_keeps, ↓State.sendOver_keeps]; try change Is q z _)
    | (split <;> try (rename_i h; refine is_step (is_snd (q := q) (z := z) h ?_) (fun hs => ?_); rotate_left; clear h))
    | split

theorem execChainSend_keeps : ∀ q z x0 x1 x2 s, Is q z s → IsO q z (execChainSend x0 x1 x2 s) := by
  intro q z x0 x1 x2 s hs
  unfold execChainSend
  conv => arg 3; zeta
  repeat'
    first
    | with_reducible assumption
    | (simp -zeta only [↓is_mk, ↓isO_next, ↓State.await_keeps, ↓State.hostCmd_keeps, ↓State.modChain_keeps, ↓State.pushBulk_keeps]; try change Is q z _)
    | refine State.hostCmd_keeps (fun l s hs => ?_) ?_
    | (with_reducible refine is_ite ?_ ?_; rotate_left; intro h; try simp -zeta only [↓is_mk, ↓isO_next, ↓State.await_keeps, ↓State.hostCmd_keeps, ↓State.modChain_keeps, ↓State.pushBulk_keeps] at h)
    | (with_reducible refine isO_ite ?_ ?_)
    | with_reducible refine is_foldl (fun s b hs => ?_) ?_
    | (split <;> try (rename_i h; refine is_step (is_snd (q := q) (z := z) h ?_) (fun hs => ?_); rotate_left; clear h))
    | split

theorem State.consume_keeps : ∀ s x1 x2 x3, Is q z (State.consume s x1 x2 x3) ↔ Is q z s := by
  intro s x1 x2 x3; refine is_iff fun q z hs => ?_
  unfold State.consume
  conv => arg 3; zeta
  repeat'
    first
    | with_reducible assumption
    | (simp -zeta only [↓is_mk, ↓State.delayAnswer_keeps, ↓State.importAll_keeps, ↓State.modChain_keeps, ↓State.ownBulk_keeps, ↓State.takeMgmt_keeps]; try change Is q z _)
    | (with_reducible refine is_ite ?_ ?_; rotate_left; intro h; try simp -zeta only [↓is_mk, ↓State.delayAnswer_keeps, ↓State.importAll_keeps, ↓State.modChain_keeps, ↓State.ownBulk_keeps, ↓State.takeMgmt_keeps] at h)
    | (split <;> try (rename_i h; refine is_step (is_snd (q := q) (z := z) h ?_) (fun hs => ?_); rotate_left; clear h))
    | split

theorem execBulkFrameReceived_keeps : ∀ q z x0 x1 x2 x3 s, Is q z s → IsO q z (execBulkFrameReceived x0 x1 x2 x3 s) := by
  intro q z x0 x1 x2 x3 s hs
  unfold execBulkFrameReceived
  conv => arg 3; zeta
  repeat'
    first
    | with_reducible assumption
    | (simp -zeta only [↓is_mk, ↓isO_next, ↓State.chainBump_keeps, ↓State.consume_keeps, ↓State.forward_keeps, ↓State.linkBump_keeps, ↓State.teach_keeps]; try change Is q z _)
    | (with_reducible refine is_ite ?_ ?_; rotate_left; intro h; try simp -zeta only [↓is_mk, ↓isO_next, ↓State.chainBump_keeps, ↓State.consume_keeps, ↓State.forward_keeps, ↓State.linkBump_keeps, ↓State.teach_keeps] at h)
    | (with_reducible refine isO_ite ?_ ?_)
    | (split <;> try (rename_i h; refine is_step (is_snd (q := q) (z := z) h ?_) (fun hs => ?_); rotate_left; clear h))
    | split

theorem State.headBulk_keeps {s t : State} {p : Nat} {b : Bulk} (hs : Is q z s)
    (h : s.headBulk p = some (b, t)) : Is q z t := by
  unfold State.headBulk at h
  dsimp only at h
  repeat' split at h
  all_goals first
    | (cases h; done)
    | (rw [← (Prod.mk.inj (Option.some.inj h)).2]
       simpa only [↓State.modChain_keeps, ↓State.ownBulk_keeps] using hs)

theorem State.rejectBulk_keeps : ∀ s x1 x2, Is q z (State.rejectBulk s x1 x2) ↔ Is q z s := by
  intro s x1 x2; refine is_iff fun q z hs => ?_
  unfold State.rejectBulk
  conv => arg 3; zeta
  repeat'
    first
    | with_reducible assumption
    | (simp -zeta only [↓is_mk, ↓State.linkBump_keeps, ↓State.ownBulk_keeps]; try change Is q z _)
    | (with_reducible refine is_ite ?_ ?_; rotate_left; intro h; try simp -zeta only [↓is_mk, ↓State.linkBump_keeps, ↓State.ownBulk_keeps] at h)
    | (split <;> try (rename_i h; refine is_step (is_snd (q := q) (z := z) h ?_) (fun hs => ?_); rotate_left; clear h))
    | split

theorem execBulkFrameSend_keeps : ∀ q z x0 x1 s, Is q z s → IsO q z (execBulkFrameSend x0 x1 s) := by
  intro q z x0 x1 s hs
  unfold execBulkFrameSend
  dsimp only
  have hu : Is q z (State.reach (s.chain.busyTo.get 0 x0.val) s) := by simpa only [↓State.reach_keeps] using hs
  refine isO_ite (by simpa only [isO_next] using hs) ?_
  generalize State.reach (s.chain.busyTo.get 0 x0.val) s = u at hu ⊢
  split
  · rename_i b t hw hb
    have ht := State.headBulk_keeps hu hb
    repeat' refine isO_ite ?_ ?_
    all_goals simp only [↓isO_next, ↓State.rejectBulk_keeps, ↓State.linkBump_keeps, ↓State.emit_keeps, ↓State.modChain_keeps, hu, ht]
  · simpa only [isO_next] using hu

theorem execBindImport_keeps : ∀ q z x0 x1 x2 s, Is q z s → IsO q z (execBindImport x0 x1 x2 s) := by
  intro q z x0 x1 x2 s hs
  unfold execBindImport
  conv => arg 3; zeta
  repeat'
    first
    | with_reducible assumption
    | (simp -zeta only [↓is_mk, ↓isO_next, ↓State.askTwins_keeps, ↓State.finish_keeps, ↓State.hostCmd_keeps, ↓State.modChain_keeps]; try change Is q z _)
    | refine State.hostCmd_keeps (fun l s hs => ?_) ?_
    | (with_reducible refine is_ite ?_ ?_; rotate_left; intro h; try simp -zeta only [↓is_mk, ↓isO_next, ↓State.askTwins_keeps, ↓State.finish_keeps, ↓State.hostCmd_keeps, ↓State.modChain_keeps] at h)
    | (with_reducible refine isO_ite ?_ ?_)
    | (split <;> try (rename_i h; refine is_step (is_snd (q := q) (z := z) h ?_) (fun hs => ?_); rotate_left; clear h))
    | split

theorem execUnbindImport_keeps : ∀ q z x0 x1 x2 s, Is q z s → IsO q z (execUnbindImport x0 x1 x2 s) := by
  intro q z x0 x1 x2 s hs
  unfold execUnbindImport
  simp only [↓isO_next]
  refine State.hostCmd_keeps (fun l t ht => ?_) hs
  simp only [↓State.finish_keeps]
  refine is_foldl (fun s t hs => is_foldl (fun s c hs => ?_) hs) ?_
  · simpa only [↓State.hubLeave_keeps] using hs
  · simpa only [↓State.modChain_keeps] using ht

end Sys2Proof.Machine
end

