-- ==== Sys2Proof/Laws/KeepCart.lean ====
section
/-! SUPPORT. No operation of Cart touches the command queue, and none but the burning of fuses
touches the fuses. -/

set_option linter.all false

namespace Sys2Proof.Machine

variable {q : List Instr} {z : Fuses}

theorem State.sendCart_keeps : ∀ s x1 x2, Is q z (State.sendCart s x1 x2) ↔ Is q z s := by
  intro s x1 x2; refine is_iff fun q z hs => ?_
  unfold State.sendCart
  conv => arg 3; zeta
  repeat'
    first
    | with_reducible assumption
    | (simp -zeta only [↓is_mk, ↓State.emit_keeps]; try change Is q z _)
    | (with_reducible refine is_ite ?_ ?_; rotate_left; intro h; try simp -zeta only [↓is_mk, ↓State.emit_keeps] at h)
    | split

theorem State.addCorr_keeps : ∀ s x1 x2 x3, Is q z (State.addCorr s x1 x2 x3).2 ↔ Is q z s := by
  intro s x1 x2 x3; refine is_iff fun q z hs => ?_
  unfold State.addCorr
  conv => arg 3; zeta
  repeat'
    first
    | with_reducible assumption
    | (simp -zeta only [↓is_mk, ↓State.passOf_keeps]; try change Is q z _)
    | (split <;> try (rename_i h; refine is_step (is_snd (q := q) (z := z) h ?_) (fun hs => ?_); rotate_left; clear h))

theorem State.followAt_keeps : ∀ s x1 x2, Is q z (State.followAt s x1 x2) ↔ Is q z s := by
  intro s x1 x2; refine is_iff fun q z hs => ?_
  unfold State.followAt
  conv => arg 3; zeta
  repeat'
    first
    | with_reducible assumption
    | (simp -zeta only [↓is_mk, ↓State.modTime_keeps]; try change Is q z _)

theorem State.stepForward_keeps : ∀ s x1, Is q z (State.stepForward s x1) ↔ Is q z s := by
  intro s x1; refine is_iff fun q z hs => ?_
  unfold State.stepForward
  conv => arg 3; zeta
  repeat'
    first
    | with_reducible assumption
    | (simp -zeta only [↓is_mk, ↓State.modTime_keeps, ↓State.postEvent_keeps, ↓State.realign_keeps, ↓State.slotSync_keeps]; try change Is q z _)

theorem State.correct_keeps : ∀ s x1, Is q z (State.correct s x1) ↔ Is q z s := by
  intro s x1; refine is_iff fun q z hs => ?_
  unfold State.correct
  conv => arg 3; zeta
  repeat'
    first
    | with_reducible assumption
    | (simp -zeta only [↓is_mk, ↓State.detach_keeps, ↓State.followAt_keeps, ↓State.modChain_keeps, ↓State.stepForward_keeps]; try change Is q z _)
    | (with_reducible refine is_ite ?_ ?_; rotate_left; intro h; try simp -zeta only [↓is_mk, ↓State.detach_keeps, ↓State.followAt_keeps, ↓State.modChain_keeps, ↓State.stepForward_keeps] at h)
    | (split <;> try (rename_i h; refine is_step (is_snd (q := q) (z := z) h ?_) (fun hs => ?_); rotate_left; clear h))
    | split

theorem State.takeChange_keeps : ∀ s x1, Is q z (State.takeChange s x1) ↔ Is q z s := by
  intro s x1; refine is_iff fun q z hs => ?_
  unfold State.takeChange
  conv => arg 3; zeta
  repeat'
    first
    | with_reducible assumption
    | (simp -zeta only [↓is_mk, ↓State.modWriter_keeps]; try change Is q z _)
    | (with_reducible refine is_ite ?_ ?_; rotate_left; intro h; try simp -zeta only [↓is_mk, ↓State.modWriter_keeps] at h)
    | split

theorem State.takeEpochs_keeps : ∀ s x1 x2, Is q z (State.takeEpochs s x1 x2) ↔ Is q z s := by
  intro s x1 x2; refine is_iff fun q z hs => ?_
  unfold State.takeEpochs
  conv => arg 3; zeta
  repeat'
    first
    | with_reducible assumption
    | (simp -zeta only [↓is_mk, ↓State.epochsStart_keeps, ↓State.modWriter_keeps, ↓State.takeChange_keeps]; try change Is q z _)
    | (with_reducible refine is_ite ?_ ?_; rotate_left; intro h; try simp -zeta only [↓is_mk, ↓State.epochsStart_keeps, ↓State.modWriter_keeps, ↓State.takeChange_keeps] at h)
    | (split <;> try (rename_i h; refine is_step (is_snd (q := q) (z := z) h ?_) (fun hs => ?_); rotate_left; clear h))
    | split

theorem State.takeTime_keeps : ∀ s x1 x2, Is q z (State.takeTime s x1 x2) ↔ Is q z s := by
  intro s x1 x2; refine is_iff fun q z hs => ?_
  unfold State.takeTime
  conv => arg 3; zeta
  repeat'
    first
    | with_reducible assumption
    | (simp -zeta only [↓is_mk, ↓State.chainBump_keeps, ↓State.detach_keeps, ↓State.ready_keeps, ↓State.settleTo_keeps, ↓State.takeChange_keeps, ↓State.takeEpochs_keeps]; try change Is q z _)
    | (with_reducible refine is_ite ?_ ?_; rotate_left; intro h; try simp -zeta only [↓is_mk, ↓State.chainBump_keeps, ↓State.detach_keeps, ↓State.ready_keeps, ↓State.settleTo_keeps, ↓State.takeChange_keeps, ↓State.takeEpochs_keeps] at h)
    | (split <;> try (rename_i h; refine is_step (is_snd (q := q) (z := z) h ?_) (fun hs => ?_); rotate_left; clear h))
    | split

theorem State.drawBytes_keeps : ∀ x0 s, Is q z (State.drawBytes x0 s).2 ↔ Is q z s := by
  intro x0 s; refine is_iff fun q z hs => ?_
  induction x0 generalizing s with
  | zero => exact hs
  | succ n ih =>
    simp only [State.drawBytes]
    refine ih _ ?_
    simpa only [↓State.draw_keeps] using hs

theorem State.slotAnswer_keeps : ∀ s x1 x2 x3, Is q z (State.slotAnswer s x1 x2 x3).2 ↔ Is q z s := by
  intro s x1 x2 x3; refine is_iff fun q z hs => ?_
  unfold State.slotAnswer
  conv => arg 3; zeta
  repeat'
    first
    | with_reducible assumption
    | (simp -zeta only [↓is_mk, ↓State.drawBytes_keeps, ↓State.modChain_keeps, ↓State.ready_keeps]; try change Is q z _)
    | (with_reducible refine is_ite ?_ ?_; rotate_left; intro h; try simp -zeta only [↓is_mk, ↓State.drawBytes_keeps, ↓State.modChain_keeps, ↓State.ready_keeps] at h)
    | (with_reducible refine is_ite_snd ?_ ?_)
    | (split <;> try (rename_i h; refine is_step (is_snd (q := q) (z := z) h ?_) (fun hs => ?_); rotate_left; clear h))
    | split

theorem State.takeCommand_keeps : ∀ s x1 x2 x3, Is q z (State.takeCommand s x1 x2 x3) ↔ Is q z s := by
  intro s x1 x2 x3; refine is_iff fun q z hs => ?_
  unfold State.takeCommand
  conv => arg 3; zeta
  repeat'
    first
    | with_reducible assumption
    | (simp -zeta only [↓is_mk, ↓State.chainBump_keeps, ↓State.detach_keeps, ↓State.emit_keeps, ↓State.modChain_keeps, ↓State.postEvent_keeps]; try change Is q z _)
    | (with_reducible refine is_ite ?_ ?_; rotate_left; intro h; try simp -zeta only [↓is_mk, ↓State.chainBump_keeps, ↓State.detach_keeps, ↓State.emit_keeps, ↓State.modChain_keeps, ↓State.postEvent_keeps] at h)
    | (split <;> try (rename_i h; refine is_step (is_snd (q := q) (z := z) h ?_) (fun hs => ?_); rotate_left; clear h))
    | split

theorem State.takeSlot_keeps : ∀ s x1 x2 x3, Is q z (State.takeSlot s x1 x2 x3).2 ↔ Is q z s := by
  intro s x1 x2 x3; refine is_iff fun q z hs => ?_
  unfold State.takeSlot
  conv => arg 3; zeta
  repeat'
    first
    | with_reducible assumption
    | (simp -zeta only [↓is_mk, ↓State.chainBump_keeps, ↓State.modChain_keeps, ↓State.slotAnswer_keeps, ↓State.takeCommand_keeps]; try change Is q z _)
    | (with_reducible refine is_ite ?_ ?_; rotate_left; intro h; try simp -zeta only [↓is_mk, ↓State.chainBump_keeps, ↓State.modChain_keeps, ↓State.slotAnswer_keeps, ↓State.takeCommand_keeps] at h)
    | (with_reducible refine is_ite_snd ?_ ?_)
    | (split <;> try (rename_i h; refine is_step (is_snd (q := q) (z := z) h ?_) (fun hs => ?_); rotate_left; clear h))
    | split

theorem State.takeId_keeps : ∀ s x1 x2 x3, Is q z (State.takeId s x1 x2 x3).2 ↔ Is q z s := by
  intro s x1 x2 x3; refine is_iff fun q z hs => ?_
  unfold State.takeId
  conv => arg 3; zeta
  repeat'
    first
    | with_reducible assumption
    | (simp -zeta only [↓is_mk, ↓State.modChain_keeps]; try change Is q z _)
    | (with_reducible refine is_ite ?_ ?_; rotate_left; intro h; try simp -zeta only [↓is_mk, ↓State.modChain_keeps] at h)
    | (with_reducible refine is_ite_snd ?_ ?_)
    | (split <;> try (rename_i h; refine is_step (is_snd (q := q) (z := z) h ?_) (fun hs => ?_); rotate_left; clear h))
    | split

theorem State.takeCart_keeps : ∀ s x1 x2 x3 x4 x5, Is q z (State.takeCart s x1 x2 x3 x4 x5).2 ↔ Is q z s := by
  intro s x1 x2 x3 x4 x5; refine is_iff fun q z hs => ?_
  unfold State.takeCart
  conv => arg 3; zeta
  repeat'
    first
    | with_reducible assumption
    | (simp -zeta only [↓is_mk, ↓State.addCorr_keeps, ↓State.correct_keeps, ↓State.modChain_keeps, ↓State.passOf_keeps, ↓State.takeId_keeps, ↓State.takeSlot_keeps, ↓State.takeTime_keeps]; try change Is q z _)
    | (with_reducible refine is_ite ?_ ?_; rotate_left; intro h; try simp -zeta only [↓is_mk, ↓State.addCorr_keeps, ↓State.correct_keeps, ↓State.modChain_keeps, ↓State.passOf_keeps, ↓State.takeId_keeps, ↓State.takeSlot_keeps, ↓State.takeTime_keeps] at h)
    | (with_reducible refine is_ite_snd ?_ ?_)
    | (split <;> try (rename_i h; refine is_step (is_snd (q := q) (z := z) h ?_) (fun hs => ?_); rotate_left; clear h))
    | split

theorem execCartPass_keeps : ∀ q z x0 x1 x2 x3 s, Is q z s → IsO q z (execCartPass x0 x1 x2 x3 s) := by
  intro q z x0 x1 x2 x3 s hs
  unfold execCartPass
  conv => arg 3; zeta
  repeat'
    first
    | with_reducible assumption
    | (simp -zeta only [↓is_mk, ↓isO_next, ↓State.addCorr_keeps, ↓State.chainBump_keeps, ↓State.detach_keeps, ↓State.linkBump_keeps, ↓State.modChain_keeps, ↓State.sendCart_keeps, ↓State.takeCart_keeps]; try change Is q z _)
    | (with_reducible refine is_ite ?_ ?_; rotate_left; intro h; try simp -zeta only [↓is_mk, ↓isO_next, ↓State.addCorr_keeps, ↓State.chainBump_keeps, ↓State.detach_keeps, ↓State.linkBump_keeps, ↓State.modChain_keeps, ↓State.sendCart_keeps, ↓State.takeCart_keeps] at h)
    | (with_reducible refine isO_ite ?_ ?_)
    | (split <;> try (rename_i h; refine is_step (is_snd (q := q) (z := z) h ?_) (fun hs => ?_); rotate_left; clear h))
    | split

theorem execCartLossDetach_keeps : ∀ q z s, Is q z s → IsO q z (execCartLossDetach s) := by
  intro q z s hs
  unfold execCartLossDetach
  conv => arg 3; zeta
  repeat'
    first
    | with_reducible assumption
    | (simp -zeta only [↓is_mk, ↓isO_next, ↓State.detach_keeps, ↓State.reach_keeps]; try change Is q z _)
    | (with_reducible refine is_ite ?_ ?_; rotate_left; intro h; try simp -zeta only [↓is_mk, ↓isO_next, ↓State.detach_keeps, ↓State.reach_keeps] at h)
    | (with_reducible refine isO_ite ?_ ?_)
    | split

theorem State.modSlot_keeps : ∀ x0 x1 s, Is q z (State.modSlot x0 x1 s) ↔ Is q z s := by
  intro x0 x1 s; refine is_iff fun q z hs => ?_
  unfold State.modSlot
  conv => arg 3; zeta
  repeat'
    first
    | with_reducible assumption
    | (simp -zeta only [↓is_mk, ↓State.modChain_keeps]; try change Is q z _)
    | (with_reducible refine is_ite ?_ ?_; rotate_left; intro h; try simp -zeta only [↓is_mk, ↓State.modChain_keeps] at h)
    | split

theorem State.settleMore_keeps : ∀ s, Is q z (State.settleMore s) ↔ Is q z s := by
  intro s; refine is_iff fun q z hs => ?_
  unfold State.settleMore
  conv => arg 3; zeta
  repeat'
    first
    | with_reducible assumption
    | (simp -zeta only [↓is_mk, ↓State.rootSettle_keeps]; try change Is q z _)

theorem State.holdDetached_keeps : ∀ s x1, Is q z (State.holdDetached s x1) ↔ Is q z s := by
  intro s x1; refine is_iff fun q z hs => ?_
  unfold State.holdDetached
  conv => arg 3; zeta
  repeat'
    first
    | with_reducible assumption
    | (simp -zeta only [↓is_mk, ↓State.modSlot_keeps, ↓State.postEvent_keeps]; try change Is q z _)
    | (with_reducible refine is_ite ?_ ?_; rotate_left; intro h; try simp -zeta only [↓is_mk, ↓State.modSlot_keeps, ↓State.postEvent_keeps] at h)
    | (split <;> try (rename_i h; refine is_step (is_snd (q := q) (z := z) h ?_) (fun hs => ?_); rotate_left; clear h))
    | split

theorem State.countSilence_keeps : ∀ s, Is q z (State.countSilence s) ↔ Is q z s := by
  intro s; refine is_iff fun q z hs => ?_
  unfold State.countSilence
  conv => arg 3; zeta
  repeat'
    first
    | with_reducible assumption
    | (simp -zeta only [↓is_mk, ↓State.holdDetached_keeps, ↓State.modChain_keeps, ↓State.settleMore_keeps]; try change Is q z _)
    | (with_reducible refine is_ite ?_ ?_; rotate_left; intro h; try simp -zeta only [↓is_mk, ↓State.holdDetached_keeps, ↓State.modChain_keeps, ↓State.settleMore_keeps] at h)
    | with_reducible refine is_foldl (fun s b hs => ?_) ?_
    | split

theorem execDetachHoldExpiry_keeps : ∀ q z x0 s, Is q z s → IsO q z (execDetachHoldExpiry x0 s) := by
  intro q z x0 s hs
  unfold execDetachHoldExpiry
  conv => arg 3; zeta
  repeat'
    first
    | with_reducible assumption
    | (simp -zeta only [↓is_mk, ↓isO_next, ↓State.modChain_keeps, ↓State.reach_keeps, ↓State.settleMore_keeps]; try change Is q z _)
    | (with_reducible refine is_ite ?_ ?_; rotate_left; intro h; try simp -zeta only [↓is_mk, ↓isO_next, ↓State.modChain_keeps, ↓State.reach_keeps, ↓State.settleMore_keeps] at h)
    | (with_reducible refine isO_ite ?_ ?_)
    | (split <;> try (rename_i h; refine is_step (is_snd (q := q) (z := z) h ?_) (fun hs => ?_); rotate_left; clear h))
    | split

theorem execCartLaunch_keeps : ∀ q z s, Is q z s → IsO q z (execCartLaunch s) := by
  intro q z s hs
  unfold execCartLaunch
  conv => arg 3; zeta
  repeat'
    first
    | with_reducible assumption
    | (simp -zeta only [↓is_mk, ↓isO_next, ↓State.countSilence_keeps, ↓State.draw_keeps, ↓State.elapse_keeps, ↓State.launch_keeps, ↓State.modChain_keeps, ↓State.postEvent_keeps, ↓State.reachT64_keeps, ↓State.sendCart_keeps]; try change Is q z _)
    | (with_reducible refine is_ite ?_ ?_; rotate_left; intro h; try simp -zeta only [↓is_mk, ↓isO_next, ↓State.countSilence_keeps, ↓State.draw_keeps, ↓State.elapse_keeps, ↓State.launch_keeps, ↓State.modChain_keeps, ↓State.postEvent_keeps, ↓State.reachT64_keeps, ↓State.sendCart_keeps] at h)
    | (with_reducible refine isO_ite ?_ ?_)
    | with_reducible refine is_foldl (fun s b hs => ?_) ?_
    | (split <;> try (rename_i h; refine is_step (is_snd (q := q) (z := z) h ?_) (fun hs => ?_); rotate_left; clear h))
    | split

theorem State.heardState_keeps : ∀ s x1 x2, Is q z (State.heardState s x1 x2) ↔ Is q z s := by
  intro s x1 x2; refine is_iff fun q z hs => ?_
  unfold State.heardState
  conv => arg 3; zeta
  repeat'
    first
    | with_reducible assumption
    | (simp -zeta only [↓is_mk, ↓State.holdDetached_keeps, ↓State.modSlot_keeps]; try change Is q z _)
    | (with_reducible refine is_ite ?_ ?_; rotate_left; intro h; try simp -zeta only [↓is_mk, ↓State.holdDetached_keeps, ↓State.modSlot_keeps] at h)
    | (split <;> try (rename_i h; refine is_step (is_snd (q := q) (z := z) h ?_) (fun hs => ?_); rotate_left; clear h))
    | split

theorem State.takeSummary_keeps : ∀ s x1 x2, Is q z (State.takeSummary s x1 x2) ↔ Is q z s := by
  intro s x1 x2; refine is_iff fun q z hs => ?_
  unfold State.takeSummary
  conv => arg 3; zeta
  repeat'
    first
    | with_reducible assumption
    | (simp -zeta only [↓is_mk, ↓State.chainBump_keeps, ↓State.modWriter_keeps, ↓State.varnBump_keeps]; try change Is q z _)
    | (with_reducible refine is_ite ?_ ?_; rotate_left; intro h; try simp -zeta only [↓is_mk, ↓State.chainBump_keeps, ↓State.modWriter_keeps, ↓State.varnBump_keeps] at h)
    | (split <;> try (rename_i h; refine is_step (is_snd (q := q) (z := z) h ?_) (fun hs => ?_); rotate_left; clear h))
    | split

theorem State.takeAnswer_keeps : ∀ s x1 x2 x3, Is q z (State.takeAnswer s x1 x2 x3) ↔ Is q z s := by
  intro s x1 x2 x3; refine is_iff fun q z hs => ?_
  unfold State.takeAnswer
  conv => arg 3; zeta
  repeat'
    first
    | with_reducible assumption
    | (simp -zeta only [↓is_mk, ↓State.emit_keeps, ↓State.heardState_keeps, ↓State.modSlot_keeps, ↓State.takeSummary_keeps]; try change Is q z _)
    | (with_reducible refine is_ite ?_ ?_; rotate_left; intro h; try simp -zeta only [↓is_mk, ↓State.emit_keeps, ↓State.heardState_keeps, ↓State.modSlot_keeps, ↓State.takeSummary_keeps] at h)
    | (split <;> try (rename_i h; refine is_step (is_snd (q := q) (z := z) h ?_) (fun hs => ?_); rotate_left; clear h))
    | split

theorem State.checkSlot_keeps : ∀ s x1 x2, Is q z (State.checkSlot s x1 x2) ↔ Is q z s := by
  intro s x1 x2; refine is_iff fun q z hs => ?_
  unfold State.checkSlot
  conv => arg 3; zeta
  repeat'
    first
    | with_reducible assumption
    | (simp -zeta only [↓is_mk, ↓State.chainBump_keeps, ↓State.takeAnswer_keeps]; try change Is q z _)
    | (with_reducible refine is_ite ?_ ?_; rotate_left; intro h; try simp -zeta only [↓is_mk, ↓State.chainBump_keeps, ↓State.takeAnswer_keeps] at h)
    | (split <;> try (rename_i h; refine is_step (is_snd (q := q) (z := z) h ?_) (fun hs => ?_); rotate_left; clear h))
    | split

theorem State.enumBack_keeps : ∀ s x1, Is q z (State.enumBack s x1) ↔ Is q z s := by
  intro s x1; refine is_iff fun q z hs => ?_
  unfold State.enumBack
  conv => arg 3; zeta
  repeat'
    first
    | with_reducible assumption
    | (simp -zeta only [↓is_mk, ↓State.completeWhere_keeps, ↓State.modChain_keeps, ↓State.postEvent_keeps, ↓State.settleMore_keeps]; try change Is q z _)
    | (with_reducible refine is_ite ?_ ?_; rotate_left; intro h; try simp -zeta only [↓is_mk, ↓State.completeWhere_keeps, ↓State.modChain_keeps, ↓State.postEvent_keeps, ↓State.settleMore_keeps] at h)
    | with_reducible refine is_foldl (fun s b hs => ?_) ?_
    | split

theorem State.joined_keeps : ∀ s x1, Is q z (State.joined s x1) ↔ Is q z s := by
  intro s x1; refine is_iff fun q z hs => ?_
  unfold State.joined
  conv => arg 3; zeta
  repeat'
    first
    | with_reducible assumption
    | (simp -zeta only [↓is_mk, ↓State.modChain_keeps]; try change Is q z _)

theorem State.readReturn_keeps : ∀ s x1 x2 x3 x4 x5, Is q z (State.readReturn s x1 x2 x3 x4 x5) ↔ Is q z s := by
  intro s x1 x2 x3 x4 x5; refine is_iff fun q z hs => ?_
  unfold State.readReturn
  conv => arg 3; zeta
  repeat'
    first
    | with_reducible assumption
    | (simp -zeta only [↓is_mk, ↓State.chainBump_keeps, ↓State.checkSlot_keeps, ↓State.enumBack_keeps, ↓State.joined_keeps, ↓State.modChain_keeps, ↓State.settleMore_keeps]; try change Is q z _)
    | (with_reducible refine is_ite ?_ ?_; rotate_left; intro h; try simp -zeta only [↓is_mk, ↓State.chainBump_keeps, ↓State.checkSlot_keeps, ↓State.enumBack_keeps, ↓State.joined_keeps, ↓State.modChain_keeps, ↓State.settleMore_keeps] at h)
    | with_reducible refine is_foldl (fun s b hs => ?_) ?_
    | (split <;> try (rename_i h; refine is_step (is_snd (q := q) (z := z) h ?_) (fun hs => ?_); rotate_left; clear h))
    | split

theorem State.foreignCart_keeps : ∀ s, Is q z (State.foreignCart s) ↔ Is q z s := by
  intro s; refine is_iff fun q z hs => ?_
  unfold State.foreignCart
  conv => arg 3; zeta
  repeat'
    first
    | with_reducible assumption
    | (simp -zeta only [↓is_mk, ↓State.chainBump_keeps, ↓State.modChain_keeps, ↓State.postEvent_keeps]; try change Is q z _)
    | (with_reducible refine is_ite ?_ ?_; rotate_left; intro h; try simp -zeta only [↓is_mk, ↓State.chainBump_keeps, ↓State.modChain_keeps, ↓State.postEvent_keeps] at h)
    | split

theorem execCartReturn_keeps : ∀ q z x0 x1 x2 x3 x4 s, Is q z s → IsO q z (execCartReturn x0 x1 x2 x3 x4 s) := by
  intro q z x0 x1 x2 x3 x4 s hs
  unfold execCartReturn
  conv => arg 3; zeta
  repeat'
    first
    | with_reducible assumption
    | (simp -zeta only [↓is_mk, ↓isO_next, ↓State.addCorr_keeps, ↓State.chainBump_keeps, ↓State.foreignCart_keeps, ↓State.linkBump_keeps, ↓State.modChain_keeps, ↓State.readReturn_keeps, ↓State.sendCart_keeps]; try change Is q z _)
    | (with_reducible refine is_ite ?_ ?_; rotate_left; intro h; try simp -zeta only [↓is_mk, ↓isO_next, ↓State.addCorr_keeps, ↓State.chainBump_keeps, ↓State.foreignCart_keeps, ↓State.linkBump_keeps, ↓State.modChain_keeps, ↓State.readReturn_keeps, ↓State.sendCart_keeps] at h)
    | (with_reducible refine isO_ite ?_ ?_)
    | (split <;> try (rename_i h; refine is_step (is_snd (q := q) (z := z) h ?_) (fun hs => ?_); rotate_left; clear h))
    | split

theorem execRootConflictRearm_keeps : ∀ q z s, Is q z s → IsO q z (execRootConflictRearm s) := by
  intro q z s hs
  unfold execRootConflictRearm
  conv => arg 3; zeta
  repeat'
    first
    | with_reducible assumption
    | (simp -zeta only [↓is_mk, ↓isO_next, ↓State.modChain_keeps, ↓State.reach_keeps]; try change Is q z _)
    | (split <;> try (rename_i h; refine is_step (is_snd (q := q) (z := z) h ?_) (fun hs => ?_); rotate_left; clear h))
    | split

theorem execEnumerate_keeps : ∀ q z x0 x1 x2 s, Is q z s → IsO q z (execEnumerate x0 x1 x2 s) := by
  intro q z x0 x1 x2 s hs
  unfold execEnumerate
  conv => arg 3; zeta
  repeat'
    first
    | with_reducible assumption
    | (simp -zeta only [↓is_mk, ↓isO_next, ↓State.await_keeps, ↓State.hostCmd_keeps, ↓State.modChain_keeps]; try change Is q z _)
    | refine State.hostCmd_keeps (fun l s hs => ?_) ?_

theorem State.leaveChain_keeps : ∀ s, Is q z (State.leaveChain s) ↔ Is q z s := by
  intro s; refine is_iff fun q z hs => ?_
  unfold State.leaveChain
  conv => arg 3; zeta
  repeat'
    first
    | with_reducible assumption
    | (simp -zeta only [↓is_mk, ↓State.modWriter_keeps, ↓State.settleOwn_keeps, ↓State.settleTo_keeps]; try change Is q z _)
    | with_reducible refine is_foldl (fun s b hs => ?_) ?_
    | (split <;> try (rename_i h; refine is_step (is_snd (q := q) (z := z) h ?_) (fun hs => ?_); rotate_left; clear h))
    | split

theorem State.newRole_keeps : ∀ s x1, Is q z (State.newRole s x1) ↔ Is q z s := by
  intro s x1; refine is_iff fun q z hs => ?_
  unfold State.newRole
  conv => arg 3; zeta
  repeat'
    first
    | with_reducible assumption
    | (simp -zeta only [↓is_mk, ↓State.completeWhere_keeps, ↓State.leaveChain_keeps, ↓State.modChain_keeps, ↓State.modTime_keeps]; try change Is q z _)
    | (with_reducible refine is_ite ?_ ?_; rotate_left; intro h; try simp -zeta only [↓is_mk, ↓State.completeWhere_keeps, ↓State.leaveChain_keeps, ↓State.modChain_keeps, ↓State.modTime_keeps] at h)
    | split

theorem execChainConfig_keeps : ∀ q z x0 x1 x2 s, Is q z s → IsO q z (execChainConfig x0 x1 x2 s) := by
  intro q z x0 x1 x2 s hs
  unfold execChainConfig
  conv => arg 3; zeta
  repeat'
    first
    | with_reducible assumption
    | (simp -zeta only [↓is_mk, ↓isO_next, ↓State.chainDown_keeps, ↓State.finish_keeps, ↓State.hostCmd_keeps, ↓State.modChain_keeps, ↓State.named_keeps, ↓State.newRole_keeps]; try change Is q z _)
    | refine State.hostCmd_keeps (fun l s hs => ?_) ?_
    | (with_reducible refine is_ite ?_ ?_; rotate_left; intro h; try simp -zeta only [↓is_mk, ↓isO_next, ↓State.chainDown_keeps, ↓State.finish_keeps, ↓State.hostCmd_keeps, ↓State.modChain_keeps, ↓State.named_keeps, ↓State.newRole_keeps] at h)
    | (with_reducible refine isO_ite ?_ ?_)
    | with_reducible refine is_foldl (fun s b hs => ?_) ?_
    | (split <;> try (rename_i h; refine is_step (is_snd (q := q) (z := z) h ?_) (fun hs => ?_); rotate_left; clear h))
    | split

end Sys2Proof.Machine
end

