-- ==== Sys2Proof/Laws/KeepJtag.lean ====
section
/-! SUPPORT. No operation of Jtag touches the command queue, and none but the burning of fuses
touches the fuses. -/

set_option linter.all false

namespace Sys2Proof.Machine

variable {q : List Instr} {z : Fuses}

theorem State.modJtag_keeps : ∀ x0 s, Is q z (State.modJtag x0 s) ↔ Is q z s := by
  intro x0 s; refine is_iff fun q z hs => ?_
  unfold State.modJtag
  conv => arg 3; zeta
  repeat'
    first
    | with_reducible assumption
    | (simp -zeta only [↓is_mk]; try change Is q z _)

theorem State.jtagScan_keeps : ∀ s x1 x2 x3, Is q z (State.jtagScan s x1 x2 x3) ↔ Is q z s := by
  intro s x1 x2 x3; refine is_iff fun q z hs => ?_
  unfold State.jtagScan
  conv => arg 3; zeta
  repeat'
    first
    | with_reducible assumption
    | (simp -zeta only [↓is_mk, ↓State.emit_keeps, ↓State.modJtag_keeps]; try change Is q z _)

theorem State.boundaryScan_keeps : ∀ s x1 x2 x3, Is q z (State.boundaryScan s x1 x2 x3) ↔ Is q z s := by
  intro s x1 x2 x3; refine is_iff fun q z hs => ?_
  unfold State.boundaryScan
  conv => arg 3; zeta
  repeat'
    first
    | with_reducible assumption
    | (simp -zeta only [↓is_mk, ↓State.jtagScan_keeps, ↓State.modJtag_keeps]; try change Is q z _)

theorem execExtest_keeps : ∀ q z x0 x1 s, Is q z s → IsO q z (execExtest x0 x1 s) := by
  intro q z x0 x1 s hs
  unfold execExtest
  conv => arg 3; zeta
  repeat'
    first
    | with_reducible assumption
    | (simp -zeta only [↓is_mk, ↓isO_next, ↓State.boundaryScan_keeps]; try change Is q z _)

theorem execSamplePreload_keeps : ∀ q z x0 x1 s, Is q z s → IsO q z (execSamplePreload x0 x1 s) := by
  intro q z x0 x1 s hs
  unfold execSamplePreload
  conv => arg 3; zeta
  repeat'
    first
    | with_reducible assumption
    | (simp -zeta only [↓is_mk, ↓isO_next, ↓State.boundaryScan_keeps]; try change Is q z _)

theorem execIdcode_keeps : ∀ q z s, Is q z s → IsO q z (execIdcode s) := by
  intro q z s hs
  unfold execIdcode
  conv => arg 3; zeta
  repeat'
    first
    | with_reducible assumption
    | (simp -zeta only [↓is_mk, ↓isO_next, ↓State.jtagScan_keeps]; try change Is q z _)

theorem execClamp_keeps : ∀ q z s, Is q z s → IsO q z (execClamp s) := by
  intro q z s hs
  unfold execClamp
  conv => arg 3; zeta
  repeat'
    first
    | with_reducible assumption
    | (simp -zeta only [↓is_mk, ↓isO_next, ↓State.jtagScan_keeps]; try change Is q z _)

theorem execHighz_keeps : ∀ q z s, Is q z s → IsO q z (execHighz s) := by
  intro q z s hs
  unfold execHighz
  conv => arg 3; zeta
  repeat'
    first
    | with_reducible assumption
    | (simp -zeta only [↓is_mk, ↓isO_next, ↓State.jtagScan_keeps]; try change Is q z _)

theorem execBypass_keeps : ∀ q z s, Is q z s → IsO q z (execBypass s) := by
  intro q z s hs
  unfold execBypass
  conv => arg 3; zeta
  repeat'
    first
    | with_reducible assumption
    | (simp -zeta only [↓is_mk, ↓isO_next, ↓State.jtagScan_keeps]; try change Is q z _)

theorem State.traceViol_keeps : ∀ s x1, Is q z (State.traceViol s x1) ↔ Is q z s := by
  intro s x1; refine is_iff fun q z hs => ?_
  unfold State.traceViol
  conv => arg 3; zeta
  repeat'
    first
    | with_reducible assumption
    | (simp -zeta only [↓is_mk, ↓State.modTrace_keeps]; try change Is q z _)
    | (with_reducible refine is_ite ?_ ?_; rotate_left; intro h; try simp -zeta only [↓is_mk, ↓State.modTrace_keeps] at h)
    | split

theorem State.putTrace_keeps : ∀ s x1 x2, Is q z (State.putTrace s x1 x2) ↔ Is q z s := by
  intro s x1 x2; refine is_iff fun q z hs => ?_
  unfold State.putTrace
  conv => arg 3; zeta
  repeat'
    first
    | with_reducible assumption
    | (simp -zeta only [↓is_mk, ↓State.modTrace_keeps, ↓State.traceViol_keeps, ↓State.writeTraceCtrl_keeps]; try change Is q z _)
    | (split <;> try (rename_i h; refine is_step (is_snd (q := q) (z := z) h ?_) (fun hs => ?_); rotate_left; clear h))
    | split

theorem State.putCellDbg_keeps : ∀ s x1 x2 x3, Is q z (State.putCellDbg s x1 x2 x3) ↔ Is q z s := by
  intro s x1 x2 x3; refine is_iff fun q z hs => ?_
  unfold State.putCellDbg
  conv => arg 3; zeta
  repeat'
    first
    | with_reducible assumption
    | (simp -zeta only [↓is_mk, ↓State.killCell_keeps, ↓State.modBank_keeps, ↓State.modCell_keeps, ↓State.runCell_keeps, ↓State.stopCtrl_keeps]; try change Is q z _)
    | refine State.stopCtrl_keeps (fun s n hs => ?_) ?_
    | (with_reducible refine is_ite ?_ ?_; rotate_left; intro h; try simp -zeta only [↓is_mk, ↓State.killCell_keeps, ↓State.modBank_keeps, ↓State.modCell_keeps, ↓State.runCell_keeps, ↓State.stopCtrl_keeps] at h)
    | (split <;> try (rename_i h; refine is_step (is_snd (q := q) (z := z) h ?_) (fun hs => ?_); rotate_left; clear h))
    | split

theorem State.putSteward_keeps : ∀ s x1 x2, Is q z (State.putSteward s x1 x2) ↔ Is q z s := by
  intro s x1 x2; refine is_iff fun q z hs => ?_
  unfold State.putSteward
  conv => arg 3; zeta
  repeat'
    first
    | with_reducible assumption
    | (simp -zeta only [↓is_mk, ↓State.modJtag_keeps]; try change Is q z _)
    | (with_reducible refine is_ite ?_ ?_; rotate_left; intro h; try simp -zeta only [↓is_mk, ↓State.modJtag_keeps] at h)
    | with_reducible refine is_foldl (fun s b hs => ?_) ?_
    | (split <;> try (rename_i h; refine is_step (is_snd (q := q) (z := z) h ?_) (fun hs => ?_); rotate_left; clear h))
    | split

theorem State.dbgError_keeps : ∀ s, Is q z (State.dbgError s) ↔ Is q z s := by
  intro s; refine is_iff fun q z hs => ?_
  unfold State.dbgError
  conv => arg 3; zeta
  repeat'
    first
    | with_reducible assumption
    | (simp -zeta only [↓is_mk, ↓State.modJtag_keeps]; try change Is q z _)

theorem State.dbgRead_keeps : ∀ s x1, Is q z (State.dbgRead s x1).2 ↔ Is q z s := by
  intro s x1; refine is_iff fun q z hs => ?_
  unfold State.dbgRead
  conv => arg 3; zeta
  repeat'
    first
    | with_reducible assumption
    | (simp -zeta only [↓is_mk, ↓State.dbgError_keeps, ↓State.draw_keeps]; try change Is q z _)
    | (with_reducible refine is_ite ?_ ?_; rotate_left; intro h; try simp -zeta only [↓is_mk, ↓State.dbgError_keeps, ↓State.draw_keeps] at h)
    | (with_reducible refine is_ite_snd ?_ ?_)
    | (split <;> try (rename_i h; refine is_step (is_snd (q := q) (z := z) h ?_) (fun hs => ?_); rotate_left; clear h))
    | split

theorem State.dbgWrite_keeps : ∀ s x1 x2, Is q z (State.dbgWrite s x1 x2) ↔ Is q z s := by
  intro s x1 x2; refine is_iff fun q z hs => ?_
  unfold State.dbgWrite
  conv => arg 3; zeta
  repeat'
    first
    | with_reducible assumption
    | (simp -zeta only [↓is_mk, ↓State.dbgError_keeps, ↓State.putCellDbg_keeps, ↓State.putSteward_keeps, ↓State.putTrace_keeps]; try change Is q z _)
    | (split <;> try (rename_i h; refine is_step (is_snd (q := q) (z := z) h ?_) (fun hs => ?_); rotate_left; clear h))
    | split

theorem execDbgAddr_keeps : ∀ q z x0 s, Is q z s → IsO q z (execDbgAddr x0 s) := by
  intro q z x0 s hs
  unfold execDbgAddr
  conv => arg 3; zeta
  repeat'
    first
    | with_reducible assumption
    | (simp -zeta only [↓is_mk, ↓isO_next, ↓State.jtagScan_keeps, ↓State.modJtag_keeps]; try change Is q z _)

theorem execDbgData_keeps : ∀ q z x0 s, Is q z s → IsO q z (execDbgData x0 s) := by
  intro q z x0 s hs
  unfold execDbgData
  conv => arg 3; zeta
  repeat'
    first
    | with_reducible assumption
    | (simp -zeta only [↓is_mk, ↓isO_next, ↓State.dbgRead_keeps, ↓State.dbgWrite_keeps, ↓State.jtagScan_keeps, ↓State.modJtag_keeps]; try change Is q z _)
    | (with_reducible refine is_ite ?_ ?_; rotate_left; intro h; try simp -zeta only [↓is_mk, ↓isO_next, ↓State.dbgRead_keeps, ↓State.dbgWrite_keeps, ↓State.jtagScan_keeps, ↓State.modJtag_keeps] at h)
    | (with_reducible refine isO_ite ?_ ?_)
    | (split <;> try (rename_i h; refine is_step (is_snd (q := q) (z := z) h ?_) (fun hs => ?_); rotate_left; clear h))
    | split

theorem execDbgStatus_keeps : ∀ q z s, Is q z s → IsO q z (execDbgStatus s) := by
  intro q z s hs
  unfold execDbgStatus
  conv => arg 3; zeta
  repeat'
    first
    | with_reducible assumption
    | (simp -zeta only [↓is_mk, ↓isO_next, ↓State.jtagScan_keeps]; try change Is q z _)

end Sys2Proof.Machine
end

