-- ==== Sys2Proof/Laws/KeepAll.lean ====
section
/-! SUPPORT. Every command leaves the queue alone and burns no fuse back. -/

set_option linter.all false
set_option Elab.async false

namespace Sys2Proof.Machine

variable {q : List Instr} {z : Fuses}

theorem Fuses.After.refl (a : Fuses) : a.After a := by constructor <;> simp

/-- The queue is `q` and the fuses are what `z` may become. -/
def IsA (q : List Instr) (z : Fuses) (t : State) : Prop := t.pending = q ∧ z.After t.fuses

/-- An outcome goes on, to a state whose queue is `q` and whose fuses are what `z` may become. -/
def IsAO (q : List Instr) (z : Fuses) (o : Host.Outcome State Fault Refusal) : Prop :=
  ∃ t, o = .next t ∧ IsA q z t

theorem isA_of {t : State} (h : Is q z t) : IsA q z t := ⟨h.1, h.2 ▸ .refl _⟩

theorem isAO_of {o : Host.Outcome State Fault Refusal} (h : IsO q z o) : IsAO q z o :=
  let ⟨t, e, ht⟩ := h; ⟨t, e, isA_of ht⟩

theorem isAO_next (t : State) : IsAO q z (.next t) ↔ IsA q z t := by
  simp [IsAO]

theorem isAO_ite {c : Prop} [Decidable c] {a b : Host.Outcome State Fault Refusal} (ha : IsAO q z a)
    (hb : IsAO q z b) : IsAO q z (if c then a else b) := by
  split <;> assumption

/-- What keeps the queue and the fuses keeps what they may be. -/
theorem isA_step {s t : State} (h : ∀ q z, Is q z s → Is q z t) (hs : IsA q z s) : IsA q z t := by
  obtain ⟨h1, h2⟩ := h s.pending s.fuses ⟨rfl, rfl⟩
  exact ⟨h1.trans hs.1, h2 ▸ hs.2⟩

theorem State.modFuses_after {f : Fuses → Fuses} {s : State} (hs : Is q z s) (hf : z.After (f z)) :
    IsA q z (s.modFuses f) := by
  obtain ⟨h1, rfl⟩ := hs
  exact ⟨h1, hf⟩

theorem execFuseLock_after : ∀ x0 x1 x2 s, Is q z s → IsAO q z (execFuseLock x0 x1 x2 s) := by
  intro r d b s hs
  unfold execFuseLock
  dsimp only
  rw [isAO_next]
  refine State.hostCmd_elim (fun _ h => isA_of h) (fun l t ht => ?_) hs
  refine isA_step (fun q z h => (State.finish_keeps ..).2 h) (State.modFuses_after ht ?_)
  constructor <;> simp

theorem KeySlot.burn_after {k : KeySlot} {l : List Byte} {a : Fuses} (h : k.barred a = false) :
    a.After (k.burn l a) := by
  cases k <;> simp [KeySlot.barred] at h <;> constructor <;> simp_all [KeySlot.burn]

/-- Where nothing refuses a command, none of the conditions of its own stands. -/
theorem State.firstFail_none {s : State} {r : Nat} {c : CmdSpec} {d : Desc} {n : BitVec 16}
    (h : s.firstFail r c d n = none) : ∀ f ∈ c.fails, f.2 = false := by
  unfold State.firstFail at h
  dsimp only at h
  repeat' split at h
  all_goals first
    | (cases h; done)
    | (rename_i hf
       intro f hm
       rw [List.find?_eq_none] at hf
       have := hf f
       by_cases e : f.1 == eLocked <;> simp_all)

/-- A host command answers a state that keeps the queue and the fuses, or what its own effect makes of
one where none of the conditions of its own stood. -/
theorem State.hostCmd_elim' {p : State → Prop} {s : State} {r : Fin 64} {d : Desc} {b : HostBuf}
    {c : CmdSpec} {go : List Byte → State → State} (h0 : ∀ t, Is q z t → p t)
    (hgo : (∀ f ∈ c.fails, f.2 = false) → ∀ l t, Is q z t → p (go l t)) (hs : Is q z s) :
    p (s.hostCmd r d b c go) := by
  by_cases hf : ∀ f ∈ c.fails, f.2 = false
  · exact State.hostCmd_elim h0 (hgo hf) hs
  · unfold State.hostCmd
    dsimp only
    split
    · exact h0 _ hs
    · have hf' : Is q z (s.fetched r.val) := by simpa only [↓State.fetched_keeps] using hs
      split
      · apply h0
        simp only [↓State.complete_keeps]
        refine is_ite (is_ite ?_ ?_) ?_ <;>
          simp only [↓State.aonBump_keeps, ↓State.reeveBump_keeps, hf', implies_true]
      · rename_i h
        exact absurd (State.firstFail_none h) hf

theorem execKeyProvision_after : ∀ x0 x1 x2 s, Is q z s → IsAO q z (execKeyProvision x0 x1 x2 s) := by
  intro r d b s hs
  unfold execKeyProvision
  dsimp only
  rw [isAO_next]
  refine State.hostCmd_elim' (fun _ h => isA_of h) (fun hf l t ht => ?_) hs
  split
  · rename_i k hk
    refine isA_step (fun q z h => (State.finish_keeps ..).2 h) (State.modFuses_after ht ?_)
    have h1 := hf (eLocked, _) (List.mem_cons_self ..)
    rw [hk] at h1
    rw [← hs.2]
    exact KeySlot.burn_after h1
  · exact isA_of ht

theorem State.ringsUp_after {s : State} (hs : Is q z s) : IsA q z s.ringsUp := by
  unfold State.ringsUp
  dsimp only
  split
  · exact isA_of (by simpa only [↓State.modSetup_keeps] using hs)
  · have h : Is q z (((s.modSetup fun u => { u with ringEn := true, ringsUp := true }).modCmd 0
        fun _ => { en := true, base := s.setup.crBase, sizeLog2 := s.setup.crSize.toNat }).modCpl 0 fun _ =>
          { en := true, base := s.setup.cqBase, sizeLog2 := s.setup.cqSize.toNat
            vector := s.setup.cqVector.toNat, holdoff := 0, thresh := 1, armed := true }) := by
      simpa only [↓State.modCpl_keeps, ↓State.modCmd_keeps, ↓State.modSetup_keeps] using hs
    split
    · split
      · refine State.modFuses_after h ?_
        constructor <;> simp
        all_goals omega
      · exact isA_of h
    · exact isA_of h

theorem State.writeRingEn_after {s : State} {on : Bool} (hs : Is q z s) : IsA q z (s.writeRingEn on) := by
  unfold State.writeRingEn
  split
  · exact isA_of hs
  · split
    · exact State.ringsUp_after hs
    · exact isA_of (by simpa only [↓State.modSetup_keeps, ↓State.ringsDown_keeps] using hs)

theorem State.applyReg_after {s : State} {o v : Nat} (hs : Is q z s) : IsA q z (s.applyReg o v) := by
  unfold State.applyReg
  dsimp only
  split
  case h_2 => exact State.writeRingEn_after hs
  all_goals
    apply isA_of
    try with_reducible refine is_ite hs fun _ => ?_
    first
      | assumption
      | simpa only [↓State.modSetup_keeps, ↓State.modTime_keeps, ↓State.writeTbCtrl_keeps,
          ↓State.writePhase_keeps, ↓State.commitTime_keeps] using hs

theorem State.writeReg_after {s : State} {o v : Nat} (hs : Is q z s) : IsA q z (s.writeReg o v).2 := by
  unfold State.writeReg
  dsimp only
  split
  · exact State.applyReg_after hs
  · exact isA_of hs

theorem State.recordViol_after {s : State} {o c : Nat} (hs : IsA q z s) : IsA q z (s.recordViol o c) :=
  isA_step (fun _ _ h => (State.recordViol_keeps ..).2 h) hs

theorem Fuses.After.trans {a b c : Fuses} (h : a.After b) (g : b.After c) : a.After c where
  minSvn := Nat.le_trans h.minSvn g.minSvn
  locked l := g.locked (h.locked l)
  reportKey l := (g.reportKey (h.locked l)).trans (h.reportKey l)
  graphPkh l := (g.graphPkh (h.locked l)).trans (h.graphPkh l)
  fwPkh := g.fwPkh.trans h.fwPkh
  serial := g.serial.trans h.serial
  assetTag := g.assetTag.trans h.assetTag
  ppsInEdge := g.ppsInEdge.trans h.ppsInEdge
  ppsOutWidth := g.ppsOutWidth.trans h.ppsOutWidth

theorem State.write4_after {s : State} {o v : Nat} (hs : Is q z s) : IsA q z (s.write4 o v) := by
  have h := State.writeReg_after (o := o) (v := v) hs
  unfold State.write4
  dsimp only
  split
  · exact State.recordViol_after h
  · exact h

theorem State.write8_after {s : State} {o v : Nat} (hs : Is q z s) : IsA q z (s.write8 o v) := by
  have h := State.writeReg_after (o := o) (v := v % 2 ^ 32) hs
  have g := State.writeReg_after (o := o + 4) (v := v / 2 ^ 32)
    (s := (s.writeReg o (v % 2 ^ 32)).2) ⟨rfl, rfl⟩
  have k : IsA q z ((s.writeReg o (v % 2 ^ 32)).2.writeReg (o + 4) (v / 2 ^ 32)).2 :=
    ⟨g.1.trans h.1, h.2.trans g.2⟩
  unfold State.write8
  dsimp only
  split
  · exact State.recordViol_after k
  · exact State.recordViol_after k
  · exact k

theorem linked_write4 {s : State} {o v : Nat} (hs : Is q z s) :
    IsAO q z (if s.host.linkUp = true then .next (s.write4 o v) else .next s) :=
  isAO_ite ((isAO_next _).2 (State.write4_after hs)) ((isAO_next _).2 (isA_of hs))

theorem execRingEnWrite_after : ∀ x0 s, Is q z s → IsAO q z (execRingEnWrite x0 s) :=
  fun _ _ hs => linked_write4 hs

theorem execTbFreqAdjWrite_after : ∀ x0 s, Is q z s → IsAO q z (execTbFreqAdjWrite x0 s) :=
  fun _ _ hs => linked_write4 hs

theorem execTbPhaseAdjWrite_after : ∀ x0 s, Is q z s → IsAO q z (execTbPhaseAdjWrite x0 s) :=
  fun _ _ hs => linked_write4 hs

theorem execTbSetHiWrite_after : ∀ x0 s, Is q z s → IsAO q z (execTbSetHiWrite x0 s) :=
  fun _ _ hs => linked_write4 hs

theorem execSetupRegisterWrite_after : ∀ x0 x1 x2 s, Is q z s → IsAO q z (execSetupRegisterWrite x0 x1 x2 s) := by
  intro o n v s hs
  have h := isA_of hs
  unfold execSetupRegisterWrite
  dsimp only
  repeat' with_reducible refine isAO_ite ?_ ?_
  all_goals rw [isAO_next]
  all_goals first
    | exact h
    | exact State.write4_after hs
    | exact State.write8_after hs
    | exact State.recordViol_after h
    | (apply isA_of; simpa only [↓State.writeMsix_keeps] using hs)

/-- Every command goes on, leaves the queue alone and burns no fuse back. -/
theorem exec_after (c : Instr) (s : State) (hs : Is q z s) : IsAO q z (exec c s) := by
  cases c with
  | nop => exact isAO_of (execNop_keeps _ _ _ _ _ _ hs)
  | identify => exact isAO_of (execIdentify_keeps _ _ _ _ _ _ hs)
  | createCmdRing => exact isAO_of (execCreateCmdRing_keeps _ _ _ _ _ _ hs)
  | createCplRing => exact isAO_of (execCreateCplRing_keeps _ _ _ _ _ _ hs)
  | deleteRing => exact isAO_of (execDeleteRing_keeps _ _ _ _ _ _ hs)
  | eventRoute => exact isAO_of (execEventRoute_keeps _ _ _ _ _ _ hs)
  | statistics => exact isAO_of (execStatistics_keeps _ _ _ _ _ _ hs)
  | hostInject => exact isAO_of (execHostInject_keeps _ _ _ _ _ _ hs)
  | loadGraph => exact isAO_of (execLoadGraph_keeps _ _ _ _ _ _ _ hs)
  | unloadGraph => exact isAO_of (execUnloadGraph_keeps _ _ _ _ _ _ hs)
  | startGraph => exact isAO_of (execStartGraph_keeps _ _ _ _ _ _ hs)
  | stopGraph => exact isAO_of (execStopGraph_keeps _ _ _ _ _ _ hs)
  | graphEnable => exact isAO_of (execGraphEnable_keeps _ _ _ _ _ _ hs)
  | setGroup => exact isAO_of (execSetGroup_keeps _ _ _ _ _ _ hs)
  | regionCreate => exact isAO_of (execRegionCreate_keeps _ _ _ _ _ _ hs)
  | regionFree => exact isAO_of (execRegionFree_keeps _ _ _ _ _ _ hs)
  | regionCopy => exact isAO_of (execRegionCopy_keeps _ _ _ _ _ _ hs)
  | bindStream => exact isAO_of (execBindStream_keeps _ _ _ _ _ _ hs)
  | unbindStream => exact isAO_of (execUnbindStream_keeps _ _ _ _ _ _ hs)
  | bindImport => exact isAO_of (execBindImport_keeps _ _ _ _ _ _ hs)
  | unbindImport => exact isAO_of (execUnbindImport_keeps _ _ _ _ _ _ hs)
  | sensorPortConfig => exact isAO_of (execSensorPortConfig_keeps _ _ _ _ _ _ hs)
  | actPortConfig => exact isAO_of (execActPortConfig_keeps _ _ _ _ _ _ hs)
  | eventInputConfig => exact isAO_of (execEventInputConfig_keeps _ _ _ _ _ _ hs)
  | reeveConfig => exact isAO_of (execReeveConfig_keeps _ _ _ _ _ _ hs)
  | cellarConfig => exact isAO_of (execCellarConfig_keeps _ _ _ _ _ _ hs)
  | slotAlloc => exact isAO_of (execSlotAlloc_keeps _ _ _ _ _ _ hs)
  | epochConfig => exact isAO_of (execEpochConfig_keeps _ _ _ _ _ _ hs)
  | chainConfig => exact isAO_of (execChainConfig_keeps _ _ _ _ _ _ hs)
  | readResults => exact isAO_of (execReadResults_keeps _ _ _ _ _ _ hs)
  | readReport => exact isAO_of (execReadReport_keeps _ _ _ _ _ _ hs)
  | exqRead => exact isAO_of (execExqRead_keeps _ _ _ _ _ _ hs)
  | enumerate => exact isAO_of (execEnumerate_keeps _ _ _ _ _ _ hs)
  | chainSend => exact isAO_of (execChainSend_keeps _ _ _ _ _ _ hs)
  | noticeSend => exact isAO_of (execNoticeSend_keeps _ _ _ _ _ _ hs)
  | nbProgram => exact isAO_of (execNbProgram_keeps _ _ _ _ _ _ hs)
  | tripConfig => exact isAO_of (execTripConfig_keeps _ _ _ _ _ _ hs)
  | cellFlush => exact isAO_of (execCellFlush_keeps _ _ _ _ _ _ hs)
  | selfTest => exact isAO_of (execSelfTest_keeps _ _ _ _ _ _ hs)
  | watchConfig => exact isAO_of (execWatchConfig_keeps _ _ _ _ _ _ hs)
  | faultForce => exact isAO_of (execFaultForce_keeps _ _ _ _ _ _ hs)
  | faultClear => exact isAO_of (execFaultClear_keeps _ _ _ _ _ _ hs)
  | faultLogRead => exact isAO_of (execFaultLogRead_keeps _ _ _ _ _ _ hs)
  | fwUpdate => exact isAO_of (execFwUpdate_keeps _ _ _ _ _ _ hs)
  | keyProvision => exact execKeyProvision_after _ _ _ _ hs
  | debugEnable => exact isAO_of (execDebugEnable_keeps _ _ _ _ _ _ hs)
  | fuseLock => exact execFuseLock_after _ _ _ _ hs
  | reseal => exact isAO_of (execReseal_keeps _ _ _ _ _ _ hs)
  | lanternDiag => exact isAO_of (execLanternDiag_keeps _ _ _ _ _ _ hs)
  | restart => exact isAO_of (execRestart_keeps _ _ _ _ _ _ hs)
  | tailDoorbell => exact isAO_of (execTailDoorbell_keeps _ _ _ _ _ _ hs)
  | headDoorbell => exact isAO_of (execHeadDoorbell_keeps _ _ _ _ _ _ hs)
  | completionWrite => exact isAO_of (execCompletionWrite_keeps _ _ _ hs)
  | holdoffExpiry => exact isAO_of (execHoldoffExpiry_keeps _ _ _ _ hs)
  | eventRecordWrite => exact isAO_of (execEventRecordWrite_keeps _ _ _ _ hs)
  | bar4Read => exact isAO_of (execBar4Read_keeps _ _ _ _ _ _ hs)
  | bar4Write => exact isAO_of (execBar4Write_keeps _ _ 0 _ hs)
  | hostReset => exact isAO_of (execHostReset_keeps _ _ _ _ hs)
  | ringEnWrite => exact execRingEnWrite_after _ _ hs
  | setupRegisterWrite => exact execSetupRegisterWrite_after _ _ _ _ hs
  | t64LoRead => exact isAO_of (execT64LoRead_keeps _ _ _ _ hs)
  | ppsInLoRead => exact isAO_of (execPpsInLoRead_keeps _ _ _ _ hs)
  | tbFreqAdjWrite => exact execTbFreqAdjWrite_after _ _ hs
  | tbPhaseAdjWrite => exact execTbPhaseAdjWrite_after _ _ hs
  | tbSetHiWrite => exact execTbSetHiWrite_after _ _ hs
  | slewDone => exact isAO_of (execSlewDone_keeps _ _ _ hs)
  | ppsInEdge => exact isAO_of (execPpsInEdge_keeps _ _ _ _ _ hs)
  | ppsLossTimeout => exact isAO_of (execPpsLossTimeout_keeps _ _ _ hs)
  | ppsOutPulse => exact isAO_of (execPpsOutPulse_keeps _ _ _ hs)
  | powerUp => exact isAO_of (execPowerUp_keeps _ _ _ hs)
  | resetNAssert => exact isAO_of (execResetNAssert_keeps _ _ _ hs)
  | resetRelease => exact isAO_of (execResetRelease_keeps _ _ _ hs)
  | bootStageDone => exact isAO_of (execBootStageDone_keeps _ _ _ _ hs)
  | startTimeout => exact isAO_of (execStartTimeout_keeps _ _ _ hs)
  | retryPauseExpiry => exact isAO_of (execRetryPauseExpiry_keeps _ _ _ hs)
  | pcieLinkTrained => exact isAO_of (execPcieLinkTrained_keeps _ _ _ hs)
  | supplyOut => exact isAO_of (execSupplyOut_keeps _ _ _ _ _ hs)
  | supplyIn => exact isAO_of (execSupplyIn_keeps _ _ _ _ _ hs)
  | alwaysOnReset => exact isAO_of (execAlwaysOnReset_keeps _ _ _ hs)
  | refclkLoss => exact isAO_of (execRefclkLoss_keeps _ _ _ hs)
  | junctionSensorRead => exact isAO_of (execJunctionSensorRead_keeps _ _ _ _ _ hs)
  | presenceChange => exact isAO_of (execPresenceChange_keeps _ _ _ hs)
  | sealSample => exact isAO_of (execSealSample_keeps _ _ _ _ hs)
  | restEntry => exact isAO_of (execRestEntry_keeps _ _ _ hs)
  | restExit => exact isAO_of (execRestExit_keeps _ _ _ hs)
  | scrubDone => exact isAO_of (execScrubDone_keeps _ _ _ _ _ _ hs)
  | hubWake => exact isAO_of (execHubWake_keeps _ _ _ _ hs)
  | columnPowerGoodLoss => exact isAO_of (execColumnPowerGoodLoss_keeps _ _ _ _ hs)
  | columnPowerGoodReturn => exact isAO_of (execColumnPowerGoodReturn_keeps _ _ _ _ hs)
  | drainEnd => exact isAO_of (execDrainEnd_keeps _ _ _ _ hs)
  | drainTimeout => exact isAO_of (execDrainTimeout_keeps _ _ _ _ hs)
  | fenceTimeout => exact isAO_of (execFenceTimeout_keeps _ _ _ _ hs)
  | cellTestDone => exact isAO_of (execCellTestDone_keeps _ _ _ _ _ hs)
  | hbmTestSegment => exact isAO_of (execHbmTestSegment_keeps _ _ _ _ _ hs)
  | fenceRequest => exact isAO_of (execFenceRequest_keeps _ _ _ _ hs)
  | fenceComplete => exact isAO_of (execFenceComplete_keeps _ _ _ _ hs)
  | tokenArrival => exact isAO_of (execTokenArrival_keeps _ _ _ _ _ _ _ _ hs)
  | rsvHoldProceed => exact isAO_of (execRsvHoldProceed_keeps _ _ _ _ _ hs)
  | waitBufferProceed => exact isAO_of (execWaitBufferProceed_keeps _ _ _ _ _ hs)
  | heldFiringOffer => exact isAO_of (execHeldFiringOffer_keeps _ _ _ _ _ hs)
  | spillPageGrant => exact isAO_of (execSpillPageGrant_keeps _ _ _ _ hs)
  | spillSlotAck => exact isAO_of (execSpillSlotAck_keeps _ _ _ _ _ hs)
  | spillLink => exact isAO_of (execSpillLink_keeps _ _ _ _ hs)
  | pageinRequest => exact isAO_of (execPageinRequest_keeps _ _ _ _ _ _ hs)
  | pageinReturn => exact isAO_of (execPageinReturn_keeps _ _ _ _ _ _ hs)
  | pageinNone => exact isAO_of (execPageinNone_keeps _ _ _ _ _ hs)
  | cellarPurge => exact isAO_of (execCellarPurge_keeps _ _ _ _ hs)
  | sweepComplete => exact isAO_of (execSweepComplete_keeps _ _ _ _ _ _ hs)
  | firingStart => exact isAO_of (execFiringStart_keeps _ _ _ _ _ _ hs)
  | preemption => exact isAO_of (execPreemption_keeps _ _ _ _ _ _ hs)
  | operationComplete => exact isAO_of (execOperationComplete_keeps _ _ _ _ _ _ hs)
  | add => exact isAO_of (execAdd_keeps _ _ _ _ _ _ _ hs)
  | sub => exact isAO_of (execSub_keeps _ _ _ _ _ _ _ hs)
  | and => exact isAO_of (execAnd_keeps _ _ _ _ _ _ _ hs)
  | or => exact isAO_of (execOr_keeps _ _ _ _ _ _ _ hs)
  | xor => exact isAO_of (execXor_keeps _ _ _ _ _ _ _ hs)
  | andn => exact isAO_of (execAndn_keeps _ _ _ _ _ _ _ hs)
  | sll => exact isAO_of (execSll_keeps _ _ _ _ _ _ _ hs)
  | srl => exact isAO_of (execSrl_keeps _ _ _ _ _ _ _ hs)
  | sra => exact isAO_of (execSra_keeps _ _ _ _ _ _ _ hs)
  | ror => exact isAO_of (execRor_keeps _ _ _ _ _ _ _ hs)
  | seq => exact isAO_of (execSeq_keeps _ _ _ _ _ _ _ hs)
  | sne => exact isAO_of (execSne_keeps _ _ _ _ _ _ _ hs)
  | slt => exact isAO_of (execSlt_keeps _ _ _ _ _ _ _ hs)
  | sltu => exact isAO_of (execSltu_keeps _ _ _ _ _ _ _ hs)
  | min => exact isAO_of (execMin_keeps _ _ _ _ _ _ _ hs)
  | max => exact isAO_of (execMax_keeps _ _ _ _ _ _ _ hs)
  | minu => exact isAO_of (execMinu_keeps _ _ _ _ _ _ _ hs)
  | maxu => exact isAO_of (execMaxu_keeps _ _ _ _ _ _ _ hs)
  | addc => exact isAO_of (execAddc_keeps _ _ _ _ _ _ _ _ hs)
  | carry => exact isAO_of (execCarry_keeps _ _ _ _ _ _ _ _ hs)
  | subb => exact isAO_of (execSubb_keeps _ _ _ _ _ _ _ _ hs)
  | borrow => exact isAO_of (execBorrow_keeps _ _ _ _ _ _ _ _ hs)
  | acc128 => exact isAO_of (execAcc128_keeps _ _ _ _ _ _ hs)
  | acc128u => exact isAO_of (execAcc128u_keeps _ _ _ _ _ _ hs)
  | clz => exact isAO_of (execClz_keeps _ _ _ _ _ _ hs)
  | ctz => exact isAO_of (execCtz_keeps _ _ _ _ _ _ hs)
  | popc => exact isAO_of (execPopc_keeps _ _ _ _ _ _ hs)
  | bswap => exact isAO_of (execBswap_keeps _ _ _ _ _ _ hs)
  | addw => exact isAO_of (execAddw_keeps _ _ _ _ _ _ _ hs)
  | subw => exact isAO_of (execSubw_keeps _ _ _ _ _ _ _ hs)
  | addi => exact isAO_of (execAddi_keeps _ _ _ _ _ _ _ hs)
  | andi => exact isAO_of (execAndi_keeps _ _ _ _ _ _ _ hs)
  | ori => exact isAO_of (execOri_keeps _ _ _ _ _ _ _ hs)
  | xori => exact isAO_of (execXori_keeps _ _ _ _ _ _ _ hs)
  | slti => exact isAO_of (execSlti_keeps _ _ _ _ _ _ _ hs)
  | sltiu => exact isAO_of (execSltiu_keeps _ _ _ _ _ _ _ hs)
  | shi => exact isAO_of (execShi_keeps _ _ _ _ _ _ _ _ hs)
  | lui => exact isAO_of (execLui_keeps _ _ _ _ _ _ hs)
  | extu => exact isAO_of (execExtu_keeps _ _ _ _ _ _ _ _ hs)
  | exts => exact isAO_of (execExts_keeps _ _ _ _ _ _ _ _ hs)
  | ins => exact isAO_of (execIns_keeps _ _ _ _ _ _ _ _ hs)
  | li => exact isAO_of (execLi_keeps _ _ _ _ _ _ hs)
  | lih => exact isAO_of (execLih_keeps _ _ _ _ _ _ hs)
  | addx => exact isAO_of (execAddx_keeps _ _ _ _ _ _ _ hs)
  | andx => exact isAO_of (execAndx_keeps _ _ _ _ _ _ _ hs)
  | orx => exact isAO_of (execOrx_keeps _ _ _ _ _ _ _ hs)
  | xorx => exact isAO_of (execXorx_keeps _ _ _ _ _ _ _ hs)
  | mul => exact isAO_of (execMul_keeps _ _ _ _ _ _ _ hs)
  | mulh => exact isAO_of (execMulh_keeps _ _ _ _ _ _ _ hs)
  | mulhu => exact isAO_of (execMulhu_keeps _ _ _ _ _ _ _ hs)
  | mulhsu => exact isAO_of (execMulhsu_keeps _ _ _ _ _ _ _ hs)
  | mulw => exact isAO_of (execMulw_keeps _ _ _ _ _ _ _ hs)
  | mulwu => exact isAO_of (execMulwu_keeps _ _ _ _ _ _ _ hs)
  | div => exact isAO_of (execDiv_keeps _ _ _ _ _ _ _ hs)
  | divu => exact isAO_of (execDivu_keeps _ _ _ _ _ _ _ hs)
  | rem => exact isAO_of (execRem_keeps _ _ _ _ _ _ _ hs)
  | remu => exact isAO_of (execRemu_keeps _ _ _ _ _ _ _ hs)
  | divw => exact isAO_of (execDivw_keeps _ _ _ _ _ _ _ hs)
  | divwu => exact isAO_of (execDivwu_keeps _ _ _ _ _ _ _ hs)
  | remw => exact isAO_of (execRemw_keeps _ _ _ _ _ _ _ hs)
  | remwu => exact isAO_of (execRemwu_keeps _ _ _ _ _ _ _ hs)
  | fadd => exact isAO_of (execFadd_keeps _ _ _ _ _ _ _ _ hs)
  | fsub => exact isAO_of (execFsub_keeps _ _ _ _ _ _ _ _ hs)
  | fmul => exact isAO_of (execFmul_keeps _ _ _ _ _ _ _ _ hs)
  | fdiv => exact isAO_of (execFdiv_keeps _ _ _ _ _ _ _ _ hs)
  | fsqrt => exact isAO_of (execFsqrt_keeps _ _ _ _ _ _ _ hs)
  | fma => exact isAO_of (execFma_keeps _ _ _ _ _ _ _ _ _ hs)
  | fms => exact isAO_of (execFms_keeps _ _ _ _ _ _ _ _ _ hs)
  | fnma => exact isAO_of (execFnma_keeps _ _ _ _ _ _ _ _ _ hs)
  | fmin => exact isAO_of (execFmin_keeps _ _ _ _ _ _ _ _ hs)
  | fmax => exact isAO_of (execFmax_keeps _ _ _ _ _ _ _ _ hs)
  | fabs => exact isAO_of (execFabs_keeps _ _ _ _ _ _ _ hs)
  | fneg => exact isAO_of (execFneg_keeps _ _ _ _ _ _ _ hs)
  | fcmpeq => exact isAO_of (execFcmpeq_keeps _ _ _ _ _ _ _ _ hs)
  | fcmplt => exact isAO_of (execFcmplt_keeps _ _ _ _ _ _ _ _ hs)
  | fcmple => exact isAO_of (execFcmple_keeps _ _ _ _ _ _ _ _ hs)
  | fcmpun => exact isAO_of (execFcmpun_keeps _ _ _ _ _ _ _ _ hs)
  | fclass => exact isAO_of (execFclass_keeps _ _ _ _ _ _ _ hs)
  | fcvtI => exact isAO_of (execFcvtI_keeps _ _ _ _ _ _ _ hs)
  | fcvtU => exact isAO_of (execFcvtU_keeps _ _ _ _ _ _ _ hs)
  | fcvtF => exact isAO_of (execFcvtF_keeps _ _ _ _ _ _ _ hs)
  | fcvtFu => exact isAO_of (execFcvtFu_keeps _ _ _ _ _ _ _ hs)
  | fcvtP => exact isAO_of (execFcvtP_keeps _ _ _ _ _ _ _ hs)
  | fsgnj => exact isAO_of (execFsgnj_keeps _ _ _ _ _ _ _ _ hs)
  | beq => exact isAO_of (execBeq_keeps _ _ _ _ _ _ _ hs)
  | bne => exact isAO_of (execBne_keeps _ _ _ _ _ _ _ hs)
  | blt => exact isAO_of (execBlt_keeps _ _ _ _ _ _ _ hs)
  | bge => exact isAO_of (execBge_keeps _ _ _ _ _ _ _ hs)
  | bltu => exact isAO_of (execBltu_keeps _ _ _ _ _ _ _ hs)
  | bgeu => exact isAO_of (execBgeu_keeps _ _ _ _ _ _ _ hs)
  | jal => exact isAO_of (execJal_keeps _ _ _ _ _ _ hs)
  | jalr => exact isAO_of (execJalr_keeps _ _ _ _ _ _ hs)
  | loop => exact isAO_of (execLoop_keeps _ _ _ _ _ _ hs)
  | loopi => exact isAO_of (execLoopi_keeps _ _ _ _ _ _ hs)
  | mtl => exact isAO_of (execMtl_keeps _ _ _ _ _ _ _ hs)
  | mfl => exact isAO_of (execMfl_keeps _ _ _ _ _ _ _ hs)
  | ld => exact isAO_of (execLd_keeps _ _ _ _ _ _ _ _ _ hs)
  | ldv => exact isAO_of (execLdv_keeps _ _ _ _ _ _ _ hs)
  | st => exact isAO_of (execSt_keeps _ _ _ _ _ _ _ _ hs)
  | stv => exact isAO_of (execStv_keeps _ _ _ _ _ _ _ hs)
  | ldr => exact isAO_of (execLdr_keeps _ _ _ _ _ _ _ _ _ hs)
  | str => exact isAO_of (execStr_keeps _ _ _ _ _ _ _ _ hs)
  | bmov => exact isAO_of (execBmov_keeps _ _ _ _ _ _ _ hs)
  | bfill => exact isAO_of (execBfill_keeps _ _ _ _ _ _ _ hs)
  | bscan => exact isAO_of (execBscan_keeps _ _ _ _ _ _ _ _ _ hs)
  | bcmp => exact isAO_of (execBcmp_keeps _ _ _ _ _ _ _ hs)
  | vfadd => exact isAO_of (execVfadd_keeps _ _ _ _ _ _ _ _ hs)
  | vfsub => exact isAO_of (execVfsub_keeps _ _ _ _ _ _ _ _ hs)
  | vfmul => exact isAO_of (execVfmul_keeps _ _ _ _ _ _ _ _ hs)
  | vfdiv => exact isAO_of (execVfdiv_keeps _ _ _ _ _ _ _ _ hs)
  | vfsqrt => exact isAO_of (execVfsqrt_keeps _ _ _ _ _ _ _ hs)
  | vfma => exact isAO_of (execVfma_keeps _ _ _ _ _ _ _ _ _ hs)
  | vfms => exact isAO_of (execVfms_keeps _ _ _ _ _ _ _ _ _ hs)
  | vfnma => exact isAO_of (execVfnma_keeps _ _ _ _ _ _ _ _ _ hs)
  | vfmin => exact isAO_of (execVfmin_keeps _ _ _ _ _ _ _ _ hs)
  | vfmax => exact isAO_of (execVfmax_keeps _ _ _ _ _ _ _ _ hs)
  | vfabs => exact isAO_of (execVfabs_keeps _ _ _ _ _ _ _ hs)
  | vfneg => exact isAO_of (execVfneg_keeps _ _ _ _ _ _ _ hs)
  | vfcmpeq => exact isAO_of (execVfcmpeq_keeps _ _ _ _ _ _ _ _ hs)
  | vfcmplt => exact isAO_of (execVfcmplt_keeps _ _ _ _ _ _ _ _ hs)
  | vfcmple => exact isAO_of (execVfcmple_keeps _ _ _ _ _ _ _ _ hs)
  | vfcmpun => exact isAO_of (execVfcmpun_keeps _ _ _ _ _ _ _ _ hs)
  | vfclass => exact isAO_of (execVfclass_keeps _ _ _ _ _ _ _ hs)
  | vfcvtI => exact isAO_of (execVfcvtI_keeps _ _ _ _ _ _ _ hs)
  | vfcvtU => exact isAO_of (execVfcvtU_keeps _ _ _ _ _ _ _ hs)
  | vfcvtF => exact isAO_of (execVfcvtF_keeps _ _ _ _ _ _ _ hs)
  | vfcvtFu => exact isAO_of (execVfcvtFu_keeps _ _ _ _ _ _ _ hs)
  | vfcvtP => exact isAO_of (execVfcvtP_keeps _ _ _ _ _ _ _ hs)
  | vfsgnj => exact isAO_of (execVfsgnj_keeps _ _ _ _ _ _ _ _ hs)
  | vfrsum => exact isAO_of (execVfrsum_keeps _ _ _ _ _ _ _ hs)
  | vadd => exact isAO_of (execVadd_keeps _ _ _ _ _ _ _ _ hs)
  | vsub => exact isAO_of (execVsub_keeps _ _ _ _ _ _ _ _ hs)
  | vand => exact isAO_of (execVand_keeps _ _ _ _ _ _ _ _ hs)
  | vor => exact isAO_of (execVor_keeps _ _ _ _ _ _ _ _ hs)
  | vxor => exact isAO_of (execVxor_keeps _ _ _ _ _ _ _ _ hs)
  | vandn => exact isAO_of (execVandn_keeps _ _ _ _ _ _ _ _ hs)
  | vsll => exact isAO_of (execVsll_keeps _ _ _ _ _ _ _ _ hs)
  | vsrl => exact isAO_of (execVsrl_keeps _ _ _ _ _ _ _ _ hs)
  | vsra => exact isAO_of (execVsra_keeps _ _ _ _ _ _ _ _ hs)
  | vcmpeq => exact isAO_of (execVcmpeq_keeps _ _ _ _ _ _ _ _ hs)
  | vcmplt => exact isAO_of (execVcmplt_keeps _ _ _ _ _ _ _ _ hs)
  | vcmpltu => exact isAO_of (execVcmpltu_keeps _ _ _ _ _ _ _ _ hs)
  | vmin => exact isAO_of (execVmin_keeps _ _ _ _ _ _ _ _ hs)
  | vmax => exact isAO_of (execVmax_keeps _ _ _ _ _ _ _ _ hs)
  | vmov => exact isAO_of (execVmov_keeps _ _ _ _ _ _ _ hs)
  | vsel => exact isAO_of (execVsel_keeps _ _ _ _ _ _ _ _ _ hs)
  | vperm => exact isAO_of (execVperm_keeps _ _ _ _ _ _ _ _ hs)
  | vbcast => exact isAO_of (execVbcast_keeps _ _ _ _ _ _ _ hs)
  | vext => exact isAO_of (execVext_keeps _ _ _ _ _ _ _ _ hs)
  | vins => exact isAO_of (execVins_keeps _ _ _ _ _ _ _ _ hs)
  | vbfly4 => exact isAO_of (execVbfly4_keeps _ _ _ _ _ _ _ _ hs)
  | vcmul => exact isAO_of (execVcmul_keeps _ _ _ _ _ _ _ _ hs)
  | vcmulc => exact isAO_of (execVcmulc_keeps _ _ _ _ _ _ _ _ hs)
  | send => exact isAO_of (execSend_keeps _ _ _ _ _ _ _ _ _ _ _ hs)
  | sendi => exact isAO_of (execSendi_keeps _ _ _ _ _ _ _ _ _ _ _ _ _ hs)
  | ctxreq => exact isAO_of (execCtxreq_keeps _ _ _ _ _ _ hs)
  | mode => exact isAO_of (execMode_keeps _ _ _ _ _ _ hs)
  | instrNop => exact isAO_of (execInstrNop_keeps _ _ _ _ hs)
  | endFiring => exact isAO_of (execEndFiring_keeps _ _ _ _ hs)
  | dropr => exact isAO_of (execDropr_keeps _ _ _ _ hs)
  | resume => exact isAO_of (execResume_keeps _ _ _ _ hs)
  | brk => exact isAO_of (execBrk_keeps _ _ _ _ _ hs)
  | rdstat => exact isAO_of (execRdstat_keeps _ _ _ _ _ hs)
  | xmov => exact isAO_of (execXmov_keeps _ _ _ _ _ _ hs)
  | xset => exact isAO_of (execXset_keeps _ _ _ _ _ hs)
  | ctxrel => exact isAO_of (execCtxrel_keeps _ _ _ _ _ hs)
  | mfsr => exact isAO_of (execMfsr_keeps _ _ _ _ _ _ hs)
  | mtsr => exact isAO_of (execMtsr_keeps _ _ _ _ _ _ hs)
  | waite => exact isAO_of (execWaite_keeps _ _ _ _ hs)
  | icinv => exact isAO_of (execIcinv_keeps _ _ _ _ _ hs)
  | dcclean => exact isAO_of (execDcclean_keeps _ _ _ _ _ hs)
  | dcinv => exact isAO_of (execDcinv_keeps _ _ _ _ _ hs)
  | dcci => exact isAO_of (execDcci_keeps _ _ _ _ _ hs)
  | fence => exact isAO_of (execFence_keeps _ _ _ _ hs)
  | stewardTimerExpiry => exact isAO_of (execStewardTimerExpiry_keeps _ _ _ hs)
  | creditRequest => exact isAO_of (execCreditRequest_keeps _ _ _ _ _ _ hs)
  | creditGrant => exact isAO_of (execCreditGrant_keeps _ _ _ _ _ _ hs)
  | creditReturn => exact isAO_of (execCreditReturn_keeps _ _ _ _ _ _ hs)
  | loadReport => exact isAO_of (execLoadReport_keeps _ _ _ _ hs)
  | activationGrant => exact isAO_of (execActivationGrant_keeps _ _ _ hs)
  | contextInstall => exact isAO_of (execContextInstall_keeps _ _ _ _ _ hs)
  | installAck => exact isAO_of (execInstallAck_keeps _ _ _ _ hs)
  | contextUninstall => exact isAO_of (execContextUninstall_keeps _ _ _ _ _ hs)
  | contextFree => exact isAO_of (execContextFree_keeps _ _ _ _ hs)
  | startWaitExpiry => exact isAO_of (execStartWaitExpiry_keeps _ _ _ _ hs)
  | guardWaitExpiry => exact isAO_of (execGuardWaitExpiry_keeps _ _ _ _ hs)
  | guardWindowExpiry => exact isAO_of (execGuardWindowExpiry_keeps _ _ _ _ hs)
  | yieldDelayExpiry => exact isAO_of (execYieldDelayExpiry_keeps _ _ _ _ hs)
  | calmTimeExpiry => exact isAO_of (execCalmTimeExpiry_keeps _ _ _ _ hs)
  | stallTimerExpiry => exact isAO_of (execStallTimerExpiry_keeps _ _ _ hs)
  | ageSweep => exact isAO_of (execAgeSweep_keeps _ _ _ hs)
  | slotBoundary => exact isAO_of (execSlotBoundary_keeps _ _ _ hs)
  | regionRequest => exact isAO_of (execRegionRequest_keeps _ _ _ _ _ _ hs)
  | regionResponse => exact isAO_of (execRegionResponse_keeps _ _ _ _ _ _ hs)
  | reqTimeout => exact isAO_of (execReqTimeout_keeps _ _ _ _ _ hs)
  | appendToken => exact isAO_of (execAppendToken_keeps _ _ _ _ _ _ _ hs)
  | fabricHeaderError => exact isAO_of (execFabricHeaderError_keeps _ _ _ _ _ hs)
  | deadTimeExpiry => exact isAO_of (execDeadTimeExpiry_keeps _ _ _ _ hs)
  | sensorLinkUp => exact isAO_of (execSensorLinkUp_keeps _ _ _ _ hs)
  | sensorLinkDown => exact isAO_of (execSensorLinkDown_keeps _ _ _ _ hs)
  | frameReceived => exact isAO_of (execFrameReceived_keeps _ _ _ _ _ _ _ _ hs)
  | blockEmit => exact isAO_of (execBlockEmit_keeps _ _ _ _ hs)
  | portEpochClose => exact isAO_of (execPortEpochClose_keeps _ _ _ _ hs)
  | bellInject => exact isAO_of (execBellInject_keeps _ _ _ _ hs)
  | evinEdge => exact isAO_of (execEvinEdge_keeps _ _ _ _ _ _ hs)
  | evHoldoffExpiry => exact isAO_of (execEvHoldoffExpiry_keeps _ _ _ _ hs)
  | rateWindowEnd => exact isAO_of (execRateWindowEnd_keeps _ _ _ hs)
  | stuckTimeout => exact isAO_of (execStuckTimeout_keeps _ _ _ _ hs)
  | epochStart => exact isAO_of (execEpochStart_keeps _ _ _ hs)
  | epochBoundary => exact isAO_of (execEpochBoundary_keeps _ _ _ hs)
  | bellRelease => exact isAO_of (execBellRelease_keeps _ _ _ _ _ _ hs)
  | resultToken => exact isAO_of (execResultToken_keeps _ _ _ _ _ _ hs)
  | bellAtWriter => exact isAO_of (execBellAtWriter_keeps _ _ _ _ _ _ hs)
  | gapNotice => exact isAO_of (execGapNotice_keeps _ _ _ _ hs)
  | varnishLimitReached => exact isAO_of (execVarnishLimitReached_keeps _ _ _ hs)
  | varnish => exact isAO_of (execVarnish_keeps _ _ _ hs)
  | auditVerdict => exact isAO_of (execAuditVerdict_keeps _ _ _ _ hs)
  | chainLinkUp => exact isAO_of (execChainLinkUp_keeps _ _ _ _ hs)
  | chainLinkDown => exact isAO_of (execChainLinkDown_keeps _ _ _ _ hs)
  | cartLaunch => exact isAO_of (execCartLaunch_keeps _ _ _ hs)
  | cartPass => exact isAO_of (execCartPass_keeps _ _ _ _ _ _ _ hs)
  | cartReturn => exact isAO_of (execCartReturn_keeps _ _ _ _ _ _ _ _ hs)
  | settleLimitExpiry => exact isAO_of (execSettleLimitExpiry_keeps _ _ _ hs)
  | cartLossDetach => exact isAO_of (execCartLossDetach_keeps _ _ _ hs)
  | detachHoldExpiry => exact isAO_of (execDetachHoldExpiry_keeps _ _ _ _ hs)
  | bulkFrameReceived => exact isAO_of (execBulkFrameReceived_keeps _ _ _ _ _ _ _ hs)
  | bulkFrameSend => exact isAO_of (execBulkFrameSend_keeps _ _ _ _ _ hs)
  | delayMeasure => exact isAO_of (execDelayMeasure_keeps _ _ _ _ hs)
  | presenceSend => exact isAO_of (execPresenceSend_keeps _ _ _ hs)
  | stationAgeExpiry => exact isAO_of (execStationAgeExpiry_keeps _ _ _ _ hs)
  | chainEgressToken => exact isAO_of (execChainEgressToken_keeps _ _ _ _ _ _ hs)
  | chainSendTimeout => exact isAO_of (execChainSendTimeout_keeps _ _ _ hs)
  | actLinkUp => exact isAO_of (execActLinkUp_keeps _ _ _ _ hs)
  | actLinkDown => exact isAO_of (execActLinkDown_keeps _ _ _ _ hs)
  | noticeRequest => exact isAO_of (execNoticeRequest_keeps _ _ _ _ _ _ _ _ hs)
  | queuedAnswerStart => exact isAO_of (execQueuedAnswerStart_keeps _ _ _ _ _ hs)
  | peerSilent => exact isAO_of (execPeerSilent_keeps _ _ _ _ hs)
  | annWaitExpiry => exact isAO_of (execAnnWaitExpiry_keeps _ _ _ _ hs)
  | noticeboardWrite => exact isAO_of (execNoticeboardWrite_keeps _ _ _ _ _ _ hs)
  | tripCommand => exact isAO_of (execTripCommand_keeps _ _ _ _ _ _ hs)
  | tripAgeCheck => exact isAO_of (execTripAgeCheck_keeps _ _ _ hs)
  | forceLineAssert => exact isAO_of (execForceLineAssert_keeps _ _ _ _ hs)
  | forceLineDeassert => exact isAO_of (execForceLineDeassert_keeps _ _ _ _ hs)
  | graphEventToken => exact isAO_of (execGraphEventToken_keeps _ _ _ _ _ _ hs)
  | stewardMessage => exact isAO_of (execStewardMessage_keeps _ _ _ _ _ _ hs)
  | faultRaise => exact isAO_of (execFaultRaise_keeps _ _ _ _ _ _ hs)
  | handlingEnd => exact isAO_of (execHandlingEnd_keeps _ _ _ _ hs)
  | conditionEnd => exact isAO_of (execConditionEnd_keeps _ _ _ _ _ hs)
  | quietPeriodExpiry => exact isAO_of (execQuietPeriodExpiry_keeps _ _ _ hs)
  | logScrub => exact isAO_of (execLogScrub_keeps _ _ _ hs)
  | pairCompare => exact isAO_of (execPairCompare_keeps _ _ _ _ hs)
  | skewTimeout => exact isAO_of (execSkewTimeout_keeps _ _ _ _ hs)
  | stewardCompare => exact isAO_of (execStewardCompare_keeps _ _ _ _ _ hs)
  | comparatorStall => exact isAO_of (execComparatorStall_keeps _ _ _ _ hs)
  | tripReadbackMismatch => exact isAO_of (execTripReadbackMismatch_keeps _ _ _ _ hs)
  | traceMarker => exact isAO_of (execTraceMarker_keeps _ _ _ _ _ _ hs)
  | tracePacketWrite => exact isAO_of (execTracePacketWrite_keeps _ _ _ hs)
  | traceSync => exact isAO_of (execTraceSync_keeps _ _ _ hs)
  | traceCtrlWrite => exact isAO_of (execTraceCtrlWrite_keeps _ _ _ _ hs)
  | extest => exact isAO_of (execExtest_keeps _ _ _ _ _ hs)
  | idcode => exact isAO_of (execIdcode_keeps _ _ _ hs)
  | samplePreload => exact isAO_of (execSamplePreload_keeps _ _ _ _ _ hs)
  | clamp => exact isAO_of (execClamp_keeps _ _ _ hs)
  | highz => exact isAO_of (execHighz_keeps _ _ _ hs)
  | bypass => exact isAO_of (execBypass_keeps _ _ _ hs)
  | dbgAddr => exact isAO_of (execDbgAddr_keeps _ _ _ _ hs)
  | dbgData => exact isAO_of (execDbgData_keeps _ _ _ _ hs)
  | dbgStatus => exact isAO_of (execDbgStatus_keeps _ _ _ hs)
  | run => exact isAO_of (execRun_keeps _ _ _ _ hs)
  | stepOne => exact isAO_of (execStepOne_keeps _ _ _ _ hs)
  | kill => exact isAO_of (execKill_keeps _ _ _ _ hs)
  | answerSent => exact isAO_of (execAnswerSent_keeps _ _ _ _ hs)
  | requestFrameEnd => exact isAO_of (execRequestFrameEnd_keeps _ _ _ _ _ _ hs)
  | keyNChange => exact isAO_of (execKeyNChange_keeps _ _ _ _ hs)
  | ppsOutPulseEnd => exact isAO_of (execPpsOutPulseEnd_keeps _ _ _ hs)
  | pcieConfigWrite => exact isAO_of (execPcieConfigWrite_keeps _ _ _ _ _ _ hs)
  | msixVectorUnmask => exact isAO_of (execMsixVectorUnmask_keeps _ _ _ _ hs)
  | rootConflictRearm => exact isAO_of (execRootConflictRearm_keeps _ _ _ hs)

end Sys2Proof.Machine
end

