-- ==== Sys2Proof/Laws/Memory.lean ====
section
/-! SUPPORT. What a store and a step of a block-repeat do, once for all of them. -/

namespace Sys2Proof.Machine

/-! ## The Steward's data cache -/

/-- The lines of the cache but one. -/
def Steward.others (m : Steward) (k : Nat) : List (Nat × List Byte × Bool) :=
  m.dcache.filter fun e => e.1 != k

theorem Steward.putLine_eq (m : Steward) (k : Nat) (l : List Byte) (b : Bool)
    (h : (m.others k).length < 512) :
    m.putLine k l b = { m with dcache := m.others k ++ [(k, l, b)] } := by
  have h2 : ((m.dcache.filter fun e => e.1 != k) ++ [(k, l, b)]).length ≤ 512 := by
    simp only [Steward.others] at h
    simp; omega
  unfold Steward.putLine Steward.others
  simp only [h2, ↓reduceIte]

/-- A line put in where there is room: it is read from then on, and every other line as before. -/
theorem Steward.line_putLine (m : Steward) (k j : Nat) (l : List Byte) (b : Bool)
    (h : (m.others k).length < 512) :
    ((m.putLine k l b).line j).1 = if j = k then l else (m.line j).1 := by
  rw [Steward.putLine_eq _ _ _ _ h]
  unfold Steward.line Steward.others
  simp only [List.find?_append]
  by_cases hj : j = k
  · subst hj
    have : (m.dcache.filter fun e => e.1 != j).find? (fun e => e.1 == j) = none := by
      rw [List.find?_eq_none]
      intro e he
      simp only [List.mem_filter] at he
      simpa using he.2
    simp [this]
  · have hk : (k == j) = false := by simpa using fun h : k = j => hj h.symm
    have : (m.dcache.filter fun e => e.1 != k).find? (fun e => e.1 == j) =
        m.dcache.find? (fun e => e.1 == j) := by
      induction m.dcache with
      | nil => rfl
      | cons e z ih =>
        by_cases he : e.1 = k
        · simp [he, ih, hk]
        · simp [he, ih, List.find?_cons]
    rw [this]
    cases m.dcache.find? (fun e => e.1 == j) <;> simp [hj, hk]

/-- The cache holds a line. -/
def Steward.has (m : Steward) (k : Nat) : Bool := m.dcache.any fun e => e.1 == k

theorem Steward.others_length (m : Steward) (k : Nat) :
    (m.others k).length + b2n (m.has k) ≤ m.dcache.length := by
  unfold Steward.others Steward.has
  induction m.dcache with
  | nil => simp [b2n]
  | cons e z ih =>
    by_cases he : e.1 = k
    · have : (z.filter fun e => e.1 != k).length ≤ z.length := List.length_filter_le ..
      simp [he, b2n]; omega
    · simp only [List.filter_cons, bne_iff_ne, ne_eq, he, not_false_eq_true, ↓reduceIte,
        List.length_cons, List.any_cons, beq_eq_false_iff_ne.2 he, Bool.false_or]
      omega

theorem Steward.has_putLine (m : Steward) (k j : Nat) (l : List Byte) (b : Bool)
    (h : (m.others k).length < 512) : (m.putLine k l b).has j = (j == k || m.has j) := by
  rw [Steward.putLine_eq _ _ _ _ h]
  unfold Steward.has Steward.others
  by_cases hj : j = k
  · subst hj; simp
  · have hk : ¬k = j := fun h => hj h.symm
    have : (m.dcache.filter fun e => e.1 != k).any (fun e => e.1 == j) =
        m.dcache.any (fun e => e.1 == j) := by
      induction m.dcache with
      | nil => rfl
      | cons e z ih =>
        by_cases he : e.1 = k
        · simp [he, ih, beq_eq_false_iff_ne.2 hk]
        · simp [he, ih]
    simp [this, beq_eq_false_iff_ne.2 hk, beq_eq_false_iff_ne.2 hj]

theorem Steward.line_length (m : Steward) (k : Nat) (h : ∀ e ∈ m.dcache, e.2.1.length = 64) :
    (m.line k).1.length = 64 := by
  unfold Steward.line
  split
  · rename_i l hl
    exact h l (List.mem_of_find?_eq_some hl)
  · simp

/-- What a store through the cache keeps while it goes on, with `k` and the line after it its lines
and `z` the lines there were. -/
structure StoreInv (m : Steward) (k z : Nat) : Prop where
  fits  : m.dcache.length ≤ z + b2n (m.has k) + b2n (m.has (k + 1))
  lines : ∀ e ∈ m.dcache, e.2.1.length = 64

theorem StoreInv.room {m : Steward} {k z j : Nat} (h : StoreInv m k z) (hz : z + 2 ≤ 512)
    (hj : j = k ∨ j = k + 1) : (m.others j).length < 512 := by
  have := m.others_length j
  have := h.fits
  have hb : ∀ b, b2n b ≤ 1 := by intro b; cases b <;> simp [b2n]
  have := hb (m.has k)
  have := hb (m.has (k + 1))
  rcases hj with rfl | rfl
  · cases hh : m.has j <;> simp [hh, b2n] at * <;> omega
  · cases hh : m.has (k + 1) <;> simp [hh, b2n] at * <;> omega

theorem StoreInv.put {m : Steward} {k z j : Nat} {l : List Byte} {b : Bool} (h : StoreInv m k z)
    (hz : z + 2 ≤ 512) (hj : j = k ∨ j = k + 1) (hl : l.length = 64) :
    StoreInv (m.putLine j l b) k z := by
  have hr := h.room hz hj
  refine ⟨?_, ?_⟩
  · rw [Steward.has_putLine _ _ _ _ _ hr, Steward.has_putLine _ _ _ _ _ hr, Steward.putLine_eq _ _ _ _ hr]
    have := m.others_length j
    have := h.fits
    simp only [List.length_append, List.length_cons, List.length_nil]
    have h1 : k ≠ k + 1 := by omega
    have h2 : k + 1 ≠ k := by omega
    rcases hj with rfl | rfl
    · cases hh : m.has j <;> simp [hh, b2n, beq_eq_false_iff_ne.2 h2] at * <;> omega
    · cases hh : m.has (k + 1) <;> simp [hh, b2n, beq_eq_false_iff_ne.2 h1] at * <;> omega
  · rw [Steward.putLine_eq _ _ _ _ hr]
    intro e he
    simp only [List.mem_append, List.mem_singleton] at he
    rcases he with he | rfl
    · exact h.lines e (List.mem_filter.1 he).1
    · exact hl

/-- A byte stored through the cache. -/
theorem Steward.byte_put (m : Steward) (k z q r : Nat) (v : Byte) (h : StoreInv m k z)
    (hz : z + 2 ≤ 512) (hj : r / 64 = k ∨ r / 64 = k + 1) :
    (m.putLine (r / 64) ((m.line (r / 64)).1.set (r % 64) v) true).byte q =
      if q = r then v else m.byte q := by
  unfold Steward.byte
  rw [Steward.line_putLine _ _ _ _ _ (h.room hz hj)]
  have hl := m.line_length (r / 64) h.lines
  by_cases h1 : q / 64 = r / 64
  · simp only [h1, ↓reduceIte]
    by_cases h2 : q = r
    · subst h2
      simp [List.getD_eq_getElem?_getD, hl, Nat.mod_lt]
    · have : q % 64 ≠ r % 64 := by omega
      have h3 : ¬r % 64 = q % 64 := fun h => this h.symm
      simp [h2, List.getD_eq_getElem?_getD, h3]
  · have : q ≠ r := fun h => h1 (by rw [h])
    simp [h1, this]

/-- What a store leaves at each byte that the Steward loads. -/
theorem Steward.byte_store (m : Steward) (p : Nat) (l : List Byte) (h : m.Room) (hl : l.length ≤ 64)
    (q : Nat) : (m.store p l).byte q =
      if p ≤ q ∧ q < p + l.length then l.getD (q - p) 0 else m.byte q := by
  have key : ∀ (l : List Byte) (i : Nat) (m' : Steward), i + l.length ≤ 64 →
      StoreInv m' (p / 64) m.dcache.length →
      ((l.zip (List.range' i l.length)).foldl (fun m e =>
        let k := (p + e.2) / 64
        m.putLine k ((m.line k).1.set ((p + e.2) % 64) e.1) true) m').byte q =
        if p + i ≤ q ∧ q < p + i + l.length then l.getD (q - (p + i)) 0 else m'.byte q := by
    intro l
    induction l with
    | nil =>
      intro i m' _ _
      simp only [List.length_nil, List.range'_zero, List.zip_nil_left, List.foldl_nil]
      rw [if_neg (by omega)]
    | cons b l ih =>
      intro i m' hi hm
      have hj : (p + i) / 64 = p / 64 ∨ (p + i) / 64 = p / 64 + 1 := by
        simp only [List.length_cons] at hi; omega
      simp only [List.length_cons, List.range'_succ, List.zip_cons_cons, List.foldl_cons]
      rw [ih (i + 1) _ (by simp only [List.length_cons] at hi; omega) (hm.put h.1 hj (by
        simp [m'.line_length _ hm.lines])), m'.byte_put _ _ q (p + i) b hm h.1 hj]
      by_cases h1 : q = p + i
      · subst h1
        rw [if_neg (by omega)]
        simp
      · by_cases h2 : p + i ≤ q ∧ q < p + i + (l.length + 1)
        · have h3 : p + (i + 1) ≤ q ∧ q < p + (i + 1) + l.length := by omega
          have h4 : q - (p + i) = q - (p + (i + 1)) + 1 := by omega
          simp [h2, h3, h4]
        · have h3 : ¬(p + (i + 1) ≤ q ∧ q < p + (i + 1) + l.length) := by omega
          simp [h1, h2, h3]
  have := key l 0 m (by omega) ⟨by omega, h.2⟩
  simpa [Steward.store, List.range_eq_range'] using this

/-- A line that a load puts into the cache reads as before. -/
theorem Steward.byte_fill (m : Steward) (k : Nat) (b : Bool) (h : (m.others k).length < 512) (q : Nat) :
    (m.putLine k (m.line k).1 b).byte q = m.byte q := by
  unfold Steward.byte
  rw [Steward.line_putLine _ _ _ _ _ h]
  split
  · rename_i hq; rw [hq]
  · rfl

/-! ## A store retires -/

theorem popOp_bank (v : State) (e : Engine) (x : Bool) (o : Op) :
    (v.popOp e x o).bank e x = { v.bank e x with
      ops := (v.bank e x).ops.filter fun p => p.n != o.n || p.kind != o.kind } := by
  simp [State.popOp]

/-- The only operation of a bank, a store, commits. -/
theorem State.stored {u v : State} {a : At} {x : Bool} {c : Tab Nat} {d : Debug} {o : Op} {p : Nat}
    {l : List Byte} (hv : Part false u v c d a.eng x) (hov : (v.bank a.eng x).ops = [o])
    (hk : o.kind = .scratchStore p l) (hd : d.stepping = false)
    (hs : a.eng = .steward → u.steward.stepping = false) :
    let t := (v.retire a.eng x).afterIssue a.eng x
    Part true u t c { d with passed := false } a.eng x ∧
      t.bank a.eng x = { v.bank a.eng x with ops := [] } ∧ Holds u t p l a.eng := by
  intro t
  have ht : t = ((v.popOp a.eng x o).storeMem a.eng p l).afterIssue a.eng x := by
    simp only [t]
    rw [State.retire_store v a.eng x o p l hov hk]
  have hw := (Part.modBank (u := v) hv fun b => { b with
    ops := b.ops.filter fun p => p.n != o.n || p.kind != o.kind }).store p l
  have h3 := Part.after hw hd hs
  have hb : (t.bank a.eng x) = { v.bank a.eng x with ops := [] } := by
    rw [ht]
    refine h3.2.trans ?_
    rw [State.bank_storeMem]
    simp [hov]
  refine ⟨by rw [ht]; exact h3.1, hb, ?_⟩
  rw [ht]
  cases he : a.eng with
  | steward =>
    rw [he] at hv
    intro hl hr q
    have hs : (v.popOp .steward x o).steward = { u.steward with
        bank := (v.popOp .steward x o).steward.bank
        icache := (v.popOp .steward x o).steward.icache } := by
      have h1 : v = _ := hv
      simp only [State.popOp, State.modBank]
      rw [h1]
      simp
    have hq : (((v.popOp .steward x o).storeMem .steward p l).afterIssue .steward x).steward.byte q =
        ((v.popOp .steward x o).steward.store p l).byte q := by
      simp only [State.afterIssue, State.issue.stewardStop]
      split <;> rfl
    rw [hq, hs, Steward.store_same]
    exact Steward.byte_store u.steward p l hr hl q
  | cell n =>
    rw [he] at hv
    obtain ⟨_, _, h2⟩ := hv
    have hs : (v.cell n.val).scratch = (u.cell n.val).scratch := by rw [h2]; simp
    have hp : ((v.popOp (.cell n) x o).cell n.val).scratch = (u.cell n.val).scratch := by
      simp only [State.popOp, State.modBank, State.cell_modCell_same]
      split <;> exact hs
    have hd' : ((v.popOp (.cell n) x o).storeMem (.cell n) p l).cell n.val =
        ((v.popOp (.cell n) x o).cell n.val).storeScratch p l := by
      simp [State.storeMem]
    have hst : (((v.popOp (.cell n) x o).storeMem (.cell n) p l).cell n.val).dbg.stepping = false := by
      rw [hd']
      have h4 : ((v.popOp (.cell n) x o).cell n.val).dbg = (v.cell n.val).dbg := by
        simp only [State.popOp, State.modBank, State.cell_modCell_same]
        split <;> rfl
      simp only [Cell.storeScratch, h4]
      rw [h2]
      exact hd
    intro q
    simp only [State.afterIssue, State.issue.stepStop, State.cell_modCell_same, hst,
      Bool.false_and, Bool.false_eq_true, ↓reduceIte]
    rw [hd', storeScratch_get, hp]

/-- What `Own` says of a state that differs in its bank alone. -/
theorem Part.own {st whole : Bool} {s u : State} {c : Tab Nat} {d : Debug} {e : Engine} {x : Bool}
    (h : Part st s u c d e x) (hd : ∀ n : Fin 128, e = .cell n →
      c = (if whole then (s.cell n.val).cnt.bump EngCtr.instrIssued.ctorIdx else (s.cell n.val).cnt) ∧
      d = { (s.cell n.val).dbg with passed := false }) : Own st whole s u e x := by
  cases e with
  | steward => exact h
  | cell n =>
    obtain ⟨rfl, rfl⟩ := hd n rfl
    exact h

/-- The bank that an issued store, or a step of a block-repeat, leaves before it retires. -/
theorem State.ran_of {u v : State} {a : At} {x : Bool} {ds : List Dest}
    {es : List Dest} {st : Option (Nat × List Byte)} {last : Bool} (hc : Calm u a x es) {c : Tab Nat}
    (hv : Part false u v c (match a.eng with | .cell n => (u.cell n.val).dbg | .steward => {}) a.eng x)
    (hcn : ∀ n : Fin 128, a.eng = .cell n → c =
      if last then (u.cell n.val).cnt.bump EngCtr.instrIssued.ctorIdx else (u.cell n.val).cnt)
    (hr : (v.bank a.eng x).regs =
      if last then (ds.foldl (fun r d => d.apply r) (u.exAt a x).base).finish (u.codeWord a.eng)
        (unitOf a.eng) (u.exAt a x).len
      else ds.foldl (fun r d => d.apply r) (u.bankAt a.eng x).regs)
    (hn : (v.bank a.eng x).n = if last then (u.bank a.eng x).n + 1 else (u.bank a.eng x).n)
    (ho : (v.bank a.eng x).ops = (u.bankAt a.eng x).ops ++ storeOps u a x st) :
    Ran u ((v.retire a.eng x).afterIssue a.eng x) a x ds st last := by
  have hd : (match a.eng with | .cell n => (u.cell n.val).dbg | .steward => ({} : Debug)).stepping = false := by
    have := hc.steps
    cases he : a.eng <;> simp_all
  have hs : a.eng = .steward → u.steward.stepping = false := by
    intro he
    have := hc.steps
    simp_all
  by_cases h1 : ∃ p l, st = some (p, l) ∧ (u.bankAt a.eng x).ops = []
  · obtain ⟨p, l, rfl, h0⟩ := h1
    simp only [h0, List.nil_append, storeOps] at ho
    have h := State.stored hv ho rfl hd hs
    refine ⟨?_, ?_, ?_, ?_, ?_⟩
    · rw [h.2.1]; exact hr
    · rw [h.2.1]; exact hn
    · rw [h.2.1]; simp [h0]
    · simp only [h0, Option.isSome_some, List.isEmpty_nil, Bool.and_self]
      exact h.1.own fun n he => ⟨hcn n he, by simp [he]⟩
    · rintro p' l' he -
      obtain ⟨rfl, rfl⟩ : p = p' ∧ l = l' := by simpa using he
      exact h.2.2
  · have hw : ∀ o, (v.bank a.eng x).ops.head? = some o → o.waits = true := by
      rw [ho]
      intro o he
      refine hc.waits o ?_
      cases st with
      | none => simpa [storeOps] using he
      | some pl =>
        cases hb : (u.bankAt a.eng x).ops with
        | nil => exact absurd ⟨pl.1, pl.2, rfl, hb⟩ h1
        | cons b r => simpa [hb] using he
    have h := Part.after hv hd hs
    have hbu : ∀ o ∈ (v.bank a.eng x).ops, ∀ i, o.kind ≠ .trap 0x0B i := by
      rw [ho]
      intro o hm i
      rcases List.mem_append.mp hm with hm | hm
      · exact hc.budget o hm i
      · cases st with
        | none => simp [storeOps] at hm
        | some pl => rw [List.mem_singleton.mp hm]; simp [State.opAt]
    rw [State.retire_waits _ _ _ hw hbu]
    have hst : (st.isSome && (u.bankAt a.eng x).ops.isEmpty) = false := by
      cases st with
      | none => rfl
      | some pl =>
        cases hb : (u.bankAt a.eng x).ops with
        | nil => exact absurd ⟨pl.1, pl.2, rfl, hb⟩ h1
        | cons b r => rfl
    refine ⟨?_, ?_, ?_, ?_, ?_⟩
    · rw [h.2]; exact hr
    · rw [h.2]; exact hn
    · rw [h.2, ho, hst]
      simp
    · rw [hst]
      exact h.1.own fun n he => ⟨hcn n he, by simp [he]⟩
    · intro p l he h0
      exact absurd ⟨p, l, he, h0⟩ h1

/-- The operation that a store leaves. -/
def storeKind (st : Option (Nat × List Byte)) : Option OpKind :=
  st.map fun e => .scratchStore e.1 e.2

/-- The store enters the bank. -/
def State.pushStore (v : State) (ex : Ex) (st : Option (Nat × List Byte)) : State :=
  match st with
  | some (p, l) => v.pushOp ex (.scratchStore p l) none
  | none => v

theorem State.pushStore_eq (u v : State) (a : At) (x : Bool) (st : Option (Nat × List Byte))
    (hco : coreOf (u.exAt a x).w = none) : v.pushStore (u.exAt a x) st = match st with
      | some (p, l) => v.modBank a.eng x fun b => { b with
          ops := b.ops ++ [u.opAt a x (.scratchStore p l) none] }
      | none => v := by
  unfold State.pushStore
  split
  · have : ∀ o : Op, coreOf o.word = none → ∀ p q, o.begins p = o.begins q := by
      intro o ho p q
      unfold Op.begins
      rw [ho]
      cases o.kind <;> rfl
    rename_i p l
    have := this { kind := .scratchStore p l, n := (u.bankAt a.eng x).n, d := none, word := (u.exAt a x).w
                   snap := (u.bankAt a.eng x).regs } hco
      (fun c => ((u.fetchState a.eng x).coreOps a.eng c).any (·.begun)) fun _ => true
    simp only [State.pushOp, State.feedFor, State.exAt_e, State.exAt_x, hco, State.opAt]
    rw [this]
    rfl
  · rfl

theorem State.bank_pushStore (u v : State) (a : At) (x : Bool) (st : Option (Nat × List Byte))
    (hco : coreOf (u.exAt a x).w = none)
    (b : Bank) (hb : v.bank a.eng x = b) (h : b.ops = (u.bankAt a.eng x).ops) :
    (v.pushStore (u.exAt a x) st).bank a.eng x = { b with
      ops := (u.bankAt a.eng x).ops ++ storeOps u a x st } := by
  rw [State.pushStore_eq u v a x st hco]
  cases st with
  | some e => simp [hb, h, storeOps]
  | none =>
    simp only [storeOps, List.append_nil]
    rw [hb, ← h]

theorem Part.pushStore {s u : State} {c : Tab Nat} {d : Debug} {a : At} {x : Bool} {w : State}
    (h : Part false s u c d a.eng x) (st : Option (Nat × List Byte)) (hco : coreOf (w.exAt a x).w = none) :
    Part false s (u.pushStore (w.exAt a x) st) c d a.eng x := by
  rw [State.pushStore_eq w u a x st hco]
  cases st with
  | some e => exact h.modBank _
  | none => exact h

/-- A store, or a step of a block-repeat, whose effect on the rest of the machine makes `u` of the
state before it. -/
theorem State.issue_ran {s u v : State} {a : At} {x : Bool} {w : Word} {w2 : Option Word}
    {ds : List Dest} {st : Option (Nat × List Byte)} {last : Bool} {act : Act}
    {go : Ex → State → Act × State} (h : Issues s a x w w2) (hh : (s.bank a.eng x).held = false)
    (hx : u.exAt a x = s.exAt a x) (hc : Calm u a x ds) (hco : coreOf (u.exAt a x).w = none)
    (hp : Part0 false u v a.eng x) (hb : v.bank a.eng x = u.bankAt a.eng x)
    (hact : (act = .lastStep ds (storeKind st) ∧ last = true) ∨
      (act = .step ds (storeKind st) ∧ last = false) ∨
      (∃ p l, act = .op (.scratchStore p l) none ∧ ds = [] ∧ st = some (p, l) ∧ last = true))
    (hgo : go (s.exAt a x) (s.fetchState a.eng x) = (act, v)) :
    Ran u (s.issue a w w2 go) a x ds st last := by
  have hcode : s.codeWord a.eng = u.codeWord a.eng := (congrArg Ex.code hx).symm
  have hf := State.freeDoubles_none v (u.exAt a x) ds hc.fresh
  rw [State.issue_of h hh, hgo, ← hx]
  have h0 : act ≠ .hold := by
    rcases hact with ⟨rfl, _⟩ | ⟨rfl, _⟩ | ⟨p, l, rfl, _⟩ <;> simp
  simp only [h0, ↓reduceIte]
  let q : State := v.pushStore (u.exAt a x) st
  have hq : Part0 false u q a.eng x := hp.pushStore st hco
  have hqb := State.bank_pushStore u v a x st hco (u.bankAt a.eng x) hb rfl
  change q.bank a.eng x = _ at hqb
  rcases hact with ⟨rfl, rfl⟩ | ⟨rfl, rfl⟩ | ⟨p, l, rfl, rfl, rfl, rfl⟩
  · have he : v.carry (u.exAt a x) (.lastStep ds (storeKind st)) =
        (q.issued (u.exAt a x) ((ds.foldl (fun r d => d.apply r) (u.exAt a x).base).finish (u.codeWord a.eng)
        (unitOf a.eng) (u.exAt a x).len) ds).retire a.eng x := by
      simp only [State.carry, q, storeKind, State.pushStore, hf]
      cases st <;> rfl
    rw [he]
    have hi : (q.issued (u.exAt a x) ((ds.foldl (fun r d => d.apply r) (u.exAt a x).base).finish (u.codeWord a.eng)
        (unitOf a.eng) (u.exAt a x).len) ds).bank a.eng x = _ := State.bank_issued q (u.exAt a x) _ ds 1
    refine State.ran_of hc (hq.issued _ ds 1) ?_ ?_ ?_ ?_
    · intro n hn; simp [hn]
    · rw [hi]; simp
    · rw [hi]; simp
    · rw [hi]; simp [hqb, Bank.noteWrites]
  · let y := ((v.countIssue a.eng x false).pushStore (u.exAt a x) st).modBank a.eng x fun b =>
      { (b.noteWrites (u.bankAt a.eng x).n 1 ds) with regs := ds.foldl (fun r d => d.apply r) b.regs }
    have he : v.carry (u.exAt a x) (.step ds (storeKind st)) = y.retire a.eng x := by
      simp only [State.carry, storeKind, y, State.pushStore, hf]
      cases st <;> rfl
    rw [he]
    have hy : Part0 false u y a.eng x :=
      Part.modBank (Part.pushStore (Part.modBank (u := v) hp fun b => { b with
        budget := b.budget + 1, issued := if false then b.issued + 1 else b.issued }) st hco) _
    have hyb : y.bank a.eng x = { (u.bankAt a.eng x).noteWrites (u.bankAt a.eng x).n 1 ds with
        budget := (u.bankAt a.eng x).budget + 1
        regs := ds.foldl (fun r d => d.apply r) (u.bankAt a.eng x).regs
        ops := (u.bankAt a.eng x).ops ++ storeOps u a x st } := by
      simp only [y, State.bank_modBank]
      rw [State.bank_pushStore u (v.countIssue a.eng x false) a x st hco { u.bankAt a.eng x with
        budget := (u.bankAt a.eng x).budget + 1 } (by simp [hb]) (by simp)]
      simp [Bank.noteWrites]
    refine State.ran_of (c := match a.eng with | .cell n => (u.cell n.val).cnt | .steward => []) hc hy ?_ ?_ ?_ ?_
    · intro n hn; simp [hn]
    · rw [hyb]; simp
    · rw [hyb]; simp [Bank.noteWrites]
    · rw [hyb]
  · have he : v.carry (u.exAt a x) (.op (.scratchStore p l) none) =
        (q.issued (u.exAt a x) ((u.exAt a x).base.finish (u.codeWord a.eng)
        (unitOf a.eng) (u.exAt a x).len) [] 0).retire a.eng x := rfl
    rw [he]
    have hi : (q.issued (u.exAt a x) ((u.exAt a x).base.finish (u.codeWord a.eng)
        (unitOf a.eng) (u.exAt a x).len) [] 0).bank a.eng x = _ := State.bank_issued q (u.exAt a x) _ [] 0
    refine State.ran_of hc (hq.issued _ [] 0) ?_ ?_ ?_ ?_
    · intro n hn; simp [hn]
    · rw [hi]; simp
    · rw [hi]; simp
    · rw [hi]; simp [hqb, Bank.noteWrites]

end Sys2Proof.Machine
end

