-- ==== Sys2Proof/Laws/Trap.lean ====
section
/-! SUPPORT. What taking an exception at issue does, and the frame of one engine, once for all
instructions. -/

namespace Sys2Proof.Machine

@[simp] theorem State.exAt_base_pc (s : State) (a : At) (x : Bool) :
    (s.exAt a x).base.pc = (s.bank a.eng x).regs.pc := by
  simp [State.exAt]

/-- What the bank is calm for depends on the registers that the results name. -/
theorem calm_same {s : State} {a : At} {x : Bool} {l m : List Dest} (h : Calm s a x l)
    (hm : ∀ d ∈ m, ∃ e ∈ l, d.sameReg = e.sameReg) : Calm s a x m := by
  refine ⟨h.waits, h.budget, fun d hd => ?_, h.cores, h.unheld, h.steps⟩
  obtain ⟨e, he, h2⟩ := hm d hd
  have := h.fresh e he
  unfold Bank.doubles at this ⊢
  rwa [h2]

theorem sameReg_g (n : Nat) (u v : BitVec 64) : (Dest.g n u).sameReg = (Dest.g n v).sameReg := by
  funext e
  cases e <;> rfl

theorem calm_nil {s : State} {a : At} {x : Bool} {l : List Dest} (h : Calm s a x l) : Calm s a x [] :=
  calm_same h (by simp)

theorem Near.modBank {s u : State} {e : Engine} {x : Bool} (h : Near s u e x) (f : Bank → Bank) :
    Near s (u.modBank e x f) e x := by
  cases e with
  | steward =>
    obtain ⟨h1, h2, h3⟩ := h
    refine ⟨?_, h2, h3⟩
    obtain ⟨⟩ := s
    obtain ⟨⟩ := u
    simpa [State.modBank] using h1
  | cell n =>
    obtain ⟨h1, h2, h3, h4⟩ := h
    refine ⟨cellsOnly_modCell h1 _ _, fun m hm => ?_, ?_, ?_⟩
    · simp [State.modBank, State.cell_modCell, hm, h2 m hm]
    · rw [← h3]; simp only [State.modBank, State.cell_modCell_same]; split <;> rfl
    · rw [← h4]; cases x <;> simp [State.modBank, State.bank]

theorem Near.modCell {s u : State} {n : Fin 128} {x : Bool} (h : Near s u (.cell n) x) (f : Cell → Cell)
    (hf : ∀ c, (f c).scratch = c.scratch ∧ (f c).p = c.p ∧ (f c).m = c.m) :
    Near s (u.modCell n.val f) (.cell n) x := by
  obtain ⟨h1, h2, h3, h4⟩ := h
  refine ⟨cellsOnly_modCell h1 _ _, fun m hm => ?_, ?_, ?_⟩
  · simp [State.cell_modCell, hm, h2 m hm]
  · rw [← h3]; simp [hf]
  · rw [← h4]; exact State.bank_modCell _ _ _ _ _ (hf _).2.1 (hf _).2.2

theorem Near.exBump {s u : State} {e : Engine} {x : Bool} (h : Near s u e x) (k : EngCtr) (m : Nat) :
    Near s (u.exBump e k m) e x := by
  cases e with
  | steward => exact h
  | cell n => exact h.modCell _ fun c => ⟨rfl, rfl, rfl⟩

theorem near_of_part {s u : State} {c : Tab Nat} {d : Debug} {e : Engine} {x : Bool} (h : Part false s u c d e x) :
    Near s u e x := by
  cases e with
  | steward =>
    have h' : u = _ := h
    obtain ⟨⟩ := s
    obtain ⟨_, _, _, _, _, _, _, v, _, _, _, _, _, _, _, _, _, _, _, _, _, _⟩ := u
    obtain ⟨⟩ := v
    simp at h'
    simp [Near, h']
  | cell n =>
    obtain ⟨h1, h2, h3⟩ := h
    refine ⟨h1, h2, by rw [h3]; rfl, ?_⟩
    cases x <;> simp [State.bank] <;> (rw [h3]; rfl)

theorem Near.fetch (s : State) (e : Engine) (x : Bool) : Near s (s.fetchState e x) e x :=
  near_of_part (Part.fetch s e x)

/-- stepping flag through the operations -/
def Quiet (u : State) (e : Engine) : Prop :=
  match e with | .cell n => (u.cell n.val).dbg.stepping = false | .steward => u.steward.stepping = false
theorem Near.after {s u : State} {e : Engine} {x : Bool} (h : Near s u e x)
    (hd : Quiet u e) :
    Near s (u.afterIssue e x) e x ∧ (u.afterIssue e x).bank e x = u.bank e x := by
  cases e with
  | steward =>
    simp only [Quiet] at hd
    simp only [State.afterIssue, State.issue.stewardStop, hd, Bool.false_eq_true, ↓reduceIte]
    exact ⟨h, trivial⟩
  | cell n =>
    simp only [Quiet] at hd
    simp only [State.afterIssue, State.issue.stepStop, State.cell_modCell_same, hd,
      Bool.false_and, Bool.false_eq_true, ↓reduceIte]
    exact ⟨h.modCell _ fun c => ⟨rfl, rfl, rfl⟩, State.bank_modCell _ _ _ _ _ rfl rfl⟩

theorem Quiet.modBank {u : State} {e : Engine} {x : Bool} (h : Quiet u e) (f : Bank → Bank) :
    Quiet (u.modBank e x f) e := by
  cases e with
  | steward => exact h
  | cell n =>
    simp only [Quiet, State.modBank, State.cell_modCell_same] at h ⊢
    split <;> exact h
theorem Quiet.exBump {u : State} {e : Engine} (h : Quiet u e) (k : EngCtr) (m : Nat) :
    Quiet (u.exBump e k m) e := by
  cases e with
  | steward => exact h
  | cell n => simpa [Quiet, State.exBump, State.engBump] using h
theorem Quiet.fetch {s : State} {a : At} {x : Bool} {l : List Dest} (h : Calm s a x l) :
    Quiet (s.fetchState a.eng x) a.eng := by
  have hp := Part.fetch s a.eng x
  have := h.steps
  cases he : a.eng with
  | steward =>
    rw [he] at hp this
    have hp' : s.fetchState .steward x = _ := hp
    simp only [Quiet]
    rw [hp']
    exact this
  | cell n =>
    rw [he] at hp this
    obtain ⟨_, _, h3⟩ := hp
    simp only [Quiet]
    rw [h3]
    exact this


theorem xvec_modBank (u : State) (e : Engine) (x : Bool) (f : Bank → Bank) : (u.modBank e x f).steward.xvec = u.steward.xvec := by
  cases e <;> rfl
theorem xvec_exBump (u : State) (e : Engine) (k : EngCtr) (m : Nat) : (u.exBump e k m).steward.xvec = u.steward.xvec := by
  cases e <;> rfl

/-! ## No core takes an operation that is not for it -/

theorem coreOps_modBank (v : State) (e : Engine) (x : Bool) (f : Bank → Bank) (c : Core)
    (hf : (f (v.bank e x)).core c = (v.bank e x).core c) : (v.modBank e x f).coreOps e c = v.coreOps e c := by
  unfold State.coreOps
  cases e with
  | steward =>
    have hf' : (f v.steward.bank).core c = v.steward.bank.core c := hf
    simp [State.modBank, State.bank, hf']
  | cell n => cases x <;> simp_all [State.modBank, State.bank]

theorem coreOps_exBump (v : State) (e : Engine) (k : EngCtr) (m : Nat) (c : Core) :
    (v.exBump e k m).coreOps e c = v.coreOps e c := by
  simp [State.coreOps]

/-- Cores that are busy, or have no operation, take none. -/
theorem feed_none (v : State) (e : Engine) (w : Word)
    (h : ∀ c, (v.coreOps e c).any (·.begun) = true ∨ v.coreOps e c = []) : v.feedFor e w = v := by
  unfold State.feedFor
  split
  · rename_i c _
    unfold State.feedCore
    rcases h c with h | h
    · unfold State.coreOps at h
      simp only [h, ↓reduceIte]
    · unfold State.coreOps at h
      rw [List.append_eq_nil_iff] at h
      simp [h.1, h.2]
  · rfl

/-- Taking an exception whose operation is the only one of the bank, to a handler. -/
theorem take_eq (v : State) (e : Engine) (x : Bool) (o : Op) (code : Nat) (info : BitVec 64)
    (hv : (v.bank e x).ops = [o]) (hk : ∃ i j, o.kind = .trap i j) (h1 : o.snap.inHandler = false)
    (hh : (v.bank e x).held = false)
    (h2 : isSeq e = true ∨ (v.bank e x).attr.handler ≠ 0x3FFF)
    (hc : code ≠ 4 ∧ code ≠ 0x0A ∧ code ≠ 0x0B ∧ code ≠ 0x0C) :
    ∃ q f g : Bank → Bank,
      v.takeException e x o code info =
        (((((v.modBank e x q).exBump e .instrSquashed ((v.bank e x).n - o.n - 1)).exBump e .excTaken 1).modBank
          e x f).modBank e x g) ∧
      ∀ b, b = v.bank e x → (g (f (q b))).ops = [] ∧
        (g (f (q b))).x0 = BitVec.ofNat 64 (record o.snap (isSeq e) o.word code).1 ∧
        (g (f (q b))).x1 = BitVec.ofNat 64 (record o.snap (isSeq e) o.word code).2.1 ∧
        (g (f (q b))).x2 = info ∧
        (g (f (q b))).regs = { o.snap with
          mode := o.snap.modeNext.getD o.snap.mode, modeNext := none, slot := none, resumeLvl := none
          inHandler := true, pc := if isSeq e then v.steward.xvec.toNat else (v.bank e x).attr.handler } := by
  obtain ⟨c1, c2, c3, c4⟩ := hc
  have hu : v.unreserve e x o = v := by
    obtain ⟨i, j, hk⟩ := hk
    unfold State.unreserve
    rw [hk]
  unfold State.takeException State.squash
  simp only [hv, List.filter_cons, List.filter_nil, Nat.le_refl, decide_true, ↓reduceIte, List.foldl_cons,
    List.foldl_nil, hu, h1, hh, Bool.false_and, Bool.false_eq_true, Bool.false_or]
  cases e with
  | steward =>
    refine ⟨_, _, _, rfl, fun b hb => ⟨?_, rfl, rfl, rfl, ?_⟩⟩
    · subst hb; simp [hv]
    · simp only [isSeq, xvec_modBank, xvec_exBump, ↓reduceIte]
  | cell n =>
    have hh : (v.bank (.cell n) x).attr.handler ≠ 0x3FFF := by simpa [isSeq] using h2
    simp only [c2, ↓reduceIte, beq_eq_false_iff_ne.2 c1, beq_eq_false_iff_ne.2 c3, beq_eq_false_iff_ne.2 c4,
      beq_eq_false_iff_ne.2 hh, Bool.or_self, Bool.and_false, Bool.false_and, Bool.false_eq_true]
    refine ⟨_, _, _, rfl, fun b hb => ⟨?_, rfl, rfl, rfl, ?_⟩⟩
    · subst hb; simp [hv]
    · subst hb; rfl

theorem early {s u : State} {a : At} {x : Bool} {counted : Bool} {code : Nat} {info : BitVec 64}
    (hal : Alone s a x) (hh : HasHandler s a x) (hn : Near s u a.eng x) (hb : u.bank a.eng x = s.bankAt a.eng x)
    (hcr : ∀ c, (u.coreOps a.eng c).any (·.begun) = true ∨ u.coreOps a.eng c = [])
    (hq : Quiet u a.eng) (hx : u.steward.xvec = s.steward.xvec)
    (hc : code ≠ 4 ∧ code ≠ 0x0A ∧ code ≠ 0x0B ∧ code ≠ 0x0C) :
    let t := u.earlyException (s.exAt a x) counted code info
    Trapped s t a x code info ∧ Quiet t a.eng := by
  intro t
  obtain ⟨c1, c2, c3, c4⟩ := hc
  let o0 : Op := { kind := .trap code info, n := (s.bankAt a.eng x).n, d := some 1
                   word := (s.exAt a x).w, snap := (s.bankAt a.eng x).regs }
  let o : Op := { o0 with begun := o0.begins fun _ => true }
  let v0 := (u.countIssue a.eng x counted).modBank a.eng x fun b => { b with ops := b.ops ++ [o] }
  have hv0 : (u.countIssue a.eng x counted).pushOp (s.exAt a x) (.trap code info) (some 1) = v0 := by
    refine feed_none v0 a.eng _ fun c => ?_
    have : v0.coreOps a.eng c = u.coreOps a.eng c := by
      simp only [v0]
      rw [coreOps_modBank _ _ _ _ _ (by rw [Bank.core_push]; simp [o, o0, Op.working])]
      simp only [State.countIssue]
      rw [coreOps_modBank _ _ _ _ _ rfl]
      split
      · exact coreOps_exBump ..
      · rfl
    rw [this]
    exact hcr c
  let v := v0.modBank a.eng x fun b => { b with n := b.n + 1 }
  have ht : t = v.retire a.eng x := by
    simp only [t, State.earlyException, c3, if_false, State.exAt_e, State.exAt_x, hv0]
    rfl
  have hvb : v.bank a.eng x = { s.bankAt a.eng x with
      ops := [o], n := (s.bankAt a.eng x).n + 1, budget := (s.bankAt a.eng x).budget + 1
      issued := if counted then (s.bankAt a.eng x).issued + 1 else (s.bankAt a.eng x).issued } := by
    simp [v, v0, hb, hal.2.1]
  have hv : (v.bank a.eng x).ops = [o] := by rw [hvb]
  have hva : (v.bank a.eng x).attr = (s.bank a.eng x).attr := by rw [hvb]; simp
  have hvN : Near s v a.eng x := by
    simp only [v, v0, State.countIssue]
    refine Near.modBank (Near.modBank (Near.modBank ?_ _) _) _
    split
    · exact hn.exBump _ _
    · exact hn
  have hvQ : Quiet v a.eng := by
    simp only [v, v0, State.countIssue]
    refine Quiet.modBank (Quiet.modBank (Quiet.modBank ?_ _) _) _
    split
    · exact hq.exBump _ _
    · exact hq
  have hvx : v.steward.xvec = s.steward.xvec := by
    rw [← hx]
    simp only [v, v0, State.countIssue, xvec_modBank]
    split
    · exact xvec_exBump ..
    · rfl
  have hr1 : v.retire1 a.eng x = some (v.takeException a.eng x o code info) := by
    have hra : v.raise1 a.eng x o code info = some (v.takeException a.eng x o code info) := by
      have h1 : ((v.bank a.eng x).ops.any fun p => decide (o.n < p.n)) = false := by simp [hv]
      have h2 : ((v.bank a.eng x).ghosts.any fun p => decide (o.n < p.n)) = false := by
        rw [List.any_eq_false]
        intro p hp
        have := hal.2.2 p (by rw [hvb] at hp; exact hp)
        simp only [decide_eq_true_eq, Nat.not_lt]
        exact this
      simp [State.raise1, h1, h2]
    unfold State.retire1
    dsimp only
    split
    · simp_all
    · rename_i o' rest h
      rw [hv] at h
      obtain ⟨rfl, -⟩ := List.cons.inj h
      exact hra
  have hbase : (s.exAt a x).base = { (s.bankAt a.eng x).regs with
      mode := (s.bankAt a.eng x).regs.modeNext.getD (s.bankAt a.eng x).regs.mode, modeNext := none } := rfl
  obtain ⟨q, f, g, hte, hfg⟩ := take_eq v a.eng x o code info hv (by simp [o, o0])
    (by simpa [o, o0] using hh.1) (by rw [hvb]; simpa using hal.1.unheld) (by rw [hva]; exact hh.2) ⟨c1, c2, c3, c4⟩
  have hbt : (v.takeException a.eng x o code info).bank a.eng x = g (f (q (v.bank a.eng x))) := by
    rw [hte]; simp
  obtain ⟨e1, e2, e3, e4, e5⟩ := hfg (v.bank a.eng x) rfl
  have hr2 : (v.takeException a.eng x o code info).retire1 a.eng x = none := by
    unfold State.retire1
    dsimp only
    split
    · rfl
    · rename_i o' rest h
      rw [hbt, e1] at h
      simp at h
  have htt : t = v.takeException a.eng x o code info := by
    rw [ht]
    simp [State.retire, State.retireLoop, hr1, hr2]
  rw [htt]
  refine ⟨⟨?_, ?_, ?_, ?_, ?_, ?_⟩, ?_⟩
  · rw [hbt, e5, hbase]; simp only [hvx, hva]; rfl
  · rw [hbt, e2]
  · rw [hbt, e3]
  · rw [hbt, e4]
  · rw [hbt, e1]
  · rw [hte]
    exact ((((hvN.modBank _).exBump _ _).exBump _ _).modBank _).modBank _
  · rw [hte]
    exact ((((hvQ.modBank _).exBump _ _).exBump _ _).modBank _).modBank _

theorem fetch_xvec (s : State) (e : Engine) (x : Bool) : (s.fetchState e x).steward.xvec = s.steward.xvec := by
  have hp := Part.fetch s e x
  cases e with
  | steward =>
    have hp' : s.fetchState .steward x = _ := hp
    rw [hp']
  | cell n =>
    obtain ⟨h1, _⟩ := hp
    rw [h1]

/-- An exception found at issue. -/
theorem fail_of {s : State} {a : At} {x : Bool} {w : Word} {w2 : Option Word} {code : Nat} {info : BitVec 64}
    {go : Ex → State → Act × State} (h : Issues s a x w w2) (hal : Alone s a x) (hh : HasHandler s a x)
    (hc : code ≠ 4 ∧ code ≠ 0x0A ∧ code ≠ 0x0B ∧ code ≠ 0x0C)
    (hgo : go (s.exAt a x) (s.fetchState a.eng x) = (.fail code info, s.fetchState a.eng x)) :
    Trapped s (s.issue a w w2 go) a x code info := by
  have he := early (counted := true) (info := info) hal hh (Near.fetch s a.eng x)
    (State.fetchState_bank ..) hal.1.cores (Quiet.fetch hal.1) (fetch_xvec ..) hc
  rw [State.issue_of h hal.1.unheld, hgo]
  simp only [reduceCtorEq, ↓reduceIte, State.carry]
  obtain ⟨ht, hq⟩ := he
  have := Near.after ht.near hq
  exact ⟨by rw [this.2]; exact ht.regs, by rw [this.2]; exact ht.x0, by rw [this.2]; exact ht.x1, by rw [this.2]; exact ht.x2,
    by rw [this.2]; exact ht.ops, this.1⟩


theorem Near.issued {s u : State} {a : At} {x : Bool} (h : Near s u a.eng x) (r : Regs) (l : List Dest)
    (d : Nat) : Near s (u.issued (s.exAt a x) r l d) a.eng x := by
  simp only [State.issued, State.countIssue, State.exAt_e, State.exAt_x]
  exact ((h.exBump _ _).modBank _).modBank _
theorem Quiet.issued {s u : State} {a : At} {x : Bool} (h : Quiet u a.eng) (r : Regs) (l : List Dest)
    (d : Nat) : Quiet (u.issued (s.exAt a x) r l d) a.eng := by
  simp only [State.issued, State.countIssue, State.exAt_e, State.exAt_x]
  exact ((h.exBump _ _).modBank _).modBank _

theorem ran_near {s u : State} {a : At} {x : Bool} (hn : Near s u a.eng x) (hq : Quiet u a.eng)
    (r : Regs) (l : List Dest) (d : Nat)
    (hw : ∀ o, (u.bank a.eng x).ops.head? = some o → o.waits = true)
    (hbu : ∀ o ∈ (u.bank a.eng x).ops, ∀ i, o.kind ≠ .trap 0x0B i) :
    let t := ((u.issued (s.exAt a x) r l d).retire a.eng x).afterIssue a.eng x
    Near s t a.eng x ∧ t.bank a.eng x = { ((u.bank a.eng x).noteWrites (s.bank a.eng x).n d l) with
        budget := (u.bank a.eng x).budget + 1, issued := (u.bank a.eng x).issued + 1
        regs := r, n := (s.bank a.eng x).n + 1, held := false, heldFor := none } := by
  intro t
  have hb : (u.issued (s.exAt a x) r l d).bank a.eng x = { ((u.bank a.eng x).noteWrites (s.bank a.eng x).n d l) with
        budget := (u.bank a.eng x).budget + 1, issued := (u.bank a.eng x).issued + 1
        regs := r, n := (s.bank a.eng x).n + 1, held := false, heldFor := none } := by
    have := State.bank_issued u (s.exAt a x) r l d
    simpa using this
  have hr : (u.issued (s.exAt a x) r l d).retire a.eng x = u.issued (s.exAt a x) r l d := by
    refine State.retire_waits _ _ _ ?_ ?_
    · rw [hb]; simpa [Bank.noteWrites] using hw
    · rw [hb]; simpa [Bank.noteWrites] using hbu
  simp only [t, hr]
  have := Near.after (Near.issued hn r l d) (Quiet.issued hq r l d)
  rw [this.2]
  exact ⟨this.1, hb⟩

theorem jumped_of {s : State} {a : At} {x : Bool} {w : Word} {w2 : Option Word}
    {g : Option Nat} {ds : List Dest} {go : Ex → State → Act × State} (h : Issues s a x w w2)
    (hc : Calm s a x ds)
    (hgo : go (s.exAt a x) (s.fetchState a.eng x) = (.branch g ds, s.fetchState a.eng x)) :
    Jumped s (s.issue a w w2 go) a x g ds := by
  have := State.issue_branch h hc hgo
  have hp : ∀ (l : List Dest) (r : Regs), (l.foldl (fun r d => d.apply r) r).pc = r.pc := by
    intro l
    induction l with
    | nil => intro r; rfl
    | cons d l ih =>
      intro r
      rw [List.foldl_cons, ih]
      cases d <;> simp [Dest.apply, Regs.setG, Regs.setV]
      split <;> rfl
  refine ⟨?_, this.2.2.1, this.2.2.2, this.1⟩
  rw [this.2.1, hp]
  simp

theorem left_of {s : State} {a : At} {x : Bool} {w : Word} {w2 : Option Word} {ds : List Dest}
    {r : Regs} {go : Ex → State → Act × State} (h : Issues s a x w w2) (hc : Calm s a x ds)
    (hgo : go (s.exAt a x) (s.fetchState a.eng x) = (.goto r ds none, s.fetchState a.eng x)) :
    Left s (s.issue a w w2 go) a x (ds.foldl (fun r d => d.apply r) r) := by
  have := State.issue_goto h hc hgo
  exact ⟨this.2.1, this.2.2.1, this.2.2.2, this.1⟩

theorem ran_part {s u : State} {a : At} {x : Bool} {w : Word} {w2 : Option Word} {ds : List Dest}
    {go : Ex → State → Act × State} (hi : Issues s a x w w2) (hc : Calm s a x ds)
    (hp : Part0 false s u a.eng x) (ho : (u.bank a.eng x).ops = (s.bankAt a.eng x).ops)
    (hgo : go (s.exAt a x) (s.fetchState a.eng x) = (.done ds, u)) :
    Wrote s (s.issue a w w2 go) a x ds := by
  have hf := State.freeDoubles_none u (s.exAt a x) ds hc.fresh
  have hr := State.ran hc hp ((ds.foldl (fun r d => d.apply r)
    (s.exAt a x).base).finish (s.codeWord a.eng) (unitOf a.eng) (s.exAt a x).len) ds 1
    (by rw [ho]; exact hc.waits) (by rw [ho]; exact hc.budget)
  rw [State.issue_of hi hc.unheld, hgo]
  simp only [reduceCtorEq, ↓reduceIte, State.carry, hf]
  exact ⟨⟨hr.2.1, hr.2.2.1, hr.1⟩, hr.2.2.2.trans ho⟩

theorem exw {s : State} {a : At} {x : Bool} {w : Word} {w2 : Option Word} (hi : Issues s a x w w2) : (s.exAt a x).w = w := by
  simp [State.exAt, hi.word]

end Sys2Proof.Machine
end

