-- ==== Sys2Proof/Tests/Slice0.lean ====
section
/-! SUPPORT. Tests: the well-formedness checks, and for each obligation a state and operands that
meet its hypotheses. -/

set_option Elab.async false

namespace Sys2Proof.Tests

open Sys2Proof.Machine Sys2Proof.Claims

/-- What a next state is asked. -/
def after (o : Host.Outcome State Fault Refusal) (p : State → Bool) : Bool :=
  match o with
  | .next t => p t
  | _ => false

/-! ## Instructions -/

/-- `Issues`, computed. -/
def issuesB (s : State) (a : At) (x : Bool) (w : Word) (w2 : Option Word) : Bool :=
  let pc := (s.bank a.eng x).regs.pc
  let v := s.codeWord a.eng (pc + unitOf a.eng)
  s.running a.eng == some x && !(s.bank a.eng x).gated && s.codeWord a.eng pc == w &&
  (match w2 with | none => true | some u => v == u) &&
  (s.fetchState a.eng x).beforeIssue a.eng x a (s.bankAt a.eng x) w v == none &&
  !((s.bank a.eng x).regs.slot.isSome && noSlot w)

/-- `Calm`, computed. -/
def calmB (s : State) (a : At) (x : Bool) (ds : List Dest) : Bool :=
  let b := s.bankAt a.eng x
  (match b.ops.head? with | none => true | some o => o.waits) &&
  (b.ops.all fun o => match o.kind with | .trap c _ => c != 0x0B | _ => true) &&
  (ds.all fun d => !b.doubles d) &&
  ([.mul, .div, .vdiv].all fun c =>
    let l := (s.fetchState a.eng x).coreOps a.eng c
    l.any (·.begun) || l.isEmpty) &&
  !(s.bank a.eng x).held &&
  match a.eng with
  | .cell n => !(s.cell n.val).dbg.stepping
  | .steward => !s.steward.stepping

/-- The instruction `i` issues in `s` and nothing else changes its bank. -/
def Ready (i : Instr) (s : State) (a : At) (x : Bool) (ds : List Dest) : Prop :=
  ∃ w w2, words i = some (a, w, w2) ∧ Issues s a x w w2 ∧ Calm s a x ds

def readyB (i : Instr) (s : State) (a : At) (x : Bool) (ds : List Dest) : Bool :=
  match words i with
  | some (b, w, w2) => b == a && issuesB s a x w w2 && calmB s a x ds
  | none => false

theorem issues_of {s : State} {a : At} {x : Bool} {w : Word} {w2 : Option Word}
    (h : issuesB s a x w w2 = true) : Issues s a x w w2 := by
  simp only [issuesB, Bool.and_eq_true, beq_iff_eq, Bool.not_eq_true', Bool.and_eq_false_iff] at h
  obtain ⟨⟨⟨⟨⟨h1, h2⟩, h3⟩, h4⟩, h5⟩, h6⟩ := h
  refine ⟨h1, h2, h3, ?_, h5, ?_⟩
  · intro v hv; subst hv; simpa using h4
  · cases hs : (s.bank a.eng x).regs.slot <;> simp_all

theorem calm_of {s : State} {a : At} {x : Bool} {ds : List Dest} (h : calmB s a x ds = true) :
    Calm s a x ds := by
  simp only [calmB, Bool.and_eq_true, List.all_eq_true, Bool.not_eq_true'] at h
  obtain ⟨⟨⟨⟨⟨h1, h2⟩, h3⟩, h4⟩, h5⟩, h6⟩ := h
  refine ⟨fun o ho => by simpa [ho] using h1, fun o ho i e => ?_, h3, fun c => ?_, h5, ?_⟩
  · simpa [e] using h2 o ho
  · have := h4 c (by cases c <;> simp)
    simpa only [Bool.or_eq_true, List.isEmpty_iff] using this
  cases he : a.eng with
  | cell n => simpa [he] using h6
  | steward => simpa [he] using h6

theorem ready_of {i : Instr} {s : State} {a : At} {x : Bool} {ds : List Dest}
    (h : readyB i s a x ds = true) : Ready i s a x ds := by
  unfold readyB at h
  split at h
  · next b w w2 e =>
    simp only [Bool.and_eq_true, beq_iff_eq] at h
    obtain ⟨⟨rfl, h2⟩, h3⟩ := h
    exact ⟨w, w2, e, issues_of h2, calm_of h3⟩
  · cases h

/-- Cell 2, and the Steward. -/
def c2 : At := { eng := .cell 2 }
def stw : At := { eng := .steward }

/-- The header of a firing of class `k`. -/
def pk (k : Nat) : Packet :=
  { node := 5, ctx := 9, gen := 1, iter := 3, cls := k, epar := false, bell := false, npri := 0
    ppois := 0, a := none, b := none, c := none, nops := 1, epars := [] }

/-- The words of an instruction. -/
def codeOf (i : Instr) : List Word :=
  match words i with
  | some (_, w, some v) => [w, v]
  | some (_, w, none) => [w]
  | none => []

/-- A bank at index 16 with a firing of class 2, handler at 0x200 and a scratch window of 4,096
bytes at 0x100. -/
def bank0 : Bank :=
  { hdr := some (pk 2), regs := { pc := 16, g := [(1, 0x100#64), (2, 7#64), (3, 5#64)] }
    attr := { scratchBase := 0x100, scratchLen := 4096, handler := 0x200, bsLo := 0, bsHi := 0x3FFF } }

/-- The instruction is the next one of cell 2, in bank M. -/
def inCell (i : Instr) (b : Bank := bank0) : State :=
  { State.reset with cells :=
      [(2, { m := b, code := (List.range (codeOf i).length).map fun k => (16 + k, (codeOf i).getD k 0) })] }

/-- The instruction is the next one of the Steward, at byte 64. -/
def inSteward (i : Instr) (b : Bank := { regs := { pc := 64, g := [(1, 0x100#64), (2, 7#64)] } }) : State :=
  let l := (codeOf i).flatMap fun w => leBytes 4 w.toNat
  { State.reset with steward := { bank := b, mem := (List.range l.length).map fun k => (64 + k, l.getD k 0) } }

/-- Every instruction of a list issues in cell 2 and in the Steward. -/
theorem all_ready {l : List (Instr × Instr)} {d : List Dest}
    (h : (l.all fun e => readyB e.1 (inCell e.1) c2 false d && readyB e.2 (inSteward e.2) stw false d) = true) :
    ∀ e ∈ l, Ready e.1 (inCell e.1) c2 false d ∧ Ready e.2 (inSteward e.2) stw false d := by
  intro e he
  have h := List.all_eq_true.mp h e he
  simp only [Bool.and_eq_true] at h
  exact ⟨ready_of h.1, ready_of h.2⟩

/-- An instruction with each engine. -/
def both (f : At → Instr) : Instr × Instr := (f c2, f stw)

/-! ### 10 Registers (R199-R206, R215-R220) -/

def intRegs : List (Instr × Instr) :=
  [both (.add · 1 2 3), both (.sub · 1 2 3), both (.and · 1 2 3), both (.or · 1 2 3), both (.xor · 1 2 3),
   both (.andn · 1 2 3), both (.sll · 1 2 3), both (.srl · 1 2 3), both (.sra · 1 2 3), both (.ror · 1 2 3),
   both (.seq · 1 2 3), both (.sne · 1 2 3), both (.slt · 1 2 3), both (.sltu · 1 2 3), both (.min · 1 2 3),
   both (.max · 1 2 3), both (.minu · 1 2 3), both (.maxu · 1 2 3), both (.addc · 1 2 3 4),
   both (.carry · 1 2 3 4), both (.subb · 1 2 3 4), both (.borrow · 1 2 3 4), both (.clz · 1 2),
   both (.ctz · 1 2), both (.popc · 1 2), both (.bswap · 1 2), both (.addw · 1 2 3), both (.subw · 1 2 3),
   -- g0 as destination and the last register
   both (.add · 0 31 31), both (.add · 31 0 0)]

theorem test_integer_register_ops_meet :
    ∀ e ∈ intRegs, Ready e.1 (inCell e.1) c2 false [.g 1 0] ∧ Ready e.2 (inSteward e.2) stw false [.g 1 0] :=
  all_ready (by decide +kernel)

def intImms : List (Instr × Instr) :=
  [both (.addi · 1 2 0xFFFF), both (.andi · 1 2 3), both (.ori · 1 2 3), both (.xori · 1 2 3),
   both (.slti · 1 2 3), both (.sltiu · 1 2 3), both (.shi · 1 2 0 63), both (.shi · 1 2 1 0),
   both (.shi · 1 2 2 5), both (.shi · 1 2 3 5), both (.lui · 1 0x8000), both (.extu · 1 2 0 63),
   both (.exts · 1 2 60 3), both (.ins · 1 2 8 7), both (.li · 1 0xFFFFFFFF), both (.lih · 1 5),
   both (.addx · 1 2 5), both (.andx · 1 2 5), both (.orx · 1 2 5), both (.xorx · 1 2 5)]

theorem test_integer_immediate_ops_meet :
    ∀ e ∈ intImms, Ready e.1 (inCell e.1) c2 false [.g 1 0] ∧ Ready e.2 (inSteward e.2) stw false [.g 1 0] :=
  all_ready (by decide +kernel)

def mulDivs : List (Instr × Instr) :=
  [both (.mul · 1 2 3), both (.mulh · 1 2 3), both (.mulhu · 1 2 3), both (.mulhsu · 1 2 3), both (.mulw · 1 2 3),
   both (.mulwu · 1 2 3), both (.div · 1 2 0), both (.divu · 1 2 3), both (.rem · 1 2 3), both (.remu · 1 2 3),
   both (.divw · 1 2 3), both (.divwu · 1 2 3), both (.remw · 1 2 3), both (.remwu · 1 2 3),
   both (.acc128 · 6 2), both (.acc128u · 30 2)]

theorem test_multiply_divide_ops_meet : ∀ e ∈ mulDivs,
    Ready e.1 (inCell e.1) c2 false [.g 1 0, .g 6 0, .g 7 0] ∧
    Ready e.2 (inSteward e.2) stw false [.g 1 0, .g 6 0, .g 7 0] :=
  all_ready (by decide +kernel)

def floats (a : At) : List Instr :=
  [.fadd a false 1 2 3, .fsub a true 1 2 3, .fmul a false 1 2 3, .fdiv a false 1 2 3, .fsqrt a false 1 2,
   .fma a false 1 2 3 4, .fms a false 1 2 3 4, .fnma a false 1 2 3 4, .fmin a false 1 2 3, .fmax a false 1 2 3,
   .fabs a false 1 2, .fneg a false 1 2, .fcmpeq a false 1 2 3, .fcmplt a false 1 2 3, .fcmple a false 1 2 3,
   .fcmpun a false 1 2 3, .fclass a false 1 2, .fcvtI a false 1 2, .fcvtU a true 1 2, .fcvtF a false 1 2,
   .fcvtFu a false 1 2, .fcvtP a false 1 2, .fsgnj a false 1 2 3]

theorem ready_all {l : List Instr} {f : Instr → State} {d : List Dest}
    (h : (l.all fun i => readyB i (f i) c2 false d) = true) : ∀ i ∈ l, Ready i (f i) c2 false d :=
  fun i hi => ready_of (List.all_eq_true.mp h i hi)

/-- A trap mode enables every flag: FTE is all ones. -/
def trapBank : Bank := { bank0 with regs := { bank0.regs with mode := 0x1F0 } }

theorem test_scalar_float_ops_meet :
    (∀ i ∈ floats c2, Ready i (inCell i) c2 false [.g 1 0, .fss 0]) ∧
    (∀ i ∈ floats c2, Ready i (inCell i trapBank) c2 false []) ∧
    bank0.regs.fte = 0 ∧ (Fmt.b64.div 0 0x3FF0000000000000 0).2 &&& trapBank.regs.fte ≠ 0 :=
  ⟨ready_all (by decide +kernel), ready_all (by decide +kernel), by decide +kernel, by decide +kernel⟩

noncomputable def vecFloats (a : At) : List Instr :=
  [.vfadd a 0 1 2 3, .vfsub a 1 1 2 3, .vfmul a 0 1 2 3, .vfdiv a 0 1 2 3, .vfsqrt a 0 1 2, .vfma a 0 1 2 3 4,
   .vfms a 0 1 2 3 4, .vfnma a 0 1 2 3 4, .vfmin a 0 1 2 3, .vfmax a 0 1 2 3, .vfabs a 0 1 2, .vfneg a 0 1 2,
   .vfcmpeq a 0 1 2 3, .vfcmplt a 0 1 2 3, .vfcmple a 0 1 2 3, .vfcmpun a 0 1 2 3, .vfclass a 0 1 2,
   .vfcvtI a 0 1 2, .vfcvtU a 1 1 2, .vfcvtF a 2 1 2, .vfcvtFu a 3 1 2, .vfsgnj a 0 1 2 3, .vfcvtP a 0 1 2,
   .vfcvtP a 1 1 2, .vfrsum a 0 1 2, .vcmul a 0 1 2 3, .vcmulc a 1 1 2 3, .vbfly4 a 0 1 2 3]

theorem test_vector_float_ops_meet :
    (∀ i ∈ vecFloats c2, Ready i (inCell i) c2 false [.v 1 0, .fss 0]) ∧
    (∀ i ∈ vecFloats c2, Ready i (inCell i trapBank) c2 false []) ∧
    laned 32 trapBank.regs.fte [(0, 8)] ≠ (0, 0, 0) :=
  ⟨ready_all (by decide +kernel), ready_all (by decide +kernel), by decide +kernel⟩

noncomputable def vecInts (a : At) : List Instr :=
  [.vadd a 2 1 2 3, .vsub a 3 1 2 3, .vand a 0 1 2 3, .vor a 0 1 2 3, .vxor a 0 1 2 3, .vandn a 0 1 2 3,
   .vsll a 2 1 2 3, .vsrl a 2 1 2 3, .vsra a 2 1 2 3, .vcmpeq a 2 1 2 3, .vcmplt a 2 1 2 3, .vcmpltu a 2 1 2 3,
   .vmin a 2 1 2 3, .vmax a 3 1 2 3, .vmov a 0 1 2, .vsel a 0 1 2 3 4, .vperm a 0 1 2 3, .vbcast a 0 1 2,
   .vext a 0 2 1 15, .vins a 1 1 2 7]

theorem test_vector_integer_ops_meet :
    ∀ i ∈ vecInts c2, Ready i (inCell i) c2 false [.v 1 0, .g 1 0] := ready_all (by decide +kernel)

/-! ### 11 Control flow (R164-R167, R207, R208, R226, R227) -/

def branches : List (Instr × Instr) :=
  [both (.beq · 1 2 5), both (.bne · 1 2 0x3FFF), both (.blt · 1 2 5), both (.bge · 1 2 5), both (.bltu · 1 2 5),
   both (.bgeu · 1 2 5), both (.jal · 1 5), both (.jalr · 3 1), both (.jalr · 3 2)]

/-- What a handler asks. -/
def handlerB (s : State) (a : At) (x : Bool) : Bool :=
  !(s.bank a.eng x).regs.inHandler && (isSeq a.eng || (s.bank a.eng x).attr.handler != 0x3FFF)

theorem handler_of {s : State} {a : At} {x : Bool} (h : handlerB s a x = true) : HasHandler s a x := by
  simpa [handlerB, HasHandler] using h

theorem alone_of {s : State} {a : At} {x : Bool} (h : calmB s a x [] = true)
    (ho : ((s.bankAt a.eng x).ops.isEmpty &&
      (s.bankAt a.eng x).ghosts.all fun o => decide (o.n ≤ (s.bankAt a.eng x).n)) = true) : Alone s a x := by
  simp only [Bool.and_eq_true, List.isEmpty_iff, List.all_eq_true, decide_eq_true_eq] at ho
  exact ⟨calm_of h, ho⟩

/-- The byte 7 of g2 is no word address: JALR traps in the Steward; 0x100 in g1 is one. -/
theorem test_branches_and_jumps_meet :
    (∀ e ∈ branches, Ready e.1 (inCell e.1) c2 false [.g 1 0] ∧ Ready e.2 (inSteward e.2) stw false [.g 1 0]) ∧
    Alone (inSteward (.jalr stw 3 2)) stw false ∧ HasHandler (inSteward (.jalr stw 3 2)) stw false ∧
    (gs (inSteward (.jalr stw 3 2)) stw false 2).toNat % 4 ≠ 0 ∧
    (gs (inSteward (.jalr stw 3 1)) stw false 1).toNat % 4 = 0 :=
  ⟨all_ready (by decide +kernel), alone_of (by decide +kernel) (by decide +kernel),
    handler_of (by decide +kernel), by decide +kernel, by decide +kernel⟩

/-- Four levels are open. -/
def deep : Bank := { bank0 with regs := { bank0.regs with ldepth := 4 } }
/-- One level with its end at 40 is open. -/
def open1 : Bank := { bank0 with regs := { bank0.regs with ldepth := 1, le := [(0, 40)] } }

theorem test_loop_ops_meet :
    (∀ e ∈ [both (.loop · 1 4), both (.loop · 0 4), both (.loopi · 3 4), both (.loopi · 0 4),
        both (.mtl · 1 3 .ls), both (.mtl · 1 0 .le), both (.mtl · 1 0 .lc), both (.mfl · 1 3 .ls),
        both (.mfl · 1 0 .le), both (.mfl · 1 0 .lc)],
      Ready e.1 (inCell e.1) c2 false [.g 1 0, .ls 3 0, .le 0 0, .lc 0 0] ∧
      Ready e.2 (inSteward e.2) stw false [.g 1 0, .ls 3 0, .le 0 0, .lc 0 0]) ∧
    (let s := inCell (.loop c2 1 20) open1
     Ready (.loop c2 1 20) s c2 false [] ∧ (gs s c2 false 1).toNat % 2 ^ 32 ≠ 0 ∧
     bank0.regs.pc < (s.exAt c2 false).le 20 ∧ (s.exAt c2 false).le 20 < open1.regs.le.get 0 0) ∧
    (let s := inCell (.loop c2 1 4) deep
     Ready (.loop c2 1 4) s c2 false [] ∧ Alone s c2 false ∧ HasHandler s c2 false ∧ deep.regs.ldepth = 4) ∧
    (let s := inCell (.loop c2 1 40) { bank0 with attr := { bank0.attr with bsHi := 18 } }
     Ready (.loop c2 1 40) s c2 false [] ∧ Alone s c2 false ∧ HasHandler s c2 false ∧
     (s.bank c2.eng false).attr.bsHi < (s.exAt c2 false).le 40) :=
  ⟨all_ready (by decide +kernel),
    ⟨ready_of (by decide +kernel), by decide +kernel, by decide +kernel, by decide +kernel⟩,
    ⟨ready_of (by decide +kernel), alone_of (by decide +kernel) (by decide +kernel),
      handler_of (by decide +kernel), by decide +kernel⟩,
    ⟨ready_of (by decide +kernel), alone_of (by decide +kernel) (by decide +kernel),
      handler_of (by decide +kernel), by decide +kernel⟩⟩

/-- In the shadow of a MODE. -/
def shaded : Bank := { bank0 with regs := { bank0.regs with modeNext := some 2 } }
/-- In the handler. -/
def inHandler : Bank := { bank0 with regs := { bank0.regs with inHandler := true } }

theorem test_status_and_record_ops_meet :
    (∀ e ∈ [both .instrNop, both (.rdstat · 1), both (.xmov · 1 0), both (.xmov · 1 1), both (.xmov · 1 2)],
      Ready e.1 (inCell e.1) c2 false [.g 1 0] ∧ Ready e.2 (inSteward e.2) stw false [.g 1 0]) ∧
    (Ready (.xset c2 1) (inCell (.xset c2 1) inHandler) c2 false [] ∧
      ((inCell (.xset c2 1) inHandler).bank c2.eng false).regs.inHandler = true) ∧
    (Ready (.xset c2 1) (inCell (.xset c2 1)) c2 false [] ∧ Alone (inCell (.xset c2 1)) c2 false ∧
      HasHandler (inCell (.xset c2 1)) c2 false) ∧
    (Ready (.mode c2 0 4) (inCell (.mode c2 0 4)) c2 false [] ∧
      Ready (.mode c2 0 5) (inCell (.mode c2 0 5)) c2 false [] ∧
      Ready (.mode c2 1 0) (inCell (.mode c2 1 0)) c2 false [] ∧
      Ready (.mode c2 0 4) (inCell (.mode c2 0 4) shaded) c2 false [] ∧
      Ready (.mode c2 0 0x4004) (inCell (.mode c2 0 0x4004) shaded) c2 false [] ∧
      Alone (inCell (.mode c2 0 5)) c2 false ∧ HasHandler (inCell (.mode c2 0 5)) c2 false) :=
  ⟨all_ready (by decide +kernel), ⟨ready_of (by decide +kernel), by decide +kernel⟩,
    ⟨ready_of (by decide +kernel), alone_of (by decide +kernel) (by decide +kernel), handler_of (by decide +kernel)⟩,
    ⟨ready_of (by decide +kernel), ready_of (by decide +kernel), ready_of (by decide +kernel),
      ready_of (by decide +kernel), ready_of (by decide +kernel), alone_of (by decide +kernel) (by decide +kernel), handler_of (by decide +kernel)⟩⟩

/-- Debug is enabled for the pair of cell 2, and the trace is off. -/
def debugged (s : State) : State :=
  { s with
    watch := { s.watch with pairs := [(1, { pass := true })] }
    trace := { s.trace with en := false } }

/-- An operation in flight that writes g20. -/
def busyOp : Op := { kind := .result [.g 20 0], n := 0, d := some 3, word := 0, snap := {} }
/-- A bank with one. -/
def busy : Bank := { bank0 with ops := [busyOp], n := 1 }

theorem test_handler_and_firing_ops_meet :
    (let s := inCell (.resume c2) inHandler
     Ready (.resume c2) s c2 false [] ∧ (s.bank c2.eng false).regs.inHandler = true) ∧
    (let s := inCell (.resume c2) { busy with regs := inHandler.regs }
     Ready (.resume c2) s c2 false [] ∧ (s.bank c2.eng false).regs.inHandler = true) ∧
    (let s := inCell (.resume c2)
     Ready (.resume c2) s c2 false [] ∧ Alone s c2 false ∧ HasHandler s c2 false) ∧
    (let s := debugged (inCell (.brk c2 9))
     Ready (.brk c2 9) s c2 false [] ∧ Alone s c2 false ∧ s.debugOn 2 = true ∧ s.trace.en = false) ∧
    (let s := inCell (.brk c2 9)
     Ready (.brk c2 9) s c2 false [] ∧ HasHandler s c2 false ∧ s.debugOn 2 = false) ∧
    (Ready (.dropr c2) (inCell (.dropr c2)) c2 false [] ∧
      Ready (.dropr c2) (inCell (.dropr c2) { bank0 with unlanded := 3 }) c2 false [] ∧
      Ready (.dropr c2) (inCell (.dropr c2) { busy with unlanded := 3 }) c2 false []) ∧
    (let s := inCell (.endFiring c2) busy
     Ready (.endFiring c2) s c2 false [] ∧ (s.bank c2.eng false).ops ≠ []) ∧
    (let s := inCell (.endFiring c2)
     Ready (.endFiring c2) s c2 false [] ∧ (s.bank c2.eng false).ops = [] ∧
       (s.bank c2.eng false).hdr = some (pk 2) ∧ s.offersLeft 2 false 2 = false) :=
  ⟨⟨ready_of (by decide +kernel), by decide +kernel⟩, ⟨ready_of (by decide +kernel), by decide +kernel⟩,
    ⟨ready_of (by decide +kernel), alone_of (by decide +kernel) (by decide +kernel), handler_of (by decide +kernel)⟩,
    ⟨ready_of (by decide +kernel), alone_of (by decide +kernel) (by decide +kernel), by decide +kernel,
      by decide +kernel⟩,
    ⟨ready_of (by decide +kernel), handler_of (by decide +kernel), by decide +kernel⟩,
    ⟨ready_of (by decide +kernel), ready_of (by decide +kernel), ready_of (by decide +kernel)⟩,
    ⟨ready_of (by decide +kernel), by decide +kernel⟩,
    ⟨ready_of (by decide +kernel), by decide +kernel, by decide +kernel, by decide +kernel⟩⟩

/-- A delay slot is next. -/
def slotted : Bank := { bank0 with regs := { bank0.regs with slot := some { idx := 15, target := some 40 } } }
/-- The bank runs at an index outside its graph's range. -/
def outside : Bank := { bank0 with attr := { bank0.attr with bsLo := 17 } }

/-- The exceptions found before an instruction: FETCH_RANGE of an index outside the range, the illegal
word 0xFFFFFFFF, and a branch in a delay slot. -/
theorem test_exceptions_before_issue_meet :
    (let s := inCell (.add c2 1 2 3) outside
     s.running c2.eng = some false ∧ (s.bank c2.eng false).gated = false ∧ Alone s c2 false ∧
     HasHandler s c2 false ∧ (s.fetchState c2.eng false).beforeIssue c2.eng false c2 (s.bankAt c2.eng false)
       (s.codeWord c2.eng 16) (s.codeWord c2.eng 17) = some (0x03, 16)) ∧
    (let s := { inCell (.add c2 1 2 3) with cells := [(2, { m := bank0, code := [(16, 0xFFFFFFFF#32)] })] }
     s.running c2.eng = some false ∧ Alone s c2 false ∧
     (s.fetchState c2.eng false).beforeIssue c2.eng false c2 (s.bankAt c2.eng false)
       (s.codeWord c2.eng 16) (s.codeWord c2.eng 17) = some (0x01, 0xFFFFFFFF)) ∧
    (let s := inCell (.jal c2 0 4) slotted
     s.running c2.eng = some false ∧ (s.bank c2.eng false).gated = false ∧ Alone s c2 false ∧
     HasHandler s c2 false ∧ (words (.jal c2 0 4)).isSome = true ∧ slotted.regs.slot.isSome = true ∧
     noSlot (s.codeWord c2.eng 16) = true ∧
     (s.fetchState c2.eng false).beforeIssue c2.eng false c2 (s.bankAt c2.eng false)
       (s.codeWord c2.eng 16) (s.codeWord c2.eng 17) = none) :=
  ⟨⟨by decide +kernel, by decide +kernel, alone_of (by decide +kernel) (by decide +kernel),
      handler_of (by decide +kernel), by decide +kernel⟩,
    ⟨by decide +kernel, alone_of (by decide +kernel) (by decide +kernel), by decide +kernel⟩,
    ⟨by decide +kernel, by decide +kernel, alone_of (by decide +kernel) (by decide +kernel),
      handler_of (by decide +kernel), by decide +kernel, by decide +kernel, by decide +kernel, by decide +kernel⟩⟩

/-- Held by an operation of distance 3; a stopped cell; another instruction's word. -/
theorem test_distance_gate_meets :
    (words (.add c2 1 2 3)).isSome = true ∧ State.reset.running c2.eng = none ∧
    (let s := inCell (.add c2 1 2 3) { busy with n := 3 }
     s.running c2.eng = some false ∧ (s.bank c2.eng false).gated = true) ∧
    (let s := inCell (.sub c2 1 2 3)
     s.running c2.eng = some false ∧ (s.bank c2.eng false).gated = false ∧
     s.codeWord c2.eng 16 ≠ ((words (.add c2 1 2 3)).getD (c2, 0, none)).2.1 ∧
     (s.fetchState c2.eng false).beforeIssue c2.eng false c2 (s.bankAt c2.eng false)
       (s.codeWord c2.eng 16) (s.codeWord c2.eng 17) = none) := by decide +kernel

/-! ### 12 Memory (R169-R173, R209-R214) -/

/-- g1 = 0x100, g2 = 7 and g3 = 4,095 name bytes of the window; g8 = 4,096 is past it. -/
def addrs : Bank :=
  { bank0 with regs := { bank0.regs with
      g := [(1, 0x100#64), (2, 7#64), (3, 4095#64), (8, 4096#64), (9, 70#64), (10, 0x8000000000000040#64)] } }

/-- An aligned access at the first and at the last place of the window, a misaligned one, and one
that leaves it. -/
theorem test_loads_meet :
    (∀ i ∈ [Instr.ld c2 3 false 7 1 0, .ld c2 3 false 7 1 0x0FF, .ld c2 0 true 7 3 0, .ld c2 3 false 7 2 0,
        .ld c2 3 false 7 8 0, .ldv c2 3 1 0], Ready i (inCell i addrs) c2 false [.g 7 0, .v 3 0]) ∧
    (let s := inCell (.ld c2 3 false 7 1 0) addrs
     let p := fun (r : BitVec 5) (off : BitVec 12) => (gs s c2 false r + off.signExtend 64 * 8).toNat
     Alone s c2 false ∧ HasHandler s c2 false ∧ p 1 0 % 8 = 0 ∧ p 1 0 + 8 ≤ window s c2 false ∧
     p 2 0 % 8 ≠ 0 ∧ p 8 0 % 8 = 0 ∧ window s c2 false < p 8 0 + 8 ∧
     (gs s c2 false 3).toNat + 1 = window s c2 false) ∧
    (let i := Instr.ld stw 3 false 7 1 0
     Ready i (inSteward i) stw false [.g 7 0] ∧ Fits (inSteward i) stw) :=
  ⟨ready_all (f := fun i => inCell i addrs) (by decide +kernel),
    ⟨alone_of (by decide +kernel) (by decide +kernel), handler_of (by decide +kernel), by decide +kernel⟩,
    ⟨ready_of (by decide +kernel), fun _ => by unfold Steward.Room; decide +kernel⟩⟩

theorem test_stores_meet :
    (∀ i ∈ [Instr.st c2 3 7 1 0, .st c2 0 7 3 0, .st c2 3 7 2 0, .st c2 3 7 8 0, .stv c2 3 1 0],
      Ready i (inCell i addrs) c2 false [.g 7 0]) ∧
    (let s := inCell (.st c2 3 7 1 0) addrs
     Alone s c2 false ∧ HasHandler s c2 false ∧ (gs s c2 false 1).toNat + 8 ≤ window s c2 false ∧
     (gs s c2 false 2).toNat % 8 ≠ 0 ∧ window s c2 false < (gs s c2 false 8).toNat + 8) ∧
    Ready (.st stw 3 7 1 0) (inSteward (.st stw 3 7 1 0)) stw false [] :=
  ⟨ready_all (f := fun i => inCell i addrs) (by decide +kernel),
    ⟨alone_of (by decide +kernel) (by decide +kernel), handler_of (by decide +kernel), by decide +kernel⟩,
    ready_of (by decide +kernel)⟩

/-- Sixteen requests of cell 2 are out. -/
def crowded (i : Instr) : State :=
  let q : Req :=
    { src := 2, xid := 0, handle := 1, graph := 0, bytes := 8, write := false, offset := 0, data := []
      upois := false, dry := false, t0 := 0, express := false, opId := 0, peer := none, served := false
      lost := false }
  let s := inCell i addrs
  { s with fabric := { s.fabric with reqs := List.replicate 16 q } }

theorem mayAsk_of {s : State} {a : At} {x write : Bool} (n : Fin 128) (he : a.eng = .cell n)
    (h : decide (s.outstanding n.val < 16) = true) {p : Packet} (hp : (s.bank a.eng x).hdr = some p)
    (h0 : p.cls ≠ 0) (hw : (s.ctxOf p.ctx).partner = none) : MayAsk s a x write := by
  intro c hc
  have : c = n := by rw [hc] at he; injection he
  subst this
  exact ⟨of_decide_eq_true h, p, hp, fun e => absurd e h0, fun _ _ => hw⟩

theorem test_region_ops_meet :
    (∀ i ∈ [Instr.ldr c2 3 false 7 2 1, .ldr c2 4 false 3 2 1, .ldr c2 3 false 7 2 2, .str c2 3 7 2 1,
        .str c2 4 3 2 1, .str c2 3 7 2 2], Ready i (inCell i addrs) c2 false [.g 7 0, .v 3 0]) ∧
    (let s := inCell (.ldr c2 3 false 7 2 1) addrs
     MayAsk s c2 false false ∧ MayAsk s c2 false true ∧ Alone s c2 false ∧ HasHandler s c2 false ∧
     (gs s c2 false 1).toNat % 8 = 0 ∧ (gs s c2 false 2).toNat % 8 ≠ 0) ∧
    (Ready (.ldr c2 3 false 7 2 1) (crowded (.ldr c2 3 false 7 2 1)) c2 false [.g 7 0] ∧
      16 ≤ (crowded (.ldr c2 3 false 7 2 1)).outstanding 2) ∧
    (let b := { addrs with ops := busy.ops, n := 1 }
     Ready (.str c2 3 7 2 1) (inCell (.str c2 3 7 2 1) b) c2 false [] ∧ b.ops ≠ []) :=
  ⟨ready_all (f := fun i => inCell i addrs) (by decide +kernel),
    ⟨mayAsk_of 2 rfl (by decide +kernel) (p := pk 2) (by decide +kernel) (by decide) (by decide +kernel),
      mayAsk_of 2 rfl (by decide +kernel) (p := pk 2) (by decide +kernel) (by decide) (by decide +kernel),
      alone_of (by decide +kernel) (by decide +kernel), handler_of (by decide +kernel), by decide +kernel,
      by decide +kernel⟩,
    ⟨ready_of (by decide +kernel), by decide +kernel⟩, ⟨ready_of (by decide +kernel), by decide +kernel⟩⟩

/-- No bytes left (g20), 70 bytes (g9), 64 with MATCH (g10); inside and outside the window. -/
theorem test_block_repeats_meet :
    (∀ i ∈ [Instr.bmov c2 7 1 20, .bfill c2 7 1 20, .bscan c2 0 false 7 1 20, .bcmp c2 7 1 20, .bmov c2 11 1 9,
        .bmov c2 8 1 9, .bfill c2 11 1 9, .bscan c2 1 true 2 1 9, .bscan c2 0 false 1 2 9, .bscan c2 0 false 1 2 10,
        .bcmp c2 1 11 9, .bcmp c2 1 11 10], Ready i (inCell i addrs) c2 false []) ∧
    (let s := inCell (.bmov c2 8 1 9) addrs
     left s c2 false 20 = 0 ∧ left s c2 false 9 = 70 ∧ chunk s c2 false 9 = 64 ∧ left s c2 false 10 = 64 ∧
     (gs s c2 false 10).getLsbD 63 = true ∧ (gs s c2 false 9).getLsbD 63 = false ∧
     (gs s c2 false 1).toNat + 64 ≤ window s c2 false ∧ (gs s c2 false 11).toNat + 64 ≤ window s c2 false ∧
     window s c2 false < (gs s c2 false 8).toNat + 64 ∧ (gs s c2 false 2).toNat % 2 ≠ 0) ∧
    Alone (inCell (.bmov c2 8 1 9) addrs) c2 false ∧ HasHandler (inCell (.bmov c2 8 1 9) addrs) c2 false ∧
    Fits (inCell (.bmov c2 8 1 9) addrs) c2 :=
  ⟨ready_all (f := fun i => inCell i addrs) (by decide +kernel), by decide +kernel,
    alone_of (by decide +kernel) (by decide +kernel), handler_of (by decide +kernel), fun h => by cases h⟩

/-! ### 13 Sends (R174-R176, R222-R224) -/

/-- Cell 2 with credit for its context and for context 0x100 at the generation it holds for it; g4
names the first, g1 the second. -/
def creditFor2 (i : Instr) (b : Bank) (n : Nat) : State :=
  let s := inCell i b
  { s with cells := [(2, { s.cell 2 with
      credit := [(16 * 9 + 1, n), (16 * 0x100 + 4, n)], credGen := [(0x100, some 4)] })] }

def sendBank : Bank := { bank0 with regs := { bank0.regs with g := [(1, 0x100#64), (2, 7#64), (4, 9#64)] } }

/-- SEND to cell 3 by g4's context and SENDI to responder 0 by g1's: with one credit left, with two,
behind an operation; a bad destination. -/
theorem test_sends_meet :
    let i := Instr.send c2 3 0 0 false 0 1 2
    let j := Instr.sendi c2 0x80 0 1 false 3 1 1 20 2
    let bad := Instr.send c2 0x97 0 0 false 0 1 2
    let b2 : Bank := { sendBank with ops := busy.ops, n := 1 }
    Ready i (creditFor2 i sendBank 1) c2 false [] ∧ Ready i (creditFor2 i sendBank 2) c2 false [] ∧
    Ready j (creditFor2 j sendBank 2) c2 false [] ∧ Ready i (creditFor2 i b2 2) c2 false [] ∧
    creditFor (creditFor2 i sendBank 1) 2 (pk 2) 9 = 1 ∧ creditFor (creditFor2 i sendBank 2) 2 (pk 2) 9 = 2 ∧
    creditFor (creditFor2 j sendBank 2) 2 (pk 2) 0x100 = 2 ∧
    (gs (creditFor2 i sendBank 2) c2 false 2).toNat < 2 ^ 22 ∧
    (creditFor2 i sendBank 2).fabric.iso.contains 2 = false ∧
    ((creditFor2 i sendBank 2).ctxOf 9).partner = none ∧ ((creditFor2 i sendBank 2).ctxOf 9).shadow = false ∧
    b2.ops ≠ [] ∧
    Ready bad (creditFor2 bad sendBank 2) c2 false [] ∧ Alone (creditFor2 bad sendBank 2) c2 false ∧
    HasHandler (creditFor2 bad sendBank 2) c2 false :=
  ⟨ready_of (by decide +kernel), ready_of (by decide +kernel), ready_of (by decide +kernel),
    ready_of (by decide +kernel), by decide +kernel, by decide +kernel, by decide +kernel, by decide +kernel,
    by decide +kernel, by decide +kernel, by decide +kernel, by decide +kernel, ready_of (by decide +kernel),
    alone_of (by decide +kernel) (by decide +kernel), handler_of (by decide +kernel)⟩

/-! ### 14 Contexts and the Steward (R178, R225, R228, R229) -/

/-- A graph of a class. -/
def graphOf (k : BitVec 2) : GraphBody :=
  { cls := k, nsink := 1, resultSlots := 0, peakWait := 1, audit := false, scratchBase := 0, scratchLen := 0
    handler := 0x3FFF, groups := [], parts := [], srcPart := 0, srcNode := 0, bindNodes := [], importNodes := [] }

/-- Graph 4 of class `k` is loaded, and context 7 of class `k` is LIVE and installed. -/
def withGraph (k : Nat) (s : State) : State :=
  { s with reeve := { s.reeve with
      graphs := [(4, some (graphOf (BitVec.ofNat 2 k)))]
      ctx := [(7, { st := .live, cls := k, graph := 4, installed := true })] } }

theorem test_context_ops_meet :
    let i := Instr.ctxreq c2 1 4
    let j := Instr.ctxrel c2 2
    let asked := fun (r : Option (Nat × Option Nat)) => inCell i { bank0 with ctxReq := r }
    let plain := withGraph 2 (inCell i)
    let low := withGraph 1 (inCell i)
    Ready i (asked (some (4, some 77))) c2 false [.g 1 0] ∧ Ready i (asked (some (4, none))) c2 false [] ∧
    (Ready i plain c2 false [] ∧ plain.graph 4 = some (graphOf 2) ∧
      plain.cellar.quarantined.contains 4 = false ∧ (plain.reeve.queue.get [] 2).length < 256) ∧
    (Ready i low c2 false [] ∧ Alone low c2 false ∧ HasHandler low c2 false ∧ low.graph 4 = some (graphOf 1)) ∧
    (Ready i (inCell i) c2 false [] ∧ (inCell i).graph 4 = none ∧ Alone (inCell i) c2 false) ∧
    (Ready j (withGraph 2 (inCell j)) c2 false [] ∧ ((withGraph 2 (inCell j)).ctxOf 7).st = .live ∧
      (gs (inCell j) c2 false 2).toNat = 7 ∧ Alone (withGraph 2 (inCell j)) c2 false) ∧
    (Ready j (withGraph 1 (inCell j)) c2 false [] ∧ HasHandler (withGraph 1 (inCell j)) c2 false) ∧
    (Ready j (inCell j) c2 false [] ∧ ((inCell j).ctxOf 7).st ≠ .live) ∧
    (Ready j (inCell j busy) c2 false [] ∧ busy.ops ≠ []) :=
  ⟨ready_of (by decide +kernel), ready_of (by decide +kernel),
    ⟨ready_of (by decide +kernel), by decide +kernel, by decide +kernel, by decide +kernel⟩,
    ⟨ready_of (by decide +kernel), alone_of (by decide +kernel) (by decide +kernel), handler_of (by decide +kernel),
      by decide +kernel⟩,
    ⟨ready_of (by decide +kernel), by decide +kernel, alone_of (by decide +kernel) (by decide +kernel)⟩,
    ⟨ready_of (by decide +kernel), by decide +kernel, by decide +kernel, alone_of (by decide +kernel) (by decide +kernel)⟩,
    ⟨ready_of (by decide +kernel), handler_of (by decide +kernel)⟩,
    ⟨ready_of (by decide +kernel), by decide +kernel⟩, ⟨ready_of (by decide +kernel), by decide +kernel⟩⟩

theorem test_context_ops :
    let i := Instr.ctxreq c2 1 4
    let j := Instr.ctxrel c2 2
    after (exec i (inCell i { bank0 with ctxReq := some (4, some 77) })) (fun t =>
      (t.bank c2.eng false).regs.gr 1 == 77 && (t.bank c2.eng false).ctxReq == none) = true ∧
    after (exec i (withGraph 2 (inCell i))) (fun t =>
      (t.bank c2.eng false).ctxReq == some (4, none) && (t.bank c2.eng false).regs.pc == 16 &&
      (t.reeve.queue.get [] 2).length == 1) = true ∧
    after (exec j (withGraph 2 (inCell j))) (fun t => (t.ctxOf 7).st != .live && (t.bank c2.eng false).regs.pc == 17)
      = true ∧
    after (exec j (inCell j)) (fun t => (t.cell 2).cnt.get 0 EngCtr.ctxrelNop.ctorIdx == 1) = true := by
  decide +kernel

/-- The Steward with line 4 dirty, event 1 pending and allowed, and the timer at 50. -/
def inSteward2 (i : Instr) : State :=
  let s := inSteward i
  { s with steward := { s.steward with
      dcache := [(4, List.replicate 64 0xAB, true)], evPend := 2, evMask := 2, timer := some 50
      bank := { s.steward.bank with x1 := 5 } } }

/-- The Steward with a load in flight. -/
def loading (i : Instr) : State :=
  let s := inSteward2 i
  { s with steward := { s.steward with bank := { s.steward.bank with
      ops := [{ kind := .regionLoad 20 false 8 false 0, n := 0, d := some 6, word := 0, snap := {} }], n := 1 } } }

theorem test_steward_ops_meet :
    (∀ i ∈ [Instr.mfsr stw 3 0x010, .mfsr stw 3 0x020, .mtsr stw 1 0x000, .mtsr stw 2 0x020, .waite stw, .fence stw,
        .icinv stw 1, .dcclean stw 1, .dcinv stw 1, .dcci stw 1],
      Ready i (inSteward2 i) stw false [.g 3 0]) ∧
    (let s := inSteward2 (.dcclean stw 1)
     (gs s stw false 1).toNat % 2 ^ 32 / 64 = 4 ∧ s.steward.evPend &&& s.steward.evMask ≠ 0 ∧
     (∀ i ∈ [Instr.mfsr stw 3 0x010, .mtsr stw 2 0x000, .fence stw, .dcinv stw 1], readyB i (loading i) stw false [] = true) ∧
     ((loading (.fence stw)).bankAt stw.eng false).ops.any Op.access = true ∧
     s.steward.timer = some 50 ∧ (inSteward (.waite stw)).steward.evPend &&& (inSteward (.waite stw)).steward.evMask = 0) :=
  ⟨fun i hi => ready_of (List.all_eq_true.mp (by decide +kernel :
      ([Instr.mfsr stw 3 0x010, .mfsr stw 3 0x020, .mtsr stw 1 0x000, .mtsr stw 2 0x020, .waite stw, .fence stw,
        .icinv stw 1, .dcclean stw 1, .dcinv stw 1, .dcci stw 1].all fun i =>
        readyB i (inSteward2 i) stw false [.g 3 0]) = true) i hi), by decide +kernel⟩

theorem test_steward_ops :
    after (exec (.mfsr stw 3 0x020) (inSteward2 (.mfsr stw 3 0x020))) (fun t => (t.bank stw.eng false).regs.gr 3 == 50) = true ∧
    after (exec (.mtsr stw 2 0x000) (inSteward2 (.mtsr stw 2 0x000))) (fun t => t.steward.xvec == 0 &&
      (t.bank stw.eng false).ops.map (·.kind) == [.sysWrite 0 7]) = true ∧
    after (exec (.dcclean stw 1) (inSteward2 (.dcclean stw 1))) (fun t =>
      t.steward.mem.get 0 256 == 0xAB && t.steward.mem.get 0 320 == 0 &&
      t.steward.dcache == [(4, List.replicate 64 0xAB, false)]) = true ∧
    after (exec (.dcinv stw 1) (inSteward2 (.dcinv stw 1))) (fun t =>
      t.steward.mem.get 0 256 == 0 && t.steward.dcache == []) = true ∧
    after (exec (.stewardTimerExpiry) (inSteward2 (.waite stw))) (fun t =>
      t.time.now == 50 && t.steward.evPend == 0x12 && t.steward.timer == none) = true := by
  decide +kernel

/-! ### 15 Firings and region traffic (R134, R144, R153-R160, R180, R267, R269) -/

/-- The descriptor of a node with `n` operands, entry 0x40 and RM 1. -/
def desc (n : Nat) : BitVec 64 := BitVec.ofNat 64 (1 + n * 2 + 0x40 * 32 + 2 ^ 19)

/-- A packet of class `k` with two operands. -/
def pk2 (k : Nat) : Packet := { pk k with a := some [1, 2], b := some [3], nops := 2, epars := [false, false] }

def queued (k : Nat) : Queued := { pkt := pk2 k, seq := 0, t := 0 }

/-- Cell 2 with queues. -/
def cellQ (q : Queues) (m : Bank := {}) : State :=
  { State.reset with cells := [(2, { que := q, m := m, nodes := [(5, desc 2)] })] }

theorem test_firing_start_meets :
    let s := cellQ { express := [queued 0] }
    let t := cellQ { eb0 := [queued 2] }
    let u := cellQ { eb1 := [queued 2] }
    (s.engineOn 2 = true ∧ (s.cell 2).p.hdr = none ∧ (s.cell 2).m.hdr = none ∧
      headOf (s.cell 2).que.express = some (queued 0) ∧ (queued 0).pkt.ppois < 8) ∧
    ((t.cell 2).que.drain = [] ∧ headOf (t.cell 2).que.fill = some (queued 2)) ∧
    (headOf (u.cell 2).que.drain = some (queued 2) ∧ (u.cell 2).que.drain ≠ [] ∧ (t.cell 2).que.eHeld = 0) ∧
    (cellQ {}).engineOn 2 = true ∧
    (let v := { s with cells := [(2, { s.cell 2 with m := bank0, preempted := true })] }
     v.engineOn 2 = true ∧ (v.cell 2).p.hdr = none ∧ (v.cell 2).preempted = true) ∧
    (let v := cellQ { express := [queued 1] } bank0
     v.engineOn 2 = true ∧ (v.cell 2).m.hdr = some (pk 2) ∧ (v.cell 2).preempted = false ∧
     (v.cell 2).m.regs.slot = none ∧ headOf (v.cell 2).que.express = some (queued 1)) := by
  decide +kernel

/-- The operands are in g1 and g2, the context in g4, the iteration in g5, the mode and the entry come
from the descriptor, and the packet has left its queue (R157-R159). -/
theorem test_firing_start :
    after (exec (.firingStart 2 1 {}) (cellQ { eb1 := [queued 2] })) (fun t =>
      let b := (t.cell 2).m
      b.hdr == some (pk2 2) && b.regs.pc == 0x40 && b.regs.gr 1 == 0x200000001 && b.regs.gr 2 == 3 &&
      b.regs.gr 4 == 9 && b.regs.gr 5 == 3 && b.regs.mode == descMode (desc 2) && b.unlanded == 1 &&
      (t.cell 2).que.eb1 == []) = true ∧
    after (exec (.preemption 2 0 {}) (cellQ { express := [queued 1] } bank0)) (fun t =>
      (t.cell 2).preempted && (t.cell 2).p.hdr == some (pk2 1) && (t.cell 2).m == bank0 &&
      (t.cell 2).que.express == []) = true := by
  decide +kernel

/-- An operation that ends in a trap. -/
def trapOp : Op := { kind := .trap 0x08 5, n := 0, d := some 3, word := 0x12345678, snap := bank0.regs }

/-- A load of 8 bytes to g20 that waits. -/
def loadOp : Op := { kind := .regionLoad 20 false 8 false 0, n := 0, d := some 6, word := 0, snap := bank0.regs }

/-- A multiplication that works, one of each bank that waits for it, a squashed one, a write of XVEC. -/
def mulOp (n : Nat) (begun : Bool) : Op :=
  { kind := .result [.g 20 9], n := n, d := some 5, word := 0x04000000, snap := {}, begun := begun }
def waits3 (p m : Bool) : State :=
  let k := bank0
  { State.reset with cells := [(2, {
      p := { k with ops := if p then [mulOp 0 false] else [], n := 1 }
      m := { k with ops := mulOp 0 true :: if m then [mulOp 1 false] else [], n := 2 } })] }
def xvecOp : Op := { kind := .sysWrite 0 7, n := 0, d := some 2, word := 0, snap := {}, begun := false }

theorem test_operation_completes_in_cores_meets :
    let e := Engine.cell 2
    let o := mulOp 0 true
    coreOf o.word = some .mul ∧ o.begun = true ∧ o.free = false ∧
    (∀ s ∈ [waits3 true true, waits3 false true],
      (s.bank e false).ops[0]? = some o ∧
      ((s.bank e false).ops.filter fun p => p.n != o.n || p.kind != o.kind).all (·.waits) = true ∧
      ([true, false].all fun y => !(((s.popOp e false o).bank e y).core .mul).any (·.begun)) = true) ∧
    ((((waits3 true true).popOp e false o).bank e true).core .mul).head? = some (mulOp 0 false) ∧
    ((((waits3 false true).popOp e false o).bank e true).core .mul) = [] ∧
    ((((waits3 false true).popOp e false o).bank e false).core .mul).head? = some (mulOp 1 false) ∧
    ((waits3 true true).bank e true).ops[0]? = some (mulOp 0 false) ∧ ¬InUnit (mulOp 0 false) ∧
    (let b := { bank0 with ghosts := [busyOp], ops := [loadOp] }
     b.ops[1]? = none ∧ b.ghosts[1 - b.ops.length]? = some busyOp ∧ coreOf busyOp.word = none ∧
     b.ops.all (·.waits) = true) ∧
    coreOf xvecOp.word = none := by
  unfold InUnit; decide +kernel

theorem test_operation_completes_in_cores :
    let run := fun s => exec (.operationComplete (.cell 2) false 0) s
    after (run (waits3 true true)) (fun t => ((t.cell 2).p.ops.map (·.begun)) == [true] &&
      ((t.cell 2).m.ops.map (·.begun)) == [false] && (t.cell 2).m.regs.gr 20 == 9) = true ∧
    after (run (waits3 false true)) (fun t => ((t.cell 2).m.ops.map (·.begun)) == [true]) = true ∧
    after (exec (.operationComplete .steward false 0) (inSteward (.waite stw) { ops := [xvecOp], n := 1 }))
      (fun t => t.steward.xvec == 4 && t.steward.bank.ops == []) = true := by
  decide +kernel

theorem test_operation_completes_meets :
    let s := cellQ {} busy
    let t := cellQ {} { bank0 with ops := [trapOp], n := 1 }
    let e := Engine.cell 2
    ((s.bank e false).ops[0]? = some busyOp ∧ busyOp.kind = .result [.g 20 0] ∧ (s.bank e false).wrote = []) ∧
    ((t.bank e false).ops = [trapOp] ∧ trapOp.snap.inHandler = false ∧ (t.bank e false).attr.handler ≠ 0x3FFF) ∧
    (s.bank e false).ops[1]? = none := by
  decide +kernel

theorem test_operation_completes :
    after (exec (.operationComplete (.cell 2) false 0) (cellQ {} { bank0 with ops := [{ busyOp with kind := .result [.g 20 9] }] }))
      (fun t => (t.cell 2).m.regs.gr 20 == 9 && (t.cell 2).m.ops == []) = true ∧
    after (exec (.operationComplete (.cell 2) false 0) (cellQ {} { bank0 with ops := [trapOp], n := 1 }))
      (fun t => (t.cell 2).m.regs.inHandler && (t.cell 2).m.regs.pc == 0x200 && (t.cell 2).m.x2 == 5 &&
        (t.cell 2).m.ops == []) = true := by
  decide +kernel

/-- A request of cell 2's bank M, operation 0. -/
def req (w : Bool) (h : Nat) : Req :=
  { src := 2, xid := 7, handle := h, graph := 4, bytes := 8, write := w, offset := 16
    data := if w then leBytes 8 0x1122334455667788 else [], upois := false, dry := false, t0 := 0
    express := false, opId := 0, peer := none, served := false, lost := false }

/-- Responder 1 with region 3 of graph 4 at 0x1000, of 64 bytes. -/
def region3 (q : Req) (poison : List Nat := []) (rsps : List Rsp := []) (late : List (Nat × Nat) := []) : State :=
  let s := cellQ {} { bank0 with ops := [loadOp], n := 1 }
  { s with fabric := { s.fabric with
      reqs := [q], rsps := rsps, lateXids := late
      resp := [(1, { regions := [(3, { valid := true, owner := some 4, base := 0x1000, length := 64 })]
                     mem := [(0x1010, 0x5A)], poison := poison })] } }

def mineB (q : Req) : Bool := q.src == 2 && q.xid == 7 && !q.served && !q.lost

theorem test_region_traffic_meets :
    let g := ((region3 (req false 0x1003)).respAt 1).regions.get {} 3
    ((region3 (req false 0x1003)).fabric.reqs.find? mineB = some (req false 0x1003) ∧
      (region3 (req false 0x1003)).cutOff 0x81 = false ∧ g.valid = true ∧ g.append = false ∧
      16 + 8 ≤ g.length ∧ g.owner = some 4) ∧
    ((region3 (req false 0x1003) [0x40]).respAt 1).isPoisoned 0x1010 8 = true ∧
    ((region3 (req false 0x1003)).respAt 1).isPoisoned 0x1010 8 = false ∧
    (((region3 (req false 0x1004)).respAt 1).regions.get {} 4).valid = false ∧
    (let r : Rsp := ⟨req false 0x1003, .rdata (leBytes 8 77)⟩
     let s := region3 (req false 0x1003) [] [r]
     s.fabric.rsps.find? (fun r => r.req.src == 2 && r.req.xid == 7) = some r ∧ s.cutOff 2 = false ∧
     s.fabric.lateXids.contains (2, 7) = false ∧ (s.bank (.cell 2) false).ops = [loadOp] ∧
     (s.bank (.cell 2) false).wrote = [] ∧
     s.fabric.rsps.find? r.ahead = some r ∧ s.mayExit r.header .rsp = true ∧
     s.fabric.reqs.find? (fun y => y.src == 2 && y.xid == 7 && !y.ended) = some (req false 0x1003) ∧
     coreOf loadOp.word = none ∧ loadOp.free = false ∧ s.time.now < 4000000 ∧
     (let l := { region3 { req false 0x1003 with served := true } [] [r] with
        time := { State.reset.time with now := 4000000 } }
      l.fabric.reqs.find? (fun y => y.src == 2 && y.xid == 7 && !y.ended) =
        some { req false 0x1003 with served := true }) ∧
     (let l := region3 { req false 0x1003 with ended := true } [] [r] [(2, 7)]
      l.fabric.lateXids.contains (2, 7) = true ∧
      l.fabric.reqs.find? (fun y => y.src == 2 && y.xid == 7 && !y.ended) = none)) := by
  decide +kernel

/-- The request may reach its responder; behind another of its initiator it waits; a responder that is cut
off has it answered RPOIS. -/
theorem test_region_request_turns_meet :
    let q := req false 0x1003
    let s := region3 q
    let two := { s with fabric := { s.fabric with reqs := [{ q with xid := 6 }, q] } }
    let cut := { s with fabric := { s.fabric with iso := [0x81] } }
    s.reqNext q = true ∧ two.reqNext q = false ∧ two.fabric.reqs.find? mineB = some q ∧
    cut.reqNext q = true ∧ cut.cutOff 0x81 = true ∧
    after (exec (.regionRequest 2 7 {}) two) (fun t => t.fabric.rsps == []) = true ∧
    after (exec (.regionRequest 2 7 {}) cut) (fun t => (t.fabric.rsps.map (·.kind)) == [.rpois]) = true := by
  decide +kernel

theorem test_region_traffic :
    after (exec (.regionRequest 2 7 {}) (region3 (req false 0x1003))) (fun t =>
      t.fabric.rsps == [⟨{ req false 0x1003 with served := true }, .rdata [0x5A, 0, 0, 0, 0, 0, 0, 0]⟩]) = true ∧
    after (exec (.regionRequest 2 7 {}) (region3 (req true 0x1003))) (fun t =>
      (t.respAt 1).mem.get 0 0x1010 == 0x88 && (t.respAt 1).mem.get 0 0x1017 == 0x11 &&
      (t.fabric.rsps.map (·.kind)) == [.wack]) = true ∧
    after (exec (.regionRequest 2 7 {}) (region3 (req false 0x1004))) (fun t =>
      (t.fabric.rsps.map (·.kind)) == [.rerr 1]) = true ∧
    after (exec (.regionResponse 2 7 {}) (region3 (req false 0x1003) [] [⟨req false 0x1003, .rdata (leBytes 8 77)⟩]))
      (fun t => (t.cell 2).m.regs.gr 20 == 77 && (t.cell 2).m.ops == [] && t.fabric.reqs == []) = true ∧
    after (exec (.reqTimeout 2 7) (region3 (req false 0x1003))) (fun t =>
      (t.cell 2).m.regs.poisoned && (t.cell 2).m.ops == [] && t.fabric.lateXids == [(2, 7)] &&
      t.fabric.reqs.map (·.ended) == [true] &&
      decide (4000000 ≤ t.time.now)) = true := by
  decide +kernel

/-! ### 16 The fabric (R261-R272) -/

/-- A token of class `k` to `dest` with end select `esel`. -/
def tok (k : BitVec 2) (dest : BitVec 8) (esel : BitVec 16) (flags : BitVec 5 := 0) (l : List Word := [0x11, 0x22]) :
    Token :=
  { tag := { dest := dest, esel := esel, ctx := 9, gen := 1, iter := 3, cls := k, epar := false
             len := BitVec.ofNat 3 (if l.length = 2 then 1 else 0), flags := flags }
    payload := l }

/-- Tokens in flight from `src`. -/
def flying (src : Nat) (l : List Token) (s : State := State.reset) : State :=
  { s with fabric := { s.fabric with flight := l.map fun t => { src := src, tok := t } } }

/-- Responder 1 with append region 3 of 64 bytes, its pointer at `p`. -/
def appendable (p : Nat) : State :=
  let s := flying 5 [tok 2 0x81 0x1003]
  { s with fabric := { s.fabric with resp :=
      [(1, { regions := [(3, { valid := true, append := true, owner := some 4, base := 0x1000, length := 64, ptr := p })] })] } }

/-- At the end of slot `k` of the frame, with the map `m` accepted. -/
def slotted' (k : Nat) (m : Option (List (BitVec 16))) : State :=
  { State.reset with
    time := { State.reset.time with t64 := BitVec.ofNat 64 (25 * k + 20) }
    fabric := { State.reset.fabric with slot := k, slotT := BitVec.ofNat 64 (25 * k), pendMap := m } }

/-- A token that has set out from cell 5 for cell 3, and the messages of a request, an answer and a grant. -/
def sent : State := State.reset.inject 5 (tok 2 3 0)
def reqOut : Req :=
  { src := 5, xid := 0, handle := 0x1003, graph := 4, bytes := 8, write := false, offset := 16, data := []
    upois := false, dry := false, t0 := 0, express := false, opId := 0, peer := none, served := false
    lost := false }
def rspOut : Rsp := { req := { reqOut with served := true }, kind := .wack }
def answered : State :=
  ({ State.reset with fabric := { State.reset.fabric with
      reqs := [rspOut.req], rsps := [rspOut] } } : State).launch rspOut.header .rsp false

theorem test_fabric_events_meet :
    (∀ e ∈ [(3, none), (15, none), (63, some [7#16])],
      let s := slotted' e.1 e.2
      let u := s.reachT64 (s.fabric.slotT.toNat + 25)
      s.slotsDue = 0 ∧ u.slotsDue = 1 ∧ s.fabric.gHold = []) ∧
    ((List.range 128).all fun n => (State.reset.cell n).p.ops.isEmpty && (State.reset.cell n).m.ops.isEmpty) ∧
    ((appendable 0).arrivable 5 (tok 2 0x81 0x1003) = true ∧ (appendable 0).cutOff 0x81 = false ∧
      (tok 2 0x81 0x1003).tag.dest.toNat = 0x81 ∧ 48 + 16 ≤ 64 ∧ 64 < 56 + 16) ∧
    ((flying 5 [tok 2 0x81 0x1004]).arrivable 5 (tok 2 0x81 0x1004) = true) ∧
    (State.reset.waitsFor 3 = none ∧ (sent.waitsFor 3).isSome = true ∧ sent.fabric.iso.contains 3 = false) := by
  decide +kernel

theorem test_fabric_header_errors_meet :
    (∀ e ∈ [(4, Lost.token 5 (tok 2 3 0), sent), (4, .req 5 0, State.reset.sendReq reqOut), (3, .rsp 5 0, answered),
        (63, .ctl (.creditReq 2 9 none false), State.reset.sendCtl (.creditReq 2 9 none false))],
      (lostAt e.2.2 e.2.1).any (fun h => e.2.2.standsIn e.1 h.1 h.2.1 h.2.2) = true) ∧
    (lostAt sent (.token 5 (tok 2 3 0))).any (fun h => sent.standsIn 7 h.1 h.2.1 h.2.2) = false := by
  decide +kernel

theorem test_fabric_events :
    after (exec .slotBoundary (slotted' 63 (some [7#16]))) (fun t =>
      t.time.t64 == 1600 && t.fabric.slot == 0 && t.fabric.slotEntry 0 == 7#16) = true ∧
    after (exec (.appendToken 1 5 (tok 2 0x81 0x1003) {}) (appendable 40)) (fun t =>
      let g := (t.respAt 1).regions.get {} 3
      g.ptr == 56 && (t.respAt 1).mem.get 0 (0x1000 + 48) == 0x11 && (t.respAt 1).mem.get 0 (0x1000 + 52) == 0x22 &&
      t.fabric.flight == []) = true ∧
    after (exec (.appendToken 1 5 (tok 2 0x81 0x1003) {}) (appendable 56)) (fun t =>
      let g := (t.respAt 1).regions.get {} 3
      g.ptr == 16 && (t.respAt 1).mem.get 0 (0x1000 + 8) == 0x11) = true ∧
    after (exec (.fabricHeaderError 4 (.token 5 (tok 2 3 0))) sent) (fun t =>
      t.fabric.flight == [] && (t.ctxOf 9).orphan && (t.watch.raises.map fun r => (r.src, r.fcode, r.data)) == [(228, 0x48, 4)])
      = true ∧
    after (exec (.deadTimeExpiry 3) sent) (fun t =>
      t.fabric.iso == [3] && t.time.now == 10000 && (t.watch.raises.map fun r => (r.src, r.fcode, r.data)) == [(1, 5, 0), (229, 0x49, 3)]) = true := by
  decide +kernel

/-! ### 17 The Palette (R47-R66) -/

/-- A token of class `k` for node 5 of cell 2, port A, with MONO or not. -/
def toCell (k : BitVec 2) (mono : Bool) : Token := tok k 2 20 (mkFlags false false false mono)

/-- Context 9 runs on cell 2, whose node 5 has `n` operands. -/
def cellP (n : Nat) (p : Palette := {}) : State :=
  { State.reset with cells := [(2, { pal := p, nodes := [(5, desc n)], ctxs := [(9, some ⟨1, 2, 4, 0⟩)] })] }

theorem lands_of {s : State} {n : Nat} {k : Token} {w : Nat} {b : Blk}
    (h : (let c := s.cell n
      c.current k.tag.ctx.toNat k.tag.gen.toNat && descValid (c.nodes.get 0 k.tag.node) &&
      decide (2 ≤ descNops (c.nodes.get 0 k.tag.node)) && !k.tag.mono &&
      (needOf (descNops (c.nodes.get 0 k.tag.node))).testBit k.tag.port && c.pal.entries.isEmpty &&
      c.pal.hit (setOf k.tag) k.tag == none && c.pal.depth.get 0 (setOf k.tag) == 0 && !s.incoming n k.tag &&
      c.pal.freeWay (setOf k.tag) k.tag.cls.toNat == some w &&
      c.pal.block k.tag.cls.toNat k.tag.len.toNat == some b) = true) : Lands s n k w b := by
  simp only [Bool.and_eq_true, beq_iff_eq, decide_eq_true_eq, Bool.not_eq_true', List.isEmpty_iff] at h
  obtain ⟨⟨⟨⟨⟨⟨⟨⟨⟨⟨h1, h2⟩, h3⟩, h4⟩, h5⟩, h6⟩, h7⟩, h8⟩, h9⟩, h10⟩, h11⟩ := h
  refine ⟨h1, h2, h3, h4, h5, ?_, h7, h8, h9, h10, h11⟩
  intro v _ hv
  rw [Palette.at, h6] at hv
  cases hv

theorem room_of {s : State} {n : Nat} {p : Packet}
    (h : (!(s.cell n).que.full p.isExpress && decide (p.words ≤ (s.cell n).que.free p.isExpress) && !p.bell) = true) :
    Room s n p := by
  simpa [Room, and_assoc] using h

/-- A token that begins an entry, one that finds its generation gone, a MONO token; tokens that waited. -/
theorem test_token_arrival_meets :
    let k := toCell 2 false
    let m := toCell 2 true
    (k.tag.dest.toNat = 2 ∧ (flying 5 [k] (cellP 2)).arrivable 5 k = true ∧ (flying 5 [k] (cellP 2)).cutOff 2 = false) ∧
    Lands (flying 5 [k] (cellP 2)) 2 k 0 .none ∧
    Lands (cellP 2 { wait := [(k, .pressure)] }) 2 k 0 .none ∧
    Lands (cellP 2 { hold := [toCell 0 false] }) 2 (toCell 0 false) 3 .none ∧
    ((State.reset.cell 2).current 9 1 = false ∧ (flying 5 [k]).arrivable 5 k = true) ∧
    (m.tag.mono = true ∧ m.tag.bell = false ∧ ((cellP 1).cell 2).current 9 1 = true ∧ descValid (desc 1) = true ∧
      descNops (desc 1) = 1 ∧ m.tag.port = 0 ∧ m.tag.node = 5) ∧
    Room (cellP 1) 2 (pk 2) ∧ Room (cellP 1 { ready := [{ item := .mono (pk 2) }] }) 2 (pk 2) ∧
    ((cellP 1 { sweeps := [(9, 1)] }).cell 2).pal.sweeps.contains (9, 1) = true ∧
    ((cellP 1).cell 2).que.posted = [] ∧ State.reset.reeve.danger = [] ∧
    ({ State.reset with fabric := { State.reset.fabric with iso := [2] } } : State).cutOff 2 = true :=
  ⟨by decide +kernel, lands_of (by decide +kernel), lands_of (by decide +kernel), lands_of (by decide +kernel),
    by decide +kernel, by decide +kernel, room_of (by decide +kernel), room_of (by decide +kernel), by decide +kernel,
    by decide +kernel⟩

theorem test_token_arrival :
    after (exec (.tokenArrival 2 5 (toCell 2 false) {} ⟨.none, .none⟩) (flying 5 [toCell 2 false] (cellP 2))) (fun t =>
      let e := (t.cell 2).pal.entries
      e.length == 1 && (e.map fun x => (x.2.st, x.2.node, x.2.ctx, x.2.need)) == [(.waiting, 5, 9, 3)] &&
      (e.map fun x => x.2.a.map (·.words)) == [some [0x11, 0x22]] && t.fabric.flight == []) = true ∧
    after (exec (.tokenArrival 2 5 (toCell 2 false) {} ⟨.none, .none⟩) (flying 5 [toCell 2 false])) (fun t =>
      (t.cell 2).pal.entries == [] && (t.cell 2).pal.cnt.get 0 PalCtr.staleGen.ctorIdx == 1) = true ∧
    after (exec (.tokenArrival 2 5 (toCell 2 true) {} ⟨.none, .none⟩) (flying 5 [toCell 2 true] (cellP 1))) (fun t =>
      (t.cell 2).que.eb0.map (·.pkt.a) == [some [0x11, 0x22]]) = true ∧
    after (exec (.waitBufferProceed 2 .none) (cellP 2 { wait := [(toCell 2 false, .pressure)] })) (fun t =>
      (t.cell 2).pal.entries.length == 1 && (t.cell 2).pal.wait == []) = true ∧
    after (exec (.rsvHoldProceed 2 .none) (cellP 2 { hold := [toCell 0 false] })) (fun t =>
      (t.cell 2).pal.entries.length == 1 && (t.cell 2).pal.hold == []) = true ∧
    after (exec (.heldFiringOffer 2 .none) (cellP 1 { ready := [{ item := .mono (pk 2) }] })) (fun t =>
      (t.cell 2).que.eb0.map (·.pkt) == [pk 2] && (t.cell 2).pal.ready == []) = true ∧
    after (exec (.sweepComplete 2 9 1) (cellP 1 { sweeps := [(9, 1)] })) (fun t =>
      (t.cell 2).pal.sweeps == []) = true := by
  decide +kernel

/-! ### 18, 19 The Reeve and the Cellar (R62-R64, R78-R98, R111-R127) -/

def withCtl (l : List Ctl) (s : State := State.reset) : State := { s with fabric := { s.fabric with ctl := l } }

/-- Danger of cell 2. -/
def danger (x : Danger) : State := { State.reset with reeve := { State.reset.reeve with danger := [(2, x)] } }

theorem test_credit_and_load_meets :
    (let mine := fun (m : Ctl) => match m with
      | .creditReq q d a _ => q == 2 && d == 9 && a == none
      | _ => false
     (withCtl [.creditReq 2 9 none false]).ctlNext mine = some (.creditReq 2 9 none false) ∧
     State.reset.ctlNext mine = none) ∧
    (((withCtl [.creditReq 3 9 none false, .creditReturn 2 9 1 200, .creditReturn 2 9 1 100]).fabric.ctl.filterMap
      fun m => match m with
        | .creditReturn 2 9 1 n => some n
        | _ => none) = [200, 100]) ∧
    ((cellQ { express := [queued 0] }).cell 2).que.express = queued 0 :: [] ∧
    (cellQ { express := [queued 0] }).pairClass0 2 = false ∧
    ((danger { d := true, y := 1 }).reeve.danger.get {} 2).d = true ∧
    ((danger { d := false, y := 1 }).reeve.danger.get {} 2).y = 1 ∧
    0 + State.reset.reeve.yieldDelay ≤ 0 + State.reset.reeve.guardWindow := by decide +kernel

theorem test_credit_and_load :
    after (exec (.creditRequest 2 ⟨9, 0⟩ none) (withCtl [.creditReq 2 9 none false])) (fun t =>
      t.fabric.ctl == [.creditGrant 2 0 9 0 64 none false true] && (t.ctxOf 9).count.get 0 0 == 64) = true ∧
    after (exec (.creditReturn 2 ⟨9, 0⟩ 1) (withCtl [.creditReturn 2 9 1 200, .creditReturn 2 9 1 100])) (fun t =>
      t.fabric.ctl == [.creditReturn 2 9 1 44]) = true ∧
    after (exec (.guardWaitExpiry 2) (cellQ { express := [queued 0] })) (fun t =>
      t.reeve.danger.get {} 2 == { d := true, since := 1001, last := 1001, y := 1 } && t.time.now == 1001) = true ∧
    after (exec (.yieldDelayExpiry 2) (danger { d := true, y := 1 })) (fun t =>
      (t.reeve.danger.get {} 2).y == 2 && t.time.now == 100000) = true ∧
    after (exec (.guardWindowExpiry 2) (danger { d := true, y := 1 })) (fun t =>
      !(t.reeve.danger.get {} 2).d && t.time.now == 100000) = true ∧
    after (exec (.calmTimeExpiry 2) (danger { d := false, y := 1 })) (fun t =>
      (t.reeve.danger.get {} 2).y == 0 && t.time.now == 10000000) = true ∧
    after (exec (.loadReport 2) (cellQ { eb0 := List.replicate 12 (queued 2) })) (fun t =>
      t.reeve.load.get 0 2 == 1 && t.time.now == 1000) = true := by decide +kernel

/-- A host start of graph 4 waits. -/
def act4 : Activation := { graph := 4, asker := none, ring := 0, t0 := 0, counted := false }

def waiting (k : Nat) : State :=
  let s := withGraph k State.reset
  { s with reeve := { s.reeve with queue := [(k, [act4])] } }

def desc0 : Desc :=
  { opcode := 0, cseq := 0, dflags := 0, zero := 0, tag := 0xABC, haddr := 0, hlen := 0, target := 0, args := 0 }

def starting : Running := { ring := 0, desc := desc0, live := true, wait := .start 4 none, t0 := 0 }

def life (x : Ctx) (l : List Ctl) : State :=
  withCtl l { cellP 2 with reeve := { State.reset.reeve with graphs := [(4, some (graphOf 2))], ctx := [(9, x)] } }

theorem test_context_life_meets :
    ((waiting 2).reeve.halted = false ∧ (waiting 2).reeve.queue.get [] 0 = [] ∧ (waiting 2).reeve.queue.get [] 1 = [] ∧
      (waiting 2).reeve.queue.get [] 2 = act4 :: [] ∧ (waiting 2).reeve.waiters = [] ∧
      (match (waiting 2).tryGrant act4 with | .granted c _ => c == 0 | _ => false) = true) ∧
    ((life {} [.install 2 0 9 1 2 4 0]).fabric.ctl = [.install 2 0 9 1 2 4 0] ∧
      (life {} [.install 2 0 9 1 2 4 0]).fabric.iso.contains 2 = false ∧
      ((life {} []).cell 2).cellGen.toNat = 0 ∧ (life {} []).graph 4 = some (graphOf 2)) ∧
    (let x : Ctx := { st := .live, gen := 1, acks := [2], graph := 4 }
     ((life x [.installAck 2 9 1]).ctxOf 9).st = .live ∧ ((life x []).ctxOf 9).installed = false ∧
     ((life x []).ctxOf 9).relWanted = none ∧ ((life x []).ctxOf 9).partner = none ∧
     ((life x []).ctxOf 9).shadow = false ∧
     (life x [.installAck 2 9 1]).fabric.ctl.count (.installAck 2 9 1) = 1) ∧
    ((life {} [.install 2 0 9 1 2 4 0]).ctlNext fun m => match m with
      | .install k _ y _ _ _ _ => k == 2 && y == 9
      | _ => false) = some (.install 2 0 9 1 2 4 0) ∧
    ((life {} [.uninstall 2 0 9 1]).ctlNext fun m => match m with
      | .uninstall k _ y _ => k == 2 && y == 9
      | _ => false) = some (.uninstall 2 0 9 1) ∧
    ((life { st := .held, gen := 3 } []).ctxOf 9).st = .held ∧
    ((life { st := .held, gen := 3 } []).ctxOf 9).count.get 0 ((3 + 9) % 16) = 0 ∧
    [starting].filter (· == starting) = [starting] ∧ starting.live = true := by decide +kernel

theorem test_context_life :
    after (exec .activationGrant (waiting 2)) (fun t =>
      t.reeve.queue.get [] 2 == [] && (t.ctxOf 0).st == .live && (t.ctxOf 0).graph == 4 && (t.ctxOf 0).gen == 0) = true ∧
    after (exec (.contextInstall 2 ⟨9, 0⟩) (life {} [.install 2 0 9 1 2 4 0])) (fun t =>
      (t.cell 2).ctxs == [(9, some ⟨1, 2, 4, 0⟩)] && t.fabric.ctl == [.installAck 2 9 1]) = true ∧
    after (exec (.installAck ⟨9, 0⟩) (life { st := .live, gen := 1, acks := [2], graph := 4 } [.installAck 2 9 1])) (fun t =>
      (t.ctxOf 9).installed && (t.ctxOf 9).acks == [] && t.fabric.ctl == []) = true ∧
    after (exec (.contextUninstall 2 ⟨9, 0⟩) (life {} [.uninstall 2 0 9 1])) (fun t =>
      !(t.cell 2).current 9 1 && (t.cell 2).pal.sweeps == [(9, 1)]) = true ∧
    after (exec (.contextFree 9) (life { st := .held, gen := 3 } [])) (fun t => (t.ctxOf 9).st == .free) = true ∧
    after (exec (.startWaitExpiry 0) { State.reset with host := { State.reset.host with running := [starting] } })
      (fun t => t.host.running == [] && decide (1000000 ≤ t.time.now) &&
        ((t.cmdRing 0).item.map fun it => (it.status, it.tag)) == some (eNoRes, 0xABC)) = true := by decide +kernel

/-- An entry of set 65, way 1, of cell 2, and a spill of its group. -/
def entry1 : Entry := { st := .waiting, node := 5, ctx := 9, gen := 1, cls := 2, need := 3 }
def spill1 (pg : Option Nat) (acked : List Nat) : Spill :=
  { group := 1, set := 65, victims := if pg = none then [] else [(65, 1)], page := pg, acked := acked }
def spilling (sp : Spill) (slots : Tab Entry := []) : State :=
  let s := cellP 2 { spills := [sp], entries := [(4 * 65 + 1, entry1)] }
  { s with cellar := { s.cellar with pages :=
      [(3, some { cell := 2, group := 1, linked := false, tSpill := 0, slots := slots })] } }

theorem test_cellar_spills_meet :
    let none' := { spilling (spill1 none []) with cellar := { State.reset.cellar with gib := 0 } }
    (none'.nextPage = none ∧ (none'.cell 2).pal.spills = [spill1 none []]) ∧
    (spilling (spill1 none [])).nextPage = some 0 ∧
    ((spill1 (some 3) []).victims.find? (fun v => v.1 % 64 == 1) = some (65, 1) ∧
      (spill1 (some 3) []).acked.contains 1 = false ∧
      ((spilling (spill1 (some 3) [])).cellar.pages.get none 3).isSome = true) ∧
    (((spilling (spill1 none [])).cell 2).pal.spillVictims 1 65).length = 1 ∧
    (∀ v ∈ (spill1 (some 3) [1]).victims, v.1 % 64 ∈ (spill1 (some 3) [1]).acked) ∧
    (let s := { cellP 2 { spills := [spill1 none []] } with cellar := State.reset.cellar }
     s.nextPage = some 0 ∧ (s.cell 2).pal.spillVictims 1 65 = []) := by decide +kernel

theorem test_cellar_spills :
    after (exec (.spillPageGrant 2) (spilling (spill1 none []))) (fun t =>
      (t.cell 2).pal.spills == [spill1 (some 0) []] && t.cellar.channel == 1) = true ∧
    after (exec (.spillSlotAck 2 ⟨1, []⟩) (spilling (spill1 (some 3) []))) (fun t =>
      (t.cell 2).pal.at (4 * 65 + 1) == {} && (t.cell 2).pal.depth.get 0 65 == 1 &&
      (t.cellar.pages.get none 3).map (·.slots) == some [(1, entry1)]) = true ∧
    after (exec (.spillLink 2) (spilling (spill1 (some 3) [1]) [(1, entry1)])) (fun t =>
      (t.cell 2).pal.spills == [] && t.cellar.lists.get [] (32 * 2 + 1) == [3] &&
      (t.cellar.pages.get none 3).map (·.linked) == some true) = true := by decide +kernel

/-- A page-in of cell 2 for set 65. -/
def pagein (taken none' : Bool) (slots : List (Nat × Nat × Entry)) : PageIn :=
  { cell := 2, set := 65, key := entry1, mask := 15, taken := taken, none := none', slots := slots }

def paging (p : PageIn) (e : Entry := entry1) : State :=
  let s := cellP 2 { depth := [(65, 1)] }
  { s with cellar := { s.cellar with
      pageins := [p], purges := [(9, 1)], lists := [(32 * 2 + 1, [3])]
      pages := [(3, some { cell := 2, group := 1, linked := true, tSpill := 0, slots := [(1, e)] })] } }

theorem test_cellar_page_ins_meet :
    (paging (pagein false false [])).pageinAt 2 0 = some (pagein false false []) ∧
    (paging (pagein false false [])).cellar.slotAt 3 1 = some entry1 ∧ entry1.sameKey entry1 = true ∧
    ({ entry1 with iter := 9 }).sameKey entry1 = false ∧
    (paging (pagein true true [])).pageinAt 2 0 = some (pagein true true []) ∧
    ((paging (pagein true false [(3, 1, entry1)])).cell 2).current 9 1 = true ∧
    ((paging (pagein true false [(3, 1, entry1)])).cell 2).pal.freeWay (64 * (65 / 64) + 1) 2 = some 0 ∧
    (let s := paging (pagein true false [(3, 1, entry1)])
     s.cellar.pageins.count (pagein true false [(3, 1, entry1)]) = 1 ∧
     (s.cellar.pages.get none 3).any (fun p => p.linked && p.cell == 2 && p.group == 1) ∧
     s.cellar.slotAt 3 1 = some entry1 ∧ (s.cell 2).pal.shBlocks + entry1.blocks ≤ 3584 ∧ (s.cell 2).pal.wait = []) ∧
    (let full := (List.range 4).map fun w => (4 * 65 + w, { entry1 with iter := w + 1 })
     let s := paging (pagein true false [(3, 1, entry1)])
     (({ s with cells := [(2, { s.cell 2 with pal := { (s.cell 2).pal with entries := full } })] } : State).cell
       2).pal.freeWay 65 2 = none) ∧
    (paging (pagein true true [])).cellar.purges = (9, 1) :: [] := by decide +kernel

theorem test_cellar_page_ins :
    after (exec (.pageinRequest 2 0 []) (paging (pagein false false []))) (fun t =>
      t.cellar.pageins == [pagein true false [(3, 1, entry1)]]) = true ∧
    after (exec (.pageinRequest 2 0 []) (paging (pagein false false []) { entry1 with iter := 9 })) (fun t =>
      t.cellar.pageins == [pagein true true []]) = true ∧
    after (exec (.pageinNone 2 0) (paging (pagein true true []))) (fun t => t.cellar.pageins == []) = true ∧
    after (exec (.pageinReturn 2 0 ⟨.none, .none⟩) (paging (pagein true false [(3, 1, entry1)]))) (fun t =>
      t.cellar.pageins == [] && (t.cell 2).pal.entries == [(4 * 65, entry1)] && (t.cell 2).pal.depth.get 0 65 == 0 &&
      t.cellar.slotAt 3 1 == none) = true ∧
    after (exec (.cellarPurge []) (paging (pagein true true []))) (fun t =>
      t.cellar.purges == [] && t.cellar.slotAt 3 1 == none) = true := by decide +kernel

/-- The Cellar is full and a token waits. -/
def stuck (st : StallSt) (ctx : Tab Ctx := []) : State :=
  let s := cellP 2 { wait := [(toCell 2 false, .pressure)] }
  { s with
    cellar := { s.cellar with gib := 0, stall := st }
    reeve := { s.reeve with ctx := ctx, graphs := [(4, some (graphOf 2))] } }

theorem test_stall_detector_meets :
    ((stuck .armed).stallC2 = true ∧ (stuck .armed).stallC3 = true ∧ (stuck .armed).victim = none) ∧
    State.reset.stallC2 = false ∧
    after (exec .ageSweep { stuck .run [(9, { st := .live, actSeq := 0 })] with reeve :=
      { (stuck .run [(9, { st := .live, actSeq := 0 })]).reeve with actNext := 2 ^ 30 + 5 } })
      (fun t => (t.ctxOf 9).actSeq == 5) = true ∧
    (let x : Ctx := { st := .live, cls := 2, gen := 1, graph := 4, count := [(1, 1)], installed := true }
     (stuck .armed [(9, x)]).victim = some (9, x) ∧ ((stuck .armed [(9, x)]).ctxOf 9).installed = true) := by decide +kernel

theorem test_stall_detector :
    after (exec .stallTimerExpiry (stuck .armed)) (fun t =>
      t.cellar.stall == .escape && t.time.now == 50000 &&
      t.cellar.cnt.get 0 CellarCtr.stallNoCandidate.ctorIdx == 1) = true ∧
    after (exec .stallTimerExpiry (stuck .armed [(9, { st := .live, cls := 2, gen := 1, graph := 4, count := [(1, 1)], installed := true })]))
      (fun t => t.cellar.stall == .escape && (t.ctxOf 9).st != .live) = true ∧
    after (exec .stallTimerExpiry { State.reset with cellar := { State.reset.cellar with stall := .armed } })
      (fun t => t.cellar.stall == .run) = true := by decide +kernel

/-! ### 20 The setup registers and the timebase (R495-R506) -/

/-- A device in service: the link up, ring 0 up with one descriptor to fetch, presence PRESENT and the
seal SEALED. -/
def up : State :=
  { State.reset with
    power := { State.reset.power with phase := .ready }
    aon := { State.reset.aon with present := true, sealSt := .sealed }
    host := { State.reset.host with
      linkUp := true, bme := true
      cmd := [(0, { en := true, sizeLog2 := 4, tail := 1 })]
      cpl := [(0, { en := true, sizeLog2 := 4, thresh := 1, armed := true })] } }

def withSetup (f : Setup → Setup) (s : State := up) : State := { s with setup := f s.setup }
def withTime (f : Time → Time) (s : State := up) : State := { s with time := f s.time }

/-- Each setup register with a value it takes and reads back. -/
def setupWrites : List (Nat × Nat) :=
  [(0x8, 0xFFFFFFFF), (0x20, 0x2000), (0x24, 0x1), (0x28, 0xC), (0x30, 0xF000), (0x34, 0xFFFFFFFF),
   (0x38, 4), (0x3C, 0x3F), (0x1010, 3276800), (0x1018, 0xFFFFFFFF), (0x2008, 7), (0x200C, 8), (0x2010, 1)]

def sized (cr cq : BitVec 4) (en : Bool := false) : State :=
  withSetup fun u => { u with crSize := cr, cqSize := cq, ringEn := en }

theorem test_setup_registers_meet :
    up.host.linkUp = true ∧ up.serving = true ∧ up.setup.ringEn = false ∧
    (∀ p ∈ setupWrites, up.violations p.1 p.2 = []) ∧
    0x1000 % 4096 = 0 ∧ up.violations 0xEFFFC 0 = [0x08] ∧ (sized 4 4 true).violations 0x20 0x1FFF = [0x03, 0x04] ∧
    (sized 4 12).setup.ringEn = false ∧ (sized 3 12).setup.ringEn = false ∧ (sized 4 13).setup.ringEn = false ∧
    (sized 4 4 true).setup.ringEn = true := by decide +kernel

theorem test_setup_registers :
    (setupWrites.all fun p => after (exec (.setupRegisterWrite (BitVec.ofNat 20 p.1) 4 (BitVec.ofNat 64 p.2)) up) fun t =>
      t.readReg p.1 == p.2 && t == { up with setup := t.setup, time := t.time }) = true ∧
    after (exec (.setupRegisterWrite 0x20 8 0x123456789000) up) (fun t =>
      t == withSetup fun u => { u with crBase := 0x123456789000 }) = true ∧
    after (exec (.setupRegisterWrite 0xEFFFC 4 0) up) (fun t =>
      t == withSetup fun u => { u with violCount := 1, err := some (0xEFFFC, 8) }) = true ∧
    after (exec (.setupRegisterWrite 0x20 4 0x1FFF) (sized 4 4 true)) (fun t =>
      t == withSetup (s := sized 4 4 true) fun u => { u with violCount := 1, err := some (0x20, 3) }) = true ∧
    after (exec (.ringEnWrite 1) (sized 4 12)) (fun t =>
      t.cmdRing 0 == { en := true, sizeLog2 := 4 } &&
      t.cplRing 0 == { en := true, sizeLog2 := 12, thresh := 1, armed := true } && t.setup.ringsUp) = true ∧
    after (exec (.ringEnWrite 1) (sized 3 13)) (fun t =>
      t == withSetup (s := sized 3 13) fun u => { u with ringEn := true, ringErr := true, errCode := 1 }) = true ∧
    after (exec (.ringEnWrite 1) (sized 4 13)) (fun t =>
      t == withSetup (s := sized 4 13) fun u => { u with ringEn := true, ringErr := true, errCode := 2 }) = true ∧
    after (exec (.ringEnWrite 0) (sized 4 4 true)) (fun t =>
      t.host.cmd == [] && t.host.cpl == [] && !t.setup.ringEn) = true := by decide +kernel

def slewing : State := withTime fun t => { t with slewing := true, phaseRem := 65536, phaseLast := 1 }
def ppsOn (now : Nat) (prev : Option Nat) : State :=
  withTime fun t => { t with now := now, t64 := 99, ppsInEn := true, ppsPrev := prev, ppsOutEn := true }

/-- The input was low from 5 ns on, and a rise is awaited. -/
def filtering : State := { ppsOn 5 none with
  time := { (ppsOn 5 none).time with ppsLevel := some false, ppsRaw := 5 } }

theorem test_timebase_meets :
    up.violations 0x1010 5 = [] ∧ up.violations 0x1014 5 = [] ∧ up.violations 0x101C 5 = [] ∧
    up.time.slewing = false ∧ up.violations 0x1010 3276801 = [0x06] ∧ slewing.time.slewing = true ∧
    (∀ t, (ppsOn 500000000 (some 0)).time.ppsPrev = some t → t + 500000000 ≤ (ppsOn 500000000 (some 0)).time.now) ∧
    (ppsOn 500000000 (some 0)).time.ppsInEn = true ∧ (ppsOn 500000000 (some 0)).time.ppsLost = false ∧
    (ppsOn 500000000 (some 0)).watch.levels.contains (241, 0x91) = false ∧
    (ppsOn 0 none).time.ppsLevel ≠ some true ∧ filtering.time.ppsLevel ≠ some true ∧
    filtering.setup.ppsInEdge = false ∧ (withTime fun t => { t with setLo := 6 }).slotsDue = 0 ∧
    (ppsOn 0 none).time.ppsOutEn = true ∧ (ppsOn 0 none).time.ppsOut = false ∧
    (withTime fun t => { t with ppsOut := true }).time.ppsOut = true := by
  decide +kernel

theorem test_timebase :
    after (exec (.t64LoRead true) (ppsOn 0 none)) (fun t => t.out == [.readData (leBytes 8 99) false]) = true ∧
    after (exec (.ppsInLoRead false) (ppsOn 0 none)) (fun t => t.out == [.readData (leBytes 4 0) false]) = true ∧
    after (exec (.tbFreqAdjWrite 5) up) (fun t => t == withTime fun t => { t with freqAdj := 5 }) = true ∧
    after (exec (.tbPhaseAdjWrite 1) up) (fun t => t == withTime fun t =>
      { t with phaseRem := 65536000000, phaseLast := 1, slewing := true }) = true ∧
    after (exec (.tbSetHiWrite 5) (withTime fun t => { t with setLo := 6 })) (fun t =>
      t.time.t64 == 0x500000006 && !t.time.slewing && t.time.setHi == 5) = true ∧
    after (exec (.tbFreqAdjWrite 3276801) up) (fun t =>
      t == withSetup fun u => { u with violCount := 1, err := some (0x1010, 6) }) = true ∧
    after (exec .slewDone slewing) (fun t => !t.time.slewing && t.time.now == 1) = true ∧
    after (exec (.ppsInEdge false 3) (ppsOn 500000000 (some 0))) (fun t => t == withTime (s := ppsOn 500000000 (some 0))
      fun x => { x with
        ppsT := 99, ppsFrac := 3, ppsSeq := 1, ppsPrev := some 500000000, ppsArm := 500000000
        ppsLevel := some true, ppsRaw := 500000000 }) = true ∧
    after (exec (.ppsInEdge false 3) filtering) (fun t =>
      t.time.now == 25 && t.time.ppsSeq == 1 && t.time.ppsPrev == some 25) = true ∧
    after (exec (.ppsInEdge true 3) (ppsOn 5 none)) (fun t => t == { ppsOn 5 none with
      time := { (ppsOn 5 none).time with ppsLevel := some false, ppsRaw := 5 } }) = true ∧
    after (exec .ppsLossTimeout (ppsOn 0 none)) (fun t =>
      t.time.ppsLost && t.time.now == 1500000000 && t.watch.levels == [(241, 0x91)]) = true ∧
    after (exec .ppsOutPulse (ppsOn 0 none)) (fun t => t.time.ppsOut && t.time.t64 == 1000000000) = true ∧
    after (exec .ppsOutPulseEnd (withTime fun t => { t with ppsOut := true })) (fun t =>
      !t.time.ppsOut && t.time.now == 100000000) = true := by decide +kernel

/-! ### 21 The host's windows and completions (R386-R414) -/

def withHost (f : HostIf → HostIf) (s : State := up) : State := { s with host := f s.host }

/-- Completion ring 0 at record `n` with the host's head at `h`. -/
def cplAt (n : BitVec 16) (h : Nat) (msix : Bool := false) (oldest : Option Nat := none) : State :=
  let c : CplRing :=
    { en := true, base := 0x1000, sizeLog2 := 4, thresh := 1, holdoff := 5, armed := true, rseq := n, head := h
      oldest := oldest }
  withHost fun x => { x with msixEn := msix, cpl := [(0, c)], msix := [(0, { addr := 8, data := 9, masked := false })] }

def pba3 (p : BitVec 64) : State := withHost fun x => { x with msixEn := true, pba := p, msix := [(3, { addr := 8, data := 9, masked := true })] }

/-- A ring with ARM to be set: `since` records since the last message, with its vector masked or not. -/
def armAt (since : Nat) (masked bme : Bool) : State :=
  withHost (s := cplAt 5 3 true) fun x => { x with
    bme := bme, cpl := [(0, { x.cpl.get {} 0 with armed := false, since := since })]
    msix := [(0, { addr := 8, data := 9, masked := masked })] }

/-- Lantern mode with ring 1 left enabled. -/
def lit : State :=
  { withHost (fun x => { x with
      cmd := [(1, { en := true, sizeLog2 := 4 })], cpl := [(1, { en := true, sizeLog2 := 4, rseq := 3 })] }) with
    power := { up.power with phase := .lantern } }

theorem test_host_windows_meet :
    up.host.linkUp = true ∧ up.serving = true ∧ up.power.phase ≠ .lantern ∧
    ((up.cmdRing 0).en = true ∧ 15 < 2 ^ (up.cmdRing 0).sizeLog2 ∧ (up.cmdRing 63).en = false) ∧
    (let c := (cplAt 5 3).cplRing 0
     c.en = true ∧ (5 + 16 - c.head) % 16 ≤ (c.rseq.toNat % 16 + 16 - c.head) % 16 ∧
     ¬(6 + 16 - c.head) % 16 ≤ (c.rseq.toNat % 16 + 16 - c.head) % 16) ∧
    (0x0005#32).getLsbD 12 = false ∧ (0x1005#32).getLsbD 12 = true ∧ (cplAt 5 3).host.msixEn = false ∧
    (let c := (armAt 1 false true).cplRing 0
     let left := (c.rseq.toNat % 16 + 16 - 5) % 16
     left = 0 ∧ (c.rseq.toNat % 16 + 16 - 4) % 16 ≠ 0 ∧ c.thresh ≤ c.since ∧
     ¬((armAt 0 false true).cplRing 0).thresh ≤ ((armAt 0 false true).cplRing 0).since ∧
     (armAt 0 false true).host.msixEn = true ∧
     ((armAt 1 false true).host.msix.get {} c.vector).masked = false ∧ (armAt 1 false true).busMaster = true ∧
     ((armAt 1 true true).host.msix.get {} c.vector).masked = true ∧ (armAt 1 false false).busMaster = false) ∧
    (lit.power.phase = .lantern ∧ (lit.cmdRing 1).en = true ∧ (lit.cplRing 1).en = true) ∧
    ((pba3 8).host.linkUp = true ∧ up.host.pba = 0 ∧ (∀ q < 64, (up.cplRing q).due up.time.now = false) ∧
      up.host.src.wf {} = true) ∧
    (pba3 0).host.pba.getLsbD 3 = false ∧ (pba3 8).host.msixEn = true ∧ (pba3 8).busMaster = true ∧ (pba3 8).host.pba.getLsbD 3 = true := by decide +kernel

theorem test_host_windows :
    after (exec (.tailDoorbell 0 4 15) up) (fun t => (t.cmdRing 0).tail == 15 && t.steward.evPend.getLsbD 0 &&
      t.host.cnt.get 0 HostCtr.dbWrites.ctorIdx == 1 && t.host.cnt.get 0 HostCtr.dbBad.ctorIdx == 0) = true ∧
    ([(0, 4, 16), (0, 8, 1), (63 * 256, 4, 0)].all fun x =>
      after (exec (.tailDoorbell (BitVec.ofNat 16 x.1) (BitVec.ofNat 4 x.2.1) (BitVec.ofNat 32 x.2.2)) up) fun t =>
        t.host.cmd == up.host.cmd && t.steward == up.steward && t.host.cnt.get 0 HostCtr.dbBad.ctorIdx == 1) = true ∧
    after (exec (.headDoorbell 0x8000 4 5) (cplAt 5 3)) (fun t => (t.cplRing 0).head == 5) = true ∧
    after (exec (.headDoorbell 0x8000 4 0x1005) (cplAt 5 3)) (fun t => (t.cplRing 0).head == 5 && (t.cplRing 0).armed) = true ∧
    after (exec (.headDoorbell 0x8000 4 0x1005) (armAt 1 false true)) (fun t =>
      t.out == [] && (t.cplRing 0).armed && (t.cplRing 0).oldest == none) = true ∧
    after (exec (.headDoorbell 0x8000 4 0x1004) (armAt 0 false true)) (fun t =>
      t.out == [] && (t.cplRing 0).armed && (t.cplRing 0).oldest == some 0) = true ∧
    after (exec (.headDoorbell 0x8000 4 0x1004) (armAt 1 false true)) (fun t =>
      t.out == [.msix 0 8 9] && !(t.cplRing 0).armed && (t.cplRing 0).since == 0) = true ∧
    ([armAt 1 true true, armAt 1 false false].all fun s => after (exec (.headDoorbell 0x8000 4 0x1004) s) fun t =>
      t.out == [] && !(t.cplRing 0).armed && t.host.pba == 1) = true ∧
    ([(Instr.tailDoorbell 256 4 1, lit), (.headDoorbell 0x8100 4 1, lit), (.headDoorbell 0x8000 8 5, cplAt 5 3),
      (.headDoorbell 0x8000 4 0x2005, cplAt 5 3), (.headDoorbell 0x8000 4 16, cplAt 5 3),
      (.headDoorbell 0x8100 4 0, cplAt 5 3)].all fun p => after (exec p.1 p.2) fun t =>
        t.host.cmd == p.2.host.cmd && t.host.cpl == p.2.host.cpl &&
        t.host.cnt.get 0 HostCtr.dbBad.ctorIdx == 1) = true ∧
    after (exec (.headDoorbell 0x8000 4 6) (cplAt 5 3)) (fun t =>
      t.host.cpl == (cplAt 5 3).host.cpl && t.host.cnt.get 0 HostCtr.dbBad.ctorIdx == 1) = true ∧
    after (exec (.bar4Read 0 4 true) up) (fun t => t.out == [.readData [0, 0, 0, 0] true] &&
      t.host.cnt.get 0 HostCtr.bar4Reads.ctorIdx == 1 && t.host.cnt.get 0 HostCtr.bar4Poison.ctorIdx == 1) = true ∧
    after (exec (.bar4Write 8) up) (fun t => t.host.cnt.get 0 HostCtr.bar4WriteDrop.ctorIdx == 1) = true ∧
    after (exec (.hostReset .linkDown) (cplAt 5 3)) (fun t =>
      t.host.cmd == [] && t.host.cpl == [] && !t.host.linkUp && !t.host.bme) = true ∧
    after (exec (.hostReset .hotReset) (cplAt 5 3)) (fun t => t.host.cpl == [] && t.host.linkUp) = true ∧
    after (exec (.pcieConfigWrite true false true) up) (fun t => t == withHost fun h => { h with msixEn := true }) = true ∧
    after (exec (.pcieConfigWrite true false true) (pba3 8)) (fun t => t == pba3 8) = true ∧
    after (exec (.pcieConfigWrite false false true) (pba3 8)) (fun t => !t.host.bme && t.host.pba == 8) = true ∧
    after (exec (.pcieConfigWrite true false true) (withHost (s := pba3 8) fun h =>
      { h with msixEn := false, msix := [(3, { addr := 8, data := 9, masked := false })] }))
      (fun t => t.out == [.msix 3 8 9] && t.host.pba == 0) = true ∧
    after (exec (.msixVectorUnmask 3) (withHost (s := pba3 8) fun h => { h with bme := false }))
      (fun t => t.out == [] && t.host.pba == 8 && !(t.host.msix.get {} 3).masked) = true ∧
    after (exec (.pcieConfigWrite true false true) (withHost (s := cplAt 1 0 false (some 0)) fun x =>
        { x with bme := false, cpl := [(0, { x.cpl.get {} 0 with holdoff := 0, since := 1 })] })) (fun t =>
      t.out == [.msix 0 8 9] && !(t.cplRing 0).due 0) = true ∧
    after (exec (.msixVectorUnmask 3) (pba3 8)) (fun t => t.out == [.msix 3 8 9] && t.host.pba == 0) = true ∧
    after (exec (.msixVectorUnmask 3) (pba3 0)) (fun t => t.out == [] && !(t.host.msix.get {} 3).masked) = true := by
  decide +kernel

def rec0 : EvtRec := { cause := 0x92, count := 1, t64 := 0, data0 := 3, data1 := 4, poison := false, coalesced := false, trunc := false }

/-- The raiser's item waits for the completion writer, or only a source is pending. -/
def evtUp (item : Option Nat) (s : State) : State :=
  withHost (s := s) fun x => { x with evtItem := item, src := [(448, { en := true, pend := some rec0 })] }

/-- The completion of ring 0's command waits. -/
def cplUp : State :=
  let c : Cpl :=
    { status := 0, cseq := 7, opcode := 2, detail := 0, tag := 0xABC, result := 64, irqNow := false, haddr := 0x8000
      out := [1, 2] }
  withHost (s := cplAt 17 3) fun x => { x with cmd := [(0, { en := true, sizeLog2 := 4, tail := 1, item := some c })] }

theorem test_completions_meet :
    (let s := evtUp none up
     s.host.evtItem = none ∧ s.serving = true ∧ s.pendEvs = [(448 : Fin 512).val]) ∧
    (cplUp.busMaster = true ∧ cplUp.host.msixEn = false ∧ cplUp.host.evtItem = none ∧
      (cplUp.cmdRing 0).item.isSome = true ∧ (∀ k, k < 64 → k ≠ 0 → (cplUp.cmdRing k).item = none) ∧
      (cplUp.cplRing (cplUp.cmdRing 0).cplRing).en = true ∧ (17 % 16 + 16 - 3) % 16 + 1 < 16) ∧
    (let s := evtUp (some 448) (cplAt 2 3)
     (17 % 16 + 16 - 3) % 16 + 1 < 16 ∧ s.host.evtItem = some 448 ∧ (s.host.src.get {} 448).pend = some rec0 ∧
     ((∀ k, k < 64 → (s.cmdRing k).item = none) ∧ (2 % 16 + 16 - 3) % 16 + 1 = 16)) ∧
    (let s := evtUp (some 448) (cplAt 1 3)
     (1 % 16 + 16 - 3) % 16 + 1 < 16 ∧ (s.cplRing (s.host.src.get {} 448).ring).en = true) ∧
    (let s := cplAt 1 0 true (some 0)
     (s.cplRing 0).armed = true ∧ (s.cplRing 0).oldest = some 0 ∧ s.host.msixEn = true ∧
     (s.host.msix.get {} 0).masked = false) ∧
    ((flying 5 [tok 0 0x95 63]).arrivable 5 (tok 0 0x95 63) = true ∧ (tok 0 0x95 63).tag.bell = false ∧
      (State.reset.host.src.get {} 447).en = true ∧ (State.reset.host.src.get {} 447).pend = none) := by decide +kernel

theorem test_completions :
    after (exec (.eventRecordWrite 448) (evtUp none up)) (fun t => t.host.evtItem == some 448) = true ∧
    after (exec .completionWrite cplUp) (fun t =>
      t.out == [.hostWrite 0x8000 [1, 2] true,
        .hostWrite 0x1028 ([7, 0, 2, 0, 0, 0, 0, 0] ++ leBytes 8 0xABC ++ leBytes 8 64) false,
        .hostWrite 0x1020 [1, 0, 17, 0, 0, 0, 0, 0] false]) = true ∧
    after (exec .completionWrite (evtUp (some 448) (cplAt 1 3))) (fun t =>
      t.host.evtItem == none && (t.cplRing 0).rseq == 2 && t.out.length == 2) = true ∧
    after (exec (.holdoffExpiry 0) (cplAt 1 0 true (some 0))) (fun t =>
      t.out == [.msix 0 8 9] && !(t.cplRing 0).armed && t.time.now == 5000) = true ∧
    after (exec (.graphEventToken 5 (tok 0 0x95 63) {}) (flying 5 [tok 0 0x95 63])) (fun t =>
      (t.host.src.get {} 447).pend == some { rec0 with
        cause := 0x70, data0 := 0x11 + 0x22 * 2 ^ 32, data1 := 9 + 2 ^ 17 + 3 * 2 ^ 23 }) = true := by
  decide +kernel

/-! ### 22 Commands of the rings (R10, R392-R400, R429-R433, R442) -/

/-- Fields of ARGS, laid out by their sizes. -/
def argsOf (sizes vals : List Nat) : BitVec 256 :=
  BitVec.ofNat 256 (((argPlaces sizes 32).zip vals).foldl (fun a e => a + e.2 * 2 ^ (8 * (e.1.1 - 32))) 0)

/-- A descriptor; with a buffer of `hlen` bytes at 0x10000 where that is not 0. -/
def dsc (op target : Nat) (sizes vals : List Nat) (hlen : Nat := 0) : Desc :=
  { opcode := BitVec.ofNat 16 op, cseq := 0, dflags := 0, zero := 0, tag := 0xABC
    haddr := if hlen = 0 then 0 else 0x10000
    hlen := BitVec.ofNat 32 hlen, target := BitVec.ofNat 32 target, args := argsOf sizes vals }

/-- Parameter records (R396). -/
def recs (l : List (Nat × Nat)) : List Byte := l.flatMap fun e => leBytes 2 e.1 ++ List.replicate 6 0#8 ++ leBytes 8 e.2

/-- The parameters that a record list gives. -/
def givesB (p : Params) (l : List (Nat × Nat)) : Bool := match p with | .ok x => x == l | .error _ => false

theorem gives_of {p : Params} {l : List (Nat × Nat)} (h : givesB p l = true) : p = .ok l := by
  cases p with
  | ok x => simp only [givesB, beq_iff_eq] at h; rw [h]
  | error i => cases h

/-- `Comes`, computed. -/
def comesB (s : State) (d : Desc) (op : Nat) (sizes : List Nat) (need : Nat) (lantern halted : Bool) : Bool :=
  s.fetchTurn 0 && d.opcode.toNat == op && d.cseq == (s.cmdRing 0).cseq && d.dflags.toNat / 2 == 0 && d.zero == 0 &&
  (d.hlen != 0 || d.haddr == 0) && (d.hlen == 0 || d.haddr.toNat % 64 == 0) && d.hlen.toNat % 4 == 0 &&
  decide (d.hlen.toNat ≤ 2 ^ 28) && decide (need ≤ d.hlen.toNat) && d.stray sizes == [] &&
  (s.power.phase != .lantern || lantern) && (s.watch.fstate != .halted || halted)

theorem comes_of {s : State} {d : Desc} {op : Nat} {sizes : List Nat} {need : Nat} {lantern halted : Bool}
    (h : comesB s d op sizes need lantern halted = true) : Comes s 0 d op sizes need lantern halted := by
  simp only [comesB, Bool.and_eq_true, Bool.or_eq_true, beq_iff_eq, bne_iff_ne, ne_eq, decide_eq_true_eq] at h
  obtain ⟨⟨⟨⟨⟨⟨⟨⟨⟨⟨⟨⟨h1, h2⟩, h3⟩, h4⟩, h5⟩, h6⟩, h7⟩, h8⟩, h9⟩, h10⟩, h11⟩, h12⟩, h13⟩ := h
  exact ⟨h1, h2, h3, h4, h5, fun h => h6.resolve_left (fun g => g h), fun h => h7.resolve_left h, h8, h9, h10, h11,
    fun h => h12.resolve_left (fun g => g h), fun h => h13.resolve_left (fun g => g h)⟩

/-- A command as it comes. -/
structure Coming where
  st      : State
  d       : Desc
  sizes   : List Nat := []
  need    : Nat := 0
  lantern : Bool := false
  halted  : Bool := false

def Coming.Holds (c : Coming) : Prop := Comes c.st 0 c.d c.d.opcode.toNat c.sizes c.need c.lantern c.halted

theorem all_come {l : List Coming}
    (h : (l.all fun c => comesB c.st c.d c.d.opcode.toNat c.sizes c.need c.lantern c.halted) = true) :
    ∀ c ∈ l, c.Holds := fun c hc => comes_of (List.all_eq_true.mp h c hc)

/-- The command is carried out: OK, its RESULT and output, and what else is asked. -/
def okWith (o : Host.Outcome State Fault Refusal) (res : Nat := 0) (out : List Byte := [])
    (p : State → Bool := fun _ => true) : Bool :=
  after o fun t => ((t.cmdRing 0).item.map fun x => (x.status, x.result, x.out)) == some (stOk, res, out) && p t

/-- The command ends in a status. -/
def badWith (o : Host.Outcome State Fault Refusal) (st detail : Nat := 0) (res : Nat := 0) : Bool :=
  after o fun t => ((t.cmdRing 0).item.map fun x => (x.status, x.detail, x.result)) == some (st, detail, res)

def mode (p : Phase) : State := { up with power := { up.power with phase := p } }

/-- Ring 1 has the turn. -/
def turn1 : State := withHost fun h => { h with
  cmd := [(1, { en := true, sizeLog2 := 4, tail := 1, cplRing := 0 })], fetchNext := 1 }

theorem test_commands_refused_meet :
    cmdOf (.nop 0 (dsc 1 0 [] []) (.data [])) = some (0, dsc 1 0 [] [], 1, true) ∧
    cmdOf (.unloadGraph 0 (dsc 0x102 0 [] []) (.data [])) = some (0, dsc 0x102 0 [] [], 0x102, false) ∧
    State.reset.fetchTurn 0 = false ∧ up.fetchTurn 0 = true ∧ (mode .lantern).fetchTurn 0 = true ∧
    (mode .lantern).power.phase = .lantern ∧ (0x10A ∉ knownOps) ∧ (2 ∈ knownOps) ∧
    (dsc 1 0 [] [] 64).hlen ≠ 0 ∧ { dsc 1 0 [] [] 64 with haddr := 32 }.haddr.toNat % 64 ≠ 0 ∧
    { dsc 1 0 [] [] with cseq := 3 }.cseq ≠ (up.cmdRing 0).cseq ∧
    cmdOf (.createCmdRing 1 (dsc 3 63 [8, 1, 1] [0x3000, 12, 0]) (.data [])) =
      some (1, dsc 3 63 [8, 1, 1] [0x3000, 12, 0], 3, false) ∧ turn1.fetchTurn 1 = true ∧
    turn1.power.phase ≠ .lantern := by decide +kernel

theorem test_commands_refused :
    after (exec (.nop 0 (dsc 1 0 [] []) (.data [])) State.reset) (· == State.reset) = true ∧
    after (exec (.nop 0 (dsc 2 0 [] []) (.data [])) up) (· == up) = true ∧
    badWith (exec (.unloadGraph 0 (dsc 0x102 0 [] []) (.data [])) (mode .lantern)) eLantern = true ∧
    badWith (exec (.nop 0 (dsc 0x10A 0 [] []) (.data [])) up) eOpcode = true ∧
    badWith (exec (.nop 0 { dsc 1 0 [] [] 64 with haddr := 32 } (.data [])) up) eAlign 16 = true ∧
    (after (exec (.createCmdRing 1 (dsc 3 63 [8, 1, 1] [0x3000, 12, 0]) (.data [])) turn1) fun t =>
      ((t.cmdRing 1).item.map (·.status)) == some eOpcode && (t.cmdRing 63).en == false) = true ∧
    badWith (exec (.nop 0 { dsc 1 0 [] [] with cseq := 3 } (.data [])) up) eRange 2 0 = true := by decide +kernel

def ring1 : State := withHost fun h => { h with cmd := h.cmd ++ [(1, { en := true, cplRing := 0 })], cpl := h.cpl ++ [(1, { en := true })] }

noncomputable def ringCmds : List Coming :=
  [{ st := up, d := dsc 1 0 [] [], lantern := true },
   { st := mode .lantern, d := dsc 2 0 [] [] 64, need := 64, lantern := true, halted := true },
   { st := up, d := dsc 3 63 [8, 1, 1] [0x3000, 12, 0], sizes := [8, 1, 1] },
   { st := up, d := dsc 4 1 [8, 1, 1, 2, 2] [0x3000, 4, 63, 1000, 15], sizes := [8, 1, 1, 2, 2] },
   { st := ring1, d := dsc 5 1 [] [] }, { st := ring1, d := dsc 5 129 [] [] },
   { st := up, d := dsc 6 511 [2, 1, 1] [1, 0, 0], sizes := [2, 1, 1] },
   { st := up, d := dsc 7 0xE0000FF [8] [0x60] 1024, sizes := [8], need := 64, lantern := true, halted := true }]

theorem test_ring_commands_meet :
    (∀ c ∈ ringCmds, c.Holds) ∧
    ((up.cmdRing 63).en = false ∧ (up.cplRing 0).en = true ∧ (up.cplRing 1).en = false ∧ 15 < 2 ^ 4 ∧
      (ring1.cmdRing 1).item = none ∧ ring1.host.running = [] ∧ ring1.ringNamed 1 = false ∧ 511 + 1 ≤ 512) := by
  refine ⟨all_come (by decide +kernel), ?_⟩
  decide +kernel

theorem test_ring_commands :
    okWith (exec (.nop 0 (dsc 1 0 [] []) (.data [])) up) 0 [] (fun t => t.power.restSince == some 0 &&
      (t.cmdRing 0).cseq == 1 && t.host.fetchNext == 1) = true ∧
    okWith (exec (.identify 0 (dsc 2 0 [] [] 64) (.data [])) up) 64
      ([0x28, 0x81, 0, 0, 0xB1, 0] ++ List.replicate 58 0) = true ∧
    okWith (exec (.createCmdRing 0 (dsc 3 63 [8, 1, 1] [0x3000, 12, 0]) (.data [])) up) 0 [] (fun t =>
      t.cmdRing 63 == { en := true, base := 0x3000, sizeLog2 := 12, cplRing := 0 }) = true ∧
    okWith (exec (.createCplRing 0 (dsc 4 1 [8, 1, 1, 2, 2] [0x3000, 4, 63, 1000, 15]) (.data [])) up) 0 [] (fun t =>
      t.cplRing 1 == { en := true, base := 0x3000, sizeLog2 := 4, vector := 63, holdoff := 1000, thresh := 15, armed := true }) = true ∧
    okWith (exec (.deleteRing 0 (dsc 5 1 [] []) (.data [])) ring1) 0 [] (fun t => t.cmdRing 1 == {}) = true ∧
    okWith (exec (.deleteRing 0 (dsc 5 129 [] []) (.data [])) ring1) 0 [] (fun t => t.cplRing 1 == {}) = true ∧
    okWith (exec (.eventRoute 0 (dsc 6 511 [2, 1, 1] [1, 0, 0]) (.data [])) up) 0 [] (fun t =>
      t.host.src.get {} 511 == { en := false } && t.host.src.get {} 510 == {}) = true ∧
    okWith (exec (.statistics 0 (dsc 7 0x2000000 [8] [0] 2048) (.data [])) up) (8 * up.reeveStats.length)
      (up.reeveStats.flatMap (leBytes 8)) = true := by decide +kernel

def watchUp (f : Watch → Watch) : State := { up with watch := f up.watch }
def flushUp : State := { up with cells := [(2, { que := { express := [queued 0], eb1 := [queued 2, queued 2] } })] }
def log0 : LogEntry := { t64 := 5, lseq := 0, src := 7, fcode := 8, cls := 2, reaction := 1, forced := false, merge := 0
                         classes := 4, sticky := false, halted := false, broken := false, recov := 0, data := 9 }
def logged : State := watchUp fun w => { w with log := [log0, log0] }

noncomputable def watchCmds : List Coming :=
  [{ st := flushUp, d := dsc 0x601 2 [1] [0], sizes := [1] },
   { st := up, d := dsc 0x701 15 [] [] 32 },
   { st := up, d := dsc 0x702 241 [1] [0], sizes := [1] }, { st := up, d := dsc 0x702 241 [1] [1], sizes := [1] },
   { st := up, d := dsc 0x702 255 [1] [1], sizes := [1] },
   { st := watchUp fun w => { w with forceBits := [241] }, d := dsc 0x702 241 [1] [1], sizes := [1] },
   { st := watchUp fun w => { w with fstate := .faulted }, d := dsc 0x703 0 [] [], lantern := true },
   { st := logged, d := dsc 0x704 0 [2, 2] [1, 2] 64, sizes := [2, 2], need := 64, lantern := true, halted := true },
   { st := up, d := dsc 0x707 0 [1] [1], sizes := [1] }, { st := up, d := dsc 0x707 0x1000001 [1] [1], sizes := [1] },
   { st := up, d := dsc 0x707 0x1000001 [1] [0], sizes := [1] }]

theorem test_watch_commands_meet :
    (∀ c ∈ watchCmds, c.Holds) ∧
    params [rowEnum 5, rowTime 1000000 600000000000 1000000, rowNat 0 255] (dsc 0x701 15 [] [] 32)
      (.data (recs [(1, 4), (3, 255)])) = .ok [(1, 4), (3, 255)] ∧
    (up.authorised = true ∧ (flushUp.pairClass0 2 = false ∧ flushUp.testing 2 = false) ∧
      (recLen (dsc 0x701 15 [] [] 32) = [] ∧ reactionFloor 15 ≤ 4 ∧ up.watch.lines.getLsbD 15 = false) ∧
      isLevel 255 0xFE = false ∧ isLevel 241 0xFE = true ∧
      (watchUp fun w => { w with fstate := .faulted }).watch.levels = [] ∧
      up.testing 2 = false ∧ up.testing 3 = false ∧ up.pairClass0 2 = false) :=
  ⟨all_come (by decide +kernel), gives_of (by decide +kernel), by decide +kernel⟩

theorem test_watch_commands :
    okWith (exec (.cellFlush 0 (dsc 0x601 2 [1] [0]) ⟨.data [], []⟩) flushUp) 2 [] (fun t =>
      (t.cell 2).que.eb1 == [] && (t.cell 2).que.express == [queued 0]) = true ∧
    okWith (exec (.watchConfig 0 (dsc 0x701 15 [] [] 32) (.data (recs [(1, 4), (3, 255)]))) up) 0 [] (fun t =>
      t.reactionOf 15 == .halt && t.watch.budget == 6 && t.watch.budgetNext == 255) = true ∧
    okWith (exec (.faultForce 0 (dsc 0x702 241 [1] [1]) (.data [])) up) 0 [] (fun t =>
      t.watch.forceBits == [241] && t.watch.raises.any fun x => x.src == 241 && x.fcode == 0xFE) = true ∧
    okWith (exec (.faultForce 0 (dsc 0x702 241 [1] [0]) (.data [])) (watchUp fun w => { w with forceBits := [241] })) 0 []
      (fun t => t.watch.forceBits == []) = true ∧
    okWith (exec (.faultClear 0 (dsc 0x703 0 [] []) (.data [])) (watchUp fun w => { w with fstate := .faulted })) 0 []
      (fun t => t.watch.fstate == .idle) = true ∧
    okWith (exec (.faultLogRead 0 (dsc 0x704 0 [2, 2] [1, 2] 64) (.data [])) logged) 1 log0.bytes = true ∧
    okWith (exec (.debugEnable 0 (dsc 0x707 0x1000001 [1] [1]) (.data [])) up) = true ∧
    okWith (exec (.debugEnable 0 (dsc 0x707 0x1000001 [1] [0]) (.data [])) up) = true := by decide +kernel

/-! ### 23 Graphs, credit, injection and regions (R80-R104, R128, R263-R267, R401-R403, R438) -/

open Crypto in
/-- An image of no body, signed with the private key 1. -/
def image (ty sg : Nat) : List Byte :=
  leBytes 4 0x4D494B4B ++ [BitVec.ofNat 8 ty, 0, 0, 0] ++ List.replicate 24 0#8 ++ [4#8] ++ beBytes 48 gx ++
  beBytes 48 gy ++ List.replicate 7 0#8 ++ beBytes 48 (gx % n) ++ beBytes 48 sg ++ List.replicate 24 0#8

def fwImage : List Byte := image 1
  0x982c0fd5d9c84060e897eb80585f74135929c2d380e1d0685b232a6758d13868a2f3eaf8e0915bd5094258e53327684e
def graphImage : List Byte := image 2
  0x515503b65d1f479143e88aaaaae23641c2a609f50a3867e5d943f68c99f05adb369d5261169f82da5a7b8d20b99933d8

/-- The fuses hold the hash of the key. -/
def keyed : State :=
  { up with fuses := { up.fuses with fwPkh := [(0, Crypto.sha384 (bytesAt fwImage 32 97))] } }

/-- The fused key authenticates both images. -/
theorem test_image_is_authentic :
    keyed.fuses.authentic fwImage = true ∧ keyed.fuses.authentic graphImage = true ∧
    up.fuses.authentic graphImage = false := by decide +kernel

/-- A group of cells 2 and 3, a partition on it, and a graph with that one partition. -/
def grp (n : Fin 64) (mask : BitVec 128 := 0xC) : GroupDef :=
  { num := n, mask := mask, nodeLo := 0, nodeHi := 15, bsLo := 0, bsHi := 31 }
def prt (n : Fin 64) : PartDef :=
  { group := n, ways := 0, blocks := 0, words := 0, slots := 0, rate := 0, nodes := [(7, desc 2 &&& 0xF)], code := [(9, 0x55)] }
def body (k : BitVec 2) : GraphBody := { graphOf k with groups := [grp 5], parts := [prt 5] }

/-- The graph stands at handle 1023. -/
def loaded (k : BitVec 2) (s : State := keyed) : State :=
  { s with
    reeve := { s.reeve with graphs := [(1023, some (body k))], groups := [(5, { gdef := some (grp 5) }), (6, { gdef := some (grp 6 0xC00) })] }
    cells := [(2, { nodes := [(7, desc 2 &&& 0xF)], code := [(9, 0x55)] })]
    cellar := { s.cellar with quarantined := [1023, 3] } }

def running9 (x : Ctx) (s : State := loaded 2) : State := { s with reeve := { s.reeve with ctx := [(9, x)] } }
def live9 : Ctx := { st := .live, cls := 2, gen := 1, graph := 1023, graphs := [(1, 1023)], installed := true, place := [2, 2] }

def unquarantined : State := let s := loaded 2; { s with cellar := { s.cellar with quarantined := [] } }

/-- The queue of class 2 is full. -/
def queueFull : State :=
  let s := unquarantined
  let a : Activation := { graph := 3, asker := none, ring := 0, t0 := 0, counted := false }
  { s with reeve := { s.reeve with queue := [(2, List.replicate 256 a)] } }

noncomputable def graphCmds : List Coming :=
  [{ st := keyed, d := dsc 0x101 1023 [] [] 256, need := 256 }, { st := up, d := dsc 0x101 1023 [] [] 256, need := 256 },
   { st := loaded 2, d := dsc 0x102 1023 [] [] }, { st := unquarantined, d := dsc 0x103 1023 [] [] },
   { st := queueFull, d := dsc 0x103 1023 [] [] },
   { st := running9 live9, d := dsc 0x104 9 [] [] }, { st := loaded 2, d := dsc 0x105 1023 [] [] },
   { st := loaded 0, d := dsc 0x106 (1023 * 2 ^ 16) [1] [6], sizes := [1] }]

theorem test_graph_commands_meet :
    (∀ c ∈ graphCmds, c.Holds) ∧
    (imageLen (dsc 0x101 1023 [] [] 256) (.data graphImage) = [] ∧
      imageType (dsc 0x101 1023 [] [] 256) (.data graphImage) 1 = [] ∧ keyed.graph 1023 = none ∧
      (taken keyed 0 0x101).bodyWrong (body 2) = false ∧ (taken keyed 0 0x101).bodyNoRoom (body 2) = false ∧
      (taken keyed 0 0x101).bodyWrong (graphOf 2) = true ∧
      (taken (loaded 2) 0 0x101).bodyNoRoom (body 2) = true ∧ (loaded 2).graph 1 = none) ∧
    ((loaded 2).graph 1023 = some (body 2) ∧ (loaded 2).graphLive 1023 = false ∧ (loaded 2).graphRuns 1023 = false ∧
      (loaded 2).graphRegions 1023 = false) ∧
    (unquarantined.startFails (body 2) = [] ∧ unquarantined.reeve.queue.get [] 2 = [] ∧
      queueFull.startFails (body 2) = [] ∧ (queueFull.reeve.queue.get [] 2).length = 256 ∧
      queueFull.cellar.quarantined = []) ∧
    (let x := (running9 live9).ctxOf 9
     x.st = .live ∧ x.shadow = false ∧ x.cls ≠ 0 ∧ x.installed = true ∧ x.partner = none) ∧
    (let s := loaded 0
     (body 0).parts[0]? = some (prt 5) ∧ s.groupDef 6 = some (grp 6 0xC00) ∧
     partInside (prt 5) 0x3FFF (grp 6 0xC00) = true ∧ groupPaired (grp 6 0xC00) = true ∧ s.authorised = true ∧
     s.noRoomMoved 1023 (body 0) 0 (prt 5) { prt 5 with group := 6 } = false ∧
     s.scratchClash 1023 (body 0) 0xC00 = false ∧ s.reeve.moved = [] ∧ (body 0).parts = [prt 5] ∧
     s.reeve.graphs = [(1023, some (body 0))]) := by
  refine ⟨all_come (by decide +kernel), ?_⟩
  decide +kernel

theorem test_graph_commands :
    badWith (exec (.loadGraph 0 (dsc 0x101 1023 [] [] 256) (.data graphImage) (body 2)) up) eSig = true ∧
    okWith (exec (.unloadGraph 0 (dsc 0x102 1023 [] []) (.data [])) (loaded 2)) 0 [] (fun t =>
      t.graph 1023 == none && (t.cell 2).nodes.get 0 7 == 0 && t.cellar.quarantined == [3]) = true ∧
    after (exec (.startGraph 0 (dsc 0x103 1023 [] []) (.data [])) unquarantined) (fun t =>
      (t.reeve.queue.get [] 2).map (·.graph) == [1023] && t.host.running.length == 1) = true ∧
    after (exec (.startGraph 0 (dsc 0x103 1023 [] []) (.data [])) queueFull) (fun t =>
      t.reeve.waiters.map (·.graph) == [1023] && t.reeve.queue == queueFull.reeve.queue) = true ∧
    after (exec (.stopGraph 0 (dsc 0x104 9 [] []) (.data [])) (running9 live9)) (fun t =>
      (t.ctxOf 9).st == .releasing && t.host.running.length == 1) = true ∧
    okWith (exec (.graphEnable 0 (dsc 0x105 1023 [] []) (.data [])) (loaded 2)) 0 [] (fun t =>
      t.cellar.quarantined == [3]) = true ∧
    okWith (exec (.setGroup 0 (dsc 0x106 (1023 * 2 ^ 16) [1] [6]) (.data [])) (loaded 0)) 0 [] (fun t =>
      (t.graph 1023).map (·.parts) == some [{ prt 5 with group := 6 }] && (t.cell 10).code.get 0 9 == 0x55 &&
      t.reeve.moved.get [] 1023 == [prt 5]) = true := by decide +kernel

def inject9 : Token := tok 2 0x95 3
def injD : Desc := dsc 8 0 [8, 16] [inject9.tag.pack.toNat, 0x1100000022]
def injecting (k : Nat) : State :=
  let s := running9 live9
  { s with reeve := { s.reeve with hubCredit := if k = 0 then [] else [(2 ^ 21 * 0x91 + 16 * 9 + 1, k)] } }

/-- A grant of 64 waits for cell `c`, as it was asked for (`asked`), to a pair or not. -/
def granting (asked : Option Nat) (c cg : Nat) (pair : Bool := false) : State :=
  withCtl [.creditReq 3 9 none false, .creditGrant c cg 9 1 64 asked pair false] (running9 live9)

/-- The same for the first sensor hub, whose binding names the context. -/
def hubGrant : State :=
  let s := withCtl [.creditGrant 0x98 0 9 1 64 none false false] (running9 live9)
  { s with ingest := { s.ingest with binds := [(0, { (s.ingest.binds.get {} 0) with st := .active, ctx := 9, gen := 1 })] } }

theorem test_credit_and_injection_meet :
    (∀ c ∈ [Coming.mk (injecting 0) injD [8, 16] 0 false false, Coming.mk (injecting 3) injD [8, 16] 0 false false], c.Holds) ∧
    (let pick := fun (m : Ctl) => match m with
       | .creditGrant q _ y h _ _ _ _ => q == 2 && y == 9 && h == 1
       | _ => false
     State.reset.ctlNext pick = none ∧
     (∀ a ∈ [none, some 1], ∀ b ∈ [false, true], ∀ g ∈ [0, 5], let s := granting a 2 g b
       s.ctlNext pick = some (.creditGrant 2 g 9 1 64 a b false) ∧ s.fabric.iso.contains 2 = false ∧
       s.cutOff 2 = false ∧ s.cutOff 3 = false ∧ ((s.cell 2).cellGen.toNat = g ↔ g = 0) ∧
       (s.cell 2).current 9 1 = false ∧ (s.cell 2).runs 9 1 = false ∧ (9, 1) ∉ (s.cell 2).leaving)) ∧
    (let pick := fun (m : Ctl) => match m with
       | .creditGrant q _ y h _ _ _ _ => q == 0x98 && y == 9 && h == 1
       | _ => false
     hubGrant.ctlNext pick = some (.creditGrant 0x98 0 9 1 64 none false false) ∧
     (hubGrant.ctxOf 9).st = .live ∧ (hubGrant.ctxOf 9).gen = 1 ∧ hubGrant.hubBound 0x98 9 1 = true) ∧
    (let s := injecting 3
     let tag := Tag.unpack (BitVec.ofNat 64 (injD.arg [8, 16] 0))
     let x := s.ctxOf tag.ctx.toNat
     tag = inject9.tag ∧ x.st = .live ∧ tag.gen.toNat = x.gen ∧ tag.cls.toNat = x.cls ∧ tag.cls ≠ 0 ∧
     tag.reserved = false ∧ tag.poison = false ∧ tag.bell = false ∧ tag.spilled = false ∧ s.monoWrong tag = false ∧
     tag.len.toNat ≤ 2 ∧ injD.hlen = 0 ∧ tag.mono = false ∧ s.host.running = [] ∧
     (∀ e ∈ s.cells, e.2.que.posted = []) ∧
     s.creditOf 0x91 9 1 = 3 ∧ (injecting 0).creditOf 0x91 9 1 = 0) := by
  refine ⟨?_, by decide +kernel, by decide +kernel, by decide +kernel⟩
  exact all_come (by decide +kernel)

theorem test_credit_and_injection :
    after (exec (.creditGrant 2 ⟨9, 0⟩ 1) (granting none 2 0)) (fun t =>
      (t.cell 2).credit.get 0 (16 * 9 + 1) == 64 && (t.cell 3).credit == [] &&
      t.fabric.ctl == [.creditReq 3 9 none false]) = true ∧
    after (exec (.creditGrant 2 ⟨9, 0⟩ 1) (granting none 2 0 true)) (fun t =>
      (t.cell 2).credit.get 0 (16 * poolOf true 9 + 1) == 64 &&
      (t.cell 3).credit.get 0 (16 * poolOf true 9 + 1) == 64) = true ∧
    after (exec (.creditGrant 2 ⟨9, 0⟩ 1) (granting none 2 5)) (fun t => (t.cell 2).credit == []) = true ∧
    after (exec (.creditGrant 2 ⟨9, 0⟩ 1) (granting (some 1) 2 0)) (fun t =>
      (t.cell 2).credit == [] && t.fabric.ctl.contains (.creditReturn 2 9 1 64)) = true ∧
    after (exec (.creditGrant 0x98 ⟨9, 0⟩ 1) hubGrant) (fun t => t.creditOf 0x98 9 1 == 64) = true ∧
    after (exec (.hostInject 0 injD ⟨.data [], .none⟩) (injecting 0)) (fun t =>
      t.host.running.length == 1 && t.fabric.ctl.length == 1) = true ∧
    okWith (exec (.hostInject 0 injD ⟨.data [], .none⟩) (injecting 3)) 0 [] (fun t =>
      t.host.running == [] && t.creditOf 0x91 9 1 == 2 && t.fabric.flight.length == 1) = true := by decide +kernel

/-- Region 3 of responder 1, of 256 bytes at 4096, with line 65 poisoned. -/
def regionUp (app : Bool) : State :=
  let s := loaded 2
  { s with fabric := { s.fabric with resp := [(1, { poison := [65, 99], regions :=
      [(3, { valid := true, append := app, owner := some 1023, base := 4096, length := 256, ptr := 64 })] })] } }

/-- A map with one guarded slot a quarter for each column pair. -/
def map0 : List (BitVec 16) := (List.range 64).map fun i =>
  let j := i % 16
  if j = 0 then 2 else if j = 1 ∨ j = 8 then BitVec.ofNat 16 (161 + 4 * (j - 1))
  else if j < 8 then BitVec.ofNat 16 (33 + 4 * (j - 1)) else 0

def slots0 : List Byte := map0.flatMap fun e => leBytes 2 e.toNat

noncomputable def regionCmds : List Coming :=
  [{ st := loaded 2, d := dsc 0x107 1023 [8, 1, 1] [64, 1, 0xFF], sizes := [8, 1, 1] },
   { st := regionUp false, d := dsc 0x108 4099 [] [] },
   { st := regionUp false, d := dsc 0x109 4099 [8, 1] [64, 1] 192, sizes := [8, 1] },
   { st := regionUp true, d := dsc 0x109 4099 [8, 1] [0, 0] 64, sizes := [8, 1] },
   { st := up, d := dsc 0x304 0 [] [] 32 }, { st := up, d := dsc 0x305 0 [8] [4 * 2 ^ 30], sizes := [8] },
   { st := up, d := dsc 0x306 0 [] [] 128, need := 128 }]

def reeveRows : List PRow :=
  [rowTime 100 10000 100, rowTime 10000 10000000 1000, rowTime 0 100000000 1000000,
   rowTime 1000000 1000000000 1000000, rowNat 85 115, rowTime 10000 1000000000 1000, rowNat 50 100,
   rowNat 0 95, rowNat 0 255, rowTime 10000000 60000000000 1000000, rowNat 0 (2 ^ 32 - 1)]

theorem test_region_commands_meet :
    (∀ c ∈ regionCmds, c.Holds) ∧
    params reeveRows (dsc 0x304 0 [] [] 32) (.data (recs [(7, 100), (8, 95)])) = .ok [(7, 100), (8, 95)] ∧
    ((loaded 2).roomiest = 0 ∧ (loaded 2).findRegion 0 64 = some ((loaded 2).findRegion 0 64 |>.getD (0, 0))) ∧
    (let s := regionUp false
     let g := (s.respAt 1).regions.get {} 3
     g.valid = true ∧ g.owner = some 1023 ∧ s.graphLive 1023 = false ∧ s.histNamed 4099 = false ∧
     g.append = false ∧ 64 + 192 ≤ g.length ∧ ((regionUp true).respAt 1).isPoisoned 4096 64 = false) ∧
    (recLen (dsc 0x304 0 [] [] 32) = [] ∧ 95 + 5 ≤ 100) ∧ (up.cellar.pages = [] ∧ up.reeve.ctx = [] ∧
      ∀ j < 16, ∀ e ∈ (up.respAt j).taken, e.1 + e.2 ≤ respBytes - cellarShare 4) ∧
    (let map := (List.range 64).map fun i => BitVec.ofNat 16 (leAt (bufBytes (dsc 0x306 0 [] [] 128) (.data slots0)) (2 * i) 2)
     (∀ i < 64, slotOk i (map.getD i 0) = true) ∧ (∀ q < 4, quarterOk ((map.drop (16 * q)).take 16) = true) ∧
     (∀ n < 128, (up.reeve.needs.get {} n).slots ≤ slotBudget (fun i => map.getD i 0) (n % 16 / 2))) := by
  refine ⟨all_come (by decide +kernel), gives_of (by decide +kernel), ?_⟩
  decide +kernel

theorem test_region_commands :
    okWith (exec (.regionCreate 0 (dsc 0x107 1023 [8, 1, 1] [64, 1, 0xFF]) (.data [])) (loaded 2))
      ((loaded 2).findRegion 0 64 |>.getD (0, 0)).1 [] (fun t =>
      ((t.respAt 0).regions.get {} ((loaded 2).findRegion 0 64 |>.getD (0, 0)).1).append) = true ∧
    okWith (exec (.regionFree 0 (dsc 0x108 4099 [] []) (.data [])) (regionUp false)) 0 [] (fun t =>
      (t.respAt 1).regions.get {} 3 == {} && (t.respAt 1).poison == [99]) = true ∧
    okWith (exec (.regionCopy 0 (dsc 0x109 4099 [8, 1] [64, 1] 192) (.data (List.replicate 192 7#8))) (regionUp false)) 192 []
      (fun t => (t.respAt 1).mem.get 0 4351 == 7 && (t.respAt 1).mem.get 0 4159 == 0 && (t.respAt 1).poison == [99]) = true ∧
    okWith (exec (.regionCopy 0 (dsc 0x109 4099 [8, 1] [0, 0] 64) (.data [])) (regionUp true)) (64 + 2 ^ 32)
      (List.replicate 64 0) = true ∧
    okWith (exec (.reeveConfig 0 (dsc 0x304 0 [] [] 32) (.data (recs [(7, 100), (8, 95)]))) up) 0 [] (fun t =>
      t.cellar.high == 100 && t.cellar.low == 95 && t.reeve == up.reeve) = true ∧
    okWith (exec (.cellarConfig 0 (dsc 0x305 0 [8] [4 * 2 ^ 30]) (.data [])) up) 0 [] (fun t => t.cellar.gib == 4) = true ∧
    okWith (exec (.slotAlloc 0 (dsc 0x306 0 [] [] 128) (.data slots0)) up) 0 [] (fun t =>
      t.fabric.pendMap == some map0) = true := by decide +kernel

/-! ### 24 Ingest (R276-R302, R311, R312) -/

def withPort (x : SensorPort) (s : State := up) : State :=
  { s with ingest := { s.ingest with ports := [(63, x)] } }

def native : PortCfg := { mode := .native }
def ether : PortCfg := { mode := .ethernet }

/-- A frame with its check. -/
def checked (l : List Byte) : List Byte := l ++ leBytes 4 (Crypto.crc32 l)

/-- A frame of source 0x33 with one sample of stream 7 (FMT 2, scaled integer), padded to 48 bytes. -/
def frame1 (seq : Nat) : List Byte :=
  checked ([0x10, 0] ++ beBytes 2 28 ++ beBytes 2 0x33 ++ beBytes 2 seq ++
    [7, 0x12] ++ beBytes 2 1 ++ beBytes 2 20 ++ [0, 0] ++ beBytes 8 1000 ++ [5, 0, 0, 0] ++ List.replicate 16 0)

/-- A frame with three tags. -/
def tagged3 : List Byte :=
  checked (List.replicate 6 0xFF ++ List.replicate 6 0 ++ [0x81, 0, 0, 0, 0x81, 0, 0, 0, 0x81, 0] ++ List.replicate 38 0)

def rec7 : FieldRec := { stream := 7, fmt := 2, tvalid := true, nsamp := 1, tFirst := 1000, data := [5, 0, 0, 0] }

def sensing (b : Binding) : State :=
  let s := withPort { cfg := native, up := true, srcs := [(0x33, 65535)] }
  { s with ingest := { s.ingest with binds := [(256 * 63 + 7, b)] } }

def bound : Binding := { st := .active, ctx := 9, gen := 1, cell := 2, node := 5, cls := 2, blen := 2, speriod := 1000, scale := 0x3F800000 }

def exq1 : ExqEntry := { port := 63, reason := 1, time := 0, frame := [1, 2, 3, 4] }
def queuing : State := let s := up; { s with ingest := { s.ingest with exq := [(7, [exq1, exq1])] } }

noncomputable def sensorCmds : List Coming :=
  [{ st := up, d := dsc 0x301 63 [] [] 32 }, { st := sensing {}, d := dsc 0x301 63 [] [] 16 },
   { st := queuing, d := dsc 0x403 7 [1, 1] [1, 1] (exq1.bytes.length), sizes := [1, 1], need := exq1.bytes.length }]

def portRows : List PRow :=
  [rowEnum 3, rowEnum 2, rowEnum 3, rowEnum 2, rowNat 0 (2 ^ 48 - 1), rowEnum 2,
   rowNat 0 (2 ^ 32 - 1), PRow.mk (fun v => decide (v < 2 ^ 128)) true, rowNat 0x600 0xFFFF, rowNat 1 65535,
   rowNat 1 65535, rowTime 10000 100000000 1000]

def walkB (r : Except Stray (List SubFrame)) (x : Except Stray (List SubFrame)) : Bool :=
  match r, x with
  | .ok a, .ok b => a == b
  | .error a, .error b => a == b
  | _, _ => false

theorem walk_of {r x : Except Stray (List SubFrame)} (h : walkB r x = true) : r = x := by
  cases r <;> cases x <;> simp_all [walkB]

theorem test_sensor_ports_meet :
    (∀ c ∈ sensorCmds, c.Holds) ∧
    params portRows (dsc 0x301 63 [] [] 32) (.data (recs [(1, 2), (9, 0x600)])) = .ok [(1, 2), (9, 0x600)] ∧
    params portRows (dsc 0x301 63 [] [] 16) (.data (recs [(1, 0)])) = .ok [(1, 0)] ∧
    walkFrame native (frame1 0) = .ok [{ src := 0x33, seq := 0, recs := [some rec7] }] ∧
    walkFrame ether tagged3 = .error (.queue 1) ∧
    (let s := withPort { cfg := native }
     (s.port 63).up = false ∧ (s.port 63).cfg.mode ≠ .off ∧ s.ingestOn 63 = true) ∧
    ((sensing {}).port 63).up = true ∧ frameCheck native [0] false = some .runt ∧
    frameCheck native (frame1 0) false = none ∧ frameCheck ether tagged3 false = none ∧
    (((sensing {}).port 63).srcs.find? (fun e => e.1 == 0x33) = some (0x33, 65535) ∧ later 16 0 65535 = true) ∧
    (sensing bound).early ((sensing bound).binding (256 * 63 + 7)) = false ∧
    ((sensing bound).binding (256 * 63 + 7)).part.length + 1 < 2 ^ bound.blen ∧ ((sensing {}).binding (256 * 63 + 7)).st = .unbound := by
  refine ⟨all_come (by decide +kernel), gives_of (by decide +kernel), gives_of (by decide +kernel),
    walk_of (by decide +kernel),
    walk_of (by decide +kernel), ?_⟩
  decide +kernel

theorem test_sensor_ports :
    after (exec (.sensorLinkUp 63) (withPort { cfg := native, srcs := [(1, 1)] })) (fun t =>
      (t.port 63).up && (t.port 63).srcs == [] && t.time.now == 1000000) = true ∧
    after (exec (.sensorLinkDown 63) (sensing {})) (fun t => !(t.port 63).up && (t.port 63).downs == 1) = true ∧
    okWith (exec (.sensorPortConfig 0 (dsc 0x301 63 [] [] 32) (.data (recs [(1, 2), (9, 0x600)]))) up) 0 [] (fun t =>
      (t.port 63).cfg == { mode := .ethernet, etype := 0x600 }) = true ∧
    okWith (exec (.sensorPortConfig 0 (dsc 0x301 63 [] [] 16) (.data (recs [(1, 0)]))) (sensing {})) 0 [] (fun t =>
      !(t.port 63).up && (t.port 63).cfg.mode == .off && (t.port 63).downs == 1) = true ∧
    after (exec (.frameReceived 63 0 [0] 1 2) (sensing {})) (fun t => (t.port 63).errs == 1 &&
      t.ingest.portCnt.get 0 (32 * 63 + PortCtr.runt.ctorIdx) == 1 &&
      t.ingest.portCnt.get 0 (32 * 63 + PortCtr.fecUncorr.ctorIdx) == 2) = true ∧
    after (exec (.frameReceived 63 0 tagged3 0 0) (withPort { cfg := ether, up := true })) (fun t =>
      (t.ingest.exq.get [] 7).map (fun e => (e.reason, e.frame)) == [(1, tagged3)] && t.steward.evPend == 0x20) = true ∧
    after (exec (.frameReceived 63 0 (frame1 0) 0 0) (sensing {})) (fun t => (t.port 63).srcs == [(0x33, 0)] &&
      t.ingest.portCnt.get 0 (32 * 63 + PortCtr.noBinding.ctorIdx) == 1) = true ∧
    after (exec (.frameReceived 63 0 (frame1 0) 0 0) (sensing bound)) (fun t =>
      let b := t.binding (256 * 63 + 7)
      b.part == [0x40A00000] && b.partT == 1000 && b.prev == some (1000, 1) && !b.partBad &&
      t.ingest.portCnt.get 0 (32 * 63 + PortCtr.rxBytes.ctorIdx) == 48) = true ∧
    okWith (exec (.exqRead 0 (dsc 0x403 7 [1, 1] [1, 1] (exq1.bytes.length)) (.data [])) queuing) 1 exq1.bytes (fun t =>
      t.ingest.exq.get [] 7 == [exq1]) = true := by decide +kernel

def strArgs (l : List Nat) : Desc := dsc 0x201 (256 * 63 + 7) [4, 4, 4, 4, 4, 2, 1, 1, 1, 1, 1] l
def bindD : Desc := strArgs [9, 0x3F800000, 0, 1000, 0, 0xFFFF, 4, 1, 0, 0, 0x7F]
def binding7 : State := running9 { live9 with place := [2, 2] } (loaded 2)

def block7 : Block :=
  { binding := 256 * 63 + 7, ctx := 9, gen := 1, cell := 2, node := 5, cls := 2, blen := 1, mono := false, iter := 4
    words := [1, 2], bad := false, epoch := 3, stamp := none, hist := 0xFFFF }

def bound7 : State :=
  let s := binding7
  { s with ingest := { s.ingest with binds := [(256 * 63 + 7, bound)], hold := [(7, [block7, { block7 with binding := 5 }])] } }

/-- Block 7 waits at port 63, and hub 0x9F has `k` credits. -/
def emitting (k : Nat) : State :=
  let s := bound7
  { s with
    ingest := { s.ingest with ports := [(63, { wait := [block7] })] }
    reeve := { s.reeve with hubCredit := if k = 0 then [] else [(2 ^ 21 * 0x9F + 16 * 9 + 1, k)] } }

/-- Epoch 0 has begun, and the port has closed it. -/
def belling (k closed : Nat) : State :=
  let s := emitting k
  let s := { s with ingest := { s.ingest with ports := [(63, { closedTo := closed })], hold := [] } }
  { s with writer := { s.writer with st := .running, k := 1 } }

noncomputable def streamCmds : List Coming :=
  [{ st := binding7, d := bindD, sizes := [4, 4, 4, 4, 4, 2, 1, 1, 1, 1, 1] },
   { st := bound7, d := dsc 0x202 (256 * 63 + 7) [] [] }]

theorem test_stream_bindings_meet :
    (∀ c ∈ streamCmds, c.Holds) ∧
    (let a := bindD.arg [4, 4, 4, 4, 4, 2, 1, 1, 1, 1, 1]
     let s := binding7
     let x := s.ctxOf (a 0)
     a 0 < 2 ^ 17 ∧ a 3 ≠ 0 ∧ a 6 = 4 ∧ a 7 = 1 ∧ a 8 = 0 ∧ a 9 ≤ 1 ∧ a 10 = 0x7F ∧ x.st = .live ∧ x.shadow = false ∧
     x.cls = 2 ∧ (s.binding (256 * 63 + 7)).st ≠ .active ∧ s.graph (s.lifeGraph (a 0) x.gen) = some (body 2) ∧
     s.hubFull (256 * 63 + 7) { bound with blen := 4, stamp := true } = false) ∧
    (bound7.binding (256 * 63 + 7)).st ≠ .unbound ∧
    (((emitting 1).port 63).wait = block7 :: [] ∧ (emitting 0).hasCredit 0x9F 1 [(9, 1, 2)] = false ∧
      (emitting 1).hasCredit 0x9F 1 [(9, 1, 2)] = true ∧
      (emitting 1).twins block7.binding block7.ctx block7.gen block7.cell = [(9, 1, 2)] ∧
      ((emitting 1).ctxOf 9).partner = none) ∧
    (let s := belling 1 0
     s.portClosed 63 = 0 ∧ s.writer.st ≠ .stopped ∧ s.writer.beyond 0 = false ∧ 0 ≤ s.writer.k) ∧
    ((belling 1 1).bellDue (256 * 63 + 7) = true ∧ (belling 0 1).bellDue (256 * 63 + 7) = true ∧
      ((belling 1 1).binding (256 * 63 + 7)).stamp = false ∧ (belling 1 1).hasCredit 0x9F 1 [(9, 1, 2)] = true ∧
      (belling 0 1).hasCredit 0x9F 1 [(9, 1, 2)] = false) := by
  refine ⟨all_come (by decide +kernel), ?_⟩
  decide +kernel

theorem test_stream_bindings :
    okWith (exec (.bindStream 0 bindD (.data [])) binding7) 0 [] (fun t =>
      let b := t.binding (256 * 63 + 7)
      b == { st := .active, ctx := 9, gen := 1, cell := 2, node := 0, cls := 2, blen := 4, stamp := true, tach := 0x7F,
             scale := 0x3F800000, speriod := 1000, hist := 0xFFFF, made := 1 } && (t.ctxOf 9).bound == 1 && t.fabric.ctl.length == 1) = true ∧
    okWith (exec (.unbindStream 0 (dsc 0x202 (256 * 63 + 7) [] []) (.data [])) bound7) 0 [] (fun t =>
      t.binding (256 * 63 + 7) == {} && t.ingest.hold.get [] 7 == [{ block7 with binding := 5 }] &&
      t.ingest.bindCnt.get 0 (8 * (256 * 63 + 7) + BindCtr.inactiveDrop.ctorIdx) == 1) = true ∧
    after (exec (.blockEmit 63) (emitting 0)) (fun t => t.fabric.ctl.length == 1 && (t.port 63).wait == [block7]) = true ∧
    after (exec (.blockEmit 63) (emitting 1)) (fun t => (t.port 63).wait == [] && t.creditOf 0x9F 9 1 == 0 &&
      t.fabric.flight.map (fun f => (f.src, f.tok.payload, f.tok.tag.iter)) == [(0x9F, [1, 2], 4)]) = true ∧
    after (exec (.portEpochClose 63) (belling 1 0)) (fun t => (t.port 63).closedTo == 1 &&
      t.time.t64 == 1200000) = true ∧
    after (exec (.bellInject 16135) (belling 0 1)) (fun t => t.fabric.ctl.length == 1 && t.fabric.flight == []) = true ∧
    after (exec (.bellInject 16135) (belling 1 1)) (fun t => (t.binding 16135).bellNext == 1 &&
      t.fabric.flight.map (fun f => (f.src, f.tok.payload, f.tok.tag.bell)) == [(0x9F, [0, 0], true)]) = true := by
  decide +kernel

def withEvin (e : EvIn) (s : State := up) : State := { s with ingest := { s.ingest with evin := [(63, e)] } }
def two : State :=
  let s := withEvin { mode := .index }
  { s with ingest := { s.ingest with evin := [(5, { mode := .tach, indexIn := 63 }), (63, { mode := .index })] } }

/-- The input has been low from 5 ns on. -/
def filtered : EvIn := { mode := .event, level := some false, rawAt := 5 }

theorem test_event_inputs_meet :
    Comes two 0 (dsc 0x303 6 [] [] 48) 0x303 [] 0 false false ∧
    params [rowEnum 4, rowEnum 3, rowNat 1 65535, PRow.mk (fun v => decide (v < 64) || v == 0x7F) false,
      rowTime 1000000 1000000000000 1000000, rowTime 1000 1000000000 1000] (dsc 0x303 6 [] [] 48)
      (.data (recs [(1, 2), (4, 63), (3, 65535)])) = .ok [(1, 2), (4, 63), (3, 65535)] ∧
    ((two.evinAt 63).mode = .index ∧ two.evinNamed 6 = false ∧ two.isReady = true) ∧
    ((withEvin { mode := .event }).evinAt 63).mode ≠ .off ∧ EvEdge.rise.takes .fall = false ∧ EvEdge.rise.takes .rise = true ∧
    (two.evinAt 5).mode = .tach ∧ (two.evinAt 5).indexIn = 63 ∧
    ((withEvin filtered).evinAt 63).level = some (EvPulse.fall == .rise) ∧
    ((withEvin filtered).evinAt 63).level ≠ some (EvPulse.rise == .rise) ∧
    ((withEvin { evAt := some 7 }).evinAt 63).evAt = some 7 ∧ Tab.wf {} two.ingest.evin = true ∧
    ((withEvin { mode := .event }).evinAt 63).stuck = false := by
  refine ⟨comes_of (by decide +kernel), gives_of (by decide +kernel), ?_⟩
  decide +kernel

theorem test_event_inputs :
    okWith (exec (.eventInputConfig 0 (dsc 0x303 6 [] [] 48) (.data (recs [(1, 2), (4, 63), (3, 65535)]))) two) 0 [] (fun t =>
      t.evinAt 6 == { mode := .tach, indexIn := 63, ppr := 65535 }) = true ∧
    after (exec (.evinEdge 63 .merged 0) two) (fun t => (t.evinAt 63).window == 1 &&
      t.ingest.evCnt.get 0 (4 * 63 + EvCtr.overrate.ctorIdx) == 1) = true ∧
    after (exec (.evinEdge 63 .fall 0) two) (fun t => t.time.now == 0 &&
      (t.evinAt 63) == { mode := .index, level := some false } && t.ingest.evCnt == []) = true ∧
    after (exec (.evinEdge 63 .fall 0) (withEvin filtered)) (· == withEvin filtered) = true ∧
    after (exec (.evinEdge 63 .rise 0) (withEvin filtered)) (fun t => t.time.now == 25 &&
      (t.evinAt 63).level == some true && (t.evinAt 63).rawAt == 25 &&
      t.ingest.evCnt.get 0 (4 * 63 + EvCtr.edges.ctorIdx) == 1) = true ∧
    after (exec (.evinEdge 63 .rise 3) two) (fun t => (t.evinAt 5).indexed && (t.evinAt 5).idxPulses == some 0 &&
      t.ingest.evCnt.get 0 (4 * 63 + EvCtr.edges.ctorIdx) == 1) = true ∧
    after (exec (.evinEdge 63 .rise 3) (withEvin { mode := .event, stuck := true })) (fun t =>
      t.evinAt 63 == { mode := .event, window := 1, fresh := 1, evAt := some 0, evLast := 3, level := some true }) = true ∧
    after (exec (.evinEdge 63 .rise 3) (withEvin { mode := .tach })) (fun t => (t.evinAt 63).edges == [(3, 0)]) = true ∧
    after (exec (.evHoldoffExpiry 63) (withEvin { evAt := some 7 })) (fun t => (t.evinAt 63).evAt == none &&
      t.time.now == 1000007) = true ∧
    after (exec (.evHoldoffExpiry 63) (withEvin { evAt := some 7, evCount := 3 })) (fun t =>
      (t.evinAt 63).evAt == some 1000007 && (t.evinAt 63).evCount == 0 &&
      ((t.host.src.get {} 63).pend.map fun x => (x.cause, x.data0)) == some (0x10, 3)) = true ∧
    after (exec .rateWindowEnd (withEvin { mode := .event, window := 25001 })) (fun t =>
      t.evinAt 63 == { mode := .event, overrated := true } && t.time.t64 == 1000000) = true ∧
    after (exec (.stuckTimeout 63) (withEvin { mode := .event })) (fun t => (t.evinAt 63).stuck &&
      t.time.now == 1000000001) = true := by decide +kernel

/-! ### 25 Chain ports and bulk frames (R334, R341, R347-R354) -/

def chained (f : Chain → Chain) (s : State := up) : State := { s with chain := f s.chain }
def rootUp (f : Chain → Chain := id) (s : State := up) : State :=
  chained (fun c => f { c with role := .root, up := [1, 15], downPorts := 0x8002, cwLen := 10000 }) s
def bulk0 (dst src : Nat) (pl : List Byte := []) : Bulk :=
  { dst := dst, src := src, btype := 1, dir := false, bseq := 3, tSend := 0, payload := pl }

def importing : State := rootUp id { binding7 with chain := binding7.chain }

def learnt : State := rootUp fun c => { c with learn :=
  [(5, { valid := true, port := 15, age := 7 }), (6, { valid := true, port := 1, age := 7 })] }

def pastWindow (s : State) : State := { s with time := { s.time with t64 := 50000 } }

def sending (acked : Nat) : State := rootUp fun c => { c with sends := [{ mask := 2, sent := 2, acked := acked, bseq := 4, t0 := 9 }] }

noncomputable def chainCmds : List Coming :=
  [{ st := importing, d := dsc 0x203 4095 [4, 2] [9, 4095], sizes := [4, 2] },
   { st := rootUp fun c => { c with imports := [(4095, { st := .active })] }, d := dsc 0x204 4095 [] [] },
   { st := rootUp, d := dsc 0x502 0x8000 [] [] 8 }]

def station0 : State := chained fun c => { c with
  role := .station, upPort := 1, up := [1], presentAt := some 5, learn := [(0, { valid := true, port := 1, age := 0 })] }

theorem test_chain_ports_meet :
    (∀ c ∈ chainCmds, c.Holds) ∧
    (let s := rootUp fun c => { c with up := [1] }
     popCount 64 0x7FFF < 16 ∧ 16 ≤ popCount 64 0xFFFF ∧ rootUp.chain.passLat.get none (16 * 1 + 15) = none ∧
     15 ∈ s.chain.named ∧ 15 ∉ s.chain.up ∧ 0x97 ∉ s.power.hubOff) ∧
    (15 ∈ rootUp.chain.up ∧ rootUp.chain.role = .root) ∧
    (let x := importing.ctxOf 9
     x.st = .live ∧ x.shadow = false ∧ 2 ≤ x.cls ∧ (importing.import_ 4095).st ≠ .active ∧
     importing.graph (importing.lifeGraph 9 x.gen) = some (body 2)) ∧
    (rootUp.chain.window = some (100000, 10000) ∧ (2 + (8 + 36 + 7) / 8) * 128 ≤ (100000 - 10000) * 100 ∧
      ((List.range 16).filter fun p => (0x8000#16).getLsbD p && rootUp.chain.up.contains p) = [15]) ∧
    ((sending 0).chain.sends = { mask := 2, sent := 2, acked := 0, bseq := 4, t0 := 9 } :: []) ∧
    rootUp.chain.measureAt.get none 15 = none ∧ (station0.chain.role = .station ∧ station0.chain.presentAt = some 5) ∧
    (match station0.chain.route 0 none with | .ok p => p == 1 | .error _ => false) = true ∧
    (learnt.chain.learn.get {} 5).valid = true := by
  refine ⟨all_come (by decide +kernel), ?_⟩
  decide +kernel

theorem test_chain_ports :
    after (exec (.chainLinkDown ⟨15, 0xFFFF, 3⟩) rootUp) (fun t => t.chain.up == [1] &&
      t.chain.portCnt.get 0 (8 * 15 + ChainPortCtr.linkDownCount.ctorIdx) == 1 &&
      t.chain.portCnt.get 0 (8 * 15 + ChainPortCtr.blockErr.ctorIdx) == 3 &&
      ((t.host.src.get {} 271).pend.map (·.cause)) == some 2) = true ∧
    after (exec (.chainLinkDown ⟨15, 0x7FFF, 3⟩) rootUp) (· == rootUp) = true ∧
    after (exec (.chainLinkUp ⟨15, 1⟩) (rootUp fun c => { c with up := [1] })) (fun t => t.chain.up == [1]) = true ∧
    okWith (exec (.bindImport 0 (dsc 0x203 4095 [4, 2] [9, 4095]) (.data [])) importing) 0 [] (fun t =>
      t.import_ 4095 == { st := .active, station := 4095, ctx := 9, gen := 1, cell := 2, node := 0, cls := 2 } &&
      t.fabric.ctl.length == 1) = true ∧
    okWith (exec (.unbindImport 0 (dsc 0x204 4095 [] []) (.data []))
      (rootUp fun c => { c with imports := [(4095, { st := .active })] })) 0 [] (fun t => t.import_ 4095 == {}) = true ∧
    after (exec (.chainSend 0 (dsc 0x502 0x8000 [] [] 8) (.data [1, 2, 3, 4, 5, 6, 7, 8])) rootUp) (fun t =>
      t.chain.queue == [(15, [{ bulk0 0 0 [1, 2, 3, 4, 5, 6, 7, 8] with btype := 2, bseq := 0 }])] &&
      t.chain.bseq == 1 && t.host.running.map (·.wait) == [.chainSend 0]) = true ∧
    after (exec .chainSendTimeout (sending 0)) (fun t => t.chain.sends == [] && t.time.now == 1000009) = true ∧
    after (exec (.delayMeasure 15) rootUp) (fun t => t.chain.measureAt.get none 15 == some 0 &&
      t.chain.delaySum.get none 15 == some (0, 0) && (t.chain.queue.get [] 15).map (·.btype) == [3]) = true ∧
    after (exec .presenceSend station0) (fun t => t.chain.presentAt == some 250000005 &&
      (t.chain.queue.get [] 1).map (fun b => (b.btype, b.dst)) == [(5, 0)]) = true ∧
    after (exec (.stationAgeExpiry 5) learnt) (fun t => t.time.now == 1000000007 &&
      t.chain.learn == [(6, { valid := true, port := 1, age := 7 })]) = true := by decide +kernel

/-- PASS_LAT is a free value between its bounds. -/
theorem test_chain_link_up : ∃ t,
    exec (.chainLinkUp ⟨15, 0⟩) (rootUp fun c => { c with up := [1] }) = .next t := ⟨_, rfl⟩

def bulkBytes : List Byte := (bulk0 5 6 [9, 8, 7, 6]).bytes
def queue15 (t : BitVec 64) : State :=
  let s := rootUp fun c => { c with queue := [(15, [bulk0 5 6 [9]])] }
  { s with time := { s.time with t64 := t } }

/-- A token for station 5: channel 7, port 1, two words. -/
def egress (w : Word) : Token := tok 2 0x94 5 0 [w, 0x22, 0x33, 0]
def egressing (w : Word) : State :=
  let k : Token := { egress w with tag := { (egress w).tag with len := 2 } }
  flying 5 [k] (rootUp (fun c => { c with learn := learnt.chain.learn }))
def egressTok (w : Word) : Token := { egress w with tag := { (egress w).tag with len := 2 } }

theorem test_chain_frames_meet :
    rootUp.time.t64.toNat % rootUp.chain.cycleLen < rootUp.chain.cwLen ∧
    ¬((pastWindow learnt).time.t64.toNat % learnt.chain.cycleLen < learnt.chain.cwLen) ∧
    parseBulk [1] = none ∧ parseBulk bulkBytes = some (bulk0 5 6 [9, 8, 7, 6]) ∧
    ((learnt.chain.learn.get {} 5).port = 15 ∧ (learnt.chain.learn.get {} 6).port = 1 ∧ learnt.chain.mode ≠ .ring) ∧
    (let b := bulk0 5 6 [9]
     (queue15 50000).chain.queue.get [] 15 = b :: [] ∧ (queue15 50000).chain.window = some (100000, 10000) ∧
     b.blocks * 128 ≤ (100000 - 10000) * 100 ∧ 10000 ≤ 50000 % 100000 ∧
     50000 * 100 + b.blocks * 128 ≤ 100000 * 100 ∧ 100000 * 100 < 99999 * 100 + b.blocks * 128) ∧
    (let k := egressTok 0x50007
     (egressing 0x50007).arrivable 5 k = true ∧ (egressing 0x50007).cutOff 0x94 = false ∧
     field (k.word 0) 17 16 ≠ 3 ∧ field (k.word 0) 20 18 = 1 ∧ 1 + 2 ^ 1 ≤ 2 ^ k.tag.len.toNat ∧
     field (k.word 0) 15 0 = 7 ∧ 5 ≠ (egressing 0x50007).stationId ∧
     (egressing 0x50007).chain.egressUsed + 16 ≤ 262144) ∧
    (match (egressing 0x50007).chain.route 5 none with | .ok p => p == 15 | .error _ => false) = true ∧
    (let k := egressTok 0x30007
     (egressing 0x30007).arrivable 5 k = true ∧ field (k.word 0) 17 16 = 3) := by decide +kernel

theorem test_chain_frames :
    after (exec (.bulkFrameReceived 1 bulkBytes 0 3) learnt) (fun t => t.chain.queue == [] &&
      t.chain.cnt.get 0 ChainCtr.cartPeerViol.ctorIdx == 1 && t.chain.portCnt.get 0 (8 + ChainPortCtr.blockErr.ctorIdx) == 3) = true ∧
    after (exec (.bulkFrameReceived 1 [1] 0 0) (pastWindow learnt)) (fun t => t.chain.queue == [] &&
      t.chain.portCnt.get 0 (8 + ChainPortCtr.bulkCrc.ctorIdx) == 1) = true ∧
    after (exec (.bulkFrameReceived 1 bulkBytes 0 0) (pastWindow learnt)) (fun t =>
      t.chain.queue == [(15, [bulk0 5 6 [9, 8, 7, 6]])] && (t.chain.learn.get {} 6).age == 0 &&
      t.chain.portCnt.get 0 (8 + ChainPortCtr.rxBulkBytes.ctorIdx) == 4) = true ∧
    after (exec (.bulkFrameSend 15 0) (queue15 50000)) (fun t => t.chain.queue.get [] 15 == [] &&
      t.out.length == 1 && t.chain.busyTo.get 0 15 == ((bulk0 5 6 [9]).blocks * 128 + 99) / 100 &&
      t.chain.portCnt.get 0 (8 * 15 + ChainPortCtr.txBulkBytes.ctorIdx) == 1) = true ∧
    after (exec (.bulkFrameSend 15 0) (queue15 99999)) (fun t => t.chain.queue.get [] 15 == [bulk0 5 6 [9]] &&
      t.chain.portCnt.get 0 (8 * 15 + ChainPortCtr.windowDefer.ctorIdx) == 1 && t.out == []) = true ∧
    after (exec (.chainEgressToken 5 (egressTok 0x50007) {}) (egressing 0x50007)) (fun t =>
      (t.chain.egress.get [] (4096 * 15 + 5)).length == 16) = true ∧
    after (exec (.chainEgressToken 5 (egressTok 0x30007) {}) (egressing 0x30007)) (fun t => t.chain.egress == [] &&
      t.chain.cnt.get 0 ChainCtr.chainFmt.ctorIdx == 1 && t.fabric.flight == []) = true := by decide +kernel

/-- The egress buffer is full, and a U token waits at it. -/
theorem test_egress_full_meets :
    let s := { egressing 0x50007 with chain :=
      { (egressing 0x50007).chain with egress := [(0, List.replicate 262144 0)] } }
    262144 < s.chain.egressUsed + 1 ∧ (egressTok 0x50007).isG = false ∧
    s.arrivable 5 (egressTok 0x50007) = true ∧ s.cutOff 0x94 = false := by
  refine ⟨?_, by decide +kernel, by decide +kernel, by decide +kernel⟩
  simp only [Chain.egressUsed, List.map_cons, List.map_nil, List.sum_cons, List.sum_nil, List.length_replicate]
  omega

/-! ### 26 The Cart (R335-R356) -/

/-- A Cart of cycle `n` from root 0 with slots for stations 1 to `k`. -/
def cart (n k : Nat) (flags : Nat := 0) (len : Nat := 100000) : List Byte :=
  let h := leBytes 2 n ++ leBytes 2 0 ++ leBytes 2 k ++ leBytes 2 flags ++ leBytes 8 (n * 100000) ++ leBytes 8 0 ++
    leBytes 4 len ++ leBytes 4 10000 ++ leBytes 6 0 ++ leBytes 2 (k + 1) ++ List.replicate 52 0#8
  cartSeal (h ++ List.replicate 4 0#8) ++ (List.range k).flatMap (fun i => slotOf (i + 1) 0 7 []) ++ List.replicate 16 0#8

def rejoining : State := chained fun c => { c with
  role := .station, st := .rejoining, id := some 2, upPort := 1, downPorts := 0x8000, up := [1, 15] }

/-- A root whose Cart is out on its ring. -/
def ringRoot (f : Chain → Chain := id) : State := chained fun c => f { c with
  role := .root, mode := .ring, up := [0, 1], sentCart := cart 3 2, id := some 0 }

/-- A root that counts `n` stations, with a cycle of `len`. -/
def counting (n len : Nat) : State := ringRoot fun c => { c with
  sentCart := cart 3 n 1, enumOut := true, cycleLen := len, slots := [newSlot 7] }

def gone1 : State := rootUp fun c => { c with
  slots := [{ newSlot 4095 with st := .detached, goneAt := 5 }, newSlot 1], foreignAt := some 6 }

/-- The chain configuration's rows. -/
def chainRows : List PRow :=
  [rowEnum 3, rowEnum 3, rowNat 0 15, rowNat 0 65535,
   PRow.mk (fun v => decide (v % 65536 < 16) && decide (v / 65536 < 16)) false, rowTime 5000 10000000 100,
   rowTime 100000000 60000000000 1000000, rowTime 1000000000 3600000000000 1000000000, rowNat 2 255]

def quietRoot : State := rootUp fun c => { c with up := [] }

noncomputable def cartCmds : List Coming :=
  [{ st := up, d := dsc 0x308 0 [] [] 32 }, { st := quietRoot, d := dsc 0x308 0 [] [] 16 },
   { st := rootUp, d := dsc 0x501 0 [] [] }]

set_option maxRecDepth 20000 in
theorem test_cart_commands_meet :
    (∀ c ∈ cartCmds, c.Holds) ∧
    params chainRows (dsc 0x308 0 [] [] 32) (.data (recs [(2, 2), (4, 0xFFFF)])) = .ok [(2, 2), (4, 0xFFFF)] ∧
    params chainRows (dsc 0x308 0 [] [] 16) (.data (recs [(6, 10000000)])) = .ok [(6, 10000000)] ∧
    (up.chain.up = [] ∧ up.attached = false ∧ quietRoot.attached = true ∧ quietRoot.chain.up = [] ∧
      ({ quietRoot.chain with cycleLen := 10000000 } : Chain).roomy 0 = true) ∧
    (rootUp.chain.role = .root ∧ rootUp.chain.enumWanted = false ∧ rootUp.chain.newcomer = false ∧
      rootUp.chain.launched = none) ∧
    (let h := readHdr (cart 65535 2)
     rejoining.chain.role = .station ∧ cartOk [0] = false ∧ cartOk (cart 65535 2) = true ∧
     (cart 65535 2).length = cartLen (cart 65535 2) ∧ rejoining.chain.seen = none ∧ rejoining.chain.lastCycle = none ∧
     rejoining.chain.unanswered = [] ∧ rejoining.chain.summaries = [] ∧ rejoining.chain.rootId = none ∧ 1 ∉ rejoining.chain.measured ∧ rejoining.chain.id = some 2 ∧ bit h.flags 0 = false ∧
     h.slots.findIdx? (· == 2) = some 1 ∧
     (let slot := bytesAt (cart 65535 2) (96 + 160) 160
      leAt slot 2 1 = 0 ∧ slotCcrc slot = leAt slot 136 4)) ∧
    (let s := ringRoot.chain.sentCart
     (bytesAt (cart 4 2) 0 2 ≠ bytesAt s 0 2) ∧ (fixedPart false false (cart 3 2) = fixedPart false false s) ∧
     (bytesAt (cart 3 2 0 200000) 0 2 = bytesAt s 0 2 ∧ bytesAt (cart 3 2 0 200000) 8 8 = bytesAt s 8 8 ∧
       fixedPart false false (cart 3 2 0 200000) ≠ fixedPart false false s) ∧
     (ringRoot.chain.enumOut = false ∧ ringRoot.chain.offered = none ∧ s ≠ []) ∧
     s.length = cartLen s ∧ cartOk (cart 3 2 0 200000) = true ∧ leAt s 38 2 % 4096 = 2 + 1 ∧
     ringRoot.writer.rootVarn = []) ∧
    (∀ n ∈ [0, 2], ∀ len ∈ [600, 100000], let s := (counting n len).chain.sentCart
     (counting n len).chain.enumOut = true ∧ fixedPart true false (cart 3 n 1) = fixedPart true false s ∧
     cartTrailer (cart 3 n 1) = cartTrailer s ∧ bytesAt (cart 3 n 1) 0 2 = bytesAt s 0 2 ∧
     bytesAt (cart 3 n 1) 8 8 = bytesAt s 8 8 ∧ leAt (cart 3 n 1) 38 2 % 4096 = n + 1 ∧
     cartOk (cart 3 n 1) = true ∧ (cart 3 n 1).length = cartLen (cart 3 n 1) ∧
     (n = 2 → (counting n len).chain.roomy n = decide (len = 100000))) ∧
    ((gone1.rootSlot 4095).map (·.st) = some .detached ∧ gone1.writer.rootVarn = [] ∧ gone1.chain.foreignAt = some 6) :=
  ⟨all_come (by decide +kernel), gives_of (by decide +kernel), gives_of (by decide +kernel), by decide +kernel⟩

set_option maxRecDepth 20000 in
theorem test_cart_commands :
    okWith (exec (.chainConfig 0 (dsc 0x308 0 [] [] 32) (.data (recs [(2, 2), (4, 0xFFFF)]))) up) 0 [] (fun t =>
      t.chain == { up.chain with mode := .tree, downPorts := 0xFFFF }) = true ∧
    okWith (exec (.chainConfig 0 (dsc 0x308 0 [] [] 16) (.data (recs [(6, 10000000)]))) quietRoot) 0 [] (fun t =>
      t.chain == { quietRoot.chain with cycleLen := 10000000 }) = true ∧
    after (exec (.enumerate 0 (dsc 0x501 0 [] []) (.data [])) rootUp) (fun t => t.chain.enumWanted &&
      t.host.running.map (·.wait) == [.enumerate]) = true ∧
    after (exec (.cartPass 1 [0] false 2) rejoining) (fun t => t.out == [.frame 15 [0]] &&
      t.chain.cnt.get 0 ChainCtr.cartHcrc.ctorIdx == 1) = true ∧
    after (exec .cartLossDetach rejoining) (fun t => t.chain.st == .detached && t.time.now == 300000) = true ∧
    after (exec (.cartReturn 0 1 (cart 3 2 0 200000) false ⟨1, 0, true⟩) ringRoot) (fun t => t == chained (s := ringRoot) fun c => { c with
      split := true, portCnt := [(ChainPortCtr.blockErr.ctorIdx, 1)], cnt := [(ChainCtr.cartPeerViol.ctorIdx, 1)] }) = true ∧
    ([(0, 100000, []), (2, 100000, [1, 2]), (2, 600, [7])].all fun e =>
      after (exec (.cartReturn 0 0 (cart 3 e.1 1) false ⟨0, 0, false⟩) (counting e.1 e.2.1)) fun t =>
        t.chain.slots.map (·.station) == e.2.2 && !t.chain.enumOut) = true ∧
    after (exec (.detachHoldExpiry 4095) gone1) (fun t => t.chain.slots == [newSlot 1] && t.time.now == 10000000005) = true ∧
    after (exec .rootConflictRearm gone1) (fun t => t.chain.foreignAt == none && t.time.now == 1000000006) = true := by
  decide +kernel


/-! ### 27 Epochs and results (R307-R330, R440) -/

def writing (f : Writer → Writer) (s : State := up) : State := { s with writer := f s.writer }
def ep (k : Nat) (ms : List Member := []) : EpochRec :=
  { k := k, members := ms, varnished := false, limit := false, unprotected := false, results := 0, poisoned := 0 }
def member9 (bells : Nat := 0) (judging : Bool := false) : Member :=
  { ctx := 9, gen := 1, graph := 1023, nsink := 2, bells := bells, shadowBells := 0, shadow := none, judging := judging
    closed := false, abandoned := false, gone := false, late := 0 }

/-- Epoch 5 is the earliest and epoch 6 runs, of 1 ms from 0. -/
def running56 (s : State := up) : State :=
  writing (fun w => { w with st := .running, k := 6, w := 5, firstK := 5, epochs := [ep 5 [member9], ep 6 [member9]] }) s

def epochRows : List PRow :=
  [rowTime 100000 10000000000 1000, rowTime 100000 100000000000 1000, rowTime 50000 10000000000 1000,
   PRow.mk (fun v => v % 2 ^ 26 == 0 && decide (2 ^ 26 ≤ v) && decide (v ≤ 2 ^ 30)) false]

/-- EPOCH_CONFIG with request `q` at time `t` and index `k`. -/
def epochD (q t k : Nat) (n : Nat := 0) : Desc := dsc 0x307 0 [8, 4, 2, 1] [t, k % 2 ^ 32, k / 2 ^ 32, q] n

noncomputable def epochCmds : List Coming :=
  [{ st := running56, d := epochD 0 0 0 16, sizes := [8, 4, 2, 1] },
   { st := up, d := epochD 1 1000000 (2 ^ 48 - 1) 32, sizes := [8, 4, 2, 1] },
   { st := running56, d := epochD 2 7 0 16, sizes := [8, 4, 2, 1] },
   { st := running56, d := epochD 3 7 0, sizes := [8, 4, 2, 1] }]

theorem test_epoch_commands_meet :
    (∀ c ∈ epochCmds, c.Holds) ∧
    params epochRows (epochD 0 0 0 16) (.data (recs [(2, 250000)])) = .ok [(2, 250000)] ∧
    params epochRows (epochD 1 1000000 0 32) (.data (recs [(1, 201000), (4, 2 ^ 30)])) = .ok [(1, 201000), (4, 2 ^ 30)] ∧
    params epochRows (epochD 2 7 0 16) (.data (recs [(1, 201000)])) = .ok [(1, 201000)] ∧
    params epochRows (epochD 3 7 0) (.data []) = .ok [] ∧
    (let lag := up.maxLag fun _ => true
     lag = 200000 ∧ recLen (epochD 3 7 0) true = [] ∧ up.writer.st = .stopped ∧ up.writer.req = none ∧
     up.writer.lastK = none ∧ lag < 201000 ∧ lag + 50000 ≤ 250000 ∧ up.chain.role = .off ∧ running56.writer.st = .running) ∧
    ((writing fun w => { w with req := some (.start 5 7 none) }).writer.req = some (.start 5 7 none) ∧
      Tab.wf {} (writing fun w => { w with req := some (.start 5 7 none) }).cells = true) ∧
    (running56.writer.st = .running ∧ running56.writer.lastK = none ∧ running56.writer.req = none ∧
      running56.writer.tb 7 = 7000000 ∧ (7000000#64 ≤ running56.writer.tb 7) ∧ (6999999#64 < running56.writer.tb 7) ∧
      laterT 7000000 (running56.writer.tb 7) = false ∧ laterT (running56.writer.tb 7) 6999999 = true ∧
      laterT (running56.writer.tb 7) 7000000 = false ∧ laterT (up.time.t64 + 1000000) 1000000 = false) ∧
    (up.cell 127).tally.get 0 (2 * 131071 + 1) = 0 ∧ up.fabric.iso.contains 127 = false ∧
    (running56.writer.epoch 5 = some (ep 5 [member9]) ∧ 5 < running56.writer.k ∧ member9.isOpen = true) ∧
    (writing fun w => { w with rootVarn := [(5, 3)] }).writer.rootVarn = [(5, 3)] :=
  ⟨all_come (by decide +kernel), gives_of (by decide +kernel), gives_of (by decide +kernel), gives_of (by decide +kernel),
    gives_of (by decide +kernel), by decide +kernel⟩

theorem test_epoch_commands :
    okWith (exec (.epochConfig 0 (epochD 0 0 0 16) (.data (recs [(2, 250000)]))) running56) 0 [] (fun t =>
      t.writer == { running56.writer with varnishLimit := 250000 }) = true ∧
    okWith (exec (.epochConfig 0 (epochD 1 1000000 (2 ^ 48 - 1) 32) (.data (recs [(1, 201000), (4, 2 ^ 30)]))) up) 0 [] (fun t =>
      t.writer == { up.writer with req := some (.start 1000000 (2 ^ 48 - 1) (some 201000)), stageMiB := 1024 }) = true ∧
    okWith (exec (.epochConfig 0 (epochD 2 7 0 16) (.data (recs [(1, 201000)]))) running56) 0 [] (fun t =>
      t.writer == { running56.writer with req := some (.length 7 201000) }) = true ∧
    okWith (exec (.epochConfig 0 (epochD 3 7 0) (.data [])) running56) 0 [] (fun t =>
      t.writer == { running56.writer with req := some (.stop 7) }) = true ∧
    after (exec .epochStart (writing fun w => { w with req := some (.start 5 7 none) })) (fun t =>
      t.writer.k == 7 && t.writer.w == 7 && t.writer.origin == 5 && t.writer.epochs == [ep 7] && t.writer.len == 1000000 &&
      t.time.t64 == 5) = true ∧
    after (exec .epochBoundary running56) (fun t => t.writer.k == 7 && t.time.t64 == 7000000 &&
      t.writer.epochs == [ep 5 [member9], ep 6 [member9], ep 7] && t.host.evtNext == 7) = true ∧
    after (exec .epochBoundary (writing (s := running56) fun w => { w with req := some (.length 7000000 201000) })) (fun t =>
      t.writer.k == 7 && t.writer.len == 201000 && t.writer.origin == 7000000 && t.writer.kOrigin == 7) = true ∧
    after (exec .epochBoundary (writing (s := running56) fun w => { w with req := some (.stop 6999999) })) (fun t =>
      t.writer.k == 6 && t.writer.lastK == some 6 && t.writer.req == none) = true ∧
    after (exec .epochBoundary (writing (s := running56) fun w => { w with req := some (.stop 7000000) })) (fun t =>
      t.writer.k == 7 && t.writer.lastK == none && t.writer.req == some (.stop 7000000)) = true ∧
    after (exec .varnishLimitReached running56) (fun t => t.time.t64 == 8000000 &&
      t.writer.epochs.map (·.limit) == [true, false]) = true ∧
    after (exec .settleLimitExpiry (writing fun w => { w with rootVarn := [(5, 3)] })) (fun t => t.time.now == 4000003 &&
      t.writer.rootVarn == [] && t.writer.settled == some (5, 0)) = true := by decide +kernel

/-- A token to DEST `dest` of a context's generation 1, with epoch parity 1. -/
def res (dest : BitVec 8) (esel : BitVec 16) (flags : BitVec 5) (l : List Word) : Token :=
  let k := tok 2 dest esel flags l
  { k with tag := { k.tag with epar := true } }

def resulting (k : Token) : State :=
  let s := running9 live9 (loaded 2)
  let g : GraphBody := { body 2 with resultSlots := 4, nsink := 2 }
  flying 5 [k] (running56 { s with reeve := { s.reeve with graphs := [(1023, some g)] } })

/-- Epoch 5 is varnished for the member, so that parity 1 is epoch 7. -/
def later7 (k : Token) : State :=
  writing (s := resulting k) fun w => { w with w := 6, k := 7, epochs := [ep 6 [member9], ep 7 [member9]] }

def audited (sum : BitVec 64) : State :=
  let s := running9 live9 (loaded 2)
  let s := { s with reeve := { s.reeve with ctx := [(9, { live9 with partner := some 10 }), (10, { live9 with shadow := true })] } }
  let t := running56 s
  let t := writing (s := t) fun w => { w with epochs := [ep 5 [member9 2 true]] }
  { t with cells := [(2, { auditSum := [(19, sum)] })] }

def gap1 (k : Nat) : Gap :=
  { k := k, type := 3, ctx := 9, gen := 1, graph := 1023, source := 0, count := 1, tFirst := 0, late := false }

def closing : State :=
  writing (s := running56) fun w => { w with epochs := [ep 5 [{ member9 with closed := true }], ep 6], lastK := some 6 }
def last5 : State := writing (s := closing) fun w => { w with k := 5, lastK := some 5, epochs := [ep 5] }

def published : State :=
  let s := resulting (res 0x91 3 0 [1])
  writing (s := s) fun w => { w with
    banks := [(1023, { published := { valid := true, k := 4, vseq := 9 } })], reports := [{ k := 4, bytes := [1, 2] }] }

/-- The state with the token at its port from a chain hub, or as cell 5's item in the intake. -/
def fromHub (s : State) (k : Token) : State := flying 0x94 [k] s
def taken5 (s : State) (k : Token) : State :=
  writing (s := flying 5 [] s) fun w => { w with intake := [(5, some k)], notices := [gap1 3] }

/-- A gap notice is due, and a cell's token comes or waits. -/
def due16 (s : State) : State := writing (s := s) fun w => { w with notices := [gap1 3], run := 16 }
def before16 (k : Token) : State := writing (s := taken5 (resulting k) k) fun w => { w with run := 15 }

noncomputable def resultCmds : List Coming :=
  [{ st := published, d := dsc 0x401 1023 [4, 2, 2, 2] [4, 0, 3, 1] 4224, sizes := [4, 2, 2, 2], need := 4224 },
   { st := published, d := dsc 0x402 0 [4, 2] [4, 0] 16480, sizes := [4, 2], need := 16480 }]

theorem test_result_commands_meet :
    (∀ c ∈ resultCmds, c.Holds) ∧
    (let k := res 0x91 3 0 [7, 8]
     let s := resulting k
     s.arrivable 5 k = true ∧ s.cutOff 0x91 = false ∧ s.lifeGraph 9 1 = 1023 ∧
     (s.graph 1023).map (·.resultSlots) = some 4 ∧ k.tag.bell = false ∧ k.tag.esel.toNat = 3 ∧
     s.resultEpoch 9 1 true true = some 5 ∧ s.writer.w = 5 ∧ (s.bankOf 1023).work.slots.get none 3 = none ∧
     (later7 k).resultEpoch 9 1 true true = some 7 ∧ (later7 k).writer.w = 6 ∧ (later7 k).arrivable 5 k = true ∧
     (later7 k).writer.stage.length < (later7 k).writer.stageCap) ∧
    (∀ k ∈ [res 0x91 3 0 [7, 8], res 0x91 0 8 [5, 0]],
      (128 ≤ 0x94 ∧ (fromHub (resulting k) k).arrivable 0x94 k = true) ∧
      (let s := taken5 (resulting k) k
       5 < 128 ∧ s.writer.intake.get none 5 = some k ∧ (∀ f ∈ s.fabric.flight, s.atWriter f = false) ∧
       s.writer.turn = some 5 ∧ s.writer.run < 16) ∧
      (fromHub (resulting k) k).cutOff 0x91 = false ∧ (taken5 (resulting k) k).cutOff 0x91 = false) ∧
    (let k := res 0x91 3 0 [7, 8]
     let s := due16 (resulting k)
     s.arrivable 5 k = true ∧ s.cutOff 0x91 = false ∧ s.writer.intake = [] ∧
     (∀ f ∈ s.fabric.flight, f.src = 5 ∧ f.tok = k) ∧ s.writer.notices ≠ [] ∧ 16 ≤ s.writer.run ∧
     (before16 k).writer.turn ≠ none ∧ (before16 k).writer.run < 16 ∧
     (before16 k).writer.notices[0]? = some (gap1 3)) ∧
    (let k := res 0x91 0 8 [5, 0]
     let s := resulting k
     k.tag.bell = true ∧ s.arrivable 5 k = true ∧ (s.ctxOf 9).shadow = false ∧
     s.writer.epochs.find? (fun x => x.k % 2 ^ 48 == k.word 0 + k.word 1 % 2 ^ 16 * 2 ^ 32) = some (ep 5 [member9]) ∧
     decide (k.word 0 % 2 = 1) = k.tag.epar ∧ (ep 5 [member9]).member 9 1 = some member9 ∧ member9.isOpen = true ∧
     member9.shadow = none ∧ member9.bells + 1 < member9.nsink ∧ (member9 1).bells + 1 = (member9 1).nsink) ∧
    ((audited 0).writer.epochs.find? (fun y => y.members.any fun m => m.ctx == 9 && m.judging && m.isOpen) =
       some (ep 5 [member9 2 true]) ∧ ((audited 0).ctxOf 9).partner = some 10 ∧
      (audited 0).auditOf 9 true = (audited 0).auditOf 10 true ∧
      (audited 1).auditOf 9 true ≠ (audited 1).auditOf 10 true) ∧
    (writing fun w => { w with notices := [gap1 3] }).writer.notices[0]? = some (gap1 3) ∧
    (closing.varnishable (ep 5 [{ member9 with closed := true }]) = true ∧ closing.writer.epoch closing.writer.w =
      some (ep 5 [{ member9 with closed := true }]) ∧ last5.varnishable (ep 5) = true ∧ last5.writer.epoch 5 = some (ep 5)) ∧
    ((published.bankOf 1023).published.valid = true ∧ (published.graph 1023).map (·.resultSlots) = some 4 ∧ 3 + 1 ≤ 4) := by
  refine ⟨all_come (by decide +kernel), by decide +kernel, by decide +kernel, by decide +kernel, ?_⟩
  decide +kernel

theorem test_result_commands :
    (let k := res 0x91 4 0 [7, 8]
     after (exec (.resultToken 5 k {}) (resulting k)) fun t => t.fabric.flight == [] &&
       t.writer.cnt.get 0 VarnCtr.resRange.ctorIdx == 1 && t.writer.banks == []) = true ∧
    (let k := res 0x91 3 0 [7, 8]
     after (exec (.resultToken 5 k {}) (resulting k)) fun t =>
       (((t.bankOf 1023).work.slots.get none 3).map fun x => (x.payload, x.k, x.tag)) == some ([7, 8], 5, k.tag.pack) &&
       t.writer.cnt.get 0 VarnCtr.resWritten.ctorIdx == 1) = true ∧
    (let k := res 0x91 3 0 [7, 8]
     after (exec (.resultToken 5 k {}) (later7 k)) fun t =>
       t.writer.stage.map (fun x => (x.graph, x.slot, x.img.k)) == [(1023, 3, 7)] && t.writer.banks == []) = true ∧
    (let k := res 0x91 0 8 [5, 0]
     after (exec (.bellAtWriter 5 k {}) (resulting k)) fun t =>
       t.writer.epochs == [ep 5 [member9 1], ep 6 [member9]]) = true ∧
    (let k := res 0x91 0 8 [5, 0]
     after (exec (.bellAtWriter 5 k {}) (writing (s := resulting k) fun w => { w with
       epochs := [ep 5 [member9 1], ep 6 [member9]] })) fun t =>
       ((t.writer.epoch 5).bind (·.member 9 1)).map (fun z => (z.closed, z.bells)) == some (true, 2)) = true ∧
    (let k := res 0x91 3 0 [7, 8]
     after (exec (.resultToken 0x94 k {}) (fromHub (resulting k) k)) fun t => t.fabric.flight == [] &&
       ((t.bankOf 1023).work.slots.get none 3).isSome && t.writer.run == 0) = true ∧
    (let k := res 0x91 3 0 [7, 8]
     after (exec (.resultToken 5 k {}) (taken5 (resulting k) k)) fun t => t.writer.intake == [] &&
       ((t.bankOf 1023).work.slots.get none 3).isSome && t.writer.run == 1 && t.writer.next == 6) = true ∧
    (let k := res 0x91 3 0 [7, 8]
     after (exec (.resultToken 5 k {}) (due16 (resulting k))) fun t =>
       t.writer.intake == [(5, some k)] && t.writer.banks == [] && t.fabric.flight == []) = true ∧
    after (exec (.gapNotice 0) (before16 (res 0x91 3 0 [7, 8]))) (· == before16 (res 0x91 3 0 [7, 8])) = true ∧
    after (exec (.auditVerdict 9) (audited 0)) (fun t =>
      ((t.writer.epoch 5).bind (·.member 9 1)).map (·.closed) == some true &&
      t.watch.cnt.get 0 WatchCtr.auditAgree.ctorIdx == 1) = true ∧
    after (exec (.auditVerdict 9) (audited 1)) (fun t =>
      ((t.writer.epoch 5).bind (·.member 9 1)).map (·.closed) == some true && (t.cell 2).auditSum == [] &&
      t.writer.entries.map (·.type) == [0x42] && t.watch.raises.map (fun x => (x.src, x.fcode)) == [(235, 0x68)]) = true ∧
    after (exec (.gapNotice 0) (writing fun w => { w with notices := [gap1 3, gap1 4], w := 4 })) (fun t =>
      t.writer.notices == [gap1 4] && t.writer.gaps == [{ gap1 3 with late := true }]) = true ∧
    after (exec .varnish closing) (fun t => t.writer.w == 6 && t.writer.vseq == 1 && t.writer.reports.length == 1 &&
      t.writer.st == .running && (t.writer.settled.map (·.1)) == some 5) = true ∧
    after (exec .varnish last5) (fun t => t.writer.st == .stopped && t.writer.lastK == none) = true ∧
    okWith (exec (.readReport 0 (dsc 0x402 0 [4, 2] [4, 0] 16480) (.data [])) published) 2 [1, 2] = true ∧
    after (exec (.readResults 0 (dsc 0x401 1023 [4, 2, 2, 2] [4, 0, 3, 1] 4224) (.data [])) published) (fun t =>
      ((t.cmdRing 0).item.map fun x => (x.status, x.result)) == some (0, 9)) = true := by decide +kernel

/-! ### 28 Actuation ports, the Noticeboard and the trips (R360-R382) -/

def acting (p : ActPort) (f : ActUnit → ActUnit := id) (s : State := up) : State :=
  { s with act := f { s.act with ports := [(15, p)] } }

/-- A native frame whose header has ended. -/
def got : ActFrame := { cfg := { mode := .native }, head := true }

def nat15 : ActPort := { cfg := { mode := .native }, up := true }

/-- A request header and its HCRC: KIND STATUS, SEQ 7. -/
def requestHead : BitVec 96 := BitVec.ofNat 96 (ofBE ([0x12, 0, 0, 7, 0, 0, 0, 0] ++ beBytes 4 99))

def requestCrc : BitVec 32 := BitVec.ofNat 32 (Crypto.crc32 (beBytes 12 requestHead.toNat))

def request : BitVec 128 := requestHead ++ requestCrc

def eth0 : EthHead := { dst := 0, src := 0, etype := 0 }
def req7 : NoticeReq := requestOf { mode := .native } eth0 request

def annD : Desc := dsc 0x503 0x8000 [4] [10] 32
def announcing : State :=
  let s := acting { nat15 with ann := some [1], annSeq := 1 } fun a => { a with
    sends := [{ mask := 0x8000, sent := 0x8000, acked := 0, due := 10000 }] }
  { s with host := { s.host with running := [{ ring := 1, desc := desc0, live := true, wait := .noticeSend 0x8000, t0 := 0 }] } }

def actRows : List PRow :=
  [rowEnum 3, rowEnum 2, rowEnum 2, rowNat 0 (2 ^ 48 - 1), rowNat 0x600 0xFFFF,
   PRow.mk winOk false, rowTime 10000 10000000000 1000, rowNat 1 65535]

/-- A port for Ethernet frames to address 7, and one on which a change to MODE OFF waits for an answer. -/
def eth15 : ActPort := { cfg := { mode := .ethernet, mac := 7, etype := 0x88F7 }, up := true }
def ethHead (dst : BitVec 48) : EthHead := { dst := dst, src := 0, etype := 0x88F7 }
def changing : ActPort :=
  { nat15 with tx := true, txCut := 20, next := [{ cfg := { mode := .native, timeout := 10000 }, rx := false, tx := true }] }

def offD : Desc := dsc 0x302 15 [] [] 16
def off : List Byte := recs [(1, 0)]

noncomputable def noticeCmds : List Coming :=
  [{ st := up, d := dsc 0x302 15 [] [] 32 }, { st := acting nat15, d := offD },
   { st := acting { nat15 with rx := some got }, d := offD }, { st := acting changing, d := offD }, { st := acting nat15, d := annD, sizes := [4], need := 32 }]

theorem test_notice_ports_meet :
    (∀ c ∈ noticeCmds, c.Holds) ∧
    params actRows (dsc 0x302 15 [] [] 32) (.data (recs [(1, 1), (6, 0xFFF0FFF)])) = .ok [(1, 1), (6, 0xFFF0FFF)] ∧
    params actRows offD (.data off) = .ok [(1, 0)] ∧
    (((acting nat15).actPort 15).next = [] ∧ ((acting nat15).actPort 15).tx = false ∧ got.head = true ∧
      ((acting eth15).actPort 15).rx = none ∧ eth15.cfg.mode = .ethernet ∧ (ethHead 7).dst.toNat = eth15.cfg.mac ∧
      (ethHead 7).etype.toNat = eth15.cfg.etype ∧ (ethHead 8).dst.toNat ≠ eth15.cfg.mac ∧
      ((acting changing).actPort 15).tx = true ∧ changing.cfg.mode ≠ .off ∧
      (acting { nat15 with tx := true }).actPort 15 = { nat15 with tx := true }) ∧
    ((acting { nat15 with up := false }).actPort 15).up = false ∧ (up.isReady = true ∧ up.power.rest = false) ∧
    ((acting nat15).actPort 15).silent = false ∧ ((acting nat15).actPort 15).rx = none ∧
    (Crypto.crc32 (beBytes 12 requestHead.toNat) = hdrAt request 12 4 ∧ hdrAt request 1 1 = 0 ∧
      ¬Crypto.crc32 (beBytes 12 ((0#128).toNat / 2 ^ 32)) = hdrAt 0 12 4) ∧
    (((acting { nat15 with tx := true, waiting := some req7 }).actPort 15).waiting ≠ none ∧
      ((acting { nat15 with waiting := some req7 }).actPort 15).tx = false ∧
      ((acting { nat15 with rx := some got, errRaised := true }).actPort 15).rx = some got ∧
      ((acting nat15).actPort 15).ann = none ∧ annD.target.toNat = 2 ^ 15 ∧ annD.arg [4] 0 = 10) ∧
    announcing.act.sends.find? (fun x => bit x.sent 15 && !bit x.acked 15) =
      some { mask := 0x8000, sent := 0x8000, acked := 0, due := 10000 } :=
  ⟨all_come (by decide +kernel), gives_of (by decide +kernel), gives_of (by decide +kernel), by decide +kernel⟩

theorem test_notice_ports :
    okWith (exec (.actPortConfig 0 (dsc 0x302 15 [] [] 32) ⟨.data (recs [(1, 1), (6, 0xFFF0FFF)]), false⟩) up) 0 [] (fun t =>
      t.actPort 15 == { cfg := { mode := .native, winFirst := 0xFFF } }) = true ∧
    okWith (exec (.actPortConfig 0 offD ⟨.data off, false⟩) (acting nat15)) 0 [] (fun t =>
      !(t.actPort 15).up && (t.actPort 15).cfg.mode == .off) = true ∧
    okWith (exec (.actPortConfig 0 offD ⟨.data off, true⟩) (acting nat15)) 0 [] (fun t =>
      (t.actPort 15).up && (t.actPort 15).cfg.mode == .native && (t.actPort 15).rx == some { got with head := false } &&
      (t.actPort 15).next.map (·.cfg.mode) == [.off]) = true ∧
    okWith (exec (.actPortConfig 0 offD ⟨.data off, false⟩) (acting { nat15 with rx := some got })) 0 [] (fun t =>
      (t.actPort 15).up && (t.actPort 15).cfg.mode == .native && (t.actPort 15).next.map (·.rx) == [true]) = true ∧
    after (exec (.actLinkUp 15) (acting { nat15 with up := false })) (fun t =>
      (t.actPort 15).up && (t.actPort 15).heard == 1000000) = true ∧
    (let s := acting { nat15 with up := false }
     after (exec (.actLinkUp 15) { s with power := { s.power with hubOff := [0x93] } }) fun t => !(t.actPort 15).up) = true ∧
    after (exec (.actLinkDown ⟨15, 9⟩) (acting changing)) (fun t =>
      t.actPort 15 == { nat15 with up := false, cfg := { mode := .native, timeout := 10000 } } &&
      t.out == [.answerCut 15 9] && t.act.portCnt.get 0 (32 * 15 + ActCtr.linkDown.ctorIdx) == 1) = true ∧
    after (exec (.actLinkDown ⟨15, 99⟩) (acting changing)) (fun t => t.out == [.answerCut 15 20]) = true ∧
    after (exec (.answerSent ⟨15, false⟩) (acting changing)) (fun t =>
      t.actPort 15 == { nat15 with cfg := { mode := .native, timeout := 10000 } }) = true ∧
    after (exec (.answerSent ⟨15, true⟩) (acting { nat15 with tx := true })) (fun t =>
      t.actPort 15 == { nat15 with rx := some { got with head := false } }) = true ∧
    after (exec (.noticeRequest 15 (ethHead 8) requestHead requestCrc []) (acting eth15)) (fun t => t.out == [] &&
      t.act.portCnt.get 0 (32 * 15 + ActCtr.notNotice.ctorIdx) == 1) = true ∧
    after (exec (.noticeRequest 15 (ethHead 7) requestHead requestCrc []) (acting eth15)) (fun t =>
      t.out == [.answer 15 ((acting eth15).answerBytes 15 (requestOf eth15.cfg (ethHead 7) request))]) = true ∧
    after (exec (.requestFrameEnd 15 65 false) (acting { eth15 with rx := some { cfg := eth15.cfg, head := true } })) (fun t =>
      (t.actPort 15).errs == 2 && (t.actPort 15).rx == none) = true ∧
    after (exec (.peerSilent 15) (acting nat15)) (fun t => (t.actPort 15).silent && t.time.now == 1000000) = true ∧
    after (exec (.noticeRequest 15 eth0 0 0 []) (acting nat15)) (fun t => t.out == [] &&
      t.act.portCnt.get 0 (32 * 15 + ActCtr.hdrCrc.ctorIdx) == 1 && (t.actPort 15).rx == some got) = true ∧
    after (exec (.noticeRequest 15 eth0 requestHead requestCrc []) (acting { nat15 with silent := true })) (fun t =>
      t.out == [.answer 15 ((acting nat15).answerBytes 15 req7)] && (t.actPort 15).tx && !(t.actPort 15).silent) = true ∧
    after (exec (.noticeRequest 15 eth0 requestHead requestCrc []) (acting { nat15 with tx := true })) (fun t => t.out == [] &&
      (t.actPort 15).waiting == some req7 && t.act.portCnt.get 0 (32 * 15 + ActCtr.answerQueued.ctorIdx) == 1) = true ∧
    after (exec (.noticeRequest 15 eth0 requestHead requestCrc []) (acting { nat15 with tx := true, waiting := some req7 })) (fun t =>
      t.out == [] && t.act.portCnt.get 0 (32 * 15 + ActCtr.reqOverflow.ctorIdx) == 1) = true ∧
    after (exec (.queuedAnswerStart 15 []) (acting { nat15 with waiting := some req7 })) (fun t =>
      t.out == [.answer 15 ((acting nat15).answerBytes 15 req7)] && (t.actPort 15).waiting == none) = true ∧
    after (exec (.answerSent ⟨15, false⟩) (acting { nat15 with tx := true })) (· == acting nat15) = true ∧
    after (exec (.requestFrameEnd 15 1 true) (acting { nat15 with rx := some got, errRaised := true })) (fun t =>
      (t.actPort 15).rx == none && (t.actPort 15).errs == 1 &&
      t.act.portCnt.get 0 (32 * 15 + ActCtr.lenErr.ctorIdx) == 1) = true ∧
    after (exec (.noticeSend 0 annD (.data (List.replicate 32 5#8))) (acting nat15)) (fun t =>
      (t.actPort 15).ann == some (List.replicate 32 5#8) && (t.actPort 15).annSeq == 1 &&
      t.act.sends == [{ mask := 0x8000, sent := 0x8000, acked := 0, due := 10000 }] && t.host.running.length == 1) = true ∧
    after (exec (.annWaitExpiry 15) announcing) (fun t => (t.actPort 15).ann == none && t.act.sends == [] &&
      t.host.running == [] && t.time.now == 10001 && ((t.cmdRing 1).item.map (·.status)) == some eTimeout) = true := by
  decide +kernel

def live0 : NbEntry := { enable := true, wclass := 2, st := .live, value := 5 }

/-- Entry 4095, map entry 255 on trip 31, all enabled. -/
def noted (e : NbEntry) (m : TripMap := { enable := true, mask := 0x80000000, wclass := 2 }) (lines : BitVec 16 := 0)
    (s : State := up) : State :=
  { s with act := { s.act with nb := [(4095, e)], map := [(255, m)], trips := [(31, { enable := true })], lines := lines } }

def nbTok (l : List Word := [9, 1]) (flags : BitVec 5 := 0) : Token := tok 2 0x92 4095 flags l
def tripTok (v : Word) (flags : BitVec 5 := 0) : Token :=
  let k := tok 2 0x93 255 flags [v]
  { k with tag := { k.tag with len := 0 } }

def nbRows : List PRow := [rowEnum 2, rowEnum 4, rowNat 10 100000000, rowNat 0 (2 ^ 64 - 1), rowNat 0 65535]
def mapRows : List PRow :=
  [rowEnum 2, rowNat 0 (2 ^ 32 - 1), rowEnum 4, { ok := fun v => v == 0 || (decide (10 ≤ v) && decide (v ≤ 100000000)) }]

def lined (e : NbEntry) (fl al : BitVec 16) : State :=
  let s := noted e { enable := true, mask := 0x80000000, wclass := 2, healthy := true } al
  { s with watch := { s.watch with lines := fl } }

noncomputable def nbCmds : List Coming :=
  [{ st := noted live0, d := dsc 0x504 4095 [2] [1] 32, sizes := [2] },
   { st := noted live0, d := dsc 0x505 (2 ^ 24 + 255) [] [] 32 }, { st := noted live0, d := dsc 0x505 31 [] [] 16 }]

theorem test_noticeboard_and_trips_meet :
    (∀ c ∈ nbCmds, c.Holds) ∧
    params nbRows (dsc 0x504 4095 [2] [1] 32) (.data (recs [(4, 2 ^ 64 - 1), (3, 100000000)])) =
      .ok [(4, 2 ^ 64 - 1), (3, 100000000)] ∧
    params mapRows (dsc 0x505 (2 ^ 24 + 255) [] [] 32) (.data (recs [(2, 2 ^ 31), (4, 0)])) = .ok [(2, 2 ^ 31), (4, 0)] ∧
    params [rowEnum 2, rowNat 0 65535] (dsc 0x505 31 [] [] 16) (.data (recs [(2, 0x8000)])) = .ok [(2, 0x8000)] ∧
    (live0.st ≠ .forced ∧ live0.st ≠ .released ∧ (noted live0).act.lines &&& live0.fmask = 0 ∧ live0.judge 0 0 = live0 ∧ laterT 5 0 = true ∧
      (noted live0).act.maskForced 0x80000000 = false ∧ (noted live0).act.forced 0xFFFF = false ∧
      ((noted live0).act.trip 31).enable = true) ∧
    (let s := flying 0x91 [nbTok] (noted live0)
     s.arrivable 0x91 nbTok = true ∧ s.cutOff 0x92 = false ∧ nbTok.tag.esel.toNat = 4095 ∧ nbTok.tag.len.toNat = 1 ∧
     nbTok.tag.bell = false ∧ nbTok.tag.poison = false ∧ nbTok.tag.cls.toNat = live0.wclass) ∧
    (let s := flying 0x91 [tripTok 0] (noted live0)
     s.arrivable 0x91 (tripTok 0) = true ∧ s.cutOff 0x93 = false ∧ (tripTok 0).tag.esel.toNat = 255 ∧
     (tripTok 0).tag.len = 0 ∧ (s.act.map.get {} 255).enable = true ∧ (tripTok 0 16).tag.poison = true) ∧
    ((lined live0 0x8000 0).watch.lines.getLsbD 15 = true ∧ (lined live0 0x8000 0).act.lines.getLsbD 15 = false ∧
      (lined { live0 with st := .forced } 0 0x8000).watch.lines.getLsbD 15 = false) :=
  ⟨all_come (by decide +kernel), gives_of (by decide +kernel), gives_of (by decide +kernel), gives_of (by decide +kernel),
    by decide +kernel⟩

/-- No entry is aged or forced in that state. -/
theorem test_noticeboard_is_judged (k : Nat) :
    ((noted live0).nbEntry k).judge (noted live0).act.lines (noted live0).time.t64 = (noted live0).nbEntry k := by
  by_cases h : k = 4095
  · subst h; decide +kernel
  · have : (noted live0).nbEntry k = {} := by simp [State.nbEntry, noted, Tab.get, Ne.symm h]
    rw [this]; decide +kernel

theorem test_noticeboard_and_trips :
    okWith (exec (.nbProgram 0 (dsc 0x504 4095 [2] [1] 32) (.data (recs [(4, 2 ^ 64 - 1), (3, 100000000)]))) (noted live0)) 0 []
      (fun t => t.nbEntry 4095 == { live0 with maxAge := 100000000, safe := 2 ^ 64 - 1, st := .wait, fresh := 0 }) = true ∧
    okWith (exec (.tripConfig 0 (dsc 0x505 (2 ^ 24 + 255) [] [] 32) (.data (recs [(2, 2 ^ 31), (4, 0)]))) (noted live0)) 0 []
      (fun t => t.act.map.get {} 255 == { enable := true, mask := 0x80000000, wclass := 2 } &&
        !t.act.tripState.getLsbD 31) = true ∧
    okWith (exec (.tripConfig 0 (dsc 0x505 31 [] [] 16) (.data (recs [(2, 0x8000)]))) (noted live0)) 0 []
      (fun t => t.act.trip 31 == { enable := true, fmask := 0x8000 }) = true ∧
    ([({ live0 with st := .disabled }, NbCtr.nbDisabled), ({ live0 with wclass := 1 }, .wclassDrop), ({ live0 with st := .forced }, .forcedDrop)].all
      fun x => after (exec (.noticeboardWrite 0x91 nbTok {}) (flying 0x91 [nbTok] (noted x.1))) fun t =>
        t.nbEntry 4095 == x.1 && t.act.cnt.get 0 x.2.ctorIdx == 1 && t.fabric.flight == []) = true ∧
    after (exec (.noticeboardWrite 0x91 nbTok {}) (flying 0x91 [nbTok] (noted { live0 with st := .wait }))) (fun t =>
      t.nbEntry 4095 == { live0 with value := 0x100000009, fresh := 0 } && t.act.cnt.get 0 NbCtr.nbWrites.ctorIdx == 1) = true ∧
    after (exec (.noticeboardWrite 0x91 nbTok {}) (flying 0x91 [nbTok] (withTime (s := noted { live0 with st := .released })
      fun x => { x with t64 := 5 }))) (fun t => (t.nbEntry 4095).st == .live && (t.nbEntry 4095).fresh == 5) = true ∧
    ([(tripTok 0, true), (tripTok 1, false), (tripTok 0 16, false)].all fun x =>
      after (exec (.tripCommand 0x91 x.1 {}) (flying 0x91 [x.1] (noted live0))) fun t =>
        (t.act.map.get {} 255).healthy == x.2 && t.act.tripState.getLsbD 31 == x.2) = true ∧
    after (exec (.tripCommand 0x91 (tripTok 0) {}) (flying 0x91 [tripTok 0] (noted live0 {}))) (fun t =>
      t.act.cnt.get 0 NbCtr.tripBadEntry.ctorIdx == 1) = true ∧
    after (exec .tripAgeCheck (noted live0 { enable := true, mask := 0x80000000, maxAge := 10, healthy := true })) (fun t =>
      t.time.t64 == 1000) = true ∧
    after (exec (.forceLineAssert 15) (lined live0 0x8000 0)) (fun t => t.act.lines == 0x8000 &&
      (t.nbEntry 4095).st == .forced && !(t.act.map.get {} 255).healthy && !t.act.tripState.getLsbD 31) = true ∧
    after (exec (.forceLineDeassert 15) (lined { live0 with st := .forced } 0 0x8000)) (fun t => t.act.lines == 0 &&
      (t.nbEntry 4095).st == .released) = true := by decide +kernel

/-! ### 29 Resets and starts (R467-R478) -/

def fullReset (s : State) : State := { State.reset with
  time := { State.reset.time with now := s.time.now, t64 := s.time.t64, frac := s.time.frac }
  setup := { State.reset.setup with
    ppsInEdge := s.fuses.ppsInEdge, ppsOutWidth := s.fuses.ppsOutWidth, assetTag := s.fuses.assetTag }
  aon := s.aon, fuses := s.fuses, board := s.board, out := s.out, fresh := s.fresh, pending := s.pending }

def booting (k : Nat) (f : AlwaysOn → AlwaysOn := id) : State :=
  { State.reset with power := { State.reset.power with phase := .boot k }, aon := f State.reset.aon }
def failed3 : State := { State.reset with aon := { State.reset.aon with startFails := 3 } }
def pausing : State := { busy with power := { State.reset.power with phase := .pause true, pauseAt := 5 }, board := up.board }
where busy : State := flushUp

def bootedA : State := { keyed with power := { keyed.power with running := some ({ svn := 0, commit := false, version := 0, key := 0 }, false) } }

noncomputable def startCmds : List Coming :=
  [{ st := mode .lantern, d := dsc 0x70B 0 [] [], lantern := true, halted := true },
   { st := bootedA, d := dsc 0x705 0 [] [] 256, need := 256, lantern := true },
   { st := mode .lantern, d := dsc 0x70A 0 [] [] 128, need := 128, lantern := true }]

theorem test_start_commands_meet :
    (∀ c ∈ startCmds, c.Holds) ∧
    (pausing.power.phase = .pause true ∧ (mode .lantern).authorised = true) ∧
    (State.reset.power.phase = .held ∧ State.reset.board.refclk = true ∧ State.reset.board.supplyOut = [] ∧
      State.reset.aon.startFails ≠ 3 ∧ failed3.aon.startFails = 3 ∧ failed3.power.phase = .held) ∧
    ((booting 3).board.flash = true ∧ (booting 4).bootImage.isSome = true ∧ (booting 8).aon.keyPending = false ∧
      (booting 8).trace.syncDue = false ∧
      (booting 8).watch.fstate ≠ .halted ∧ (booting 8).power.phase = .boot 8 ∧ reasonAt 7 0x0A = true) ∧
    (imageLen (dsc 0x705 0 [] [] 256) (.data fwImage) = [] ∧ imageType (dsc 0x705 0 [] [] 256) (.data fwImage) 2 = [] ∧
      leAt (bufBytes (dsc 0x705 0 [] [] 256) (.data fwImage)) 16 4 ≤ 8 * 2 ^ 20 ∧
      bootedA.fuses = keyed.fuses ∧ up.fuses.authentic fwImage = false) ∧
    (mode .lantern).aon.hbmState.length = 4 := by
  refine ⟨all_come (by decide +kernel), ?_⟩
  decide +kernel

theorem test_start_commands :
    after (exec .powerUp flushUp) (· == fullReset flushUp) = true ∧
    after (exec .powerUp { up with aon := { up.aon with sealSt := .opened }, board := { up.board with refclk := false } })
      (fun t => t.watch.levels == [(240, 0x90), (242, 0x98)]) = true ∧
    after (exec .resetNAssert flushUp) (fun t => t == { fullReset flushUp with board := { up.board with resetLow := true } }) = true ∧
    after (exec .retryPauseExpiry pausing) (fun t => t.time.now == 10000005 && t == fullReset (pausing.reach 10000005)) = true ∧
    after (exec (.restart 0 (dsc 0x70B 0 [] []) (.data [])) (mode .lantern)) (fun t =>
      t == fullReset { mode .lantern with aon := { up.aon with startFails := 0 } }) = true ∧
    after (exec .alwaysOnReset up) (fun t => !t.aon.present && t.aon.sealSt == .unsealed && t.aon.hbmState == [2, 2, 2, 2]) = true ∧
    after (exec .resetRelease State.reset) (fun t => t.power.phase == .boot 1) = true ∧
    after (exec .resetRelease failed3) (fun t => t.power.phase == .lanternBoot 1) = true ∧
    ([(1, 2), (2, 3), (3, 4), (4, 5), (5, 6), (6, 7)].all fun x =>
      after (exec (.bootStageDone .ok) (booting x.1)) fun t => t.power.phase == .boot x.2) = true ∧
    after (exec (.bootStageDone (.cells [])) (booting 7)) (fun t => t.power.phase == .boot 8) = true ∧
    (let s := { booting 7 with fuses := { (booting 7).fuses with cellMap := [5, 131] } }
     after (exec (.bootStageDone (.cells [5, 6, 6])) s) (fun t => t.power.phase == .boot 8 && t.power.mappedOut == 3 &&
       t.aon.cellFail == [5, 6]) &&
     after (exec (.bootStageDone (.cells [5, 6, 7, 8])) s) fun t => t.power.phase == .pause false && t.aon.why0 == 0x0A) = true ∧
    after (exec (.bootStageDone .ok) (booting 8 fun a => { a with startFails := 2 })) (fun t => t.power.phase == .ready &&
      t.aon.startFails == 0) = true ∧
    after (exec (.bootStageDone (.fail 0x0A)) (booting 7 fun a => { a with startFails := 3, why0 := 9 })) (fun t =>
      t.power.phase == .pause false && t.aon.why0 == 10 && t.aon.why1 == 9 && t.aon.stage == 7 && t.aon.startFails == 3) = true ∧
    after (exec .startTimeout (booting 7)) (fun t => t.aon.why0 == 0x0D && t.time.now == 2000000000 && t.aon.tFail == 2000000) = true ∧
    after (exec .pcieLinkTrained (booting 1)) (fun t => t.host.linkUp) = true ∧
    badWith (exec (.fwUpdate 0 (dsc 0x705 0 [] [] 256) (.data fwImage)) up) eSig = true ∧
    okWith (exec (.lanternDiag 0 (dsc 0x70A 0 [] [] 128) (.data [])) (mode .lantern)) 128 (mode .lantern).diagBlock = true := by
  decide +kernel

/-! ### 30 Supplies, fences, REST and self-tests (R272, R479-R491) -/

def powering (f : Power → Power) (s : State := up) : State := { s with power := f s.power }
def boardUp (f : Board → Board) : State := { up with board := f up.board }

/-- Cell 127 under test. -/
def testing127 (st : TestState) (s : State := up) : State :=
  let s := powering (fun p => { p with cellTest := [(127, some { st := st, since := 5, aborted := false })] }) s
  { s with host := { s.host with running := [{ ring := 1, desc := desc0, live := true, wait := .cellTest 127, t0 := 0 }] } }

def fencing127 : State :=
  let s := testing127 .fenced
  { s with fabric := { s.fabric with fencing := [(127, 9)] } }

def undrained : State := testing127 .draining { up with cells := [(127, { que := { eb0 := [queued 2] } })] }

def fenced9F : State :=
  let s := up
  { s with fabric := { s.fabric with fencing := [(0x9F, 9)] } }
def off9F : State :=
  let s := powering fun p => { p with hubOff := [0x9F] }
  { s with fabric := { s.fabric with fenced := [0x9F] } }

def resting : State := powering fun p => { p with rest := true, hubOff := restHubs }
def hbm127 (seg : Nat) : State := powering fun p => { p with hbmTest := [(127, some { seg := seg, fail := 0 })] }
def lost15 : State :=
  let s := powering (fun p => { p with colLost := [15] }) { up with cells := [(127, { nodes := [(5, 7)] })] }
  { s with fabric := { s.fabric with iso := [15, 127] } }

noncomputable def testCmds : List Coming :=
  [{ st := up, d := dsc 0x602 127 [] [] }, { st := up, d := dsc 0x602 (2 ^ 24 + 127) [] [] }]

theorem test_power_and_tests_meet :
    (∀ c ∈ testCmds, c.Holds) ∧
    (8 ∉ up.board.supplyOut ∧ up.power.phase = .ready ∧ (boardUp fun b => { b with supplyOut := [8] }).board.supplyOut = [8]) ∧
    ((920#16).toInt ≤ 920 ∧ (5 ∉ up.power.tjCrit) ∧ (8 * up.reeve.hotLimit : Nat) ≤ (920#16).toInt ∧
      (0#16).toInt < (8 * up.reeve.hotLimit : Nat) ∧ (powering fun p => { p with hot := [5] }).power.hot.contains 5 = true ∧
      (0#16).toInt ≤ (8 * up.reeve.hotLimit : Nat) - 40) ∧
    (up.isReady = true ∧ up.hubIdle 0x9F = true ∧ 0x9F ∉ up.power.hubOff ∧ up.fabric.fencing = [] ∧ 0x9F ∉ up.fabric.fenced) ∧
    ((0x9F, 9) ∈ fenced9F.fabric.fencing ∧ fenced9F.hubIdle 0x9F = true) ∧
    (0x9F ∈ off9F.power.hubOff ∧ off9F.power.rest = false) ∧
    (let s := powering fun p => { p with restSince := some 7 }
     s.power.restSince = some 7 ∧ s.restful = true ∧ s.power.rest = false) ∧
    (resting.power.rest = true ∧ 3 ∈ (powering fun p => { p with scrub := [3] }).power.scrub) ∧
    (up.pairClass0 127 = false ∧ up.testing 127 = false ∧ up.power.cellTest.length < 4 ∧
      up.power.hbmTest.get none 126 = none) ∧
    ((testing127 .draining).power.cellTest.get none 127 = some { st := .draining, since := 5, aborted := false } ∧
      (testing127 .draining).drained 127 = true ∧ undrained.drained 127 = false ∧ (127, 9) ∈ fencing127.fabric.fencing) ∧
    ((hbm127 382).power.hbmTest.get none 127 = some { seg := 382, fail := 0 } ∧ (hbm127 383).power.hbmTest.get none 127 =
      some { seg := 383, fail := 0 }) ∧
    (15 ∉ up.power.colLost ∧ 15 ∈ lost15.power.colLost ∧ lost15.power.cellTest = []) := by
  refine ⟨all_come (by decide +kernel), ?_⟩
  decide +kernel

theorem test_power_and_tests :
    after (exec (.supplyOut 8 700) up) (fun t => t.board.supplyOut == [8] && t.board.supplyMv.get 0 8 == 700 &&
      t.watch.levels == [(239, 0x88)]) = true ∧
    after (exec (.supplyIn 8 800) (boardUp fun b => { b with supplyOut := [8] })) (fun t => t.board.supplyOut == [] &&
      t.board.supplyMv.get 0 8 == 800) = true ∧
    after (exec .refclkLoss up) (fun t => !t.board.refclk && t.watch.raises.map (fun x => (x.src, x.fcode)) == [(240, 0x90)]) = true ∧
    after (exec (.junctionSensorRead 5 920) up) (fun t => t.power.hot == [5] && t.board.tjMax == 920) = true ∧
    after (exec (.junctionSensorRead 5 0) (powering fun p => { p with hot := [5] })) (fun t => t.power.hot == []) = true ∧
    after (exec (.fenceRequest 0x9F) up) (fun t => t.fabric.fencing == [(0x9F, 0)]) = true ∧
    after (exec (.fenceComplete 0x9F) fenced9F) (fun t => t == { off9F with
      fabric := { up.fabric with fenced := [0x9F] } }) = true ∧
    after (exec (.hubWake 0x9F) off9F) (· == up) = true ∧
    after (exec .restEntry (powering fun p => { p with restSince := some 7 })) (fun t => t.power.rest &&
      t.power.hubOff == restHubs && t.time.now == 1000000008 && t.fabric.fenced == restHubs) = true ∧
    after (exec .restExit resting) (fun t => !t.power.rest && t.power.scrub == [0, 1, 2, 3]) = true ∧
    after (exec (.scrubDone 3 6 []) (powering fun p => { p with scrub := [3] })) (fun t => t.power.scrub == [] &&
      ((t.host.src.get {} 310).pend.map fun x => (x.cause, x.data0)) == some (0xE0, 6)) = true ∧
    after (exec (.selfTest 0 (dsc 0x602 127 [] []) (.data [])) up) (fun t =>
      t.power.cellTest == [(127, some { st := .draining, since := 0, aborted := false })] && t.host.running.length == 1) = true ∧
    after (exec (.selfTest 0 (dsc 0x602 (2 ^ 24 + 127) [] []) (.data [])) up) (fun t =>
      t.power.hbmTest == [(127, some { seg := 0, fail := 0 })]) = true ∧
    after (exec (.drainEnd 127) (testing127 .draining)) (fun t => t.fabric.fencing == [(127, 0)]) = true ∧
    after (exec (.drainTimeout 127) undrained) (fun t => t.power.cellTest == [] && t.time.now == 1000000006 &&
      ((t.cmdRing 1).item.map (·.status)) == some eTimeout) = true ∧
    after (exec (.fenceRequest 127) (testing127 .fenced)) (fun t => t.fabric.fencing == [(127, 0)]) = true ∧
    after (exec (.fenceComplete 127) fencing127) (fun t => t.fabric.fenced == [127] &&
      t.power.cellTest == [(127, some { st := .testing, since := 0, aborted := false })]) = true ∧
    after (exec (.fenceTimeout 127) fencing127) (fun t => t.fabric.iso.contains 127 && t.power.cellTest == [] &&
      t.host.running == []) = true ∧
    after (exec (.cellTestDone 127 0) (testing127 .testing)) (fun t => t.power.cellTest == [] && t.host.running == [] &&
      (t.cell 127).cellGen == 1) = true ∧
    after (exec (.hbmTestSegment 127 3) (hbm127 382)) (fun t => t.power.hbmTest == [(127, some { seg := 383, fail := 3 })]) = true ∧
    after (exec (.hbmTestSegment 127 0) (hbm127 383)) (fun t => t.power.hbmTest == [] &&
      t.aon.cnt.get 0 AonCtr.hbmTestPass.ctorIdx == 1) = true ∧
    after (exec (.columnPowerGoodLoss 15) up) (fun t => t.power.colLost == [15] &&
      (List.range 8).all fun i => t.fabric.iso.contains (15 + 16 * i)) = true ∧
    after (exec (.columnPowerGoodReturn 15) lost15) (fun t => t.power.colLost == [] && (t.cell 127).cellGen == 1 &&
      (t.cell 127).nodes == [] && t.reeve.stale.contains 127) = true := by decide +kernel

/-! ### 31 Presence, the seal, the key slots and the fuses (R447-R459) -/

def aonUp (f : AlwaysOn → AlwaysOn) (s : State := up) : State := { s with aon := f s.aon }
def fusesUp (f : Fuses → Fuses) (s : State := up) : State := { s with fuses := f s.fuses }

/-- A key blob. -/
def blob (kt kl : Nat) : List Byte := leBytes 4 kt ++ leBytes 4 kl ++ List.replicate 8 0#8 ++ List.replicate kl 7#8

def slot0 : State := fusesUp fun f => { f with graphPkh := [(0, [1]), (1, [2])], fwPkh := [(0, [3]), (1, [4])] }
def lockedUp : State := fusesUp fun f => { f with locked := true }

noncomputable def keyCmds : List Coming :=
  [{ st := up, d := dsc 0x706 3 [] [] 48, need := 16 }, { st := up, d := dsc 0x706 5 [] [] 64, need := 16 },
   { st := slot0, d := dsc 0x706 0x11 [] [] 16, need := 16 }, { st := slot0, d := dsc 0x706 0x19 [] [] 16, need := 16 }]

theorem test_presence_and_keys_meet :
    (∀ c ∈ keyCmds, c.Holds) ∧
    (State.reset.aon.keyN = !false ∧ (aonUp fun a => { a with keyN := true }).aon.present =
        (aonUp fun a => { a with keyN := true }).aon.keyN ∧ up.serving = true ∧ (up.host.src.get {} 449).en = true ∧
      (up.host.src.get {} 449).pend = none) ∧
    (let l := (true :: List.replicate 7 true).take 8
     l.length = 8 ∧ (∀ b ∈ l, b = true) ∧ 2 ≤ ((false :: [true, true, false]).take 4).count false ∧
     ¬2 ≤ ((false :: [true, true, true, false]).take 4).count false) ∧
    (up.authorised = true ∧ (dsc 0x706 3 [] [] 48).hlen.toNat = 16 + 32 ∧
      leAt (bufBytes (dsc 0x706 3 [] [] 48) (.data (blob 1 32))) 0 4 = 1 ∧
      leAt (bufBytes (dsc 0x706 3 [] [] 48) (.data (blob 1 32))) 4 4 = 32 ∧
      zeroAt (bufBytes (dsc 0x706 3 [] [] 48) (.data (blob 1 32))) 8 8 = true ∧ up.fuses.locked = false ∧
      up.fuses.reportKey = [] ∧ up.fuses.graphPkh = []) ∧
    (1 ∉ slot0.fuses.graphRevoke ∧ (1, [2]) ∈ slot0.fuses.graphPkh ∧ (0, [1]) ∈ slot0.fuses.graphPkh ∧
      0 ∉ slot0.fuses.fwRevoke) := by
  refine ⟨all_come (by decide +kernel), ?_⟩
  decide +kernel

theorem test_presence_and_keys :
    after (exec (.keyNChange false) State.reset) (fun t => !t.aon.keyN) = true ∧
    after (exec .presenceChange (aonUp fun a => { a with keyN := true })) (fun t => !t.aon.present && t.time.now == 20000000 &&
      ((t.host.src.get {} 449).pend.map (·.cause)) == some 0xA1) = true ∧
    after (exec .presenceChange (aonUp (fun a => { a with keyN := false }) State.reset)) (fun t => t.aon.present &&
      t.aon.keyPending) = true ∧
    after (exec (.sealSample true) (aonUp fun a => { a with samples := List.replicate 7 true, sealSt := .opened })) (fun t =>
      t.aon.sealSt == .unsealed && t.aon.loopClosed && ((t.host.src.get {} 450).pend.map (·.cause)) == some 0xA9) = true ∧
    after (exec (.sealSample false) (aonUp fun a => { a with samples := [true, true, false] })) (fun t =>
      t.aon.sealSt == .opened && t.watch.levels == [(242, 0x98)] && t.aon.cnt.get 0 AonCtr.sealOpens.ctorIdx == 1) = true ∧
    after (exec (.sealSample false) (aonUp fun a => { a with samples := [true] })) (fun t => t.aon.sealSt == .sealed &&
      t.aon.samples == [false, true] && t.time.now == 50000) = true ∧
    okWith (exec (.keyProvision 0 (dsc 0x706 3 [] [] 48) (.data (blob 1 32))) up) 0 [] (fun t =>
      t.fuses.reportKey == [(3, List.replicate 32 7#8)]) = true ∧
    okWith (exec (.keyProvision 0 (dsc 0x706 5 [] [] 64) (.data (blob 2 48))) up) 0 [] (fun t =>
      t.fuses.graphPkh == [(1, List.replicate 48 7#8)]) = true ∧
    okWith (exec (.keyProvision 0 (dsc 0x706 0x11 [] [] 16) (.data (blob 3 0))) slot0) 0 [] (fun t =>
      t.fuses.graphRevoke == [1]) = true ∧
    okWith (exec (.keyProvision 0 (dsc 0x706 0x19 [] [] 16) (.data (blob 3 0))) slot0) 0 [] (fun t =>
      t.fuses.fwRevoke == [1]) = true := by decide +kernel

def absent : State := aonUp fun a => { a with present := false }
def unsealed : State := aonUp fun a => { a with sealSt := .unsealed }

noncomputable def fuseCmds : List Coming :=
  [{ st := absent, d := dsc 0x709 0 [] [], lantern := true }, { st := up, d := dsc 0x709 0 [] [], lantern := true },
   { st := unsealed, d := dsc 0x709 0 [] [], lantern := true }, { st := up, d := dsc 0x708 0 [] [] },
   { st := lockedUp, d := dsc 0x708 0 [] [] }, { st := lockedUp, d := dsc 0x706 3 [] [] 48, need := 16 }]

theorem test_reseal_and_fuse_lock_meet :
    (∀ c ∈ fuseCmds, c.Holds) ∧
    (absent.aon.present = false ∧ up.aon.sealSt = .sealed ∧ unsealed.aon.sealSt = .unsealed ∧
      lockedUp.fuses.locked = true ∧ lockedUp.authorised = true) := by
  refine ⟨all_come (by decide +kernel), ?_⟩
  decide +kernel

theorem test_reseal_and_fuse_lock :
    badWith (exec (.reseal 0 (dsc 0x709 0 [] []) (.data [])) absent) ePresence = true ∧
    badWith (exec (.reseal 0 (dsc 0x709 0 [] []) (.data [])) up) eState = true ∧
    okWith (exec (.reseal 0 (dsc 0x709 0 [] []) (.data [])) unsealed) 0 [] (fun t => t.aon.sealSt == .sealed &&
      ((t.host.src.get {} 450).pend.map (·.cause)) == some 0xAA) = true ∧
    okWith (exec (.fuseLock 0 (dsc 0x708 0 [] []) (.data [])) up) 0 [] (fun t => t.fuses.locked) = true ∧
    badWith (exec (.fuseLock 0 (dsc 0x708 0 [] []) (.data [])) lockedUp) eLocked = true ∧
    badWith (exec (.keyProvision 0 (dsc 0x706 3 [] [] 48) (.data (blob 1 32))) lockedUp) eLocked = true ∧
    after (exec (.setupRegisterWrite 0x2000 4 0xC8) lockedUp) (fun t => t.setup.err == some (0x2000, 2)) = true := by
  decide +kernel

/-! ### 32 The Watch and the Steward's mailbox (R417-R443) -/

def raise (src fcode data : Nat) : Raise := { src := src, fcode := fcode, data := data, forced := false, t64 := 0, recov := 0 }

def raised (r : Raise) (f : Watch → Watch := id) (s : State := up) : State :=
  { s with watch := f { s.watch with raises := [raise 1 1 1, r] } }

def handling0 : Handling := { first := raise 239 0x88 3, reaction := .notify, merged := 0, classes := 1024, events := [(raise 239 0x88 3, false)] }
def handled (f : Watch → Watch := id) : State :=
  let s := watchUp fun w => f { w with cur := some handling0, fstate := .handling }
  { s with trace := { s.trace with en := false } }

def offered (x : Transfer) : Offered := { xfer := x, t := 5, express := false, opId := 0 }
def reqX : Transfer := .req 0x1003 4 8 false 0 [] false
def pairUp (es os : List Offered) : State := watchUp fun w => { w with pairs := [(63, { even := es, odd := os })] }

def quiet0 (l : List Nat) (b : Nat) : State :=
  watchUp fun w => { w with quiet := some 4, fstate := .faulted, recTimes := l, budget := b }

theorem test_watch_events_meet :
    ((raised (raise 239 0x88 3)).watch.selfStall = false ∧
      (raised (raise 239 0x88 3)).watch.raises.find? (fun r => r.src == 239 && r.fcode == 0x88 && r.data == 3) =
        some (raise 239 0x88 3) ∧
      (up.reactionOf (classOf 239)).code ≤ 2 ∧ (raised (raise 239 0x88 3)).watch.cur = none ∧
      (handled fun w => { w with raises := [raise 239 0x88 3] }).watch.cur = some handling0 ∧
      3 ≤ (up.reactionOf (classOf 232)).code ∧ (up.reactionOf (classOf 232)) = .halt ∧ up.watch.fstate ≠ .halted) ∧
    (up.watch.raises = [] ∧ 0x88 ∈ fcodesOf 239) ∧
    (handled.watch.cur = some handling0 ∧ handled.watch.logLost = false ∧ handled.trace.en = false ∧
      handled.watch.log.length < 1024 ∧
      1024 ≤ (handled fun w => { w with log := List.replicate 1024 log0 }).watch.log.length ∧
      (237, 0x78) ∉ handled.watch.levels) ∧
    ((quiet0 [] 6).watch.quiet = some 4 ∧ ([0].filter fun t => decide (0 < t + 3600000000000)).length = 1) ∧
    (((pairUp [offered reqX] [offered reqX]).pairPort 63).stalled = false ∧
      ((pairUp [offered reqX] [offered reqX]).pairPort 63).pass = false ∧ reqX ≠ .token (tok 0 3 0)) ∧
    ((233, 0x59) ∉ up.watch.levels ∧ up.watch.stewardPass = false ∧ up.watch.stewardHeld = false ∧
      (232, 0x58) ∉ up.watch.levels ∧ (231, 0x51) ∉ up.watch.levels) ∧
    ((watchUp fun w => { w with levels := [(240, 0x90), (208, 0x32)] }).watch.levels.Nodup ∧
      (208, 0x32) ∈ (watchUp fun w => { w with levels := [(240, 0x90), (208, 0x32)] }).watch.levels) := by decide +kernel

theorem test_watch_events :
    after (exec (.faultRaise 239 0x88 ⟨3, []⟩) (raised (raise 239 0x88 3))) (fun t => t.watch.raises == [raise 1 1 1] &&
      (t.watch.cur.map (·.first)) == some (raise 239 0x88 3) && t.watch.fstate == .handling &&
      t.watch.cnt.get 0 WatchCtr.faults.ctorIdx == 1) = true ∧
    after (exec (.faultRaise 239 0x88 ⟨3, []⟩) (raised (raise 239 0x88 3) fun w => { w with quietNext := 7, budgetNext := 8 }))
      (fun t => t.watch.quietTime == 7 && t.watch.budget == 8) = true ∧
    after (exec (.faultRaise 239 0x88 ⟨3, []⟩) (handled fun w => { w with raises := [raise 239 0x88 3] })) (fun t =>
      (t.watch.cur.map (·.merged)) == some 1 && t.watch.cnt.get 0 WatchCtr.merges.ctorIdx == 1) = true ∧
    after (exec (.faultRaise 232 0x58 ⟨3, []⟩) (raised (raise 232 0x58 3))) (fun t => t.watch.fstate == .halted &&
      t.reeve.halted && t.steward.halted && t.watch.lines == 0xFFFF) = true ∧
    after (exec (.faultRaise 0 1 ⟨3, []⟩) (raised (raise 0 1 3))) (fun t => t.watch.raises == [raise 1 1 1] &&
      (t.watch.cur.map (·.first)) == some (raise 0 1 3) && t.fabric.iso == if up.reactionOf (classOf 0) == .isolate then [0, 1] else [])
      = true ∧
    after (exec (.faultRaise 239 0x88 ⟨3, []⟩) up) (fun t => (t.watch.cur.map (fun h => h.first.src)) == some 239 &&
      t.watch.raises == []) = true ∧
    after (exec (.handlingEnd false) handled) (fun t => t.watch.cur == none && t.watch.log.length == 1 &&
      t.watch.lseq == 1 && t.watch.fstate == .faulted &&
      (t.respAt 8).read (((t.respAt 8).regions.get {} 0xFF7).base + 12) 2 == [239, 0x88]) = true ∧
    after (exec (.handlingEnd false) (handled fun w => { w with log := List.replicate 1024 log0 })) (fun t =>
      t.watch.log.length == 1024 && t.watch.cnt.get 0 WatchCtr.logWraps.ctorIdx == 1) = true ∧
    after (exec (.handlingEnd true) handled) (fun t => t.watch.logLost && t.watch.log == [] &&
      t.watch.lastGasp == some (0, 239) && t.watch.levels == [(237, 0x78)]) = true ∧
    after (exec (.handlingEnd true) (handled fun w => { w with logLost := true })) (fun t => t.watch.cur == none &&
      t.watch.log == [] && t.watch.lseq == 0) = true ∧
    after (exec .logScrub up) (fun t => t.watch.logLost && t.watch.lastGasp == some (0, 237)) = true ∧
    after (exec (.conditionEnd 208 0x32) (watchUp fun w => { w with levels := [(240, 0x90), (208, 0x32)] })) (fun t =>
      t.watch.levels == [(240, 0x90)]) = true ∧
    after (exec (.conditionEnd 240 0x90) (watchUp fun w => { w with levels := [(240, 0x90), (208, 0x32)] })) (fun t =>
      t.watch.levels == [(208, 0x32)]) = true := by decide +kernel

theorem test_watch_recovers_and_compares :
    after (exec .quietPeriodExpiry (quiet0 [] 1)) (fun t => t.watch.fstate == .idle && t.watch.recTimes == [10000000005] &&
      t.watch.recovered && ((t.host.src.get {} 336).pend.map fun x => (x.cause, x.data0, x.data1)) == some (0x90, 1, 1)) = true ∧
    after (exec .quietPeriodExpiry (quiet0 [7] 1)) (fun t => t.watch.fstate == .faulted && t.watch.sticky &&
      ((t.host.src.get {} 336).pend.map fun x => (x.cause, x.data0, x.data1)) == some (0x91, 0, 1)) = true ∧
    after (exec (.pairCompare 63) (pairUp [offered (.token (tok 0 3 0))] [offered (.token (tok 0 3 0))])) (fun t =>
      t.fabric.flight.map (fun f => (f.src, f.tok)) == [(126, tok 0 3 0)] && (t.pairPort 63).even == []) = true ∧
    after (exec (.pairCompare 63) (pairUp [offered reqX] [offered reqX])) (fun t =>
      t.fabric.reqs.map (fun q => (q.src, q.handle, q.peer)) == [(126, 0x1003, some (false, 0))]) = true ∧
    after (exec (.pairCompare 63) (pairUp [offered (.token (tok 0 3 0))] [offered (.token (tok 0 3 1))])) (fun t =>
      t.fabric.flight == [] && t.watch.raises.map (fun x => (x.src, x.fcode)) == [(63, 1)] &&
      t.watch.cnt.get 0 WatchCtr.pairDiscard.ctorIdx == 1) = true ∧
    after (exec (.skewTimeout 63) (pairUp [] [offered (.token (tok 0 3 0))])) (fun t => (t.pairPort 63).odd == [] &&
      t.watch.raises.map (fun x => (x.src, x.fcode)) == [(63, 3)] && t.time.now == 2006) = true ∧
    after (exec (.comparatorStall (.pair 63)) up) (fun t => (t.pairPort 63).stalled && t.fabric.iso.contains 126 &&
      t.fabric.iso.contains 127) = true ∧
    after (exec (.comparatorStall .steward) up) (fun t => t.watch.stewardHeld && t.watch.levels == [(233, 0x59)]) = true ∧
    after (exec (.comparatorStall .watch) up) (fun t => t.watch.selfStall && t.watch.lines == 0xFFFF) = true ∧
    after (exec (.stewardCompare 9 true) up) (· == up) = true ∧
    after (exec (.stewardCompare 9 false) up) (fun t => t.watch.stewardHeld &&
      t.watch.raises.map (fun x => (x.src, x.fcode, x.data)) == [(232, 0x58, 9)]) = true ∧
    after (exec (.tripReadbackMismatch 8) up) (fun t => t.watch.levels == [(231, 0x51)]) = true := by decide +kernel

/-- A halted Steward's mailbox holds `n` tokens. -/
def mailed (k : Token) (n : Nat) : State :=
  let s := flying 5 [k] up
  { s with watch := { s.watch with mbox := List.replicate n k }, steward := { s.steward with halted := true } }

theorem test_steward_messages :
    (mailed (tok 2 0x90 7) 64).arrivable 5 (tok 2 0x90 7) = true ∧ (tok 2 0x90 7).tag.dest.toNat = 0x90 ∧
    after (exec (.stewardMessage 5 (tok 2 0x90 7) {}) (mailed (tok 2 0x90 7) 63)) (fun t =>
      t.watch.mbox == List.replicate 64 (tok 2 0x90 7) && t.fabric.flight == []) = true ∧
    after (exec (.stewardMessage 5 (tok 2 0x90 7) {}) (mailed (tok 2 0x90 7) 64)) (fun t =>
      t.watch.mbox.length == 64 && t.watch.cnt.get 0 WatchCtr.mboxFull.ctorIdx == 1) = true ∧
    (let s := mailed (tok 2 0x90 7) 0
     let s := { s with fabric := { s.fabric with iso := [0x90] } }
     s.cutOff 0x90 = true ∧ s.arrivable 5 (tok 2 0x90 7) = true ∧
     after (exec (.stewardMessage 5 (tok 2 0x90 7) {}) s) (fun t => t.watch == s.watch && t.fabric.flight == []) = true) ∧
    after (exec (.stewardMessage 5 (tok 2 0x90 7 16) {}) (mailed (tok 2 0x90 7 16) 0)) (fun t =>
      t.watch.mbox == [] && t.watch.cnt.get 0 WatchCtr.mboxPoison.ctorIdx == 1) = true := by decide +kernel

/-! ### 33 The trace and the debug path (R183, R187, R506, R512-R520) -/

def traced (f : Trace → Trace := id) (s : State := up) : State :=
  let g : Region := { valid := true, length := 2 ^ 28 }
  { s with trace := f s.trace, fabric := { s.fabric with resp := [(0, { regions := [(0xFFF, g)] })] } }

def mark : Token := tok 2 0x96 7
def marked (f : Trace → Trace := id) : State := flying 5 [mark] (traced f)
def buffered : State := { traced with cells := [(127, { traceBuf := [[1, 2], [3]] })] }
def full (t : Trace) : Trace := { t with stage := [List.replicate 65536 0] }

theorem test_trace_commands_meet :
    (mark.tag.dest.toNat = 0x96 ∧ (marked).arrivable 5 mark = true ∧ (marked).trace.en = true ∧
      (marked fun t => { t with en := false }).trace.en = false) ∧
    ((buffered.cell 127).traceBuf = [1, 2] :: [[3]] ∧ buffered.cutOff 127 = false) ∧
    (let s := traced fun t => { t with stage := [[1, 2, 3, 4], [5]] }
     s.trace.stage = [1, 2, 3, 4] :: [[5]] ∧ s.traceOpen = true ∧ s.trace.lost = 0 ∧ s.trace.stopped = false ∧
     4096 ≤ s.trace.wrOff ∧ s.trace.wrOff + 32 < 2 ^ 28 ∧ s.trace.en = true) := by decide +kernel

theorem test_trace_commands :
    after (exec (.traceMarker 5 (some mark) {}) marked) (fun t => t.fabric.flight == [] &&
      t.trace.stage == [tokenPacket 5 mark 0]) = true ∧
    after (exec (.traceMarker 5 (some mark) {}) (marked full)) (fun t => t.trace.stage.length == 1 &&
      t.trace.lost == 1 && t.trace.lostTotal == 1 && t.trace.lostCnt == 1) = true ∧
    after (exec (.traceMarker 127 none {}) buffered) (fun t => t.trace.stage == [[1, 2]] &&
      (t.cell 127).traceBuf == [[3]]) = true ∧
    after (exec .tracePacketWrite (traced fun t => { t with stage := [[1, 2, 3, 4], [5]] })) (fun t =>
      t.trace.wrOff == 4100 && t.trace.stage == [[5]] && t.trace.packets == 1 && (t.respAt 0).read 4096 4 == [1, 2, 3, 4] &&
      (t.respAt 0).read 0 8 == leBytes 8 4100) = true ∧
    after (exec .traceSync traced) (fun t => t.trace.wrOff == 4128 && t.trace.tseq == 1 && t.time.now == 2 ^ 30 &&
      (t.respAt 0).read 4096 2 == [1, 0x90] && (t.respAt 0).read 4124 1 == [0]) = true ∧
    after (exec (.traceCtrlWrite 1) (traced fun t => { t with en := false, lost := 3 })) (fun t => t.trace.lost == 3 &&
      (t.respAt 0).read 4096 1 == [1] && (t.respAt 0).read 4124 1 == [1]) = true ∧
    after (exec (.traceCtrlWrite 0x43) (traced fun t => { t with en := false })) (fun t => t.trace.en && t.trace.mode &&
      t.trace.viol == 1 && t.trace.wrOff == 4128 && (t.respAt 0).read 4124 1 == [1]) = true := by decide +kernel

def gated (f : Jtag → Jtag) (s : State := traced) : State :=
  { s with setup := { s.setup with dbgGate := true }, jtag := f s.jtag }

/-- Cell 127's express bank is stopped by a BREAK, and pair 63 is under debug. -/
def stopped63 (pass : Bool) : State :=
  let s := traced
  let b : Bank := { hdr := some (pk 0), regs := { pc := 16 } }
  { s with
    cells := [(127, { p := b, dbg := { stopped := true } })]
    watch := { s.watch with pairs := [(63, { pass := pass })] } }

/-- Page 1 (channel 1, the second part of responder 0) is in use, and DBG_ADDR points at its header. -/
def paged : State :=
  let s := gated fun j => { j with addr := BitVec.ofNat 64 (2 ^ 32 + (respBytes - cellarShare 16) + cellarShare 16 / 4) }
  { s with cellar := { s.cellar with pages :=
      [(1, some { cell := 2, group := 1, linked := true, tSpill := 0, slots := [] })] } }

theorem test_jtag_and_debug_meet :
    (up.setup.dbgGate = false ∧ (gated id).setup.dbgGate = true) ∧
    (let s := gated fun j => { j with addr := 2 ^ 32 + 15 * 6442450944 + 8 }
     s.jtag.addr.toNat = 2 ^ 32 + 15 * respBytes + 8 ∧ 8 < respBytes - cellarShare s.cellar.gib ∧ s.traceOpen = true ∧
     (s.respAt 15).isPoisoned 8 8 = false) ∧
    (let o := cellarShare 16 / 4
     paged.cellar.gib = 16 ∧ o < cellarShare 16 ∧ o % 8 = 0 ∧
     paged.jtag.addr.toNat = 2 ^ 32 + 0 * respBytes + (respBytes - cellarShare 16) + o ∧ paged.traceOpen = true ∧
     (paged.respAt 0).isPoisoned (respBytes - cellarShare 16 + o) 8 = false ∧
     (paged.cellar.word 0 o).isSome = true) ∧
    ((stopped63 false).pairPort 63).pass = false ∧ ((stopped63 true).pairPort 63).pass = true ∧
    ((stopped63 true).cell 127).stoppedBank = some true ∧ ((stopped63 true).cell 126).stoppedBank = none := by decide +kernel

theorem test_jtag_and_debug :
    after (exec .idcode up) (fun t => t.out == [.tdo 32 0xB81287AF]) = true ∧
    after (exec .dbgStatus up) (fun t => t.out == [.tdo 64 1]) = true ∧
    after (exec (.extest (BitVec.ofNat 110 5) (BitVec.ofNat 110 (2 ^ 110 - 1))) up) (fun t => t.jtag.ir == .extest &&
      t.out.length == 1 && !t.jtag.latch.getLsbD 64 && t.jtag.latch.getLsbD 0 && !t.jtag.latch.getLsbD 99) = true ∧
    after (exec (.dbgAddr 8) up) (fun t => t.jtag.addr == 8 && t.out == [.tdo 64 0]) = true ∧
    after (exec (.dbgData (some 7)) up) (fun t => t.out == [.tdo 64 0] && t.jtag.addr == 0 && !t.jtag.error) = true ∧
    after (exec (.dbgData none) (gated fun j => { j with addr := 0xF8 })) (fun t =>
      t.out == [.tdo 64 ((gated id).traceWord 0xF8)] && t.jtag.addr == 0x100 && !t.jtag.error) = true ∧
    after (exec (.dbgData none) (gated fun j => { j with addr := 0x100 })) (fun t => t.out == [.tdo 64 0] && t.jtag.error) = true ∧
    after (exec (.dbgData (some 7)) (gated fun j => { j with addr := 2 ^ 32 + 15 * 6442450944 + 8 })) (fun t =>
      t.out == [.tdo 64 0] && t.jtag.error) = true ∧
    after (exec (.dbgData none) paged) (fun t => !t.jtag.error &&
      t.out.map some == [(paged.cellar.word 0 (cellarShare 16 / 4)).map fun v => .tdo 64 v]) = true ∧
    after (exec (.run 63) (stopped63 false)) (· == stopped63 false) = true ∧
    after (exec (.stepOne 63) (stopped63 true)) (fun t => (t.cell 127).dbg.stepping && !(t.cell 127).dbg.stopped &&
      (t.cell 127).p.hdr == some (pk 0)) = true ∧
    after (exec (.kill 63) (stopped63 true)) (fun t => (t.cell 127).p.hdr == none && !(t.cell 127).dbg.stopped &&
      (t.cell 127).cnt.get 0 EngCtr.excEnded.ctorIdx == 1) = true := by decide +kernel

/-! ### 35 The step -/

/-- A hub's wake waits before a NOP and a tick. -/
def queued2 : State := { State.reset with pending := [.hubWake 0x90, .ppsLossTimeout] }

theorem test_step_runs_the_command_meets :
    queued2.pending = Instr.hubWake 0x90 :: [.ppsLossTimeout] ∧ State.reset.pending = [] := by decide +kernel

theorem test_step_takes_the_front :
    after (step queued2) (fun t => t.pending == [.ppsLossTimeout]) = true ∧
    after (step State.reset) (fun t => t.time.now == State.reset.time.now + 1 && t.pending == []) = true := by decide +kernel

/-- Locked fuses with a minimum of 3, and a state of them: what the invariant starts from. -/
def locked3 : Fuses := { State.reset.fuses with locked := true, minSvn := 3 }

theorem test_invariant_meets :
    Fuses.After {} State.reset.fuses ∧ Fuses.After locked3 locked3 ∧
    step { queued2 with fuses := locked3 } = exec (.hubWake 0x90) { queued2 with fuses := locked3, pending := [.ppsLossTimeout] } :=
  ⟨by constructor <;> decide, by constructor <;> simp, rfl⟩

/-! ### 36 Well-formedness -/

/-- A token of one word, and one whose payload is a word short of LEN. -/
def wfTok : Token :=
  { tag := { dest := 2, esel := 0, ctx := 9, gen := 1, iter := 0, cls := 2, epar := false, len := 0, flags := 0 }
    payload := [7] }
def shortTok : Token := { wfTok with payload := [] }

/-- A descriptor with a buffer of four bytes. -/
def desc4 : Desc := { opcode := 0, cseq := 1, dflags := 0, zero := 0, tag := 1, haddr := 0x1000, hlen := 4, target := 0, args := 0 }

def emptyBody : GraphBody :=
  { cls := 1, nsink := 0, resultSlots := 0, peakWait := 0, audit := false, scratchBase := 0, scratchLen := 0
    handler := 0, groups := [], parts := [], srcPart := 0, srcNode := 0, bindNodes := [], importNodes := [] }

def aGroup : GroupDef := { num := 3, mask := 1, nodeLo := 0, nodeHi := 7, bsLo := 0, bsHi := 7 }

def aPart : PartDef :=
  { group := 3, ways := 1, blocks := 1, words := 1, slots := 1, rate := 1, nodes := [(0, 1)], code := [(0, 0)] }

def anEth : EthHead := { dst := 0, src := 0, etype := 0x88B6 }

/-- A token has the words that LEN says: one, and with LEN reserved any (R22, R25). -/
theorem test_wf_token :
    Instr.wf (.tokenArrival 2 0x80 wfTok {} ⟨.none, .none⟩) = true ∧
    Instr.wf (.tokenArrival 2 0x80 shortTok {} ⟨.none, .none⟩) = false ∧
    Instr.wf (.tokenArrival 2 0x80 { wfTok with tag := { wfTok.tag with len := 6 } } {} ⟨.none, .none⟩) = true ∧
    Instr.wf (.appendToken 1 0x80 shortTok {}) = false ∧
    Instr.wf (.fabricHeaderError 3 (.token 0x80 shortTok)) = false ∧
    Instr.wf (.fabricHeaderError 3 (.token 0x80 wfTok)) = true ∧
    Instr.wf (.fabricHeaderError 3 (.req 0x80 1)) = true ∧
    Instr.wf (.resultToken 0x80 shortTok {}) = false ∧ Instr.wf (.bellAtWriter 0x80 shortTok {}) = false ∧
    Instr.wf (.chainEgressToken 0x80 shortTok {}) = false ∧
    Instr.wf (.noticeboardWrite 0x80 shortTok {}) = false ∧ Instr.wf (.tripCommand 0x80 shortTok {}) = false ∧
    Instr.wf (.graphEventToken 0x80 shortTok {}) = false ∧ Instr.wf (.stewardMessage 0x80 shortTok {}) = false ∧
    Instr.wf (.traceMarker 0x80 (some shortTok) {}) = false ∧ Instr.wf (.traceMarker 0x80 none {}) = true := by
  decide +kernel

/-- A host's answer is at most HLEN bytes (R394). -/
theorem test_wf_host_buffer :
    Instr.wf (.nop 1 desc4 (.data [1, 2, 3, 4])) = true ∧ Instr.wf (.nop 1 desc4 (.data [1, 2, 3, 4, 5])) = false ∧
    Instr.wf (.fuseLock 1 desc4 .timeout) = true := by decide +kernel

/-- A graph's groups and a partition's nodes and words stand at different places (R84, R155). -/
theorem test_wf_graph_body :
    Instr.wf (.loadGraph 0 desc4 .failed { emptyBody with groups := [aGroup], parts := [aPart] }) = true ∧
    Instr.wf (.loadGraph 0 desc4 .failed { emptyBody with groups := [aGroup, aGroup] }) = false ∧
    Instr.wf (.loadGraph 0 desc4 .failed { emptyBody with parts := [{ aPart with nodes := [(0, 1), (0, 2)] }] }) = false ∧
    Instr.wf (.loadGraph 0 desc4 .failed { emptyBody with parts := [{ aPart with code := [(5, 1), (5, 1)] }] }) = false := by
  decide +kernel

/-- A write of PCIe carries 1, 2, 4 or 8 bytes (R386). -/
theorem test_wf_write_sizes :
    Instr.wf (.tailDoorbell 0x1000 4 1) = true ∧ Instr.wf (.tailDoorbell 0x1000 3 1) = false ∧
    Instr.wf (.headDoorbell 0x1004 0 1) = false ∧ Instr.wf (.setupRegisterWrite 0x10 8 1) = true ∧
    Instr.wf (.setupRegisterWrite 0x10 5 1) = false := by decide +kernel

/-- Lists of stacks, cells, pages and entries name each once. -/
theorem test_wf_no_repeats :
    Instr.wf (.bootStageDone (.stacks [1, 2])) = true ∧ Instr.wf (.bootStageDone (.stacks [1, 1])) = false ∧
    Instr.wf (.bootStageDone (.cells [131, 131])) = false ∧ Instr.wf (.bootStageDone (.fail 3)) = true ∧
    Instr.wf (.scrubDone 0 0 [3, 4]) = true ∧ Instr.wf (.scrubDone 0 0 [3, 3]) = false ∧
    Instr.wf (.noticeRequest 0 anEth 0 0 [⟨5, false⟩, ⟨5, true⟩]) = false ∧
    Instr.wf (.noticeRequest 0 anEth 0 0 [⟨5, false⟩, ⟨6, true⟩]) = true ∧
    Instr.wf (.queuedAnswerStart 0 [⟨5, false⟩, ⟨5, false⟩]) = false := by decide +kernel

/-- Instructions of the other mode, and fields that no encoding of the instruction has (R193-R229). -/
theorem test_wf_instructions :
    (both (.add · 1 2 3)).1.wf = true ∧ (both (.add · 1 2 3)).2.wf = true ∧
    Instr.wf (.endFiring c2) = true ∧ Instr.wf (.endFiring stw) = false ∧
    Instr.wf (.waite stw) = true ∧ Instr.wf (.waite c2) = false ∧
    Instr.wf (.extu c2 1 2 60 3) = true ∧ Instr.wf (.extu c2 1 2 60 4) = false ∧
    Instr.wf (.acc128 c2 6 2) = true ∧ Instr.wf (.acc128 c2 7 2) = false := by decide +kernel

/-- The words of eight instructions, written out from their formats (R193, R199-R229). -/
theorem test_words :
    codeOf (.add c2 1 2 3) = [0b000000_00001_00010_00011_00000_000001#32] ∧
    codeOf (.addi c2 1 2 0xFFFF) = [0b000100_00001_00010_1111111111111111#32] ∧
    codeOf (.li c2 31 5) = [0b111000_11111_00000_0000000000000001#32, 5#32] ∧
    codeOf (.mul c2 1 2 3) = [0b000001_00001_00010_00011_00000_000001#32] := by decide +kernel

end Sys2Proof.Tests
end

section
/-! PROOFS. A step and the state at reset. -/

namespace Sys2Proof.Machine
open Sys2Proof Sys2Proof.Claims

/-! ## One step -/

theorem step_of_pending {s : State} {c : Instr} {rest : List Instr} (h : s.pending = c :: rest) :
    step s = exec c { s with pending := rest, out := [] } := by
  simp only [step, h]

theorem step_of_idle {s : State} (h : s.pending = []) :
    step s = .next (State.elapse 1 { s with out := [] }) := by
  simp only [step, h]

@[simp] theorem State.elapse_now (n : Nat) (s : State) : (s.elapse n).time.now = s.time.now + n := rfl

/-- Settles O58: the two branches of `step`. -/
theorem stepRunsTheCommand : Obligations.StepRunsTheCommand := by
  unfold Obligations.StepRunsTheCommand
  refine ⟨fun s c rest h => step_of_pending h, fun s c => step_of_pending rfl, fun s h => ?_⟩
  exact ⟨_, step_of_idle h, State.elapse_now 1 _, rfl⟩

/-! ## The state at reset

Every keyed table is empty there, so a lookup answers the record's default. -/

theorem State.reset_cell (n : Nat) : State.reset.cell n = {} := rfl

theorem State.reset_port (p : Nat) : State.reset.port p = {} := rfl

theorem State.reset_actPort (a : Nat) : State.reset.actPort a = {} := rfl

theorem State.reset_nbEntry (n : Nat) : State.reset.nbEntry n = {} := rfl

theorem State.reset_tripMap (n : Nat) : State.reset.act.map.get {} n = {} := rfl

theorem State.reset_trip (n : Nat) : State.reset.act.trip n = {} := rfl

/-- The reset state once the start has reached step 9, where the setup registers answer (R470). -/
def State.resetReady : State := { State.reset with power := { State.reset.power with phase := .ready } }

theorem State.resetReady_readReg_id : State.resetReady.readReg 0x0 = 0xB18128 := by decide

/-- PPS_OUT_WIDTH, above PPS_IN_EDGE, is 100 (R507). -/
theorem State.resetReady_readReg_deviceCfg : State.resetReady.readReg 0x2000 = 200 := by decide

/-- The registers whose Reset column is 0. -/
theorem State.resetReady_readReg_zero :
    ∀ o ∈ [0x8, 0x10, 0x20, 0x24, 0x28, 0x30, 0x34, 0x38, 0x3C, 0x100, 0x104, 0x1008, 0x1010, 0x1014,
      0x1018, 0x101C, 0x1020, 0x1024, 0x1028, 0x2010, 0x4000, 0x4008, 0x400C, 0x4010],
      State.resetReady.readReg o = 0 := by decide

/-- The default reactions of the sixteen fault classes (R416). -/
theorem State.reset_reactions :
    (List.range 16).map (fun k => (State.reset.reactionOf k).code) =
      [2, 1, 2, 1, 3, 1, 2, 4, 1, 1, 2, 1, 2, 2, 1, 1] := by decide

/-- Settles O59: the fields of `State.reset` are the defaults of its records. -/
theorem resetState : Obligations.ResetState := by
  unfold Obligations.ResetState
  refine ⟨rfl, rfl, rfl, rfl, rfl, rfl, rfl, rfl, rfl, ?cells,
    State.resetReady_readReg_id, State.resetReady_readReg_deviceCfg, State.resetReady_readReg_zero,
    State.reset_reactions, rfl, rfl, rfl, rfl, rfl, rfl, rfl, rfl, rfl, rfl, rfl, rfl, rfl, rfl,
    ?ports, ?actPorts, ?entries, ?trips, rfl, rfl, rfl, rfl, rfl, rfl, rfl, rfl, rfl, rfl, rfl, rfl,
    Fuses.After.refl _⟩
  case cells => intro n; simp [State.reset_cell]
  case ports => intro p; simp [State.reset_port]
  case actPorts => intro a; simp [State.reset_actPort]
  case entries => intro n; simp [State.reset_nbEntry]
  case trips => intro n; rw [State.reset_tripMap, State.reset_trip]; exact ⟨rfl, rfl⟩

end Sys2Proof.Machine
end

section
/-! PROOFS. What refuses a host command before anything of it is done (R10, R393-R397). -/

namespace Sys2Proof.Machine
open Sys2Proof Sys2Proof.Claims

/-! ## The least of a list of offsets -/

theorem mem_of_least {l : List Nat} {m : Nat} (h : least l = some m) : m ∈ l := by
  induction l generalizing m with
  | nil => cases h
  | cons a l ih =>
    simp only [least] at h
    split at h
    · cases h; exact List.mem_cons_self
    next b hb =>
      cases h
      rcases Nat.le_total a b with e | e
      · rw [Nat.min_eq_left e]; exact List.mem_cons_self
      · rw [Nat.min_eq_right e]; exact List.mem_cons_of_mem _ (ih hb)

theorem least_eq_some {l : List Nat} {m : Nat} (hm : m ∈ l) (hl : ∀ o ∈ l, m ≤ o) : least l = some m := by
  induction l with
  | nil => cases hm
  | cons a l ih =>
    obtain ⟨ha, hl⟩ := List.forall_mem_cons.mp hl
    simp only [least]
    cases hb : least l with
    | none =>
      rcases List.mem_cons.mp hm with rfl | hm
      · rfl
      · simp [ih hm hl] at hb
    | some b =>
      have hmb : m ≤ b := hl b (mem_of_least hb)
      rcases List.mem_cons.mp hm with rfl | hm
      · simp [hmb]
      · have : m = b := by simpa [ih hm hl] using hb
        simp [← this, ha]

/-- No offset of the list is below `n`. -/
def AllFrom (n : Nat) (l : List Nat) : Prop := ∀ o ∈ l, n ≤ o

section AllFrom

variable {n : Nat}

@[simp] theorem allFrom_nil : AllFrom n [] := List.forall_mem_nil _

@[simp] theorem allFrom_cons {a : Nat} {l : List Nat} : AllFrom n (a :: l) ↔ n ≤ a ∧ AllFrom n l :=
  List.forall_mem_cons

@[simp] theorem allFrom_append {l m : List Nat} : AllFrom n (l ++ m) ↔ AllFrom n l ∧ AllFrom n m :=
  List.forall_mem_append

@[simp] theorem allFrom_ite {p : Prop} [Decidable p] {l m : List Nat} :
    AllFrom n (if p then l else m) ↔ (p → AllFrom n l) ∧ (¬p → AllFrom n m) := by
  split <;> simp [*]

@[simp] theorem allFrom_map {α : Type} {f : α → Nat} {l : List α} :
    AllFrom n (l.map f) ↔ ∀ x ∈ l, n ≤ f x := List.forall_mem_map

/-- An element that is one of two. -/
theorem le_ite_iff {p : Prop} [Decidable p] {a b : Nat} :
    n ≤ (if p then a else b) ↔ (p → n ≤ a) ∧ (¬p → n ≤ b) := by
  split <;> simp [*]

end AllFrom

/-! ## Where the checks of the commands find faults -/

theorem allFrom_stray (d : Desc) (sizes : List Nat) : AllFrom 32 (d.stray sizes) := by
  intro o ho
  obtain ⟨k, -, rfl⟩ := List.mem_map.mp (List.mem_filter.mp ho).1
  exact Nat.le_add_left ..

@[simp] theorem allFrom_ringAlign (base : Nat) : AllFrom 24 (ringAlign base) := by simp [ringAlign]

@[simp] theorem allFrom_ringSize (k : Nat) : AllFrom 3 (ringSize k) := by simp [ringSize]

@[simp] theorem allFrom_recLen (d : Desc) (opt : Bool) : AllFrom 3 (recLen d opt) := by simp [recLen]

@[simp] theorem le_recDetail (i : Nat) : 3 ≤ recDetail i := by unfold recDetail; omega

@[simp] theorem Params.allFrom_bad (p : Params) : AllFrom 3 p.bad := by cases p <;> simp [Params.bad]

@[simp] theorem Params.le_index (p : Params) (k : Nat) : 3 ≤ p.index k := by cases p <;> simp [Params.index]

@[simp] theorem allFrom_imageLen (d : Desc) (b : HostBuf) : AllFrom 3 (imageLen d b) := by
  cases b <;> simp [imageLen]

@[simp] theorem allFrom_imageType (d : Desc) (b : HostBuf) (other : Nat) : AllFrom 3 (imageType d b other) := by
  cases b <;> simp [imageType]

/-- What a command's own rules have to be for its row in R398: its opcode, where it is valid (R390,
R487), and that its own checks find no fault before HLEN's offset, nor one that hides CSEQ's (R397). -/
structure CmdSpec.Fits (c : CmdSpec) (op : Nat) (lantern : Bool) : Prop where
  op_eq      : c.op = op
  known      : op ∈ knownOps
  lantern_eq : c.lantern = lantern
  ring0_eq   : c.ring0 = decide (op = 3 ∨ op = 4)
  align      : AllFrom 24 c.align
  range      : AllFrom 3 c.range

/-- Each of the 50 commands is a `hostCmd` under rules that fit its row. -/
theorem exec_eq_hostCmd {i : Instr} {r : Fin 64} {d : Desc} {op : Nat} {lantern : Bool} (s : State)
    (h : cmdOf i = some (r, d, op, lantern)) :
    ∃ b c go, exec i s = .next (s.hostCmd r d b c go) ∧ c.Fits op lantern := by
  unfold cmdOf at h
  split at h
  case h_51 => cases h
  all_goals
    cases h
    refine ⟨_, _, _, rfl, rfl, by decide, rfl, rfl, by simp, ?_⟩
  -- WATCH_CONFIG: the record of a reaction below its class's floor
  case h_40.refl =>
    refine allFrom_append.mpr ⟨by simp, ?_⟩
    split <;> simp
  -- FW_UPDATE: an image whose body is too long
  case h_44.refl =>
    refine allFrom_append.mpr ⟨by simp, ?_⟩
    split <;> simp
  all_goals simp [le_ite_iff]

/-! ## `hostCmd` up to the first check that fails -/

section

variable {s : State} {r : Fin 64} {d : Desc} {b : HostBuf} {c : CmdSpec} {go : List Byte → State → State}

theorem State.hostCmd_offTurn (h : s.fetchTurn r.val = false) : s.hostCmd r d b c go = s := by
  simp [State.hostCmd, h]

theorem State.hostCmd_otherOp (ho : d.opcode.toNat ≠ c.op) (hk : d.opcode.toNat ∈ knownOps) :
    s.hostCmd r d b c go = s := by
  simp [State.hostCmd, ho, hk]

/-- Consuming the slot changes nothing that the checks look at. -/
theorem State.fetched_firstFail (k n : Nat) (q : BitVec 16) :
    (s.fetched k).firstFail n c d q = s.firstFail n c d q := rfl

theorem State.hostCmd_refused {st det res : Nat} (ht : s.fetchTurn r.val = true)
    (ho : d.opcode.toNat = c.op ∨ d.opcode.toNat ∉ knownOps)
    (hf : s.firstFail r.val c d (s.cmdRing r.val).cseq = some (st, det, res))
    (hp : st ≠ ePresence) (hg : st ≠ eGuar) :
    s.hostCmd r d b c go = (s.fetched r.val).complete r.val d true st det res [] := by
  have hop : (d.opcode.toNat != c.op && knownOps.contains d.opcode.toNat) = false := by
    rcases ho with h | h <;> simp [h]
  simp only [State.hostCmd, ht, hop, State.fetched_firstFail, hf, hp, hg, Bool.not_true, Bool.or_self,
    Bool.false_eq_true, ↓reduceIte]

end

/-! ## The first checks (R10) -/

section

variable {s : State} {n : Nat} {c : CmdSpec} {d : Desc} {q : BitVec 16}

theorem State.firstFail_lantern (hl : s.power.phase = .lantern) (hc : c.lantern = false) :
    s.firstFail n c d q = some (eLantern, 0, 0) := by
  simp [State.firstFail, hl, hc]

theorem State.firstFail_opcode (hl : s.power.phase ≠ .lantern)
    (hk : d.opcode.toNat ∉ knownOps ∨ c.ring0 = true ∧ n ≠ 0) :
    s.firstFail n c d q = some (eOpcode, 0, 0) := by
  rcases hk with hk | ⟨hc, hn⟩
  · simp [State.firstFail, hl, hk]
  · simp [State.firstFail, hl, hc, hn]

/-- The device serves the command, on this ring: the checks before E_ALIGN pass. -/
structure State.Serves (s : State) (n : Nat) (c : CmdSpec) (d : Desc) : Prop where
  known   : d.opcode.toNat ∈ knownOps
  lantern : s.power.phase = .lantern → c.lantern = true
  ring0   : c.ring0 = true → n = 0

theorem State.Serves.known_here (hs : s.Serves n c d) :
    (knownOps.contains d.opcode.toNat && (n == 0 || !c.ring0)) = true := by
  cases h : c.ring0 <;> simp [hs.known, hs.ring0, h]

theorem State.firstFail_align {o : Nat} (hs : s.Serves n c d) (ha : c.misaligned d = some o) :
    s.firstFail n c d q = some (eAlign, o, 0) := by
  simp only [State.firstFail, hs.known_here, ha]
  simp +contextual [hs.lantern]

theorem State.firstFail_range {o : Nat} (hs : s.Serves n c d) (ha : c.misaligned d = none)
    (hr : c.outOfRange d q = some o) :
    s.firstFail n c d q = some (eRange, o, if o = 2 then q.toNat else 0) := by
  simp only [State.firstFail, hs.known_here, ha, hr]
  simp +contextual [hs.lantern]

/-- A misaligned host address is the first field found wrong. -/
theorem CmdSpec.misaligned_haddr (hc : AllFrom 24 c.align) (hl : d.hlen ≠ 0) (ha : d.haddr.toNat % 64 ≠ 0) :
    c.misaligned d = some 16 := by
  have hb : (d.hlen != 0 && d.haddr.toNat % 64 != 0) = true := by
    rw [Bool.and_eq_true, bne_iff_ne, bne_iff_ne]; exact ⟨hl, ha⟩
  have hmin : AllFrom 16 c.align := fun o ho => Nat.le_trans (by decide) (hc o ho)
  simp only [CmdSpec.misaligned, hb, ↓reduceIte]
  refine least_eq_some (by simp) (?_ : AllFrom 16 _)
  simp [hmin]

/-- With the buffer aligned only an ARGS or TARGET field can be misaligned. -/
theorem CmdSpec.misaligned_of_buffer (ha : d.hlen = 0 ∨ d.haddr.toNat % 64 = 0) (hl : d.hlen.toNat % 4 = 0) :
    c.misaligned d = least c.align := by
  have hb : (d.hlen != 0 && d.haddr.toNat % 64 != 0) = false := by rcases ha with h | h <;> simp [h]
  simp only [CmdSpec.misaligned, hb, hl, bne_self_eq_false, Bool.false_eq_true, ↓reduceIte, List.nil_append]

/-- CSEQ is the first field out of range. -/
theorem CmdSpec.outOfRange_cseq (hc : AllFrom 3 c.range) (hq : d.cseq ≠ q) : c.outOfRange d q = some 2 := by
  have hrange : AllFrom 2 c.range := fun o ho => Nat.le_trans (by decide) (hc o ho)
  have hstray : AllFrom 2 (d.stray c.sizes) := fun o ho => Nat.le_trans (by decide) (allFrom_stray d _ o ho)
  refine least_eq_some (by simp [hq]) (?_ : AllFrom 2 _)
  simp [hrange, hstray]

end

/-- A descriptor of the command's own opcode, in a mode and on a ring that take the command. -/
theorem CmdSpec.Fits.serves {c : CmdSpec} {op n : Nat} {lantern : Bool} {s : State} {d : Desc}
    (hc : c.Fits op lantern) (ho : d.opcode.toNat = op) (hl : s.power.phase = .lantern → lantern = true)
    (hn : op = 3 ∨ op = 4 → n = 0) : s.Serves n c d where
  known := ho ▸ hc.known
  lantern h := hc.lantern_eq.trans (hl h)
  ring0 h := hn (by simpa [hc.ring0_eq] using h)

/-- Settles O34: each command is a `hostCmd` under rules that fit it (`exec_eq_hostCmd`), and what such a
`hostCmd` does is what its first failing check says. -/
theorem commandsRefused : Obligations.CommandsRefused := by
  unfold Obligations.CommandsRefused
  intro i r d op lantern s h
  obtain ⟨b, c, go, hexec, hc⟩ := exec_eq_hostCmd s h
  obtain rfl := hc.op_eq
  simp only [hexec, Host.Outcome.next.injEq]
  refine ⟨State.hostCmd_offTurn, State.hostCmd_otherOp, fun ht => ⟨?_, ?_, ?_, ?_⟩⟩
  · intro ho hl hn
    exact State.hostCmd_refused ht (.inl ho)
      (State.firstFail_lantern hl (hc.lantern_eq.trans hn)) (by decide) (by decide)
  · rintro (hk | ⟨ho, hr⟩) hl
    · exact State.hostCmd_refused ht (.inr hk) (State.firstFail_opcode hl (.inl hk)) (by decide) (by decide)
    · obtain ⟨h34, hr⟩ := Classical.not_imp.mp hr
      refine State.hostCmd_refused ht (.inl ho) (State.firstFail_opcode hl (.inr ⟨?_, ?_⟩))
        (by decide) (by decide)
      · simpa [hc.ring0_eq] using h34
      · exact fun h => hr (Fin.ext h)
  · rintro ho ⟨hl, hr⟩ hlen haddr
    have hs : s.Serves r.val c d := hc.serves ho hl fun h => by simp [hr h]
    exact State.hostCmd_refused ht (.inl ho)
      (State.firstFail_align hs (CmdSpec.misaligned_haddr hc.align hlen haddr)) (by decide) (by decide)
  · rintro ho ⟨hl, hr⟩ hbuf hlen hq
    have hs : s.Serves r.val c d := hc.serves ho hl fun h => by simp [hr h]
    have hmis := CmdSpec.misaligned_of_buffer (c := c) hbuf hlen
    cases ha : least c.align with
    | none =>
      exact .inl <| State.hostCmd_refused ht (.inl ho)
        (State.firstFail_range hs (hmis.trans ha) (CmdSpec.outOfRange_cseq hc.range hq)) (by decide) (by decide)
    | some o =>
      exact .inr ⟨o, hc.align o (mem_of_least ha), State.hostCmd_refused ht (.inl ho)
        (State.firstFail_align hs (hmis.trans ha)) (by decide) (by decide)⟩

end Sys2Proof.Machine
end

section
/-! PROOFS. The Cellar: its spills, its page-ins and its purge (R62-R64, R109-R113, R118, R322). -/

namespace Sys2Proof.Machine
open Sys2Proof

/-! ## What the shared operations leave of the Palettes and of the Cellar -/

@[simp] theorem State.pal_modPal_same (s : State) (n : Nat) (f : Palette → Palette) :
    ((s.modPal n f).cell n).pal = f (s.cell n).pal := by
  simp [State.modPal]

theorem State.pal_modPal (s : State) (n m : Nat) (f : Palette → Palette) :
    ((s.modPal n f).cell m).pal = if m = n then f (s.cell n).pal else (s.cell m).pal := by
  simp only [State.modPal, State.cell_modCell]
  split <;> rfl

@[simp] theorem State.current_modPal (s : State) (n m : Nat) (f : Palette → Palette) :
    ((s.modPal n f).cell m).current = (s.cell m).current := by
  simp only [State.modPal, State.cell_modCell]
  split
  next h => subst h; rfl
  · rfl

@[simp] theorem State.palBump_eq_modPal (s : State) (n m : Nat) (k : PalCtr) :
    s.palBump n k m = s.modPal n fun p => { p with cnt := p.cnt.bump k.ctorIdx m } := rfl

@[simp] theorem State.cell_modCellar (s : State) (n : Nat) (f : Cellar → Cellar) :
    (s.modCellar f).cell n = s.cell n := rfl

@[simp] theorem State.cellarBump_eq_modCellar (s : State) (k : CellarCtr) (m : Nat) :
    s.cellarBump k m = s.modCellar fun c => { c with cnt := c.cnt.bump k.ctorIdx m } := rfl

/-- An event changes the host interface alone. -/
theorem State.postEvent_frame (s : State) (ev cause d0 d1 : Nat) (x y : Bool) :
    ∃ h, s.postEvent ev cause d0 d1 x y = { s with host := h } := by
  simp only [State.postEvent, State.postEventAt]
  split
  · exact ⟨_, rfl⟩
  · split <;> exact ⟨_, rfl⟩

@[simp] theorem State.postEvent_cellar (s : State) (ev cause d0 d1 : Nat) (x y : Bool) :
    (s.postEvent ev cause d0 d1 x y).cellar = s.cellar := by
  obtain ⟨h, e⟩ := s.postEvent_frame ev cause d0 d1 x y
  rw [e]

@[simp] theorem State.postEvent_cell (s : State) (ev cause d0 d1 : Nat) (x y : Bool) (n : Nat) :
    (s.postEvent ev cause d0 d1 x y).cell n = s.cell n := by
  obtain ⟨h, e⟩ := s.postEvent_frame ev cause d0 d1 x y
  rw [e]; rfl

/-- The stall detector changes its own state and its timer alone. -/
theorem State.stallCheck_frame (s : State) : ∃ st at',
    s.stallCheck = s.modCellar fun c => { c with stall := st, stallAt := at' } := by
  unfold State.stallCheck
  split
  · split
    · exact ⟨_, _, rfl⟩
    · exact ⟨s.cellar.stall, s.cellar.stallAt, rfl⟩
  · split
    · exact ⟨s.cellar.stall, s.cellar.stallAt, rfl⟩
    · exact ⟨_, s.cellar.stallAt, rfl⟩
  · exact ⟨s.cellar.stall, s.cellar.stallAt, rfl⟩

@[simp] theorem State.stallCheck_cell (s : State) (n : Nat) : s.stallCheck.cell n = s.cell n := by
  obtain ⟨st, at', e⟩ := s.stallCheck_frame
  rw [e]; rfl

@[simp] theorem State.stallCheck_pages (s : State) : s.stallCheck.cellar.pages = s.cellar.pages := by
  obtain ⟨st, at', e⟩ := s.stallCheck_frame
  rw [e]; rfl

@[simp] theorem State.stallCheck_lists (s : State) : s.stallCheck.cellar.lists = s.cellar.lists := by
  obtain ⟨st, at', e⟩ := s.stallCheck_frame
  rw [e]; rfl

@[simp] theorem State.stallCheck_channel (s : State) : s.stallCheck.cellar.channel = s.cellar.channel := by
  obtain ⟨st, at', e⟩ := s.stallCheck_frame
  rw [e]; rfl

@[simp] theorem State.stallCheck_pageins (s : State) : s.stallCheck.cellar.pageins = s.cellar.pageins := by
  obtain ⟨st, at', e⟩ := s.stallCheck_frame
  rw [e]; rfl

@[simp] theorem State.stallCheck_purges (s : State) : s.stallCheck.cellar.purges = s.cellar.purges := by
  obtain ⟨st, at', e⟩ := s.stallCheck_frame
  rw [e]; rfl

@[simp] theorem State.stallCheck_cnt (s : State) : s.stallCheck.cellar.cnt = s.cellar.cnt := by
  obtain ⟨st, at', e⟩ := s.stallCheck_frame
  rw [e]; rfl

/-- The mark of CELLAR_HIGH changes the host interface and its own flag alone (R119). -/
theorem State.cellarMark_frame (s : State) : ∃ h b,
    s.cellarMark = { s with host := h, cellar := { s.cellar with highRaised := b } } := by
  unfold State.cellarMark
  split
  · exact ⟨s.host, s.cellar.highRaised, rfl⟩
  · split
    · obtain ⟨h, e⟩ := (s.modCellar fun c => { c with highRaised := true }).postEvent_frame 304 0x48 0 0 false false
      exact ⟨h, true, e⟩
    · exact ⟨s.host, s.cellar.highRaised, rfl⟩

@[simp] theorem State.cellarMark_cell (s : State) (n : Nat) : s.cellarMark.cell n = s.cell n := by
  obtain ⟨h, b, e⟩ := s.cellarMark_frame
  rw [e]; rfl

@[simp] theorem State.cellarMark_pages (s : State) : s.cellarMark.cellar.pages = s.cellar.pages := by
  obtain ⟨h, b, e⟩ := s.cellarMark_frame
  rw [e]

@[simp] theorem State.cellarMark_channel (s : State) : s.cellarMark.cellar.channel = s.cellar.channel := by
  obtain ⟨h, b, e⟩ := s.cellarMark_frame
  rw [e]

/-! ## Spills (R62, R63, R111) -/

@[simp] theorem Palette.hadSpill_entries (p : Palette) (g : Nat) : (p.hadSpill g).entries = p.entries := rfl

section

variable {s : State} {c : Fin 128} {sp : Spill} {rest : List Spill}

theorem spillPageGrant_noPage (hs : (s.cell c.val).pal.spills = sp :: rest) (hp : sp.page = none)
    (hn : s.nextPage = none) : ∃ t, exec (.spillPageGrant c) s = .next t ∧
      (t.cell c.val).pal.spills = rest ∧ t.cellar.pages = s.cellar.pages ∧
      t.cellar.cnt = s.cellar.cnt.bump CellarCtr.cellarEmpty.ctorIdx 1 := by
  simp only [exec, execSpillPageGrant, hs, hp, hn, Option.isSome_none, Bool.false_eq_true, ↓reduceIte,
    Host.Outcome.next.injEq, exists_eq_left']
  split <;> simp

theorem spillPageGrant_noVictim {pg : Nat} (hs : (s.cell c.val).pal.spills = sp :: rest) (hp : sp.page = none)
    (hn : s.nextPage = some pg) (hv : (s.cell c.val).pal.spillVictims sp.group sp.set = []) :
    ∃ t, exec (.spillPageGrant c) s = .next t ∧ (t.cell c.val).pal.spills = rest ∧
      t.cellar.pages = s.cellar.pages ∧ t.cellar.cnt = s.cellar.cnt := by
  simp [exec, execSpillPageGrant, hs, hp, hn, hv]

theorem spillPageGrant_page {pg : Nat} (hs : (s.cell c.val).pal.spills = sp :: rest) (hp : sp.page = none)
    (hn : s.nextPage = some pg) (hv : (s.cell c.val).pal.spillVictims sp.group sp.set ≠ []) :
    ∃ t, exec (.spillPageGrant c) s = .next t ∧
      t.cellar.pages = s.cellar.pages.set none pg
        (some { cell := c.val, group := sp.group, linked := false, tSpill := 0, slots := [] }) ∧
      t.cellar.channel = (pg % 64 + 1) % 64 ∧
      (t.cell c.val).pal.spills =
        { sp with page := some pg, victims := (s.cell c.val).pal.spillVictims sp.group sp.set } :: rest ∧
      (t.cell c.val).pal.entries = (s.cell c.val).pal.entries := by
  simp [exec, execSpillPageGrant, hs, hp, hn, hv, channelOf]

/-! Freeing an entry changes its place and the pool alone. -/

theorem Palette.freeBlk_frame (p : Palette) (b : Blk) :
    ∃ i j, p.freeBlk b = { p with rsvBlocks := i, shBlocks := j } := by
  cases b
  · exact ⟨p.rsvBlocks, p.shBlocks, rfl⟩
  · exact ⟨_, p.shBlocks, rfl⟩
  · exact ⟨p.rsvBlocks, _, rfl⟩

/-- What changes the pool for each operand changes the pool alone. -/
theorem Palette.foldl_pool {g : Palette → Operand → Palette}
    (h : ∀ p o, ∃ i j, g p o = { p with rsvBlocks := i, shBlocks := j }) (l : List Operand) (p : Palette) :
    ∃ i j, l.foldl g p = { p with rsvBlocks := i, shBlocks := j } := by
  induction l generalizing p with
  | nil => exact ⟨p.rsvBlocks, p.shBlocks, rfl⟩
  | cons o l ih =>
    obtain ⟨i, j, e⟩ := h p o
    obtain ⟨i', j', e'⟩ := ih (g p o)
    exact ⟨i', j', by rw [List.foldl_cons, e', e]⟩

theorem Palette.freeEntry_frame (p : Palette) (k : Nat) :
    ∃ i j, p.freeEntry k = { p with entries := p.entries.set {} k {}, rsvBlocks := i, shBlocks := j } :=
  Palette.foldl_pool (fun p o => p.freeBlk_frame o.blk) ..

@[simp] theorem Palette.freeEntry_entries (p : Palette) (k : Nat) :
    (p.freeEntry k).entries = p.entries.set {} k {} := by
  obtain ⟨i, j, e⟩ := p.freeEntry_frame k
  rw [e]

@[simp] theorem Palette.freeEntry_depth (p : Palette) (k : Nat) : (p.freeEntry k).depth = p.depth := by
  obtain ⟨i, j, e⟩ := p.freeEntry_frame k
  rw [e]

theorem spillSlotAck_victim {slot : Fin 64} {pg set way : Nat} {p : Page} (hs : (s.cell c.val).pal.spills = [sp])
    (hpg : sp.page = some pg) (hp : s.cellar.pages.get none pg = some p)
    (hv : sp.victims.find? (fun v => v.1 % 64 == slot.val) = some (set, way))
    (ha : sp.acked.contains slot.val = false) :
    ∃ t, exec (.spillSlotAck c ⟨slot, []⟩) s = .next t ∧
      t.cellar.pages.get none pg =
        some { p with slots := p.slots.ins slot.val ((s.cell c.val).pal.at (4 * set + way)) } ∧
      (t.cell c.val).pal.entries = (s.cell c.val).pal.entries.set {} (4 * set + way) {} ∧
      (t.cell c.val).pal.spills = [{ sp with acked := sp.acked ++ [slot.val] }] ∧
      (t.cell c.val).pal.depth = (s.cell c.val).pal.depth.upd 0 set fun d => (d + 1) % 2 ^ 32 := by
  have hn : slot.val ∉ sp.acked := by simpa using ha
  simp [exec, execSpillSlotAck, hs, hpg, hp, hv, hn, State.readEntry, State.depthAdd]

end

/-! ## How slots leave the pages -/

/-- From `s` to `t` pages have only lost slots, and those that `gone` picks, by page and slot, are lost. -/
def State.Sheds (s t : State) (gone : Nat → Nat × Entry → Prop) : Prop :=
  ∀ k q, t.cellar.pages.get none k = some q →
    ∃ p, s.cellar.pages.get none k = some p ∧ ∀ e ∈ q.slots, e ∈ p.slots ∧ ¬gone k e

theorem State.Sheds.refl (s : State) : s.Sheds s fun _ _ => False :=
  fun _ q h => ⟨q, h, fun _ he => ⟨he, id⟩⟩

theorem State.Sheds.trans {s t u : State} {A B : Nat → Nat × Entry → Prop} (h : s.Sheds t A) (h' : t.Sheds u B) :
    s.Sheds u fun k e => A k e ∨ B k e := by
  intro k q hq
  obtain ⟨p, hp, hqp⟩ := h' k q hq
  obtain ⟨o, ho, hpo⟩ := h k p hp
  refine ⟨o, ho, fun e he => ?_⟩
  obtain ⟨hep, hB⟩ := hqp e he
  obtain ⟨heo, hA⟩ := hpo e hep
  exact ⟨heo, not_or.mpr ⟨hA, hB⟩⟩

/-- What is lost may be described by the slots that there were. -/
theorem State.Sheds.imp {s t : State} {A B : Nat → Nat × Entry → Prop} (h : s.Sheds t A)
    (hBA : ∀ k p e, s.cellar.pages.get none k = some p → e ∈ p.slots → B k e → A k e) : s.Sheds t B := by
  intro k q hq
  obtain ⟨p, hp, hqp⟩ := h k q hq
  refine ⟨p, hp, fun e he => ?_⟩
  obtain ⟨hep, hA⟩ := hqp e he
  exact ⟨hep, fun hB => hA (hBA k p e hp hep hB)⟩

theorem State.Sheds.foldl {β : Type} {g : State → β → State} {A : β → Nat → Nat × Entry → Prop}
    (h : ∀ (s : State) b, s.Sheds (g s b) (A b)) (l : List β) (s : State) :
    s.Sheds (l.foldl g s) fun k e => ∃ b ∈ l, A b k e := by
  induction l generalizing s with
  | nil => simpa using State.Sheds.refl s
  | cons b l ih => simpa using (h s b).trans (ih (g s b))

theorem foldl_same {α β : Type} (f : State → α) {g : State → β → State} (h : ∀ s b, f (g s b) = f s) (l : List β)
    (s : State) : f (l.foldl g s) = f s := by
  induction l generalizing s with
  | nil => rfl
  | cons b l ih => exact (ih (g s b)).trans (h s b)

/-- The page without a slot, or none when it was the last (R113). -/
def Page.without (p : Page) (j : Nat) : Option Page :=
  if p.slots.del j = [] then none else some { p with slots := p.slots.del j }

theorem State.freePage_pages (s : State) (pg k : Nat) :
    (s.freePage pg).cellar.pages.get none k = if k = pg then none else s.cellar.pages.get none k := by
  unfold State.freePage
  split
  next h =>
    split
    next e => rw [e, h]
    · rfl
  · simp [Tab.get_set]

theorem State.clearSlot_pages (s : State) (pg j k : Nat) :
    (s.clearSlot pg j).cellar.pages.get none k =
      if k = pg then (s.cellar.pages.get none pg).bind fun p => p.without j else s.cellar.pages.get none k := by
  unfold State.clearSlot
  split
  next h =>
    split
    next e => rw [e, h]; rfl
    · rfl
  next p h =>
    by_cases he : p.slots.del j = []
    · simp +contextual [h, he, State.freePage_pages, Page.without, Tab.get_set]
    · simp [h, he, Page.without, Tab.get_set]

/-- A freed page changes the Cellar alone, and there neither the page-ins nor the purges. -/
theorem State.freePage_frame (s : State) (pg : Nat) : ∃ x : Cellar, s.freePage pg = { s with cellar := x } ∧
    x.pageins = s.cellar.pageins ∧ x.purges = s.cellar.purges := by
  unfold State.freePage
  split
  · exact ⟨s.cellar, rfl, rfl, rfl⟩
  · exact ⟨_, rfl, rfl, rfl⟩

theorem State.clearSlot_frame (s : State) (pg j : Nat) : ∃ x : Cellar, s.clearSlot pg j = { s with cellar := x } ∧
    x.pageins = s.cellar.pageins ∧ x.purges = s.cellar.purges := by
  unfold State.clearSlot
  split
  · exact ⟨s.cellar, rfl, rfl, rfl⟩
  next p _ =>
    dsimp only
    split
    · exact State.freePage_frame (s.modCellar _) pg
    · exact ⟨_, rfl, rfl, rfl⟩

@[simp] theorem State.clearSlot_cell (s : State) (pg j n : Nat) : (s.clearSlot pg j).cell n = s.cell n := by
  obtain ⟨x, e, -, -⟩ := s.clearSlot_frame pg j
  rw [e]; rfl

@[simp] theorem State.clearSlot_pageins (s : State) (pg j : Nat) :
    (s.clearSlot pg j).cellar.pageins = s.cellar.pageins := by
  obtain ⟨x, e, hi, -⟩ := s.clearSlot_frame pg j
  rw [e, ← hi]

@[simp] theorem State.clearSlot_purges (s : State) (pg j : Nat) :
    (s.clearSlot pg j).cellar.purges = s.cellar.purges := by
  obtain ⟨x, e, -, hu⟩ := s.clearSlot_frame pg j
  rw [e, ← hu]

theorem State.clearSlot_sheds (s : State) (pg j : Nat) :
    s.Sheds (s.clearSlot pg j) fun k e => k = pg ∧ e.1 = j := by
  intro k q hq
  rw [State.clearSlot_pages] at hq
  split at hq
  next hk =>
    obtain ⟨p, hp, hpq⟩ := Option.bind_eq_some_iff.mp hq
    unfold Page.without at hpq
    split at hpq
    · cases hpq
    · cases hpq
      exact ⟨p, hk ▸ hp, fun e he => ⟨Tab.del_mem _ _ e he, fun h => Tab.del_ne _ _ e he h.2⟩⟩
  next hk => exact ⟨q, hq, fun e he => ⟨he, fun h => hk h.1⟩⟩

/-- Clearing the slots of a page that `f` picks, one after the other, whatever else is done with each. -/
theorem State.sheds_clear_filter {s : State} {pg : Nat} {p : Page} {g : State → Nat × Entry → State}
    (hp : s.cellar.pages.get none pg = some p)
    (hg : ∀ s h, (g s h).cellar.pages = (s.clearSlot pg h.1).cellar.pages) (f : Nat × Entry → Bool) :
    s.Sheds ((p.slots.filter f).foldl g s) fun k e => k = pg ∧ f e = true := by
  have hstep (s : State) (h : Nat × Entry) : s.Sheds (g s h) fun k e => k = pg ∧ e.1 = h.1 := by
    simpa only [State.Sheds, hg] using s.clearSlot_sheds pg h.1
  refine (State.Sheds.foldl hstep (p.slots.filter f) s).imp ?_
  rintro k o e ho he ⟨rfl, hf⟩
  obtain rfl : o = p := Option.some.inj (ho.symm.trans hp)
  exact ⟨e, List.mem_filter.mpr ⟨he, hf⟩, rfl, rfl⟩

/-- Nothing is on a page that is not in use. -/
theorem State.sheds_of_unused {s : State} {pg : Nat} (h : s.cellar.pages.get none pg = none)
    (f : Nat × Entry → Prop) : s.Sheds s fun k e => k = pg ∧ f e :=
  (State.Sheds.refl s).imp fun _ _ _ hp _ hk => by simp [← hk.1, hp] at h

@[simp] theorem State.returnCredit_cellar (s : State) (u ctx gen n : Nat) :
    (s.returnCredit u ctx gen n).cellar = s.cellar := by
  unfold State.returnCredit
  split <;> rfl

@[simp] theorem State.returnCredit_cell (s : State) (u ctx gen n m : Nat) :
    (s.returnCredit u ctx gen n).cell m = s.cell m := by
  unfold State.returnCredit
  split <;> rfl

theorem State.purgeParity_sheds (s : State) (ctx gen : Nat) (epar : Bool) (pg : Nat) :
    s.Sheds (s.purgeParity ctx gen epar pg) fun k e => k = pg ∧ e.2.hasParity ctx gen epar = true := by
  unfold State.purgeParity
  split
  next h => exact State.sheds_of_unused h _
  next p h => exact State.sheds_clear_filter h (by simp [State.depthSub]) _

@[simp] theorem State.spills_depthSub (s : State) (m set n : Nat) :
    ((s.depthSub m set).cell n).pal.spills = (s.cell n).pal.spills := by
  rw [State.depthSub, State.pal_modPal]
  split
  next h => rw [h]
  · rfl

theorem State.spills_purgeParity (s : State) (ctx gen : Nat) (epar : Bool) (pg n : Nat) :
    ((s.purgeParity ctx gen epar pg).cell n).pal.spills = (s.cell n).pal.spills := by
  unfold State.purgeParity
  split
  · rfl
  · exact foldl_same (fun s => (s.cell n).pal.spills) (by simp) ..

theorem spillLink_acked {s : State} {c : Fin 128} {sp : Spill} {rest : List Spill} {pg : Nat} {p : Page}
    (hs : (s.cell c.val).pal.spills = sp :: rest) (hpg : sp.page = some pg)
    (ha : ∀ v ∈ sp.victims, v.1 % 64 ∈ sp.acked) (hp : s.cellar.pages.get none pg = some p) (hn : p.slots ≠ []) :
    ∃ u : State, (u.cell c.val).pal.spills = rest ∧
      u.cellar.pages.get none pg = some { p with linked := true, tSpill := s.time.t64 } ∧
      u.cellar.lists.get [] (32 * c.val + sp.group) = pg :: s.cellar.lists.get [] (32 * c.val + sp.group) ∧
      exec (.spillLink c) s =
        .next (sp.parities.foldl (fun s e => s.purgeParity e.1 e.2.1 e.2.2 pg) u).stallCheck := by
  have hall : (sp.victims.all fun v => sp.acked.contains (v.1 % 64)) = true := by simpa using ha
  simp only [exec, execSpillLink, hs, hpg, hall, State.modPal_cellar, hp, beq_eq_false_iff_ne.mpr hn, Bool.not_true,
    Bool.false_eq_true, ↓reduceIte]
  refine ⟨_, ?_, ?_, ?_, rfl⟩ <;> simp

/-- Settles O27: each step of a spill by its lemma; what an abandoned parity leaves by `purgeParity_sheds`. -/
theorem cellarSpills : Obligations.CellarSpills := by
  unfold Obligations.CellarSpills
  refine ⟨fun s c sp rest hs hp => ⟨spillPageGrant_noPage hs hp, fun pg => spillPageGrant_noVictim hs hp,
    fun pg => spillPageGrant_page hs hp⟩, ?ack, ?link⟩
  case ack =>
    intro s c slot sp pg p set way hs hpg hp hv ha
    obtain ⟨t, ht, hpage, hent, hsp, hd⟩ := spillSlotAck_victim hs hpg hp hv ha
    refine ⟨t, ht, hpage, ?_, fun k hk => ?_, hsp, ?_⟩
    · rw [Palette.at, hent, Tab.get_set_same]
    · rw [Palette.at, hent, Tab.get_set_other _ _ _ hk, Palette.at]
    · rw [hd, Tab.get_upd_same]
  case link =>
    intro s c sp rest pg p hs hpg ha hp hn
    obtain ⟨u, hu, hpage, hlist, hexec⟩ := spillLink_acked hs hpg ha hp hn
    have hshed := State.Sheds.foldl (fun (s : State) (x : Nat × Nat × Bool) =>
      s.purgeParity_sheds x.1 x.2.1 x.2.2 pg) sp.parities u
    refine ⟨_, hexec, ?_, fun hnone => ?_, fun x hx q hq e he => ?_⟩
    · rw [State.stallCheck_cell]
      exact (foldl_same (fun s => (s.cell c.val).pal.spills) (fun s x => s.spills_purgeParity ..) ..).trans hu
    · simp [hnone, hpage, hlist]
    · rw [State.stallCheck_pages] at hq
      obtain ⟨_, _, hlost⟩ := hshed pg q hq
      exact Bool.eq_false_iff.mpr fun h => (hlost e he).2 ⟨x, hx, rfl, h⟩

end Sys2Proof.Machine
end

section
/-! PROOFS. The Cellar's page-ins and its purge (R40, R64, R73, R112, R113, R118). -/

namespace Sys2Proof.Machine
open Sys2Proof

/-! ## PAGEIN_REQUEST and PAGEIN_NONE -/

/-- A page holds the key in the slot. -/
def Cellar.Holds (c : Cellar) (slot : Nat) (key : Entry) (pg : Nat) : Prop :=
  ∃ e, c.slotAt pg slot = some e ∧ e.sameKey key = true

section

variable {c : Cellar} {slot : Nat} {key : Entry}

theorem Cellar.walk_cons_hit {pg : Nat} (h : c.Holds slot key pg) (l : List Nat) :
    c.walk slot key (pg :: l) = (some pg, 1) := by
  obtain ⟨e, he, hk⟩ := h
  simp [Cellar.walk, he, hk]

theorem Cellar.walk_cons_miss {pg : Nat} (h : ¬c.Holds slot key pg) (l : List Nat) :
    c.walk slot key (pg :: l) = ((c.walk slot key l).1, (c.walk slot key l).2 + 1) := by
  cases he : c.slotAt pg slot with
  | none => simp [Cellar.walk, he]
  | some e =>
    have hk : e.sameKey key = false := Bool.eq_false_iff.mpr fun hk => h ⟨e, he, hk⟩
    simp [Cellar.walk, he, hk]

/-- The walk passes the pages before the first that holds the key. -/
theorem Cellar.walk_append {a : List Nat} (h : ∀ pg ∈ a, ¬c.Holds slot key pg) (l : List Nat) :
    c.walk slot key (a ++ l) = ((c.walk slot key l).1, (c.walk slot key l).2 + a.length) := by
  induction a with
  | nil => rfl
  | cons pg a ih =>
    obtain ⟨hpg, ha⟩ := List.forall_mem_cons.mp h
    simp [Cellar.walk_cons_miss hpg, ih ha, Nat.add_assoc]

end

theorem State.headerErrs_nil (s : State) (l : List Nat) : s.headerErrs l [] = s := rfl

/-- The entries beside the requested one that a page is asked for: at most 8, of sets with a free way (R112). -/
def PageIn.extra (r : PageIn) (slots : Tab Entry) : List (Nat × Entry) :=
  (slots.filter fun e => e.1 != r.set % 64 && r.mask.testBit e.1).take 8

theorem PageIn.length_extra_le (r : PageIn) (slots : Tab Entry) : (r.extra slots).length ≤ 8 :=
  List.length_take_le ..

theorem PageIn.mem_extra {r : PageIn} {slots : Tab Entry} {e : Nat × Entry} (h : e ∈ r.extra slots) :
    e.1 ≠ r.set % 64 ∧ r.mask.testBit e.1 = true ∧ e ∈ slots := by
  obtain ⟨hm, hp⟩ := List.mem_filter.mp (List.mem_of_mem_take h)
  simp only [Bool.and_eq_true, bne_iff_ne] at hp
  exact ⟨hp.1, hp.2, hm⟩

/-- The slots of a page by number. -/
def Cellar.slotsOf (c : Cellar) (pg : Nat) : Tab Entry :=
  match c.pages.get none pg with
  | some p => p.slots
  | none => []

theorem Cellar.mem_slotsOf {c : Cellar} {pg : Nat} {e : Nat × Entry} (h : e ∈ c.slotsOf pg) :
    ∃ p, c.pages.get none pg = some p ∧ e ∈ p.slots := by
  unfold Cellar.slotsOf at h
  split at h
  next p hp => exact ⟨p, hp, h⟩
  · cases h

/-- The record of a page-in whose walk ended at a page, or at none. -/
def Cellar.walked (c : Cellar) (r : PageIn) : Option Nat → PageIn
  | none => { r with taken := true, none := true }
  | some pg =>
    { r with taken := true
             slots := (pg, r.set % 64, r.key) :: (r.extra (c.slotsOf pg)).map fun e => (pg, e.1, e.2) }

/-- Every token goes on waiting when "none" is answered (R64). -/
theorem State.toldNone_tokens (s : State) (n : Nat) (key : Entry) :
    ((s.toldNone n key).cell n).pal.wait.map (·.1) = (s.cell n).pal.wait.map (·.1) := by
  rw [State.toldNone, State.pal_modPal_same, List.map_map]
  refine List.map_congr_left fun e _ => ?_
  dsimp only [Function.comp]
  split <;> rfl

/-- None of them waits for a page-in of the key any longer. -/
theorem State.toldNone_told (s : State) (n : Nat) (key : Entry) :
    ∀ e ∈ ((s.toldNone n key).cell n).pal.wait, e.2 = .pagein → key.sameKey (keyEntryOf e.1.tag) = false := by
  rw [State.toldNone, State.pal_modPal_same, List.forall_mem_map]
  intro e _
  split
  · simp
  next h => simpa using h

section

variable {s : State} {c : Fin 128} {i : Fin 4} {r : PageIn}

/-- PAGEIN_REQUEST takes a request that has a place and no spill of its list in its way. -/
theorem pageinRequest_taken {pg : Option Nat} {k : Nat} (hr : s.pageinAt c.val i.val = some r)
    (ht : r.taken = false) (hroom : (s.cellar.pageins.filter fun p => p.taken).length < 16)
    (hfree : ∀ sp ∈ (s.cell c.val).pal.spills, sp.page = none ∨ sp.group ≠ r.set / 64)
    (hw : s.cellar.walk (r.set % 64) r.key (s.cellar.lists.get [] (32 * c.val + r.set / 64)) = (pg, k)) :
    exec (.pageinRequest c i []) s = .next ((s.cellarBump .headerWalk k).setPagein r (s.cellar.walked r pg)) := by
  have hbusy : ¬16 ≤ (s.cellar.pageins.filter fun p => p.taken).length := Nat.not_le.mpr hroom
  have hwriting : ((s.cell c.val).pal.spills.any fun sp => sp.page.isSome && sp.group == r.set / 64) = false := by
    refine List.any_eq_false.mpr fun sp hsp => ?_
    rcases hfree sp hsp with h | h <;> simp [h]
  simp only [exec, execPageinRequest, hr, ht, hbusy, hwriting, hw, State.headerErrs_nil, decide_false, Bool.or_self,
    Bool.false_eq_true, ↓reduceIte]
  cases pg <;> rfl

theorem pageinNone_told (hr : s.pageinAt c.val i.val = some r) (ht : r.taken = true) (hn : r.none = true) :
    ∃ t, exec (.pageinNone c i) s = .next t ∧ t.cellar.pageins = s.cellar.pageins.erase r ∧
      (t.cell c.val).pal.entries = (s.cell c.val).pal.entries ∧
      (t.cell c.val).pal.wait.map (·.1) = (s.cell c.val).pal.wait.map (·.1) ∧
      (∀ e ∈ (t.cell c.val).pal.wait, e.2 = .pagein → r.key.sameKey (keyEntryOf e.1.tag) = false) ∧
      t.cellar.cnt = s.cellar.cnt.bump CellarCtr.pageinNone.ctorIdx 1 := by
  simp only [exec, execPageinNone, hr, ht, hn, Bool.and_self, ↓reduceIte, Host.Outcome.next.injEq, exists_eq_left']
  refine ⟨rfl, ?_, (s.dropPagein r).toldNone_tokens .., (s.dropPagein r).toldNone_told _ _, rfl⟩
  simp [State.toldNone, State.dropPagein]

end

/-! ## PAGEIN_RETURN -/

/-- An operand as it comes back from the Cellar: with SPILLED, and a block of the shared pool when it needs
one (R64). -/
def Operand.restored (o : Operand) : Operand :=
  { o with spilled := true, blk := if o.len ≤ 1 then .none else .shared }

def Entry.restored (e : Entry) : Entry :=
  { e with a := e.a.map Operand.restored, b := e.b.map Operand.restored, c := e.c.map Operand.restored }

theorem Entry.restored_sameKey (e : Entry) : e.restored.sameKey e = true := by
  simp [Entry.sameKey, Entry.restored]

theorem Entry.restored_port (e : Entry) (p : Nat) : e.restored.port p = (e.port p).map Operand.restored := by
  unfold Entry.port
  split
  · rfl
  · split <;> rfl

theorem Palette.takeBlk_frame (p : Palette) (b : Blk) :
    ∃ i j, p.takeBlk b = { p with rsvBlocks := i, shBlocks := j } := by
  cases b
  · exact ⟨p.rsvBlocks, p.shBlocks, rfl⟩
  · exact ⟨_, p.shBlocks, rfl⟩
  · exact ⟨p.rsvBlocks, _, rfl⟩

@[simp] theorem State.restore_cellar (s : State) (n set way : Nat) (e : Entry) :
    (s.restore n set way e).cellar = s.cellar := rfl

/-- A restored entry stands in its way, with every operand as it comes back. -/
theorem State.restore_eq (s : State) (n set way : Nat) (e : Entry) : s.restore n set way e =
    (s.modPal n fun p => e.restored.operands.foldl (fun p o => p.takeBlk o.blk)
      (({ p with entries := p.entries.set {} (4 * set + way) e.restored } : Palette).touch set way)).palBump
        n .spilledIn := by
  obtain ⟨st, node, ctx, gen, iter, bell, cls, need, a, b, c, dup⟩ := e
  cases a <;> cases b <;> cases c <;> rfl

theorem State.restore_pal (s : State) (n set way : Nat) (e : Entry) : ∃ o i j k,
    ((s.restore n set way e).cell n).pal = { (s.cell n).pal with
      entries := (s.cell n).pal.entries.set {} (4 * set + way) e.restored
      order := o, rsvBlocks := i, shBlocks := j, cnt := k } := by
  rw [State.restore_eq, State.palBump_eq_modPal, State.pal_modPal_same, State.pal_modPal_same]
  obtain ⟨i, j, h⟩ := Palette.foldl_pool (fun p o => p.takeBlk_frame o.blk) e.restored.operands
    (({ (s.cell n).pal with
      entries := (s.cell n).pal.entries.set {} (4 * set + way) e.restored } : Palette).touch set way)
  rw [h]
  exact ⟨_, i, j, _, rfl⟩

/-- With no token waiting nothing is applied to an entry that has come back. -/
theorem State.applyWaiting_none {s : State} {n : Nat} (h : (s.cell n).pal.wait = []) (key : Entry) (mem : MemErr) :
    s.applyWaiting n key mem = s := by
  simp [State.applyWaiting, h]

section

variable {s : State} {n : Nat} {r : PageIn} {set : Nat} {e : Entry} {b : Bool}

theorem State.landPagein_stays (hg : r.got = some (set, e, b)) (hc : (s.cell n).current e.ctx e.gen = true)
    (hw : (s.cell n).pal.freeWay set 2 = none ∨ 3584 < (s.cell n).pal.shBlocks + e.blocks) (mem : MemErr) :
    s.landPagein n r mem = s := by
  cases h : (s.cell n).pal.freeWay set 2 with
  | none => simp [State.landPagein, hg, hc, h]
  | some w => simp [State.landPagein, hg, hc, h, hw.resolve_left (by simp [h])]

theorem State.landPagein_way {w : Nat} (hg : r.got = some (set, e, b)) (hr : r.slots = [])
    (hc : (s.cell n).current e.ctx e.gen = true) (hw : (s.cell n).pal.freeWay set 2 = some w)
    (hb : (s.cell n).pal.shBlocks + e.blocks ≤ 3584) (hwait : (s.cell n).pal.wait = []) (mem : MemErr) :
    s.landPagein n r mem = (s.dropPagein r).restore n set w e := by
  have hnone : (((s.dropPagein r).restore n set w e).cell n).pal.wait = [] := by
    obtain ⟨_, _, _, _, h⟩ := (s.dropPagein r).restore_pal n set w e
    rw [h]; exact hwait
  simp [State.landPagein, hg, hc, hw, Nat.not_lt.mpr hb, State.nextPagein, hr, State.applyWaiting_none hnone]

end

/-- The record of a page-in whose wanted entry the cell has accepted (R73). -/
def PageIn.holding (r : PageIn) (slot : Nat) (e : Entry) : PageIn :=
  { r with slots := [], got := some (64 * (r.set / 64) + slot, e, true) }

/-- The cell has accepted the wanted entry `e`: its slot of the page is empty, and SPILL_DEPTH counts it no
longer. -/
structure State.Accepted (s u : State) (n : Nat) (r : PageIn) (pg slot : Nat) (e : Entry) : Prop where
  pageins : u.cellar.pageins = s.cellar.pageins.map fun y => if y == r then r.holding slot e else y
  slotAt  : u.cellar.slotAt pg slot = none
  pal     : ∃ k, (u.cell n).pal = { (s.cell n).pal with
    depth := (s.cell n).pal.depth.upd 0 (64 * (r.set / 64) + slot) fun d => d - 1, cnt := k }
  current : (u.cell n).current = (s.cell n).current

theorem Page.slotAt_without {p q : Page} {j : Nat} (h : p.without j = some q) : q.slotAt j = none := by
  unfold Page.without at h
  split at h
  · cases h
  · cases h
    simpa [Page.slotAt] using fun i e => Tab.del_ne p.slots j (i, e)

theorem Cellar.slotAt_clearSlot (s : State) (pg j : Nat) : (s.clearSlot pg j).cellar.slotAt pg j = none := by
  have h := s.clearSlot_pages pg j pg
  rw [if_pos rfl] at h
  unfold Cellar.slotAt
  split
  next q hq =>
    obtain ⟨p, -, hpq⟩ := Option.bind_eq_some_iff.mp (h.symm.trans hq)
    exact Page.slotAt_without hpq
  · rfl

theorem State.Accepted.palBump {s u : State} {n pg slot : Nat} {r : PageIn} {e : Entry}
    (h : s.Accepted u n r pg slot e) (k : PalCtr) (m : Nat) : s.Accepted (u.palBump n k m) n r pg slot e where
  pageins := h.pageins
  slotAt := h.slotAt
  pal := by
    obtain ⟨cnt, hcnt⟩ := h.pal
    rw [State.palBump_eq_modPal, State.pal_modPal_same, hcnt]
    exact ⟨_, rfl⟩
  current := by rw [State.palBump_eq_modPal, State.current_modPal, h.current]

theorem State.accepted (s : State) (n : Nat) (r : PageIn) (pg slot : Nat) (e : Entry) :
    s.Accepted ((((s.clearSlot pg slot).depthSub n (64 * (r.set / 64) + slot)).cellarBump .pageinServed).setPagein r
      (r.holding slot e)) n r pg slot e where
  pageins := by simp [State.setPagein, State.depthSub]
  slotAt := Cellar.slotAt_clearSlot s pg slot
  pal := ⟨(s.cell n).pal.cnt, by simp [State.setPagein, State.depthSub]⟩
  current := by simp [State.setPagein, State.depthSub]

/-- PAGEIN_RETURN of the last slot, with the wanted entry still there and free of errors: the cell accepts
it, and then looks for a way. -/
theorem State.takeSlotOf_wanted {s : State} {n : Nat} {r : PageIn} {pg slot : Nat} {key e : Entry} {p : Page}
    (hr : r.slots = [(pg, slot, key)]) (hk : key.sameKey r.key = true) (hp : s.cellar.pages.get none pg = some p)
    (hl : p.linked = true) (hpc : p.cell = n) (hpg : p.group = r.set / 64)
    (he : s.cellar.slotAt pg slot = some e) (hek : e.sameKey key = true) (mem : MemErr) :
    ∃ u : State, s.Accepted u n r pg slot e ∧ s.takeSlotOf n r .none mem = u.landPagein n (r.holding slot e) mem := by
  simp only [State.takeSlotOf, hr, hk, hp, hl, hpc, hpg, he, hek, beq_self_eq_true, Bool.and_self, Option.filter_some,
    ↓reduceIte, Bool.not_true, Bool.false_and, Bool.false_eq_true, reduceCtorEq, beq_iff_eq]
  refine ⟨_, ?_, rfl⟩
  split
  · exact (s.accepted n r pg slot e).palBump ..
  · exact s.accepted n r pg slot e

/-- Of a list in which `r` stands once, another put in its place and then taken out: `r` is gone. -/
theorem mem_erase_replace {α : Type} [DecidableEq α] {l : List α} {r : α} (h : l.count r = 1) (q y : α) :
    y ∈ (l.map fun x => if x == r then q else x).erase q ↔ y ∈ l ∧ y ≠ r := by
  obtain ⟨a, b, rfl⟩ := List.append_of_mem (List.count_pos_iff.mp (h ▸ Nat.one_pos))
  have hab : r ∉ a ++ b := by
    rw [List.count_append, List.count_cons_self] at h
    rw [← List.count_eq_zero, List.count_append]
    omega
  have hkeep {l : List α} (hl : r ∉ l) : (l.map fun x => if x == r then q else x) = l := by
    refine (List.map_congr_left fun x hx => ?_).trans (List.map_id l)
    simp [show x ≠ r from fun h => hl (h ▸ hx)]
  rw [List.mem_append, not_or] at hab
  rw [List.map_append, List.map_cons, beq_self_eq_true, if_pos rfl, hkeep hab.1, hkeep hab.2,
    (List.perm_middle.erase q).mem_iff, List.erase_cons_head]
  by_cases hy : y = r
  · simp [hy, hab.1, hab.2]
  · simp [hy]

section

variable {s u : State} {n pg slot : Nat} {r : PageIn} {e : Entry}

theorem State.Accepted.freeWay (h : s.Accepted u n r pg slot e) (set cls : Nat) :
    (u.cell n).pal.freeWay set cls = (s.cell n).pal.freeWay set cls := by
  obtain ⟨k, hk⟩ := h.pal
  rw [hk]; rfl

theorem State.Accepted.depth (h : s.Accepted u n r pg slot e) :
    (u.cell n).pal.depth.get 0 (64 * (r.set / 64) + slot) =
      (s.cell n).pal.depth.get 0 (64 * (r.set / 64) + slot) - 1 := by
  obtain ⟨k, hk⟩ := h.pal
  rw [hk, Tab.get_upd_same]

theorem State.Accepted.entries (h : s.Accepted u n r pg slot e) :
    (u.cell n).pal.entries = (s.cell n).pal.entries := by
  obtain ⟨k, hk⟩ := h.pal
  rw [hk]

theorem State.Accepted.shBlocks (h : s.Accepted u n r pg slot e) :
    (u.cell n).pal.shBlocks = (s.cell n).pal.shBlocks := by
  obtain ⟨k, hk⟩ := h.pal
  rw [hk]

theorem State.Accepted.wait (h : s.Accepted u n r pg slot e) : (u.cell n).pal.wait = (s.cell n).pal.wait := by
  obtain ⟨k, hk⟩ := h.pal
  rw [hk]

/-- With a way and the blocks to be had the accepted entry takes its place, and the page-in is over. -/
theorem State.Accepted.landPagein {w : Nat} (h : s.Accepted u n r pg slot e)
    (hc : (s.cell n).current e.ctx e.gen = true) (hwait : (s.cell n).pal.wait = [])
    (hw : (s.cell n).pal.freeWay (64 * (r.set / 64) + slot) 2 = some w)
    (hb : (s.cell n).pal.shBlocks + e.blocks ≤ 3584) (mem : MemErr) :
    u.landPagein n (r.holding slot e) mem =
      (u.dropPagein (r.holding slot e)).restore n (64 * (r.set / 64) + slot) w e :=
  State.landPagein_way rfl rfl (h.current ▸ hc) ((h.freeWay ..).trans hw) (h.shBlocks ▸ hb) (h.wait.trans hwait) mem

/-- Otherwise the page-in keeps it. -/
theorem State.Accepted.landPagein_stays (h : s.Accepted u n r pg slot e)
    (hc : (s.cell n).current e.ctx e.gen = true)
    (hw : (s.cell n).pal.freeWay (64 * (r.set / 64) + slot) 2 = none ∨
      3584 < (s.cell n).pal.shBlocks + e.blocks) (mem : MemErr) : u.landPagein n (r.holding slot e) mem = u :=
  State.landPagein_stays rfl (h.current ▸ hc) (by rwa [h.freeWay, h.shBlocks]) mem

/-- Placed or kept, the entry's slot stays empty and SPILL_DEPTH as it is. -/
theorem State.Accepted.landPagein_slotAt_depth (h : s.Accepted u n r pg slot e)
    (hc : (s.cell n).current e.ctx e.gen = true) (hwait : (s.cell n).pal.wait = []) (mem : MemErr) :
    (u.landPagein n (r.holding slot e) mem).cellar.slotAt pg slot = none ∧
    ((u.landPagein n (r.holding slot e) mem).cell n).pal.depth = (u.cell n).pal.depth := by
  by_cases hstay : (s.cell n).pal.freeWay (64 * (r.set / 64) + slot) 2 = none ∨
      3584 < (s.cell n).pal.shBlocks + e.blocks
  · rw [h.landPagein_stays hc hstay]
    exact ⟨h.slotAt, rfl⟩
  · obtain ⟨hw, hb⟩ := not_or.mp hstay
    obtain ⟨w, hw⟩ := Option.ne_none_iff_exists'.mp hw
    obtain ⟨_, _, _, _, hpal⟩ := (u.dropPagein (r.holding slot e)).restore_pal n (64 * (r.set / 64) + slot) w e
    rw [h.landPagein hc hwait hw (Nat.not_lt.mp hb), hpal]
    exact ⟨h.slotAt, rfl⟩

end

/-- The entry that a page-in brings back stands in its way as it was, with SPILLED on its operands. -/
theorem State.restore_at (s : State) (n set way : Nat) (e : Entry) :
    ((s.restore n set way e).cell n).pal.at (4 * set + way) = e.restored := by
  obtain ⟨_, _, _, _, h⟩ := s.restore_pal n set way e
  rw [Palette.at, h, Tab.get_set_same]

theorem pageinReturn_takes {s : State} {c : Fin 128} {i : Fin 4} {r : PageIn} (hr : s.pageinAt c.val i.val = some r)
    (hg : r.got = none) (err : PageinErr) :
    exec (.pageinReturn c i err) s = .next (s.takeSlotOf c.val r err.slot err.mem).stallCheck := by
  simp [exec, execPageinReturn, hr, hg]

/-! ## CELLAR_PURGE -/

@[simp] theorem State.tallySubs_cellar (s : State) (n ctx : Nat) (l : List Operand) :
    (l.foldl (fun s o => s.tallySub n ctx o.epar) s).cellar = s.cellar :=
  foldl_same (g := fun s (o : Operand) => s.tallySub n ctx o.epar) State.cellar (fun _ _ => rfl) l s

theorem State.purgePage_sheds (s : State) (pg ctx gen : Nat) :
    s.Sheds (s.purgePage pg ctx gen) fun k e => k = pg ∧ (e.2.ctx == ctx && e.2.gen == gen) = true := by
  unfold State.purgePage
  split
  next h => exact State.sheds_of_unused h _
  next p h =>
    refine State.sheds_clear_filter h (fun s x => ?_) _
    dsimp only
    split <;> simp [State.depthSub]

theorem State.purgePage_purges (s : State) (pg ctx gen : Nat) :
    (s.purgePage pg ctx gen).cellar.purges = s.cellar.purges := by
  unfold State.purgePage
  split
  · rfl
  · refine foldl_same (fun s => s.cellar.purges) (fun s x => ?_) ..
    dsimp only
    split <;> simp [State.depthSub]

/-- CELLAR_PURGE clears the oldest purge's slots from every linked page (R118). -/
theorem cellarPurge_sheds {s : State} {ctx gen : Nat} {rest : List (Nat × Nat)}
    (h : s.cellar.purges = (ctx, gen) :: rest) : ∃ t, exec (.cellarPurge []) s = .next t ∧ t.cellar.purges = rest ∧
      s.Sheds t fun k e => (∃ l ∈ s.cellar.lists, k ∈ l.2) ∧ e.2.ctx = ctx ∧ e.2.gen = gen := by
  simp only [exec, execCellarPurge, h, State.headerErrs_nil, Host.Outcome.next.injEq, exists_eq_left']
  constructor
  · rw [State.stallCheck_purges]
    exact foldl_same (fun s => s.cellar.purges) (fun s pg => s.purgePage_purges pg ctx gen) ..
  · have hfold := State.Sheds.foldl (fun (s : State) pg => s.purgePage_sheds pg ctx gen)
    simp only [State.Sheds, State.stallCheck_pages]
    refine State.Sheds.imp (hfold _ (s.modCellar fun x => { x with purges := rest })) ?_
    rintro pg p e hp he ⟨⟨l, hl, hpg⟩, hctx, hgen⟩
    have hmatch : (e.2.ctx == ctx && e.2.gen == gen) = true := by simp [hctx, hgen]
    refine ⟨pg, List.mem_filter.mpr ⟨List.mem_flatMap.mpr ⟨l, hl, hpg⟩, ?_⟩, rfl, hmatch⟩
    replace hp : s.cellar.pages.get none pg = some p := hp
    rw [hp]
    exact List.any_eq_true.mpr ⟨e, he, hmatch⟩

@[simp] theorem State.stallCheck_slotAt (s : State) (pg j : Nat) :
    s.stallCheck.cellar.slotAt pg j = s.cellar.slotAt pg j := by
  rw [Cellar.slotAt, State.stallCheck_pages, Cellar.slotAt]

/-- Settles O28: the walk of the list by `walk_append`, what a return leaves by `State.Accepted`, and what the
purge leaves by `cellarPurge_sheds`. -/
theorem cellarPageIns : Obligations.CellarPageIns := by
  unfold Obligations.CellarPageIns
  refine ⟨?request, fun s c i r hr ht hn => pageinNone_told hr ht hn, ?back, ?purge⟩
  case request =>
    intro s c i r hr ht hroom hfree l holds done
    have hno (a : List Nat) (ha : ∀ pg ∈ a, ¬holds pg) := Cellar.walk_append (c := s.cellar) (slot := r.set % 64)
      (key := r.key) ha
    refine ⟨fun hl => ?_, fun a pg b hab ha hpg => ?_⟩
    · have hw := hno l hl []
      rw [List.append_nil] at hw
      refine ⟨_, pageinRequest_taken hr ht hroom hfree (hw.trans rfl), ⟨rfl, rfl, rfl⟩, ?_⟩
      simp [State.setPagein, Cellar.walk]
    · have hw := hno a ha (pg :: b)
      rw [Cellar.walk_cons_hit hpg, ← hab] at hw
      refine ⟨_, _, pageinRequest_taken hr ht hroom hfree hw, ?_, ?_, ⟨rfl, rfl, rfl⟩, ?_⟩
      · rw [List.length_map]
        exact r.length_extra_le _
      · rw [List.forall_mem_map]
        intro x hx
        obtain ⟨hslot, hmask, hin⟩ := PageIn.mem_extra hx
        exact ⟨rfl, hslot, hmask, Cellar.mem_slotsOf hin⟩
      · simp [State.setPagein, Nat.add_comm]
  case back =>
    intro s c i r pg p slot key e hr hcount hg hsl hk hp hl hpc hpg he hek hc hwait set
    obtain ⟨u, hu, ht⟩ := State.takeSlotOf_wanted hsl hk hp hl hpc hpg he hek .none
    obtain ⟨hslot, hdepth⟩ := hu.landPagein_slotAt_depth hc hwait .none
    refine ⟨_, pageinReturn_takes hr hg _, ?_⟩
    simp only [ht, State.stallCheck_slotAt, State.stallCheck_cell, State.stallCheck_pageins, hdepth]
    refine ⟨hslot, hu.depth, fun hw => ?_, fun w hw hb => ?_⟩
    · rw [hu.landPagein_stays hc (.inl hw)]
      exact ⟨hu.pageins, hu.entries⟩
    · have hmem (y : PageIn) : y ∈ (u.dropPagein (r.holding slot e)).cellar.pageins ↔
          y ∈ s.cellar.pageins ∧ y ≠ r := by
        simpa only [State.dropPagein, State.modCellar_cellar, hu.pageins] using mem_erase_replace hcount _ y
      rw [hu.landPagein hc hwait hw hb, State.restore_cellar, State.restore_at]
      refine ⟨fun h => ((hmem r).mp h).2 rfl, fun y hy => by simp [hmem, hy], e.restored_sameKey, rfl, rfl, rfl,
        fun q _ => ?_⟩
      rw [Entry.restored_port, Option.map_map]
      rfl
  case purge =>
    intro s ctx gen rest h
    obtain ⟨t, ht, hrest, hshed⟩ := cellarPurge_sheds h
    refine ⟨t, ht, hrest, fun l hl pg hpg q hq e he hlife => ?_⟩
    obtain ⟨_, _, hlost⟩ := hshed pg q hq
    exact (hlost e he).2 ⟨⟨l, hl, hpg⟩, hlife⟩

end Sys2Proof.Machine
end

section
/-! PROOFS. The stall detector and the sweep of the ages (R124-R127). -/

namespace Sys2Proof.Machine
open Sys2Proof

/-! ## What the detector reads: an operation that leaves it leaves the detector and every context -/

/-- The time, the detector and the contexts. -/
def State.stallView (s : State) : Time × StallSt × Nat × Tab Ctx :=
  (s.time, s.cellar.stall, s.cellar.escapeAt, s.reeve.ctx)

@[simp] theorem State.modCell_stallView (n : Nat) (f : Cell → Cell) (s : State) :
    (s.modCell n f).stallView = s.stallView := rfl

@[simp] theorem State.sendCtl_stallView (s : State) (m : Ctl) : (s.sendCtl m).stallView = s.stallView := rfl

@[simp] theorem State.reeveBump_stallView (s : State) (k : ReeveCtr) (n : Nat) :
    (s.reeveBump k n).stallView = s.stallView := rfl

@[simp] theorem State.postEvent_stallView (s : State) (ev cause d0 d1 : Nat) (x y : Bool) :
    (s.postEvent ev cause d0 d1 x y).stallView = s.stallView := by
  obtain ⟨h, e⟩ := s.postEvent_frame ev cause d0 d1 x y
  rw [e]; rfl

@[simp] theorem State.returnCredit_stallView (s : State) (u ctx gen n : Nat) :
    (s.returnCredit u ctx gen n).stallView = s.stallView := by
  unfold State.returnCredit
  split <;> rfl

@[simp] theorem State.setCredit_stallView (s : State) (u ctx gen n : Nat) :
    (s.setCredit u ctx gen n).stallView = s.stallView := by
  unfold State.setCredit
  split <;> rfl

@[simp] theorem State.hubLeave_stallView (s : State) (code ctx gen : Nat) :
    (s.hubLeave code ctx gen).stallView = s.stallView := by
  simp only [State.hubLeave]
  split
  · rfl
  · simp

@[simp] theorem State.complete_stallView (s : State) (ring : Nat) (d : Desc) (live : Bool)
    (status detail result : Nat) (out : List Byte) :
    (s.complete ring d live status detail result out).stallView = s.stallView := by
  simp only [State.complete]
  split <;> rfl

@[simp] theorem State.completeWhere_stallView (s : State) (p : Running → Bool) (status result : Nat) :
    (s.completeWhere p status result).stallView = s.stallView :=
  foldl_same State.stallView (fun _ _ => by simp) _ _

@[simp] theorem State.endBindings_stallView (s : State) (ctx gen : Nat) :
    (s.endBindings ctx gen).stallView = s.stallView :=
  foldl_same State.stallView (g := fun s (k : Block) => s.bindBump k.binding .inactiveDrop) (fun _ _ => rfl) _ _

@[simp] theorem State.endMember_stallView (s : State) (ctx gen type : Nat) :
    (s.endMember ctx gen type).stallView = s.stallView :=
  foldl_same State.stallView (g := fun s (e : EpochRec) => s.gapNotice e.k type ctx gen 0xFFFF 0) (fun _ _ => rfl) _ _

@[simp] theorem State.refusePending_stallView (s : State) (h : Nat) :
    (s.refusePending h).stallView = s.stallView := by
  simp only [State.refusePending, State.completeWhere_stallView]
  rfl

/-! ## A context's record -/

@[simp] theorem Reeve.refer_ctx (r : Reeve) (c : Nat) : (r.refer c).ctx = r.ctx := by
  unfold Reeve.refer
  split <;> rfl

theorem State.ctxOf_modCtx (s : State) (c d : Nat) (f : Ctx → Ctx) :
    (s.modCtx c f).ctxOf d = if d = c then f (s.ctxOf c) else s.ctxOf d := by
  simp only [State.ctxOf, State.modCtx, Reeve.refer_ctx, Tab.get_upd]

/-! ## Releases: no time passes, the detector stays, and no context comes to life -/

/-- What a release leaves of the detector and of the contexts. -/
structure State.Releases (s t : State) : Prop where
  time : t.time = s.time
  stall : t.cellar.stall = s.cellar.stall
  escapeAt : t.cellar.escapeAt = s.cellar.escapeAt
  live : ∀ c, (t.ctxOf c).st = .live → (s.ctxOf c).st = .live

theorem State.Releases.of_stallView {s t : State} (h : t.stallView = s.stallView) : s.Releases t := by
  simp only [State.stallView, Prod.mk.injEq] at h
  obtain ⟨htime, hstall, hesc, hctx⟩ := h
  exact ⟨htime, hstall, hesc, fun c hl => by rwa [State.ctxOf, ← hctx]⟩

theorem State.Releases.trans {s t u : State} (h : s.Releases t) (g : t.Releases u) : s.Releases u where
  time := g.time.trans h.time
  stall := g.stall.trans h.stall
  escapeAt := g.escapeAt.trans h.escapeAt
  live c hl := h.live c (g.live c hl)

theorem State.Releases.foldl {β : Type} {g : State → β → State} (h : ∀ (s : State) b, s.Releases (g s b))
    (l : List β) (s : State) : s.Releases (l.foldl g s) := by
  induction l generalizing s with
  | nil => exact .of_stallView rfl
  | cons b l ih => exact (h s b).trans (ih (g s b))

/-- A change of one record that does not make it LIVE. -/
theorem State.Releases.modCtx (s : State) {c : Nat} {f : Ctx → Ctx}
    (h : (f (s.ctxOf c)).st = .live → (s.ctxOf c).st = .live) : s.Releases (s.modCtx c f) where
  time := rfl
  stall := rfl
  escapeAt := rfl
  live d hl := by
    rw [State.ctxOf_modCtx] at hl
    split at hl
    next hd => exact hd ▸ h hl
    · exact hl

theorem State.toHeld_releases (s : State) (c : Nat) : s.Releases (s.toHeld c) := by
  unfold State.toHeld
  extract_lets x needs _ s1 s2 s3
  have h1 : s.Releases s1 := .of_stallView rfl
  have h2 : s1.Releases s2 := .modCtx s1 fun h => by
    dsimp only at h
    split at h <;> cases h
  have h3 : s2.Releases s3 := .of_stallView (by simp only [s3]; split <;> simp)
  exact h1.trans <| h2.trans <| h3.trans <| .of_stallView (by simp)

/-- A context that is LIVE and installed is RELEASING first, and no later part of its release makes a
context LIVE. -/
theorem State.release1_of_installed {s : State} {c : Nat} (hl : (s.ctxOf c).st = .live)
    (hi : (s.ctxOf c).installed = true) (type : Nat) :
    ∃ cells, (s.modCtx c fun x => { x with st := .releasing, sweeps := cells }).Releases (s.release1 c type) := by
  refine ⟨(s.ctxOf c).cells.filter fun n => !s.fabric.iso.contains n, ?_⟩
  unfold State.release1
  extract_lets x cells s1 k s2 peak _ s3 told s4 s5 s6 s7 _ s8
  rw [if_neg (by simp [x, hl]), if_neg (by simp [x, hi])]
  have h3 : s3.stallView = s1.stallView := by simp only [s3]; split <;> rfl
  have h4 : s4.stallView = s3.stallView := foldl_same State.stallView (fun _ _ => by simp) _ _
  have h5 : s5.stallView = s4.stallView := by simp [s5]
  have h6 : s6.stallView = s5.stallView := foldl_same State.stallView (fun _ _ => by simp) _ _
  have h7 : s7.stallView = s6.stallView := by simp only [s7]; split <;> simp
  have h8 : s8.stallView = s7.stallView := by simp only [s8]; split <;> rfl
  have h : s1.Releases s8 := .of_stallView (h8.trans <| h7.trans <| h6.trans <| h5.trans <| h4.trans h3)
  split
  · exact h.trans (s8.toHeld_releases c)
  · exact h

theorem State.release1_releases (s : State) (c type : Nat) : s.Releases (s.release1 c type) := by
  by_cases hl : (s.ctxOf c).st = .live
  · by_cases hi : (s.ctxOf c).installed = true
    · obtain ⟨cells, h⟩ := State.release1_of_installed hl hi type
      exact (State.Releases.modCtx s fun _ => hl).trans h
    · simp only [State.release1, hl, hi, bne_self_eq_false, Bool.not_false, Bool.false_eq_true, ↓reduceIte]
      exact .modCtx s id
  · simp only [State.release1, bne_iff_ne, ne_eq, hl, not_false_eq_true, ↓reduceIte]
    exact .of_stallView rfl

theorem State.release1_ends {s : State} {c : Nat} (hi : (s.ctxOf c).installed = true) (type : Nat) :
    ((s.release1 c type).ctxOf c).st ≠ .live := by
  intro h
  have hl := (s.release1_releases c type).live c h
  obtain ⟨cells, hr⟩ := State.release1_of_installed hl hi type
  simpa [State.ctxOf_modCtx] using hr.live c h

/-- A release takes the context, and then its audited partner when it has one (R438). -/
theorem State.release1_release (s : State) (c type : Nat) : (s.release1 c type).Releases (s.release c type) := by
  unfold State.release
  split
  next d _ => exact State.release1_releases _ d type
  · exact .of_stallView rfl

/-! ## Aborts (R125-R127) -/

theorem State.release_abortCtx (s : State) (c : Nat) : (s.release c 0x02).Releases (s.abortCtx c) :=
  .of_stallView (State.postEvent_stallView ..)

theorem State.abortCtx_releases (s : State) (c : Nat) : s.Releases (s.abortCtx c) :=
  (s.release1_releases c 0x02).trans <| (s.release1_release c 0x02).trans (s.release_abortCtx c)

theorem State.abortCtx_ends {s : State} {c : Nat} (hi : (s.ctxOf c).installed = true) :
    ((s.abortCtx c).ctxOf c).st ≠ .live := fun h =>
  State.release1_ends hi 0x02 (((s.release1_release c 0x02).trans (s.release_abortCtx c)).live c h)

theorem State.quarantine_releases (s : State) (h : Nat) : s.Releases (s.quarantine h) := by
  unfold State.quarantine
  extract_lets live s1 s2 s3
  have h1 : s.Releases s1 := .of_stallView rfl
  have h2 : s1.Releases s2 := .foldl (fun s c => by
    split
    · exact s.abortCtx_releases c
    · exact .of_stallView rfl) live s1
  have h3 : s2.Releases s3 := .of_stallView (s2.refusePending_stallView h)
  exact h1.trans <| h2.trans <| h3.trans <| .of_stallView (by simp)

theorem State.abortNext_of_none {s : State} (h : s.victim = none) :
    s.abortNext = (s.cellarBump .stallNoCandidate).postEvent 305 0x51 := by
  simp only [State.abortNext, h]

theorem State.abortNext_of_victim {s : State} {c : Nat} {x : Ctx} (h : s.victim = some (c, x)) :
    (s.abortCtx c).Releases s.abortNext := by
  simp -zeta only [State.abortNext, h]
  extract_lets s1 recent times s2
  have h1 : s1.Releases s2 := .of_stallView rfl
  split
  · exact h1.trans (s2.quarantine_releases x.graph)
  · exact h1

theorem State.abortNext_releases (s : State) : s.Releases s.abortNext := by
  cases h : s.victim with
  | none =>
    rw [State.abortNext_of_none h]
    exact .of_stallView (State.postEvent_stallView ..)
  | some v => exact (s.abortCtx_releases v.1).trans (State.abortNext_of_victim h)

/-- The candidates are read from the Reeve and from the cells' banks alone (R125). -/
theorem State.victim_congr {s t : State} (hr : t.reeve = s.reeve) (hc : t.cells = s.cells) :
    t.victim = s.victim := by
  simp only [State.victim, State.candidate, hr, hc]

/-! ## STALL_TIMER_EXPIRY -/

/-- The state in which a declared stall looks for its first candidate. -/
def State.declareStall (s : State) : State :=
  ((s.modCellar fun c => { c with stall := .escape, escapeAt := s.time.now }).cellarBump
    .stallDeclared).postEvent 305 0x50

@[simp] theorem State.declareStall_cellar (s : State) : s.declareStall.cellar =
    { s.cellar with stall := .escape, escapeAt := s.time.now,
                    cnt := s.cellar.cnt.bump CellarCtr.stallDeclared.ctorIdx 1 } :=
  State.postEvent_cellar ..

theorem State.declareStall_rest (s : State) :
    s.declareStall.time = s.time ∧ s.declareStall.reeve = s.reeve ∧ s.declareStall.cells = s.cells := by
  unfold State.declareStall
  obtain ⟨h, e⟩ := State.postEvent_frame _ 305 0x50 0 0 false false
  rw [e]
  exact ⟨rfl, rfl, rfl⟩

section

variable {s : State}

theorem stallTimerExpiry_run (h : s.cellar.stall = .run) : exec .stallTimerExpiry s = .next s := by
  simp only [exec, execStallTimerExpiry, h]

theorem stallTimerExpiry_rest (h : s.cellar.stall ≠ .run) {u : State}
    (hu : u = s.reach (s.cellar.stallAt + 50000)) (hc : (u.stallC2 && u.stallC3) = false) :
    exec .stallTimerExpiry s = .next (u.modCellar fun c => { c with stall := .run }) := by
  subst hu
  cases hst : s.cellar.stall with
  | run => exact absurd hst h
  | armed => simp only [exec, execStallTimerExpiry, hst, hc, Bool.false_eq_true, ↓reduceIte]
  | escape => simp only [exec, execStallTimerExpiry, hst, hc, Bool.false_eq_true, ↓reduceIte]

theorem stallTimerExpiry_declares (h : s.cellar.stall = .armed) {u : State}
    (hu : u = s.reach (s.cellar.stallAt + 50000)) (hc : (u.stallC2 && u.stallC3) = true) :
    exec .stallTimerExpiry s = .next (u.declareStall.abortNext.modCellar fun c =>
      { c with stallAt := u.declareStall.abortNext.time.now }) := by
  subst hu
  simp only [exec, execStallTimerExpiry, h, hc, ↓reduceIte, State.declareStall]

end

/-- Settles O29: a declared stall by what every abort leaves (`State.Releases`) and what it does to its own
context (`State.abortCtx_ends`). -/
theorem stallDetector : Obligations.StallDetector := by
  unfold Obligations.StallDetector
  refine ⟨fun s h => stallTimerExpiry_run h, fun s h => ?expiry, fun s => ⟨_, rfl, rfl, ?sweep⟩⟩
  case expiry =>
    intro u
    refine ⟨stallTimerExpiry_rest h rfl, fun hc ha => ⟨_, stallTimerExpiry_declares ha rfl hc, ?_⟩⟩
    obtain ⟨htime, hreeve, hcells⟩ := u.declareStall_rest
    have hv : u.declareStall.victim = s.victim := State.victim_congr hreeve hcells
    have hr := u.declareStall.abortNext_releases
    refine ⟨hr.stall.trans (by simp), hr.escapeAt.trans (by simp), congrArg Time.now (hr.time.trans htime),
      fun hn => ?none, fun c x hx hi => ?victim⟩
    case none =>
      rw [State.abortNext_of_none (hv.trans hn)]
      obtain ⟨k, e⟩ := (u.declareStall.cellarBump .stallNoCandidate).postEvent_frame 305 0x51 0 0 false false
      rw [e]
      exact ⟨hreeve, congrArg (fun k : Cellar => k.cnt.bump CellarCtr.stallNoCandidate.ctorIdx 1)
        u.declareStall_cellar⟩
    case victim =>
      have hctx : u.declareStall.ctxOf c = s.ctxOf c := congrArg (fun r : Reeve => Tab.get ({} : Ctx) r.ctx c) hreeve
      exact fun hl => State.abortCtx_ends (hctx ▸ hi) ((State.abortNext_of_victim (hv.trans hx)).live c hl)
  case sweep =>
    simp only [Tab.mapV, Bool.and_eq_true, beq_iff_eq, decide_eq_true_eq]

end Sys2Proof.Machine
end

section
/-! PROOFS. The commands of the Watch and the flush (R141, R418, R429, R430, R432, R433, R442). -/

namespace Sys2Proof.Machine
open Sys2Proof Sys2Proof.Claims

/-! ## A command that every check passes is carried out (R10, R393) -/

/-- The command's own rules refuse nothing of a descriptor of ring `r`, and its late checks end no REST. -/
structure State.Allows (s : State) (r : Fin 64) (c : CmdSpec) : Prop where
  known    : c.op ∈ knownOps
  ring0    : c.ring0 = true → r = 0
  target   : c.target = true
  align    : c.align = []
  range    : c.range = []
  presence : c.presence = true → c.keyOnly = false ∧ s.authorised = true
  fails    : ∀ f ∈ c.fails, f.2 = false
  late     : c.late = false

section

variable {s : State} {r : Fin 64} {d : Desc} {b : HostBuf} {c : CmdSpec} {go : List Byte → State → State}

theorem State.Allows.serves (ha : s.Allows r c)
    (h : Comes s r d c.op c.sizes c.need c.lantern c.halted) : s.Serves r.val c d where
  known := h.opcode ▸ ha.known
  lantern := h.phase
  ring0 hr := congrArg Fin.val (ha.ring0 hr)

theorem State.Allows.misaligned (ha : s.Allows r c)
    (h : Comes s r d c.op c.sizes c.need c.lantern c.halted) : c.misaligned d = none := by
  have hb : d.hlen = 0 ∨ d.haddr.toNat % 64 = 0 := Decidable.or_iff_not_imp_left.mpr h.aligned
  rw [CmdSpec.misaligned_of_buffer hb h.words, ha.align]
  rfl

theorem State.Allows.outOfRange (ha : s.Allows r c)
    (h : Comes s r d c.op c.sizes c.need c.lantern c.halted) : c.outOfRange d (s.cmdRing r.val).cseq = none := by
  have hbuf : (d.hlen == 0 && d.haddr != 0) = false := by simpa using h.noBuf
  have hlen : (decide (2 ^ 28 < d.hlen.toNat) || decide (d.hlen.toNat < c.need)) = false := by
    simpa using ⟨h.bound, h.room⟩
  simp only [CmdSpec.outOfRange, h.order, h.flags, h.zero, hbuf, hlen, h.args, ha.target, ha.range,
    bne_self_eq_false, Bool.false_eq_true, ↓reduceIte, List.append_nil]
  rfl

theorem State.Allows.firstFail (ha : s.Allows r c)
    (h : Comes s r d c.op c.sizes c.need c.lantern c.halted) :
    s.firstFail r.val c d (s.cmdRing r.val).cseq = none := by
  have hs := ha.serves h
  have hp : (c.presence && !(if c.keyOnly then s.aon.present else s.authorised)) = false := by
    cases hc : c.presence
    · rfl
    · simp [ha.presence hc]
  have hh : (s.watch.fstate == .halted && !c.halted) = false := by
    simpa using h.halt
  have hl : ((c.fails.filter fun f => f.1 == eLocked) ++
      [(eState, s.watch.fstate == .halted && !c.halted)] ++ c.fails.filter fun f => f.1 != eLocked).find? (·.2) = none := by
    simp only [List.find?_eq_none, List.mem_append, List.mem_filter, List.mem_singleton, hh]
    rintro f ((hf | rfl) | hf)
    · simp [ha.fails f hf.1]
    · simp
    · simp [ha.fails f hf.1]
  simp only [State.firstFail, hs.known_here, ha.misaligned h, ha.outOfRange h, hp, hl]
  simp +contextual [hs.lantern]

/-- The command is carried out in the state where its slot is consumed, on the bytes of its buffer. -/
theorem State.Allows.does (ha : s.Allows r c)
    (h : Comes s r d c.op c.sizes c.need c.lantern c.halted) (hb : c.input = true → ∃ l, b = .data l) :
    s.hostCmd r d b c go = go (if c.input && d.hlen != 0 then bufBytes d b else []) (taken s r.val c.op) := by
  simp only [State.hostCmd, h.turn, h.opcode, State.fetched_firstFail, ha.firstFail h, ha.late, taken, bne_self_eq_false,
    Bool.not_true, Bool.false_and, Bool.or_self, Bool.or_false, Bool.false_eq_true, ↓reduceIte]
  cases hi : c.input
  · simp
  · obtain ⟨l, rfl⟩ := hb hi
    cases d.hlen != 0 <;> simp

/-- A command that reads no buffer. -/
theorem State.Allows.does_bare (ha : s.Allows r c)
    (h : Comes s r d c.op c.sizes c.need c.lantern c.halted) (hi : c.input = false) :
    s.hostCmd r d b c go = go [] (taken s r.val c.op) := by
  rw [ha.does h (by simp [hi]), hi]
  rfl

end

/-! ## What waking from REST leaves (R483, R515) -/

/-- The trace and the memory behind it are all that changes. -/
def State.TraceOnly (s t : State) : Prop := ∃ x f, t = { s with trace := x, fabric := f }

section TraceOnly

variable {s t u : State}

theorem State.TraceOnly.refl (s : State) : s.TraceOnly s := ⟨s.trace, s.fabric, rfl⟩

theorem State.TraceOnly.trans (h : s.TraceOnly t) (g : t.TraceOnly u) : s.TraceOnly u := by
  obtain ⟨x, f, rfl⟩ := h
  obtain ⟨y, g, rfl⟩ := g
  exact ⟨y, g, rfl⟩

theorem State.TraceOnly.ite {p : Prop} [Decidable p] (ht : s.TraceOnly t) (hu : s.TraceOnly u) :
    s.TraceOnly (if p then t else u) := by
  split <;> assumption

theorem State.TraceOnly.modTrace (h : s.TraceOnly t) (f : Trace → Trace) : s.TraceOnly (t.modTrace f) :=
  h.trans ⟨f t.trace, t.fabric, rfl⟩

theorem State.TraceOnly.modResp (h : s.TraceOnly t) (j : Nat) (f : Responder → Responder) :
    s.TraceOnly (t.modResp j f) :=
  h.trans ⟨t.trace, (t.modResp j f).fabric, rfl⟩

theorem State.TraceOnly.putPacket (h : s.TraceOnly t) (p : List Byte) : s.TraceOnly (t.putPacket p) := by
  unfold State.putPacket
  exact (h.modResp ..).modTrace _

theorem State.TraceOnly.writePacketTrace (h : s.TraceOnly t) (p : List Byte) :
    s.TraceOnly (t.writePacketTrace p) :=
  have g := State.TraceOnly.ite (h.putPacket _) h
  (State.TraceOnly.ite (g.modTrace _) (g.putPacket _)).modResp ..

theorem State.TraceOnly.writeSync (h : s.TraceOnly t) (k : Nat) : s.TraceOnly (t.writeSync k) :=
  (h.modTrace _).writePacketTrace _

theorem State.TraceOnly.syncEnabled (h : s.TraceOnly t) : s.TraceOnly t.syncEnabled :=
  State.TraceOnly.ite ((h.modTrace _).writeSync _) h

end TraceOnly

/-- The end of REST changes the power state, the event of it and the trace alone. -/
theorem State.leaveRest_frame (s : State) : ∃ h p t f,
    s.leaveRest = { s with host := h, power := p, trace := t, fabric := f } := by
  unfold State.leaveRest
  split
  · exact ⟨s.host, s.power, s.trace, s.fabric, rfl⟩
  · extract_lets _ u v
    obtain ⟨h, hv⟩ : ∃ h, v = { u with host := h } := u.postEvent_frame 453 0xC3 0 0 false false
    obtain ⟨t, f, ht⟩ : v.TraceOnly (if v.trace.en then (v.syncEnabled.writeSleep 0x05#8).writeSync 2 else v) :=
      .ite (((State.TraceOnly.refl v).syncEnabled.writePacketTrace _).writeSync 2) (.refl v)
    rw [ht, hv]
    exact ⟨h, u.power, t, f, rfl⟩

/-- A command acts on the cells and the Watch as they were when its descriptor came. -/
theorem taken_rest (s : State) (r op : Nat) :
    (taken s r op).cells = s.cells ∧ (taken s r op).watch = s.watch := by
  unfold taken
  split
  · exact ⟨rfl, rfl⟩
  · obtain ⟨h, p, t, f, e⟩ := (s.fetched r).leaveRest_frame
    rw [e]
    exact ⟨rfl, rfl⟩

@[simp] theorem taken_cell (s : State) (r op n : Nat) : (taken s r op).cell n = s.cell n :=
  congrArg (Tab.get ({} : Cell) · n) (taken_rest s r op).1

@[simp] theorem taken_watch (s : State) (r op : Nat) : (taken s r op).watch = s.watch := (taken_rest s r op).2

/-! ## The commands -/

section

variable {s : State} {r : Fin 64} {d : Desc} {b : HostBuf}

theorem cellFlush_does {bad : List Nat} {c : Fin 128} {scope : Nat}
    (h : Comes s r d 0x601 [1] 0 false false) (ht : d.target.toNat = c.val) (ha : d.arg [1] 0 = scope)
    (hs : scope ≤ 2) (hp : scope ≠ 0 → s.pairClass0 c.val = false) (hb : s.testing c.val = false) :
    let q := (s.cell c.val).que
    let k := (if scope = 1 then 0 else q.eb0.length + q.eb1.length) + if scope = 0 then 0 else q.express.length
    Does (.cellFlush r d ⟨b, bad⟩) s r d 0x601 (fun s => s.flush c.val (scope != 1) (scope != 0) bad) k := by
  intro q k
  have hstate : (scope != 0 && s.pairClass0 c.val) = false := by simpa using hp
  simp only [Does, exec, execCellFlush, ht, ha]
  rw [State.Allows.does_bare ?_ h rfl]
  · simp [k, q]
  · exact
      { known := (by decide : 0x601 ∈ knownOps), ring0 := by simp, target := by simp, align := rfl
        range := by simp [hs], presence := by simp, fails := by simp [hstate, hb], late := rfl }

theorem watchConfig_does {k : Fin 16} {l : List Byte} {p : List (Nat × Nat)}
    (h : Comes s r d 0x701 [] 0 false false) (ht : d.target.toNat = k.val) (hs : s.authorised = true)
    (hl : recLen d = [])
    (hp : params [rowEnum 5, rowTime 1000000 600000000000 1000000, rowNat 0 255] d (.data l) = .ok p) :
    let get := fun n => (p.find? fun e => e.1 == n).map (·.2)
    (∀ x, get 1 = some x → reactionFloor k.val ≤ x ∧
      (x < (s.reactionOf k.val).code → s.watch.lines.getLsbD k.val = false)) →
    Does (.watchConfig r d (.data l)) s r d 0x701 (State.modWatch fun w => { w with
      react := match get 1 with
        | some x => w.react.set none k.val
            (if reactionOfNat x = defaultReaction k.val then none else some (reactionOfNat x))
        | none => w.react
      quietNext := (get 2).getD w.quietNext
      budgetNext := (get 3).getD w.budgetNext }) := by
  intro get hx
  have hget : ∀ n, Params.get (.ok p) n = get n := fun _ => rfl
  simp only [Does, exec, execWatchConfig, ht, hp, hget, Params.val]
  rw [State.Allows.does ?_ h fun _ => ⟨l, rfl⟩]
  · rfl
  · refine
      { known := (by decide : 0x701 ∈ knownOps), ring0 := by simp, target := by simp, align := rfl
        range := ?range, presence := by simp [hs], fails := ?fails, late := rfl }
    case range =>
      cases hg : get 1 with
      | none => simp [hl, Params.bad]
      | some x => simp [hl, Params.bad, (hx x hg).1]
    case fails =>
      cases hg : get 1 with
      | none => simp
      | some x => simpa using (hx x hg).2

theorem faultForce_does {src : Fin 256} {f : State → State} (h : Comes s r d 0x702 [1] 0 false false)
    (ht : d.target.toNat = src.val) (hs : s.authorised = true) (ha : d.arg [1] 0 ≤ 1)
    (hf : let u := taken s r.val 0x702
      (if d.arg [1] 0 = 0 then u.unforce src.val
        else if !isLevel src.val 0xFE then u.forceRaise src.val
        else if u.watch.forceBits.contains src.val then u
        else (u.modWatch fun w => { w with forceBits := w.forceBits ++ [src.val] }).forceRaise src.val) = f u) :
    Does (.faultForce r d b) s r d 0x702 f := by
  simp only [Does, exec, execFaultForce, ht]
  rw [State.Allows.does_bare ?_ h rfl]
  · rw [← hf]
  · exact
      { known := (by decide : 0x702 ∈ knownOps), ring0 := by simp, target := by simp, align := rfl
        range := by simp [ha], presence := by simp [hs], fails := by simp, late := rfl }

theorem faultClear_does (h : Comes s r d 0x703 [] 0 true false) (ht : d.target = 0) (hs : s.authorised = true)
    (hw : s.watch.fstate = .faulted) (hl : s.watch.levels = []) (hf : s.watch.forceBits = []) :
    Does (.faultClear r d b) s r d 0x703 fun s =>
      let u := s.modWatch fun w => { w.toIdle with
        recTimes := [], cnt := w.cnt.bump WatchCtr.clears.ctorIdx 1 }
      u.postEvent 336 0x92 (u.watch.cnt.get 0 WatchCtr.clears.ctorIdx) := by
  simp only [Does, exec, execFaultClear]
  rw [State.Allows.does_bare ?_ h rfl]
  · rfl
  · exact
      { known := (by decide : 0x703 ∈ knownOps), ring0 := by simp, target := by simp [ht], align := rfl
        range := rfl, presence := by simp [hs], fails := by simp [hw, hl, hf], late := rfl }

theorem faultLogRead_does {from_ n : Nat} (h : Comes s r d 0x704 [2, 2] (32 * n) true true) (ht : d.target = 0)
    (h0 : d.arg [2, 2] 0 = from_) (hm : from_ ≤ 1023) (h1 : d.arg [2, 2] 1 = n) (hn : 1 ≤ n) (hn2 : n ≤ 1024)
    (hl : s.watch.logLost = false) :
    let l := (s.watch.log.drop from_).take n
    Does (.faultLogRead r d b) s r d 0x704 id l.length (l.flatMap LogEntry.bytes) := by
  intro l
  simp only [Does, exec, execFaultLogRead, h0, h1]
  rw [State.Allows.does_bare ?_ h rfl]
  · rfl
  · have hz : n ≠ 0 := by omega
    exact
      { known := (by decide : 0x704 ∈ knownOps), ring0 := by simp, target := by simp [ht], align := rfl
        range := by simp [hm, hn2, hz], presence := by simp, fails := by simp [hl], late := rfl }

theorem debugEnable_steward (h : Comes s r d 0x707 [1] 0 false false) (hs : s.authorised = true)
    (ht : d.target = 0) (ha : d.arg [1] 0 = 1) :
    Does (.debugEnable r d b) s r d 0x707 State.breakSteward := by
  simp only [Does, exec, execDebugEnable, ht, ha]
  rw [State.Allows.does_bare ?_ h rfl]
  · rfl
  · exact
      { known := (by decide : 0x707 ∈ knownOps), ring0 := by simp, target := by simp, align := rfl
        range := by simp, presence := by simp [hs], fails := by simp, late := rfl }

theorem debugEnable_pair {k : Fin 64} {on : Nat} (h : Comes s r d 0x707 [1] 0 false false) (hs : s.authorised = true)
    (ht : d.target.toNat = 2 ^ 24 + k.val) (he : s.testing (2 * k.val) = false)
    (ho : s.testing (2 * k.val + 1) = false) (ha : d.arg [1] 0 = on) (hn : on ≤ 1)
    (hp : on = 0 → s.pairClass0 (2 * k.val) = false) :
    Does (.debugEnable r d b) s r d 0x707 fun s => if on = 1 then s.breakPair k.val else s.restorePair k.val := by
  have h1 : d.target.toNat / 2 ^ 24 = 1 := by omega
  have h2 : d.target.toNat % 2 ^ 24 < 64 := by omega
  have h3 : d.target.toNat % 64 = k.val := by omega
  simp only [Does, exec, execDebugEnable, h1, h2, h3, ha]
  rw [State.Allows.does_bare ?_ h rfl]
  · rfl
  · exact
      { known := (by decide : 0x707 ∈ knownOps), ring0 := by simp, target := by simp, align := rfl
        range := by simp [hn], presence := by simp [hs], fails := by simpa [he, ho] using hp, late := rfl }

end

/-- Settles O36: no check stands against the command (`State.Allows`), so it does what its own text says. -/
theorem watchCommands : Obligations.WatchCommands := by
  unfold Obligations.WatchCommands
  refine ⟨?flush, ?config, ?force, ?clear, ?log, ?debug⟩
  case flush => exact fun s r d b bad c scope h ht ha hs hp hb => cellFlush_does h ht ha hs hp hb
  case config =>
    rintro s r d b k l p h ht hs hl rfl hp
    exact watchConfig_does h ht hs hl hp
  case force =>
    intro s r d b src h ht hs
    refine ⟨fun h0 => ?off, fun h1 hl => ?edge, fun h1 hl hm => ?held, fun h1 hl hm => ?level⟩
    case off => exact faultForce_does h ht hs (by omega) (by simp [h0])
    case edge => exact faultForce_does h ht hs (by omega) (by simp [h1, hl])
    case held => exact faultForce_does h ht hs (by omega) (by simp [h1, hl, hm])
    case level => exact faultForce_does h ht hs (by omega) (by simp [h1, hl, hm])
  case clear => exact fun s r d b h ht hs hw hl hf => faultClear_does h ht hs hw hl hf
  case log => exact fun s r d b from_ n h ht h0 hm h1 hn hn2 hl => faultLogRead_does h ht h0 hm h1 hn hn2 hl
  case debug =>
    refine fun s r d b k h hs => ⟨fun ht ha => debugEnable_steward h hs ht ha, fun ht he ho => ⟨fun ha => ?_, fun ha hp => ?_⟩⟩
    · simpa using debugEnable_pair (b := b) h hs ht he ho ha (Nat.le_refl 1) (by simp)
    · simpa using debugEnable_pair (b := b) h hs ht he ho ha (by simp) fun _ => hp

end Sys2Proof.Machine
end

section
/-! PROOFS. Firings begin (R134, R138-R145, R153-R159). -/

namespace Sys2Proof.Machine
open Sys2Proof Sys2Proof.Claims

/-! ## The registers at the start of a firing (R156-R159) -/

theorem Regs.gr_setG (r : Regs) {k : Nat} (hk : k ≠ 0) (v : BitVec 64) (j : Nat) :
    (r.setG k v).gr j = if j = k then v else r.gr j := by
  simp only [Regs.gr, Regs.setG, hk, ↓reduceIte, Tab.get_set]
  by_cases hj : j = k
  · simp [hj, hk]
  · simp [hj]

@[simp] theorem Regs.gr_setV (r : Regs) (k j : Nat) (v : BitVec 512) : (r.setV k v).gr j = r.gr j := rfl

/-- An operand fills its own g-register, and one that is absent leaves it. -/
theorem landOperand_gr {k : Nat} (hk : k ≠ 0) (o : Option (List Word)) (r : Regs) (h : r.gr k = 0) (j : Nat) :
    (landOperand k o r).gr j = if j = k then operandG o else r.gr j := by
  cases o with
  | none =>
    by_cases hj : j = k
    · simp [landOperand, operandG, hj, h]
    · simp [landOperand, hj]
  | some ws =>
    simp only [landOperand, operandG]
    split <;> simp [Regs.gr_setG _ hk]

/-- Nothing but the register files differs. -/
def Regs.SameRest (r t : Regs) : Prop := ∃ g v, t = { r with g := g, v := v }

theorem Regs.SameRest.setG {r t : Regs} (h : r.SameRest t) (k : Nat) (x : BitVec 64) : r.SameRest (t.setG k x) := by
  obtain ⟨g, v, rfl⟩ := h
  unfold Regs.setG
  split
  · exact ⟨g, v, rfl⟩
  · exact ⟨_, v, rfl⟩

theorem Regs.SameRest.landOperand {r t : Regs} (h : r.SameRest t) (k : Nat) (o : Option (List Word)) :
    r.SameRest (landOperand k o t) := by
  cases o with
  | none => exact h
  | some ws =>
    obtain ⟨g, v, e⟩ := h.setG k (BitVec.ofNat 64 (ofLE (wordsToBytes ws)))
    simp only [Machine.landOperand, e]
    split
    · exact ⟨g, v, rfl⟩
    · exact ⟨g, _, rfl⟩

/-- The operands, the context, the iteration and the firing word; every other register is zero. -/
theorem startRegs_gr (n : Nat) (p : Packet) (desc : BitVec 64) (j : Nat) :
    (startRegs n p desc).gr j =
      if j = 6 then BitVec.ofNat 64 (firingWord n p) else if j = 5 then BitVec.ofNat 64 p.iter
      else if j = 4 then BitVec.ofNat 64 p.ctx else if j = 3 then operandG p.c
      else if j = 2 then operandG p.b else if j = 1 then operandG p.a else 0 := by
  have hz : ∀ i, ({ mode := descMode desc, poisoned := p.ppois != 0, pc := descEntry desc } : Regs).gr i = 0 :=
    fun i => by simp [Regs.gr]
  simp only [startRegs, Regs.gr_setG _ (show (6 : Nat) ≠ 0 by decide), Regs.gr_setG _ (show (5 : Nat) ≠ 0 by decide),
    Regs.gr_setG _ (show (4 : Nat) ≠ 0 by decide)]
  rw [landOperand_gr (by decide), landOperand_gr (by decide), landOperand_gr (by decide), hz]
  · exact hz 1
  · rw [landOperand_gr (by decide) _ _ (hz 1)]; exact hz 2
  · rw [landOperand_gr (by decide), landOperand_gr (by decide) _ _ (hz 1)]
    · exact hz 3
    · rw [landOperand_gr (by decide) _ _ (hz 1)]; exact hz 2

theorem startRegs_rest (n : Nat) (p : Packet) (desc : BitVec 64) :
    Regs.SameRest { mode := descMode desc, poisoned := p.ppois != 0, pc := descEntry desc } (startRegs n p desc) :=
  have h : Regs.SameRest { mode := descMode desc, poisoned := p.ppois != 0, pc := descEntry desc } _ := ⟨[], [], rfl⟩
  ((((((h.landOperand 1 p.a).landOperand 2 p.b).landOperand 3 p.c).setG 4 _).setG 5 _).setG 6 _)

/-! ## A packet without an error begins its firing (R138, R156) -/

/-- The packet as it leaves its list (R139). -/
def Queues.takes (q : Queues) (x : Bool) (e : Queued) : Queues :=
  if x then { q with express := q.express.erase e, xHeld := e.pkt.words }
  else if q.filling then { q with eb0 := q.eb0.erase e, eHeld := e.pkt.words }
  else { q with eb1 := q.eb1.erase e, eHeld := e.pkt.words }

theorem State.takePacket_eq (s : State) (n : Nat) (x : Bool) (e : Queued) :
    s.takePacket n x e = s.modCell n fun c => { c with que := c.que.takes x e } := rfl

/-- The bank in which the firing of `p` has begun, `late` of its words not landed. -/
def Bank.fired (b : Bank) (n : Nat) (p : Packet) (desc : BitVec 64) (late : Nat) (a : Attr) : Bank :=
  { b with
    hdr := some p, regs := startRegs n p desc, unlanded := min late (p.words - 1), badWords := 0
    x0 := 0, x1 := 0, x2 := 0, x3 := 0, ops := [], budget := 0, issued := 0, held := false
    heldFor := none, ctxReq := none, wrote := [], attr := a }

theorem Bank.fired_begins (b : Bank) (n : Nat) (p : Packet) (desc : BitVec 64) (late : Nat) (a : Attr) :
    Begins (b.fired n p desc late a) n p desc late := by
  obtain ⟨g, v, e⟩ := startRegs_rest n p desc
  have hregs : (b.fired n p desc late a).regs = startRegs n p desc := rfl
  constructor
  case g1 => rw [hregs, startRegs_gr]; simp
  case g2 => rw [hregs, startRegs_gr]; simp
  case g3 => rw [hregs, startRegs_gr]; simp
  case g4 => rw [hregs, startRegs_gr]; simp
  case g5 => rw [hregs, startRegs_gr]; simp
  case g6 => rw [hregs, startRegs_gr]; rfl
  case rest =>
    intro k hk
    rw [hregs, startRegs_gr]
    repeat rw [if_neg (by omega)]
  case hdr => rfl
  case ops => exact ⟨rfl, rfl, rfl, rfl, rfl, rfl⟩
  case late => rfl
  all_goals rw [hregs, e]
  case clean => exact ⟨rfl, rfl, rfl, rfl, rfl, rfl⟩

@[simp] theorem Packet.portsOf_zero (p : Packet) : p.portsOf 0 = 0 := by
  simp [Packet.portsOf, b2n]

/-- Where no word is bad, landing changes the count of what is left alone. -/
theorem Bank.land_clean {b : Bank} {p : Packet} (h : b.hdr = some p) (hb : b.badWords = 0) (u : Nat) :
    b.land u = { b with unlanded := u } := by
  have hz : b.badWords.toNat = 0 := by rw [hb]; rfl
  simp only [Bank.land, h, hz, Nat.zero_mod, ↓reduceIte, Nat.sub_self]
  rw [hb]
  rfl

/-- An engine that the model names by a cell's number. -/
theorem engine_mod (c : Fin 128) (h : c.val % 128 < 128) : Engine.cell ⟨c.val % 128, h⟩ = .cell c := by
  congr
  exact Nat.mod_eq_of_lt c.isLt

/-- A firing's first words land without a change where none is bad. -/
theorem Bank.fired_land (b : Bank) (n : Nat) (p : Packet) (desc : BitVec 64) (late : Nat) (a : Attr) :
    (b.fired n p desc late a).land (min late (p.words - 1)) = b.fired n p desc late a :=
  Bank.land_clean rfl rfl _

/-- What the engine does with a packet in which the reader finds no error. -/
theorem State.startFiring_clean (s : State) (c : Fin 128) (x : Bool) (q : Queued) (late : Nat) :
    let p := q.pkt
    let u := ((s.takePacket c.val x q).queBump c.val (if x then .expressFired else .easelFired)).cellReturn
      c.val p.ctx p.gen p.cls p.nops
    s.startFiring c.val x q late {} =
      ((u.modBank (.cell c) x fun b => b.fired c.val p ((u.cell c.val).nodes.get 0 p.node) late
        (u.attrOf c.val p)).modBank (.cell c) x fun b => b.land (min late (p.words - 1))).freeLanded
          (.cell c) x 0 := by
  intro p u
  simp only [State.startFiring, engine_mod, Bool.false_eq_true, ↓reduceIte, show BitVec.toNat (0 : BitVec 12) = 0 from rfl,
    Nat.zero_mod, Packet.portsOf_zero, Nat.or_zero]
  rfl

/-- What a packet's reader leaves of the lists. -/
def Queues.lists (q : Queues) : List Queued × List Queued × List Queued × Bool := (q.eb0, q.eb1, q.express, q.filling)

theorem Queues.release_rest (q : Queues) (x : Bool) : (q.release x).lists = q.lists ∧ (q.release x).cnt = q.cnt := by
  unfold Queues.release Queues.relax
  split
  · split <;> exact ⟨rfl, rfl⟩
  · exact ⟨rfl, rfl⟩

/-- Landing changes the queues alone, and of them a counter and the words of the packet being read. -/
theorem State.freeLanded_cell (s : State) (c : Fin 128) (x : Bool) (was : Nat) :
    ∃ y, (s.freeLanded (.cell c) x was).cell c.val = { s.cell c.val with que := y } ∧
      y.lists = (s.cell c.val).que.lists ∧ y.cnt = (s.cell c.val).que.cnt.bump QueCtr.easelPe.ctorIdx
        (was - popCount 12 (s.bank (.cell c) x).badWords.toNat) := by
  have hfree : ∀ (p : Bool) (v : State) (q : Queues), v.cell c.val = { s.cell c.val with que := q } → ∃ y,
      (if p then v.modCell c.val fun k => { k with que := k.que.release x } else v).cell c.val =
        { s.cell c.val with que := y } ∧ y.lists = q.lists ∧ y.cnt = q.cnt := by
    intro p v q hv
    cases p
    · exact ⟨q, hv, rfl, rfl⟩
    · exact ⟨q.release x, by simp [hv], q.release_rest x⟩
  have hbump := State.cell_modCell_same s c.val fun k => { k with que := { k.que with
    cnt := k.que.cnt.bump QueCtr.easelPe.ctorIdx (was - popCount 12 (s.bank (.cell c) x).badWords.toNat) } }
  exact hfree _ _ _ hbump

@[simp] theorem State.cellReturn_cell (s : State) (n ctx gen cls k m : Nat) :
    (s.cellReturn n ctx gen cls k).cell m = s.cell m := by
  simp only [State.cellReturn, State.returnCredit]
  split
  · rfl
  · split <;> rfl

/-- The cell once the firing of `q` has begun: its bank, and its queues without the packet. -/
theorem State.startFiring_cell (s : State) (c : Fin 128) (x : Bool) (q : Queued) (late : Nat) :
    ∃ (b : Bank) (y : Queues), Begins b c.val q.pkt ((s.cell c.val).nodes.get 0 q.pkt.node) late ∧
      y.lists = ((s.cell c.val).que.takes x q).lists ∧
      (s.startFiring c.val x q late {}).cell c.val = { s.cell c.val with
        p := if x then b else (s.cell c.val).p, m := if x then (s.cell c.val).m else b, que := y } := by
  rw [State.startFiring_clean]
  dsimp only
  generalize hu : ((s.takePacket c.val x q).queBump c.val (if x then .expressFired else .easelFired)).cellReturn
      c.val q.pkt.ctx q.pkt.gen q.pkt.cls q.pkt.nops = u
  obtain ⟨z, hz, hl⟩ : ∃ z, u.cell c.val = { s.cell c.val with que := z } ∧
      z.lists = ((s.cell c.val).que.takes x q).lists := by
    rw [← hu, State.cellReturn_cell, State.queBump, State.cell_modCell_same, State.takePacket_eq,
      State.cell_modCell_same]
    exact ⟨_, rfl, rfl⟩
  clear hu
  obtain ⟨y, hy, hyl, -⟩ := State.freeLanded_cell ((u.modBank (.cell c) x fun b =>
    b.fired c.val q.pkt ((u.cell c.val).nodes.get 0 q.pkt.node) late (u.attrOf c.val q.pkt)).modBank (.cell c) x
      fun b => b.land (min late (q.pkt.words - 1))) c x 0
  refine ⟨(u.bank (.cell c) x).fired c.val q.pkt ((s.cell c.val).nodes.get 0 q.pkt.node) late (u.attrOf c.val q.pkt), y,
    Bank.fired_begins .., ?_, ?_⟩
  · rw [hyl, ← hl]
    simp only [State.modBank, State.cell_modCell_same]
    cases x <;> simp [hz]
  · rw [hy]
    simp only [State.modBank, State.cell_modCell_same, State.bank]
    cases x <;> simp [hz, Bank.fired_land]

/-! ## The engine takes it -/

/-- Two records of a cell in which the engine finds the same packets, nodes and banks. -/
structure Cell.SameTake (k j : Cell) : Prop where
  nodes   : j.nodes = k.nodes
  p       : j.p = k.p
  m       : j.m = k.m
  eb0     : j.que.eb0 = k.que.eb0
  eb1     : j.que.eb1 = k.que.eb1
  express : j.que.express = k.que.express

theorem Cell.SameTake.refl (k : Cell) : k.SameTake k := ⟨rfl, rfl, rfl, rfl, rfl, rfl⟩

theorem took_of_same {s u : State} {c : Fin 128} {x : Bool} {q : Queued} (late : Nat)
    (h : (s.cell c.val).SameTake (u.cell c.val))
    (hf : x = false → (u.cell c.val).que.filling = (s.cell c.val).que.filling) :
    let t := u.startFiring c.val x q late {}
    Took s t c x q late ∧ (t.cell c.val).que.filling = (u.cell c.val).que.filling ∧
      (t.cell c.val).preempted = (u.cell c.val).preempted := by
  obtain ⟨b, z, hb, hz, ht⟩ := u.startFiring_cell c x q late
  generalize u.startFiring c.val x q late {} = t at ht
  rw [h.nodes] at hb
  cases x with
  | true =>
    simp only [Queues.takes, Queues.lists, ↓reduceIte, Prod.mk.injEq] at hz
    obtain ⟨z0, z1, z2, z3⟩ := hz
    refine ⟨⟨?_, ?_, fun _ => ?_, nofun⟩, ?_, ?_⟩
    · simpa [State.bank, ht] using hb
    all_goals simp [State.bank, ht, z0, z1, z2, z3, h.m, h.eb0, h.eb1, h.express]
  | false =>
    have hf := hf rfl
    have hz : z.drain = (s.cell c.val).que.drain.erase q ∧ z.fill = (s.cell c.val).que.fill ∧
        z.express = (s.cell c.val).que.express ∧ z.filling = (u.cell c.val).que.filling := by
      cases hfl : (s.cell c.val).que.filling <;>
        simp_all [Queues.takes, Queues.lists, Queues.drain, Queues.fill, h.eb0, h.eb1, h.express]
    obtain ⟨zd, zf, ze, zl⟩ := hz
    refine ⟨⟨?_, ?_, nofun, fun _ => ?_⟩, ?_, ?_⟩
    · simpa [State.bank, ht] using hb
    all_goals simp [State.bank, ht, zd, zf, ze, zl, h.p]

/-- The swap of the banks, when it is due, changes which fills and nothing that a taken packet is read from. -/
theorem State.requestItem_cell (s : State) (n : Nat) :
    (s.cell n).SameTake ((s.requestItem n).cell n) ∧ ((s.requestItem n).cell n).preempted = (s.cell n).preempted ∧
    ((s.requestItem n).cell n).que.filling = ((s.cell n).que.filling ^^ (s.cell n).que.swapDue) := by
  unfold State.requestItem
  split
  next h =>
    simp only [State.queBump, State.cell_modCell_same, h, Bool.xor_true]
    exact ⟨⟨rfl, rfl, rfl, rfl, rfl, rfl⟩, trivial, rfl⟩
  next h =>
    simp only [Bool.not_eq_true] at h
    simp only [h, Bool.xor_false]
    exact ⟨.refl _, trivial, trivial⟩

section

variable {s : State} {c : Fin 128} {late : Fin 13} {q : Queued}

/-- The engine takes the express lane's head. -/
theorem firingStart_express (hon : s.engineOn c.val = true) (hp : (s.cell c.val).p.hdr = none)
    (hm : (s.cell c.val).m.hdr = none ∨ (s.cell c.val).preempted = true)
    (hq : headOf (s.cell c.val).que.express = some q) :
    exec (.firingStart c late {}) s = .next ((s.requestItem c.val).startFiring c.val true q late.val {}) := by
  have hm : ((s.cell c.val).m.hdr.isSome && !(s.cell c.val).preempted) = false := by
    rcases hm with h | h <;> simp [h]
  have hn : ((s.requestItem c.val).cell c.val).que.next true = some q := by
    simp [Queues.next, (s.requestItem_cell c.val).1.express, hq]
  simp [exec, execFiringStart, hon, hp, hm, hn]

/-- With no express packet and bank M free, it takes the draining bank's head. -/
theorem firingStart_easel (hon : s.engineOn c.val = true) (hp : (s.cell c.val).p.hdr = none)
    (hm : (s.cell c.val).m.hdr = none) (he : (s.cell c.val).que.express = [])
    (hq : headOf ((s.requestItem c.val).cell c.val).que.drain = some q) :
    exec (.firingStart c late {}) s = .next ((s.requestItem c.val).startFiring c.val false q late.val {}) := by
  have hn : ((s.requestItem c.val).cell c.val).que.next true = none := by
    simp [Queues.next, (s.requestItem_cell c.val).1.express, he, headOf]
  have hd : ((s.requestItem c.val).cell c.val).que.next false = some q := hq
  simp [exec, execFiringStart, hon, hp, hm, hn, hd]

/-- With nothing visible it gets the idle item (R138). -/
theorem firingStart_idle (he : (s.cell c.val).que.express = [])
    (h0 : (s.cell c.val).que.eb0 = []) (h1 : (s.cell c.val).que.eb1 = []) :
    exec (.firingStart c late {}) s = .next s := by
  have hf : (s.cell c.val).que.fill = [] := by simp [Queues.fill, h0, h1]
  have hd : (s.cell c.val).que.drain = [] := by simp [Queues.drain, h0, h1]
  have hr : s.requestItem c.val = s := by simp [State.requestItem, Queues.swapDue, hf]
  simp [exec, execFiringStart, hr, Queues.next, he, hd, headOf]

/-- An express packet while bank M runs outside a delay slot (R144). -/
theorem preemption_takes {h : Packet} (hon : s.engineOn c.val = true) (hp : (s.cell c.val).p.hdr = none)
    (hm : (s.cell c.val).m.hdr = some h) (hr : (s.cell c.val).preempted = false)
    (hs : (s.cell c.val).m.regs.slot = none) (ho : ∀ o ∈ (s.cell c.val).m.ops, o.kind ≠ .endFiring)
    (hq : headOf (s.cell c.val).que.express = some q) :
    exec (.preemption c late {}) s = .next ((((s.requestItem c.val).modCell c.val fun k =>
      { k with preempted := true }).queBump c.val .preempt).startFiring c.val true q late.val {}) := by
  have ho : ((s.cell c.val).m.ops.any fun o => o.kind == .endFiring) = false := by simpa using ho
  have hn : (s.cell c.val).que.next true = some q := hq
  simp [exec, execPreemption, hon, hp, hm, hr, hs, ho, hn]

end

/-- Settles O20: the packet taken by its case, and what its firing finds by `took_of_same`. -/
theorem firingStart : Obligations.FiringStart := by
  unfold Obligations.FiringStart
  refine ⟨fun s c late hon hp => ⟨?express, ?drain, ?swap, ?idle⟩, ?preempt⟩
  case express =>
    intro q hm hq _
    refine ⟨_, firingStart_express hon hp hm hq, ?_⟩
    exact (took_of_same (x := true) late.val (s.requestItem_cell c.val).1 nofun).1
  case drain =>
    intro q hm he hd hq _
    have hr : s.requestItem c.val = s := by simp [State.requestItem, Queues.swapDue, hd]
    refine ⟨_, firingStart_easel hon hp hm he (by rw [hr]; exact hq), ?_⟩
    rw [hr]
    exact (took_of_same (x := false) late.val (.refl _) fun _ => rfl).1
  case swap =>
    intro q hm he hd hh hq _
    have hdue : (s.cell c.val).que.swapDue = true := by
      have hf : (s.cell c.val).que.fill ≠ [] := fun h => by simp [h, headOf] at hq
      simp [Queues.swapDue, hd, hh, hf]
    obtain ⟨hsame, -, hfill⟩ := s.requestItem_cell c.val
    rw [hdue, Bool.xor_true] at hfill
    have hdrain : ((s.requestItem c.val).cell c.val).que.drain = (s.cell c.val).que.fill := by
      simp only [Queues.drain, Queues.fill, hfill, hsame.eb0, hsame.eb1]
      cases (s.cell c.val).que.filling <;> rfl
    generalize hu : (s.modCell c.val fun y => { y with que := { y.que with filling := !y.que.filling } }) = u
    have hflip : u.cell c.val = { s.cell c.val with
        que := { (s.cell c.val).que with filling := !(s.cell c.val).que.filling } } := by
      rw [← hu, State.cell_modCell_same]
    have htake : (u.cell c.val).SameTake ((s.requestItem c.val).cell c.val) := by
      rw [hflip]
      exact ⟨hsame.nodes, hsame.p, hsame.m, hsame.eb0, hsame.eb1, hsame.express⟩
    obtain ⟨htook, hleft, -⟩ := took_of_same (x := false) (q := q) late.val htake fun _ => by rw [hfill, hflip]
    exact ⟨_, firingStart_easel hon hp hm he (by rw [hdrain]; exact hq), hleft.trans hfill, htook⟩
  case idle => exact fun _ he h0 h1 => firingStart_idle he h0 h1
  case preempt =>
    intro s c late q h hon hp hm hr hs ho hq _
    obtain ⟨hsame, -, -⟩ := s.requestItem_cell c.val
    generalize hu : ((s.requestItem c.val).modCell c.val fun k => { k with preempted := true }).queBump c.val .preempt = u
    have htake : (s.cell c.val).SameTake (u.cell c.val) ∧ (u.cell c.val).preempted = true := by
      rw [← hu, State.queBump, State.cell_modCell_same, State.cell_modCell_same]
      exact ⟨⟨hsame.nodes, hsame.p, hsame.m, hsame.eb0, hsame.eb1, hsame.express⟩, rfl⟩
    obtain ⟨htook, -, hpre⟩ := took_of_same (x := true) (q := q) late.val htake.1 nofun
    refine ⟨_, preemption_takes hon hp hm hr hs ho hq, ?_⟩
    rw [hu]
    exact ⟨hpre.trans htake.2, htook⟩

end Sys2Proof.Machine
end

section
/-! PROOFS. RESUME, BREAK, DROPR and END (R139, R179, R181, R183, R227, R520). -/

namespace Sys2Proof.Machine
open Sys2Proof Sys2Proof.Claims

theorem Tab.get_bump (t : Tab Nat) (k n j : Nat) :
    (t.bump k n).get 0 j = if j = k then (t.get 0 k + n) % 2 ^ 32 else t.get 0 j := Tab.get_upd ..

/-! ## An instruction that goes on with registers of its own and an effect at write-back -/

theorem Op.begins_noCore {o : Op} (h : coreOf o.word = none) (p q : Core → Bool) : o.begins p = o.begins q := by
  unfold Op.begins
  rw [h]
  cases o.kind <;> rfl

/-- An operation that no core is for enters its bank and changes nothing else. -/
theorem State.pushOp_noCore (u v : State) (a : At) (x : Bool) (k : OpKind) (d : Option Nat)
    (hco : coreOf (u.exAt a x).w = none) : v.pushOp (u.exAt a x) k d =
      v.modBank a.eng x fun b => { b with ops := b.ops ++ [u.opAt a x k d] } := by
  have hb := Op.begins_noCore (o := { kind := k, n := (u.bankAt a.eng x).n, d := d, word := (u.exAt a x).w
                                      snap := (u.bankAt a.eng x).regs }) hco
    (fun c => ((u.fetchState a.eng x).coreOps a.eng c).any (·.begun)) fun _ => true
  simp only [State.pushOp, State.feedFor, State.exAt_e, State.exAt_x, hco, State.opAt, hb]
  rfl

/-- The counters and the debug unit of an engine's cell; the Steward has none. -/
def State.engCnt (s : State) (e : Engine) : Tab Nat := match e with | .cell n => (s.cell n.val).cnt | .steward => []
def State.engDbg (s : State) (e : Engine) : Debug := match e with | .cell n => (s.cell n.val).dbg | .steward => {}

section

variable {s u v : State} {a : At} {x : Bool} {w : Word} {w2 : Option Word} {r : Regs} {ds : List Dest} {k : OpKind}
  {go : Ex → State → Act × State}

/-- The state in which such an instruction's bank begins to retire. -/
theorem State.issue_gotoOp (h : Issues s a x w w2) (hc : Calm s a x ds) (hco : coreOf w = none)
    (hp : Part0 false s v a.eng x)
    (hgo : go (s.exAt a x) (s.fetchState a.eng x) = (.goto r ds (some k), v)) :
    ∃ u, s.issue a w w2 go = (u.retire a.eng x).afterIssue a.eng x ∧
      Part false s u ((s.engCnt a.eng).bump EngCtr.instrIssued.ctorIdx) (s.engDbg a.eng) a.eng x ∧
      u.bank a.eng x = { (v.bank a.eng x).noteWrites (s.bank a.eng x).n 1 ds with
        ops := (v.bank a.eng x).ops ++ [s.opAt a x k none], regs := ds.foldl (fun r d => d.apply r) r
        budget := (v.bank a.eng x).budget + 1, issued := (v.bank a.eng x).issued + 1
        n := (s.bank a.eng x).n + 1, held := false, heldFor := none } := by
  have hf := State.freeDoubles_none v (s.exAt a x) ds hc.fresh
  have hpush := State.pushOp_noCore s v a x k none (by rw [exw h]; exact hco)
  refine ⟨(v.modBank a.eng x fun b => { b with ops := b.ops ++ [s.opAt a x k none] }).issued (s.exAt a x)
    (ds.foldl (fun r d => d.apply r) r) ds, ?_, (hp.modBank _).issued .., ?_⟩
  · rw [State.issue_of h hc.unheld, hgo]
    simp only [reduceCtorEq, ↓reduceIte, State.carry, hf, hpush]
    rfl
  · have hi := State.bank_issued (v.modBank a.eng x fun b => { b with ops := b.ops ++ [s.opAt a x k none] })
      (s.exAt a x) (ds.foldl (fun r d => d.apply r) r) ds 1
    simp only [State.exAt_e, State.exAt_x, State.exAt_b, State.bank_modBank, State.bankAt_n] at hi
    exact hi

theorem State.retire1_nil {e : Engine} (h : (u.bank e x).ops = []) : u.retire1 e x = none := by
  simp only [State.retire1, h]

/-- A bank whose last operation leaves it. -/
theorem State.retire_one {e : Engine} (h1 : u.retire1 e x = some v) (hv : (v.bank e x).ops = []) :
    u.retire e x = v := by
  simp [State.retire, State.retireLoop, h1, State.retire1_nil hv]

/-- Behind operations in flight the new one waits for them. -/
theorem State.retire_behind (hc : Calm s a x ds) {o : Op} (hne : (s.bankAt a.eng x).ops ≠ [])
    (ho : ∀ i, o.kind ≠ .trap 0x0B i) (hu : (u.bank a.eng x).ops = (s.bankAt a.eng x).ops ++ [o]) :
    u.retire a.eng x = u := by
  refine State.retire_waits _ _ _ (hu ▸ head_push hc.waits (.inl hne)) (hu ▸ fun p hp => ?_)
  rcases List.mem_append.mp hp with hp | hp
  · exact hc.budget p hp
  · exact List.mem_singleton.mp hp ▸ ho

theorem Calm.quiet (hc : Calm s a x ds) : (s.engDbg a.eng).stepping = false ∧
    (a.eng = .steward → s.steward.stepping = false) := by
  have h := hc.steps
  unfold State.engDbg
  cases he : a.eng with
  | steward => rw [he] at h; exact ⟨rfl, fun _ => h⟩
  | cell n => rw [he] at h; exact ⟨h, nofun⟩

theorem Part.cnt {e : Engine} {n : Fin 128} {c : Tab Nat} {d : Debug} (h : Part false s u c d e x)
    (he : e = .cell n) : (u.cell n.val).cnt = c := by
  subst he
  rw [h.2.2]

theorem Part.popOp {e : Engine} {c : Tab Nat} {d : Debug} (h : Part false s u c d e x) (o : Op) :
    Part false s (u.popOp e x o) c d e x :=
  h.modBank _

theorem Part.quiet {e : Engine} {c : Tab Nat} {d : Debug} (h : Part false s u c d e x) (hd : d.stepping = false)
    (hs : e = .steward → s.steward.stepping = false) : Quiet u e := by
  cases e with
  | steward =>
    have hu : u = _ := h
    rw [Quiet, hu]
    exact hs rfl
  | cell n =>
    obtain ⟨-, -, h3⟩ := h
    rw [Quiet, h3]
    exact hd

theorem Part.que {e : Engine} {n : Fin 128} {c : Tab Nat} {d : Debug} (h : Part false s u c d e x)
    (he : e = .cell n) : (u.cell n.val).que = s.landedQue n x := by
  subst he
  rw [h.2.2]

/-- The only operation leaves its bank. -/
theorem State.popOp_only {e : Engine} {o : Op} (h : (u.bank e x).ops = [o]) :
    (u.popOp e x o).bank e x = { u.bank e x with ops := [] } := by
  simp [popOp_bank, h]

end

/-! ## RESUME (R183) -/

section

variable {s u : State} {a : At} {x : Bool} {w : Word} {w2 : Option Word}

/-- The loop count that RESUME writes: the record's, which its registers already hold. -/
def Regs.resumedCount (r : Regs) (v : Nat) : List Dest :=
  if bit v 23 then [.lc (field v 26 25) (r.lc.get 0 (field v 26 25))] else []

/-- What RESUME does when it issues. -/
def resumeGo (x : Ex) (s : State) : Act × State :=
  if !x.r.inHandler then (x.illegal, s)
  else (.goto (x.b.resumed x.seq x.base) ((x.b.resumed x.seq x.base).resumedCount x.b.x0.toNat) (some .resumed), s)

theorem exec_resume (a : At) (s : State) :
    exec (.resume a) s = .next (s.issue a (wordT 0x32#6 0 0 0 0 0x04#6) none resumeGo) := rfl

@[simp] theorem State.bankAt_x0 (s : State) (e : Engine) (x : Bool) : (s.bankAt e x).x0 = (s.bank e x).x0 := by
  obtain ⟨_, _, _, _, _, h, -⟩ := s.bankAt_eq e x; rw [h]

theorem Regs.foldl_resumedCount (r : Regs) (v : Nat) :
    let t := (r.resumedCount v).foldl (fun r d => d.apply r) r
    t = { r with lc := t.lc } ∧ ∀ j, t.lc.get 0 j = r.lc.get 0 j := by
  unfold Regs.resumedCount
  split
  · refine ⟨rfl, fun j => ?_⟩
    simp only [List.foldl_cons, List.foldl_nil, Dest.apply, Tab.get_set]
    split
    next h => rw [h]
    · rfl
  · exact ⟨rfl, fun _ => rfl⟩

theorem sameReg_lc (n u v : Nat) : (Dest.lc n u).sameReg = (Dest.lc n v).sameReg := by
  funext e
  cases e <;> rfl

theorem Regs.calm_resumedCount (r : Regs) {v : Nat}
    (hc : Calm s a x (if bit v 23 then [.lc (field v 26 25) 0] else [])) : Calm s a x (r.resumedCount v) := by
  unfold Regs.resumedCount
  split
  next h =>
    rw [if_pos h] at hc
    exact calm_same hc fun d hd => ⟨_, List.mem_singleton_self _, List.mem_singleton.mp hd ▸ sameReg_lc ..⟩
  · exact calm_nil hc

/-- With nothing before it the return retires at once, and is counted. -/
theorem State.retire_resumed {o : Op} (ho : (u.bank a.eng x).ops = [o]) (hk : o.kind = .resumed) :
    u.retire a.eng x = (u.popOp a.eng x o).exBump a.eng .excResumed := by
  refine State.retire_one ?_ ?_
  · simp only [State.retire1, ho, hk]
  · rw [State.bank_exBump, State.popOp_only ho]

/-- The handler ends, and the bank goes on at the place of the record; the return is counted when no earlier
operation can squash it. -/
theorem resume_goesOn (hw : words (.resume a) = some (a, w, w2)) (h : Issues s a x w w2)
    (hin : (s.bank a.eng x).regs.inHandler = true)
    (hc : Calm s a x (if bit (s.bank a.eng x).x0.toNat 23 then [.lc (field (s.bank a.eng x).x0.toNat 26 25) 0] else [])) :
    let r := (s.bankAt a.eng x).resumed (isSeq a.eng) (s.exAt a x).base
    ∃ t, exec (.resume a) s = .next t ∧
      (t.bank a.eng x).regs = { r with lc := (t.bank a.eng x).regs.lc } ∧
      (∀ k, (t.bank a.eng x).regs.lc.get 0 k = r.lc.get 0 k) ∧
      ((s.bankAt a.eng x).ops = [] → (t.bank a.eng x).ops = [] ∧
        ∀ c : Fin 128, a.eng = .cell c → (t.cell c.val).cnt.get 0 EngCtr.excResumed.ctorIdx =
          ((s.cell c.val).cnt.get 0 EngCtr.excResumed.ctorIdx + 1) % 2 ^ 32) ∧
      ((s.bankAt a.eng x).ops ≠ [] →
        (t.bank a.eng x).ops = (s.bankAt a.eng x).ops ++ [s.opAt a x .resumed none]) ∧
      Near s t a.eng x := by
  cases hw
  intro r
  have hcr := r.calm_resumedCount hc
  obtain ⟨u, hu, hp, hb⟩ := State.issue_gotoOp (r := r) (k := .resumed) (go := resumeGo) h hcr (by decide)
    (Part.fetch s a.eng x) (by simp [resumeGo, hin, r, Ex.seq])
  obtain ⟨hlc, hget⟩ := r.foldl_resumedCount (s.bank a.eng x).x0.toNat
  have hregs : (u.bank a.eng x).regs = (r.resumedCount (s.bank a.eng x).x0.toNat).foldl (fun r d => d.apply r) r := by
    rw [hb]
  have hops : (u.bank a.eng x).ops = (s.bankAt a.eng x).ops ++ [s.opAt a x .resumed none] := by
    rw [hb, State.fetchState_bank]
  refine ⟨_, (exec_resume a s).trans (congrArg _ hu), ?_⟩
  by_cases hn : (s.bankAt a.eng x).ops = []
  · have hone : (u.bank a.eng x).ops = [s.opAt a x .resumed none] := by rw [hops, hn]; rfl
    rw [State.retire_resumed hone rfl]
    obtain ⟨hpt, hbt⟩ := ((hp.popOp (s.opAt a x .resumed none)).exBump .excResumed 1).after hc.quiet.1 hc.quiet.2
    rw [State.bank_exBump, State.popOp_only hone] at hbt
    rw [hbt]
    refine ⟨by rw [hregs]; exact hlc, by rw [hregs]; exact hget, fun _ => ⟨rfl, fun c he => ?_⟩, fun h => absurd hn h,
      near_of_part hpt⟩
    rw [hpt.cnt he]
    rw [Tab.get_bump, if_pos rfl, Tab.get_bump, if_neg (by decide)]
    simp only [State.engCnt, he]
  · rw [State.retire_behind hc hn (fun i => by simp [State.opAt]) hops]
    obtain ⟨hpt, hbt⟩ := hp.after hc.quiet.1 hc.quiet.2
    rw [hbt, hregs]
    exact ⟨hlc, hget, fun h => absurd h hn, fun _ => hops, near_of_part hpt⟩

/-- Outside a handler it is misplaced. -/
theorem resume_illegal (hw : words (.resume a) = some (a, w, w2)) (h : Issues s a x w w2) (hal : Alone s a x)
    (hh : HasHandler s a x) :
    ∃ t, exec (.resume a) s = .next t ∧ Trapped s t a x 0x01 (BitVec.ofNat 64 w.toNat) := by
  cases hw
  refine ⟨_, exec_resume a s, fail_of h hal hh (by decide) ?_⟩
  simp [resumeGo, hh.1, Ex.illegal, exw h]

end

/-! ## DROPR (R139) -/

section

variable {s u : State} {a : At} {x : Bool} {w : Word} {w2 : Option Word}

/-- What DROPR does when it issues. -/
def droprGo (x : Ex) (s : State) : Act × State :=
  if x.b.unlanded = 0 then (.done [], s)
  else
    (.goto (x.fin ({ x.b with regs := x.base } : Bank).dropRest.regs) [] (some (.dropped x.b.unlanded x.b.badWords)),
      s.modBank x.e x.x fun b => { b with unlanded := 0, badWords := 0 })

theorem exec_dropr (a : At) (s : State) :
    exec (.dropr a) s = .next (s.issue a (wordT 0x32#6 0 0 0 0 0x03#6) none droprGo) := rfl

/-- With every word landed it does nothing. -/
theorem dropr_none (hw : words (.dropr a) = some (a, w, w2)) (h : Issues s a x w w2) (hc : Calm s a x [])
    (hu : (s.bankAt a.eng x).unlanded = 0) : ∃ t, exec (.dropr a) s = .next t ∧ Wrote s t a x [] := by
  cases hw
  refine ⟨_, exec_dropr a s, State.issue_done h hc ?_⟩
  simp [droprGo, hu]

/-- The state once the dropped words are counted and the packet's words freed. -/
def State.droppedAt (u : State) (e : Engine) (x : Bool) (n : Nat) : State :=
  match e with
  | .cell c => (u.queBump c.val .droprWords n).freeLanded e x 0
  | .steward => u

@[simp] theorem State.droppedAt_bank (u : State) (e : Engine) (x : Bool) (n : Nat) :
    (u.droppedAt e x n).bank e x = u.bank e x := by
  cases e with
  | steward => rfl
  | cell c => simp [State.droppedAt]

theorem State.retire_dropped {o : Op} {n : Nat} {bad : BitVec 12} (ho : (u.bank a.eng x).ops = [o])
    (hk : o.kind = .dropped n bad) : u.retire a.eng x = (u.popOp a.eng x o).droppedAt a.eng x n := by
  refine State.retire_one ?_ ?_
  · simp only [State.retire1, ho, hk]
    rfl
  · rw [State.droppedAt_bank, State.popOp_only ho]

theorem Near.queBump {c : Fin 128} (h : Near s u (.cell c) x) (k : QueCtr) (n : Nat) :
    Near s (u.queBump c.val k n) (.cell c) x :=
  h.modCell _ fun _ => ⟨rfl, rfl, rfl⟩

theorem Near.droppedAt {e : Engine} (h : Near s u e x) (n : Nat) : Near s (u.droppedAt e x n) e x := by
  cases e with
  | steward => exact h
  | cell c =>
    have hfree : ∀ (p : Bool) (v : State), Near s v (.cell c) x →
        Near s (if p then v.modCell c.val fun k => { k with que := k.que.release x } else v) (.cell c) x := by
      intro p v hv
      cases p
      · exact hv
      · exact hv.modCell _ fun _ => ⟨rfl, rfl, rfl⟩
    exact hfree _ _ ((h.queBump ..).queBump ..)

theorem State.droppedAt_cell (u : State) (c : Fin 128) (x : Bool) (n : Nat) :
    ∃ y, (u.droppedAt (.cell c) x n).cell c.val = { u.cell c.val with que := y } ∧
      y.cnt = ((u.cell c.val).que.cnt.bump QueCtr.droprWords.ctorIdx n).bump QueCtr.easelPe.ctorIdx 0 := by
  obtain ⟨y, hy, -, hc⟩ := (u.queBump c.val .droprWords n).freeLanded_cell c x 0
  rw [State.queBump, State.cell_modCell_same] at hy hc
  exact ⟨y, hy, by simpa using hc⟩

theorem Quiet.droppedAt {e : Engine} (h : Quiet u e) (n : Nat) : Quiet (u.droppedAt e x n) e := by
  cases e with
  | steward => exact h
  | cell c =>
    obtain ⟨y, hy, -⟩ := u.droppedAt_cell c x n
    rw [Quiet, hy]
    exact h

/-- Where no debugger steps the engine, the issue leaves its cell's mark of a passed breakpoint alone. -/
theorem Quiet.afterIssue_cell {n : Fin 128} (h : Quiet u (.cell n)) : (u.afterIssue (.cell n) x).cell n.val =
    { u.cell n.val with dbg := { (u.cell n.val).dbg with passed := false } } := by
  rw [Quiet] at h
  simp only [State.afterIssue, State.issue.stepStop, State.cell_modCell_same, h, Bool.false_and, Bool.false_eq_true,
    ↓reduceIte]

/-- Of the counters a release of words changes none. -/
theorem State.landedQue_cnt (s : State) (n : Fin 128) (x : Bool) : ∃ k,
    (s.landedQue n x).cnt = (s.cell n.val).que.cnt.bump QueCtr.easelPe.ctorIdx k := by
  have hrelease : ∀ (p : Bool) (q : Queues), (if p then q.release x else q).cnt = q.cnt := by
    intro p q
    cases p
    · rfl
    · exact (q.release_rest x).2
  exact ⟨_, hrelease _ _⟩

/-- The words that have not landed are dropped and their registers read zero; with no operation before it
DROPR_WORDS counts them at once, and then EASEL_PE counts none. -/
theorem dropr_drops (hw : words (.dropr a) = some (a, w, w2)) (h : Issues s a x w w2) (hc : Calm s a x [])
    (hu : (s.bankAt a.eng x).unlanded ≠ 0) :
    let b := s.bankAt a.eng x
    ∃ t, exec (.dropr a) s = .next t ∧ (t.bank a.eng x).unlanded = 0 ∧
      (t.bank a.eng x).badWords = 0 ∧
      (t.bank a.eng x).regs = ({ b with regs := (s.exAt a x).base } : Bank).dropRest.regs.finish
        (s.codeWord a.eng) (unitOf a.eng) (s.exAt a x).len ∧
      (b.ops = [] → (t.bank a.eng x).ops = [] ∧ ∀ c : Fin 128, a.eng = .cell c → (t.cell c.val).que.cnt =
        ((s.landedQue c x).cnt.bump QueCtr.droprWords.ctorIdx b.unlanded).bump QueCtr.easelPe.ctorIdx 0) ∧
      (b.ops ≠ [] → OnlyBank s t a.eng x ∧
        (t.bank a.eng x).ops = b.ops ++ [s.opAt a x (.dropped b.unlanded b.badWords) none]) ∧
      Near s t a.eng x := by
  cases hw
  intro b
  obtain ⟨v, hv, hp, hb⟩ := State.issue_gotoOp (k := .dropped b.unlanded b.badWords) (go := droprGo)
    (r := ({ b with regs := (s.exAt a x).base } : Bank).dropRest.regs.finish (s.codeWord a.eng) (unitOf a.eng)
      (s.exAt a x).len) h hc (by decide)
    ((Part.fetch s a.eng x).modBank fun b => { b with unlanded := 0, badWords := 0 }) (by
      simp only [droprGo, State.exAt_b, hu, ↓reduceIte]
      rfl)
  rw [State.bank_modBank, State.fetchState_bank] at hb
  have hland : (v.bank a.eng x).unlanded = 0 ∧ (v.bank a.eng x).badWords = 0 := by rw [hb]; exact ⟨rfl, rfl⟩
  have hregs : (v.bank a.eng x).regs = ({ b with regs := (s.exAt a x).base } : Bank).dropRest.regs.finish
      (s.codeWord a.eng) (unitOf a.eng) (s.exAt a x).len := by rw [hb]; rfl
  have hops : (v.bank a.eng x).ops = b.ops ++ [s.opAt a x (.dropped b.unlanded b.badWords) none] := by rw [hb]
  refine ⟨_, (exec_dropr a s).trans (congrArg _ hv), ?_⟩
  by_cases hn : b.ops = []
  · have hone : (v.bank a.eng x).ops = [s.opAt a x (.dropped b.unlanded b.badWords) none] := by rw [hops, hn]; rfl
    rw [State.retire_dropped hone rfl]
    have hpo := hp.popOp (s.opAt a x (.dropped b.unlanded b.badWords) none)
    have hq := (hpo.quiet hc.quiet.1 hc.quiet.2).droppedAt (x := x) b.unlanded
    obtain ⟨hnear, hbt⟩ := ((near_of_part hpo).droppedAt b.unlanded).after hq
    rw [State.droppedAt_bank, State.popOp_only hone] at hbt
    rw [hbt]
    refine ⟨hland.1, hland.2, hregs, fun _ => ⟨rfl, fun c he => ?_⟩, fun h => absurd hn h, hnear⟩
    have hque := hpo.que he
    rw [he] at hq ⊢
    obtain ⟨y, hy, hcnt⟩ := (v.popOp (.cell c) x (s.opAt a x (.dropped b.unlanded b.badWords) none)).droppedAt_cell c x
      b.unlanded
    rw [he] at hque
    simp only [hq.afterIssue_cell, hy, hcnt, hque]
  · rw [State.retire_behind hc hn (fun i => by simp [State.opAt]) hops]
    obtain ⟨hpt, hbt⟩ := hp.after hc.quiet.1 hc.quiet.2
    rw [hbt]
    exact ⟨hland.1, hland.2, hregs, fun h => absurd h hn,
      fun _ => ⟨hpt.only fun n he => ⟨by simp [State.engCnt, he], by simp [State.engDbg, he]⟩, hops⟩, near_of_part hpt⟩

/-- Where the counters are listed in rising order, a count of none leaves the list. -/
theorem Tab.bump_zero {t : Tab Nat} {k : Nat} (hw : Tab.wf 0 t = true) (hk : t.get 0 k < 2 ^ 32) : t.bump k 0 = t := by
  refine Tab.wf_ext 0 _ _ (Tab.upd_wf 0 t k _ hw) hw fun j => ?_
  rw [Tab.get_bump]
  split
  next h =>
    rw [h]
    exact Nat.mod_eq_of_lt hk
  · rfl

/-- So the table after a DROPR that retires at once is the one that its count of words alone leaves, where the
state's counters are listed in rising order. -/
theorem State.droprCounts {n : Fin 128} (hw : Tab.wf 0 (s.cell n.val).que.cnt = true) (m : Nat) :
    ((s.landedQue n x).cnt.bump QueCtr.droprWords.ctorIdx m).bump QueCtr.easelPe.ctorIdx 0 =
      (s.landedQue n x).cnt.bump QueCtr.droprWords.ctorIdx m := by
  obtain ⟨k, hk⟩ := s.landedQue_cnt n x
  rw [hk]
  refine Tab.bump_zero (Tab.upd_wf 0 _ _ _ (Tab.upd_wf 0 _ _ _ hw)) ?_
  rw [Tab.get_bump, if_neg (by decide), Tab.get_bump, if_pos rfl]
  exact Nat.mod_lt _ (by decide)

end

/-! ## END (R179) -/

/-- A walk of operations that keep a bank keeps it. -/
theorem State.bank_foldl {α : Type} {e : Engine} {x : Bool} {f : State → α → State}
    (hf : ∀ s y, (f s y).bank e x = s.bank e x) (l : List α) (s : State) : (l.foldl f s).bank e x = s.bank e x := by
  induction l generalizing s with
  | nil => rfl
  | cons y l ih => rw [List.foldl_cons, ih, hf]

section

variable (s : State) (n : Nat) (e : Engine) (x : Bool)

@[simp] theorem State.bank_tallyOut (p : Packet) : (s.tallyOut n p).bank e x = s.bank e x :=
  State.bank_foldl (fun _ _ => State.bank_modCell _ _ _ _ _ rfl rfl) _ s

@[simp] theorem State.bank_backToM : (s.backToM n).bank e x = s.bank e x := State.bank_modCell _ _ _ _ _ rfl rfl

@[simp] theorem State.bank_setCredit (c g k : Nat) : (s.setCredit n c g k).bank e x = s.bank e x := by
  unfold State.setCredit
  split
  · exact State.bank_modCell _ _ _ _ _ rfl rfl
  · cases e <;> rfl

@[simp] theorem State.bank_cellReturn (c g k m : Nat) : (s.cellReturn n c g k m).bank e x = s.bank e x := by
  have hcell : (s.cellReturn n c g k m).cells = s.cells ∧ (s.cellReturn n c g k m).steward = s.steward := by
    unfold State.cellReturn State.returnCredit
    split
    · exact ⟨rfl, rfl⟩
    · split <;> exact ⟨rfl, rfl⟩
  cases e <;> simp only [State.bank, State.cell, hcell]

@[simp] theorem State.bank_cellLeave : (s.cellLeave n).bank e x = s.bank e x := by
  refine State.bank_foldl (fun s y => ?_) _ s
  dsimp only
  split
  · rfl
  · rw [State.bank_modCell _ _ _ _ _ rfl rfl]
    exact State.bank_foldl (fun s pair => by simp [State.poolReturn]) _ s

@[simp] theorem State.bank_cellTrace (l : List Byte) : (s.cellTrace n l).bank e x = s.bank e x := by
  unfold State.cellTrace
  split
  · have h := State.bank_modCell s n (fun c => { c with traceDrop := (c.traceDrop + 1) % 2 ^ 32 }) e x rfl rfl
    cases e <;> exact h
  · exact State.bank_modCell _ _ _ _ _ rfl rfl

@[simp] theorem State.bank_traceFiring (y : Bool) (h : Packet) (c : Option Nat) :
    (s.traceFiring n y h c).bank e x = s.bank e x := by
  unfold State.traceFiring
  dsimp only
  split
  · exact State.bank_cellTrace ..
  · rfl

@[simp] theorem State.bank_stallEnd : s.stallEnd.bank e x = s.bank e x := by
  have hcheck : ∀ t : State, t.stallCheck.bank e x = t.bank e x := by
    intro t
    obtain ⟨a, b, h⟩ := t.stallCheck_frame
    rw [h]
    cases e <;> rfl
  unfold State.stallEnd
  split
  · rfl
  · rw [hcheck]; cases e <;> rfl
  · rw [hcheck]; cases e <;> rfl

end

/-- A firing leaves its bank empty. -/
theorem State.leaveBank_empties {s : State} {c : Fin 128} {x : Bool} {h : Packet}
    (hh : (s.bank (.cell c) x).hdr = some h) :
    ((s.leaveBank c.val x).bank (.cell c) x).hdr = none ∧ ((s.leaveBank c.val x).bank (.cell c) x).ops = [] := by
  simp only [State.leaveBank, engine_mod, hh, State.bank_cellLeave, State.bank_backToM]
  rw [State.bank_modCell _ _ _ _ _ rfl rfl, State.bank_tallyOut, State.bank_modBank]
  refine ⟨rfl, ?_⟩
  simp [State.squash]

/-- The debugger finds no firing to stop. -/
theorem State.afterIssue_of_empty {s : State} {c : Fin 128} {x : Bool} (hh : (s.bank (.cell c) x).hdr = none) :
    (s.afterIssue (.cell c) x).bank (.cell c) x = s.bank (.cell c) x := by
  have hp : (s.modCell c.val fun k => { k with dbg := { k.dbg with passed := false } }).bank (.cell c) x =
      s.bank (.cell c) x := State.bank_modCell _ _ _ _ _ rfl rfl
  have hs : (if x then ((s.modCell c.val fun k => { k with dbg := { k.dbg with passed := false } }).cell c.val).p
      else ((s.modCell c.val fun k => { k with dbg := { k.dbg with passed := false } }).cell c.val).m).hdr.isSome =
        false := by
    rw [← hp] at hh
    exact Option.isSome_eq_false_iff.mpr (Option.isNone_iff_eq_none.mpr hh)
  simp only [State.afterIssue, State.issue.stepStop, hs, Bool.and_false, Bool.false_eq_true, ↓reduceIte]
  split
  · rw [State.bank_modCell _ _ _ _ _ rfl rfl, hp]
  · exact hp

section

variable {s u : State} {a : At} {x : Bool} {w : Word} {w2 : Option Word}

/-- Landing keeps the class of the firing. -/
theorem State.bankAt_hdr {e : Engine} {h : Packet} (hh : (s.bank e x).hdr = some h) :
    ∃ h', (s.bankAt e x).hdr = some h' ∧ h'.cls = h.cls := by
  simp only [State.bankAt, Bank.landFor, hh, Bank.land]
  split <;> exact ⟨_, rfl, rfl⟩

theorem exec_endFiring (a : At) (s : State) : exec (.endFiring a) s =
    .next (s.issue a (wordT 0x32#6 0 0 0 0 0x02#6) none fun _ s => (.op .endFiring none, s)) := rfl

/-- With operations before it END waits behind them. -/
theorem endFiring_waits (hw : words (.endFiring a) = some (a, w, w2)) (h : Issues s a x w w2) (hc : Calm s a x [])
    (hn : (s.bankAt a.eng x).ops ≠ []) :
    ∃ t, exec (.endFiring a) s = .next t ∧ Started s t a x .endFiring none := by
  cases hw
  exact ⟨_, exec_endFiring a s, State.issue_op h hc nofun (.inl hn) rfl⟩

/-- The state in which the bank of an END begins to retire. -/
theorem State.issue_endFiring (h : Issues s a x w w2) (hc : Calm s a x []) :
    ∃ u, s.issue a w w2 (fun _ s => (.op .endFiring none, s)) = (u.retire a.eng x).afterIssue a.eng x ∧
      Part false s u ((s.engCnt a.eng).bump EngCtr.instrIssued.ctorIdx) (s.engDbg a.eng) a.eng x ∧
      (u.bank a.eng x).ops = (s.bankAt a.eng x).ops ++ [s.opAt a x .endFiring none] ∧
      (u.bank a.eng x).hdr = (s.bankAt a.eng x).hdr := by
  obtain ⟨hp, hb⟩ := State.pushed hc .endFiring none false
  have hi := State.bank_issued ((s.fetchState a.eng x).pushOp (s.exAt a x) .endFiring none) (s.exAt a x)
    ((s.exAt a x).base.finish (s.exAt a x).code (s.exAt a x).u (s.exAt a x).len) [] 0
  simp only [State.exAt_e, State.exAt_x, hb] at hi
  refine ⟨_, ?_, hp.issued ((s.exAt a x).base.finish (s.exAt a x).code (s.exAt a x).u (s.exAt a x).len) [] 0, ?_, ?_⟩
  · rw [State.issue_of h hc.unheld]
    rfl
  · rw [hi]
    rfl
  · rw [hi]
    rfl

/-- END retires where it is alone and no token of its firing is on offer. -/
theorem State.retire1_endFiring {c : Fin 128} {o : Op} {h : Packet} (ho : (u.bank (.cell c) x).ops = [o])
    (hk : o.kind = .endFiring) (hh : (u.bank (.cell c) x).hdr = some h) (hf : u.offersLeft c.val x h.cls = false) :
    let v := (u.traceFiring c.val x h none).leaveBank c.val x
    u.retire1 (.cell c) x = some (if 2 ≤ h.cls then v.stallEnd else v) := by
  simp [State.retire1, ho, hk, hh, hf]

/-- With nothing before it and no token on offer END empties the bank. -/
theorem endFiring_empties {c : Fin 128} {h : Packet} (hw : words (.endFiring a) = some (a, w, w2))
    (hi : Issues s a x w w2) (hc : Calm s a x []) (he : a.eng = .cell c) (hn : (s.bank a.eng x).ops = [])
    (hh : (s.bank a.eng x).hdr = some h) (hf : s.offersLeft c.val x h.cls = false) :
    ∃ t, exec (.endFiring a) s = .next t ∧ (t.bank a.eng x).hdr = none ∧ (t.bank a.eng x).ops = [] := by
  cases hw
  obtain ⟨h', hh', hcls⟩ := State.bankAt_hdr hh
  have hn' : (s.bankAt a.eng x).ops = [] := by
    obtain ⟨_, _, _, _, _, e, -⟩ := s.bankAt_eq a.eng x
    rw [e, hn]
    rfl
  obtain ⟨u, hu, hp, hops, hhdr⟩ := State.issue_endFiring hi hc
  refine ⟨_, (exec_endFiring a s).trans (congrArg _ hu), ?_⟩
  rw [hn', List.nil_append] at hops
  rw [hh'] at hhdr
  rw [he] at hp hops hhdr ⊢
  have hoff : u.offersLeft c.val x h'.cls = false := by
    obtain ⟨hrest, -⟩ := hp
    rw [hrest, hcls]
    exact hf
  obtain ⟨hnone, hemp⟩ := State.leaveBank_empties (s := u.traceFiring c.val x h' none) (h := h')
    (by rw [State.bank_traceFiring]; exact hhdr)
  generalize hv : (u.traceFiring c.val x h' none).leaveBank c.val x = v at hnone hemp
  have hend : ∀ t, t = (if 2 ≤ h'.cls then v.stallEnd else v) → t.bank (.cell c) x = v.bank (.cell c) x := by
    rintro t rfl
    split
    · exact State.bank_stallEnd ..
    · rfl
  have hret := State.retire1_endFiring hops rfl hhdr hoff
  rw [hv] at hret
  rw [State.retire_one hret (by rw [hend _ rfl]; exact hemp), State.afterIssue_of_empty (by rw [hend _ rfl]; exact hnone),
    hend _ rfl]
  exact ⟨hnone, hemp⟩

end

/-! ## BREAK (R181, R520) -/

theorem field_wordI_op (op : BitVec 6) (rd ra : BitVec 5) (imm : BitVec 16) :
    field (wordI op rd ra imm).toNat 31 26 = op.toNat := by
  have hrd := rd.isLt
  have hra := ra.isLt
  have himm := imm.isLt
  have hop := op.isLt
  simp only [field, wordI, BitVec.toNat_append]
  rw [← Nat.shiftLeft_add_eq_or_of_lt hrd, ← Nat.shiftLeft_add_eq_or_of_lt hra, ← Nat.shiftLeft_add_eq_or_of_lt himm]
  simp only [Nat.shiftLeft_eq]
  omega

theorem coreOf_brk (n : BitVec 10) :
    coreOf (wordI 0x32#6 (n.extractLsb' 5 5) (n.extractLsb' 0 5) 0x0005#16) = none := by
  simp only [coreOf, field_wordI_op]
  rfl

theorem State.traceDebug_off {s : State} (h : s.trace.en = false) (n k : Nat) (v : BitVec 64) :
    s.traceDebug n k v = s := by
  simp [State.traceDebug, h]

/-- The debug unit of a cell stops its engine. -/
def State.stopCell (s : State) (c : Fin 128) : State :=
  s.modCell c.val fun k => { k with dbg := { k.dbg with stopped := true, stepping := false } }

section

variable {s u v : State} {a : At} {x : Bool} {w : Word} {w2 : Option Word} {c : Fin 128} {o : Op} {info : BitVec 64}

/-- A debug stop that is the only operation of its bank: the record is written and the engine stops. -/
theorem State.takeBreak_eq (hv : (v.bank (.cell c) x).ops = [o]) (hk : ∃ i j, o.kind = .trap i j)
    (hin : o.snap.inHandler = false) (hh : (v.bank (.cell c) x).held = false) (htr : v.trace.en = false) :
    ∃ q f g : Bank → Bank, v.takeException (.cell c) x o 0x0A info =
      (((((v.modBank (.cell c) x q).exBump (.cell c) .instrSquashed ((v.bank (.cell c) x).n - o.n - 1)).exBump
        (.cell c) .excTaken).modBank (.cell c) x f).modBank (.cell c) x g).stopCell c ∧
      ∀ b, b = v.bank (.cell c) x → (g (f (q b))).ops = [] ∧ (g (f (q b))).x2 = info ∧
        (g (f (q b))).regs.pc = o.snap.pc := by
  have hu : v.unreserve (.cell c) x o = v := by
    obtain ⟨i, j, hk⟩ := hk
    simp only [State.unreserve, hk]
  unfold State.takeException State.squash
  simp only [hv, List.filter_cons, List.filter_nil, Nat.le_refl, decide_true, ↓reduceIte, List.foldl_cons,
    List.foldl_nil, hu, hin, hh, Bool.false_and, Bool.false_eq_true, bne_self_eq_false, Bool.and_false, Bool.or_self]
  refine ⟨_, _, _, State.traceDebug_off ?_ .., fun b hb => ⟨?_, rfl, rfl⟩⟩
  · exact htr
  · subst hb
    simp [hv]

/-- An exception that has been found, with every earlier operation finished, is taken. -/
theorem State.retire_trap {e : Engine} {code : Nat} (ho : (u.bank e x).ops = [o]) (hk : o.kind = .trap code info)
    (hd : o.d = some 1) (hg : ∀ p ∈ (u.bank e x).ghosts, p.n ≤ o.n)
    (hv : ((u.takeException e x o code info).bank e x).ops = []) :
    u.retire e x = u.takeException e x o code info := by
  refine State.retire_one ?_ hv
  have hghost : ((u.bank e x).ghosts.any fun p => decide (o.n < p.n)) = false := by simpa using hg
  simp [State.retire1, State.raise1, ho, hk, hd, hghost]

/-- What BREAK does when it issues. -/
def brkGo (n : BitVec 10) (x : Ex) (s : State) : Act × State :=
  let on := match x.e with
    | .cell c => s.debugOn c.val
    | .steward => false
  if on then (.fail 0x0A (n.setWidth 64), s) else (x.illegal, s)

theorem exec_brk (a : At) (n : BitVec 10) (s : State) : exec (.brk a n) s =
    .next (s.issue a (wordI 0x32#6 (n.extractLsb' 5 5) (n.extractLsb' 0 5) 0x0005#16) none (brkGo n)) := rfl

/-- Landing and fetching leave the Watch. -/
theorem State.fetchState_debugOn (s : State) (c : Fin 128) (x : Bool) (n : Nat) :
    (s.fetchState (.cell c) x).debugOn n = s.debugOn n := by
  obtain ⟨h, -⟩ := Near.fetch s (.cell c) x
  rw [h]
  rfl

theorem Near.countIssue {e : Engine} (h : Near s u e x) : Near s (u.countIssue e x true) e x := by
  simp only [State.countIssue, ↓reduceIte]
  exact (h.exBump _ _).modBank _

/-- The bank in which a BREAK waits alone for its stop. -/
theorem State.breakAlone (hal : Alone s a x) (hco : coreOf (s.exAt a x).w = none) :
    ∃ v, (s.fetchState a.eng x).earlyException (s.exAt a x) true 0x0A info = v.retire a.eng x ∧ Near s v a.eng x ∧
      v.bank a.eng x = { s.bankAt a.eng x with
        ops := [s.opAt a x (.trap 0x0A info) (some 1)], n := (s.bankAt a.eng x).n + 1
        budget := (s.bankAt a.eng x).budget + 1, issued := (s.bankAt a.eng x).issued + 1 } := by
  obtain ⟨-, hops, -⟩ := hal
  refine ⟨(((s.fetchState a.eng x).countIssue a.eng x true).modBank a.eng x fun b => { b with
    ops := b.ops ++ [s.opAt a x (.trap 0x0A info) (some 1)] }).modBank a.eng x fun b => { b with n := b.n + 1 }, ?_, ?_, ?_⟩
  · simp only [State.earlyException, show (0x0A : Nat) ≠ 0x0B by decide, ↓reduceIte, State.exAt_e, State.exAt_x]
    rw [State.pushOp_noCore s _ a x _ _ hco]
  · exact ((Near.fetch s a.eng x).countIssue.modBank _).modBank _
  · simp [hops]

/-- With debug enabled the cell stops before the instruction, with its number in XINFO. -/
theorem brk_stops {n : BitVec 10} (hw : words (.brk a n) = some (a, w, w2)) (h : Issues s a x w w2) (hal : Alone s a x)
    (he : a.eng = .cell c) (hon : s.debugOn c.val = true) (htr : s.trace.en = false)
    (hin : (s.bank a.eng x).regs.inHandler = false) :
    ∃ t, exec (.brk a n) s = .next t ∧ (t.cell c.val).dbg.stopped = true ∧
      (t.bank a.eng x).x2 = n.setWidth 64 ∧ (t.bank a.eng x).regs.pc = (s.bank a.eng x).regs.pc ∧
      (t.bank a.eng x).ops = [] ∧ Near s t a.eng x := by
  cases hw
  obtain ⟨v, hearly, hnear, hb⟩ := State.breakAlone (info := n.setWidth 64) hal (by rw [exw h]; exact coreOf_brk n)
  have hexec : exec (.brk a n) s = .next ((v.retire a.eng x).afterIssue a.eng x) := by
    have hgo : brkGo n (s.exAt a x) (s.fetchState a.eng x) = (.fail 0x0A (n.setWidth 64), s.fetchState a.eng x) := by
      simp [brkGo, he, State.fetchState_debugOn, hon]
    rw [exec_brk, State.issue_of h hal.1.unheld, hgo]
    simp only [reduceCtorEq, ↓reduceIte, State.carry, hearly]
  refine ⟨_, hexec, ?_⟩
  rw [he] at hnear hb ⊢
  obtain ⟨q, f, g, htake, hbank⟩ := State.takeBreak_eq (v := v) (x := x) (c := c) (info := n.setWidth 64)
    (o := s.opAt a x (.trap 0x0A (n.setWidth 64)) (some 1)) (by rw [hb]) ⟨_, _, rfl⟩
    (by simpa [State.opAt] using hin) (by rw [hb]; simpa [← he] using hal.1.unheld) (by rw [hnear.1]; exact htr)
  obtain ⟨hops, hx2, hpc⟩ := hbank _ rfl
  generalize hu : ((((v.modBank (.cell c) x q).exBump (.cell c) .instrSquashed _).exBump (.cell c) .excTaken).modBank
    (.cell c) x f).modBank (.cell c) x g = u at htake
  have hub : u.bank (.cell c) x = g (f (q (v.bank (.cell c) x))) := by rw [← hu]; simp
  have hun : Near s u (.cell c) x := hu ▸ ((((hnear.modBank _).exBump _ _).exBump _ _).modBank _).modBank _
  have hsb : (u.stopCell c).bank (.cell c) x = u.bank (.cell c) x := State.bank_modCell _ _ _ _ _ rfl rfl
  have hsq : Quiet (u.stopCell c) (.cell c) := by simp [Quiet, State.stopCell]
  obtain ⟨hat, hab⟩ := (show Near s (u.stopCell c) (.cell c) x from hun.modCell _ fun _ => ⟨rfl, rfl, rfl⟩).after hsq
  rw [State.retire_trap (by rw [hb]) rfl rfl ?ghosts (by rw [htake, hsb, hub]; exact hops), htake, hab, hsb, hub,
    hsq.afterIssue_cell]
  case ghosts =>
    rw [hb]
    exact he ▸ hal.2.2
  refine ⟨?_, hx2, hpc.trans ?_, hops, hat⟩
  · simp [State.stopCell]
  · simp [State.opAt, he]

/-- With debug disabled it is misplaced. -/
theorem brk_illegal {n : BitVec 10} (hw : words (.brk a n) = some (a, w, w2)) (h : Issues s a x w w2)
    (hal : Alone s a x) (hh : HasHandler s a x) (hoff : ∀ c : Fin 128, a.eng = .cell c → s.debugOn c.val = false) :
    ∃ t, exec (.brk a n) s = .next t ∧ Trapped s t a x 0x01 (BitVec.ofNat 64 w.toNat) := by
  cases hw
  refine ⟨_, exec_brk a n s, fail_of h hal hh (by decide) ?_⟩
  cases he : a.eng with
  | steward => simp [brkGo, he, Ex.illegal, exw h]
  | cell c => simp [brkGo, he, State.fetchState_debugOn, hoff c he, Ex.illegal, exw h]

end

end Sys2Proof.Machine
end

section
/-! PROOFS. DROPR and the table of its counter (R139). -/

namespace Sys2Proof.Machine
open Sys2Proof Sys2Proof.Claims

/-- The word of DROPR. -/
def droprWord : Word := wordT 0x32#6 0 0 0 0 0x03#6

/-- Cell 0 is about to issue DROPR, with one word of its packet not landed, and with counters of its queues
listed out of their rising order: DROPR_WORDS at 1, EXPRESS_FIRED at 1, EASEL_PE at 5. -/
def droprUnsorted : State :=
  let p : Packet := { node := 0, ctx := 0, gen := 0, iter := 0, cls := 2, epar := false, bell := false, npri := 0
                      ppois := 0, a := none, b := none, c := none, nops := 0, epars := [] }
  let q : Queues := { cnt := [(QueCtr.droprWords.ctorIdx, 1), (QueCtr.expressFired.ctorIdx, 1),
                              (QueCtr.easelPe.ctorIdx, 5)] }
  { State.reset with cells := [(0, { m := { hdr := some p, unlanded := 1 }, que := q, code := [(0, droprWord)] })] }

theorem droprUnsorted_issues : Issues droprUnsorted { eng := .cell 0 } false droprWord none where
  runs := by decide +kernel
  free := by decide +kernel
  word := by decide +kernel
  word2 := nofun
  clean := by decide +kernel
  slot := by decide +kernel

theorem droprUnsorted_ops : (droprUnsorted.bankAt (.cell 0) false).ops = [] := by decide +kernel

theorem droprUnsorted_calm : Calm droprUnsorted { eng := .cell 0 } false [] where
  waits := by simp [droprUnsorted_ops]
  budget := by simp [droprUnsorted_ops]
  fresh := by simp
  cores c := .inr (by cases c <;> decide +kernel)
  unheld := by decide +kernel
  steps := by decide +kernel

theorem droprUnsorted_unlanded : (droprUnsorted.bankAt (.cell 0) false).unlanded = 1 := by decide +kernel

/-- The state after it. -/
def droprNext : State :=
  match execDropr { eng := .cell 0 } droprUnsorted with
  | .next t => t
  | _ => droprUnsorted

/-- EASEL_PE is counted last, by no word, and its entry takes its place in the rising order anew. -/
theorem droprNext_cnt :
    (droprNext.cell 0).que.cnt =
      [(QueCtr.expressFired.ctorIdx, 1), (QueCtr.easelPe.ctorIdx, 5), (QueCtr.droprWords.ctorIdx, 2)] := by
  decide +kernel

theorem droprUnsorted_landedQue_cnt : (droprUnsorted.landedQue 0 false).cnt.bump QueCtr.droprWords.ctorIdx 1 =
    [(QueCtr.easelPe.ctorIdx, 5), (QueCtr.expressFired.ctorIdx, 1), (QueCtr.droprWords.ctorIdx, 2)] := by
  decide +kernel

/-- Refutes O10: DROPR with no operation before it counts DROPR_WORDS and then EASEL_PE by no word, so where the
state's counters are not listed in rising order its table is another list than the statement's. `dropr_drops` says
which list it is, and `State.droprCounts` that the two agree where the counters are listed in rising order. -/
theorem not_handlerAndFiringOps : ¬ Obligations.HandlerAndFiringOps := by
  unfold Obligations.HandlerAndFiringOps
  rintro ⟨-, -, hdropr, -⟩
  obtain ⟨t, ht, -, -, -, hnone, -⟩ := (hdropr { eng := .cell 0 } droprUnsorted false droprWord none rfl
    droprUnsorted_issues droprUnsorted_calm).2 (by rw [droprUnsorted_unlanded]; decide)
  have hcnt := (hnone droprUnsorted_ops).2 0 rfl
  have hnext : t = droprNext := by rw [droprNext, show execDropr _ _ = .next t from ht]
  rw [hnext, droprUnsorted_unlanded] at hcnt
  exact absurd (droprNext_cnt.symm.trans (hcnt.trans droprUnsorted_landedQue_cnt)) (by decide)

end Sys2Proof.Machine
end
